-- ==== Sys2Proof/Word.lean ====
section
/-! DEFINITION. The machine's word and byte (spec/00 R4, R5). -/

namespace Sys2Proof

/-- A 32-bit register or instruction word. -/
abbrev Word := BitVec 32

/-- One byte; memory is addressed in bytes (R5). -/
abbrev Byte := BitVec 8

end Sys2Proof
end

