-- ==== Sys2Proof/Syntax.lean ====
section
/-! DEFINITION. The instructions of spec/05 R85 and the module's steps that carry no encoding: one constructor of
`Instr` per row of spec/opcode_table.json. -/

namespace Sys2Proof

/-- v0 to v63 (R78). A group is written by its first register. -/
abbrev VReg := Fin 64
/-- p0 to p23. -/
abbrev PReg := Fin 24
/-- m0 to m11. -/
abbrev MReg := Fin 12
/-- g0 to g15; g0 to g7 belong to the troop, g8 to g15 to the band. -/
abbrev GReg := Fin 16
/-- c0 to c7. -/
abbrev CReg := Fin 8

/-- A permutation pattern with its amount (R82). -/
inductive Perm where
  | ident
  | rot (n : Fin 64)
  | bcast (n : Fin 64)
  | bfly (n : Fin 64)
  /-- amount 1 to 6 (`flipOk` in WellFormed) -/
  | flip (n : Fin 64)
  | up (n : Fin 64)
  deriving DecidableEq, Repr

/-- The rounding modes of R123, in code order. -/
inductive Rnd where
  | rne | rz | ru | rd | rna
  deriving DecidableEq, Repr

/-- CLAMP of the XM word (R83). -/
inductive Clamp where
  | none | unit | sym
  deriving DecidableEq, Repr

/-- The XG word (R80): a guard and the permutations of A and B. -/
structure XG where
  guard : Option PReg
  sense : Bool
  permA : Perm
  permB : Perm
  deriving DecidableEq, Repr

/-- The XM word (R83). `creg` is present when CV = 1. -/
structure XM where
  negA : Bool
  negB : Bool
  absA : Bool
  absB : Bool
  sat : Bool
  clamp : Clamp
  k : BitVec 4
  rnd : Rnd
  creg : Option VReg
  lc : Bool
  deriving DecidableEq, Repr

/-- What every encoded instruction carries beside its operands: the chain bit, the last-read bits, and its
extension words (R77, R79). -/
structure Mods where
  chain : Bool
  la : Bool
  lb : Bool
  xg : Option XG
  xm : Option XM
  deriving DecidableEq, Repr

/-- The format codes of R116, in code order. -/
inductive Fmt where
  | f32 | bf16 | f16 | e4m3 | e5m2 | e3m2 | e2m3 | e2m1 | e8m0
  | i32 | n32 | i16 | n16 | i8 | n8 | i4 | n4 | i64
  deriving DecidableEq, Repr

/-- Branch hints (R104, R106). -/
inductive Hint where
  | none | likely | unlikely | uniform
  deriving DecidableEq, Repr

/-- The three forms of VOTE with their destinations (R104). -/
inductive VoteForm where
  | any (d : PReg)
  | all (d : PReg)
  | ballot (d : VReg)
  deriving DecidableEq, Repr

/-- The variants of TRET (R303). -/
inductive TretKind where
  | retry | skip | migrate
  deriving DecidableEq, Repr

/-- The five forms of PMOV (R137). -/
inductive PmovForm where
  | pp (d a : PReg)
  | nz (d : PReg) (a : VReg)
  | toV (d : VReg) (a : PReg)
  | clr (d : PReg)
  | set (d : PReg)
  deriving DecidableEq, Repr

/-- Element types of IADD, ISUB and IMUL (R139). -/
inductive IntTy where
  | i32 | i16x2 | i8x4 | i64
  deriving DecidableEq, Repr

/-- Element types of IMIN and IMAX (R139). -/
inductive MinTy where
  | i32 | n32 | i16x2 | n16x2 | i8x4 | n8x4
  deriving DecidableEq, Repr

/-- Conditions of ICMP and NCMP. -/
inductive Cond where
  | eq | ne | lt | le | gt | ge
  deriving DecidableEq, Repr

/-- Operations of PLOP. -/
inductive PredOp where
  | and | or | xor | andn | orn | nand | nor | xnor
  deriving DecidableEq, Repr

/-- Floating variants of FADD to FMAX (R144). -/
inductive FloatTy where
  | f32 | bf16x2 | f16x2
  deriving DecidableEq, Repr

/-- Conditions of FCMP (R146). -/
inductive FCond where
  | eq | ne | lt | le | gt | ge | unord | ord
  deriving DecidableEq, Repr

/-- The functions of the SFU (R85). -/
inductive SfuFn where
  | rcp | rsq | sqrt | exp2 | log2 | sin | cos | tanh
  deriving DecidableEq, Repr

/-- Sizes of LD (R191). -/
inductive LdSize where
  | u8 | s8 | u16 | s16 | w | d | q
  deriving DecidableEq, Repr

/-- Sizes of ST (R191). -/
inductive StSize where
  | b | h | w | d | q
  deriving DecidableEq, Repr

/-- Cache policies of R191, R192. -/
inductive Policy where
  | norm | strm | keep
  deriving DecidableEq, Repr

/-- Orderings of atomics (R90). -/
inductive Ord4 where
  | rlx | acq | rel | acqrel
  deriving DecidableEq, Repr

/-- Orderings of FENCE (R253). -/
inductive FenceOrd where
  | acq | rel | acqrel
  deriving DecidableEq, Repr

/-- Scopes 0 to 6 (R248). -/
inductive Scope where
  | thread | troop | band | core | die | device | system
  deriving DecidableEq, Repr

/-- Operations of ATOM and RED, codes 0 to 13 (R196). -/
inductive AtomOp where
  | add | fadd | faddbf | smin | smax | umin | umax | and | or | xor | exch | cas | inc | dec
  deriving DecidableEq, Repr

/-- Variants of BARA (R264). -/
inductive BaraKind where
  | arrive | expect | arriveExpect
  deriving DecidableEq, Repr

/-- Variants of CSRW (R280). -/
inductive CsrMode where
  | write | set | clear
  deriving DecidableEq, Repr

/-- The kinds of a borrow (R159). -/
inductive Kind where
  | e | s | a
  deriving DecidableEq, Repr

/-- Conditions of BTST (R171). -/
inductive BtstCond where
  | held | pending | refused | empty | kids
  deriving DecidableEq, Repr

/-- Fields of BQRY (R171). -/
inductive BqryField where
  | lo | hi | len | stat | deed
  deriving DecidableEq, Repr

/-- Directions of TCPY (R219). -/
inductive TcpyDir where
  | memToTile | tileToMem | memToBench | benchToMem
  deriving DecidableEq, Repr

/-- Operations of NMC (R223). -/
inductive NmcOp where
  | fill | copy | cmp | add | min | max
  deriving DecidableEq, Repr

/-- The classes of outstanding-operation counters (R205), in code order. -/
inductive OpClass where
  | tag0 | tag1 | tag2 | tag3 | matrix | gather | coll | nearmem
  deriving DecidableEq, Repr

/-- Scale block lengths of a tile (R215). -/
inductive BlkLen where
  | b16 | b32 | b64
  deriving DecidableEq, Repr

/-- Register counts of ACCRD and ACCWR (R241). -/
inductive RegCount where
  | one | two | four | eight
  deriving DecidableEq, Repr

/-- What another module says of a collective chunk (R290, R291): its partial result, a 32-byte header and the elements; or
the outcome at its dies: every copy verified, or the kind and the hop of a failure that one of its hops detected. -/
inductive PeerNote where
  | partialResult (header : BitVec 256) (data : List Byte)
  | outcome (coll step chunk : Nat) (failed : Option (Fin 8 × Fin 256))
  deriving DecidableEq, Repr

/-- The word of a peer itself: the bytes of its partial result, with HOP of their header, or the outcome at its dies. -/
inductive PeerWord where
  | partialResult (hop : BitVec 8) (data : List Byte)
  | outcome (failed : Option (Fin 8 × Fin 256))
  deriving DecidableEq, Repr

/-- Reductions of COLL (R289). -/
inductive CollOp where
  | sum | min | max
  deriving DecidableEq, Repr

/-- A thread's name: its band, its troop's index in the band, its lane (R12). -/
structure Tid where
  band : Nat
  troop : Nat
  lane : Nat
  deriving DecidableEq, Repr

/-- Where an uncorrectable error is found (R319). -/
inductive ErrorSite where
  /-- a 128-byte line at its home, by line number (PA / 128) -/
  | homeLine (line : Nat)
  /-- a line of a core's L1 -/
  | l1Line (core line : Nat)
  /-- a guest line of a die's L2 -/
  | l2Line (die line : Nat)
  /-- a physical register, by the troop and the name that holds it -/
  | physReg (band troop : Nat) (name : VReg)
  /-- a reserve register of a trap slot -/
  | reserveReg (core slot reg : Nat)
  /-- a bench word, by core and local word index -/
  | benchWord (core word : Nat)
  /-- a byte of a tile, by core and physical tile -/
  | tileByte (core tile byte : Nat)
  /-- an accumulator element, by core, row and physical column -/
  | accElem (core row col : Nat)
  /-- the control state of a band: rename map, region, convergence or mask register, tile entry, board entry -/
  | control (band : Nat)
  /-- a die-to-die link 0 to 3, or a port 16 to 23 or 32, which replays -/
  | link (id : Nat)
  deriving DecidableEq, Repr

/-- What reaches its level in ACCESS_PERFORMED (R187, R252). -/
inductive PerformSite where
  /-- an access in flight, by its number -/
  | access (id : Nat)
  /-- the eviction or drop of a core's L1 line (R187, R192) -/
  | evictL1 (core line : Nat)
  /-- the eviction or drop of a guest line of a die's L2 -/
  | evictL2 (die line : Nat)
  deriving DecidableEq, Repr

/-- A management command's queue pair and command sequence (R340), which the move that brings the command carries. -/
structure Cmd where
  qp : Fin 1024
  seq : BitVec 32
  deriving DecidableEq, Repr

/-- What a peer module asks of this one (R343, R344): an engine transfer, a home atomic, or an ownership message (R177, R178)
with its tag, context or deed id. -/
inductive PeerOp where
  | read (len : Nat)
  | write (bytes : List Byte)
  | atomic (op : AtomOp) (w64 : Bool) (b c : BitVec 64)
  | dreq (asid len : Nat) (kind : Kind) (nowait : Bool) (tag : BitVec 64)
  | dcancel (tag : BitVec 64)
  | drel (deed : BitVec 64) (kind : Kind)
  deriving DecidableEq, Repr

/-- One constructor per row of spec/opcode_table.json: first the encoded instructions in the table's order, with the
unencoded steps of the module beside the instruction they belong to. -/
inductive Instr where
  -- control (R104, R303)
  | nop
  | bra (m : Mods) (cond : Option PReg) (sense : Bool) (hint : Hint) (off : BitVec 24)
  | brx (m : Mods) (hint : Hint) (a : VReg)
  | call (m : Mods) (d : VReg) (off : BitVec 24)
  | ret (m : Mods) (a : VReg)
  | join (m : Mods) (d : MReg)
  | leave (m : Mods) (d : MReg)
  | waitm (m : Mods) (a : MReg)
  | matchKeys (m : Mods) (k64 : Bool) (d a : VReg) (b : MReg)
  | vote (m : Mods) (form : VoteForm) (a : PReg) (b : MReg)
  | exit (m : Mods)
  | yield (m : Mods)
  | trap (m : Mods) (n : Word)
  | nap (m : Mods) (n : Word)
  | napExpire (t : Tid)
  | tret (m : Mods) (k : TretKind)
  -- moves (R137)
  | shfl (m : Mods) (d a b : VReg)
  | mov (m : Mods) (d a : VReg)
  | movi (m : Mods) (d : VReg) (imm : Word)
  | sel (m : Mods) (d a b : VReg) (c : PReg)
  | pmov (m : Mods) (form : PmovForm)
  -- integer (R139)
  | iadd (m : Mods) (ty : IntTy) (d a b : VReg)
  | isub (m : Mods) (ty : IntTy) (d a b : VReg)
  | imul (m : Mods) (ty : IntTy) (d a b : VReg)
  | imulh (m : Mods) (uns : Bool) (d a b : VReg)
  | imad (m : Mods) (d a b : VReg)
  | imadw (m : Mods) (uns : Bool) (d a b : VReg)
  | imin (m : Mods) (ty : MinTy) (d a b : VReg)
  | imax (m : Mods) (ty : MinTy) (d a b : VReg)
  | and (m : Mods) (d a b : VReg)
  | or (m : Mods) (d a b : VReg)
  | xor (m : Mods) (d a b : VReg)
  | andn (m : Mods) (d a b : VReg)
  | shl (m : Mods) (pair : Bool) (d a b : VReg)
  | shr (m : Mods) (pair : Bool) (d a b : VReg)
  | sar (m : Mods) (pair : Bool) (d a b : VReg)
  | rotl (m : Mods) (d a b : VReg)
  | popc (m : Mods) (d a : VReg)
  | clz (m : Mods) (d a : VReg)
  | brev (m : Mods) (d a : VReg)
  | bfe (m : Mods) (sgn : Bool) (d a : VReg) (pos : Fin 32) (len : Fin 64)
  | bfi (m : Mods) (d a b : VReg) (pos : Fin 32) (len : Fin 64)
  | lea (m : Mods) (d a b : VReg) (sh : Fin 32) (off : BitVec 24)
  | iaddi (m : Mods) (d a : VReg) (imm : Word)
  | icmp (m : Mods) (c : Cond) (d : PReg) (a b : VReg)
  | ncmp (m : Mods) (c : Cond) (d : PReg) (a b : VReg)
  | plop (m : Mods) (op : PredOp) (d a b : PReg)
  -- floating point (R144, R150, R152, R153)
  | fadd (m : Mods) (f : FloatTy) (d a b : VReg)
  | fsub (m : Mods) (f : FloatTy) (d a b : VReg)
  | fmul (m : Mods) (f : FloatTy) (d a b : VReg)
  | ffma (m : Mods) (f : FloatTy) (d a b : VReg)
  | fmin (m : Mods) (f : FloatTy) (d a b : VReg)
  | fmax (m : Mods) (f : FloatTy) (d a b : VReg)
  | fcmp (m : Mods) (c : FCond) (d : PReg) (a b : VReg)
  | frcp (m : Mods) (d a : VReg)
  | frsq (m : Mods) (d a : VReg)
  | fsqrt (m : Mods) (d a : VReg)
  | fexp2 (m : Mods) (d a : VReg)
  | flog2 (m : Mods) (d a : VReg)
  | fsin (m : Mods) (d a : VReg)
  | fcos (m : Mods) (d a : VReg)
  | ftanh (m : Mods) (d a : VReg)
  | frnd (m : Mods) (r : Rnd) (d a : VReg)
  | cvt (m : Mods) (df sf : Fmt) (r : Rnd) (satf : Bool) (esel : Fin 4) (d a : VReg)
  | f2i (m : Mods) (uns : Bool) (d a : VReg)
  | i2f (m : Mods) (uns : Bool) (d a : VReg)
  | fclass (m : Mods) (d a : VReg)
  | fdp4 (m : Mods) (aE5 bE5 : Bool) (d a b : VReg)
  | fdp8 (m : Mods) (d a b : VReg)
  | idp4 (m : Mods) (ua ub : Bool) (d a b : VReg)
  | idp8 (m : Mods) (ua ub : Bool) (d a b : VReg)
  | fscl (m : Mods) (d a b : VReg)
  | bswz (m : Mods) (d a b : VReg) (sel : BitVec 20)
  -- memory, atomics, barriers, system (R191, R195, R253, R264, R268, R272, R280)
  | ld (m : Mods) (sz : LdSize) (pol : Policy) (k : GReg) (d a : VReg) (off : BitVec 24)
  | st (m : Mods) (sz : StSize) (pol : Policy) (k : GReg) (a b : VReg) (off : BitVec 24)
  | atom (m : Mods) (ord : Ord4) (k : GReg) (sc : Scope) (op : AtomOp) (w64 : Bool) (d a b : VReg) (off : BitVec 20)
  | red (m : Mods) (ord : Ord4) (k : GReg) (sc : Scope) (op : AtomOp) (w64 : Bool) (a b : VReg) (off : BitVec 20)
  | atomc (m : Mods) (ord : Ord4) (k : GReg) (addeq : Bool) (task : BitVec 13) (d a b : VReg) (off : BitVec 13)
  | atomw (m : Mods) (ord : Ord4) (k : GReg) (d a b : VReg) (off : BitVec 24)
  | waitw (m : Mods) (k : GReg) (tmo : BitVec 4) (d a b : VReg) (off : BitVec 24)
  | waitwTimeout (t : Tid)
  | fence (m : Mods) (ord : FenceOrd) (sc : Scope)
  | bara (m : Mods) (kind : BaraKind) (k : GReg) (a b : VReg) (off : BitVec 24)
  | barw (m : Mods) (k : GReg) (a b : VReg) (off : BitVec 24)
  | csrr (m : Mods) (d : VReg) (num : BitVec 9)
  | csrw (m : Mods) (mode : CsrMode) (num : BitVec 9) (a : VReg)
  | snap (m : Mods)
  -- borrows (R168)
  | bor (m : Mods) (kind : Kind) (nowait : Bool) (d : GReg) (a b : VReg)
  | reb (m : Mods) (toS : Bool) (d a : GReg) (b : VReg)
  | spl (m : Mods) (d a : GReg) (b : VReg)
  | jon (m : Mods) (d a : GReg)
  | rtn (m : Mods) (rel : Bool) (a : GReg)
  | btst (m : Mods) (c : BtstCond) (d : PReg) (a : GReg)
  | bqry (m : Mods) (f : BqryField) (d : VReg) (a : GReg)
  | bwait (m : Mods) (a : GReg)
  -- tasks (R45, R50, R327)
  | spawn (m : Mods) (a : VReg) (task : BitVec 13)
  | spawna (m : Mods) (k : GReg) (a b : VReg) (task : BitVec 13) (off : BitVec 15)
  | launch (m : Mods) (k : GReg) (a : VReg) (off : BitVec 24)
  /-- the check of one device launch, by its number in the scheduler's list -/
  | deviceLaunchCheck (id : Nat)
  | depcSet (m : Mods) (ctr : BitVec 16) (a b : VReg) (task : BitVec 13)
  | depcAdd (m : Mods) (ctr : BitVec 16) (b : VReg)
  | depcArrive (m : Mods) (ctr : BitVec 16)
  | chwait (m : Mods)
  -- engines and tiles (R209, R211, R219, R223, R207, R215, R216)
  | cpy (m : Mods) (tag : Fin 4) (d s : GReg) (a b : VReg) (val : Fin 64)
  /-- an engine operation, by its number -/
  | cpyComplete (op : Nat)
  | gath (m : Mods) (d s : GReg) (a b : VReg) (rb : BitVec 12)
  | gathComplete (op : Nat)
  | tcpy (m : Mods) (dir : TcpyDir) (g : GReg) (a : VReg) (hnd : BitVec 12) (tile : Fin 512) (bg : GReg)
      (tag : Fin 4) (dc tr : Bool)
  | tcpyComplete (op : Nat)
  | nmc (m : Mods) (op : NmcOp) (d s r : GReg) (fmt : Fmt) (a : VReg)
  | nmcComplete (op : Nat)
  | cwait (m : Mods) (cls : OpClass) (n : BitVec 8)
  | copyFault (op : Nat)
  | trsv (m : Mods) (tile : Fin 512) (af bf : Fmt) (blk : BlkLen) (fills : Fin 4) (sc : Bool) (soff : BitVec 8)
  | trel (m : Mods) (a : VReg)
  /-- the zeroing of one released tile, by core and physical tile -/
  | trelZero (core tile : Nat)
  -- matrix (R231, R235, R241, R242)
  | cset (m : Mods) (d : CReg) (a : MReg)
  | mma (m : Mods) (zi dec : Bool) (a : VReg) (tile : Fin 512) (col : BitVec 12) (ck : CReg) (ru : Bool)
  | accrd (m : Mods) (df : Fmt) (r : Rnd) (satf : Bool) (d : VReg) (col : BitVec 12) (nr : RegCount) (zr : Bool)
  | accwrReg (m : Mods) (sf : Fmt) (a : VReg) (col : BitVec 12) (nr : RegCount) (add : Bool)
  | accwrTile (m : Mods) (tile : Fin 512) (col : BitVec 12) (row0 : Fin 64) (add : Bool)
  | matrixEntryPerform (core : Nat)
  | governorWindow (core : Nat)
  -- collectives (R289)
  | coll (m : Mods) (cross : Bool) (opr : CollOp) (fmc : Fin 4) (lenu : Fin 512) (npm : Fin 16) (s d : GReg) (a : VReg)
  /-- an input reaches the reducer; `got` are its header and bytes where the link damaged them, `out` the last reduction's
  output where the reducer went wrong -/
  | collInputArrive (op : Nat) (got : Option (BitVec 256 × List Byte)) (out : Option (List Byte))
  /-- a peer's word on a chunk of a context, over a port, with the header's other fields (R283); `out` as above -/
  | collPartialArrive (asid : Nat) (coll : BitVec 16) (step : BitVec 8) (chunk : BitVec 24) (port : Fin 8) (modnum : Nat)
      (opr : BitVec 2) (fmt : BitVec 5) (told : PeerWord) (t : BitVec 64) (w : BitVec 128) (wsat : Bool) (out : Option (List Byte))
  /-- the delivery of one chunk slot; `bad` names the dies whose copy failed its transport check -/
  | collDeliver (slot : Nat) (bad : List Nat)
  | collTimeout (slot : Nat)
  -- issue and traps (R95, R299, R298, R312, R319)
  | formationRound (core : Nat)
  | trapEnter (core : Nat)
  | asyncTrapDeliver (id : Nat)
  | pairActCompare (act : Nat)
  | pairwaitTimeout (act : Nat)
  | ueDetected (site : ErrorSite)
  | correctedError (core : Nat)
  -- the front end (R38 to R43)
  | kick (q : Fin 64) (target : Word)
  | queueSlotReread (q : Fin 64)
  | kickAheadTimeout (q : Fin 64)
  | nopPacket (q : Fin 64)
  | gridPacket (q : Fin 64)
  | ctxnew (q : Fin 64)
  | ctxkill (q : Fin 64)
  | reclaimWalkEnd (asid : Nat)
  -- the scheduler (R54, R59, R308, R66, R49)
  | turnBoundary (quad : Fin 16)
  /-- places or restores a band on the named cores, in increasing order -/
  | bandPlace (band : Nat) (cores : List Nat)
  | bandSaveComplete (band : Nat)
  | regsPoolPreempt (core : Nat)
  | sliceQueueDrain (slice : Nat)
  | ringDrain (asid : Nat)
  -- ownership messages (R177), each by its message number
  | dreq (msg : Nat)
  | dgrant (msg : Nat)
  | drefuse (msg : Nat)
  | dcancel (msg : Nat)
  | drel (msg : Nat)
  | drelack (msg : Nat)
  | rtnWritebackDone (ret : Nat)
  /-- a waiting request, by its tag -/
  | deedwaitTimeout (tag : Nat)
  | deedEntryLost (home entry : Nat)
  | dquery (msg : Nat)
  | dhold (msg : Nat)
  | deedRebuildEnd (home : Nat)
  /-- the peer requests that time out: an engine operation, an access or a borrow piece, by number -/
  | peerTimeout (id : Nat)
  -- retirement (R323, R325)
  | troopRetire (band troop : Nat)
  | bandRetire (band : Nat)
  -- the host and the module (spec/20)
  | hostRdmaWrite (pa : Nat) (bytes : List Byte)
  | hostRdmaRead (pa len : Nat)
  | mgmtRead (off size : Nat)
  | mgmtWrite (off size : Nat) (value : BitVec 64)
  | inval (ctl : BitVec 64)
  | snaptrig
  | snaparm
  | attest (nonce : BitVec 256)
  | powerOn
  | managementReset
  /-- the outcome of the stage that runs: completed, with the peer ports that have not trained, or failed, for the reason given -/
  | bringupStage (passed : Option (List (Fin 8))) (reason : BitVec 4)
  | powerWindow (watts : Nat)
  | thermalHalt (die temp : Nat)
  /-- the lines the scrub could not correct -/
  | patrolScrub (bad : List Nat)
  | linkDown (link : Nat)
  -- memory system
  | longLatencyResult (id : Nat)
  | accessPerformed (site : PerformSite)
  | pageWalkComplete (walk : Nat)
  | invalComplete (id : Nat)
  | peerRequest (modnum : Nat) (off : Nat) (op : PeerOp)
  deriving DecidableEq, Repr

end Sys2Proof
end

