-- ==== Sys2Proof/WellFormed.lean ====
section
/-! DEFINITION. Which terms of `Instr` are instructions: the encoding checks of R87 step 2 that do not depend on a
field's width (R78, R80 to R83, R133 and the instruction descriptions). -/

namespace Sys2Proof

/-- The format code of R116. -/
def Fmt.code : Fmt → Nat
  | .f32 => 0 | .bf16 => 1 | .f16 => 2 | .e4m3 => 3 | .e5m2 => 4 | .e3m2 => 5 | .e2m3 => 6 | .e2m1 => 7
  | .e8m0 => 8 | .i32 => 9 | .n32 => 10 | .i16 => 11 | .n16 => 12 | .i8 => 13 | .n8 => 14 | .i4 => 15
  | .n4 => 16 | .i64 => 17

/-- The format with a code; codes 18 to 31 are reserved (R116). -/
def Fmt.ofCode : Nat → Option Fmt
  | 0 => some .f32 | 1 => some .bf16 | 2 => some .f16 | 3 => some .e4m3 | 4 => some .e5m2 | 5 => some .e3m2
  | 6 => some .e2m3 | 7 => some .e2m1 | 8 => some .e8m0 | 9 => some .i32 | 10 => some .n32 | 11 => some .i16
  | 12 => some .n16 | 13 => some .i8 | 14 => some .n8 | 15 => some .i4 | 16 => some .n4 | 17 => some .i64
  | _ => none

/-- The element width of R30 and R116, in bits. -/
def Fmt.width : Fmt → Nat
  | .f32 | .i32 | .n32 => 32
  | .bf16 | .f16 | .i16 | .n16 => 16
  | .e4m3 | .e5m2 | .e8m0 | .i8 | .n8 => 8
  | .e3m2 | .e2m3 => 6
  | .e2m1 | .i4 | .n4 => 4
  | .i64 => 64

/-- The container width of CVT (R151). -/
def Fmt.container : Fmt → Nat
  | .e3m2 | .e2m3 => 8
  | f => f.width

/-- Elements CVT converts per thread (R151). -/
def cvtCount (sf df : Fmt) : Nat :=
  if sf.container = 64 ∨ df.container = 64 then 1 else 32 / max sf.container df.container

/-- ESEL lies in range for a field of `w` bits (R151). -/
def eselFits (w : Nat) (esel : Nat) : Bool := w ≥ 32 || esel < 32 / w

/-- A CVT pair and its ESEL are supported (R151). -/
def cvtOk (sf df : Fmt) (esel : Nat) : Bool :=
  let cs := sf.container
  let cd := df.container
  let n := cvtCount sf df
  !((cs = 4 && 32 ≤ cd) || (cd = 4 && 32 ≤ cs)) &&
  eselFits (n * cs) esel && eselFits (n * cd) esel &&
  (n * cs < 32 || n * cd < 32 || esel = 0)

/-- The block length of a tile in elements. -/
def BlkLen.len : BlkLen → Nat
  | .b16 => 16 | .b32 => 32 | .b64 => 64

/-- The reduction depth K of a tile's format pair, where R213 allows the pair. -/
def tileDepth : Fmt → Fmt → Option Nat
  | .bf16, .bf16 => some 16
  | .f16, .f16 => some 16
  | .e4m3, .e4m3 | .e4m3, .e5m2 | .e4m3, .e3m2 | .e4m3, .e2m3 => some 32
  | .e5m2, .e4m3 | .e5m2, .e5m2 | .e5m2, .e3m2 | .e5m2, .e2m3 => some 32
  | .e3m2, .e4m3 | .e3m2, .e5m2 | .e3m2, .e3m2 | .e3m2, .e2m3 => some 32
  | .e2m3, .e4m3 | .e2m3, .e5m2 | .e2m3, .e3m2 | .e2m3, .e2m3 => some 32
  | .i8, .i8 | .i8, .n8 | .n8, .i8 | .n8, .n8 => some 32
  | .e2m1, .e2m1 => some 64
  | .i4, .i4 | .i4, .n4 | .n4, .i4 | .n4, .n4 => some 64
  | _, _ => none

/-- Scales per column, J of R213. -/
def scalesPerColumn (k blk : Nat) : Nat := max 1 (k / blk)

/-- A TRSV record is one of R213 and its scale area fits R214. -/
def trsvOk (af bf : Fmt) (blk : BlkLen) (sc : Bool) (soff : Nat) : Bool :=
  match tileDepth af bf with
  | none => false
  | some k =>
    (k = 16 || blk != .b16) &&
    (if sc then
      96 * (k * bf.width / 8) ≤ 16 * soff && 16 * soff + 96 * scalesPerColumn k blk.len ≤ 4096
     else soff = 0)

/-- Access classes of the CSRs (R58, R184, R204, R227, R247, R295, R321, R322, R353). -/
inductive CsrAccess where
  | r | rw | rwPriv | rwMgmt | w1c
  deriving DecidableEq, Repr

/-- The access class of a CSR number, none where its block leaves it undefined (R70). -/
def csrAccess (n : Nat) : Option CsrAccess :=
  match n with
  | 0x000 => some .w1c
  | 0x001 | 0x002 | 0x003 | 0x005 | 0x007 => some .r
  | 0x004 | 0x006 | 0x008 | 0x009 | 0x00A => some .rwPriv
  | 0x040 => some .rwPriv
  | 0x041 => some .r
  | 0x042 | 0x043 | 0x060 | 0x061 | 0x062 | 0x063 => some .w1c
  | 0x080 | 0x081 | 0x082 | 0x083 | 0x084 | 0x085 | 0x086 | 0x087 | 0x088 | 0x089 | 0x08A => some .r
  | 0x08B => some .w1c
  | 0x0C0 => some .rw
  | 0x0C1 | 0x0C2 => some .w1c
  | 0x0C3 | 0x0C5 | 0x0C6 => some .rwMgmt
  | 0x0C4 | 0x0C7 => some .r
  | 0x100 => some .rwMgmt
  | 0x101 | 0x102 | 0x103 | 0x104 | 0x105 | 0x106 | 0x107 | 0x108 => some .r
  | 0x109 => some .w1c
  | 0x140 | 0x141 | 0x142 | 0x145 => some .r
  | 0x143 => some .rwPriv
  | 0x144 => some .w1c
  | 0x180 | 0x186 | 0x188 | 0x189 | 0x18A | 0x18B => some .r
  | 0x181 | 0x183 | 0x185 => some .rwPriv
  | 0x182 | 0x184 | 0x187 => some .w1c
  | 0x1C0 | 0x1C1 | 0x1C2 | 0x1C3 | 0x1C4 | 0x1C7 | 0x1C8 | 0x1CA | 0x1CC => some .r
  | 0x1C5 => some .w1c
  | 0x1C6 | 0x1C9 | 0x1CB => some .rwMgmt
  | _ => none

/-- A permutation's amount lies in the range of R82. -/
def Perm.ok : Perm → Bool
  | .flip n => 1 ≤ n.val && n.val ≤ 6
  | _ => true

/-- What an instruction accepts beside its operands (R78, R80, R83, R104, R133 and the descriptions). -/
structure Accept where
  la : Bool := false
  lb : Bool := false
  guard : Bool := false
  permA : Bool := false
  permB : Bool := false
  /-- an I-form carries at most one extension word (R72) -/
  iform : Bool := false
  /-- an XM word may stand -/
  xm : Bool := false
  /-- an XM word with CV = 1 must stand -/
  needC : Bool := false
  modA : Bool := false
  modB : Bool := false
  negAOnly : Bool := false
  sat : Bool := false
  clamp : Bool := false
  k : Bool := false
  rnd : Bool := false
  c : Bool := false
  /-- LC may be set with CV = 0: the addend is then vD (R83) -/
  lcFree : Bool := false
  deriving DecidableEq, Repr

/-- An XG word fits what the instruction accepts. A word with no guard and no permutation is accepted wherever XG is. -/
def XG.ok (p : Accept) (x : XG) : Bool :=
  (p.guard || p.permA || p.permB) &&
  (p.guard || x.guard == none) && (x.guard != none || !x.sense) &&
  (p.permA || x.permA == .ident) && (p.permB || x.permB == .ident) && x.permA.ok && x.permB.ok

/-- An XM word fits what the instruction accepts (R83, R133). -/
def XM.ok (p : Accept) (x : XM) : Bool :=
  p.xm &&
  (p.modA || p.negAOnly || !x.negA) && (p.modA || !x.absA) && (p.modB || (!x.negB && !x.absB)) &&
  (p.sat || !x.sat) && (p.clamp || x.clamp == .none) && (p.k || x.k == 0#4) && (p.rnd || x.rnd == .rne) &&
  (p.c || x.creg == none) && (!x.lc || (p.c && (p.lcFree || x.creg != none)))

/-- The modifiers fit what the instruction accepts. -/
def Mods.ok (m : Mods) (p : Accept) : Bool :=
  (p.la || !m.la) && (p.lb || !m.lb) &&
  (match m.xg with | none => true | some x => x.ok p) &&
  (match m.xm with | none => !p.needC | some x => x.ok p && (!p.needC || x.creg != none)) &&
  (!p.iform || m.xg == none || m.xm == none)

/-- The register count NR of R241. -/
def RegCount.n : RegCount → Nat
  | .one => 1 | .two => 2 | .four => 4 | .eight => 8

/-- A group of `n` registers starting at `r` lies within v0 to v63 (R78). -/
def groupOk (r : VReg) (n : Nat) : Bool := r.val + n ≤ 64

/-- Plain guard acceptance. -/
def Accept.guardOnly : Accept := { guard := true }
/-- One vector source. -/
def Accept.one : Accept := { la := true, guard := true, permA := true }
/-- Two vector sources. -/
def Accept.two : Accept := { la := true, lb := true, guard := true, permA := true, permB := true }

/-- What each encoded instruction accepts; none for a step of the module that has no encoding. -/
def Instr.accept : Instr → Option Accept
  | .nop => none
  | .bra .. => some { iform := true }
  | .brx .. | .ret .. => some .one
  | .call .. => some { guard := true, iform := true }
  | .join .. | .leave .. | .waitm .. | .vote .. | .tret .. => some {}
  | .matchKeys .. => some { la := true, permA := true }
  | .exit .. | .yield .. | .snap .. | .chwait .. => some .guardOnly
  | .trap .. | .nap .. => some { guard := true, iform := true }
  | .shfl .. => some { la := true, lb := true, guard := true, permB := true }
  | .mov .. => some .one
  | .movi .. => some { guard := true, iform := true }
  | .sel .. => some .two
  | .pmov _ (.nz ..) => some .one
  | .pmov .. => some .guardOnly
  | .iadd .. | .isub .. | .imul .. => some { Accept.two with xm := true, sat := true }
  | .imulh .. | .imadw .. | .imin .. | .imax .. | .and .. | .or .. | .xor .. | .andn .. | .shl .. | .shr ..
  | .sar .. | .rotl .. | .icmp .. | .ncmp .. => some .two
  | .imad .. => some { Accept.two with xm := true, sat := true, c := true, lcFree := true }
  | .popc .. | .clz .. | .brev .. => some .one
  | .bfe .. => some { Accept.one with iform := true }
  | .bfi .. | .lea .. | .bswz .. => some { Accept.two with iform := true }
  | .iaddi .. => some { Accept.one with iform := true, xm := true, sat := true }
  | .plop .. => some .guardOnly
  | .fadd .. | .fsub .. | .fmul .. =>
    some { Accept.two with xm := true, modA := true, modB := true, sat := true, clamp := true, k := true, rnd := true }
  | .fscl .. => some { Accept.two with xm := true, modA := true, sat := true, clamp := true, k := true, rnd := true }
  | .ffma .. =>
    some { Accept.two with
      xm := true, modA := true, modB := true, sat := true, clamp := true, k := true, rnd := true, c := true,
      lcFree := true }
  | .fmin .. | .fmax .. | .fcmp .. => some { Accept.two with xm := true, modA := true, modB := true }
  | .frcp .. | .frsq .. | .fsqrt .. | .fexp2 .. | .flog2 .. | .fsin .. | .fcos .. | .ftanh .. =>
    some { Accept.one with xm := true, modA := true, sat := true, clamp := true, rnd := true }
  | .frnd .. => some { Accept.one with xm := true, modA := true }
  | .cvt .. => some { Accept.one with iform := true }
  | .f2i .. => some { Accept.one with xm := true, modA := true, k := true, rnd := true }
  | .i2f .. => some { Accept.one with xm := true, k := true, rnd := true }
  | .fclass .. => some .one
  | .fdp4 .. | .fdp8 .. => some { Accept.two with xm := true, sat := true, rnd := true, c := true, lcFree := true }
  | .idp4 .. | .idp8 .. => some { Accept.two with xm := true, sat := true, c := true, lcFree := true }
  | .ld .. => some { Accept.one with iform := true }
  | .st .. | .red .. | .atomw .. | .waitw .. | .bara .. | .barw .. => some { Accept.two with iform := true }
  | .atom _ _ _ _ .cas .. => some { la := true, lb := true, iform := true, xm := true, c := true, needC := true }
  | .atom .. => some { Accept.two with iform := true }
  | .atomc .. => some { la := true, lb := true, iform := true, xm := true, c := true, needC := true }
  | .fence .. => some .guardOnly
  | .csrr .. => some { guard := true, iform := true }
  | .csrw .. => some { Accept.one with iform := true }
  | .bor .. => some .two
  | .reb .. | .spl .. => some { lb := true, guard := true, permB := true }
  | .jon .. | .rtn .. | .btst .. | .bqry .. | .bwait .. => some .guardOnly
  | .spawn .. | .launch .. => some { Accept.one with iform := true }
  | .spawna .. | .depcSet .. => some { Accept.two with iform := true }
  | .depcAdd .. => some { lb := true, guard := true, permB := true, iform := true }
  | .depcArrive .. => some { guard := true, iform := true }
  | .cpy .. | .gath .. => some { Accept.two with iform := true }
  | .tcpy .. | .nmc .. | .coll .. => some { Accept.one with iform := true }
  | .cwait .. | .trsv .. | .accrd .. | .accwrTile .. => some { guard := true, iform := true }
  | .trel .. => some .one
  | .cset .. => some .guardOnly
  | .mma .. => some { la := true, iform := true, xm := true, negAOnly := true, c := true }
  | .accwrReg .. => some { Accept.one with iform := true }
  | _ => none

/-- The modifiers of an encoded instruction; plain ones for NOP and for a step of the module. -/
def Instr.mods : Instr → Mods
  | .bra m .. | .brx m .. | .call m .. | .ret m .. | .join m .. | .leave m .. | .waitm m .. | .matchKeys m ..
  | .vote m .. | .exit m | .yield m | .trap m .. | .nap m .. | .tret m .. | .shfl m .. | .mov m .. | .movi m ..
  | .sel m .. | .pmov m .. | .iadd m .. | .isub m .. | .imul m .. | .imulh m .. | .imad m .. | .imadw m ..
  | .imin m .. | .imax m .. | .and m .. | .or m .. | .xor m .. | .andn m .. | .shl m .. | .shr m .. | .sar m ..
  | .rotl m .. | .popc m .. | .clz m .. | .brev m .. | .bfe m .. | .bfi m .. | .lea m .. | .iaddi m .. | .icmp m ..
  | .ncmp m .. | .plop m .. | .fadd m .. | .fsub m .. | .fmul m .. | .ffma m .. | .fmin m .. | .fmax m ..
  | .fcmp m .. | .frcp m .. | .frsq m .. | .fsqrt m .. | .fexp2 m .. | .flog2 m .. | .fsin m .. | .fcos m ..
  | .ftanh m .. | .frnd m .. | .cvt m .. | .f2i m .. | .i2f m .. | .fclass m .. | .fdp4 m .. | .fdp8 m ..
  | .idp4 m .. | .idp8 m .. | .fscl m .. | .bswz m .. | .ld m .. | .st m .. | .atom m .. | .red m .. | .atomc m ..
  | .atomw m .. | .waitw m .. | .fence m .. | .bara m .. | .barw m .. | .csrr m .. | .csrw m .. | .snap m
  | .bor m .. | .reb m .. | .spl m .. | .jon m .. | .rtn m .. | .btst m .. | .bqry m .. | .bwait m .. | .spawn m ..
  | .spawna m .. | .launch m .. | .depcSet m .. | .depcAdd m .. | .depcArrive m .. | .chwait m | .cpy m ..
  | .gath m .. | .tcpy m .. | .nmc m .. | .cwait m .. | .trsv m .. | .trel m .. | .cset m .. | .mma m ..
  | .accrd m .. | .accwrReg m .. | .accwrTile m .. | .coll m .. => m
  | _ => ⟨false, false, false, none, none⟩

/-- The formats NMC reduces in (R223). -/
def nmcFmt : Fmt → Bool
  | .f32 | .bf16 | .i32 | .n32 => true
  | _ => false

/-- The checks on one instruction's own fields: groups (R78) and the ranges its description gives. -/
def Instr.rangesOk : Instr → Bool
  | .bra _ c sense .. => c != none || !sense
  | .matchKeys _ k64 d a _ => groupOk d 2 && (!k64 || groupOk a 2)
  | .vote _ (.ballot d) .. => groupOk d 2
  | .iadd _ .i64 d a b | .isub _ .i64 d a b | .imul _ .i64 d a b => groupOk d 2 && groupOk a 2 && groupOk b 2
  | .imadw _ _ d _ _ => groupOk d 2
  | .shl _ true d a _ | .shr _ true d a _ | .sar _ true d a _ => groupOk d 2 && groupOk a 2
  | .bfe _ _ _ _ pos len | .bfi _ _ _ _ pos len => len.val ≤ 32 && pos.val + len.val ≤ 32
  | .cvt _ df sf _ _ esel d a =>
    cvtOk sf df esel.val && (df != .i64 || groupOk d 2) && (sf != .i64 || groupOk a 2)
  | .ld _ .d _ _ d _ _ => groupOk d 2
  | .ld _ .q _ _ d _ _ => groupOk d 4
  | .st _ .d _ _ _ b _ => groupOk b 2
  | .st _ .q _ _ _ b _ => groupOk b 4
  | .atom m _ _ _ op w64 d _ b _ =>
    !(w64 && (op == .fadd || op == .faddbf)) &&
    (!w64 || (groupOk d 2 && groupOk b 2 &&
      (op != .cas || (match m.xm with | some { creg := some c, .. } => groupOk c 2 | _ => true))))
  | .red _ ord _ _ op w64 _ b _ =>
    (ord == .rlx || ord == .rel) && op != .cas && !(w64 && (op == .fadd || op == .faddbf)) && (!w64 || groupOk b 2)
  | .atomw _ _ _ _ _ b _ => groupOk b 2
  | .waitw _ _ _ d _ _ _ => groupOk d 2
  | .csrr _ _ n => (csrAccess n.toNat).isSome
  | .csrw _ _ n _ => match csrAccess n.toNat with | some .r => false | some _ => true | none => false
  | .bor _ _ _ _ a _ => groupOk a 2
  | .reb _ _ _ _ b => groupOk b 2
  | .spawn _ a _ | .spawna _ _ a _ _ _ | .depcSet _ _ a _ _ => groupOk a 4
  | .cpy _ _ _ _ _ _ val => val.val ≤ 32
  | .gath _ _ _ a _ _ => groupOk a 2
  | .tcpy _ dir _ a _ tile bg _ _ tr =>
    groupOk a 8 &&
    (match dir with
     | .memToTile | .tileToMem => bg.val = 0
     | .memToBench | .benchToMem => tile.val = 0 && !tr)
  | .nmc _ op _ s r fmt a =>
    groupOk a 4 &&
    (match op with
     | .fill => s.val = 0 && r.val = 0 && fmt == .f32
     | .copy => r.val = 0 && fmt == .f32
     | .cmp => fmt == .f32
     | .add | .min | .max => r.val = 0 && nmcFmt fmt)
  | .trsv _ _ af bf blk _ sc soff => trsvOk af bf blk sc soff.toNat
  | .mma _ zi dec a _ col _ _ => !(zi && dec) && groupOk a 8 && col.toNat % 32 = 0
  | .accrd _ df _ _ d _ nr _ =>
    groupOk d nr.n &&
    (df == .f32 || df == .bf16 || df == .f16 || df == .e4m3 || df == .e5m2 || df == .i32)
  | .accwrReg _ sf a _ nr _ => groupOk a nr.n && (sf == .f32 || sf == .bf16 || sf == .f16 || sf == .i32)
  | .coll _ _ _ _ _ _ _ _ a => groupOk a 4
  | _ => true

/-- Registers of one level: both troop-level or both band-level (R168). -/
def sameLevel (d a : GReg) : Bool := (d.val < 8) == (a.val < 8)

/-- The operand checks of R168: D differs from A, and the two lie at the levels the instruction allows. -/
def Instr.operandsOk : Instr → Bool
  | .reb _ _ d a _ => d != a && !(8 ≤ d.val && a.val < 8)
  | .spl _ d a _ | .jon _ d a => d != a && sameLevel d a
  | _ => true

/-- The modifiers are those the instruction accepts. -/
def Instr.modsOk (i : Instr) : Bool :=
  match i.accept with
  | none => true
  | some p => i.mods.ok p

/-- The checks that decoding makes on the fields of one instruction. -/
def Instr.fieldsOk (i : Instr) : Bool := i.modsOk && i.rangesOk

/-- Every encoding check of R87 step 2 passes. -/
def Instr.wellFormed (i : Instr) : Bool := i.fieldsOk && i.operandsOk

/-- The term has an encoding: it is NOP or carries modifiers of its own. -/
def Instr.encoded (i : Instr) : Bool := i == .nop || i.accept.isSome

end Sys2Proof
end

