-- ==== Sys2Proof/Decode.lean ====
section
/-! DEFINITION. From words to instructions and back (spec/05 R71 to R87): the fields of the base, immediate and
extension words, the opcode map, the encoder written from the same tables, and the clause check of R73 to R75. -/

namespace Sys2Proof

/-! ### Fields -/

/-- Bits [lo + w - 1 : lo] of a word, as a number. -/
def bitsOf (x : Word) (lo w : Nat) : Nat := x.toNat / 2 ^ lo % 2 ^ w

/-- One bit of a word. -/
def bitOf (x : Word) (i : Nat) : Bool := bitsOf x i 1 == 1

/-- A number below `n`, as an element of `Fin n`. -/
def fin? (n x : Nat) : Option (Fin n) := if h : x < n then some ⟨x, h⟩ else none

/-- A register or field of the small files (R78): the value must lie below `n`. -/
def narrow? {k : Nat} (n : Nat) (x : Fin k) : Option (Fin n) := fin? n x.val

/-- A 6-bit field. -/
def field6 (x : Word) (lo : Nat) : Fin 64 := ⟨bitsOf x lo 6, Nat.mod_lt _ (by decide)⟩

/-- The answer only where the check holds. -/
def need {α : Type} (c : Bool) (x : Option α) : Option α := if c then x else none

/-- An instruction's words, cut into their fields but not yet read as an instruction (R77, R79, R80, R83). -/
structure Raw where
  chain : Bool
  op : Fin 128
  t : Fin 8
  d : Fin 64
  a : Fin 64
  b : Fin 64
  la : Bool
  lb : Bool
  imm : Option Word
  xg : Option XG
  xm : Option XM
  deriving DecidableEq, Repr

/-- The modifiers a raw instruction carries. -/
def Raw.mods (r : Raw) : Mods := ⟨r.chain, r.la, r.lb, r.xg, r.xm⟩

/-! ### Extension words -/

/-- A permutation from its pattern code and amount (R82). -/
def permOf (code : Nat) (n : Fin 64) : Option Perm :=
  match code with
  | 0 => if n = 0 then some .ident else none
  | 1 => some (.rot n)
  | 2 => some (.bcast n)
  | 3 => some (.bfly n)
  | 4 => some (.flip n)
  | 5 => some (.up n)
  | _ => none

/-- The pattern code of a permutation. -/
def Perm.code : Perm → Nat
  | .ident => 0 | .rot _ => 1 | .bcast _ => 2 | .bfly _ => 3 | .flip _ => 4 | .up _ => 5

/-- The amount of a permutation. -/
def Perm.amount : Perm → Fin 64
  | .ident => 0
  | .rot n | .bcast n | .bfly n | .flip n | .up n => n

/-- The guard predicate field of R80: 0 to 23, or 31 for none. -/
def guardOf (gp : Nat) : Option (Option PReg) :=
  if gp = 31 then some none else (fin? 24 gp).map some

/-- The XG word's fields (R80), without MORE. -/
def xgOf (x : Word) : Option XG :=
  need (bitsOf x 31 1 == 0 && bitsOf x 0 6 == 0) <|
    match guardOf (bitsOf x 25 5), permOf (bitsOf x 21 3) (field6 x 15), permOf (bitsOf x 12 3) (field6 x 6) with
    | some g, some pa, some pb => some ⟨g, bitOf x 24, pa, pb⟩
    | _, _, _ => none

/-- The XG word of a guard and permutations. -/
def XG.word (x : XG) (more : Bool) : Word :=
  let gp := match x.guard with | none => 31 | some p => p.val
  BitVec.ofNat 32 (more.toNat * 2 ^ 30 + gp * 2 ^ 25 + x.sense.toNat * 2 ^ 24 + x.permA.code * 2 ^ 21 +
    x.permA.amount.val * 2 ^ 15 + x.permB.code * 2 ^ 12 + x.permB.amount.val * 2 ^ 6)

/-- A rounding code (R83, R123); 5 to 7 are reserved. -/
def rndOf : Nat → Option Rnd
  | 0 => some .rne | 1 => some .rz | 2 => some .ru | 3 => some .rd | 4 => some .rna
  | _ => none

/-- The code of a rounding mode. -/
def Rnd.code : Rnd → Nat
  | .rne => 0 | .rz => 1 | .ru => 2 | .rd => 3 | .rna => 4

/-- CLAMP of R83; 3 is reserved. -/
def clampOf : Nat → Option Clamp
  | 0 => some .none | 1 => some .unit | 2 => some .sym
  | _ => Option.none

/-- The code of a clamp. -/
def Clamp.code : Clamp → Nat
  | .none => 0 | .unit => 1 | .sym => 2

/-- The XM word (R83). -/
def xmOf (x : Word) : Option XM :=
  let cv := bitOf x 9
  need (bitsOf x 30 2 == 2 && bitsOf x 0 8 == 0 && (cv || bitsOf x 10 6 == 0)) <|
    match clampOf (bitsOf x 23 2), rndOf (bitsOf x 16 3) with
    | some cl, some r =>
      some ⟨bitOf x 29, bitOf x 28, bitOf x 27, bitOf x 26, bitOf x 25, cl, BitVec.ofNat 4 (bitsOf x 19 4), r,
        if cv then some (field6 x 10) else none, bitOf x 8⟩
    | _, _ => none

/-- The XM word of a set of modifiers. -/
def XM.word (x : XM) : Word :=
  let c := match x.creg with | none => 0 | some r => r.val * 2 ^ 10 + 2 ^ 9
  BitVec.ofNat 32 (2 ^ 31 + x.negA.toNat * 2 ^ 29 + x.negB.toNat * 2 ^ 28 + x.absA.toNat * 2 ^ 27 +
    x.absB.toNat * 2 ^ 26 + x.sat.toNat * 2 ^ 25 + x.clamp.code * 2 ^ 23 + x.k.toNat * 2 ^ 19 +
    x.rnd.code * 2 ^ 16 + c + x.lc.toNat * 2 ^ 8)

/-- XM with every field 0 (R83). -/
def XM.plain : XM := ⟨false, false, false, false, false, .none, 0#4, .rne, none, false⟩

/-! ### Forms and pipes -/

/-- The I-forms of R85. -/
def isIForm (op : Nat) : Bool :=
  match op with
  | 0x01 | 0x03 | 0x0C | 0x0E | 0x12 | 0x27 | 0x28 | 0x2B | 0x2C | 0x40 | 0x49 | 0x50 | 0x51 | 0x52 | 0x53 | 0x54
  | 0x55 | 0x56 | 0x58 | 0x59 | 0x5A | 0x5B | 0x68 | 0x69 | 0x6A | 0x6B | 0x70 | 0x71 | 0x72 | 0x73 | 0x74 | 0x75
  | 0x78 | 0x7A | 0x7B | 0x7C => true
  | _ => false

/-- The pipe classes of R85. -/
inductive Pipe where
  | va | sfu | mem | eng | ctl
  deriving DecidableEq, Repr

/-- The pipe class of an opcode; none for NOP, the header and reserved opcodes. -/
def pipeOf (op : Nat) : Option Pipe :=
  if op = 0 then none
  else if op ≤ 0x0E then some .ctl
  else if op = 0x10 then some .mem
  else if 0x11 ≤ op ∧ op ≤ 0x2C then some .va
  else if op = 0x2D ∨ op = 0x2E then some .ctl
  else if 0x30 ≤ op ∧ op ≤ 0x36 then some .va
  else if 0x37 ≤ op ∧ op ≤ 0x3E then some .sfu
  else if 0x3F ≤ op ∧ op ≤ 0x49 then some .va
  else if 0x50 ≤ op ∧ op ≤ 0x59 then some .mem
  else if 0x5A ≤ op ∧ op ≤ 0x5C then some .ctl
  else if 0x60 ≤ op ∧ op ≤ 0x67 then some .mem
  else if 0x68 ≤ op ∧ op ≤ 0x6C then some .ctl
  else if (0x70 ≤ op ∧ op ≤ 0x75) ∨ (0x78 ≤ op ∧ op ≤ 0x7C) then some .eng
  else if op = 0x7D then some .ctl
  else none

/-- The opcode of a base word. -/
def opOf (x : Word) : Nat := bitsOf x 23 7

/-- How many words the instruction that starts a list of words has (R72, R79), none where the list ends before it
does. The zero word has one. -/
def instrLen : List Word → Option Nat
  | [] => none
  | x :: rest =>
    let n := if isIForm (opOf x) then 1 else 0
    if bitOf x 30 then
      match rest.drop n with
      | [] => none
      | e :: more =>
        if n = 0 && bitOf e 30 && !bitOf e 31 then (if more.isEmpty then none else some 3)
        else some (n + 2)
    else if n ≤ rest.length then some (n + 1) else none

/-! ### Words to raw instructions and back -/

/-- The extension words of an instruction that is not an I-form: XG, XM, or XG then XM (R72, R80). -/
def extOf (ws : List Word) : Option (Option XG × Option XM) :=
  match ws with
  | [] => none
  | e :: more =>
    if bitOf e 31 then (xmOf e).map fun m => (none, some m)
    else if bitOf e 30 then
      match xgOf e, more with
      | some g, f :: _ => (xmOf f).map fun m => (some g, some m)
      | _, _ => none
    else (xgOf e).map fun g => (some g, none)

/-- The extension word of an I-form: XG without MORE, or XM. -/
def iextOf (ws : List Word) : Option (Option XG × Option XM) :=
  match ws with
  | [] => none
  | e :: _ =>
    if bitOf e 31 then (xmOf e).map fun m => (none, some m)
    else if bitOf e 30 then none
    else (xgOf e).map fun g => (some g, none)

/-- The fields of the instruction that starts a list of words. -/
def rawOf (ws : List Word) : Option Raw :=
  match ws with
  | [] => none
  | x :: rest =>
    let mk (imm : Option Word) (e : Option XG × Option XM) : Raw :=
      ⟨bitOf x 31, ⟨bitsOf x 23 7, Nat.mod_lt _ (by decide)⟩, ⟨bitsOf x 20 3, Nat.mod_lt _ (by decide)⟩,
        field6 x 14, field6 x 8, field6 x 2, bitOf x 1, bitOf x 0, imm, e.1, e.2⟩
    if isIForm (opOf x) then
      match rest with
      | [] => none
      | i :: more => if bitOf x 30 then (iextOf more).map (mk (some i)) else some (mk (some i) (none, none))
    else if bitOf x 30 then (extOf rest).map (mk none)
    else some (mk none (none, none))

/-- The words of a raw instruction: base, immediate, XG, XM, in that order (R72). -/
def Raw.words (r : Raw) : List Word :=
  let x := r.xg.isSome || r.xm.isSome
  let base : Word := BitVec.ofNat 32 (r.chain.toNat * 2 ^ 31 + x.toNat * 2 ^ 30 + r.op.val * 2 ^ 23 +
    r.t.val * 2 ^ 20 + r.d.val * 2 ^ 14 + r.a.val * 2 ^ 8 + r.b.val * 2 ^ 2 + r.la.toNat * 2 + r.lb.toNat)
  base :: (r.imm.toList ++ (r.xg.map fun g => g.word r.xm.isSome).toList ++ (r.xm.map XM.word).toList)

/-! ### Variant codes -/

def hintOf : Nat → Hint
  | 1 => .likely | 2 => .unlikely | 3 => .uniform | _ => .none

def Hint.code : Hint → Nat
  | .none => 0 | .likely => 1 | .unlikely => 2 | .uniform => 3

def intTyOf : Nat → Option IntTy
  | 0 => some .i32 | 1 => some .i16x2 | 2 => some .i8x4 | 3 => some .i64 | _ => none

def IntTy.code : IntTy → Fin 8
  | .i32 => 0 | .i16x2 => 1 | .i8x4 => 2 | .i64 => 3

def minTyOf : Nat → Option MinTy
  | 0 => some .i32 | 1 => some .n32 | 2 => some .i16x2 | 3 => some .n16x2 | 4 => some .i8x4 | 5 => some .n8x4
  | _ => none

def MinTy.code : MinTy → Fin 8
  | .i32 => 0 | .n32 => 1 | .i16x2 => 2 | .n16x2 => 3 | .i8x4 => 4 | .n8x4 => 5

def condOf : Nat → Option Cond
  | 0 => some .eq | 1 => some .ne | 2 => some .lt | 3 => some .le | 4 => some .gt | 5 => some .ge | _ => none

def Cond.code : Cond → Fin 8
  | .eq => 0 | .ne => 1 | .lt => 2 | .le => 3 | .gt => 4 | .ge => 5

def predOpOf : Fin 8 → PredOp
  | 0 => .and | 1 => .or | 2 => .xor | 3 => .andn | 4 => .orn | 5 => .nand | 6 => .nor | 7 => .xnor

def PredOp.code : PredOp → Fin 8
  | .and => 0 | .or => 1 | .xor => 2 | .andn => 3 | .orn => 4 | .nand => 5 | .nor => 6 | .xnor => 7

def floatTyOf : Nat → Option FloatTy
  | 0 => some .f32 | 1 => some .bf16x2 | 2 => some .f16x2 | _ => none

def FloatTy.code : FloatTy → Fin 8
  | .f32 => 0 | .bf16x2 => 1 | .f16x2 => 2

def fcondOf : Fin 8 → FCond
  | 0 => .eq | 1 => .ne | 2 => .lt | 3 => .le | 4 => .gt | 5 => .ge | 6 => .unord | 7 => .ord

def FCond.code : FCond → Fin 8
  | .eq => 0 | .ne => 1 | .lt => 2 | .le => 3 | .gt => 4 | .ge => 5 | .unord => 6 | .ord => 7

def ldSizeOf : Nat → Option LdSize
  | 0 => some .u8 | 1 => some .s8 | 2 => some .u16 | 3 => some .s16 | 4 => some .w | 5 => some .d | 6 => some .q
  | _ => none

def LdSize.code : LdSize → Fin 8
  | .u8 => 0 | .s8 => 1 | .u16 => 2 | .s16 => 3 | .w => 4 | .d => 5 | .q => 6

def stSizeOf : Nat → Option StSize
  | 0 => some .b | 2 => some .h | 4 => some .w | 5 => some .d | 6 => some .q | _ => none

def StSize.code : StSize → Fin 8
  | .b => 0 | .h => 2 | .w => 4 | .d => 5 | .q => 6

def policyOf : Nat → Option Policy
  | 0 => some .norm | 1 => some .strm | 2 => some .keep | _ => none

def Policy.code : Policy → Nat
  | .norm => 0 | .strm => 1 | .keep => 2

/-- T[1:0] of the atomics; T[2] is 0. -/
def ord4Of : Nat → Option Ord4
  | 0 => some .rlx | 1 => some .acq | 2 => some .rel | 3 => some .acqrel | _ => none

def Ord4.code : Ord4 → Fin 8
  | .rlx => 0 | .acq => 1 | .rel => 2 | .acqrel => 3

def fenceOrdOf : Nat → Option FenceOrd
  | 0 => some .acq | 1 => some .rel | 2 => some .acqrel | _ => none

def FenceOrd.code : FenceOrd → Fin 64
  | .acq => 0 | .rel => 1 | .acqrel => 2

def scopeOf : Nat → Option Scope
  | 0 => some .thread | 1 => some .troop | 2 => some .band | 3 => some .core | 4 => some .die | 5 => some .device
  | 6 => some .system | _ => none

def Scope.code : Scope → Fin 8
  | .thread => 0 | .troop => 1 | .band => 2 | .core => 3 | .die => 4 | .device => 5 | .system => 6

def atomOpOf : Nat → Option AtomOp
  | 0 => some .add | 1 => some .fadd | 2 => some .faddbf | 3 => some .smin | 4 => some .smax | 5 => some .umin
  | 6 => some .umax | 7 => some .and | 8 => some .or | 9 => some .xor | 10 => some .exch | 11 => some .cas
  | 12 => some .inc | 13 => some .dec | _ => none

def AtomOp.code : AtomOp → Nat
  | .add => 0 | .fadd => 1 | .faddbf => 2 | .smin => 3 | .smax => 4 | .umin => 5 | .umax => 6 | .and => 7 | .or => 8
  | .xor => 9 | .exch => 10 | .cas => 11 | .inc => 12 | .dec => 13

def baraOf : Nat → Option BaraKind
  | 0 => some .arrive | 1 => some .expect | 2 => some .arriveExpect | _ => none

def BaraKind.code : BaraKind → Fin 8
  | .arrive => 0 | .expect => 1 | .arriveExpect => 2

def csrModeOf : Nat → Option CsrMode
  | 0 => some .write | 1 => some .set | 2 => some .clear | _ => none

def CsrMode.code : CsrMode → Fin 8
  | .write => 0 | .set => 1 | .clear => 2

/-- T of BOR: the kind, and whether the wait is refused at once. -/
def borOf : Nat → Option (Kind × Bool)
  | 0 => some (.e, false) | 1 => some (.s, false) | 2 => some (.a, false)
  | 3 => some (.e, true) | 4 => some (.s, true) | 5 => some (.a, true) | _ => none

def borCode : Kind → Bool → Fin 8
  | .e, false => 0 | .s, false => 1 | .a, false => 2 | .e, true => 3 | .s, true => 4 | .a, true => 5

def btstOf : Nat → Option BtstCond
  | 0 => some .held | 1 => some .pending | 2 => some .refused | 3 => some .empty | 4 => some .kids | _ => none

def BtstCond.code : BtstCond → Fin 8
  | .held => 0 | .pending => 1 | .refused => 2 | .empty => 3 | .kids => 4

def bqryOf : Nat → Option BqryField
  | 0 => some .lo | 1 => some .hi | 2 => some .len | 3 => some .stat | 4 => some .deed | _ => none

def BqryField.code : BqryField → Fin 8
  | .lo => 0 | .hi => 1 | .len => 2 | .stat => 3 | .deed => 4

def tcpyDirOf : Nat → Option TcpyDir
  | 0 => some .memToTile | 1 => some .tileToMem | 2 => some .memToBench | 3 => some .benchToMem | _ => none

def TcpyDir.code : TcpyDir → Fin 8
  | .memToTile => 0 | .tileToMem => 1 | .memToBench => 2 | .benchToMem => 3

def nmcOf : Nat → Option NmcOp
  | 0 => some .fill | 1 => some .copy | 2 => some .cmp | 3 => some .add | 4 => some .min | 5 => some .max | _ => none

def NmcOp.code : NmcOp → Fin 8
  | .fill => 0 | .copy => 1 | .cmp => 2 | .add => 3 | .min => 4 | .max => 5

def opClassOf : Fin 8 → OpClass
  | 0 => .tag0 | 1 => .tag1 | 2 => .tag2 | 3 => .tag3 | 4 => .matrix | 5 => .gather | 6 => .coll | 7 => .nearmem

def OpClass.code : OpClass → Fin 8
  | .tag0 => 0 | .tag1 => 1 | .tag2 => 2 | .tag3 => 3 | .matrix => 4 | .gather => 5 | .coll => 6 | .nearmem => 7

def blkOf : Nat → Option BlkLen
  | 0 => some .b16 | 1 => some .b32 | 2 => some .b64 | _ => none

def BlkLen.code : BlkLen → Nat
  | .b16 => 0 | .b32 => 1 | .b64 => 2

def regCountOf : Nat → RegCount
  | 1 => .two | 2 => .four | 3 => .eight | _ => .one

def RegCount.code : RegCount → Nat
  | .one => 0 | .two => 1 | .four => 2 | .eight => 3

def collOpOf : Nat → Option CollOp
  | 0 => some .sum | 1 => some .min | 2 => some .max | _ => none

def CollOp.code : CollOp → Nat
  | .sum => 0 | .min => 1 | .max => 2

def tretOf : Nat → Option TretKind
  | 0 => some .retry | 1 => some .skip | 2 => some .migrate | _ => none

def TretKind.code : TretKind → Fin 8
  | .retry => 0 | .skip => 1 | .migrate => 2

/-! ### The opcode map -/

/-- A field of the immediate word, as a bit vector. -/
def immBits (x : Word) (lo w : Nat) : BitVec w := BitVec.ofNat w (bitsOf x lo w)

/-- A field of the immediate word that names a g register. -/
def immG (x : Word) (lo : Nat) : GReg := ⟨bitsOf x lo 4, Nat.mod_lt _ (by decide)⟩

/-- A field of the immediate word, as a number below 2^w. -/
def immFin (x : Word) (lo w : Nat) : Fin (2 ^ w) := ⟨bitsOf x lo w, Nat.mod_lt _ (Nat.two_pow_pos w)⟩

/-- The predicate field of BRA: 0 to 23, or 63 for always. -/
def braCond (a : Fin 64) : Option (Option PReg) := if a = 63 then some none else (narrow? 24 a).map some

/-- Opcodes 0x01 to 0x0E (R85 control, R303). -/
def Raw.control (r : Raw) : Option Instr :=
  let m := r.mods
  let z := r.d == 0 && r.a == 0 && r.b == 0
  let t := r.t.val
  match r.op.val, r.imm with
  | 0x01, some i => need (r.d == 0 && r.b == 0 && t < 2 && bitsOf i 0 6 == 0) <|
      (braCond r.a).map fun c => .bra m c (t == 1) (hintOf (bitsOf i 6 2)) (immBits i 8 24)
  | 0x02, _ => need (r.d == 0 && r.b == 0 && t < 4) <| some (.brx m (hintOf t) r.a)
  | 0x03, some i => need (r.a == 0 && r.b == 0 && t == 0 && bitsOf i 0 8 == 0) <| some (.call m r.d (immBits i 8 24))
  | 0x04, _ => need (r.d == 0 && r.b == 0 && t == 0) <| some (.ret m r.a)
  | 0x05, _ => need (r.a == 0 && r.b == 0 && t == 0) <| (narrow? 12 r.d).map (.join m)
  | 0x06, _ => need (r.a == 0 && r.b == 0 && t == 0) <| (narrow? 12 r.d).map (.leave m)
  | 0x07, _ => need (r.d == 0 && r.b == 0 && t == 0) <| (narrow? 12 r.a).map (.waitm m)
  | 0x08, _ => need (t < 2) <| (narrow? 12 r.b).map (.matchKeys m (t == 1) r.d r.a)
  | 0x09, _ =>
    match (narrow? 24 r.a), (narrow? 12 r.b) with
    | some a, some b =>
      match t with
      | 0 => (narrow? 24 r.d).map fun d => .vote m (.any d) a b
      | 1 => (narrow? 24 r.d).map fun d => .vote m (.all d) a b
      | 2 => some (.vote m (.ballot r.d) a b)
      | _ => none
    | _, _ => none
  | 0x0A, _ => need (z && t == 0) <| some (.exit m)
  | 0x0B, _ => need (z && t == 0) <| some (.yield m)
  | 0x0C, some i => need (z && t == 0) <| some (.trap m i)
  | 0x0D, _ => need z <| (tretOf t).map (.tret m)
  | 0x0E, some i => need (z && t == 0) <| some (.nap m i)
  | _, _ => none

/-- A third source that is a predicate, and no other field of XM (SEL). -/
def selSource (x : Option XM) : Option PReg :=
  match x with
  | some ⟨false, false, false, false, false, .none, k, .rne, some c, false⟩ => need (k == 0#4) (narrow? 24 c)
  | _ => none

/-- Opcodes 0x10 to 0x2E (R85 integer and predicate, R137, R139). -/
def Raw.integer (r : Raw) : Option Instr :=
  let m := r.mods
  let t := r.t.val
  match r.op.val, r.imm with
  | 0x10, _ => need (t == 0) <| some (.shfl m r.d r.a r.b)
  | 0x11, _ => need (t == 0 && r.b == 0) <| some (.mov m r.d r.a)
  | 0x12, some i => need (t == 0 && r.a == 0 && r.b == 0) <| some (.movi m r.d i)
  | 0x13, _ => need (t == 0) <| (selSource r.xm).map (.sel { m with xm := none } r.d r.a r.b)
  | 0x14, _ => (intTyOf t).map fun ty => .iadd m ty r.d r.a r.b
  | 0x15, _ => (intTyOf t).map fun ty => .isub m ty r.d r.a r.b
  | 0x16, _ => (intTyOf t).map fun ty => .imul m ty r.d r.a r.b
  | 0x17, _ => need (t < 2) <| some (.imulh m (t == 1) r.d r.a r.b)
  | 0x18, _ => need (t == 0) <| some (.imad m r.d r.a r.b)
  | 0x19, _ => need (t < 2) <| some (.imadw m (t == 1) r.d r.a r.b)
  | 0x1A, _ => (minTyOf t).map fun ty => .imin m ty r.d r.a r.b
  | 0x1B, _ => (minTyOf t).map fun ty => .imax m ty r.d r.a r.b
  | 0x1C, _ => need (t == 0) <| some (.and m r.d r.a r.b)
  | 0x1D, _ => need (t == 0) <| some (.or m r.d r.a r.b)
  | 0x1E, _ => need (t == 0) <| some (.xor m r.d r.a r.b)
  | 0x1F, _ => need (t == 0) <| some (.andn m r.d r.a r.b)
  | 0x20, _ => need (t < 2) <| some (.shl m (t == 1) r.d r.a r.b)
  | 0x21, _ => need (t < 2) <| some (.shr m (t == 1) r.d r.a r.b)
  | 0x22, _ => need (t < 2) <| some (.sar m (t == 1) r.d r.a r.b)
  | 0x23, _ => need (t == 0) <| some (.rotl m r.d r.a r.b)
  | 0x24, _ => need (t == 0 && r.b == 0) <| some (.popc m r.d r.a)
  | 0x25, _ => need (t == 0 && r.b == 0) <| some (.clz m r.d r.a)
  | 0x26, _ => need (t == 0 && r.b == 0) <| some (.brev m r.d r.a)
  | 0x27, some i =>
    need (t == 0 && r.b == 0 && bitsOf i 17 15 == 0 && bitsOf i 14 2 == 0 && bitsOf i 5 3 == 0) <|
      some (.bfe m (bitOf i 16) r.d r.a (immFin i 0 5) (immFin i 8 6))
  | 0x28, some i =>
    need (t == 0 && bitsOf i 14 18 == 0 && bitsOf i 5 3 == 0) <|
      some (.bfi m r.d r.a r.b (immFin i 0 5) (immFin i 8 6))
  | 0x29, _ => match condOf t, (narrow? 24 r.d) with | some c, some d => some (.icmp m c d r.a r.b) | _, _ => none
  | 0x2A, _ => match condOf t, (narrow? 24 r.d) with | some c, some d => some (.ncmp m c d r.a r.b) | _, _ => none
  | 0x2B, some i => need (t == 0 && r.b == 0) <| some (.iaddi m r.d r.a i)
  | 0x2C, some i => need (t == 0 && bitsOf i 5 3 == 0) <| some (.lea m r.d r.a r.b (immFin i 0 5) (immBits i 8 24))
  | 0x2D, _ =>
    match (narrow? 24 r.d), (narrow? 24 r.a), (narrow? 24 r.b) with
    | some d, some a, some b => some (.plop m (predOpOf r.t) d a b)
    | _, _, _ => none
  | 0x2E, _ => need (r.b == 0) <|
    match t with
    | 0 => match (narrow? 24 r.d), (narrow? 24 r.a) with | some d, some a => some (.pmov m (.pp d a)) | _, _ => none
    | 1 => (narrow? 24 r.d).map fun d => .pmov m (.nz d r.a)
    | 2 => (narrow? 24 r.a).map fun a => .pmov m (.toV r.d a)
    | 3 => need (r.a == 0) <| (narrow? 24 r.d).map fun d => .pmov m (.clr d)
    | 4 => need (r.a == 0) <| (narrow? 24 r.d).map fun d => .pmov m (.set d)
    | _ => none
  | _, _ => none

/-- Opcodes 0x30 to 0x49 (R85 floating point, R144 to R155). -/
def Raw.float (r : Raw) : Option Instr :=
  let m := r.mods
  let t := r.t.val
  let z := t == 0 && r.b == 0
  match r.op.val, r.imm with
  | 0x30, _ => (floatTyOf t).map fun f => .fadd m f r.d r.a r.b
  | 0x31, _ => (floatTyOf t).map fun f => .fsub m f r.d r.a r.b
  | 0x32, _ => (floatTyOf t).map fun f => .fmul m f r.d r.a r.b
  | 0x33, _ => (floatTyOf t).map fun f => .ffma m f r.d r.a r.b
  | 0x34, _ => (floatTyOf t).map fun f => .fmin m f r.d r.a r.b
  | 0x35, _ => (floatTyOf t).map fun f => .fmax m f r.d r.a r.b
  | 0x36, _ => (narrow? 24 r.d).map fun d => .fcmp m (fcondOf r.t) d r.a r.b
  | 0x37, _ => need z <| some (.frcp m r.d r.a)
  | 0x38, _ => need z <| some (.frsq m r.d r.a)
  | 0x39, _ => need z <| some (.fsqrt m r.d r.a)
  | 0x3A, _ => need z <| some (.fexp2 m r.d r.a)
  | 0x3B, _ => need z <| some (.flog2 m r.d r.a)
  | 0x3C, _ => need z <| some (.fsin m r.d r.a)
  | 0x3D, _ => need z <| some (.fcos m r.d r.a)
  | 0x3E, _ => need z <| some (.ftanh m r.d r.a)
  | 0x3F, _ => need (r.b == 0) <| (rndOf t).map fun x => .frnd m x r.d r.a
  | 0x40, some i => need (z && bitsOf i 0 16 == 0) <|
    match Fmt.ofCode (bitsOf i 27 5), Fmt.ofCode (bitsOf i 22 5), rndOf (bitsOf i 19 3) with
    | some df, some sf, some x => some (.cvt m df sf x (bitOf i 18) (immFin i 16 2) r.d r.a)
    | _, _, _ => none
  | 0x41, _ => need (t < 2 && r.b == 0) <| some (.f2i m (t == 1) r.d r.a)
  | 0x42, _ => need (t < 2 && r.b == 0) <| some (.i2f m (t == 1) r.d r.a)
  | 0x43, _ => need z <| some (.fclass m r.d r.a)
  | 0x44, _ => need (t < 4) <| some (.fdp4 m (t % 2 == 1) (t / 2 == 1) r.d r.a r.b)
  | 0x45, _ => need (t == 0) <| some (.fdp8 m r.d r.a r.b)
  | 0x46, _ => need (t < 4) <| some (.idp4 m (t % 2 == 1) (t / 2 == 1) r.d r.a r.b)
  | 0x47, _ => need (t < 4) <| some (.idp8 m (t % 2 == 1) (t / 2 == 1) r.d r.a r.b)
  | 0x48, _ => need (t == 0) <| some (.fscl m r.d r.a r.b)
  | 0x49, some i => need (t == 0 && bitsOf i 20 12 == 0) <| some (.bswz m r.d r.a r.b (immBits i 0 20))
  | _, _ => none

/-- Opcodes 0x50 to 0x5C (R85 memory, atomics, barriers and system). -/
def Raw.memory (r : Raw) : Option Instr :=
  let m := r.mods
  let t := r.t.val
  match r.op.val, r.imm with
  | 0x50, some i => need (r.b == 0 && bitsOf i 24 2 == 0) <|
    match ldSizeOf t, policyOf (bitsOf i 26 2) with
    | some sz, some p => some (.ld m sz p (immG i 28) r.d r.a (immBits i 0 24))
    | _, _ => none
  | 0x51, some i => need (r.d == 0 && bitsOf i 24 2 == 0) <|
    match stSizeOf t, policyOf (bitsOf i 26 2) with
    | some sz, some p => some (.st m sz p (immG i 28) r.a r.b (immBits i 0 24))
    | _, _ => none
  | 0x52, some i =>
    match ord4Of t, scopeOf (bitsOf i 25 3), atomOpOf (bitsOf i 21 4) with
    | some o, some s, some op => some (.atom m o (immG i 28) s op (bitOf i 20) r.d r.a r.b (immBits i 0 20))
    | _, _, _ => none
  | 0x53, some i => need (r.d == 0) <|
    match ord4Of t, scopeOf (bitsOf i 25 3), atomOpOf (bitsOf i 21 4) with
    | some o, some s, some op => some (.red m o (immG i 28) s op (bitOf i 20) r.a r.b (immBits i 0 20))
    | _, _, _ => none
  | 0x54, some i => need (bitsOf i 26 2 < 2) <| (ord4Of t).map fun o =>
      .atomc m o (immG i 28) (bitsOf i 26 2 == 1) (immBits i 13 13) r.d r.a r.b (immBits i 0 13)
  | 0x55, some i => need (bitsOf i 24 4 == 0) <| (ord4Of t).map fun o =>
      .atomw m o (immG i 28) r.d r.a r.b (immBits i 0 24)
  | 0x56, some i => need (t == 0) <| some (.waitw m (immG i 28) (immBits i 24 4) r.d r.a r.b (immBits i 0 24))
  | 0x57, _ => need (r.d == 0 && r.b == 0) <|
    match scopeOf t, fenceOrdOf r.a.val with | some s, some o => some (.fence m o s) | _, _ => none
  | 0x58, some i => need (r.d == 0 && bitsOf i 24 4 == 0) <| (baraOf t).map fun k =>
      .bara m k (immG i 28) r.a r.b (immBits i 0 24)
  | 0x59, some i => need (t == 0 && r.d == 0 && bitsOf i 24 4 == 0) <|
      some (.barw m (immG i 28) r.a r.b (immBits i 0 24))
  | 0x5A, some i => need (t == 0 && r.a == 0 && r.b == 0 && bitsOf i 9 23 == 0) <| some (.csrr m r.d (immBits i 0 9))
  | 0x5B, some i => need (r.d == 0 && r.b == 0 && bitsOf i 9 23 == 0) <| (csrModeOf t).map fun k =>
      .csrw m k (immBits i 0 9) r.a
  | 0x5C, _ => need (t == 0 && r.d == 0 && r.a == 0 && r.b == 0) <| some (.snap m)
  | _, _ => none

/-- Opcodes 0x60 to 0x6C (R85 borrows and tasks, R168, R45, R50, R327). -/
def Raw.borrow (r : Raw) : Option Instr :=
  let m := r.mods
  let t := r.t.val
  match r.op.val, r.imm with
  | 0x60, _ => match borOf t, (narrow? 16 r.d) with | some (k, n), some d => some (.bor m k n d r.a r.b) | _, _ => none
  | 0x61, _ => need (t < 2) <|
    match (narrow? 16 r.d), (narrow? 16 r.a) with | some d, some a => some (.reb m (t == 1) d a r.b) | _, _ => none
  | 0x62, _ => need (t == 0) <|
    match (narrow? 16 r.d), (narrow? 16 r.a) with | some d, some a => some (.spl m d a r.b) | _, _ => none
  | 0x63, _ => need (t == 0 && r.b == 0) <|
    match (narrow? 16 r.d), (narrow? 16 r.a) with | some d, some a => some (.jon m d a) | _, _ => none
  | 0x64, _ => need (t < 2 && r.d == 0 && r.b == 0) <| (narrow? 16 r.a).map (.rtn m (t == 1))
  | 0x65, _ => need (r.b == 0) <|
    match btstOf t, (narrow? 24 r.d), (narrow? 16 r.a) with
    | some c, some d, some a => some (.btst m c d a)
    | _, _, _ => none
  | 0x66, _ => need (r.b == 0) <|
    match bqryOf t, (narrow? 16 r.a) with | some f, some a => some (.bqry m f r.d a) | _, _ => none
  | 0x67, _ => need (t == 0 && r.d == 0 && r.b == 0) <| (narrow? 16 r.a).map (.bwait m)
  | 0x68, some i => need (t == 0 && r.d == 0 && r.b == 0 && bitsOf i 13 19 == 0) <|
      some (.spawn m r.a (immBits i 0 13))
  | 0x69, some i => need (t == 0 && r.d == 0) <|
      some (.spawna m (immG i 28) r.a r.b (immBits i 15 13) (immBits i 0 15))
  | 0x6A, some i => need (t == 0 && r.d == 0 && r.b == 0 && bitsOf i 24 4 == 0) <|
      some (.launch m (immG i 28) r.a (immBits i 0 24))
  | 0x6B, some i => need (r.d == 0) <|
    match t with
    | 0 => need (bitsOf i 13 3 == 0) <| some (.depcSet m (immBits i 16 16) r.a r.b (immBits i 0 13))
    | 1 => need (r.a == 0 && bitsOf i 0 16 == 0) <| some (.depcAdd m (immBits i 16 16) r.b)
    | 2 => need (r.a == 0 && r.b == 0 && bitsOf i 0 16 == 0) <| some (.depcArrive m (immBits i 16 16))
    | _ => none
  | 0x6C, _ => need (t == 0 && r.d == 0 && r.a == 0 && r.b == 0) <| some (.chwait m)
  | _, _ => none

/-- Opcodes 0x70 to 0x7D (R85 engines and matrix, R209 to R223, R231, R235, R241, R242, R289). -/
def Raw.engine (r : Raw) : Option Instr :=
  let m := r.mods
  let t := r.t.val
  match r.op.val, r.imm with
  | 0x70, some i => need (t == 0 && bitsOf i 0 20 == 0) <| (narrow? 16 r.d).map fun d =>
      .cpy m (immFin i 26 2) d (immG i 28) r.a r.b (immFin i 20 6)
  | 0x71, some i => need (r.b == 0 && bitsOf i 0 3 == 0) <|
    match tcpyDirOf t, (narrow? 16 r.d) with
    | some k, some g =>
      some (.tcpy m k g r.a (immBits i 20 12) (immFin i 11 9) (immG i 7) (immFin i 5 2) (bitOf i 4) (bitOf i 3))
    | _, _ => none
  | 0x72, some i => need (t == 0 && bitsOf i 0 16 == 0) <| (narrow? 16 r.d).map fun d =>
      .gath m d (immG i 28) r.a r.b (immBits i 16 12)
  | 0x73, some i => need (r.d == 0 && r.a == 0 && r.b == 0 && bitsOf i 8 24 == 0) <|
      some (.cwait m (opClassOf r.t) (immBits i 0 8))
  | 0x74, some i => need (t < 2 && r.b == 0 && bitsOf i 0 11 == 0) <|
    match (narrow? 16 r.d), collOpOf (bitsOf i 26 2) with
    | some d, some o =>
      some (.coll m (t == 1) o (immFin i 24 2) (immFin i 15 9) (immFin i 11 4) (immG i 28) d r.a)
    | _, _ => none
  | 0x75, some i => need (r.b == 0 && bitsOf i 0 19 == 0) <|
    match nmcOf t, (narrow? 16 r.d), Fmt.ofCode (bitsOf i 19 5) with
    | some o, some d, some f => some (.nmc m o d (immG i 28) (immG i 24) f r.a)
    | _, _, _ => none
  | 0x78, some i => need (t == 0 && r.d == 0 && r.a == 0 && r.b == 0) <|
    match Fmt.ofCode (bitsOf i 18 5), Fmt.ofCode (bitsOf i 13 5), blkOf (bitsOf i 11 2) with
    | some af, some bf, some k =>
      some (.trsv m (immFin i 23 9) af bf k (immFin i 9 2) (bitOf i 8) (immBits i 0 8))
    | _, _, _ => none
  | 0x79, _ => need (t == 0 && r.d == 0 && r.b == 0) <| some (.trel m r.a)
  | 0x7A, some i => need (t < 4 && r.d == 0 && r.b == 0 && bitsOf i 0 7 == 0) <|
      some (.mma m (t % 2 == 1) (t / 2 == 1) r.a (immFin i 23 9) (immBits i 11 12) (immFin i 8 3) (bitOf i 7))
  | 0x7B, some i => need (t == 0 && r.a == 0 && r.b == 0 && bitsOf i 0 8 == 0) <|
    match Fmt.ofCode (bitsOf i 27 5), rndOf (bitsOf i 24 3) with
    | some f, some x =>
      some (.accrd m f x (bitOf i 23) r.d (immBits i 11 12) (regCountOf (bitsOf i 9 2)) (bitOf i 8))
    | _, _ => none
  | 0x7C, some i => need (r.d == 0 && r.b == 0) <|
    match t with
    | 0 => need (bitsOf i 23 4 == 0 && bitsOf i 0 8 == 0) <| (Fmt.ofCode (bitsOf i 27 5)).map fun f =>
        .accwrReg m f r.a (immBits i 11 12) (regCountOf (bitsOf i 9 2)) (bitOf i 8)
    | 1 => need (r.a == 0 && bitsOf i 0 4 == 0) <|
        some (.accwrTile m (immFin i 23 9) (immBits i 11 12) (immFin i 5 6) (bitOf i 4))
    | _ => none
  | 0x7D, _ => need (t == 0 && r.b == 0) <|
    match (narrow? 8 r.d), (narrow? 12 r.a) with | some d, some a => some (.cset m d a) | _, _ => none
  | _, _ => none

/-- The opcode map of R85. -/
def Raw.toInstr (r : Raw) : Option Instr :=
  if r.op.val < 0x10 then r.control
  else if r.op.val < 0x30 then r.integer
  else if r.op.val < 0x50 then r.float
  else if r.op.val < 0x60 then r.memory
  else if r.op.val < 0x70 then r.borrow
  else r.engine

/-- The instruction that starts a list of words, and how many words it has; none where an encoding check of R87
step 2 fails on the words alone. Only the zero word is NOP (R72, R85). -/
def decode (ws : List Word) : Option (Instr × Nat) :=
  match ws with
  | [] => none
  | x :: _ =>
    if x = 0#32 then some (.nop, 1)
    else
      match rawOf ws, instrLen ws with
      | some r, some n =>
        match r.toInstr with
        | some i => if i.fieldsOk then some (i, n) else none
        | none => none
      | _, _ => none

/-! ### The encoder -/

/-- A raw instruction with these fields and the modifiers of an instruction. -/
def Raw.mk' (m : Mods) (op : Fin 128) (t : Fin 8) (d a b : Fin 64) (imm : Option Nat) : Raw :=
  ⟨m.chain, op, t, d, a, b, m.la, m.lb, imm.map (BitVec.ofNat 32), m.xg, m.xm⟩

/-- A predicate, mask, region or convergence register in its 6-bit field. -/
def wideField {n : Nat} (x : Fin n) : Fin 64 := Fin.ofNat 64 x.val

/-- A Boolean variant. -/
def tOf (b : Bool) : Fin 8 := if b then 1 else 0

/-- Two Boolean variant bits, the first in T[0]. -/
def tOf2 (b0 b1 : Bool) : Fin 8 := Fin.ofNat 8 (b0.toNat + 2 * b1.toNat)

/-- The fields of an encoded instruction, from the tables of R85 and the instruction descriptions; none for NOP and
for a step of the module. -/
def Instr.toRaw : Instr → Option Raw
  | .bra m c s h off => some <| .mk' m 0x01 (tOf s) 0 (match c with | none => 63 | some p => wideField p) 0
      (some (off.toNat * 2 ^ 8 + h.code * 2 ^ 6))
  | .brx m h a => some <| .mk' m 0x02 (Fin.ofNat 8 h.code) 0 a 0 none
  | .call m d off => some <| .mk' m 0x03 0 d 0 0 (some (off.toNat * 2 ^ 8))
  | .ret m a => some <| .mk' m 0x04 0 0 a 0 none
  | .join m d => some <| .mk' m 0x05 0 (wideField d) 0 0 none
  | .leave m d => some <| .mk' m 0x06 0 (wideField d) 0 0 none
  | .waitm m a => some <| .mk' m 0x07 0 0 (wideField a) 0 none
  | .matchKeys m k d a b => some <| .mk' m 0x08 (tOf k) d a (wideField b) none
  | .vote m (.any d) a b => some <| .mk' m 0x09 0 (wideField d) (wideField a) (wideField b) none
  | .vote m (.all d) a b => some <| .mk' m 0x09 1 (wideField d) (wideField a) (wideField b) none
  | .vote m (.ballot d) a b => some <| .mk' m 0x09 2 d (wideField a) (wideField b) none
  | .exit m => some <| .mk' m 0x0A 0 0 0 0 none
  | .yield m => some <| .mk' m 0x0B 0 0 0 0 none
  | .trap m n => some <| .mk' m 0x0C 0 0 0 0 (some n.toNat)
  | .nap m n => some <| .mk' m 0x0E 0 0 0 0 (some n.toNat)
  | .tret m k => some <| .mk' m 0x0D k.code 0 0 0 none
  | .shfl m d a b => some <| .mk' m 0x10 0 d a b none
  | .mov m d a => some <| .mk' m 0x11 0 d a 0 none
  | .movi m d i => some <| .mk' m 0x12 0 d 0 0 (some i.toNat)
  | .sel m d a b c =>
      some <| .mk' { m with xm := some { XM.plain with creg := some (wideField c) } } 0x13 0 d a b none
  | .pmov m (.pp d a) => some <| .mk' m 0x2E 0 (wideField d) (wideField a) 0 none
  | .pmov m (.nz d a) => some <| .mk' m 0x2E 1 (wideField d) a 0 none
  | .pmov m (.toV d a) => some <| .mk' m 0x2E 2 d (wideField a) 0 none
  | .pmov m (.clr d) => some <| .mk' m 0x2E 3 (wideField d) 0 0 none
  | .pmov m (.set d) => some <| .mk' m 0x2E 4 (wideField d) 0 0 none
  | .iadd m ty d a b => some <| .mk' m 0x14 ty.code d a b none
  | .isub m ty d a b => some <| .mk' m 0x15 ty.code d a b none
  | .imul m ty d a b => some <| .mk' m 0x16 ty.code d a b none
  | .imulh m u d a b => some <| .mk' m 0x17 (tOf u) d a b none
  | .imad m d a b => some <| .mk' m 0x18 0 d a b none
  | .imadw m u d a b => some <| .mk' m 0x19 (tOf u) d a b none
  | .imin m ty d a b => some <| .mk' m 0x1A ty.code d a b none
  | .imax m ty d a b => some <| .mk' m 0x1B ty.code d a b none
  | .and m d a b => some <| .mk' m 0x1C 0 d a b none
  | .or m d a b => some <| .mk' m 0x1D 0 d a b none
  | .xor m d a b => some <| .mk' m 0x1E 0 d a b none
  | .andn m d a b => some <| .mk' m 0x1F 0 d a b none
  | .shl m p d a b => some <| .mk' m 0x20 (tOf p) d a b none
  | .shr m p d a b => some <| .mk' m 0x21 (tOf p) d a b none
  | .sar m p d a b => some <| .mk' m 0x22 (tOf p) d a b none
  | .rotl m d a b => some <| .mk' m 0x23 0 d a b none
  | .popc m d a => some <| .mk' m 0x24 0 d a 0 none
  | .clz m d a => some <| .mk' m 0x25 0 d a 0 none
  | .brev m d a => some <| .mk' m 0x26 0 d a 0 none
  | .bfe m s d a pos len => some <| .mk' m 0x27 0 d a 0 (some (s.toNat * 2 ^ 16 + len.val * 2 ^ 8 + pos.val))
  | .bfi m d a b pos len => some <| .mk' m 0x28 0 d a b (some (len.val * 2 ^ 8 + pos.val))
  | .icmp m c d a b => some <| .mk' m 0x29 c.code (wideField d) a b none
  | .ncmp m c d a b => some <| .mk' m 0x2A c.code (wideField d) a b none
  | .iaddi m d a i => some <| .mk' m 0x2B 0 d a 0 (some i.toNat)
  | .lea m d a b sh off => some <| .mk' m 0x2C 0 d a b (some (off.toNat * 2 ^ 8 + sh.val))
  | .plop m o d a b => some <| .mk' m 0x2D o.code (wideField d) (wideField a) (wideField b) none
  | .fadd m f d a b => some <| .mk' m 0x30 f.code d a b none
  | .fsub m f d a b => some <| .mk' m 0x31 f.code d a b none
  | .fmul m f d a b => some <| .mk' m 0x32 f.code d a b none
  | .ffma m f d a b => some <| .mk' m 0x33 f.code d a b none
  | .fmin m f d a b => some <| .mk' m 0x34 f.code d a b none
  | .fmax m f d a b => some <| .mk' m 0x35 f.code d a b none
  | .fcmp m c d a b => some <| .mk' m 0x36 c.code (wideField d) a b none
  | .frcp m d a => some <| .mk' m 0x37 0 d a 0 none
  | .frsq m d a => some <| .mk' m 0x38 0 d a 0 none
  | .fsqrt m d a => some <| .mk' m 0x39 0 d a 0 none
  | .fexp2 m d a => some <| .mk' m 0x3A 0 d a 0 none
  | .flog2 m d a => some <| .mk' m 0x3B 0 d a 0 none
  | .fsin m d a => some <| .mk' m 0x3C 0 d a 0 none
  | .fcos m d a => some <| .mk' m 0x3D 0 d a 0 none
  | .ftanh m d a => some <| .mk' m 0x3E 0 d a 0 none
  | .frnd m r d a => some <| .mk' m 0x3F (Fin.ofNat 8 r.code) d a 0 none
  | .cvt m df sf r s e d a => some <| .mk' m 0x40 0 d a 0
      (some (df.code * 2 ^ 27 + sf.code * 2 ^ 22 + r.code * 2 ^ 19 + s.toNat * 2 ^ 18 + e.val * 2 ^ 16))
  | .f2i m u d a => some <| .mk' m 0x41 (tOf u) d a 0 none
  | .i2f m u d a => some <| .mk' m 0x42 (tOf u) d a 0 none
  | .fclass m d a => some <| .mk' m 0x43 0 d a 0 none
  | .fdp4 m ae be d a b => some <| .mk' m 0x44 (tOf2 ae be) d a b none
  | .fdp8 m d a b => some <| .mk' m 0x45 0 d a b none
  | .idp4 m ua ub d a b => some <| .mk' m 0x46 (tOf2 ua ub) d a b none
  | .idp8 m ua ub d a b => some <| .mk' m 0x47 (tOf2 ua ub) d a b none
  | .fscl m d a b => some <| .mk' m 0x48 0 d a b none
  | .bswz m d a b s => some <| .mk' m 0x49 0 d a b (some s.toNat)
  | .ld m sz p k d a off => some <| .mk' m 0x50 sz.code d a 0
      (some (k.val * 2 ^ 28 + p.code * 2 ^ 26 + off.toNat))
  | .st m sz p k a b off => some <| .mk' m 0x51 sz.code 0 a b
      (some (k.val * 2 ^ 28 + p.code * 2 ^ 26 + off.toNat))
  | .atom m o k sc op w d a b off => some <| .mk' m 0x52 o.code d a b
      (some (k.val * 2 ^ 28 + sc.code.val * 2 ^ 25 + op.code * 2 ^ 21 + w.toNat * 2 ^ 20 + off.toNat))
  | .red m o k sc op w a b off => some <| .mk' m 0x53 o.code 0 a b
      (some (k.val * 2 ^ 28 + sc.code.val * 2 ^ 25 + op.code * 2 ^ 21 + w.toNat * 2 ^ 20 + off.toNat))
  | .atomc m o k e task d a b off => some <| .mk' m 0x54 o.code d a b
      (some (k.val * 2 ^ 28 + e.toNat * 2 ^ 26 + task.toNat * 2 ^ 13 + off.toNat))
  | .atomw m o k d a b off => some <| .mk' m 0x55 o.code d a b (some (k.val * 2 ^ 28 + off.toNat))
  | .waitw m k tmo d a b off => some <| .mk' m 0x56 0 d a b
      (some (k.val * 2 ^ 28 + tmo.toNat * 2 ^ 24 + off.toNat))
  | .fence m o sc => some <| .mk' m 0x57 sc.code 0 o.code 0 none
  | .bara m k g a b off => some <| .mk' m 0x58 k.code 0 a b (some (g.val * 2 ^ 28 + off.toNat))
  | .barw m g a b off => some <| .mk' m 0x59 0 0 a b (some (g.val * 2 ^ 28 + off.toNat))
  | .csrr m d n => some <| .mk' m 0x5A 0 d 0 0 (some n.toNat)
  | .csrw m k n a => some <| .mk' m 0x5B k.code 0 a 0 (some n.toNat)
  | .snap m => some <| .mk' m 0x5C 0 0 0 0 none
  | .bor m k n d a b => some <| .mk' m 0x60 (borCode k n) (wideField d) a b none
  | .reb m s d a b => some <| .mk' m 0x61 (tOf s) (wideField d) (wideField a) b none
  | .spl m d a b => some <| .mk' m 0x62 0 (wideField d) (wideField a) b none
  | .jon m d a => some <| .mk' m 0x63 0 (wideField d) (wideField a) 0 none
  | .rtn m r a => some <| .mk' m 0x64 (tOf r) 0 (wideField a) 0 none
  | .btst m c d a => some <| .mk' m 0x65 c.code (wideField d) (wideField a) 0 none
  | .bqry m f d a => some <| .mk' m 0x66 f.code d (wideField a) 0 none
  | .bwait m a => some <| .mk' m 0x67 0 0 (wideField a) 0 none
  | .spawn m a task => some <| .mk' m 0x68 0 0 a 0 (some task.toNat)
  | .spawna m k a b task off => some <| .mk' m 0x69 0 0 a b
      (some (k.val * 2 ^ 28 + task.toNat * 2 ^ 15 + off.toNat))
  | .launch m k a off => some <| .mk' m 0x6A 0 0 a 0 (some (k.val * 2 ^ 28 + off.toNat))
  | .depcSet m c a b task => some <| .mk' m 0x6B 0 0 a b (some (c.toNat * 2 ^ 16 + task.toNat))
  | .depcAdd m c b => some <| .mk' m 0x6B 1 0 0 b (some (c.toNat * 2 ^ 16))
  | .depcArrive m c => some <| .mk' m 0x6B 2 0 0 0 (some (c.toNat * 2 ^ 16))
  | .chwait m => some <| .mk' m 0x6C 0 0 0 0 none
  | .cpy m tag d s a b val => some <| .mk' m 0x70 0 (wideField d) a b
      (some (s.val * 2 ^ 28 + tag.val * 2 ^ 26 + val.val * 2 ^ 20))
  | .tcpy m dir g a hnd tile bg tag dc tr => some <| .mk' m 0x71 dir.code (wideField g) a 0
      (some (hnd.toNat * 2 ^ 20 + tile.val * 2 ^ 11 + bg.val * 2 ^ 7 + tag.val * 2 ^ 5 + dc.toNat * 2 ^ 4 +
        tr.toNat * 2 ^ 3))
  | .gath m d s a b rb => some <| .mk' m 0x72 0 (wideField d) a b (some (s.val * 2 ^ 28 + rb.toNat * 2 ^ 16))
  | .cwait m c n => some <| .mk' m 0x73 c.code 0 0 0 (some n.toNat)
  | .coll m x o f l n s d a => some <| .mk' m 0x74 (tOf x) (wideField d) a 0
      (some (s.val * 2 ^ 28 + o.code * 2 ^ 26 + f.val * 2 ^ 24 + l.val * 2 ^ 15 + n.val * 2 ^ 11))
  | .nmc m o d s r f a => some <| .mk' m 0x75 o.code (wideField d) a 0
      (some (s.val * 2 ^ 28 + r.val * 2 ^ 24 + f.code * 2 ^ 19))
  | .trsv m tile af bf blk fills sc soff => some <| .mk' m 0x78 0 0 0 0
      (some (tile.val * 2 ^ 23 + af.code * 2 ^ 18 + bf.code * 2 ^ 13 + blk.code * 2 ^ 11 + fills.val * 2 ^ 9 +
        sc.toNat * 2 ^ 8 + soff.toNat))
  | .trel m a => some <| .mk' m 0x79 0 0 a 0 none
  | .mma m zi dec a tile col ck ru => some <| .mk' m 0x7A (tOf2 zi dec) 0 a 0
      (some (tile.val * 2 ^ 23 + col.toNat * 2 ^ 11 + ck.val * 2 ^ 8 + ru.toNat * 2 ^ 7))
  | .accrd m f r s d col nr zr => some <| .mk' m 0x7B 0 d 0 0
      (some (f.code * 2 ^ 27 + r.code * 2 ^ 24 + s.toNat * 2 ^ 23 + col.toNat * 2 ^ 11 + nr.code * 2 ^ 9 +
        zr.toNat * 2 ^ 8))
  | .accwrReg m f a col nr add => some <| .mk' m 0x7C 0 0 a 0
      (some (f.code * 2 ^ 27 + col.toNat * 2 ^ 11 + nr.code * 2 ^ 9 + add.toNat * 2 ^ 8))
  | .accwrTile m tile col row0 add => some <| .mk' m 0x7C 1 0 0 0
      (some (tile.val * 2 ^ 23 + col.toNat * 2 ^ 11 + row0.val * 2 ^ 5 + add.toNat * 2 ^ 4))
  | .cset m d a => some <| .mk' m 0x7D 0 (wideField d) (wideField a) 0 none
  | _ => none

/-- The words of an instruction; no words for a step of the module, which has no encoding. -/
def encode (i : Instr) : List Word :=
  if i = .nop then [0#32] else (i.toRaw.map Raw.words).getD []

/-- The instruction the decoder reads from an instruction whose bits are `w`, its first word in bits 31..0. -/
def decodeTableWord (_nbits w : Nat) : Option Instr :=
  (decode [BitVec.ofNat 32 w, BitVec.ofNat 32 (w / 2 ^ 32), BitVec.ofNat 32 (w / 2 ^ 64)]).map Prod.fst

/-! ### Clauses -/

/-- The clause header of R73. -/
structure Header where
  wait : BitVec 12
  seta : Nat
  setb : Nat
  len : Nat
  deriving DecidableEq, Repr

/-- A word is a clause header that meets R73. -/
def headerOf (x : Word) : Option Header :=
  let a := bitsOf x 7 4
  let b := bitsOf x 3 4
  need (opOf x == 0x7F && bitsOf x 30 2 == 0 && (a ≤ 11 || a == 15) && (b ≤ 11 || b == 15)) <|
    some ⟨BitVec.ofNat 12 (bitsOf x 11 12), a, b, bitsOf x 0 3 + 1⟩

/-- The base words of the instructions in the given words of one packet, NOP words among them; none where an
instruction runs past the packet (R72, R74 condition 3). -/
def packetBases : Nat → List Word → Option (List Word)
  | 0, ws => if ws.isEmpty then some [] else none
  | _ + 1, [] => some []
  | n + 1, x :: rest =>
    match instrLen (x :: rest) with
    | none => none
    | some k => (packetBases n ((x :: rest).drop k)).map (x :: ·)

/-- The chain groups among the base words of one packet (R74 condition 6); none where a chained instruction has no
successor that is not a NOP (condition 5). -/
def chainGroups : List Word → Option (List (List Word))
  | [] => some []
  | x :: rest =>
    match chainGroups rest with
    | none => none
    | some gs =>
      if bitOf x 31 then
        match rest with
        | y :: _ => if y = 0#32 then none else
          match gs with
          | g :: more => some ((x :: g) :: more)
          | [] => none
        | [] => none
      else some ([x] :: gs)

/-- A chain group fits the pipe limits of R74 condition 6. -/
def groupFits (g : List Word) : Bool :=
  let n (p : Pipe) : Nat := (g.filter fun x => pipeOf (opOf x) == some p).length
  n .va ≤ 2 && n .sfu ≤ 1 && n .mem ≤ 1 && n .eng ≤ 1 && n .ctl ≤ 1

/-- The opcodes that end a clause (R74 condition 7). -/
def endsClause (x : Word) : Bool :=
  match opOf x with
  | 0x01 | 0x02 | 0x03 | 0x04 | 0x0A | 0x0C | 0x0D => true
  | _ => false

/-- The packets of a clause after its header, as base words, where every instruction lies in one packet. -/
def clauseBases : List (List Word) → Option (List (List Word))
  | [] => some []
  | p :: rest =>
    match packetBases 3 p, clauseBases rest with
    | some b, some bs => some (b :: bs)
    | _, _ => none

/-- A control transfer is the last instruction: only NOP words follow it. -/
def endsLast : List Word → Bool
  | [] => true
  | x :: rest => (!endsClause x || rest.all (· = 0#32)) && endsLast rest

/-- R74 over the words of a clause: its packets in order, the first without its header. -/
def clauseOk (packets : List (List Word)) : Bool :=
  match clauseBases packets with
  | none => false
  | some bs =>
    bs.all (fun p => p.all (fun x => opOf x != 0x7F) &&
      (match chainGroups p with | none => false | some gs => gs.all groupFits)) &&
    endsLast bs.flatten

end Sys2Proof
end

