-- ==== Sys2Proof/Config.lean ====
section
/-! DEFINITION. What is fixed for a K64 module: its numbers (spec/01) and the values the spec leaves open, as constants
without a body (notes/assumptions). -/

namespace Sys2Proof.Config

/-- Cores of the module (R8). -/
def cores : Nat := 64
/-- Cores of one C-die (R8). -/
def coresPerDie : Nat := 16
/-- Quads of the module (R8): quad q holds global cores 4q to 4q + 3. -/
def quads : Nat := 16
/-- Allocatable physical registers of a core (R61). -/
def physRegs : Nat := 8128
/-- Troop slots of a core (R12). -/
def troopSlots : Nat := 256
/-- Bench granules of a core: 2 MiB in granules of 4 KiB (R10, R61). -/
def benchGranules : Nat := 512
/-- Accumulator granules of a core: 4096 columns in granules of 32 (R10, R61). -/
def accGranules : Nat := 128
/-- Tiles and Tile Table entries of a core (R10). -/
def tiles : Nat := 512
/-- Trap slots of a core (R67). -/
def trapSlots : Nat := 4
/-- Bundle slots of a core (R95). -/
def bundleSlots : Nat := 16
/-- Gather Board entries of a core (R94). -/
def boardEntries : Nat := 512
/-- Entries of a C-die's Deed Table and of the base die's (R162). -/
def deedEntries (home : Nat) : Nat := if home = 4 then 65536 else 32768
/-- Lines an L1 holds: 512 KiB (R10). -/
def l1Lines : Nat := 4096
/-- Lines an L2 holds: 48 MiB (R10). -/
def l2Lines : Nat := 393216
/-- Near memory of one C-die: 48 GiB (R10). -/
def nearBytes : Nat := 48 * 2 ^ 30
/-- The far tier: 1024 GB (R7, R10, R346). -/
def farBytes : Nat := 1024 * 10 ^ 9
/-- First-level TLB entries (R188). -/
def tlb1Entries : Nat := 4096
/-- Second-level TLB entries (R188). -/
def tlb2Entries : Nat := 65536
/-- Page walks of one die at once (R188). -/
def walkSlots : Nat := 32
/-- Undo-log lines of a die (R315). -/
def undoLines : Nat := 32768
/-- Dependence counters of the module (R41). -/
def depCounters : Nat := 65536
/-- An edge of the fabric clock lies between core clocks n - 1 and n: the two clocks bear no fixed ratio (R9); log 24. -/
opaque fabricEdge : Nat → Bool

/-- Core clocks in one microsecond at 4.0 GHz (R9). -/
def clocksPerUs : Nat := 4000
/-- The feature mask of every core (R352). -/
def features : Nat := 0x3F
/-- DEVID (R353). -/
def devid : Nat := 0x4B640001

/-- The result of an SFU function where the spec gives a bound and no value (R130, R149); log 4. -/
opaque sfu : SfuFn → Word → Word

/-- What a row that a 6-bit round put into the reuse latch gives a later round of a wider format in its registers 6 and 7,
by a number of the round and lane (R236); log 43. -/
opaque unreadRow : Nat → Nat → Nat → Word

/-- The entry of an overflow ring that the device writes, and the bytes that software finds there (R274); log 46. -/
opaque ringSlot : Nat → Fin 4096
@[inherit_doc ringSlot] opaque ringByte : Nat → Nat → Byte

/-- The slice of a home that serves a line (R185, R346); log 5. -/
opaque sliceOf : Nat → Nat

/-- The C-die that SPAWNA takes for a bench address, which has no home (R46); log 17. -/
opaque benchHome : Nat → Nat

/-- The peer port through which another module is reached (R287, R343); log 19. -/
opaque peerPort : Nat → Fin 8

/-- The deed domain that a peer's system software has given a window offset, by PA[51:0] of R344; none where its window table
has no entry (R178, R344); log 21. -/
opaque peerDomain : Nat → Option Nat

/-- The DEEDWAIT bound of a peer module, in clocks (R178); log 21. -/
opaque peerDeedWait : Nat → Nat

/-- The module number, set at bring-up (R344, R347); log 20. -/
opaque moduleNumber : BitVec 12

/-- A range of another module's peer window, or of this module's (R344): its window offset and length, its PA, the deed domain
under which it is arbitrated (R178), and the C-die of a near-tier range, none for the far tier. -/
structure Window where
  off : Nat
  len : Nat
  pa : Nat
  domain : Nat
  die : Option Nat
  deriving DecidableEq, Repr

/-- The window table that this module's system software keeps (R344); log 21. -/
opaque windowTable : List Window

/-- Module memory that system software has registered for RDMA, by PA (R340); log 48. -/
opaque registered : Nat → Bool

/-- The bytes of firmware image `n` and of its public key, and the verdict of its SLH-DSA-SHA2-192s check (R348); log 6. -/
opaque image : Nat → List Byte
@[inherit_doc image] opaque imageKey : Nat → List Byte
@[inherit_doc image] opaque signatureOk : Nat → Bool

/-- The key digest fused for the stage of image `n`, its fused rollback counter, and the size of its region (R348); log 6. -/
opaque fusedKey : Nat → BitVec 256
@[inherit_doc fusedKey] opaque rollback : Nat → Word
@[inherit_doc fusedKey] opaque regionSize : Nat → Nat

/-- The version of firmware image `n` (R348, R349); log 6. -/
opaque firmwareVersion : Nat → Word

/-- The identity-key signature of an ATTEST answer: 17,088 bytes (R349); log 6. -/
opaque signature : List Byte → Fin 17088 → Byte

end Sys2Proof.Config
end

