-- ==== Sys2Proof/Machine/State.lean ====
section
/-! DEFINITION. Everything the spec gives the module to hold, as plain data: threads, troops, bands and contexts
(spec/04 R69), cores and memory (spec/10), the ownership machinery (spec/09), engines (spec/11, 12, 15), the scheduler
(spec/03), traps and containment (spec/16) and the device (spec/20); and the machine right after power-on. -/

namespace Sys2Proof.Machine

/-! ### Threads, troops and bands -/

/-- A PC: packet index and slot (R71). -/
structure Pc where
  p : Word
  slot : Fin 3
  deriving DecidableEq, Repr

/-- The three spaces of a region register (R157). -/
inductive Space where
  | region | bench | peer
  deriving DecidableEq, Repr

/-- The states of a region register (R161). -/
inductive GState where
  | empty | pending | held | refused
  deriving DecidableEq, Repr

/-- The range and kind of a child carved from a register (R157, R173). -/
structure KidRange where
  base : Nat
  len : Nat
  kind : Kind
  deriving DecidableEq, Repr

/-- A region register (R157). `family` numbers the BOR or dispatcher grant it descends from (R174). -/
structure Region where
  state : GState
  space : Space
  kind : Kind
  base : Nat
  len : Nat
  deed : Nat
  top : Bool
  parent : Nat
  kids : List KidRange
  sub : Nat
  family : Nat
  deriving DecidableEq, Repr

/-- An EMPTY register: every field BQRY reads is 0 (R157). -/
def Region.none : Region := ⟨.empty, .region, .e, 0, 0, 0, false, 0, [], 0, 0⟩

/-- The physical register behind one name of a troop (R64): 64 lanes, each 0 unless listed, and the lane masks. -/
structure VName where
  vals : List (Nat × Word)
  written : BitVec 64
  released : BitVec 64
  /-- lanes of a poisoned register not overwritten since (R319): poisoned while one is left -/
  poison : BitVec 64
  deriving DecidableEq, Repr

/-- What a waiting thread waits for (R93). The waits marked "again" execute the instruction at the PC once more when
they end; the others continue at `npc`. -/
inductive Wait where
  /-- again: flags named by WAIT (R73) or all flags, for EXIT and TRET (R112, R304) -/
  | flags (mask : BitVec 12)
  /-- a troop collective on a mask register: variant code, its destination, its operand (R109) -/
  | collective (m : MReg) (code : Nat) (d : Nat) (key : BitVec 64) (rel : List VReg)
  /-- NAP, until the clock given (R113) -/
  | nap (until_ : Nat)
  /-- NAP of a SAVED band or of a thread in handler mode: clocks left -/
  | napHeld (left : Nat)
  /-- BARW: the offset of the object in the band's bench and the generation waited on (R266) -/
  | barw (off gen : Nat)
  /-- WAITW asleep: the sleeper's number (R270) -/
  | waitw (id : Nat)
  /-- BWAIT on a register (R171) -/
  | region (g : GReg)
  /-- a waiting BOR (R170) -/
  | borrow (g : GReg)
  /-- CWAIT (R207) -/
  | cwait (cls : OpClass) (n : Nat)
  /-- CHWAIT: the children not yet retired (R328) -/
  | chwait (kids : List Nat)
  /-- again: stalled in the allocation of n registers (R66) -/
  | alloc (n : Nat)
  /-- again: SPAWN or SPAWNA over PENDMAX (R48) -/
  | spawn
  /-- a member of a trap event that has not yet entered its handler (R299) -/
  | trapEntry (ev : Nat)
  /-- again: a fifth trap event (R301) -/
  | trapRoom
  /-- again: older RTNs of the thread (R50, R176, R261) -/
  | returns
  /-- again: a release waits for the accesses of the thread at a scope (R252) -/
  | order (sc : Scope)
  /-- again: an acquire fence waits for older loads of the thread (R250) -/
  | loads
  /-- again: an engine counter stands at 255 (R206) -/
  | counter (cls : OpClass)
  /-- again: the thread has signed the round of this convergence register (R232) -/
  | signed (c : CReg)
  /-- a tile still read by earlier instructions (R216) -/
  | tile (phys : Nat)
  /-- again: it migrates with its band, and goes on after the restore (R305) -/
  | migrate
  /-- again: a redundant pair's return signs what its holders' older accesses have written (R311) -/
  | drain (g : GReg)
  /-- again: a redundant pair's act (R312) -/
  | pair (act : Nat)
  deriving DecidableEq, Repr

/-- Issue state of a thread (R69, R93, R94). -/
inductive Status where
  /-- ready since the stamp; on the Gather Board, or in its troop's overflow list -/
  | ready (stamp : Nat) (board : Bool)
  /-- a member of a bundle -/
  | bundled (b : Nat)
  | waiting (w : Wait)
  | exited
  deriving DecidableEq, Repr

/-- The trap registers of a thread (R321) and, for COPY_FAULT and CHUNK_CHECK, its CF and CK registers (R227, R295). -/
structure TrapRegs where
  async : Bool
  slot : Nat
  cause : Nat
  addr : BitVec 57
  info : Word
  tpc : Pc
  tnpc : Pc
  cf : List Word
  ck : List Word
  /-- the engine operation this COPY_FAULT suspends (R226) -/
  op : Option Nat
  /-- TPC or TNPC was written by the handler to another packet (R113, R304) -/
  moved : Bool
  /-- resuming at TPC, or at TNPC, enters a clause there: the trap struck at an entry, or the handler wrote the register
  (R75, R304) -/
  enter : Bool
  enterN : Bool
  deriving DecidableEq, Repr

/-- Trap registers at depth 0: every one reads 0 (R321). -/
def TrapRegs.zero : TrapRegs :=
  ⟨false, 0, 0, 0, 0, ⟨0, 0⟩, ⟨0, 0⟩, List.replicate 9 0, List.replicate 3 0, none, false, false, false⟩

/-- A thread (R69). -/
structure Thread where
  pc : Pc
  /-- where the thread continues after a wait that does not execute the instruction again -/
  npc : Pc
  preds : BitVec 24
  flags : BitVec 12
  status : Status
  /-- handler mode: trap depth 1 (R299) -/
  depth : Bool
  trap : TrapRegs
  susp : Bool
  rolled : Bool
  /-- clocks left of a NAP that a trap interrupted (R113) -/
  napLeft : Option Nat
  /-- a BOR that a trap interrupted: it waits as BWAIT when executed again (R170) -/
  borWait : Option Nat
  /-- it has transferred control to its PC and has not yet entered the clause there (R75) -/
  entering : Bool
  deriving DecidableEq, Repr

/-- A thread at its entry (R62): nothing written, no flag set. -/
def Thread.start (pc : Pc) (stamp : Nat) : Thread :=
  ⟨pc, pc, 0, 0, .ready stamp true, false, .zero, false, false, none, none, true⟩

/-- One thread of a trap event with its TINFO and TADDR. -/
structure TrapLane where
  lane : Nat
  info : Word
  addr : BitVec 57
  deriving DecidableEq, Repr

/-- A trap event (R297). -/
structure TrapEvent where
  id : Nat
  cause : Nat
  precise : Bool
  tpc : Pc
  tnpc : Pc
  lanes : List TrapLane
  cf : List Word
  ck : List Word
  op : Option Nat
  deriving DecidableEq, Repr

/-- A convergence register (R230): `latch` holds the reuse latch's A rows and scale words by lane. -/
structure Conv where
  troop : Nat
  members : BitVec 64
  signed : BitVec 64
  words : List Word
  latch : Option (List (Nat × List Word) × List (Nat × Word))
  rounds : Bool
  /-- the lanes that signed, in their order, with the last-read releases of each, and the number of the counted
  operation of the round -/
  sigs : List (Nat × List VReg)
  op : Nat
  deriving DecidableEq, Repr

/-- An EMPTY convergence register. -/
def Conv.none : Conv := ⟨0, 0, 0, [], Option.none, false, [], 0⟩

/-- A troop (R69), with the troop slot it takes on its core (R59). -/
structure Troop where
  tslot : Nat
  names : List (Nat × VName)
  masks : List (Nat × BitVec 64)
  g : List Region
  threads : List Thread
  /-- the event whose handler runs or waits for a slot, and the lanes that have not returned (R299, R300) -/
  active : Option TrapEvent
  entered : Bool
  slot : Option Nat
  queue : List TrapEvent
  sig : BitVec 64
  acts : Nat
  killed : Bool
  retired : Bool
  deriving DecidableEq, Repr

/-- The states of a band (R57). -/
inductive BandState where
  | pending | resident | saved | draining | retired
  deriving DecidableEq, Repr

/-- A trap slot of a core (R300): the event it serves, by band, troop and event, and its 16 registers by lane. -/
structure TrapSlot where
  core : Nat
  idx : Nat
  owner : Option (Nat × Nat × Nat)
  regs : List (Nat × List (Nat × Word))
  poison : List (Nat × BitVec 64)
  deriving DecidableEq, Repr

/-- What a SAVED band keeps of the stores it left (R308): bench by band-core and local offset, accumulator, tiles, and the
trap slots of its events in handler mode by troop. It stands beside memory: the save area has no layout (log 8). -/
structure Saved where
  bench : List (List (Nat × Byte))
  acc : List (List (Nat × Word))
  tiles : List (List (Nat × Byte))
  /-- what is poisoned in them (R319): bench words, accumulator elements by row and band column, tile bytes -/
  benchPoison : List (List Nat)
  accPoison : List (List (Nat × Nat))
  tilePoison : List (List Nat)
  slots : List (Nat × TrapSlot)
  deriving DecidableEq, Repr

/-- The states of a tile (R217). -/
inductive TileState where
  | empty | filling | ready | draining
  deriving DecidableEq, Repr

/-- A Tile Table entry (R212), without its owner, which the band's map gives. -/
structure TileEntry where
  state : TileState
  rv : Bool
  af : Fmt
  bf : Fmt
  blk : BlkLen
  sc : Bool
  soff : Nat
  fills : Nat
  issued : Nat
  done : Nat
  drains : Nat
  deriving DecidableEq, Repr

/-- An EMPTY entry with its record cleared. -/
def TileEntry.clear : TileEntry := ⟨.empty, false, .f32, .f32, .b16, false, 0, 0, 0, 0, 0⟩

/-- What a kernel header or task descriptor gives a band (R22, R26). -/
structure Footprint where
  cseg : Nat
  entry : Word
  regs : Nat
  typ : Nat
  ovc : Bool
  bench : Nat
  acc : Nat
  tiles : Nat
  preload : BitVec 8
  features : Nat
  deriving DecidableEq, Repr

/-- A band (R57, R69) with its scheduler record. -/
structure Band where
  id : Nat
  asid : Nat
  state : BandState
  /-- its save has begun and is not complete (R308) -/
  saving : Bool
  /-- the grid it belongs to; none for a task -/
  grid : Option Nat
  /-- the parent band and the child number under which it counts (R44) -/
  parent : Option (Nat × Nat)
  task : Bool
  args : List Word
  x : Nat
  y : Nat
  z : Nat
  depth : Nat
  gridseq : Word
  fp : Footprint
  ntroops : Nat
  coresAsked : Nat
  /-- cores it lives on, in increasing order; their number is fixed at the first placement (R59) -/
  ncores : Nat
  cores : List Nat
  die : Option Nat
  prio : Nat
  aging : Nat
  agingCounts : List Nat
  waitSince : Nat
  residentSince : Nat
  turns : Nat
  troops : List Troop
  g : List Region
  conv : List Conv
  decay : Word
  /-- physical bench granules, accumulator granules and tile entries of each band core (R61) -/
  benchMap : List (List Nat)
  accMap : List (List Nat)
  tileMap : List (List Nat)
  tileEntries : List (List TileEntry)
  saved : Option Saved
  /-- member index and the other member of a redundant pair (R310) -/
  pair : Option (Nat × Nat)
  mig : Bool
  migBit : Option Nat
  /-- the troop and event whose threads migrate (R305) -/
  migEvent : Nat × Nat
  /-- rollback state (R314 to R318) -/
  hasPoint : Bool
  committed : Bool
  undoOver : Bool
  rollbacks : Nat
  rollCount : Nat
  killed : Bool
  deriving DecidableEq, Repr

/-! ### Issue -/

/-- A chain group in progress (R98): the PC of its first member, and the registers as they stood before it. -/
structure GroupSnap where
  first : Pc
  bands : List Band
  slots : List TrapSlot
  deriving DecidableEq, Repr

/-- How an access uses a page (R188, R189). -/
inductive Use where
  | read | write | fetch
  deriving DecidableEq, Repr

/-- A failed translation: WHY and LVL of R189. -/
structure XlateFail where
  why : Nat
  lvl : Nat
  deriving DecidableEq, Repr

/-- An address whose translation the instruction at a bundle's PC needs, by the walk that looks for it. -/
structure WalkWait where
  walk : Nat
  va : Nat
  use : Use
  /-- for system software (R188, R299) -/
  sys : Bool
  deriving DecidableEq, Repr

/-- A bundle (R95): threads of distinct lanes at one PC of one code segment. -/
structure Bundle where
  id : Nat
  core : Nat
  /-- the issue unit in whose slots it stands (R95, R97) -/
  unit : Nat
  asid : Nat
  cseg : Nat
  pc : Pc
  npc : Pc
  /-- first packet of the clause, and of the clause after it -/
  base : Word
  next : Word
  seta : Nat
  setb : Nat
  /-- the words of the instruction that issues (R311) -/
  words : List Word
  threads : List Tid
  /-- the stamps of its threads, by thread (R97) -/
  stamps : List (Tid × Nat)
  /-- the walks that the instruction at the PC waits for: it issues for no thread before their end (log 23) -/
  walks : List WalkWait
  /-- the addresses of that instruction whose walks have failed -/
  faults : List (WalkWait × XlateFail)
  /-- the chain group that the instruction at the PC goes on with, where it had to wait (R98) -/
  snap : Option GroupSnap
  deriving DecidableEq, Repr

/-- A register write: a vector register or a predicate. -/
inductive RegWrite where
  | v (r : VReg) (x : Word)
  | p (r : PReg) (b : Bool)
  deriving DecidableEq, Repr

/-- The home of a line (R185). -/
inductive HomeId where
  | die (d : Nat) | base | peer
  deriving DecidableEq, Repr

/-- Where an access lands: a bench word of a core, or a physical address with its home. -/
inductive Loc where
  | bench (core off : Nat)
  | mem (pa : Nat) (home : HomeId)
  deriving DecidableEq, Repr

/-- The site of an access (R197): the bank, an L1, a die's L2 or the home. -/
inductive Site where
  | bank | l1 (core : Nat) | l2 (die : Nat) | home
  deriving DecidableEq, Repr

/-- What a long-latency operation still does. -/
inductive Pend where
  /-- an SFU instruction: function, modifiers, destination and source, read when it runs (R100, R149) -/
  | sfu (f : SfuFn) (m : Mods) (d a : VReg)
  | shfl (m : Mods) (d a b : VReg)
  /-- results already known, not yet written -/
  | regs (ws : List RegWrite)
  | load (loc : Loc) (site : Site) (sz : LdSize) (pol : Policy) (d : VReg)
  | atom (loc : Loc) (va : Nat) (site : Site) (op : AtomOp) (w64 : Bool) (b c : BitVec 64) (d : VReg) (acq : Option Scope)
  | atomc (loc : Loc) (va : Nat) (addeq : Bool) (task : Nat) (b c tag : Word) (d : VReg) (acq : Bool)
  | atomw (loc : Loc) (b c : Word) (d : VReg) (acq : Bool)
  deriving DecidableEq, Repr

/-- A long-latency operation in progress (R100). -/
structure Pending where
  id : Nat
  tid : Tid
  pc : Pc
  issue : Nat
  what : Pend
  /-- last-read releases due when the sources have been read (R101) -/
  rel : List VReg
  deriving DecidableEq, Repr

/-- A completion flag held set by an operation until its clearing point (R101). -/
structure FlagHold where
  tid : Tid
  flag : Nat
  owner : Nat
  /-- held until the sources are read, rather than until the results are written -/
  src : Bool
  deriving DecidableEq, Repr

/-- A store, reduction or arrival that has issued and is not yet performed (R249). -/
inductive FlightAct where
  | store (size : Nat) (data : BitVec 128)
  | red (op : AtomOp) (w64 : Bool) (b : BitVec 64)
  deriving DecidableEq, Repr

/-- An access in flight, with the register it went through (R175). -/
structure Flight where
  id : Nat
  tid : Tid
  issue : Nat
  asid : Nat
  va : Nat
  loc : Loc
  site : Site
  pol : Policy
  act : FlightAct
  g : GReg
  deriving DecidableEq, Repr

/-- A member's visible act waiting for its partner's (R312). -/
structure PairAct where
  id : Nat
  band : Nat
  troop : Nat
  index : Nat
  sig : BitVec 64
  deadline : Nat
  tids : List Tid
  passed : Bool
  deriving DecidableEq, Repr

/-! ### Caches and translation -/

/-- A cached line (R185): its data, the bytes written and not yet written down, and its marks. -/
structure Line where
  line : Nat
  home : HomeId
  asid : Nat
  data : BitVec 1024
  dirty : BitVec 128
  keep : Bool
  strm : Bool
  poison : Bool
  deriving DecidableEq, Repr

/-- A cached translation (R188). -/
structure TlbEntry where
  asid : Nat
  global : Bool
  base : Nat
  size : Nat
  pa : Nat
  home : BitVec 2
  die : Nat
  prv : Bool
  x : Bool
  w : Bool
  deriving DecidableEq, Repr

/-- A page walk (R189): one page of one ASID on one die, and whether it runs or waits for a walk slot. -/
structure Walk where
  id : Nat
  die : Nat
  core : Nat
  asid : Nat
  va : Nat
  running : Bool
  deriving DecidableEq, Repr

/-- The counts a core keeps for a context (R203, R204, R247). -/
structure CoreCounts where
  asid : Nat
  lreq : Nat
  rreq : Nat
  tlbmiss : Nat
  walks : Nat
  mxsusp : Nat
  mgov : Nat
  mxsloc : Word
  deriving DecidableEq, Repr

/-- A round of the matrix engine (R232 to R237): words, tile, rows and scales as taken at issue. -/
structure Round where
  band : Nat
  troop : Nat
  conv : Nat
  last : Tid
  zi : Bool
  dec : Bool
  neg : Bool
  tile : Nat
  tileIdx : Nat
  entry : TileEntry
  col : Nat
  rows : List (Nat × List Word)
  scales : List (Nat × Word)
  decay : Word
  deriving DecidableEq, Repr

/-- An entry of a core's matrix queue (R239). -/
inductive MxWork where
  | round (r : Round)
  | read (tid : Tid) (df : Fmt) (r : Rnd) (satf : Bool) (d : VReg) (col nr : Nat) (zr : Bool)
  | writeReg (tid : Tid) (sf : Fmt) (col : Nat) (add : Bool) (vals : List Word)
  /-- the tile's bytes as read when the entry was made -/
  | writeTile (tid : Tid) (entry : TileEntry) (data : List (Nat × Byte)) (col row0 : Nat) (add : Bool)
  deriving DecidableEq, Repr

/-- An entry of a matrix queue: the operation it counts as, its work, and whether the governor has held it. -/
structure MxEntry where
  op : Nat
  work : MxWork
  held : Bool
  deriving DecidableEq, Repr

/-- An L1 line that a thread's LDs of its present clause have named: it stays until the last has read it (R334). -/
structure Pin where
  core : Nat
  line : Nat
  tid : Tid
  base : Word
  next : Word
  deriving DecidableEq, Repr

/-- A core (R10, R61, R185, R212, R228, R244). -/
structure CoreSt where
  id : Nat
  l1 : List Line
  tlb : List TlbEntry
  bench : List (Nat × Byte)
  /-- the context that last owned a granule, an accumulator granule or a tile (R68) -/
  benchOwner : List (Nat × Nat)
  benchPoison : List Nat
  acc : List (Nat × Word)
  accOwner : List (Nat × Nat)
  accPoison : List (Nat × Nat)
  tiles : List (Nat × Byte)
  tileOwner : List (Nat × Nat)
  tilePoison : List Nat
  /-- tiles released and not yet zeroed (R216) -/
  tileZero : List Nat
  counts : List CoreCounts
  cecnt : Nat
  mx : List MxEntry
  mxctl : Bool
  mgcap : Nat
  mgstep : Nat
  mgcapNext : Nat
  mgstepNext : Nat
  mgpower : Nat
  mgbudget : Nat
  mgused : Nat
  mgspent : Nat
  mgwindow : Nat
  nextForm : Nat
  /-- the clock from which each issue unit, and each pipe of R97 in the order of its table, is free -/
  unitNext : List Nat
  pipeNext : List Nat
  /-- the clock from which governor windows are counted: the core's reset (R244) -/
  mgorigin : Nat
  /-- the clock from which the matrix engine may perform its next round (R244) -/
  mxNext : Nat
  deriving DecidableEq, Repr

/-- A C-die: its guest lines and second-level TLB (R185, R188), temperature (R353) and undo log use (R315). -/
structure DieSt where
  id : Nat
  l2 : List Line
  tlb : List TlbEntry
  temp : Nat
  deriving DecidableEq, Repr

/-! ### Ownership -/

/-- The requester that a DREQ names, and the holder of an E entry (R162, R177): die, core, band and register. -/
structure Holder where
  die : Nat
  core : Nat
  band : Nat
  g : GReg
  deriving DecidableEq, Repr

/-- A Deed Table entry (R162). -/
structure DeedEntry where
  idx : Nat
  domain : Nat
  base : Nat
  len : Nat
  kind : Kind
  asid : Nat
  /-- of an E entry -/
  holder : Option Holder
  count : Nat
  deriving DecidableEq, Repr

/-- A piece of a range at one home (R164). Homes 0 to 3 are the C-dies, 4 the base die, 5 + m the peer module m. -/
structure Piece where
  home : Nat
  base : Nat
  len : Nat
  deriving DecidableEq, Repr

/-- A granted piece and the entry it stands under. -/
structure Grant where
  home : Nat
  idx : Nat
  base : Nat
  len : Nat
  deriving DecidableEq, Repr

/-- A request waiting at a home (R165). -/
structure DeedReq where
  tag : Nat
  /-- of a piece of a peer's, the domain of its window, known at the peer (R178) -/
  domain : Nat
  asid : Nat
  requester : Holder
  /-- the piece: a VA, or for a peer the window offset (R178) -/
  base : Nat
  len : Nat
  kind : Kind
  nowait : Bool
  /-- the clock at which its bound expires (R166) -/
  deadline : Nat
  deriving DecidableEq, Repr

/-- An entry being rebuilt (R181, R320): its range, the dies and SAVED bands that have not answered, the answers. -/
structure Rebuild where
  idx : Nat
  domain : Nat
  base : Nat
  len : Nat
  asid : Nat
  waiting : Nat
  found : List DeedEntry
  deriving DecidableEq, Repr

/-- An ownership message (R177). -/
inductive MsgBody where
  | dreq (r : DeedReq)
  /-- the kind is the one that the tag was asked for -/
  | dgrant (tag deed : Nat) (kind : Kind)
  | drefuse (tag sub : Nat)
  | dcancel (tag : Nat)
  /-- `fam` numbers the family or borrow that held the piece, `ret` the RTN to acknowledge, 0 for none -/
  | drel (idx : Nat) (kind : Kind) (fam ret : Nat)
  | drelack (ret : Nat)
  | dquery (idx : Nat) (die : Nat)
  | dhold (idx : Nat) (die : Nat) (found : List DeedEntry)
  deriving DecidableEq, Repr

/-- Who asks: a register of a troop or band, or the dispatcher for a grid's argument block (R183). -/
inductive Asker where
  | troop (band troop : Nat) (g : GReg)
  | band (band : Nat) (g : GReg)
  | grid (grid : Nat)
  /-- another module, for a piece of one of this module's windows (R178, R344) -/
  | peer (modnum : Nat)
  deriving DecidableEq, Repr

/-- A message in flight to or from a home. -/
structure Msg where
  id : Nat
  home : Nat
  /-- the register it concerns: the messages of one register keep their order (R177) -/
  who : Asker
  body : MsgBody
  deriving DecidableEq, Repr

/-- A Deed Table with its queue (R162, R165): homes 0 to 3 the C-dies, 4 the base die, 5 + m the peer
module m, which has a table here from its first request on (log 21). -/
structure HomeSt where
  id : Nat
  entries : List DeedEntry
  queue : List DeedReq
  lost : List Rebuild
  /-- releases held during a rebuild: entry, family, RTN (R181) -/
  heldRels : List (Nat × Nat × Nat)
  deriving DecidableEq, Repr

/-- A BOR in progress (R164). -/
structure Borrow where
  tag : Nat
  who : Asker
  asid : Nat
  domain : Nat
  die : Nat
  kind : Kind
  nowait : Bool
  todo : List Piece
  got : List Grant
  deadline : Nat
  family : Nat
  deriving DecidableEq, Repr

/-- A family of top-level registers (R174): what the BOR took, and how many members still hold a part. -/
structure Family where
  id : Nat
  asid : Nat
  kind : Kind
  space : Space
  got : List Grant
  members : Nat
  deriving DecidableEq, Repr

/-- The stages of a return (R175). -/
inductive RetStage where
  | waiting | writing | releasing (left : Nat) | complete
  deriving DecidableEq, Repr

/-- An RTN in progress (R175): the returned register as it was. -/
structure Return where
  id : Nat
  /-- the returning thread; at an implicit return (R324) a lane of the troop -/
  tid : Tid
  band : Nat
  g : GReg
  reg : Region
  rel : Bool
  older : List Nat
  stage : RetStage
  deriving DecidableEq, Repr

/-! ### Engines -/

/-- An engine's address: a VA, or an offset of the band's bench. -/
structure Side where
  bench : Bool
  va : Nat
  deriving DecidableEq, Repr

/-- What an engine operation does (R209 to R224, R289); `done` counts elements or lines already moved. -/
inductive OpWork where
  | cpy (src dst : Side) (val : Nat)
  | gath (src : Option Side) (dst : Side) (len : Nat)
  | tcpy (dir : TcpyDir) (tr : Bool) (rec : BitVec 512) (org : List Int) (memBench : Bool) (tile : Nat) (bench : Nat)
      (dep : Option Nat) (done : Nat)
  | nmc (op : NmcOp) (fmt : Fmt) (src dst len : Nat) (fill : Word) (res : Option Side) (done : Nat)
  | coll (src dst off len : Nat) (cross : Bool) (opr : CollOp) (fmc : Fin 4) (np coll step chunk : Nat)
  | matrix
  deriving DecidableEq, Repr

/-- States of an engine operation (R206, R225). -/
inductive OpState where
  | running | suspended
  /-- TRET has skipped it: it completes with its data unmoved (R226) -/
  | skipped
  | complete
  deriving DecidableEq, Repr

/-- A chunk (R283): its elements, and the fields of its header. -/
structure Chunk where
  data : List Byte
  t : Nat
  w : Int
  wsat : Bool
  opr : Nat
  fmt : Nat
  hop : Nat
  chunk : Nat
  step : Nat
  coll : Nat
  deriving DecidableEq, Repr

/-- An engine operation, counted until it retires (R205, R206). -/
structure EngOp where
  id : Nat
  tid : Tid
  pc : Pc
  core : Nat
  asid : Nat
  cls : OpClass
  work : OpWork
  /-- issued by system software (R299) -/
  sys : Bool
  /-- the registers of its ranges -/
  regs : List GReg
  /-- the ranges that it accesses: in the bench or not, address and length (R175, R208) -/
  ranges : List (Bool × Nat × Nat)
  hnd : Nat
  state : OpState
  /-- a COLL: the chunk that its egress has built (R286), and that it has reached the reducer -/
  egress : Option Chunk
  sent : Bool
  /-- the page walk that it waits for, and what a walk for it has found wrong: page and failure (R188, R189) -/
  walk : Option Nat
  xfail : Option (Nat × XlateFail)
  /-- NMC: what its own writes have replaced, by PA, and the offset of a difference found (R223) -/
  old : List (Nat × List Byte)
  diff : Option Nat
  /-- its peer has not answered: its next access there stops it (R345) -/
  peerDown : Bool
  deriving DecidableEq, Repr

/-- A chunk slot of the reducer (R292). -/
structure ChunkSlot where
  id : Nat
  asid : Nat
  coll : Nat
  step : Nat
  chunk : Nat
  np : Nat
  cross : Bool
  opr : CollOp
  fmc : Fin 4
  len : Nat
  /-- the operations whose inputs have arrived, in their order, each with its chunk -/
  inputs : List (Nat × Chunk)
  /-- the result so far, once NP inputs have been reduced -/
  acc : Option Chunk
  deadline : Nat
  /-- modules whose partial results are awaited (R290), and those whose outcome is (R291) -/
  peers : List Nat
  votes : List Nat
  /-- the first failed check: kind, hop and the module of the hop (R294) -/
  failed : Option (Nat × Nat × Nat)
  /-- every destination on this module has verified its copy (R291) -/
  verified : Bool
  deriving DecidableEq, Repr

/-- The identity of a chunk (R290). -/
structure ChunkId where
  asid : Nat
  coll : Nat
  step : Nat
  chunk : Nat
  deriving DecidableEq, Repr

/-- What a peer has said of a chunk whose inputs have not gathered here (R290). -/
structure ChunkMail where
  chunk : ChunkId
  port : Fin 8
  modnum : Nat
  note : PeerNote
  out : Option (List Byte)
  deriving DecidableEq, Repr

/-! ### The scheduler -/

/-- A context (R18 to R20, R41) with its CSRs (R184, R295, R321, R322, R58, R227). -/
structure Ctx where
  asid : Nat
  live : Bool
  domain : Nat
  ptroot : Nat
  tdtbase : Nat
  tdtlen : Nat
  ltbase : Nat
  ltlen : Nat
  ringbase : Nat
  fqbase : Nat
  pendmax : Nat
  depbase : Nat
  depcnt : Nat
  deedwait : Nat
  collwait : Nat
  pairwait : Nat
  rollmax : Nat
  thentry : Word
  thseg : Nat
  fqhead : Word
  fqtail : Word
  fqlost : Nat
  borref : Nat
  borque : Nat
  deperr : Nat
  ckcount : Nat
  cfcount : Nat
  cseq : Nat
  peers : List (Nat × BitVec 16)
  /-- overflow-ring entries written and not drained -/
  ring : Nat
  /-- CTXKILL: SEQ, CPL, CPLPA and CUT (R330) -/
  kill : Option (Word × Bool × Nat × Nat)
  deriving DecidableEq, Repr

/-- The argument block's borrow of a grid (R183). -/
inductive ArgState where
  | none | asked (tag : Nat) | held (deed : Nat) (family : Nat) | refused (sub : Nat)
  deriving DecidableEq, Repr

/-- A grid (R40, R329). -/
structure Grid where
  id : Nat
  asid : Nat
  seq : Word
  cpl : Bool
  cplva : Nat
  host : Bool
  parent : Option (Nat × Nat)
  argva : Nat
  arglen : Nat
  args : ArgState
  bands : Nat
  retired : Nat
  killed : Nat
  complete : Bool
  deriving DecidableEq, Repr

/-- Where a device launch came from: global core, troop slot, lane and PC (R47). -/
structure Source where
  core : Nat
  slot : Nat
  lane : Nat
  pc : Pc
  deriving DecidableEq, Repr

/-- What is to be checked and placed (R46, R47, R49). -/
inductive LaunchWhat where
  | grid (pkt : BitVec 1024) (va : Nat)
  | task (idx : Nat) (args : List Word) (die : Option Nat)
  deriving DecidableEq, Repr

/-- A device launch whose check is still to come; `id` is its child number. `counter` is true for a task that a
dependence counter fired. -/
structure Launch where
  id : Nat
  asid : Nat
  what : LaunchWhat
  parent : Nat
  depth : Nat
  prio : Nat
  gridseq : Word
  src : Source
  counter : Bool
  deriving DecidableEq, Repr

/-- An armed dependence counter (R50), by module counter. -/
structure DepCounter where
  idx : Nat
  count : Int
  task : Nat
  args : List Word
  setter : Nat
  child : Nat
  prio : Nat
  deriving DecidableEq, Repr

/-- A continuation packet in a slice queue or ring (R273, R274). -/
structure Packet where
  home : Nat
  slice : Nat
  asid : Nat
  task : Nat
  old : Word
  va : Nat
  tag : Word
  band : Nat
  child : Nat
  depth : Nat
  prio : Nat
  gridseq : Word
  die : Option Nat
  src : Source
  deriving DecidableEq, Repr

/-- A sleeper of a waited word (R270). -/
structure Sleeper where
  id : Nat
  tid : Tid
  home : Nat
  slice : Nat
  pa : Nat
  d : VReg
  deadline : Option Nat
  deriving DecidableEq, Repr

/-- A launch queue (R36, R38). -/
structure Queue where
  qbase : Nat
  qsize : Nat
  qctx : Nat
  qpriv : Bool
  qhead : Word
  idle : Bool
  kickAhead : Bool
  refused : Bool
  qerr : Word
  qrefcnt : Nat
  qen : Bool
  kick : Word
  running : Bool
  /-- a slot without its packet is being re-read, since this clock -/
  reread : Option Nat
  deriving DecidableEq, Repr

/-- The quad's turn (R54): when it ends, its length, and whether the decision of a turn boundary is still being made. -/
structure Quad where
  id : Nat
  ends : Nat
  turn : Nat
  passing : Bool
  /-- the bands that the decision has pre-empted, on this quad or, for a redundant pair, on another (R54) -/
  evicting : List Nat
  deriving DecidableEq, Repr

/-! ### Traps and containment -/

/-- An asynchronous trap not yet delivered (R298). -/
structure AsyncTrap where
  id : Nat
  tid : Tid
  cause : Nat
  info : Word
  addr : BitVec 57
  cf : List Word
  ck : List Word
  op : Option Nat
  deriving DecidableEq, Repr

/-- A line of an undo log (R315). -/
structure Undo where
  line : Nat
  site : Site
  home : HomeId
  old : BitVec 1024
  deriving DecidableEq, Repr

/-- A band's shadow (R314): the band and its stores at the barrier, and the undo log since. -/
structure Shadow where
  band : Band
  stores : Saved
  undo : List Undo
  die : Nat
  /-- the trap slots of its events, and the fresh number at the point: what is numbered from here on came after it -/
  slots : List TrapSlot
  point : Nat
  deriving DecidableEq, Repr

/-! ### The device -/

/-- What an answer says: a value read, bytes read, done, or refused. -/
inductive Reply where
  | value (v : BitVec 64)
  | bytes (b : List Byte)
  | done
  | refused
  deriving DecidableEq, Repr

/-- What leaves the module: the answer to a management command, with its sequence (R340); the bytes of an RDMA READ; the answer
to a peer's request (R344); an ownership message to another module (R177, R343); a collective's word to one (R290, R291). -/
inductive Answer where
  | mgmt (seq : BitVec 32) (r : Reply)
  | rdma (b : List Byte)
  | peer (modnum : Nat) (r : Reply)
  | deed (modnum : Nat) (m : MsgBody)
  | coll (modnum asid : Nat) (note : PeerNote)
  deriving DecidableEq, Repr

/-- A latch of the snapshot registers (R350, R356): words by offset. -/
structure Snap where
  seq : Nat
  miss : Nat
  frozen : Bool
  /-- the clock of the last latch -/
  at_ : Nat
  words : List (Nat × Word)
  deriving DecidableEq, Repr

/-- A link (R356): die links 0 to 3, peer ports 16 to 23, the host port 32. -/
structure Link where
  id : Nat
  up : Bool
  replays : Nat
  deriving DecidableEq, Repr

/-- An INVAL in progress (R190, R357). -/
structure Inval where
  id : Nat
  mode : Nat
  asid : Nat
  base : Nat
  len : Nat
  /-- the sequence of its command -/
  seq : BitVec 32
  /-- accesses translated before it that are not yet performed -/
  flights : List Nat
  deriving DecidableEq, Repr

/-- The module's own registers (R341 to R353). -/
structure Device where
  devstat : Word
  modnum : Nat
  saveBase : Nat
  saveLen : Nat
  pcap : Nat
  pwrw : Nat
  turn : Nat
  snapctl : BitVec 3
  peerwait : Nat
  invBase : Nat
  invLen : Nat
  meas : List (BitVec 256)
  links : List Link
  windows : List Config.Window
  snap : Snap
  halted : Bool
  deriving DecidableEq, Repr

/-- What moves next: an instruction or module step, a command of the host, the issue of a bundle, or the passing of clocks (log 1). -/
inductive Move where
  | event (i : Instr)
  /-- a management command, on a queue pair and under a sequence (R340) -/
  | command (c : Cmd) (i : Instr)
  | issue (bundle : Nat)
  | tick (n : Nat)
  deriving DecidableEq, Repr

/-- A CSET that has issued in the clock and takes effect at its end, after the signatures of the clock (R246): its threads
with the mask as it stood before the clock, its PC and its register. -/
structure CsetNote where
  tids : List (Tid × BitVec 64)
  pc : Pc
  npc : Pc
  c : CReg
  deriving DecidableEq, Repr

/-- A BARA at its bank: its variant and byte count (R264, R265). -/
structure Arrival where
  kind : BaraKind
  bytes : Nat
  deriving DecidableEq, Repr

/-- An arrival of the clock at a phase object: the object's core and local offset (R265). -/
structure ArriveNote where
  tid : Tid
  core : Nat
  off : Nat
  what : Arrival
  deriving DecidableEq, Repr

/-- What has issued in the present clock and is put together at its end. -/
structure ClockLog where
  /-- the masks of troops of which one has changed, as they stood before the clock (R231) -/
  masks : List ((Nat × Nat) × List (Nat × BitVec 64))
  csets : List CsetNote
  /-- bands of which threads have exited: the rounds that this completes issue at the end (R233, R239) -/
  exits : List Nat
  arrivals : List ArriveNote
  /-- writes of DECAY, by band, for the rounds of later clocks (R246) -/
  decays : List (Nat × Word)
  deriving DecidableEq, Repr

/-- A clock in which nothing has issued. -/
def ClockLog.none : ClockLog := ⟨[], [], [], [], []⟩

/-- The module. -/
structure State where
  /-- what moves next, oldest first; when it is empty the step's own order applies (log 1) -/
  agenda : List Move
  clock : Nat
  /-- the next unused number for bundles, operations, messages and events -/
  fresh : Nat
  /-- home memory by physical address; an address not listed reads 0 (log 2) -/
  mem : List Host.Cell
  /-- the peers' windows, by the PA of R344 (log 21) -/
  peerMem : List Host.Cell
  /-- poisoned lines at their homes (R202) -/
  poison : List Nat
  /-- what stores that no RTN has returned yet have overwritten at their homes, by byte: the device reads these (R21) -/
  unreturned : List (Nat × Byte)
  /-- the L1 lines kept for LDs of a clause (R334) -/
  pins : List Pin
  ctxs : List Ctx
  grids : List Grid
  bands : List Band
  launches : List Launch
  /-- children that count (R44): child number and parent band -/
  children : List (Nat × Nat)
  deps : List DepCounter
  packets : List Packet
  rings : List Packet
  sliceSeq : List (Nat × Nat)
  sleepers : List Sleeper
  queues : List Queue
  quads : List Quad
  cores : List CoreSt
  dies : List DieSt
  slots : List TrapSlot
  bundles : List Bundle
  cur : Nat
  group : Option GroupSnap
  /-- threads that had to wait within a chain group, with the PC at which they go on with it (R98) -/
  snaps : List (Tid × Pc × GroupSnap)
  /-- what has issued in this clock -/
  now : ClockLog
  pending : List Pending
  holds : List FlagHold
  flights : List Flight
  walks : List Walk
  homes : List HomeSt
  msgs : List Msg
  borrows : List Borrow
  families : List Family
  returns : List Return
  ops : List EngOp
  chunks : List ChunkSlot
  /-- what peers have said of chunks that have not gathered here, and of which chunks what a module still says is discarded
  (R290, R345) -/
  mail : List ChunkMail
  stale : List (ChunkId × Nat)
  asyncs : List AsyncTrap
  pairActs : List PairAct
  shadows : List Shadow
  invals : List Inval
  /-- requests to peers with no answer yet: number, stage, and the clock of the request (R345) -/
  peerReqs : List (Nat × Nat × Nat)
  dev : Device
  /-- the queue pair and the sequence of the management command at the host port (R340) -/
  cmd : Cmd
  outbox : List Answer
  deriving DecidableEq, Repr

/-- Why the machine can stop with a fault. -/
inductive Fault where
  /-- no meaning raises it at present: every fault the spec describes is a trap with a next state (safe) -/
  | none
  deriving DecidableEq, Repr

/-- Why the machine can refuse an instruction. -/
inductive Refusal where
  /-- an instruction whose meaning is not written yet (safe: nothing follows) -/
  | notModelled (mnemonic : String)
  deriving DecidableEq, Repr

/-! ### Reset -/

/-- A launch queue at reset (R36). -/
def Queue.reset : Queue := ⟨0, 4, 0, false, 0, false, false, false, 0, 0, false, 0, false, none⟩

/-- A core at reset (R247, R322): nothing cached, MXCTL 1, MGCAP 512, MGSTEP 128. -/
def CoreSt.reset (id : Nat) : CoreSt :=
  ⟨id, [], [], [], [], [], [], [], [], [], [], [], [], [], 0, [], true, 512, 128, 512, 128, 512, 128, 0, 0, 0, 0, [0, 0],
    [0, 0, 0, 0, 0, 0], 0, 0⟩

/-- The four trap slots of a core, free (R321). -/
def TrapSlot.resetOf (core : Nat) : List TrapSlot :=
  (List.range Config.trapSlots).map fun i => ⟨core, i, none, [], []⟩

/-- The device registers at reset (R353): PCAP 3600, TURN 200000, SNAPCTL 7, PEERWAIT 1000, DEVSTAT 0. -/
def Device.reset : Device :=
  { devstat := 0, modnum := 0, saveBase := 0, saveLen := 0, pcap := 3600, pwrw := 0, turn := 200000, snapctl := 7,
    peerwait := 1000, invBase := 0, invLen := 0, meas := List.replicate 4 0,
    links := [0, 1, 2, 3, 16, 17, 18, 19, 20, 21, 22, 23, 32].map fun i => ⟨i, false, 0⟩,
    windows := [], snap := ⟨0, 0, false, 0, []⟩, halted := false }

/-- The machine right after power-on, before any bring-up stage has completed (R347): DEVSTAT 0, no context, no work,
memory with nothing listed. A register without a reset value in the spec holds 0 (log 7). -/
def State.reset : State :=
  { agenda := [], clock := 0, fresh := 1, mem := [], peerMem := [], poison := [], unreturned := [], pins := [], ctxs := [], grids := [],
    bands := [], launches := [], children := [], deps := [], packets := [], rings := [], sliceSeq := [],
    sleepers := [], queues := List.replicate 64 Queue.reset,
    quads := (List.range Config.quads).map fun i => ⟨i, 200000, 200000, false, []⟩,
    cores := (List.range Config.cores).map CoreSt.reset,
    dies := (List.range 4).map fun i => ⟨i, [], [], 0⟩,
    slots := ((List.range Config.cores).map TrapSlot.resetOf).flatten,
    bundles := [], cur := 0, group := none, snaps := [], now := ClockLog.none, pending := [], holds := [], flights := [], walks := [],
    homes := (List.range 5).map fun i => ⟨i, [], [], [], []⟩,
    msgs := [], borrows := [], families := [], returns := [], ops := [], chunks := [], mail := [], stale := [], asyncs := [],
    pairActs := [], shadows := [], invals := [], peerReqs := [], dev := Device.reset, cmd := ⟨1, 0⟩, outbox := [] }

end Sys2Proof.Machine
end

