-- ==== Sys2Proof/Machine/Table.lean ====
section
/-! DEFINITION. Sparse tables in canonical form (memory, register lanes, bench, accumulator), byte order (spec/00 R5),
and the look-up and update of every object of the state by its number. -/

namespace Sys2Proof.Machine

/-! ### Sparse tables -/

/-- The value at a key; `d` where none is listed. -/
def look {α : Type} (d : α) (k : Nat) : List (Nat × α) → α
  | [] => d
  | (k', v) :: r => if k' = k then v else look d k r

/-- Insertion by a measure, after equals. -/
def insertBy {α : Type} (f : α → Nat) (x : α) : List α → List α
  | [] => [x]
  | y :: r => if f x < f y then x :: y :: r else y :: insertBy f x r

/-- Writes a value: the key's entry is replaced, the keys stay rising, and no entry equal to `d` is listed. -/
def put {α : Type} [DecidableEq α] (d : α) (k : Nat) (v : α) (l : List (Nat × α)) : List (Nat × α) :=
  let rest := l.filter fun e => e.1 != k
  if v = d then rest else insertBy Prod.fst (k, v) rest

/-- Every key of the table lies above `k`. -/
def above {α : Type} (k : Nat) : List (Nat × α) → Bool
  | [] => true
  | (k', _) :: _ => k < k'

/-- The canonical form: keys strictly rising, no entry equal to what an unlisted key reads as. -/
def tableWf {α : Type} [DecidableEq α] (d : α) : List (Nat × α) → Bool
  | [] => true
  | (k, v) :: r => v != d && above k r && tableWf d r

/-- The bytes at n addresses from a. -/
def readBytes (m : List (Nat × Byte)) (a : Nat) : Nat → List Byte
  | 0 => []
  | n + 1 => look 0 a m :: readBytes m (a + 1) n

/-- Writes bytes at rising addresses from a. -/
def writeBytes (m : List (Nat × Byte)) (a : Nat) : List Byte → List (Nat × Byte)
  | [] => m
  | b :: r => writeBytes (put 0 a b m) (a + 1) r

/-- Bytes as a number, the lowest address least significant (R5). -/
def leNat : List Byte → Nat
  | [] => 0
  | b :: r => b.toNat + 256 * leNat r

/-- The low n bytes of a number, least significant first (R5). -/
def leBytes : Nat → Nat → List Byte
  | 0, _ => []
  | n + 1, x => BitVec.ofNat 8 x :: leBytes n (x / 256)

/-- Home memory's canonical form. -/
abbrev Memory.wf (m : List Host.Cell) : Bool := tableWf (0 : Byte) m

/-! ### Lists of objects -/

/-- The list with `f` applied to its i-th element. -/
def modAt {α : Type} : List α → Nat → (α → α) → List α
  | [], _, _ => []
  | x :: r, 0, f => f x :: r
  | x :: r, i + 1, f => x :: modAt r i f

/-- The list with `f` applied to the elements that pass the test. -/
def modIf {α : Type} (p : α → Bool) (f : α → α) (l : List α) : List α := l.map fun x => if p x then f x else x

/-- The least element under a measure, the first of equals. -/
def leastBy {α : Type} (f : α → Nat) : List α → Option α
  | [] => none
  | x :: r =>
    match leastBy f r with
    | none => some x
    | some y => if f x ≤ f y then some x else some y

/-- The list in increasing order of a measure, equals in their order. -/
def sortBy {α : Type} (f : α → Nat) (l : List α) : List α := l.reverse.foldl (fun acc x => insertBefore acc x) []
where
  insertBefore (acc : List α) (x : α) : List α :=
    match acc with
    | [] => [x]
    | y :: r => if f x ≤ f y then x :: y :: r else y :: insertBefore r x

/-- 32-bit saturation of a count. -/
def satInc (n : Nat) : Nat := if n < 0xFFFFFFFF then n + 1 else n

/-- A bit of a 64-bit mask. -/
def bit64 (m : BitVec 64) (l : Nat) : Bool := m.getLsbD l

/-- A 64-bit mask with a bit set or cleared. -/
def setBit64 (m : BitVec 64) (l : Nat) (b : Bool) : BitVec 64 :=
  let k : BitVec 64 := BitVec.ofNat 64 (2 ^ l)
  if b then m ||| k else m &&& ~~~k

/-! ### Objects by number -/

/-- A fresh number. -/
def State.next (s : State) : State := { s with fresh := s.fresh + 1 }

/-- A band by number. -/
def State.band? (s : State) (b : Nat) : Option Band := s.bands.find? (·.id == b)

/-- The state with a band changed. -/
def State.modBand (s : State) (b : Nat) (f : Band → Band) : State := { s with bands := modIf (·.id == b) f s.bands }

/-- A troop of a band. -/
def State.troop? (s : State) (b t : Nat) : Option Troop := (s.band? b).bind fun x => x.troops[t]?

/-- The band with a troop changed. -/
def Band.modTroop (x : Band) (t : Nat) (f : Troop → Troop) : Band := { x with troops := modAt x.troops t f }

/-- The state with a troop changed. -/
def State.modTroop (s : State) (b t : Nat) (f : Troop → Troop) : State := s.modBand b fun x => x.modTroop t f

/-- A thread by name. -/
def State.thread? (s : State) (t : Tid) : Option Thread := (s.troop? t.band t.troop).bind fun x => x.threads[t.lane]?

/-- The troop with a thread changed. -/
def Troop.modThread (x : Troop) (l : Nat) (f : Thread → Thread) : Troop := { x with threads := modAt x.threads l f }

/-- The state with a thread changed. -/
def State.modThread (s : State) (t : Tid) (f : Thread → Thread) : State :=
  s.modTroop t.band t.troop fun x => x.modThread t.lane f

/-- A context by ASID. -/
def State.ctx? (s : State) (a : Nat) : Option Ctx := s.ctxs.find? (·.asid == a)

/-- The state with a context changed. -/
def State.modCtx (s : State) (a : Nat) (f : Ctx → Ctx) : State := { s with ctxs := modIf (·.asid == a) f s.ctxs }

/-- A core by its global id. -/
def State.core? (s : State) (c : Nat) : Option CoreSt := s.cores.find? (·.id == c)

/-- The state with a core changed. -/
def State.modCore (s : State) (c : Nat) (f : CoreSt → CoreSt) : State := { s with cores := modIf (·.id == c) f s.cores }

/-- A C-die. -/
def State.die? (s : State) (d : Nat) : Option DieSt := s.dies.find? (·.id == d)

/-- The state with a C-die changed. -/
def State.modDie (s : State) (d : Nat) (f : DieSt → DieSt) : State := { s with dies := modIf (·.id == d) f s.dies }

/-- A deed home; that of a peer module is empty before its first request. -/
def State.home? (s : State) (h : Nat) : Option HomeSt :=
  (s.homes.find? (·.id == h)).or (if 5 ≤ h then some ⟨h, [], [], [], []⟩ else none)

/-- The state with a deed home changed. -/
def State.modHome (s : State) (h : Nat) (f : HomeSt → HomeSt) : State :=
  { s with homes :=
      if 5 ≤ h && !s.homes.any (·.id == h) then s.homes ++ [f ⟨h, [], [], [], []⟩] else modIf (·.id == h) f s.homes }

/-- A grid. -/
def State.grid? (s : State) (g : Nat) : Option Grid := s.grids.find? (·.id == g)

/-- The state with a grid changed. -/
def State.modGrid (s : State) (g : Nat) (f : Grid → Grid) : State := { s with grids := modIf (·.id == g) f s.grids }

/-- An engine operation. -/
def State.op? (s : State) (o : Nat) : Option EngOp := s.ops.find? (·.id == o)

/-- The state with an engine operation changed. -/
def State.modOp (s : State) (o : Nat) (f : EngOp → EngOp) : State := { s with ops := modIf (·.id == o) f s.ops }

/-- A launch queue. -/
def State.queue? (s : State) (q : Nat) : Option Queue := s.queues[q]?

/-- The state with a launch queue changed. -/
def State.modQueue (s : State) (q : Nat) (f : Queue → Queue) : State := { s with queues := modAt s.queues q f }

/-- The trap slot of a core. -/
def State.slot? (s : State) (c i : Nat) : Option TrapSlot := s.slots.find? fun x => x.core == c && x.idx == i

/-- The state with a trap slot changed. -/
def State.modSlot (s : State) (c i : Nat) (f : TrapSlot → TrapSlot) : State :=
  { s with slots := modIf (fun x => x.core == c && x.idx == i) f s.slots }

/-- The bundle that issues. -/
def State.bundle? (s : State) : Option Bundle := s.bundles.find? (·.id == s.cur)

/-- The state with a bundle changed. -/
def State.modBundle (s : State) (b : Nat) (f : Bundle → Bundle) : State :=
  { s with bundles := modIf (·.id == b) f s.bundles }

/-- The die of a core (R8). -/
def dieOf (core : Nat) : Nat := core / Config.coresPerDie

/-- The quad of a core (R8). -/
def quadOf (core : Nat) : Nat := core / 4

/-- The core on which a troop of a band lives (R59). -/
def Band.coreOf (b : Band) (troop : Nat) : Nat := (b.cores[troop % max 1 b.ncores]?).getD 0

/-- The core of a thread. -/
def State.coreOf (s : State) (t : Tid) : Nat := ((s.band? t.band).map fun b => b.coreOf t.troop).getD 0

/-- The context of a thread. -/
def State.asidOf (s : State) (t : Tid) : Nat := ((s.band? t.band).map (·.asid)).getD 0

/-- The context of a thread, by its record. -/
def State.ctxOf (s : State) (t : Tid) : Option Ctx := s.ctx? (s.asidOf t)

/-- The thread runs in handler mode: it counts as system software (R299). -/
def State.inHandler (s : State) (t : Tid) : Bool := ((s.thread? t).map (·.depth)).getD false

end Sys2Proof.Machine
end

