-- ==== Sys2Proof/Machine/Operands.lean ====
section
/-! DEFINITION. Register operands: names through the rename map, permutations, guards, last-read releases and
allocation (spec/04 R64 to R67, spec/05 R78 to R84, spec/16 R300). -/

namespace Sys2Proof.Machine

/-- A register of a group (R78): the n-th after its first. -/
def regAt (r : VReg) (n : Nat) : VReg := Fin.ofNat 64 (r.val + n)

/-- The registers of a group of n. -/
def regGroup (r : VReg) (n : Nat) : List VReg := (List.range n).map (regAt r)

/-- The state from which the members of a chain group read (R98). -/
def State.view (s : State) : State :=
  match s.group with
  | none => s
  | some g => { s with bands := g.bands, slots := g.slots }

/-- A name resolves to a trap slot's register: v48 to v63 of a handler-mode thread (R300). -/
def State.slotFor (s : State) (t : Tid) (r : VReg) : Option (Nat × Nat) :=
  if r.val < 48 then none
  else
    match s.troop? t.band t.troop with
    | none => none
    | some x =>
      match x.threads[t.lane]?, x.slot with
      | some th, some i => if th.depth then some (s.coreOf t, i) else none
      | _, _ => none

/-- The name of a troop, where it has a physical register. -/
def Troop.name? (x : Troop) (r : VReg) : Option VName := (x.names.find? fun e => e.1 == r.val).map Prod.snd

/-- A lane of a troop's name: 0 without a physical register (R64). -/
def State.troopLane (s : State) (b t lane : Nat) (r : VReg) : Word :=
  match (s.troop? b t).bind fun x => x.name? r with
  | none => 0
  | some n => look 0 lane n.vals

/-- The register `r` as thread `t` names it, in the lane given (R64, R82, R300). -/
def State.readLane (s : State) (t : Tid) (r : VReg) (lane : Nat) : Word :=
  match s.slotFor t r with
  | some (c, i) =>
    match s.slot? c i with
    | some sl => look 0 lane (look [] (r.val - 48) sl.regs)
    | none => 0
  | none => s.troopLane t.band t.troop lane r

/-- The register `r` of thread `t` (R64). -/
def State.readV (s : State) (t : Tid) (r : VReg) : Word := s.readLane t r t.lane

/-- The lane a permutation reads; none where the value read is 0 (R82). -/
def Perm.src (p : Perm) (l : Nat) : Option Nat :=
  match p with
  | .ident => some l
  | .rot n => some ((l + n.val) % 64)
  | .bcast n => some n.val
  | .bfly n => some (l ^^^ n.val)
  | .flip n => some (l ^^^ (2 ^ n.val - 1) % 64)
  | .up n => if l < n.val then none else some (l - n.val)

/-- A permuted read (R82). -/
def State.readPerm (s : State) (t : Tid) (p : Perm) (r : VReg) : Word :=
  match Perm.src p t.lane with
  | some l => s.readLane t r l
  | none => 0

/-- The permutation of source A. -/
def permAOf (m : Mods) : Perm := match m.xg with | some x => x.permA | none => .ident
/-- The permutation of source B. -/
def permBOf (m : Mods) : Perm := match m.xg with | some x => x.permB | none => .ident

/-- The XM fields; all 0 without an XM word (R83). -/
def xmOrPlain (m : Mods) : XM := m.xm.getD XM.plain

/-- Source A (R84, step 1). -/
def State.srcA (s : State) (m : Mods) (t : Tid) (r : VReg) : Word := s.readPerm t (permAOf m) r
/-- Source B. -/
def State.srcB (s : State) (m : Mods) (t : Tid) (r : VReg) : Word := s.readPerm t (permBOf m) r

/-- Source A as a register pair (R5). -/
def State.srcA2 (s : State) (m : Mods) (t : Tid) (r : VReg) : BitVec 64 :=
  s.srcA m t (regAt r 1) ++ s.srcA m t r
/-- Source B as a register pair. -/
def State.srcB2 (s : State) (m : Mods) (t : Tid) (r : VReg) : BitVec 64 :=
  s.srcB m t (regAt r 1) ++ s.srcB m t r

/-- The addend of three-source arithmetic: vC when CV = 1, else vD (R83). -/
def addendReg (m : Mods) (d : VReg) : VReg := (xmOrPlain m).creg.getD d

/-- A predicate of a thread. -/
def State.readP (s : State) (t : Tid) (r : PReg) : Bool :=
  match s.thread? t with
  | some th => th.preds.getLsbD r.val
  | none => false

/-- A mask register of a troop (R107). -/
def State.readM (s : State) (b t : Nat) (r : MReg) : BitVec 64 :=
  match s.troop? b t with
  | some x => look 0 r.val x.masks
  | none => 0

/-- The guard holds (R80, R90). -/
def State.guardTrue (s : State) (m : Mods) (t : Tid) : Bool :=
  match m.xg with
  | none => true
  | some x =>
    match x.guard with
    | none => true
    | some p => s.readP t p != x.sense

/-! ### Writes, releases and allocation -/

/-- A fresh physical register: every lane 0 (R64, R68). -/
def VName.fresh : VName := ⟨[], 0, 0, 0⟩

/-- A name with its entry replaced; none frees its physical register. The names stay in rising order. -/
def Troop.setName (x : Troop) (r : VReg) (n : Option VName) : Troop :=
  let rest := x.names.filter fun e => e.1 != r.val
  match n with
  | none => { x with names := rest }
  | some v => { x with names := insertBy (fun e : Nat × VName => e.1) (r.val, v) rest }

/-- WriteName of R64: the name gets a register if it has none. Once every lane has been overwritten, poison is gone
(R319). -/
def Troop.writeName (x : Troop) (r : VReg) (lane : Nat) (v : Word) : Troop :=
  let n := (x.name? r).getD VName.fresh
  x.setName r (some { n with
    vals := put 0 lane v n.vals, written := setBit64 n.written lane true, released := setBit64 n.released lane false,
    poison := setBit64 n.poison lane false })

/-- FreeIfDone of R64 for one name. -/
def Troop.freeIfDone (x : Troop) (r : VReg) : Troop :=
  match x.name? r with
  | none => x
  | some n => if n.written != 0 && n.released == n.written then x.setName r none else x

/-- A last-read of one name by one lane (R64). -/
def Troop.releaseName (x : Troop) (r : VReg) (lane : Nat) : Troop :=
  match x.name? r with
  | none => x
  | some n =>
    if bit64 n.written lane then
      (x.setName r (some { n with released := setBit64 n.released lane true })).freeIfDone r
    else x

/-- The last-read releases of one thread (R64, Reach). Handler-mode names v48 to v63 are the slot's and hold none. -/
def State.release (s : State) (t : Tid) (rs : List VReg) : State :=
  rs.foldl (fun s r =>
    if (s.slotFor t r).isSome then s else s.modTroop t.band t.troop fun x => x.releaseName r t.lane) s

/-- Exit of R64: every name the lane has written is released. -/
def Troop.releaseAll (x : Troop) (lane : Nat) : Troop :=
  x.names.foldl (fun x e => x.releaseName (Fin.ofNat 64 e.1) lane) x

/-- A write of one register (R64, R300). -/
def State.writeV (s : State) (t : Tid) (r : VReg) (v : Word) : State :=
  match s.slotFor t r with
  | some (c, i) =>
    let k := r.val - 48
    s.modSlot c i fun sl => { sl with
      regs := put [] k (put 0 t.lane v (look [] k sl.regs)) sl.regs,
      poison := put 0 k (setBit64 (look 0 k sl.poison) t.lane false) sl.poison }
  | none => s.modTroop t.band t.troop fun x => x.writeName r t.lane v

/-- A write of one predicate. -/
def State.writeP (s : State) (t : Tid) (r : PReg) (b : Bool) : State :=
  s.modThread t fun th =>
    let k : BitVec 24 := BitVec.ofNat 24 (2 ^ r.val)
    { th with preds := if b then th.preds ||| k else th.preds &&& ~~~k }

/-- The writes of one thread, in order (R98: the later remains). -/
def State.writeRegs (s : State) (t : Tid) (ws : List RegWrite) : State :=
  ws.foldl (fun s w =>
    match w with
    | .v r x => s.writeV t r x
    | .p r b => s.writeP t r b) s

/-- The two registers of a pair (R5). -/
def pairWrites (d : VReg) (x : BitVec 64) : List RegWrite :=
  [.v d (x.truncate 32), .v (regAt d 1) ((x >>> 32).truncate 32)]

/-- Live physical registers of a troop. -/
def Troop.live (x : Troop) : Nat := x.names.length

/-- Destination registers of a load (R191). -/
def ldRegs (sz : LdSize) (d : VReg) : List VReg :=
  match sz with
  | .d => regGroup d 2
  | .q => regGroup d 4
  | _ => [d]

/-- The vector registers a list of writes names. -/
def writtenRegs (ws : List RegWrite) : List VReg :=
  ws.filterMap fun w => match w with | .v r _ => some r | .p _ _ => none

/-- The registers that a long-latency operation will write. -/
def Pend.dests : Pend → List VReg
  | .sfu _ _ d _ => [d]
  | .shfl _ d _ _ => [d]
  | .regs ws => writtenRegs ws
  | .load _ _ sz _ d => ldRegs sz d
  | .atom _ _ _ _ w _ _ d _ => if w then [d, regAt d 1] else [d]
  | .atomc _ _ _ _ _ _ _ d _ => [d]
  | .atomw _ _ _ d _ => [d]

/-- The registers that a wait will write when it ends (R110). -/
def Wait.dests : Wait → List VReg
  | .collective _ code d _ _ => if 3 ≤ code then regGroup (Fin.ofNat 64 d) 2 else []
  | _ => []

/-- The names whose registers were taken at issue and are still to be written (R66, log 9): where such a name has been freed
meanwhile, its register stays counted. -/
def State.owed (s : State) (b t : Nat) : List (Tid × VReg) :=
  let mine (u : Tid) : Bool := u.band == b && u.troop == t
  let tag (u : Tid) (rs : List VReg) : List (Tid × VReg) := if mine u then rs.map fun r => (u, r) else []
  (s.pending.map fun p => tag p.tid p.what.dests).flatten ++
    (s.cores.map fun c => (c.mx.map fun e => match e.work with
      | .read u _ _ _ d _ nr _ => tag u (regGroup d nr)
      | _ => []).flatten).flatten ++
    (s.sleepers.map fun x => tag x.tid (regGroup x.d 2)).flatten ++
    ((((s.troop? b t).map (·.threads)).getD []).zipIdx.map fun e => match e.1.status with
      | .waiting w => tag ⟨b, t, e.2⟩ w.dests
      | _ => []).flatten

/-- The names of a troop that count against REGS and the pool (R66): those with a physical register, and those owed one. -/
def State.countedNames (s : State) (b t : Nat) (x : Troop) : List Nat :=
  (x.names.map (·.1) ++ ((s.owed b t).filter fun e => (s.slotFor e.1 e.2).isNone).map fun e => e.2.val).eraseDups

/-- Registers of a troop that count (R66). -/
def State.counted (s : State) (b t : Nat) (x : Troop) : Nat := (s.countedNames b t x).length

/-- ADM of R61: REGS, or TYP under overcommit admission; a TYP of 0 means REGS (R22). -/
def Footprint.adm (f : Footprint) : Nat := if f.ovc && f.typ != 0 then f.typ else f.regs

/-- The core's unreserved pool (R66): what admission and the registers beyond it leave. -/
def State.pool (s : State) (core : Nat) : Int :=
  let used (b : Band) : Nat :=
    (((List.range b.troops.length).zip b.troops).map fun e =>
      if b.coreOf e.1 == core && !e.2.retired then max b.fp.adm (s.counted b.id e.1 e.2) else 0).sum
  (Config.physRegs : Int) - (((s.bands.filter fun b => b.state == .resident).map used).sum : Nat)

/-- What an allocation of `n` more registers meets (R66). -/
inductive Alloc where
  | ok | exhausted | stall
  deriving DecidableEq, Repr

/-- Whether a troop may hold `n` more registers (R66). -/
def State.alloc (s : State) (b t n : Nat) : Alloc :=
  match s.band? b with
  | none => .ok
  | some x =>
    match x.troops[t]? with
    | none => .ok
    | some tr =>
      if n = 0 then .ok
      else if x.fp.regs < s.counted b t tr + n then .exhausted
      else
        let extra := max x.fp.adm (s.counted b t tr + n) - max x.fp.adm (s.counted b t tr)
        if extra ≠ 0 ∧ s.pool (x.coreOf t) < extra then .stall else .ok

/-- The names among `rs` that a thread would have to allocate: neither with a register nor owed one. -/
def State.needs (s : State) (t : Tid) (rs : List VReg) : List VReg :=
  rs.filter fun r =>
    (s.slotFor t r).isNone &&
      (match s.troop? t.band t.troop with
       | some x => !(s.countedNames t.band t.troop x).contains r.val
       | none => false)

/-- A register takes its physical register before its value is known: a long-latency result (R66, log 9). -/
def State.reserve (s : State) (t : Tid) (rs : List VReg) : State :=
  (rs.filter fun r => (s.slotFor t r).isNone).foldl (fun s r => s.modTroop t.band t.troop fun x =>
    if (x.name? r).isSome then x else x.setName r (some VName.fresh)) s

/-- A name that a thread reads is poisoned (R319). -/
def State.poisonedReg (s : State) (t : Tid) (r : VReg) : Bool :=
  match s.slotFor t r with
  | some (c, i) => ((s.slot? c i).map fun sl => look 0 (r.val - 48) sl.poison != 0).getD false
  | none => (((s.troop? t.band t.troop).bind fun x => x.name? r).map (·.poison != 0)).getD false

end Sys2Proof.Machine
end

