-- ==== Sys2Proof/Machine/Float.lean ====
section
/-! DEFINITION. Number formats (spec/07 R116 to R131): exact values, RoundToFormat, RoundToScale, ToInt, the block sums,
and the functions of the SFU. -/

namespace Sys2Proof

/-! ### Formats -/

/-- A format of floating-point values with a sign and a mantissa (R117). -/
def Fmt.isFloat : Fmt → Bool
  | .f32 | .bf16 | .f16 | .e4m3 | .e5m2 | .e3m2 | .e2m3 | .e2m1 => true
  | _ => false

/-- An unsigned integer format (R119). -/
def Fmt.isN : Fmt → Bool
  | .n32 | .n16 | .n8 | .n4 => true
  | _ => false

/-- A signed integer format (R119). -/
def Fmt.isI : Fmt → Bool
  | .i32 | .i16 | .i8 | .i4 | .i64 => true
  | _ => false

/-- Mantissa bits m (R117). -/
def Fmt.mbits : Fmt → Nat
  | .f32 => 23 | .bf16 => 7 | .f16 => 10 | .e4m3 => 3 | .e5m2 => 2 | .e3m2 => 2 | .e2m3 => 3 | .e2m1 => 1 | _ => 0

/-- Exponent bias (R117). -/
def Fmt.bias : Fmt → Nat
  | .f32 | .bf16 | .e8m0 => 127 | .f16 | .e5m2 => 15 | .e4m3 => 7 | .e3m2 => 3 | .e2m3 | .e2m1 => 1 | _ => 0

/-- The magnitude code of the largest finite value (R117). -/
def Fmt.maxMag : Fmt → Nat
  | .f32 => 0x7F7FFFFF | .bf16 => 0x7F7F | .f16 => 0x7BFF | .e4m3 => 0x7E | .e5m2 => 0x7B | .e3m2 => 0x1F
  | .e2m3 => 0x1F | .e2m1 => 7 | _ => 0

/-- The magnitude code of infinity, where the format has one (R117). -/
def Fmt.infMag : Fmt → Option Nat
  | .f32 => some 0x7F800000 | .bf16 => some 0x7F80 | .f16 => some 0x7C00 | .e5m2 => some 0x7C | _ => none

/-- The canonical NaN; +0 in the formats that have none (R117, R121). -/
def Fmt.canonNaN : Fmt → Nat
  | .f32 => 0x7FC00000 | .bf16 => 0x7FC0 | .f16 => 0x7E00 | .e4m3 => 0x7F | .e5m2 => 0x7E | .e8m0 => 0xFF | _ => 0

/-! ### Exact values -/

/-- An exact value: (-1)^neg × m × 2^e, an infinity or NaN. A zero keeps its sign. -/
inductive Val where
  | nan
  | inf (neg : Bool)
  | fin (neg : Bool) (m : Nat) (e : Int)
  deriving DecidableEq, Repr

/-- An integer as a value. -/
def Val.ofInt (n : Int) : Val := .fin (n < 0) n.natAbs 0

/-- A two's complement reading of w bits. -/
def signedOf (w x : Nat) : Int := if x % 2 ^ w < 2 ^ (w - 1) then (x % 2 ^ w : Nat) else (x % 2 ^ w : Nat) - 2 ^ w

/-- Value of an encoding (R117, R119, R126). -/
def Fmt.value (f : Fmt) (x : Nat) : Val :=
  if f = .e8m0 then (if x % 256 = 255 then .nan else .fin false 1 ((x % 256 : Nat) - 127))
  else if f.isFloat then
    let w := f.width
    let neg := x / 2 ^ (w - 1) % 2 = 1
    let mag := x % 2 ^ (w - 1)
    if f.infMag = some mag then .inf neg
    else if f.maxMag < mag then .nan
    else
      let ex := mag / 2 ^ f.mbits
      let mn := mag % 2 ^ f.mbits
      if ex = 0 then .fin neg mn (1 - (f.bias : Int) - f.mbits)
      else .fin neg (2 ^ f.mbits + mn) ((ex : Int) - f.bias - f.mbits)
  else if f.isN then .ofInt ((x % 2 ^ f.width : Nat) : Int)
  else .ofInt (signedOf f.width x)

/-- The value with its sign inverted. -/
def Val.neg : Val → Val
  | .nan => .nan
  | .inf n => .inf (!n)
  | .fin n m e => .fin (!n) m e

/-- The value with its sign positive. -/
def Val.abs : Val → Val
  | .nan => .nan
  | .inf _ => .inf false
  | .fin _ m e => .fin false m e

/-- A value times 2^k; a zero keeps its sign (R135). -/
def Val.scale (k : Int) : Val → Val
  | .nan => .nan
  | .inf n => .inf n
  | .fin n m e => .fin n m (e + k)

/-- A finite value as an integer number of 2^e, for e at or below its exponent. -/
def signedAt (e : Int) (neg : Bool) (m : Nat) (e' : Int) : Int :=
  let x : Int := ((m * 2 ^ (e' - e).toNat : Nat) : Int)
  if neg then -x else x

/-- The exact sum (R122): an exact zero of opposite signs is +0, except under RD, where it is −0. -/
def Val.add (r : Rnd) : Val → Val → Val
  | .nan, _ => .nan
  | _, .nan => .nan
  | .inf a, .inf b => if a = b then .inf a else .nan
  | .inf a, .fin .. => .inf a
  | .fin .., .inf b => .inf b
  | .fin n m e, .fin n' m' e' =>
    if m = 0 && m' = 0 then .fin (if n = n' then n else r = .rd) 0 0
    else
      let lo := min e e'
      let s := signedAt lo n m e + signedAt lo n' m' e'
      if s = 0 then .fin (r = .rd) 0 0 else .fin (s < 0) s.natAbs lo

/-- The exact product; ∞ × 0 is NaN (R145). -/
def Val.mul : Val → Val → Val
  | .nan, _ => .nan
  | _, .nan => .nan
  | .inf a, .inf b => .inf (a != b)
  | .inf a, .fin n m _ => if m = 0 then .nan else .inf (a != n)
  | .fin n m _, .inf b => if m = 0 then .nan else .inf (n != b)
  | .fin n m e, .fin n' m' e' => .fin (n != n') (m * m') (e + e')

/-- The order of two values; none where one is NaN. −0 equals +0 (R146). -/
def Val.cmp : Val → Val → Option Ordering
  | .nan, _ => none
  | _, .nan => none
  | .inf a, .inf b => some (if a = b then .eq else if a then .lt else .gt)
  | .inf a, .fin .. => some (if a then .lt else .gt)
  | .fin .., .inf b => some (if b then .gt else .lt)
  | .fin n m e, .fin n' m' e' =>
    let lo := min e e'
    let x := signedAt lo n m e
    let y := signedAt lo n' m' e'
    some (if x < y then .lt else if x = y then .eq else .gt)

/-- The value is an exact zero. -/
def Val.isZero : Val → Bool
  | .fin _ 0 _ => true
  | _ => false

/-- The value is negative, a zero by its sign. -/
def Val.isNeg : Val → Bool
  | .nan => false
  | .inf n => n
  | .fin n _ _ => n

/-! ### Rounding -/

/-- m × 2^-d, d counting up from 0 bits, rounded to an integer magnitude by a mode (R123). -/
def roundShift (r : Rnd) (neg : Bool) (m d : Nat) : Nat :=
  let q := m / 2 ^ d
  let rem := m % 2 ^ d
  if rem = 0 then q
  else
    let up := match r with
      | .rne => 2 ^ d < 2 * rem || (2 * rem = 2 ^ d && q % 2 = 1)
      | .rz => false
      | .ru => !neg
      | .rd => neg
      | .rna => 2 ^ d ≤ 2 * rem
    if up then q + 1 else q

/-- m × 2^e rounded to an integer number of 2^q. -/
def roundTo (r : Rnd) (neg : Bool) (m : Nat) (e q : Int) : Nat :=
  if q ≤ e then m * 2 ^ (e - q).toNat else roundShift r neg m (q - e).toNat

/-- ⌊log2 (m × 2^e)⌋ of a non-zero value. -/
def log2Of (m : Nat) (e : Int) : Int := (Nat.log2 m : Int) + e

/-- The exponent of Ulp(x, f) (R127). -/
def Fmt.ulpExp (f : Fmt) (m : Nat) (e : Int) : Int :=
  (if m = 0 then 1 - (f.bias : Int) else max (log2Of m e) (1 - (f.bias : Int))) - f.mbits

/-- An encoding with its sign bit. -/
def Fmt.withSign (f : Fmt) (neg : Bool) (mag : Nat) : Nat := if neg then 2 ^ (f.width - 1) + mag else mag

/-- OverflowIEEE goes to infinity, rather than to the largest finite value (R124). -/
def overflowsToInf (r : Rnd) (neg : Bool) : Bool :=
  match r with
  | .rne | .rna => true
  | .rz => false
  | .ru => !neg
  | .rd => neg

/-- The overflow tail of RoundToFormat (R124): `xinf` where x itself is infinite. -/
def overflowTo (f : Fmt) (neg xinf : Bool) (r : Rnd) (sat : Bool) : Nat :=
  match f with
  | .e3m2 | .e2m3 | .e2m1 => f.withSign neg f.maxMag
  | _ =>
    if sat then f.withSign neg f.maxMag
    else if xinf || overflowsToInf r neg then
      match f.infMag with
      | some i => f.withSign neg i
      | none => f.withSign neg f.canonNaN
    else f.withSign neg f.maxMag

/-- RoundToScale (R126). -/
def roundToScale (x : Val) (r : Rnd) (sat : Bool) : Nat :=
  match x with
  | .nan => 0xFF
  | .inf n => if n then 0xFF else if sat then 0xFE else 0xFF
  | .fin n m e =>
    if m = 0 || n then 0xFF
    else
      let k := log2Of m e
      if k < -127 then 0
      else
        let code : Int := k + 127
        let pow := 2 ^ Nat.log2 m
        let up := m != pow && (match r with
          | .rz | .rd => false
          | .ru => true
          | .rna => 3 * pow ≤ 2 * m
          | .rne => 3 * pow < 2 * m || (2 * m = 3 * pow && code % 2 = 1))
        let y := if up then code + 1 else code
        if 254 < y then (if sat || r = .rz || r = .rd then 0xFE else 0xFF) else y.toNat

/-- RoundToFormat (R124), to a floating-point format. -/
def roundToFormat (x : Val) (f : Fmt) (r : Rnd) (sat : Bool) : Nat :=
  if f = .e8m0 then roundToScale x r sat
  else
    match x with
    | .nan => f.canonNaN
    | .inf n => overflowTo f n true r sat
    | .fin n m e =>
      if m = 0 then f.withSign n 0
      else
        let q := f.ulpExp m e
        let k := roundTo r n m e q
        let mag := k + (q + f.mbits + f.bias - 1).toNat * 2 ^ f.mbits
        if mag ≤ f.maxMag then f.withSign n mag else overflowTo f n false r sat

/-- The range of an integer format (R119). -/
def Fmt.range (f : Fmt) : Int × Int :=
  if f.isN then (0, 2 ^ f.width - 1) else (-(2 ^ (f.width - 1)), 2 ^ (f.width - 1) - 1)

/-- An integer held between bounds. -/
def clampInt (n lo hi : Int) : Int := if n < lo then lo else if hi < n then hi else n

/-- An integer in w bits (R136, Wrap). -/
def wrapInt (w : Nat) (n : Int) : Nat := (n % (2 ^ w : Int)).toNat

/-- ToInt of a floating value (R125): NaN gives 0, and the result is always clamped. -/
def toIntOf (x : Val) (f : Fmt) (r : Rnd) : Int :=
  let (lo, hi) := f.range
  match x with
  | .nan => 0
  | .inf n => if n then lo else hi
  | .fin n m e =>
    let k : Int := (roundTo r n m e 0 : Nat)
    clampInt (if n then -k else k) lo hi

/-- ToInt of an integer value (R125). -/
def intToInt (n : Int) (f : Fmt) (sat : Bool) : Int :=
  let (lo, hi) := f.range
  if sat then clampInt n lo hi else n

/-- An integer operand read exactly. -/
def Fmt.intValue (f : Fmt) (x : Nat) : Int := if f.isN then (x % 2 ^ f.width : Nat) else signedOf f.width x

/-- Convert of R151, to the encoding of the destination. -/
def convert (s d : Fmt) (r : Rnd) (sat : Bool) (x : Nat) : Nat :=
  if d.isFloat || d = .e8m0 then roundToFormat (s.value x) d r sat
  else if s.isFloat || s = .e8m0 then wrapInt d.width (toIntOf (s.value x) d r)
  else wrapInt d.width (intToInt (s.intValue x) d sat)

/-- ClampTo of R132 on an encoding of `f`. -/
def clampTo (f : Fmt) (c : Clamp) (y : Nat) : Nat :=
  let v := f.value y
  let one := roundToFormat (.fin false 1 0) f .rne false
  let low (lo : Val) (enc : Nat) : Nat :=
    if v = .nan then 0
    else if v.cmp lo = some .lt then enc
    else if v.cmp (.fin false 1 0) = some .gt then one
    else y
  match c with
  | .none => y
  | .unit => low (.fin false 0 0) 0
  | .sym => low (.fin true 1 0) (f.withSign true one)

/-- FloatResult of R135. -/
def floatResult (x : Val) (f : Fmt) (xm : XM) : Nat :=
  clampTo f xm.clamp (roundToFormat (x.scale xm.k.toInt) f xm.rnd xm.sat)

/-! ### Block sums -/

/-- The exact sum of the products of two lists of elements (R128). -/
def dotSum (as bs : List Val) : Val := (as.zip bs).foldl (fun s p => s.add .rne (p.1.mul p.2)) (.fin false 0 0)

/-- BlockDot of R128. -/
def blockDot (as bs : List Val) (sa sb : Nat) : Val :=
  if sa = 0xFF || sb = 0xFF then .nan
  else
    let s := dotSum as bs
    if s.isZero then .fin false 0 0 else s.scale ((sa : Int) - 127 + (sb - 127))

/-- DotRound of R129. -/
def dotRound (c : Word) (as bs : List Val) (r : Rnd) (sat : Bool) : Word :=
  BitVec.ofNat 32 (roundToFormat ((Fmt.f32.value c.toNat).add r (blockDot as bs 0x7F 0x7F)) .f32 r sat)

/-- One block added into an accumulator element (R128). -/
def accumulate (acc : Word) (s : Val) : Word :=
  BitVec.ofNat 32 (roundToFormat ((Fmt.f32.value acc.toNat).add .rne s) .f32 .rne false)

/-- Element i of width w of a number (R118). -/
def elem (w i x : Nat) : Nat := x / 2 ^ (w * i) % 2 ^ w

/-- The elements of a 32-bit register in a format. -/
def elemsOf (f : Fmt) (x : Word) : List Val :=
  (List.range (32 / f.width)).map fun i => f.value (elem f.width i x.toNat)

/-- A number from elements of width w, element 0 lowest. -/
def packElems (w : Nat) : List Nat → Nat
  | [] => 0
  | x :: r => x % 2 ^ w + 2 ^ w * packElems w r

/-- A function applied to each element of two registers (R134). -/
def mapElems (w : Nat) (f : Nat → Nat → Nat) (a b : Nat) (bits : Nat) : Nat :=
  packElems w ((List.range (bits / w)).map fun i => f (elem w i a) (elem w i b))

/-! ### Comparison, minimum, maximum -/

/-- minimumNumber and maximumNumber (R122): a single NaN yields the other operand; −0 orders below +0. -/
def pickNumber (mx : Bool) (a b : Val) : Val :=
  match a.cmp b with
  | none => if a = .nan then b else a
  | some .lt => if mx then b else a
  | some .gt => if mx then a else b
  | some .eq => if a.isZero && a.isNeg != b.isNeg then (if a.isNeg = mx then b else a) else a

/-- Compare of R146. -/
def fcompare (c : FCond) (a b : Val) : Bool :=
  match c, a.cmp b with
  | .unord, o => o.isNone
  | .ord, o => o.isSome
  | .ne, none => true
  | _, none => false
  | .eq, some o => o = .eq
  | .ne, some o => o ≠ .eq
  | .lt, some o => o = .lt
  | .le, some o => o ≠ .gt
  | .gt, some o => o = .gt
  | .ge, some o => o ≠ .lt

/-! ### Square root and the SFU -/

/-- The integer square root by bits, from bit `n - 1` down. -/
def isqrtFrom (x : Nat) : Nat → Nat → Nat
  | 0, acc => acc
  | n + 1, acc => isqrtFrom x n (if (acc + 2 ^ n) * (acc + 2 ^ n) ≤ x then acc + 2 ^ n else acc)

/-- √(m × 2^e) to 28 bits beyond its own with a sticky bit, from which any mode rounds correctly to F32 (R130). -/
def sqrtVal (m : Nat) (e : Int) : Val :=
  let m1 := if e % 2 = 0 then m else 2 * m
  let e1 := if e % 2 = 0 then e else e - 1
  let x := m1 * 2 ^ 56
  let s := isqrtFrom x 64 0
  .fin false (2 * s + (if s * s = x then 0 else 1)) (e1 / 2 - 28 - 1)

/-- FSQRT (R130, R131, R149). -/
def sqrtF32 (x : Word) (r : Rnd) : Nat :=
  match Fmt.f32.value x.toNat with
  | .nan => 0x7FC00000
  | .inf n => if n then 0x7FC00000 else 0x7F800000
  | .fin n m e =>
    if m = 0 then x.toNat else if n then 0x7FC00000 else roundToFormat (sqrtVal m e) .f32 r false

/-- Modify of R132 on an F32 word. -/
def modifyWord (absf negf : Bool) (x : Word) : Word :=
  let y := if absf then x &&& 0x7FFFFFFF else x
  if negf then y ^^^ 0x80000000 else y

/-- Modify of R132 on a value. -/
def Val.modify (v : Val) (absf negf : Bool) : Val :=
  let y := if absf then v.abs else v
  if negf then y.neg else y

/-- FRND (R147). -/
def frndWord (r : Rnd) (x : Word) : Word :=
  match Fmt.f32.value x.toNat with
  | .nan => 0x7FC00000
  | .inf _ => x
  | .fin n m e =>
    if m = 0 then x
    else
      let k := roundTo r n m e 0
      BitVec.ofNat 32 (roundToFormat (.fin n k 0) .f32 .rne false)

/-- FCLASS (R148). -/
def fclassWord (x : Word) : Word :=
  match Fmt.f32.value x.toNat with
  | .nan => 0x100
  | .inf n => if n then 1 else 0x80
  | .fin n m _ =>
    if m = 0 then (if n then 8 else 0x10)
    else if m < 2 ^ 23 then (if n then 4 else 0x20)
    else if n then 2 else 0x40

end Sys2Proof
end

