-- ==== Sys2Proof/Machine/Flags.lean ====
section
/-! DEFINITION. The completion flags f0 to f11 of R100 and R101: what sets them, what clears them. -/

namespace Sys2Proof.Machine

/-- A flag is held by some operation of the thread. -/
def flagHeld (hs : List FlagHold) (t : Tid) (f : Nat) : Bool := hs.any fun h => h.tid == t && h.flag == f

/-- The flags of a thread that operations hold (R101). -/
def flagsHeld (hs : List FlagHold) (t : Tid) : BitVec 12 :=
  (List.range 12).foldl (fun m f => if flagHeld hs t f then m ||| BitVec.twoPow 12 f else m) 0

/-- The thread's flags, as the operations in progress leave them. -/
def State.refreshFlags (s : State) (t : Tid) : State :=
  s.modThread t fun th => { th with flags := flagsHeld s.holds t }

/-- A long-latency instruction sets a flag of the thread; 15 sets nothing (R101). -/
def State.setFlag (s : State) (t : Tid) (flag owner : Nat) (src : Bool) : State :=
  if flag < 12 then ({ s with holds := s.holds ++ [⟨t, flag, owner, src⟩] } : State).refreshFlags t else s

/-- The clearing point of an operation: its sources read, or its results written (R101). A flag stays set while another
operation holds it. -/
def State.clearFlags (s : State) (owner : Nat) (src : Bool) : State :=
  let hit (h : FlagHold) : Bool := h.owner == owner && h.src == src
  let ts := (s.holds.filter hit).map (·.tid)
  ts.foldl (fun s t => s.refreshFlags t) { s with holds := s.holds.filter fun h => !hit h }

/-- Every flag an operation holds is given up: it was discarded. -/
def State.dropFlags (s : State) (owner : Nat) : State := (s.clearFlags owner true).clearFlags owner false

/-- The thread's flags among those of a mask. -/
def State.flagsSet (s : State) (t : Tid) (mask : BitVec 12) : Bool :=
  match s.thread? t with
  | some th => th.flags &&& mask != 0
  | none => false

end Sys2Proof.Machine
end

