-- ==== Sys2Proof/Machine/Memory.lean ====
section
/-! DEFINITION. The memory hierarchy: page walks and TLBs (spec/02 R33 to R35, spec/10 R188, R189), homes (R35, R163,
R185), the bench map (R60, R199), L1 and guest L2 lines with fills, write-downs and self-invalidation (R186, R187,
R354), and single accesses at their site (R197). -/

namespace Sys2Proof.Machine

/-! ### Page walks -/

/-- TINFO of XLATE (R189). -/
def XlateFail.info (f : XlateFail) : Word := BitVec.ofNat 32 (f.why * 16 + f.lvl)

/-- A bit field of a number. -/
def fieldOf (x lo w : Nat) : Nat := x / 2 ^ lo % 2 ^ w

/-- The home of a line under a page's PLACE and DIE (R35). -/
def homeOf (place die pa : Nat) : HomeId :=
  match place with
  | 0 => .die (fieldOf pa 12 2 ^^^ fieldOf pa 14 2)
  | 1 => .die die
  | 2 => .base
  | _ => .peer

/-- The page entry at an index of a table, read at its physical address through its home (R189). -/
def State.pte (s : State) (table idx : Nat) : Nat := leNat (readBytes s.mem (table + 8 * idx) 8)

/-- The reserved bits of an entry (R33): in a table pointer every bit but V, L and PA; in a leaf [63], [58:52], [11:7],
a DIE outside PLACE 01, and S64 at levels 2 and 3. -/
def pteReserved (e lvl : Nat) : Bool :=
  if fieldOf e 1 1 = 0 then fieldOf e 52 12 != 0 || fieldOf e 2 10 != 0
  else
    fieldOf e 63 1 != 0 || fieldOf e 52 7 != 0 || fieldOf e 7 5 != 0 ||
      (fieldOf e 61 2 != 1 && fieldOf e 59 2 != 0) || ((lvl == 2 || lvl == 3) && fieldOf e 5 1 == 1)

/-- Bytes a leaf at a level maps; S64 at level 1 makes 64 KiB (R34). -/
def pageSize (lvl : Nat) (s64 : Bool) : Nat :=
  if lvl = 3 then 2 ^ 30 else if lvl = 2 then 2 ^ 21 else if s64 then 2 ^ 16 else 2 ^ 12

/-- The sixteen level-1 entries of a 64 KiB page agree (R34). -/
def State.s64Ok (s : State) (table idx e : Nat) : Bool :=
  let first := idx / 16 * 16
  let pa0 := fieldOf e 12 40 - (idx - first)
  (List.range 16).all fun k =>
    let x := s.pte table (first + k)
    x == e - fieldOf e 12 40 * 2 ^ 12 + (pa0 + k) * 2 ^ 12

/-- The translation of a leaf. -/
def leafEntry (asid va lvl e : Nat) : TlbEntry :=
  let s64 := lvl == 1 && fieldOf e 5 1 == 1
  let size := pageSize lvl s64
  { asid := asid, global := fieldOf e 6 1 == 1, base := va / size * size, size := size,
    pa := (fieldOf e 12 40 * 2 ^ 12) / size * size, home := BitVec.ofNat 2 (fieldOf e 61 2), die := fieldOf e 59 2,
    prv := fieldOf e 4 1 == 1, x := fieldOf e 3 1 == 1, w := fieldOf e 2 1 == 1 }

/-- The checks of one entry, in the order of R189, and the descent: at most `lvl` entries are read. An S64 entry whose
PA[15:12] differ from VA[15:12] counts as misaligned, WHY 4 (log 36). -/
def State.walkFrom (s : State) (asid va table : Nat) : Nat → Except XlateFail (TlbEntry × Nat)
  | 0 => .error ⟨3, 1⟩
  | lvl + 1 =>
    let l := lvl + 1
    let idx := fieldOf va (12 + 9 * lvl) 9
    let e := s.pte table idx
    let leaf := fieldOf e 1 1 == 1
    if fieldOf e 0 1 = 0 then .error ⟨1, l⟩
    else if pteReserved e l then .error ⟨2, l⟩
    else if (leaf && 3 < l) || (!leaf && l == 1) then .error ⟨3, l⟩
    else if !leaf then s.walkFrom asid va (fieldOf e 12 40 * 2 ^ 12) lvl
    else
      let s64 := l == 1 && fieldOf e 5 1 == 1
      let pa := fieldOf e 12 40 * 2 ^ 12
      if (if s64 then fieldOf pa 12 4 != idx % 16 else pa % pageSize l false != 0) then .error ⟨4, l⟩
      else if s64 && !s.s64Ok table idx e then .error ⟨5, l⟩
      else .ok (leafEntry asid va l e, l)

/-- The permission checks at a leaf: PRV, W, X in that order (R189). -/
def useFail (e : TlbEntry) (u : Use) (sys : Bool) (lvl : Nat) : Option XlateFail :=
  if e.prv && !sys then some ⟨8, lvl⟩
  else if u = .write && !e.w then some ⟨6, lvl⟩
  else if u = .fetch && !e.x then some ⟨7, lvl⟩
  else none

/-- A walk of a context's tables for an address (R189). -/
def State.walkVa (s : State) (asid va : Nat) : Except XlateFail (TlbEntry × Nat) :=
  if 2 ^ 57 ≤ va then .error ⟨9, 0⟩
  else
    match s.ctx? asid with
    | none => .error ⟨1, 5⟩
    | some c => s.walkFrom asid va c.ptroot 5

/-! ### TLBs -/

/-- A cached translation covers an address of an ASID (R188). -/
def TlbEntry.covers (e : TlbEntry) (asid va : Nat) : Bool :=
  (e.global || e.asid == asid) && e.base ≤ va && va < e.base + e.size

/-- The physical address of an address that a translation covers. -/
def TlbEntry.paOf (e : TlbEntry) (va : Nat) : Nat := e.pa + (va - e.base)

/-- The location of an address under a translation. -/
def TlbEntry.loc (e : TlbEntry) (va : Nat) : Loc := .mem (e.paOf va) (homeOf e.home.toNat e.die (e.paOf va))

/-- The first-level TLB's answer. -/
def State.tlb1 (s : State) (core asid va : Nat) : Option TlbEntry :=
  (s.core? core).bind fun c => c.tlb.find? fun e => e.covers asid va

/-- The second-level TLB's answer. -/
def State.tlb2 (s : State) (die asid va : Nat) : Option TlbEntry :=
  (s.die? die).bind fun d => d.tlb.find? fun e => e.covers asid va

/-- A translation enters the TLBs of a core and its die, the oldest leaving when they are full (R188). -/
def State.fillTlb (s : State) (core : Nat) (e : TlbEntry) : State :=
  let s1 := s.modCore core fun c => { c with tlb := (e :: c.tlb.filter (· != e)).take Config.tlb1Entries }
  s1.modDie (dieOf core) fun d => { d with tlb := (e :: d.tlb.filter (· != e)).take Config.tlb2Entries }

/-- A translation made at once, through the TLBs or a walk that leaves no trace: what an access that is still to come will
find. -/
def State.translateNow (s : State) (core asid va : Nat) (u : Use) (sys : Bool) : Except XlateFail Loc :=
  if 2 ^ 57 ≤ va then .error ⟨9, 0⟩
  else
    match (s.tlb1 core asid va).or (s.tlb2 (dieOf core) asid va) with
    | some e => match useFail e u sys 0 with | some f => .error f | none => .ok (e.loc va)
    | none =>
      match s.walkVa asid va with
      | .error f => .error f
      | .ok (e, lvl) => match useFail e u sys lvl with | some f => .error f | none => .ok (e.loc va)

/-- A translation of the device itself, by a walk alone: descriptors, records, rings (R21, R306, R329). -/
def State.translateDev (s : State) (asid va : Nat) (u : Use) : Except XlateFail Loc :=
  match s.walkVa asid va with
  | .error f => .error f
  | .ok (e, lvl) => match useFail e u true lvl with | some f => .error f | none => .ok (e.loc va)

/-! ### Deed homes -/

/-- The deed home of a block: 0 to 3 a C-die, 4 the base die, 5 + m the peer module m that its page names (R344); none without
a valid leaf (R163). -/
def State.deedHome (s : State) (asid block : Nat) : Option Nat :=
  let va := block * 2 ^ 21
  match s.walkVa asid va with
  | .error _ => none
  | .ok (e, _) =>
    match e.home.toNat with
    | 0 => some (fieldOf va 21 2 ^^^ fieldOf va 23 2)
    | 1 => some e.die
    | 2 => some 4
    | _ => some (5 + fieldOf (e.paOf va) 40 12)

/-! ### The bench -/

/-- The per-core bench share of a band in bytes (R60). -/
def benchShare (kib ncores : Nat) : Nat := ((kib + ncores - 1) / max 1 ncores + 3) / 4 * 4 * 1024

/-- The core and local offset of a bench offset of a band (R60, R61). -/
def Band.benchAt (b : Band) (off : Nat) : Nat × Nat :=
  let share := max 1 (benchShare b.fp.bench b.ncores)
  let k := off / share
  let l := off % share
  let gran := ((b.benchMap[k]?).getD [])[l / 4096]?.getD 0
  ((b.cores[k]?).getD 0, gran * 4096 + l % 4096)

/-! ### Home contents -/

/-- Bytes at a home: the home's memory with what its L2 slices or the L3 hold of it (R185). The spec gives no map of the PAs
onto the near memory and the far tier, so that every PA is memory (log 38). -/
def State.homeBytes (s : State) (h : HomeId) (pa n : Nat) : List Byte :=
  if h = .peer then readBytes s.peerMem pa n else readBytes s.mem pa n

/-- Writes bytes at a home. -/
def State.setHomeBytes (s : State) (h : HomeId) (pa : Nat) (bs : List Byte) : State :=
  if h = .peer then { s with peerMem := writeBytes s.peerMem pa bs } else { s with mem := writeBytes s.mem pa bs }

/-- The number of a line: that of its PA, beyond 2^45 for a peer's line, which is another line than the module's own of the
same PA (R185, R344). -/
def lineKey (h : HomeId) (pa : Nat) : Nat := pa / 128 + (if h = .peer then 2 ^ 45 else 0)

/-- The first byte of a line. -/
def lineBase (line : Nat) : Nat := line % 2 ^ 45 * 128

/-- A line as its home holds it. -/
def State.homeLine (s : State) (h : HomeId) (line : Nat) : BitVec 1024 :=
  BitVec.ofNat 1024 (leNat (s.homeBytes h (lineBase line) 128))

/-- The bytes of a line selected by a mask, with their places. -/
def lineBytes (data : BitVec 1024) (mask : BitVec 128) : List (Nat × Byte) :=
  (List.range 128).filterMap fun i =>
    if mask.getLsbD i then some (i, BitVec.ofNat 8 (data.toNat / 2 ^ (8 * i))) else none

/-- A line with the bytes of a mask taken from another. -/
def mergeLine (old new : BitVec 1024) (mask : BitVec 128) : BitVec 1024 :=
  BitVec.ofNat 1024 (leNat ((List.range 128).map fun i =>
    BitVec.ofNat 8 ((if mask.getLsbD i then new else old).toNat / 2 ^ (8 * i))))

/-- n bytes of a line from offset o, as a number. -/
def lineField (data : BitVec 1024) (o n : Nat) : Nat := data.toNat / 2 ^ (8 * o) % 2 ^ (8 * n)

/-- The mask of n bytes from offset o. -/
def byteMask (o n : Nat) : BitVec 128 := BitVec.ofNat 128 ((2 ^ n - 1) * 2 ^ o)

/-- The bytes of a mask of a line that are to be overwritten before their return are kept, for the device's reads (R21). -/
def State.keepReturned (s : State) (h : HomeId) (line : Nat) (mask : BitVec 128) : State :=
  let new := (lineBytes (s.homeLine h line) mask).map fun e => (line * 128 + e.1, e.2)
  { s with unreturned := s.unreturned ++ new.filter fun e => !(s.unreturned.any fun x => x.1 == e.1) }

/-- Bytes at a home as they were last returned to it (R21). -/
def State.returnedBytes (s : State) (h : HomeId) (pa n : Nat) : List Byte :=
  let bs := s.homeBytes h pa n
  if s.unreturned.isEmpty then bs
  else ((List.range n).zip bs).map fun e =>
    ((s.unreturned.find? fun x => x.1 == lineKey h (pa + e.1) * 128 + (pa + e.1) % 128).map (·.2)).getD e.2

/-- The contents of lines at their homes count as returned. -/
def State.publish (s : State) (lines : List Nat) : State :=
  { s with unreturned := s.unreturned.filter fun e => !lines.contains (e.1 / 128) }

/-- Writes the bytes of a mask at a line's home, and the line's poison (R202): stores that a cache writes down. -/
def State.mergeHome (s : State) (h : HomeId) (line : Nat) (data : BitVec 1024) (mask : BitVec 128) (poison : Bool) :
    State :=
  let s1 := (lineBytes data mask).foldl (fun s e => s.setHomeBytes h (lineBase line + e.1) [e.2]) (s.keepReturned h line mask)
  if poison && !s1.poison.contains line then { s1 with poison := line :: s1.poison } else s1

/-! ### Cached lines -/

/-- A core's L1 copy of a line. -/
def State.l1Line? (s : State) (core line : Nat) : Option Line :=
  (s.core? core).bind fun c => c.l1.find? fun l => l.line == line

/-- A die's guest copy of a line. -/
def State.l2Line? (s : State) (die line : Nat) : Option Line :=
  (s.die? die).bind fun d => d.l2.find? fun l => l.line == line

/-- Drops an L1 copy. -/
def State.dropL1 (s : State) (core line : Nat) : State :=
  s.modCore core fun c => { c with l1 := c.l1.filter fun l => l.line != line }

/-- Drops a guest copy. -/
def State.dropL2 (s : State) (die line : Nat) : State :=
  s.modDie die fun d => { d with l2 := d.l2.filter fun l => l.line != line }

/-- One count of a core for a context, made if it is not kept yet (R203). -/
def CoreSt.count (c : CoreSt) (asid : Nat) (f : CoreCounts → CoreCounts) : CoreSt :=
  if c.counts.any (·.asid == asid) then { c with counts := modIf (·.asid == asid) f c.counts }
  else { c with counts := f ⟨asid, 0, 0, 0, 0, 0, 0, 0⟩ :: c.counts }

/-- One line request of a core, local when the line's home is the core's own die (R203). -/
def State.lineRequest (s : State) (core asid : Nat) (h : HomeId) : State :=
  s.modCore core fun c => c.count asid fun k =>
    if h = .die (dieOf core) then { k with lreq := satInc k.lreq } else { k with rreq := satInc k.rreq }

/-- Writes a dirty guest line to its home and leaves it clean. -/
def State.writeDownL2 (s : State) (die line : Nat) : State :=
  match s.l2Line? die line with
  | none => s
  | some l =>
    if l.dirty = 0 then s
    else
      (s.mergeHome l.home line l.data l.dirty l.poison).modDie die fun d =>
        { d with l2 := modIf (fun x => x.line == line) (fun x => { x with dirty := 0 }) d.l2 }

/-- A guest line is dropped to make room, the oldest first, once written down (R187). -/
def State.roomL2 (s : State) (die : Nat) : State :=
  match s.die? die with
  | none => s
  | some d =>
    if d.l2.length < Config.l2Lines then s
    else match d.l2.getLast? with | none => s | some l => (s.writeDownL2 die l.line).dropL2 die l.line

/-- Self-invalidation of a guest line (R354). -/
def State.invalL2 (s : State) (die line : Nat) : State := (s.writeDownL2 die line).dropL2 die line

/-- The guest copy of a line on a die for a context: a copy that another context left is invalidated first (R68); where the
die has none, it is filled from the home (R185). -/
def State.fillL2 (s : State) (die asid line : Nat) (h : HomeId) : State :=
  let s1 := match s.l2Line? die line with
    | some l => if l.asid = asid then s else s.invalL2 die line
    | none => s
  match s1.l2Line? die line with
  | some _ => s1
  | none =>
    let l : Line := ⟨line, h, asid, s1.homeLine h line, 0, false, false, s1.poison.contains line⟩
    (s1.roomL2 die).modDie die fun d => { d with l2 := l :: d.l2 }

/-- The line as a die's L2 holds it for a context: its home line, or its guest line (R185); of a guest line that another
context left, what its invalidation will leave at the home (R68). -/
def State.l2Data (s : State) (die asid line : Nat) (h : HomeId) : BitVec 1024 × Bool :=
  let home := (s.homeLine h line, s.poison.contains line)
  if h = .die die then home
  else
    match s.l2Line? die line with
    | some l =>
      if l.asid = asid then (l.data, l.poison)
      else (mergeLine home.1 l.data l.dirty, home.2 || (l.dirty != 0 && l.poison))
    | none => home

/-- Merges bytes into a die's L2: into the home line, or into the guest line, which becomes dirty (R187). -/
def State.mergeL2 (s : State) (die asid line : Nat) (h : HomeId) (data : BitVec 1024) (mask : BitVec 128)
    (poison : Bool) : State :=
  if h = .die die then s.mergeHome h line data mask poison
  else
    (s.fillL2 die asid line h).modDie die fun d => { d with
      l2 := modIf (fun x => x.line == line)
        (fun x => { x with data := mergeLine x.data data mask, dirty := x.dirty ||| mask, poison := x.poison || poison })
        d.l2 }

/-- Writes a dirty L1 line to the die's L2 and leaves it clean; a line request (R187, R203). -/
def State.writeDownL1 (s : State) (core line : Nat) : State :=
  match s.l1Line? core line with
  | none => s
  | some l =>
    if l.dirty = 0 then s
    else
      ((s.mergeL2 (dieOf core) l.asid line l.home l.data l.dirty l.poison).lineRequest core l.asid l.home).modCore core
        fun c => { c with l1 := modIf (fun x => x.line == line) (fun x => { x with dirty := 0, strm := false }) c.l1 }

/-- Self-invalidation of an L1 line: written down if dirty, then dropped (R354). -/
def State.invalL1 (s : State) (core line : Nat) : State := (s.writeDownL1 core line).dropL1 core line

/-- A line is kept on a core for LDs of a clause (R334). -/
def State.pinned (s : State) (core line : Nat) : Bool := s.pins.any fun p => p.core == core && p.line == line

/-- Room for one more L1 line: of the lines that no LD of a clause still needs (R334), one that `.strm` stores have written
goes first, then the oldest that is not marked by `.keep` (R187, R192). Where every line is needed, none goes (log 42). -/
def State.roomL1 (s : State) (core : Nat) : State :=
  match s.core? core with
  | none => s
  | some c =>
    if c.l1.length < Config.l1Lines then s
    else
      let free := c.l1.filter fun l => !s.pinned core l.line
      match ((free.filter (·.strm)).getLast?.or (free.filter fun l => !l.keep).getLast?).or free.getLast? with
      | none => s
      | some l => s.invalL1 core l.line

/-- The L1 copy of a line for a context: a copy another context left is invalidated first (R68), a miss is filled
through the L2 and counted (R203). -/
def State.fillL1 (s : State) (core asid line : Nat) (h : HomeId) (pol : Policy) : State :=
  let s1 := match s.l1Line? core line with
    | some l => if l.asid = asid then s else s.invalL1 core line
    | none => s
  match s1.l1Line? core line with
  | some _ =>
    if pol = .keep then s1.modCore core fun c => { c with
      l1 := modIf (fun x => x.line == line) (fun x => { x with keep := true }) c.l1 }
    else s1
  | none =>
    let die := dieOf core
    let s2 := (if h = .die die then s1 else s1.fillL2 die asid line h).lineRequest core asid h
    let (data, poison) := s2.l2Data die asid line h
    let l : Line := ⟨line, h, asid, data, 0, pol = .keep, pol = .strm, poison⟩
    (s2.roomL1 core).modCore core fun c => { c with l1 := l :: c.l1 }

/-! ### Accesses at their site -/

/-- A local bench word is poisoned (R319). -/
def State.benchPoisoned (s : State) (core off n : Nat) : Bool :=
  match s.core? core with
  | none => false
  | some c => c.benchPoison.any fun w => off / 4 ≤ w && w ≤ (off + n - 1) / 4

/-- A read of n bytes within one line at its site: the value, whether it holds poisoned bytes, and the state with the
line filled. A `.strm` load that misses allocates no L1 line (R192). -/
def State.readSite (s : State) (core asid : Nat) (site : Site) (loc : Loc) (n : Nat) (pol : Policy) :
    State × Nat × Bool :=
  match loc, site with
  | .bench c off, _ =>
    match s.core? c with
    | none => (s, 0, false)
    | some x => (s, leNat (readBytes x.bench off n), s.benchPoisoned c off n)
  | .mem pa h, .l1 c =>
    let line := lineKey h pa
    if pol = .strm && !((s.l1Line? c line).map (fun l => l.asid == asid)).getD false then
      let s0 := if (s.l1Line? c line).isSome then s.invalL1 c line else s
      let s1 := s0.lineRequest c asid h
      let (d, p) := s1.l2Data (dieOf c) asid line h
      (s1, lineField d (pa % 128) n, p)
    else
      let s1 := s.fillL1 c asid line h pol
      match s1.l1Line? c line with
      | some l => (s1, lineField l.data (pa % 128) n, l.poison)
      | none => (s1, 0, false)
  | .mem pa h, .l2 d =>
    let line := lineKey h pa
    let s1 := s.invalL1 core line
    let s2 := (if h = .die d then s1 else s1.fillL2 d asid line h).lineRequest core asid h
    let (x, p) := s2.l2Data d asid line h
    (s2, lineField x (pa % 128) n, p)
  | .mem pa h, _ =>
    let line := lineKey h pa
    let s1 := s.lineRequest core asid h
    (s1, lineField (s1.homeLine h line) (pa % 128) n, s1.poison.contains line)

/-- A write of the low n bytes of a value within one line at its site. -/
def State.writeSite (s : State) (_core asid : Nat) (site : Site) (loc : Loc) (n v : Nat) (pol : Policy) : State :=
  match loc, site with
  | .bench c off, _ =>
    s.modCore c fun x => { x with
      bench := writeBytes x.bench off (leBytes n v),
      benchPoison := x.benchPoison.filter fun w => !(off ≤ 4 * w && 4 * w + 4 ≤ off + n) }
  | .mem pa h, .l1 c =>
    let line := lineKey h pa
    let o := pa % 128
    let data : BitVec 1024 := BitVec.ofNat 1024 (v % 2 ^ (8 * n) * 2 ^ (8 * o))
    (s.fillL1 c asid line h pol).modCore c fun x => { x with
      l1 := modIf (fun l => l.line == line)
        (fun l => { l with data := mergeLine l.data data (byteMask o n), dirty := l.dirty ||| byteMask o n,
                           strm := l.strm || pol = .strm })
        x.l1 }
  | .mem pa h, .l2 d =>
    let o := pa % 128
    s.mergeL2 d asid (lineKey h pa) h (BitVec.ofNat 1024 (v % 2 ^ (8 * n) * 2 ^ (8 * o))) (byteMask o n) false
  | .mem pa h, _ => s.setHomeBytes h pa (leBytes n v)

end Sys2Proof.Machine
end

