-- ==== Sys2Proof/Machine/Ready.lean ====
section
/-! DEFINITION. Readiness, the Gather Board and bundles (spec/06 R93 to R96), and the snapshot latch (spec/20 R350,
R356). -/

namespace Sys2Proof.Machine

/-! ### The Gather Board -/

/-- The base of the segment a thread executes: its band's, or THSEG in handler mode (R299). -/
def State.csegOf (s : State) (t : Tid) : Nat :=
  match s.band? t.band with
  | none => 0
  | some b => if s.inHandler t then ((s.ctx? b.asid).map (·.thseg)).getD 0 else b.fp.cseg

/-- The key of a Gather Board entry (R94). -/
structure BoardKey where
  asid : Nat
  cseg : Nat
  pc : Pc
  deriving DecidableEq, Repr

/-- The threads of a troop that lie on a core, by name. -/
def tidsOf (b t n : Nat) : List Tid := (List.range n).map fun l => ⟨b, t, l⟩

/-- The threads of a band's troop. -/
def State.troopTids (s : State) (b t : Nat) : List Tid :=
  match s.troop? b t with
  | some x => tidsOf b t x.threads.length
  | none => []

/-- The threads of a band. -/
def State.bandTids (s : State) (b : Nat) : List Tid :=
  match s.band? b with
  | some x => ((List.range x.troops.length).map (s.troopTids b)).flatten
  | none => []

/-- The threads of the resident bands on a core. -/
def State.coreTids (s : State) (core : Nat) : List Tid :=
  ((s.bands.filter fun b => b.state == .resident).map fun b =>
    (((List.range b.troops.length).filter fun i => b.coreOf i == core).map (s.troopTids b.id)).flatten).flatten

/-- The status of a thread; a thread that does not exist counts as exited. -/
def State.statusOf (s : State) (t : Tid) : Status := ((s.thread? t).map (·.status)).getD .exited

/-- The key under which a thread stands at a PC. -/
def State.keyAt (s : State) (t : Tid) (pc : Pc) : BoardKey := ⟨s.asidOf t, s.csegOf t, pc⟩

/-- The threads on a core's Gather Board, with their stamps. -/
def State.boarded (s : State) (core : Nat) : List (Tid × Nat) :=
  (s.coreTids core).filterMap fun t =>
    match s.statusOf t with
    | .ready n true => some (t, n)
    | _ => none

/-- The keys of a core's Gather Board entries in use. -/
def State.boardKeys (s : State) (core : Nat) : List BoardKey :=
  ((s.boarded core).map fun e => s.keyAt e.1 (((s.thread? e.1).map (·.pc)).getD ⟨0, 0⟩)).eraseDups

/-- A thread at a PC finds an entry: one with its key, or an empty one (R94). -/
def State.canBoard (s : State) (t : Tid) (pc : Pc) : Bool :=
  (s.boarded (s.coreOf t)).length < Config.boardEntries ||
    (let ks := s.boardKeys (s.coreOf t)
     ks.contains (s.keyAt t pc) || ks.length < Config.boardEntries)

/-- The address of a slot of a packet (R71). -/
def codeVa (cseg : Nat) (p : Word) (slot : Nat) : Nat := cseg + 12 * p.toNat + 4 * slot

/-- WAIT of the clause that begins at a PC (R73): none where no header stands there, or where none can be read yet. The word
is read as it stands, without a fetch (log 22). -/
def State.waitAt (s : State) (t : Tid) (pc : Pc) : Option (BitVec 12) :=
  if pc.slot ≠ 0 then none
  else
    match s.translateNow (s.coreOf t) (s.asidOf t) (codeVa (s.csegOf t) pc.p 0) .fetch (s.inHandler t) with
    | .ok (.mem pa h) => (headerOf (BitVec.ofNat 32 (leNat (s.homeBytes h pa 4)))).map (·.wait)
    | _ => none

/-- How a thread stands at a PC (R93, R94): waiting where the clause that begins there names a flag set for it in WAIT; else
ready, stamped with the clock, on the Gather Board or in its troop's overflow list. -/
def State.standing (s : State) (t : Tid) (pc : Pc) : Status :=
  match s.waitAt t pc with
  | some m => if s.flagsSet t m then .waiting (.flags m) else .ready s.clock (s.canBoard t pc)
  | none => .ready s.clock (s.canBoard t pc)

/-- A thread goes on at a PC (R94): it becomes ready there, or waits for the flags of the clause's WAIT. -/
def State.makeReady (s : State) (t : Tid) (pc : Pc) : State :=
  let st := s.standing t pc
  s.modThread t fun th => { th with pc := pc, npc := pc, status := st }

/-- The age of a bundle: the stamp of its oldest thread (R97). -/
def Bundle.stamp (b : Bundle) : Nat :=
  ((leastBy (fun e => e.2) (b.stamps.filter fun e => b.threads.contains e.1)).map (·.2)).getD 0

/-- Entries that have become empty go to overflow threads, oldest stamp first (R94). -/
def State.admitOverflow (s : State) (core : Nat) : State :=
  let waiting := (s.coreTids core).filterMap fun t =>
    match s.statusOf t with
    | .ready n false => some (t, n)
    | _ => none
  (sortBy (fun e => e.2) waiting).foldl (fun s e =>
    match s.thread? e.1 with
    | some th => if s.canBoard e.1 th.pc then s.modThread e.1 fun th => { th with status := .ready e.2 true } else s
    | none => s) s

/-- A thread is no longer a member of any bundle; a bundle with no threads frees its slot (R96). -/
def State.leaveBundle (s : State) (t : Tid) : State :=
  let without := s.bundles.map fun b => { b with threads := b.threads.filter (· != t) }
  { s with bundles := without.filter fun b => !b.threads.isEmpty }

/-- The PC a thread stands at: its bundle's, or its own. -/
def State.pcOf (s : State) (t : Tid) : Pc :=
  match s.bundles.find? fun b => b.threads.contains t with
  | some b => b.pc
  | none => ((s.thread? t).map (·.pc)).getD ⟨0, 0⟩

/-- A thread waits at its PC; when a wait that does not execute the instruction again ends, it goes on at `npc`. -/
def State.makeWait (s : State) (t : Tid) (pc npc : Pc) (w : Wait) : State :=
  s.modThread t fun th => { th with pc := pc, npc := npc, status := .waiting w }

/-! ### Snapshots -/

/-- A count in a field of w bits, saturating (R356). -/
def satField (w n : Nat) : Nat := min n (2 ^ w - 1)

/-- The troops resident on a core, as (band, troop). -/
def State.coreTroops (s : State) (core : Nat) : List (Nat × Nat) :=
  ((s.bands.filter fun b => b.state == .resident).map fun b =>
    ((List.range b.troops.length).filter fun i =>
      b.coreOf i == core && !((b.troops[i]?).map (·.retired)).getD true).map fun i => (b.id, i)).flatten

/-- A band of a context has left cores: where it was the last one, the core drops the context's counts (R203, R247). -/
def State.leaveCores (s : State) (asid : Nat) (cores : List Nat) : State :=
  { s with cores := s.cores.map fun c =>
      if cores.contains c.id && !(s.bands.any fun b => b.asid == asid && b.cores.contains c.id) then
        { c with counts := c.counts.filter fun k => k.asid != asid }
      else c }

/-- The live physical registers of a core. -/
def State.coreLive (s : State) (core : Nat) : Nat :=
  ((s.coreTroops core).map fun e => ((s.troop? e.1 e.2).map Troop.live).getD 0).sum

/-- The Tile Table entries of a core that bands hold. -/
def State.coreTiles (s : State) (core : Nat) : Nat :=
  ((s.bands.filter fun b => b.state == .resident).map fun b =>
    (((b.cores.zip b.tileMap).filter fun e => e.1 == core).map fun e => e.2.length).sum).sum

/-- The free trap slots of a core (R321). -/
def State.freeSlots (s : State) (core : Nat) : Nat := (s.slots.filter fun x => x.core == core && x.owner.isNone).length

/-- The ends of a message: the requester's die, 4 for the base die, and the home's; 5 + m stands for module m. -/
def State.msgEnds (s : State) (m : Msg) : Nat × Nat :=
  let die (b : Nat) : Nat := ((s.band? b).bind fun x => x.cores.head?.map dieOf).getD 4
  (match m.who with
    | .troop b _ _ => die b
    | .band b _ => die b
    | .grid _ => 4
    | .peer n => 5 + n, m.home)

/-- The beats or flits in flight on a link (R356): an ownership message between two places takes two beats on the link of each
C-die, and one flit on the port of a module. Other traffic takes no time on the links of this model (log 51). -/
def State.onLink (s : State) (link : Nat) : Nat :=
  (s.msgs.map fun m =>
    let (a, b) := s.msgEnds m
    if a = b then 0
    else if link < 4 then (if a = link || b = link then 2 else 0)
    else if (5 ≤ a && 16 + (Config.peerPort (a - 5)).val = link) || (5 ≤ b && 16 + (Config.peerPort (b - 5)).val = link) then 1
    else 0).sum

/-- The record words of a latch, by offset in the management space (R356). -/
def State.snapWords (s : State) (seq : Nat) : List (Nat × Word) :=
  let w (off n : Nat) : Nat × Word := (off, BitVec.ofNat 32 n)
  let core (c : CoreSt) : List (Nat × Word) :=
    let o := 0x310000 + 0x100 * c.id
    [w o seq,
     w (o + 4) (satField 10 (s.boardKeys c.id).length + 2 ^ 16 * satField 5 (s.bundles.filter (·.core == c.id)).length),
     w (o + 8) (satField 9 (s.coreTroops c.id).length + 2 ^ 16 * satField 10 (s.coreTiles c.id)),
     w (o + 12) (satField 13 (Config.physRegs - s.coreLive c.id)),
     w (o + 16) (satField 3 (s.freeSlots c.id) + 2 ^ 8 * satField 8 c.mx.length),
     w (o + 20) (satField 10 c.mgspent)]
  let home (h : HomeSt) : List (Nat × Word) :=
    let o := 0x320000 + 0x100 * h.id
    if h.id < 5 then
      [w o seq, w (o + 4) (satField 17 h.entries.length), w (o + 8) (satField 32 h.queue.length),
       w (o + 12) (if h.lost.isEmpty then 0 else 1)]
    else []
  let bandsIn (x : BandState) : Nat := satField 32 (s.bands.filter (·.state == x)).length
  let sched := [w 0x330000 seq, w 0x330004 (bandsIn .pending), w 0x330008 (bandsIn .resident),
    w 0x33000C (bandsIn .saved), w 0x330010 (satField 17 s.deps.length), w 0x330014 (satField 32 s.packets.length)]
  let red := [w 0x340000 seq, w 0x340004 (satField 9 (256 - s.chunks.length)),
    w 0x340008 (satField 9 (s.chunks.filter fun c => c.inputs.length < c.np).length)]
  let link (l : Link) : List (Nat × Word) :=
    let o := 0x350000 + 0x100 * l.id
    [w o seq, w (o + 4) (if l.up then 1 else 0), w (o + 8) (satField 32 l.replays),
     w (o + 12) (satField 32 (s.onLink l.id))]
  (s.cores.map core).flatten ++ (s.homes.map home).flatten ++ sched ++ red ++ (s.dev.links.map link).flatten

/-- Two clocks lie in one cycle of the fabric clock: no edge lies between them (R9, log 24). -/
def sameFabricCycle (a b : Nat) : Bool := (List.range (b - a)).all fun k => !Config.fabricEdge (a + 1 + k)

/-- The common trigger (R350): a latch unless the registers are frozen; triggers of one cycle of the fabric clock make one
latch. -/
def State.snapTrigger (s : State) : State :=
  let n := s.dev.snap
  if n.frozen then
    if sameFabricCycle n.at_ s.clock then s
    else { s with dev := { s.dev with snap := { n with miss := satInc n.miss } } }
  else
    let seq := (n.seq + 1) % 2 ^ 32
    { s with dev := { s.dev with snap := ⟨seq, n.miss, true, s.clock, s.snapWords seq⟩ } }

/-- An error event triggers a latch where SNAPCTL enables it (R350, R353). -/
def State.snapEvent (s : State) (bit : Nat) : State := if s.dev.snapctl.getLsbD bit then s.snapTrigger else s

end Sys2Proof.Machine
end

