-- ==== Sys2Proof/Machine/Ops.lean ====
section
/-! DEFINITION. The named operations shared by the meanings: fault-queue records (spec/16 R306, R307), the end of a
thread (R64, R107, R233), the kill of a troop (R302), and taking a trap and returning from it (R296 to R305). -/

namespace Sys2Proof.Machine

/-! ### Records -/

/-- Writes words at a home, in rising order. -/
def State.writeWords (s : State) (h : HomeId) (pa : Nat) (ws : List Word) : State :=
  s.setHomeBytes h pa ((ws.map fun w => leBytes 4 w.toNat).flatten)

/-- Writes a record of 15 words and its SEQ to a context's fault queue (R306). -/
def State.faultRecord (s : State) (asid : Nat) (words : List Word) : State :=
  match s.ctx? asid with
  | none => s
  | some c =>
    let lost (s : State) : State := s.modCtx asid fun c => { c with fqlost := satInc c.fqlost }
    if !c.live then s
    else if c.fqhead - c.fqtail = 1024 then lost s
    else
      match s.translateDev asid (c.fqbase + 64 * (c.fqhead.toNat % 1024)) .write with
      | .error _ => lost s
      | .ok (.bench ..) => lost s
      | .ok (.mem pa h) =>
        if s.poison.contains (lineKey h pa) then lost s
        else (s.writeWords h pa (words.take 15 ++ [c.fqhead])).modCtx asid fun c => { c with fqhead := c.fqhead + 1 }

/-- Where a record comes from (R307, words 1 to 3): core, troop slot, and the lane and PC where they are valid. -/
structure Origin where
  core : Nat
  tslot : Nat
  lane : Option Nat
  pc : Option Pc
  deriving DecidableEq, Repr

/-- The words of a record but SEQ (R307). -/
def recordWords (kind cause sub : Nat) (o : Origin) (addr : BitVec 57) (info gridseq : Word) (more : List Word)
    (sseq : Word) : List Word :=
  let w1 := o.core + 2 ^ 6 * o.tslot + 2 ^ 14 * o.lane.getD 0 + (if o.lane.isSome then 2 ^ 20 else 0) +
    (if o.pc.isSome then 2 ^ 21 else 0)
  let pc := o.pc.getD ⟨0, 0⟩
  [BitVec.ofNat 32 (kind + 2 ^ 8 * cause + 2 ^ 16 * sub), BitVec.ofNat 32 w1, pc.p, BitVec.ofNat 32 pc.slot.val,
   BitVec.ofNat 32 addr.toNat, BitVec.ofNat 32 (addr.toNat / 2 ^ 32), info, gridseq] ++
  (more ++ List.replicate 6 0).take 6 ++ [sseq]

/-- The origin of a thread at its PC. -/
def State.originOf (s : State) (t : Tid) : Origin :=
  ⟨s.coreOf t, ((s.troop? t.band t.troop).map (·.tslot)).getD 0, some t.lane, some (s.pcOf t)⟩

/-- The origin of a troop. -/
def State.originTroop (s : State) (b t : Nat) : Origin :=
  ⟨s.coreOf ⟨b, t, 0⟩, ((s.troop? b t).map (·.tslot)).getD 0, none, none⟩

/-- GRIDSEQ of a band. -/
def State.gridseqOf (s : State) (b : Nat) : Word := ((s.band? b).map (·.gridseq)).getD 0

/-- CAUSE of a CONTEXT ERROR record by its SUB (R307); `c` where the record takes a cause of its own. -/
def errorCause (sub c : Nat) : Nat :=
  match sub with
  | 1 => 0x13 | 2 => 0x03 | 4 => 0x11 | 5 => 0x10 | 3 => c | 6 => c | _ => 0

/-- A CONTEXT ERROR record, which SNAPCTL may make a trigger (R307, R353). -/
def State.contextError (s : State) (b : Nat) (o : Origin) (sub cause : Nat) (addr : BitVec 57) (info : Word)
    (killed : Nat) : State :=
  let asid := ((s.band? b).map (·.asid)).getD 0
  (s.faultRecord asid (recordWords 6 (errorCause sub cause) sub o addr info (s.gridseqOf b)
    [BitVec.ofNat 32 killed] 0)).snapEvent 1

/-! ### The end of a thread and of a troop -/

/-- The lanes of a mask leave a convergence register of the troop; a register left without members holds no round, and
its counted operation is given up (R233). -/
def Conv.dropLanes (c : Conv) (t : Nat) (m : BitVec 64) : Conv :=
  if c.troop = t && c.members != 0 then
    let c1 := { c with members := c.members &&& ~~~m, signed := c.signed &&& ~~~m,
                       sigs := c.sigs.filter fun e => !bit64 m e.1 }
    if c1.members = 0 then { c1 with rounds := false, signed := 0, sigs := [] } else c1
  else c

/-- The operations counted for rounds that no convergence register holds any more. -/
def lostRounds (old new : List Conv) : List Nat :=
  (old.zip new).filterMap fun e => if e.1.rounds && !e.2.rounds then some e.1.op else none

/-- The convergence registers of a band lose lanes of a troop; a discarded round's count retires (R233). -/
def State.dropConv (s : State) (b t : Nat) (m : BitVec 64) : State :=
  match s.band? b with
  | none => s
  | some x =>
    let cs := x.conv.map fun c => c.dropLanes t m
    let gone := lostRounds x.conv cs
    let s1 := s.modBand b fun x => { x with conv := cs }
    gone.foldl (fun s o => s.dropFlags o) { s1 with ops := s1.ops.filter fun o => !gone.contains o.id }

/-- The masks of a troop as they stood before the clock are kept, for the CSETs of the clock (R231). -/
def State.noteMasks (s : State) (b t : Nat) : State :=
  if s.now.masks.any fun e => e.1 == (b, t) then s
  else { s with now := { s.now with masks := s.now.masks ++ [((b, t), ((s.troop? b t).map (·.masks)).getD [])] } }

/-- What EXIT and a kill do to one thread (R64, R112, R302): its mask bits are cleared, its names released, and it has
exited. -/
def State.endThread (s : State) (t : Tid) : State :=
  (((s.noteMasks t.band t.troop).leaveBundle t).modTroop t.band t.troop fun x =>
    let x1 := x.releaseAll t.lane
    { x1 with masks := x1.masks.foldl (fun ms e => put 0 e.1 (setBit64 e.2 t.lane false) ms) x1.masks }).modThread t
      fun th => { th with status := .exited }

/-- A trap slot becomes free (R300). -/
def State.freeSlot (s : State) (core i : Nat) : State := s.modSlot core i fun x => { x with owner := none }

/-- A long-latency operation that accesses memory. -/
def Pend.inMemory : Pend → Bool
  | .load .. | .atom .. | .atomc .. | .atomw .. => true
  | _ => false

/-- What a troop's threads have in progress is discarded: results, flags, engine operations, sleeps; and at a rollback
(`all`) the accesses that have issued (R317), which a kill leaves to be performed, as they are at a retirement (R302). -/
def State.discardWork (s : State) (b t : Nat) (all : Bool) : State :=
  let mine (x : Tid) : Bool := x.band == b && x.troop == t
  let lost (p : Pending) : Bool := mine p.tid && (all || !p.what.inMemory)
  let gone := (s.pending.filter fun p => mine p.tid).map (·.id) ++ (s.ops.filter fun o => mine o.tid).map (·.id)
  let s1 := gone.foldl (fun s o => s.dropFlags o) s
  { s1 with
    pending := s1.pending.filter fun p => !lost p
    ops := s1.ops.filter fun o => !mine o.tid
    flights := s1.flights.filter fun f => !(mine f.tid && all)
    sleepers := s1.sleepers.filter fun x => !mine x.tid
    cores := s1.cores.map fun c => { c with mx := c.mx.filter fun e => !gone.contains e.op }
    pairActs := s1.pairActs.filter fun a => !(a.band == b && a.troop == t) }

/-- The physical lines of a range of a context, where it translates. -/
def State.rangeLines (s : State) (asid base len : Nat) : List Nat :=
  (List.range ((len + 127) / 128)).filterMap fun k =>
    match s.walkVa asid (base + 128 * k) with
    | .ok (e, _) => some (match e.loc (base + 128 * k) with | .mem pa h => lineKey h pa | .bench .. => 0)
    | .error _ => none

/-- Copies of lines in the L1s of cores and the guest lines of a die are dropped without write-back (R302, R182). -/
def State.discardLines (s : State) (cores : List Nat) (die : Option Nat) (lines : List Nat) : State :=
  { s with
    cores := s.cores.map fun c =>
      if cores.contains c.id then { c with l1 := c.l1.filter fun l => !lines.contains l.line } else c
    dies := s.dies.map fun d =>
      if die == some d.id then { d with l2 := d.l2.filter fun l => !lines.contains l.line } else d }

/-- The dirty lines of the ranges held E through a list of registers are discarded (R302). -/
def State.discardDirty (s : State) (b : Nat) (rs : List Region) : State :=
  match s.band? b with
  | none => s
  | some x =>
    rs.foldl (fun s r =>
      if r.state = .held && r.kind = .e && r.space != .bench then
        s.discardLines x.cores (x.cores.head?.map dieOf) (s.rangeLines x.asid r.base r.len)
      else s) s

/-- An asynchronous event as the trap it came from. -/
def TrapEvent.source (ev : TrapEvent) (b t : Nat) : List AsyncTrap :=
  ev.lanes.map fun l => ⟨ev.id, ⟨b, t, l.lane⟩, ev.cause, l.info, l.addr, ev.cf, ev.ck, ev.op⟩

/-- Asynchronous events that have not entered leave a troop and are pending again, to be written UNDELIVERED when their
threads have gone (R298, R323). -/
def State.unqueue (s : State) (b t : Nat) (p : TrapEvent → Bool) : State :=
  match s.troop? b t with
  | none => s
  | some x =>
    let out (ev : TrapEvent) : Bool := !ev.precise && p ev
    let first := match x.active with | some ev => if x.entered then [] else [ev] | none => []
    let evs := (first ++ x.queue).filter out
    ({ s with asyncs := s.asyncs ++ (evs.map fun ev => ev.source b t).flatten } : State).modTroop b t fun x =>
      { x with queue := x.queue.filter fun ev => !out ev }

/-- KillTroop without its record (R302): every thread ends, engine operations are discarded, dirty lines held E through g0
to g7 are dropped (those of accesses still to be performed are dropped at the implicit return), and the trap slot is
freed. -/
def State.endTroop (s : State) (b t : Nat) : State :=
  match s.troop? b t with
  | none => s
  | some x =>
    let core := s.coreOf ⟨b, t, 0⟩
    let s1 := (s.discardWork b t false).dropConv b t (BitVec.allOnes 64)
    let s2 := (s.troopTids b t).foldl (fun s t => s.endThread t) (s1.unqueue b t fun _ => true)
    let s3 := match x.slot with | some i => s2.freeSlot core i | none => s2
    (s3.discardDirty b x.g).modTroop b t fun x =>
      { x with killed := true, active := none, entered := false, slot := none, queue := [], names := [] }

/-- KillTroop (R302): the record names the troop, and the thread where one trapped. -/
def State.killTroop (s : State) (b t : Nat) (o : Origin) (sub cause : Nat) (addr : BitVec 57) (info : Word) : State :=
  (s.contextError b o sub cause addr info 1).endTroop b t

/-! ### Taking a trap -/

/-- THENTRY of a band's context names a handler (R299). -/
def State.hasHandler (s : State) (b : Nat) : Bool :=
  match (s.band? b).bind fun x => s.ctx? x.asid with
  | some c => c.thentry != 0xFFFFFFFF#32
  | none => false

/-- A thread leaves what it does for an asynchronous trap (R298): a nap keeps its remainder, a waiting BOR is marked, a
sleeper is removed; the others are executed again. -/
def State.interrupt (s : State) (t : Tid) : State :=
  let pc := s.pcOf t
  let s1 := s.leaveBundle t
  match s.statusOf t with
  | .waiting (.nap u) => s1.modThread t fun th => { th with napLeft := some (u - s.clock) }
  | .waiting (.napHeld n) => s1.modThread t fun th => { th with napLeft := some n }
  | .waiting (.borrow g) => s1.modThread t fun th => { th with borWait := some g.val }
  | .waiting (.waitw id) => { s1 with sleepers := s1.sleepers.filter fun x => x.id != id }
  | _ => s1.modThread t fun th => { th with pc := pc }

/-- A thread of an event waits for its entry: a thread in handler mode, or already held by an event, goes on as it is
until then (R301). -/
def State.holdFor (s : State) (t : Tid) (ev : TrapEvent) : State :=
  match s.statusOf t with
  | .exited => s
  | .waiting (.trapEntry _) => s
  | _ =>
    if ev.precise then (s.leaveBundle t).makeWait t ev.tpc ev.tnpc (.trapEntry ev.id)
    else if s.inHandler t then s
    else
      let s1 := s.interrupt t
      let pc := ((s1.thread? t).map (·.pc)).getD ⟨0, 0⟩
      s1.makeWait t pc pc (.trapEntry ev.id)

/-- The threads of an event. -/
def TrapEvent.tids (ev : TrapEvent) (b t : Nat) : List Tid := ev.lanes.map fun l => ⟨b, t, l.lane⟩

/-- One thread enters its handler (R299): its trap registers are loaded, depth is 1, and the PC is at THENTRY. -/
def State.enterThread (s : State) (b t slot : Nat) (ev : TrapEvent) (l : TrapLane) : State :=
  let tid : Tid := ⟨b, t, l.lane⟩
  match s.statusOf tid with
  | .exited => s
  | _ =>
    let s0 := if ev.precise then s else s.holdFor tid ev
    let here := ((s0.thread? tid).map (·.pc)).getD ev.tpc
    let entry := ((s0.ctxOf tid).map (·.thentry)).getD 0
    let at_ := ((s0.thread? tid).map (·.entering)).getD false
    let regs : TrapRegs :=
      { async := !ev.precise, slot := slot, cause := ev.cause, addr := l.addr, info := l.info,
        tpc := if ev.precise then ev.tpc else here, tnpc := if ev.precise then ev.tnpc else here,
        cf := ev.cf, ck := ev.ck, op := ev.op, moved := false,
        enter := at_ || ev.cause == 0x02, enterN := (at_ && !ev.precise) || ev.cause == 0x02 }
    (s0.modThread tid fun th => { th with depth := true, trap := regs, entering := true }).makeReady tid ⟨entry, 0⟩

/-- The threads of a troop's current event enter once its slot is taken and their flags are clear (R299): the slot's
registers are zeroed in every lane. -/
def State.enterIfClear (s : State) (b t : Nat) : State :=
  match s.troop? b t with
  | none => s
  | some x =>
    match x.active, x.slot with
    | some ev, some i =>
      if x.entered || (ev.tids b t).any (fun u => s.flagsSet u 0xFFF) then s
      else
        let core := s.coreOf ⟨b, t, 0⟩
        let s1 := s.modSlot core i fun sl => { sl with regs := [], poison := [] }
        let s2 := ev.lanes.foldl (fun s l => s.enterThread b t i ev l) s1
        s2.modTroop b t fun x => { x with entered := true }
    | _, _ => s

/-- The troops of a core whose event waits for a slot, in the order of their events (R299). -/
def State.slotQueue (s : State) (core : Nat) : List (Nat × Nat) :=
  let ws := (s.coreTroops core).filterMap fun e =>
    match s.troop? e.1 e.2 with
    | some x => match x.active, x.slot with | some ev, none => some (e, ev.id) | _, _ => none
    | none => none
  (sortBy (fun w => w.2) ws).map (·.1)

/-- Free trap slots go to the waiting events in FIFO order; events whose threads' flags are clear enter (R299). -/
def State.progressTraps (s : State) (core : Nat) : State :=
  let s1 := (s.slotQueue core).foldl (fun s e =>
    match s.slots.find? fun x => x.core == core && x.owner.isNone, s.troop? e.1 e.2 with
    | some sl, some x =>
      match x.active with
      | some ev =>
        (s.modSlot core sl.idx fun y => { y with owner := some (e.1, e.2, ev.id) }).modTroop e.1 e.2 fun x =>
          { x with slot := some sl.idx }
      | none => s
    | _, _ => s) s
  (s1.coreTroops core).foldl (fun s e => s.enterIfClear e.1 e.2) s1

/-- An event becomes the one whose handler runs (R299); without a handler the troop is killed with SUB 3. -/
def State.startEvent (s : State) (b t : Nat) (ev : TrapEvent) : State :=
  let l := ev.lanes.head?
  let o : Origin := { s.originTroop b t with lane := l.map (·.lane), pc := some ev.tpc }
  if !s.hasHandler b then
    s.killTroop b t o 3 ev.cause ((l.map (·.addr)).getD 0) ((l.map (·.info)).getD 0)
  else
    let s1 := (ev.tids b t).foldl (fun s u => s.holdFor u ev) s
    (s1.modTroop b t fun x => { x with active := some ev, entered := false, slot := none }).progressTraps
      (s.coreOf ⟨b, t, 0⟩)

/-- The result of offering an event to a troop: taken, or no room behind four queued events (R301). -/
def Troop.room (x : Troop) : Bool := x.active.isNone || x.queue.length < 4

/-- TrapEnter of R299: no handler kills the troop with SUB 3, a precise trap of a handler-mode thread kills it with
SUB 1, and an event behind another is queued. A fifth precise event holds its threads (R301). -/
def State.takeTrap (s : State) (b t : Nat) (ev : TrapEvent) : State :=
  match s.troop? b t with
  | none => s
  | some x =>
    let l := ev.lanes.head?
    let o : Origin := { s.originTroop b t with lane := l.map (·.lane), pc := some ev.tpc }
    let addr := (l.map (·.addr)).getD 0
    let info := (l.map (·.info)).getD 0
    if !s.hasHandler b then s.killTroop b t o 3 ev.cause addr info
    else if ev.precise && (ev.tids b t).any s.inHandler then s.killTroop b t o 1 ev.cause addr info
    else if x.active.isNone && x.queue.isEmpty then s.startEvent b t ev
    else if x.queue.length < 4 then
      ((ev.tids b t).foldl (fun s u => s.holdFor u ev) s).modTroop b t fun x => { x with queue := x.queue ++ [ev] }
    else if ev.precise then
      (ev.tids b t).foldl (fun s u => (s.leaveBundle u).makeWait u ev.tpc ev.tpc .trapRoom) s
    else s

/-- A precise trap of one thread, before threads of one troop are joined into events. -/
structure Raised where
  tid : Tid
  cause : Nat
  info : Word
  addr : BitVec 57
  deriving DecidableEq, Repr

/-- The CF registers of a precise COPY_FAULT (R222, R227), whose record names no element yet; `hnd` is CFHND. -/
def preciseCf (r : Raised) (hnd : Word) : List Word :=
  if r.cause = 0x0B then
    [r.info, hnd, BitVec.ofNat 32 r.addr.toNat, BitVec.ofNat 32 (r.addr.toNat / 2 ^ 32), 0, 0, 0, 0, 0]
  else []

/-- The trap events of one issue: the threads of one troop that trap with one cause form one event (R297), taken in
increasing order of their lowest lane (R301). COPY_FAULTs are counted (R227). -/
def State.raiseAll (s : State) (tpc tnpc : Pc) (hnd : Word) (rs : List Raised) : State :=
  let keys := (rs.map fun r => (r.tid.band, r.tid.troop, r.cause)).eraseDups
  keys.foldl (fun s k =>
    let mine := rs.filter fun r => r.tid.band == k.1 && r.tid.troop == k.2.1 && r.cause == k.2.2
    let ev : TrapEvent := ⟨s.fresh, k.2.2, true, tpc, tnpc, mine.map fun r => ⟨r.tid.lane, r.info, r.addr⟩,
      (mine.head?.map fun r => preciseCf r hnd).getD [], [], none⟩
    let s1 := if k.2.2 = 0x0B then
        s.modCtx (((s.band? k.1).map (·.asid)).getD 0) fun c => { c with cfcount := min 0xFFFFFFFF (c.cfcount + mine.length) }
      else s
    s1.next.takeTrap k.1 k.2.1 ev) s

/-- The event of a troop ends when its last thread has returned or exited: the slot is freed, the oldest queued event
enters, and threads held for room go on (R301, R304). -/
def State.endEvent (s : State) (b t : Nat) : State :=
  match s.troop? b t with
  | none => s
  | some x =>
    match x.active with
    | none => s
    | some ev =>
      if x.entered && (ev.tids b t).all (fun u => !s.inHandler u || s.statusOf u == .exited) then
        let core := s.coreOf ⟨b, t, 0⟩
        let s1 := match x.slot with | some i => s.freeSlot core i | none => s
        let s2 := s1.modTroop b t fun x => { x with active := none, entered := false, slot := none }
        let s3 := match x.queue with
          | [] => s2
          | e :: rest => (s2.modTroop b t fun x => { x with queue := rest }).startEvent b t e
        s3.progressTraps core
      else s

/-! ### Returning from a trap -/

/-- Which PC a TRET goes to (R304). -/
def TrapRegs.target (r : TrapRegs) : TretKind → Pc
  | .skip => r.tnpc
  | _ => r.tpc

/-- What TRET does to a suspended operation: retry resumes it, skip and migrate complete it unmoved (R226, R304). -/
def State.returnOp (s : State) (k : TretKind) (o : Option Nat) : State :=
  match o with
  | none => s
  | some o => s.modOp o fun x =>
    if x.state = .suspended then { x with state := if k = .retry then .running else .skipped, xfail := none } else x

/-- TRET of one handler-mode thread whose flags are clear (R304). A migrate marks the band, and after UNSUPPORTED adds
the missing feature to its mask; its thread goes on at TPC after the restore (R305). -/
def State.trapReturn (s : State) (t : Tid) (k : TretKind) : State :=
  match s.thread? t with
  | none => s
  | some th =>
    let r := th.trap
    let s1 := (s.returnOp k r.op).modThread t fun th =>
      { th with depth := false, trap := .zero, entering := if k = .skip then r.enterN else r.enter, napLeft := if r.moved then none else th.napLeft,
                borWait := if r.moved then none else th.borWait }
    let s2 := if k = .migrate then
        let ev := (((s.troop? t.band t.troop).bind (·.active)).map (·.id)).getD 0
        s1.modBand t.band fun b => { b with mig := true, migEvent := (t.troop, ev), migBit := if r.cause = 0x03 then some r.info.toNat else b.migBit }
      else s1
    let s3 := if k = .migrate then (s2.leaveBundle t).makeWait t r.tpc r.tpc .migrate
      else (s2.leaveBundle t).makeReady t (r.target k)
    s3.endEvent t.band t.troop

/-! ### Asynchronous traps -/

/-- An asynchronous trap is raised for a thread and waits for its delivery (R298). -/
def State.raiseAsync (s : State) (t : Tid) (cause : Nat) (info : Word) (addr : BitVec 57) (cf ck : List Word)
    (op : Option Nat) : State :=
  { s with asyncs := s.asyncs ++ [⟨s.fresh, t, cause, info, addr, cf, ck, op⟩], fresh := s.fresh + 1 }

/-- The UNDELIVERED record of an asynchronous trap whose thread has exited (R298, R307). -/
def State.undelivered (s : State) (a : AsyncTrap) : State :=
  let o : Origin := { s.originOf a.tid with pc := none }
  let w (i : Nat) : Word := (a.cf[i]?).getD 0
  let more := if a.cf.isEmpty then [a.info] else [w 0, w 1, w 4, w 5, w 6, w 7]
  let s1 := s.faultRecord (s.asidOf a.tid)
    (recordWords 5 a.cause 0 o a.addr a.info (s.gridseqOf a.tid.band) more 0)
  s1.returnOp .skip a.op

/-- An asynchronous trap may be delivered now: its thread lives, there is room behind the troop's events, and no pending
trap of the thread has a lower cause code (R298, R301). -/
def State.asyncReady (s : State) (a : AsyncTrap) : Bool :=
  match s.troop? a.tid.band a.tid.troop with
  | none => false
  | some x =>
    (x.active.isNone && x.queue.isEmpty || x.queue.length < 4) &&
      !(s.asyncs.any fun b => b.tid == a.tid && (b.cause < a.cause || (b.cause == a.cause && b.id < a.id)))

/-- Delivery of one asynchronous trap (R298): an event of its own, or an UNDELIVERED record; for CHUNK_CHECK the record
already written stands (R294). -/
def State.deliverAsync (s : State) (a : AsyncTrap) : State :=
  let s1 := { s with asyncs := s.asyncs.filter fun b => b.id != a.id }
  if s.statusOf a.tid = .exited then (if a.cause = 0x0F then s1 else s1.undelivered a)
  else
    let ev : TrapEvent := ⟨a.id, a.cause, false, s.pcOf a.tid, s.pcOf a.tid, [⟨a.tid.lane, a.info, a.addr⟩],
      a.cf, a.ck, a.op⟩
    s1.takeTrap a.tid.band a.tid.troop ev

end Sys2Proof.Machine
end

