-- ==== Sys2Proof/Machine/Access.lean ====
section
/-! DEFINITION. Region registers and single accesses: the check of R159 and R160, AccessAddress of R193, the site and
the new value of an atomic (R196, R197), accesses in flight and their order (R194, R198), the undo log (R315), and what
releases and acquires do (R252). -/

namespace Sys2Proof.Machine

/-! ### Cause codes (R296) -/

/-- ILLEGAL_OP -/
def cIllegal : Nat := 0x01
/-- CLAUSE_FORM -/
def cClause : Nat := 0x02
/-- UNSUPPORTED -/
def cUnsupported : Nat := 0x03
/-- PRIV -/
def cPriv : Nat := 0x04
/-- BORROW_ACCESS -/
def cBorrowAccess : Nat := 0x05
/-- BORROW_STATE -/
def cBorrowState : Nat := 0x06
/-- DEED_REFUSED -/
def cDeedRefused : Nat := 0x07
/-- ALIGN -/
def cAlign : Nat := 0x08
/-- XLATE -/
def cXlate : Nat := 0x09
/-- TILE_STATE -/
def cTileState : Nat := 0x0A
/-- COPY_FAULT -/
def cCopyFault : Nat := 0x0B
/-- NEST_DEPTH -/
def cNestDepth : Nat := 0x0D
/-- SUSPECT -/
def cSuspect : Nat := 0x0E
/-- CHUNK_CHECK -/
def cChunkCheck : Nat := 0x0F
/-- SW_TRAP -/
def cSwTrap : Nat := 0x12
/-- REGS_EXHAUSTED -/
def cRegsExhausted : Nat := 0x14

/-- A fault of one thread: its cause, TINFO and TADDR. -/
structure Fail where
  cause : Nat
  info : Word
  addr : BitVec 57
  deriving DecidableEq, Repr

/-- A fault without an address. -/
def Fail.plain (cause info : Nat) : Fail := ⟨cause, BitVec.ofNat 32 info, 0⟩

/-! ### Region registers -/

/-- A register of a troop (g0 to g7) or of its band (g8 to g15). -/
def State.reg (s : State) (b t : Nat) (g : GReg) : Region :=
  if g.val < 8 then ((s.troop? b t).bind fun x => x.g[g.val]?).getD Region.none
  else ((s.band? b).bind fun x => x.g[g.val - 8]?).getD Region.none

/-- The register as a thread names it. -/
def State.regT (s : State) (t : Tid) (g : GReg) : Region := s.reg t.band t.troop g

/-- The state with a register changed. -/
def State.modReg (s : State) (b t : Nat) (g : GReg) (f : Region → Region) : State :=
  if g.val < 8 then s.modTroop b t fun x => { x with g := modAt x.g g.val f }
  else s.modBand b fun x => { x with g := modAt x.g (g.val - 8) f }

/-- The state with a register set, as a thread names it. -/
def State.setReg (s : State) (t : Tid) (g : GReg) (r : Region) : State := s.modReg t.band t.troop g fun _ => r

/-- The holders of a register span cores (R158): the sharing level is then the die's L2. -/
def State.spans (s : State) (b : Nat) (g : GReg) : Bool :=
  8 ≤ g.val && ((s.band? b).map fun x => decide (1 < x.ncores)).getD false

/-- The cores of a register's holders. -/
def State.holderCores (s : State) (b t : Nat) (g : GReg) : List Nat :=
  match s.band? b with
  | none => []
  | some x => if g.val < 8 then [x.coreOf t] else x.cores

/-- The access classes of R159. -/
inductive Access where
  | load | store | atomic | homeOnly | lookup
  deriving DecidableEq, Repr

/-- The kind of a register permits a class (R159). -/
def Region.permits (r : Region) : Access → Bool
  | .load => r.kind != .a
  | .store => r.kind = .e
  | .atomic => r.kind != .s
  | .homeOnly => r.kind = .a && r.space = .region
  | .lookup => true

/-- Two byte ranges meet. -/
def meets (a la b lb : Int) : Bool := a < b + lb && b < a + la

/-- An offset as TADDR carries it: signed 57 bits (R321). -/
def offAddr (off : Int) : BitVec 57 := BitVec.ofInt 57 off

/-- RegionCheck of R160, on the register; none where it passes. -/
def Region.check (r : Region) (off size : Int) (cls : Access) : Option Fail :=
  if r.state = .refused then some ⟨cDeedRefused, BitVec.ofNat 32 r.sub, offAddr off⟩
  else if r.state ≠ .held then some ⟨cBorrowState, 1, offAddr off⟩
  else if off < 0 || (r.len : Int) < off + size then some ⟨cBorrowAccess, 1, offAddr off⟩
  else if !r.permits cls then some ⟨cBorrowAccess, 2, offAddr off⟩
  else if r.kids.any (fun k => meets off size ((k.base : Int) - r.base) k.len) then
    some ⟨cBorrowAccess, 3, offAddr off⟩
  else .none

/-! ### Addresses -/

/-- The offset of a memory operand (R193): the index reads as unsigned, OFF as signed. -/
def State.offsetOf (s : State) (m : Mods) (t : Tid) (a : VReg) (off : Int) : Int := ((s.srcA m t a).toNat : Int) + off

/-- What translating an address at issue answers: a place, a fault, or the need of a page walk (R188, R189). -/
inductive Located where
  | at (l : Loc)
  | fail (f : Fail)
  | walk
  deriving DecidableEq, Repr

/-- Two addresses of a context lie on one page (R34): where no leaf maps the first, pages count as 4 KiB (log 25). -/
def State.samePage (s : State) (asid va vb : Nat) : Bool :=
  match s.walkVa asid va with
  | .ok (e, _) => e.base ≤ vb && vb < e.base + e.size
  | .error _ => va / 4096 == vb / 4096

/-- A page walk is joined or started (R189): walks of one page of one ASID on one die are merged; a thirty-third waits. -/
def State.joinWalk (s : State) (core asid va : Nat) : State × Nat :=
  let die := dieOf core
  match s.walks.find? fun w => w.die == die && w.asid == asid && s.samePage asid w.va va with
  | some w => (s, w.id)
  | none =>
    let busy := (s.walks.filter fun w => w.die == die && w.running).length
    let w : Walk := ⟨s.fresh, die, core, asid, va, busy < Config.walkSlots⟩
    let s1 := { s with walks := s.walks ++ [w], fresh := s.fresh + 1 }
    (s1.modCore core fun c => c.count asid fun k => { k with walks := satInc k.walks }, s.fresh)

/-- TINFO and TADDR of a failed translation (R189). -/
def XlateFail.fail (f : XlateFail) (va : Nat) : Fail := ⟨cXlate, f.info, BitVec.ofNat 57 va⟩

/-- A first-level TLB miss of a core is counted (R204). -/
def State.countMiss (s : State) (core asid : Nat) : State :=
  s.modCore core fun c => c.count asid fun k => { k with tlbmiss := satInc k.tlbmiss }

/-- The walk that the instruction at the issuing bundle's PC made for an address has failed (R189). -/
def State.walkFailed (s : State) (va : Nat) (u : Use) (sys : Bool) : Option XlateFail :=
  (s.bundle?.bind fun b => b.faults.find? fun e => e.1.va == va && e.1.use == u && e.1.sys == sys).map (·.2)

/-- Translate of R193 for an access of a core: what a walk for it has found, a first-level hit, a second-level hit, which
fills the first, or the need of a walk. A second-level hit counts in TLBMISS (R204); a miss of both counts when its walk
begins (`State.startWalk`). -/
def State.translate (s : State) (core asid va : Nat) (u : Use) (sys : Bool) : State × Located :=
  if 2 ^ 57 ≤ va then (s, .fail ((XlateFail.mk 9 0).fail va))
  else
    let hit (s : State) (e : TlbEntry) : State × Located :=
      match useFail e u sys 0 with
      | some f => (s, .fail (f.fail va))
      | none => (s, .at (e.loc va))
    match s.walkFailed va u sys with
    | some f => (s, .fail (f.fail va))
    | none =>
      match s.tlb1 core asid va with
      | some e => hit s e
      | none =>
        match s.tlb2 (dieOf core) asid va with
        | some e => hit ((s.countMiss core asid).fillTlb core e) e
        | none => (s, .walk)

/-- The instruction at a bundle's PC waits for a walk for an address (R189, log 23). -/
def State.startWalk (s : State) (b : Bundle) (va : Nat) (u : Use) (sys : Bool) : State :=
  let (s1, id) := (s.countMiss b.core b.asid).joinWalk b.core b.asid va
  s1.modBundle b.id fun x => { x with walks := x.walks ++ [⟨id, va, u, sys⟩] }

/-- An access located by AccessAddress (R193): its address, place and register. -/
structure Target where
  va : Nat
  loc : Loc
  reg : Region
  deriving DecidableEq, Repr

/-- What AccessAddress answers. -/
inductive Reached where
  | ok (x : Target)
  | fail (f : Fail)
  | walk (va : Nat)
  deriving DecidableEq, Repr

/-- Translation of a checked access of a thread. -/
def State.reach (s : State) (t : Tid) (u : Use) (va : Nat) (r : Region) : State × Reached :=
  if r.space = .bench then
    match s.band? t.band with
    | none => (s, .fail (Fail.plain cBorrowState 1))
    | some b => let e := b.benchAt va; (s, .ok ⟨va, .bench e.1 e.2, r⟩)
  else
    match s.translate (s.coreOf t) (s.asidOf t) va u (s.inHandler t) with
    | (s1, .at l) => (s1, .ok ⟨va, l, r⟩)
    | (s1, .fail f) => (s1, .fail f)
    | (s1, .walk) => (s1, .walk va)

/-- AccessAddress of R193, of a register as it stands before the issue (R98): the region check, alignment, then the bench place
or translation. -/
def State.accessAddress (s : State) (t : Tid) (r : Region) (off : Int) (size align : Nat) (cls : Access) (u : Use) :
    State × Reached :=
  match r.check off size cls with
  | some f => (s, .fail f)
  | none =>
    let va : Int := r.base + off
    if va % align != 0 then (s, .fail ⟨cAlign, 0, offAddr off⟩) else s.reach t u va.toNat r

/-- The site of an access (R185, R197): the bank, the home under A, and under E and S the L1, but the die's L2 for an
atomic under E whose holders span cores. -/
def State.siteOf (s : State) (t : Tid) (g : GReg) (x : Target) (atomic : Bool) : Site :=
  match x.loc with
  | .bench .. => .bank
  | .mem .. =>
    if x.reg.kind = .a then .home
    else if atomic && s.spans t.band g then .l2 (dieOf (s.coreOf t))
    else .l1 (s.coreOf t)

/-! ### The undo log -/

/-- A line's contents at a level (R315). -/
def State.lineAt (s : State) (core asid : Nat) (site : Site) (h : HomeId) (line : Nat) : BitVec 1024 :=
  match site with
  | .l1 c =>
    match s.l1Line? c line with
    | some l => l.data
    | none => (s.l2Data (dieOf c) asid line h).1
  | .l2 d => (s.l2Data d asid line h).1
  | _ => (s.l2Data (dieOf core) asid line h).1

/-- Undo-log lines in use on a die. -/
def State.undoUsed (s : State) (die : Nat) : Nat :=
  ((s.shadows.filter fun x => x.die == die).map fun x => x.undo.length).sum

/-- The first write of an interval to a line held E logs its old contents; without a free line the interval is
committed and its entries are freed (R315). -/
def State.logLine (s : State) (band core : Nat) (site : Site) (h : HomeId) (line : Nat) : State :=
  match s.shadows.find? fun x => x.band.id == band with
  | none => s
  | some sh =>
    if sh.undo.any (·.line == line) then s
    else if Config.undoLines ≤ s.undoUsed sh.die then
      ({ s with shadows := s.shadows.filter fun x => x.band.id != band } : State).modBand band fun b =>
        { b with hasPoint := false, committed := true, undoOver := true }
    else
      let u : Undo := ⟨line, site, h, s.lineAt core sh.band.asid site h line⟩
      { s with shadows := modIf (fun x => x.band.id == band) (fun x => { x with undo := u :: x.undo }) s.shadows }

/-- The log entry of a write at a place, where the write is to region space held E. -/
def State.logWrite (s : State) (band core : Nat) (site : Site) (loc : Loc) : State :=
  match loc, site with
  | .mem _ .peer, _ => s
  | .mem pa h, .l1 _ => s.logLine band core site h (lineKey h pa)
  | .mem pa h, .l2 _ => s.logLine band core site h (lineKey h pa)
  | _, _ => s

/-- The first irrevocable act of an interval commits it, in both members of a pair (R316). -/
def State.commit (s : State) (band : Nat) : State :=
  let bs := band :: (((s.band? band).bind fun x => x.pair.map (·.2)).toList)
  let s1 : State := { s with shadows := s.shadows.filter fun x => !bs.contains x.band.id }
  bs.foldl (fun s b => s.modBand b fun x => if x.hasPoint then { x with hasPoint := false, committed := true } else x) s1

/-! ### Atomics -/

/-- BF16 addition of each element (R196). -/
def faddBf (o b : Nat) : Nat :=
  mapElems 16 (fun x y => roundToFormat ((Fmt.bf16.value x).add .rne (Fmt.bf16.value y)) .bf16 .rne false) o b 32

/-- NewValue of R196, in w = 32 or 64 bits. -/
def newValue (op : AtomOp) (w : Nat) (o b c : Nat) : Nat :=
  let so := signedOf w o
  let sb := signedOf w b
  let r := match op with
    | .add => o + b
    | .fadd => roundToFormat ((Fmt.f32.value o).add .rne (Fmt.f32.value b)) .f32 .rne false
    | .faddbf => faddBf o b
    | .smin => if sb < so then b else o
    | .smax => if so < sb then b else o
    | .umin => min o b
    | .umax => max o b
    | .and => o &&& b
    | .or => o ||| b
    | .xor => o ^^^ b
    | .exch => b
    | .cas => if o = c then b else o
    | .inc => if b ≤ o then 0 else o + 1
    | .dec => if o = 0 || b < o then b else o - 1
  r % 2 ^ w

/-- A read and write at a place as one event (R197): the old value; a poisoned word is neither used nor written
(R202). -/
def State.atomicAt (s : State) (band core asid : Nat) (site : Site) (loc : Loc) (n : Nat) (f : Nat → Nat) :
    State × Nat × Bool :=
  let (s1, o, p) := s.readSite core asid site loc n .norm
  if p then (s1, o, true) else ((s1.logWrite band core site loc).writeSite core asid site loc n (f o) .norm, o, false)

/-! ### Accesses in flight -/

/-- Two accesses touch the same bytes, or in the bench the same words (R194, R258). -/
def locMeets (a : Loc) (na : Nat) (b : Loc) (nb : Nat) : Bool :=
  match a, b with
  | .bench c x, .bench d y => c == d && x / 4 ≤ (y + nb - 1) / 4 && y / 4 ≤ (x + na - 1) / 4
  | .mem x h, .mem y k => (h == .peer) == (k == .peer) && meets x na y nb
  | _, _ => false

/-- Bytes of a load (R193). -/
def ldBytes : LdSize → Nat
  | .u8 | .s8 => 1 | .u16 | .s16 => 2 | .w => 4 | .d => 8 | .q => 16

/-- Bytes of a store. -/
def stBytes : StSize → Nat
  | .b => 1 | .h => 2 | .w => 4 | .d => 8 | .q => 16

/-- The memory place and size of a pending operation. -/
def Pend.place : Pend → Option (Loc × Nat)
  | .load l _ sz _ _ => some (l, ldBytes sz)
  | .atom l _ _ _ w _ _ _ _ => some (l, if w then 8 else 4)
  | .atomc l .. => some (l, 4)
  | .atomw l .. => some (l, 4)
  | _ => none

/-- The operation is an acquire (R251). -/
def Pend.acquires : Pend → Bool
  | .atom _ _ _ _ _ _ _ _ acq => acq.isSome
  | .atomc _ _ _ _ _ _ _ _ acq => acq
  | .atomw _ _ _ _ acq => acq
  | _ => false

/-- Bytes of an access in flight. -/
def FlightAct.size : FlightAct → Nat
  | .store n _ => n
  | .red _ w _ => if w then 8 else 4

/-- The access `id` of a thread must follow an older access: one of the thread's own acquires, or one to the same bytes
by the thread or in the same issue (R194, R198, R252). -/
def State.blocked (s : State) (id : Nat) (t : Tid) (issue : Nat) (loc : Loc) (n : Nat) : Bool :=
  s.pending.any (fun p => p.id < id &&
      ((p.tid == t && p.what.acquires) ||
       ((p.tid == t || p.issue == issue) && (p.what.place.map fun e => locMeets e.1 e.2 loc n).getD false))) ||
    s.flights.any fun f => f.id < id && (f.tid == t || f.issue == issue) && locMeets f.loc f.act.size loc n

/-- One access in flight is performed at its site (R249). -/
def State.performFlight (s : State) (f : Flight) : State :=
  let s0 := { s with flights := s.flights.filter fun x => x.id != f.id }
  let core := s0.coreOf f.tid
  match f.act with
  | .store n d =>
    (s0.logWrite f.tid.band core f.site f.loc).writeSite core f.asid f.site f.loc n d.toNat f.pol
  | .red op w b =>
    let bits := if w then 64 else 32
    let (s1, _, bad) := s0.atomicAt f.tid.band core f.asid f.site f.loc (if w then 8 else 4)
      fun o => newValue op bits o (b.toNat % 2 ^ bits) 0
    if f.site = .home && !bad then s1.commit f.tid.band else s1

/-- The accesses in flight that pass a test are performed, oldest first. -/
def State.performAll (s : State) (p : Flight → Bool) : State :=
  (s.flights.filter p).foldl (fun s f => s.performFlight f) s

/-! ### Releases and acquires -/

/-- What a release at a scope still waits for (R252): accesses of the thread not yet performed, older child RTNs, and
from `.device` on older top-level RTNs. -/
def State.orderClear (s : State) (t : Tid) (sc : Scope) : Bool :=
  match sc with
  | .thread => true
  | _ =>
    !(s.flights.any fun f => f.tid == t) &&
    !(s.pending.any fun p => p.tid == t && p.what.place.isSome) &&
    !(s.returns.any fun r => r.tid == t && r.stage != .complete &&
        (!r.reg.top || sc == .device || sc == .system))

/-- The ranges held through registers of a band whose holders span cores, as (base, length). -/
def State.spanRanges (s : State) (b : Nat) : List (Nat × Nat) :=
  match s.band? b with
  | none => []
  | some x =>
    if x.ncores ≤ 1 then []
    else (x.g.filter fun r => r.state = .held && r.space != .bench).map fun r => (r.base, r.len)

/-- The lines of a context in a core's L1 that pass a test. -/
def State.l1Lines (s : State) (core : Nat) (p : Line → Bool) : List Nat :=
  match s.core? core with
  | none => []
  | some c => (c.l1.filter p).map (·.line)

/-- A physical line lies in one of the ranges of a context (R201: caches are physically tagged). -/
def State.inRanges (s : State) (asid : Nat) (rs : List (Nat × Nat)) (line : Nat) : Bool :=
  rs.any fun r => (s.rangeLines asid r.1 r.2).contains line

/-- The dirty L1 lines of a thread's core in ranges shared across cores go to the L2: what a release from `.band` on
needs (R252). -/
def State.releaseLines (s : State) (t : Tid) (sc : Scope) : State :=
  match sc with
  | .thread | .troop | .core => s
  | _ =>
    let rs := s.spanRanges t.band
    let core := s.coreOf t
    (s.l1Lines core fun l => l.dirty != 0 && s.inRanges (s.asidOf t) rs l.line).foldl
      (fun s l => s.writeDownL1 core l) s

/-- Self-invalidation, in a core's L1, of the ranges that a band holds through registers whose holders span cores (R252). -/
def State.acquireOn (s : State) (b core : Nat) : State :=
  let rs := s.spanRanges b
  let asid := ((s.band? b).map (·.asid)).getD 0
  (s.l1Lines core fun l => s.inRanges asid rs l.line).foldl (fun s l => s.invalL1 core l) s

/-- The acquire column of R252. -/
def State.acquireLines (s : State) (t : Tid) (sc : Scope) : State :=
  match sc with
  | .thread | .troop | .core => s
  | _ => s.acquireOn t.band (s.coreOf t)

end Sys2Proof.Machine
end

