-- ==== Sys2Proof/Machine/Regions.lean ====
section
/-! DEFINITION. Borrows (spec/09): pieces and deed homes, requests, grants and refusals at the Deed Tables, what a grant
and a return do to the caches (spec/10 R186), and the rebuild of a lost entry (R181, R320). -/

namespace Sys2Proof.Machine

/-! ### Pieces and messages -/

/-- The deed home of each block of a range, in address order (R163). -/
def State.blockHomes (s : State) (asid base len : Nat) : List (Nat × Option Nat) :=
  let first := base / 2 ^ 21
  let n := (base + len - 1) / 2 ^ 21 - first + 1
  (List.range n).map fun k => (first + k, s.deedHome asid (first + k))

/-- The pieces of a range: maximal runs of consecutive blocks with one home, cut to the range (R164). -/
def joinPieces : List (Nat × Nat) → List Piece → List Piece
  | [], acc => acc.reverse
  | (blk, h) :: r, [] => joinPieces r [⟨h, blk * 2 ^ 21, 2 ^ 21⟩]
  | (blk, h) :: r, p :: acc =>
    if p.home = h then joinPieces r ({ p with len := p.len + 2 ^ 21 } :: acc)
    else joinPieces r (⟨h, blk * 2 ^ 21, 2 ^ 21⟩ :: p :: acc)

/-- A piece cut to a range. -/
def Piece.cut (p : Piece) (base len : Nat) : Piece :=
  let lo := max p.base base
  let hi := min (p.base + p.len) (base + len)
  { p with base := lo, len := hi - lo }

/-- The pieces of a range, or the subcode NOMAP (4) or MIXED (5) with which the BOR is refused (R164, R166). -/
def State.pieces (s : State) (asid base len : Nat) : Except Nat (List Piece) :=
  let hs := s.blockHomes asid base len
  if hs.any (fun e => e.2.isNone) then .error 4
  else
    let ks := hs.map fun e => (e.1, e.2.getD 0)
    if ks.any (fun e => 5 ≤ e.2) && ks.any (fun e => e.2 < 5) then .error 5
    else .ok ((joinPieces ks []).map fun p => p.cut base len)

/-- A message is sent (R177). -/
def State.send (s : State) (home : Nat) (who : Asker) (body : MsgBody) : State :=
  { s with msgs := s.msgs ++ [⟨s.fresh, home, who, body⟩], fresh := s.fresh + 1 }

/-- A message travels from a home to a requester. -/
def MsgBody.toHolder : MsgBody → Bool
  | .dgrant .. | .drefuse .. | .drelack .. | .dquery .. => true
  | _ => false

/-- A message may be delivered: no older message of its register goes the same way at its home (R177), nor between modules
any older ownership message to or from the same one (R343). -/
def State.deliverable (s : State) (m : Msg) : Bool :=
  let abroad (w : Asker) : Bool := match w with | .peer _ => true | _ => false
  !(s.msgs.any fun x => x.id < m.id && x.body.toHolder == m.body.toHolder &&
    ((x.home == m.home && (5 ≤ m.home || x.who == m.who)) || (x.who == m.who && abroad m.who)))

/-- A message by number, when it may be delivered. -/
def State.msg? (s : State) (id : Nat) : Option Msg := (s.msgs.find? (·.id == id)).filter s.deliverable

/-- A message leaves the fabric. -/
def State.dropMsg (s : State) (id : Nat) : State := { s with msgs := s.msgs.filter fun m => m.id != id }

/-- The deed id of an entry (R163): 5 stands for every peer. -/
def deedId (home idx : Nat) : Nat := min home 5 * 2 ^ 17 + idx

/-! ### The register a borrow belongs to -/

/-- The other member of a redundant pair (R310). -/
def State.partner (s : State) (b : Nat) : Option Nat := (s.band? b).bind fun x => x.pair.map (·.2)

/-- A band is member 1 of a pair: what takes effect once is left to member 0 (R180, R312). -/
def State.second (s : State) (b : Nat) : Bool := ((s.band? b).bind fun x => x.pair.map fun p => p.1 == 1).getD false

/-- A register of a troop or band changed in a band and in its pair partner (R180). -/
def State.modAskerReg (s : State) (who : Asker) (f : Region → Region) : State :=
  let both (b t : Nat) (g : GReg) : State :=
    let s1 := s.modReg b t g f
    match s.partner b with
    | some p => s1.modReg p t g f
    | none => s1
  match who with
  | .troop b t g => both b t g
  | .band b g => both b 0 g
  | _ => s

/-- The asker that a thread's register is. -/
def askerOf (t : Tid) (g : GReg) : Asker := if g.val < 8 then .troop t.band t.troop g else .band t.band g

/-- The bands whose registers an asker fills. -/
def State.askerBands (s : State) (who : Asker) : List Nat :=
  match who with
  | .troop b _ _ => b :: (s.partner b).toList
  | .band b _ => b :: (s.partner b).toList
  | _ => []

/-- The die on which a band lives; none while it is on no core. -/
def Band.dieNow (b : Band) : Option Nat :=
  if b.state = .resident then b.cores.head?.map dieOf else none

/-- The holder cores of an asker's register. -/
def State.askerCores (s : State) (who : Asker) : List Nat :=
  let go (t : Nat) (g : GReg) : List Nat :=
    ((s.askerBands who).map fun b =>
      if ((s.band? b).map fun x => decide (x.state = .resident)).getD false then s.holderCores b t g else []).flatten
  match who with
  | .troop _ t g => go t g
  | .band _ g => go 0 g
  | _ => []

/-- The requester as a DREQ names it (R177): for the dispatcher the base die, for another module its number. -/
def State.requester (s : State) (who : Asker) : Holder :=
  let of (b t : Nat) (g : GReg) : Holder :=
    let core := ((s.band? b).map fun x => x.coreOf t).getD 0
    ⟨dieOf core, core, b, g⟩
  match who with
  | .troop b t g => of b t g
  | .band b g => of b 0 g
  | .grid n => ⟨4, 0, n, 15⟩
  | .peer m => ⟨5, 0, m, 0⟩

/-! ### What grants and returns do to the caches -/

/-- Self-invalidation of a range on cores and their dies (R186, R354): at a grant of S or E. -/
def State.invalRange (s : State) (cores : List Nat) (lines : List Nat) : State :=
  let s1 := cores.foldl (fun s c => lines.foldl (fun s l => s.invalL1 c l) s) s
  (cores.map dieOf).eraseDups.foldl (fun s d => lines.foldl (fun s l => s.invalL2 d l) s) s1

/-- The lines of a context's range that some cache holds. -/
def State.cachedLines (s : State) (asid base len : Nat) : List Nat :=
  let held := ((s.cores.map fun c => c.l1.map (·.line)).flatten ++ (s.dies.map fun d => d.l2.map (·.line)).flatten).eraseDups
  if held.isEmpty then [] else held.filter fun l => (s.rangeLines asid base len).contains l

/-- A region or peer range that a resident band on a die still holds S or E, other than through one register (R186). -/
def State.dieHolds (s : State) (die asid line : Nat) : Bool :=
  s.bands.any fun b => b.dieNow == some die && b.asid == asid &&
    ((b.g ++ (b.troops.map (·.g)).flatten).any fun r =>
      r.state = .held && r.space != .bench && r.kind != .a && (s.rangeLines asid r.base r.len).contains line)

/-- Guest lines that no borrow on the die covers any more are written down and dropped (R186). -/
def State.dropGuests (s : State) (die asid : Nat) (lines : List Nat) : State :=
  lines.foldl (fun s l => if s.dieHolds die asid l then s else s.invalL2 die l) s

/-- The unit whose register is returned has been killed: its troop, or its band for g8 to g15 (R302). -/
def State.killedUnit (s : State) (r : Return) : Bool :=
  if r.g.val < 8 then ((s.troop? r.band r.tid.troop).map (·.killed)).getD false
  else ((s.band? r.band).map (·.killed)).getD false

/-- The write-back of a returned register (R175): a child's dirty lines go to the sharing level of its parent, a
top-level E range goes to its home, where it then counts as returned (R21), and guest lines that nothing covers are dropped. A killed unit writes nothing back of
the ranges it held E (R302). -/
def State.writeBack (s : State) (r : Return) : State :=
  let reg := r.reg
  if reg.space = .bench then s
  else
    let asid := ((s.band? r.band).map (·.asid)).getD 0
    let cores := s.holderCores r.band r.tid.troop r.g
    let lines := s.cachedLines asid reg.base reg.len
    let done (s : State) : State :=
      if reg.top && reg.kind = .e && !s.unreturned.isEmpty then s.publish (s.rangeLines asid reg.base reg.len) else s
    if s.killedUnit r && reg.kind = .e then done (s.discardLines cores (cores.head?.map dieOf) lines)
    else if !reg.top then
      if s.spans r.band (Fin.ofNat 16 reg.parent) then
        cores.foldl (fun s c => lines.foldl (fun s l => s.writeDownL1 c l) s) s
      else s
    else
      let dies := (cores.map dieOf).eraseDups
      let s1 := if reg.kind = .e then
          let s1 := cores.foldl (fun s c => lines.foldl (fun s l => s.writeDownL1 c l) s) s
          dies.foldl (fun s d => lines.foldl (fun s l => s.writeDownL2 d l) s) s1
        else s
      done (dies.foldl (fun s d => s.dropGuests d asid lines) s1)

/-! ### Requests at the requester -/

/-- DEEDWAIT of a context in clocks; 0 is taken as 1 (R166, R184). -/
def State.deedWaitOf (s : State) (asid : Nat) : Nat :=
  max 1 (((s.ctx? asid).map (·.deedwait)).getD 16) * s.dev.turn

/-- The address under which a home arbitrates a piece: its VA, at a peer its window offset (R178). -/
def State.pieceKey (s : State) (asid : Nat) (p : Piece) : Nat :=
  if p.home < 5 then p.base
  else match s.walkVa asid p.base with
    | .ok (e, _) => e.paOf p.base % 2 ^ 40
    | .error _ => 0

/-- The request for the lowest piece still to be asked for (R164). A peer counts its own bound, from the arrival (R178). -/
def State.askNext (s : State) (tag : Nat) : State :=
  match s.borrows.find? (·.tag == tag) with
  | none => s
  | some b =>
    match b.todo with
    | [] => s
    | p :: _ =>
      let until_ := if p.home < 5 then b.deadline else s.clock + Config.peerDeedWait (p.home - 5)
      s.send p.home b.who (.dreq ⟨tag, b.domain, b.asid, s.requester b.who, s.pieceKey b.asid p, p.len, b.kind, b.nowait, until_⟩)

/-- A count of refused pieces (R184). -/
def State.countRef (s : State) (asid : Nat) : State := s.modCtx asid fun c => { c with borref := satInc c.borref }

/-- Where the answer of a borrow goes when it is refused. -/
def State.refuseReg (s : State) (who : Asker) (sub : Nat) : State :=
  match who with
  | .grid g =>
    let s1 := s.modGrid g fun x => { x with args := .refused sub }
    { s1 with bands := s1.bands.map fun b =>
        if b.grid = some g then
          { b with g := modAt b.g 7 fun r =>
              { Region.none with state := .refused, kind := .s, base := r.base, len := r.len, top := true, sub := sub } }
        else b }
  | _ => s.modAskerReg who fun r => { r with state := .refused, sub := sub }

/-- Granted pieces are released with no write-back (R161). -/
def State.releasePieces (s : State) (who : Asker) (kind : Kind) (fam : Nat) (got : List Grant) : State :=
  got.foldl (fun s g => s.send g.home who (.drel g.idx kind fam 0)) s

/-- A borrow starts under a number: refused at once where a block has no home or homes mix (R164), else its first piece is
asked for. -/
def State.startBorrow (s : State) (tag : Nat) (who : Asker) (asid base len : Nat) (kind : Kind) (nowait : Bool) (die : Nat) :
    State :=
  match s.pieces asid base len with
  | .error sub => ((s.countRef asid).refuseReg who sub).clearFlags tag false
  | .ok ps =>
    let dom := ((s.ctx? asid).map (·.domain)).getD 0
    let b : Borrow := ⟨tag, who, asid, dom, die, kind, nowait, ps, [], s.clock + s.deedWaitOf asid, tag⟩
    { s with borrows := s.borrows ++ [b] }.askNext tag

/-- The flags that a nowait BOR holds until its register leaves PENDING are cleared (R170). -/
def State.clearTag (s : State) (tag : Nat) : State := s.clearFlags tag false

/-- A borrow is withdrawn (R161, R175): its waiting request is cancelled and its granted pieces are released. -/
def State.withdraw (s : State) (tag : Nat) : State :=
  match s.borrows.find? (·.tag == tag) with
  | none => s
  | some b =>
    let s1 := { s with borrows := s.borrows.filter fun x => x.tag != tag }
    let s2 := match b.todo with
      | [] => s1
      | p :: _ => s1.send p.home b.who (.dcancel tag)
    (s2.releasePieces b.who b.kind b.tag b.got).clearTag tag

/-- Where the answer of a borrow goes when its last piece is granted: the register becomes HELD; S or E self-invalidates the
range in the taker's caches (R161, R186), and is an acquire at `.device` there (R251, R252). A grid's bands do both when they
are placed. -/
def State.holdReg (s : State) (b : Borrow) : State :=
  let deed := (b.got.head?.map fun g => deedId g.home g.idx).getD 0
  let space := if b.got.any (5 ≤ ·.home) then Space.peer else .region
  match b.who with
  | .grid g =>
    let base := (b.got.head?.map (·.base)).getD 0
    let len := (b.got.map (·.len)).sum
    let n := (s.bands.filter fun x => x.grid == some g && !s.second x.id).length
    let f : Family := ⟨b.family, b.asid, b.kind, space, b.got, n⟩
    let s1 : State := { s with families := s.families ++ [f] }
    let s2 := s1.modGrid g fun x => { x with args := .held deed b.family }
    { s2 with bands := s2.bands.map fun x =>
        if x.grid = some g then
          { x with g := modAt x.g 7 fun _ => ⟨.held, space, .s, base, len, deed, true, 0, [], 0, b.family⟩ }
        else x }
  | who =>
    let f : Family := ⟨b.family, b.asid, b.kind, space, b.got, 1⟩
    let s1 : State := { s with families := s.families ++ [f] }
    let s2 := s1.modAskerReg who fun r => { r with state := .held, space := space, deed := deed, family := b.family }
    if b.kind = .a then s2
    else
      let lines := (b.got.map fun g => s2.cachedLines b.asid g.base g.len).flatten
      (s2.askerBands who).foldl (fun s b => (s2.askerCores who).foldl (fun s c => s.acquireOn b c) s)
        (s2.invalRange (s2.askerCores who) lines)

/-- A grant reaches the requester (R161, R164); one that follows a withdrawal is released (R177). -/
def State.takeGrant (s : State) (home : Nat) (who : Asker) (tag deed : Nat) (kind : Kind) : State :=
  match s.borrows.find? (·.tag == tag) with
  | none => s.send home who (.drel (deed % 2 ^ 17) kind tag 0)
  | some b =>
    match b.todo with
    | [] => s
    | p :: rest =>
      let b1 := { b with todo := rest, got := b.got ++ [⟨home, deed % 2 ^ 17, p.base, p.len⟩] }
      if rest.isEmpty then
        (({ s with borrows := s.borrows.filter fun x => x.tag != tag } : State).holdReg b1).clearTag tag
      else ({ s with borrows := modIf (fun x => x.tag == tag) (fun _ => b1) s.borrows } : State).askNext tag

/-- The subcode of a refused piece (R166): whatever a peer gives as its reason, PEER. -/
def refusalSub (home sub : Nat) : Nat := if 5 ≤ home then 7 else sub

/-- A refusal reaches the requester (R161). -/
def State.takeRefusal (s : State) (tag sub : Nat) : State :=
  match s.borrows.find? (·.tag == tag) with
  | none => s
  | some b =>
    let s1 := { s with borrows := s.borrows.filter fun x => x.tag != tag }
    (((s1.releasePieces b.who b.kind b.tag b.got).countRef b.asid).refuseReg b.who sub).clearTag tag

/-! ### The home -/

/-- A request overlaps a range of its domain. -/
def DeedReq.meets (q : DeedReq) (domain base len : Nat) : Bool := q.domain == domain && q.base < base + len && base < q.base + q.len

/-- Grantable of R165. -/
def HomeSt.grantable (h : HomeSt) (q : DeedReq) : Bool :=
  h.entries.all fun e => !q.meets e.domain e.base e.len || (e.kind == q.kind && q.kind != .e)

/-- An older queued request overlaps (R165). -/
def DeedReq.behind (q : DeedReq) (older : List DeedReq) : Bool := older.any fun x => q.meets x.domain x.base x.len

/-- BlockLost of R165: an entry that overlaps is being rebuilt. -/
def HomeSt.blockLost (h : HomeSt) (q : DeedReq) : Bool := h.lost.any fun r => q.meets r.domain r.base r.len

/-- The entry that a request shares (R162). -/
def HomeSt.shared (h : HomeSt) (q : DeedReq) : Option DeedEntry :=
  if q.kind = .e then none
  else h.entries.find? fun e => e.asid == q.asid && e.domain == q.domain && e.base == q.base && e.len == q.len &&
    e.kind == q.kind && e.count < 65535

/-- EntryFor of R165. -/
def HomeSt.hasEntry (h : HomeSt) (q : DeedReq) : Bool :=
  (h.shared q).isSome || h.entries.length < Config.deedEntries h.id

/-- The lowest index that no entry holds. -/
def freeIndex (used : List Nat) : Nat := ((List.range (used.length + 1)).find? fun i => !used.contains i).getD used.length

/-- Grant of R162: the entry's index and the table after it. -/
def HomeSt.grant (h : HomeSt) (q : DeedReq) : HomeSt × Nat :=
  match h.shared q with
  | some e => ({ h with entries := modIf (fun x => x.idx == e.idx) (fun x => { x with count := x.count + 1 }) h.entries }, e.idx)
  | none =>
    let i := freeIndex (h.entries.map (·.idx))
    let holder := if q.kind = .e then some q.requester else none
    ({ h with entries := h.entries ++ [⟨i, q.domain, q.base, q.len, q.kind, q.asid, holder, 1⟩] }, i)

/-- The state with a home replaced. -/
def State.setHome (s : State) (h : HomeSt) : State := s.modHome h.id fun _ => h

/-- Whose request a waiting one is: a borrow's, or another module's. -/
def State.whoOf (s : State) (q : DeedReq) : Asker :=
  if q.requester.die = 5 then .peer q.requester.band
  else ((s.borrows.find? (·.tag == q.tag)).map (·.who)).getD (.grid 0)

/-- A request is granted at a home and the answer sent. -/
def State.grantAt (s : State) (home : Nat) (who : Asker) (q : DeedReq) : State :=
  match s.home? home with
  | none => s
  | some h =>
    let (h1, i) := h.grant q
    (s.setHome h1).send home who (.dgrant q.tag (deedId home i) q.kind)

/-- The request as the home arbitrates it: at a peer in the domain of its window (R178); none where no entry of the peer's
window table covers it (R344). -/
def DeedReq.atHome (q : DeedReq) (home : Nat) : Option DeedReq :=
  if home < 5 then some q
  else (Config.peerDomain ((home - 5) * 2 ^ 40 + q.base)).map fun d => { q with domain := d }

/-- Arrive of R165. -/
def State.arrive (s : State) (home : Nat) (who : Asker) (q0 : DeedReq) : State :=
  match s.home? home, q0.atHome home with
  | none, _ => s
  | some _, none => s.send home who (.drefuse q0.tag 7)
  | some h, some q =>
    let refuse (sub : Nat) : State := s.send home who (.drefuse q.tag sub)
    let wait : State :=
      (s.setHome { h with queue := h.queue ++ [q] }).modCtx q.asid fun c => { c with borque := satInc c.borque }
    if h.blockLost q then refuse 6
    else if h.grantable q && !q.behind h.queue then
      if h.hasEntry q then s.grantAt home who q else if q.nowait then refuse 3 else wait
    else if q.nowait then refuse 2
    else wait

/-- The queue examined, oldest first (R165): `kept` holds the older requests that still wait. -/
def State.examine (s : State) (home : Nat) (kept : List DeedReq) : List DeedReq → State
  | [] => s.modHome home fun h => { h with queue := kept }
  | q :: rest =>
    match s.home? home with
    | none => s
    | some h =>
      if h.grantable q && h.hasEntry q && !q.behind kept && !h.blockLost q then
        (s.grantAt home (s.whoOf q) q).examine home kept rest
      else s.examine home (kept ++ [q]) rest

/-- The queue of a home examined after a release (R165). -/
def State.examineHome (s : State) (home : Nat) : State :=
  match s.home? home with
  | none => s
  | some h => s.examine home [] h.queue

/-- A release at the home (R175): an E entry is freed, an S or A count falls by 1. -/
def HomeSt.release (h : HomeSt) (idx : Nat) : HomeSt :=
  let es := modIf (fun e : DeedEntry => e.idx == idx) (fun e => { e with count := e.count - 1 }) h.entries
  { h with entries := es.filter fun e => !(e.idx == idx && e.count == 0) }

/-- A DREL reaches its home; one for an entry that is being rebuilt is held (R181). `ret` is 0 where no RTN waits. -/
def State.takeRelease (s : State) (home : Nat) (who : Asker) (idx fam ret : Nat) : State :=
  match s.home? home with
  | none => s
  | some h =>
    if h.lost.any (·.idx == idx) then s.setHome { h with heldRels := h.heldRels ++ [(idx, fam, ret)] }
    else
      let s1 := s.setHome (h.release idx)
      (if ret = 0 then s1 else s1.send home who (.drelack ret)).examineHome home

/-- A waiting request is withdrawn at its home (R177). -/
def State.takeCancel (s : State) (home tag : Nat) : State :=
  (s.modHome home fun h => { h with queue := h.queue.filter fun q => q.tag != tag }).examineHome home

/-- The bound of a waiting request expires (R166): TIMEOUT behind a conflict or an older request, else FULL. -/
def State.expire (s : State) (home tag : Nat) : State :=
  match s.home? home with
  | none => s
  | some h =>
    match h.queue.find? (·.tag == tag) with
    | none => s
    | some q =>
      let older := h.queue.takeWhile fun x => x.tag != tag
      let sub := if !h.grantable q || q.behind older then 1 else 3
      ((s.setHome { h with queue := h.queue.filter fun x => x.tag != tag }).send home (s.whoOf q)
        (.drefuse tag sub)).examineHome home

/-! ### Returns -/

/-- A family loses a member; the pieces are released with its last (R174, R175). -/
def State.leaveFamily (s : State) (fam : Nat) : State × List Grant × Kind :=
  match s.families.find? (·.id == fam) with
  | none => (s, [], .e)
  | some f =>
    if f.members ≤ 1 then ({ s with families := s.families.filter fun x => x.id != fam }, f.got, f.kind)
    else ({ s with families := modIf (fun x => x.id == fam) (fun x => { x with members := x.members - 1 }) s.families },
      [], f.kind)

/-- The child range leaves its parent (R175). -/
def State.leaveParent (s : State) (b t : Nat) (g : GReg) (reg : Region) : State :=
  let p : GReg := Fin.ofNat 16 reg.parent
  let _ := g
  s.modReg b t p fun x => { x with kids := x.kids.erase ⟨reg.base, reg.len, reg.kind⟩ }

/-- An RTN begins (R175): the register becomes EMPTY; a bench register is returned at once. -/
def State.startReturn (s : State) (t : Tid) (g : GReg) (rel : Bool) : State :=
  let reg := s.regT t g
  let s1 := s.setReg t g Region.none
  if reg.space = .bench && reg.top then s1
  else
    let older := (s1.returns.filter fun r => r.tid == t).map (·.id)
    let r : Return := ⟨s1.fresh, t, t.band, g, reg, rel, if rel then older else [], .waiting⟩
    { s1 with returns := s1.returns ++ [r], fresh := s1.fresh + 1 }

/-- An access of n bytes at an address meets a returned range, in the same space. -/
def Return.meets (r : Return) (bench : Bool) (va n : Nat) : Bool :=
  bench == (r.reg.space == .bench) && va < r.reg.base + r.reg.len && r.reg.base < va + n

/-- An operation of a holder of a returned range, issued before the return, is still to be performed (R160, R175, R255, R260):
an access in flight to the range, a load or atomic of its lines, an engine operation that names a part of it. The register
through which it went is of no account: SPL and JON move a range between registers. -/
def State.returnBusy (s : State) (r : Return) : Bool :=
  let mine (t : Tid) : Bool := t.band == r.band
  let asid := ((s.band? r.band).map (·.asid)).getD 0
  let isBench (l : Loc) : Bool := match l with | .bench .. => true | .mem .. => false
  let hit (l : Loc) : Bool :=
    match l with
    | .mem pa h => r.reg.space != .bench && (s.rangeLines asid r.reg.base r.reg.len).contains (lineKey h pa)
    | .bench .. => r.reg.space == .bench
  s.flights.any (fun f => f.id < r.id && mine f.tid && r.meets (isBench f.loc) f.va f.act.size) ||
    s.pending.any (fun p => p.id < r.id && mine p.tid && (p.what.place.map fun e => hit e.1).getD false) ||
    s.ops.any (fun o => o.id < r.id && mine o.tid && o.ranges.any (fun x => r.meets x.1 x.2.1 x.2.2) &&
      (o.state == .running || o.state == .suspended))

/-- A register of a thread could not be written back yet if it were returned now. -/
def State.regBusy (s : State) (t : Tid) (g : GReg) : Bool :=
  s.returnBusy ⟨s.fresh, t, t.band, g, s.regT t g, false, [], .waiting⟩

/-- A return may write back now: nothing of its holders is left to perform, and an RTN.rel has its thread's older
accesses performed and older RTNs complete (R175, R176). -/
def State.returnReady (s : State) (r : Return) : Bool :=
  r.stage = .waiting && !s.returnBusy r &&
    (!r.rel || (!(s.returns.any fun x => r.older.contains x.id) &&
      !(s.flights.any fun f => f.tid == r.tid && f.id < r.id) &&
      !(s.pending.any fun p => p.tid == r.tid && p.id < r.id && p.what.place.isSome)))

/-- The state with a return complete. -/
def State.endReturn (s : State) (id : Nat) : State := { s with returns := s.returns.filter fun r => r.id != id }

/-- The write-back of a return is done and its releases are sent (R175, R177). Member 1 of a pair writes nothing back
and sends nothing (R312). -/
def State.finishWriteBack (s : State) (r : Return) : State :=
  let s0 := if r.rel then s.releaseLines r.tid .device else s
  if !r.reg.top then ((s0.writeBack r).leaveParent r.band r.tid.troop r.g r.reg).endReturn r.id
  else if s0.second r.band then s0.endReturn r.id
  else
    let s1 := s0.writeBack r
    let (s2, got, kind) := s1.leaveFamily r.reg.family
    if got.isEmpty then s2.endReturn r.id
    else
      let who := askerOf r.tid r.g
      let s3 := got.foldl (fun s g => s.send g.home who (.drel g.idx kind r.reg.family r.id)) s2
      { s3 with returns := modIf (fun x => x.id == r.id) (fun x => { x with stage := .releasing got.length }) s3.returns }

/-- An acknowledgement completes a piece of a return (R177). -/
def State.takeAck (s : State) (ret : Nat) : State :=
  match s.returns.find? (·.id == ret) with
  | none => s
  | some r =>
    match r.stage with
    | .releasing n =>
      if n ≤ 1 then s.endReturn ret
      else { s with returns := modIf (fun x => x.id == ret) (fun x => { x with stage := .releasing (n - 1) }) s.returns }
    | _ => s

/-- The borrow under which a register is PENDING. -/
def State.borrowOf (s : State) (t : Tid) (g : GReg) : Option Borrow :=
  s.borrows.find? fun b => b.who == askerOf t g ||
    (match s.partner t.band with | some p => b.who == askerOf { t with band := p } g | none => false)

/-- A register that is not HELD becomes EMPTY; a PENDING one withdraws its requests, or, in a pair whose partner has not asked
yet, its own part in them (R161, R175, R180). -/
def State.emptyReg (s : State) (t : Tid) (g : GReg) : State :=
  let s1 := match s.borrowOf t g with
    | some b => if (s.regT t g).state == GState.pending then s.withdraw b.tag else s
    | none => if (s.regT t g).state == GState.pending then s.clearTag (s.regT t g).family else s
  s1.setReg t g Region.none

/-! ### Rebuilding an entry -/

/-- The registers and borrows under an entry, as the answer of a die, or of the scheduler for bands on no core (die 4):
one entry for each family or borrow, numbered by it (R181, R320). -/
def State.holdersOf (s : State) (home idx die : Nat) : List DeedEntry :=
  let onDie (bs : List Nat) : Bool :=
    bs.any fun b => match s.band? b with
      | some x => (x.dieNow.getD 4) == die
      | none => die == 4
  let hits (got : List Grant) : List Grant := got.filter fun g => g.home == home && g.idx == idx
  let fams := s.families.filter fun f => (hits f.got) != [] &&
    (s.bands.any (fun b => onDie [b.id] && ((b.g ++ (b.troops.map (·.g)).flatten).any fun r =>
        r.state == .held && r.top && r.family == f.id)) ||
     (die == 4 && s.grids.any fun g => match g.args with | .held _ x => x == f.id | _ => false))
  let pend := s.borrows.filter fun b => (hits b.got) != [] && onDie ((s.askerBands b.who) ++ (if (s.askerBands b.who).isEmpty then [0] else []))
  (fams.map fun f => (hits f.got).map fun g => (⟨f.id, 0, g.base, g.len, f.kind, f.asid, none, 1⟩ : DeedEntry)).flatten ++
    (pend.map fun b => (hits b.got).map fun g => (⟨b.tag, b.domain, g.base, g.len, b.kind, b.asid, none, 1⟩ : DeedEntry)).flatten

/-- A Deed Table entry is lost (R181): queued requests that overlap are refused and every die is asked; a second loss
starts the rebuild again (R320). -/
def State.loseEntry (s : State) (home idx : Nat) : State :=
  match s.home? home with
  | none => s
  | some h =>
    match h.entries.find? (·.idx == idx) with
    | none => s
    | some e =>
      let r : Rebuild := ⟨idx, e.domain, e.base, e.len, e.asid, 5, []⟩
      let out := h.queue.filter fun q => q.meets e.domain e.base e.len
      let h1 := { h with lost := h.lost.filter (fun x => x.idx != idx) ++ [r],
                         queue := h.queue.filter fun q => !q.meets e.domain e.base e.len }
      let s1 := ({ s with msgs := s.msgs.filter fun m => match m.body with
          | .dquery i _ => !(m.home == home && i == idx)
          | .dhold i _ _ => !(m.home == home && i == idx)
          | _ => true } : State).setHome h1
      let s2 := out.foldl (fun s q => s.send home (s.whoOf q) (.drefuse q.tag 6)) s1
      (List.range 5).foldl (fun s d => s.send home (.grid 0) (.dquery idx d)) s2

/-- A die's answer reaches the home (R320). -/
def State.takeHold (s : State) (home idx : Nat) (found : List DeedEntry) : State :=
  s.modHome home fun h => { h with
    lost := modIf (fun r => r.idx == idx) (fun r => { r with waiting := r.waiting - 1, found := r.found ++ found }) h.lost }

/-- The rebuild of one entry ends (R320): the entry as the answers give it, or freed; its held releases in order; a
DEED REBUILT record to its context. -/
def State.endRebuild (s : State) (home : Nat) (r : Rebuild) : State :=
  match s.home? home with
  | none => s
  | some h =>
    let ids := (r.found.map (·.idx)).eraseDups
    let held := h.heldRels.filter fun x => x.1 == r.idx
    let n := ids.length
    let entries := if n = 0 then h.entries.filter fun e => e.idx != r.idx
      else modIf (fun e : DeedEntry => e.idx == r.idx) (fun e => { e with count := if e.kind = .e then 1 else n }) h.entries
    let h1 := { h with entries := entries, lost := h.lost.filter (fun x => x.idx != r.idx),
                       heldRels := h.heldRels.filter fun x => x.1 != r.idx }
    let s1 := s.setHome h1
    let s2 := held.foldl (fun s x =>
      let who := ((s.returns.find? (·.id == x.2.2)).map fun y => askerOf y.tid y.g).getD (.grid 0)
      let s1 := if ids.contains x.2.1 then s.modHome home fun h => h.release r.idx else s
      if x.2.2 = 0 then s1 else s1.send home who (.drelack x.2.2)) s1
    (s2.faultRecord r.asid (recordWords 8 0 0 ⟨0, 0, none, none⟩ (BitVec.ofNat 57 r.base) 0 0
      [BitVec.ofNat 32 r.len, BitVec.ofNat 32 n] 0)).examineHome home

end Sys2Proof.Machine
end

