-- ==== Sys2Proof/Machine/Contain.lean ====
section
/-! DEFINITION. Containment (spec/16): the stores of a band saved and put back (R308, R309, R314), the kill of a band
(R302), rollback (R314 to R318), UE_CONSUMED and PAIR_DIVERGE. -/

namespace Sys2Proof.Machine

/-! ### The stores of a band -/

/-- Bytes of a granule or tile of a core's table, by local address. -/
def granuleBytes (m : List (Nat × Byte)) (g size : Nat) : List (Nat × Byte) :=
  (m.filter fun e => g * size ≤ e.1 && e.1 < (g + 1) * size).map fun e => (e.1 - g * size, e.2)

/-- A table without the entries of a granule. -/
def clearGranule {α : Type} (m : List (Nat × α)) (g size : Nat) : List (Nat × α) :=
  m.filter fun e => !(g * size ≤ e.1 && e.1 < (g + 1) * size)

/-- Entries put into a granule. -/
def fillGranule {α : Type} [DecidableEq α] (d : α) (m : List (Nat × α)) (g size : Nat) (es : List (Nat × α)) :
    List (Nat × α) :=
  es.foldl (fun m e => put d (g * size + e.1) e.2 m) (clearGranule m g size)

/-- The granules of a map read in order, as one table by band-local address. -/
def gather {α : Type} (m : List (Nat × α)) (gs : List Nat) (size : Nat) : List (Nat × α) :=
  (((List.range gs.length).zip gs).map fun e =>
    (m.filter fun x => e.2 * size ≤ x.1 && x.1 < (e.2 + 1) * size).map fun x => (e.1 * size + (x.1 - e.2 * size), x.2)).flatten

/-- A table by band-local address put into the granules of a map. -/
def scatter {α : Type} [DecidableEq α] (d : α) (m : List (Nat × α)) (gs : List Nat) (size : Nat) (es : List (Nat × α)) :
    List (Nat × α) :=
  ((List.range gs.length).zip gs).foldl (fun m e =>
    fillGranule d m e.2 size ((es.filter fun x => e.1 * size ≤ x.1 && x.1 < (e.1 + 1) * size).map fun x =>
      (x.1 - e.1 * size, x.2))) m

/-- Keys of an accumulator element: row × 4096 + physical column (R228). -/
def accKey (row col : Nat) : Nat := row * 4096 + col

/-- The accumulator columns of granules, by row and band-local column. -/
def gatherAcc (m : List (Nat × Word)) (gs : List Nat) : List (Nat × Word) :=
  (((List.range gs.length).zip gs).map fun e =>
    (m.filter fun x => e.2 * 32 ≤ x.1 % 4096 && x.1 % 4096 < (e.2 + 1) * 32).map fun x =>
      (accKey (x.1 / 4096) (e.1 * 32 + (x.1 % 4096 - e.2 * 32)), x.2)).flatten

/-- Accumulator columns put into granules. -/
def scatterAcc (m : List (Nat × Word)) (gs : List Nat) (es : List (Nat × Word)) : List (Nat × Word) :=
  let m1 := m.filter fun x => !gs.contains (x.1 % 4096 / 32)
  es.foldl (fun m x =>
    let c := x.1 % 4096
    match gs[c / 32]? with
    | some g => put 0 (accKey (x.1 / 4096) (g * 32 + c % 32)) x.2 m
    | none => m) m1

/-- Addresses of granules of a list, by band-local address; the others are dropped. -/
def localsOf (gs : List Nat) (size : Nat) (l : List Nat) : List Nat :=
  l.filterMap fun x => (gs.findIdx? fun g => g == x / size).map fun i => i * size + x % size

/-- Addresses by band-local address, as they lie in granules. -/
def placesOf (gs : List Nat) (size : Nat) (l : List Nat) : List Nat :=
  l.filterMap fun x => (gs[x / size]?).map fun g => g * size + x % size

/-- What a band's cores hold for it (R308), with what is poisoned in it (R319). -/
def State.saveStores (s : State) (b : Band) : Saved :=
  let per {α : Type} (f : CoreSt → Nat → α) (d : α) : List α :=
    ((List.range b.cores.length).zip b.cores).map fun e => match s.core? e.2 with | some c => f c e.1 | none => d
  let bm (i : Nat) : List Nat := (b.benchMap[i]?).getD []
  let am (i : Nat) : List Nat := (b.accMap[i]?).getD []
  let tm (i : Nat) : List Nat := (b.tileMap[i]?).getD []
  { bench := per (fun c i => gather c.bench (bm i) 4096) []
    acc := per (fun c i => gatherAcc c.acc (am i)) []
    tiles := per (fun c i => gather c.tiles (tm i) 4096) []
    benchPoison := per (fun c i => localsOf (bm i) 1024 c.benchPoison) []
    accPoison := per (fun c i => c.accPoison.filterMap fun x => ((localsOf (am i) 32 [x.2]).head?).map fun n => (x.1, n)) []
    tilePoison := per (fun c i => localsOf (tm i) 4096 c.tilePoison) []
    slots := [] }

/-- A band's stores put back, bit for bit, and what was poisoned in them (R309, R319). -/
def State.restoreStores (s : State) (b : Band) (v : Saved) : State :=
  ((List.range b.cores.length).zip b.cores).foldl (fun s e =>
    let bm := (b.benchMap[e.1]?).getD []
    let am := (b.accMap[e.1]?).getD []
    let tm := (b.tileMap[e.1]?).getD []
    s.modCore e.2 fun c => { c with
      bench := scatter 0 c.bench bm 4096 ((v.bench[e.1]?).getD [])
      benchPoison := (c.benchPoison.filter fun w => !bm.contains (w / 1024)) ++
        placesOf bm 1024 ((v.benchPoison[e.1]?).getD [])
      acc := scatterAcc c.acc am ((v.acc[e.1]?).getD [])
      accPoison := (c.accPoison.filter fun x => !am.contains (x.2 / 32)) ++
        ((v.accPoison[e.1]?).getD []).filterMap fun x => ((placesOf am 32 [x.2]).head?).map fun n => (x.1, n)
      tiles := scatter 0 c.tiles tm 4096 ((v.tiles[e.1]?).getD [])
      tilePoison := (c.tilePoison.filter fun x => !tm.contains (x / 4096)) ++
        placesOf tm 4096 ((v.tilePoison[e.1]?).getD []) }) s

/-- Zeroings of a band's tiles that are still due are dropped: its tiles are released or put back (R216, R317, R325). -/
def State.dropZero (s : State) (b : Band) : State :=
  ((List.range b.cores.length).zip b.cores).foldl (fun s e =>
    s.modCore e.2 fun c => { c with tileZero := c.tileZero.filter fun p => !((b.tileMap[e.1]?).getD []).contains p }) s

/-- A tile of a band is still to be zeroed (R216). -/
def State.zeroLeft (s : State) (b : Band) : Bool :=
  ((List.range b.cores.length).zip b.cores).any fun e =>
    ((s.core? e.2).map fun c => c.tileZero.any fun p => ((b.tileMap[e.1]?).getD []).contains p).getD false

/-! ### Band kill -/

/-- The bands that stand or fall with one: a redundant pair is killed and rolled back as a unit (R313, R317). -/
def State.unit (s : State) (b : Nat) : List Nat := b :: (s.partner b).toList

/-- Band kill without its record (R302): every troop ends, and g8 to g15 give up their dirty lines. -/
def State.endBand (s : State) (b : Nat) : State :=
  match s.band? b with
  | none => s
  | some x =>
    let s1 := (List.range x.troops.length).foldl (fun s t => s.endTroop b t) s
    let s2 := s1.discardDirty b x.g
    ({ s2 with shadows := s2.shadows.filter fun h => h.band.id != b } : State).modBand b fun y =>
      { y with killed := true, hasPoint := false, saving := false }

/-- Band kill with its record (R302, R307). -/
def State.killBand (s : State) (b : Nat) (o : Origin) (sub cause : Nat) : State :=
  let n := ((s.band? b).map (·.troops.length)).getD 0
  (s.unit b).foldl (fun s b => s.endBand b) (s.contextError b o sub cause 0 0 n)

/-! ### Rollback -/

/-- A logged line's old contents are written to its level (R317): the copies in the band's L1s and guest lines go, and the
die's L2 takes the old contents. -/
def State.undoLine (s : State) (cores : List Nat) (asid : Nat) (u : Undo) : State :=
  let die := cores.head?.map dieOf
  (s.discardLines cores die [u.line]).mergeL2 (die.getD 0) asid u.line u.home u.old (BitVec.allOnes 128) false

/-- Clean copies of poisoned lines in a band's caches are dropped (R317). -/
def State.dropPoisoned (s : State) (cores : List Nat) : State :=
  let s1 := cores.foldl (fun s c => s.modCore c fun x => { x with
    l1 := x.l1.filter fun l => !(l.poison && l.dirty == 0) }) s
  (cores.map dieOf).eraseDups.foldl (fun s d => s.modDie d fun x => { x with
    l2 := x.l2.filter fun l => !(l.poison && l.dirty == 0) }) s1

/-- The families whose registers a band holds. -/
def Band.families (b : Band) : List Nat :=
  ((b.g ++ (b.troops.map (·.g)).flatten).filter fun r => r.state = .held && r.top).map (·.family)

/-- Borrows since the point are undone (R317): pending requests are withdrawn, families taken since are released with no
write-back, their logged lines as they were at the home and the others dropped, and families that were held keep the members they had. -/
def State.undoBorrows (s : State) (now old : Band) (undo : List Undo) : State :=
  let mine := (s.borrows.filter fun x => (s.askerBands x.who).contains now.id && old.id == now.id &&
    !(match x.who with | .grid _ => true | _ => false)).map (·.tag)
  let s1 := mine.foldl (fun s t => s.withdraw t) s
  let taken := (now.families.filter fun f => !old.families.contains f && f != 0).eraseDups
  let rs := (now.g ++ (now.troops.map (·.g)).flatten).filter fun r =>
    r.state = .held && r.space != .bench && r.kind = .e && taken.contains r.family
  let s1 := rs.foldl (fun s r =>
    let lines := s.rangeLines now.asid r.base r.len
    let back := (undo.filter fun u => lines.contains u.line).foldl (fun s u =>
      s.mergeHome u.home u.line u.old (BitVec.allOnes 128) false) s
    (back.discardLines now.cores (now.cores.head?.map dieOf) lines).publish lines) s1
  let s2 := taken.foldl (fun s f =>
    match s.families.find? (·.id == f) with
    | none => s
    | some x => ({ s with families := s.families.filter fun y => y.id != f } : State).releasePieces
        (.band now.id 8) x.kind f x.got) s1
  { s2 with families := s2.families.map fun f =>
      { f with members := f.members + (old.families.filter (· == f.id)).length - (now.families.filter (· == f.id)).length } }

/-- A register whose request was withdrawn is EMPTY (R161, log 16). -/
def Region.withdrawn (r : Region) : Region := if r.state = .pending then Region.none else r

/-- A band's record as the shadow has it, with what the scheduler keeps (R317). -/
def Band.restored (now old : Band) : Band :=
  { old with
    state := now.state, saving := now.saving, prio := now.prio, aging := now.aging, agingCounts := now.agingCounts,
    waitSince := now.waitSince, residentSince := now.residentSince, turns := now.turns, grid := now.grid,
    hasPoint := true, committed := false, undoOver := false,
    rollbacks := now.rollbacks + 1, rollCount := satInc now.rollCount
    g := old.g.map Region.withdrawn
    troops := old.troops.map fun t =>
      { t with g := t.g.map Region.withdrawn, threads := t.threads.map fun th => { th with rolled := true } } }

/-- One band rolls back to its shadow (R317). -/
def State.rollBand (s : State) (b : Nat) : State :=
  match s.band? b, s.shadows.find? fun x => x.band.id == b with
  | some now, some sh =>
    let s1 := (s.bandTids b).foldl (fun s t => s.leaveBundle t) s
    let s2 := (List.range now.troops.length).foldl (fun s t =>
      (s.discardWork b t true).dropConv b t (BitVec.allOnes 64)) (s1.dropZero now)
    let s3 := (sh.undo.foldl (fun s u => s.undoLine now.cores now.asid u) s2).dropPoisoned now.cores
    let s4 := s3.undoBorrows now sh.band sh.undo
    let mine (x : TrapSlot) : Bool := match x.owner with | some (o, _, _) => o == b | none => false
    let s5 : State := { s4 with
      returns := s4.returns.filter fun r => r.band != b || r.id < sh.point
      asyncs := s4.asyncs.filter fun a => !(a.tid.band == b && sh.point ≤ a.id)
      holds := s4.holds.filter fun h => h.tid.band != b
      slots := s4.slots.map fun x =>
        match sh.slots.find? fun y => y.core == x.core && y.idx == x.idx with
        | some y => y
        | none => if mine x then { x with owner := none } else x
      shadows := modIf (fun x => x.band.id == b) (fun x => { x with undo := [] }) s4.shadows }
    let s6 := s5.restoreStores now sh.stores
    let s7 := s6.modBand b fun x => x.restored sh.band
    (s7.bandTids b).foldl (fun s t =>
      match s.thread? t with
      | some th => match th.status with
        | .ready _ _ => (s.refreshFlags t).makeReady t th.pc
        | _ => s.refreshFlags t
      | none => s) s7
  | _, _ => s

/-- ROLLMAX of a band's context; 0 is taken as 1 (R318, R322). -/
def State.rollMaxOf (s : State) (b : Nat) : Nat :=
  max 1 ((((s.band? b).bind fun x => s.ctx? x.asid).map (·.rollmax)).getD 4)

/-- Rollback (R317) with its record, and the kill that ends a run of ROLLMAX rollbacks (R318). -/
def State.rollback (s : State) (b : Nat) (o : Origin) (sub cause : Nat) : State :=
  let s1 := (s.unit b).foldl (fun s b => s.rollBand b) s
  let n := ((s1.band? b).map (·.rollbacks)).getD 0
  let asid := ((s1.band? b).map (·.asid)).getD 0
  let s2 := s1.faultRecord asid (recordWords 7 cause sub o 0 0 (s1.gridseqOf b) [BitVec.ofNat 32 n] 0)
  if s2.rollMaxOf b ≤ n then s2.killBand b o 6 cause else s2

/-- A band can be rolled back: it, and its partner, hold an uncommitted rollback point (R317). -/
def State.canRoll (s : State) (b : Nat) : Bool :=
  (s.unit b).all fun x => ((s.band? x).map fun y => y.hasPoint && !y.committed).getD false &&
    s.shadows.any fun h => h.band.id == x

/-- UE_CONSUMED in a thread (R317, R318): rollback, or the kill of its band with SUB 4. -/
def State.consumeUe (s : State) (t : Tid) : State :=
  let o := s.originOf t
  if s.canRoll t.band then s.rollback t.band o 1 0x11 else s.killBand t.band o 4 0x11

/-- PAIR_DIVERGE (R312): rollback of both members, or the kill of the band with SUB 5. -/
def State.diverge (s : State) (b t : Nat) : State :=
  let o := s.originTroop b t
  if s.canRoll b then s.rollback b o 2 0x10 else s.killBand b o 5 0x10

end Sys2Proof.Machine
end

