-- ==== Sys2Proof/Machine/Issue.lean ====
section
/-! DEFINITION. The issue of one instruction for the threads of a bundle: guards, last-read releases, allocation, traps
(spec/04 R64, R66, spec/05 R81, R87, spec/06 R95, R96), register instructions (spec/08 R132), and the gate of a redundant
pair's visible acts (spec/16 R311, R312). -/

namespace Sys2Proof.Machine

/-- What an instruction does to one thread that its guard lets act. -/
inductive Flow where
  /-- goes on at the next instruction -/
  | next
  /-- transfers control: leaves the bundle, ready at a PC -/
  | jump (pc : Pc)
  /-- leaves the bundle, ready at the next instruction, stamped afresh -/
  | ready
  /-- has already been taken out of its bundle -/
  | done
  /-- waits, and goes on at the next instruction when the wait ends -/
  | wait (w : Wait)
  /-- waits, and executes the instruction again -/
  | again (w : Wait)
  /-- the instruction needs a page walk for an address: it issues for no thread of the bundle yet (log 23) -/
  | walk (va : Nat) (u : Use)
  | trap (f : Fail)
  /-- reads poisoned data (R202, R319) -/
  | ue
  deriving DecidableEq, Repr

/-! ### Signatures -/

/-- One bit step of CRC-64 with the polynomial of R311. -/
def crcBit (c : BitVec 64) : BitVec 64 := if c.msb then (c <<< 1) ^^^ 0x42F0E1EBA9EA3693 else c <<< 1

/-- One byte, most significant bit first: not reflected (R311). -/
def crcByte (c : BitVec 64) (b : Byte) : BitVec 64 :=
  crcBit (crcBit (crcBit (crcBit (crcBit (crcBit (crcBit (crcBit (c ^^^ (b.zeroExtend 64 <<< 56)))))))))

/-- A visible act of a redundant pair (R311): the register operands, the VAs of its region operands, the bytes it
writes, and what becomes of member 1's thread when the act takes effect in member 0. -/
structure Act where
  operands : List Word
  vas : List Nat
  data : List Byte

/-- The bytes an act feeds to the signature (R311, log 12). -/
def actBytes (words : List Word) (lane : Nat) (a : Act) : List Byte :=
  let base := (words.headD 0) &&& 0xFFFFFFFC
  let imm := if isIForm (opOf base) then (leBytes 4 ((words[1]?).getD 0).toNat) else []
  leBytes 4 base.toNat ++ imm ++ leBytes 1 lane ++ (a.operands.map fun w => leBytes 4 w.toNat).flatten ++
    (a.vas.map fun x => leBytes 8 x).flatten ++ a.data

/-! ### Common steps -/

/-- A thread that is to execute an instruction of a chain group again keeps the registers from before the group (R98). -/
def State.keepSnap (s : State) (b : Bundle) (t : Tid) : State :=
  match s.group with
  | none => s
  | some g =>
    if g.first = b.pc then s else { s with snaps := s.snaps.filter (fun e => e.1 != t) ++ [(t, b.pc, g)] }

/-- A thread goes where its flow says. -/
def State.follow (s : State) (b : Bundle) (t : Tid) (f : Flow) : State :=
  match f with
  | .next => s
  | .jump pc => ((s.leaveBundle t).makeReady t pc).modThread t fun th => { th with entering := true }
  | .ready => (s.leaveBundle t).makeReady t b.npc
  | .done => s
  | .wait w => (s.leaveBundle t).makeWait t b.pc b.npc w
  | .again w => ((s.keepSnap b t).leaveBundle t).makeWait t b.pc b.npc w
  | .walk _ _ => s
  | .trap _ => s
  | .ue => s

/-- A precise fault of a thread as a trap. -/
def Fail.raised (f : Fail) (t : Tid) : Raised := ⟨t, f.cause, f.info, f.addr⟩

/-- The end of an issue (R96, R297): traps are taken, UE_CONSUMED is contained, and the threads left in the bundle go on
at the next instruction, or leave it at the end of the clause. -/
def State.finishIssue (s : State) (b : Bundle) (raised : List Raised) (ues : List Tid) : State :=
  let imm := (b.words[1]?).getD 0
  let hnd := BitVec.ofNat 32 (bitsOf imm 20 12 + 2 ^ 12 * bitsOf imm 11 9)
  let s1 := s.raiseAll b.pc b.npc hnd raised
  let bands := (ues.map (·.band)).eraseDups
  let s2 := bands.foldl (fun s x =>
    match ues.find? (·.band == x) with
    | some t => s.consumeUe t
    | none => s) s1
  match s2.bundles.find? (·.id == b.id) with
  | none => s2
  | some nb =>
    if b.npc = ⟨b.next, 0⟩ then
      nb.threads.foldl (fun s t => (s.leaveBundle t).makeReady t b.npc) s2
    else s2.modBundle b.id fun x => { x with pc := b.npc, faults := [] }

/-- An encoding, privilege or feature check fails in every thread of the bundle (R87). -/
def State.trapAll (s : State) (cause info : Nat) : State :=
  match s.bundle? with
  | none => s
  | some b => s.finishIssue b (b.threads.map fun t => (Fail.plain cause info).raised t) []

/-- Registers for the destinations of one thread (R66): taken, or a trap or a stall. -/
def State.take (s : State) (t : Tid) (ds : List VReg) : Except Flow State :=
  match s.alloc t.band t.troop (s.needs t ds).eraseDups.length with
  | .ok => .ok (s.reserve t ds)
  | .exhausted => .error (.trap (Fail.plain cRegsExhausted 0))
  | .stall => .error (.again (.alloc (s.needs t ds).eraseDups.length))

/-- A feature that the core lacks (R63). -/
def lacks (bit : Nat) : Bool := !Nat.testBit Config.features bit

/-! ### The gate of a pair -/

/-- The pair act of this issue that a thread has passed (R312). -/
def State.passedAct (s : State) (t : Tid) : Option PairAct :=
  s.pairActs.find? fun a => a.passed && a.tids.contains t

/-- The same thread of the other member (R310). -/
def State.twinOf (s : State) (t : Tid) : Option Tid := (s.partner t.band).map fun p => { t with band := p }

/-- What a thread set in flight in member 0 is owed to member 1 too: flags, and registers for the results (R312). -/
def State.mirror (s : State) (old : Nat) (t u : Tid) : State :=
  let news := s.holds.filter fun h => h.tid == t && old ≤ h.owner
  let s1 := ({ s with holds := s.holds ++ (news.map fun h => { h with tid := u }) } : State).refreshFlags u
  let dests := (s.pending.filter fun p => p.tid == t && old ≤ p.id).map fun p =>
    match p.what with
    | .atom _ _ _ _ w _ _ d _ => if w then [d, regAt d 1] else [d]
    | .atomc _ _ _ _ _ _ _ d _ => [d]
    | .atomw _ _ _ d _ => [d]
    | _ => []
  s1.reserve u dests.flatten

/-- Member 1's thread goes on once its act has taken effect (R312). -/
def State.releaseTwin (s : State) (a : PairAct) (t u : Tid) : State :=
  let mine (x : PairAct) : Bool := x.id == a.id || (x.band == u.band && x.troop == u.troop && x.index == a.index)
  let left := modIf mine (fun x => { x with tids := x.tids.filter fun y => y != t && y != u }) s.pairActs
  let s1 : State := { s with pairActs := left.filter fun x => !(mine x && x.tids.isEmpty) }
  match s1.thread? u with
  | some th => match th.status with
    | .waiting (.pair _) => s1.makeReady u th.npc
    | _ => s1
  | none => s1

/-- A new act of a troop waits for its partner's (R312). -/
def State.registerAct (s : State) (b : Bundle) (k : Nat × Nat) (acts : List (Tid × List Byte)) : State :=
  match s.troop? k.1 k.2 with
  | none => s
  | some x =>
    let asid := ((s.band? k.1).map (·.asid)).getD 0
    let wait := max 1 (((s.ctx? asid).map (·.pairwait)).getD 16) * s.dev.turn
    let sig := (acts.map (·.2)).flatten.foldl crcByte x.sig
    let a : PairAct := ⟨s.fresh, k.1, k.2, x.acts, sig, s.clock + wait, acts.map (·.1), false⟩
    let s1 := ({ s with pairActs := s.pairActs ++ [a], fresh := s.fresh + 1 } : State).modTroop k.1 k.2 fun y =>
      { y with sig := sig, acts := y.acts + 1 }
    acts.foldl (fun s e => s.follow b e.1 (.again (.pair a.id))) s1

/-! ### Running an instruction -/

/-- What the threads of an issue have come to so far. -/
structure Run where
  s : State
  raised : List Raised
  ues : List Tid
  acts : List (Tid × List Byte)
  /-- the threads that need a page walk first, each with its address -/
  walks : List (Tid × Nat × Use)

/-- No visible act. -/
def noAct (_ _ : State) (_ : Tid) : Option Act := none

/-- One instruction for each thread of the bundle, in increasing lane order. `body` gets the state that register sources
are read from (R98), the state so far, and the thread; where it traps or is to be executed again, its state holds no
effect of the instruction. Where a thread needs a page walk, the instruction issues for none yet (log 23). `rel` are the last-read releases, `act` describes the visible act of a thread of a redundant
pair, `twin` what becomes of the other member. -/
def State.runThreads (s : State) (m : Mods) (reads rel : List VReg) (act : State → State → Tid → Option Act)
    (twin : State → Tid → State) (body : State → State → Tid → State × Flow) : State :=
  match s.bundle? with
  | none => s
  | some b =>
    let v := s.view
    let one (r : Run) (t : Tid) : Run :=
      if !v.guardTrue m t then { r with s := r.s.release t rel }
      else if reads.any (v.poisonedReg t) then { r with ues := r.ues ++ [t] }
      else
        match body v (r.s.release t rel) t with
        | (_, .trap f) => { r with s := ((body v r.s t).1).follow b t (.trap f), raised := r.raised ++ [f.raised t] }
        | (_, .ue) => { r with ues := r.ues ++ [t] }
        | (_, .walk va u) => { r with walks := r.walks ++ [(t, va, u)] }
        | (_, .again w) => { r with s := ((body v r.s t).1).follow b t (.again w) }
        | (s2, f) =>
          match r.s.twinOf t, (r.s.twinOf t).bind fun _ => act v r.s t with
          | some u, some a =>
            match r.s.passedAct t with
            | some pa =>
              if r.s.second t.band then { r with s := r.s.follow b t (.again (.pair pa.id)) }
              else { r with s := (((s2.mirror v.fresh t u).follow b t f) |> fun s => twin (s.release u rel) u).releaseTwin pa t u }
            | none =>
              match r.s.pairActs.find? fun x => x.tids.contains t with
              | some pa => { r with s := r.s.follow b t (.again (.pair pa.id)) }
              | none => { r with acts := r.acts ++ [(t, actBytes b.words t.lane a)] }
          | _, _ => { r with s := s2.follow b t f }
    let r := b.threads.foldl one ⟨s, [], [], [], []⟩
    if r.walks ≠ [] then r.walks.foldl (fun s e => s.startWalk b e.2.1 e.2.2 (s.inHandler e.1)) s
    else
    let keys := (r.acts.map fun e => (e.1.band, e.1.troop)).eraseDups
    let s1 := keys.foldl (fun s k => s.registerAct b k (r.acts.filter fun e => e.1.band == k.1 && e.1.troop == k.2)) r.s
    s1.finishIssue b r.raised r.ues

/-- An instruction without last-read releases of its own, poisoned sources or visible act. -/
def State.runPlain (s : State) (m : Mods) (body : State → State → Tid → State × Flow) : State :=
  s.runThreads m [] [] noAct (fun s _ => s) body

/-- An instruction that is no visible act, with its poison-checked sources and its last-reads. -/
def State.runReads (s : State) (m : Mods) (reads rel : List VReg) (body : State → State → Tid → State × Flow) : State :=
  s.runThreads m reads rel noAct (fun s _ => s) body

/-- The registers released by LA and LB (R78): the groups A and B name. -/
def lastReads (m : Mods) (a b : List VReg) : List VReg := (if m.la then a else []) ++ (if m.lb then b else [])

/-- The registers of a three-source instruction's last-reads: LA, LB and LC (R64, R83). -/
def lastReads3 (m : Mods) (a b c : List VReg) : List VReg := lastReads m a b ++ (if (xmOrPlain m).lc then c else [])

/-- The threads of an issue whose guard is false take the last-read releases of an instruction that reads its sources only
after it has issued (R64, Reach; R81). -/
def State.releaseIdle (s : State) (m : Mods) (rel : List VReg) : State :=
  match s.bundle? with
  | none => s
  | some b => (b.threads.filter fun t => !s.view.guardTrue m t).foldl (fun s t => s.release t rel) s

/-- A register instruction (R132): for each acting thread the writes that `f` computes from the state before the issue.
Every last-read release of a troop comes before its writes, and its registers are allocated together (R64, R66). -/
def State.regInstr (s : State) (m : Mods) (reads rel : List VReg) (f : State → Tid → List RegWrite) : State :=
  match s.bundle? with
  | none => s
  | some b =>
    let v := s.view
    let acting := b.threads.filter fun t => v.guardTrue m t
    let bad (t : Tid) : Bool := reads.any (v.poisonedReg t)
    let good := acting.filter fun t => !bad t
    let s0 := (b.threads.filter fun t => !v.guardTrue m t).foldl (fun s t => s.release t rel) s
    let groups := (good.map fun t => (t.band, t.troop)).eraseDups
    let one (r : Run) (k : Nat × Nat) : Run :=
      let ts := good.filter fun t => t.band == k.1 && t.troop == k.2
      let s1 := ts.foldl (fun s t => s.release t rel) r.s
      let need := ((ts.map fun t => s1.needs t (writtenRegs (f v t))).flatten).eraseDups
      match s1.alloc k.1 k.2 need.length with
      | .ok => { r with s := ts.foldl (fun s t => s.writeRegs t (f v t)) s1 }
      | .exhausted => { r with raised := r.raised ++ ts.map fun t => (Fail.plain cRegsExhausted 0).raised t }
      | .stall => { r with s := ts.foldl (fun s t => s.follow b t (.again (.alloc need.length))) r.s }
    let r := groups.foldl one ⟨s0, [], [], [], []⟩
    r.s.finishIssue b r.raised (acting.filter bad)

/-- A long-latency operation begins (R100, R101): its flags are set and it is in progress under the next number. -/
def State.pend (s : State) (b : Bundle) (t : Tid) (issue : Nat) (seta setb : Bool) (what : Pend) (rel : List VReg) :
    State :=
  let p : Pending := ⟨s.fresh, t, b.pc, issue, what, rel⟩
  let s1 := { s with pending := s.pending ++ [p], fresh := s.fresh + 1 }
  let s2 := if seta then s1.setFlag t b.seta p.id false else s1
  if setb then s2.setFlag t b.setb p.id true else s2

/-- The clause flags of the bundle that issues. -/
def State.curBundle (s : State) : Bundle :=
  s.bundle?.getD ⟨0, 0, 0, 0, 0, ⟨0, 0⟩, ⟨0, 0⟩, 0, 0, 15, 15, [], [], [], [], [], none⟩

end Sys2Proof.Machine
end

