-- ==== Sys2Proof/Machine/Sfu.lean ====
section
/-! DEFINITION. The SFU functions (spec/07 R130, R131; spec/08 R149): special values, exact cases, and elsewhere an open value
held to the bound of its function about a value computed in fixed point (log 4). -/

namespace Sys2Proof

/-! ### Fixed point -/

/-- Σ xᵏ/k! in units of 2^-p: the terms from k on, the first of them `t`. -/
def expTaylor (p x : Nat) : Nat → Nat → Nat → Nat
  | 0, _, _ => 0
  | n + 1, k, t => t + expTaylor p x n (k + 1) (t * x / 2 ^ p / (k + 1))

/-- The alternating series of sin and cos in units of 2^-p, in which `q` is x²: the terms from xᵏ/k! on, the first `t`. -/
def altSeries (p q : Nat) : Nat → Nat → Nat → Nat
  | 0, _, _ => 0
  | n + 1, k, t => t - altSeries p q n (k + 2) (t * q / 2 ^ p / ((k + 1) * (k + 2)))

/-- The first bits of log2 z, of a z in [1, 2) in units of 2^-p, by squaring. -/
def log2Bits (p : Nat) : Nat → Nat → Nat → Nat
  | 0, _, acc => acc
  | n + 1, z, acc =>
    let w := z * z / 2 ^ p
    if 2 ^ (p + 1) ≤ w then log2Bits p n (w / 2) (2 * acc + 1) else log2Bits p n w (2 * acc)

/-- ln 2 and log2 e in units of 2^-160, and 2π in units of 2^-96. -/
def ln2Fixed : Nat := 0xb17217f7d1cf79abc9e3b39803f2f6af40f34326
@[inherit_doc ln2Fixed] def log2eFixed : Nat := 0x171547652b82fe1777d0ffda0d23a7d11d6aef551
@[inherit_doc ln2Fixed] def twoPiFixed : Nat := 0x6487ed5110b4611a62633145c

/-- ⌊±m × 2^e⌋ in units of 2^-p. -/
def fixedOf (p : Nat) (neg : Bool) (m : Nat) (e : Int) : Int :=
  let x : Int := if neg then -(m : Int) else m
  if 0 ≤ e + p then x * 2 ^ (e + p).toNat else x / 2 ^ (-(e + p)).toNat

/-- 2^(y × 2^-160): a value just short of it, by a part in 2^100. -/
def pow2Fixed (y : Int) : Val :=
  let r := (y % 2 ^ 160).toNat
  .fin false (expTaylor 160 (r * ln2Fixed / 2 ^ 160) 60 0 (2 ^ 160)) (y / 2 ^ 160 - 160)

/-! ### Open values -/

/-- A finite value differs from another by at most 2^u, and a part in 2^32 of it for the fixed point. -/
def withinUlp (y x : Val) (u : Int) : Bool :=
  match (y.add .rne x.neg).abs with
  | .fin n m e => (Val.fin n m e).cmp (.fin false (2 ^ 32 + 1) (u - 32)) != some .gt
  | _ => false

/-- The open value of an SFU function where it lies within 2^u of its value `x` and meets a test, else `x` rounded to F32, which
does (log 4). -/
def openNear (f : SfuFn) (w : Word) (x : Val) (u : Int) (ok : Val → Bool) : Nat :=
  let y := (Config.sfu f w).toNat
  if withinUlp (Fmt.f32.value y) x u && ok (Fmt.f32.value y) then y else roundToFormat x .f32 .rne false

/-- One ulp of a finite value, as the exponent of a power of two (R127). -/
def ulpOf (x : Val) : Int :=
  match x with
  | .fin _ m e => Fmt.f32.ulpExp m e
  | _ => 0

/-- 1/(m × 2^e) to 64 bits beyond the point, as an interval of one unit: the exact value is between it and one more. -/
def recipVal (m : Nat) (e : Int) : Nat × Int := (2 ^ (Nat.log2 m + 64) / m, -(Nat.log2 m + 64 : Int) - e)

/-- A power of two, as an F32 encoding: exact where it is a value of F32. -/
def powF32 (neg : Bool) (k : Int) : Nat := roundToFormat (.fin neg 1 k) .f32 .rne false

/-- A value that is not negative. -/
def notNeg (y : Val) : Bool := !y.isNeg

/-- A value of magnitude at most 1. -/
def inUnit (y : Val) : Bool :=
  match y.abs.cmp (.fin false 1 0) with
  | some .lt | some .eq => true
  | _ => false

/-! ### The functions (R130, R131) -/

/-- FRCP of a finite non-zero value: exact for powers of two with a normal result, ±∞ below 2^-128 in magnitude, elsewhere
within 1 ulp, which at 2^-128 leaves the largest finite value alone. -/
def rcpF32 (x : Word) (neg : Bool) (m : Nat) (e : Int) : Nat :=
  let k := log2Of m e
  let (q, qe) := recipVal m e
  let mid : Val := .fin neg (2 * q + 1) (qe - 1)
  if m = 2 ^ Nat.log2 m && -k ≤ 127 && -126 ≤ -k then powF32 neg (-k)
  else if k < -128 then Fmt.f32.withSign neg 0x7F800000
  else if m = 2 ^ Nat.log2 m && k = -128 then Fmt.f32.withSign neg Fmt.f32.maxMag
  else openNear .rcp x mid (ulpOf mid) fun _ => true

/-- FRSQ of a finite positive value: exact for powers of four, elsewhere within 1 ulp. -/
def rsqF32 (x : Word) (m : Nat) (e : Int) : Nat :=
  let k := log2Of m e
  let mid := sqrtVal (recipVal m e).1 (recipVal m e).2
  if m = 2 ^ Nat.log2 m && k % 2 = 0 then powF32 false (-(k / 2)) else openNear .rsq x mid (ulpOf mid) notNeg

/-- The integer that a finite value is, if it is one. -/
def intOf (neg : Bool) (m : Nat) (e : Int) : Option Int :=
  let x : Nat := roundTo .rz neg m e 0
  if (Val.fin neg m e).cmp (.fin neg x 0) = some .eq then some (if neg then -(x : Int) else x) else none

/-- FEXP2 of a finite value: exact for integers from -149 to 127, elsewhere within 2 ulp and not negative. -/
def exp2F32 (x : Word) (neg : Bool) (m : Nat) (e : Int) : Nat :=
  if m = 0 then 0x3F800000
  else if (Val.fin neg m e).cmp (.fin false 128 0) != some .lt then 0x7F800000
  else if (Val.fin neg m e).cmp (.fin true 150 0) = some .lt then 0
  else
    let mid := pow2Fixed (fixedOf 160 neg m e)
    match (intOf neg m e).filter fun n => -149 ≤ n && n ≤ 127 with
    | some n => powF32 false n
    | none => openNear .exp2 x mid (ulpOf mid + 1) notNeg

/-- log2 (m × 2^e) in units of 2^-64, rounded down. -/
def log2Fixed (m : Nat) (e : Int) : Int :=
  log2Of m e * 2 ^ 64 + log2Bits 192 64 (m * 2 ^ 192 / 2 ^ Nat.log2 m) 0

/-- FLOG2 of a finite positive value: exact for powers of two, within 2^-22 between 0.5 and 2, elsewhere within 2 ulp. -/
def log2F32 (x : Word) (m : Nat) (e : Int) : Nat :=
  let k := log2Of m e
  let l := log2Fixed m e
  let mid : Val := .fin (decide (l < 0)) l.natAbs (-64)
  if m = 2 ^ Nat.log2 m then roundToFormat (.ofInt k) .f32 .rne false
  else openNear .log2 x mid (if k = 0 || k = -1 then -22 else ulpOf mid + 1) fun _ => true

/-- The quarter of a turn at which a finite value stands, where it stands at one: 0, 1, 2 or 3. -/
def quarterOf (neg : Bool) (m : Nat) (e : Int) : Option Nat := (intOf neg m (e + 2)).map fun n => (n % 4).toNat

/-- The sine of a number of turns in units of 2^-96, in the same units. -/
def sinTurns (t : Int) : Val :=
  let r := (t % 2 ^ 96).toNat
  let th := r % 2 ^ 94 * twoPiFixed / 2 ^ 96
  let q := th * th / 2 ^ 96
  let sin := altSeries 96 q 24 1 th
  let cos := altSeries 96 q 24 0 (2 ^ 96)
  match r / 2 ^ 94 with
  | 0 => .fin false sin (-96)
  | 1 => .fin false cos (-96)
  | 2 => .fin true sin (-96)
  | _ => .fin true cos (-96)

/-- FSIN of a finite value in turns: exact at multiples of a quarter, elsewhere within 2^-22 and at most 1. -/
def sinF32 (x : Word) (neg : Bool) (m : Nat) (e : Int) : Nat :=
  match quarterOf neg m e with
  | some 1 => 0x3F800000
  | some 3 => 0xBF800000
  | some _ => Fmt.f32.withSign neg 0
  | none => openNear .sin x (sinTurns (fixedOf 96 neg m e)) (-22) inUnit

/-- FCOS of a finite value in turns, as FSIN a quarter of a turn on. -/
def cosF32 (x : Word) (neg : Bool) (m : Nat) (e : Int) : Nat :=
  match quarterOf neg m e with
  | some 0 => 0x3F800000
  | some 2 => 0xBF800000
  | some _ => 0
  | none => openNear .cos x (sinTurns (fixedOf 96 neg m e + 2 ^ 94)) (-22) inUnit

/-- tanh of a positive value: below 2^-30 just under the value itself, from 64 on just under 1, else (E - 1)/(E + 1) with
E = e^2a. -/
def tanhVal (m : Nat) (e : Int) : Val :=
  let k := log2Of m e
  if k < -30 then .fin false (m * 2 ^ 64 - 1) (e - 64)
  else if 6 ≤ k then .fin false (2 ^ 64 - 1) (-64)
  else
    match pow2Fixed (2 * fixedOf 160 false m e * log2eFixed / 2 ^ 160) with
    | .fin _ x xe =>
      let big := x * 2 ^ (xe + 160).toNat
      .fin false ((big - 2 ^ 160) * 2 ^ 128 / (big + 2 ^ 160)) (-128)
    | _ => .nan

/-- FTANH of a finite non-zero value: within 2 ulp and at most 1 in magnitude. -/
def tanhF32 (x : Word) (neg : Bool) (m : Nat) (e : Int) : Nat :=
  let mid := tanhVal m e
  openNear .tanh x (if neg then mid.neg else mid) (ulpOf mid + 1) inUnit

/-- The value of an SFU function (R130, R131). -/
def sfuValue (f : SfuFn) (x : Word) (r : Rnd) : Nat :=
  match Fmt.f32.value x.toNat with
  | .nan => 0x7FC00000
  | .inf neg =>
    match f, neg with
    | .rcp, n => Fmt.f32.withSign n 0
    | .rsq, false => 0
    | .sqrt, false => 0x7F800000
    | .exp2, true => 0
    | .exp2, false => 0x7F800000
    | .log2, false => 0x7F800000
    | .tanh, n => Fmt.f32.withSign n 0x3F800000
    | _, _ => 0x7FC00000
  | .fin neg m e =>
    match f with
    | .sqrt => sqrtF32 x r
    | .rcp => if m = 0 then Fmt.f32.withSign neg 0x7F800000 else rcpF32 x neg m e
    | .rsq =>
      if m = 0 then Fmt.f32.withSign neg 0x7F800000 else if neg then 0x7FC00000 else rsqF32 x m e
    | .exp2 => exp2F32 x neg m e
    | .log2 => if m = 0 then 0xFF800000 else if neg then 0x7FC00000 else log2F32 x m e
    | .sin => sinF32 x neg m e
    | .cos => cosF32 x neg m e
    | .tanh => if m = 0 then x.toNat else tanhF32 x neg m e

/-- The result of an SFU instruction (R149). -/
def sfuResult (f : SfuFn) (xm : XM) (x : Word) : Word :=
  let y := sfuValue f (modifyWord xm.absA xm.negA x) xm.rnd
  let y1 := match xm.sat, Fmt.f32.value y with
    | true, .inf n => Fmt.f32.withSign n Fmt.f32.maxMag
    | _, _ => y
  BitVec.ofNat 32 (clampTo .f32 xm.clamp y1)

end Sys2Proof
end

