-- ==== Sys2Proof/Machine/Pending.lean ====
section
/-! DEFINITION. The results of long-latency instructions (spec/06 R100 to R102): loads, atomics, the shuffle and the SFU
functions; the continuations of ATOMC (spec/14 R273, R274) and the sleepers that ATOMW wakes (R269, R270). -/

namespace Sys2Proof.Machine

/-- The values a long-latency instruction leaves are written, its sources' last-read releases taken and its flags
cleared (R101). Member 1 of a pair receives the result of a visible act of member 0 (R312). -/
def State.landRegs (s : State) (p : Pending) (ws : List RegWrite) (twin : Bool) : State :=
  let s1 := (s.clearFlags p.id true).release p.tid p.rel
  let s2 := if s1.statusOf p.tid = Status.exited then s1 else s1.writeRegs p.tid ws
  let s3 := match twin, s2.twinOf p.tid with
    | true, some u => if s2.statusOf u = Status.exited then s2 else s2.writeRegs u ws
    | _, _ => s2
  s3.clearFlags p.id false

/-- A long-latency instruction meets poisoned data: it writes nothing (R202, R319). -/
def State.landUe (s : State) (p : Pending) : State := (s.dropFlags p.id).consumeUe p.tid

/-- A loaded value as LD writes it (R193). -/
def loadWrites (sz : LdSize) (d : VReg) (x : Nat) : List RegWrite :=
  let w (i : Nat) : RegWrite := .v (regAt d i) (BitVec.ofNat 32 (x / 2 ^ (32 * i)))
  match sz with
  | .u8 | .u16 | .w => [w 0]
  | .s8 => [.v d (BitVec.ofInt 32 (signedOf 8 x))]
  | .s16 => [.v d (BitVec.ofInt 32 (signedOf 16 x))]
  | .d => [w 0, w 1]
  | .q => [w 0, w 1, w 2, w 3]

/-- Tasks of a context that are launched and not yet placed (R48). -/
def State.pendCnt (s : State) (asid : Nat) : Nat :=
  (s.launches.filter fun l => l.asid == asid && (match l.what with | .task .. => true | .grid .. => false)).length +
    (s.bands.filter fun b => b.asid == asid && b.task && b.state == .pending).length

/-- The home of a physical line as a number: C-dies 0 to 3, the base die 4, peers 5. -/
def homeNum : HomeId → Nat
  | .die d => d
  | .base => 4
  | .peer => 5

/-- The slice of a home that serves a line (R185, log 5): 48 slices on a C-die, 128 on the base die. -/
def sliceOfLine (h : HomeId) (line : Nat) : Nat := Config.sliceOf line % (if h = .base then 128 else 48)

/-- Where a thread launches from (R47). -/
def State.sourceOf (s : State) (t : Tid) (pc : Pc) : Source :=
  ⟨s.coreOf t, ((s.troop? t.band t.troop).map (·.tslot)).getD 0, t.lane, pc⟩

/-- The device writes a ring entry through the context's page tables (R274). Software finds no defined contents in the ring: which
entry is written, and with what, are free values; the model keeps what the entry says beside memory. Where software has not
mapped the ring nothing is written (log 46). -/
def State.writeRing (s : State) (asid : Nat) : State :=
  match s.ctx? asid with
  | none => s
  | some c =>
    match s.translateDev asid (c.ringbase + 32 * (Config.ringSlot s.fresh).val) .write with
    | .ok (.mem pa h) => s.setHomeBytes h pa ((List.range 32).map (Config.ringByte s.fresh))
    | _ => s

/-- ReserveSlot and Place of R273, R274: the state with the continuation placed in the slice's queue or the context's
ring; none where neither has room. -/
def State.placeContinuation (s : State) (t : Tid) (pc : Pc) (h : HomeId) (line va task : Nat) (old tag : Word) :
    Option State :=
  match s.band? t.band with
  | none => none
  | some b =>
    let home := homeNum h
    let slice := sliceOfLine h line
    let die := match h with | .die d => some d | .base => none | .peer => some (dieOf (s.coreOf t))
    let p : Packet := ⟨home, slice, b.asid, task, old, va, tag, b.id, s.fresh, b.depth + 1, b.prio, b.gridseq, die,
      s.sourceOf t pc⟩
    let s1 := { s with fresh := s.fresh + 1, children := s.children ++ [(s.fresh, b.id)] }
    let used := (s.packets.filter fun q => q.home == home && q.slice == slice).length
    let c := s.ctx? b.asid
    let pendmax := (c.map (·.pendmax)).getD 0
    if used < 64 && s.pendCnt b.asid < pendmax then some { s1 with packets := s1.packets ++ [p] }
    else if ((c.map (·.ring)).getD 4096) < 4096 then
      some ((({ s1 with rings := s1.rings ++ [p] } : State).modCtx b.asid fun c => { c with ring := c.ring + 1 }).writeRing b.asid)
    else none

/-- A sleeper returns (R270): its reason and the word, an acquire at `.device` for reasons 0 and 1, ready at the next
instruction. -/
def State.returnSleeper (s : State) (x : Sleeper) (reason : Nat) (w : Word) : State :=
  let s1 : State := { s with sleepers := s.sleepers.filter fun y => y.id != x.id }
  let s2 := s1.writeRegs x.tid [.v x.d (BitVec.ofNat 32 reason), .v (regAt x.d 1) w]
  let s3 := if reason ≤ 1 then s2.acquireLines x.tid .device else s2
  match s3.thread? x.tid with
  | some th => s3.makeReady x.tid th.npc
  | none => s3

/-- Wake of R270: every sleeper of a word returns with reason 1. -/
def State.wakeWord (s : State) (pa : Nat) (w : Word) : State :=
  (s.sleepers.filter fun x => x.pa == pa).foldl (fun s x => s.returnSleeper x 1 w) s

/-- ATOMC at its home (R273): the status. -/
def State.landAtomc (s : State) (p : Pending) (loc : Loc) (va : Nat) (addeq : Bool) (task : Nat) (b c tag : Word) (d : VReg)
    (acq : Bool) : State :=
  let core := s.coreOf p.tid
  let asid := s.asidOf p.tid
  match loc with
  | .bench .. => s.landRegs p [] true
  | .mem pa h =>
    let (s1, o, bad) := s.readSite core asid .home loc 4 .norm
    if bad then s1.landUe p
    else
      let n := if addeq then (o + b.toNat) % 2 ^ 32 else b.toNat
      let hit := if addeq then n = c.toNat else o = c.toNat
      let fin (s : State) (st : Nat) : State :=
        (if acq then s.acquireLines p.tid .device else s).landRegs p [.v d (BitVec.ofNat 32 st)] true
      if hit then
        match s1.placeContinuation p.tid p.pc h (lineKey h pa) va task (BitVec.ofNat 32 o) tag with
        | none => fin s1 2
        | some s2 => fin ((s2.commit p.tid.band).writeSite core asid .home loc 4 n .norm) 0
      else
        let s2 := s1.commit p.tid.band
        fin (if addeq then s2.writeSite core asid .home loc 4 n .norm else s2) 1

/-- ATOMW at its home (R269). -/
def State.landAtomw (s : State) (p : Pending) (loc : Loc) (b c : Word) (d : VReg) (acq : Bool) : State :=
  let core := s.coreOf p.tid
  let asid := s.asidOf p.tid
  match loc with
  | .bench .. => s.landRegs p [] true
  | .mem pa _ =>
    let (s1, o, bad) := s.readSite core asid .home loc 4 .norm
    if bad then s1.landUe p
    else
      let sum : Int := (o : Int) + b.toInt
      let n := wrapInt 32 sum
      let s2 := (s1.commit p.tid.band).writeSite core asid .home loc 4 n .norm
      let s3 := if (o : Int) < c.toNat && (c.toNat : Int) ≤ sum then s2.wakeWord pa (BitVec.ofNat 32 n) else s2
      (if acq then s3.acquireLines p.tid .device else s3).landRegs p [.v d (BitVec.ofNat 32 o)] true

/-- A long-latency operation reads what is left to read and writes its result (R100, R101). -/
def State.land (s : State) (p : Pending) : State :=
  let s := { s with pending := s.pending.filter fun q => q.id != p.id }
  let core := s.coreOf p.tid
  let asid := s.asidOf p.tid
  match p.what with
  | .regs ws => s.landRegs p ws false
  | .sfu f m d a =>
    if s.poisonedReg p.tid a then s.landUe p
    else s.landRegs p [.v d (sfuResult f (xmOrPlain m) (s.srcA m p.tid a))] false
  | .shfl m d a b =>
    if s.poisonedReg p.tid a || s.poisonedReg p.tid b then s.landUe p
    else s.landRegs p [.v d (s.readLane p.tid a ((s.srcB m p.tid b).toNat % 64))] false
  | .load loc site sz pol d =>
    let (s1, x, bad) := s.readSite core asid site loc (ldBytes sz) pol
    if bad then s1.landUe p else s1.landRegs p (loadWrites sz d x) false
  | .atom loc _ site op w b c d acq =>
    let bits := if w then 64 else 32
    let (s1, o, bad) := s.atomicAt p.tid.band core asid site loc (if w then 8 else 4)
      fun o => newValue op bits o (b.toNat % 2 ^ bits) (c.toNat % 2 ^ bits)
    if bad then s1.landUe p
    else
      let s0 := if site = .home then s1.commit p.tid.band else s1
      let s2 := match acq with | some sc => s0.acquireLines p.tid sc | none => s0
      s2.landRegs p (if w then pairWrites d (BitVec.ofNat 64 o) else [.v d (BitVec.ofNat 32 o)]) (site = .home)
  | .atomc loc va addeq task b c tag d acq => s.landAtomc p loc va addeq task b c tag d acq
  | .atomw loc b c d acq => s.landAtomw p loc b c d acq

/-- A long-latency operation may finish now: nothing older that it must follow is left (R194, R252). -/
def State.canLand (s : State) (p : Pending) : Bool :=
  match p.what.place with
  | none => true
  | some (l, n) => !s.blocked p.id p.tid p.issue l n

/-- An access in flight may be performed now. -/
def State.canPerform (s : State) (f : Flight) : Bool := !s.blocked f.id f.tid f.issue f.loc f.act.size

/-- Everything a band still has in progress in registers and memory is finished, oldest first (R308 step 3). -/
def State.landBand (s : State) (b : Nat) : State :=
  let ps := (s.pending.filter fun p => p.tid.band == b).map (·.id)
  let fs := (s.flights.filter fun f => f.tid.band == b).map (·.id)
  (sortBy (fun i => i) (ps ++ fs)).foldl (fun s i =>
    match s.pending.find? (·.id == i), s.flights.find? (·.id == i) with
    | some p, _ => s.land p
    | none, some f => s.performFlight f
    | none, none => s) s

/-- LONG_LATENCY_RESULT (R101). -/
def execLongLatencyResult (id : Nat) (s : State) : Host.Outcome State Fault Refusal :=
  match s.pending.find? (·.id == id) with
  | some p => .next (if s.canLand p then s.land p else s)
  | none => .next s

end Sys2Proof.Machine
end

