-- ==== Sys2Proof/Machine/Borrow.lean ====
section
/-! DEFINITION. The borrow instructions (spec/09 R168 to R176) and the ownership messages (R177 to R182, spec/16 R320),
with the peer bound (spec/20 R345). -/

namespace Sys2Proof.Machine

/-- Kinds as BQRY reads them (R172). -/
def kindCode : Kind → Nat
  | .e => 0 | .s => 1 | .a => 2

/-- Spaces as BQRY reads them (R172). -/
def spaceCode : Space → Nat
  | .region => 0 | .bench => 1 | .peer => 2

/-- States as BQRY reads them (R172). -/
def gstateCode : GState → Nat
  | .empty => 0 | .pending => 1 | .held => 2 | .refused => 3

/-! ### Taking -/

/-- BOR finds its register ready to be asked for: the partner of a redundant pair has issued the same (R180). -/
def State.pairedAsk (s : State) (t : Tid) (g : GReg) (r : Region) : Bool :=
  match s.twinOf t with
  | none => true
  | some u =>
    let q := s.regT u g
    q.state = .pending && q.base = r.base && q.len = r.len && q.kind = r.kind

/-- BOR's request (R170, R180): the register becomes PENDING and its pieces are asked for, once for a pair, under the number
that the first of its two BORs has taken. The answer's number is also returned. -/
def State.askBorrow (s : State) (t : Tid) (g : GReg) (kind : Kind) (nowait : Bool) (base len : Nat) : State × Nat :=
  let r : Region := { Region.none with state := .pending, kind := kind, base := base, len := len, top := true }
  let first := !s.pairedAsk t g r
  let tag := match s.twinOf t with
    | some u => if first then s.fresh else (s.regT u g).family
    | none => s.fresh
  let s1 := s.next.setReg t g { r with family := tag }
  if first then (s1, tag)
  else (s1.startBorrow tag (askerOf t g) (s1.asidOf t) base len kind nowait (dieOf (s1.coreOf t)), tag)

/-- BOR (R170). One that an asynchronous trap has interrupted makes no check and no request when it is executed again. -/
def execBor (m : Mods) (kind : Kind) (nowait : Bool) (d : GReg) (a b : VReg) (s : State) :
    Host.Outcome State Fault Refusal :=
  let bu := s.curBundle
  let ra := regGroup a 2
  .next (s.runReads m (ra ++ [b]) (lastReads m ra [b]) fun v s t =>
    let waits (s : State) : State × Flow :=
      if (s.regT t d).state = .pending then (s, .wait (.borrow d)) else (s, .next)
    if (s.thread? t).bind (·.borWait) = some d.val && !s.inHandler t then
      waits (s.modThread t fun th => { th with borWait := none })
    else
      let base := (v.srcA2 m t a).toNat
      let len := (v.srcB m t b).toNat
      let st := (s.regT t d).state
      if st ≠ .empty && st ≠ .refused then (s, .trap (Fail.plain cBorrowState 1))
      else if base % 128 ≠ 0 || len % 128 ≠ 0 || len = 0 then (s, .trap ⟨cAlign, 0, BitVec.ofNat 57 base⟩)
      else if 2 ^ 57 < base + len then (s, .trap ⟨cXlate, 0x90, BitVec.ofNat 57 base⟩)
      else
        let (s1, tag) := s.askBorrow t d kind nowait base len
        if nowait then
          (if (s1.regT t d).state = .pending then s1.setFlag t bu.seta tag false else s1, .next)
        else waits s1)

/-! ### Carving -/

/-- The dirty lines of a range that any holder of a parent has in its L1 go to the sharing level; where that is an L2,
the L1s of the child's holders drop the range (R173). -/
def State.carveLines (s : State) (t : Tid) (p c : GReg) (base len : Nat) : State :=
  if !s.spans t.band p || (s.regT t p).space = .bench then s
  else
    let lines := s.cachedLines (s.asidOf t) base len
    let s1 := (s.holderCores t.band t.troop p).foldl (fun s k => lines.foldl (fun s l => s.writeDownL1 k l) s) s
    (s1.holderCores t.band t.troop c).foldl (fun s k => lines.foldl (fun s l => s.invalL1 k l) s) s1

/-- REB (R173). It waits for the thread's own accesses, whose stores the child must read (log 15). -/
def execReb (m : Mods) (toS : Bool) (d a : GReg) (b : VReg) (s : State) : Host.Outcome State Fault Refusal :=
  let rb := regGroup b 2
  .next (s.runReads m rb (lastReads m [] rb) fun v s t =>
    let p := s.regT t a
    let off := (v.srcB m t b).toNat
    let len := (v.srcB m t (regAt b 1)).toNat
    let k := if toS then Kind.s else p.kind
    let child : KidRange := ⟨p.base + off, len, k⟩
    let clash (x : KidRange) : Bool :=
      meets x.base x.len child.base len && !(x.kind = k && k ≠ .e)
    if p.state ≠ .held || (s.regT t d).state ≠ .empty then (s, .trap (Fail.plain cBorrowState 1))
    else if p.kids.length = 64 then (s, .trap (Fail.plain cBorrowState 2))
    else if toS && p.kind = .a then (s, .trap (Fail.plain cBorrowState 5))
    else if off % 128 ≠ 0 || len % 128 ≠ 0 || len = 0 then (s, .trap ⟨cAlign, 0, BitVec.ofNat 57 off⟩)
    else if p.len < off + len then (s, .trap ⟨cBorrowAccess, 1, BitVec.ofNat 57 off⟩)
    else if p.kids.any clash then (s, .trap ⟨cBorrowAccess, 3, BitVec.ofNat 57 off⟩)
    else if s.flights.any (fun f => f.tid == t && meets f.va f.act.size child.base len) then (s, .again (.order .core))
    else
      let c : Region := ⟨.held, p.space, k, p.base + off, len, p.deed, false, a.val, [], 0, p.family⟩
      let s1 := s.setReg t a { p with kids := p.kids ++ [child] }
      ((s1.setReg t d c).carveLines t a d child.base len, .next))

/-- A family gains or loses a member; member 1 of a pair leaves the count to member 0 (R174, R180). -/
def State.countFamily (s : State) (t : Tid) (fam : Nat) (up : Bool) : State :=
  if s.second t.band then s
  else
    let fams := modIf (fun f => f.id == fam)
      (fun (f : Family) => { f with members := if up then f.members + 1 else f.members - 1 }) s.families
    { s with families := fams }

/-- The parent register of a child, with its child ranges changed. -/
def State.modKids (s : State) (t : Tid) (r : Region) (f : List KidRange → List KidRange) : State :=
  s.modReg t.band t.troop (Fin.ofNat 16 r.parent) fun p => { p with kids := f p.kids }

/-- SPL (R174). -/
def execSpl (m : Mods) (d a : GReg) (b : VReg) (s : State) : Host.Outcome State Fault Refusal :=
  .next (s.runReads m [b] (lastReads m [] [b]) fun v s t =>
    let x := s.regT t a
    let sp := (v.srcB m t b).toNat
    let parent := s.regT t (Fin.ofNat 16 x.parent)
    if x.state ≠ .held || !x.kids.isEmpty || (s.regT t d).state ≠ .empty then (s, .trap (Fail.plain cBorrowState 1))
    else if sp % 128 ≠ 0 then (s, .trap ⟨cAlign, 0, BitVec.ofNat 57 sp⟩)
    else if sp = 0 || x.len ≤ sp then (s, .trap ⟨cBorrowAccess, 1, BitVec.ofNat 57 sp⟩)
    else if !x.top && parent.kids.length = 64 then (s, .trap (Fail.plain cBorrowState 2))
    else
      let hi : Region := { x with base := x.base + sp, len := x.len - sp, kids := [] }
      let lo : Region := { x with len := sp }
      let s1 := (s.setReg t d hi).setReg t a lo
      (if x.top then s1.countFamily t x.family true
       else s1.modKids t x fun ks => ks.erase ⟨x.base, x.len, x.kind⟩ ++ [⟨lo.base, lo.len, x.kind⟩, ⟨hi.base, hi.len, x.kind⟩],
       .next))

/-- Siblings of R174: one level is assured by the encoding; one parent, or one family at the top. -/
def siblings (x y : Region) : Bool := x.top == y.top && (if x.top then x.family == y.family else x.parent == y.parent)

/-- JON (R174). -/
def execJon (m : Mods) (d a : GReg) (s : State) : Host.Outcome State Fault Refusal :=
  .next (s.runPlain m fun _ s t =>
    let x := s.regT t a
    let y := s.regT t d
    if x.state ≠ .held || y.state ≠ .held || !x.kids.isEmpty || !y.kids.isEmpty then (s, .trap (Fail.plain cBorrowState 1))
    else if !siblings x y || x.kind ≠ y.kind || x.space ≠ y.space ||
        (x.base + x.len ≠ y.base && y.base + y.len ≠ x.base) then (s, .trap (Fail.plain cBorrowState 4))
    else
      let z : Region := { y with base := min x.base y.base, len := x.len + y.len }
      let s1 := (s.setReg t d z).setReg t a Region.none
      (if x.top then s1.countFamily t x.family false
       else s1.modKids t x fun ks =>
         (ks.erase ⟨x.base, x.len, x.kind⟩).erase ⟨y.base, y.len, y.kind⟩ ++ [⟨z.base, z.len, z.kind⟩], .next))

/-! ### Returning -/

/-- The dirty bytes an RTN writes back, in address order (R311). -/
def State.dirtyBytes (s : State) (t : Tid) (g : GReg) : List Byte :=
  let r := s.regT t g
  if r.kind ≠ .e || r.space = .bench then []
  else
    let cores := s.holderCores t.band t.troop g
    ((s.rangeLines (s.asidOf t) r.base r.len).map fun line =>
      let l1 := cores.filterMap fun c => s.l1Line? c line
      let l2 := (cores.map dieOf).eraseDups.filterMap fun d => s.l2Line? d line
      (List.range 128).filterMap fun i =>
        ((l1 ++ l2).find? fun l => l.dirty.getLsbD i).map fun l => BitVec.ofNat 8 (lineField l.data i 1)).flatten

/-- A top-level RTN is a visible act (R311). -/
def actOfRtn (a : GReg) (_v s : State) (t : Tid) : Option Act :=
  let r := s.regT t a
  if r.state = .held && r.top && r.space != .bench then some ⟨[], [r.base], s.dirtyBytes t a⟩ else none

/-- Member 1's part of a return: the register becomes EMPTY and its dirty lines are discarded (R312). -/
def State.twinReturn (s : State) (a : GReg) (u : Tid) : State :=
  let r := s.regT u a
  let cores := s.holderCores u.band u.troop a
  let s1 := if r.kind = .e then
      s.discardLines cores (cores.head?.map dieOf) (s.cachedLines (s.asidOf u) r.base r.len)
    else s
  s1.setReg u a Region.none

/-- RTN (R175, R176): the thread does not wait for completion. A return to a home is irrevocable (R316). -/
def execRtn (m : Mods) (rel : Bool) (a : GReg) (s : State) : Host.Outcome State Fault Refusal :=
  .next (s.runThreads m [] [] (actOfRtn a) (fun s u => s.twinReturn a u) fun _ s t =>
    let r := s.regT t a
    match r.state with
    | .empty => (s, .trap (Fail.plain cBorrowState 1))
    | .pending => (s.emptyReg t a, .next)
    | .refused => (s.emptyReg t a, .next)
    | .held =>
      if !r.kids.isEmpty then (s, .trap (Fail.plain cBorrowState 1))
      else if (s.twinOf t).isSome && r.top && r.space != .bench && s.regBusy t a then (s, .again (.drain a))
      else
        let s1 := if r.top && r.space != .bench then s.commit t.band else s
        (s1.startReturn t a rel, .next))

/-! ### Tests -/

/-- BTST (R171). -/
def execBtst (m : Mods) (c : BtstCond) (d : PReg) (a : GReg) (s : State) : Host.Outcome State Fault Refusal :=
  .next (s.runPlain m fun _ s t =>
    let r := s.regT t a
    let x := match c with
      | .held => r.state == .held
      | .pending => r.state == .pending
      | .refused => r.state == .refused
      | .empty => r.state == .empty
      | .kids => !r.kids.isEmpty
    (s.writeP t d x, .next))

/-- Stat of R172. -/
def Region.stat (r : Region) : Nat :=
  gstateCode r.state + 2 ^ 3 * kindCode r.kind + 2 ^ 5 * spaceCode r.space + 2 ^ 7 * (if r.top then 1 else 0) +
    2 ^ 8 * r.kids.length + 2 ^ 16 * r.parent + 2 ^ 24 * (if r.state = .refused then r.sub else 0)

/-- A field BQRY reads; an EMPTY register reads 0 (R157, R171). -/
def Region.field (r : Region) (f : BqryField) : Word :=
  if r.state = .empty then 0
  else BitVec.ofNat 32 (match f with
    | .lo => r.base
    | .hi => r.base / 2 ^ 32
    | .len => r.len
    | .stat => r.stat
    | .deed => r.deed)

/-- BQRY (R171). -/
def execBqry (m : Mods) (f : BqryField) (d : VReg) (a : GReg) (s : State) : Host.Outcome State Fault Refusal :=
  .next (s.runPlain m fun _ s t =>
    match s.take t [d] with
    | .error e => (s, e)
    | .ok s1 => (s1.writeV t d ((s.regT t a).field f), .next))

/-- BWAIT (R171). -/
def execBwait (m : Mods) (a : GReg) (s : State) : Host.Outcome State Fault Refusal :=
  .next (s.runPlain m fun _ s t =>
    if (s.regT t a).state = .pending then (s, .wait (.region a)) else (s, .next))

/-! ### Messages -/

/-- DREQ (R165): a request arrives at its home. -/
def execDreq (msg : Nat) (s : State) : Host.Outcome State Fault Refusal :=
  match s.msg? msg with
  | some m => match m.body with
    | .dreq r => .next ((s.dropMsg msg).arrive m.home m.who r)
    | _ => .next s
  | none => .next s

/-- A message as the module that asked knows it: its own tag, or the deed id that it released. -/
def MsgBody.abroad : MsgBody → MsgBody
  | .dgrant tag deed kind => .dgrant (tag % 2 ^ 64) deed kind
  | .drefuse tag sub => .drefuse (tag % 2 ^ 64) sub
  | .drelack ret => .drelack (ret % 2 ^ 64)
  | b => b

/-- A message that leaves for another module (R343). -/
def State.toPeer (s : State) (m : Msg) : Option State :=
  match m.who with
  | .peer n => some { s.dropMsg m.id with outbox := s.outbox ++ [.deed n m.body.abroad] }
  | _ => none

/-- DGRANT (R161, R164). -/
def execDgrant (msg : Nat) (s : State) : Host.Outcome State Fault Refusal :=
  match s.msg? msg with
  | some m => match m.body with
    | .dgrant tag deed kind => .next ((s.toPeer m).getD ((s.dropMsg msg).takeGrant m.home m.who tag deed kind))
    | _ => .next s
  | none => .next s

/-- DREFUSE (R161). -/
def execDrefuse (msg : Nat) (s : State) : Host.Outcome State Fault Refusal :=
  match s.msg? msg with
  | some m => match m.body with
    | .drefuse tag sub => .next ((s.toPeer m).getD ((s.dropMsg msg).takeRefusal tag (refusalSub m.home sub)))
    | _ => .next s
  | none => .next s

/-- DCANCEL (R177). -/
def execDcancel (msg : Nat) (s : State) : Host.Outcome State Fault Refusal :=
  match s.msg? msg with
  | some m => match m.body with
    | .dcancel tag => .next ((s.dropMsg msg).takeCancel m.home tag)
    | _ => .next s
  | none => .next s

/-- DREL (R177). -/
def execDrel (msg : Nat) (s : State) : Host.Outcome State Fault Refusal :=
  match s.msg? msg with
  | some m => match m.body with
    | .drel idx _ fam ret => .next ((s.dropMsg msg).takeRelease m.home m.who idx fam ret)
    | _ => .next s
  | none => .next s

/-- DRELACK (R177). -/
def execDrelack (msg : Nat) (s : State) : Host.Outcome State Fault Refusal :=
  match s.msg? msg with
  | some m => match m.body with
    | .drelack ret => .next ((s.toPeer m).getD ((s.dropMsg msg).takeAck ret))
    | _ => .next s
  | none => .next s

/-- RTN_WRITEBACK_DONE (R175). -/
def execRtnWritebackDone (ret : Nat) (s : State) : Host.Outcome State Fault Refusal :=
  match s.returns.find? (·.id == ret) with
  | some r => .next (if s.returnReady r then s.finishWriteBack r else s)
  | none => .next s

/-- DEEDWAIT_TIMEOUT (R166): a request still queued when its bound has run out. -/
def execDeedwaitTimeout (tag : Nat) (s : State) : Host.Outcome State Fault Refusal :=
  match s.homes.find? fun h => h.queue.any fun q => q.tag == tag && !q.nowait && q.deadline ≤ s.clock with
  | some h => .next (s.expire h.id tag)
  | none => .next s

/-- DEED_ENTRY_LOST (R181, R320); an uncorrectable error is a snapshot trigger (R350). -/
def execDeedEntryLost (home entry : Nat) (s : State) : Host.Outcome State Fault Refusal :=
  .next ((s.loseEntry home entry).snapEvent 0)

/-- DQUERY (R181): a die, or the scheduler for SAVED bands, answers with its holders. -/
def execDquery (msg : Nat) (s : State) : Host.Outcome State Fault Refusal :=
  match s.msgs.find? (·.id == msg) with
  | some m => match m.body with
    | .dquery idx die => .next ((s.dropMsg msg).send m.home m.who (.dhold idx die (s.holdersOf m.home idx die)))
    | _ => .next s
  | none => .next s

/-- DHOLD (R320). -/
def execDhold (msg : Nat) (s : State) : Host.Outcome State Fault Refusal :=
  match s.msgs.find? (·.id == msg) with
  | some m => match m.body with
    | .dhold idx _ found => .next ((s.dropMsg msg).takeHold m.home idx found)
    | _ => .next s
  | none => .next s

/-- DEED_REBUILD_END (R320): every answer to a rebuild has arrived. -/
def execDeedRebuildEnd (home : Nat) (s : State) : Host.Outcome State Fault Refusal :=
  match (s.home? home).bind fun h => h.lost.find? fun r => r.waiting == 0 with
  | some r => .next (s.endRebuild home r)
  | none => .next s

end Sys2Proof.Machine
end

