-- ==== Sys2Proof/Machine/Csr.lean ====
section
/-! DEFINITION. Effective priority and donation (spec/03 R52, R53) and the control and status registers (spec/04 R70, and
R58, R184, R204, R227, R247, R281, R295, R321, R322, R353). -/

namespace Sys2Proof.Machine

/-! ### Priority -/

/-- A band waits in CHWAIT for a child (R53). -/
def State.waitsChild (s : State) (b child : Nat) : Bool :=
  (s.bandTids b).any fun t =>
    match s.statusOf t with
    | .waiting (.chwait ks) => ks.contains child
    | _ => false

/-- The registers on which threads of a band wait in BOR or BWAIT (R53). -/
def State.waitedRegs (s : State) (b : Nat) : List Region :=
  (s.bandTids b).filterMap fun t =>
    match s.statusOf t with
    | .waiting (.region g) => some (s.regT t g)
    | .waiting (.borrow g) => some (s.regT t g)
    | _ => none

/-- Two borrows conflict (R165): their ranges overlap and they are not both S or both A. -/
def Region.conflicts (x : Region) (y : KidRange) : Bool :=
  x.base < y.base + y.len && y.base < x.base + x.len && !(x.kind == y.kind && x.kind != .e)

/-- What a band holds of the Deed Tables, as ranges with their kind (R53): the pieces of every family of which it holds a
member or still returns one (R175), and the granted pieces of its requests that are still PENDING (R164). -/
def State.borrowed (s : State) (b : Band) : List KidRange :=
  let regs := (b.g ++ (b.troops.map (·.g)).flatten).filter fun r => r.state == .held && r.space != .bench
  let fams := regs.map (·.family) ++ (s.returns.filter fun r => r.band == b.id).map (·.reg.family)
  let mine (w : Asker) : Bool :=
    match w with
    | .troop x _ _ => x == b.id
    | .band x _ => x == b.id
    | _ => false
  ((s.families.filter fun f => f.space != .bench && fams.contains f.id).map fun f =>
      f.got.map fun p => (⟨p.base, p.len, f.kind⟩ : KidRange)).flatten ++
    ((s.borrows.filter fun x => mine x.who).map fun x => x.got.map fun p => (⟨p.base, p.len, x.kind⟩ : KidRange)).flatten

/-- A band holds a borrow that conflicts with a waited one, in one deed domain (R53). -/
def State.holdsAgainst (s : State) (b w : Band) : Bool :=
  let dom (x : Band) : Nat := ((s.ctx? x.asid).map (·.domain)).getD 0
  dom b == dom w && (s.waitedRegs w.id).any fun r => (s.borrowed b).any fun k => r.conflicts k

/-- The child number under which a band counts with its launcher (R44): its own, or its grid's. -/
def State.childOf (s : State) (b : Band) : Option (Nat × Nat) :=
  match b.grid with
  | some g => (s.grid? g).bind (·.parent)
  | none => b.parent

/-- A waiter donates to a producer along one edge of R53. -/
def State.donates (s : State) (w b : Band) : Bool :=
  w.id != b.id && b.state != .retired && (s.holdsAgainst b w ||
    match s.childOf b with
    | some (p, c) => (s.unit p).contains w.id && s.waitsChild w.id c
    | none => false)

/-- Priorities by band, raised along one more edge. -/
def State.donateOnce (s : State) (ps : List (Nat × Nat)) : List (Nat × Nat) :=
  s.bands.map fun b =>
    (b.id, (s.bands.filter fun w => s.donates w b).foldl
      (fun m w => max m (look 0 w.id ps)) (max b.prio b.aging))

/-- Effective priorities of the bands (R52): donations reach depth 4 from the waiter (R53). -/
def State.effPrios (s : State) : List (Nat × Nat) :=
  s.donateOnce (s.donateOnce (s.donateOnce (s.donateOnce (s.bands.map fun b => (b.id, max b.prio b.aging)))))

/-- Effective priority of a band (R52). -/
def State.effPrio (s : State) (b : Nat) : Nat := look 0 b s.effPrios

/-! ### Reading -/

/-- A bit as a number. -/
def bitN (b : Bool) : Nat := if b then 1 else 0

/-- TSTAT (R321). -/
def State.tstat (s : State) (t : Tid) : Nat :=
  match s.thread? t, s.band? t.band with
  | some th, some b =>
    let q := ((s.troop? t.band t.troop).map fun x => x.queue.length).getD 0
    let inside := if th.depth then
        1 + 2 * bitN th.trap.async + 2 ^ 2 * th.trap.slot + 2 ^ 4 * th.trap.tpc.slot.val + 2 ^ 6 * th.trap.tnpc.slot.val +
          2 ^ 8 * q + 2 ^ 14 * bitN b.mig
      else 0
    inside + 2 ^ 11 * bitN th.susp + 2 ^ 12 * bitN th.rolled + 2 ^ 13 * bitN b.pair.isSome
  | _, _ => 0

/-- The counter of a class in a troop (R206): its operations that have not retired. -/
def State.countOf (s : State) (b t : Nat) (c : OpClass) : Nat :=
  (s.ops.filter fun o => o.tid.band == b && o.tid.troop == t && o.cls == c).length

/-- Four counters in one word (R227). -/
def State.counters (s : State) (t : Tid) (cs : List OpClass) : Nat :=
  (((List.range cs.length).zip cs).map fun e => 2 ^ (8 * e.1) * (s.countOf t.band t.troop e.2 % 256)).sum

/-- DECAY of a band as its threads read it: a write of the clock, which the rounds see from the next one on (R246). -/
def State.decayNow (s : State) (b : Nat) : Word :=
  (((s.now.decays.filter fun e => e.1 == b).getLast?.map (·.2)).or ((s.band? b).map (·.decay))).getD 0

/-- The counts a core keeps for a context. -/
def State.coreCounts (s : State) (core asid : Nat) : CoreCounts :=
  ((s.core? core).bind fun c => c.counts.find? (·.asid == asid)).getD ⟨asid, 0, 0, 0, 0, 0, 0, 0⟩

/-- Free entries of a Deed Table. -/
def State.deedFree (s : State) (home : Nat) : Nat :=
  Config.deedEntries home - ((s.home? home).map (·.entries.length)).getD 0

/-- The peer ports that are up (R353). -/
def State.peerUp (s : State) : Nat :=
  ((s.dev.links.filter fun l => 16 ≤ l.id && l.id < 24 && l.up).map fun l => 2 ^ (l.id - 16)).sum

/-- CSRs of the troop and trap block (R321). -/
def State.readTrapBlock (s : State) (t : Tid) (n : Nat) : Nat :=
  let th := s.thread? t
  let r := (th.map (·.trap)).getD TrapRegs.zero
  let c := s.ctxOf t
  match n with
  | 0x000 => s.tstat t
  | 0x001 => r.cause
  | 0x002 => r.addr.toNat
  | 0x003 => r.info.toNat
  | 0x004 => r.tpc.p.toNat
  | 0x005 => r.addr.toNat / 2 ^ 32
  | 0x006 => (c.map (·.thentry.toNat)).getD 0xFFFFFFFF
  | 0x007 => s.freeSlots (s.coreOf t)
  | 0x008 => r.tnpc.p.toNat
  | 0x009 => (c.map (·.thseg)).getD 0
  | _ => (c.map (·.thseg)).getD 0 / 2 ^ 32

/-- CSRs of the memory, engine and matrix blocks (R184, R204, R227, R247). -/
def State.readEngineBlock (s : State) (t : Tid) (n : Nat) : Nat :=
  let r := ((s.thread? t).map (·.trap)).getD TrapRegs.zero
  let core := s.coreOf t
  let c := s.ctxOf t
  let k := s.coreCounts core (s.asidOf t)
  let x := s.core? core
  match n with
  | 0x040 => (c.map (·.deedwait)).getD 16
  | 0x041 => min 0xFFFF (s.deedFree (dieOf core)) + 2 ^ 16 * min 0xFFFF (s.deedFree 4)
  | 0x042 => (c.map (·.borref)).getD 0
  | 0x043 => (c.map (·.borque)).getD 0
  | 0x060 => k.lreq
  | 0x061 => k.rreq
  | 0x062 => k.tlbmiss
  | 0x063 => k.walks
  | 0x089 => s.counters t [.tag0, .tag1, .tag2, .tag3]
  | 0x08A => s.counters t [.matrix, .gather, .coll, .nearmem]
  | 0x08B => (c.map (·.cfcount)).getD 0
  | 0x0C0 => (s.decayNow t.band).toNat
  | 0x0C1 => k.mxsusp
  | 0x0C2 => k.mgov
  | 0x0C3 => bitN ((x.map (·.mxctl)).getD true)
  | 0x0C4 => k.mxsloc.toNat
  | 0x0C5 => (x.map (·.mgcapNext)).getD 512
  | 0x0C6 => (x.map (·.mgstepNext)).getD 128
  | 0x0C7 => (x.map (·.mgspent)).getD 0
  | _ => ((r.cf[n - 0x080]?).getD 0).toNat

/-- CSRs of the scheduling, collective and containment blocks (R58, R295, R322). -/
def State.readWorkBlock (s : State) (t : Tid) (n : Nat) : Nat :=
  let b := s.band? t.band
  let c := s.ctxOf t
  let r := ((s.thread? t).map (·.trap)).getD TrapRegs.zero
  let sig := ((s.troop? t.band t.troop).map (·.sig)).getD 0
  let n0 (f : Band → Nat) : Nat := (b.map f).getD 0
  let c0 (f : Ctx → Nat) : Nat := (c.map f).getD 0
  match n with
  | 0x100 => s.dev.turn
  | 0x101 => s.effPrio t.band + 2 ^ 2 * n0 (·.prio) + 2 ^ 4 * n0 (·.aging)
  | 0x102 => n0 (·.depth)
  | 0x103 => n0 (·.x)
  | 0x104 => n0 (·.y)
  | 0x105 => n0 (·.z)
  | 0x106 => n0 (·.gridseq.toNat)
  | 0x107 => s.pendCnt (s.asidOf t)
  | 0x108 => n0 (·.turns)
  | 0x109 => c0 (·.deperr)
  | 0x140 => ((r.ck[0]?).getD 0).toNat
  | 0x141 => ((r.ck[1]?).getD 0).toNat
  | 0x142 => ((r.ck[2]?).getD 0).toNat
  | 0x143 => c0 (·.collwait)
  | 0x144 => c0 (·.ckcount)
  | 0x145 => 256 - s.chunks.length
  | 0x180 => c0 (·.fqhead.toNat)
  | 0x181 => c0 (·.fqtail.toNat)
  | 0x182 => c0 (·.fqlost)
  | 0x183 => c0 (·.rollmax)
  | 0x184 => n0 (·.rollCount)
  | 0x185 => c0 (·.pairwait)
  | 0x186 => Config.undoLines - s.undoUsed (dieOf (s.coreOf t))
  | 0x187 => ((s.core? (s.coreOf t)).map (·.cecnt)).getD 0
  | 0x188 => n0 fun b => bitN b.hasPoint + 2 * bitN b.committed + 4 * bitN b.undoOver + 2 ^ 8 * (b.rollbacks % 256)
  | 0x189 => n0 fun b => (b.pair.map fun p => 1 + 2 * p.1).getD 0
  | 0x18A => sig.toNat
  | _ => sig.toNat / 2 ^ 32

/-- CSRs of the device and snapshot block (R353). -/
def State.readDeviceBlock (s : State) (core n : Nat) : Nat :=
  match n with
  | 0x1C0 => Config.devid
  | 0x1C1 => Config.features
  | 0x1C2 => Config.features / 2 ^ 32
  | 0x1C3 => s.dev.modnum
  | 0x1C4 => s.dev.snap.seq
  | 0x1C5 => s.dev.snap.miss
  | 0x1C6 => s.dev.snapctl.toNat
  | 0x1C7 => s.dev.devstat.toNat
  | 0x1C8 => s.dev.pwrw
  | 0x1C9 => s.dev.pcap
  | 0x1CA => ((s.die? (dieOf core)).map (·.temp)).getD 0
  | 0x1CB => s.dev.peerwait
  | _ => s.peerUp

/-- The value of a CSR as a thread reads it (R281). -/
def State.csrRead (s : State) (t : Tid) (n : Nat) : Word :=
  BitVec.ofNat 32 (
    if n < 0x040 then s.readTrapBlock t n
    else if n < 0x100 then s.readEngineBlock t n
    else if n < 0x1C0 then s.readWorkBlock t n
    else s.readDeviceBlock (s.coreOf t) n)

/-! ### Writing -/

/-- An 8-bit field in which 0 is taken as 1. -/
def field8 (x : Word) : Nat := max 1 (x.toNat % 256)

/-- Clears a count (R281). -/
def State.csrClear (s : State) (t : Tid) (n : Nat) : State :=
  let asid := s.asidOf t
  let core (f : CoreCounts → CoreCounts) : State := s.modCore (s.coreOf t) fun c => c.count asid f
  match n with
  | 0x042 => s.modCtx asid fun c => { c with borref := 0 }
  | 0x043 => s.modCtx asid fun c => { c with borque := 0 }
  | 0x060 => core fun k => { k with lreq := 0 }
  | 0x061 => core fun k => { k with rreq := 0 }
  | 0x062 => core fun k => { k with tlbmiss := 0 }
  | 0x063 => core fun k => { k with walks := 0 }
  | 0x08B => s.modCtx asid fun c => { c with cfcount := 0 }
  | 0x0C1 => core fun k => { k with mxsusp := 0 }
  | 0x0C2 => core fun k => { k with mgov := 0 }
  | 0x109 => s.modCtx asid fun c => { c with deperr := 0 }
  | 0x144 => s.modCtx asid fun c => { c with ckcount := 0 }
  | 0x182 => s.modCtx asid fun c => { c with fqlost := 0 }
  | 0x184 => s.modBand t.band fun b => { b with rollCount := 0 }
  | 0x187 => s.modCore (s.coreOf t) fun c => { c with cecnt := 0 }
  | 0x1C5 => { s with dev := { s.dev with snap := { s.dev.snap with miss := 0 } } }
  | _ => s

/-- A context register takes a value, each field adjusted as its map states (R281). -/
def State.setCtxCsr (s : State) (asid n : Nat) (x : Word) : State :=
  match n with
  | 0x006 => s.modCtx asid fun c => { c with thentry := x }
  | 0x009 => s.modCtx asid fun c => { c with thseg := c.thseg / 2 ^ 32 * 2 ^ 32 + x.toNat / 2 ^ 12 * 2 ^ 12 }
  | 0x00A => s.modCtx asid fun c => { c with thseg := x.toNat % 2 ^ 25 * 2 ^ 32 + c.thseg % 2 ^ 32 }
  | 0x040 => s.modCtx asid fun c => { c with deedwait := field8 x }
  | 0x143 => s.modCtx asid fun c => { c with collwait := field8 x }
  | 0x181 => s.modCtx asid fun c => { c with fqtail := x }
  | 0x183 => s.modCtx asid fun c => { c with rollmax := field8 x }
  | 0x185 => s.modCtx asid fun c => { c with pairwait := field8 x }
  | _ => s

/-- TPC or TNPC of a handler (R321): it resumes at slot 0 of the written packet; a write of another packet abandons
the remainder of a nap (R113). -/
def State.setTrapPc (s : State) (t : Tid) (next : Bool) (x : Word) : State :=
  s.modThread t fun th =>
    let r := th.trap
    if next then { th with trap := { r with tnpc := ⟨x, 0⟩, enterN := true, moved := r.moved || x != r.tnpc.p } }
    else { th with trap := { r with tpc := ⟨x, 0⟩, enter := true, moved := r.moved || x != r.tpc.p } }

/-- CSRW of one thread (R281); of TSTAT only bits 12 and 11 can be cleared (R321). -/
def State.csrWrite (s : State) (t : Tid) (mode : CsrMode) (n : Nat) (x : Word) : State :=
  let old := s.csrRead t n
  let v := match mode with
    | .write => x
    | .set => old ||| x
    | .clear => old &&& ~~~x
  match csrAccess n with
  | some .w1c =>
    if n = 0x000 then s.modThread t fun th =>
      { th with susp := th.susp && !x.getLsbD 11, rolled := th.rolled && !x.getLsbD 12 }
    else s.csrClear t n
  | some .rw => { s with now := { s.now with decays := s.now.decays ++ [(t.band, v)] } }
  | some .rwPriv =>
    if n = 0x004 then s.setTrapPc t false v
    else if n = 0x008 then s.setTrapPc t true v
    else s.setCtxCsr (s.asidOf t) n v
  | _ => s

end Sys2Proof.Machine
end

