-- ==== Sys2Proof/Machine/Launch.lean ====
section
/-! DEFINITION. Launches from the device: kernel headers and task descriptors (spec/02 R22, R23, R26, R28), launch packets
(spec/03 R39, R40, R43), SPAWN, SPAWNA, LAUNCH and their checks (R44 to R48), the dependence counters (R50, R51), and
CHWAIT (spec/17 R327, R328). -/

namespace Sys2Proof.Machine

/-! ### Kernel headers and task descriptors -/

/-- n bytes that the device reads at the home of a context's address, as last returned there (R21): none where it does not
translate or its line is poisoned. -/
def State.deviceRead (s : State) (asid va n : Nat) : Option Nat :=
  match s.translateDev asid va .read with
  | .ok (.mem pa h) => if s.poison.contains (lineKey h pa) then none else some (leNat (s.returnedBytes h pa n))
  | _ => none

/-- A packet of a segment lies in a page with X (R23, R28). -/
def State.xPage (s : State) (asid va : Nat) : Bool :=
  match s.translateDev asid va .fetch with
  | .ok _ => true
  | .error _ => false

/-- The kernel header at an address (R22), with ARGLEN; none where it fails R23 or cannot be read. -/
def State.kernelAt (s : State) (asid va : Nat) : Option (Footprint × Nat) :=
  match s.deviceRead asid va 64 with
  | none => none
  | some h =>
    let f (lo w : Nat) : Nat := fieldOf h lo w
    let fp : Footprint := ⟨f 320 64, BitVec.ofNat 32 (f 32 32), f 128 8, f 136 8, f 208 1 == 1, f 144 16, f 160 16, f 176 10,
      BitVec.ofNat 8 (f 8 8), f 64 64⟩
    if f 0 8 == 1 && f 384 128 == 0 && f 240 80 == 0 && f 209 15 == 0 && f 186 22 == 0 && f 16 16 == 0 &&
        f 224 16 != 0 && 1 ≤ fp.regs && fp.regs ≤ 64 && fp.typ ≤ fp.regs && fp.bench ≤ 8192 && fp.acc % 32 == 0 &&
        fp.acc ≤ 4096 && fp.tiles ≤ 512 && fp.cseg % 4096 == 0 && fp.cseg < 2 ^ 57 &&
        s.xPage asid (fp.cseg + 12 * fp.entry.toNat) then
      some (fp, f 224 16)
    else none

/-- The number of values a PRELOAD enables. -/
def preloads (p : BitVec 8) : Nat := ((List.range 8).filter fun i => p.getLsbD i).length

/-- A task as its descriptor gives it: footprint, INH, PRIO. -/
structure TaskDesc where
  fp : Footprint
  inh : Bool
  prio : Nat
  deriving DecidableEq, Repr

/-- The task descriptor of an index (R26), or the number of the check of R28 that it fails. A CSEG beyond 57 bits counts as
a field outside its range (log 35). -/
def State.taskAt (s : State) (asid idx : Nat) : Except Nat TaskDesc :=
  match s.ctx? asid with
  | none => .error 1
  | some c =>
    if c.tdtlen ≤ idx then .error 1
    else
      match s.deviceRead asid (c.tdtbase + 32 * idx) 32 with
      | none => .error 8
      | some d =>
        let f (lo w : Nat) : Nat := fieldOf d lo w
        let fp : Footprint := ⟨f 96 64, BitVec.ofNat 32 (f 32 32), f 64 8, f 72 8, f 20 1 == 1, f 80 12, 0, 0,
          BitVec.ofNat 8 (f 8 8), f 192 64⟩
        if f 19 1 = 0 then .error 2
        else if f 0 8 ≠ 1 then .error 3
        else if f 160 32 ≠ 0 || f 92 4 ≠ 0 || f 21 11 ≠ 0 then .error 4
        else if fp.regs < 1 || 64 < fp.regs || fp.regs < fp.typ || 2048 < fp.bench || fp.cseg % 4096 ≠ 0 ||
            2 ^ 57 ≤ fp.cseg then .error 5
        else if !s.xPage asid (fp.cseg + 12 * fp.entry.toNat) then .error 6
        else if fp.regs < 4 + preloads fp.preload then .error 7
        else .ok ⟨fp, f 18 1 == 1, f 16 2⟩

/-! ### Grid packets -/

/-- The fields of a GRID packet (R39, R40). -/
structure GridSpec where
  cplva : Nat
  argva : Nat
  khdr : Nat
  gx : Nat
  gy : Nat
  gz : Nat
  cores : Nat
  troops : Nat
  cpl : Bool
  red : Bool
  prio : Nat
  deriving DecidableEq, Repr

/-- The fields of a packet read as a GRID. -/
def GridSpec.of (p : Nat) : GridSpec :=
  ⟨fieldOf p 768 64, fieldOf p 704 64, fieldOf p 640 64, fieldOf p 576 24, fieldOf p 608 16, fieldOf p 624 16,
   fieldOf p 40 3, fieldOf p 32 8, fieldOf p 11 1 == 1, fieldOf p 10 1 == 1, fieldOf p 8 2⟩

/-- The check of code 0x01 for a GRID (R39, R40, R43). -/
def gridFieldsOk (p : Nat) : Bool :=
  let g := GridSpec.of p
  fieldOf p 832 160 == 0 && fieldOf p 600 8 == 0 && fieldOf p 43 533 == 0 && fieldOf p 12 20 == 0 &&
    g.cplva % 32 == 0 && (g.cpl || g.cplva == 0) && g.argva % 128 == 0 && g.khdr % 64 == 0 &&
    g.gx != 0 && g.gy != 0 && g.gz != 0 && g.cores ≤ 4 && 1 ≤ g.troops && g.troops ≤ 128

/-- Features that no core has (R63, R352). -/
def uncovered (features : Nat) : Bool := (features &&& Config.features) != features

/-- Troops of a band on one of its cores (R59). -/
def troopsOn (ntroops ncores k : Nat) : Nat := (ntroops + ncores - 1 - k) / max 1 ncores

/-- The bench a band core holds, in KiB (R60). -/
def benchOn (kib ncores k : Nat) : Nat :=
  let sh := benchShare kib ncores / 1024
  min sh (kib - k * sh)

/-- A band fits an empty quad on c cores (R61). -/
def fitsEmpty (fp : Footprint) (ntroops c : Nat) : Bool :=
  let n := troopsOn ntroops c 0
  n ≤ Config.troopSlots && n * max fp.adm (preloads fp.preload) ≤ Config.physRegs && benchOn fp.bench c 0 ≤ 2048

/-- The core counts that CORES allows (R59). -/
def coreCounts (fp : Footprint) (asked : Nat) : List Nat :=
  if asked = 0 then [1, 2, 3, 4].filter fun c => (fp.bench + 2047) / 2048 ≤ c else [asked]

/-- Codes 0x07 and 0x08 of R43, the first that fails. -/
def fitCode (fp : Footprint) (ntroops asked : Nat) : List Nat :=
  if uncovered fp.features then [7]
  else if fp.regs < preloads fp.preload || !(coreCounts fp asked).any (fitsEmpty fp ntroops) then [8]
  else []

/-- The refusal codes that a GRID packet meets, without those of its queue (R43). The kernel header of a context that does
not exist cannot be read (log 34). -/
def State.gridCodes (s : State) (asid p : Nat) : List Nat :=
  let g := GridSpec.of p
  (if gridFieldsOk p then [] else [1]) ++
    (match s.kernelAt asid g.khdr with
     | none => [2]
     | some (fp, _) => fitCode fp g.troops g.cores)

/-- A band of a grid or a task, PENDING (R57). -/
def newBand (id asid : Nat) (fp : Footprint) (ntroops asked prio depth clock : Nat) (gridseq : Word) : Band :=
  { id := id, asid := asid, state := .pending, saving := false, grid := none, parent := none, task := false, args := [],
    x := 0, y := 0, z := 0, depth := depth, gridseq := gridseq, fp := fp, ntroops := ntroops, coresAsked := asked,
    ncores := 0, cores := [], die := none, prio := prio, aging := 0, agingCounts := List.replicate 16 0,
    waitSince := clock, residentSince := 0, turns := 0, troops := [], g := List.replicate 8 Region.none,
    conv := List.replicate 8 Conv.none, decay := 0x3F800000, benchMap := [], accMap := [], tileMap := [],
    tileEntries := [], saved := none, pair := none, mig := false, migBit := none, migEvent := (0, 0), hasPoint := false,
    committed := false, undoOver := false, rollbacks := 0, rollCount := 0, killed := false }

/-- The bands of one coordinate of a grid: one, or the two members of a pair (R310). -/
def gridBands (g : Nat) (spec : GridSpec) (base : Band) (id x y z : Nat) : List Band :=
  let b : Band := { base with id := id, grid := some g, x := x, y := y, z := z }
  if spec.red then [{ b with pair := some (0, id + 1) }, { b with id := id + 1, pair := some (1, id) }] else [b]

/-- A grid starts (R40): its bands enter PENDING, x counted fastest; g15 is still to be taken (R183). -/
def State.startGrid (s : State) (asid : Nat) (spec : GridSpec) (fp : Footprint) (arglen : Nat) (seq gridseq : Word)
    (parent : Option (Nat × Nat)) (depth : Nat) : State :=
  let gid := s.fresh
  let n := spec.gx * spec.gy * spec.gz
  let g : Grid := ⟨gid, asid, seq, spec.cpl, spec.cplva, parent.isNone, parent, spec.argva, 128 * arglen, .none, n, 0, 0,
    false⟩
  let base := newBand 0 asid fp spec.troops spec.cores spec.prio depth s.clock gridseq
  let arg : Region := { Region.none with state := .pending, kind := .s, base := spec.argva, len := 128 * arglen, top := true }
  let base1 : Band := { base with g := List.replicate 7 Region.none ++ [arg] }
  let step := if spec.red then 2 else 1
  let bands := ((List.range n).map fun i =>
    gridBands gid spec base1 (gid + 1 + step * i) (i % spec.gx) (i / spec.gx % spec.gy) (i / (spec.gx * spec.gy))).flatten
  { s with grids := s.grids ++ [g], bands := s.bands ++ bands, fresh := gid + 1 + step * n }

/-! ### Device launches -/

/-- The children of a band (R44); a redundant pair's count under either member. -/
def State.kidsOf (s : State) (b : Nat) : List Nat := (s.children.filter fun c => (s.unit b).contains c.2).map (·.1)

/-- A child stops counting (R44). -/
def State.dropChild (s : State) (c : Nat) : State := { s with children := s.children.filter fun x => x.1 != c }

/-- A launch takes effect (R44, R46): it counts as a child and waits for its check. -/
def State.submit (s : State) (t : Tid) (pc : Pc) (what : LaunchWhat) : State :=
  match s.band? t.band with
  | none => s
  | some b =>
    let l : Launch := ⟨s.fresh, b.asid, what, b.id, b.depth + 1, b.prio, b.gridseq, s.sourceOf t pc, false⟩
    { s with launches := s.launches ++ [l], children := s.children ++ [(s.fresh, b.id)], fresh := s.fresh + 1 }

/-- Older RTNs of a thread have completed (WaitOlderReturns of R50). -/
def State.returnsDone (s : State) (t : Tid) : Bool := !s.returns.any fun r => r.tid == t

/-- The depth of a thread's band. -/
def State.depthOf (s : State) (t : Tid) : Nat := ((s.band? t.band).map (·.depth)).getD 0

/-- The context holds as many pending tasks as it may (R48). -/
def State.tasksFull (s : State) (t : Tid) : Bool :=
  ((s.ctxOf t).map (·.pendmax)).getD 0 ≤ s.pendCnt (s.asidOf t)

/-- The four argument words of a task. -/
def State.taskArgs (s : State) (m : Mods) (t : Tid) (a : VReg) : List Word := (regGroup a 4).map (s.srcA m t)

/-- SPAWN (R46, R48, R261). -/
def execSpawn (m : Mods) (a : VReg) (task : BitVec 13) (s : State) : Host.Outcome State Fault Refusal :=
  let bu := s.curBundle
  let ra := regGroup a 4
  .next (s.runThreads m ra (lastReads m ra []) (fun v _ t => some ⟨v.taskArgs m t a, [], []⟩) (fun s _ => s) fun v s t =>
    if s.depthOf t = 10 then (s, .trap (Fail.plain cNestDepth 0))
    else if s.tasksFull t then (s, .again .spawn)
    else if !s.returnsDone t then (s, .again .returns)
    else ((s.commit t.band).submit t bu.pc (.task task.toNat (v.taskArgs m t a) none), .next))

/-- The die on which SPAWNA places its task (R46): none where any die may take it. -/
def State.homeDieOf (s : State) (t : Tid) (loc : Loc) : Option Nat :=
  match loc with
  | .mem _ (.die d) => some d
  | .mem _ .base => none
  | .mem _ .peer => some (dieOf (s.coreOf t))
  | .bench _ off => some (Config.benchHome off % 4)

/-- SPAWNA (R46). -/
def execSpawna (m : Mods) (k : GReg) (a b : VReg) (task : BitVec 13) (off : BitVec 15) (s : State) :
    Host.Outcome State Fault Refusal :=
  let bu := s.curBundle
  let ra := regGroup a 4
  let at_ (v : State) (t : Tid) : Int := (v.srcB m t b).toNat + off.toInt
  .next (s.runThreads m (ra ++ [b]) (lastReads m ra [b])
    (fun v _ t => some ⟨v.taskArgs m t a ++ [v.srcB m t b], [((v.regT t k).base + at_ v t).toNat], []⟩) (fun s _ => s)
    fun v s t =>
      if s.depthOf t = 10 then (s, .trap (Fail.plain cNestDepth 0))
      else
        match s.accessAddress t (v.regT t k) (at_ v t) 1 1 .lookup .read with
        | (s1, .fail f) => (s1, .trap f)
        | (s1, .walk va) => (s1, .walk va .read)
        | (s1, .ok x) =>
          if s1.tasksFull t then (s1, .again .spawn)
          else if !s1.returnsDone t then (s1, .again .returns)
          else ((s1.commit t.band).submit t bu.pc (.task task.toNat (v.taskArgs m t a) (s1.homeDieOf t x.loc)), .next))

/-- LAUNCH (R46, R261): the packet is read as a 128-byte load. -/
def execLaunch (m : Mods) (k : GReg) (a : VReg) (off : BitVec 24) (s : State) : Host.Outcome State Fault Refusal :=
  let bu := s.curBundle
  .next (s.runThreads m [a] (lastReads m [a] [])
    (fun v _ t => some ⟨[v.srcA m t a], [((v.regT t k).base + v.offsetOf m t a off.toInt).toNat], []⟩) (fun s _ => s)
    fun v s t =>
      if s.depthOf t = 10 then (s, .trap (Fail.plain cNestDepth 0))
      else if t.troop ≠ 0 || t.lane ≠ 0 then (s, .trap (Fail.plain cPriv 0))
      else
        match s.accessAddress t (v.regT t k) (v.offsetOf m t a off.toInt) 128 128 .load .read with
        | (s1, .fail f) => (s1, .trap f)
        | (s1, .walk va) => (s1, .walk va .read)
        | (s1, .ok x) =>
          if s1.blocked s1.fresh t s1.fresh x.loc 128 then (s1, .again (.order .core))
          else if !s1.returnsDone t then (s1, .again .returns)
          else
            let (s2, p, bad) := s1.readSite (s1.coreOf t) (s1.asidOf t) (s1.siteOf t k x false) x.loc 128 .norm
            if bad then (s1, .ue)
            else ((s2.commit t.band).submit t bu.pc (.grid (BitVec.ofNat 1024 p) x.va), .next))

/-- A launch record (R47, R307): that of a refused LAUNCH names lane 0, the leader's (log 28); that of a task which a
counter fired has no origin (log 29). -/
def State.launchRecord (s : State) (l : Launch) (kind : Nat) (more : List Word) : State :=
  let o : Origin := if l.counter then ⟨0, 0, none, none⟩ else ⟨l.src.core, l.src.slot, some l.src.lane, some l.src.pc⟩
  (s.faultRecord l.asid (recordWords kind 0 0 o 0 0 l.gridseq more 0)).dropChild l.id

/-- The low and high words of an address. -/
def addrWords (va : Nat) : List Word := [BitVec.ofNat 32 va, BitVec.ofNat 32 (va / 2 ^ 32)]

/-- A task enters PENDING (R48, R57), with its descriptor's priority, its launcher's under INH, or the one that its counter
has held since it was armed (R50). -/
def State.startTask (s : State) (asid child parent depth launcher : Nat) (gridseq : Word) (d : TaskDesc)
    (args : List Word) (die : Option Nat) (counter : Bool) : State :=
  let prio := if d.inh || counter then launcher else d.prio
  let b := newBand s.fresh asid d.fp 1 1 prio depth s.clock gridseq
  let b1 : Band := { b with parent := some (parent, child), task := true, args := args, die := die }
  { s with bands := s.bands ++ [b1], fresh := s.fresh + 1 }

/-- The check of one launch (R47). -/
def State.checkLaunch (s : State) (l : Launch) : State :=
  let s := { s with launches := s.launches.filter fun x => x.id != l.id }
  match l.what with
  | .grid pkt va =>
    let p := pkt.toNat
    let codes := (if fieldOf p 0 8 = 1 then [] else [1]) ++ s.gridCodes l.asid p
    match leastBy (fun c => c) codes with
    | some c => s.launchRecord l 1 (BitVec.ofNat 32 c :: addrWords va)
    | none =>
      match s.kernelAt l.asid (GridSpec.of p).khdr with
      | none => s
      | some (fp, n) => s.startGrid l.asid (GridSpec.of p) fp n l.gridseq l.gridseq (some (l.parent, l.id)) l.depth
  | .task idx args die =>
    match s.taskAt l.asid idx with
    | .error n => s.launchRecord l 2 [BitVec.ofNat 32 idx, BitVec.ofNat 32 n]
    | .ok d =>
      if uncovered d.fp.features then
        let va := ((s.ctx? l.asid).map (·.tdtbase)).getD 0 + 32 * idx
        s.launchRecord l 1 ((7 : Word) :: addrWords va ++ [BitVec.ofNat 32 idx])
      else s.startTask l.asid l.id l.parent l.depth l.prio l.gridseq d args die l.counter

/-- DEVICE_LAUNCH_CHECK (R47). -/
def execDeviceLaunchCheck (id : Nat) (s : State) : Host.Outcome State Fault Refusal :=
  match s.launches.find? (·.id == id) with
  | some l => .next (s.checkLaunch l)
  | none => .next s

/-! ### Dependence counters -/

/-- The counter count N of a context (R41). -/
def Ctx.counters (c : Ctx) : Nat := c.depcnt

/-- Fire of R50: the counter becomes IDLE and its task is launched as a child of the setter, with PENDCNT at PENDMAX too
(log 30). -/
def State.fireCounter (s : State) (d : DepCounter) : State :=
  let s1 := { s with deps := s.deps.filter fun x => x.idx != d.idx }
  match s1.band? d.setter with
  | none => s1
  | some b =>
    let l : Launch := ⟨d.child, b.asid, .task d.task d.args none, b.id, b.depth + 1, d.prio, b.gridseq,
      ⟨0, 0, 0, ⟨0, 0⟩⟩, true⟩
    { s1 with launches := s1.launches ++ [l] }

/-- The priority that a counter holds (R50): its task descriptor's, or the setter's under INH; the setter's too where the
descriptor fails its checks, which the firing reports (log 39). -/
def State.taskPrio (s : State) (b : Band) (task : Nat) : Nat :=
  match s.taskAt b.asid task with
  | .ok d => if d.inh then b.prio else d.prio
  | .error _ => b.prio

/-- A counter is armed (R50): an armed one loses its child first. -/
def State.armCounter (s : State) (t : Tid) (idx : Nat) (count : Word) (task : Nat) (args : List Word) : State :=
  let s1 := match s.deps.find? (·.idx == idx) with
    | some d => s.dropChild d.child
    | none => s
  match s1.band? t.band with
  | none => s1
  | some b =>
    let d : DepCounter := ⟨idx, count.toInt, task, args, b.id, s1.fresh, s1.taskPrio b task⟩
    let s2 : State := { s1 with deps := s1.deps.filter (fun x => x.idx != idx) ++ [d],
                                children := s1.children ++ [(s1.fresh, b.id)], fresh := s1.fresh + 1 }
    if d.count ≤ 0 then s2.fireCounter d else s2

/-- Signed 32-bit saturation. -/
def satS32 (x : Int) : Int := max (-2147483648) (min 2147483647 x)

/-- An addend reaches a counter (R50). -/
def State.addCounter (s : State) (asid idx : Nat) (x : Int) : State :=
  match s.deps.find? (·.idx == idx) with
  | none => s.modCtx asid fun c => { c with deperr := satInc c.deperr }
  | some d =>
    let d1 := { d with count := satS32 (d.count + x) }
    let s1 := { s with deps := modIf (fun y => y.idx == idx) (fun _ => d1) s.deps }
    if d1.count ≤ 0 then s1.fireCounter d1 else s1

/-- A context's counter by its index in the window. -/
def State.counterOf (s : State) (asid ctr : Nat) : Nat := ((s.ctx? asid).map (·.depbase)).getD 0 + ctr

/-- A counter index that the bundle's context does not have: ILLEGAL_OP with the index (R50). -/
def State.noCounter (s : State) (ctr : BitVec 16) : Bool :=
  ((s.ctx? s.curBundle.asid).map Ctx.counters).getD 0 ≤ ctr.toNat

/-- DEPC.set (R50). -/
def execDepcSet (m : Mods) (ctr : BitVec 16) (a b : VReg) (task : BitVec 13) (s : State) :
    Host.Outcome State Fault Refusal :=
  let ra := regGroup a 4
  if s.noCounter ctr then .next (s.trapAll cIllegal ctr.toNat)
  else .next (s.runThreads m (ra ++ [b]) (lastReads m ra [b])
    (fun v _ t => some ⟨v.taskArgs m t a ++ [v.srcB m t b], [], []⟩) (fun s _ => s) fun v s t =>
      if s.depthOf t = 10 then (s, .trap (Fail.plain cNestDepth 0))
      else if !s.returnsDone t then (s, .again .returns)
      else ((s.commit t.band).armCounter t (s.counterOf (s.asidOf t) ctr.toNat) (v.srcB m t b) task.toNat
        (v.taskArgs m t a), .next))

/-- DEPC.add (R50). -/
def execDepcAdd (m : Mods) (ctr : BitVec 16) (b : VReg) (s : State) : Host.Outcome State Fault Refusal :=
  if s.noCounter ctr then .next (s.trapAll cIllegal ctr.toNat)
  else .next (s.runThreads m [b] (lastReads m [] [b]) (fun v _ t => some ⟨[v.srcB m t b], [], []⟩) (fun s _ => s)
    fun v s t =>
      if !s.returnsDone t then (s, .again .returns)
      else ((s.commit t.band).addCounter (s.asidOf t) (s.counterOf (s.asidOf t) ctr.toNat) (v.srcB m t b).toInt, .next))

/-- DEPC.arrive (R50). -/
def execDepcArrive (m : Mods) (ctr : BitVec 16) (s : State) : Host.Outcome State Fault Refusal :=
  if s.noCounter ctr then .next (s.trapAll cIllegal ctr.toNat)
  else .next (s.runThreads m [] [] (fun _ _ _ => some ⟨[], [], []⟩) (fun s _ => s) fun _ s t =>
      if !s.returnsDone t then (s, .again .returns)
      else ((s.commit t.band).addCounter (s.asidOf t) (s.counterOf (s.asidOf t) ctr.toNat) (-1), .next))

/-- CHWAIT (R328): the children at its issue. -/
def execChwait (m : Mods) (s : State) : Host.Outcome State Fault Refusal :=
  .next (s.runPlain m fun _ s t =>
    let ks := s.kidsOf t.band
    if ks.isEmpty then (s, .next) else (s, .wait (.chwait ks)))

end Sys2Proof.Machine
end

