-- ==== Sys2Proof/Machine/Tiles.lean ====
section
/-! DEFINITION. The Tile Table (spec/11 R212 to R218): TRSV, TREL and the zeroing it waits for, and the layout of a tile's
data and scales (R214). -/

namespace Sys2Proof.Machine

/-- A tile as a thread names it: its core, its band core index, its physical place and its entry. -/
structure TileAt where
  core : Nat
  k : Nat
  idx : Nat
  phys : Nat
  entry : TileEntry
  deriving DecidableEq, Repr

/-- The tile of an index for a thread (R212); none where the index is not below TILES. -/
def State.tileAt (s : State) (t : Tid) (idx : Nat) : Option TileAt :=
  match s.band? t.band with
  | none => none
  | some b =>
    let k := t.troop % max 1 b.ncores
    if b.fp.tiles ≤ idx then none
    else
      some ⟨b.coreOf t.troop, k, idx, (((b.tileMap[k]?).getD [])[idx]?).getD 0,
        (((b.tileEntries[k]?).getD [])[idx]?).getD TileEntry.clear⟩

/-- The state with an entry of a band's Tile Table changed. -/
def State.modTile (s : State) (t : Tid) (x : TileAt) (f : TileEntry → TileEntry) : State :=
  s.modBand t.band fun b => { b with tileEntries := modAt b.tileEntries x.k fun es => modAt es x.idx f }

/-- States as TINFO carries them (R218). -/
def TileState.code : TileState → Nat
  | .empty => 0 | .filling => 1 | .ready => 2 | .draining => 3

/-- TILE_STATE for an index that no entry has: WHY 1 (R218). -/
def noTile (idx : Nat) : Fail := Fail.plain cTileState (2 ^ 8 * (idx % 512) + 1)

/-- TILE_STATE with the state found (R218). -/
def badTile (x : TileAt) (why : Nat) : Fail :=
  Fail.plain cTileState (2 ^ 8 * x.idx + 2 ^ 4 * x.entry.state.code + why)

/-- The reduction depth of an entry's format pair. -/
def TileEntry.depth (e : TileEntry) : Nat := (tileDepth e.af e.bf).getD 1

/-- Scales per column, J. -/
def TileEntry.scales (e : TileEntry) : Nat := scalesPerColumn e.depth e.blk.len

/-- Bytes of a column, CB of R214. -/
def TileEntry.colBytes (e : TileEntry) : Nat := e.depth * e.bf.width / 8

/-- The first bit of element k of column n (R214). -/
def TileEntry.bitOf (e : TileEntry) (n k : Nat) : Nat := 8 * n * e.colBytes + k * e.bf.width

/-- The byte of the scale of column n for block j (R214). -/
def TileEntry.scaleByte (e : TileEntry) (n j : Nat) : Nat := e.soff + n * e.scales + j

/-- The check of a fill at issue (R217, R218). -/
def TileAt.fillCheck (x : TileAt) : Option Fail :=
  let e := x.entry
  if !e.rv then some (badTile x 3)
  else match e.state with
    | .empty => none
    | .filling => if e.issued < e.fills then none else some (badTile x 4)
    | _ => some (badTile x 2)

/-- The check of a drain at issue. -/
def TileAt.drainCheck (x : TileAt) : Option Fail :=
  match x.entry.state with
  | .ready | .draining => none
  | _ => some (badTile x 2)

/-- A fill issues. -/
def TileEntry.fill (e : TileEntry) : TileEntry :=
  match e.state with
  | .empty => { e with state := .filling, issued := 1, done := 0 }
  | _ => { e with issued := e.issued + 1 }

/-- A fill completes or is skipped. -/
def TileEntry.filled (e : TileEntry) : TileEntry :=
  { e with done := e.done + 1, state := if e.fills ≤ e.done + 1 then .ready else .filling }

/-- A drain issues. -/
def TileEntry.drain (e : TileEntry) : TileEntry :=
  match e.state with
  | .ready => { e with state := .draining, drains := 1 }
  | _ => { e with drains := e.drains + 1 }

/-- A drain completes or is skipped. -/
def TileEntry.drained (e : TileEntry) : TileEntry :=
  { e with drains := e.drains - 1, state := if e.drains ≤ 1 then .ready else .draining }

/-- TRSV (R215). -/
def execTrsv (m : Mods) (tile : Fin 512) (af bf : Fmt) (blk : BlkLen) (fills : Fin 4) (sc : Bool) (soff : BitVec 8)
    (s : State) : Host.Outcome State Fault Refusal :=
  .next (s.runPlain m fun _ s t =>
    match s.tileAt t tile.val with
    | none => (s, .trap (noTile tile.val))
    | some x =>
      if x.entry.state ≠ .empty then (s, .trap (badTile x 2))
      else (s.modTile t x fun e =>
        { e with rv := true, af := af, bf := bf, blk := blk, sc := sc, soff := 16 * soff.toNat, fills := fills.val + 1 }, .next))

/-- Work of a matrix queue that reads a physical tile. -/
def MxWork.readsTile (w : MxWork) (phys : Nat) : Bool :=
  match w with
  | .round r => r.tile == phys
  | _ => false

/-- An instruction issued earlier on the core is still to read a tile (R216). -/
def State.tileRead (s : State) (core phys : Nat) : Bool :=
  ((s.core? core).map fun c => c.mx.any fun e => e.work.readsTile phys).getD false

/-- The 4096 bytes of a tile become zero, and its poison goes with them. -/
def State.zeroTile (s : State) (core phys : Nat) : State :=
  s.modCore core fun c => { c with
    tiles := clearGranule c.tiles phys 4096
    tilePoison := c.tilePoison.filter fun x => x / 4096 != phys
    tileZero := c.tileZero.filter fun x => x != phys }

/-- A tile waits to be zeroed. -/
def State.zeroDue (s : State) (core phys : Nat) : Bool :=
  ((s.core? core).map fun c => c.tileZero.contains phys).getD false

/-- TREL (R216): EMPTY at issue; the zeroing waits for earlier readers, and a second TREL waits for nothing. -/
def execTrel (m : Mods) (a : VReg) (s : State) : Host.Outcome State Fault Refusal :=
  .next (s.runReads m [a] (lastReads m [a] []) fun v s t =>
    let i := (v.srcA m t a).toNat
    match (if i < 512 then s.tileAt t i else none) with
    | none => (s, .trap (noTile i))
    | some x =>
      match x.entry.state with
      | .filling | .draining => (s, .trap (badTile x 2))
      | _ =>
        let s1 := s.modTile t x fun _ => TileEntry.clear
        if s1.zeroDue x.core x.phys then (s1, .next)
        else if s1.tileRead x.core x.phys then
          (s1.modCore x.core fun c => { c with tileZero := c.tileZero ++ [x.phys] }, .wait (.tile x.phys))
        else (s1.zeroTile x.core x.phys, .next))

/-- TREL_ZERO (R216): every earlier reader has read the tile. -/
def execTrelZero (core tile : Nat) (s : State) : Host.Outcome State Fault Refusal :=
  if s.zeroDue core tile && !s.tileRead core tile then .next (s.zeroTile core tile) else .next s

/-! ### Bits of a tile -/

/-- w bits at a bit position of a byte table. -/
def readBits (m : List (Nat × Byte)) (pos w : Nat) : Nat :=
  leNat (readBytes m (pos / 8) ((pos % 8 + w + 7) / 8)) / 2 ^ (pos % 8) % 2 ^ w

/-- A number with w bits at a position replaced. -/
def replaceBits (old pos w x : Nat) : Nat :=
  old - old / 2 ^ pos % 2 ^ w * 2 ^ pos + x % 2 ^ w * 2 ^ pos

/-- A byte table with w bits at a bit position replaced. -/
def writeBits (m : List (Nat × Byte)) (pos w x : Nat) : List (Nat × Byte) :=
  let n := (pos % 8 + w + 7) / 8
  writeBytes m (pos / 8) (leBytes n (replaceBits (leNat (readBytes m (pos / 8) n)) (pos % 8) w x))

/-- Bits of a physical tile, and whether one of their bytes is poisoned (R319). -/
def State.tileBits (s : State) (core phys pos w : Nat) : Nat × Bool :=
  match s.core? core with
  | none => (0, false)
  | some c =>
    let p := 8 * 4096 * phys + pos
    (readBits c.tiles p w, c.tilePoison.any fun x => p / 8 ≤ x && x < p / 8 + (p % 8 + w + 7) / 8)

/-- Writes bits of a physical tile; a byte wholly overwritten is no longer poisoned. -/
def State.setTileBits (s : State) (core phys pos w x : Nat) : State :=
  let p := 8 * 4096 * phys + pos
  s.modCore core fun c => { c with
    tiles := writeBits c.tiles p w x
    tilePoison := c.tilePoison.filter fun y => !(p ≤ 8 * y && 8 * y + 8 ≤ p + w) }

end Sys2Proof.Machine
end

