-- ==== Sys2Proof/Machine/Layout.lean ====
section
/-! DEFINITION. Tensor layout records (spec/02 R29 to R32): their fields and checks, the elements of a box, and the bytes that
an engine operation accesses. -/

namespace Sys2Proof.Machine

/-! ### Tensor layout records -/

/-- A tensor layout record (R29). -/
structure Layout where
  sbase : Nat
  box : List Nat
  pitch : List Nat
  dim : List Nat
  oobn : Bool
  grp : Nat
  cmp : Nat
  rank : Nat
  fmtc : Nat
  base : Nat
  reserved : Nat
  deriving DecidableEq, Repr

/-- The fields of 512 bits. -/
def Layout.of (r : Nat) : Layout :=
  { sbase := fieldOf r 440 64, box := (List.range 5).map fun k => fieldOf r (400 + 8 * k) 8,
    pitch := 0 :: (List.range 4).map fun k => fieldOf r (240 + 40 * k) 40,
    dim := (List.range 5).map fun k => fieldOf r (80 + 32 * k) 32,
    oobn := fieldOf r 76 1 == 1, grp := fieldOf r 74 2, cmp := fieldOf r 72 2, rank := fieldOf r 69 3,
    fmtc := fieldOf r 64 5, base := fieldOf r 0 64, reserved := fieldOf r 504 8 + fieldOf r 77 3 }

/-- The element format. -/
def Layout.fmt (l : Layout) : Fmt := (Fmt.ofCode l.fmtc).getD .f32

/-- The group length of CMP = 1. -/
def Layout.group (l : Layout) : Nat := 32 * 2 ^ l.grp

/-- The first check of R32 that fails, from 2 on. -/
def Layout.badCheck (l : Layout) : Option Nat :=
  let d (k : Nat) : Nat := (l.dim[k]?).getD 0
  if l.rank = 0 || 5 < l.rank then some 2
  else if (List.range 5).any fun k => decide (k < l.rank) != (d k != 0) then some 3
  else if l.reserved ≠ 0 then some 4
  else if 2 ^ 57 ≤ l.base || 2 ^ 57 ≤ l.sbase then some 5
  else if l.pitch.any fun p => p % 16 != 0 then some 6
  else if (Fmt.ofCode l.fmtc).isNone || l.cmp = 3 || l.grp = 3 || (l.cmp = 1 && l.fmt != .i4 && l.fmt != .n4) ||
      (l.cmp = 2 && l.fmt != .bf16 && l.fmt != .f16 && l.fmt != .e4m3 && l.fmt != .e5m2) then some 7
  else if (l.cmp = 1 && d 0 % l.group ≠ 0) || (l.cmp = 2 && d 0 % 4 ≠ 0) then some 8
  else none

/-- The format of the elements that a TCPY writes (R221). -/
def Layout.outFmt (l : Layout) : Fmt := if l.cmp = 0 then l.fmt else .bf16

/-- The box, transpose and format checks 9 to 11 against the direction and the tile (R220, R221). -/
def Layout.badBox (l : Layout) (dir : TcpyDir) (tr : Bool) (e : TileEntry) : Option Nat :=
  let b (k : Nat) : Nat := (l.box[k]?).getD 0 + 1
  let scale := l.fmt = .e8m0
  match dir with
  | .memToBench => if b 0 * l.outFmt.width % 32 ≠ 0 then some 10 else none
  | .benchToMem => if l.cmp ≠ 0 then some 9 else if b 0 * l.outFmt.width % 32 ≠ 0 then some 10 else none
  | _ =>
    let rows := if scale then e.scales else e.depth
    let out := dir = .tileToMem
    if l.cmp ≠ 0 && out then some 9
    else if (if tr then 96 < b 0 || rows < b 1 else rows < b 0 || 96 < b 1) || b 2 ≠ 1 || b 3 ≠ 1 || b 4 ≠ 1 then some 10
    else if l.cmp ≠ 0 then (if e.bf = .bf16 then none else some 11)
    else if l.fmt = e.bf || (scale && e.sc && !out) then none
    else some 11

/-- Elements of the box in each dimension (R220). -/
def Layout.count (l : Layout) (k : Nat) : Nat := if k < l.rank then (l.box[k]?).getD 0 + 1 else 1

/-- Elements of the box. -/
def Layout.total (l : Layout) : Nat := ((List.range 5).map l.count).foldl (· * ·) 1

/-- The box indices of the q-th element in transfer order, j0 fastest (R220). -/
def Layout.boxIdx (l : Layout) (q : Nat) : List Nat :=
  (List.range 5).map fun k => q / (((List.range k).map l.count).foldl (· * ·) 1) % l.count k

/-- Its tensor indices. -/
def Layout.tensorIdx (l : Layout) (org : List Int) (q : Nat) : List Int :=
  ((List.range 5).zip (l.boxIdx q)).map fun e => if e.1 < l.rank then (org[e.1]?).getD 0 + e.2 else 0

/-- The element lies within the extents. -/
def Layout.inside (l : Layout) (i : List Int) : Bool :=
  ((List.range l.rank).all fun k => 0 ≤ (i[k]?).getD 0 && (i[k]?).getD 0 < ((l.dim[k]?).getD 0 : Int))

/-- The byte address of a row: BASE + Σ ik × PITCHk (R30). -/
def Layout.rowAt (l : Layout) (i : List Int) : Nat :=
  (((List.range 5).map fun k => ((i[k]?).getD 0) * (((l.pitch[k]?).getD 0 : Nat) : Int)).foldl (· + ·) (l.base : Int)).toNat

/-- The logical number n of an element (R31). -/
def Layout.linear (l : Layout) (i : List Int) : Nat :=
  let d (k : Nat) : Int := ((l.dim[k]?).getD 0 : Nat)
  let x (k : Nat) : Int := (i[k]?).getD 0
  (x 0 + d 0 * (x 1 + d 1 * (x 2 + d 2 * (x 3 + d 3 * x 4)))).toNat

/-- The bytes that an element's place takes, as (first, one past the last): of both stored elements of its group under
CMP = 2, and of its scale or metadata (R30, R31, R222). -/
def Layout.touched (l : Layout) (i : List Int) : List (Nat × Nat) :=
  let w := l.fmt.width
  let i0 := ((i[0]?).getD 0).toNat
  let n := l.linear i
  let bits (p k : Nat) : Nat × Nat := (p / 8, (p + k - 1) / 8 + 1)
  match l.cmp with
  | 0 => [bits (8 * l.rowAt i + i0 * w) w]
  | 1 => [bits (8 * l.rowAt i + i0 * w) w, (l.sbase + 2 * (n / l.group), l.sbase + 2 * (n / l.group) + 2)]
  | _ => [bits (8 * l.rowAt i + 2 * (i0 / 4) * w) (2 * w), bits (8 * l.sbase + 4 * (n / 4)) 4]

/-- The span of a box (R222): lowest byte and one past the highest; none where every element lies outside. -/
def Layout.span (l : Layout) (org : List Int) : Option (Nat × Nat) :=
  let rs := ((List.range l.total).map fun q =>
    let i := l.tensorIdx org q
    if l.inside i then l.touched i else []).flatten
  rs.foldl (fun a r => match a with
    | none => some r
    | some x => some (min x.1 r.1, max x.2 r.2)) none

/-- The place of the q-th element on the other side, in bits (R214, R220). -/
def Layout.place (l : Layout) (dir : TcpyDir) (tr : Bool) (e : TileEntry) (q : Nat) : Nat :=
  let j := l.boxIdx q
  let x (k : Nat) : Nat := (j[k]?).getD 0
  match dir with
  | .memToBench | .benchToMem => (((x 4 * l.count 3 + x 3) * l.count 2 + x 2) * l.count 1 + x 1) * l.count 0 * l.outFmt.width + x 0 * l.outFmt.width
  | _ =>
    let col := if tr then x 0 else x 1
    let row := if tr then x 1 else x 0
    if l.fmt = .e8m0 then 8 * e.scaleByte col row else e.bitOf col row

/-- What an element outside the extents is written as (R29). OOBN speaks of the record's FMT; where CMP is not 0 the element
written is a BF16, and the model's choice is to go by that format (log 37). -/
def Layout.fill (l : Layout) : Nat :=
  let f := l.outFmt
  if l.oobn && (f = .f32 || f = .bf16 || f = .f16) then f.canonNaN else 0

/-- The ranges that an operation accesses (R175, R208): in the bench or not, address and length. -/
def OpWork.ranges : OpWork → List (Bool × Nat × Nat)
  | .cpy src dst val => [(src.bench, src.va, val), (dst.bench, dst.va, 32)]
  | .gath src dst len => (dst.bench, dst.va, len) :: (src.map fun x => (x.bench, x.va, len)).toList
  | .tcpy dir _ r org memBench _ bench _ _ =>
    let l := Layout.of r.toNat
    let m := match l.span org with | some (lo, hi) => [(memBench, lo, hi - lo)] | none => []
    if dir = .memToBench || dir = .benchToMem then (true, bench, l.total * l.outFmt.width / 8) :: m else m
  | .nmc op _ src dst n _ res _ =>
    (false, dst, n) :: (if op = .fill then [] else [(false, src, n)]) ++ (res.map fun x => (x.bench, x.va, 8)).toList
  | .coll src dst _ len .. => [(false, src, len), (false, dst, len)]
  | .matrix => []

end Sys2Proof.Machine
end

