-- ==== Sys2Proof/Machine/Engines.lean ====
section
/-! DEFINITION. The copy engines and the near-memory units (spec/11): counters and retirement (R205 to R207), CPY (R209,
R210), GATH (R211) and TCPY (R219 to R222), NMC (R223, R224), COPY_FAULT
(R225 to R227). An operation moves its data in the step in which it completes, or in several where it waits for page walks
(log 18). -/

namespace Sys2Proof.Machine

/-! ### Operations -/

/-- The operation that a thread would start. -/
def State.newOp (s : State) (t : Tid) (pc : Pc) (cls : OpClass) (regs : List GReg) (hnd : Nat) (work : OpWork)
    (skipped : Bool) : EngOp :=
  ⟨s.fresh, t, pc, s.coreOf t, s.asidOf t, cls, work, s.inHandler t, regs, work.ranges, hnd,
    if skipped then .skipped else .running, none, false, none, none, [], none, false⟩

/-- An engine operation issues (R206): counted until it retires. -/
def State.startOp (s : State) (t : Tid) (pc : Pc) (cls : OpClass) (regs : List GReg) (hnd : Nat) (work : OpWork)
    (skipped : Bool) : State :=
  { s with ops := s.ops ++ [s.newOp t pc cls regs hnd work skipped], fresh := s.fresh + 1 }

/-- A counter at 255: the command does not issue (R206). -/
def State.counterFull (s : State) (t : Tid) (c : OpClass) : Bool := 255 ≤ s.countOf t.band t.troop c

/-- Complete operations retire in issue order (R206). -/
def retireDone : List EngOp → List EngOp
  | [] => []
  | o :: r => if o.state = .complete then retireDone r else o :: r

/-- The counter of a class in a troop falls as its oldest operations are complete. -/
def State.retireOps (s : State) (b t : Nat) (c : OpClass) : State :=
  let mine (o : EngOp) : Bool := o.tid.band == b && o.tid.troop == t && o.cls == c
  let left := (retireDone (s.ops.filter mine)).map (·.id)
  { s with ops := s.ops.filter fun o => !mine o || left.contains o.id }

/-- An operation is complete. -/
def State.completeOp (s : State) (o : EngOp) : State :=
  (s.modOp o.id fun x => { x with state := .complete }).retireOps o.tid.band o.tid.troop o.cls

/-- Class codes (R205). -/
def classCode (c : OpClass) : Nat := c.code.val

/-- The class of a batch tag. -/
def tagClass (k : Fin 4) : OpClass :=
  match k.val with
  | 0 => .tag0 | 1 => .tag1 | 2 => .tag2 | _ => .tag3

/-- Why an engine stops. -/
inductive Halt where
  /-- COPY_FAULT: kind, WHY, address and WR (R225, R227) -/
  | fault (kind why va : Nat) (wr : Bool)
  /-- a poisoned bench word or tile byte (R319) -/
  | ue
  /-- no TLB holds the page of an address: a walk is needed (R188) -/
  | miss (va : Nat)
  deriving DecidableEq, Repr

/-! ### Engine accesses -/

/-- A range cut at 128-byte boundaries: address and length of each part. -/
def cut128 : Nat → Nat → Nat → List (Nat × Nat)
  | 0, _, _ => []
  | fuel + 1, va, n =>
    if n = 0 then []
    else
      let k := min n (128 - va % 128)
      (va, k) :: cut128 fuel (va + k) (n - k)

/-- The parts of a range. -/
def parts (va n : Nat) : List (Nat × Nat) := cut128 (n / 128 + 2) va n

/-- An address of a peer. -/
def Loc.isPeer : Loc → Bool
  | .mem _ .peer => true
  | _ => false

/-- The place of a bench offset of an operation's band. -/
def State.engBench (s : State) (o : EngOp) (off : Nat) : Option Loc :=
  (s.band? o.tid.band).map fun b => .bench (b.benchAt off).1 (b.benchAt off).2

/-- The place of an engine's address as the tables give it, whether or not a TLB holds it. -/
def State.engAt (s : State) (o : EngOp) (bench : Bool) (va : Nat) : Option Loc :=
  if bench then s.engBench o va
  else match s.translateNow o.core o.asid va .read true with
    | .ok l => some l
    | .error _ => none

/-- Translation of an engine's access through the TLBs of the issuing core and its die (R188): a place, a fault, or the need of
a walk, whose failure the operation keeps. -/
def State.engXlate (s : State) (o : EngOp) (va : Nat) (u : Use) : Except Halt Loc :=
  let fault (f : XlateFail) : Except Halt Loc := .error (.fault 1 f.why va (u == .write))
  if 2 ^ 57 ≤ va then fault ⟨9, 0⟩
  else
    match o.xfail, s.tlb1 o.core o.asid va with
    | some (page, f), none => if page = va / 4096 then fault f else .error (.miss va)
    | none, none => .error (.miss va)
    | _, some e => match useFail e u o.sys 0 with | some f => fault f | none => .ok (e.loc va)

/-- The place of an engine's access. -/
def State.engLoc (s : State) (o : EngOp) (bench : Bool) (va : Nat) (u : Use) : Except Halt Loc :=
  if bench then
    match s.engBench o va with
    | some l => .ok l
    | none => .error .ue
  else
    match s.engXlate o va u with
    | .ok l => if o.peerDown && l.isPeer then .error (.fault 6 0 va (u == .write)) else .ok l
    | .error h => .error h

/-- An operation has no translation for an address (R188, R189): the second-level TLB fills the first, or a walk is joined or
started, and the operation waits for it. Both count as misses of the issuing core (R204, log 41). -/
def State.engMiss (s : State) (o : EngOp) (va : Nat) : State :=
  let s1 := s.countMiss o.core o.asid
  match s.tlb2 (dieOf o.core) o.asid va with
  | some e => s1.fillTlb o.core e
  | none =>
    let (s2, id) := s1.joinWalk o.core o.asid va
    s2.modOp o.id fun x => { x with walk := some id }

/-- The places of a range, or the first part that does not translate. -/
def State.engLocs (s : State) (o : EngOp) (bench : Bool) (u : Use) : List (Nat × Nat) → Except Halt (List (Loc × Nat))
  | [] => .ok []
  | (va, n) :: r =>
    match s.engLoc o bench va u with
    | .error h => .error h
    | .ok l =>
      match s.engLocs o bench u r with
      | .error h => .error h
      | .ok ls => .ok ((l, n) :: ls)

/-- The site of an engine's access: the bank, or the issuing core's L1 (R208). -/
def engSite (o : EngOp) : Loc → Site
  | .bench .. => .bank
  | .mem .. => .l1 o.core

/-- Room in the issuing core's L1 for a line, with the write-downs that this takes. -/
def State.makeRoom (s : State) (o : EngOp) (l : Loc) : State :=
  match l with
  | .bench .. => s
  | .mem pa h =>
    match s.l1Line? o.core (lineKey h pa) with
    | some x => if x.asid = o.asid then s else (s.invalL1 o.core (lineKey h pa)).roomL1 o.core
    | none => s.roomL1 o.core

/-- Engine accesses are no line requests (R203). -/
def State.uncounted (s old : State) (o : EngOp) : State :=
  let k := old.coreCounts o.core o.asid
  s.modCore o.core fun c => c.count o.asid fun x => { x with lreq := k.lreq, rreq := k.rreq }

/-- An engine reads one part of a line. -/
def State.engReadAt (s : State) (o : EngOp) (l : Loc) (n : Nat) : State × Nat × Bool :=
  let s1 := s.makeRoom o l
  let (s2, x, bad) := s1.readSite o.core o.asid (engSite o l) l n .norm
  (s2.uncounted s1 o, x, bad)

/-- An engine writes one part of a line. -/
def State.engWriteAt (s : State) (o : EngOp) (l : Loc) (n x : Nat) : State :=
  let s1 := s.makeRoom o l
  (((s1.logWrite o.tid.band o.core (engSite o l) l).writeSite o.core o.asid (engSite o l) l n x .norm)).uncounted s1 o

/-- Bytes read part by part; poison stops the engine (R225, R319). -/
def State.engReadParts (s : State) (o : EngOp) (bench : Bool) : List (Nat × Nat) → State × Except Halt (List Byte)
  | [] => (s, .ok [])
  | (va, n) :: r =>
    match s.engLoc o bench va .read with
    | .error h => (s, .error h)
    | .ok l =>
      let (s1, x, bad) := s.engReadAt o l n
      if bad then (s1, .error (if bench then .ue else .fault 2 0 va false))
      else
        match s1.engReadParts o bench r with
        | (s2, .ok bs) => (s2, .ok (leBytes n x ++ bs))
        | (s2, .error h) => (s2, .error h)

/-- An engine reads a range. -/
def State.engRead (s : State) (o : EngOp) (x : Side) (n : Nat) : State × Except Halt (List Byte) :=
  s.engReadParts o x.bench (parts x.va n)

/-- Bytes written at places. -/
def State.engStore (s : State) (o : EngOp) : List (Loc × Nat) → List Byte → State
  | [], _ => s
  | (l, n) :: r, bs => (s.engWriteAt o l n (leNat (bs.take n))).engStore o r (bs.drop n)

/-- An engine writes a range, once all of it translates. -/
def State.engWrite (s : State) (o : EngOp) (x : Side) (bs : List Byte) : State × Option Halt :=
  match s.engLocs o x.bench .write (parts x.va bs.length) with
  | .error h => (s, some h)
  | .ok ls => (s.engStore o ls bs, none)

/-- Bits read at a bit address. -/
def State.engBits (s : State) (o : EngOp) (bench : Bool) (pos w : Nat) : State × Except Halt Nat :=
  match s.engRead o ⟨bench, pos / 8⟩ ((pos % 8 + w + 7) / 8) with
  | (s1, .ok bs) => (s1, .ok (leNat bs / 2 ^ (pos % 8) % 2 ^ w))
  | (s1, .error h) => (s1, .error h)

/-- Old bytes at places, poisoned or not: what a write of bits leaves beside itself. -/
def State.engOld (s : State) (o : EngOp) : List (Loc × Nat) → State × List Byte
  | [] => (s, [])
  | (l, n) :: r =>
    let (s1, x, _) := s.engReadAt o l n
    let (s2, bs) := s1.engOld o r
    (s2, leBytes n x ++ bs)

/-- Bits written at a bit address; whole bytes need no old contents. -/
def State.setEngBits (s : State) (o : EngOp) (bench : Bool) (pos w x : Nat) : State × Option Halt :=
  let n := (pos % 8 + w + 7) / 8
  match s.engLocs o bench .write (parts (pos / 8) n) with
  | .error h => (s, some h)
  | .ok ls =>
    if pos % 8 = 0 && w % 8 = 0 then (s.engStore o ls (leBytes n x), none)
    else
      let (s1, old) := s.engOld o ls
      (s1.engStore o ls (leBytes n (replaceBits (leNat old) (pos % 8) w x)), none)

/-! ### COPY_FAULT -/

/-- A dependence arrive is still to come at completion: DC of CFSTAT (R227). -/
def OpWork.dc : OpWork → Bool
  | .tcpy _ _ _ _ _ _ _ dep _ => dep.isSome
  | _ => false

/-- The tile of an operation, for CFHND. -/
def OpWork.tileIdx : OpWork → Nat
  | .tcpy dir _ _ _ _ tile _ _ _ => if dir = .memToTile || dir = .tileToMem then tile else 0
  | _ => 0

/-- An operation is suspended with COPY_FAULT, delivered to its thread (R225). -/
def State.suspendOp (s : State) (o : EngOp) (kind why va : Nat) (wr : Bool) (idx : List Word) : State :=
  let stat : Word := BitVec.ofNat 32 (kind + 2 ^ 4 * why + 2 ^ 8 * bitN wr + 2 ^ 9 * classCode o.cls + 2 ^ 12 * bitN o.work.dc)
  let cf := [stat, BitVec.ofNat 32 (o.hnd + 2 ^ 12 * o.work.tileIdx), BitVec.ofNat 32 va,
    BitVec.ofNat 32 (va / 2 ^ 32 % 2 ^ 25)] ++ (idx ++ List.replicate 5 0).take 5
  let s1 := (s.modOp o.id fun x => { x with state := .suspended }).modCtx o.asid fun c =>
    { c with cfcount := satInc c.cfcount }
  s1.raiseAsync o.tid cCopyFault stat (BitVec.ofNat 57 va) cf [] (some o.id)

/-! ### CPY and GATH -/

/-- A range through a register, as an engine addresses it. -/
def Region.side (r : Region) (off : Int) : Side := ⟨r.space = .bench, (r.base + off).toNat⟩

/-- The address of a range for a signature (R311). -/
def Region.vaOf (r : Region) (off : Int) : Nat := (r.base + off).toNat

/-- CPY at issue: its operation, or the check that fails (R210). -/
def State.cpyWork (s : State) (t : Tid) (d sg : GReg) (src dst : Nat) (val : Nat) : Except Fail OpWork :=
  match (if val = 0 then none else (s.regT t sg).check src val .load) with
  | some f => .error f
  | none =>
    match (s.regT t d).check dst 32 .store with
    | some f => .error f
    | none =>
      if ((s.regT t d).base + dst) % 32 ≠ 0 then .error ⟨cAlign, 0, offAddr dst⟩
      else .ok (.cpy ((s.regT t sg).side src) ((s.regT t d).side dst) val)

/-- The issue of an operation that its checks let through (R206). -/
def State.issueOp (s : State) (t : Tid) (pc : Pc) (cls : OpClass) (regs : List GReg) (hnd : Nat) (visible skipped : Bool)
    (w : Except Fail OpWork) : State × Flow :=
  match w with
  | .error f => (s, .trap f)
  | .ok work =>
    if s.counterFull t cls then (s, .again (.counter cls))
    else ((if visible && !skipped then s.commit t.band else s).startOp t pc cls regs hnd work skipped, .next)

/-- A destination that is a visible act (R311): region or peer space. -/
def State.visibleTo (s : State) (t : Tid) (g : GReg) : Bool := (s.regT t g).space != .bench

/-- One element of a reduction (R223). -/
def nmcElem (op : NmcOp) (f : Fmt) (x y : Nat) : Nat :=
  if f = .i32 || f = .n32 then
    let a := f.intValue x
    let b := f.intValue y
    match op with
    | .add => (x + y) % 2 ^ 32
    | .min => if a ≤ b then x else y
    | _ => if a ≤ b then y else x
  else
    match op with
    | .add => roundToFormat ((f.value x).add .rne (f.value y)) f .rne false
    | .min => roundToFormat (pickNumber false (f.value x) (f.value y)) f .rne false
    | _ => roundToFormat (pickNumber true (f.value x) (f.value y)) f .rne false

/-- The offset of the first byte at which two lines differ. -/
def firstDiff (a b : List Byte) : Option Nat := (List.range a.length).find? fun i => a[i]? != b[i]?

/-- The bytes of a range as the operation's core sees them now; none where a part has no translation. -/
def State.peek (s : State) (o : EngOp) (bench : Bool) (va n : Nat) : List Byte :=
  let ps := (parts va n).map fun p => (s.engAt o bench p.1).map fun l => leBytes p.2 (s.engReadAt o l p.2).2.1
  if ps.all Option.isSome then (ps.filterMap fun x => x).flatten else []

/-- What a TCPY to memory writes, element by element: bit address, width and bits. -/
def State.tcpyPuts (s : State) (o : EngOp) (l : Layout) (dir : TcpyDir) (tr : Bool) (org : List Int) (tile : Option TileAt)
    (bench : Nat) : List (Nat × Nat × Nat) :=
  let w := l.outFmt.width
  let e := (tile.map (·.entry)).getD TileEntry.clear
  (List.range l.total).filterMap fun q =>
    let i := l.tensorIdx org q
    let pos := l.place dir tr e q
    let x := if dir = .tileToMem then (s.tileBits ((tile.map (·.core)).getD 0) ((tile.map (·.phys)).getD 0) pos w).1
      else leNat (s.peek o true ((8 * bench + pos) / 8) ((pos % 8 + w + 7) / 8)) / 2 ^ (pos % 8) % 2 ^ w
    if l.inside i then some (8 * l.rowAt i + ((i[0]?).getD 0).toNat * w, w, x) else none

/-- The bytes that elements leave in memory, by rising address. -/
def State.putBytes (s : State) (o : EngOp) (memBench : Bool) (lo hi : Nat) (puts : List (Nat × Nat × Nat)) : List Byte :=
  let x := puts.foldl (fun x p => replaceBits x (p.1 - 8 * lo) p.2.1 p.2.2) (leNat (s.peek o memBench lo (hi - lo)))
  ((List.range (hi - lo)).filter fun k => puts.any fun p => p.1 < 8 * (lo + k + 1) && 8 * (lo + k) < p.1 + p.2.1).map fun k =>
    BitVec.ofNat 8 (x / 2 ^ (8 * k))

/-- The bytes that an operation would write, for the signature of its act (R311): what it would move now. A COLL's
destination bytes are not known before the reduction; it feeds the bytes that it sends to the reducer (log 12). -/
def State.actData (s : State) (o : EngOp) : List Byte :=
  match o.work with
  | .cpy src _ val => s.peek o src.bench src.va val ++ List.replicate (32 - val) 0
  | .gath none _ len => List.replicate len 0
  | .gath (some x) _ len => s.peek o x.bench x.va len
  | .tcpy dir tr r org memBench tile bench _ _ =>
    let l := Layout.of r.toNat
    match l.span org with
    | some (lo, hi) =>
      if dir = .tileToMem || dir = .benchToMem then
        s.putBytes o memBench lo hi (s.tcpyPuts o l dir tr org (s.tileAt o.tid tile) bench)
      else []
    | none => []
  | .nmc op f src dst n fill _ _ =>
    let from_ := s.peek o false src n
    match op with
    | .fill => (List.replicate (n / 4) (leBytes 4 fill.toNat)).flatten
    | .copy => from_
    | .cmp => leBytes 8 ((firstDiff (s.peek o false dst n) from_).getD 0xFFFFFFFFFFFFFFFF)
    | _ => leBytes n (mapElems f.width (nmcElem op f) (leNat (s.peek o false dst n)) (leNat from_) (8 * n))
  | .coll src _ _ len .. => s.peek o false src len
  | .matrix => []

/-- The written bytes of an act whose checks pass. -/
def State.actOf (s : State) (t : Tid) (pc : Pc) (cls : OpClass) (w : Except Fail OpWork) : List Byte :=
  match w with
  | .ok work => s.actData (s.newOp t pc cls [] 0 work false)
  | .error _ => []

/-- CPY (R209, R210). -/
def execCpy (m : Mods) (tag : Fin 4) (d sg : GReg) (a b : VReg) (val : Fin 64) (s : State) :
    Host.Outcome State Fault Refusal :=
  let bu := s.curBundle
  let regs := if val.val = 0 then [d] else [sg, d]
  let work (v : State) (t : Tid) := v.cpyWork t d sg (v.srcA m t a).toNat (v.srcB m t b).toNat val.val
  let go (v s : State) (t : Tid) (skipped : Bool) : State × Flow :=
    s.issueOp t bu.pc (tagClass tag) regs 0 (v.visibleTo t d) skipped (work v t)
  .next (s.runThreads m [a, b] (lastReads m [a] [b])
    (fun v s t => if v.visibleTo t d then
      some ⟨[v.srcA m t a, v.srcB m t b], [(v.regT t sg).vaOf (v.srcA m t a).toNat, (v.regT t d).vaOf (v.srcB m t b).toNat],
        s.actOf t bu.pc (tagClass tag) (work v t)⟩
      else none)
    (fun s u => (go s s u true).1) fun v s t => go v s t false)

/-- GATH at issue (R211). -/
def State.gathWork (s : State) (t : Tid) (d sg : GReg) (base dst : Nat) (idx : Word) (len : Nat) : Except Fail OpWork :=
  let off : Nat := base + idx.toNat * len
  let none? := idx = 0xFFFFFFFF#32
  match (if none? then none else (s.regT t sg).check off len .load) with
  | some f => .error f
  | none =>
    match (s.regT t d).check dst len .store with
    | some f => .error f
    | none =>
      if ((s.regT t sg).base + base) % 16 ≠ 0 then .error ⟨cAlign, 0, offAddr base⟩
      else if ((s.regT t d).base + dst) % 16 ≠ 0 then .error ⟨cAlign, 0, offAddr dst⟩
      else .ok (.gath (if none? then none else some ((s.regT t sg).side off)) ((s.regT t d).side dst) len)

/-- GATH (R211). -/
def execGath (m : Mods) (d sg : GReg) (a b : VReg) (rb : BitVec 12) (s : State) : Host.Outcome State Fault Refusal :=
  let bu := s.curBundle
  let ra := regGroup a 2
  let len := 16 * (rb.toNat + 1)
  let work (v : State) (t : Tid) := v.gathWork t d sg (v.srcA m t a).toNat (v.srcA m t (regAt a 1)).toNat (v.srcB m t b) len
  let go (v s : State) (t : Tid) (skipped : Bool) : State × Flow :=
    s.issueOp t bu.pc .gather (if v.srcB m t b = 0xFFFFFFFF#32 then [d] else [sg, d]) 0 (v.visibleTo t d) skipped (work v t)
  .next (s.runThreads m (ra ++ [b]) (lastReads m ra [b])
    (fun v s t => if v.visibleTo t d then
      some ⟨ra.map (v.srcA m t) ++ [v.srcB m t b], [(v.regT t sg).vaOf (v.srcA m t a).toNat,
        (v.regT t d).vaOf (v.srcA m t (regAt a 1)).toNat], s.actOf t bu.pc .gather (work v t)⟩
      else none)
    (fun s u => (go s s u true).1) fun v s t => go v s t false)

/-- A row moves: read whole, then written whole (R210, R211). -/
def State.moveRow (s : State) (o : EngOp) (src : Option Side) (n : Nat) (dst : Side) (pad : Nat) : State × Option Halt :=
  match src with
  | none => s.engWrite o dst (List.replicate (n + pad) 0)
  | some x =>
    match s.engRead o x n with
    | (s1, .error h) => (s1, some h)
    | (s1, .ok bs) => s1.engWrite o dst (bs ++ List.replicate pad 0)

/-! ### Elements of a tensor -/

/-- One logical element read from memory, as it is written (R221). -/
def State.loadElem (s : State) (o : EngOp) (l : Layout) (bench : Bool) (i : List Int) : State × Except Halt Nat :=
  let w := l.fmt.width
  let i0 := ((i[0]?).getD 0).toNat
  let n := l.linear i
  match l.cmp with
  | 0 => s.engBits o bench (8 * l.rowAt i + i0 * w) w
  | 1 =>
    match s.engBits o bench (8 * l.rowAt i + i0 * w) w with
    | (s1, .error h) => (s1, .error h)
    | (s1, .ok x) =>
      match s1.engBits o bench (8 * (l.sbase + 2 * (n / l.group))) 16 with
      | (s2, .error h) => (s2, .error h)
      | (s2, .ok y) =>
        (s2, .ok (roundToFormat ((Val.ofInt (l.fmt.intValue x)).mul (Fmt.f16.value y)) .bf16 .rne false))
  | _ =>
    match s.engBits o bench (8 * l.sbase + 4 * (n / 4)) 4 with
    | (s1, .error h) => (s1, .error h)
    | (s1, .ok nib) =>
      if nib / 4 ≤ nib % 4 then (s1, .error (.fault 4 0 (l.sbase + n / 8) false))
      else if i0 % 4 = nib % 4 || i0 % 4 = nib / 4 then
        let r := if i0 % 4 = nib % 4 then 0 else 1
        match s1.engBits o bench (8 * l.rowAt i + (2 * (i0 / 4) + r) * w) w with
        | (s2, .error h) => (s2, .error h)
        | (s2, .ok x) => (s2, .ok (roundToFormat (l.fmt.value x) .bf16 .rne false))
      else (s1, .ok 0)

/-! ### TCPY -/

/-- The record of a handle (R21, R222): a precise COPY_FAULT where it cannot be read. -/
def State.layoutAt (s : State) (asid hnd : Nat) (stat : Nat → Word) : Except Fail Layout :=
  match s.ctx? asid with
  | none => .error ⟨cCopyFault, stat 3, 0⟩
  | some c =>
    let va := c.ltbase + 64 * hnd
    let bad (x : Nat) : Fail := ⟨cCopyFault, stat x, BitVec.ofNat 57 va⟩
    if c.ltlen ≤ hnd then .error (bad (3 + 2 ^ 16))
    else
      match s.translateDev asid va .read with
      | .error f => .error (bad (1 + 2 ^ 4 * f.why))
      | .ok (.bench ..) => .error (bad 1)
      | .ok (.mem pa h) =>
        if s.poison.contains (lineKey h pa) then .error (bad 2)
        else
          let l := Layout.of (leNat (s.returnedBytes h pa 64))
          match l.badCheck with
          | some n => .error (bad (3 + 2 ^ 16 * n))
          | none => .ok l

/-- The bits of a record, kept with the operation (R21). -/
def State.layoutBits (s : State) (asid hnd : Nat) : BitVec 512 :=
  match s.ctx? asid with
  | none => 0
  | some c => BitVec.ofNat 512 ((s.deviceRead asid (c.ltbase + 64 * hnd) 64).getD 0)

/-- The operands of a TCPY (R219). -/
structure TcpyArgs where
  dir : TcpyDir
  g : GReg
  hnd : Nat
  tile : Nat
  bg : GReg
  tag : Fin 4
  dc : Bool
  tr : Bool
  org : List Int
  off : Word
  ctr : Nat

/-- A TCPY names a tile. -/
def TcpyArgs.onTile (x : TcpyArgs) : Bool := x.dir = .memToTile || x.dir = .tileToMem

/-- A TCPY reads memory. -/
def TcpyArgs.reads (x : TcpyArgs) : Bool := x.dir = .memToTile || x.dir = .memToBench

/-- The checks of the bench side (R222). -/
def State.benchSide (s : State) (t : Tid) (x : TcpyArgs) (bytes : Nat) : Except Fail Nat :=
  if x.onTile then .ok 0
  else
    let r := s.regT t x.bg
    match r.check x.off.toNat bytes (if x.dir = .memToBench then .store else .load) with
    | some f => .error f
    | none =>
      if r.space ≠ .bench then .error ⟨cBorrowAccess, 2, offAddr x.off.toNat⟩
      else if x.off.toNat % 4 ≠ 0 then .error ⟨cAlign, 0, offAddr x.off.toNat⟩
      else .ok (r.base + x.off.toNat)

/-- The checks of a TCPY at issue, in the order of R222, and its operation. `v` is the state region registers are read from
(R98). -/
def State.tcpyWork (s v : State) (t : Tid) (x : TcpyArgs) : Except Fail OpWork :=
  let asid := s.asidOf t
  let stat (n : Nat) : Word := BitVec.ofNat 32 (n + 2 ^ 9 * classCode (tagClass x.tag) + 2 ^ 12 * bitN x.dc)
  let n := ((s.ctx? asid).map Ctx.counters).getD 0
  let tile := s.tileAt t x.tile
  let tileBad : Option Fail :=
    if !x.onTile then none
    else match tile with
      | none => some (noTile x.tile)
      | some y => if x.dir = .memToTile then y.fillCheck else y.drainCheck
  let e := (tile.map (·.entry)).getD TileEntry.clear
  let recVa := ((s.ctx? asid).map fun c => c.ltbase + 64 * x.hnd).getD 0
  if x.dc && n ≤ x.ctr then .error (Fail.plain cIllegal x.ctr)
  else match tileBad with
    | some f => .error f
    | none =>
      match s.layoutAt asid x.hnd stat with
      | .error f => .error f
      | .ok l =>
        match l.badBox x.dir x.tr e with
        | some k => .error ⟨cCopyFault, stat (3 + 2 ^ 16 * k), BitVec.ofNat 57 recVa⟩
        | none =>
          let r := v.regT t x.g
          let memBad : Option Fail :=
            match l.span x.org with
            | none => none
            | some (lo, hi) => r.check ((lo : Int) - r.base) (hi - lo : Nat) (if x.reads then .load else .store)
          match memBad with
          | some f => .error f
          | none =>
            match v.benchSide t x (l.total * l.outFmt.width / 8) with
            | .error f => .error f
            | .ok bench =>
              .ok (.tcpy x.dir x.tr (s.layoutBits asid x.hnd) x.org (r.space = .bench) x.tile bench
                (if x.dc then some (s.counterOf asid x.ctr) else none) 0)

/-- The issue event of R217. -/
def State.tileIssue (s : State) (t : Tid) (x : TcpyArgs) : State :=
  match (if x.onTile then s.tileAt t x.tile else none) with
  | none => s
  | some y => s.modTile t y fun e => if x.dir = .memToTile then e.fill else e.drain

/-- TCPY (R219, R222). -/
def execTcpy (m : Mods) (dir : TcpyDir) (g : GReg) (a : VReg) (hnd : BitVec 12) (tile : Fin 512) (bg : GReg)
    (tag : Fin 4) (dc tr : Bool) (s : State) : Host.Outcome State Fault Refusal :=
  let bu := s.curBundle
  let ra := regGroup a 8
  let args (v : State) (t : Tid) : TcpyArgs :=
    let r (k : Nat) : Word := v.srcA m t (regAt a k)
    ⟨dir, g, hnd.toNat, tile.val, bg, tag, dc, tr, (List.range 5).map fun k => (r k).toInt, r 5, (r 6).toNat % 2 ^ 16⟩
  let toMem := dir = .tileToMem || dir = .benchToMem
  let go (v s : State) (t : Tid) (skipped : Bool) : State × Flow :=
    let x := args v t
    match s.issueOp t bu.pc (tagClass tag) (if x.onTile then [g] else [g, bg]) hnd.toNat (toMem && v.visibleTo t g) skipped
        (s.tcpyWork v t x) with
    | (s1, .next) => (s1.tileIssue t x, .next)
    | r => r
  .next (s.runThreads m (regGroup a 7) (lastReads m ra [])
    (fun v s t => if toMem && v.visibleTo t g then
      some ⟨(regGroup a 7).map (v.srcA m t), [(v.regT t g).base],
        s.actOf t bu.pc (tagClass tag) (s.tcpyWork v t (args v t))⟩ else none)
    (fun s u => (go s s u true).1) fun v s t => go v s t false)

/-- One element moves. -/
def State.moveElem (s : State) (o : EngOp) (l : Layout) (dir : TcpyDir) (tr : Bool) (org : List Int) (memBench : Bool)
    (tile : Option TileAt) (bench q : Nat) : State × Option Halt :=
  let i := l.tensorIdx org q
  let inn := l.inside i
  let w := l.outFmt.width
  let e := (tile.map (·.entry)).getD TileEntry.clear
  let core := (tile.map (·.core)).getD 0
  let phys := (tile.map (·.phys)).getD 0
  let pos := l.place dir tr e q
  let mpos := 8 * l.rowAt i + ((i[0]?).getD 0).toNat * w
  match dir with
  | .memToTile | .memToBench =>
    let (s1, x) := if inn then s.loadElem o l memBench i else (s, .ok l.fill)
    match x with
    | .error h => (s1, some h)
    | .ok x =>
      if dir = .memToTile then (s1.setTileBits core phys pos w x, none)
      else s1.setEngBits o true (8 * bench + pos) w x
  | .tileToMem =>
    if !inn then (s, none)
    else
      let (x, bad) := s.tileBits core phys pos w
      if bad then (s, some .ue) else s.setEngBits o memBench mpos w x
  | .benchToMem =>
    if !inn then (s, none)
    else
      match s.engBits o true (8 * bench + pos) w with
      | (s1, .error h) => (s1, some h)
      | (s1, .ok x) => s1.setEngBits o memBench mpos w x

/-- Elements move in transfer order until one stops the operation: how many have moved. -/
def moveElems (step : State → Nat → State × Option Halt) : Nat → Nat → State → State × Nat × Option Halt
  | 0, q, s => (s, q, none)
  | n + 1, q, s =>
    match step s q with
    | (s1, none) => moveElems step n (q + 1) s1
    | (s1, some h) => (s1, q, some h)

/-! ### NMC -/

/-- NMC at issue (R223, R224): offsets of source and destination, length, and vA+3. -/
def State.nmcWork (s : State) (t : Tid) (op : NmcOp) (d sg rg : GReg) (fmt : Fmt) (src dst n : Nat) (x : Word) :
    Except Fail OpWork :=
  let rd := s.regT t d
  let rs := s.regT t sg
  let rr := s.regT t rg
  let wide (f : Option Fail) (r : Region) (off : Nat) : Option Fail :=
    f.or (if r.space ≠ .region then some ⟨cBorrowAccess, 2, offAddr off⟩ else none)
  let uses := op ≠ .fill
  let checks : List (Option Fail) :=
    [wide (rd.check dst n .store) rd dst,
     if uses then wide (rs.check src n .load) rs src else none,
     if op = .cmp then rr.check x.toNat 8 .store else none,
     if dst % 128 ≠ 0 then some ⟨cAlign, 0, offAddr dst⟩ else none,
     if uses && src % 128 ≠ 0 then some ⟨cAlign, 0, offAddr src⟩ else none,
     if op = .cmp && x.toNat % 8 ≠ 0 then some ⟨cAlign, 0, offAddr x.toNat⟩ else none,
     if n % 128 ≠ 0 || n = 0 then some ⟨cAlign, 0, offAddr dst⟩ else none]
  match checks.filterMap (fun f => f) with
  | f :: _ => .error f
  | [] => .ok (.nmc op fmt (rs.base + src) (rd.base + dst) n x
      (if op = .cmp then some (rr.side x.toNat) else none) 0)

/-- The holders' caches write back their dirty lines of a range, and drop the lines (R224). -/
def State.nmcCaches (s : State) (t : Tid) (g : GReg) (base len : Nat) (drop : Bool) : State :=
  let cores := s.holderCores t.band t.troop g
  let lines := s.cachedLines (s.asidOf t) base len
  if drop then s.invalRange cores lines
  else
    let s1 := cores.foldl (fun s c => lines.foldl (fun s l => s.writeDownL1 c l) s) s
    (cores.map dieOf).eraseDups.foldl (fun s d => lines.foldl (fun s l => s.writeDownL2 d l) s) s1

/-- What NMC does to the holders' caches, at issue and at completion (R208, R224). -/
def State.nmcFlush (s : State) (t : Tid) (d sg rg : GReg) (w : OpWork) : State :=
  match w with
  | .nmc op _ src dst n _ res _ =>
    let s1 := if op = .fill then s else s.nmcCaches t sg src n false
    let s2 := s1.nmcCaches t d dst n true
    match res with
    | some x => if x.bench then s2 else s2.nmcCaches t rg x.va 8 true
    | none => s2
  | _ => s

/-- NMC (R223, R224). -/
def execNmc (m : Mods) (op : NmcOp) (d sg rg : GReg) (fmt : Fmt) (a : VReg) (s : State) :
    Host.Outcome State Fault Refusal :=
  let bu := s.curBundle
  let ra := regGroup a 4
  let regs := match op with | .fill => [d] | .cmp => [d, sg, rg] | _ => [d, sg]
  let work (v : State) (t : Tid) : Except Fail OpWork :=
    let r (k : Nat) : Word := v.srcA m t (regAt a k)
    v.nmcWork t op d sg rg fmt (r 0).toNat (r 1).toNat (r 2).toNat (r 3)
  let go (v s : State) (t : Tid) (skipped : Bool) : State × Flow :=
    let w := work v t
    match s.issueOp t bu.pc .nearmem regs 0 true skipped w with
    | (s1, .next) => (match w with | .ok x => if skipped then s1 else s1.nmcFlush t d sg rg x | .error _ => s1, .next)
    | r => r
  .next (s.runThreads m ra (lastReads m ra [])
    (fun v s t => some ⟨ra.map (v.srcA m t), regs.map fun g => (v.regT t g).base, s.actOf t bu.pc .nearmem (work v t)⟩)
    (fun s u => (go s s u true).1) fun v s t => go v s t false)

/-- The home of a far-tier line of an NMC (R224, R225). -/
def State.farLine (s : State) (o : EngOp) (va : Nat) (u : Use) : Except Halt Nat :=
  match s.engXlate o va u with
  | .error h => .error h
  | .ok (.mem pa .base) => .ok pa
  | .ok _ => .error (.fault 5 0 va (u == .write))

/-- The bytes of a far-tier line as they stood before a command's own writes (R223). -/
def State.nmcOld (s : State) (o : EngOp) (pa : Nat) : List Byte :=
  ((((s.op? o.id).map (·.old)).getD []).find? fun e => e.1 == pa).map (·.2) |>.getD (s.homeBytes .base pa 128)

/-- A command writes a whole line at its home, and keeps what it replaces (R223); the line is good again if it was poisoned
(R202). -/
def State.nmcPut (s : State) (o : EngOp) (pa : Nat) (bs : List Byte) : State :=
  let here := s.homeBytes .base pa 128
  let s1 := s.modOp o.id fun x => if x.old.any fun e => e.1 == pa then x else { x with old := x.old ++ [(pa, here)] }
  let s2 := s1.setHomeBytes .base pa bs
  { s2 with poison := s2.poison.filter fun l => l != lineKey .base pa }

/-- One line of an NMC (R224), the source as it stood before the command's own writes; a compare that finds a difference keeps
its offset in the operation. -/
def State.nmcLine (s : State) (o : EngOp) (op : NmcOp) (f : Fmt) (fill : Word) (k src dst : Nat) : State × Option Halt :=
  match s.farLine o dst (if op = .cmp then .read else .write) with
  | .error h => (s, some h)
  | .ok pd =>
    match (if op = .fill then .ok pd else s.farLine o src .read) with
    | .error h => (s, some h)
    | .ok ps =>
      let here := s.homeBytes .base pd 128
      let from_ := s.nmcOld o ps
      if op ≠ .fill && s.poison.contains (lineKey .base ps) then (s, some (.fault 2 0 src false))
      else if op ≠ .fill && op ≠ .copy && s.poison.contains (lineKey .base pd) then (s, some (.fault 2 0 dst (op != .cmp)))
      else
        match op with
        | .fill => (s.nmcPut o pd (List.replicate 32 (leBytes 4 fill.toNat)).flatten, none)
        | .copy => (s.nmcPut o pd from_, none)
        | .cmp => (s.modOp o.id fun x => { x with diff := x.diff.or ((firstDiff here from_).map (· + 128 * k)) }, none)
        | _ => (s.nmcPut o pd (leBytes 128 (mapElems f.width (nmcElem op f) (leNat here) (leNat from_) 1024)), none)

/-- The result word of a compare (R223, R224). -/
def State.nmcResult (s : State) (o : EngOp) (res : Option Side) : State × Option Halt :=
  let x := ((s.op? o.id).bind (·.diff)).getD 0xFFFFFFFFFFFFFFFF
  match res with
  | none => (s, none)
  | some y =>
    if y.bench then s.engWrite o y (leBytes 8 x)
    else
      match s.farLine o y.va .write with
      | .error h => (s, some h)
      | .ok pa => (s.setHomeBytes .base pa (leBytes 8 x), none)

/-- NMC runs from its first line not yet done: lines done, and why it stopped. A compare stops at its first difference. -/
def State.runNmc (s : State) (o : EngOp) (op : NmcOp) (f : Fmt) (src dst n : Nat) (fill : Word) (res : Option Side)
    (done : Nat) : State × Nat × Option Halt :=
  let step (s : State) (k : Nat) : State × Option Halt :=
    if ((s.op? o.id).bind (·.diff)).isSome then (s, none)
    else s.nmcLine o op f fill k (src + 128 * k) (dst + 128 * k)
  match moveElems step (n / 128 - done) done s with
  | (s1, k, some h) => (s1, k, some h)
  | (s1, k, none) =>
    match s1.nmcResult o res with
    | (s2, h) => (s2, k, h)

/-! ### Completion -/

/-- The state with an operation's progress. -/
def State.opDone (s : State) (o : EngOp) (k : Nat) : State :=
  s.modOp o.id fun x => { x with work := match x.work with
    | .tcpy a b c d e f g h _ => .tcpy a b c d e f g h k
    | .nmc a b c d e f g _ => .nmc a b c d e f g k
    | w => w }

/-- The CFIDX words of the first element not written (R227). -/
def cfIndices (o : EngOp) (k : Nat) : List Word :=
  match o.work with
  | .tcpy _ _ r org _ _ _ _ _ => ((Layout.of r.toNat).tensorIdx org k).map fun i => BitVec.ofInt 32 i
  | .nmc .. => [BitVec.ofNat 32 (128 * k)]
  | _ => [0]

/-- A COLL reads its source at egress, or writes its destination once every copy of the chunk is verified (R286, R291). -/
def State.runColl (s : State) (o : EngOp) (src dst len : Nat) : State × Option Halt :=
  if o.egress.isNone && !o.sent then
    match s.engRead o ⟨false, src⟩ len with
    | (s1, .ok _) => (s1, none)
    | (s1, .error h) => (s1, some h)
  else
    match s.chunks.find? fun c => c.verified && c.votes.isEmpty && c.inputs.any fun i => i.1 == o.id with
    | some c => match c.acc with | some a => s.engWrite o ⟨false, dst⟩ a.data | none => (s, none)
    | none => (s, none)

/-- An operation runs to its end or to what stops it, with how far it came. -/
def State.runOp (s : State) (o : EngOp) : State × Nat × Option Halt :=
  match o.work with
  | .cpy src dst val =>
    let (s1, h) := s.moveRow o (if val = 0 then none else some src) val dst (32 - val)
    (s1, 0, h)
  | .gath src dst len =>
    let (s1, h) := s.moveRow o src len dst 0
    (s1, 0, h)
  | .tcpy dir tr r org memBench tile bench _ done =>
    let l := Layout.of r.toNat
    let x := s.tileAt o.tid tile
    moveElems (fun s q => s.moveElem o l dir tr org memBench x bench q) (l.total - done) done s
  | .nmc op f src dst n fill res done =>
    (s.nmcFlush o.tid (o.regs.headD 0) ((o.regs[1]?).getD 0) ((o.regs[2]?).getD 0) o.work).runNmc o op f src dst n fill res done
  | .coll src dst _ len .. =>
    let (s1, h) := s.runColl o src dst len
    (s1, 0, h)
  | .matrix => (s, 0, none)

/-- What completion does beside the data: the event of R217 and the arrive of R222. -/
def State.endOp (s : State) (o : EngOp) : State :=
  let s1 := match o.work with
    | .tcpy dir _ _ _ _ tile _ dep _ =>
      let s1 := match dir, s.tileAt o.tid tile with
        | .memToTile, some x => s.modTile o.tid x TileEntry.filled
        | .tileToMem, some x => s.modTile o.tid x TileEntry.drained
        | _, _ => s
      match dep with
      | some c => if s1.second o.tid.band then s1 else s1.addCounter o.asid c (-1)
      | none => s1
    | _ => s
  s1.completeOp o

/-- The ranges that an operation accesses next: a COLL first reads its source alone (R286). -/
def EngOp.due (o : EngOp) : List (Bool × Nat × Nat) :=
  match o.work with
  | .coll .. => if o.egress.isNone && !o.sent then o.ranges.take 1 else o.ranges.drop 1
  | _ => o.ranges

/-- An older access of the issuing thread to bytes of an operation is still to be performed (R208). -/
def State.opBlocked (s : State) (o : EngOp) : Bool :=
  o.due.any fun r => (parts r.2.1 r.2.2).any fun p =>
    match s.engAt o r.1 p.1 with
    | some l =>
      s.flights.any (fun f => f.id < o.id && f.tid == o.tid && locMeets f.loc f.act.size l p.2) ||
        s.pending.any fun q => q.id < o.id && q.tid == o.tid && ((q.what.place.map fun e => locMeets e.1 e.2 l p.2).getD false)
    | none => false

/-- A fill writes only after its tile's zeroing (R216). -/
def State.opWaitsZero (s : State) (o : EngOp) : Bool :=
  match o.work with
  | .tcpy .memToTile _ _ _ _ tile _ _ _ => ((s.tileAt o.tid tile).map fun x => s.zeroDue x.core x.phys).getD false
  | _ => false

/-- An operation may move its data now. -/
def State.opReady (s : State) (o : EngOp) : Bool :=
  o.state = .running && o.walk.isNone && !s.opBlocked o && !s.opWaitsZero o

/-- An engine operation finishes: the events CPY_COMPLETE, GATH_COMPLETE, TCPY_COMPLETE and NMC_COMPLETE. One that needs a page
walk keeps what it has moved and waits; one that would stop with COPY_FAULT is left to that event. -/
def State.finishOp (s : State) (o : EngOp) : State :=
  if o.state = .skipped then s.endOp o
  else if !s.opReady o then s
  else
    match s.runOp o with
    | (s1, _, none) => s1.endOp o
    | (_, _, some (.fault ..)) => s
    | (s1, k, some (.miss va)) => (s1.opDone o k).engMiss o va
    | (s1, _, some .ue) => s1.consumeUe o.tid

/-- COPY_FAULT of an operation that cannot go on (R225). -/
def State.faultOp (s : State) (o : EngOp) : State :=
  if !s.opReady o then s
  else
    match s.runOp o with
    | (s1, k, some (.fault kind why va wr)) => (s1.opDone o k).suspendOp o kind why va wr (cfIndices o k)
    | _ => s

/-- The kind of an operation's work. -/
def OpWork.isCpy : OpWork → Bool
  | .cpy .. => true | _ => false
/-- A row gather. -/
def OpWork.isGath : OpWork → Bool
  | .gath .. => true | _ => false
/-- A tensor copy. -/
def OpWork.isTcpy : OpWork → Bool
  | .tcpy .. => true | _ => false
/-- A near-memory command. -/
def OpWork.isNmc : OpWork → Bool
  | .nmc .. => true | _ => false
/-- A collective. -/
def OpWork.isColl : OpWork → Bool
  | .coll .. => true | _ => false

/-- CPY_COMPLETE (R210). -/
def execCpyComplete (op : Nat) (s : State) : Host.Outcome State Fault Refusal :=
  match s.op? op with
  | some o => .next (if o.work.isCpy then s.finishOp o else s)
  | none => .next s

/-- GATH_COMPLETE (R211). -/
def execGathComplete (op : Nat) (s : State) : Host.Outcome State Fault Refusal :=
  match s.op? op with
  | some o => .next (if o.work.isGath then s.finishOp o else s)
  | none => .next s

/-- TCPY_COMPLETE (R222). -/
def execTcpyComplete (op : Nat) (s : State) : Host.Outcome State Fault Refusal :=
  match s.op? op with
  | some o => .next (if o.work.isTcpy then s.finishOp o else s)
  | none => .next s

/-- NMC_COMPLETE (R224). -/
def execNmcComplete (op : Nat) (s : State) : Host.Outcome State Fault Refusal :=
  match s.op? op with
  | some o => .next (if o.work.isNmc then s.finishOp o else s)
  | none => .next s

/-- COPY_FAULT (R225). -/
def execCopyFault (op : Nat) (s : State) : Host.Outcome State Fault Refusal :=
  match s.op? op with
  | some o => .next (s.faultOp o)
  | none => .next s

/-- CWAIT (R207). -/
def execCwait (m : Mods) (cls : OpClass) (n : BitVec 8) (s : State) : Host.Outcome State Fault Refusal :=
  .next (s.runPlain m fun _ s t =>
    if s.countOf t.band t.troop cls ≤ n.toNat then (s, .next) else (s, .wait (.cwait cls n.toNat)))

end Sys2Proof.Machine
end

