-- ==== Sys2Proof/Machine/Matrix.lean ====
section
/-! DEFINITION. The matrix engine (spec/12): the accumulator store (R228, R229), convergence registers and CSET (R230 to
R234), MMA and its rounds (R235 to R237), the matrix queue (R239, R240), ACCRD and ACCWR (R241, R242), the exponent
check (R243) and the issue-budget governor (R244). -/

namespace Sys2Proof.Machine

/-! ### The accumulator store -/

/-- The physical column of a band column on one of the band's cores (R61, R228). -/
def Band.accCol (b : Band) (k col : Nat) : Nat := (((b.accMap[k]?).getD [])[col / 32]?).getD 0 * 32 + col % 32

/-- The band core index of a thread. -/
def Band.kOf (b : Band) (t : Tid) : Nat := t.troop % max 1 b.ncores

/-- An accumulator element. -/
def CoreSt.accAt (c : CoreSt) (row col : Nat) : Word := look 0 (accKey row col) c.acc

/-- An accumulator element written; its poison becomes `bad` (R229). -/
def CoreSt.setAcc (c : CoreSt) (row col : Nat) (x : Word) (bad : Bool) : CoreSt :=
  let rest := c.accPoison.filter (· != (row, col))
  { c with acc := put 0 (accKey row col) x c.acc, accPoison := if bad then (row, col) :: rest else rest }

/-- An element is poisoned. -/
def CoreSt.accBad (c : CoreSt) (row col : Nat) : Bool := c.accPoison.contains (row, col)

/-- Put of R242: a result of a poisoned element stays poisoned (R229). -/
def CoreSt.putAcc (c : CoreSt) (row col : Nat) (add : Bool) (x : Val) : CoreSt :=
  let y := if add then (Fmt.f32.value (c.accAt row col).toNat).add .rne x else x
  c.setAcc row col (BitVec.ofNat 32 (roundToFormat y .f32 .rne false)) (add && c.accBad row col)

/-! ### CSET -/

/-- A convergence register of a band. -/
def State.conv (s : State) (b : Nat) (c : CReg) : Conv := ((s.band? b).bind fun x => x.conv[c.val]?).getD Conv.none

/-- The state with a convergence register replaced. -/
def State.setConv (s : State) (b : Nat) (c : CReg) (x : Conv) : State :=
  s.modBand b fun y => { y with conv := modAt y.conv c.val fun _ => x }

/-- The lanes of a troop whose threads have exited. -/
def State.exitedLanes (s : State) (b t : Nat) : BitVec 64 :=
  (s.troopTids b t).foldl (fun m u => if s.statusOf u = .exited then setBit64 m u.lane true else m) 0

/-- A mask register as it stood before the clock (R231). -/
def State.maskBefore (s : State) (t : Tid) (a : MReg) : BitVec 64 :=
  match s.now.masks.find? fun e => e.1 == (t.band, t.troop) with
  | some e => look 0 a.val e.2
  | none => s.readM t.band t.troop a

/-- A CSET of a thread joins those of its issue. -/
def State.noteCset (s : State) (t : Tid) (pc npc : Pc) (c : CReg) (mask : BitVec 64) : State :=
  let mine (n : CsetNote) : Bool := n.pc == pc && n.npc == npc && n.c == c && n.tids.any fun e => s.csegOf e.1 == s.csegOf t && s.asidOf e.1 == s.asidOf t
  let more (n : CsetNote) : CsetNote := { n with tids := n.tids ++ [(t, mask)] }
  let all := if s.now.csets.any mine then modIf mine more s.now.csets else s.now.csets ++ [⟨[(t, mask)], pc, npc, c⟩]
  { s with now := { s.now with csets := all } }

/-- CSET (R231): it takes effect at the end of its clock, after the signatures and exits of the clock (R246). -/
def execCset (m : Mods) (d : CReg) (a : MReg) (s : State) : Host.Outcome State Fault Refusal :=
  let bu := s.curBundle
  .next (s.runPlain m fun _ s t => (s.noteCset t bu.pc bu.npc d (s.maskBefore t a), .next))

/-- One CSET takes effect (R231): where a round is in progress its thread traps, else the register takes the mask. -/
def State.setMembers (s : State) (t : Tid) (c : CReg) (mask : BitVec 64) : State :=
  s.setConv t.band c { s.conv t.band c with
    troop := t.troop, members := mask &&& ~~~(s.exitedLanes t.band t.troop), signed := 0, sigs := [], latch := none }

/-- The CSETs of one issue take effect at the end of their clock, in increasing lane order (R231, R246). -/
def State.applyCset (s : State) (n : CsetNote) : State :=
  let r := n.tids.foldl (fun (r : State × List Raised) e =>
    if (r.1.conv e.1.band n.c).signed ≠ 0 then (r.1, r.2 ++ [(Fail.plain cIllegal 0x23).raised e.1])
    else (r.1.setMembers e.1 n.c e.2, r.2)) (s, [])
  r.1.raiseAll n.pc n.npc 0 r.2

/-! ### Rounds -/

/-- The words of a round: LA and LC cleared (R232). -/
def roundWords (m : Mods) (i : Mods → Instr) : List Word :=
  encode (i { m with la := false, xm := m.xm.map fun x => { x with lc := false } })

/-- The run-time checks of R238 that a round makes when it issues. -/
def State.roundCheck (s : State) (t : Tid) (tile : Fin 512) (col : BitVec 12) : Except Fail TileAt :=
  let acc := ((s.band? t.band).map (·.fp.acc)).getD 0
  if acc < col.toNat + 96 then .error (Fail.plain cIllegal 0x24)
  else
    match s.tileAt t tile.val with
    | none => .error (noTile tile.val)
    | some x => if x.entry.state = .ready then .ok x else .error (badTile x 2)

/-- The registers of the v8 group that a round of an A format reads: a 6-bit A reads six (R85, R236). -/
def rowRegs (f : Fmt) (a : VReg) : List VReg := regGroup a (if f.width = 6 then 6 else 8)

/-- A row of A of a lane, read through the troop's rename map (R64, R236). What a row that a 6-bit round put into the
latch gives a later round beyond its 192 bits, the spec leaves open: free values (log 43). -/
def State.rowOf (v : State) (b t : Nat) (f : Fmt) (a : VReg) (l : Nat) : List Word :=
  (rowRegs f a).map (v.troopLane b t l) ++ (if f.width = 6 then [Config.unreadRow v.fresh l 6, Config.unreadRow v.fresh l 7] else [])

/-- The member lanes of a set, in rising order. -/
def Conv.lanes (c : Conv) : List Nat := (List.range 64).filter (bit64 c.members)

/-- The rows and scales a round takes from the registers (R236). -/
def State.readRows (v : State) (b : Nat) (c : Conv) (f : Fmt) (a : VReg) (creg : Option VReg) :
    List (Nat × List Word) × List (Nat × Word) :=
  (c.lanes.map fun l => (l, v.rowOf b c.troop f a l),
   c.lanes.map fun l => (l, match creg with | some r => v.troopLane b c.troop l r | none => 0x7F7F7F7F))

/-- A register that a round reads from a member is poisoned (R319). -/
def State.roundPoison (v : State) (b : Nat) (c : Conv) (f : Fmt) (a : VReg) (creg : Option VReg) : Bool :=
  (rowRegs f a ++ creg.toList).any fun r =>
    (((v.troop? b c.troop).bind fun x => x.name? r).map (·.poison != 0)).getD false

/-- A round whose checks pass issues (R234, R236): rows from the registers or the latch, the signers' flags and
releases, and a place at the tail of the queue. `v` is the state registers are read from. -/
def State.issueRound (s v : State) (t : Tid) (ck : CReg) (m : Mods) (zi dec : Bool) (a : VReg) (x : TileAt)
    (col : BitVec 12) (ru : Bool) : State :=
  let c := s.conv t.band ck
  let xm := xmOrPlain m
  let taken := c.latch.getD (v.readRows t.band c x.entry.af a xm.creg)
  let members {α : Type} (l : List (Nat × α)) : List (Nat × α) := l.filter fun e => bit64 c.members e.1
  let r : Round :=
    { band := t.band, troop := t.troop, conv := ck.val, last := t, zi := zi, dec := dec, neg := xm.negA, tile := x.phys,
      tileIdx := x.idx, entry := x.entry, col := col.toNat, rows := members taken.1, scales := members taken.2,
      decay := ((v.band? t.band).map (·.decay)).getD 0x3F800000 }
  let e : MxEntry := ⟨c.op, .round r, false⟩
  let s1 := s.clearFlags c.op true
  let s2 := if c.latch.isSome then s1
    else c.sigs.foldl (fun s g => g.2.foldl (fun s r => s.modTroop t.band t.troop fun y => y.releaseName r g.1) s) s1
  (s2.setConv t.band ck { c with signed := 0, rounds := false, sigs := [], latch := if ru then some taken else none }).modCore
    x.core fun k => { k with mx := k.mx ++ [e] }

/-- The formats of MMA that feature bit 1 covers (R352). -/
def narrowFmt (f : Fmt) : Bool := f = .e3m2 || f = .e2m3 || f = .e2m1 || f = .i4 || f = .n4

/-- MMA (R232, R234, R235). -/
def execMma (m : Mods) (zi dec : Bool) (a : VReg) (tile : Fin 512) (col : BitVec 12) (ck : CReg) (ru : Bool) (s : State) :
    Host.Outcome State Fault Refusal :=
  let bu := s.curBundle
  let w := roundWords m fun m => .mma m zi dec a tile col ck ru
  let rel := lastReads3 m (regGroup a 8) [] (xmOrPlain m).creg.toList
  .next (s.runPlain m fun v s t =>
    let c := s.conv t.band ck
    if c.members = 0 || t.troop ≠ c.troop || !bit64 c.members t.lane then (s, .trap (Fail.plain cIllegal 0x21))
    else if bit64 c.signed t.lane then (s, .again (.signed ck))
    else if c.signed ≠ 0 && c.words ≠ w then (s, .trap (Fail.plain cIllegal 0x22))
    else if !c.rounds && s.counterFull t .matrix then (s, .again (.counter .matrix))
    else
      let c1 := if c.rounds then { c with words := w } else { c with words := w, rounds := true, op := s.fresh }
      let s1 := if c.rounds then s else s.startOp t bu.pc .matrix [] 0 .matrix false
      let c2 := { c1 with signed := setBit64 c1.signed t.lane true, sigs := c1.sigs ++ [(t.lane, rel)] }
      if c2.signed ≠ c2.members then
        ((s1.setConv t.band ck c2).setFlag t bu.setb c2.op true, .next)
      else
        match s1.roundCheck t tile col with
        | .error f => (s1.setConv t.band ck c1, .trap f)
        | .ok x =>
          if lacks 1 && (narrowFmt x.entry.af || narrowFmt x.entry.bf) then
            (s1.setConv t.band ck c1, .trap (Fail.plain cUnsupported 1))
          else if c2.latch.isNone && v.roundPoison t.band c2 x.entry.af a (xmOrPlain m).creg then (s, .ue)
          else ((s1.setConv t.band ck c2).issueRound v t ck m zi dec a x col ru, .next))

/-- A round that an exit has left complete issues, or is discarded with an asynchronous trap (R233, R234). -/
def State.exitRound (s : State) (b : Nat) (ck : CReg) : State :=
  let c := s.conv b ck
  match c.rounds && c.signed != 0 && c.signed == c.members, c.sigs.getLast?, decode c.words with
  | true, some (lane, _), some (.mma m zi dec a tile col _ ru, _) =>
    let t : Tid := ⟨b, c.troop, lane⟩
    match s.roundCheck t tile col with
    | .ok x =>
      if c.latch.isNone && s.roundPoison b c x.entry.af a (xmOrPlain m).creg then s.consumeUe t
      else s.issueRound s t ck m zi dec a x col ru
    | .error f =>
      let s1 := ((s.dropFlags c.op).setConv b ck { c with signed := 0, rounds := false, sigs := [] })
      let s2 : State := { s1 with ops := s1.ops.filter fun o => o.id != c.op }
      s2.raiseAsync t f.cause f.info f.addr [] [] none
  | _, _, _ => s

/-- Rounds that issue through the exits of a clock, in increasing number of their registers (R239). -/
def State.exitRounds (s : State) (bs : List Nat) : State :=
  (List.finRange 8).foldl (fun s ck => bs.foldl (fun s b => s.exitRound b ck) s) s

/-! ### ACCRD and ACCWR -/

/-- Elements of a group of registers in a format. -/
def accElems (f : Fmt) (nr : RegCount) : Nat := nr.n * 32 / f.width

/-- The columns named lie outside the band's (R238). -/
def State.badCols (s : State) (t : Tid) (col n : Nat) : Bool := ((s.band? t.band).map (·.fp.acc)).getD 0 < col + n

/-- An entry joins its core's matrix queue and is counted (R239, R240). -/
def State.queueMatrix (s : State) (t : Tid) (pc : Pc) (w : MxWork) : State :=
  let e : MxEntry := ⟨s.fresh, w, false⟩
  (s.startOp t pc .matrix [] 0 .matrix false).modCore (s.coreOf t) fun c => { c with mx := c.mx ++ [e] }

/-- ACCRD (R241). -/
def execAccrd (m : Mods) (df : Fmt) (r : Rnd) (satf : Bool) (d : VReg) (col : BitVec 12) (nr : RegCount) (zr : Bool)
    (s : State) : Host.Outcome State Fault Refusal :=
  let bu := s.curBundle
  .next (s.runPlain m fun _ s t =>
    if s.badCols t col.toNat (accElems df nr) then (s, .trap (Fail.plain cIllegal 0x24))
    else if s.counterFull t .matrix then (s, .again (.counter .matrix))
    else
      match s.take t (regGroup d nr.n) with
      | .error f => (s, f)
      | .ok s1 =>
        ((s1.queueMatrix t bu.pc (.read t df r satf d col.toNat nr.n zr)).setFlag t bu.seta s1.fresh false, .next))

/-- ACCWR from registers (R242). -/
def execAccwrReg (m : Mods) (sf : Fmt) (a : VReg) (col : BitVec 12) (nr : RegCount) (add : Bool) (s : State) :
    Host.Outcome State Fault Refusal :=
  let bu := s.curBundle
  let ra := regGroup a nr.n
  .next (s.runReads m ra (lastReads m ra []) fun v s t =>
    if s.badCols t col.toNat (accElems sf nr) then (s, .trap (Fail.plain cIllegal 0x24))
    else if s.counterFull t .matrix then (s, .again (.counter .matrix))
    else (s.queueMatrix t bu.pc (.writeReg t sf col.toNat add (ra.map (v.srcA m t))), .next))

/-- The bytes of a physical tile, by their place in it. -/
def State.tileData (s : State) (core phys : Nat) : List (Nat × Byte) :=
  match s.core? core with
  | some c => granuleBytes c.tiles phys 4096
  | none => []

/-- The bits of a tile's data and scales hold poison (R319). -/
def State.tileSick (s : State) (core phys : Nat) (e : TileEntry) : Bool :=
  let hi := if e.sc then e.scaleByte 95 (e.scales - 1) + 1 else 96 * e.colBytes
  match s.core? core with
  | some c => c.tilePoison.any fun p => 4096 * phys ≤ p && p < 4096 * phys + hi &&
      (p - 4096 * phys < 96 * e.colBytes || e.soff ≤ p - 4096 * phys)
  | none => false

/-- ACCWR from a tile (R242): the tile is read when the entry is made. -/
def execAccwrTile (m : Mods) (tile : Fin 512) (col : BitVec 12) (row0 : Fin 64) (add : Bool) (s : State) :
    Host.Outcome State Fault Refusal :=
  let bu := s.curBundle
  .next (s.runPlain m fun _ s t =>
    match s.tileAt t tile.val with
    | none => (s, .trap (noTile tile.val))
    | some x =>
      if x.entry.state ≠ .ready then (s, .trap (badTile x 2))
      else if s.badCols t col.toNat 96 then (s, .trap (Fail.plain cIllegal 0x24))
      else if 64 < row0.val + x.entry.depth then (s, .trap (Fail.plain cIllegal 0x25))
      else if s.counterFull t .matrix then (s, .again (.counter .matrix))
      else if s.tileSick x.core x.phys x.entry then (s, .ue)
      else
        (s.queueMatrix t bu.pc (.writeTile t x.entry (s.tileData x.core x.phys) col.toNat row0.val add), .next))

/-! ### Performing -/

/-- Element (k, n) of a tile's data, as a number of its B format (R214). -/
def tileElem (e : TileEntry) (data : List (Nat × Byte)) (n k : Nat) : Val := e.bf.value (readBits data (e.bitOf n k) e.bf.width)

/-- The block length L of R237. -/
def blockLen (f : Fmt) : Nat := if f = .bf16 || f = .f16 then 16 else 32

/-- sb(n, blk) of R237. -/
def tileScale (e : TileEntry) (data : List (Nat × Byte)) (n blk : Nat) : Nat :=
  if !e.sc then 0x7F
  else
    let j := if e.depth ≤ e.blk.len then 0 else blk * blockLen e.af / e.blk.len
    (look 0 (e.scaleByte n j) data).toNat

/-- The largest magnitude of a format in ExponentCheck (R243). -/
def largestOf (f : Fmt) : Val :=
  match f with
  | .i8 => .ofInt 128
  | .n8 => .ofInt 255
  | .i4 => .ofInt 8
  | .n4 => .ofInt 15
  | _ => f.value f.maxMag

/-- A block result that correct hardware does not produce (R243). -/
def suspectBlock (af bf : Fmt) (as bs : List Val) (sa sb : Nat) (x : Val) : Bool :=
  let odd (v : Val) : Bool := match v with | .fin .. => false | _ => true
  if as.any odd || bs.any odd || sa = 0xFF || sb = 0xFF then false
  else
    match ((largestOf af).mul (largestOf bf)).mul (.ofInt (blockLen af)), x with
    | .fin _ m e, .fin _ xm xe =>
      let top : Int := log2Of m e + ((sa : Int) - 127) + (sb - 127) + 1
      (Val.fin false xm xe).cmp (.fin false 1 top) != some .lt
    | _, _ => false

/-- The elements of block `blk` of row `i` of A (R236). -/
def Round.rowBlock (r : Round) (i blk : Nat) : List Val :=
  let f := r.entry.af
  let x := packElems 32 ((look [] i r.rows).map (·.toNat))
  let l := blockLen f
  (List.range l).map fun j =>
    let v := f.value (elem f.width (blk * l + j) x)
    if r.neg then v.neg else v

/-- The A scale of row i for block `blk` (R236). -/
def Round.scale (r : Round) (i blk : Nat) : Nat := fieldOf (look 0x7F7F7F7F i r.scales).toNat (8 * blk) 8

/-- One element of MmaExecute: its result, and the first suspect blocks with it. -/
def Round.element (r : Round) (data : List (Nat × Byte)) (old : Word) (i n : Nat) : Word × List (Nat × Nat × Nat) :=
  let e := r.entry
  let l := blockLen e.af
  let start : Word :=
    if r.zi then 0
    else if r.dec then
      BitVec.ofNat 32 (roundToFormat ((Fmt.f32.value old.toNat).mul (Fmt.f32.value r.decay.toNat)) .f32 .rne false)
    else old
  (List.range (max 1 (e.depth / 32))).foldl (fun acc blk =>
    let as := r.rowBlock i blk
    let bs := (List.range l).map fun j => tileElem e data n (blk * l + j)
    let sa := r.scale i blk
    let sb := tileScale e data n blk
    let x := blockDot as bs sa sb
    (accumulate acc.1 x, if suspectBlock e.af e.bf as bs sa sb x then acc.2 ++ [(i, r.col + n, blk)] else acc.2))
    (start, [])

/-- MXSLOC of a suspect block (R247). -/
def Round.place (r : Round) (x : Nat × Nat × Nat) : Word :=
  BitVec.ofNat 32 (x.1 + 2 ^ 6 * x.2.1 + 2 ^ 18 * x.2.2 + 2 ^ 19 * r.tileIdx + 2 ^ 28 * r.conv)

/-- What ExponentCheck does for the suspect blocks of a round (R243). -/
def State.suspects (s : State) (core : Nat) (r : Round) (xs : List (Nat × Nat × Nat)) : State :=
  match xs.head?, xs.getLast? with
  | some first, some last =>
    let asid := s.asidOf r.last
    let s1 := s.modCore core fun c => c.count asid fun k =>
      { k with mxsusp := min 0xFFFFFFFF (k.mxsusp + xs.length), mxsloc := r.place last }
    let s2 := s1.modThread r.last fun th => { th with susp := true }
    if ((s2.core? core).map (·.mxctl)).getD true then s2.raiseAsync r.last cSuspect (r.place first) 0 [] [] none else s2
  | _, _ => s

/-- The elements of a round: 64 rows of 96 columns. -/
def roundCells : List (Nat × Nat) := (List.range 64).flatMap fun i => (List.range 96).map fun n => (i, n)

/-- One element of a round (R237): the accumulator with it, and the suspect blocks found so far. -/
def State.mmaCell (core : Nat) (r : Round) (b : Band) (data : List (Nat × Byte)) (acc : State × List (Nat × Nat × Nat))
    (p : Nat × Nat) : State × List (Nat × Nat × Nat) :=
  let col := b.accCol (b.kOf r.last) (r.col + p.2)
  match acc.1.core? core with
  | none => acc
  | some c =>
    let x := r.element data (c.accAt p.1 col) p.1 p.2
    (acc.1.modCore core fun c => c.setAcc p.1 col x.1 (c.accBad p.1 col && !r.zi), acc.2 ++ x.2)

/-- MmaExecute (R237): every element of 64 rows and 96 columns. -/
def State.mmaExecute (s : State) (core : Nat) (r : Round) : State :=
  match s.band? r.band with
  | none => s
  | some b =>
    let x := roundCells.foldl (State.mmaCell core r b (s.tileData core r.tile)) (s, [])
    x.1.suspects core r x.2

/-- ACCRD of one thread is performed (R241). -/
def State.readAcc (s : State) (core : Nat) (op : Nat) (t : Tid) (df : Fmt) (r : Rnd) (satf : Bool) (d : VReg)
    (col nr : Nat) (zr : Bool) : State :=
  match s.band? t.band, s.core? core with
  | some b, some c =>
    let w := df.width
    let cols := (List.range (nr * 32 / w)).map fun e => b.accCol (b.kOf t) (col + e)
    if cols.any (c.accBad t.lane) then (s.dropFlags op).consumeUe t
    else
      let conv1 (x : Word) : Nat :=
        let v := Fmt.f32.value x.toNat
        if df = .i32 then wrapInt 32 (toIntOf v .i32 r) else roundToFormat v df r satf
      let bits := packElems w (cols.map fun p => conv1 (c.accAt t.lane p))
      let ws := (List.range nr).map fun j => RegWrite.v (regAt d j) (BitVec.ofNat 32 (bits / 2 ^ (32 * j)))
      let s1 := (s.writeRegs t ws).clearFlags op false
      if zr then s1.modCore core fun c => cols.foldl (fun c p => c.setAcc t.lane p 0 false) c else s1
  | _, _ => s

/-- ACCWR from registers is performed (R242). -/
def State.writeAcc (s : State) (core : Nat) (t : Tid) (sf : Fmt) (col : Nat) (add : Bool) (vals : List Word) : State :=
  match s.band? t.band with
  | none => s
  | some b =>
    let x := packElems 32 (vals.map (·.toNat))
    (List.range (vals.length * 32 / sf.width)).foldl (fun s e =>
      s.modCore core fun c => c.putAcc t.lane (b.accCol (b.kOf t) (col + e)) add (sf.value (elem sf.width e x))) s

/-- ACCWR from a tile is performed (R242). -/
def State.writeAccTile (s : State) (core : Nat) (t : Tid) (e : TileEntry) (data : List (Nat × Byte)) (col row0 : Nat)
    (add : Bool) : State :=
  match s.band? t.band with
  | none => s
  | some b =>
    let one (s : State) (k n : Nat) : State :=
      let sb := tileScale e data n (k / blockLen e.af)
      let x := if sb = 0xFF then Val.nan else (tileElem e data n k).scale ((sb : Int) - 127)
      s.modCore core fun c => c.putAcc (row0 + k) (b.accCol (b.kOf t) (col + n)) add x
    (List.range e.depth).foldl (fun s k => (List.range 96).foldl (fun s n => one s k n) s) s

/-! ### The governor -/

/-- Units of a round by its A format (R244). -/
def unitsOf (f : Fmt) : Nat :=
  match f with
  | .bf16 | .f16 => 8
  | .e4m3 | .e5m2 | .e3m2 | .e2m3 => 6
  | .i8 | .n8 | .e2m1 => 5
  | _ => 4

/-- A window boundary of a core has come (R244). -/
def CoreSt.windowDue (c : CoreSt) (clock : Nat) : Bool := c.mgorigin + 256 * (c.mgwindow + 1) ≤ clock

/-- The next window (R244): its budget, and the caps written since (R247). The power manager lowers the cap (R351). -/
def CoreSt.window (c : CoreSt) : CoreSt :=
  { c with mgwindow := c.mgwindow + 1, mgspent := c.mgused, mgused := 0, mgcap := c.mgcapNext, mgstep := c.mgstepNext,
           mgbudget := min (min c.mgcapNext c.mgpower) (c.mgused + c.mgstepNext) }

/-- A core's matrix queue without its head. -/
def CoreSt.popMx (c : CoreSt) : CoreSt := { c with mx := c.mx.tail }

/-- An operation of a queue entry is complete. -/
def State.entryDone (s : State) (op : Nat) : State :=
  match s.op? op with
  | some o => s.completeOp o
  | none => s

/-- The head of a queue is performed (R239), or held by the governor (R244). -/
def State.performEntry (s : State) (core : Nat) (c : CoreSt) (e : MxEntry) : State :=
  let s0 := s.modCore core CoreSt.popMx
  match e.work with
  | .round r =>
    let u := unitsOf r.entry.af
    if c.windowDue s.clock || s.clock < c.mxNext then s
    else if c.mgbudget < c.mgused + u then
      if e.held then s
      else s.modCore core fun c => ({ c with mx := modAt c.mx 0 fun e => { e with held := true } } : CoreSt).count
        (s.asidOf r.last) fun k => { k with mgov := satInc k.mgov }
    else
      let s1 := s0.modCore core fun c => { c with mgused := c.mgused + u, mxNext := s.clock + 4 }
      if s1.tileSick core r.tile r.entry then s1.consumeUe r.last
      else (s1.mmaExecute core r).entryDone e.op
  | .read t df r satf d col nr zr => (s0.readAcc core e.op t df r satf d col nr zr).entryDone e.op
  | .writeReg t sf col add vals => (s0.writeAcc core t sf col add vals).entryDone e.op
  | .writeTile t en data col row0 add => (s0.writeAccTile core t en data col row0 add).entryDone e.op

/-- MATRIX_ENTRY_PERFORM (R239). -/
def execMatrixEntryPerform (core : Nat) (s : State) : Host.Outcome State Fault Refusal :=
  match s.core? core with
  | some c => match c.mx.head? with
    | some e => .next (s.performEntry core c e)
    | none => .next s
  | none => .next s

/-- The windows that have ended since the core's last one: all but the last two would leave nothing behind. -/
def CoreSt.windows (c : CoreSt) (clock : Nat) : CoreSt :=
  let c1 := if c.mgorigin + 256 * (c.mgwindow + 2) ≤ clock then c.window.window else c.window
  { c1 with mgwindow := (clock - c.mgorigin) / 256 }

/-- GOVERNOR_WINDOW (R244). -/
def execGovernorWindow (core : Nat) (s : State) : Host.Outcome State Fault Refusal :=
  match s.core? core with
  | some c => .next (if c.windowDue s.clock then s.modCore core fun c => c.windows s.clock else s)
  | none => .next s

end Sys2Proof.Machine
end

