-- ==== Sys2Proof/Machine/Coll.lean ====
section
/-! DEFINITION. Checksummed collectives (spec/15): chunks with their transport check and witness (R283 to R285), the hops
(R286 to R288), COLL (R289, R290), delivery (R291), chunk slots and bounds (R292) and failures (R294). -/

namespace Sys2Proof.Machine

/-! ### Chunks -/

/-- The format of FMC (R289). -/
def collFmt (f : Fin 4) : Fmt :=
  match f.val with
  | 0 => .f32 | 1 => .bf16 | 2 => .i32 | _ => .n32

/-- The modulus of the transport check (R284). -/
def transportMod : Nat := 2 ^ 61 - 1

/-- Bytes in groups of n, as numbers (R5). -/
def groupsOf (n : Nat) (bs : List Byte) : List Nat := (List.range (bs.length / n)).map fun i => leNat ((bs.drop (n * i)).take n)

/-- T of R284: the sum of wi × 3^(i+1), reduced as it is formed. -/
def transport (bs : List Byte) : Nat := (groupsOf 4 bs).foldr (fun w acc => 3 * (w + acc) % transportMod) 0

/-- Fix of R285: ⌊x × 2^64⌋; none for NaN and the infinities. -/
def fixOf : Val → Option Int
  | .nan => none
  | .inf _ => none
  | .fin n m e =>
    let x : Int := if n then -(m : Int) else m
    some (if 0 ≤ e + 64 then x * 2 ^ (e + 64).toNat else x / 2 ^ (-(e + 64)).toNat)

/-- The sum of a list of optional integers; none if one is missing. -/
def sumFix : List (Option Int) → Option Int
  | [] => some 0
  | none :: _ => none
  | some x :: r => (sumFix r).map (x + ·)

/-- An element of magnitude 2^63 or more, which disables the witness (R285). -/
def huge : Val → Bool
  | .fin _ m e => (Val.fin false m e).cmp (.fin false 1 63) != some .lt
  | _ => false

/-- Witness of R285: W and WSAT. -/
def witness (f : Fmt) (bs : List Byte) : Int × Bool :=
  let xs := groupsOf (f.width / 8) bs
  if f = .i32 || f = .n32 then ((xs.map f.intValue).foldl (· + ·) 0, false)
  else
    if xs.any fun x => huge (f.value x) then (0, true)
    else match sumFix (xs.map fun x => fixOf (f.value x)) with
    | none => (0, true)
    | some s => if s < -2 ^ 127 || 2 ^ 127 ≤ s then (0, true) else (s, false)

/-- The code of a reduction (R283, R289). -/
def collNum : CollOp → Nat
  | .sum => 0 | .min => 1 | .max => 2

/-- The identity of a chunk slot. -/
def ChunkSlot.ident (c : ChunkSlot) : ChunkId := ⟨c.asid, c.coll, c.step, c.chunk⟩

/-- A chunk with fresh checks, written by a hop (R286). -/
def mkChunk (opr : CollOp) (f : Fmt) (hop : Nat) (i : ChunkId) (bs : List Byte) : Chunk :=
  let w := witness f bs
  ⟨bs, transport bs, w.1, w.2, collNum opr, f.code, hop, i.chunk, i.step, i.coll⟩

/-- The header of a chunk (R283). -/
def Chunk.header (c : Chunk) : BitVec 256 :=
  BitVec.ofInt 128 c.w ++ BitVec.ofNat 64 c.t ++ BitVec.ofBool c.wsat ++ BitVec.ofNat 2 c.opr ++ BitVec.ofNat 5 c.fmt ++
    BitVec.ofNat 8 c.hop ++ BitVec.ofNat 24 c.chunk ++ BitVec.ofNat 8 c.step ++ BitVec.ofNat 16 c.coll

/-- A chunk as its header gives it (R283). -/
def Chunk.ofHeader (h : BitVec 256) (bs : List Byte) : Chunk :=
  let n := h.toNat
  ⟨bs, fieldOf n 64 64, (h.extractLsb' 128 128).toInt, fieldOf n 63 1 == 1, fieldOf n 61 2, fieldOf n 56 5, fieldOf n 48 8,
    fieldOf n 24 24, fieldOf n 16 8, fieldOf n 0 16⟩

/-- The reduction that a header names; 3 is never sent (R283). -/
def Chunk.op? (c : Chunk) : Option CollOp := [CollOp.sum, .min, .max][c.opr]?

/-- The format that a header names, as FMC numbers it (R283, R289). -/
def Chunk.fmc? (c : Chunk) : Option (Fin 4) := (List.finRange 4).find? fun f => (collFmt f).code == c.fmt

/-- A chunk verifies: its bytes against its T, and a header with no other FMT or OPR than R283 gives (R286). -/
def Chunk.verifies (c : Chunk) : Bool :=
  c.t < transportMod && transport c.data == c.t && c.op?.isSome && c.fmc?.isSome

/-- One pairwise reduction (R286). -/
def reduceData (opr : CollOp) (f : Fmt) (a b : List Byte) : List Byte :=
  let n := f.width / 8
  let op : NmcOp := match opr with | .sum => .add | .min => .min | .max => .max
  (((groupsOf n a).zip (groupsOf n b)).map fun e => leBytes n (nmcElem op f e.1 e.2)).flatten

/-- Twice the rounding allowance of one output element in units of 2^-264: ½ Ulp (R127, R288). -/
def halfUlp (f : Fmt) (x : Nat) : Nat :=
  match f.value x with
  | .fin _ m e => 2 ^ (f.ulpExp m e - 1 + 264).toNat
  | _ => 0

/-- WitnessCheck of R288. -/
def witnessOk (opr : CollOp) (f : Fmt) (a b o : Chunk) : Bool :=
  if a.wsat || b.wsat || o.wsat then true
  else
    let xs := groupsOf (f.width / 8) o.data
    match opr with
    | .min => o.w ≤ a.w && o.w ≤ b.w
    | .max => a.w ≤ o.w && b.w ≤ o.w
    | .sum =>
      if f = .i32 || f = .n32 then
        let d := a.w + b.w - o.w
        d % 2 ^ 32 == 0 && d.natAbs ≤ xs.length * 2 ^ 32
      else
        (o.w - a.w - b.w).natAbs * 2 ^ 200 ≤ (xs.map (halfUlp f)).sum + 3 * xs.length * 2 ^ 200

/-- The output of a pairwise reduction; `out` replaces its bytes where the reducer went wrong. A disabled witness stays
disabled. -/
def reducePair (opr : CollOp) (f : Fmt) (a b : Chunk) (out : Option (List Byte)) : Chunk :=
  let o := mkChunk opr f 8 ⟨0, a.coll, a.step, a.chunk⟩ (out.getD (reduceData opr f a.data b.data))
  { o with wsat := o.wsat || a.wsat || b.wsat }

/-- The inputs reduced in their order: the result and whether every witness check held. -/
def reduceAll (opr : CollOp) (f : Fmt) (out : Option (List Byte)) : Chunk → List Chunk → Chunk × Bool
  | a, [] => (a, true)
  | a, [b] =>
    let o := reducePair opr f a b out
    (o, witnessOk opr f a b o)
  | a, b :: r =>
    let o := reducePair opr f a b none
    let (x, ok) := reduceAll opr f out o r
    (x, ok && witnessOk opr f a b o)

/-! ### COLL -/

/-- COLL at issue: its operation, or the check that fails (R290). -/
def State.collWork (s : State) (t : Tid) (sg d : GReg) (cross : Bool) (opr : CollOp) (fmc : Fin 4) (len np : Nat)
    (r : Nat → Word) : Except Fail OpWork :=
  let rs := s.regT t sg
  let rd := s.regT t d
  let src := (r 0).toNat
  let dst := (r 1).toNat
  match (rs.check src len .load).or (rd.check dst len .store) with
  | some f => .error f
  | none =>
    if rs.space ≠ .region then .error ⟨cBorrowAccess, 2, offAddr src⟩
    else if rd.space ≠ .region then .error ⟨cBorrowAccess, 2, offAddr dst⟩
    else if (rs.base + src) % 128 ≠ 0 then .error ⟨cAlign, 0, offAddr src⟩
    else if (rd.base + dst) % 128 ≠ 0 then .error ⟨cAlign, 0, offAddr dst⟩
    else
      .ok (.coll (rs.base + src) (rd.base + dst) dst len cross opr fmc np ((r 3).toNat % 2 ^ 16)
        ((r 2).toNat / 2 ^ 24) ((r 2).toNat % 2 ^ 24))

/-- COLL (R289, R290): UNSUPPORTED without feature 3, and for .xm without feature 5 (R352). -/
def execColl (m : Mods) (cross : Bool) (opr : CollOp) (fmc : Fin 4) (lenu : Fin 512) (npm : Fin 16) (sg d : GReg) (a : VReg)
    (s : State) : Host.Outcome State Fault Refusal :=
  let bu := s.curBundle
  let ra := regGroup a 4
  let work (v : State) (t : Tid) :=
    v.collWork t sg d cross opr fmc (128 * (lenu.val + 1)) (npm.val + 1) fun k => v.srcA m t (regAt a k)
  let go (v s : State) (t : Tid) (skipped : Bool) : State × Flow := s.issueOp t bu.pc .coll [sg, d] 0 true skipped (work v t)
  if lacks 3 then .next (s.runPlain m fun _ s _ => (s, .trap (Fail.plain cUnsupported 3)))
  else if cross && lacks 5 then .next (s.runPlain m fun _ s _ => (s, .trap (Fail.plain cUnsupported 5)))
  else .next (s.runThreads m ra (lastReads m ra [])
    (fun v s t => some ⟨ra.map (v.srcA m t), [(v.regT t sg).vaOf (v.srcA m t a).toNat,
      (v.regT t d).vaOf (v.srcA m t (regAt a 1)).toNat], s.actOf t bu.pc .coll (work v t)⟩)
    (fun s u => (go s s u true).1) fun v s t => go v s t false)

/-! ### Failures -/

/-- CKINFO, CKCHUNK and CKMOD (R295). -/
def ChunkSlot.regs (c : ChunkSlot) (kind hop modnum : Nat) : List Word :=
  [BitVec.ofNat 32 (c.coll + 2 ^ 16 * c.step + 2 ^ 24 * kind), BitVec.ofNat 32 (c.chunk + 2 ^ 24 * hop),
   BitVec.ofNat 32 modnum]

/-- The destination offset of a COLL (R294). -/
def OpWork.collOff : OpWork → Nat
  | .coll _ _ off .. => off
  | _ => 0

/-- One participant of a failed chunk (R294): its COLL completes, and its thread gets CHUNK_CHECK unless it has exited. -/
def State.failInput (s : State) (ck : List Word) (op : Nat) : State :=
  match s.op? op with
  | none => s
  | some o =>
    let s1 := s.completeOp o
    if s1.statusOf o.tid = .exited then s1
    else s1.raiseAsync o.tid cChunkCheck (ck.headD 0) (BitVec.ofNat 57 o.work.collOff) [] ck none

/-- What the modules of a peer group that still owe a chunk their outcome say of it is discarded once it has failed (R345):
what has come before its time, and what comes until they have given their outcome (log 45). -/
def State.discardMail (s : State) (c : ChunkSlot) : State :=
  let mine := s.mail.filter fun m => m.chunk == c.ident
  let told (n : Nat) : Bool := mine.any fun m => m.modnum == n && (match m.note with | .outcome .. => true | _ => false)
  { s with
    mail := s.mail.filter fun m => m.chunk != c.ident
    stale := s.stale ++ ((c.votes.filter fun n => !told n).map fun n => (c.ident, n)) }

/-- A word to every other module of a collective's peer group (R290, R291). -/
def State.tellPeers (s : State) (c : ChunkSlot) (group : List Nat) (n : PeerNote) : State :=
  { s with outbox := s.outbox ++ group.map fun g => Answer.coll g c.asid n }

/-- The modules of a context's peer group (R342). -/
def State.peerGroup (s : State) (asid : Nat) : List Nat :=
  (((s.ctx? asid).map fun c => (c.peers.filter fun p => p.2.getLsbD 15).map fun p => p.2.toNat % 4096).getD []).eraseDups

/-- The other modules of a context's peer group. -/
def State.otherModules (s : State) (asid : Nat) : List Nat := (s.peerGroup asid).filter (· != s.dev.modnum)

/-- A peer group names the module itself, without which COLL.xm fails with kind PEER (R344). -/
def State.inGroup (s : State) (asid : Nat) : Bool := (s.peerGroup asid).contains s.dev.modnum

/-- A chunk fails (R294): one record, one count, and CHUNK_CHECK for every participant here; the other modules are told of a
failure that this module's hops detected (R291). -/
def State.failChunk (s : State) (c : ChunkSlot) (kind hop modnum : Nat) : State :=
  let ck := c.regs kind hop modnum
  let seq := ((c.inputs.head?.bind fun i => s.op? i.1).map fun o => s.gridseqOf o.tid.band).getD 0
  let s1 := (s.faultRecord c.asid (recordWords 4 cChunkCheck kind ⟨0, 0, none, none⟩ 0 (ck.headD 0) seq
    [BitVec.ofNat 32 (c.coll + 2 ^ 16 * c.step), BitVec.ofNat 32 (c.chunk + 2 ^ 24 * hop), BitVec.ofNat 32 modnum]
    0)).modCtx c.asid fun x => { x with ckcount := satInc x.ckcount }
  let s2 := ({ s1 with chunks := s1.chunks.filter fun x => x.id != c.id } : State).discardMail c
  let s3 := if c.cross && modnum == s.dev.modnum then
      s2.tellPeers c (s2.otherModules c.asid) (.outcome c.coll c.step c.chunk (some (Fin.ofNat 8 kind, Fin.ofNat 256 hop)))
    else s2
  c.inputs.foldl (fun s i => s.failInput ck i.1) s3

/-! ### Delivery -/

/-- A slot replaced. -/
def State.setSlot (s : State) (c : ChunkSlot) : State := { s with chunks := modIf (fun x => x.id == c.id) (fun _ => c) s.chunks }

/-- One participant's die writes its destination and its COLL completes (R291). -/
def State.deliverInput (s : State) (op : Nat) (data : List Byte) : State × Option (EngOp × Halt) :=
  match s.op? op with
  | none => (s, none)
  | some o =>
    match o.work with
    | .coll _ dst .. =>
      if o.state = .skipped then (s.endOp o, none)
      else if !s.opReady o then (s, some (o, .ue))
      else
        match s.engWrite o ⟨false, dst⟩ data with
        | (s1, none) => (s1.endOp o, none)
        | (_, some h) => (s, some (o, h))
    | _ => (s, none)

/-- Every participant's die writes its destination; the first that cannot stops the delivery. -/
def State.deliverAll (data : List Byte) : List Nat → State → State × Option (EngOp × Halt)
  | [], s => (s, none)
  | op :: r, s =>
    match s.deliverInput op data with
    | (s1, none) => State.deliverAll data r s1
    | (_, some e) => (s, some e)

/-- Delivery of a chunk that every module has verified (R291): all destinations are written, or none while one of them needs
a page walk, waits for older stores, or is left to COPY_FAULT (log 44). -/
def State.deliver (s : State) (c : ChunkSlot) (data : List Byte) : State :=
  match State.deliverAll data (c.inputs.map (·.1)) s with
  | (s1, none) => { s1 with chunks := s1.chunks.filter fun x => x.id != c.id }
  | (_, some (o, .miss va)) => s.engMiss o va
  | (_, some _) => s

/-- Delivery goes on where every copy is verified, here and at the other modules (R291). -/
def State.tryDeliver (s : State) (c : ChunkSlot) : State :=
  match c.acc with
  | some x => if c.verified && c.votes.isEmpty then s.deliver c x.data else s
  | none => s

/-- The lowest participant die whose copy failed its check (R291). -/
def State.badDie (s : State) (c : ChunkSlot) (bad : List Nat) : Option Nat :=
  leastBy (fun d => d) ((c.inputs.filterMap fun i => (s.op? i.1).map fun o => dieOf o.core).filter bad.contains)

/-- COLL_DELIVER (R291): every die verifies its copy, and the other modules are told; nothing is written unless every
destination of every module has verified its copy. -/
def execCollDeliver (slot : Nat) (bad : List Nat) (s : State) : Host.Outcome State Fault Refusal :=
  match s.chunks.find? (·.id == slot) with
  | none => .next s
  | some c =>
    if c.acc.isNone || !c.peers.isEmpty then .next s
    else if c.verified then .next (s.tryDeliver c)
    else
      match s.badDie c bad with
      | some d => .next (s.failChunk c 2 d s.dev.modnum)
      | none =>
        let c1 := { c with verified := true }
        let s1 := s.setSlot c1
        let s2 := if c.cross then s1.tellPeers c (s1.otherModules c.asid) (.outcome c.coll c.step c.chunk none) else s1
        .next (s2.tryDeliver c1)

/-! ### The reducer -/

/-- PEERWAIT in clocks; 0 is taken as 1 (R345, R353). -/
def State.peerClocks (s : State) : Nat := max 1 s.dev.peerwait * Config.clocksPerUs

/-- The hop of the port towards a module (R287). -/
def peerHop (n : Nat) : Nat := 16 + (Config.peerPort n).val

/-- A peer's partial is verified and reduced into the module's own (R290): its failed checks are LINK at the port of arrival,
and its disagreements MISMATCH (R294). -/
def State.takePartial (s : State) (c : ChunkSlot) (a x : Chunk) (port : Fin 8) (modnum : Nat) (out : Option (List Byte)) :
    State :=
  let o := reducePair c.opr (collFmt c.fmc) a x out
  if !x.verifies then s.failChunk c 1 (16 + port.val) s.dev.modnum
  else if x.op? ≠ some c.opr || x.fmc? ≠ some c.fmc || x.data.length ≠ c.len then s.failChunk c 4 8 s.dev.modnum
  else if !witnessOk c.opr (collFmt c.fmc) a x o then s.failChunk c 3 8 s.dev.modnum
  else s.setSlot { c with acc := some o, peers := c.peers.filter (· != modnum) }

/-- The chunk of which a peer speaks. -/
def noteChunk (asid : Nat) : PeerNote → ChunkId
  | .partialResult h _ => let x := Chunk.ofHeader h []; ⟨asid, x.coll, x.step, x.chunk⟩
  | .outcome coll step chunk _ => ⟨asid, coll, step, chunk⟩

/-- What a peer says of a chunk (R290, R291): a partial, reduced once the inputs of this module have gathered; or its outcome.
What comes for a chunk that has failed here is discarded (R345); what comes before its slot is there waits for it (log 45). -/
def State.hear (s : State) (m : ChunkMail) : State :=
  if s.stale.contains (m.chunk, m.modnum) then
    match m.note with
    | .outcome .. => { s with stale := s.stale.filter (· != (m.chunk, m.modnum)) }
    | .partialResult .. => s
  else
    match s.chunks.find? fun c => c.ident == m.chunk with
    | none => { s with mail := s.mail ++ [m] }
    | some c =>
      match m.note, c.acc with
      | .partialResult .., none => { s with mail := s.mail ++ [m] }
      | .partialResult h bs, some a =>
        if c.peers.contains m.modnum then s.takePartial c a (Chunk.ofHeader h bs) m.port m.modnum m.out else s
      | .outcome _ _ _ none, _ =>
        let c1 := { c with votes := c.votes.filter (· != m.modnum) }
        (s.setSlot c1).tryDeliver c1
      | .outcome _ _ _ (some (k, hop)), acc =>
        let c1 := { c with votes := c.votes.filter (· != m.modnum), failed := c.failed.or (some (k.val, hop.val, m.modnum)) }
        if acc.isSome then s.failChunk c1 k.val hop.val m.modnum else s.setSlot c1

/-- COLL_PARTIAL_ARRIVE (R290, R291). -/
def execCollPartialArrive (asid : Nat) (coll : BitVec 16) (step : BitVec 8) (chunk : BitVec 24) (port : Fin 8) (modnum : Nat)
    (opr : BitVec 2) (fmt : BitVec 5) (told : PeerWord) (t : BitVec 64) (w : BitVec 128) (wsat : Bool) (out : Option (List Byte))
    (s : State) : Host.Outcome State Fault Refusal :=
  let note : PeerNote := match told with
    | .partialResult hop data => .partialResult (w ++ t ++ BitVec.ofBool wsat ++ opr ++ fmt ++ hop ++ chunk ++ step ++ coll) data
    | .outcome failed => .outcome coll.toNat step.toNat chunk.toNat failed
  .next (s.hear ⟨noteChunk asid note, port, modnum, note, out⟩)

/-- What waited for a chunk is heard. -/
def State.openMail (s : State) (i : ChunkId) : State :=
  let mine := s.mail.filter fun m => m.chunk == i
  mine.foldl State.hear { s with mail := s.mail.filter fun m => m.chunk != i }

/-- NP inputs have gathered (R290): a failed chunk ends; else they are reduced, and a .xm chunk's result goes to the other
modules of the peer group, whose partials it awaits. -/
def State.gathered (s : State) (c : ChunkSlot) (out : Option (List Byte)) : State :=
  match c.failed, c.inputs.map (·.2) with
  | some (kind, hop, modnum), _ => s.failChunk c kind hop modnum
  | none, [] => s
  | none, a :: r =>
    let (x, ok) := reduceAll c.opr (collFmt c.fmc) out a r
    if !ok then s.failChunk c 3 8 s.dev.modnum
    else if c.cross && !s.inGroup c.asid then s.failChunk c 6 (peerHop s.dev.modnum) s.dev.modnum
    else
      let s1 := s.setSlot { c with acc := some x }
      if c.cross then (s1.tellPeers c c.peers (.partialResult x.header x.data)).openMail c.ident else s1

/-- The checks of an input against its slot (R286, R294): its own T, FMT and OPR first. -/
def inputBad (c : ChunkSlot) (o : EngOp) (x : Chunk) : Option (Nat × Nat) :=
  match o.work with
  | .coll _ _ _ _ cross _ _ np _ _ _ =>
    if !x.verifies then some (1, dieOf o.core)
    else if x.data.length ≠ c.len || cross ≠ c.cross || x.op? ≠ some c.opr || x.fmc? ≠ some c.fmc || np ≠ c.np then some (4, 8)
    else none
  | _ => none

/-- An input joins its slot (R286, R292). -/
def State.joinSlot (s : State) (c : ChunkSlot) (o : EngOp) (x : Chunk) (out : Option (List Byte)) : State :=
  let s1 := s.modOp o.id fun y => { y with egress := none, sent := true }
  let c1 := { c with
    inputs := c.inputs ++ [(o.id, x)]
    failed := c.failed.or ((inputBad c o x).map fun f => (f.1, f.2, s.dev.modnum)) }
  if c.np ≤ c.inputs.length then s1.failChunk c1 4 8 s.dev.modnum
  else if c1.inputs.length < c1.np then s1.setSlot c1
  else s1.gathered c1 out

/-- COLLWAIT × TURN of a context; 0 is taken as 1 (R292, R295). -/
def State.collWaitOf (s : State) (asid : Nat) : Nat := max 1 (((s.ctx? asid).map (·.collwait)).getD 16) * s.dev.turn

/-- A chunk that has not gathered its inputs within its bound (R292). -/
def State.overdue (s : State) (c : ChunkSlot) : Bool := c.acc.isNone && c.deadline < s.clock

/-- The slot of a chunk's first input (R292): what it says of the reduction, and the modules that take part (R290). -/
def State.newSlot (s : State) (o : EngOp) (i : ChunkId) (np : Nat) (cross : Bool) (opr : CollOp) (fmc : Fin 4) (x : Chunk) :
    ChunkSlot :=
  let group := if cross then s.otherModules o.asid else []
  ⟨s.fresh, o.asid, i.coll, i.step, i.chunk, np, cross, x.op?.getD opr, x.fmc?.getD fmc, x.data.length, [], none,
    s.clock + s.collWaitOf o.asid, group, group, none, false⟩

/-- Egress (R286): the source is read and the chunk built, at issue or as soon as no older access of the thread is in its
way; a fault at its source is left to COPY_FAULT. -/
def State.egress (s : State) (o : EngOp) : State :=
  match o.work with
  | .coll src _ _ len _ opr fmc _ coll step chunk =>
    if o.egress.isSome || o.sent || !s.opReady o then s
    else
      match s.engRead o ⟨false, src⟩ len with
      | (s1, .ok bs) =>
        s1.modOp o.id fun y => { y with egress := some (mkChunk opr (collFmt fmc) (dieOf o.core) ⟨o.asid, coll, step, chunk⟩ bs) }
      | (_, .error (.miss va)) => s.engMiss o va
      | (_, .error _) => s
  | _ => s

/-- The egress of every COLL that can read its source. -/
def State.egressAll (s : State) : State :=
  s.ops.foldl (fun s o => match s.op? o.id with | some x => s.egress x | none => s) s

/-- An input arrives (R286): one without a free slot waits; one that comes past a chunk's bound finds that chunk failed
(R292). -/
def State.arriveInput (s : State) (o : EngOp) (got : Option (BitVec 256 × List Byte)) (out : Option (List Byte)) : State :=
  match o.work, o.egress with
  | .coll _ _ _ _ cross opr fmc np .., some built =>
    if o.state ≠ .running then s
    else
      let x := (got.map fun g => Chunk.ofHeader g.1 g.2).getD built
      let i : ChunkId := ⟨o.asid, x.coll, x.step, x.chunk⟩
      let s1 := match s.chunks.find? fun c => c.ident == i with
        | some c => if s.overdue c then s.failChunk c 5 8 s.dev.modnum else s
        | none => s
      match s1.chunks.find? fun c => c.ident == i with
      | some c => s1.joinSlot c o x out
      | none =>
        if 256 ≤ s1.chunks.length then s1
        else
          let c := s1.newSlot o i np cross opr fmc x
          ({ s1 with chunks := s1.chunks ++ [c], fresh := s1.fresh + 1 } : State).joinSlot c o x out
  | _, _ => if o.state = .skipped then s.endOp o else s

/-- COLL_INPUT_ARRIVE (R286). -/
def execCollInputArrive (op : Nat) (got : Option (BitVec 256 × List Byte)) (out : Option (List Byte)) (s : State) :
    Host.Outcome State Fault Refusal :=
  match s.op? op with
  | some o => .next (if o.work.isColl then s.arriveInput o got out else s)
  | none => .next s

/-- COLL_TIMEOUT (R292). -/
def execCollTimeout (slot : Nat) (s : State) : Host.Outcome State Fault Refusal :=
  match s.chunks.find? (·.id == slot) with
  | none => .next s
  | some c => .next (if s.overdue c then s.failChunk c 5 8 s.dev.modnum else s)

end Sys2Proof.Machine
end

