-- ==== Sys2Proof/Machine/Control.lean ====
section
/-! DEFINITION. Control transfers, mask registers and troop collectives, YIELD, NAP, TRAP and TRET (spec/06 R104 to R115,
spec/16 R303, R304). EXIT is in Machine/Ending.lean. -/

namespace Sys2Proof.Machine

/-- NextClause of R105. -/
def Bundle.nextClause (b : Bundle) : Pc := ⟨b.next, 0⟩

/-- The target of a signed packet offset from the packet of the control instruction (R105). -/
def Bundle.target (b : Bundle) (off : BitVec 24) : Pc := ⟨b.pc.p + off.signExtend 32, 0⟩

/-! ### Control transfers -/

/-- NOP (R115): no effect. -/
def execNop (s : State) : Host.Outcome State Fault Refusal :=
  .next (s.runPlain ⟨false, false, false, none, none⟩ fun _ s _ => (s, .next))

/-- BRA (R105). -/
def execBra (m : Mods) (cond : Option PReg) (sense : Bool) (_hint : Hint) (off : BitVec 24) (s : State) :
    Host.Outcome State Fault Refusal :=
  let b := s.curBundle
  .next (s.runPlain m fun v s t =>
    let taken := match cond with
      | none => true
      | some p => v.readP t p != sense
    (s, .jump (if taken then b.target off else b.nextClause)))

/-- BRX (R105). -/
def execBrx (m : Mods) (_hint : Hint) (a : VReg) (s : State) : Host.Outcome State Fault Refusal :=
  .next (s.runReads m [a] (lastReads m [a] []) fun v s t => (s, .jump ⟨v.srcA m t a, 0⟩))

/-- CALL (R105): the link is the next clause. -/
def execCall (m : Mods) (d : VReg) (off : BitVec 24) (s : State) : Host.Outcome State Fault Refusal :=
  let b := s.curBundle
  .next (s.runPlain m fun _ s t =>
    match s.take t [d] with
    | .error f => (s, f)
    | .ok s1 => (s1.writeV t d b.next, .jump (b.target off)))

/-- RET (R105): the same transfer as BRX. -/
def execRet (m : Mods) (a : VReg) (s : State) : Host.Outcome State Fault Refusal :=
  .next (s.runReads m [a] (lastReads m [a] []) fun v s t => (s, .jump ⟨v.srcA m t a, 0⟩))

/-! ### Mask registers -/

/-- A thread's own bit in a mask register of its troop (R107). -/
def State.setMember (s : State) (t : Tid) (r : MReg) (b : Bool) : State :=
  (s.noteMasks t.band t.troop).modTroop t.band t.troop fun x => { x with masks := put 0 r.val (setBit64 (look 0 r.val x.masks) t.lane b) x.masks }

/-- JOIN (R108). -/
def execJoin (m : Mods) (d : MReg) (s : State) : Host.Outcome State Fault Refusal :=
  .next (s.runPlain m fun _ s t => (s.setMember t d true, .next))

/-- LEAVE (R108). -/
def execLeave (m : Mods) (d : MReg) (s : State) : Host.Outcome State Fault Refusal :=
  .next (s.runPlain m fun _ s t => (s.setMember t d false, .next))

/-- WAITM begins to wait (R109). -/
def execWaitm (m : Mods) (a : MReg) (s : State) : Host.Outcome State Fault Refusal :=
  .next (s.runPlain m fun _ s _ => (s, .wait (.collective a 0 0 0 [])))

/-- MATCH begins to wait with its key (R110); the result pair takes its registers now (log 9). -/
def execMatchKeys (m : Mods) (k64 : Bool) (d a : VReg) (b : MReg) (s : State) : Host.Outcome State Fault Refusal :=
  let src := if k64 then [a, regAt a 1] else [a]
  .next (s.runReads m src [] fun v s t =>
    let key : BitVec 64 := if k64 then v.srcA2 m t a else (v.srcA m t a).zeroExtend 64
    match s.take t [d, regAt d 1] with
    | .error f => (s, f)
    | .ok s1 => (s1, .wait (.collective b (if k64 then 5 else 4) d.val key (lastReads m src []))))

/-- VOTE begins to wait with its predicate (R110). -/
def execVote (m : Mods) (form : VoteForm) (a : PReg) (b : MReg) (s : State) : Host.Outcome State Fault Refusal :=
  .next (s.runPlain m fun v s t =>
    let key : BitVec 64 := if v.readP t a then 1 else 0
    match form with
    | .any d => (s, .wait (.collective b 1 d.val key []))
    | .all d => (s, .wait (.collective b 2 d.val key []))
    | .ballot d =>
      match s.take t [d, regAt d 1] with
      | .error f => (s, f)
      | .ok s1 => (s1, .wait (.collective b 3 d.val key [])))

/-- A thread waiting in a collective: its variant, destination, key and releases. -/
structure Voter where
  tid : Tid
  code : Nat
  d : Nat
  key : BitVec 64
  rel : List VReg
  deriving DecidableEq, Repr

/-- The threads of a troop that wait on a mask register (R109). -/
def State.voters (s : State) (b t : Nat) (r : MReg) : List Voter :=
  (s.troopTids b t).filterMap fun u =>
    match s.statusOf u with
    | .waiting (.collective m code d key rel) => if m = r then some ⟨u, code, d, key, rel⟩ else none
    | _ => none

/-- The lanes of voters as a mask. -/
def laneMask (vs : List Voter) : BitVec 64 := vs.foldl (fun m x => setBit64 m x.tid.lane true) 0

/-- The result of one member of a completed set (R110). -/
def voteWrites (vs : List Voter) (x : Voter) : List RegWrite :=
  match x.code with
  | 1 => [.p (Fin.ofNat 24 x.d) (vs.any fun y => y.key != 0)]
  | 2 => [.p (Fin.ofNat 24 x.d) (vs.all fun y => y.key != 0)]
  | 3 => pairWrites (Fin.ofNat 64 x.d) (laneMask (vs.filter fun y => y.key != 0))
  | 4 | 5 => pairWrites (Fin.ofNat 64 x.d) (laneMask (vs.filter fun y => y.key == x.key))
  | _ => []

/-- A set completes (R109): results and releases for every member, ready at the next instruction in lane order; members
of different instructions trap, each at its own PC. -/
def State.completeVote (s : State) (vs : List Voter) : State :=
  match vs with
  | [] => s
  | first :: _ =>
    if vs.all fun x => x.code == first.code then
      vs.foldl (fun s x =>
        let s1 := (s.release x.tid x.rel).writeRegs x.tid (voteWrites vs x)
        match s1.thread? x.tid with
        | some th => s1.makeReady x.tid th.npc
        | none => s1) s
    else
      let pcOf (x : Voter) : Pc × Pc := ((s.thread? x.tid).map fun th => (th.pc, th.npc)).getD (⟨0, 0⟩, ⟨0, 0⟩)
      (vs.map pcOf).eraseDups.foldl (fun s p =>
        s.raiseAll p.1 p.2 0 ((vs.filter fun x => pcOf x == p).map fun x => (Fail.plain cIllegal 1).raised x.tid)) s

/-- A matrix queue holds an ACCRD of a thread, whose registers are not written yet (R241). -/
def State.accReads (s : State) (t : Tid) : Bool :=
  s.cores.any fun c => c.mx.any fun e => match e.work with
    | .read u .. => u == t
    | _ => false

/-- What a member wrote and accessed before it began to wait is complete (R111, log 13). -/
def State.voterDone (s : State) (x : Voter) : Bool :=
  s.orderClear x.tid .troop && !(s.pending.any fun p => p.tid == x.tid) && !s.accReads x.tid

/-- The mask unit examines one register (R109): a set of members that all wait completes; a waiting thread that is not
a member completes alone. -/
def State.examineMask (s : State) (b t : Nat) (r : MReg) : State :=
  let vs := s.voters b t r
  if vs.isEmpty then s
  else
    let mask := s.readM b t r
    let inside := vs.filter fun x => bit64 mask x.tid.lane
    let outside := vs.filter fun x => !bit64 mask x.tid.lane
    let s1 := outside.foldl (fun s x => if s.voterDone x then s.completeVote [x] else s) s
    if !inside.isEmpty && laneMask inside == mask && inside.all s1.voterDone then s1.completeVote inside else s1

/-- TROOP_COLLECTIVE_COMPLETE (R109): every mask register of a troop. -/
def State.examineMasks (s : State) (b t : Nat) : State :=
  (List.range 12).foldl (fun s r => s.examineMask b t (Fin.ofNat 12 r)) s

/-! ### Pausing and trapping -/

/-- YIELD (R113): ready at the next instruction, stamped afresh. -/
def execYield (m : Mods) (s : State) : Host.Outcome State Fault Refusal :=
  .next (s.runPlain m fun _ s _ => (s, .ready))

/-- NAP (R113): a nap that a trap interrupted goes on for its remainder. NAP 0 acts as YIELD. -/
def execNap (m : Mods) (n : Word) (s : State) : Host.Outcome State Fault Refusal :=
  .next (s.runPlain m fun _ s t =>
    let left := match s.thread? t with
      | some th => if th.depth then n.toNat else th.napLeft.getD n.toNat
      | none => 0
    let s1 := s.modThread t fun th => if th.depth then th else { th with napLeft := none }
    if left = 0 then (s1, .ready) else (s1, .wait (.nap (s.clock + left))))

/-- NAP_EXPIRE (R113): the count has run out. -/
def execNapExpire (t : Tid) (s : State) : Host.Outcome State Fault Refusal :=
  match s.thread? t with
  | none => .next s
  | some th =>
    match th.status with
    | .waiting (.nap u) => .next (if u ≤ s.clock then s.makeReady t th.npc else s)
    | _ => .next s

/-- TRAP (R114). -/
def execTrap (m : Mods) (n : Word) (s : State) : Host.Outcome State Fault Refusal :=
  .next (s.runPlain m fun _ s _ => (s, .trap ⟨cSwTrap, n, 0⟩))

/-- TRET (R303, R304): PRIV at depth 0; otherwise, once its flags are clear, the thread returns. -/
def execTret (m : Mods) (k : TretKind) (s : State) : Host.Outcome State Fault Refusal :=
  .next (s.runPlain m fun _ s t =>
    if !s.inHandler t then (s, .trap (Fail.plain cPriv 0))
    else if s.flagsSet t 0xFFF then (s, .again (.flags 0xFFF))
    else (s.trapReturn t k, .done))

end Sys2Proof.Machine
end

