-- ==== Sys2Proof/Machine/Ending.lean ====
section
/-! DEFINITION. EXIT (spec/06 R112, spec/12 R233) and the end of troops, bands and grids (spec/17 R323 to R330). -/

namespace Sys2Proof.Machine

/-! ### EXIT -/

/-- One thread exits (R112): it leaves its convergence sets, its trap events and its troop (R233, R298, R300). -/
def State.exitThread (s : State) (t : Tid) : State :=
  (((s.endThread t).dropConv t.band t.troop (setBit64 0 t.lane true)).unqueue t.band t.troop fun ev =>
    ev.lanes.all fun l => l.lane == t.lane).endEvent t.band t.troop

/-- EXIT (R112): it waits for the thread's flags; rounds that the exits of one clock complete issue at its end (R239, R246). -/
def execExit (m : Mods) (s : State) : Host.Outcome State Fault Refusal :=
  let bands := (s.curBundle.threads.map fun t => s.unit t.band).flatten.eraseDups
  let s1 := s.runThreads m [] [] (fun _ _ _ => some ⟨[], [], []⟩) (fun s u => s.exitThread u) fun _ s t =>
    if s.flagsSet t 0xFFF then (s, .again (.flags 0xFFF)) else (s.exitThread t, .done)
  .next { s1 with now := { s1.now with exits := s1.now.exits ++ bands } }

/-! ### Implicit returns -/

/-- How many parents a region register has (R324). -/
def State.carveDepth (s : State) (b t : Nat) : Nat → GReg → Nat
  | 0, _ => 0
  | n + 1, g =>
    let r := s.regT ⟨b, t, 0⟩ g
    if r.state = .held && !r.top then 1 + s.carveDepth b t n (Fin.ofNat 16 r.parent) else 0

/-- The registers of a unit that are not EMPTY, in the order of R324. -/
def State.returnOrder (s : State) (b t : Nat) (gs : List GReg) : List GReg :=
  sortBy (fun g => 16 * (16 - s.carveDepth b t 16 g) + g.val) (gs.filter fun g => (s.regT ⟨b, t, 0⟩ g).state != .empty)

/-- The bytes by which an implicit return of a pair is signed (R311, R324, log 27). -/
def State.returnBytes (s : State) (t : Tid) (g : GReg) : List Byte :=
  actBytes (encode (.rtn ⟨false, false, false, none, none⟩ true g)) 0 ⟨[], [(s.regT t g).base], s.dirtyBytes t g⟩

/-- A member's implicit top-level return, a signed act that waits for its partner's (R312, R324): it is the act of no
thread. -/
def State.returnAct (s : State) (t : Tid) (g : GReg) : State :=
  match s.troop? t.band t.troop with
  | none => s
  | some x =>
    let wait := max 1 (((s.ctx? (s.asidOf t)).map (·.pairwait)).getD 16) * s.dev.turn
    let sig := (s.returnBytes t g).foldl crcByte x.sig
    let a : PairAct := ⟨s.fresh, t.band, t.troop, x.acts, sig, s.clock + wait, [], false⟩
    ({ s with pairActs := s.pairActs ++ [a], fresh := s.fresh + 1 } : State).modTroop t.band t.troop fun y =>
      { y with sig := sig, acts := y.acts + 1 }

/-- A pair's implicit top-level return (R312, R324): each member signs it when it comes to it; once the signatures have been
found equal, it takes effect, from member 0. -/
def State.pairReturn (s : State) (t u : Tid) (g : GReg) : State :=
  let mine (b : Nat) (a : PairAct) : Bool := a.band == b && a.troop == t.troop && a.tids.isEmpty
  match s.pairActs.find? (mine t.band) with
  | none => s.returnAct t g
  | some a =>
    if !a.passed || s.second t.band then s
    else
      let s1 : State := { s with pairActs := s.pairActs.filter fun x => !(mine t.band x || mine u.band x) }
      ((s1.commit t.band).startReturn t g true).twinReturn g u

/-- The next implicit return of a unit (R324); the troop of a band's own registers is its first. -/
def State.returnOne (s : State) (t : Tid) (g : GReg) (killed : Bool) : State :=
  let r := s.regT t g
  match r.state with
  | .empty => s
  | .pending => s.emptyReg t g
  | .refused => s.emptyReg t g
  | .held =>
    if !r.kids.isEmpty then s
    else if r.top && r.space != .bench then
      match s.twinOf t with
      | none => (s.commit t.band).startReturn t g true
      | some u =>
        if !killed then s.pairReturn t u g
        else if s.second t.band then s
        else (s.startReturn t g true).setReg u g Region.none
    else s.startReturn t g true

/-- The implicit returns of a unit as far as they can go now. -/
def State.returnUnit (s : State) (t : Tid) (gs : List GReg) (killed : Bool) : State :=
  (List.range 8).foldl (fun s _ =>
    match s.returnOrder t.band t.troop gs with
    | [] => s
    | g :: _ => s.returnOne t g killed) s

/-- Nothing is left to return for a unit, and its returns are complete. -/
def State.returnsOver (s : State) (t : Tid) (gs : List GReg) : Bool :=
  (s.returnOrder t.band t.troop gs).isEmpty &&
    !(s.returns.any fun r => r.band == t.band && gs.contains r.g && (8 ≤ r.g.val || r.tid.troop == t.troop))

/-- g0 to g7. -/
def troopRegs : List GReg := (List.finRange 16).filter fun g => g.val < 8
/-- g8 to g15. -/
def bandRegs : List GReg := (List.finRange 16).filter fun g => 8 ≤ g.val

/-! ### Troops -/

/-- Every thread of a troop has exited or been killed (R323). -/
def State.troopOver (s : State) (b t : Nat) : Bool :=
  match s.troop? b t with
  | some x => !x.retired && x.threads.all fun th => th.status == .exited
  | none => false

/-- Steps 1 and 2 of R323: pending asynchronous traps become UNDELIVERED records, suspended operations are skipped. -/
def State.flushTroop (s : State) (b t : Nat) : State :=
  let mine (x : Tid) : Bool := x.band == b && x.troop == t
  let s1 := (s.asyncs.filter fun a => mine a.tid).foldl (fun s a => s.deliverAsync a) s
  { s1 with ops := modIf (fun o => mine o.tid && o.state == .suspended) (fun o => { o with state := .skipped }) s1.ops }

/-- A troop's work in progress has drained. -/
def State.troopDrained (s : State) (b t : Nat) : Bool :=
  let mine (x : Tid) : Bool := x.band == b && x.troop == t
  !(s.ops.any fun o => mine o.tid) && !(s.pending.any fun p => mine p.tid) && !(s.flights.any fun f => mine f.tid)

/-- TROOP_RETIRE as far as it can go now (R323). -/
def State.retireTroop (s : State) (b t : Nat) : State :=
  let s1 := s.flushTroop b t
  if !s1.troopDrained b t then s1
  else
    let tid : Tid := ⟨b, t, 0⟩
    let killed := ((s1.troop? b t).map (·.killed)).getD false
    let s2 := s1.returnUnit tid troopRegs killed
    if s2.returnsOver tid troopRegs && s2.troopOver b t then
      let core := s2.coreOf tid
      let s3 := match (s2.troop? b t).bind (·.slot) with | some i => s2.freeSlot core i | none => s2
      (s3.modTroop b t fun x => { x with retired := true, names := [], slot := none, active := none, queue := [] }).progressTraps core
    else s2

/-- TROOP_RETIRE (R323). -/
def execTroopRetire (band troop : Nat) (s : State) : Host.Outcome State Fault Refusal :=
  .next (if s.troopOver band troop then s.retireTroop band troop else s)

/-! ### Grids -/

/-- The words of a completion record (R330). -/
def completionWords (kind asid : Nat) (seq : Word) (cut bands killed cseq : Nat) : List Word :=
  [BitVec.ofNat 32 (kind + 2 ^ 8 * (if killed = 0 then 0 else 1) + 2 ^ 16 * asid), seq, 0, BitVec.ofNat 32 cut,
   BitVec.ofNat 32 bands, BitVec.ofNat 32 killed, BitVec.ofNat 32 cseq, seq]

/-- Its record is written at CPLVA, or COMPLETION UNWRITTEN where that does not translate (R329). -/
def State.writeCompletion (s : State) (g : Grid) : State :=
  let cseq := ((s.ctx? g.asid).map (·.cseq)).getD 0
  match s.translateDev g.asid g.cplva .write with
  | .ok (.mem pa h) =>
    (s.writeWords h pa (completionWords 1 g.asid g.seq 0 g.bands g.killed cseq)).modCtx g.asid fun c =>
      { c with cseq := c.cseq + 1 }
  | .ok (.bench ..) => s
  | .error f =>
    s.faultRecord g.asid (recordWords 9 0 0 ⟨0, 0, none, none⟩ 0 f.info g.seq
      ([1, g.seq] ++ addrWords g.cplva) 0)

/-- A grid whose last band is RETIRED is complete (R329); a device launch then counts as retired to its parent. -/
def State.finishGrid (s : State) (id : Nat) : State :=
  match s.grid? id with
  | none => s
  | some g =>
    if g.complete || g.retired < g.bands then s
    else
      let s1 := if g.cpl then s.writeCompletion g else s
      let s2 := s1.modGrid id fun x => { x with complete := true }
      match g.parent with
      | some (_, c) => s2.dropChild c
      | none => s2

/-! ### Bands -/

/-- Every troop of a band has retired. -/
def Band.troopsOver (b : Band) : Bool := !b.troops.isEmpty && b.troops.all (·.retired)

/-- A band's resources are released (R325). -/
def Band.released (b : Band) : Band :=
  { b with cores := [], benchMap := [], accMap := [], tileMap := [], tileEntries := [], conv := List.replicate 8 Conv.none,
           decay := 0x3F800000, saved := none, hasPoint := false, committed := false, saving := false }

/-- A band is RETIRED: it no longer counts as a child, and its grid may be complete (R326, R329). A redundant pair
counts once. -/
def State.countRetired (s : State) (b : Band) : State :=
  match b.grid with
  | some g =>
    let other := (s.partner b.id).bind s.band?
    if (other.map fun x => x.state != .retired).getD false then s
    else
      let k := if b.killed || (other.map (·.killed)).getD false then 1 else 0
      (s.modGrid g fun x => { x with retired := x.retired + 1, killed := x.killed + k }).finishGrid g
  | none => match b.parent with
    | some (_, c) => s.dropChild c
    | none => s

/-- A band with no child left is RETIRED (R325, R326). -/
def State.lastStep (s : State) (b : Nat) : State :=
  match s.band? b with
  | none => s
  | some x =>
    if (s.kidsOf b).isEmpty then (s.modBand b fun y => { y with state := .retired }).countRetired x
    else s.modBand b fun y => { y with state := .draining }

/-- BAND_RETIRE as far as it can go now (R325). -/
def State.retireBand (s : State) (b : Nat) : State :=
  match s.band? b with
  | none => s
  | some x =>
    let tid : Tid := ⟨b, 0, 0⟩
    let s1 := s.returnUnit tid bandRegs x.killed
    if s1.returnsOver tid bandRegs then
      let s2 := { s1 with shadows := s1.shadows.filter fun h => h.band.id != b }
      (((s2.dropZero x).modBand b Band.released).leaveCores x.asid x.cores).lastStep b
    else s1

/-- BAND_RETIRE (R325, R326). -/
def execBandRetire (band : Nat) (s : State) : Host.Outcome State Fault Refusal :=
  match s.band? band with
  | none => .next s
  | some x =>
    match x.state with
    | .resident | .saved => .next (if x.troopsOver then s.retireBand band else s)
    | .draining => .next (if (s.kidsOf band).isEmpty then s.lastStep band else s)
    | _ => .next s

end Sys2Proof.Machine
end

