-- ==== Sys2Proof/Machine/Front.lean ====
section
/-! DEFINITION. The front end (spec/03 R36 to R43): launch queues, NOP, GRID, CTXNEW and CTXKILL packets; the end of a
context (spec/17 R331) and the reclaim walk (spec/09 R182); the drain of slice queues and overflow rings (R49, spec/14
R274 to R277). -/

namespace Sys2Proof.Machine

/-! ### Launch queues -/

/-- A sequence number is at or ahead of another (R37). -/
def atOrAhead (a b : Word) : Bool := (a - b).toNat < 2 ^ 31

/-- The packet in the slot of QHEAD (R37). -/
def State.slotAt (s : State) (q : Queue) : Nat :=
  leNat (readBytes s.mem (q.qbase + 128 * (q.qhead.toNat % 2 ^ q.qsize)) 128)

/-- SEQ of a packet (R39). -/
def packetSeq (p : Nat) : Word := BitVec.ofNat 32 (fieldOf p 992 32)

/-- Consumption goes on while the queue is enabled and the target is at or ahead of QHEAD; else it ends, IDLE (R38). While a slot
is re-read only a target behind QHEAD ends it: QEN is looked at again once the packet has been consumed. -/
def Queue.settle (q : Queue) : Queue :=
  if q.running && !((q.qen || q.reread.isSome) && atOrAhead q.kick q.qhead) then { q with running := false, idle := true, reread := none } else q

/-- KickWrite of R38. -/
def Queue.kicked (q : Queue) (target : Word) : Queue :=
  Queue.settle { q with kickAhead := false, idle := false, kick := target, running := true }

/-- A command's answer to the host. -/
def State.answer (s : State) (c : Cmd) (a : Reply) : State := { s with outbox := s.outbox ++ [.mgmt c.seq a] }

/-- The management command at the host port (R340, R341): one on a queue pair other than 1 is refused, and nothing happens while the module is
halted (R351). The order of commands is the agenda's (log 47). -/
def State.command (s : State) (f : Cmd → State) : Host.Outcome State Fault Refusal :=
  .next (if s.dev.halted then s else if s.cmd.qp ≠ 1 then s.answer s.cmd .refused else f s.cmd)

/-- KICK (R38), a management write: a running consumption goes on with the new target. -/
def execKick (q : Fin 64) (target : Word) (s : State) : Host.Outcome State Fault Refusal :=
  s.command fun c => (s.modQueue q.val fun x => x.kicked target).answer c .done

/-- QUEUE_SLOT_REREAD (R38): the first read of a slot without its packet starts the count of 64 µs. -/
def execQueueSlotReread (q : Fin 64) (s : State) : Host.Outcome State Fault Refusal :=
  match s.queue? q.val with
  | none => .next s
  | some x =>
    if x.running && packetSeq (s.slotAt x) != x.qhead && x.reread.isNone then
      .next (s.modQueue q.val fun x => { x with reread := some s.clock })
    else .next s

/-- KICK_AHEAD_TIMEOUT (R38). -/
def execKickAheadTimeout (q : Fin 64) (s : State) : Host.Outcome State Fault Refusal :=
  match s.queue? q.val with
  | none => .next s
  | some x =>
    match x.reread with
    | none => .next s
    | some t =>
      if x.running && packetSeq (s.slotAt x) != x.qhead && t + 64 * Config.clocksPerUs ≤ s.clock then
        .next (s.modQueue q.val fun x => { x with kickAhead := true, running := false, reread := none })
      else .next s

/-- The packet that the front end finds at QHEAD, if it may be consumed now. -/
def State.packetAt (s : State) (q : Fin 64) : Option (Queue × Nat) :=
  match s.queue? q.val with
  | none => none
  | some x =>
    let p := s.slotAt x
    if x.running && (x.qen || x.reread.isSome) && packetSeq p == x.qhead then some (x, p) else none

/-- A packet is refused with the lowest code of those it meets (R43), or accepted; QHEAD then goes on. -/
def State.consume (s : State) (q : Fin 64) (p : Nat) (codes : List Nat) (accept : State → State) : State :=
  let s1 := match leastBy (fun c => c) codes with
    | some c => s.modQueue q.val fun x =>
        { x with refused := true, qrefcnt := satInc x.qrefcnt,
                 qerr := BitVec.ofNat 32 (c + 2 ^ 8 * ((packetSeq p).toNat % 2 ^ 24)) }
    | none => accept s
  s1.modQueue q.val fun x => Queue.settle { x with qhead := x.qhead + 1, reread := none }

/-- KIND of a packet (R39). -/
def packetKind (p : Nat) : Nat := fieldOf p 0 8

/-- NOP_PACKET (R39): a NOP, or a packet of a reserved KIND, which is refused (R43). -/
def execNopPacket (q : Fin 64) (s : State) : Host.Outcome State Fault Refusal :=
  match s.packetAt q with
  | some (_, p) =>
    if 1 ≤ packetKind p && packetKind p ≤ 3 then .next s
    else .next (s.consume q p (if fieldOf p 0 992 = 0 then [] else [1]) fun s => s)
  | none => .next s

/-- A context takes new work (R18, R43). -/
def State.liveCtx (s : State) (asid : Nat) : Bool := ((s.ctx? asid).map (·.live)).getD false

/-- GRID_PACKET (R40, R43). -/
def execGridPacket (q : Fin 64) (s : State) : Host.Outcome State Fault Refusal :=
  match s.packetAt q with
  | some (x, p) =>
    if packetKind p ≠ 1 then .next s
    else
      let spec := GridSpec.of p
      let codes := s.gridCodes x.qctx p ++ (if s.liveCtx x.qctx then [] else [3])
      .next (s.consume q p codes fun s =>
        match s.kernelAt x.qctx spec.khdr with
        | some (fp, n) => s.startGrid x.qctx spec fp n (packetSeq p) (packetSeq p) none 0
        | none => s)
  | none => .next s

/-! ### Contexts -/

/-- A context descriptor passes R20. -/
def descriptorOk (d : Nat) : Bool :=
  let f (lo w : Nat) : Nat := fieldOf d lo w
  f 28 1 == 1 && f 333 51 == 0 && f 206 50 == 0 && f 29 35 == 0 && f 11 5 == 0 &&
    f 448 64 < 2 ^ 57 && f 384 64 < 2 ^ 57 && f 256 64 < 2 ^ 57 && f 128 64 < 2 ^ 57 &&
    f 448 16 == 0 && f 384 17 == 0 && f 256 7 == 0 && f 128 7 == 0 && f 64 12 == 0 && f 320 13 ≤ 4096 && f 192 14 ≤ 8192

/-- The counter count N of a CTXNEW packet (R41). -/
def counterCount (p : Nat) : Nat := if fieldOf p 927 1 = 1 then 65536 else fieldOf p 944 16

/-- The fields of a CTXNEW packet are in their ranges (R39, R41). -/
def ctxnewFieldsOk (p : Nat) : Bool :=
  let dall := fieldOf p 927 1 == 1
  let cnt := fieldOf p 944 16
  let base := fieldOf p 928 16
  fieldOf p 12 20 == 0 && fieldOf p 10 1 == 0 && fieldOf p 32 32 == 0 && fieldOf p 576 256 == 0 &&
    fieldOf p 896 31 == 0 && 1 ≤ fieldOf p 960 32 && fieldOf p 960 32 ≤ 1048576 &&
    (fieldOf p 11 1 == 1 || fieldOf p 832 64 == 0) && (!dall || cnt == 0) && ((!dall && cnt != 0) || base == 0)

/-- Windows of counters overlap. -/
def windowsMeet (a n b m : Nat) : Bool := n != 0 && m != 0 && a < b + m && b < a + n

/-- A context as CTXNEW makes it (R20, R41), its registers at their reset values (R58, R184, R295, R321, R322). -/
def ctxOf (p : Nat) : Ctx :=
  let f (lo w : Nat) : Nat := fieldOf p (64 + lo) w
  { asid := f 0 11, live := true, domain := f 16 12, ptroot := f 64 64, tdtbase := f 128 64, tdtlen := f 192 14,
    ltbase := f 256 64, ltlen := f 320 13, ringbase := f 384 64, fqbase := f 448 64, pendmax := fieldOf p 960 32,
    depbase := fieldOf p 928 16, depcnt := counterCount p, deedwait := 16, collwait := 16, pairwait := 16, rollmax := 4,
    thentry := 0xFFFFFFFF, thseg := 0, fqhead := 0, fqtail := 0, fqlost := 0, borref := 0, borque := 0, deperr := 0,
    ckcount := 0, cfcount := 0, cseq := 0, peers := [], ring := 0, kill := none }

/-- A completion record at a physical address (R329, R330). -/
def State.completeAt (s : State) (cpl : Bool) (pa kind asid : Nat) (seq : Word) (cut cseq : Nat) : State :=
  if cpl then s.writeWords .base pa (completionWords kind asid seq cut 0 0 cseq) else s

/-- CTXNEW (R41, R43). -/
def execCtxnew (q : Fin 64) (s : State) : Host.Outcome State Fault Refusal :=
  match s.packetAt q with
  | some (x, p) =>
    if packetKind p ≠ 2 then .next s
    else
      let c := ctxOf p
      let meets := s.ctxs.any fun y => windowsMeet c.depbase c.depcnt y.depbase y.depcnt
      let codes := (if ctxnewFieldsOk p then [] else [1]) ++ (if descriptorOk (fieldOf p 64 512) then [] else [4]) ++
        (if (s.ctx? c.asid).isSome then [5] else []) ++ (if 65536 < c.depbase + c.depcnt || meets then [6] else []) ++
        (if x.qpriv then [] else [9])
      .next (s.consume q p codes fun s =>
        let cpl := fieldOf p 11 1 == 1
        let s1 : State := { s with ctxs := s.ctxs ++ [{ c with cseq := bitN cpl }] }
        s1.completeAt cpl (fieldOf p 832 64) 2 c.asid (packetSeq p) 0 0)
  | none => .next s

/-- What a context kill ends at once (R42, R57, R331): all its work, with no implicit return. -/
def State.stopCtx (s : State) (asid : Nat) : State :=
  let bs := (s.bands.filter fun b => b.asid == asid).map (·.id)
  let gs := (s.grids.filter fun g => g.asid == asid).map (·.id)
  let gone (t : Tid) : Bool := bs.contains t.band
  let ours (w : Asker) : Bool :=
    match w with
    | .troop b _ _ => bs.contains b
    | .band b _ => bs.contains b
    | .grid g => gs.contains g
    | .peer _ => false
  let ops := (s.ops.filter fun o => gone o.tid).map (·.id)
  let fams := (s.families.filter fun f => f.asid == asid).map (·.id)
  let low := ((s.ctx? asid).map (·.depbase)).getD 0
  let high := low + ((s.ctx? asid).map (·.depcnt)).getD 0
  { s with
    bands := s.bands.map fun b =>
      if b.asid = asid then
        { b.released with state := .retired, troops := [], g := List.replicate 8 Region.none }
      else b
    grids := s.grids.filter fun g => g.asid != asid
    launches := s.launches.filter fun l => l.asid != asid
    children := s.children.filter fun c => !bs.contains c.2
    deps := s.deps.filter fun d => !(low ≤ d.idx && d.idx < high)
    packets := s.packets.filter fun p => p.asid != asid
    rings := s.rings.filter fun p => p.asid != asid
    sleepers := s.sleepers.filter fun x => !gone x.tid
    slots := s.slots.map fun x =>
      match x.owner with
      | some (b, _, _) => if bs.contains b then { x with owner := none } else x
      | none => x
    bundles := s.bundles.filter fun b => b.asid != asid
    pending := s.pending.filter fun p => !gone p.tid
    holds := s.holds.filter fun h => !gone h.tid
    flights := s.flights.filter fun f => !gone f.tid
    walks := s.walks.filter fun w => w.asid != asid
    msgs := s.msgs.filter fun m => !ours m.who || (match m.body with | .dquery .. | .dhold .. => true | _ => false)
    borrows := s.borrows.filter fun b => b.asid != asid
    families := s.families.filter fun f => !fams.contains f.id
    returns := s.returns.filter fun r => !bs.contains r.band
    pins := s.pins.filter fun p => !bs.contains p.tid.band
    ops := s.ops.filter fun o => !gone o.tid
    cores := s.cores.map fun c => { c with mx := c.mx.filter fun e => !ops.contains e.op }
    chunks := s.chunks.filter fun c => c.asid != asid
    mail := s.mail.filter fun m => m.chunk.asid != asid
    stale := s.stale.filter fun e => e.1.asid != asid
    asyncs := s.asyncs.filter fun a => !gone a.tid
    pairActs := s.pairActs.filter fun a => !bs.contains a.band
    shadows := s.shadows.filter fun h => !bs.contains h.band.id }

/-- CTXKILL is accepted (R42, R331): CUT counts the grids not complete. -/
def State.killCtx (s : State) (asid : Nat) (seq : Word) (cpl : Bool) (pa : Nat) : State :=
  let cut := (s.grids.filter fun g => g.asid == asid && !g.complete).length
  (s.stopCtx asid).modCtx asid fun c => { c with live := false, kill := some (seq, cpl, pa, cut) }

/-- The fields of a CTXKILL packet are in their ranges (R39, R42). -/
def ctxkillFieldsOk (p : Nat) : Bool :=
  fieldOf p 12 20 == 0 && fieldOf p 10 1 == 0 && fieldOf p 43 789 == 0 && fieldOf p 896 96 == 0 &&
    (fieldOf p 11 1 == 1 || fieldOf p 832 64 == 0)

/-- CTXKILL (R42, R43). -/
def execCtxkill (q : Fin 64) (s : State) : Host.Outcome State Fault Refusal :=
  match s.packetAt q with
  | some (x, p) =>
    if packetKind p ≠ 3 then .next s
    else
      let asid := fieldOf p 32 11
      let codes := (if ctxkillFieldsOk p then [] else [1]) ++ (if s.liveCtx asid then [] else [3]) ++
        (if x.qpriv then [] else [9])
      .next (s.consume q p codes fun s => s.killCtx asid (packetSeq p) (fieldOf p 11 1 == 1) (fieldOf p 832 64))
  | none => .next s

/-! ### The reclaim walk -/

/-- Every cached copy of a range is discarded and its home lines become zero (R182). -/
def State.wipe (s : State) (asid base len : Nat) : State :=
  (List.range ((len + 127) / 128)).foldl (fun s k =>
    match s.translateDev asid (base + 128 * k) .read with
    | .ok (.mem pa h) =>
      let line := lineKey h pa
      let s1 := (s.discardLines (s.cores.map (·.id)) none [line]).publish [line]
      let s2 : State := { s1 with dies := s1.dies.map fun d => { d with l2 := d.l2.filter fun l => l.line != line },
                                  poison := s1.poison.filter fun l => l != line }
      s2.setHomeBytes h (pa / 128 * 128) (List.replicate 128 0)
    | _ => s) s

/-- ReclaimWalk at one home (R182). -/
def State.reclaimHome (s : State) (asid home : Nat) : State :=
  match s.home? home with
  | none => s
  | some h =>
    let mine := h.entries.filter fun e => e.asid == asid
    let ids := mine.map (·.idx)
    let s1 := (mine.filter fun e => e.kind = .e).foldl (fun s e => s.wipe asid e.base e.len) s
    let h1 := { h with entries := h.entries.filter (fun e => e.asid != asid), queue := h.queue.filter (fun q => q.asid != asid),
                       lost := h.lost.filter (fun r => r.asid != asid), heldRels := h.heldRels.filter fun r => !ids.contains r.1 }
    let s2 : State := { s1 with msgs := s1.msgs.filter fun m => match m.body with
      | .dquery i _ => !(m.home == home && ids.contains i)
      | .dhold i _ _ => !(m.home == home && ids.contains i)
      | _ => true }
    (s2.setHome h1).examineHome home

/-- What caches and stores still hold in the name of an ASID is forgotten, so that its next context is another (R68,
R331). -/
def State.forgetAsid (s : State) (asid : Nat) : State :=
  { s with
    cores := s.cores.map fun c => { c with
      l1 := c.l1.filter fun l => l.asid != asid, tlb := c.tlb.filter fun e => e.asid != asid || e.global
      counts := c.counts.filter fun k => k.asid != asid
      benchOwner := c.benchOwner.filter fun o => o.2 != asid + 1, accOwner := c.accOwner.filter fun o => o.2 != asid + 1
      tileOwner := c.tileOwner.filter fun o => o.2 != asid + 1 }
    dies := s.dies.map fun d => { d with
      l2 := d.l2.filter fun l => l.asid != asid, tlb := d.tlb.filter fun e => e.asid != asid || e.global }
    bands := s.bands.filter fun b => b.asid != asid
    ctxs := s.ctxs.filter fun c => c.asid != asid }

/-- RECLAIM_WALK_END (R182, R331): every home is walked, translations are invalidated, the CTXKILL record is written and
the ASID may be given again. -/
def execReclaimWalkEnd (asid : Nat) (s : State) : Host.Outcome State Fault Refusal :=
  match s.ctx? asid with
  | none => .next s
  | some c =>
    match c.kill with
    | none => .next s
    | some (seq, cpl, pa, cut) =>
      let s1 := (s.homes.map (·.id)).foldl (fun s h => s.reclaimHome asid h) s
      .next ((s1.forgetAsid asid).completeAt cpl pa 3 asid seq cut c.cseq)

/-! ### Continuations -/

/-- The number of a slice in the module (log 5): 48 slices for each C-die, then the base die's. -/
def sliceNum (home slice : Nat) : Nat := 48 * home + slice + (if home = 5 then 80 else 0)

/-- A continuation that cannot be placed (R277): its record, numbered by its slice. -/
def State.contFault (s : State) (p : Packet) (reason check : Nat) : State :=
  let n := sliceNum p.home p.slice
  let k := look 0 n s.sliceSeq
  let o : Origin := ⟨p.src.core, p.src.slot, some p.src.lane, some p.src.pc⟩
  let s1 := s.faultRecord p.asid (recordWords 3 0x0C reason o (BitVec.ofNat 57 p.va) 0 p.gridseq
    [BitVec.ofNat 32 p.task, p.old, p.tag, BitVec.ofNat 32 check, BitVec.ofNat 32 n] (BitVec.ofNat 32 k))
  ({ s1 with sliceSeq := put 0 n (k + 1) s1.sliceSeq } : State).dropChild p.child

/-- A drained continuation enters PENDING, or is reported (R49, R275, R277). -/
def State.drain (s : State) (p : Packet) : State :=
  match s.taskAt p.asid p.task with
  | .error n => s.contFault p 1 n
  | .ok d =>
    if 10 < p.depth then s.contFault p 2 0
    else if uncovered d.fp.features then s.contFault p 3 0
    else
      s.startTask p.asid p.child p.band p.depth p.prio p.gridseq d ([p.old] ++ addrWords p.va ++ [p.tag]) p.die false

/-- SLICE_QUEUE_DRAIN (R49, R274): the oldest packet of a slice's queue. -/
def execSliceQueueDrain (slice : Nat) (s : State) : Host.Outcome State Fault Refusal :=
  match s.packets.find? fun p => sliceNum p.home p.slice == slice with
  | some p => .next (({ s with packets := s.packets.filter fun q => q.child != p.child } : State).drain p)
  | none => .next s

/-- RING_DRAIN (R49, R274): the oldest entry of a context's ring, while PENDCNT is below PENDMAX. -/
def execRingDrain (asid : Nat) (s : State) : Host.Outcome State Fault Refusal :=
  match s.rings.find? fun p => p.asid == asid with
  | some p =>
    if s.pendCnt asid < ((s.ctx? asid).map (·.pendmax)).getD 0 then
      let s1 : State := { s with rings := s.rings.filter fun q => q.child != p.child }
      .next ((s1.modCtx asid fun c => { c with ring := c.ring - 1 }).drain p)
    else .next s
  | none => .next s

end Sys2Proof.Machine
end

