-- ==== Sys2Proof/Machine/Sched.lean ====
section
/-! DEFINITION. The scheduler: the fit test and placement (spec/04 R59 to R62, R68, spec/03 R57), turns, aging and
pre-emption (R54, R55), save and restore (spec/16 R308, R309, spec/13 R262), migration (R63, R305), and the empty
register pool (R66). -/

namespace Sys2Proof.Machine

/-! ### The fit test -/

/-- The entries of a band's per-core map on a core. -/
def mapOn (b : Band) (m : List (List Nat)) (core : Nat) : List Nat :=
  (((b.cores.zip m).filter fun e => e.1 == core).map (·.2)).flatten

/-- What resident bands hold of a core's granules or tiles, by one of their maps. -/
def State.usedOn (s : State) (core : Nat) (f : Band → List (List Nat)) : List Nat :=
  ((s.bands.filter fun b => b.state == .resident).map fun b => mapOn b (f b) core).flatten

/-- The lowest n free numbers below a limit. -/
def lowestFree (n limit : Nat) (used : List Nat) : List Nat := ((List.range limit).filter fun i => !used.contains i).take n

/-- The troops of a band that live on band core k of c and hold a slot there (R59). -/
def Band.troopsAt (b : Band) (c k : Nat) : List Nat :=
  (List.range b.ntroops).filter fun i => i % c == k && !((b.troops[i]?).map (·.retired)).getD false

/-- The live registers of a troop at placement: its preloads, or its saved map (R61). -/
def Band.liveAt (b : Band) (i : Nat) : Nat :=
  match b.troops[i]? with
  | some t => t.live
  | none => (if b.task then 4 else 0) + preloads b.fp.preload

/-- Events in handler mode of the troops on a band core (R309). -/
def Band.eventsAt (b : Band) (c k : Nat) : Nat :=
  ((b.troopsAt c k).filter fun i => ((b.troops[i]?).map (·.entered)).getD false).length

/-- 4 KiB granules of the bench share of band core k (R60, R61). -/
def Band.granulesAt (b : Band) (c k : Nat) : Nat := (benchOn b.fp.bench c k + 3) / 4

/-- Band core k of c finds its resources on a core (R61, R309). -/
def State.coreFits (s : State) (b : Band) (c k core : Nat) : Bool :=
  let ts := b.troopsAt c k
  let regs := (ts.map fun i => max b.fp.adm (b.liveAt i)).sum
  ts.length + (s.coreTroops core).length ≤ Config.troopSlots && ((regs : Nat) : Int) ≤ s.pool core &&
    b.granulesAt c k + (s.usedOn core (·.benchMap)).length ≤ Config.benchGranules &&
    b.fp.acc / 32 + (s.usedOn core (·.accMap)).length ≤ Config.accGranules &&
    b.fp.tiles + (s.usedOn core (·.tileMap)).length ≤ Config.tiles && b.eventsAt c k ≤ s.freeSlots core

/-- A quad could take a band (R55). -/
def couldTake (b : Band) (quad : Nat) : Bool :=
  quad < Config.quads && !uncovered b.fp.features && (match b.die with | some d => dieOf (4 * quad) == d | none => true)

/-- A band fits on cores of one quad, in increasing order (R61). -/
def State.fitsOn (s : State) (b : Band) (cores : List Nat) : Bool :=
  match cores with
  | [] => false
  | x :: _ =>
    couldTake b (quadOf x) && cores.all (fun y => quadOf y == quadOf x) && ((cores.zip (cores.drop 1)).all fun e => e.1 < e.2) &&
      ((List.range cores.length).zip cores).all fun e => s.coreFits b cores.length e.1 e.2

/-- The sets of c cores of a quad, in increasing order. -/
def coreSets (quad c : Nat) : List (List Nat) :=
  ((List.range 16).map fun m => ((List.range 4).filter fun i => Nat.testBit m i).map (4 * quad + ·)).filter fun l => l.length == c

/-- The first set of c cores of a quad on which a band fits: R59 leaves the set to the device (log 31). -/
def State.roomOn (s : State) (b : Band) (c quad : Nat) : Option (List Nat) := (coreSets quad c).find? fun l => s.fitsOn b l

/-- Room for both members of a pair, one on this quad, on quads of different dies (R310); of the other quads the first
(log 31). -/
def State.pairRoom (s : State) (b p : Band) (c quad : Nat) : Option (List Nat) :=
  match s.roomOn b c quad with
  | none => none
  | some x =>
    ((List.range Config.quads).filter fun r => dieOf (4 * r) != dieOf (4 * quad)).findSome? fun r =>
      (s.roomOn p c r).map fun y => x ++ y

/-- Room for a band, or for both members of its pair, with c cores each, at a quad. -/
def State.roomWith (s : State) (b : Band) (c quad : Nat) : Option (List Nat) :=
  match (s.partner b.id).bind s.band? with
  | none => s.roomOn b c quad
  | some p => s.pairRoom b p c quad

/-- The number of cores a band takes (R59): fixed at its first placement; the smallest that passes on some quad where
the scheduler chooses. -/
def State.coresFor (s : State) (b : Band) : Option Nat :=
  if b.ncores ≠ 0 then some b.ncores
  else (Sys2Proof.Machine.coreCounts b.fp b.coresAsked).find? fun c => (List.range Config.quads).any fun q => (s.roomWith b c q).isSome

/-- Room for a band at a quad. -/
def State.roomFor (s : State) (b : Band) (quad : Nat) : Option (List Nat) :=
  match s.coresFor b with
  | some c => s.roomWith b c quad
  | none => none

/-! ### Placement -/

/-- A core hands granules and tiles to a context: those that another context last owned read as zero (R68). -/
def CoreSt.own (c : CoreSt) (asid : Nat) (bm am tm : List Nat) : CoreSt :=
  let fresh (os : List (Nat × Nat)) (g : Nat) : Bool := look 0 g os != asid + 1
  let bz := bm.filter (fresh c.benchOwner)
  let az := am.filter (fresh c.accOwner)
  let tz := tm.filter (fresh c.tileOwner)
  let mark (os : List (Nat × Nat)) (gs : List Nat) : List (Nat × Nat) := gs.foldl (fun os g => put 0 g (asid + 1) os) os
  { c with
    bench := bz.foldl (fun m g => clearGranule m g 4096) c.bench
    benchPoison := c.benchPoison.filter fun w => !bz.contains (w / 1024)
    benchOwner := mark c.benchOwner bm
    acc := c.acc.filter fun x => !az.contains (x.1 % 4096 / 32)
    accPoison := c.accPoison.filter fun x => !az.contains (x.2 / 32)
    accOwner := mark c.accOwner am
    tiles := tz.foldl (fun m g => clearGranule m g 4096) c.tiles
    tilePoison := c.tilePoison.filter fun x => !tz.contains (x / 4096)
    tileOwner := mark c.tileOwner tm }

/-- The values that PRELOAD enables for a lane of a troop (R24), after a task's four arguments (R27). -/
def Band.preloadValues (b : Band) (troop core lane : Nat) : List Word :=
  let e : List Nat := [lane, troop, b.x, b.y, b.z, b.depth, core, dieOf core]
  (if b.task then (b.args ++ List.replicate 4 0).take 4 else []) ++
    (((List.range 8).zip e).filter fun p => b.fp.preload.getLsbD p.1).map fun p => BitVec.ofNat 32 p.2

/-- The first writes of a troop's preloaded names, by every lane (R62, R64). -/
def Band.preload (b : Band) (troop core : Nat) (x : Troop) : Troop :=
  (List.range 64).foldl (fun x lane =>
    let vs := b.preloadValues troop core lane
    ((List.range vs.length).zip vs).foldl (fun x p => x.writeName (Fin.ofNat 64 p.1) lane p.2) x) x

/-- A troop at its band's first placement (R62): 64 threads at the entry, signature all ones (R311). -/
def Band.newTroop (b : Band) (troop core tslot clock : Nat) : Troop :=
  let th : Thread := { Thread.start ⟨b.fp.entry, 0⟩ clock with status := .ready clock false }
  b.preload troop core
    { tslot := tslot, names := [], masks := [], g := List.replicate 8 Region.none, threads := List.replicate 64 th,
      active := none, entered := false, slot := none, queue := [], sig := BitVec.allOnes 64, acts := 0, killed := false,
      retired := false }

/-- g8 at the first placement (R25, R27). -/
def Band.benchReg (b : Band) : Region :=
  if b.fp.bench = 0 then Region.none
  else { Region.none with state := .held, space := .bench, kind := .e, len := 1024 * b.fp.bench, top := true }

/-- A thread of a restored band (R309): its nap goes on, its trap slot is the one its event now holds, and a ready thread
becomes ready anew (R94). -/
def Thread.resumed (th : Thread) (clock : Nat) (slot : Option Nat) : Thread :=
  let th1 := match slot with
    | some i => if th.depth then { th with trap := { th.trap with slot := i } } else th
    | none => th
  match th1.status with
  | .waiting (.napHeld n) => { th1 with status := .waiting (.nap (clock + n)) }
  | .ready _ _ => { th1 with status := .ready clock false }
  | _ => th1

/-- The threads of a restored band that were on a Gather Board take entries before the others (R69, R94). -/
def State.reboard (s : State) (old : Band) : State :=
  (((List.range old.troops.length).zip old.troops).map fun (e : Nat × Troop) =>
      ((List.range e.2.threads.length).zip e.2.threads).filterMap fun (x : Nat × Thread) =>
        match x.2.status with
        | .ready _ true => some ((⟨old.id, e.1, x.1⟩ : Tid), x.2.pc)
        | _ => none).flatten.foldl
    (fun s e => if s.canBoard e.1 e.2 then s.modThread e.1 fun th => { th with status := .ready s.clock true } else s) s

/-- A saved event takes a free trap slot with its contents (R309). -/
def State.retakeSlot (s : State) (b t core : Nat) (x : TrapSlot) : State :=
  match s.slots.find? fun y => y.core == core && y.owner.isNone with
  | none => s
  | some sl =>
    (s.modSlot core sl.idx fun y => { y with owner := x.owner, regs := x.regs, poison := x.poison }).modTroop b t fun z =>
      { z with slot := some sl.idx, threads := z.threads.map fun th => th.resumed s.clock (some sl.idx) }

/-- The lines of a band's held ranges that its cores' L1s hold are self-invalidated (R262). -/
def State.freshLines (s : State) (b : Band) : State :=
  let lines := ((b.g ++ (b.troops.map (·.g)).flatten).filter fun r => r.state = .held && r.space != .bench).map fun r =>
    s.cachedLines b.asid r.base r.len
  b.cores.foldl (fun s c => lines.flatten.foldl (fun s l => s.invalL1 c l) s) s

/-- A band becomes RESIDENT on cores that it fits (R57, R61, R62, R68, R309). Each troop takes the lowest free troop slot of
its core (log 32). The lines of the ranges it holds, its argument block's among them, are self-invalidated on its cores
(R161, R186, R262). -/
def State.placeBand (s : State) (id : Nat) (cores : List Nat) : State :=
  match s.band? id with
  | none => s
  | some b =>
    let c := cores.length
    let ks := (List.range c).zip cores
    let bm := ks.map fun e => lowestFree (b.granulesAt c e.1) Config.benchGranules (s.usedOn e.2 (·.benchMap))
    let am := cores.map fun x => lowestFree (b.fp.acc / 32) Config.accGranules (s.usedOn x (·.accMap))
    let tm := cores.map fun x => lowestFree b.fp.tiles Config.tiles (s.usedOn x (·.tileMap))
    let tslot (i : Nat) : Nat :=
      let core := (cores[i % c]?).getD 0
      let used := (s.coreTroops core).filterMap fun e => (s.troop? e.1 e.2).map (·.tslot)
      let rank := ((b.troopsAt c (i % c)).filter (· < i)).length
      ((lowestFree (rank + 1) Config.troopSlots used)[rank]?).getD 0
    let s1 := ks.foldl (fun s e => s.modCore e.2 fun x =>
      x.own b.asid ((bm[e.1]?).getD []) ((am[e.1]?).getD []) ((tm[e.1]?).getD [])) s
    let b1 : Band := { b with
      state := .resident, ncores := c, cores := cores, benchMap := bm, accMap := am, tileMap := tm, saved := none,
      residentSince := s.clock, aging := 0, agingCounts := List.replicate 16 0
      troops := if b.troops.isEmpty then
          (List.range b.ntroops).map fun i => b.newTroop i ((cores[i % c]?).getD 0) (tslot i) s.clock
        else ((List.range b.troops.length).zip b.troops).map fun (e : Nat × Troop) =>
          { e.2 with tslot := tslot e.1, threads := e.2.threads.map fun th => th.resumed s.clock none }
      tileEntries := if b.troops.isEmpty then cores.map fun _ => List.replicate b.fp.tiles TileEntry.clear else b.tileEntries
      g := if b.troops.isEmpty then modAt b.g 0 fun _ => b.benchReg else b.g }
    let s2 : State := { s1.modBand id fun _ => b1 with
      ops := modIf (fun o => o.tid.band == id) (fun o => { o with core := b1.coreOf o.tid.troop }) s1.ops }
    let s3 := match b.saved with
      | none => s2
      | some v => v.slots.foldl (fun s (e : Nat × TrapSlot) => s.retakeSlot id e.1 (b1.coreOf e.1) e.2) (s2.restoreStores b1 v)
    let gap := s.clock - b.waitSince
    let s4 : State := { s3 with
      pairActs := modIf (fun a => a.band == id) (fun a => { a with deadline := a.deadline + gap }) s3.pairActs
      quads := modIf (fun q => q.id == quadOf (cores.headD 0)) (fun q => { q with ends := s3.clock + q.turn }) s3.quads }
    let s5 := (s4.freshLines b1).reboard b
    cores.foldl (fun s c => (s.progressTraps c).admitOverflow c) s5

/-- A band, or both members of its pair, are placed (R310): the first half of the cores is the band's own. -/
def State.placeUnit (s : State) (id : Nat) (cores : List Nat) : State :=
  match s.partner id with
  | none => s.placeBand id cores
  | some p => (s.placeBand id (cores.take (cores.length / 2))).placeBand p (cores.drop (cores.length / 2))

/-- A band waits for placement, its save complete, its context live; a pair by its member 0 (R42, R54). -/
def State.waits (s : State) (b : Band) : Bool :=
  (b.state == .pending || b.state == .saved) && !b.saving && !b.killed && s.liveCtx b.asid && !s.second b.id

/-- The argument block's state of a band's grid (R183). -/
def State.argsOf (s : State) (b : Band) : ArgState :=
  match b.grid.bind s.grid? with
  | some g => g.args
  | none => .refused 0

/-- The dispatcher asks for a grid's argument block when its first band qualifies (R183). -/
def State.askArgs (s : State) (b : Band) : State :=
  match b.grid.bind s.grid? with
  | none => s
  | some g =>
    let s1 := s.next.modGrid g.id fun x => { x with args := .asked s.fresh }
    s1.startBorrow s.fresh (.grid g.id) g.asid g.argva g.arglen .s false 4

/-- BAND_PLACE (R54, R57, R59): the cores of a band, or of member 0 and then member 1 of a pair. -/
def execBandPlace (band : Nat) (cores : List Nat) (s : State) : Host.Outcome State Fault Refusal :=
  match s.band? band with
  | none => .next s
  | some b =>
    let n := cores.length
    let parts : Bool × Nat := match (s.partner band).bind s.band? with
      | none => (s.fitsOn b cores, n)
      | some p =>
        let x := cores.take (n / 2)
        let y := cores.drop (n / 2)
        (s.fitsOn b x && s.fitsOn p y && n % 2 == 0 && dieOf (x.headD 0) != dieOf (y.headD 0), n / 2)
    let held := s.quads.any fun q => q.passing && cores.any fun c => quadOf c == q.id
    if !s.waits b || !parts.1 || s.coresFor b ≠ some parts.2 || held then .next s
    else
      match s.argsOf b with
      | .none => .next (s.askArgs b)
      | .asked _ => .next s
      | _ => .next (s.placeUnit band cores)

/-! ### Save -/

/-- Pre-emption of a band, with its partner, begins (R308): its threads leave their bundles. -/
def State.preempt (s : State) (b : Nat) : State :=
  (s.unit b).foldl (fun s b =>
    let s1 := (s.bandTids b).foldl (fun s t =>
      match s.statusOf t with
      | .bundled _ => (s.leaveBundle t).makeReady t (s.pcOf t)
      | _ => s) s
    s1.modBand b fun x => { x with saving := true }) s

/-- A matrix round signed and not issued (R245). -/
def Band.openRound (b : Band) (op : Nat) : Bool := b.conv.any fun c => c.rounds && c.op == op

/-- A return waits for an operation that a COPY_FAULT has suspended: it is saved with the operation (R226, R308). -/
def State.returnHeld (s : State) (r : Return) : Bool :=
  r.stage == .waiting && s.ops.any fun o =>
    o.id < r.id && o.tid.band == r.band && o.state == .suspended && o.ranges.any fun x => r.meets x.1 x.2.1 x.2.2

/-- Nothing is left that the save of a band waits for (R308, R179): a return in progress completes during the save, and so
does the wait of a TREL (R216). -/
def State.saveReady (s : State) (b : Band) : Bool :=
  b.saving && b.state == .resident && !(s.bundles.any fun x => x.threads.any fun t => t.band == b.id) &&
    (s.ops.all fun o => o.tid.band != b.id || o.state == .complete || o.state == .suspended || b.openRound o.id) &&
    (b.troops.all fun t => !(t.active.isSome && t.slot.isSome && !t.entered)) &&
    !s.zeroLeft b && s.returns.all fun r => r.band != b.id || s.returnHeld r

/-- A thread as the save keeps it (R308): a sleeper executes its instruction again, and a migrating thread goes on unless its
band's migration is still to come (R305). -/
def Thread.asSaved (th : Thread) (clock : Nat) (mig : Bool) : Thread :=
  match th.status with
  | .waiting (.nap u) => { th with status := .waiting (.napHeld (u - clock)) }
  | .waiting (.waitw _) => { th with status := .ready clock false }
  | .waiting .migrate => if mig then th else { th with status := .ready clock false }
  | _ => th

/-- Dirty lines of the ranges a band holds, or has still to return, go to their homes, and its guest lines are dropped
(R262). -/
def State.writeBackBand (s : State) (b : Band) : State :=
  let rs := (b.g ++ (b.troops.map (·.g)).flatten) ++ (s.returns.filter fun r => r.band == b.id).map (·.reg)
  let lines := ((rs.filter fun r => r.state = .held && r.space != .bench).map fun r =>
    s.cachedLines b.asid r.base r.len).flatten
  let s1 := b.cores.foldl (fun s c => lines.foldl (fun s l => s.writeDownL1 c l) s) s
  (b.cores.map dieOf).eraseDups.foldl (fun s d => lines.foldl (fun s l => s.invalL2 d l) s) s1

/-- The trap slots of a band's events in handler mode, by troop (R308). -/
def State.heldSlots (s : State) (b : Band) : List (Nat × TrapSlot) :=
  ((List.range b.troops.length).zip b.troops).filterMap fun e =>
    match e.2.slot with
    | some i => if e.2.entered then (s.slot? (b.coreOf e.1) i).map fun x => (e.1, x) else none
    | none => none

/-- The event whose threads migrate has not ended (R305). -/
def State.migrating (s : State) (b : Band) : Bool :=
  b.mig && ((s.troop? b.id b.migEvent.1).bind (·.active)).map (·.id) == some b.migEvent.2

/-- A band is SAVED and its resources are free (R308). A migration whose event has not ended stays due (R305). -/
def State.saveBand (s : State) (id : Nat) : State :=
  let s1 := s.landBand id
  match s1.band? id with
  | none => s
  | some b =>
    let s2 := s1.writeBackBand b
    let v : Saved := { s2.saveStores b with slots := s2.heldSlots b }
    let s3 : State := { s2 with
      sleepers := s2.sleepers.filter fun x => x.tid.band != id
      pins := s2.pins.filter fun p => p.tid.band != id
      shadows := s2.shadows.filter fun h => h.band.id != id
      slots := s2.slots.map fun x => match x.owner with | some (o, _, _) => if o = id then { x with owner := none } else x | none => x }
    let mig := s3.migrating b
    let s4 := s3.modBand id fun x => { x with
      state := .saved, saving := false, saved := some v, cores := [], benchMap := [], accMap := [], tileMap := [],
      hasPoint := false, committed := false, mig := mig, migBit := if mig then x.migBit else none, aging := 0, agingCounts := List.replicate 16 0,
      waitSince := s3.clock
      troops := x.troops.map fun t => { t with slot := none, threads := t.threads.map fun th => th.asSaved s3.clock mig } }
    b.cores.foldl (fun s c => (s.progressTraps c).admitOverflow c) (s4.leaveCores b.asid b.cores)

/-- BAND_SAVE_COMPLETE (R308): both members of a pair together. -/
def execBandSaveComplete (band : Nat) (s : State) : Host.Outcome State Fault Refusal :=
  let us := s.unit band
  if us.all fun b => ((s.band? b).map s.saveReady).getD false then .next (us.foldl (fun s b => s.saveBand b) s) else .next s

/-! ### Turns -/

/-- The bands that wait and that a quad could take, highest effective priority first, the longest waiting first among
equals (R54). -/
def State.candidates (s : State) (quad : Nat) : List Band :=
  let ws := s.bands.filter fun b => s.waits b && couldTake b quad && (match s.argsOf b with | .asked _ => false | _ => true)
  let ps := s.effPrios
  sortBy (fun b => 3 - look 0 b.id ps) (sortBy (fun b => b.waitSince) ws)

/-- The resident bands that a band may pre-empt on a quad (R54), in the order in which they go. -/
def State.victims (s : State) (w : Band) (quad : Nat) : List Band :=
  let ps := s.effPrios
  let p := look 0 w.id ps
  let turn := ((s.quads.find? (·.id == quad)).map (·.turn)).getD 200000
  let vs := s.bands.filter fun b => b.state == .resident && b.cores.any (fun c => quadOf c == quad) &&
    (look 0 b.id ps < p || (look 0 b.id ps == p && turn ≤ s.clock - b.residentSince))
  sortBy (fun b => look 0 b.id ps) (sortBy (fun b => b.residentSince) vs)

/-- The state as it would be without a band and its partner on their cores. -/
def State.without (s : State) (b : Nat) : State :=
  (s.unit b).foldl (fun s b => s.modBand b fun x => { x with state := .saved, cores := [] }) s

/-- The pre-emptions among some bands that make room for a band at a quad, if any do. -/
def State.evictions (s : State) (w : Band) (quad : Nat) : List Band → Option (List Nat)
  | [] => none
  | v :: r =>
    let s1 := s.without v.id
    if (s1.roomFor w quad).isSome then some [v.id] else (s1.evictions w quad r).map (v.id :: ·)

/-- The bands that may be pre-empted on one of two quads, in the order in which they go (R54). -/
def State.victimsOn (s : State) (w : Band) (quad other : Nat) : List Band :=
  let ps := s.effPrios
  let vs := s.victims w quad ++ (s.victims w other).filter fun v => !(s.victims w quad).any fun x => x.id == v.id
  sortBy (fun b => look 0 b.id ps) (sortBy (fun b => b.residentSince) vs)

/-- The pre-emptions that place a band on a quad (R54): a redundant pair, placed as a unit on quads of two dies, may need
those of a quad of another die too, the first that serves (log 40). -/
def State.evictFor (s : State) (w : Band) (quad : Nat) : Option (List Nat) :=
  match s.evictions w quad (s.victims w quad) with
  | some vs => some vs
  | none =>
    if (s.partner w.id).isNone then none
    else ((List.range Config.quads).filter fun r => dieOf (4 * r) != dieOf (4 * quad)).findSome? fun r =>
      s.evictions w quad (s.victimsOn w quad r)

/-- What a turn boundary decides next for a quad. -/
inductive Plan where
  | ask (b : Band)
  | place (b : Nat) (cores : List Nat)
  | evict (vs : List Nat)

/-- The decision for one waiting band; none where it does not qualify, or where what may be pre-empted would not make room for
it (R54, log 33). -/
def State.planFor (s : State) (quad : Nat) (w : Band) : Option Plan :=
  let p := match s.roomFor w quad with
    | some cs => some (Plan.place w.id cs)
    | none => (s.evictFor w quad).map Plan.evict
  match p, s.argsOf w with
  | some _, .none => some (.ask w)
  | p, _ => p

/-- The state with a quad changed. -/
def State.modQuad (s : State) (q : Nat) (f : Quad → Quad) : State := { s with quads := modIf (·.id == q) f s.quads }

/-- The decisions of a turn boundary, until none can be placed or room must first be saved free (R54). -/
def State.decide (s : State) (quad : Nat) : Nat → State
  | 0 => s
  | n + 1 =>
    match (s.candidates quad).findSome? (s.planFor quad) with
    | none => s.modQuad quad fun q => { q with passing := false, evicting := [] }
    | some (.ask b) => (s.askArgs b).decide quad n
    | some (.place b cs) => (s.placeUnit b cs).decide quad n
    | some (.evict vs) => (vs.foldl (fun s v => s.preempt v) s).modQuad quad fun q =>
      { q with evicting := (vs.map s.unit).flatten }

/-- Waiting bands count a boundary and age (R55). -/
def State.ageBands (s : State) (quad : Nat) : State :=
  { s with bands := s.bands.map fun b =>
      if s.waits b && couldTake b quad then
        let cs := modAt b.agingCounts quad (· + 1)
        if (List.range Config.quads).all fun q => !couldTake b q || 8 ≤ (cs[q]?).getD 0 then
          { b with aging := min 3 (b.aging + 1), agingCounts := List.replicate 16 0 }
        else { b with agingCounts := cs }
      else b }

/-- A turn of a quad ends (R54, R58): resident bands count it, waiting bands age, the next turn begins. -/
def State.endTurn (s : State) (quad : Nat) : State :=
  let s1 : State := { s with bands := s.bands.map fun b =>
    if b.state = .resident && b.cores.any (fun c => quadOf c == quad) then { b with turns := satInc b.turns } else b }
  (s1.ageBands quad).modQuad quad fun q => { q with ends := s.clock + s.dev.turn, turn := s.dev.turn, passing := true }

/-- A save that a turn boundary of a quad began still runs. -/
def State.quadSaving (s : State) (quad : Nat) : Bool :=
  let vs := ((s.quads.find? (·.id == quad)).map (·.evicting)).getD []
  s.bands.any fun b => b.saving && (vs.contains b.id || b.cores.any fun c => quadOf c == quad)

/-- TURN_BOUNDARY (R54, R55): at the end of the turn, and again while the decision waits for saves. -/
def execTurnBoundary (quad : Fin 16) (s : State) : Host.Outcome State Fault Refusal :=
  match s.quads.find? (·.id == quad.val) with
  | none => .next s
  | some q =>
    if q.passing then
      (if s.quadSaving quad.val then .next s else .next (s.decide quad.val (s.bands.length + 1)))
    else if q.ends ≤ s.clock then .next ((s.endTurn quad.val).decide quad.val (s.bands.length + 1))
    else .next s

/-! ### Migration and the register pool -/

/-- A band whose migrating event has ended goes to SAVED, with the missing feature in its mask after UNSUPPORTED (R305); one
that no core covers any more is killed (R63). -/
def State.migrate (s : State) (b : Band) : State :=
  let go (s : State) : State := if b.saving then s else s.preempt b.id
  if !b.mig || b.state != .resident || s.migrating b then s
  else
    match b.migBit with
    | none => go s
    | some k =>
      let mask := b.fp.features ||| 2 ^ k
      if uncovered mask then s.killBand b.id (s.originTroop b.id b.migEvent.1) 2 0
      else go ((s.unit b.id).foldl (fun s i => s.modBand i fun x =>
        { x with fp := { x.fp with features := mask }, migBit := none }) s)

/-- A troop is stalled in allocation: a thread of it waits for a register, and none of its threads can go on (R66). -/
def State.troopStalled (s : State) (b t : Nat) : Bool :=
  let ss := (s.troopTids b t).map s.statusOf
  ss.any (fun x => match x with | .waiting (.alloc _) => true | _ => false) && ss.all fun x => match x with | .ready .. => false | .bundled _ => false | _ => true

/-- REGS_POOL_PREEMPT (R66): the band of the youngest stalled troop is pre-empted; where one band holds them all, its
stalled threads trap. -/
def execRegsPoolPreempt (core : Nat) (s : State) : Host.Outcome State Fault Refusal :=
  let ts := s.coreTroops core
  let bs := (ts.map (·.1)).eraseDups
  if ts.isEmpty || !(ts.all fun e => s.troopStalled e.1 e.2) || bs.any (fun b => ((s.band? b).map (·.saving)).getD true) then .next s
  else
    match bs with
    | [_] =>
      let us := (ts.map fun e => (s.troopTids e.1 e.2).filter fun t => match s.statusOf t with | .waiting (.alloc _) => true | _ => false).flatten
      let pcs := (us.filterMap fun t => (s.thread? t).map fun th => (th.pc, th.npc)).eraseDups
      .next (pcs.foldl (fun s p =>
        s.raiseAll p.1 p.2 0 ((us.filter fun t => ((s.thread? t).map fun th => (th.pc, th.npc)) == some p).map fun t =>
          (Fail.plain cRegsExhausted 1).raised t)) s)
    | _ =>
      match leastBy (fun b => s.clock - ((s.band? b).map (·.residentSince)).getD 0) bs.reverse with
      | some b => .next (s.preempt b)
      | none => .next s

end Sys2Proof.Machine
end

