-- ==== Sys2Proof/Machine/Events.lean ====
section
/-! DEFINITION. Formation of bundles (spec/06 R95), delivery of traps (spec/16 R298, R299, R301), the acts of redundant
pairs (R312), errors found in storage (R319, R202), and peers that do not answer (spec/20 R345). -/

namespace Sys2Proof.Machine

/-! ### Formation -/

/-- The boarded threads of a core that a formation round may take: not those of a band being saved (R308). -/
def State.formable (s : State) (core : Nat) : List (Tid × Nat) :=
  (s.boarded core).filter fun e => !((s.band? e.1.band).map (·.saving)).getD true

/-- The oldest-stamped of some threads, the first of equals. -/
def oldest (l : List (Tid × Nat)) : Option (Tid × Nat) := leastBy (fun e => e.2) l

/-- A thread has to go on alone: it waited within a chain group and reads the registers from before it (R98). -/
def State.snapOf (s : State) (t : Tid) : Option GroupSnap :=
  (s.snaps.find? fun e => e.1 == t && e.2.1 == ((s.thread? t).map (·.pc)).getD ⟨0, 0⟩).map (·.2.2)

/-- The issue unit that takes a new bundle: of those with a free slot the one with fewer bundles (R95, log 26). -/
def State.freeUnit (s : State) (core : Nat) : Nat :=
  let n (u : Nat) : Nat := (s.bundles.filter fun b => b.core == core && b.unit == u).length
  if n 1 < n 0 then 1 else 0

/-- One bundle (R95): the entry of the oldest thread, and of each lane its oldest thread. -/
def State.formOne (s : State) (core : Nat) : State :=
  let ready := s.formable core
  match oldest ready with
  | none => s
  | some x =>
    let pcOf (t : Tid) : Pc := ((s.thread? t).map (·.pc)).getD ⟨0, 0⟩
    let key := s.keyAt x.1 (pcOf x.1)
    let mine := if (s.snapOf x.1).isSome then [x]
      else ready.filter fun e => s.keyAt e.1 (pcOf e.1) == key && (s.snapOf e.1).isNone
    let ts := (List.range 64).filterMap fun l => oldest (mine.filter fun e => e.1.lane == l)
    let b : Bundle :=
      { id := s.fresh, core := core, unit := s.freeUnit core, asid := key.asid, cseg := key.cseg, pc := key.pc, npc := key.pc,
        base := key.pc.p, next := key.pc.p, seta := 15, setb := 15, words := [], threads := ts.map (·.1), stamps := ts,
        walks := [], faults := [], snap := s.snapOf x.1 }
    let s1 : State := { s with
      bundles := s.bundles ++ [b], fresh := s.fresh + 1, snaps := s.snaps.filter fun e => !(ts.any fun x => x.1 == e.1) }
    ts.foldl (fun s e => s.modThread e.1 fun th => { th with status := .bundled b.id }) s1

/-- The free bundle slots of a core (R95). -/
def State.freeBundles (s : State) (core : Nat) : Nat :=
  Config.bundleSlots - (s.bundles.filter (·.core == core)).length

/-- A formation round is due on a core (R95): one every 4 clocks, at the clocks that 4 divides (log 26). -/
def State.formationDue (s : State) (core : Nat) : Bool :=
  match s.core? core with
  | none => false
  | some c => s.clock % 4 = 0 && c.nextForm ≤ s.clock && !(s.formable core).isEmpty && s.freeBundles core ≠ 0

/-- FORMATION_ROUND (R95): every 4 clocks, a bundle for each free slot while threads are ready. -/
def execFormationRound (core : Nat) (s : State) : Host.Outcome State Fault Refusal :=
  if s.formationDue core then
    let s1 := (List.range (s.freeBundles core)).foldl (fun s _ => s.formOne core) (s.admitOverflow core)
    .next ((s1.modCore core fun c => { c with nextForm := s.clock + 4 }).admitOverflow core)
  else .next s

/-! ### Traps -/

/-- TRAP_ENTER (R299): waiting events of a core take free slots, and those whose threads' flags are clear enter. -/
def execTrapEnter (core : Nat) (s : State) : Host.Outcome State Fault Refusal := .next (s.progressTraps core)

/-- ASYNC_TRAP_DELIVER (R298): while the thread's band is resident and not being saved, and not inside an act of a pair or
the wait of a TREL, which are no waits of R93. -/
def execAsyncTrapDeliver (id : Nat) (s : State) : Host.Outcome State Fault Refusal :=
  match s.asyncs.find? (·.id == id) with
  | none => .next s
  | some a =>
    if s.statusOf a.tid = .exited then .next (s.deliverAsync a)
    else
      let there := ((s.band? a.tid.band).map fun b => b.state == .resident && !b.saving).getD false
      let inside := match s.statusOf a.tid with
        | .waiting (.tile _) => true
        | _ => s.pairActs.any fun x => x.tids.contains a.tid
      if there && s.asyncReady a && !inside then .next (s.deliverAsync a)
      else .next s

/-! ### Redundant pairs -/

/-- The act of the other member with the same index (R312). -/
def State.otherAct (s : State) (a : PairAct) : Option PairAct :=
  (s.partner a.band).bind fun p => s.pairActs.find? fun x => x.band == p && x.troop == a.troop && x.index == a.index

/-- PAIR_ACT_COMPARE (R312): equal signatures let the act take effect, once; others raise PAIR_DIVERGE. -/
def execPairActCompare (act : Nat) (s : State) : Host.Outcome State Fault Refusal :=
  match s.pairActs.find? (·.id == act) with
  | none => .next s
  | some a =>
    match s.otherAct a with
    | none => .next s
    | some o =>
      if a.passed then .next s
      else if a.sig = o.sig then
        .next { s with pairActs := modIf (fun x => x.id == a.id || x.id == o.id) (fun x => { x with passed := true }) s.pairActs }
      else .next (s.diverge a.band a.troop)

/-- PAIRWAIT_TIMEOUT (R312): the partner has not reached the act, for more than PAIRWAIT turns of
RESIDENT time. -/
def execPairwaitTimeout (act : Nat) (s : State) : Host.Outcome State Fault Refusal :=
  match s.pairActs.find? (·.id == act) with
  | none => .next s
  | some a =>
    let there := ((s.band? a.band).map fun b => b.state == .resident).getD false
    if !there || a.passed || (s.otherAct a).isSome || s.clock ≤ a.deadline then .next s
    else .next (s.diverge a.band a.troop)

/-! ### Errors -/

/-- What an uncorrectable error does where it is found (R202, R229, R319): in the accumulator a whole row of a granule. -/
def State.poisonAt (s : State) : ErrorSite → State
  | .homeLine line => if s.poison.contains line then s else { s with poison := s.poison ++ [line] }
  | .l1Line core line =>
    s.modCore core fun c => { c with l1 := modIf (fun l => l.line == line) (fun l => { l with poison := true }) c.l1 }
  | .l2Line die line =>
    s.modDie die fun d => { d with l2 := modIf (fun l => l.line == line) (fun l => { l with poison := true }) d.l2 }
  | .physReg b t r =>
    s.modTroop b t fun x => { x with names := x.names.map fun n =>
      if n.1 = r.val then (n.1, { n.2 with poison := BitVec.allOnes 64 }) else n }
  | .reserveReg core i r => s.modSlot core i fun x => { x with poison := put 0 r (BitVec.allOnes 64) x.poison }
  | .benchWord core w =>
    s.modCore core fun c => if c.benchPoison.contains w then c else { c with benchPoison := c.benchPoison ++ [w] }
  | .tileByte core t n =>
    let k := 4096 * t + n % 4096
    s.modCore core fun c => if c.tilePoison.contains k then c else { c with tilePoison := c.tilePoison ++ [k] }
  | .accElem core r n =>
    let new := (List.range 32).map fun i => (r, n / 32 * 32 + i)
    s.modCore core fun c => { c with accPoison := c.accPoison ++ new.filter fun e => !c.accPoison.contains e }
  | .control b => s.killBand b (s.originTroop b 0) 7 0
  | .link i =>
    { s with dev := { s.dev with links := modIf (·.id == i) (fun l => { l with replays := satInc l.replays }) s.dev.links } }

/-- UE_DETECTED (R319), an error event that SNAPCTL may make a trigger (R350, R353). -/
def execUeDetected (site : ErrorSite) (s : State) : Host.Outcome State Fault Refusal :=
  .next ((s.poisonAt site).snapEvent 0)

/-- CORRECTED_ERROR (R319): counted in CECNT. -/
def execCorrectedError (core : Nat) (s : State) : Host.Outcome State Fault Refusal :=
  .next (s.modCore core fun c => { c with cecnt := satInc c.cecnt })

/-! ### Peers that do not answer -/

/-- The first peer address of an engine operation, and whether it is written. -/
def State.peerPart (s : State) (o : EngOp) : Option Nat :=
  ((o.ranges.filter fun r => !r.1).map fun r => parts r.2.1 r.2.2).flatten.findSome? fun p =>
    match s.engAt o false p.1 with
    | some l => if l.isPeer then some p.1 else none
    | none => none

/-- The number of elements or lines an operation has moved. -/
def OpWork.done : OpWork → Nat
  | .tcpy _ _ _ _ _ _ _ _ n => n
  | .nmc _ _ _ _ _ _ _ n => n
  | _ => 0

/-- A home atomic in progress at a peer. -/
def Pend.atPeer (p : Pend) : Bool :=
  match p with
  | .atom l _ site .. => site == .home && l.isPeer
  | _ => false

/-- A home reduction in flight to a peer. -/
def Flight.atPeer (f : Flight) : Bool :=
  f.site == .home && f.loc.isPeer && (match f.act with | .red .. => true | .store .. => false)

/-- The requests to peers that have no answer yet (R345), by number, with a stage that counts what has been answered:
pieces of borrows, engine operations, home atomics, and collectives. -/
def State.openPeers (s : State) : List (Nat × Nat) :=
  ((s.borrows.filter fun b => b.todo.head?.elim false fun p => Nat.ble 5 p.home).map fun b => (b.tag, b.got.length)) ++
    ((s.ops.filter fun o => o.state == .running && !o.work.isColl && (s.peerPart o).isSome).map fun o => (o.id, o.work.done)) ++
    ((s.pending.filter fun p => p.what.atPeer).map fun p => (p.id, 0)) ++
    ((s.flights.filter Flight.atPeer).map fun f => (f.id, 0)) ++
    ((s.chunks.filter fun c => c.acc.isSome && (!c.peers.isEmpty || (c.verified && !c.votes.isEmpty))).map fun c =>
      (c.id, if c.peers.isEmpty then 1 else 0))

/-- Each open request keeps the clock at which it was made. -/
def State.trackPeers (s : State) : State :=
  let open_ := s.openPeers
  let old := s.peerReqs.filter fun r => open_.contains (r.1, r.2.1)
  let new := open_.filter fun e => !(old.any fun r => r.1 == e.1 && r.2.1 == e.2)
  { s with peerReqs := old ++ new.map fun e => (e.1, e.2, s.clock) }

/-- COPY_FAULT of kind PEER for a home atomic (R345): it delivers nothing, and its thread is told. -/
def State.peerAtomicFails (s : State) (t : Tid) (va : Nat) : State :=
  let stat : Word := BitVec.ofNat 32 (6 + 2 ^ 8)
  let s1 := s.modCtx (s.asidOf t) fun c => { c with cfcount := satInc c.cfcount }
  s1.raiseAsync t cCopyFault stat (BitVec.ofNat 57 va)
    [stat, 0, BitVec.ofNat 32 va, BitVec.ofNat 32 (va / 2 ^ 32 % 2 ^ 25), 0, 0, 0, 0, 0] [] none

/-- What fails when a peer does not answer (R345). -/
def State.peerFails (s : State) (id : Nat) : State :=
  match s.borrows.find? (·.tag == id), s.ops.find? (·.id == id), s.pending.find? (·.id == id),
      s.flights.find? (·.id == id), s.chunks.find? (·.id == id) with
  | some b, _, _, _, _ => (s.takeRefusal id 7).send ((b.todo.head?.map (·.home)).getD 5) b.who (.dcancel id)
  | none, some o, _, _, _ =>
    match s.runOp { o with peerDown := true } with
    | (s1, k, some (.fault kind why va wr)) => (s1.opDone o k).suspendOp o kind why va wr (cfIndices o k)
    | _ => s
  | none, none, some p, _, _ =>
    let va := match p.what with | .atom _ va .. => va | _ => 0
    (({ s with pending := s.pending.filter fun q => q.id != id } : State).dropFlags id).peerAtomicFails p.tid va
  | none, none, none, some f, _ =>
    ({ s with flights := s.flights.filter fun x => x.id != id } : State).peerAtomicFails f.tid f.va
  | none, none, none, none, some c => s.failChunk c 6 (peerHop ((c.peers ++ c.votes).headD 0)) s.dev.modnum
  | none, none, none, none, none => s

/-- PEER_TIMEOUT (R345): a request has waited PEERWAIT microseconds. -/
def execPeerTimeout (id : Nat) (s : State) : Host.Outcome State Fault Refusal :=
  match s.peerReqs.find? (·.1 == id) with
  | none => .next s
  | some r => if s.clock < r.2.2 + s.peerClocks || !s.openPeers.contains (r.1, r.2.1) then .next s else .next (s.peerFails id)

end Sys2Proof.Machine
end

