-- ==== Sys2Proof/Machine/Device.lean ====
section
/-! DEFINITION. The host port and the management space (spec/20 R340 to R342, R357; spec/03 R36; spec/10 R190), bring-up
(R347, R348), attestation (R349), snapshot commands (R350), power and heat (R351), the patrol scrub (R346), links, and
requests of peers (R344). -/

namespace Sys2Proof.Machine

/-- Bring-up is complete (R347). -/
def Device.ready (d : Device) : Bool := fieldOf d.devstat.toNat 0 4 == 7

/-- The module serves the host's RDMA and its peers: bring-up is complete (R347) and it is not halted (R351). -/
def Device.serves (d : Device) : Bool := d.ready && !d.halted

/-! ### RDMA -/

/-- Lines that a range of bytes covers whole. -/
def wholeLines (pa n : Nat) : List Nat :=
  ((List.range (n / 128 + 2)).map fun k => pa / 128 + k).filter fun l => pa ≤ 128 * l && 128 * (l + 1) ≤ pa + n

/-- Bytes written at their homes from outside, where they count as returned (R21); a poisoned line wholly overwritten is good
again (R202). -/
def State.writeHome (s : State) (pa : Nat) (bs : List Byte) : State :=
  let ls := wholeLines pa bs.length
  { s with
    mem := writeBytes s.mem pa bs
    poison := s.poison.filter fun l => !ls.contains l
    unreturned := s.unreturned.filter fun e => !(pa ≤ e.1 && e.1 < pa + bs.length) }

/-- RDMA may touch a byte (R340): one of a launch queue's ring, or of registered memory. -/
def State.rdmaByte (s : State) (pa : Nat) : Bool :=
  (s.queues.any fun q => q.qbase ≤ pa && pa < q.qbase + 128 * 2 ^ q.qsize) || Config.registered pa

/-- RDMA may touch a range (R340). -/
def State.rdmaMay (s : State) (pa n : Nat) : Bool := (List.range n).all fun k => s.rdmaByte (pa + k)

/-- HOST_RDMA_WRITE (R37, R340): in ascending address order. One that reaches another place has no effect (log 48). -/
def execHostRdmaWrite (pa : Nat) (bytes : List Byte) (s : State) : Host.Outcome State Fault Refusal :=
  .next (if s.dev.serves && s.rdmaMay pa bytes.length then s.writeHome pa bytes else s)

/-- HOST_RDMA_READ (R340). -/
def execHostRdmaRead (pa len : Nat) (s : State) : Host.Outcome State Fault Refusal :=
  .next (if s.dev.serves && s.rdmaMay pa len then { s with outbox := s.outbox ++ [.rdma (readBytes s.mem pa len)] } else s)

/-! ### Launch-queue windows (R36) -/

/-- QSTAT. -/
def Queue.stat (q : Queue) : Nat := bitN q.idle + 2 * bitN q.kickAhead + 4 * bitN q.refused

/-- A register of a launch queue; none where the command is refused (R36, R357), as a read of KICK is (log 52). -/
def Queue.readReg (q : Queue) (off size : Nat) : Option Nat :=
  if off = 0 then (if size = 8 then some q.qbase else none)
  else if size ≠ 4 || off = 4 then none
  else
    match off with
    | 0x08 => some q.qsize
    | 0x0C => some (q.qctx + 2 ^ 15 * bitN q.qpriv)
    | 0x10 => none
    | 0x14 => some q.qhead.toNat
    | 0x18 => some q.stat
    | 0x1C => some q.qerr.toNat
    | 0x20 => some q.qrefcnt
    | 0x24 => some (bitN q.qen)
    | _ => some 0

/-- A write of a launch queue's register (R36); none where it is refused. `up` is bring-up's end (R347). -/
def Queue.writeReg (q : Queue) (up : Bool) (off size v : Nat) : Option Queue :=
  let w : Word := BitVec.ofNat 32 v
  if off = 0 then
    (if size ≠ 8 then none else some (if q.qen then q else { q with qbase := v / 4096 * 4096 }))
  else if size ≠ 4 || off = 4 then none
  else
    match off with
    | 0x08 =>
      let n := fieldOf v 0 5
      some (if q.qen then q else { q with qsize := if 4 ≤ n && n ≤ 16 then n else 4 })
    | 0x0C => some (if q.qen then q else { q with qctx := fieldOf v 0 11, qpriv := fieldOf v 15 1 == 1 })
    | 0x10 => some (q.kicked w)
    | 0x14 => some (if q.qen then q else { q with qhead := w })
    | 0x18 => some { q with idle := q.idle && fieldOf v 0 1 == 0, kickAhead := q.kickAhead && fieldOf v 1 1 == 0,
                            refused := q.refused && fieldOf v 2 1 == 0 }
    | 0x1C => none
    | 0x20 => some { q with qrefcnt := 0 }
    | 0x24 => some (if up then Queue.settle { q with qen := fieldOf v 0 1 == 1 } else q)
    | _ => some q

/-! ### Per-context windows (R342) -/

/-- The CSR at an offset of a context's window, and whether a command may write it. -/
def windowCsr (off : Nat) : Option (Nat × Bool) :=
  match off with
  | 0x00 => some (0x040, true)
  | 0x04 => some (0x143, true)
  | 0x08 => some (0x185, true)
  | 0x0C => some (0x183, true)
  | 0x10 => some (0x006, true)
  | 0x14 => some (0x009, true)
  | 0x18 => some (0x00A, true)
  | 0x1C => some (0x180, false)
  | 0x20 => some (0x181, true)
  | 0x24 => some (0x182, true)
  | 0x28 => some (0x109, true)
  | 0x2C => some (0x107, false)
  | _ => none

/-- A context register as a CSRR reads it. -/
def State.ctxReg (s : State) (c : Ctx) (n : Nat) : Nat :=
  match n with
  | 0x040 => c.deedwait
  | 0x143 => c.collwait
  | 0x185 => c.pairwait
  | 0x183 => c.rollmax
  | 0x006 => c.thentry.toNat
  | 0x009 => c.thseg % 2 ^ 32
  | 0x00A => c.thseg / 2 ^ 32
  | 0x180 => c.fqhead.toNat
  | 0x181 => c.fqtail.toNat
  | 0x182 => c.fqlost
  | 0x109 => c.deperr
  | _ => s.pendCnt c.asid

/-- A write of a context register as a CSRW with T = 0 makes it; a count is cleared. -/
def State.setCtxReg (s : State) (asid n : Nat) (v : Word) : State :=
  match n with
  | 0x182 => s.modCtx asid fun c => { c with fqlost := 0 }
  | 0x109 => s.modCtx asid fun c => { c with deperr := 0 }
  | _ => s.setCtxCsr asid n v

/-! ### The module's registers (R342) -/

/-- A value of MGCAP or MGSTEP (R247): 8 to 512. -/
def mgValue (v : Nat) : Nat := max 8 (min 512 (fieldOf v 0 10))

/-- A module register, with its size; none where there is none. -/
def State.moduleReg (s : State) (off : Nat) : Option (Nat × Nat) :=
  let c0 (f : CoreSt → Nat) : Nat := ((s.core? 0).map f).getD 0
  match off with
  | 0x200008 => some (8, s.dev.invBase)
  | 0x200010 => some (8, s.dev.invLen)
  | 0x200040 => some (4, c0 (·.mgcapNext))
  | 0x200044 => some (4, c0 (·.mgstepNext))
  | 0x200048 => some (4, c0 fun c => bitN c.mxctl)
  | 0x200080 => some (8, s.dev.saveBase)
  | 0x200088 => some (8, s.dev.saveLen)
  | 0x200090 => some (4, s.dev.pcap)
  | 0x2000C0 => some (4, s.dev.turn)
  | 0x2000C4 => some (4, s.dev.snapctl.toNat)
  | 0x2000C8 => some (4, s.dev.peerwait)
  | _ => none

/-- The state with every core changed. -/
def State.allCores (s : State) (f : CoreSt → CoreSt) : State := { s with cores := s.cores.map f }

/-- TURN (R58): values below 10,000 are taken as 10,000. -/
def turnValue (v : Nat) : Nat := max 10000 v

/-- A module register takes a value, adjusted as its map states. -/
def State.setModuleReg (s : State) (off v : Nat) : State :=
  match off with
  | 0x200008 => { s with dev := { s.dev with invBase := v } }
  | 0x200010 => { s with dev := { s.dev with invLen := v } }
  | 0x200040 => s.allCores fun c => { c with mgcapNext := mgValue v }
  | 0x200044 => s.allCores fun c => { c with mgstepNext := mgValue v }
  | 0x200048 => s.allCores fun c => { c with mxctl := fieldOf v 0 1 == 1 }
  | 0x200080 => { s with dev := { s.dev with saveBase := v } }
  | 0x200088 => { s with dev := { s.dev with saveLen := v } }
  | 0x200090 => { s with dev := { s.dev with pcap := min 3600 (fieldOf v 0 12) } }
  | 0x2000C0 => { s with dev := { s.dev with turn := turnValue v } }
  | 0x2000C4 => { s with dev := { s.dev with snapctl := BitVec.ofNat 3 v } }
  | 0x2000C8 => { s with dev := { s.dev with peerwait := max 1 (fieldOf v 0 20) } }
  | _ => s

/-! ### Peer groups (R342) -/

/-- The halfword of an entry that a peer group keeps: the module number and V. -/
def peerHalf (v : Nat) : BitVec 16 := BitVec.ofNat 16 (fieldOf v 0 12 + 2 ^ 15 * fieldOf v 15 1)

/-- Halfwords of a peer group as one value. -/
def Ctx.readPeers (c : Ctx) (i : Nat) : Nat → Nat
  | 0 => 0
  | n + 1 => (look 0 i c.peers).toNat + 2 ^ 16 * c.readPeers (i + 1) n

/-- Halfwords of a peer group written. -/
def Ctx.writePeers (c : Ctx) (i v : Nat) : Nat → Ctx
  | 0 => c
  | n + 1 => ({ c with peers := put 0 i (peerHalf (v % 2 ^ 16)) c.peers } : Ctx).writePeers (i + 1) (v / 2 ^ 16) n

/-! ### The snapshot region (R356) -/

/-- A word of the snapshot region. -/
def State.snapWord (s : State) (off : Nat) : Nat :=
  if off = 0x300000 then s.dev.snap.seq
  else if off = 0x300004 then s.dev.snap.miss
  else if off = 0x300008 then bitN s.dev.snap.frozen
  else (look 0 off s.dev.snap.words).toNat

/-! ### INVAL (R190, R357) -/

/-- A TLB entry that an invalidation covers (R190). -/
def TlbEntry.covered (e : TlbEntry) (mode asid base len : Nat) : Bool :=
  match mode with
  | 0 => e.asid == asid && !e.global
  | 1 => (e.asid == asid || e.global) && e.base < base + len && base < e.base + e.size
  | _ => true

/-- Every covered entry is removed from every core and die. -/
def State.dropTlbs (s : State) (mode asid base len : Nat) : State :=
  { s with
    cores := s.cores.map fun c => { c with tlb := c.tlb.filter fun e => !e.covered mode asid base len }
    dies := s.dies.map fun d => { d with tlb := d.tlb.filter fun e => !e.covered mode asid base len } }

/-- The accesses in progress that an invalidation waits for: those of its ASID under mode 0, else all. -/
def State.oldAccesses (s : State) (mode asid : Nat) : List Nat :=
  ((s.flights.filter fun f => mode != 0 || f.asid == asid).map (·.id)) ++
    ((s.pending.filter fun p => p.what.place.isSome && (mode != 0 || s.asidOf p.tid == asid)).map (·.id))

/-- The control word is refused (R357). -/
def invalRefused (ctl len base : Nat) : Bool :=
  let mode := fieldOf ctl 12 2
  mode == 3 || fieldOf ctl 11 1 != 0 || fieldOf ctl 14 50 != 0 || (mode == 1 && (len == 0 || 2 ^ 57 < base + len))

/-- A write of the control word (R357). -/
def State.startInval (s : State) (c : Cmd) (ctl : Nat) : State :=
  let d := s.dev
  if invalRefused ctl d.invLen d.invBase then s.answer c .refused
  else
    let mode := fieldOf ctl 12 2
    let asid := fieldOf ctl 0 11
    let i : Inval := ⟨s.fresh, mode, asid, d.invBase, d.invLen, c.seq, s.oldAccesses mode asid⟩
    ({ s with invals := s.invals ++ [i], fresh := s.fresh + 1 } : State).dropTlbs mode asid d.invBase d.invLen

/-- INVAL (R190). -/
def execInval (ctl : BitVec 64) (s : State) : Host.Outcome State Fault Refusal :=
  s.command fun c => s.startInval c ctl.toNat

/-- INVAL_COMPLETE (R190): the accesses translated before it have been performed; a walk reads its entries only when it
completes, so that none has read an old one. -/
def execInvalComplete (id : Nat) (s : State) : Host.Outcome State Fault Refusal :=
  match s.invals.find? (·.id == id) with
  | none => .next s
  | some i =>
    let live (n : Nat) : Bool := s.flights.any (fun f => f.id == n) || s.pending.any fun p => p.id == n
    if i.flights.any live then .next s
    else .next ((({ s with invals := s.invals.filter fun x => x.id != id } : State).dropTlbs i.mode i.asid i.base i.len).answer ⟨1, i.seq⟩ .done)

/-! ### Management commands (R341, R357) -/

/-- What a management read answers; none where it is refused. -/
def State.mgmtValue (s : State) (off size : Nat) : Option Nat :=
  if (size ≠ 2 && size ≠ 4 && size ≠ 8) || off % size ≠ 0 then none
  else if off < 0x040000 then (s.queue? (off / 0x1000)).bind fun q => q.readReg (off % 0x1000) size
  else if 0x100000 ≤ off && off < 0x180000 then
    match (s.ctx? ((off - 0x100000) / 0x100)).filter (·.live), size with
    | some c, 4 => some (match windowCsr (off % 0x100) with | some (n, _) => s.ctxReg c n | none => 0)
    | _, _ => none
  else if off = 0x200000 then (if size = 8 then some 0 else none)
  else if 0x200000 ≤ off && off < 0x200100 then
    match s.moduleReg off with
    | some (n, v) => if n = size then some v else none
    | none => none
  else if 0x300000 ≤ off && off < 0x400000 then (if size = 4 then some (s.snapWord off) else none)
  else if 0x400000 ≤ off && off < 0x500000 then
    ((s.ctx? ((off - 0x400000) / 0x200)).filter (·.live)).map fun c => c.readPeers (off % 0x200 / 2) (size / 2)
  else none

/-- MGMT_READ (R341, R342). -/
def execMgmtRead (off size : Nat) (s : State) : Host.Outcome State Fault Refusal :=
  s.command fun c => s.answer c (match s.mgmtValue off size with | some v => .value (BitVec.ofNat 64 v) | none => .refused)

/-- What a management write does; none where it is refused. The answer to INVAL's control word comes later. -/
def State.mgmtSet (s : State) (c : Cmd) (off size v : Nat) : Option State :=
  if (size ≠ 2 && size ≠ 4 && size ≠ 8) || off % size ≠ 0 then none
  else if off < 0x040000 then
    match (s.queue? (off / 0x1000)).bind fun q => q.writeReg s.dev.ready (off % 0x1000) size v with
    | some q => some ((s.modQueue (off / 0x1000) fun _ => q).answer c .done)
    | none => none
  else if 0x100000 ≤ off && off < 0x180000 then
    let asid := (off - 0x100000) / 0x100
    match (s.ctx? asid).filter (·.live), size, windowCsr (off % 0x100) with
    | some _, 4, some (n, true) => some ((s.setCtxReg asid n (BitVec.ofNat 32 v)).answer c .done)
    | _, _, _ => none
  else if off = 0x200000 then (if size = 8 then some (s.startInval c v) else none)
  else if 0x200000 ≤ off && off < 0x200100 then
    match s.moduleReg off with
    | some (n, _) => if n = size then some ((s.setModuleReg off v).answer c .done) else none
    | none => none
  else if 0x400000 ≤ off && off < 0x500000 then
    let asid := (off - 0x400000) / 0x200
    match (s.ctx? asid).filter (·.live) with
    | some _ => some ((s.modCtx asid fun x => x.writePeers (off % 0x200 / 2) v (size / 2)).answer c .done)
    | none => none
  else none

/-- MGMT_WRITE (R341, R342): a refused command has no effect. -/
def execMgmtWrite (off size : Nat) (value : BitVec 64) (s : State) : Host.Outcome State Fault Refusal :=
  s.command fun c => (s.mgmtSet c off size (value.toNat % 2 ^ (8 * size))).getD (s.answer c .refused)

/-- SNAPTRIG (R350). -/
def execSnaptrig (s : State) : Host.Outcome State Fault Refusal := s.command fun c => s.snapTrigger.answer c .done

/-- SNAPARM (R350): the snapshot registers are no longer frozen. -/
def execSnaparm (s : State) : Host.Outcome State Fault Refusal :=
  s.command fun c => ({ s with dev := { s.dev with snap := { s.dev.snap with frozen := false } } } : State).answer c .done

/-- What an ATTEST answer holds before its signature (R349): the nonce, MEAS0 to MEAS3, the firmware versions, the
module number and the feature masks. Digests stand as their bytes do, the first first (log 6). -/
def State.attestBody (s : State) (nonce : BitVec 256) : List Byte :=
  leBytes 32 nonce.toNat ++ (s.dev.meas.map fun m => beBytes 32 m.toNat).flatten ++
    ((List.range 4).map fun i => leBytes 4 (Config.firmwareVersion i).toNat).flatten ++ leBytes 2 s.dev.modnum ++
    ((List.range Config.cores).map fun _ => leBytes 8 Config.features).flatten

/-- The identity key exists: stage 1 derives it (R349). -/
def Device.keyed (d : Device) : Bool := 1 ≤ fieldOf d.devstat.toNat 0 4

/-- ATTEST (R349): the body and the signature over it; refused while there is no key to sign with (log 50). -/
def execAttest (nonce : BitVec 256) (s : State) : Host.Outcome State Fault Refusal :=
  s.command fun c =>
    if s.dev.keyed then s.answer c (.bytes (s.attestBody nonce ++ (List.finRange 17088).map (Config.signature (s.attestBody nonce))))
    else s.answer c .refused

/-! ### Bring-up (R347, R348) -/

/-- The state at the start of bring-up: that of power-on; what stands outside the module's own state goes on. -/
def State.restart (s : State) : State :=
  { State.reset with
    agenda := s.agenda, clock := s.clock, fresh := s.fresh, peerMem := s.peerMem, outbox := s.outbox
    quads := State.reset.quads.map fun q => { q with ends := s.clock + q.turn }
    cores := State.reset.cores.map fun c => { c with mgorigin := s.clock, mgwindow := 0 } }

/-- POWER_ON (R347). -/
def execPowerOn (s : State) : Host.Outcome State Fault Refusal := .next s.restart

/-- MANAGEMENT_RESET (R347, R351): it also leaves the halted state. -/
def execManagementReset (s : State) : Host.Outcome State Fault Refusal := .next s.restart

/-- An accepted image extends its measurement register (R348): M := SHA-256(M ‖ digest). -/
def extendMeas (ms : List (BitVec 256)) (i : Nat) : List (BitVec 256) :=
  modAt ms i fun m => sha256 (beBytes 32 m.toNat ++ beBytes 32 (sha256 (Config.image i)).toNat)

/-- The images that a stage verifies, in order (R348): image i goes into MEASi. -/
def stageImages (n : Nat) : List Nat :=
  match n with
  | 1 => [0]
  | 2 => [1, 2, 3]
  | _ => []

/-- The verifier accepts an image (R348): the fused key digest, the signature, the rollback counter and its region. -/
def imageOk (i : Nat) : Bool :=
  sha256 (Config.imageKey i) == Config.fusedKey i && Config.signatureOk i && (Config.rollback i).ule (Config.firmwareVersion i) &&
    (Config.image i).length ≤ Config.regionSize i

/-- Links that a stage brings up: the die links, and the ports, but for the peer ports that do not train. -/
def stageLinks (n : Nat) (down : List (Fin 8)) (i : Nat) : Bool :=
  if n = 3 then i < 4 else n = 6 && 16 ≤ i && !(down.any fun p => 16 + p.val == i)

/-- A core as it is released (R347): its CSRs at their reset values; the governor's windows count from here (R244). -/
def CoreSt.released (c : CoreSt) (clock : Nat) : CoreSt := { CoreSt.reset c.id with mgorigin := clock }

/-- What a completed stage leaves beside its number in DEVSTAT (R347). -/
def State.stageDone (s : State) (n : Nat) (down : List (Fin 8)) : State :=
  let d : Device := { s.dev with
    devstat := BitVec.ofNat 32 n, meas := (stageImages n).foldl extendMeas s.dev.meas
    links := s.dev.links.map fun l => if stageLinks n down l.id then { l with up := true } else l }
  match n with
  | 4 => { s with dev := d, mem := [], poison := [] }
  | 5 => { s with dev := d, mem := [], poison := [] }
  | 7 => { s with
      cores := s.cores.map fun c => c.released s.clock
      dev := { Device.reset with
        devstat := 7, modnum := Config.moduleNumber.toNat, meas := d.meas, links := d.links, saveBase := d.saveBase
        saveLen := d.saveLen, invBase := d.invBase, invLen := d.invLen, windows := Config.windowTable
        snap := { d.snap with seq := 0, miss := 0 } } }
  | _ => { s with dev := d }

/-- A stage fails (R347, R348): bring-up stops, and DEVSTAT says where and why; images accepted before the one that failed
have been extended into their registers. -/
def State.stageFails (s : State) (n : Nat) (reason : BitVec 4) : State :=
  { s with dev := { s.dev with
      devstat := BitVec.ofNat 32 (fieldOf s.dev.devstat.toNat 0 4 + 2 ^ 4 * n + 2 ^ 8 * reason.toNat)
      meas := ((stageImages n).takeWhile imageOk).foldl extendMeas s.dev.meas } }

/-- BRINGUP_STAGE (R347, R348): the next stage completes, or fails and stops bring-up. -/
def execBringupStage (passed : Option (List (Fin 8))) (reason : BitVec 4) (s : State) : Host.Outcome State Fault Refusal :=
  let x := s.dev.devstat.toNat
  let n := fieldOf x 0 4 + 1
  if s.dev.halted || fieldOf x 4 4 ≠ 0 || 7 < n then .next s
  else .next (match passed, (stageImages n).all imageOk with | some down, true => s.stageDone n down | _, _ => s.stageFails n reason)

/-! ### Power, heat, memory and links -/

/-- The cap in force on a core (R244, R351). -/
def CoreSt.capInForce (c : CoreSt) : Nat := min c.mgcapNext c.mgpower

/-- POWER_WINDOW (R351): the power of the last window, and the cap lowered or raised by 32 units. -/
def execPowerWindow (watts : Nat) (s : State) : Host.Outcome State Fault Refusal :=
  if s.dev.halted then .next s
  else
    let s1 : State := { s with dev := { s.dev with pwrw := watts } }
    if s.dev.pcap < watts then .next (s1.allCores fun c => { c with mgpower := max 8 (c.capInForce - 32) })
    else if watts + 100 < s.dev.pcap then
      .next (s1.allCores fun c => { c with mgpower := if c.capInForce + 32 < c.mgcapNext then c.capInForce + 32 else 512 })
    else .next s1

/-- THERMAL_HALT (R351): the die's temperature; at 105 °C or more the module halts, as DEVSTAT records. -/
def execThermalHalt (die temp : Nat) (s : State) : Host.Outcome State Fault Refusal :=
  let s1 := s.modDie die fun d => { d with temp := temp }
  if 105 ≤ temp then
    .next { s1 with dev := { s1.dev with halted := true, devstat := s1.dev.devstat ||| 0x1000#32 } }
  else .next s1

/-- PATROL_SCRUB (R346): the lines that it cannot correct are poisoned (R202). -/
def execPatrolScrub (bad : List Nat) (s : State) : Host.Outcome State Fault Refusal :=
  let s1 := bad.foldl (fun s l => s.poisonAt (.homeLine l)) s
  .next (if bad.isEmpty then s1 else s1.snapEvent 0)

/-- LINK_DOWN (R347, R353): PEERST shows a peer port; an error event that SNAPCTL may make a trigger. -/
def execLinkDown (link : Nat) (s : State) : Host.Outcome State Fault Refusal :=
  .next (({ s with dev := { s.dev with links := modIf (·.id == link) (fun l => { l with up := false }) s.dev.links } } : State).snapEvent 2)

/-! ### Peers -/

/-- Bytes that a peer's request covers. -/
def peerSize : PeerOp → Nat
  | .read n => n
  | .write bs => bs.length
  | .atomic _ w _ _ => if w then 8 else 4
  | .dreq _ len _ _ _ => len
  | .dcancel _ => 0
  | .drel .. => 0

/-- The window entry of a window offset (R344). -/
def State.windowAt (s : State) (off n : Nat) : Option Config.Window :=
  s.dev.windows.find? fun w => w.off ≤ off && off + n ≤ w.off + w.len

/-- An answer to a peer. -/
def State.answerPeer (s : State) (m : Nat) (r : Reply) : State := { s with outbox := s.outbox ++ [.peer m r] }

/-- The number under which this module knows another's tag or deed id. -/
def abroadTag (modnum tag : Nat) : Nat := 2 ^ 64 * (modnum + 1) + tag

/-- The home at which a window's pieces are arbitrated. -/
def windowHome (w : Config.Window) : Nat := w.die.getD 4

/-- A deed request of another module (R178): keyed by the window offset, in the window's domain, and bound by this module's own
DEEDWAIT (log 21). -/
def State.peerDreq (s : State) (modnum off asid len : Nat) (kind : Kind) (nowait : Bool) (tag : Nat) : State :=
  match s.windowAt off len with
  | none => { s with outbox := s.outbox ++ [.deed modnum (.drefuse tag 7)] }
  | some w =>
    s.send (windowHome w) (.peer modnum) (.dreq ⟨abroadTag modnum tag, w.domain, abroadTag modnum asid,
      s.requester (.peer modnum), off, len, kind, nowait, s.clock + 16 * s.dev.turn⟩)

/-- A peer's transfer or atomic at the home of its window's line (R344); a poisoned line is not used (R202). -/
def State.peerAccess (s : State) (modnum pa : Nat) (op : PeerOp) : State :=
  let bad := (List.range (peerSize op / 128 + 2)).any fun k => 128 * (pa / 128 + k) < pa + peerSize op && s.poison.contains (pa / 128 + k)
  match op with
  | .read n => s.answerPeer modnum (if bad then .refused else .bytes (readBytes s.mem pa n))
  | .write bs => (s.writeHome pa bs).answerPeer modnum .done
  | .atomic o w b c =>
    if bad then s.answerPeer modnum .refused
    else
      let n := if w then 8 else 4
      let old := leNat (readBytes s.mem pa n)
      let new := newValue o (8 * n) old (b.toNat % 2 ^ (8 * n)) (c.toNat % 2 ^ (8 * n))
      (s.writeHome pa (leBytes n new)).answerPeer modnum (.value (BitVec.ofNat 64 old))
  | _ => s

/-- PEER_REQUEST (R344, R178): served at the home of the window's line, or refused with PEER. -/
def execPeerRequest (modnum off : Nat) (op : PeerOp) (s : State) : Host.Outcome State Fault Refusal :=
  if !s.dev.serves then .next s
  else
    match op with
    | .dreq asid len kind nowait tag => .next (s.peerDreq modnum off asid len kind nowait tag.toNat)
    | .dcancel tag =>
      match s.windowAt off 0 with
      | some w => .next (s.send (windowHome w) (.peer modnum) (.dcancel (abroadTag modnum tag.toNat)))
      | none => .next s
    | .drel deed kind =>
      .next (s.send (deed.toNat / 2 ^ 17) (.peer modnum) (.drel (deed.toNat % 2 ^ 17) kind 0 (abroadTag modnum deed.toNat)))
    | .read _ | .write _ | .atomic .. =>
      match s.windowAt off (peerSize op) with
      | none => .next (s.answerPeer modnum .refused)
      | some w => .next (s.peerAccess modnum (w.pa + (off - w.off)) op)

end Sys2Proof.Machine
end

