-- ==== Sys2Proof/Machine/Integer.lean ====
section
/-! DEFINITION. The moves and the integer and predicate instructions (spec/08 R137 to R143, R155). -/

namespace Sys2Proof.Machine

/-! ### Moves -/

/-- MOV (R138). -/
def execMov (m : Mods) (d a : VReg) (s : State) : Host.Outcome State Fault Refusal :=
  .next (s.regInstr m [a] (lastReads m [a] []) fun v t => [.v d (v.srcA m t a)])

/-- MOVI (R138). -/
def execMovi (m : Mods) (d : VReg) (imm : Word) (s : State) : Host.Outcome State Fault Refusal :=
  .next (s.regInstr m [] [] fun _ _ => [.v d imm])

/-- SEL (R138). -/
def execSel (m : Mods) (d a b : VReg) (c : PReg) (s : State) : Host.Outcome State Fault Refusal :=
  .next (s.regInstr m [a, b] (lastReads m [a] [b]) fun v t => [.v d (if v.readP t c then v.srcA m t a else v.srcB m t b)])

/-- PMOV (R138). -/
def execPmov (m : Mods) (form : PmovForm) (s : State) : Host.Outcome State Fault Refusal :=
  match form with
  | .pp d a => .next (s.regInstr m [] [] fun v t => [.p d (v.readP t a)])
  | .nz d a => .next (s.regInstr m [a] (lastReads m [a] []) fun v t => [.p d (v.srcA m t a != 0)])
  | .toV d a => .next (s.regInstr m [] [] fun v t => [.v d (if v.readP t a then 1 else 0)])
  | .clr d => .next (s.regInstr m [] [] fun _ _ => [.p d false])
  | .set d => .next (s.regInstr m [] [] fun _ _ => [.p d true])

/-- SHFL (R138): long-latency; its sources are read when its result is written, or at issue in a chain group (R98). -/
def execShfl (m : Mods) (d a b : VReg) (s : State) : Host.Outcome State Fault Refusal :=
  let bu := s.curBundle
  let rel := lastReads m [a] [b]
  if s.group.isSome then
    .next (s.runReads m [a, b] rel fun v s t =>
      match s.take t [d] with
      | .error f => (s, f)
      | .ok s1 => (s1.pend bu t v.fresh true false (.regs [.v d (v.readLane t a ((v.srcB m t b).toNat % 64))]) [], .next))
  else
    .next ((s.releaseIdle m rel).runReads m [] [] fun v s t =>
      match s.take t [d] with
      | .error f => (s, f)
      | .ok s1 => (s1.pend bu t v.fresh true true (.shfl m d a b) rel, .next))

/-! ### Element arithmetic -/

/-- Sat of R136: clamped to the signed range of w bits. -/
def satInt (w : Nat) (n : Int) : Nat := wrapInt w (clampInt n (-(2 ^ (w - 1))) (2 ^ (w - 1) - 1))

/-- The result of an element: Wrap or Sat (R136). -/
def fitInt (sat : Bool) (w : Nat) (n : Int) : Nat := if sat then satInt w n else wrapInt w n

/-- Element width of IADD, ISUB and IMUL (R139). -/
def IntTy.bits : IntTy → Nat
  | .i32 => 32 | .i16x2 => 16 | .i8x4 => 8 | .i64 => 64

/-- An operation on the signed elements of a 32-bit register (R140). -/
def signedElems (sat : Bool) (w : Nat) (f : Int → Int → Int) (a b : Word) : Word :=
  BitVec.ofNat 32 (mapElems w (fun x y => fitInt sat w (f (signedOf w x) (signedOf w y))) a.toNat b.toNat 32)

/-- The same on a register pair (R140). -/
def signedPair (sat : Bool) (f : Int → Int → Int) (a b : BitVec 64) : BitVec 64 :=
  BitVec.ofNat 64 (fitInt sat 64 (f a.toInt b.toInt))

/-- IADD, ISUB and IMUL in one form (R140). -/
def State.intInstr (s : State) (m : Mods) (ty : IntTy) (f : Int → Int → Int) (d a b : VReg) : State :=
  let sat := (xmOrPlain m).sat
  match ty with
  | .i64 =>
    let ra := [a, regAt a 1]
    let rb := [b, regAt b 1]
    s.regInstr m (ra ++ rb) (lastReads m ra rb) fun v t => pairWrites d (signedPair sat f (v.srcA2 m t a) (v.srcB2 m t b))
  | _ =>
    s.regInstr m [a, b] (lastReads m [a] [b]) fun v t =>
      [.v d (signedElems sat (IntTy.bits ty) f (v.srcA m t a) (v.srcB m t b))]

/-- IADD (R140). -/
def execIadd (m : Mods) (ty : IntTy) (d a b : VReg) (s : State) : Host.Outcome State Fault Refusal :=
  .next (s.intInstr m ty (fun x y => x + y) d a b)

/-- ISUB (R140). -/
def execIsub (m : Mods) (ty : IntTy) (d a b : VReg) (s : State) : Host.Outcome State Fault Refusal :=
  .next (s.intInstr m ty (fun x y => x - y) d a b)

/-- IMUL (R140). -/
def execImul (m : Mods) (ty : IntTy) (d a b : VReg) (s : State) : Host.Outcome State Fault Refusal :=
  .next (s.intInstr m ty (fun x y => x * y) d a b)

/-- The exact product of two 32-bit operands, signed or unsigned (R140). -/
def wideProduct (uns : Bool) (a b : Word) : Int := if uns then (a.toNat : Int) * b.toNat else a.toInt * b.toInt

/-- IMULH (R140): the high word of the exact product. -/
def execImulh (m : Mods) (uns : Bool) (d a b : VReg) (s : State) : Host.Outcome State Fault Refusal :=
  .next (s.regInstr m [a, b] (lastReads m [a] [b]) fun v t =>
    [.v d (BitVec.ofNat 32 (wrapInt 64 (wideProduct uns (v.srcA m t a) (v.srcB m t b)) / 2 ^ 32))])

/-- IMAD (R140): the addend is vC, or vD. -/
def execImad (m : Mods) (d a b : VReg) (s : State) : Host.Outcome State Fault Refusal :=
  let c := addendReg m d
  .next (s.regInstr m [a, b, c] (lastReads3 m [a] [b] [c]) fun v t =>
    [.v d (BitVec.ofNat 32 (fitInt (xmOrPlain m).sat 32 ((v.srcA m t a).toInt * (v.srcB m t b).toInt + (v.readV t c).toInt)))])

/-- IMADW (R140): the addend is the destination pair. -/
def execImadw (m : Mods) (uns : Bool) (d a b : VReg) (s : State) : Host.Outcome State Fault Refusal :=
  .next (s.regInstr m [a, b, d, regAt d 1] (lastReads m [a] [b]) fun v t =>
    let acc : BitVec 64 := v.readV t (regAt d 1) ++ v.readV t d
    pairWrites d (BitVec.ofNat 64 (wrapInt 64 ((acc.toNat : Int) + wideProduct uns (v.srcA m t a) (v.srcB m t b)))))

/-- Element width and order of IMIN and IMAX (R139). -/
def MinTy.shape : MinTy → Nat × Bool
  | .i32 => (32, false) | .n32 => (32, true) | .i16x2 => (16, false) | .n16x2 => (16, true)
  | .i8x4 => (8, false) | .n8x4 => (8, true)

/-- The smaller or larger of two elements (R141). -/
def pickElem (uns mx : Bool) (w x y : Nat) : Nat :=
  let less := if uns then x % 2 ^ w < y % 2 ^ w else signedOf w x < signedOf w y
  if less = mx then y else x

/-- IMIN and IMAX per element (R141). -/
def minMaxWord (ty : MinTy) (mx : Bool) (a b : Word) : Word :=
  let (w, uns) := MinTy.shape ty
  BitVec.ofNat 32 (mapElems w (pickElem uns mx w) a.toNat b.toNat 32)

/-- IMIN (R141). -/
def execImin (m : Mods) (ty : MinTy) (d a b : VReg) (s : State) : Host.Outcome State Fault Refusal :=
  .next (s.regInstr m [a, b] (lastReads m [a] [b]) fun v t => [.v d (minMaxWord ty false (v.srcA m t a) (v.srcB m t b))])

/-- IMAX (R141). -/
def execImax (m : Mods) (ty : MinTy) (d a b : VReg) (s : State) : Host.Outcome State Fault Refusal :=
  .next (s.regInstr m [a, b] (lastReads m [a] [b]) fun v t => [.v d (minMaxWord ty true (v.srcA m t a) (v.srcB m t b))])

/-! ### Logic, shifts and bits -/

/-- A two-source instruction on 32-bit words (R141). -/
def State.wordInstr (s : State) (m : Mods) (f : Word → Word → Word) (d a b : VReg) : State :=
  s.regInstr m [a, b] (lastReads m [a] [b]) fun v t => [.v d (f (v.srcA m t a) (v.srcB m t b))]

/-- AND (R141). -/
def execAnd (m : Mods) (d a b : VReg) (s : State) : Host.Outcome State Fault Refusal :=
  .next (s.wordInstr m (fun x y => x &&& y) d a b)

/-- OR (R141). -/
def execOr (m : Mods) (d a b : VReg) (s : State) : Host.Outcome State Fault Refusal :=
  .next (s.wordInstr m (fun x y => x ||| y) d a b)

/-- XOR (R141). -/
def execXor (m : Mods) (d a b : VReg) (s : State) : Host.Outcome State Fault Refusal :=
  .next (s.wordInstr m (fun x y => x ^^^ y) d a b)

/-- ANDN (R141): a AND NOT b. -/
def execAndn (m : Mods) (d a b : VReg) (s : State) : Host.Outcome State Fault Refusal :=
  .next (s.wordInstr m (fun x y => x &&& ~~~y) d a b)

/-- SHL, SHR and SAR on a word or a pair (R141): the amount reads as unsigned 32-bit, and the width or more leaves 0 or
the sign. -/
def State.shiftInstr (s : State) (m : Mods) (pair : Bool) (f : (w : Nat) → BitVec w → Nat → BitVec w) (d a b : VReg) : State :=
  if pair then
    let ra := [a, regAt a 1]
    s.regInstr m (ra ++ [b]) (lastReads m ra [b]) fun v t => pairWrites d (f 64 (v.srcA2 m t a) (v.srcB m t b).toNat)
  else s.regInstr m [a, b] (lastReads m [a] [b]) fun v t => [.v d (f 32 (v.srcA m t a) (v.srcB m t b).toNat)]

/-- A left shift; 0 from the width on (R141). -/
def shlBits (w : Nat) (a : BitVec w) (n : Nat) : BitVec w := if w ≤ n then 0 else a <<< n
/-- A right shift; 0 from the width on. -/
def shrBits (w : Nat) (a : BitVec w) (n : Nat) : BitVec w := if w ≤ n then 0 else a >>> n
/-- A right shift of the sign; every bit the sign from the width on. -/
def sarBits (w : Nat) (a : BitVec w) (n : Nat) : BitVec w := a.sshiftRight (min n w)

/-- SHL (R141). -/
def execShl (m : Mods) (pair : Bool) (d a b : VReg) (s : State) : Host.Outcome State Fault Refusal :=
  .next (s.shiftInstr m pair shlBits d a b)

/-- SHR (R141). -/
def execShr (m : Mods) (pair : Bool) (d a b : VReg) (s : State) : Host.Outcome State Fault Refusal :=
  .next (s.shiftInstr m pair shrBits d a b)

/-- SAR (R141). -/
def execSar (m : Mods) (pair : Bool) (d a b : VReg) (s : State) : Host.Outcome State Fault Refusal :=
  .next (s.shiftInstr m pair sarBits d a b)

/-- ROTL (R141). -/
def execRotl (m : Mods) (d a b : VReg) (s : State) : Host.Outcome State Fault Refusal :=
  .next (s.wordInstr m (fun x y => x.rotateLeft (y.toNat % 32)) d a b)

/-- A one-source instruction on 32-bit words. -/
def State.unaryInstr (s : State) (m : Mods) (f : Word → Word) (d a : VReg) : State :=
  s.regInstr m [a] (lastReads m [a] []) fun v t => [.v d (f (v.srcA m t a))]

/-- POPC (R141). -/
def popcWord (x : Word) : Word := BitVec.ofNat 32 (((List.range 32).filter fun i => x.getLsbD i).length)

/-- CLZ (R141): 32 for 0. -/
def clzWord (x : Word) : Word := if x = 0 then 32 else BitVec.ofNat 32 (31 - Nat.log2 x.toNat)

/-- BREV (R141). -/
def brevWord (x : Word) : Word := BitVec.ofNat 32 (((List.range 32).map fun i => if x.getLsbD i then 2 ^ (31 - i) else 0).sum)

/-- POPC (R141). -/
def execPopc (m : Mods) (d a : VReg) (s : State) : Host.Outcome State Fault Refusal := .next (s.unaryInstr m popcWord d a)

/-- CLZ (R141). -/
def execClz (m : Mods) (d a : VReg) (s : State) : Host.Outcome State Fault Refusal := .next (s.unaryInstr m clzWord d a)

/-- BREV (R141). -/
def execBrev (m : Mods) (d a : VReg) (s : State) : Host.Outcome State Fault Refusal := .next (s.unaryInstr m brevWord d a)

/-- BFE of R142. -/
def bfeWord (sgn : Bool) (pos len : Nat) (a : Word) : Word :=
  let f := a.toNat / 2 ^ pos % 2 ^ len
  if sgn && 0 < len then BitVec.ofInt 32 (signedOf len f) else BitVec.ofNat 32 f

/-- BFI of R142. -/
def bfiWord (pos len : Nat) (a b : Word) : Word :=
  let mask : Word := BitVec.ofNat 32 ((2 ^ len - 1) * 2 ^ pos)
  (a &&& ~~~mask) ||| ((b <<< pos) &&& mask)

/-- BFE (R142). -/
def execBfe (m : Mods) (sgn : Bool) (d a : VReg) (pos : Fin 32) (len : Fin 64) (s : State) :
    Host.Outcome State Fault Refusal :=
  .next (s.unaryInstr m (bfeWord sgn pos.val len.val) d a)

/-- BFI (R142). -/
def execBfi (m : Mods) (d a b : VReg) (pos : Fin 32) (len : Fin 64) (s : State) : Host.Outcome State Fault Refusal :=
  .next (s.wordInstr m (bfiWord pos.val len.val) d a b)

/-- LEA (R142). -/
def execLea (m : Mods) (d a b : VReg) (sh : Fin 32) (off : BitVec 24) (s : State) : Host.Outcome State Fault Refusal :=
  .next (s.wordInstr m (fun x y => x + (y <<< sh.val) + off.signExtend 32) d a b)

/-- IADDI (R140). -/
def execIaddi (m : Mods) (d a : VReg) (imm : Word) (s : State) : Host.Outcome State Fault Refusal :=
  .next (s.unaryInstr m (fun x => BitVec.ofNat 32 (fitInt (xmOrPlain m).sat 32 (x.toInt + imm.toInt))) d a)

/-! ### Predicates -/

/-- A condition on two integers (R143). -/
def condHolds (c : Cond) (x y : Int) : Bool :=
  match c with
  | .eq => x = y | .ne => x ≠ y | .lt => x < y | .le => x ≤ y | .gt => y < x | .ge => y ≤ x

/-- ICMP (R143): signed. -/
def execIcmp (m : Mods) (c : Cond) (d : PReg) (a b : VReg) (s : State) : Host.Outcome State Fault Refusal :=
  .next (s.regInstr m [a, b] (lastReads m [a] [b]) fun v t =>
    [.p d (condHolds c (v.srcA m t a).toInt (v.srcB m t b).toInt)])

/-- NCMP (R143): unsigned. -/
def execNcmp (m : Mods) (c : Cond) (d : PReg) (a b : VReg) (s : State) : Host.Outcome State Fault Refusal :=
  .next (s.regInstr m [a, b] (lastReads m [a] [b]) fun v t =>
    [.p d (condHolds c (v.srcA m t a).toNat (v.srcB m t b).toNat)])

/-- The operations of PLOP (R143). -/
def predOp (o : PredOp) (x y : Bool) : Bool :=
  match o with
  | .and => x && y | .or => x || y | .xor => x != y | .andn => x && !y | .orn => x || !y
  | .nand => !(x && y) | .nor => !(x || y) | .xnor => x == y

/-- PLOP (R143). -/
def execPlop (m : Mods) (op : PredOp) (d a b : PReg) (s : State) : Host.Outcome State Fault Refusal :=
  .next (s.regInstr m [] [] fun v t => [.p d (predOp op (v.readP t a) (v.readP t b))])

/-! ### Byte swizzle -/

/-- One byte of BSWZ by its selector (R155). -/
def bswzByte (x q : Nat) : Nat :=
  let b := x / 2 ^ (8 * (q % 8)) % 256
  match q / 8 % 4 with
  | 0 => b
  | 1 => 0
  | 2 => if 128 ≤ b then 255 else 0
  | _ => 255

/-- BSWZ of R155. -/
def bswzWord (sel : BitVec 20) (a b : Word) : Word :=
  let x := b.toNat * 2 ^ 32 + a.toNat
  BitVec.ofNat 32 (packElems 8 ((List.range 4).map fun i => bswzByte x (sel.toNat / 2 ^ (5 * i) % 32)))

/-- BSWZ (R155). -/
def execBswz (m : Mods) (d a b : VReg) (sel : BitVec 20) (s : State) : Host.Outcome State Fault Refusal :=
  .next (s.wordInstr m (bswzWord sel) d a b)

end Sys2Proof.Machine
end

