-- ==== Sys2Proof/Machine/FloatOps.lean ====
section
/-! DEFINITION. The floating-point instructions, the conversions and the sub-word dot products (spec/08 R144 to R154). -/

namespace Sys2Proof.Machine

/-- The format of a floating variant (R144). -/
def floatFmt : FloatTy → Fmt
  | .f32 => .f32 | .bf16x2 => .bf16 | .f16x2 => .f16

/-- An operation on the modified elements of two registers, rounded by FloatResult (R145, R134). -/
def floatElems (f : Fmt) (xm : XM) (op : Val → Val → Val) (a b : Word) : Word :=
  BitVec.ofNat 32 (mapElems f.width
    (fun x y => floatResult (op ((f.value x).modify xm.absA xm.negA) ((f.value y).modify xm.absB xm.negB)) f xm)
    a.toNat b.toNat 32)

/-- FADD to FMAX in one form (R145). -/
def State.floatInstr (s : State) (m : Mods) (f : FloatTy) (op : Val → Val → Val) (d a b : VReg) : State :=
  s.wordInstr m (floatElems (floatFmt f) (xmOrPlain m) op) d a b

/-- FADD (R145). -/
def execFadd (m : Mods) (f : FloatTy) (d a b : VReg) (s : State) : Host.Outcome State Fault Refusal :=
  .next (s.floatInstr m f (fun x y => x.add (xmOrPlain m).rnd y) d a b)

/-- FSUB (R145). -/
def execFsub (m : Mods) (f : FloatTy) (d a b : VReg) (s : State) : Host.Outcome State Fault Refusal :=
  .next (s.floatInstr m f (fun x y => x.add (xmOrPlain m).rnd y.neg) d a b)

/-- FMUL (R145). -/
def execFmul (m : Mods) (f : FloatTy) (d a b : VReg) (s : State) : Host.Outcome State Fault Refusal :=
  .next (s.floatInstr m f (fun x y => x.mul y) d a b)

/-- FFMA per element: one rounding of a × b + c; the addend takes no modifier (R145). -/
def ffmaWord (f : Fmt) (xm : XM) (a b c : Word) : Word :=
  BitVec.ofNat 32 (packElems f.width ((List.range (32 / f.width)).map fun i =>
    let x := (f.value (elem f.width i a.toNat)).modify xm.absA xm.negA
    let y := (f.value (elem f.width i b.toNat)).modify xm.absB xm.negB
    floatResult ((x.mul y).add xm.rnd (f.value (elem f.width i c.toNat))) f xm))

/-- FFMA (R145). -/
def execFfma (m : Mods) (f : FloatTy) (d a b : VReg) (s : State) : Host.Outcome State Fault Refusal :=
  let c := addendReg m d
  .next (s.regInstr m [a, b, c] (lastReads3 m [a] [b] [c]) fun v t =>
    [.v d (ffmaWord (floatFmt f) (xmOrPlain m) (v.srcA m t a) (v.srcB m t b) (v.readV t c))])

/-- FMIN (R145). -/
def execFmin (m : Mods) (f : FloatTy) (d a b : VReg) (s : State) : Host.Outcome State Fault Refusal :=
  .next (s.floatInstr m f (pickNumber false) d a b)

/-- FMAX (R145). -/
def execFmax (m : Mods) (f : FloatTy) (d a b : VReg) (s : State) : Host.Outcome State Fault Refusal :=
  .next (s.floatInstr m f (pickNumber true) d a b)

/-- FCMP (R146). -/
def execFcmp (m : Mods) (c : FCond) (d : PReg) (a b : VReg) (s : State) : Host.Outcome State Fault Refusal :=
  let xm := xmOrPlain m
  .next (s.regInstr m [a, b] (lastReads m [a] [b]) fun v t =>
    [.p d (fcompare c ((Fmt.f32.value (v.srcA m t a).toNat).modify xm.absA xm.negA)
      ((Fmt.f32.value (v.srcB m t b).toNat).modify xm.absB xm.negB))])

/-! ### The SFU -/

/-- An SFU instruction begins (R149): long-latency; its source is read when its result is written, or at issue in a
chain group (R98). -/
def State.sfuInstr (s : State) (m : Mods) (f : SfuFn) (d a : VReg) : State :=
  let bu := s.curBundle
  let rel := lastReads m [a] []
  if s.group.isSome then
    s.runReads m [a] rel fun v s t =>
      match s.take t [d] with
      | .error e => (s, e)
      | .ok s1 => (s1.pend bu t v.fresh true false (.regs [.v d (sfuResult f (xmOrPlain m) (v.srcA m t a))]) [], .next)
  else
    (s.releaseIdle m rel).runReads m [] [] fun v s t =>
      match s.take t [d] with
      | .error e => (s, e)
      | .ok s1 => (s1.pend bu t v.fresh true true (.sfu f m d a) rel, .next)

/-- FRCP (R149). -/
def execFrcp (m : Mods) (d a : VReg) (s : State) : Host.Outcome State Fault Refusal := .next (s.sfuInstr m .rcp d a)

/-- FRSQ (R149). -/
def execFrsq (m : Mods) (d a : VReg) (s : State) : Host.Outcome State Fault Refusal := .next (s.sfuInstr m .rsq d a)

/-- FSQRT (R149). -/
def execFsqrt (m : Mods) (d a : VReg) (s : State) : Host.Outcome State Fault Refusal := .next (s.sfuInstr m .sqrt d a)

/-- FEXP2 (R149). -/
def execFexp2 (m : Mods) (d a : VReg) (s : State) : Host.Outcome State Fault Refusal := .next (s.sfuInstr m .exp2 d a)

/-- FLOG2 (R149). -/
def execFlog2 (m : Mods) (d a : VReg) (s : State) : Host.Outcome State Fault Refusal := .next (s.sfuInstr m .log2 d a)

/-- FSIN (R149). -/
def execFsin (m : Mods) (d a : VReg) (s : State) : Host.Outcome State Fault Refusal := .next (s.sfuInstr m .sin d a)

/-- FCOS (R149). -/
def execFcos (m : Mods) (d a : VReg) (s : State) : Host.Outcome State Fault Refusal := .next (s.sfuInstr m .cos d a)

/-- FTANH (R149). -/
def execFtanh (m : Mods) (d a : VReg) (s : State) : Host.Outcome State Fault Refusal := .next (s.sfuInstr m .tanh d a)

/-! ### Rounding, classes and conversions -/

/-- FRND (R147). -/
def execFrnd (m : Mods) (r : Rnd) (d a : VReg) (s : State) : Host.Outcome State Fault Refusal :=
  let xm := xmOrPlain m
  .next (s.unaryInstr m (fun x => frndWord r (modifyWord xm.absA xm.negA x)) d a)

/-- FCLASS (R148). -/
def execFclass (m : Mods) (d a : VReg) (s : State) : Host.Outcome State Fault Refusal :=
  .next (s.unaryInstr m fclassWord d a)

/-- The converted elements of a source field, packed in the destination's containers (R151). -/
def cvtField (df sf : Fmt) (r : Rnd) (satf : Bool) (src : Nat) : Nat :=
  packElems df.container ((List.range (cvtCount sf df)).map fun e =>
    convert sf df r satf (elem sf.container e src % 2 ^ sf.width))

/-- Width of the field of n containers of a format. -/
def cvtBits (sf df f : Fmt) : Nat := cvtCount sf df * f.container

/-- A value put into the field at a position of a word (R151). -/
def putField (w pos x old : Nat) : Nat := old - elem w pos old * 2 ^ (w * pos) + x % 2 ^ w * 2 ^ (w * pos)

/-- CVT (R151). -/
def execCvt (m : Mods) (df sf : Fmt) (r : Rnd) (satf : Bool) (esel : Fin 4) (d a : VReg) (s : State) :
    Host.Outcome State Fault Refusal :=
  let sb := cvtBits sf df sf
  let db := cvtBits sf df df
  let ra := if sf = .i64 then [a, regAt a 1] else [a]
  let part := db < 32
  .next (s.regInstr m (ra ++ if part then [d] else []) (lastReads m ra []) fun v t =>
    let src := if sf = .i64 then (v.srcA2 m t a).toNat
      else if sb < 32 then elem sb esel.val (v.srcA m t a).toNat else (v.srcA m t a).toNat
    let x := cvtField df sf r satf src
    if df = .i64 then pairWrites d (BitVec.ofNat 64 x)
    else if part then [.v d (BitVec.ofNat 32 (putField db esel.val x (v.readV t d).toNat))]
    else [.v d (BitVec.ofNat 32 x)])

/-- F2I (R152): always clamps. -/
def f2iWord (uns : Bool) (xm : XM) (x : Word) : Word :=
  let v := (Fmt.f32.value x.toNat).modify xm.absA xm.negA
  BitVec.ofNat 32 (wrapInt 32 (toIntOf (v.scale xm.k.toInt) (if uns then .n32 else .i32) xm.rnd))

/-- I2F (R152). -/
def i2fWord (uns : Bool) (xm : XM) (x : Word) : Word :=
  let v := Val.ofInt (if uns then (x.toNat : Int) else x.toInt)
  BitVec.ofNat 32 (roundToFormat (v.scale xm.k.toInt) .f32 xm.rnd false)

/-- F2I (R152). -/
def execF2i (m : Mods) (uns : Bool) (d a : VReg) (s : State) : Host.Outcome State Fault Refusal :=
  .next (s.unaryInstr m (f2iWord uns (xmOrPlain m)) d a)

/-- I2F (R152). -/
def execI2f (m : Mods) (uns : Bool) (d a : VReg) (s : State) : Host.Outcome State Fault Refusal :=
  .next (s.unaryInstr m (i2fWord uns (xmOrPlain m)) d a)

/-! ### Dot products -/

/-- FDP4 and FDP8 in one form (R153). -/
def State.dotInstr (s : State) (m : Mods) (fa fb : Fmt) (d a b : VReg) : State :=
  let c := addendReg m d
  let xm := xmOrPlain m
  s.regInstr m [a, b, c] (lastReads3 m [a] [b] [c]) fun v t =>
    [.v d (dotRound (v.readV t c) (elemsOf fa (v.srcA m t a)) (elemsOf fb (v.srcB m t b)) xm.rnd xm.sat)]

/-- FDP4 (R153). -/
def execFdp4 (m : Mods) (aE5 bE5 : Bool) (d a b : VReg) (s : State) : Host.Outcome State Fault Refusal :=
  .next (s.dotInstr m (if aE5 then .e5m2 else .e4m3) (if bE5 then .e5m2 else .e4m3) d a b)

/-- FDP8 (R153). -/
def execFdp8 (m : Mods) (d a b : VReg) (s : State) : Host.Outcome State Fault Refusal := .next (s.dotInstr m .e2m1 .e2m1 d a b)

/-- The exact integer dot product of sub-word elements (R154). -/
def intDot (w : Nat) (ua ub : Bool) (a b : Word) : Int :=
  ((List.range (32 / w)).map fun i =>
    let x := elem w i a.toNat
    let y := elem w i b.toNat
    (if ua then (x : Int) else signedOf w x) * (if ub then (y : Int) else signedOf w y)).sum

/-- IDP4 and IDP8 in one form (R154). -/
def State.intDotInstr (s : State) (m : Mods) (w : Nat) (ua ub : Bool) (d a b : VReg) : State :=
  let c := addendReg m d
  s.regInstr m [a, b, c] (lastReads3 m [a] [b] [c]) fun v t =>
    [.v d (BitVec.ofNat 32 (fitInt (xmOrPlain m).sat 32
      ((v.readV t c).toInt + intDot w ua ub (v.srcA m t a) (v.srcB m t b))))]

/-- IDP4 (R154). -/
def execIdp4 (m : Mods) (ua ub : Bool) (d a b : VReg) (s : State) : Host.Outcome State Fault Refusal :=
  .next (s.intDotInstr m 8 ua ub d a b)

/-- IDP8 (R154). -/
def execIdp8 (m : Mods) (ua ub : Bool) (d a b : VReg) (s : State) : Host.Outcome State Fault Refusal :=
  .next (s.intDotInstr m 4 ua ub d a b)

/-- FSCL (R145): byte 0 of vB is an E8M0 scale. -/
def fsclWord (xm : XM) (a b : Word) : Word :=
  let x := (Fmt.f32.value a.toNat).modify xm.absA xm.negA
  let sc := b.toNat % 256
  BitVec.ofNat 32 (floatResult (if sc = 0xFF then .nan else x.scale ((sc : Int) - 127)) .f32 xm)

/-- FSCL (R145). -/
def execFscl (m : Mods) (d a b : VReg) (s : State) : Host.Outcome State Fault Refusal :=
  .next (s.wordInstr m (fsclWord (xmOrPlain m)) d a b)

end Sys2Proof.Machine
end

