-- ==== Sys2Proof/Machine/MemoryOps.lean ====
section
/-! DEFINITION. LD, ST, ATOM and RED (spec/10 R191 to R198), ATOMC, ATOMW and WAITW (spec/14 R268 to R275), FENCE
(spec/13 R253, R254), and the module's steps that perform accesses and end page walks (R189, R249). -/

namespace Sys2Proof.Machine

/-! ### LD and ST -/

/-- Source registers of a store (R191). -/
def stRegs (sz : StSize) (b : VReg) : List VReg :=
  match sz with
  | .d => regGroup b 2
  | .q => regGroup b 4
  | _ => [b]

/-- The L1 line that an LD will read is kept until the last LD of the thread's clause has read it (R334). -/
def State.pin (s : State) (b : Bundle) (t : Tid) (loc : Loc) (site : Site) (pol : Policy) : State :=
  match loc, site with
  | .mem pa h, .l1 c =>
    if pol = .strm then s else { s with pins := s.pins ++ [⟨c, lineKey h pa, t, b.base, b.next⟩] }
  | _, _ => s

/-- LD (R193). Its sources are read at issue: its last-reads release there, and it holds no SETB flag (R101). -/
def execLd (m : Mods) (sz : LdSize) (pol : Policy) (k : GReg) (d a : VReg) (off : BitVec 24) (s : State) :
    Host.Outcome State Fault Refusal :=
  let bu := s.curBundle
  let n := ldBytes sz
  .next (s.runReads m [a] (lastReads m [a] []) fun v s t =>
    match s.accessAddress t (v.regT t k) (v.offsetOf m t a off.toInt) n n .load .read with
    | (s1, .fail f) => (s1, .trap f)
    | (s1, .walk va) => (s1, .walk va .read)
    | (s1, .ok x) =>
      match s1.take t (ldRegs sz d) with
      | .error f => (s1, f)
      | .ok s2 => ((s2.pin bu t x.loc (s2.siteOf t k x false) pol).pend bu t v.fresh true false
        (.load x.loc (s2.siteOf t k x false) sz pol d) [], .next))

/-- The register group of a store as one value, through the permutation of B (R193). -/
def State.storeData (s : State) (m : Mods) (t : Tid) (rs : List VReg) : Nat :=
  packElems 32 (rs.map fun r => (s.srcB m t r).toNat)

/-- A store or reduction issues: in flight until it is performed (R249). -/
def State.launchFlight (s : State) (t : Tid) (issue : Nat) (g : GReg) (x : Target) (atomic : Bool) (pol : Policy)
    (act : FlightAct) : State :=
  let f : Flight := ⟨s.fresh, t, issue, s.asidOf t, x.va, x.loc, s.siteOf t g x atomic, pol, act, g⟩
  { s with flights := s.flights ++ [f], fresh := s.fresh + 1 }

/-- ST (R193). -/
def execSt (m : Mods) (sz : StSize) (pol : Policy) (k : GReg) (a b : VReg) (off : BitVec 24) (s : State) :
    Host.Outcome State Fault Refusal :=
  let n := stBytes sz
  let rb := stRegs sz b
  .next (s.runReads m (a :: rb) (lastReads m [a] rb) fun v s t =>
    match s.accessAddress t (v.regT t k) (v.offsetOf m t a off.toInt) n n .store .write with
    | (s1, .fail f) => (s1, .trap f)
    | (s1, .walk va) => (s1, .walk va .write)
    | (s1, .ok x) =>
      let data : BitVec 128 := BitVec.ofNat 128 (v.storeData m t rb % 2 ^ (8 * n))
      (s1.launchFlight t v.fresh k x false pol (.store n data), .next))

/-! ### ATOM and RED -/

/-- An ordering releases (R251). -/
def Ord4.releases (o : Ord4) : Bool := o = .rel || o = .acqrel
/-- An ordering acquires. -/
def Ord4.acquires (o : Ord4) : Bool := o = .acq || o = .acqrel

/-- The release part of an atomic (R252): it waits, or what it waited for is written down. -/
def State.releaseAt (s : State) (t : Tid) (rel : Bool) (sc : Scope) : Option State :=
  if !rel then some s else if s.orderClear t sc then some (s.releaseLines t sc) else none

/-- An operand of an atomic: one register, or the pair (R198). -/
def State.atomSrc (s : State) (m : Mods) (t : Tid) (w64 : Bool) (b : VReg) : BitVec 64 :=
  if w64 then s.srcB2 m t b else (s.srcB m t b).zeroExtend 64

/-- The registers of an atomic's operand. -/
def atomRegs (w64 : Bool) (b : VReg) : List VReg := if w64 then regGroup b 2 else [b]

/-- The compare value of cas, from vC (R198). -/
def State.casSrc (s : State) (m : Mods) (t : Tid) (w64 : Bool) : BitVec 64 :=
  match (xmOrPlain m).creg with
  | none => 0
  | some c => if w64 then s.readV t (regAt c 1) ++ s.readV t c else (s.readV t c).zeroExtend 64

/-- The registers of the compare value. -/
def casRegs (m : Mods) (w64 : Bool) : List VReg :=
  match (xmOrPlain m).creg with
  | none => []
  | some c => atomRegs w64 c

/-- An atomic as a visible act (R311): only under an A register. -/
def actOfAtomic (m : Mods) (k : GReg) (a : VReg) (off : Int) (ops : State → Tid → List Word) (v _s : State) (t : Tid) :
    Option Act :=
  if (v.regT t k).kind = .a then
    some ⟨v.srcA m t a :: ops v t, [((v.regT t k).base + v.offsetOf m t a off).toNat], []⟩
  else none

/-- The words of a 64-bit value. -/
def wordsOf (w64 : Bool) (x : BitVec 64) : List Word := if w64 then [x.truncate 32, (x >>> 32).truncate 32] else [x.truncate 32]

/-- ATOM (R198). -/
def execAtom (m : Mods) (ord : Ord4) (k : GReg) (sc : Scope) (op : AtomOp) (w64 : Bool) (d a b : VReg) (off : BitVec 20)
    (s : State) : Host.Outcome State Fault Refusal :=
  let bu := s.curBundle
  let n := if w64 then 8 else 4
  let rb := atomRegs w64 b
  let rc := casRegs m w64
  .next (s.runThreads m (a :: rb ++ rc) (lastReads3 m [a] rb rc)
    (actOfAtomic m k a off.toInt fun v t => wordsOf w64 (v.atomSrc m t w64 b) ++ (if rc.isEmpty then [] else wordsOf w64 (v.casSrc m t w64)))
    (fun s _ => s) fun v s t =>
    match s.accessAddress t (v.regT t k) (v.offsetOf m t a off.toInt) n n .atomic .write with
    | (s1, .fail f) => (s1, .trap f)
    | (s1, .walk va) => (s1, .walk va .write)
    | (s1, .ok x) =>
      match s1.releaseAt t (Ord4.releases ord) sc with
      | none => (s1, .again (.order sc))
      | some s2 =>
        match s2.take t (atomRegs w64 d) with
        | .error f => (s2, f)
        | .ok s3 =>
          let acq := if Ord4.acquires ord then some sc else none
          let what := Pend.atom x.loc x.va (s3.siteOf t k x true) op w64 (v.atomSrc m t w64 b) (v.casSrc m t w64) d acq
          (s3.pend bu t v.fresh true false what [], .next))

/-- RED (R198). -/
def execRed (m : Mods) (ord : Ord4) (k : GReg) (sc : Scope) (op : AtomOp) (w64 : Bool) (a b : VReg) (off : BitVec 20)
    (s : State) : Host.Outcome State Fault Refusal :=
  let n := if w64 then 8 else 4
  let rb := atomRegs w64 b
  .next (s.runThreads m (a :: rb) (lastReads m [a] rb)
    (actOfAtomic m k a off.toInt fun v t => wordsOf w64 (v.atomSrc m t w64 b)) (fun s _ => s) fun v s t =>
    match s.accessAddress t (v.regT t k) (v.offsetOf m t a off.toInt) n n .atomic .write with
    | (s1, .fail f) => (s1, .trap f)
    | (s1, .walk va) => (s1, .walk va .write)
    | (s1, .ok x) =>
      match s1.releaseAt t (Ord4.releases ord) sc with
      | none => (s1, .again (.order sc))
      | some s2 => (s2.launchFlight t v.fresh k x true .norm (.red op w64 (v.atomSrc m t w64 b)), .next))

/-! ### Home-only atomics -/

/-- ATOMC (R273): UNSUPPORTED without feature 2 (R352). -/
def execAtomc (m : Mods) (ord : Ord4) (k : GReg) (addeq : Bool) (task : BitVec 13) (d a b : VReg) (off : BitVec 13)
    (s : State) : Host.Outcome State Fault Refusal :=
  let bu := s.curBundle
  let c := addendReg m d
  if lacks 2 then .next (s.runPlain m fun _ s _ => (s, .trap (Fail.plain cUnsupported 2)))
  else .next (s.runThreads m [a, b, c, d] (lastReads m [a] [b] ++ (if (xmOrPlain m).lc then [c] else []))
    (actOfAtomic m k a off.toInt fun v t => [v.srcB m t b, v.readV t c, v.readV t d]) (fun s _ => s) fun v s t =>
    match s.accessAddress t (v.regT t k) (v.offsetOf m t a off.toInt) 4 4 .homeOnly .write with
    | (s1, .fail f) => (s1, .trap f)
    | (s1, .walk va) => (s1, .walk va .write)
    | (s1, .ok x) =>
      match s1.releaseAt t (Ord4.releases ord) .device with
      | none => (s1, .again (.order .device))
      | some s2 =>
        match s2.take t [d] with
        | .error f => (s2, f)
        | .ok s3 =>
          let what := Pend.atomc x.loc x.va addeq task.toNat (v.srcB m t b) (v.readV t c) (v.readV t d) d (Ord4.acquires ord)
          (s3.pend bu t v.fresh true false what [], .next))

/-- ATOMW (R269). -/
def execAtomw (m : Mods) (ord : Ord4) (k : GReg) (d a b : VReg) (off : BitVec 24) (s : State) :
    Host.Outcome State Fault Refusal :=
  let bu := s.curBundle
  let rb := regGroup b 2
  .next (s.runThreads m (a :: rb) (lastReads m [a] rb)
    (actOfAtomic m k a off.toInt fun v t => rb.map fun r => v.srcB m t r) (fun s _ => s) fun v s t =>
    match s.accessAddress t (v.regT t k) (v.offsetOf m t a off.toInt) 4 4 .homeOnly .write with
    | (s1, .fail f) => (s1, .trap f)
    | (s1, .walk va) => (s1, .walk va .write)
    | (s1, .ok x) =>
      match s1.releaseAt t (Ord4.releases ord) .device with
      | none => (s1, .again (.order .device))
      | some s2 =>
        match s2.take t [d] with
        | .error f => (s2, f)
        | .ok s3 =>
          let what := Pend.atomw x.loc (v.srcB m t b) (v.srcB m t (regAt b 1)) d (Ord4.acquires ord)
          (s3.pend bu t v.fresh true false what [], .next))

/-- The waited words of a slice (R270). -/
def State.waitedWords (s : State) (home slice : Nat) : List Nat :=
  ((s.sleepers.filter fun x => x.home == home && x.slice == slice).map (·.pa)).eraseDups

/-- WAITW (R270): performed at the home when it issues, after the thread's older accesses to the word. -/
def execWaitw (m : Mods) (k : GReg) (tmo : BitVec 4) (d a b : VReg) (off : BitVec 24) (s : State) :
    Host.Outcome State Fault Refusal :=
  .next (s.runReads m [a, b] (lastReads m [a] [b]) fun v s t =>
    match s.accessAddress t (v.regT t k) (v.offsetOf m t a off.toInt) 4 4 .homeOnly .write with
    | (s1, .fail f) => (s1, .trap f)
    | (s1, .walk va) => (s1, .walk va .write)
    | (s1, .ok x) =>
      match x.loc with
      | .bench .. => (s1, .next)
      | .mem pa h =>
        if s1.blocked s1.fresh t s1.fresh x.loc 4 then (s1, .again (.order .core))
        else
          match s1.take t (regGroup d 2) with
          | .error f => (s1, f)
          | .ok s2 =>
            let (s3, o, bad) := s2.readSite (s2.coreOf t) (s2.asidOf t) .home x.loc 4 .norm
            let ret (s : State) (r : Nat) : State :=
              s.writeRegs t [.v d (BitVec.ofNat 32 r), .v (regAt d 1) (BitVec.ofNat 32 o)]
            let slice := sliceOfLine h (lineKey h pa)
            let words := s3.waitedWords (homeNum h) slice
            if bad then (s1, .ue)
            else if BitVec.ofNat 32 o ≠ v.srcB m t b then ((ret s3 0).acquireLines t .device, .next)
            else if !words.contains pa && 256 ≤ words.length then (ret s3 3, .next)
            else
              let limit := if tmo = 15 then none else some (s3.clock + 2 ^ (10 + tmo.toNat))
              let z : Sleeper := ⟨s3.fresh, t, homeNum h, slice, pa, d, limit⟩
              ({ s3 with sleepers := s3.sleepers ++ [z], fresh := s3.fresh + 1 }, .wait (.waitw z.id)))

/-- WAITW_TIMEOUT (R270): the word read at that moment. -/
def execWaitwTimeout (t : Tid) (s : State) : Host.Outcome State Fault Refusal :=
  match s.sleepers.find? fun x => x.tid == t with
  | none => .next s
  | some x =>
    match x.deadline with
    | none => .next s
    | some u =>
      if u ≤ s.clock then .next (s.returnSleeper x 2 (BitVec.ofNat 32 (leNat (readBytes s.mem x.pa 4)))) else .next s

/-! ### FENCE -/

/-- FENCE (R254). A fence that acquires first lets the thread's older loads finish (R250, log 14). -/
def execFence (m : Mods) (ord : FenceOrd) (sc : Scope) (s : State) : Host.Outcome State Fault Refusal :=
  .next (s.runPlain m fun _ s t =>
    let rel := ord != .acq
    let acq := ord != .rel
    match s.releaseAt t rel sc with
    | none => (s, .again (.order sc))
    | some s1 =>
      if acq && s1.pending.any (fun p => p.tid == t && p.what.place.isSome) then (s1, .again .loads)
      else (if acq then s1.acquireLines t sc else s1, .next))

/-! ### Steps of the memory system -/

/-- ACCESS_PERFORMED (R249, R187): an access in flight reaches its site, or a cached line that no LD of a clause still needs
(R334) is written down and dropped. -/
def execAccessPerformed (site : PerformSite) (s : State) : Host.Outcome State Fault Refusal :=
  match site with
  | .access id =>
    match s.flights.find? (·.id == id) with
    | some f => .next (if s.canPerform f then s.performFlight f else s)
    | none => .next s
  | .evictL1 core line => .next (if s.pinned core line then s else s.invalL1 core line)
  | .evictL2 die line => .next (s.invalL2 die line)

/-- A walk slot goes to the oldest waiting miss of the die (R189). -/
def State.nextWalk (s : State) (die : Nat) : State :=
  match s.walks.find? fun w => w.die == die && !w.running with
  | none => s
  | some w => { s with walks := modIf (fun x => x.id == w.id) (fun x => { x with running := true }) s.walks }

/-- The addresses of a bundle that wait for a walk, with what its end leaves of each: nothing, or the failure of the walk or
of the page's permissions (R189). -/
def Bundle.failedBy (b : Bundle) (walk : Nat) (r : Except XlateFail (TlbEntry × Nat)) : List (WalkWait × XlateFail) :=
  (b.walks.filter (·.walk == walk)).filterMap fun x =>
    match r with
    | .error f => some (x, f)
    | .ok (e, lvl) => (useFail e x.use x.sys lvl).map fun f => (x, f)

/-- PAGE_WALK_COMPLETE (R189): the TLBs of the cores that wait are filled, or the failure is kept for the instruction that
needs the page, which issues once all its walks have ended, or for the engine operation. -/
def execPageWalkComplete (walk : Nat) (s : State) : Host.Outcome State Fault Refusal :=
  match s.walks.find? fun w => w.id == walk && w.running with
  | none => .next s
  | some w =>
    let s1 := ({ s with walks := s.walks.filter fun x => x.id != walk } : State).nextWalk w.die
    let r := s1.walkVa w.asid w.va
    let waits (b : Bundle) : Bool := b.walks.any (·.walk == walk)
    let ops := s1.ops.filter fun o => o.walk == some walk
    let s2 : State := match r with
      | .error _ => s1
      | .ok (e, _) => (w.core :: (s1.bundles.filter waits).map (·.core) ++ ops.map (·.core)).eraseDups.foldl (fun s c => s.fillTlb c e) s1
    let bad : Option (Nat × XlateFail) := match r with | .error f => some (w.va / 4096, f) | .ok _ => none
    let s2 : State := { s2 with ops := modIf (fun o => o.walk == some walk) (fun o => { o with walk := none, xfail := bad }) s2.ops }
    let go (b : Bundle) : Bundle := { b with walks := b.walks.filter (·.walk != walk), faults := b.faults ++ b.failedBy walk r }
    .next { s2 with bundles := modIf waits go s2.bundles }

end Sys2Proof.Machine
end

