-- ==== Sys2Proof/Machine/Sync.lean ====
section
/-! DEFINITION. Phase objects (spec/14 R263 to R267) with the shadow a band barrier takes (spec/16 R314), and CSRR, CSRW
and SNAP (R280 to R282). -/

namespace Sys2Proof.Machine

/-! ### Phase objects -/

/-- A phase object (R263). -/
structure Phase where
  bgot : Nat
  bexp : Nat
  gen : Nat
  expect : Nat
  arrived : Nat
  malformed : Bool
  deriving DecidableEq, Repr

/-- The fields of 16 bytes (R263). -/
def Phase.ofNat (x : Nat) : Phase :=
  { bgot := fieldOf x 96 32, bexp := fieldOf x 64 32, gen := fieldOf x 57 7, expect := fieldOf x 32 24,
    arrived := fieldOf x 0 24,
    malformed := fieldOf x 32 24 == 0 || fieldOf x 56 1 != 0 || fieldOf x 24 8 != 0 }

/-- The 16 bytes of a phase object. -/
def Phase.toNat (p : Phase) : Nat :=
  p.arrived + 2 ^ 32 * p.expect + 2 ^ 57 * p.gen + 2 ^ 64 * p.bexp + 2 ^ 96 * p.bgot

/-- Step 1 of PhaseClock (R265). -/
def Phase.arrive (p : Phase) (o : Arrival) : Phase :=
  let p1 := if o.kind = .expect then p else { p with arrived := min (p.arrived + 1) 16777215 }
  if o.kind = .arrive then { p1 with bgot := min (p1.bgot + o.bytes) 0xFFFFFFFF } else p1

/-- The completion test of PhaseClock. -/
def Phase.done (p : Phase) : Bool := p.expect ≤ p.arrived && p.bexp ≤ p.bgot

/-- Step 2 of PhaseClock. -/
def Phase.complete (p : Phase) : Phase :=
  if p.done then
    { p with gen := (p.gen + 1) % 128, arrived := p.arrived - p.expect, bgot := p.bgot - p.bexp, bexp := 0 }
  else p

/-- Step 3 of PhaseClock. -/
def Phase.post (p : Phase) (o : Arrival) : Phase :=
  if o.kind = .arrive then p else { p with bexp := min (p.bexp + o.bytes) 0xFFFFFFFF }

/-- PhaseClock of R265; an ARRIVED that would pass its field stays at the largest (log 49). -/
def Phase.clock (p : Phase) (ops : List Arrival) : Phase :=
  ops.foldl Phase.post (ops.foldl Phase.arrive p).complete

/-- The object at a bench place. -/
def State.phaseAt (s : State) (core off : Nat) : Phase :=
  match s.core? core with
  | some c => Phase.ofNat (leNat (readBytes c.bench off 16))
  | none => Phase.ofNat 0

/-- PhaseCheck of R265 up to the bank: the bench offset of the object. -/
def State.phasePlace (s : State) (t : Tid) (k : GReg) (off : Int) : Except Fail Nat :=
  let r := s.regT t k
  match r.check off 16 .atomic with
  | some f => .error f
  | none =>
    if r.space ≠ .bench then .error ⟨cBorrowAccess, 2, offAddr off⟩
    else
      let va : Int := r.base + off
      if va % 16 != 0 then .error ⟨cAlign, 0, offAddr off⟩
      else .ok va.toNat

/-- The core and local offset of a bench offset of a thread's band. -/
def State.benchPlace (s : State) (t : Tid) (off : Nat) : Nat × Nat := ((s.band? t.band).map fun b => b.benchAt off).getD (0, 0)

/-- What the bank answers (R265): a malformed object traps, a poisoned one is an error (R319). -/
def State.phaseBank (s : State) (core off : Nat) : Option Flow :=
  if s.benchPoisoned core off 16 then some .ue
  else if (s.phaseAt core off).malformed then some (.trap (Fail.plain cIllegal 0x31))
  else none

/-! ### Band barriers -/

/-- Work that keeps a barrier from taking a shadow (R314): engine operations, and rounds signed and not issued. -/
def State.bandBusy (s : State) (b : Nat) : Bool :=
  s.ops.any (fun o => o.tid.band == b) ||
    ((s.band? b).map fun x => x.conv.any fun c => c.rounds || c.signed != 0).getD false

/-- A thread as the shadow keeps it (R314): ready after its BARW. -/
def Thread.shadow (th : Thread) : Thread :=
  match th.status with
  | .exited => th
  | _ => { th with pc := th.npc, status := .ready 0 true }

/-- A shadow becomes the band's rollback point (R314). Pending results and accesses are finished first (log 16). -/
def State.takeShadow (s : State) (b : Nat) (arriving : List Tid) : State :=
  let s1 := s.landBand b
  match s1.band? b with
  | none => s1
  | some x =>
    if x.killed || x.rollCount != ((s.band? b).map (·.rollCount)).getD 0 then s1
    else
      let s2 := s1.modBand b fun y =>
        { y with hasPoint := true, committed := false, undoOver := false, rollbacks := 0 }
      let s3 := arriving.foldl (fun s t => s.modThread t fun th => { th with npc := s.pcOf t }) s2
      match s3.band? b with
      | none => s1
      | some y =>
        let kept : Band := { y with troops := y.troops.map fun tr =>
          { tr with threads := tr.threads.map fun th => Thread.shadow th } }
        let slots := s3.slots.filter fun z => match z.owner with | some (o, _, _) => o == b | none => false
        let die := (y.cores.head?.map dieOf).getD 0
        let sh : Shadow := ⟨kept, s3.saveStores y, [], die, slots, s3.fresh⟩
        { s2 with shadows := s2.shadows.filter (fun z => z.band.id != b) ++ [sh] }

/-- A phase completes while every thread of the band that has not exited waits in BARW on the object or has just
arrived at it: a band barrier (R314, log 16). -/
def State.barrier (s : State) (b core off : Nat) (arriving : List Tid) : State :=
  let waits (t : Tid) : Bool :=
    match s.statusOf t with
    | .exited => true
    | .waiting (.barw o _) => s.benchPlace t o == (core, off)
    | _ => arriving.contains t
  if !(s.bandTids b).all waits then s
  else if s.bandBusy b then
    ({ s with shadows := s.shadows.filter fun z => z.band.id != b } : State).modBand b fun y =>
      { y with hasPoint := false, committed := false, undoOver := false, rollbacks := 0 }
  else s.takeShadow b arriving

/-! ### BARA and BARW -/

/-- Threads that their guard lets act and whose sources are not poisoned. -/
def State.actors (s : State) (m : Mods) (reads : List VReg) : List Tid :=
  (s.curBundle.threads.filter fun t => s.view.guardTrue m t).filter fun t => !reads.any (s.view.poisonedReg t)

/-- What a BARA of a thread comes to before it is applied: its object, or where the thread stays. -/
def State.baraPlace (v s : State) (m : Mods) (t : Tid) (k : GReg) (a : VReg) (off : Int) : Except Flow (Nat × Nat) :=
  match s.phasePlace t k (v.offsetOf m t a off) with
  | .error f => .error (.trap f)
  | .ok x =>
    let (core, o) := s.benchPlace t x
    if !s.orderClear t .band then .error (.again (.order .band))
    else match s.phaseBank core o with
      | some f => .error f
      | none => .ok (core, o)

/-- The BARAs of a clock at one object (R265): PhaseClock, and the barriers it completes. -/
def State.phaseClock (s : State) (p : Nat × Nat) (mine : List ArriveNote) : State :=
  let o := s.phaseAt p.1 p.2
  let arr := mine.map (·.what)
  let s1 := s.modCore p.1 fun c => { c with bench := writeBytes c.bench p.2 (leBytes 16 (o.clock arr).toNat) }
  if (arr.foldl Phase.arrive o).done then
    (mine.map fun e => e.tid.band).eraseDups.foldl (fun s b => s.barrier b p.1 p.2 (mine.map (·.tid))) s1
  else s1

/-- The BARAs of a clock reach their objects, each object's together (R265). -/
def State.applyArrivals (s : State) (ops : List ArriveNote) : State :=
  (ops.map fun e => (e.core, e.off)).eraseDups.foldl (fun s p =>
    s.phaseClock p (ops.filter fun e => (e.core, e.off) == p)) s

/-- BARA (R264, R265, R267): a release at `.band`; the arrival reaches its object in this clock. -/
def execBara (m : Mods) (kind : BaraKind) (k : GReg) (a b : VReg) (off : BitVec 24) (s : State) :
    Host.Outcome State Fault Refusal :=
  .next (s.runReads m [a, b] (lastReads m [a] [b]) fun v s t =>
    match State.baraPlace v s m t k a off.toInt with
    | .ok p =>
      let s1 := s.releaseLines t .band
      ({ s1 with now := { s1.now with arrivals := s1.now.arrivals ++ [⟨t, p.1, p.2, ⟨kind, (v.srcB m t b).toNat⟩⟩] } }, .next)
    | .error f => (s, f))

/-- BARW (R264, R266, R267): waits until the generation differs; its return is an acquire at `.band`. -/
def execBarw (m : Mods) (k : GReg) (a b : VReg) (off : BitVec 24) (s : State) : Host.Outcome State Fault Refusal :=
  .next (s.runReads m [a, b] (lastReads m [a] [b]) fun v s t =>
    match s.phasePlace t k (v.offsetOf m t a off.toInt) with
    | .error f => (s, .trap f)
    | .ok x =>
      let (core, o) := s.benchPlace t x
      if s.blocked s.fresh t s.fresh (.bench core o) 16 then (s, .again (.order .core))
      else match s.phaseBank core o with
        | some f => (s, f)
        | none =>
          let q := (v.srcB m t b).toNat % 128
          if (s.phaseAt core o).gen = q then (s, .wait (.barw x q)) else (s.acquireLines t .band, .next))

/-! ### CSRs and snapshots -/

/-- PRIV of the threads of an issue that are not system software, where their guard holds (R81, R87, R280). -/
def State.needSystem (s : State) (m : Mods) : State :=
  match s.bundle? with
  | none => s
  | some b => s.raiseAll b.pc b.npc 0 ((b.threads.filter fun t => s.view.guardTrue m t && !s.inHandler t).map fun t =>
      (Fail.plain cPriv 0).raised t)

/-- CSRR (R280, R281): ILLEGAL_OP for a number that no block defines. -/
def execCsrr (m : Mods) (d : VReg) (num : BitVec 9) (s : State) : Host.Outcome State Fault Refusal :=
  if (csrAccess num.toNat).isNone then .next (s.trapAll cIllegal 0)
  else .next (s.runPlain m fun _ s t =>
    match s.take t [d] with
    | .error f => (s, f)
    | .ok s1 => (s1.writeV t d (s.csrRead t num.toNat), .next))

/-- CSRW (R280, R281): ILLEGAL_OP for an undefined or read-only number, PRIV in every acting thread for RW mgmt, and
PRIV of other than system software for RW priv (R81, R247). -/
def execCsrw (m : Mods) (mode : CsrMode) (num : BitVec 9) (a : VReg) (s : State) : Host.Outcome State Fault Refusal :=
  let run (s : State) : State := s.runReads m [a] (lastReads m [a] []) fun v s t =>
    (s.csrWrite t mode num.toNat (v.srcA m t a), .next)
  match csrAccess num.toNat with
  | none => .next (s.trapAll cIllegal 0)
  | some .r => .next (s.trapAll cIllegal 0)
  | some .rwMgmt => .next (s.runReads m [] (lastReads m [a] []) fun _ s _ => (s, .trap (Fail.plain cPriv 0)))
  | some .rwPriv => .next (run (s.needSystem m))
  | some .rw => .next (run s)
  | some .w1c => .next (run s)

/-- SNAP (R280, R282): one trigger for an issue in which at least one thread acts. -/
def execSnap (m : Mods) (s : State) : Host.Outcome State Fault Refusal :=
  let s1 := s.needSystem m
  let fire := match s1.bundle? with
    | some b => b.threads.any fun t => s1.view.guardTrue m t
    | none => false
  .next ((if fire then s1.snapTrigger else s1).runPlain m fun _ s _ => (s, .next))

end Sys2Proof.Machine
end

