-- ==== Sys2Proof/Machine/Dispatch.lean ====
section
/-! DEFINITION. One arm for each constructor of Instr. -/

namespace Sys2Proof.Machine

def exec (i : Instr) (s : State) : Host.Outcome State Fault Refusal :=
  match i with
  | .nop => Sys2Proof.Machine.execNop s
  | .bra m cond sense hint off => Sys2Proof.Machine.execBra m cond sense hint off s
  | .brx m hint a => Sys2Proof.Machine.execBrx m hint a s
  | .call m d off => Sys2Proof.Machine.execCall m d off s
  | .ret m a => Sys2Proof.Machine.execRet m a s
  | .join m d => Sys2Proof.Machine.execJoin m d s
  | .leave m d => Sys2Proof.Machine.execLeave m d s
  | .waitm m a => Sys2Proof.Machine.execWaitm m a s
  | .matchKeys m k64 d a b => Sys2Proof.Machine.execMatchKeys m k64 d a b s
  | .vote m form a b => Sys2Proof.Machine.execVote m form a b s
  | .exit m => Sys2Proof.Machine.execExit m s
  | .yield m => Sys2Proof.Machine.execYield m s
  | .trap m n => Sys2Proof.Machine.execTrap m n s
  | .nap m n => Sys2Proof.Machine.execNap m n s
  | .napExpire t => Sys2Proof.Machine.execNapExpire t s
  | .tret m k => Sys2Proof.Machine.execTret m k s
  | .shfl m d a b => Sys2Proof.Machine.execShfl m d a b s
  | .mov m d a => Sys2Proof.Machine.execMov m d a s
  | .movi m d imm => Sys2Proof.Machine.execMovi m d imm s
  | .sel m d a b c => Sys2Proof.Machine.execSel m d a b c s
  | .pmov m form => Sys2Proof.Machine.execPmov m form s
  | .iadd m ty d a b => Sys2Proof.Machine.execIadd m ty d a b s
  | .isub m ty d a b => Sys2Proof.Machine.execIsub m ty d a b s
  | .imul m ty d a b => Sys2Proof.Machine.execImul m ty d a b s
  | .imulh m uns d a b => Sys2Proof.Machine.execImulh m uns d a b s
  | .imad m d a b => Sys2Proof.Machine.execImad m d a b s
  | .imadw m uns d a b => Sys2Proof.Machine.execImadw m uns d a b s
  | .imin m ty d a b => Sys2Proof.Machine.execImin m ty d a b s
  | .imax m ty d a b => Sys2Proof.Machine.execImax m ty d a b s
  | .and m d a b => Sys2Proof.Machine.execAnd m d a b s
  | .or m d a b => Sys2Proof.Machine.execOr m d a b s
  | .xor m d a b => Sys2Proof.Machine.execXor m d a b s
  | .andn m d a b => Sys2Proof.Machine.execAndn m d a b s
  | .shl m pair d a b => Sys2Proof.Machine.execShl m pair d a b s
  | .shr m pair d a b => Sys2Proof.Machine.execShr m pair d a b s
  | .sar m pair d a b => Sys2Proof.Machine.execSar m pair d a b s
  | .rotl m d a b => Sys2Proof.Machine.execRotl m d a b s
  | .popc m d a => Sys2Proof.Machine.execPopc m d a s
  | .clz m d a => Sys2Proof.Machine.execClz m d a s
  | .brev m d a => Sys2Proof.Machine.execBrev m d a s
  | .bfe m sgn d a pos len => Sys2Proof.Machine.execBfe m sgn d a pos len s
  | .bfi m d a b pos len => Sys2Proof.Machine.execBfi m d a b pos len s
  | .lea m d a b sh off => Sys2Proof.Machine.execLea m d a b sh off s
  | .iaddi m d a imm => Sys2Proof.Machine.execIaddi m d a imm s
  | .icmp m c d a b => Sys2Proof.Machine.execIcmp m c d a b s
  | .ncmp m c d a b => Sys2Proof.Machine.execNcmp m c d a b s
  | .plop m op d a b => Sys2Proof.Machine.execPlop m op d a b s
  | .fadd m f d a b => Sys2Proof.Machine.execFadd m f d a b s
  | .fsub m f d a b => Sys2Proof.Machine.execFsub m f d a b s
  | .fmul m f d a b => Sys2Proof.Machine.execFmul m f d a b s
  | .ffma m f d a b => Sys2Proof.Machine.execFfma m f d a b s
  | .fmin m f d a b => Sys2Proof.Machine.execFmin m f d a b s
  | .fmax m f d a b => Sys2Proof.Machine.execFmax m f d a b s
  | .fcmp m c d a b => Sys2Proof.Machine.execFcmp m c d a b s
  | .frcp m d a => Sys2Proof.Machine.execFrcp m d a s
  | .frsq m d a => Sys2Proof.Machine.execFrsq m d a s
  | .fsqrt m d a => Sys2Proof.Machine.execFsqrt m d a s
  | .fexp2 m d a => Sys2Proof.Machine.execFexp2 m d a s
  | .flog2 m d a => Sys2Proof.Machine.execFlog2 m d a s
  | .fsin m d a => Sys2Proof.Machine.execFsin m d a s
  | .fcos m d a => Sys2Proof.Machine.execFcos m d a s
  | .ftanh m d a => Sys2Proof.Machine.execFtanh m d a s
  | .frnd m r d a => Sys2Proof.Machine.execFrnd m r d a s
  | .cvt m df sf r satf esel d a => Sys2Proof.Machine.execCvt m df sf r satf esel d a s
  | .f2i m uns d a => Sys2Proof.Machine.execF2i m uns d a s
  | .i2f m uns d a => Sys2Proof.Machine.execI2f m uns d a s
  | .fclass m d a => Sys2Proof.Machine.execFclass m d a s
  | .fdp4 m aE5 bE5 d a b => Sys2Proof.Machine.execFdp4 m aE5 bE5 d a b s
  | .fdp8 m d a b => Sys2Proof.Machine.execFdp8 m d a b s
  | .idp4 m ua ub d a b => Sys2Proof.Machine.execIdp4 m ua ub d a b s
  | .idp8 m ua ub d a b => Sys2Proof.Machine.execIdp8 m ua ub d a b s
  | .fscl m d a b => Sys2Proof.Machine.execFscl m d a b s
  | .bswz m d a b sel => Sys2Proof.Machine.execBswz m d a b sel s
  | .ld m sz pol k d a off => Sys2Proof.Machine.execLd m sz pol k d a off s
  | .st m sz pol k a b off => Sys2Proof.Machine.execSt m sz pol k a b off s
  | .atom m ord k sc op w64 d a b off => Sys2Proof.Machine.execAtom m ord k sc op w64 d a b off s
  | .red m ord k sc op w64 a b off => Sys2Proof.Machine.execRed m ord k sc op w64 a b off s
  | .atomc m ord k addeq task d a b off => Sys2Proof.Machine.execAtomc m ord k addeq task d a b off s
  | .atomw m ord k d a b off => Sys2Proof.Machine.execAtomw m ord k d a b off s
  | .waitw m k tmo d a b off => Sys2Proof.Machine.execWaitw m k tmo d a b off s
  | .waitwTimeout t => Sys2Proof.Machine.execWaitwTimeout t s
  | .fence m ord sc => Sys2Proof.Machine.execFence m ord sc s
  | .bara m kind k a b off => Sys2Proof.Machine.execBara m kind k a b off s
  | .barw m k a b off => Sys2Proof.Machine.execBarw m k a b off s
  | .csrr m d num => Sys2Proof.Machine.execCsrr m d num s
  | .csrw m mode num a => Sys2Proof.Machine.execCsrw m mode num a s
  | .snap m => Sys2Proof.Machine.execSnap m s
  | .bor m kind nowait d a b => Sys2Proof.Machine.execBor m kind nowait d a b s
  | .reb m toS d a b => Sys2Proof.Machine.execReb m toS d a b s
  | .spl m d a b => Sys2Proof.Machine.execSpl m d a b s
  | .jon m d a => Sys2Proof.Machine.execJon m d a s
  | .rtn m rel a => Sys2Proof.Machine.execRtn m rel a s
  | .btst m c d a => Sys2Proof.Machine.execBtst m c d a s
  | .bqry m f d a => Sys2Proof.Machine.execBqry m f d a s
  | .bwait m a => Sys2Proof.Machine.execBwait m a s
  | .spawn m a task => Sys2Proof.Machine.execSpawn m a task s
  | .spawna m k a b task off => Sys2Proof.Machine.execSpawna m k a b task off s
  | .launch m k a off => Sys2Proof.Machine.execLaunch m k a off s
  | .deviceLaunchCheck id => Sys2Proof.Machine.execDeviceLaunchCheck id s
  | .depcSet m ctr a b task => Sys2Proof.Machine.execDepcSet m ctr a b task s
  | .depcAdd m ctr b => Sys2Proof.Machine.execDepcAdd m ctr b s
  | .depcArrive m ctr => Sys2Proof.Machine.execDepcArrive m ctr s
  | .chwait m => Sys2Proof.Machine.execChwait m s
  | .cpy m tag d sg a b val => Sys2Proof.Machine.execCpy m tag d sg a b val s
  | .cpyComplete op => Sys2Proof.Machine.execCpyComplete op s
  | .gath m d sg a b rb => Sys2Proof.Machine.execGath m d sg a b rb s
  | .gathComplete op => Sys2Proof.Machine.execGathComplete op s
  | .tcpy m dir g a hnd tile bg tag dc tr => Sys2Proof.Machine.execTcpy m dir g a hnd tile bg tag dc tr s
  | .tcpyComplete op => Sys2Proof.Machine.execTcpyComplete op s
  | .nmc m op d sg r fmt a => Sys2Proof.Machine.execNmc m op d sg r fmt a s
  | .nmcComplete op => Sys2Proof.Machine.execNmcComplete op s
  | .cwait m cls n => Sys2Proof.Machine.execCwait m cls n s
  | .copyFault op => Sys2Proof.Machine.execCopyFault op s
  | .trsv m tile af bf blk fills sc soff => Sys2Proof.Machine.execTrsv m tile af bf blk fills sc soff s
  | .trel m a => Sys2Proof.Machine.execTrel m a s
  | .trelZero core tile => Sys2Proof.Machine.execTrelZero core tile s
  | .cset m d a => Sys2Proof.Machine.execCset m d a s
  | .mma m zi dec a tile col ck ru => Sys2Proof.Machine.execMma m zi dec a tile col ck ru s
  | .accrd m df r satf d col nr zr => Sys2Proof.Machine.execAccrd m df r satf d col nr zr s
  | .accwrReg m sf a col nr add => Sys2Proof.Machine.execAccwrReg m sf a col nr add s
  | .accwrTile m tile col row0 add => Sys2Proof.Machine.execAccwrTile m tile col row0 add s
  | .matrixEntryPerform core => Sys2Proof.Machine.execMatrixEntryPerform core s
  | .governorWindow core => Sys2Proof.Machine.execGovernorWindow core s
  | .coll m cross opr fmc lenu npm sg d a => Sys2Proof.Machine.execColl m cross opr fmc lenu npm sg d a s
  | .collInputArrive op got out => Sys2Proof.Machine.execCollInputArrive op got out s
  | .collPartialArrive asid coll step chunk port modnum opr fmt told t w wsat out => Sys2Proof.Machine.execCollPartialArrive asid coll step chunk port modnum opr fmt told t w wsat out s
  | .collDeliver slot bad => Sys2Proof.Machine.execCollDeliver slot bad s
  | .collTimeout slot => Sys2Proof.Machine.execCollTimeout slot s
  | .formationRound core => Sys2Proof.Machine.execFormationRound core s
  | .trapEnter core => Sys2Proof.Machine.execTrapEnter core s
  | .asyncTrapDeliver id => Sys2Proof.Machine.execAsyncTrapDeliver id s
  | .pairActCompare act => Sys2Proof.Machine.execPairActCompare act s
  | .pairwaitTimeout act => Sys2Proof.Machine.execPairwaitTimeout act s
  | .ueDetected site => Sys2Proof.Machine.execUeDetected site s
  | .correctedError core => Sys2Proof.Machine.execCorrectedError core s
  | .kick q target => Sys2Proof.Machine.execKick q target s
  | .queueSlotReread q => Sys2Proof.Machine.execQueueSlotReread q s
  | .kickAheadTimeout q => Sys2Proof.Machine.execKickAheadTimeout q s
  | .nopPacket q => Sys2Proof.Machine.execNopPacket q s
  | .gridPacket q => Sys2Proof.Machine.execGridPacket q s
  | .ctxnew q => Sys2Proof.Machine.execCtxnew q s
  | .ctxkill q => Sys2Proof.Machine.execCtxkill q s
  | .reclaimWalkEnd asid => Sys2Proof.Machine.execReclaimWalkEnd asid s
  | .turnBoundary quad => Sys2Proof.Machine.execTurnBoundary quad s
  | .bandPlace band cores => Sys2Proof.Machine.execBandPlace band cores s
  | .bandSaveComplete band => Sys2Proof.Machine.execBandSaveComplete band s
  | .regsPoolPreempt core => Sys2Proof.Machine.execRegsPoolPreempt core s
  | .sliceQueueDrain slice => Sys2Proof.Machine.execSliceQueueDrain slice s
  | .ringDrain asid => Sys2Proof.Machine.execRingDrain asid s
  | .dreq msg => Sys2Proof.Machine.execDreq msg s
  | .dgrant msg => Sys2Proof.Machine.execDgrant msg s
  | .drefuse msg => Sys2Proof.Machine.execDrefuse msg s
  | .dcancel msg => Sys2Proof.Machine.execDcancel msg s
  | .drel msg => Sys2Proof.Machine.execDrel msg s
  | .drelack msg => Sys2Proof.Machine.execDrelack msg s
  | .rtnWritebackDone ret => Sys2Proof.Machine.execRtnWritebackDone ret s
  | .deedwaitTimeout tag => Sys2Proof.Machine.execDeedwaitTimeout tag s
  | .deedEntryLost home entry => Sys2Proof.Machine.execDeedEntryLost home entry s
  | .dquery msg => Sys2Proof.Machine.execDquery msg s
  | .dhold msg => Sys2Proof.Machine.execDhold msg s
  | .deedRebuildEnd home => Sys2Proof.Machine.execDeedRebuildEnd home s
  | .peerTimeout id => Sys2Proof.Machine.execPeerTimeout id s
  | .troopRetire band troop => Sys2Proof.Machine.execTroopRetire band troop s
  | .bandRetire band => Sys2Proof.Machine.execBandRetire band s
  | .hostRdmaWrite pa bytes => Sys2Proof.Machine.execHostRdmaWrite pa bytes s
  | .hostRdmaRead pa len => Sys2Proof.Machine.execHostRdmaRead pa len s
  | .mgmtRead off size => Sys2Proof.Machine.execMgmtRead off size s
  | .mgmtWrite off size value => Sys2Proof.Machine.execMgmtWrite off size value s
  | .inval ctl => Sys2Proof.Machine.execInval ctl s
  | .snaptrig => Sys2Proof.Machine.execSnaptrig s
  | .snaparm => Sys2Proof.Machine.execSnaparm s
  | .attest nonce => Sys2Proof.Machine.execAttest nonce s
  | .powerOn => Sys2Proof.Machine.execPowerOn s
  | .managementReset => Sys2Proof.Machine.execManagementReset s
  | .bringupStage passed reason => Sys2Proof.Machine.execBringupStage passed reason s
  | .powerWindow watts => Sys2Proof.Machine.execPowerWindow watts s
  | .thermalHalt die temp => Sys2Proof.Machine.execThermalHalt die temp s
  | .patrolScrub bad => Sys2Proof.Machine.execPatrolScrub bad s
  | .linkDown link => Sys2Proof.Machine.execLinkDown link s
  | .longLatencyResult id => Sys2Proof.Machine.execLongLatencyResult id s
  | .accessPerformed site => Sys2Proof.Machine.execAccessPerformed site s
  | .pageWalkComplete walk => Sys2Proof.Machine.execPageWalkComplete walk s
  | .invalComplete id => Sys2Proof.Machine.execInvalComplete id s
  | .peerRequest modnum off op => Sys2Proof.Machine.execPeerRequest modnum off op s

end Sys2Proof.Machine
end

