-- ==== Sys2Proof/Machine/Fetch.lean ====
section
/-! DEFINITION. Instruction fetch and the entry of clauses (spec/05 R71 to R76, R87; spec/06 R93, R96, R98): from a
bundle to the instruction it issues next, or to what keeps it from issuing. -/

namespace Sys2Proof.Machine

/-- What a fetch answers. -/
inductive Fetched where
  | words (ws : List Word)
  | fail (f : Fail)
  | walk (va : Nat)
  /-- a poisoned line (R202) -/
  | ue

/-- Words fetched at addresses, each translated with X and read at its home (R71, R76, R188). -/
def State.fetchWords (s : State) (core asid : Nat) (sys : Bool) : List Nat → State × Fetched
  | [] => (s, .words [])
  | va :: r =>
    match s.translate core asid va .fetch sys with
    | (s1, .fail f) => (s1, .fail f)
    | (s1, .walk) => (s1, .walk va)
    | (s1, .at (.bench ..)) => (s1, .ue)
    | (s1, .at (.mem pa h)) =>
      if s1.poison.contains (lineKey h pa) then (s1, .ue)
      else
        match s1.fetchWords core asid sys r with
        | (s2, .words ws) => (s2, .words (BitVec.ofNat 32 (leNat (s1.homeBytes h pa 4)) :: ws))
        | x => x

/-- A word of the code segment as it stands, without a fetch. -/
def State.peekWord (s : State) (b : Bundle) (sys : Bool) (p : Word) (slot : Nat) : Option Word :=
  match s.translateNow b.core b.asid (codeVa b.cseg p slot) .fetch sys with
  | .ok (.mem pa h) => some (BitVec.ofNat 32 (leNat (s.homeBytes h pa 4)))
  | _ => none

/-- The slot after a slot. -/
def Pc.after (pc : Pc) : Pc :=
  match pc.slot with
  | 0 => ⟨pc.p, 1⟩
  | 1 => ⟨pc.p, 2⟩
  | _ => ⟨pc.p + 1, 0⟩

/-- The slot n slots on. -/
def Pc.plus (pc : Pc) : Nat → Pc
  | 0 => pc
  | n + 1 => (pc.plus n).after

/-- The next instruction from a slot on (R72, R105): the first word that is not NOP, else the next clause. -/
def State.nextInstr (s : State) (b : Bundle) (sys : Bool) : Nat → Pc → Pc
  | 0, pc => pc
  | n + 1, pc =>
    if pc.p = b.next then ⟨b.next, 0⟩
    else
      match s.peekWord b sys pc.p pc.slot.val with
      | some 0#32 => s.nextInstr b sys n pc.after
      | _ => pc

/-- The addresses of the words of n packets from packet p on. -/
def packetVas (cseg : Nat) (p : Word) (n : Nat) : List Nat :=
  ((List.range n).map fun k => (List.range 3).map fun i => codeVa cseg (p + BitVec.ofNat 32 k) i).flatten

/-- A list cut into threes. -/
def inThrees : List Word → List (List Word)
  | a :: b :: c :: r => [a, b, c] :: inThrees r
  | [] => []
  | r => [r]

/-- A clause's words, its header apart, meet R74. -/
def clauseWordsOk (ws : List Word) : Bool :=
  match inThrees ws with
  | (_ :: p) :: r => clauseOk (p :: r)
  | _ => false

/-- What a bundle comes to. -/
inductive Front where
  /-- it issues an instruction, in a state whose current bundle it is -/
  | run (s : State) (i : Instr)
  /-- it issues none: its threads trap or wait -/
  | stop (s : State)

/-- Threads of a bundle trap before an instruction issues (R75, R87, R297). -/
def State.stopTrap (s : State) (pc npc : Pc) (ts : List Tid) (f : Fail) : State :=
  s.raiseAll pc npc 0 (ts.map fun t => f.raised t)

/-- TNPC of a trap that the fetch at a bundle's PC raises (R297). -/
def Bundle.fetchNpc (b : Bundle) : Pc := if b.pc.slot = 0 then ⟨b.pc.p + 1, 0⟩ else b.pc.after

/-- A fetch fails (R71, R189): XLATE in every thread; a PRV page in those that are not system software. -/
def State.stopFetch (s : State) (b : Bundle) (f : Fail) : State :=
  let ts := if f.info.toNat / 16 = 8 then b.threads.filter fun t => !s.inHandler t else b.threads
  s.stopTrap b.pc b.fetchNpc ts f

/-- The threads of a bundle leave it and wait to execute the instruction at its PC once more. -/
def State.stopWait (s : State) (b : Bundle) (ts : List Tid) (w : Wait) : State :=
  ts.foldl (fun s t => (s.leaveBundle t).makeWait t b.pc b.fetchNpc w) s

/-- The bundle's threads all count as system software (R299). -/
def State.bundleSys (s : State) (b : Bundle) : Bool := b.threads.all fun t => s.inHandler t

/-- A bundle whose fetch gave no words. -/
def State.stopAt (s : State) (b : Bundle) : Fetched → State
  | .words _ => s
  | .fail f => s.stopFetch b f
  | .walk va => s.startWalk b va .fetch (s.bundleSys b)
  | .ue => b.threads.head?.elim s fun t => s.consumeUe t

/-- The header of the clause that holds a packet: that packet's slot 0, or the nearest before it, packets counted modulo
2^32 (R71, R73, R74). -/
def State.clauseBase (s : State) (b : Bundle) : Nat → Word → State × Except Fetched (Option (Word × Word))
  | 0, _ => (s, .ok none)
  | n + 1, p =>
    match s.fetchWords b.core b.asid (s.bundleSys b) [codeVa b.cseg p 0] with
    | (s1, .words (w :: _)) =>
      if opOf w = 0x7F then (s1, .ok (some (p, w)))
      else s1.clauseBase b n (p - 1)
    | (s1, x) => (s1, .error x)

/-- TINFO of ILLEGAL_OP for words that do not decode: the counter index for DEPC (R50), else 0. -/
def illegalInfo (ws : List Word) : Nat := if opOf (ws.headD 0) = 0x6B then bitsOf ((ws[1]?).getD 0) 16 16 else 0

/-- The instruction at a PC inside a clause, decoded and issued (R72, R87). -/
def State.frontInstr (s : State) (b : Bundle) : Front :=
  let sys := s.bundleSys b
  let vas := ((List.range 3).filter fun i => b.pc.slot.val ≤ i).map fun i => codeVa b.cseg b.pc.p i
  match s.fetchWords b.core b.asid sys vas with
  | (s1, .words ws) =>
    let n := (instrLen ws).getD 1
    let b1 := { b with words := ws.take n, npc := s1.nextInstr b sys 24 (b.pc.plus n) }
    let s2 : State := (s1.modBundle b.id fun _ => b1)
    match decode ws with
    | some (i, _) =>
      if i.wellFormed then
        let s3 : State := { s2 with
          cur := b.id
          group := match s.group with
            | some g => some g
            | none => if i.mods.chain then some ⟨b.pc, s2.bands, s2.slots⟩ else none }
        .run s3 i
      else .stop (s2.stopTrap b1.pc b1.npc b1.threads (Fail.plain cIllegal 0))
    | none => .stop (s2.stopTrap b1.pc b1.npc b1.threads (Fail.plain cIllegal (illegalInfo ws)))
  | (s1, x) => .stop (s1.stopAt b x)

/-- The entry of a clause (R73 to R75, R93): its checks, then WAIT for each thread. -/
def State.frontClause (s : State) (b : Bundle) (w : Word) : Front :=
  let bad (s : State) : Front := .stop (s.stopTrap b.pc ⟨b.pc.p + 1, 0⟩ b.threads (Fail.plain cClause 0))
  match headerOf w with
  | none => bad s
  | some h =>
    match s.fetchWords b.core b.asid (s.bundleSys b) (packetVas b.cseg b.pc.p h.len) with
    | (s1, .words ws) =>
      if !clauseWordsOk ws then bad s1
      else
        let s2 := b.threads.foldl (fun s t => s.modThread t fun th => { th with entering := false }) s1
        let held := b.threads.filter fun t => s2.flagsSet t h.wait
        let go := b.threads.filter fun t => !s2.flagsSet t h.wait
        let s3 := s2.stopWait b held (.flags h.wait)
        if go.isEmpty then .stop s3
        else
          let b1 : Bundle := { b with
            threads := go, pc := ⟨b.pc.p, 1⟩, base := b.pc.p, next := b.pc.p + BitVec.ofNat 32 h.len,
            seta := h.seta, setb := h.setb }
          (s3.modBundle b.id fun _ => b1).frontInstr b1
    | (s1, x) => .stop (s1.stopAt b x)

/-- A bundle that stands inside a clause (R96): its clause's header gives SETA and SETB. -/
def State.frontInside (s : State) (b : Bundle) : Front :=
  let bad (s : State) : Front := .stop (s.stopTrap b.pc ⟨b.pc.p + 1, 0⟩ b.threads (Fail.plain cClause 0))
  match s.clauseBase b 8 b.pc.p with
  | (s1, .error x) => .stop (s1.stopAt b x)
  | (s1, .ok none) => bad s1
  | (s1, .ok (some (p, w))) =>
    match headerOf w with
    | none => bad s1
    | some h =>
      if h.len ≤ (b.pc.p - p).toNat then bad s1
      else
        let b1 : Bundle := { b with base := p, next := p + BitVec.ofNat 32 h.len, seta := h.seta, setb := h.setb }
        (s1.modBundle b.id fun _ => b1).frontInstr b1

/-- What the bundle comes to next. At slot 0 it enters a clause, or goes on inside one; a thread that enters where no
header stands traps (R75). -/
def State.front (s : State) (b : Bundle) : Front :=
  if b.pc.slot ≠ 0 then s.frontInside b
  else
    match s.fetchWords b.core b.asid (s.bundleSys b) [codeVa b.cseg b.pc.p 0] with
    | (s1, .words (w :: _)) =>
      if opOf w = 0x7F then s1.frontClause b w
      else
        let new := b.threads.filter fun t => ((s1.thread? t).map (·.entering)).getD false
        if new.isEmpty then s1.frontInside b
        else .stop (s1.stopTrap b.pc ⟨b.pc.p + 1, 0⟩ new (Fail.plain cClause 0))
    | (s1, x) => .stop (s1.stopAt b x)

/-- A chain group ends with its last member, or with its bundle (R98); a bundle whose instruction waits for page walks keeps
it until that instruction issues. -/
def State.closeGroup (s : State) (chain : Bool) : State :=
  match s.group, s.bundle? with
  | some g, some b =>
    if b.walks ≠ [] then
      if g.first = b.pc then { s with group := none }
      else { s.modBundle b.id fun x => { x with snap := some g } with group := none }
    else if chain then s else { s with group := none }
  | _, _ => { s with group := none }

/-! ### Issue units and pipes -/

/-- The instructions of the chain group at a slot, as the words stand. -/
def State.groupAt (s : State) (b : Bundle) (sys : Bool) : Nat → Pc → List (Option Pipe)
  | 0, _ => []
  | n + 1, pc =>
    let ws := (List.range 3).filterMap fun i => if pc.slot.val ≤ i then s.peekWord b sys pc.p i else none
    match decode ws with
    | some (i, _) =>
      pipeOf (opOf (ws.headD 0)) ::
        (if i.mods.chain then s.groupAt b sys n (pc.plus ((instrLen ws).getD 1)) else [])
    | none => []

/-- The pipes that a bundle's next chain group needs (R97): at slot 0 of a clause, the group after the header. -/
def State.groupPipes (s : State) (b : Bundle) : List (Option Pipe) :=
  let sys := s.bundleSys b
  let pc := match s.peekWord b sys b.pc.p b.pc.slot.val with
    | some w => if b.pc.slot = 0 && opOf w = 0x7F then b.pc.after else b.pc
    | none => b.pc
  s.groupAt b sys 4 pc

/-- The pipes of the table of R97 that execute a class. -/
def pipeUnits : Pipe → List Nat
  | .va => [0, 1]
  | .sfu => [2]
  | .mem => [3]
  | .eng => [4]
  | .ctl => [5]

/-- The clocks for which an instruction of n threads occupies a pipe (R97). -/
def pipeClocks (p : Pipe) (n : Nat) : Nat := if p = .sfu then max 1 ((n + 15) / 16) else 1

/-- Pipes taken for the instructions of a group, in their order: for each the first free pipe of its class; none where one
finds none (R97). -/
def takePipes (clock n : Nat) (next : List Nat) : List (Option Pipe) → Option (List Nat)
  | [] => some next
  | none :: r => takePipes clock n next r
  | some p :: r =>
    match (pipeUnits p).find? fun i => (next[i]?).getD 0 ≤ clock with
    | some i => takePipes clock n (modAt next i fun _ => clock + pipeClocks p n) r
    | none => none

/-- A bundle's next chain group can issue (R97): its unit has issued nothing in this clock, every pipe it needs is free, and
its instruction does not wait for a page walk. -/
def State.canIssue (s : State) (b : Bundle) : Bool :=
  match s.core? b.core with
  | none => false
  | some c =>
    b.walks.isEmpty && (c.unitNext[b.unit]?).getD 0 ≤ s.clock &&
      (takePipes s.clock b.threads.length c.pipeNext (s.groupPipes b)).isSome

/-- A bundle is the one that its core issues from next: the oldest whose next group can issue (R97). -/
def State.mayIssue (s : State) (b : Bundle) : Bool :=
  match leastBy Bundle.stamp (s.bundles.filter fun x => x.core == b.core && s.canIssue x) with
  | some x => x.id == b.id
  | none => false

/-- The unit and the pipes of a bundle's next chain group are taken (R97). -/
def State.occupy (s : State) (b : Bundle) : State :=
  let ps := s.groupPipes b
  s.modCore b.core fun c => { c with
    unitNext := modAt c.unitNext b.unit fun _ => s.clock + 1
    pipeNext := (takePipes s.clock b.threads.length c.pipeNext ps).getD c.pipeNext }

end Sys2Proof.Machine
end

