-- ==== Sys2Proof/Machine/Settle.lean ====
section
/-! DEFINITION. What follows at once from a step: waits that have ended (spec/06 R93, R94), troop collectives (R109),
engine counters (spec/11 R206), migration (spec/16 R305) and requests to peers (spec/20 R345). -/

namespace Sys2Proof.Machine

/-- The threads of a troop with their status, by lane. -/
def Troop.statuses (x : Troop) : List (Nat × Status) := (List.range x.threads.length).zip (x.threads.map (·.status))

/-- The waiting threads of the resident bands, with what they wait for. -/
def State.waiters (s : State) : List (Tid × Wait) :=
  ((s.bands.filter fun b => b.state == .resident).map fun b =>
    (((List.range b.troops.length).zip b.troops).map fun e =>
      e.2.statuses.filterMap fun x => match x.2 with
        | .waiting w => some (⟨b.id, e.1, x.1⟩, w)
        | _ => none).flatten).flatten

/-- How a wait that has ended goes on. -/
inductive Wake where
  /-- at the instruction after it -/
  | on
  /-- at the instruction itself, which is executed again -/
  | again
  deriving DecidableEq, Repr

/-- A BARW of a thread whose generation has passed (R266). -/
def State.phasePassed (s : State) (t : Tid) (off gen : Nat) : Bool :=
  (s.phaseAt (s.benchPlace t off).1 (s.benchPlace t off).2).gen != gen

/-- Whether a wait has ended, and how its thread goes on (R93). -/
def State.waitOver (s : State) (t : Tid) : Wait → Option Wake
  | .flags m => if s.flagsSet t m then none else some .again
  | .barw o g => if s.phasePassed t o g then some .on else none
  | .region g => if (s.regT t g).state = .pending then none else some .on
  | .borrow g => if (s.regT t g).state = .pending then none else some .on
  | .cwait cls n => if s.countOf t.band t.troop cls ≤ n then some .on else none
  | .chwait ks => if ks.any fun k => s.children.any fun c => c.1 == k then none else some .on
  | .alloc n => if s.alloc t.band t.troop n = .stall then none else some .again
  | .spawn => if s.tasksFull t then none else some .again
  | .trapRoom => if ((s.troop? t.band t.troop).map Troop.room).getD true then some .again else none
  | .returns => if s.returnsDone t then some .again else none
  | .order sc => if s.orderClear t sc then some .again else none
  | .loads => if s.pending.any fun p => p.tid == t && p.what.place.isSome then none else some .again
  | .counter cls => if s.counterFull t cls then none else some .again
  | .signed c =>
    match (s.band? t.band).bind fun b => b.conv[c.val]? with
    | some x => if x.signed = 0 then some .again else none
    | none => some .again
  | .drain g => if s.regBusy t g then none else some .again
  | .tile p => if s.zeroDue (s.coreOf t) p then none else some .on
  | .migrate => if ((s.band? t.band).map (·.mig)).getD false then none else some .again
  | .pair a =>
    match s.pairActs.find? (·.id == a) with
    | some x => if x.passed && !s.second t.band then some .again else none
    | none => some .again
  | _ => none

/-- A wait that has ended ends: the return of BARW is an acquire at `.band` (R267). -/
def State.wake (s : State) (t : Tid) (w : Wait) : State :=
  match s.waitOver t w, s.thread? t with
  | some k, some th =>
    let s1 := match w with | .barw .. => s.acquireLines t .band | _ => s
    s1.makeReady t (if k = .on then th.npc else th.pc)
  | _, _ => s

/-- Waits end in the order of bands, troops and lanes, each on the state that the one before it left. -/
def State.wakeAll (s : State) : State :=
  s.waiters.foldl (fun s e => if s.statusOf e.1 = .waiting e.2 then s.wake e.1 e.2 else s) s

/-- The troops with a thread in a collective. -/
def voting (ws : List (Tid × Wait)) : List (Nat × Nat) :=
  (ws.filterMap fun e => match e.2 with
    | .collective .. => some (e.1.band, e.1.troop)
    | _ => none).eraseDups

/-- The mask unit examines every troop that waits in a collective (R109). -/
def State.examineAll (s : State) : State := (voting s.waiters).foldl (fun s e => s.examineMasks e.1 e.2) s

/-- Counters fall as their oldest operations are complete (R206). -/
def State.retireAll (s : State) : State :=
  (s.ops.map fun o => (o.tid.band, o.tid.troop, o.cls)).eraseDups.foldl (fun s k => s.retireOps k.1 k.2.1 k.2.2) s

/-- Bands marked to migrate go once their event has ended (R305). -/
def State.migrateAll (s : State) : State := (s.bands.filter (·.mig)).foldl (fun s b => s.migrate b) s

/-- The cores with threads outside the Gather Board. -/
def State.overflowCores (s : State) : List Nat :=
  (((s.bands.filter fun b => b.state == .resident).map fun b =>
    (((List.range b.troops.length).zip b.troops).filter fun e =>
      e.2.threads.any fun th => match th.status with | .ready _ false => true | _ => false).map fun e => b.coreOf e.1).flatten).eraseDups

/-- Overflow threads take entries that have become empty (R94). -/
def State.boardAll (s : State) : State := s.overflowCores.foldl (fun s c => s.admitOverflow c) s

/-- A line is still needed by LDs of a clause (R334): its thread stands within the clause, or a load of it is in progress. -/
def State.pinLive (s : State) (p : Pin) : Bool :=
  let pc := s.pcOf p.tid
  (s.statusOf p.tid != .exited && (pc.p - p.base).toNat < (p.next - p.base).toNat && pc != ⟨p.base, 0⟩) ||
    s.pending.any fun q => q.tid == p.tid && (match q.what with | .load (.mem pa h) (.l1 _) .. => lineKey h pa == p.line | _ => false)

/-- Lines that no clause needs any more are kept no longer. -/
def State.unpin (s : State) : State := { s with pins := s.pins.filter s.pinLive }

/-- Everything that follows at once. -/
def State.settle (s : State) : State := ((((s.egressAll.wakeAll.retireAll).migrateAll).boardAll).trackPeers).unpin

/-- What a clock ends with: the rounds that its exits complete issue (R239), its CSETs and its writes of DECAY take effect
(R246), its BARAs reach their objects (R265), the mask units examine their registers (R109), and waits that this ends end. -/
def State.endClock (s : State) : State :=
  let s1 := s.exitRounds s.now.exits.eraseDups
  let s2 := s.now.csets.foldl (fun s n => s.applyCset n) s1
  let s3 := s.now.decays.foldl (fun s e => s.modBand e.1 fun b => { b with decay := e.2 }) s2
  let s4 := (s3.applyArrivals s.now.arrivals).examineAll
  ({ s4 with now := ClockLog.none } : State).wakeAll

/-- The end of a step: what follows at once. -/
def State.finish (s : State) : State := s.settle

end Sys2Proof.Machine
end

