-- ==== Sys2Proof/Machine/Agenda.lean ====
section
/-! DEFINITION. What moves next (log 1): the agenda, and the step's own order where it is empty. -/

namespace Sys2Proof.Machine

/-! ### The steps the module can take by itself -/

/-- The cores with a resident band. -/
def State.busyCores (s : State) : List Nat :=
  ((s.bands.filter fun b => b.state == .resident).map (·.cores)).flatten.eraseDups

/-- The event that takes a message (R177). -/
def Msg.event (m : Msg) : Instr :=
  match m.body with
  | .dreq _ => .dreq m.id
  | .dgrant .. => .dgrant m.id
  | .drefuse .. => .drefuse m.id
  | .dcancel _ => .dcancel m.id
  | .drel .. => .drel m.id
  | .drelack _ => .drelack m.id
  | .dquery .. => .dquery m.id
  | .dhold .. => .dhold m.id

/-- The events that may end an engine operation. -/
def EngOp.events (o : EngOp) : List Instr :=
  match o.work with
  | .cpy .. => [.cpyComplete o.id, .copyFault o.id]
  | .gath .. => [.gathComplete o.id, .copyFault o.id]
  | .tcpy .. => [.tcpyComplete o.id, .copyFault o.id]
  | .nmc .. => [.nmcComplete o.id, .copyFault o.id]
  | .coll .. => [.collInputArrive o.id none none, .copyFault o.id]
  | .matrix => []

/-- Traps and pairs. -/
def State.trapMoves (s : State) : List Instr :=
  s.busyCores.map .trapEnter ++ s.asyncs.map (fun a => .asyncTrapDeliver a.id) ++
    s.pairActs.map (fun a => .pairActCompare a.id)

/-- Accesses and results, oldest first. -/
def State.accessMoves (s : State) : List Instr :=
  (sortBy (fun e => e.1) ((s.flights.map fun f => (f.id, Instr.accessPerformed (.access f.id))) ++
    s.pending.map fun p => (p.id, Instr.longLatencyResult p.id))).map (·.2)

/-- Memory, ownership and engines. -/
def State.memoryMoves (s : State) : List Instr :=
  s.accessMoves ++ s.walks.map (fun w => .pageWalkComplete w.id) ++ s.msgs.map Msg.event ++
    s.returns.map (fun r => .rtnWritebackDone r.id) ++ (s.homes.map fun h => .deedRebuildEnd h.id) ++
    (s.ops.map EngOp.events).flatten ++ s.chunks.map (fun c => .collDeliver c.id []) ++
    s.busyCores.map .matrixEntryPerform ++
    (s.cores.map fun c => c.tileZero.map fun p => Instr.trelZero c.id p).flatten ++
    (s.cores.map fun c => (c.l1.filter fun l => l.strm && l.dirty != 0).map fun l =>
      Instr.accessPerformed (.evictL1 c.id l.line)).flatten ++ s.invals.map (fun i => .invalComplete i.id)

/-- Launches, the front end and retirement. -/
def State.launchMoves (s : State) : List Instr :=
  s.launches.map (fun l => .deviceLaunchCheck l.id) ++ s.packets.map (fun p => .sliceQueueDrain (sliceNum p.home p.slice)) ++
    s.ctxs.map (fun c => .ringDrain c.asid) ++
    (((List.finRange 64).filter fun q => ((s.queue? q.val).map (·.running)).getD false).map fun q =>
      [Instr.nopPacket q, .gridPacket q, .ctxnew q, .ctxkill q, .queueSlotReread q]).flatten ++
    (s.bands.map fun b => ((List.range b.troops.length).map fun t => Instr.troopRetire b.id t) ++ [.bandRetire b.id]).flatten ++
    (s.ctxs.filter fun c => c.kill.isSome).map (fun c => .reclaimWalkEnd c.asid)

/-- The scheduler, and what its time has come. -/
def State.timedMoves (s : State) : List Instr :=
  s.bands.map (fun b => .bandSaveComplete b.id) ++ s.busyCores.map .regsPoolPreempt ++
    (s.waiters.filterMap fun e => match e.2 with | .nap _ => some (Instr.napExpire e.1) | _ => none) ++
    s.sleepers.map (fun x => .waitwTimeout x.tid) ++ (List.finRange 64).map .kickAheadTimeout ++
    (s.homes.map fun h => h.queue.map fun q => Instr.deedwaitTimeout q.tag).flatten ++ s.chunks.map (fun c => .collTimeout c.id) ++
    s.pairActs.map (fun a => .pairwaitTimeout a.id) ++ s.peerReqs.map (fun r => .peerTimeout r.1) ++
    s.busyCores.map .governorWindow ++ (List.finRange 16).map .turnBoundary

/-- An event does something now. -/
def State.enabled (s : State) (i : Instr) : Bool :=
  match exec i s with
  | .next t => t != s
  | _ => false

/-- The first placement that finds room: highest priority and longest waiting first (R54, R57). -/
def State.placeMove (s : State) : Option Instr :=
  let ps := s.effPrios
  let ws := sortBy (fun b => 3 - look 0 b.id ps) (sortBy (fun b => b.waitSince) (s.bands.filter s.waits))
  ws.findSome? fun b =>
    (((List.range Config.quads).findSome? (s.roomFor b)).map fun cs => Instr.bandPlace b.id cs).filter s.enabled

/-- The first step that the module can take by itself, beside formation and issue. -/
def State.nextEvent (s : State) : Option Instr :=
  s.trapMoves.find? s.enabled <|> s.memoryMoves.find? s.enabled <|> s.launchMoves.find? s.enabled <|>
    s.timedMoves.find? s.enabled <|> s.placeMove

/-- The clocks at which something becomes due. -/
def State.deadlines (s : State) : List Nat :=
  (s.waiters.filterMap fun e => match e.2 with | .nap u => some u | _ => none) ++ s.sleepers.filterMap (·.deadline) ++
    (s.queues.filterMap (·.reread)).map (· + 64 * Config.clocksPerUs) ++ (s.homes.map fun h => (h.queue.filter fun q => !q.nowait).map (·.deadline)).flatten ++
    s.chunks.map (·.deadline + 1) ++ (s.pairActs.map fun a => a.deadline + 1) ++ s.peerReqs.map (fun r => r.2.2 + s.peerClocks) ++
    s.quads.map (·.ends) ++ s.cores.map (·.mxNext) ++
      (s.cores.filter fun c => !c.mx.isEmpty).map fun c => c.mgorigin + 256 * (c.mgwindow + 1)

/-- The clocks that may pass at once beside the next: up to the next deadline, and none while a thread is ready. -/
def State.idleClocks (s : State) : Nat :=
  if s.bundles ≠ [] || s.busyCores.any fun c => !(s.formable c).isEmpty then 0
  else
    match leastBy (fun d => d) (s.deadlines.filter fun d => s.clock < d) with
    | some d => d - s.clock - 1
    | none => 0

/-- The clock has not done what it must: a formation round is due (R95), or an issue unit can issue (R97, R103). -/
def State.clockBusy (s : State) : Bool := s.busyCores.any s.formationDue || s.bundles.any s.mayIssue

/-- The step's own order: formation rounds that are due, then the oldest bundle that may issue, then the first event, then
the passing of time. -/
def State.ownMove (s : State) : Move :=
  match s.busyCores.find? s.formationDue with
  | some c => .event (.formationRound c)
  | none =>
    match leastBy Bundle.stamp (s.bundles.filter s.mayIssue) with
    | some b => .issue b.id
    | none => match s.nextEvent with
      | some i => .event i
      | none => .tick s.idleClocks

/-! ### From a move to what is done -/

/-- What a step does: an event or an instruction in a state, or nothing more than a state. -/
inductive Todo where
  | exec (s : State) (i : Instr) (chain : Bool)
  | rest (s : State)

/-- A bundle moves: its next instruction, within the chain group that it goes on with. -/
def State.todoIssue (s : State) (b : Bundle) : Todo :=
  let s0 : State := { s with cur := b.id, group := s.group.or b.snap }
  let b0 : Bundle := { b with snap := none }
  match (s0.modBundle b.id fun _ => b0).front b0 with
  | .run s1 i => .exec s1 i i.mods.chain
  | .stop s1 => .rest (s1.closeGroup false)

/-- Clocks pass, up to n beside the next one, unless the clock has not done what it must (R95, R97). -/
def State.passClocks (s : State) (n : Nat) : State :=
  if s.clockBusy then s
  else
    let s1 := s.endClock
    { s1 with clock := s1.clock + 1 + min n s1.idleClocks }

/-- A move becomes what is done. An encoded instruction is no event: it comes from a fetch alone. A bundle issues only where
it is its core's turn (R97). -/
def State.todoOf (s : State) : Move → Todo
  | .event i => if i.encoded then .rest s else .exec s i false
  | .command c i => if i.encoded then .rest s else .exec { s with cmd := c } i false
  | .issue id => match s.bundles.find? (·.id == id) with
    | some b => if s.mayIssue b then (s.occupy b).todoIssue b else .rest s
    | none => .rest s
  | .tick n => .rest (s.passClocks n)

/-- What ends a halt (R351). -/
def Move.endsHalt : Move → Bool
  | .event .managementReset => true
  | .event .powerOn => true
  | _ => false

/-- What the next step does: a halted module waits for its reset, a chain group in progress goes on, then the agenda,
then the step's own order. -/
def State.todo (s : State) : Todo :=
  match s.group, s.bundle?, s.agenda with
  | some _, some b, _ => if s.dev.halted then .rest { s with group := none } else s.todoIssue b
  | some _, none, _ => .rest { s with group := none }
  | none, _, m :: r =>
    if s.dev.halted && !m.endsHalt then .rest { s with agenda := r } else ({ s with agenda := r } : State).todoOf m
  | none, _, [] => if s.dev.halted then .rest s else s.todoOf s.ownMove

/-- The end of a step. -/
def State.after (s : State) (chain : Bool) : State := (s.closeGroup chain).finish

end Sys2Proof.Machine
end

