-- ==== Sys2Proof/Machine/Boot.lean ====
section
/-! DEFINITION. A program placed from outside (log 3): one instruction where the next step fetches it. -/

namespace Sys2Proof.Machine

/-- The header of a clause of two packets without WAIT, SETA or SETB (R73). -/
def bootHeader : Word := BitVec.ofNat 32 (0x7F * 2 ^ 23 + 15 * 2 ^ 7 + 15 * 2 ^ 3 + 1)

/-- The page that holds the program: VA 0, PA 0, in the far tier, with X. -/
def bootPage : TlbEntry := ⟨0, false, 0, 4096, 0, 2, 0, false, true, false⟩

/-- A live context with ASID 0. -/
def bootCtx : Ctx :=
  { asid := 0, live := true, domain := 0, ptroot := 0, tdtbase := 0, tdtlen := 0, ltbase := 0, ltlen := 0, ringbase := 0,
    fqbase := 0, pendmax := 4096, depbase := 0, depcnt := 0, deedwait := 16, collwait := 16, pairwait := 16, rollmax := 4,
    thentry := 0xFFFFFFFF, thseg := 0, fqhead := 0, fqtail := 0, fqlost := 0, borref := 0, borque := 0, deperr := 0,
    ckcount := 0, cfcount := 0, cseq := 0, peers := [], ring := 0, kill := none }

/-- A band of one troop on core 0, of which lane 0 alone has not exited. -/
def bootBand (id bundle clock : Nat) : Band :=
  let fp : Footprint := ⟨0, 0, 64, 64, true, 0, 0, 0, 0, 0⟩
  let first : Thread := { Thread.start ⟨1, 0⟩ clock with status := .bundled bundle, entering := false }
  let gone : Thread := { Thread.start ⟨1, 0⟩ clock with status := .exited, entering := false }
  let troop : Troop :=
    { tslot := 0, names := [], masks := [], g := List.replicate 8 Region.none, threads := first :: List.replicate 63 gone,
      active := none, entered := false, slot := none, queue := [], sig := BitVec.allOnes 64, acts := 0, killed := false,
      retired := false }
  { newBand id 0 fp 1 1 0 0 clock 0 with
    state := .resident, ncores := 1, cores := [0], residentSince := clock, troops := [troop], benchMap := [[]],
    accMap := [[]], tileMap := [[]], tileEntries := [[]] }

/-- The bundle of that lane at packet 1, slot 0: the oldest of its core. -/
def bootBundle (id band : Nat) : Bundle :=
  { id := id, core := 0, unit := 0, asid := 0, cseg := 0, pc := ⟨1, 0⟩, npc := ⟨1, 0⟩, base := 0, next := 2, seta := 15,
    setb := 15, words := [], threads := [⟨band, 0, 0⟩], stamps := [(⟨band, 0, 0⟩, 0)], walks := [], faults := [], snap := none }

/-- The state with three words placed as a packet that the next step fetches. -/
def State.placeWords (s : State) (ws : List Word) : State :=
  let bytes := ([bootHeader, 0, 0] ++ ws).map fun w => leBytes 4 w.toNat
  let s1 : State := { s with
    dev := { s.dev with devstat := 7, halted := false }
    ctxs := s.ctxs.filter (fun c => c.asid != 0) ++ [bootCtx]
    mem := writeBytes s.mem 0 bytes.flatten
    poison := s.poison.filter (· != 0)
    bands := s.bands ++ [bootBand s.fresh (s.fresh + 1) s.clock]
    bundles := bootBundle (s.fresh + 1) s.fresh :: s.bundles
    fresh := s.fresh + 2, group := none, agenda := .issue (s.fresh + 1) :: s.agenda }
  s1.modCore 0 fun c => { c with tlb := bootPage :: c.tlb, unitNext := [0, 0], pipeNext := [0, 0, 0, 0, 0, 0] }

end Sys2Proof.Machine
end

