-- ==== Sys2Proof/Machine/Step.lean ====
section
/-! DEFINITION. One step of the module, and the placing of one instruction where the next step fetches it. -/

namespace Sys2Proof.Machine

/-- One step. -/
def step (s : State) : Host.Outcome State Fault Refusal :=
  match s.todo with
  | .rest t => .next (t.after false)
  | .exec t i c =>
    match exec i t with
    | .next u => .next (u.after c)
    | .fault r => .fault r
    | .refused r => .refused r

/-- The state with an instruction where the next step fetches it (log 3): its first word in bits 31..0 of `w`. -/
def State.withFetchWord (s : State) (_nbits w : Nat) : State :=
  s.placeWords [BitVec.ofNat 32 w, BitVec.ofNat 32 (w / 2 ^ 32), BitVec.ofNat 32 (w / 2 ^ 64)]

end Sys2Proof.Machine
end

