-- ==== Sys2Proof/Safety.lean ====
section
/-! DEFINITION. The terms in which claims about the module are stated: the canonical form of its memories, an issue that
meets no obstacle, what such an issue leaves, and how its threads go on. -/

namespace Sys2Proof.Machine

/-! ### Memory -/

/-- Home memory and the peers' windows are in canonical form. -/
def State.memOk (s : State) : Prop := Memory.wf s.mem = true ∧ Memory.wf s.peerMem = true

/-- One byte of home memory. -/
def State.byteAt (s : State) (a : Nat) : Byte := look 0 a s.mem

/-- One byte of the peers' windows. -/
def State.peerByteAt (s : State) (a : Nat) : Byte := look 0 a s.peerMem

/-- One byte of a core's bench. -/
def State.benchByteAt (s : State) (core a : Nat) : Byte := ((s.core? core).map fun c => look 0 a c.bench).getD 0

/-! ### An issue without obstacle -/

/-- The names for which threads may have to take a physical register: those that neither have one nor are owed one, and those
the same instruction releases (R64, R66). -/
def State.freshNames (s : State) (ts : List Tid) (dests rel : List VReg) : List VReg :=
  ((ts.map fun t => dests.filter fun r =>
    (s.slotFor t r).isNone && (rel.contains r ||
      (match s.troop? t.band t.troop with
       | some x => !(s.countedNames t.band t.troop x).contains r.val
       | none => false))).flatten).eraseDups

/-- A troop may hold the registers that threads of it need within its admission (R66). -/
def State.hasRoom (s : State) (b t : Nat) (ts : List Tid) (dests rel : List VReg) : Prop :=
  (s.freshNames ts dests rel).length = 0 ∨
    ∀ x, s.band? b = some x → ∀ tr, x.troops[t]? = some tr →
      s.counted b t tr + (s.freshNames ts dests rel).length ≤ x.fp.regs ∧
        s.counted b t tr + (s.freshNames ts dests rel).length ≤ x.fp.adm

/-- A bundle issues a register instruction and nothing is in its way: its threads exist and have distinct lanes (R95),
their sources are not poisoned (R319), and their troops have room for the destinations (R66). -/
structure Issues (s : State) (b : Bundle) (m : Mods) (srcs dests rel : List VReg) : Prop where
  cur : s.bundle? = some b
  lanes : (b.threads.map (·.lane)).Nodup
  threads : ∀ t ∈ b.threads, (s.thread? t).isSome = true
  slots : ∀ t ∈ b.threads, ∀ r c i, s.slotFor t r = some (c, i) → (s.slot? c i).isSome = true
  sound : ∀ t ∈ b.threads, s.view.guardTrue m t = true → ∀ r ∈ srcs, s.view.poisonedReg t r = false
  room : ∀ t ∈ b.threads, s.hasRoom t.band t.troop
    (b.threads.filter fun u => u.band == t.band && u.troop == t.troop && s.view.guardTrue m u) dests rel

/-! ### What a register instruction leaves -/

/-- A thread without what a register instruction or its end may change: its place, its issue state, its predicates. -/
def Thread.bare (th : Thread) : Thread := { th with pc := ⟨0, 0⟩, npc := ⟨0, 0⟩, status := .exited, preds := 0 }

/-- A troop without its registers, its threads bare. -/
def Troop.bare (x : Troop) : Troop := { x with names := [], threads := x.threads.map Thread.bare }

/-- A band with its troops bare. -/
def Band.bare (x : Band) : Band := { x with troops := x.troops.map Troop.bare }

/-- A trap slot without its registers. -/
def TrapSlot.bare (x : TrapSlot) : TrapSlot := { x with regs := [], poison := [] }

/-- A register of a trap slot, in one lane. -/
def State.slotLane (s : State) (core idx reg lane : Nat) : Word :=
  match s.slot? core idx with
  | some sl => look 0 lane (look [] reg sl.regs)
  | none => 0

/-- A thread of the bundle acts: its guard holds (R90). -/
def Bundle.acts (b : Bundle) (s : State) (m : Mods) (t : Tid) : Prop := t ∈ b.threads ∧ s.view.guardTrue m t = true

/-- What the issue of a register instruction leaves, where each acting thread writes what `w` gives it and `rel` are the
last-read releases: the values, and everything that stays. -/
structure RegDone (s u : State) (b : Bundle) (m : Mods) (rel : List VReg) (w : Tid → List RegWrite) : Prop where
  /-- the destinations hold the results, in registers and in predicates -/
  regs : ∀ t, b.acts s m t → ∀ r x, RegWrite.v r x ∈ w t → u.readV t r = x
  preds : ∀ t, b.acts s m t → ∀ r x, RegWrite.p r x ∈ w t → u.readP t r = x
  /-- every lane of every other register of every troop reads as before -/
  keptRegs : ∀ t r, r ∉ rel → ¬ (b.acts s m t ∧ r ∈ writtenRegs (w t) ∧ s.slotFor t r = none) →
    u.troopLane t.band t.troop t.lane r = s.troopLane t.band t.troop t.lane r
  /-- every lane of every register of every trap slot reads as before, but for the v48 to v63 that acting threads in
  handler mode write -/
  keptSlots : ∀ c i k l, (∀ t r, b.acts s m t → r ∈ writtenRegs (w t) → s.slotFor t r = some (c, i) → r.val = 48 + k →
    t.lane ≠ l) → u.slotLane c i k l = s.slotLane c i k l
  /-- every other predicate reads as before -/
  keptPreds : ∀ t r, (b.acts s m t → ∀ x, RegWrite.p r x ∉ w t) → u.readP t r = s.readP t r
  /-- nothing else changes, but for where the threads stand -/
  bands : u.bands.map Band.bare = s.bands.map Band.bare
  slots : u.slots.map TrapSlot.bare = s.slots.map TrapSlot.bare
  rest : u = { s with bands := u.bands, slots := u.slots, bundles := u.bundles }
  /-- inside the clause the bundle goes on at the next instruction -/
  inside : b.npc ≠ ⟨b.next, 0⟩ → u.bundles = modIf (·.id == b.id) (fun x => { x with pc := b.npc, faults := [] }) s.bundles
  /-- at its end every thread leaves the bundle, ready at the next clause, or waiting where that clause names a flag set for it
  in WAIT -/
  atEnd : b.npc = ⟨b.next, 0⟩ → ∀ t ∈ b.threads, ∃ th, u.thread? t = some th ∧ th.pc = b.npc ∧
    ((∃ brd, th.status = .ready s.clock brd) ∨ ∃ k, u.waitAt t b.npc = some k ∧ th.flags &&& k ≠ 0 ∧ th.status = .waiting (.flags k)) ∧
    ∀ x ∈ u.bundles, t ∉ x.threads

/-- An instruction completes as a register instruction: for every issue without obstacle it answers a next state, and
that state is what the writes leave. -/
def CompletesAs (i : Instr) (m : Mods) (srcs dests rel : List VReg) (w : State → Tid → List RegWrite) : Prop :=
  ∀ s b, Issues s b m srcs dests rel → ∃ u, exec i s = .next u ∧ RegDone s u b m rel (w s.view)

/-- Element i of width w of a register (R118). -/
def elemOf (w i : Nat) (x : Word) : BitVec w := x.extractLsb' (w * i) w

/-- The integer result of width w (R136): reduced modulo 2^w, or with SAT clamped to the signed range. -/
def fit (sat : Bool) (w : Nat) (n : Int) : BitVec w :=
  if sat then BitVec.ofInt w (max (-2 ^ (w - 1)) (min (2 ^ (w - 1) - 1) n)) else BitVec.ofInt w n

/-- An instruction completes with one vector register as its destination, whose value is described by a condition on the
state its sources are read from (R98). -/
def CompletesV (i : Instr) (m : Mods) (srcs : List VReg) (d : VReg) (rel : List VReg) (ok : State → Tid → Word → Prop) :
    Prop := ∃ val : State → Tid → Word, (∀ v t, ok v t (val v t)) ∧ CompletesAs i m srcs [d] rel fun v t => [.v d (val v t)]

/-- The same with a register pair. -/
def CompletesV2 (i : Instr) (m : Mods) (srcs : List VReg) (d : VReg) (rel : List VReg)
    (ok : State → Tid → BitVec 64 → Prop) : Prop :=
  ∃ val : State → Tid → BitVec 64, (∀ v t, ok v t (val v t)) ∧
    CompletesAs i m srcs [d, regAt d 1] rel fun v t =>
      [.v d ((val v t).extractLsb' 0 32), .v (regAt d 1) ((val v t).extractLsb' 32 32)]

/-- The same with a predicate. -/
def CompletesP (i : Instr) (m : Mods) (srcs : List VReg) (d : PReg) (rel : List VReg) (ok : State → Tid → Bool) : Prop :=
  CompletesAs i m srcs [] rel fun v t => [.p d (ok v t)]

/-! ### Instructions whose threads act in turn -/

/-- A thread's flag f0 to f11. -/
def State.flagOf (s : State) (t : Tid) (f : Nat) : Bool := ((s.thread? t).map fun th => th.flags.getLsbD f).getD false

/-- Every thread's flags are those that operations in progress hold (R101). -/
def State.flagsOk (s : State) : Prop := ∀ t th, s.thread? t = some th → th.flags = flagsHeld s.holds t

/-- A thread without its place, its issue state, its predicates and its flags. -/
def Thread.idle (th : Thread) : Thread :=
  { th with pc := ⟨0, 0⟩, npc := ⟨0, 0⟩, status := .exited, preds := 0, flags := 0, entering := false }

/-- A troop without its registers' values, its threads idle. -/
def Troop.idle (y : Troop) : Troop := { y with names := [], threads := y.threads.map Thread.idle }

/-- A band with its troops idle. -/
def Band.idle (x : Band) : Band := { x with troops := x.troops.map Troop.idle }

/-- What an issue may change beside where its threads stand: vector registers, predicates and flags by name, a part of
every band, core and die, and the parts of the state that `rest` takes from the state after. -/
structure Touch where
  regs : List VReg := []
  preds : List PReg := []
  flags : List Nat := []
  band : Band → Band := fun x => x
  core : CoreSt → CoreSt := fun c => c
  die : DieSt → DieSt := fun d => d
  rest : State → State → State := fun s u => { s with bands := u.bands, slots := u.slots, bundles := u.bundles }

/-- The frame of an issue: everything that `x` does not name stays. -/
structure Kept (x : Touch) (s u : State) : Prop where
  /-- every lane of every other vector register reads as before -/
  regs : ∀ b t l r, r ∉ x.regs → u.troopLane b t l r = s.troopLane b t l r
  /-- every lane of every other register of a trap slot reads as before -/
  slots : ∀ c i k l, (∀ r ∈ x.regs, r.val ≠ 48 + k) → u.slotLane c i k l = s.slotLane c i k l
  traps : u.slots.map TrapSlot.bare = s.slots.map TrapSlot.bare
  /-- every other predicate reads as before -/
  preds : ∀ t p, p ∉ x.preds → u.readP t p = s.readP t p
  /-- every other flag stands as before -/
  flags : s.flagsOk → u.flagsOk ∧ ∀ t f, f ∉ x.flags → u.flagOf t f = s.flagOf t f
  /-- masks, region registers, trap registers, scheduling records: all else that bands hold -/
  bands : u.bands.map (fun b => x.band b.idle) = s.bands.map fun b => x.band b.idle
  /-- caches, benches, accumulators, tiles, queues, counts: all that cores hold -/
  cores : u.cores.map x.core = s.cores.map x.core
  /-- guest lines, second-level TLBs: all that dies hold -/
  dies : u.dies.map x.die = s.dies.map x.die
  /-- memory and every other part of the state -/
  rest : u = x.rest s u

/-- What beginning a long-latency operation touches: SETA and SETB, and the operations in progress (R100, R101). -/
def Touch.longOp (b : Bundle) : Touch :=
  { flags := [b.seta, b.setb], rest := fun s u =>
    { s with bands := u.bands, slots := u.slots, bundles := u.bundles, pending := u.pending, holds := u.holds, fresh := u.fresh } }

/-- A core without its TLB and its counts. -/
def CoreSt.untimed (c : CoreSt) : CoreSt := { c with tlb := [], counts := [] }

/-- A die without its second-level TLB. -/
def DieSt.untimed (d : DieSt) : DieSt := { d with tlb := [] }

/-- What issuing a memory access touches: beside a long-latency operation's parts the accesses in flight, the TLBs and the
counts of TLB misses (R188, R203, R204). No memory, no bench and no cached line. -/
def Touch.access (b : Bundle) (regs : List VReg) : Touch :=
  { regs := regs, flags := [b.seta, b.setb], core := CoreSt.untimed, die := DieSt.untimed, rest := fun s u =>
    { s with bands := u.bands, slots := u.slots, bundles := u.bundles, pending := u.pending, holds := u.holds, fresh := u.fresh,
             cores := u.cores, dies := u.dies, flights := u.flights } }

/-- A core without what fills and drops of cached lines change: its L1 lines, its TLB and its counts. -/
def CoreSt.cold (c : CoreSt) : CoreSt := { c with l1 := [], tlb := [], counts := [] }

/-- A die without its guest lines and second-level TLB. -/
def DieSt.cold (d : DieSt) : DieSt := { d with l2 := [], tlb := [] }

/-- What caches may do to the state: lines are filled, written down and dropped, and line requests are counted (R185 to
R187, R203). -/
def State.cached (s u : State) : State :=
  { s with mem := u.mem, peerMem := u.peerMem, poison := u.poison, unreturned := u.unreturned, cores := u.cores, dies := u.dies }

/-- Between two states only caches have moved. -/
structure CacheOnly (s u : State) : Prop where
  rest : u = s.cached u
  cores : u.cores.map CoreSt.cold = s.cores.map CoreSt.cold
  dies : u.dies.map DieSt.cold = s.dies.map DieSt.cold

/-- What an issue touches that also releases or acquires: caches move too (R252). -/
def Touch.ordered (b : Bundle) (regs : List VReg) : Touch :=
  { regs := regs, flags := [b.seta, b.setb], core := CoreSt.cold, die := DieSt.cold, rest := fun s u =>
    { s with bands := u.bands, slots := u.slots, bundles := u.bundles, pending := u.pending, holds := u.holds, fresh := u.fresh,
             cores := u.cores, dies := u.dies, flights := u.flights, mem := u.mem, peerMem := u.peerMem, poison := u.poison, unreturned := u.unreturned } }

/-- What issuing an atomic touches: caches move only where it releases. -/
def Touch.atomic (rel : Bool) (b : Bundle) (regs : List VReg) : Touch := if rel then Touch.ordered b regs else Touch.access b regs

/-- A band without the marks of its rollback point (R314 to R316). -/
def Band.unpoint (x : Band) : Band := { x with hasPoint := false, committed := false, undoOver := false }

/-- Two states hold the same bands, but for marks of rollback points, trap slots and flag holds. -/
structure SameThreads (s u : State) : Prop where
  bands : u.bands.map Band.unpoint = s.bands.map Band.unpoint
  slots : u.slots = s.slots
  holds : u.holds = s.holds

/-- What landing a result touches: its registers and last-reads, and the flags its operation held. -/
def Touch.landing (p : Pending) (s : State) (ws : List RegWrite) : Touch :=
  { regs := p.rel ++ writtenRegs ws, flags := (s.holds.filter fun h => h.owner == p.id).map (·.flag),
    rest := fun v u => { v with bands := u.bands, slots := u.slots, holds := u.holds } }

/-- The result of an operation is written: its registers hold it, of its thread's flags those are left that another
operation holds (R101), and beside that the state is `v`. -/
structure Lands (p : Pending) (s v u : State) (ws : List RegWrite) : Prop where
  regs : ∀ r x, RegWrite.v r x ∈ ws → u.readV p.tid r = x
  flags : s.flagsOk → ∀ f, f < 12 → u.flagOf p.tid f = s.holds.any fun h => h.tid == p.tid && h.flag == f && h.owner != p.id
  kept : Kept (Touch.landing p s ws) v u

/-- A thread at its turn in an issue: its last-read releases (R64), then, where its guard holds (R90), its effect, and it
goes where its flow says. -/
def State.turn (v : State) (b : Bundle) (m : Mods) (rel : List VReg) (eff : State → Tid → State × Flow) (u : State)
    (t : Tid) : State :=
  if v.guardTrue m t then (eff (u.release t rel) t).1.follow b t (eff (u.release t rel) t).2 else u.release t rel

/-- Every acting thread of an issue, when its turn comes in lane order, meets `ok`. -/
def State.smooth (v : State) (b : Bundle) (m : Mods) (rel : List VReg) (ok : State → Tid → Prop)
    (eff : State → Tid → State × Flow) : State → List Tid → Prop
  | _, [] => True
  | u, t :: ts => (v.guardTrue m t = true → ok (u.release t rel) t) ∧ v.smooth b m rel ok eff (v.turn b m rel eff u t) ts

/-- An instruction completes: for every bundle, of any threads and guards, in which each acting thread's sources are sound
(R319) and meets `ok`, it answers the state in which each of them has had its effect in lane order and the bundle has gone
on, and nothing has changed but what `touch` names. `ok` and `eff` are given the bundle, the state from which registers
are read (R98), the state at the thread's turn, and the thread. -/
def Completes (i : Instr) (m : Mods) (srcs rel : List VReg) (ok : Bundle → State → State → Tid → Prop)
    (eff : Bundle → State → State → Tid → State × Flow) (touch : Bundle → Touch) : Prop :=
  ∀ s b, s.bundle? = some b →
    s.view.smooth b m rel (fun w t => (∀ r ∈ srcs, s.view.poisonedReg t r = false) ∧ ok b s.view w t) (eff b s.view) s
      b.threads →
    ∃ u, exec i s = .next u ∧ u = (b.threads.foldl (s.view.turn b m rel (eff b s.view)) s).finishIssue b [] [] ∧
      Kept (touch b) s u

/-- The same for an instruction that needs `need` of the whole issue (a mode in every thread of the bundle, R87), acts once for
the issue before its threads do (`pre`), or once after them (`post`). -/
def CompletesOnce (need : Bundle → State → Prop) (pre post : Bundle → State → State) (i : Instr) (m : Mods)
    (srcs rel : List VReg) (ok : Bundle → State → State → Tid → Prop)
    (eff : Bundle → State → State → Tid → State × Flow) (touch : Bundle → Touch) : Prop :=
  ∀ s b, s.bundle? = some b → need b s →
    s.view.smooth b m rel (fun w t => (∀ r ∈ srcs, s.view.poisonedReg t r = false) ∧ ok b s.view w t) (eff b s.view) (pre b s)
      b.threads →
    ∃ u, exec i s = .next u ∧
      u = post b ((b.threads.foldl (s.view.turn b m rel (eff b s.view)) (pre b s)).finishIssue b [] []) ∧ Kept (touch b) s u

/-- What issuing a command touches: the operations in progress, and the rollback point where the command commits (R206,
R316). -/
def Touch.command (regs : List VReg) : Touch :=
  { regs := regs, band := Band.unpoint, rest := fun s u =>
    { s with bands := u.bands, slots := u.slots, bundles := u.bundles, ops := u.ops, fresh := u.fresh, shadows := u.shadows } }

/-- A band without its region registers, and without the marks of its rollback point. -/
def Band.unborrowed (x : Band) : Band := { x.unpoint with g := [], troops := x.troops.map fun y => { y with g := [] } }

/-- What borrowing and returning touch: region registers, requests and returns, families and messages, and the rollback
point where a return commits (R161, R170 to R176, R316). -/
def Touch.borrow (regs : List VReg) (flags : List Nat) : Touch :=
  { regs := regs, flags := flags, band := Band.unborrowed, rest := fun s u =>
    { s with bands := u.bands, slots := u.slots, bundles := u.bundles, holds := u.holds, fresh := u.fresh, ctxs := u.ctxs,
             borrows := u.borrows, msgs := u.msgs, families := u.families, returns := u.returns, shadows := u.shadows } }

/-- A command of a thread is in progress from now on (R206). -/
def State.started (s : State) (t : Tid) (pc : Pc) (cls : OpClass) (regs : List GReg) (hnd : Nat) (work : OpWork) : State :=
  let o : EngOp :=
    { id := s.fresh, tid := t, pc := pc, core := s.coreOf t, asid := s.asidOf t, cls := cls, work := work, sys := s.inHandler t,
      regs := regs, ranges := work.ranges, hnd := hnd, state := .running, egress := none, sent := false, walk := none,
      xfail := none, old := [], diff := none, peerDown := false }
  { s with ops := s.ops ++ [o], fresh := s.fresh + 1 }

end Sys2Proof.Machine
end

