-- ==== Sys2Proof/Certificates/Slice0/Obligations.lean ====
section
/-! DEFINITION. The statements about the model, for the provers. -/

open Sys2Proof Sys2Proof.Machine

/-! ### Register instructions (spec/08) -/

/-- R138, R132: MOV, MOVI, SEL and PMOV in all their forms complete, write what they are given, and leave everything else. -/
def Obligations.MovesComplete : Prop :=
  (∀ m d a, CompletesV (.mov m d a) m [a] d (lastReads m [a] []) fun v t x => x = v.srcA m t a) ∧
  (∀ m d imm, CompletesV (.movi m d imm) m [] d [] fun _ _ x => x = imm) ∧
  (∀ m d a b c, CompletesV (.sel m d a b c) m [a, b] d (lastReads m [a] [b]) fun v t x =>
    x = if v.readP t c then v.srcA m t a else v.srcB m t b) ∧
  (∀ m d a, CompletesP (.pmov m (.pp d a)) m [] d [] fun v t => v.readP t a) ∧
  (∀ m d a, CompletesP (.pmov m (.nz d a)) m [a] d (lastReads m [a] []) fun v t => decide (v.srcA m t a ≠ 0)) ∧
  (∀ m d a, CompletesV (.pmov m (.toV d a)) m [] d [] fun v t x => x = if v.readP t a then 1 else 0) ∧
  (∀ m d, CompletesP (.pmov m (.clr d)) m [] d [] fun _ _ => false) ∧
  ∀ m d, CompletesP (.pmov m (.set d)) m [] d [] fun _ _ => true

/-- R140, R136: IADD, ISUB and IMUL on words and on packed elements: every element of the result is the exact sum,
difference or product of the signed elements, wrapped, or clamped with SAT. -/
def Obligations.ElementArithmetic : Prop := ∀ m ty d a b, ty ≠ IntTy.i64 →
  let w := IntTy.bits ty
  let is (f : Int → Int → Int) (v : State) (t : Tid) (x : Word) : Prop := ∀ i, i < 32 / w →
    elemOf w i x = fit (xmOrPlain m).sat w (f (elemOf w i (v.srcA m t a)).toInt (elemOf w i (v.srcB m t b)).toInt)
  CompletesV (.iadd m ty d a b) m [a, b] d (lastReads m [a] [b]) (is fun x y => x + y) ∧
  CompletesV (.isub m ty d a b) m [a, b] d (lastReads m [a] [b]) (is fun x y => x - y) ∧
  CompletesV (.imul m ty d a b) m [a, b] d (lastReads m [a] [b]) (is fun x y => x * y)

/-- R140, R136: the 64-bit forms of IADD, ISUB and IMUL on register pairs. -/
def Obligations.PairArithmetic : Prop := ∀ m d a b,
  let srcs := [a, regAt a 1, b, regAt b 1]
  let rel := lastReads m [a, regAt a 1] [b, regAt b 1]
  let is (f : Int → Int → Int) (v : State) (t : Tid) (x : BitVec 64) : Prop :=
    x = fit (xmOrPlain m).sat 64 (f (v.srcA2 m t a).toInt (v.srcB2 m t b).toInt)
  CompletesV2 (.iadd m .i64 d a b) m srcs d rel (is fun x y => x + y) ∧
  CompletesV2 (.isub m .i64 d a b) m srcs d rel (is fun x y => x - y) ∧
  CompletesV2 (.imul m .i64 d a b) m srcs d rel (is fun x y => x * y)

/-- R140: IMULH, IMAD, IMADW and IADDI: the high word of the exact product, the fused sums with their addend (vC or vD, and
the destination pair), and the sum with an immediate. -/
def Obligations.WideArithmetic : Prop :=
  (∀ m d a b, CompletesV (.imulh m false d a b) m [a, b] d (lastReads m [a] [b]) fun v t x =>
    x = (BitVec.ofInt 64 ((v.srcA m t a).toInt * (v.srcB m t b).toInt)).extractLsb' 32 32) ∧
  (∀ m d a b, CompletesV (.imulh m true d a b) m [a, b] d (lastReads m [a] [b]) fun v t x =>
    x = (BitVec.ofNat 64 ((v.srcA m t a).toNat * (v.srcB m t b).toNat)).extractLsb' 32 32) ∧
  (∀ m d a b, CompletesV (.imad m d a b) m [a, b, addendReg m d] d (lastReads3 m [a] [b] [addendReg m d]) fun v t x =>
    x = fit (xmOrPlain m).sat 32
      ((v.srcA m t a).toInt * (v.srcB m t b).toInt + (v.readV t (addendReg m d)).toInt)) ∧
  (∀ m d a b, CompletesV2 (.imadw m false d a b) m [a, b, d, regAt d 1] d (lastReads m [a] [b]) fun v t x =>
    x = v.readV t (regAt d 1) ++ v.readV t d + BitVec.ofInt 64 ((v.srcA m t a).toInt * (v.srcB m t b).toInt)) ∧
  (∀ m d a b, CompletesV2 (.imadw m true d a b) m [a, b, d, regAt d 1] d (lastReads m [a] [b]) fun v t x =>
    x = v.readV t (regAt d 1) ++ v.readV t d + BitVec.ofNat 64 ((v.srcA m t a).toNat * (v.srcB m t b).toNat)) ∧
  ∀ m d a imm, CompletesV (.iaddi m d a imm) m [a] d (lastReads m [a] []) fun v t x =>
    x = fit (xmOrPlain m).sat 32 ((v.srcA m t a).toInt + imm.toInt)

/-- R141: IMIN and IMAX in every form: each element of the result is the lesser or greater of the two elements, in the
signed order or, for the N forms, in the unsigned one. -/
def Obligations.MinMaxElements : Prop := ∀ m ty d a b,
  let w := (MinTy.shape ty).1
  let is (f : Int → Int → Int) (g : Nat → Nat → Nat) (v : State) (t : Tid) (x : Word) : Prop := ∀ i, i < 32 / w →
    let p := elemOf w i (v.srcA m t a)
    let q := elemOf w i (v.srcB m t b)
    if (MinTy.shape ty).2 then (elemOf w i x).toNat = g p.toNat q.toNat else (elemOf w i x).toInt = f p.toInt q.toInt
  CompletesV (.imin m ty d a b) m [a, b] d (lastReads m [a] [b]) (is (fun x y => min x y) fun x y => min x y) ∧
  CompletesV (.imax m ty d a b) m [a, b] d (lastReads m [a] [b]) (is (fun x y => max x y) fun x y => max x y)

/-- R141: the logic instructions, bit by bit, and the rotation. -/
def Obligations.LogicWords : Prop := ∀ m d a b,
  let of (f : Word → Word → Word) (v : State) (t : Tid) (x : Word) : Prop := x = f (v.srcA m t a) (v.srcB m t b)
  CompletesV (.and m d a b) m [a, b] d (lastReads m [a] [b]) (of fun x y => x &&& y) ∧
  CompletesV (.or m d a b) m [a, b] d (lastReads m [a] [b]) (of fun x y => x ||| y) ∧
  CompletesV (.xor m d a b) m [a, b] d (lastReads m [a] [b]) (of fun x y => x ^^^ y) ∧
  CompletesV (.andn m d a b) m [a, b] d (lastReads m [a] [b]) (of fun x y => x &&& ~~~y) ∧
  CompletesV (.rotl m d a b) m [a, b] d (lastReads m [a] [b]) (of fun x y => x.rotateLeft y.toNat)

/-- R141: the shifts of words and of pairs: the amount is unsigned, and from the width on SHL and SHR leave 0 and SAR the
sign. -/
def Obligations.Shifts : Prop := ∀ m d a b,
  let n (v : State) (t : Tid) : Nat := (v.srcB m t b).toNat
  let rel := lastReads m [a, regAt a 1] [b]
  let srcs := [a, regAt a 1, b]
  CompletesV (.shl m false d a b) m [a, b] d (lastReads m [a] [b]) (fun v t x =>
    x = if 32 ≤ n v t then 0 else v.srcA m t a <<< n v t) ∧
  CompletesV (.shr m false d a b) m [a, b] d (lastReads m [a] [b]) (fun v t x =>
    x = if 32 ≤ n v t then 0 else v.srcA m t a >>> n v t) ∧
  CompletesV (.sar m false d a b) m [a, b] d (lastReads m [a] [b]) (fun v t x => ∀ i, i < 32 →
    x.getLsbD i = if i + n v t < 32 then (v.srcA m t a).getLsbD (i + n v t) else (v.srcA m t a).msb) ∧
  CompletesV2 (.shl m true d a b) m srcs d rel (fun v t x => x = if 64 ≤ n v t then 0 else v.srcA2 m t a <<< n v t) ∧
  CompletesV2 (.shr m true d a b) m srcs d rel (fun v t x => x = if 64 ≤ n v t then 0 else v.srcA2 m t a >>> n v t) ∧
  CompletesV2 (.sar m true d a b) m srcs d rel (fun v t x => ∀ i, i < 64 →
    x.getLsbD i = if i + n v t < 64 then (v.srcA2 m t a).getLsbD (i + n v t) else (v.srcA2 m t a).msb)

/-- R141: POPC counts the set bits, CLZ finds the first set bit from the top (32 for 0), BREV reverses the bits. -/
def Obligations.BitCounts : Prop := ∀ m d a,
  CompletesV (.popc m d a) m [a] d (lastReads m [a] []) (fun v t x =>
    x.toNat = (List.finRange 32).countP fun i => (v.srcA m t a).getLsbD i.val) ∧
  CompletesV (.clz m d a) m [a] d (lastReads m [a] []) (fun v t x =>
    x.toNat ≤ 32 ∧ (∀ i, 32 - x.toNat ≤ i → (v.srcA m t a).getLsbD i = false) ∧
      (x.toNat < 32 → (v.srcA m t a).getLsbD (31 - x.toNat) = true)) ∧
  CompletesV (.brev m d a) m [a] d (lastReads m [a] []) fun v t x => ∀ i, i < 32 → x.getLsbD i = (v.srcA m t a).getLsbD (31 - i)

/-- R142: BFE, BFI and LEA by bits: the field extracted with zeros or its sign above it, the field inserted with the rest of
A kept, and the sum of A, B shifted and the signed offset. -/
def Obligations.BitFields : Prop :=
  (∀ m sgn d a pos len, CompletesV (.bfe m sgn d a pos len) m [a] d (lastReads m [a] []) fun v t x => ∀ i, i < 32 →
    x.getLsbD i = if i < len.val then (v.srcA m t a).getLsbD (pos.val + i)
      else sgn && decide (0 < len.val) && (v.srcA m t a).getLsbD (pos.val + len.val - 1)) ∧
  (∀ m d a b pos len, CompletesV (.bfi m d a b pos len) m [a, b] d (lastReads m [a] [b]) fun v t x => ∀ i, i < 32 →
    x.getLsbD i = if pos.val ≤ i ∧ i < pos.val + len.val then (v.srcB m t b).getLsbD (i - pos.val)
      else (v.srcA m t a).getLsbD i) ∧
  ∀ m d a b sh off, CompletesV (.lea m d a b sh off) m [a, b] d (lastReads m [a] [b]) fun v t x =>
    x = v.srcA m t a + (v.srcB m t b <<< sh.val) + off.signExtend 32

/-- R155: every byte of BSWZ by its selector: a byte of B : A, zero, that byte's sign, or all ones. -/
def Obligations.ByteSwizzle : Prop := ∀ m d a b sel,
  CompletesV (.bswz m d a b sel) m [a, b] d (lastReads m [a] [b]) fun v t x => ∀ k, k < 4 →
    let q := (sel.extractLsb' (5 * k) 5).toNat
    let y : BitVec 8 := (v.srcB m t b ++ v.srcA m t a).extractLsb' (8 * (q % 8)) 8
    elemOf 8 k x = if q < 8 then y else if q < 16 then 0 else if q < 24 then (if y.msb then 0xFF else 0) else 0xFF

/-- R143: ICMP compares as signed words, NCMP as unsigned ones; PLOP combines two predicates. -/
def Obligations.Predicates : Prop :=
  (∀ m c d a b, CompletesP (.icmp m c d a b) m [a, b] d (lastReads m [a] [b]) fun v t =>
    let x := v.srcA m t a
    let y := v.srcB m t b
    match c with
    | .eq => x == y | .ne => x != y | .lt => x.slt y | .le => x.sle y | .gt => y.slt x | .ge => y.sle x) ∧
  (∀ m c d a b, CompletesP (.ncmp m c d a b) m [a, b] d (lastReads m [a] [b]) fun v t =>
    let x := v.srcA m t a
    let y := v.srcB m t b
    match c with
    | .eq => x == y | .ne => x != y | .lt => x.ult y | .le => x.ule y | .gt => y.ult x | .ge => y.ule x) ∧
  ∀ m o d a b, CompletesP (.plop m o d a b) m [] d [] fun v t =>
    let x := v.readP t a
    let y := v.readP t b
    match o with
    | .and => x && y | .or => x || y | .xor => xor x y | .andn => x && !y | .orn => x || !y | .nand => !(x && y)
    | .nor => !(x || y) | .xnor => !(xor x y)

/-- R145, R134, R135: FADD, FSUB, FMUL, FMIN, FMAX and FFMA: each element is FloatResult of the exact value of the modified
elements, so that it is rounded once. -/
def Obligations.FloatElements : Prop := ∀ m f d a b,
  let g := floatFmt f
  let xm := xmOrPlain m
  let fa (v : State) (t : Tid) (i : Nat) : Val := (g.value (elemOf g.width i (v.srcA m t a)).toNat).modify xm.absA xm.negA
  let fb (v : State) (t : Tid) (i : Nat) : Val := (g.value (elemOf g.width i (v.srcB m t b)).toNat).modify xm.absB xm.negB
  let fc (v : State) (t : Tid) (i : Nat) : Val := g.value (elemOf g.width i (v.readV t (addendReg m d))).toNat
  let is (op : State → Tid → Nat → Val) (v : State) (t : Tid) (x : Word) : Prop := ∀ i, i < 32 / g.width →
    elemOf g.width i x = BitVec.ofNat g.width (floatResult (op v t i) g xm)
  CompletesV (.fadd m f d a b) m [a, b] d (lastReads m [a] [b]) (is fun v t i => (fa v t i).add xm.rnd (fb v t i)) ∧
  CompletesV (.fsub m f d a b) m [a, b] d (lastReads m [a] [b]) (is fun v t i => (fa v t i).add xm.rnd (fb v t i).neg) ∧
  CompletesV (.fmul m f d a b) m [a, b] d (lastReads m [a] [b]) (is fun v t i => (fa v t i).mul (fb v t i)) ∧
  CompletesV (.fmin m f d a b) m [a, b] d (lastReads m [a] [b]) (is fun v t i => pickNumber false (fa v t i) (fb v t i)) ∧
  CompletesV (.fmax m f d a b) m [a, b] d (lastReads m [a] [b]) (is fun v t i => pickNumber true (fa v t i) (fb v t i)) ∧
  CompletesV (.ffma m f d a b) m [a, b, addendReg m d] d (lastReads3 m [a] [b] [addendReg m d])
    (is fun v t i => ((fa v t i).mul (fb v t i)).add xm.rnd (fc v t i))

/-- R146, R145, R147, R148: FCMP, FSCL, FRND and FCLASS. -/
def Obligations.FloatWords : Prop :=
  (∀ m c d a b, CompletesP (.fcmp m c d a b) m [a, b] d (lastReads m [a] [b]) fun v t =>
    fcompare c ((Fmt.f32.value (v.srcA m t a).toNat).modify (xmOrPlain m).absA (xmOrPlain m).negA)
      ((Fmt.f32.value (v.srcB m t b).toNat).modify (xmOrPlain m).absB (xmOrPlain m).negB)) ∧
  (∀ m d a b, CompletesV (.fscl m d a b) m [a, b] d (lastReads m [a] [b]) fun v t x =>
    let y := (Fmt.f32.value (v.srcA m t a).toNat).modify (xmOrPlain m).absA (xmOrPlain m).negA
    let sc := (elemOf 8 0 (v.srcB m t b)).toNat
    x = BitVec.ofNat 32 (floatResult (if sc = 255 then .nan else y.scale ((sc : Int) - 127)) .f32 (xmOrPlain m))) ∧
  (∀ m r d a, CompletesV (.frnd m r d a) m [a] d (lastReads m [a] []) fun v t x =>
    let y := modifyWord (xmOrPlain m).absA (xmOrPlain m).negA (v.srcA m t a)
    match Fmt.f32.value y.toNat with
    | .nan => x = 0x7FC00000
    | .inf _ => x = y
    | .fin n k e => if k = 0 then x = y else (Fmt.f32.value x.toNat).cmp (.fin n (roundTo r n k e 0) 0) = some .eq ∧ x.msb = n) ∧
  ∀ m d a, CompletesV (.fclass m d a) m [a] d (lastReads m [a] []) fun v t x =>
    let y := v.srcA m t a
    let ex := (y.extractLsb' 23 8).toNat
    let mn := (y.extractLsb' 0 23).toNat
    x = if ex = 255 then (if mn ≠ 0 then 0x100 else if y.msb then 0x001 else 0x080)
      else if ex = 0 then (if mn = 0 then (if y.msb then 0x008 else 0x010) else if y.msb then 0x004 else 0x020)
      else if y.msb then 0x002 else 0x040

/-- R151, R152: F2I, I2F and CVT. A CVT converts each element of the selected source field into the selected field of the
destination, and leaves the rest of a destination word that it does not fill. -/
def Obligations.Conversions : Prop :=
  (∀ m u d a, CompletesV (.f2i m u d a) m [a] d (lastReads m [a] []) fun v t x =>
    let xm := xmOrPlain m
    let y := ((Fmt.f32.value (v.srcA m t a).toNat).modify xm.absA xm.negA).scale xm.k.toInt
    x = BitVec.ofInt 32 (toIntOf y (if u then .n32 else .i32) xm.rnd)) ∧
  (∀ m u d a, CompletesV (.i2f m u d a) m [a] d (lastReads m [a] []) fun v t x =>
    let n : Int := if u then ((v.srcA m t a).toNat : Int) else (v.srcA m t a).toInt
    x = BitVec.ofNat 32 (roundToFormat ((Val.ofInt n).scale (xmOrPlain m).k.toInt) .f32 (xmOrPlain m).rnd false)) ∧
  ∀ m df sf r satf esel d a, Instr.wellFormed (.cvt m df sf r satf esel d a) = true →
    let ra := if sf = .i64 then [a, regAt a 1] else [a]
    let part := cvtBits sf df df < 32
    let src (v : State) (t : Tid) : BitVec 64 := if sf = .i64 then v.srcA2 m t a else (v.srcA m t a).zeroExtend 64
    let sel := if cvtBits sf df sf < 32 then esel.val * cvtBits sf df sf else 0
    let e (v : State) (t : Tid) (i : Nat) : Nat := ((src v t).extractLsb' (sel + sf.container * i) sf.width).toNat
    (df = .i64 → CompletesV2 (.cvt m df sf r satf esel d a) m ra d (lastReads m ra []) fun v t x =>
      x = BitVec.ofNat 64 (convert sf df r satf (e v t 0))) ∧
    (df ≠ .i64 → CompletesV (.cvt m df sf r satf esel d a) m (ra ++ if part then [d] else []) d (lastReads m ra []) fun v t x =>
      let dsel := if part then esel.val * cvtBits sf df df else 0
      (∀ i, i < cvtCount sf df →
        x.extractLsb' (dsel + df.container * i) df.container = BitVec.ofNat df.container (convert sf df r satf (e v t i) % 2 ^ df.container)) ∧
      (part → ∀ i, i < 32 → (i < dsel ∨ dsel + cvtBits sf df df ≤ i) → x.getLsbD i = (v.readV t d).getLsbD i))

/-- R153, R154: the dot products of sub-word elements, with their addend and one rounding or one wrap. -/
def Obligations.DotProducts : Prop := ∀ m d a b,
  let c := addendReg m d
  let srcs := [a, b, c]
  let rel := lastReads3 m [a] [b] [c]
  let xm := xmOrPlain m
  let fs (f : Fmt) (x : Word) : List Val := (List.range (32 / f.width)).map fun i => f.value (elemOf f.width i x).toNat
  let fsum (fa fb : Fmt) (v : State) (t : Tid) (x : Word) : Prop :=
    x = dotRound (v.readV t c) (fs fa (v.srcA m t a)) (fs fb (v.srcB m t b)) xm.rnd xm.sat
  let el (w : Nat) (u : Bool) (i : Nat) (x : Word) : Int := if u then ((elemOf w i x).toNat : Int) else (elemOf w i x).toInt
  let isum (w : Nat) (ua ub : Bool) (v : State) (t : Tid) (x : Word) : Prop :=
    x = fit xm.sat 32 ((v.readV t c).toInt +
      ((List.range (32 / w)).map fun i => el w ua i (v.srcA m t a) * el w ub i (v.srcB m t b)).sum)
  (∀ ae be, CompletesV (.fdp4 m ae be d a b) m srcs d rel
    (fsum (if ae then .e5m2 else .e4m3) (if be then .e5m2 else .e4m3))) ∧
  CompletesV (.fdp8 m d a b) m srcs d rel (fsum .e2m1 .e2m1) ∧
  (∀ ua ub, CompletesV (.idp4 m ua ub d a b) m srcs d rel (isum 8 ua ub)) ∧
  ∀ ua ub, CompletesV (.idp8 m ua ub d a b) m srcs d rel (isum 4 ua ub)

/-! ### Control flow (spec/06) -/

/-- R105, R115: NOP has no effect. BRA goes to the packet at its signed offset, or to the next clause where its condition
does not hold; BRX and RET go to the packet that vA names; CALL links the next clause and goes to its target. -/
def Obligations.TransfersComplete : Prop :=
  let dest (b : Bundle) (off : BitVec 24) : Pc := ⟨b.pc.p + off.signExtend 32, 0⟩
  Completes .nop ⟨false, false, false, none, none⟩ [] [] (fun _ _ _ _ => True) (fun _ _ w _ => (w, .next)) (fun _ => {}) ∧
  (∀ m c sense h off, Completes (.bra m c sense h off) m [] [] (fun _ _ _ _ => True)
    (fun b v w t => (w, .jump (if ∃ p, c = some p ∧ v.readP t p = sense then ⟨b.next, 0⟩ else dest b off))) fun _ => {}) ∧
  (∀ m h a, Completes (.brx m h a) m [a] (lastReads m [a] []) (fun _ _ _ _ => True)
    (fun _ v w t => (w, .jump ⟨v.srcA m t a, 0⟩)) fun _ => { regs := lastReads m [a] [] }) ∧
  (∀ m a, Completes (.ret m a) m [a] (lastReads m [a] []) (fun _ _ _ _ => True)
    (fun _ v w t => (w, .jump ⟨v.srcA m t a, 0⟩)) fun _ => { regs := lastReads m [a] [] }) ∧
  ∀ m d off, Completes (.call m d off) m [] [] (fun _ _ w t => w.alloc t.band t.troop (w.needs t [d]).eraseDups.length = .ok)
    (fun b _ w t => ((w.reserve t [d]).writeV t d b.next, .jump (dest b off))) fun _ => { regs := [d] }

/-- R107 to R111, R231: JOIN and LEAVE set and clear the thread's own bit of a mask register, whose value before the clock is kept
for the CSETs of the clock; WAITM, MATCH and VOTE make it wait there with its key or predicate, MATCH and ballot taking registers
for their result pair. When the mask unit finds every member of a register waiting on it, and what they issued before complete,
the collective completes: each member has its result and its releases and is ready at the instruction after its collective, or
waits there for flags of WAIT; members of different instructions or variants trap instead, each at its own PC. A waiting thread
that is not a member completes alone. -/
def Obligations.MembersComplete : Prop :=
  let masks : Band → Band := fun x => { x with troops := x.troops.map fun y => { y with masks := [] } }
  let touch : Touch := { band := masks, rest := fun s u =>
    { s with bands := u.bands, slots := u.slots, bundles := u.bundles, now := { s.now with masks := u.now.masks } } }
  let bit (w : State) (t : Tid) (d : MReg) (f : BitVec 64 → BitVec 64) : State :=
    let before := ((t.band, t.troop), ((w.troop? t.band t.troop).map (·.masks)).getD [])
    let w1 : State := if ∃ e ∈ w.now.masks, e.1 = (t.band, t.troop) then w
      else { w with now := { w.now with masks := w.now.masks ++ [before] } }
    w1.modTroop t.band t.troop fun y => { y with masks := put 0 d.val (f (look 0 d.val y.masks)) y.masks }
  let pair (d : VReg) (w : State) (t : Tid) : Prop := w.alloc t.band t.troop (w.needs t [d, regAt d 1]).eraseDups.length = .ok
  (∀ m d, Completes (.join m d) m [] [] (fun _ _ _ _ => True)
    (fun _ _ w t => (bit w t d fun x => x ||| BitVec.ofNat 64 (2 ^ t.lane), .next)) fun _ => touch) ∧
  (∀ m d, Completes (.leave m d) m [] [] (fun _ _ _ _ => True)
    (fun _ _ w t => (bit w t d fun x => x &&& ~~~BitVec.ofNat 64 (2 ^ t.lane), .next)) fun _ => touch) ∧
  (∀ m a, Completes (.waitm m a) m [] [] (fun _ _ _ _ => True)
    (fun _ _ w _ => (w, .wait (.collective a 0 0 0 []))) fun _ => {}) ∧
  (∀ m k64 d a b, let src := if k64 then [a, regAt a 1] else [a]
    Completes (.matchKeys m k64 d a b) m src [] (fun _ _ w t => pair d w t)
      (fun _ v w t => (w.reserve t [d, regAt d 1], .wait (.collective b (if k64 then 5 else 4) d.val
        (if k64 then v.srcA2 m t a else (v.srcA m t a).zeroExtend 64) (lastReads m src [])))) fun _ => {}) ∧
  (∀ m d a b, Completes (.vote m (.any d) a b) m [] [] (fun _ _ _ _ => True)
    (fun _ v w t => (w, .wait (.collective b 1 d.val (if v.readP t a then 1 else 0) []))) fun _ => {}) ∧
  (∀ m d a b, Completes (.vote m (.all d) a b) m [] [] (fun _ _ _ _ => True)
    (fun _ v w t => (w, .wait (.collective b 2 d.val (if v.readP t a then 1 else 0) []))) fun _ => {}) ∧
  (∀ m d a b, Completes (.vote m (.ballot d) a b) m [] [] (fun _ _ w t => pair d w t)
    (fun _ v w t => (w.reserve t [d, regAt d 1], .wait (.collective b 3 d.val (if v.readP t a then 1 else 0) []))) fun _ => {}) ∧
  (∀ (s : State) b t r,
    let vs := s.voters b t r
    let member (x : Voter) : Prop := bit64 (s.readM b t r) x.tid.lane = true
    (∀ x, x ∈ vs ↔ x.tid ∈ s.troopTids b t ∧ s.statusOf x.tid = .waiting (.collective r x.code x.d x.key x.rel)) ∧
    (vs = [] → s.examineMask b t r = s) ∧
    (vs ≠ [] → (∀ x ∈ vs, member x) →
      (laneMask vs = s.readM b t r → (∀ x ∈ vs, s.voterDone x = true) → s.examineMask b t r = s.completeVote vs) ∧
      (laneMask vs ≠ s.readM b t r ∨ (∃ x ∈ vs, s.voterDone x = false) → s.examineMask b t r = s)) ∧
    ∀ x, vs = [x] → ¬ member x → s.examineMask b t r = if s.voterDone x = true then s.completeVote [x] else s) ∧
  ∀ (s : State) b t (vs : List Voter), (vs.map (·.tid.lane)).Nodup → (∀ x ∈ vs, x.tid.band = b ∧ x.tid.troop = t) →
    (∀ x ∈ vs, (s.thread? x.tid).isSome = true ∧ ∀ r c i, s.slotFor x.tid r = some (c, i) → (s.slot? c i).isSome = true) →
    let same : Prop := ∀ x ∈ vs, ∀ y ∈ vs, x.code = y.code
    let lanes (p : Voter → Prop) (w : BitVec 64) : Prop := ∀ l, l < 64 → (w.getLsbD l = true ↔ ∃ y ∈ vs, y.tid.lane = l ∧ p y)
    let u := s.completeVote vs
    (same → ∀ x ∈ vs,
      (x.code = 1 → (u.readP x.tid (Fin.ofNat 24 x.d) = true ↔ ∃ y ∈ vs, y.key ≠ 0)) ∧
      (x.code = 2 → (u.readP x.tid (Fin.ofNat 24 x.d) = true ↔ ∀ y ∈ vs, y.key ≠ 0)) ∧
      (x.code = 3 → lanes (fun y => y.key ≠ 0) (u.readV x.tid (regAt (Fin.ofNat 64 x.d) 1) ++ u.readV x.tid (Fin.ofNat 64 x.d))) ∧
      (x.code = 4 ∨ x.code = 5 →
        lanes (fun y => y.key = x.key) (u.readV x.tid (regAt (Fin.ofNat 64 x.d) 1) ++ u.readV x.tid (Fin.ofNat 64 x.d))) ∧
      ∀ th, s.thread? x.tid = some th → ∃ th1, u.thread? x.tid = some th1 ∧ th1.pc = th.npc ∧ th1.flags = th.flags ∧
        ((∃ brd, th1.status = .ready s.clock brd) ∨
          ∃ k, u.waitAt x.tid th.npc = some k ∧ th.flags &&& k ≠ 0 ∧ th1.status = .waiting (.flags k))) ∧
    (same → u = { s with bands := u.bands, slots := u.slots } ∧ (∀ r, u.readM b t r = s.readM b t r) ∧
      (∀ q r, (∀ x ∈ vs, x.tid = q → x.code ≠ 1 ∧ x.code ≠ 2 ∨ r ≠ Fin.ofNat 24 x.d) → u.readP q r = s.readP q r) ∧
      ∀ q r, (∀ x ∈ vs, r ∉ x.rel ∧ (3 ≤ x.code → r ≠ Fin.ofNat 64 x.d ∧ r ≠ regAt (Fin.ofNat 64 x.d) 1)) → u.readV q r = s.readV q r) ∧
    (¬ same →
      let here (x : Voter) : Pc × Pc := ((s.thread? x.tid).map fun th => (th.pc, th.npc)).getD (⟨0, 0⟩, ⟨0, 0⟩)
      u = (vs.map here).eraseDups.foldl (fun w p =>
        w.raiseAll p.1 p.2 0 ((vs.filter fun x => here x == p).map fun x => ⟨x.tid, 0x01, 1, 0⟩)) s)

/-- R113: YIELD is ready again at the next instruction, stamped afresh; NAP waits for its count, or for what an
interruption left of it, and a count of 0 acts as YIELD; at the end of the count NAP_EXPIRE makes the thread ready. -/
def Obligations.PausesComplete : Prop :=
  let naps : Band → Band := fun x => { x with troops := x.troops.map fun y =>
    { y with threads := y.threads.map fun th => { th with napLeft := none } } }
  let flow (w : State) (n : Nat) : Flow := if n = 0 then .ready else .wait (.nap (w.clock + n))
  (∀ m, Completes (.yield m) m [] [] (fun _ _ _ _ => True) (fun _ _ w _ => (w, .ready)) fun _ => {}) ∧
  (∀ m n, Completes (.nap m n) m [] [] (fun _ _ w t => (w.thread? t).isSome = true)
    (fun _ _ w t => (w.modThread t fun th => if th.depth then th else { th with napLeft := none },
      flow w (((w.thread? t).map fun th => if th.depth then n.toNat else th.napLeft.getD n.toNat).getD 0)))
    fun _ => { band := naps }) ∧
  ∀ s t th u, s.thread? t = some th → th.status = .waiting (.nap u) →
    exec (.napExpire t) s = .next (if u ≤ s.clock then s.makeReady t th.npc else s)

/-! ### Long-latency instructions (spec/06 R100, R101) -/

/-- R100, R101, R64, R138, R149: SHFL and the eight SFU functions issue: each acting thread's destination has its register, its
flags SETA and SETB are held, and the operation is in progress, with its sources still to be read; a thread whose guard is false
takes its last-read releases at once. In a chain group the sources are read at issue (R98): last-reads release there, the result
is in progress, and SETB is not held. -/
def Obligations.LongLatencyIssues : Prop :=
  let room (d : VReg) (w : State) (t : Tid) : Prop := w.alloc t.band t.troop (w.needs t [d]).eraseDups.length = .ok
  let alone (i : Instr) (m : Mods) (rel : List VReg) (d : VReg) (what : Pend) : Prop :=
    CompletesOnce (fun _ s => s.group = none)
      (fun b s => (b.threads.filter fun t => !s.view.guardTrue m t).foldl (fun s t => s.release t rel) s) (fun _ s => s) i m [] []
      (fun _ _ w t => room d w t) (fun bu v w t => ((w.reserve t [d]).pend bu t v.fresh true true what rel, .next))
      fun b => { Touch.longOp b with regs := rel }
  let chained (i : Instr) (m : Mods) (srcs rel : List VReg) (d : VReg) (x : State → Tid → Word) : Prop :=
    CompletesOnce (fun _ s => s.group.isSome = true) (fun _ s => s) (fun _ s => s) i m srcs rel
      (fun _ _ w t => room d w t)
      (fun bu v w t => ((w.reserve t [d]).pend bu t v.fresh true false (.regs [.v d (x v t)]) [], .next))
      fun b => { Touch.longOp b with regs := rel, flags := [b.seta] }
  (∀ m d a b, alone (.shfl m d a b) m (lastReads m [a] [b]) d (.shfl m d a b) ∧
    chained (.shfl m d a b) m [a, b] (lastReads m [a] [b]) d fun v t => v.readLane t a ((v.srcB m t b).toNat % 64)) ∧
  ∀ m d a f i, (f, i) ∈ [(SfuFn.rcp, Instr.frcp m d a), (.rsq, .frsq m d a), (.sqrt, .fsqrt m d a), (.exp2, .fexp2 m d a),
      (.log2, .flog2 m d a), (.sin, .fsin m d a), (.cos, .fcos m d a), (.tanh, .ftanh m d a)] →
    alone i m (lastReads m [a] []) d (.sfu f m d a) ∧
    chained i m [a] (lastReads m [a] []) d fun v t => sfuResult f (xmOrPlain m) (v.srcA m t a)

/-! ### Memory accesses (spec/10, spec/14) -/

/-- R193, R249, R334: LD and ST issue, for every size: where AccessAddress reaches its place, a load takes its registers and is in
progress with the place found, its last-reads released, and its L1 line is kept for the LDs of the thread's clause; a store is in
flight with the low bytes of its register group. The region register is the one from before a chain group (R98). -/
def Obligations.LoadsAndStoresIssue : Prop :=
  (∀ m sz pol k d a off,
    let n := ldBytes sz
    let rel := lastReads m [a] []
    let find (v w : State) (t : Tid) : State × Reached := w.accessAddress t (v.regT t k) (v.offsetOf m t a off.toInt) n n .load .read
    let keep (bu : Bundle) (w : State) (t : Tid) (x : Target) : State := match x.loc with
      | .mem pa h => if pol = .strm ∨ x.reg.kind = .a then w
        else { w with pins := w.pins ++ [⟨w.coreOf t, lineKey h pa, t, bu.base, bu.next⟩] }
      | .bench .. => w
    Completes (.ld m sz pol k d a off) m [a] rel
      (fun _ v w t => ∃ w1 x, find v w t = (w1, .ok x) ∧ w1.alloc t.band t.troop (w1.needs t (ldRegs sz d)).eraseDups.length = .ok)
      (fun bu v w t => match find v w t with
        | (w1, .ok x) =>
          let w2 := w1.reserve t (ldRegs sz d)
          ((keep bu w2 t x).pend bu t v.fresh true false (.load x.loc (w2.siteOf t k x false) sz pol d) [], .next)
        | (w1, _) => (w1, .next))
      fun b => { Touch.access b rel with flags := [b.seta], rest := fun s u => { (Touch.access b rel).rest s u with pins := u.pins } }) ∧
  ∀ m sz pol k a b off,
    let n := stBytes sz
    let rel := lastReads m [a] (stRegs sz b)
    let find (v w : State) (t : Tid) : State × Reached := w.accessAddress t (v.regT t k) (v.offsetOf m t a off.toInt) n n .store .write
    Completes (.st m sz pol k a b off) m (a :: stRegs sz b) rel
      (fun _ v w t => ∃ w1 x, find v w t = (w1, .ok x))
      (fun _ v w t => match find v w t with
        | (w1, .ok x) => (w1.launchFlight t v.fresh k x false pol
            (.store n (BitVec.ofNat 128 (packElems 32 ((stRegs sz b).map fun r => (v.srcB m t r).toNat) % 2 ^ (8 * n)))), .next)
        | (w1, _) => (w1, .next))
      fun b => { Touch.access b rel with flags := [] }

/-- R198, R252, R269, R273: ATOM, RED, ATOMC and ATOMW issue: once AccessAddress has reached the place and, for an ordering
that releases, everything the release waits for is performed, the dirty lines that a release writes down are at their
level and the operation is in progress with its operands, its last-reads released (RED: in flight). No member of a redundant
pair (R312). -/
def Obligations.AtomicsIssue : Prop :=
  let clear (rel : Bool) (sc : Scope) (w : State) (t : Tid) : Prop := w.twinOf t = none ∧ (rel = true → w.orderClear t sc = true)
  let down (rel : Bool) (sc : Scope) (w : State) (t : Tid) : State := if rel then w.releaseLines t sc else w
  let room (ds : List VReg) (w : State) (t : Tid) : Prop := w.alloc t.band t.troop (w.needs t ds).eraseDups.length = .ok
  (∀ m ord k sc op w64 d a b off,
    let n := if w64 then 8 else 4
    let rb := atomRegs w64 b
    let rc := casRegs m w64
    let find (v w : State) (t : Tid) : State × Reached := w.accessAddress t (v.regT t k) (v.offsetOf m t a (BitVec.toInt off)) n n .atomic .write
    let rel := lastReads3 m [a] rb rc
    Completes (.atom m ord k sc op w64 d a b off) m (a :: rb ++ rc) rel
      (fun _ v w t => ∃ w1 x, find v w t = (w1, .ok x) ∧ clear (Ord4.releases ord) sc w1 t ∧
        room (atomRegs w64 d) (down (Ord4.releases ord) sc w1 t) t)
      (fun bu v w t => match find v w t with
        | (w1, .ok x) =>
          let w2 := (down (Ord4.releases ord) sc w1 t).reserve t (atomRegs w64 d)
          (w2.pend bu t v.fresh true false (.atom x.loc x.va (w2.siteOf t k x true) op w64 (v.atomSrc m t w64 b) (v.casSrc m t w64) d
            (if Ord4.acquires ord then some sc else none)) [], .next)
        | (w1, _) => (w1, .next))
      fun b => { Touch.atomic (Ord4.releases ord) b rel with flags := [b.seta] }) ∧
  (∀ m ord k sc op w64 a b off,
    let n := if w64 then 8 else 4
    let rel := lastReads m [a] (atomRegs w64 b)
    let find (v w : State) (t : Tid) : State × Reached := w.accessAddress t (v.regT t k) (v.offsetOf m t a (BitVec.toInt off)) n n .atomic .write
    Completes (.red m ord k sc op w64 a b off) m (a :: atomRegs w64 b) rel
      (fun _ v w t => ∃ w1 x, find v w t = (w1, .ok x) ∧ clear (Ord4.releases ord) sc w1 t)
      (fun _ v w t => match find v w t with
        | (w1, .ok x) => ((down (Ord4.releases ord) sc w1 t).launchFlight t v.fresh k x true .norm (.red op w64 (v.atomSrc m t w64 b)), .next)
        | (w1, _) => (w1, .next))
      fun b => { Touch.atomic (Ord4.releases ord) b rel with flags := [] }) ∧
  (∀ m ord k addeq task d a b off,
    let c := addendReg m d
    let find (v w : State) (t : Tid) : State × Reached := w.accessAddress t (v.regT t k) (v.offsetOf m t a (BitVec.toInt off)) 4 4 .homeOnly .write
    let rel := lastReads3 m [a] [b] [c]
    Completes (.atomc m ord k addeq task d a b off) m [a, b, c, d] rel
      (fun _ v w t => ∃ w1 x, find v w t = (w1, .ok x) ∧ clear (Ord4.releases ord) .device w1 t ∧
        room [d] (down (Ord4.releases ord) .device w1 t) t)
      (fun bu v w t => match find v w t with
        | (w1, .ok x) => (((down (Ord4.releases ord) .device w1 t).reserve t [d]).pend bu t v.fresh true false
            (.atomc x.loc x.va addeq task.toNat (v.srcB m t b) (v.readV t c) (v.readV t d) d (Ord4.acquires ord)) [], .next)
        | (w1, _) => (w1, .next))
      fun b => { Touch.atomic (Ord4.releases ord) b rel with flags := [b.seta] }) ∧
  ∀ m ord k d a b off,
    let find (v w : State) (t : Tid) : State × Reached := w.accessAddress t (v.regT t k) (v.offsetOf m t a (BitVec.toInt off)) 4 4 .homeOnly .write
    let rel := lastReads m [a] [b, regAt b 1]
    Completes (.atomw m ord k d a b off) m [a, b, regAt b 1] rel
      (fun _ v w t => ∃ w1 x, find v w t = (w1, .ok x) ∧ clear (Ord4.releases ord) .device w1 t ∧
        room [d] (down (Ord4.releases ord) .device w1 t) t)
      (fun bu v w t => match find v w t with
        | (w1, .ok x) => (((down (Ord4.releases ord) .device w1 t).reserve t [d]).pend bu t v.fresh true false
            (.atomw x.loc (v.srcB m t b) (v.srcB m t (regAt b 1)) d (Ord4.acquires ord)) [], .next)
        | (w1, _) => (w1, .next))
      fun b => { Touch.atomic (Ord4.releases ord) b rel with flags := [b.seta] }

/-- R254, R252, R250: FENCE. Where it releases, the accesses it waits for are performed and dirty shared lines are written
down; where it acquires, no older load of the thread is left and shared lines are dropped; nothing else changes. -/
def Obligations.FencesComplete : Prop :=
  ∀ m ord sc, Completes (.fence m ord sc) m [] []
    (fun _ _ w t => (ord ≠ .acq → w.orderClear t sc = true) ∧ (ord ≠ .rel → ∀ p ∈ w.pending, p.tid = t → p.what.place = none))
    (fun _ _ w t =>
      let w1 := if ord = .acq then w else w.releaseLines t sc
      (if ord = .rel then w1 else w1.acquireLines t sc, .next))
    fun b => { Touch.ordered b [] with flags := [] }

/-- R270: WAITW reads the word at its home after the thread's older accesses to it. Where the word differs from B it returns 0
with the word and acquires at `.device`; where its slice has no room for one more waited word it returns 3; otherwise the
thread sleeps on the word, until woken or until its limit. At the limit the thread returns 2 with the word as it then is. -/
def Obligations.WordWaits : Prop :=
  (∀ m k tmo d a b off,
    let rel := lastReads m [a] [b]
    let find (v w : State) (t : Tid) : State × Reached := w.accessAddress t (v.regT t k) (v.offsetOf m t a (BitVec.toInt off)) 4 4 .homeOnly .write
    let word (w : State) (t : Tid) (l : Loc) : State × Nat × Bool := w.readSite (w.coreOf t) (w.asidOf t) .home l 4 .norm
    let ret (w : State) (t : Tid) (r o : Nat) : State := w.writeRegs t [.v d (BitVec.ofNat 32 r), .v (regAt d 1) (BitVec.ofNat 32 o)]
    Completes (.waitw m k tmo d a b off) m [a, b] rel
      (fun _ v w t => ∃ w1 x pa h, find v w t = (w1, .ok x) ∧ x.loc = .mem pa h ∧ w1.blocked w1.fresh t w1.fresh x.loc 4 = false ∧
        w1.alloc t.band t.troop (w1.needs t (regGroup d 2)).eraseDups.length = .ok ∧
        (word (w1.reserve t (regGroup d 2)) t x.loc).2.2 = false)
      (fun _ v w t => match find v w t with
        | (w1, .ok ⟨_, .mem pa h, _⟩) =>
          let w3 := (word (w1.reserve t (regGroup d 2)) t (.mem pa h)).1
          let o := (word (w1.reserve t (regGroup d 2)) t (.mem pa h)).2.1
          let slice := sliceOfLine h (lineKey h pa)
          let words := w3.waitedWords (homeNum h) slice
          if BitVec.ofNat 32 o ≠ v.srcB m t b then ((ret w3 t 0 o).acquireLines t .device, .next)
          else if pa ∉ words ∧ 256 ≤ words.length then (ret w3 t 3 o, .next)
          else
            let z : Sleeper := ⟨w3.fresh, t, homeNum h, slice, pa, d, if tmo = 15 then none else some (w3.clock + 2 ^ (10 + tmo.toNat))⟩
            ({ w3 with sleepers := w3.sleepers ++ [z], fresh := w3.fresh + 1 }, .wait (.waitw z.id))
        | (w1, _) => (w1, .next))
      fun b => { Touch.ordered b (rel ++ [d, regAt d 1]) with flags := [], rest := fun s u => { (Touch.ordered b []).rest s u with sleepers := u.sleepers } }) ∧
  (∀ s x u, s.sleepers.find? (·.tid == x.tid) = some x → x.deadline = some u → u ≤ s.clock → ∀ th, s.thread? x.tid = some th →
    let w : Word := BitVec.ofNat 32 (leNat (readBytes s.mem x.pa 4))
    let s1 := { s with sleepers := s.sleepers.filter fun y => y.id != x.id }
    exec (.waitwTimeout x.tid) s = .next ((s1.writeRegs x.tid [.v x.d 2, .v (regAt x.d 1) w]).makeReady x.tid th.npc)) ∧
  ∀ s x u, s.sleepers.find? (·.tid == x.tid) = some x → x.deadline = some u → s.clock < u → exec (.waitwTimeout x.tid) s = .next s

/-- R185, R187, R197: what was written at a site (a bench bank, a core's L1, the home) is what the next read there gives,
for every size within a line; the other bytes of an L1 line, of a bench and of a home stay. -/
def Obligations.SitesReadBack : Prop :=
  (∀ (s : State) core asid site loc n v pol pol', pol' ≠ .keep →
    (match loc with
      | .bench c _ => (s.core? c).isSome = true
      | .mem pa _ => pa < 2 ^ 52 ∧ pa % 128 + n ≤ 128 ∧ (match site with | .l1 c => (s.core? c).isSome = true | .l2 _ => False | _ => True)) →
    ((s.writeSite core asid site loc n v pol).readSite core asid site loc n pol').2.1 = v % 2 ^ (8 * n)) ∧
  (∀ (s : State) core asid c off n v pol site d a, (a < off ∨ off + n ≤ a ∨ d ≠ c) →
    (s.writeSite core asid site (.bench c off) n v pol).benchByteAt d a = s.benchByteAt d a) ∧
  (∀ (s : State) core asid pa h n v pol a, (a < pa ∨ pa + n ≤ a) →
    (s.writeSite core asid .home (.mem pa h) n v pol).byteAt a = s.byteAt a ∧
    (s.writeSite core asid .home (.mem pa h) n v pol).peerByteAt a = s.peerByteAt a) ∧
  ∀ (s : State) core asid c pa h n v pol l, s.l1Line? c (lineKey h pa) = some l → l.asid = asid → pol ≠ .keep → pa % 128 + n ≤ 128 →
    let u := s.writeSite core asid (.l1 c) (.mem pa h) n v pol
    u.mem = s.mem ∧ u.peerMem = s.peerMem ∧ (∀ line, line ≠ lineKey h pa → u.l1Line? c line = s.l1Line? c line) ∧
    ∃ l', u.l1Line? c (lineKey h pa) = some l' ∧
      ∀ j k, j + k ≤ 128 → (j + k ≤ pa % 128 ∨ pa % 128 + n ≤ j) → lineField l'.data j k = lineField l.data j k

/-- R249, R193, R198, R187, R315: a store in flight is performed, once nothing older stands before it, at the site found at
its issue: at a home and in a bench every byte of it and no other byte, in a cached line as a write of that line, after the
undo log has taken the line; a reduction leaves NewValue there, and at a home commits the interval, but does neither where the
word is poisoned (R202, R316). A line that leaves a cache has its dirty bytes written down and is gone; a line that LDs of a clause
still need (R334) stays. -/
def Obligations.AccessesPerformed : Prop :=
  let perform (s : State) (f : Flight) : Prop := s.flights.find? (·.id == f.id) = some f ∧ s.canPerform f = true
  let rest (s : State) (f : Flight) : State := { s with flights := s.flights.filter fun x => x.id != f.id }
  (∀ s f n d pa h, perform s f → f.act = .store n d → f.loc = .mem pa h → f.site = .home →
    ∃ u, exec (.accessPerformed (.access f.id)) s = .next u ∧ u = { rest s f with mem := u.mem, peerMem := u.peerMem } ∧
      ∀ a, (let new := if pa ≤ a ∧ a < pa + n then some (BitVec.ofNat 8 (d.toNat / 256 ^ (a - pa))) else none
        if h = .peer then u.peerByteAt a = new.getD (s.peerByteAt a) ∧ u.byteAt a = s.byteAt a
        else u.byteAt a = new.getD (s.byteAt a) ∧ u.peerByteAt a = s.peerByteAt a)) ∧
  (∀ s f n d c off, perform s f → f.act = .store n d → f.loc = .bench c off → (s.core? c).isSome = true →
    ∃ u, exec (.accessPerformed (.access f.id)) s = .next u ∧ u = { rest s f with cores := u.cores } ∧
      (∀ e a, u.benchByteAt e a = if e = c ∧ off ≤ a ∧ a < off + n then BitVec.ofNat 8 (d.toNat / 256 ^ (a - off)) else s.benchByteAt e a) ∧
      u.cores.map (fun x => { x with bench := [], benchPoison := [] }) = s.cores.map fun x => { x with bench := [], benchPoison := [] }) ∧
  (∀ s f n d pa h c, perform s f → f.act = .store n d → f.loc = .mem pa h → f.site = .l1 c →
    exec (.accessPerformed (.access f.id)) s = .next
      (((rest s f).logWrite f.tid.band ((rest s f).coreOf f.tid) (.l1 c) f.loc).writeSite ((rest s f).coreOf f.tid) f.asid (.l1 c) f.loc n d.toNat f.pol) ∧
    ∀ (v : State) b core, (v.logWrite b core (.l1 c) f.loc).cores = v.cores ∧ (v.logWrite b core (.l1 c) f.loc).mem = v.mem ∧
      (v.logWrite b core (.l1 c) f.loc).dies = v.dies) ∧
  (∀ s f op w b, perform s f → f.act = .red op w b →
    let core := (rest s f).coreOf f.tid
    let n := if w then 8 else 4
    (∀ s1 o, (rest s f).readSite core f.asid f.site f.loc n .norm = (s1, o, false) →
      let u := (s1.logWrite f.tid.band core f.site f.loc).writeSite core f.asid f.site f.loc n
        (newValue op (8 * n) o (b.toNat % 2 ^ (8 * n)) 0) .norm
      exec (.accessPerformed (.access f.id)) s = .next (if f.site = .home then u.commit f.tid.band else u)) ∧
    ∀ s1 o, (rest s f).readSite core f.asid f.site f.loc n .norm = (s1, o, true) → exec (.accessPerformed (.access f.id)) s = .next s1) ∧
  (∀ s core line, ((∃ p ∈ s.pins, p.core = core ∧ p.line = line) → exec (.accessPerformed (.evictL1 core line)) s = .next s) ∧
    ((∀ p ∈ s.pins, ¬ (p.core = core ∧ p.line = line)) →
      ∃ u, exec (.accessPerformed (.evictL1 core line)) s = .next u ∧ CacheOnly s u ∧ u.l1Line? core line = none ∧
        ∀ l, s.l1Line? core line = some l → l.home = .die (dieOf core) → ∀ i, i < 128 →
          u.byteAt (lineBase line + i) = if l.dirty.getLsbD i then BitVec.ofNat 8 (l.data.toNat / 2 ^ (8 * i)) else s.byteAt (lineBase line + i))) ∧
  ∀ s die line, ∃ u, exec (.accessPerformed (.evictL2 die line)) s = .next u ∧ CacheOnly s u ∧ u.l2Line? die line = none ∧
    ∀ l, s.l2Line? die line = some l → l.home ≠ .peer → ∀ i, i < 128 →
      u.byteAt (lineBase line + i) = if l.dirty.getLsbD i then BitVec.ofNat 8 (l.data.toNat / 2 ^ (8 * i)) else s.byteAt (lineBase line + i)

/-- R101, R102, R138, R149, R193, R198, R252, R269, R270, R273, R274: LONG_LATENCY_RESULT of an operation of a thread that has not
exited, once nothing older stands before it: its last-reads are taken, its results written and its flags given up, and nothing else
changes but, for a load or an atomic, what reading and writing at its site changes. The results: an SFU function of its source, the
lane that SHFL names, the bytes a load reads, extended as its size says, and the old value of an atomic, which leaves NewValue at its
site and, where it acquires, drops the lines that an acquire drops. ATOMC: where its test hits, its continuation is placed, the new
value stored and 0 returned, or, with no room, nothing is stored and 2 returned; where it misses, 1 is returned, `addeq` storing
its sum. ATOMW returns the old value and stores the sum, and wakes the word's sleepers where the sum reaches the threshold from
below. A continuation takes a place in its slice's queue, or in its context's ring, and counts as a child. -/
def Obligations.ResultsLand : Prop :=
  (∀ s p, s.pending.find? (·.id == p.id) = some p → s.canLand p = true →
  s.statusOf p.tid ≠ .exited → (∀ r c i, s.slotFor p.tid r = some (c, i) → (s.slot? c i).isSome = true) →
  let rest : State := { s with pending := s.pending.filter fun q => q.id != p.id }
  let core := s.coreOf p.tid
  let asid := s.asidOf p.tid
  let lands (v : State) (ws : List RegWrite) : Prop := ∃ u, exec (.longLatencyResult p.id) s = .next u ∧ Lands p s v u ws
  (∀ f m d a, p.what = .sfu f m d a → s.poisonedReg p.tid a = false → lands rest [.v d (sfuResult f (xmOrPlain m) (s.srcA m p.tid a))]) ∧
  (∀ m d a b, p.what = .shfl m d a b → s.poisonedReg p.tid a = false → s.poisonedReg p.tid b = false →
    lands rest [.v d (s.readLane p.tid a ((s.srcB m p.tid b).toNat % 64))]) ∧
  (∀ r x, p.what = .regs [.v r x] → lands rest [.v r x]) ∧
  (∀ loc site sz pol d s1 x, p.what = .load loc site sz pol d → rest.readSite core asid site loc (ldBytes sz) pol = (s1, x, false) →
    CacheOnly rest s1 ∧ lands s1 (loadWrites sz d x)) ∧
  (∀ loc va site op w b c d acq, p.what = .atom loc va site op w b c d acq → site ≠ .home ∨ s.twinOf p.tid = none →
    let n := if w then 8 else 4
    ∀ s1 o, rest.readSite core asid site loc n .norm = (s1, o, false) →
      let s2 := (s1.logWrite p.tid.band core site loc).writeSite core asid site loc n (newValue op (8 * n) o (b.toNat % 2 ^ (8 * n)) (c.toNat % 2 ^ (8 * n))) .norm
      let s3 := if site = .home then s2.commit p.tid.band else s2
      lands (match acq with | some sc => s3.acquireLines p.tid sc | none => s3)
        (if w then pairWrites d (BitVec.ofNat 64 o) else [.v d (BitVec.ofNat 32 o)])) ∧
  (∀ pa h va addeq task b c tag d acq, p.what = .atomc (.mem pa h) va addeq task b c tag d acq → s.twinOf p.tid = none →
    ∀ s1 o, rest.readSite core asid .home (.mem pa h) 4 .norm = (s1, o, false) →
      let n := if addeq then (o + b.toNat) % 2 ^ 32 else b.toNat
      let hit : Prop := if addeq then n = c.toNat else o = c.toNat
      let after (w : State) : State := if acq then w.acquireLines p.tid .device else w
      let stored (w : State) : State := (w.commit p.tid.band).writeSite core asid .home (.mem pa h) 4 n .norm
      let placed := s1.placeContinuation p.tid p.pc h (lineKey h pa) va task (BitVec.ofNat 32 o) tag
      (hit → ∀ s2, placed = some s2 → lands (after (stored s2)) [.v d 0]) ∧
      (hit → placed = none → lands (after s1) [.v d 2]) ∧
      (¬ hit → lands (after (if addeq then stored s1 else s1.commit p.tid.band)) [.v d 1])) ∧
  ∀ pa h b c d acq, p.what = .atomw (.mem pa h) b c d acq → s.twinOf p.tid = none →
    ∀ s1 o, rest.readSite core asid .home (.mem pa h) 4 .norm = (s1, o, false) →
      let sum : Int := (o : Int) + b.toInt
      let n := (sum % 2 ^ 32).toNat
      let s2 := (s1.commit p.tid.band).writeSite core asid .home (.mem pa h) 4 n .norm
      let s3 := if (o : Int) < c.toNat ∧ (c.toNat : Int) ≤ sum then s2.wakeWord pa (BitVec.ofNat 32 n) else s2
      lands (if acq then s3.acquireLines p.tid .device else s3) [.v d (BitVec.ofNat 32 o)]) ∧
  (∀ (s : State) (t : Tid) pc h line va task old tag b, s.band? t.band = some b →
    let die := match h with | .die d => some d | .base => none | .peer => some (dieOf (s.coreOf t))
    let p : Packet := ⟨homeNum h, sliceOfLine h line, b.asid, task, old, va, tag, b.id, s.fresh, b.depth + 1, b.prio, b.gridseq, die,
      s.sourceOf t pc⟩
    let counted : State := { s with fresh := s.fresh + 1, children := s.children ++ [(s.fresh, b.id)] }
    let room : Prop := (s.packets.filter fun q => q.home == p.home && q.slice == p.slice).length < 64 ∧
      s.pendCnt b.asid < ((s.ctx? b.asid).map (·.pendmax)).getD 0
    let ring := ((s.ctx? b.asid).map (·.ring)).getD 4096
    let got := s.placeContinuation t pc h line va task old tag
    (room → got = some { counted with packets := s.packets ++ [p] }) ∧
    (¬ room → ring < 4096 → ∃ w, got = some w ∧ w = { counted with rings := s.rings ++ [p], ctxs := w.ctxs, mem := w.mem, peerMem := w.peerMem } ∧
      w.ctxs = modIf (·.asid == b.asid) (fun c => { c with ring := c.ring + 1 }) s.ctxs) ∧
    (¬ room → 4096 ≤ ring → got = none)) ∧
  (∀ (s : State) pa w, s.wakeWord pa w = (s.sleepers.filter fun x => x.pa == pa).foldl (fun s x => s.returnSleeper x 1 w) s) ∧
  ∀ (s : State) x why w th, s.thread? x.tid = some th → (∀ r c i, s.slotFor x.tid r = some (c, i) → (s.slot? c i).isSome = true) →
    let u := s.returnSleeper x why w
    u.readV x.tid x.d = BitVec.ofNat 32 why ∧ u.readV x.tid (regAt x.d 1) = w ∧
    u.sleepers = s.sleepers.filter (fun y => y.id != x.id) ∧
    ∃ th1, u.thread? x.tid = some th1 ∧ th1.pc = th.npc ∧ ((∃ brd, th1.status = .ready s.clock brd) ∨
      ∃ k, u.waitAt x.tid th.npc = some k ∧ th.flags &&& k ≠ 0 ∧ th1.status = .waiting (.flags k))

/-- R160, R193: the checks of an access through a register, in their order: a REFUSED register traps
DEED_REFUSED with its SUB, one not HELD BORROW_STATE with TINFO 1, an offset outside the register BORROW_ACCESS with TINFO
1, a class its kind does not permit TINFO 2, a range that meets a child's TINFO 3, and an address not a multiple of the
alignment ALIGN; TADDR receives the offset. An access that passes them lands in the band's bench, or where the core's TLB
places its address. -/
def Obligations.AccessesChecked : Prop :=
  ∀ (s : State) (t : Tid) (r : Region) (off : Int) (size align : Nat) (cls : Access) (u : Use),
    let found := (s.accessAddress t r off size align cls u).2
    let trap (cause : Nat) (info : Nat) : Prop := found = .fail ⟨cause, BitVec.ofNat 32 info, BitVec.ofInt 57 off⟩
    let overlaps (c : KidRange) : Prop := off < (c.base : Int) - r.base + c.len ∧ (c.base : Int) - r.base < off + size
    let inside : Prop := 0 ≤ off ∧ off + size ≤ r.len
    let permitted : Prop := match cls with
      | .load => r.kind ≠ .a
      | .store => r.kind = .e
      | .atomic => r.kind ≠ .s
      | .homeOnly => r.kind = .a ∧ r.space = .region
      | .lookup => True
    (r.state = .refused → trap 0x07 r.sub) ∧
    (r.state = .empty ∨ r.state = .pending → trap 0x06 1) ∧
    (r.state = .held → ¬ inside → trap 0x05 1) ∧
    (r.state = .held → inside → ¬ permitted → trap 0x05 2) ∧
    (r.state = .held → inside → permitted → (∃ c ∈ r.kids, overlaps c) → trap 0x05 3) ∧
    (r.state = .held → inside → permitted → (∀ c ∈ r.kids, ¬ overlaps c) →
      ((r.base + off) % align ≠ 0 → trap 0x08 0) ∧
      ((r.base + off) % align = 0 →
        (∀ b, r.space = .bench → s.band? t.band = some b →
          found = .ok ⟨(r.base + off).toNat, .bench (b.benchAt (r.base + off).toNat).1 (b.benchAt (r.base + off).toNat).2, r⟩) ∧
        ∀ e, r.space ≠ .bench → (r.base + off).toNat < 2 ^ 57 → s.walkFailed (r.base + off).toNat u (s.inHandler t) = none → s.tlb1 (s.coreOf t) (s.asidOf t) (r.base + off).toNat = some e →
          (e.prv = true → s.inHandler t = true) → (u = .write → e.w = true) → (u = .fetch → e.x = true) →
          found = .ok ⟨(r.base + off).toNat, .mem (e.pa + ((r.base + off).toNat - e.base))
            (homeOf e.home.toNat e.die (e.pa + ((r.base + off).toNat - e.base))), r⟩))

/-! ### Control and status registers, waits (spec/04, spec/06, spec/09, spec/14, spec/17, spec/20) -/

/-- R280, R281: CSRR of a number that a block defines writes the register's value; of another number it traps ILLEGAL_OP in
every thread of the bundle. CSRW writes, sets or clears under the register's access: RW and W1C by any thread, RW priv by
threads in handler mode, every acting thread trapping PRIV that is not, RW mgmt by none (every acting thread traps PRIV), a
read-only or undefined number by none (ILLEGAL_OP in every thread of the bundle). -/
def Obligations.ControlRegisters : Prop :=
  let special : Touch :=
    { band := fun x => { x with rollCount := 0, troops := x.troops.map fun y =>
        { y with threads := y.threads.map fun th => { th with trap := .zero, susp := false, rolled := false } } }
      core := fun c => { c with counts := [], cecnt := 0 }
      rest := fun s u => { s with bands := u.bands, slots := u.slots, bundles := u.bundles, ctxs := u.ctxs, cores := u.cores,
                                  now := { s.now with decays := u.now.decays }, dev := { s.dev with snap := u.dev.snap } } }
  let raises (i : Instr) (c : Nat) : Prop := ∀ s b, s.bundle? = some b →
    exec i s = .next (s.finishIssue b (b.threads.map fun t => ⟨t, c, 0, 0⟩) [])
  (∀ m d num, (csrAccess (BitVec.toNat num)).isSome → Completes (.csrr m d num) m [] []
    (fun _ _ w t => w.alloc t.band t.troop (w.needs t [d]).eraseDups.length = .ok)
    (fun _ _ w t => ((w.reserve t [d]).writeV t d (w.csrRead t num.toNat), .next)) fun _ => { regs := [d] }) ∧
  (∀ m d num, csrAccess (BitVec.toNat num) = none → raises (.csrr m d num) 0x01) ∧
  ∀ m mode num a,
    let writes (need : Bundle → State → Prop) : Prop := CompletesOnce need (fun _ s => s) (fun _ s => s) (.csrw m mode num a) m [a]
      (lastReads m [a] []) (fun _ _ _ _ => True) (fun _ v w t => (w.csrWrite t mode (BitVec.toNat num) (v.srcA m t a), .next))
      fun _ => { special with regs := lastReads m [a] [] }
    match csrAccess num.toNat with
    | some .rw | some .w1c => writes fun _ _ => True
    | some .rwPriv => writes (fun b s => ∀ t ∈ b.threads, s.view.guardTrue m t = true → s.inHandler t = true) ∧
      ∀ s b, s.bundle? = some b → ∃ u, exec (.csrw m mode num a) s = .next u ∧
        let priv := s.raiseAll b.pc b.npc 0 ((b.threads.filter fun t => s.view.guardTrue m t && !s.inHandler t).map fun t => ⟨t, 0x04, 0, 0⟩)
        (priv.bundle? = none → u = priv)
    | some .rwMgmt => ∀ s b, s.bundle? = some b →
      let idle := (b.threads.filter fun t => !s.view.guardTrue m t).foldl (fun w t => w.release t (lastReads m [a] [])) s
      exec (.csrw m mode num a) s = .next (idle.finishIssue b
        ((b.threads.filter fun t => s.view.guardTrue m t).map fun t => ⟨t, 0x04, 0, 0⟩) [])
    | some .r | none => raises (.csrw m mode num a) 0x01

/-- R281, R321, R322: a register written by CSRW reads back as its map states: TPC, TNPC, THENTRY, FQTAIL and MXDECAY whole,
THSEGLO without its low 12 bits, THSEGHI in 25 bits, the bounds in 8 bits with 0 taken as 1; a write of any value to a
W1C register leaves it 0, but of TSTAT clears, whatever its mode, those of bits 12 and 11 that it names. -/
def Obligations.RegistersTakeWrites : Prop :=
  ∀ (s : State) (t : Tid) (mode : CsrMode) (n : Nat) (x : Word), (s.thread? t).isSome → (s.ctxOf t).isSome → (s.core? (s.coreOf t)).isSome →
    let old := s.csrRead t n
    let v := match mode with
      | .write => x
      | .set => old ||| x
      | .clear => old &&& ~~~x
    let after := (s.csrWrite t mode n x).csrRead t n
    (n ∈ [0x004, 0x006, 0x008, 0x0C0, 0x181] → after = v) ∧
    (n = 0x009 → after = v &&& 0xFFFFF000) ∧
    (n = 0x00A → after = v &&& 0x01FFFFFF) ∧
    (n ∈ [0x040, 0x143, 0x183, 0x185] → after = if v &&& 0xFF = 0 then 1 else v &&& 0xFF) ∧
    (csrAccess n = some .w1c → n ≠ 0 → after = 0) ∧
    (n = 0 → (s.csrWrite t mode n x).thread? t =
      (s.thread? t).map fun th => { th with susp := th.susp && !x.getLsbD 11, rolled := th.rolled && !x.getLsbD 12 })

/-- R282, R350, R354: SNAP is one trigger, where a thread acts and every acting thread is in handler mode: it latches the next
number and the clock and freezes the registers, or, where they are frozen, counts a miss, but that a trigger in the cycle of the
fabric clock in which they were latched is part of that latch. Where the edges of the fabric clock lie is open (log 24). -/
def Obligations.SnapTriggers : Prop := ∀ m,
  CompletesOnce (fun b s => ∀ t ∈ b.threads, s.view.guardTrue m t = true → s.inHandler t = true)
    (fun b s => if b.threads.any (s.view.guardTrue m) then s.snapTrigger else s) (fun _ s => s) (.snap m) m [] []
    (fun _ _ _ _ => True) (fun _ _ w _ => (w, .next))
    (fun _ => { rest := fun s u => { s with bands := u.bands, slots := u.slots, bundles := u.bundles, dev := { s.dev with snap := u.dev.snap } } }) ∧
  ∀ s : State,
    (s.dev.snap.frozen = false → s.snapTrigger.dev.snap = ⟨(s.dev.snap.seq + 1) % 2 ^ 32, s.dev.snap.miss, true, s.clock,
      s.snapWords ((s.dev.snap.seq + 1) % 2 ^ 32)⟩) ∧
    let edge : Prop := ∃ k, s.dev.snap.at_ < k ∧ k ≤ s.clock ∧ Config.fabricEdge k = true
    (s.dev.snap.frozen = true → edge → s.snapTrigger = { s with dev := { s.dev with snap :=
      { s.dev.snap with miss := if s.dev.snap.miss < 0xFFFFFFFF then s.dev.snap.miss + 1 else s.dev.snap.miss } } }) ∧
    (s.dev.snap.frozen = true → ¬ edge → s.snapTrigger = s)

/-- R171, R172: BTST writes its condition of the register, BQRY the field it names, BWAIT waits while the register is
PENDING. R328: CHWAIT waits for the children that the band has at its issue. R207: CWAIT waits while the counter of its class
stands above its bound. -/
def Obligations.TestsAndWaits : Prop :=
  (∀ m c d a, Completes (.btst m c d a) m [] [] (fun _ _ _ _ => True)
    (fun _ _ w t =>
      let r := w.regT t a
      (w.writeP t d (match c with
        | .held => r.state == .held
        | .pending => r.state == .pending
        | .refused => r.state == .refused
        | .empty => r.state == .empty
        | .kids => !r.kids.isEmpty), .next)) fun _ => { preds := [d] }) ∧
  (∀ m f d a, Completes (.bqry m f d a) m [] []
    (fun _ _ w t => w.alloc t.band t.troop (w.needs t [d]).eraseDups.length = .ok)
    (fun _ _ w t =>
      let r := w.regT t a
      let x : Nat := if r.state = .empty then 0 else match f with
        | .lo => r.base
        | .hi => r.base / 2 ^ 32
        | .len => r.len
        | .stat => gstateCode r.state + 2 ^ 3 * kindCode r.kind + 2 ^ 5 * spaceCode r.space + 2 ^ 7 * bitN r.top +
            2 ^ 8 * r.kids.length + 2 ^ 16 * r.parent + 2 ^ 24 * (if r.state = .refused then r.sub else 0)
        | .deed => r.deed
      ((w.reserve t [d]).writeV t d (BitVec.ofNat 32 x), .next)) fun _ => { regs := [d] }) ∧
  (∀ m a, Completes (.bwait m a) m [] [] (fun _ _ _ _ => True)
    (fun _ _ w t => (w, if (w.regT t a).state = .pending then .wait (.region a) else .next)) fun _ => {}) ∧
  (∀ m, Completes (.chwait m) m [] [] (fun _ _ _ _ => True)
    (fun _ _ w t => (w, if w.kidsOf t.band = [] then .next else .wait (.chwait (w.kidsOf t.band)))) fun _ => {}) ∧
  ∀ m cls n, Completes (.cwait m cls n) m [] [] (fun _ _ _ _ => True)
    (fun _ _ w t => (w, if w.countOf t.band t.troop cls ≤ BitVec.toNat n then .next else .wait (.cwait cls n.toNat))) fun _ => {}

/-- R264, R266, R267: BARW, at an object it may reach, that is well formed and not poisoned, after the thread's older accesses to
it: where the object's generation is the one in B it waits, otherwise it goes on and acquires at `.band`. -/
def Obligations.BarrierWaits : Prop := ∀ m k a b off,
  Completes (.barw m k a b off) m [a, b] (lastReads m [a] [b])
    (fun _ v w t => ∃ x core o, w.phasePlace t k (v.offsetOf m t a (BitVec.toInt off)) = .ok x ∧ w.benchPlace t x = (core, o) ∧
      w.blocked w.fresh t w.fresh (.bench core o) 16 = false ∧ w.benchPoisoned core o 16 = false ∧
      (w.phaseAt core o).malformed = false)
    (fun _ v w t => match w.phasePlace t k (v.offsetOf m t a (BitVec.toInt off)) with
      | .ok x =>
        let q := (v.srcB m t b).toNat % 128
        if (w.phaseAt (w.benchPlace t x).1 (w.benchPlace t x).2).gen = q then (w, .wait (.barw x q)) else (w.acquireLines t .band, .next)
      | .error _ => (w, .next))
    fun bu => { Touch.ordered bu (lastReads m [a] [b]) with flags := [] }

/-- R265: PhaseClock of a well-formed object and the BARAs that reach it in one clock: arrivals and deliveries are counted; where
both then meet what is expected the generation advances once and the surplus counts to the new phase, whose expectation is
what these BARAs post; otherwise what they post is added. (An ARRIVED that would pass its 24 bits stays at the largest: log 49.) -/
def Obligations.PhaseClocks : Prop :=
  ∀ (p : Phase) (ops : List Arrival), p.arrived < 2 ^ 24 → p.bgot < 2 ^ 32 → p.bexp < 2 ^ 32 →
    let sum (l : List Arrival) : Nat := (l.map (·.bytes)).sum
    let arrived := min (p.arrived + (ops.filter fun o => o.kind ≠ .expect).length) (2 ^ 24 - 1)
    let got := min (p.bgot + sum (ops.filter fun o => o.kind = .arrive)) (2 ^ 32 - 1)
    let posted := sum (ops.filter fun o => o.kind ≠ .arrive)
    p.clock ops =
      if p.expect ≤ arrived ∧ p.bexp ≤ got then
        { p with gen := (p.gen + 1) % 128, arrived := arrived - p.expect, bgot := got - p.bexp, bexp := min posted (2 ^ 32 - 1) }
      else { p with arrived := arrived, bgot := got, bexp := min (p.bexp + posted) (2 ^ 32 - 1) }

/-- R264, R265, R267: BARA of threads that may reach well-formed objects that are not poisoned, once what a release at `.band` waits
for is performed: their lines are released at `.band`, and each BARA is counted to its object in this clock. At the end of the clock
every object takes its BARAs together. Where no band barrier completes (R314), each object is then what PhaseClock makes of it, every
other byte of every bench is as before, and of the rest of the state nothing has changed. -/
def Obligations.BarriersArrive : Prop :=
  (∀ m kind k a b (off : BitVec 24),
    let rel := lastReads m [a] [b]
    let touch (bu : Bundle) : Touch := { Touch.ordered bu rel with flags := [], rest := fun s u =>
      { (Touch.ordered bu rel).rest s u with now := { s.now with arrivals := u.now.arrivals } } }
    Completes (.bara m kind k a b off) m [a, b] rel
      (fun _ v w t => ∃ x core o, w.phasePlace t k (v.offsetOf m t a off.toInt) = .ok x ∧ w.benchPlace t x = (core, o) ∧
        w.orderClear t .band = true ∧ w.benchPoisoned core o 16 = false ∧ (w.phaseAt core o).malformed = false)
      (fun _ v w t => match w.phasePlace t k (v.offsetOf m t a off.toInt) with
        | .ok x =>
          let w1 := w.releaseLines t .band
          let n : ArriveNote := ⟨t, (w.benchPlace t x).1, (w.benchPlace t x).2, ⟨kind, (v.srcB m t b).toNat⟩⟩
          ({ w1 with now := { w1.now with arrivals := w1.now.arrivals ++ [n] } }, .next)
        | .error _ => (w, .next)) touch) ∧
  ∀ (s : State) (ops : List ArriveNote),
    (∀ e ∈ ops, e.off % 16 = 0 ∧ (s.core? e.core).isSome ∧ (s.phaseAt e.core e.off).malformed = false) →
    let at_ (c o : Nat) : List ArriveNote := ops.filter fun e => (e.core, e.off) == (c, o)
    (∀ e ∈ ops, ∃ t ∈ s.bandTids e.tid.band, match s.statusOf t with
      | .exited => False
      | .waiting (.barw x _) => s.benchPlace t x ≠ (e.core, e.off)
      | _ => t ∉ (at_ e.core e.off).map (·.tid)) →
    let u := s.applyArrivals ops
    (∀ c o, o % 16 = 0 → u.phaseAt c o =
      if at_ c o = [] then s.phaseAt c o else (s.phaseAt c o).clock ((at_ c o).map (·.what))) ∧
    (∀ c i, (∀ e ∈ ops, (e.core, e.off) ≠ (c, i / 16 * 16)) → u.benchByteAt c i = s.benchByteAt c i) ∧
    u = { s with cores := u.cores } ∧
    u.cores.map (fun c => { c with bench := [] }) = s.cores.map fun c => { c with bench := [] }

/-! ### Engines and tiles (spec/11, spec/15) -/

/-- R206, R209 to R211, R219, R223, R289: CPY, GATH, TCPY, NMC and COLL whose checks pass and whose class's counter stands below
255 are in progress under the next number and counted, and the thread goes on; one whose destination is seen outside the band
commits the rollback interval. A TCPY marks its tile filling or draining, an NMC has the holders' caches written back first.
Region registers are read as the instruction's sources are (R98).
(Commands of a redundant pair that are seen outside wait for their partner: R312.) -/
def Obligations.EnginesIssue : Prop :=
  let once (v : Bool) (w : State) (t : Tid) : State := if v then w.commit t.band else w
  let free (cls : OpClass) (v : Bool) (w : State) (t : Tid) : Prop := w.countOf t.band t.troop cls < 255 ∧ (v = true → w.twinOf t = none)
  (∀ m tag d sg a b (val : Fin 64), Completes (.cpy m tag d sg a b val) m [a, b] (lastReads m [a] [b])
    (fun _ v w t => ∃ k, v.cpyWork t d sg (v.srcA m t a).toNat (v.srcB m t b).toNat val.val = .ok k ∧ free (tagClass tag) (v.visibleTo t d) w t)
    (fun bu v w t => match v.cpyWork t d sg (v.srcA m t a).toNat (v.srcB m t b).toNat val.val with
      | .ok k => ((once (v.visibleTo t d) w t).started t bu.pc (tagClass tag) (if val.val = 0 then [d] else [sg, d]) 0 k, .next)
      | .error _ => (w, .next)) fun _ => Touch.command (lastReads m [a] [b])) ∧
  (∀ m d sg a b (rb : BitVec 12),
    let srcs := regGroup a 2 ++ [b]
    let rel := lastReads m (regGroup a 2) [b]
    let work (v : State) (t : Tid) : Except Fail OpWork :=
      v.gathWork t d sg (v.srcA m t a).toNat (v.srcA m t (regAt a 1)).toNat (v.srcB m t b) (16 * (rb.toNat + 1))
    Completes (.gath m d sg a b rb) m srcs rel
      (fun _ v w t => ∃ k, work v t = .ok k ∧ free .gather (v.visibleTo t d) w t)
      (fun bu v w t => match work v t with
        | .ok k => ((once (v.visibleTo t d) w t).started t bu.pc .gather (if v.srcB m t b = 0xFFFFFFFF#32 then [d] else [sg, d]) 0 k, .next)
        | .error _ => (w, .next)) fun _ => Touch.command rel) ∧
  (∀ m dir g a (hnd : BitVec 12) tile bg tag dc tr,
    let rel := lastReads m (regGroup a 8) []
    let args (v : State) (t : Tid) : TcpyArgs :=
      ⟨dir, g, hnd.toNat, tile.val, bg, tag, dc, tr, (List.range 5).map fun k => (v.srcA m t (regAt a k)).toInt,
        v.srcA m t (regAt a 5), (v.srcA m t (regAt a 6)).toNat % 2 ^ 16⟩
    let tiled := dir = .memToTile ∨ dir = .tileToMem
    let out (v : State) (t : Tid) : Bool := (dir = .tileToMem || dir = .benchToMem) && v.visibleTo t g
    Completes (.tcpy m dir g a hnd tile bg tag dc tr) m (regGroup a 7) rel
      (fun _ v w t => ∃ k, w.tcpyWork v t (args v t) = .ok k ∧ free (tagClass tag) (out v t) w t)
      (fun bu v w t => match w.tcpyWork v t (args v t) with
        | .ok k =>
          let w1 := (once (out v t) w t).started t bu.pc (tagClass tag) (if tiled then [g] else [g, bg]) hnd.toNat k
          (match (if tiled then w1.tileAt t tile.val else none) with
            | some y => w1.modTile t y fun e => if dir = .memToTile then e.fill else e.drain
            | none => w1, .next)
        | .error _ => (w, .next)) fun _ => { Touch.command rel with band := fun x => { x.unpoint with tileEntries := [] } }) ∧
  (∀ m op d sg rg fmt a,
    let rel := lastReads m (regGroup a 4) []
    let regs := match op with | .fill => [d] | .cmp => [d, sg, rg] | _ => [d, sg]
    let work (v : State) (t : Tid) : Except Fail OpWork := v.nmcWork t op d sg rg fmt (v.srcA m t (regAt a 0)).toNat
      (v.srcA m t (regAt a 1)).toNat (v.srcA m t (regAt a 2)).toNat (v.srcA m t (regAt a 3))
    Completes (.nmc m op d sg rg fmt a) m (regGroup a 4) rel
      (fun _ v w t => ∃ k, work v t = .ok k ∧ free .nearmem true w t)
      (fun bu v w t => match work v t with
        | .ok k => (((w.commit t.band).started t bu.pc .nearmem regs 0 k).nmcFlush t d sg rg k, .next)
        | .error _ => (w, .next))
      fun _ => { Touch.command rel with core := CoreSt.cold, die := DieSt.cold, rest := fun s u =>
        { (Touch.command rel).rest s u with
          mem := u.mem, peerMem := u.peerMem, poison := u.poison, unreturned := u.unreturned, cores := u.cores, dies := u.dies } }) ∧
  ∀ m cross opr fmc (lenu : Fin 512) (npm : Fin 16) sg d a,
    let rel := lastReads m (regGroup a 4) []
    let work (v : State) (t : Tid) : Except Fail OpWork :=
      v.collWork t sg d cross opr fmc (128 * (lenu.val + 1)) (npm.val + 1) fun k => v.srcA m t (regAt a k)
    Completes (.coll m cross opr fmc lenu npm sg d a) m (regGroup a 4) rel
      (fun _ v w t => ∃ k, work v t = .ok k ∧ free .coll true w t)
      (fun bu v w t => match work v t with
        | .ok k => ((w.commit t.band).started t bu.pc .coll [sg, d] 0 k, .next)
        | .error _ => (w, .next)) fun _ => Touch.command rel

/-- R210, R211, R224, R290: the issue checks of CPY, GATH, NMC and COLL pass on held registers of the right spaces with aligned
addresses, and the operation's ranges are then the registers' bases and the offsets. -/
def Obligations.EngineRanges : Prop :=
  ∀ (s : State) (t : Tid) (d sg rg : GReg) (src dst len : Nat),
    let passes (g : GReg) (off n : Nat) (c : Access) : Prop := (s.regT t g).check off n c = none
    let at_ (g : GReg) (off : Nat) : Nat := (s.regT t g).base + off
    let side (g : GReg) (off : Nat) : Side := ⟨(s.regT t g).space = .bench, at_ g off⟩
    (∀ val, (val ≠ 0 → passes sg src val .load) → passes d dst 32 .store → at_ d dst % 32 = 0 →
      s.cpyWork t d sg src dst val = .ok (.cpy (side sg src) (side d dst) val)) ∧
    (∀ idx : Word, idx ≠ 0xFFFFFFFF → passes sg (src + idx.toNat * len) len .load → passes d dst len .store →
      at_ sg src % 16 = 0 → at_ d dst % 16 = 0 →
      s.gathWork t d sg src dst idx len = .ok (.gath (some (side sg (src + idx.toNat * len))) (side d dst) len)) ∧
    (passes d dst len .store → at_ sg src % 16 = 0 → at_ d dst % 16 = 0 →
      s.gathWork t d sg src dst 0xFFFFFFFF len = .ok (.gath none (side d dst) len)) ∧
    (∀ op fmt (x : Word), passes d dst len .store → (s.regT t d).space = .region → dst % 128 = 0 → len % 128 = 0 → len ≠ 0 →
      (op ≠ .fill → passes sg src len .load ∧ (s.regT t sg).space = .region ∧ src % 128 = 0) →
      (op = .cmp → passes rg x.toNat 8 .store ∧ x.toNat % 8 = 0) →
      s.nmcWork t op d sg rg fmt src dst len x = .ok (.nmc op fmt (at_ sg src) (at_ d dst) len x
        (if op = .cmp then some (side rg x.toNat) else none) 0)) ∧
    ∀ cross opr fmc np (r : Nat → Word), r 0 = BitVec.ofNat 32 src → r 1 = BitVec.ofNat 32 dst → src < 2 ^ 32 → dst < 2 ^ 32 →
      passes sg src len .load → passes d dst len .store → (s.regT t sg).space = .region → (s.regT t d).space = .region →
      at_ sg src % 128 = 0 → at_ d dst % 128 = 0 →
      s.collWork t sg d cross opr fmc len np r = .ok (.coll (at_ sg src) (at_ d dst) dst len cross opr fmc np
        ((r 3).toNat % 2 ^ 16) ((r 2).toNat / 2 ^ 24) ((r 2).toNat % 2 ^ 24))

/-- R215 to R218: TRSV of an EMPTY tile records the formats of its fills. TREL of an EMPTY or READY tile clears its entry at
once; its bytes become zero when every earlier instruction that reads it has done so, at issue or by TREL_ZERO, and the
thread waits only for the first such zeroing; every other byte of every tile is as before. -/
def Obligations.TilesReserve : Prop :=
  let entries : Band → Band := fun x => { x with tileEntries := [] }
  (∀ m tile af bf blk (fills : Fin 4) sc (soff : BitVec 8), Completes (.trsv m tile af bf blk fills sc soff) m [] []
    (fun _ _ w t => ∃ x, w.tileAt t tile.val = some x ∧ x.entry.state = .empty)
    (fun _ _ w t => (match w.tileAt t tile.val with
      | some x => w.modTile t x fun e =>
          { e with rv := true, af := af, bf := bf, blk := blk, sc := sc, soff := 16 * soff.toNat, fills := fills.val + 1 }
      | none => w, .next)) fun _ => { band := entries }) ∧
  (∀ m a,
    let rel := lastReads m [a] []
    Completes (.trel m a) m [a] rel
      (fun _ v w t => (v.srcA m t a).toNat < 512 ∧ ∃ x, w.tileAt t (v.srcA m t a).toNat = some x ∧
        (x.entry.state = .empty ∨ x.entry.state = .ready))
      (fun _ v w t => match w.tileAt t (v.srcA m t a).toNat with
        | some x =>
          let w1 := w.modTile t x fun _ => TileEntry.clear
          if w1.zeroDue x.core x.phys then (w1, .next)
          else if w1.tileRead x.core x.phys then
            (w1.modCore x.core fun c => { c with tileZero := c.tileZero ++ [x.phys] }, .wait (.tile x.phys))
          else (w1.zeroTile x.core x.phys, .next)
        | none => (w, .next))
      fun _ => { regs := rel, band := entries, core := fun c => { c with tiles := [], tilePoison := [], tileZero := [] }
                 rest := fun s u => { s with bands := u.bands, slots := u.slots, bundles := u.bundles, cores := u.cores } }) ∧
  ∀ (s : State) core tile, s.zeroDue core tile = true → s.tileRead core tile = false →
    ∃ u, exec (.trelZero core tile) s = .next u ∧ u.zeroDue core tile = false ∧
      (∀ c i, ((u.core? c).map fun x => look 0 i x.tiles) =
        (s.core? c).map fun x => if c = core ∧ tile * 4096 ≤ i ∧ i < (tile + 1) * 4096 then 0 else look 0 i x.tiles) ∧
      u = { s with cores := u.cores } ∧
      u.cores.map (fun c => { c with tiles := [], tilePoison := [], tileZero := [] }) =
        s.cores.map fun c => { c with tiles := [], tilePoison := [], tileZero := [] }

/-- R231 to R234, R238 to R242, R246: CSET is noted for the end of its clock, with the mask as it stood before the clock's JOIN,
LEAVE and EXIT; there it makes a convergence register's set of the live members of that mask, or traps where a round is in
progress. MMA signs: an earlier
signer's lane joins the round, which is counted from its first signature; the last signer of the set issues it, with the
rows of the members or of the reuse latch, to the tail of its core's matrix queue. ACCRD and ACCWR are counted and queued. -/
def Obligations.MatrixIssues : Prop :=
  let conv : Band → Band := fun x => { x with conv := [] }
  let rest : State → State → State := fun s u =>
    { s with bands := u.bands, slots := u.slots, bundles := u.bundles, ops := u.ops, fresh := u.fresh, holds := u.holds, cores := u.cores }
  let queue : CoreSt → CoreSt := fun c => { c with mx := [] }
  let queued (w : State) (t : Tid) (pc : Pc) (k : MxWork) : State :=
    (w.started t pc .matrix [] 0 .matrix).modCore (w.coreOf t) fun c => { c with mx := c.mx ++ [⟨w.fresh, k, false⟩] }
  let fits (w : State) (t : Tid) (col : BitVec 12) (n : Nat) : Prop := ∀ x, w.band? t.band = some x → col.toNat + n ≤ x.fp.acc
  let noted : State → State → State := fun s u =>
    { s with bands := u.bands, slots := u.slots, bundles := u.bundles, now := { s.now with csets := u.now.csets } }
  (∀ m d a, Completes (.cset m d a) m [] [] (fun _ _ _ _ => True)
    (fun b _ w t => (w.noteCset t b.pc b.npc d (w.maskBefore t a), .next)) fun _ => { rest := noted }) ∧
  (∀ (s : State) n t mask, n.tids = [(t, mask)] → (s.band? t.band).isSome = true →
    (∀ b, s.band? t.band = some b → b.conv.length = 8) →
    ((s.conv t.band n.c).signed ≠ 0 →
      s.applyCset n = s.raiseAll n.pc n.npc 0 [⟨t, 0x01, 0x23, 0⟩]) ∧
    ((s.conv t.band n.c).signed = 0 → ∃ u, s.applyCset n = u ∧
      u.conv t.band n.c = { s.conv t.band n.c with
        troop := t.troop, members := mask &&& ~~~(s.exitedLanes t.band t.troop), signed := 0, sigs := [], latch := none } ∧
      (∀ c, c ≠ n.c → u.conv t.band c = s.conv t.band c) ∧ u = { s with bands := u.bands } ∧
      u.bands.map conv = s.bands.map conv)) ∧
  (∀ m zi dec a tile (col : BitVec 12) ck ru,
    let words := roundWords m fun m => .mma m zi dec a tile col ck ru
    let all := lastReads3 { m with la := true } (regGroup a 8) [] (xmOrPlain m).creg.toList ++ (xmOrPlain m).creg.toList
    let rel := lastReads3 m (regGroup a 8) [] (xmOrPlain m).creg.toList
    let c (w : State) (t : Tid) : Conv := w.conv t.band ck
    let signed (w : State) (t : Tid) : Conv :=
      { c w t with words := words, rounds := true, op := if (c w t).rounds then (c w t).op else w.fresh,
                   signed := setBit64 (c w t).signed t.lane true, sigs := (c w t).sigs ++ [(t.lane, rel)] }
    let counted (w : State) (t : Tid) (pc : Pc) : State := if (c w t).rounds then w else w.started t pc .matrix [] 0 .matrix
    Completes (.mma m zi dec a tile col ck ru) m [] []
      (fun b v w t => (c w t).members ≠ 0 ∧ t.troop = (c w t).troop ∧ bit64 (c w t).members t.lane = true ∧
        bit64 (c w t).signed t.lane = false ∧ ((c w t).signed ≠ 0 → (c w t).words = words) ∧
        ((c w t).rounds = false → w.countOf t.band t.troop .matrix < 255) ∧ (∀ g ∈ (c w t).sigs, ∀ r ∈ g.2, r ∈ all) ∧
        ((signed w t).signed = (signed w t).members → (∃ x, (counted w t b.pc).roundCheck t tile col = .ok x) ∧
          ((signed w t).latch = none → ∀ x, (counted w t b.pc).roundCheck t tile col = .ok x →
            v.roundPoison t.band (signed w t) x.entry.af a (xmOrPlain m).creg = false)))
      (fun b v w t =>
        let w1 := counted w t b.pc
        if (signed w t).signed ≠ (signed w t).members then
          ((w1.setConv t.band ck (signed w t)).setFlag t b.setb (signed w t).op true, .next)
        else match w1.roundCheck t tile col with
          | .ok x => ((w1.setConv t.band ck (signed w t)).issueRound v t ck m zi dec a x col ru, .next)
          | .error _ => (w, .next))
      fun _ => { regs := all, flags := List.range 12, band := conv, core := queue, rest := rest }) ∧
  (∀ m df r satf d (col : BitVec 12) nr zr, Completes (.accrd m df r satf d col nr zr) m [] []
    (fun _ _ w t => fits w t col (accElems df nr) ∧ (∃ x, w.band? t.band = some x) ∧ w.countOf t.band t.troop .matrix < 255 ∧
      w.alloc t.band t.troop (w.needs t (regGroup d nr.n)).eraseDups.length = .ok)
    (fun b _ w t =>
      let w1 := w.reserve t (regGroup d nr.n)
      ((queued w1 t b.pc (.read t df r satf d col.toNat nr.n zr)).setFlag t b.seta w1.fresh false, .next))
    fun b => { regs := regGroup d nr.n, flags := [b.seta], core := queue, rest := rest }) ∧
  (∀ m sf a (col : BitVec 12) nr add,
    let rel := lastReads m (regGroup a nr.n) []
    Completes (.accwrReg m sf a col nr add) m (regGroup a nr.n) rel
      (fun _ _ w t => fits w t col (accElems sf nr) ∧ (∃ x, w.band? t.band = some x) ∧ w.countOf t.band t.troop .matrix < 255)
      (fun b v w t => (queued w t b.pc (.writeReg t sf col.toNat add ((regGroup a nr.n).map (v.srcA m t))), .next))
      fun _ => { regs := rel, core := queue, rest := rest }) ∧
  ∀ m tile (col : BitVec 12) (row0 : Fin 64) add, Completes (.accwrTile m tile col row0 add) m [] []
    (fun _ _ w t => fits w t col 96 ∧ w.countOf t.band t.troop .matrix < 255 ∧ ∃ x, w.tileAt t tile.val = some x ∧
      x.entry.state = .ready ∧ row0.val + x.entry.depth ≤ 64 ∧ w.tileSick x.core x.phys x.entry = false)
    (fun b _ w t => match w.tileAt t tile.val with
      | some x => (queued w t b.pc (.writeTile t x.entry (w.tileData x.core x.phys) col.toNat row0.val add), .next)
      | none => (w, .next))
    fun _ => { core := queue, rest := rest }

/-- R205, R206, R209 to R211, R217, R222 to R227: an engine operation whose data moves completes. CPY and GATH read their row
whole and write it whole, followed by zeros, or only zeros; TCPY moves its elements in order and NMC its lines, and then come
the tile's event and the arrive; one that TRET skips moves nothing. Complete operations retire in issue order. One that an
engine cannot go on with is suspended instead, with COPY_FAULT raised for its thread and counted. -/
def Obligations.EnginesComplete : Prop :=
  (∀ (s : State) o src dst val s1 bs ls, s.op? o.id = some o → s.opReady o = true → o.work = .cpy src dst val →
    (if val = 0 then (s, Except.ok []) else s.engRead o src val) = (s1, .ok bs) →
    s1.engLocs o dst.bench .write (parts dst.va (bs.length + (32 - val))) = .ok ls →
    exec (.cpyComplete o.id) s = .next ((s1.engStore o ls (bs ++ List.replicate (32 - val) 0)).completeOp o)) ∧
  (∀ (s : State) o src dst len s1 (bs : List Byte) (ls : List (Loc × Nat)), s.op? o.id = some o → s.opReady o = true → o.work = .gath src dst len →
    (match src with | none => (s, Except.ok (List.replicate len 0)) | some x => s.engRead o x len) = (s1, .ok bs) →
    s1.engLocs o dst.bench .write (parts dst.va bs.length) = .ok ls →
    exec (.gathComplete o.id) s = .next ((s1.engStore o ls bs).completeOp o)) ∧
  (∀ (s : State) o dir tr r org memBench tile bench dep done w k, s.op? o.id = some o → s.opReady o = true →
    o.work = .tcpy dir tr r org memBench tile bench dep done →
    moveElems (fun (v : State) q => v.moveElem o (Layout.of r.toNat) dir tr org memBench (s.tileAt o.tid tile) bench q)
      ((Layout.of r.toNat).total - done) done s = (w, k, none) →
    exec (.tcpyComplete o.id) s = .next (w.endOp o)) ∧
  (∀ (s : State) o op f src dst n fill res done w k, s.op? o.id = some o → s.opReady o = true →
    o.work = .nmc op f src dst n fill res done →
    (s.nmcFlush o.tid (o.regs.headD 0) ((o.regs[1]?).getD 0) ((o.regs[2]?).getD 0) o.work).runNmc o op f src dst n fill res done =
      (w, k, none) →
    exec (.nmcComplete o.id) s = .next (w.completeOp o)) ∧
  (∀ (s : State) o, s.op? o.id = some o → o.state = .skipped →
    (o.work.isCpy = true → exec (.cpyComplete o.id) s = .next (s.completeOp o)) ∧
    (o.work.isGath = true → exec (.gathComplete o.id) s = .next (s.completeOp o)) ∧
    (o.work.isTcpy = true → exec (.tcpyComplete o.id) s = .next (s.endOp o)) ∧
    (o.work.isNmc = true → exec (.nmcComplete o.id) s = .next (s.completeOp o))) ∧
  (∀ (s : State) o tr r org memBench tile bench dep done x b es e,
    o.work = .tcpy .memToTile tr r org memBench tile bench dep done → s.tileAt o.tid tile = some x → s.band? o.tid.band = some b →
    b.tileEntries[x.k]? = some es → es[x.idx]? = some e → dep = none →
    ((s.endOp o).tileAt o.tid tile) = some { x with entry := { e with
      done := e.done + 1, state := if e.fills ≤ e.done + 1 then .ready else .filling } }) ∧
  (∀ (w : State) o, (w.ops.map (·.id)).Nodup → o ∈ w.ops →
    let u := w.completeOp o
    u = { w with ops := u.ops } ∧ (∀ x ∈ u.ops, x.id = o.id → x.state = .complete) ∧ (∀ x ∈ u.ops, x.id ≠ o.id → x ∈ w.ops) ∧
    (∀ x ∈ w.ops, x.id ≠ o.id → x.state ≠ .complete → x ∈ u.ops) ∧
    ∀ x, (u.ops.filter fun y => y.tid.band == o.tid.band && y.tid.troop == o.tid.troop && y.cls == o.cls).head? = some x →
      x.state ≠ .complete) ∧
  ∀ (s : State) o w k kind why va wr, s.op? o.id = some o → s.opReady o = true → s.runOp o = (w, k, some (.fault kind why va wr)) →
    let stat : Word := BitVec.ofNat 32 (kind + 2 ^ 4 * why + 2 ^ 8 * bitN wr + 2 ^ 9 * o.cls.code.val + 2 ^ 12 * bitN o.work.dc)
    ∃ u, exec (.copyFault o.id) s = .next u ∧ (∀ x ∈ u.ops, x.id = o.id → x.state = .suspended) ∧
      u.asyncs = w.asyncs ++ [⟨w.fresh, o.tid, 0x0B, stat, BitVec.ofNat 57 va,
        [stat, BitVec.ofNat 32 (o.hnd + 2 ^ 12 * o.work.tileIdx), BitVec.ofNat 32 va, BitVec.ofNat 32 (va / 2 ^ 32 % 2 ^ 25)] ++
          (cfIndices o k ++ List.replicate 5 0).take 5, [], some o.id⟩] ∧
      u.ctxs = modIf (·.asid == o.asid) (fun c => { c with cfcount := satInc c.cfcount }) w.ctxs ∧
      u = { w with ops := u.ops, ctxs := u.ctxs, asyncs := u.asyncs, fresh := w.fresh + 1 }

/-- R237, R239 to R244: MATRIX_ENTRY_PERFORM of a round that the governor lets through charges its units and gives every
element of 64 rows and 96 columns its value; one over the budget is held and counted once. ACCRD's row arrives in its
registers, and ACCWR puts every element. The operation is then complete. GOVERNOR_WINDOW gives the next window its budget. -/
def Obligations.MatrixPerforms : Prop :=
  let spread (b : Band) (k col n : Nat) : Prop := ∀ i j, i < n → j < n →
    b.accCol k (col + i) < 4096 ∧ (b.accCol k (col + i) = b.accCol k (col + j) → i = j)
  let popped (s : State) (core : Nat) : State := s.modCore core fun c => { c with mx := c.mx.tail }
  (∀ (s : State) core c op r held b, s.core? core = some c → c.mx.head? = some ⟨op, .round r, held⟩ → s.band? r.band = some b →
    s.clock < c.mgorigin + 256 * (c.mgwindow + 1) → c.mxNext ≤ s.clock → c.mgused + unitsOf r.entry.af ≤ c.mgbudget →
    s.tileSick core r.tile r.entry = false → spread b (b.kOf r.last) r.col 96 →
    ∃ (w u : State) (c1 : CoreSt), exec (.matrixEntryPerform core) s = .next u ∧ u = w.entryDone op ∧ w.core? core = some c1 ∧
      c1.mgused = c.mgused + unitsOf r.entry.af ∧ c1.mxNext = s.clock + 4 ∧ c1.mx = c.mx.tail ∧
      (∀ i n, i < 64 → n < 96 → c1.accAt i (b.accCol (b.kOf r.last) (r.col + n)) =
        (r.element (s.tileData core r.tile) (c.accAt i (b.accCol (b.kOf r.last) (r.col + n))) i n).1) ∧
      (∀ k, (∀ i n, i < 64 → n < 96 → k ≠ accKey i (b.accCol (b.kOf r.last) (r.col + n))) → look 0 k c1.acc = look 0 k c.acc) ∧
      ((∀ x i n, i < 64 → n < 96 → (r.element (s.tileData core r.tile) x i n).2 = []) → w = { s with cores := w.cores })) ∧
  (∀ (s : State) core c op r, s.core? core = some c → c.mx.head? = some ⟨op, .round r, false⟩ →
    s.clock < c.mgorigin + 256 * (c.mgwindow + 1) → c.mxNext ≤ s.clock → c.mgbudget < c.mgused + unitsOf r.entry.af →
    exec (.matrixEntryPerform core) s = .next (s.modCore core fun c =>
      ({ c with mx := modAt c.mx 0 fun e => { e with held := true } } : CoreSt).count (s.asidOf r.last) fun k =>
        { k with mgov := satInc k.mgov })) ∧
  (∀ (s : State) core c op t df r satf d col nr zr held b, s.core? core = some c →
    c.mx.head? = some ⟨op, .read t df r satf d col nr zr, held⟩ → s.band? t.band = some b →
    (∀ e < nr * 32 / df.width, c.accBad t.lane (b.accCol (b.kOf t) (col + e)) = false) →
    let cols := (List.range (nr * 32 / df.width)).map fun e => b.accCol (b.kOf t) (col + e)
    let bits := packElems df.width (cols.map fun p =>
      if df = .i32 then wrapInt 32 (toIntOf (Fmt.f32.value (c.accAt t.lane p).toNat) .i32 r)
      else roundToFormat (Fmt.f32.value (c.accAt t.lane p).toNat) df r satf)
    let w := ((popped s core).writeRegs t
      ((List.range nr).map fun j => RegWrite.v (regAt d j) (BitVec.ofNat 32 (bits / 2 ^ (32 * j))))).clearFlags op false
    exec (.matrixEntryPerform core) s = .next ((if zr then
      w.modCore core fun c => cols.foldl (fun c p => c.setAcc t.lane p 0 false) c else w).entryDone op)) ∧
  (∀ (s : State) core c op t sf col add vals held b, s.core? core = some c →
    c.mx.head? = some ⟨op, .writeReg t sf col add vals, held⟩ → s.band? t.band = some b →
    spread b (b.kOf t) col (vals.length * 32 / sf.width) →
    ∃ (w u : State) (c1 : CoreSt), exec (.matrixEntryPerform core) s = .next u ∧ u = w.entryDone op ∧ w = { s with cores := w.cores } ∧
      w.core? core = some c1 ∧ c1.mx = c.mx.tail ∧
      (∀ e, e < vals.length * 32 / sf.width → c1.accAt t.lane (b.accCol (b.kOf t) (col + e)) =
        (let x := sf.value (elem sf.width e (packElems 32 (vals.map (·.toNat))))
         BitVec.ofNat 32 (roundToFormat (if add then
           (Fmt.f32.value (c.accAt t.lane (b.accCol (b.kOf t) (col + e))).toNat).add .rne x else x) .f32 .rne false))) ∧
      ∀ k, (∀ e, e < vals.length * 32 / sf.width → k ≠ accKey t.lane (b.accCol (b.kOf t) (col + e))) →
        look 0 k c1.acc = look 0 k c.acc) ∧
  (∀ (s : State) core c op t en data col row0 add held b, s.core? core = some c →
    c.mx.head? = some ⟨op, .writeTile t en data col row0 add, held⟩ → s.band? t.band = some b →
    spread b (b.kOf t) col 96 →
    ∃ (w u : State) (c1 : CoreSt), exec (.matrixEntryPerform core) s = .next u ∧ u = w.entryDone op ∧ w = { s with cores := w.cores } ∧
      w.core? core = some c1 ∧ c1.mx = c.mx.tail ∧
      (∀ k n, k < en.depth → n < 96 → c1.accAt (row0 + k) (b.accCol (b.kOf t) (col + n)) =
        (let sb := tileScale en data n (k / blockLen en.af)
         let x := if sb = 0xFF then Val.nan else (tileElem en data n k).scale ((sb : Int) - 127)
         BitVec.ofNat 32 (roundToFormat (if add then
           (Fmt.f32.value (c.accAt (row0 + k) (b.accCol (b.kOf t) (col + n))).toNat).add .rne x else x) .f32 .rne false))) ∧
      ∀ j, (∀ k n, k < en.depth → n < 96 → j ≠ accKey (row0 + k) (b.accCol (b.kOf t) (col + n))) →
        look 0 j c1.acc = look 0 j c.acc) ∧
  ∀ (s : State) core c, s.core? core = some c → c.mgorigin + 256 * (c.mgwindow + 1) ≤ s.clock →
    s.clock < c.mgorigin + 256 * (c.mgwindow + 2) →
    ∃ u, exec (.governorWindow core) s = .next u ∧ u = { s with cores := u.cores } ∧
      u.core? core = some { c with
        mgwindow := c.mgwindow + 1, mgspent := c.mgused, mgused := 0, mgcap := c.mgcapNext, mgstep := c.mgstepNext
        mgbudget := min (min c.mgcapNext c.mgpower) (c.mgused + c.mgstepNext) } ∧
      ∀ d, d ≠ core → u.core? d = s.core? d

/-- R283 to R286, R290 to R294: the egress of a COLL reads its source and builds the chunk, whose header and checks the rules
give. The first input of a chunk takes a slot; the last is reduced pairwise with the others once they verify and every witness
check holds; across modules the partial goes to the others, and theirs are reduced into it. A verified result is written for
every participant, whose COLL then completes, and for none while another module's outcome is missing or one destination cannot
be written. A chunk whose check fails, or that its inputs do not reach in time, writes nothing for anyone: its slot goes, every
participant's COLL completes and every participant that has not exited gets CHUNK_CHECK with the kind and the hop. -/
def Obligations.CollectivesReduce : Prop :=
  let f (m : Fin 4) : Fmt := collFmt m
  let arrives (s : State) (o : EngOp) (c : ChunkSlot) (x : Chunk) : Prop :=
    s.op? o.id = some o ∧ o.state = .running ∧ o.egress = some x ∧ x.verifies = true ∧
      s.chunks.find? (fun k => k.ident == ⟨o.asid, x.coll, x.step, x.chunk⟩) = some c ∧ s.overdue c = false ∧
      ∃ src dst off fmc cl st ch, o.work = .coll src dst off c.len c.cross c.opr fmc c.np cl st ch ∧ x.data.length = c.len ∧
        x.op? = some c.opr ∧ x.fmc? = some c.fmc
  let sent (s : State) (o : EngOp) : List EngOp := modIf (·.id == o.id) (fun y => { y with egress := none, sent := true }) s.ops
  let failed (s u : State) (c : ChunkSlot) (kind hop : Nat) : Prop :=
    u = s.failChunk c kind hop s.dev.modnum ∧ (∀ x ∈ u.chunks, x.id ≠ c.id) ∧
      ((s.ops.map (·.id)).Nodup → (∀ i ∈ c.inputs, ∀ o ∈ u.ops, o.id = i.1 → o.state = .complete) ∧
        ∀ i ∈ c.inputs, ∀ o ∈ s.ops, o.id = i.1 → o.state ≠ .complete → s.statusOf o.tid ≠ .exited →
          ∃ a ∈ u.asyncs, a.tid = o.tid ∧ a.cause = 0x0F ∧ a.addr = BitVec.ofNat 57 o.work.collOff ∧
            a.ck = [BitVec.ofNat 32 (c.coll + 2 ^ 16 * c.step + 2 ^ 24 * kind), BitVec.ofNat 32 (c.chunk + 2 ^ 24 * hop),
              BitVec.ofNat 32 s.dev.modnum])
  (∀ bs, transport bs =
    ((List.range (bs.length / 4)).map fun i => leNat ((bs.drop (4 * i)).take 4) * 3 ^ (i + 1)).sum % (2 ^ 61 - 1)) ∧
  (∀ c : Chunk, c.t < 2 ^ 64 → -2 ^ 127 ≤ c.w → c.w < 2 ^ 127 → c.opr < 4 → c.fmt < 32 → c.hop < 256 → c.chunk < 2 ^ 24 →
    c.step < 256 → c.coll < 2 ^ 16 → Chunk.ofHeader c.header c.data = c) ∧
  (∀ (s : State) o src dst off len cross opr m np coll step chunk s1 bs,
    o.work = .coll src dst off len cross opr m np coll step chunk → o.egress = none → o.sent = false → s.opReady o = true →
    s.engRead o ⟨false, src⟩ len = (s1, .ok bs) →
    let x := mkChunk opr (f m) (dieOf o.core) ⟨o.asid, coll, step, chunk⟩ bs
    s.egress o = s1.modOp o.id (fun y => { y with egress := some x }) ∧ x.verifies = true ∧ x.data = bs ∧
      x.t = transport bs ∧ (x.w, x.wsat) = witness (f m) bs ∧ x.op? = some opr ∧ x.fmc? = some m) ∧
  (∀ (s : State) o src dst off len cross opr m np coll step chunk x, s.op? o.id = some o → o.state = .running →
    o.work = .coll src dst off len cross opr m np coll step chunk → o.egress = some x → x.verifies = true → 2 ≤ np →
    s.chunks.find? (fun k => k.ident == ⟨o.asid, x.coll, x.step, x.chunk⟩) = none → s.chunks.length < 256 →
    (∀ k ∈ s.chunks, k.id < s.fresh) →
    ∃ c, exec (.collInputArrive o.id none none) s = .next { s with
        chunks := s.chunks ++ [c], fresh := s.fresh + 1, ops := sent s o } ∧
      c.id = s.fresh ∧ c.ident = ⟨o.asid, x.coll, x.step, x.chunk⟩ ∧ c.np = np ∧ c.cross = cross ∧ x.op? = some c.opr ∧
      x.fmc? = some c.fmc ∧ c.len = x.data.length ∧ c.inputs = [(o.id, x)] ∧ c.acc = none ∧ c.failed = none ∧
      c.verified = false ∧ c.deadline = s.clock + s.collWaitOf o.asid ∧
      c.peers = (if cross then s.otherModules o.asid else []) ∧ c.votes = c.peers) ∧
  (∀ (s : State) o c x out a r y, arrives s o c x → c.inputs.length + 1 = c.np → c.failed = none →
    (c.inputs ++ [(o.id, x)]).map (·.2) = a :: r →
    let c1 : ChunkSlot := { c with inputs := c.inputs ++ [(o.id, x)] }
    let s1 : State := { s with ops := sent s o }
    (reduceAll c.opr (f c.fmc) out a r = (y, true) → c.cross = false →
      exec (.collInputArrive o.id none out) s = .next (s1.setSlot { c1 with acc := some y })) ∧
    (reduceAll c.opr (f c.fmc) out a r = (y, true) → c.cross = true → s.inGroup c.asid = true →
      s.mail.filter (fun m => m.chunk == c.ident) = [] → s.mail.filter (fun m => m.chunk != c.ident) = s.mail →
      exec (.collInputArrive o.id none out) s = .next { s1.setSlot { c1 with acc := some y } with
        outbox := s.outbox ++ c.peers.map fun g => .coll g c.asid (.partialResult y.header y.data) }) ∧
    (reduceAll c.opr (f c.fmc) out a r = (y, false) →
      ∃ u, exec (.collInputArrive o.id none out) s = .next u ∧ failed s1 u c1 3 8)) ∧
  (∀ (s : State) o c x out, arrives s o c x → c.inputs.length + 1 < c.np → exec (.collInputArrive o.id none out) s =
    .next (({ s with ops := sent s o } : State).setSlot { c with inputs := c.inputs ++ [(o.id, x)] })) ∧
  (∀ (s : State) o c x out, arrives s o c x → c.np ≤ c.inputs.length →
    ∃ u, exec (.collInputArrive o.id none out) s = .next u ∧
      failed { s with ops := sent s o } u { c with inputs := c.inputs ++ [(o.id, x)] } 4 8) ∧
  (∀ (s : State) asid coll step chunk port modnum opr fmt hop bs t w wsat out c a,
    let x := Chunk.ofHeader (w ++ t ++ BitVec.ofBool wsat ++ opr ++ fmt ++ hop ++ chunk ++ step ++ coll) bs
    let i : ChunkId := ⟨asid, x.coll, x.step, x.chunk⟩
    s.stale.contains (i, modnum) = false → s.chunks.find? (fun k => k.ident == i) = some c → c.acc = some a →
    c.peers.contains modnum = true →
    let go := exec (.collPartialArrive asid coll step chunk port modnum opr fmt (.partialResult hop bs) t w wsat out) s
    let o := reducePair c.opr (f c.fmc) a x out
    (x.verifies = false → ∃ u, go = .next u ∧ failed s u c 1 (16 + port.val)) ∧
    (x.verifies = true →
      let agree : Prop := x.op? = some c.opr ∧ x.fmc? = some c.fmc ∧ bs.length = c.len
      (¬ agree → ∃ u, go = .next u ∧ failed s u c 4 8) ∧
      (agree → witnessOk c.opr (f c.fmc) a x o = false → ∃ u, go = .next u ∧ failed s u c 3 8) ∧
      (agree → witnessOk c.opr (f c.fmc) a x o = true →
        go = .next (s.setSlot { c with acc := some o, peers := c.peers.filter (· != modnum) })))) ∧
  (∀ (s : State) slot c x, s.chunks.find? (·.id == slot) = some c → c.acc = some x → c.peers = [] → c.verified = false →
    let s0 := s.setSlot { c with verified := true }
    let write (w : State) (i : Nat) : State := match w.op? i with
      | some o => if o.state = .skipped then w.completeOp o
        else match o.work with | .coll _ dst .. => (w.engWrite o ⟨false, dst⟩ x.data).1.completeOp o | _ => w
      | none => w
    let ids := c.inputs.map (·.1)
    (c.cross = false → c.votes = [] →
      ((∀ l i r, ids = l ++ i :: r → ∃ o src dst off len cross opr m np coll step chunk, (l.foldl write s0).op? i = some o ∧
        o.work = .coll src dst off len cross opr m np coll step chunk ∧ (o.state = .skipped ∨ (l.foldl write s0).opReady o = true ∧
          ((l.foldl write s0).engWrite o ⟨false, dst⟩ x.data).2 = none)) →
        exec (.collDeliver slot []) s = .next { ids.foldl write s0 with
          chunks := (ids.foldl write s0).chunks.filter fun y => y.id != c.id }) ∧
      ∀ w o h, State.deliverAll x.data ids s0 = (w, some (o, h)) → (∀ va, h ≠ .miss va) → exec (.collDeliver slot []) s = .next s0) ∧
    (c.cross = true → c.votes ≠ [] → exec (.collDeliver slot []) s = .next { s0 with
      outbox := s.outbox ++ (s.otherModules c.asid).map fun g => .coll g c.asid (.outcome c.coll c.step c.chunk none) }) ∧
    ∀ bad d, s.badDie c bad = some d → ∃ u, exec (.collDeliver slot bad) s = .next u ∧ failed s u c 2 d) ∧
  ∀ (s : State) slot c, s.chunks.find? (·.id == slot) = some c → c.acc = none → c.deadline < s.clock →
    ∃ u, exec (.collTimeout slot) s = .next u ∧ failed s u c 5 8

/-- R164, R166, R170, R173 to R176, R180: BOR on an EMPTY or REFUSED register makes it PENDING and asks for its first piece, or
refuses it at once where a block has no home or homes mix; of a redundant pair the second of two equal BORs asks, under the number
that the first took. Without nowait the thread waits while the register is PENDING; a waiting BOR that was interrupted waits on
with no second request (R298). REB carves a child out of a HELD register, SPL and JON split and join ranges, in the family at the
top and in the parent below it. RTN empties its register: a request is withdrawn, a held range begins its return, and a return to
a home commits. (An RTN of a redundant pair to a home waits for its partner: R312.) -/
def Obligations.BorrowsIssue : Prop :=
  let bare (w : State) (t : Tid) (g : GReg) : Prop := (w.regT t g).state = .empty
  let asked (tag : Nat) (kind : Kind) (base len : Nat) : Region :=
    { Region.none with state := .pending, kind := kind, base := base, len := len, top := true, family := tag }
  let again : Band → Band := fun x => { Band.unborrowed x with troops := x.troops.map fun y =>
    { y with g := [], threads := y.threads.map fun th => { th with borWait := none } } }
  (∀ m kind nowait d a b,
    let rel := lastReads m (regGroup a 2) [b]
    let base (v : State) (t : Tid) : Nat := (v.srcA2 m t a).toNat
    let len (v : State) (t : Tid) : Nat := (v.srcB m t b).toNat
    let held (w : State) (t : Tid) : Prop := (w.thread? t).bind (·.borWait) = some d.val ∧ w.inHandler t = false
    Completes (.bor m kind nowait d a b) m (regGroup a 2 ++ [b]) rel
      (fun _ v w t => ¬ held w t ∧ (bare w t d ∨ (w.regT t d).state = .refused) ∧
        base v t % 128 = 0 ∧ len v t % 128 = 0 ∧ len v t ≠ 0 ∧ base v t + len v t ≤ 2 ^ 57)
      (fun bu v w t =>
        let x := w.askBorrow t d kind nowait (base v t) (len v t)
        if (x.1.regT t d).state = .pending then
          (if nowait then (x.1.setFlag t bu.seta x.2 false, .next) else (x.1, .wait (.borrow d)))
        else (x.1, .next)) (fun bu => Touch.borrow rel [bu.seta]) ∧
    Completes (.bor m kind nowait d a b) m (regGroup a 2 ++ [b]) rel (fun _ _ w t => held w t)
      (fun _ _ w t =>
        let w1 := w.modThread t fun th => { th with borWait := none }
        if (w1.regT t d).state = .pending then (w1, .wait (.borrow d)) else (w1, .next))
      fun _ => { Touch.borrow rel [] with band := again }) ∧
  (∀ (s : State) t d kind nowait base len p ps, s.twinOf t = none → (∀ b ∈ s.borrows, b.tag < s.fresh) →
    let s1 := s.setReg t d (asked s.fresh kind base len)
    let asid := s.asidOf t
    let dom := ((s.ctx? asid).map (·.domain)).getD 0
    let bound := s.clock + s.deedWaitOf asid
    s1.next.pieces asid base len = .ok (p :: ps) →
    s.askBorrow t d kind nowait base len =
      ({ s1 with
          borrows := s.borrows ++ [⟨s.fresh, askerOf t d, asid, dom, dieOf (s.coreOf t), kind, nowait, p :: ps, [], bound, s.fresh⟩]
          msgs := s.msgs ++ [⟨s.fresh + 1, p.home, askerOf t d, .dreq ⟨s.fresh, dom, asid, s1.requester (askerOf t d),
            s1.pieceKey asid p, p.len, kind, nowait,
            if p.home < 5 then bound else s.clock + Config.peerDeedWait (p.home - 5)⟩⟩]
          fresh := s.fresh + 2 }, s.fresh)) ∧
  (∀ (s : State) t d kind nowait base len sub, s.twinOf t = none → s.partner t.band = none →
    let s1 := (s.setReg t d (asked s.fresh kind base len)).next
    s1.pieces (s.asidOf t) base len = .error sub →
    s.askBorrow t d kind nowait base len =
      (((s1.countRef (s.asidOf t)).modReg t.band t.troop d fun r => { r with state := .refused, sub := sub }).clearFlags s.fresh false,
        s.fresh)) ∧
  (∀ (s : State) t u d kind nowait base len, s.twinOf t = some u →
    (s.pairedAsk t d (asked 0 kind base len) = false →
      s.askBorrow t d kind nowait base len = (s.next.setReg t d (asked s.fresh kind base len), s.fresh)) ∧
    (s.pairedAsk t d (asked 0 kind base len) = true →
      let tag := (s.regT u d).family
      let s1 := s.next.setReg t d (asked tag kind base len)
      s.askBorrow t d kind nowait base len =
        (s1.startBorrow tag (askerOf t d) (s1.asidOf t) base len kind nowait (dieOf (s1.coreOf t)), tag))) ∧
  (∀ m toS d a b,
    let rel := lastReads m [] (regGroup b 2)
    let off (v : State) (t : Tid) : Nat := (v.srcB m t b).toNat
    let len (v : State) (t : Tid) : Nat := (v.srcB m t (regAt b 1)).toNat
    let kind (w : State) (t : Tid) : Kind := if toS then .s else (w.regT t a).kind
    let lo (v w : State) (t : Tid) : Nat := (w.regT t a).base + off v t
    Completes (.reb m toS d a b) m (regGroup b 2) rel
      (fun _ v w t => (w.regT t a).state = .held ∧ bare w t d ∧ (w.regT t a).kids.length ≠ 64 ∧
        (toS = true → (w.regT t a).kind ≠ .a) ∧ off v t % 128 = 0 ∧ len v t % 128 = 0 ∧ len v t ≠ 0 ∧
        off v t + len v t ≤ (w.regT t a).len ∧
        (∀ x ∈ (w.regT t a).kids, meets x.base x.len (lo v w t) (len v t) = true → x.kind = kind w t ∧ kind w t ≠ .e) ∧
        ∀ f ∈ w.flights, f.tid = t → meets f.va f.act.size (lo v w t) (len v t) = false)
      (fun _ v w t =>
        let p := w.regT t a
        let w1 := w.setReg t a { p with kids := p.kids ++ [⟨lo v w t, len v t, kind w t⟩] }
        ((w1.setReg t d ⟨.held, p.space, kind w t, lo v w t, len v t, p.deed, false, a.val, [], 0, p.family⟩).carveLines
          t a d (lo v w t) (len v t), .next))
      fun _ => { regs := rel, band := Band.unborrowed, core := CoreSt.cold, die := DieSt.cold, rest := fun s u =>
        { s with bands := u.bands, slots := u.slots, bundles := u.bundles, cores := u.cores, dies := u.dies, mem := u.mem,
                 peerMem := u.peerMem, poison := u.poison, unreturned := u.unreturned } }) ∧
  (∀ m d a b,
    let rel := lastReads m [] [b]
    let sp (v : State) (t : Tid) : Nat := (v.srcB m t b).toNat
    Completes (.spl m d a b) m [b] rel
      (fun _ v w t => (w.regT t a).state = .held ∧ (w.regT t a).kids = [] ∧ bare w t d ∧ sp v t % 128 = 0 ∧ sp v t ≠ 0 ∧
        sp v t < (w.regT t a).len ∧
        ((w.regT t a).top = false → (w.regT t (Fin.ofNat 16 (w.regT t a).parent)).kids.length ≠ 64))
      (fun _ v w t =>
        let x := w.regT t a
        let w1 := (w.setReg t d { x with base := x.base + sp v t, len := x.len - sp v t, kids := [] }).setReg t a
          { x with len := sp v t }
        let parts (ks : List KidRange) : List KidRange :=
          ks.erase ⟨x.base, x.len, x.kind⟩ ++ [⟨x.base, sp v t, x.kind⟩, ⟨x.base + sp v t, x.len - sp v t, x.kind⟩]
        (if x.top then w1.countFamily t x.family true
         else w1.modReg t.band t.troop (Fin.ofNat 16 x.parent) fun p => { p with kids := parts p.kids }, .next))
      fun _ => Touch.borrow rel []) ∧
  (∀ m d a, Completes (.jon m d a) m [] []
      (fun _ _ w t => let x := w.regT t a; let y := w.regT t d
        x.state = .held ∧ y.state = .held ∧ x.kids = [] ∧ y.kids = [] ∧ siblings x y = true ∧ x.kind = y.kind ∧
        x.space = y.space ∧ (x.base + x.len = y.base ∨ y.base + y.len = x.base))
      (fun _ _ w t =>
        let x := w.regT t a
        let y := w.regT t d
        let w1 := (w.setReg t d { y with base := min x.base y.base, len := x.len + y.len }).setReg t a Region.none
        let joined (ks : List KidRange) : List KidRange :=
          (ks.erase ⟨x.base, x.len, x.kind⟩).erase ⟨y.base, y.len, y.kind⟩ ++ [⟨min x.base y.base, x.len + y.len, y.kind⟩]
        (if x.top then w1.countFamily t x.family false
         else w1.modReg t.band t.troop (Fin.ofNat 16 x.parent) fun p => { p with kids := joined p.kids }, .next))
      fun _ => Touch.borrow [] []) ∧
  ∀ m rel a,
    let home (w : State) (t : Tid) : Bool := (w.regT t a).top && (w.regT t a).space != .bench
    Completes (.rtn m rel a) m [] []
      (fun _ _ w t => ¬ bare w t a ∧ ((w.regT t a).state = .held → (w.regT t a).kids = [] ∧ (home w t = true → w.twinOf t = none)))
      (fun _ _ w t =>
        if (w.regT t a).state = .held then ((if home w t then w.commit t.band else w).startReturn t a rel, .next)
        else (w.emptyReg t a, .next))
      fun _ => Touch.borrow [] (List.range 12)

/-- R162, R163, R165, R166, R175, R177, R178, R181, R320, R344: a request that arrives at its home (a peer's piece in the domain
of its window, refused with PEER where no window covers it) is granted where nothing overlaps it but shared entries of its kind,
no older request waits for an overlapping range and the table has an entry for it; with nowait it is refused with CONFLICT or
FULL, else it waits and is counted; over a lost entry it is refused with LOST. An E entry names its holder. A release drops its
entry's count, or frees the entry, a cancelled or expired request leaves the queue, and the queue is examined again. A lost entry
is asked for at every die, and when all have answered it stands for what they hold, or is free. -/
def Obligations.HomesAnswer : Prop :=
  let got (s : State) (id home : Nat) (who : Asker) (body : MsgBody) : Prop := s.msgs.find? (·.id == id) = some ⟨id, home, who, body⟩ ∧
    ∀ x ∈ s.msgs, x.id < id → x.body.toHolder = body.toHolder →
      ¬ (x.home = home ∧ (5 ≤ home ∨ x.who = who)) ∧ ∀ n, x.who = who → who ≠ .peer n
  let left (s : State) (id : Nat) : List Msg := s.msgs.filter (·.id != id)
  let put (s : State) (h : HomeSt) : List HomeSt :=
    if 5 ≤ h.id ∧ ∀ x ∈ s.homes, x.id ≠ h.id then s.homes ++ [h] else modIf (·.id == h.id) (fun _ => h) s.homes
  let clear (r : DeedReq) (h : HomeSt) : Prop := (∀ e ∈ h.entries, r.meets e.domain e.base e.len = true → e.kind = r.kind ∧ r.kind ≠ .e) ∧
    ∀ q ∈ h.queue, r.meets q.domain q.base q.len = false
  let sound (r : DeedReq) (h : HomeSt) : Prop := ∀ x ∈ h.lost, r.meets x.domain x.base x.len = false
  let asks (s : State) (id home : Nat) (who : Asker) (r : DeedReq) (h : HomeSt) : Prop :=
    ∃ r0, got s id home who (.dreq r0) ∧ r0.atHome home = some r ∧ s.home? home = some h
  (∀ (r : DeedReq) home, home < 5 → r.atHome home = some r) ∧
  (∀ s id home who r h, asks s id home who r h → sound r h → clear r h → h.hasEntry r = true →
    ∃ (h1 : HomeSt) (i : Nat), ((∃ e, h.shared r = some e ∧ i = e.idx ∧
        h1 = { h with entries := modIf (fun x => x.idx == e.idx) (fun x => { x with count := x.count + 1 }) h.entries }) ∨
      (h.shared r = none ∧ i = freeIndex (h.entries.map (·.idx)) ∧
        h1 = { h with entries := h.entries ++
          [⟨i, r.domain, r.base, r.len, r.kind, r.asid, if r.kind = .e then some r.requester else none, 1⟩] })) ∧
      exec (.dreq id) s = .next { s with
        homes := put s h1, msgs := left s id ++ [⟨s.fresh, home, who, .dgrant r.tag (min home 5 * 2 ^ 17 + i) r.kind⟩]
        fresh := s.fresh + 1 }) ∧
  (∀ s id home who r h, asks s id home who r h → ∀ sub,
    (¬ sound r h ∧ sub = 6) ∨ (sound r h ∧ r.nowait = true ∧ ¬ clear r h ∧ sub = 2) ∨
      (sound r h ∧ r.nowait = true ∧ clear r h ∧ h.hasEntry r = false ∧ sub = 3) →
    exec (.dreq id) s = .next { s with
      msgs := left s id ++ [⟨s.fresh, home, who, .drefuse r.tag sub⟩], fresh := s.fresh + 1 }) ∧
  (∀ s id home who r0, got s id home who (.dreq r0) → r0.atHome home = none →
    exec (.dreq id) s = .next { s with
      msgs := left s id ++ [⟨s.fresh, home, who, .drefuse r0.tag 7⟩], fresh := s.fresh + 1 }) ∧
  (∀ s id home who r h, asks s id home who r h → sound r h → r.nowait = false → ¬ clear r h ∨ h.hasEntry r = false →
    exec (.dreq id) s = .next { s with
      msgs := left s id, homes := put s { h with queue := h.queue ++ [r] }
      ctxs := modIf (·.asid == r.asid) (fun c => { c with borque := satInc c.borque }) s.ctxs }) ∧
  (∀ s id home who idx kind fam ret h, got s id home who (.drel idx kind fam ret) → s.home? home = some h → (∀ x ∈ h.lost, x.idx ≠ idx) →
    let less : List DeedEntry := modIf (fun e : DeedEntry => e.idx == idx) (fun e => { e with count := e.count - 1 }) h.entries
    let freed : HomeSt := { h with entries := less.filter fun e => !(e.idx == idx && e.count == 0) }
    let w : State := { s with msgs := left s id, homes := put s freed }
    exec (.drel id) s = .next ((if ret = 0 then w else { w with
      msgs := left s id ++ [⟨s.fresh, home, who, .drelack ret⟩], fresh := s.fresh + 1 }).examineHome home)) ∧
  (∀ s id home who tag h, got s id home who (.dcancel tag) → s.home? home = some h →
    exec (.dcancel id) s = .next (({ s with
      msgs := left s id, homes := put s { h with queue := h.queue.filter fun q => q.tag != tag } } : State).examineHome home)) ∧
  (∀ (s : State) tag h q, s.homes.find? (fun h => h.queue.any fun q => q.tag == tag && !q.nowait && q.deadline ≤ s.clock) = some h →
    s.home? h.id = some h → h.queue.find? (·.tag == tag) = some q →
    let sub := if h.grantable q = true ∧ q.behind (h.queue.takeWhile fun x => x.tag != tag) = false then 3 else 1
    let gone : HomeSt := { h with queue := h.queue.filter fun x => x.tag != tag }
    exec (.deedwaitTimeout tag) s = .next (({ s with
      homes := put s gone, msgs := s.msgs ++ [⟨s.fresh, h.id, s.whoOf q, .drefuse tag sub⟩]
      fresh := s.fresh + 1 } : State).examineHome h.id)) ∧
  (∀ (s : State) home h q, s.home? home = some h → h.queue = [q] → sound q h → h.grantable q = true → h.hasEntry q = true →
    ∃ h1 i, s.examineHome home = { s with
        homes := put s h1, msgs := s.msgs ++ [⟨s.fresh, home, s.whoOf q, .dgrant q.tag (min home 5 * 2 ^ 17 + i) q.kind⟩]
        fresh := s.fresh + 1 } ∧ h1.queue = [] ∧ ∃ e ∈ h1.entries, e.idx = i ∧ e.base = q.base ∧ e.len = q.len ∧ e.kind = q.kind) ∧
  (∀ (s : State) home idx h e, s.home? home = some h → h.entries.find? (·.idx == idx) = some e →
    ∃ u, exec (.deedEntryLost home idx) s = .next u ∧
      u.home? home = some { h with lost := h.lost.filter (fun x => x.idx != idx) ++ [⟨idx, e.domain, e.base, e.len, e.asid, 5, []⟩],
                                   queue := h.queue.filter fun q => !q.meets e.domain e.base e.len } ∧
      (∀ q ∈ h.queue, q.meets e.domain e.base e.len = true → ∃ m ∈ u.msgs, m.home = home ∧ m.body = .drefuse q.tag 6) ∧
      ∀ d, d < 5 → ∃ m ∈ u.msgs, m.home = home ∧ m.body = .dquery idx d) ∧
  (∀ (s : State) id home who idx die, s.msgs.find? (·.id == id) = some ⟨id, home, who, .dquery idx die⟩ →
    exec (.dquery id) s = .next { s with
      msgs := left s id ++ [⟨s.fresh, home, who, .dhold idx die (s.holdersOf home idx die)⟩], fresh := s.fresh + 1 }) ∧
  (∀ (s : State) id home who idx die found, s.msgs.find? (·.id == id) = some ⟨id, home, who, .dhold idx die found⟩ →
    let heard : HomeSt → HomeSt := fun h => { h with
      lost := modIf (fun r => r.idx == idx) (fun r => { r with waiting := r.waiting - 1, found := r.found ++ found }) h.lost }
    exec (.dhold id) s = .next (({ s with msgs := left s id } : State).modHome home heard)) ∧
  ∀ (s : State) home h r, s.home? home = some h → h.lost.find? (fun r => r.waiting == 0) = some r → (∀ x ∈ h.heldRels, x.1 ≠ r.idx) →
    let n := ((r.found.map (·.idx)).eraseDups).length
    let stands : HomeSt := { h with
      entries := if n = 0 then h.entries.filter fun e => e.idx != r.idx
        else modIf (fun e : DeedEntry => e.idx == r.idx) (fun e => { e with count := if e.kind = .e then 1 else n }) h.entries
      lost := h.lost.filter fun x => x.idx != r.idx
      heldRels := h.heldRels.filter fun x => x.1 != r.idx }
    exec (.deedRebuildEnd home) s = .next (({ s with homes := put s stands } : State).faultRecord r.asid
      (recordWords 8 0 0 ⟨0, 0, none, none⟩ (BitVec.ofNat 57 r.base) 0 0 [BitVec.ofNat 32 r.len, BitVec.ofNat 32 n] 0)
      |>.examineHome home)

/-- R161, R164, R166, R175, R177, R178, R186, R343, R345: the grant of a borrow's last piece makes its register HELD in a new
family, and with S or E no line of the range stays in the taker's L1s; an earlier one asks for the next piece, and one that
follows a withdrawal is released again. A refusal makes the register REFUSED (a peer's with PEER), is counted, and releases the
pieces granted before. What is for another module leaves for it. A written-back return leaves its parent, or its family, whose
last member releases the pieces; it is complete when all are acknowledged. A request to a peer that has waited PEERWAIT fails. -/
def Obligations.RequestersTake : Prop :=
  let got (s : State) (id home : Nat) (who : Asker) (body : MsgBody) : Prop := s.msgs.find? (·.id == id) = some ⟨id, home, who, body⟩ ∧
    ∀ x ∈ s.msgs, x.id < id → x.body.toHolder = body.toHolder →
      ¬ (x.home = home ∧ (5 ≤ home ∨ x.who = who)) ∧ ∀ n, x.who = who → who ≠ .peer n
  let left (s : State) (id : Nat) : List Msg := s.msgs.filter (·.id != id)
  let leaves (s : State) (id n : Nat) (b : MsgBody) : Host.Outcome State Fault Refusal :=
    .next { s with msgs := left s id, outbox := s.outbox ++ [.deed n b] }
  let asked (s : State) (tag : Nat) (b : Borrow) (q : Piece) : DeedReq :=
    ⟨tag, b.domain, b.asid, s.requester b.who, s.pieceKey b.asid q, q.len, b.kind, b.nowait,
      if q.home < 5 then b.deadline else s.clock + Config.peerDeedWait (q.home - 5)⟩
  (∀ s id home t g tag deed kind b p, got s id home (askerOf t g) (.dgrant tag deed kind) → s.borrows.find? (·.tag == tag) = some b →
    b.who = askerOf t g → b.todo = [p] → s.partner t.band = none → (s.regT t g).state = .pending →
    let all := b.got ++ [⟨home, deed % 2 ^ 17, p.base, p.len⟩]
    let space := if all.any (5 ≤ ·.home) then Space.peer else .region
    ∃ u, exec (.dgrant id) s = .next u ∧
      u.regT t g = { s.regT t g with
        state := .held, space := space, deed := (all.head?.map fun x => min x.home 5 * 2 ^ 17 + x.idx).getD 0, family := b.family } ∧
      u.borrows = s.borrows.filter (·.tag != tag) ∧ u.families = s.families ++ [⟨b.family, b.asid, b.kind, space, all, 1⟩] ∧
      u.msgs = left s id ∧
      (b.kind ≠ .a → ∀ c ∈ s.askerCores b.who, ∀ k, u.core? c = some k → ∀ l ∈ k.l1, ∀ x ∈ all,
        l.line ∉ s.rangeLines b.asid x.base x.len) ∧
      (b.kind = .a → u.cores = s.cores ∧ u.dies = s.dies)) ∧
  (∀ s id home who tag deed kind b p q rest, got s id home who (.dgrant tag deed kind) → (∀ n, who ≠ .peer n) →
    s.borrows.find? (·.tag == tag) = some b → b.todo = p :: q :: rest →
    let b1 : Borrow := { b with todo := q :: rest, got := b.got ++ [⟨home, deed % 2 ^ 17, p.base, p.len⟩] }
    exec (.dgrant id) s = .next { s with
      borrows := modIf (fun x => x.tag == tag) (fun _ => b1) s.borrows
      msgs := left s id ++ [⟨s.fresh, q.home, b.who, .dreq (asked s tag b q)⟩], fresh := s.fresh + 1 }) ∧
  (∀ s id home who tag deed kind, got s id home who (.dgrant tag deed kind) → (∀ n, who ≠ .peer n) →
    s.borrows.find? (·.tag == tag) = none →
    exec (.dgrant id) s = .next { s with
      msgs := left s id ++ [⟨s.fresh, home, who, .drel (deed % 2 ^ 17) kind tag 0⟩], fresh := s.fresh + 1 }) ∧
  (∀ s id home t g tag sub b, got s id home (askerOf t g) (.drefuse tag sub) → s.borrows.find? (·.tag == tag) = some b →
    b.who = askerOf t g → s.partner t.band = none → (s.regT t g).state = .pending →
    ∃ u, exec (.drefuse id) s = .next u ∧
      u.regT t g = { s.regT t g with state := .refused, sub := if 5 ≤ home then 7 else sub } ∧
      u.borrows = s.borrows.filter (·.tag != tag) ∧
      u.ctxs = modIf (·.asid == b.asid) (fun c => { c with borref := satInc c.borref }) s.ctxs ∧
      ∀ x ∈ b.got, ∃ m ∈ u.msgs, m.home = x.home ∧ m.body = .drel x.idx b.kind b.tag 0) ∧
  (∀ s id home n tag deed kind, got s id home (.peer n) (.dgrant tag deed kind) →
    exec (.dgrant id) s = leaves s id n (.dgrant (tag % 2 ^ 64) deed kind)) ∧
  (∀ s id home n tag sub, got s id home (.peer n) (.drefuse tag sub) → exec (.drefuse id) s = leaves s id n (.drefuse (tag % 2 ^ 64) sub)) ∧
  (∀ s id home n ret, got s id home (.peer n) (.drelack ret) → exec (.drelack id) s = leaves s id n (.drelack (ret % 2 ^ 64))) ∧
  (∀ s id home who ret r n, got s id home who (.drelack ret) → (∀ n, who ≠ .peer n) → s.returns.find? (·.id == ret) = some r →
    r.stage = .releasing n →
    exec (.drelack id) s = .next { s with
      msgs := left s id
      returns := if n ≤ 1 then s.returns.filter (·.id != ret)
        else modIf (fun x => x.id == ret) (fun x => { x with stage := .releasing (n - 1) }) s.returns }) ∧
  (∀ (s : State) ret r, s.returns.find? (·.id == ret) = some r → s.returnReady r = true →
    ∃ w, CacheOnly s w ∧
      (r.reg.top = false → exec (.rtnWritebackDone ret) s = .next
        { w.modReg r.band r.tid.troop (Fin.ofNat 16 r.reg.parent) fun x =>
            { x with kids := x.kids.erase ⟨r.reg.base, r.reg.len, r.reg.kind⟩ } with
          returns := s.returns.filter (·.id != ret) }) ∧
      (r.reg.top = true → s.second r.band = false → ∀ f, s.families.find? (·.id == r.reg.family) = some f →
        (1 < f.members → exec (.rtnWritebackDone ret) s = .next { w with
          families := modIf (fun x => x.id == r.reg.family) (fun x => { x with members := x.members - 1 }) s.families
          returns := s.returns.filter (·.id != ret) }) ∧
        (f.members ≤ 1 → f.got ≠ [] → ∃ u, exec (.rtnWritebackDone ret) s = .next u ∧
          u.families = s.families.filter (·.id != r.reg.family) ∧
          u.returns = modIf (fun x => x.id == ret) (fun x => { x with stage := .releasing f.got.length }) s.returns ∧
          (∀ g ∈ f.got, ∃ m ∈ u.msgs, m.home = g.home ∧ m.body = .drel g.idx f.kind r.reg.family ret) ∧
          u = { w with families := u.families, returns := u.returns, msgs := u.msgs, fresh := u.fresh }))) ∧
  ∀ (s : State) id r, s.peerReqs.find? (·.1 == id) = some r → r.2.2 + s.peerClocks ≤ s.clock → s.openPeers.contains (r.1, r.2.1) = true →
    (∀ b, s.borrows.find? (·.tag == id) = some b → exec (.peerTimeout id) s =
      .next ((s.takeRefusal id 7).send ((b.todo.head?.map (·.home)).getD 5) b.who (.dcancel id))) ∧
    (∀ o w k kind why va wr, s.borrows.find? (·.tag == id) = none → s.ops.find? (·.id == id) = some o →
      s.runOp { o with peerDown := true } = (w, k, some (.fault kind why va wr)) →
      exec (.peerTimeout id) s = .next ((w.opDone o k).suspendOp o kind why va wr (cfIndices o k))) ∧
    ∀ c, s.borrows.find? (·.tag == id) = none → s.ops.find? (·.id == id) = none → s.pending.find? (·.id == id) = none →
      s.flights.find? (·.id == id) = none → s.chunks.find? (·.id == id) = some c →
      exec (.peerTimeout id) s =
        .next (s.failChunk c 6 (16 + (Config.peerPort ((c.peers ++ c.votes).headD 0)).val) s.dev.modnum)

/-! ### Launches, queues and contexts (spec/02, spec/03, spec/17) -/

/-- R44, R46, R50, R261: where a band may nest deeper, the context has room for a pending task and the thread's older returns are
complete, SPAWN, SPAWNA and LAUNCH set a launch on its way that counts as a child of the band, one depth below it; a launch
commits the rollback point first. DEPC.set arms a counter for a child, adding and arriving change its count, saturated, or find
it idle and are counted; one that is not positive fires. A counter holds its descriptor's priority, or its setter's under INH (that
it is the setter's where the descriptor fails its checks is the model's choice: log 39). One that the context does not have traps
with its index. -/
def Obligations.LaunchesIssue : Prop :=
  let clear (w : State) (t : Tid) : Prop := w.twinOf t = none ∧ ∀ r ∈ w.returns, r.tid ≠ t
  let deep (w : State) (t : Tid) : Prop := w.depthOf t ≠ 10
  let room (w : State) (t : Tid) : Prop := w.pendCnt (w.asidOf t) < ((w.ctxOf t).map (·.pendmax)).getD 0
  let args (v : State) (m : Mods) (t : Tid) (a : VReg) : List Word := [v.srcA m t (regAt a 0), v.srcA m t (regAt a 1), v.srcA m t (regAt a 2), v.srcA m t (regAt a 3)]
  let child (w : State) (t : Tid) (pc : Pc) (what : LaunchWhat) : State :=
    let c := w.commit t.band
    match c.band? t.band with
    | some b => { c with
        launches := c.launches ++ [⟨c.fresh, b.asid, what, b.id, b.depth + 1, b.prio, b.gridseq, c.sourceOf t pc, false⟩]
        children := c.children ++ [(c.fresh, b.id)], fresh := c.fresh + 1 }
    | none => c
  let touch (rel : List VReg) : Touch := { regs := rel, band := Band.unpoint, rest := fun s u =>
    { s with bands := u.bands, slots := u.slots, bundles := u.bundles, shadows := u.shadows, launches := u.launches,
             children := u.children, fresh := u.fresh } }
  let touchDep (rel : List VReg) : Touch := { touch rel with rest := fun s u => { (touch rel).rest s u with deps := u.deps, ctxs := u.ctxs } }
  let no (i : Instr) (ctr : BitVec 16) : Prop := ∀ s b, s.bundle? = some b → ((s.ctx? b.asid).map (·.depcnt)).getD 0 ≤ ctr.toNat →
    exec i s = .next (s.finishIssue b (b.threads.map fun t => ⟨t, 0x01, BitVec.ofNat 32 ctr.toNat, 0⟩) [])
  let within (ctr : BitVec 16) (b : Bundle) (s : State) : Prop := ctr.toNat < ((s.ctx? b.asid).map (·.depcnt)).getD 0
  (∀ m a task, Completes (.spawn m a task) m (regGroup a 4) (lastReads m (regGroup a 4) [])
    (fun _ _ w t => clear w t ∧ deep w t ∧ room w t)
    (fun b v w t => (child w t b.pc (.task task.toNat (args v m t a) none), .next))
    fun _ => touch (lastReads m (regGroup a 4) [])) ∧
  (∀ m k a b task off,
    let rel := lastReads m (regGroup a 4) [b]
    let at_ (v : State) (t : Tid) : Int := (v.srcB m t b).toNat + off.toInt
    Completes (.spawna m k a b task off) m (regGroup a 4 ++ [b]) rel
      (fun _ v w t => clear w t ∧ deep w t ∧ room w t ∧ ∃ w1 x, w.accessAddress t (v.regT t k) (at_ v t) 1 1 .lookup .read = (w1, .ok x))
      (fun bu v w t => match w.accessAddress t (v.regT t k) (at_ v t) 1 1 .lookup .read with
        | (w1, .ok x) => (child w1 t bu.pc (.task task.toNat (args v m t a) (w1.homeDieOf t x.loc)), .next)
        | (w1, _) => (w1, .next))
      fun _ => { touch rel with core := CoreSt.untimed, die := DieSt.untimed, rest := fun s u =>
        { (touch rel).rest s u with cores := u.cores, dies := u.dies } }) ∧
  (∀ m k a off,
    let rel := lastReads m [a] []
    let at_ (v : State) (t : Tid) : Int := v.offsetOf m t a off.toInt
    let packet (w1 : State) (t : Tid) (x : Target) : State × Nat × Bool :=
      w1.readSite (w1.coreOf t) (w1.asidOf t) (w1.siteOf t k x false) x.loc 128 .norm
    Completes (.launch m k a off) m [a] rel
      (fun _ v w t => clear w t ∧ deep w t ∧ t.troop = 0 ∧ t.lane = 0 ∧
        ∃ w1 x, w.accessAddress t (v.regT t k) (at_ v t) 128 128 .load .read = (w1, .ok x) ∧
          w1.blocked w1.fresh t w1.fresh x.loc 128 = false ∧ (packet w1 t x).2.2 = false)
      (fun bu v w t => match w.accessAddress t (v.regT t k) (at_ v t) 128 128 .load .read with
        | (w1, .ok x) => (child (packet w1 t x).1 t bu.pc (.grid (BitVec.ofNat 1024 (packet w1 t x).2.1) x.va), .next)
        | (w1, _) => (w1, .next))
      fun _ => { touch rel with core := CoreSt.cold, die := DieSt.cold, rest := fun s u =>
        { (touch rel).rest s u with cores := u.cores, dies := u.dies, mem := u.mem, peerMem := u.peerMem, poison := u.poison
                                    unreturned := u.unreturned } }) ∧
  (∀ m ctr a b task,
    let rel := lastReads m (regGroup a 4) [b]
    CompletesOnce (within ctr) (fun _ s => s) (fun _ s => s) (.depcSet m ctr a b task) m (regGroup a 4 ++ [b]) rel
      (fun _ _ w t => clear w t ∧ deep w t)
      (fun _ v w t => ((w.commit t.band).armCounter t (w.counterOf (w.asidOf t) ctr.toNat) (v.srcB m t b) task.toNat (args v m t a), .next))
      fun _ => touchDep rel) ∧
  (∀ m ctr b, CompletesOnce (within ctr) (fun _ s => s) (fun _ s => s) (.depcAdd m ctr b) m [b] (lastReads m [] [b])
    (fun _ _ w t => clear w t)
    (fun _ v w t => ((w.commit t.band).addCounter (w.asidOf t) (w.counterOf (w.asidOf t) ctr.toNat) (v.srcB m t b).toInt, .next))
    fun _ => touchDep (lastReads m [] [b])) ∧
  (∀ m ctr, CompletesOnce (within ctr) (fun _ s => s) (fun _ s => s) (.depcArrive m ctr) m [] []
    (fun _ _ w t => clear w t)
    (fun _ _ w t => ((w.commit t.band).addCounter (w.asidOf t) (w.counterOf (w.asidOf t) ctr.toNat) (-1), .next))
    fun _ => touchDep []) ∧
  (∀ m ctr a b task, no (.depcSet m ctr a b task) ctr ∧ no (.depcAdd m ctr b) ctr ∧ no (.depcArrive m ctr) ctr) ∧
  (∀ (s : State) (t : Tid) idx (count : Word) task args b, s.band? t.band = some b →
    let old := (s.deps.find? (·.idx == idx)).map (·.child)
    let prio := match s.taskAt b.asid task with | .ok k => if k.inh then b.prio else k.prio | .error _ => b.prio
    let d : DepCounter := ⟨idx, count.toInt, task, args, b.id, s.fresh, prio⟩
    let armed : State := { s with deps := s.deps.filter (·.idx != idx) ++ [d], children := s.children.filter (fun x => old != some x.1) ++ [(s.fresh, b.id)], fresh := s.fresh + 1 }
    s.armCounter t idx count task args = if 0 < d.count then armed else armed.fireCounter d) ∧
  (∀ (s : State) asid idx x, (s.deps.find? (·.idx == idx) = none →
      s.addCounter asid idx x = { s with ctxs := modIf (·.asid == asid) (fun c => { c with deperr := satInc c.deperr }) s.ctxs }) ∧
    ∀ d, s.deps.find? (·.idx == idx) = some d →
      let d1 : DepCounter := { d with count := max (-2 ^ 31) (min (2 ^ 31 - 1) (d.count + x)) }
      let left : State := { s with deps := modIf (·.idx == idx) (fun _ => d1) s.deps }
      s.addCounter asid idx x = if 0 < d1.count then left else left.fireCounter d1) ∧
  ∀ (s : State) d b, s.band? d.setter = some b → ∃ src, s.fireCounter d = { s with
    deps := s.deps.filter (·.idx != d.idx)
    launches := s.launches ++ [⟨d.child, b.asid, .task d.task d.args none, b.id, b.depth + 1, d.prio, b.gridseq, src, true⟩] }

/-- R47, R28, R40, R43, R44, R48, R57: the check of a launch. A grid that fails one is not placed, writes a record with the lowest
code that it fails, and its child stops counting; one that passes starts with all its bands PENDING. A task whose descriptor
fails is recorded with the number of the check; one that needs features no core has is recorded like a refused launch; any other
becomes a band that is PENDING. (The lane and PC fields of these records, and that a missing context counts as an unreadable header,
are the model's choices: logs 28, 29, 34.) -/
def Obligations.LaunchesChecked : Prop := ∀ (s : State) (l : Launch), s.launches.find? (·.id == l.id) = some l →
  let s0 : State := { s with launches := s.launches.filter (·.id != l.id) }
  let origin : Origin := if l.counter then ⟨0, 0, none, none⟩ else ⟨l.src.core, l.src.slot, some l.src.lane, some l.src.pc⟩
  let record (kind : Nat) (more : List Word) : State :=
    let r := s0.faultRecord l.asid (recordWords kind 0 0 origin 0 0 l.gridseq more 0)
    { r with children := r.children.filter (·.1 != l.id) }
  (∀ pkt va, l.what = .grid pkt va →
    let p := pkt.toNat
    let g := GridSpec.of p
    let codes := (if p % 256 = 1 then [] else [1]) ++ s.gridCodes l.asid p
    (∀ c ∈ codes, (∀ d ∈ codes, c ≤ d) →
      exec (.deviceLaunchCheck l.id) s = .next (record 1 [BitVec.ofNat 32 c, BitVec.ofNat 32 va, BitVec.ofNat 32 (va / 2 ^ 32)])) ∧
    (codes = [] → ∃ fp n u, s.kernelAt l.asid g.khdr = some (fp, n) ∧ exec (.deviceLaunchCheck l.id) s = .next u ∧
      u.grids = s.grids ++ [⟨s.fresh, l.asid, l.gridseq, g.cpl, g.cplva, false, some (l.parent, l.id), g.argva, 128 * n, .none,
        g.gx * g.gy * g.gz, 0, 0, false⟩] ∧
      (∃ bs, u.bands = s.bands ++ bs ∧ bs.length = g.gx * g.gy * g.gz * (if g.red then 2 else 1) ∧
        ∀ b ∈ bs, b.state = .pending ∧ b.asid = l.asid ∧ b.fp = fp ∧ b.ntroops = g.troops ∧ b.depth = l.depth ∧ b.prio = g.prio ∧
          b.grid = some s.fresh ∧ b.x < g.gx ∧ b.y < g.gy ∧ b.z < g.gz) ∧
      u = { s0 with grids := u.grids, bands := u.bands, fresh := u.fresh })) ∧
  ∀ idx args die, l.what = .task idx args die →
    (∀ n, s.taskAt l.asid idx = .error n →
      exec (.deviceLaunchCheck l.id) s = .next (record 2 [BitVec.ofNat 32 idx, BitVec.ofNat 32 n])) ∧
    ∀ d, s.taskAt l.asid idx = .ok d →
      let va := ((s.ctx? l.asid).map (·.tdtbase)).getD 0 + 32 * idx
      (uncovered d.fp.features = true → exec (.deviceLaunchCheck l.id) s =
        .next (record 1 [7, BitVec.ofNat 32 va, BitVec.ofNat 32 (va / 2 ^ 32), BitVec.ofNat 32 idx])) ∧
      (uncovered d.fp.features = false → ∃ b, exec (.deviceLaunchCheck l.id) s =
          .next { s0 with bands := s.bands ++ [b], fresh := s.fresh + 1 } ∧
        b.id = s.fresh ∧ b.state = .pending ∧ b.asid = l.asid ∧ b.fp = d.fp ∧ b.ntroops = 1 ∧ b.task = true ∧ b.args = args ∧
        b.parent = some (l.parent, l.id) ∧ b.depth = l.depth ∧ b.gridseq = l.gridseq ∧ b.die = die ∧
        b.prio = if d.inh = true ∨ l.counter = true then l.prio else d.prio)

/-- R37, R38, R39, R43: a kick takes the new target and clears KICK_AHEAD; a queue whose target is behind QHEAD is IDLE, and so is
one that is disabled, once a slot that it re-reads has its packet. A slot without its packet is read again for 64 µs, and then KICK_AHEAD is set. A packet found in its slot is
consumed: QHEAD goes on, and one that fails checks is refused with the lowest code, with no other effect. -/
def Obligations.QueuesConsume : Prop :=
  let upd (s : State) (q : Fin 64) (f : Queue → Queue) : State := { s with queues := modAt s.queues q.val f }
  let at_ (x : Queue) : Nat := x.qbase + 128 * (x.qhead.toNat % 2 ^ x.qsize)
  let seq (s : State) (x : Queue) : Word := BitVec.ofNat 32 (leNat (readBytes s.mem (at_ x + 124) 4))
  let rest (x : Queue) : Queue := if (x.qen = true ∨ x.reread.isSome = true) ∧ (x.kick - x.qhead).toNat < 2 ^ 31 then x else { x with running := false, idle := true, reread := none }
  let next (x : Queue) : Queue := rest { x with qhead := x.qhead + 1, reread := none }
  let finds (s : State) (q : Fin 64) (x : Queue) (p : Nat) : Prop := s.queue? q = some x ∧ x.running = true ∧
    (x.qen = true ∨ x.reread.isSome = true) ∧
    seq s x = x.qhead ∧ p = leNat (readBytes s.mem (at_ x) 128)
  let refuse (p c : Nat) (x : Queue) : Queue :=
    let err : Word := BitVec.ofNat 32 (c + 2 ^ 8 * (p / 2 ^ 992 % 2 ^ 32 % 2 ^ 24))
    next { x with refused := true, qrefcnt := satInc x.qrefcnt, qerr := err }
  let least (c : Nat) (l : List Nat) : Prop := c ∈ l ∧ ∀ d ∈ l, c ≤ d
  (∀ (s : State) q target, s.dev.halted = false → s.cmd.qp = 1 → exec (.kick q target) s =
    .next { upd s q fun x => rest { x with kickAhead := false, idle := false, kick := target, running := true } with
      outbox := s.outbox ++ [.mgmt s.cmd.seq .done] }) ∧
  (∀ s q x, s.queue? q = some x → x.running = true → seq s x ≠ x.qhead → x.reread = none →
    exec (.queueSlotReread q) s = .next (upd s q fun x => { x with reread := some s.clock })) ∧
  (∀ s q x t, s.queue? q = some x → x.running = true → seq s x ≠ x.qhead → x.reread = some t → t + 64 * Config.clocksPerUs ≤ s.clock →
    exec (.kickAheadTimeout q) s = .next (upd s q fun x => { x with kickAhead := true, running := false, reread := none })) ∧
  (∀ s q x p, finds s q x p → x.qhead = BitVec.ofNat 32 (p / 2 ^ 992)) ∧
  (∀ s q x p, finds s q x p →
    (p % 2 ^ 992 = 0 → exec (.nopPacket q) s = .next (upd s q next)) ∧
    (p % 256 = 0 → p % 2 ^ 992 ≠ 0 → exec (.nopPacket q) s = .next (upd s q (refuse p 1))) ∧
    (4 ≤ p % 256 → exec (.nopPacket q) s = .next (upd s q (refuse p 1)))) ∧
  (∀ s q x p, finds s q x p → p % 256 = 1 →
    let codes := s.gridCodes x.qctx p ++ if (s.ctx? x.qctx).map (·.live) = some true then [] else [3]
    (∀ c, least c codes → exec (.gridPacket q) s = .next (upd s q (refuse p c))) ∧
    (codes = [] → ∃ fp n, s.kernelAt x.qctx (GridSpec.of p).khdr = some (fp, n) ∧
      exec (.gridPacket q) s = .next (upd (s.startGrid x.qctx (GridSpec.of p) fp n x.qhead x.qhead none 0) q next))) ∧
  (∀ s q x p, finds s q x p → p % 256 = 2 →
    let c := ctxOf p
    let codes := (if ctxnewFieldsOk p then [] else [1]) ++ (if descriptorOk (p / 2 ^ 64 % 2 ^ 512) then [] else [4]) ++
      (if s.ctx? c.asid = none then [] else [5]) ++
      (if c.depbase + c.depcnt ≤ 65536 ∧ ∀ y ∈ s.ctxs, c.depcnt = 0 ∨ y.depcnt = 0 ∨ c.depbase + c.depcnt ≤ y.depbase ∨
        y.depbase + y.depcnt ≤ c.depbase then [] else [6]) ++ if x.qpriv then [] else [9]
    let cpl := p / 2 ^ 11 % 2
    (∀ c, least c codes → exec (.ctxnew q) s = .next (upd s q (refuse p c))) ∧
    (codes = [] → exec (.ctxnew q) s = .next (upd
      (let s1 : State := { s with ctxs := s.ctxs ++ [{ c with cseq := cpl }] }
       if cpl = 1 then s1.writeWords .base (p / 2 ^ 832 % 2 ^ 64) (completionWords 2 c.asid x.qhead 0 0 0 0) else s1) q next))) ∧
  ∀ s q x p, finds s q x p → p % 256 = 3 →
    let asid := p / 2 ^ 32 % 2 ^ 11
    let codes := (if ctxkillFieldsOk p then [] else [1]) ++ (if (s.ctx? asid).map (·.live) = some true then [] else [3]) ++
      if x.qpriv then [] else [9]
    (∀ c, least c codes → exec (.ctxkill q) s = .next (upd s q (refuse p c))) ∧
    (codes = [] → exec (.ctxkill q) s = .next (upd (s.killCtx asid x.qhead (decide (p / 2 ^ 11 % 2 = 1)) (p / 2 ^ 832 % 2 ^ 64)) q next))

/-- R20, R41, R42, R57, R182, R331: the context that CTXNEW makes has the descriptor's fields and a window of counters. A context
that is killed issues nothing more: all its work is gone, with no implicit return, its bands are retired, and it is no longer
live; no other context's bands, bundles or requests are touched. At the end of its reclaim walk every home has been walked, and
caches, translations, bands and the context itself are forgotten. -/
def Obligations.ContextsEnd : Prop :=
  (∀ p, let f (lo w : Nat) : Nat := p / 2 ^ (64 + lo) % 2 ^ w
    let c := ctxOf p
    c.live = true ∧ c.kill = none ∧ c.asid = f 0 11 ∧ c.domain = f 16 12 ∧ c.ptroot = f 64 64 ∧ c.tdtbase = f 128 64 ∧
    c.tdtlen = f 192 14 ∧ c.ltbase = f 256 64 ∧ c.ltlen = f 320 13 ∧ c.ringbase = f 384 64 ∧ c.fqbase = f 448 64 ∧
    c.pendmax = p / 2 ^ 960 % 2 ^ 32 ∧ c.depbase = p / 2 ^ 928 % 2 ^ 16 ∧
    c.depcnt = if p / 2 ^ 927 % 2 = 1 then 65536 else p / 2 ^ 944 % 2 ^ 16) ∧
  (∀ (s : State) asid seq cpl pa c, s.ctx? asid = some c →
    let u := s.killCtx asid seq cpl pa
    let cut := (s.grids.filter fun g => g.asid == asid && !g.complete).length
    let ours (t : Tid) : Prop := ∃ b ∈ s.bands, b.id = t.band ∧ b.asid = asid
    u.ctx? asid = some { c with live := false, kill := some (seq, cpl, pa, cut) } ∧
    (∀ a, a ≠ asid → u.ctx? a = s.ctx? a) ∧
    (∀ b ∈ u.bands, b.asid = asid → b.state = .retired ∧ b.troops = [] ∧ b.cores = []) ∧
    u.bands.filter (·.asid != asid) = s.bands.filter (·.asid != asid) ∧
    u.bundles = s.bundles.filter (·.asid != asid) ∧ u.grids = s.grids.filter (·.asid != asid) ∧
    u.launches = s.launches.filter (·.asid != asid) ∧ u.packets = s.packets.filter (·.asid != asid) ∧
    u.rings = s.rings.filter (·.asid != asid) ∧ u.chunks = s.chunks.filter (·.asid != asid) ∧ u.borrows = s.borrows.filter (·.asid != asid) ∧
    (∀ d ∈ u.deps, ¬ (c.depbase ≤ d.idx ∧ d.idx < c.depbase + c.depcnt)) ∧
    (∀ x, (x ∈ u.ops ↔ x ∈ s.ops ∧ ¬ ours x.tid)) ∧ (∀ x, (x ∈ u.pending ↔ x ∈ s.pending ∧ ¬ ours x.tid)) ∧
    (∀ x, (x ∈ u.flights ↔ x ∈ s.flights ∧ ¬ ours x.tid)) ∧ (∀ x, (x ∈ u.asyncs ↔ x ∈ s.asyncs ∧ ¬ ours x.tid)) ∧
    u.homes = s.homes ∧ u.mem = s.mem ∧ u.queues = s.queues) ∧
  ∀ (s : State) asid c seq cpl pa cut, s.ctx? asid = some c → c.kill = some (seq, cpl, pa, cut) →
    let w := ((s.homes.map (·.id)).foldl (fun s h => s.reclaimHome asid h) s).forgetAsid asid
    exec (.reclaimWalkEnd asid) s =
      .next (if cpl then w.writeWords .base pa (completionWords 3 asid seq cut 0 0 c.cseq) else w) ∧
    (∀ x ∈ w.ctxs, x.asid ≠ asid) ∧ (∀ b ∈ w.bands, b.asid ≠ asid) ∧
    (∀ k ∈ w.cores, (∀ l ∈ k.l1, l.asid ≠ asid) ∧ ∀ e ∈ k.tlb, e.asid = asid → e.global = true) ∧
    ∀ d ∈ w.dies, (∀ l ∈ d.l2, l.asid ≠ asid) ∧ ∀ e ∈ d.tlb, e.asid = asid → e.global = true

/-! ### Scheduling (spec/03, spec/04, spec/06) -/

/-- R54, R55, R57, R59, R61, R66, R183, R308: a waiting band that fits on cores is placed, or its grid's argument block is asked for
first; a band whose save waits for nothing more is saved, and its cores, slots and granules are free. At a turn boundary resident
bands count the turn and waiting bands age, and then the bands that qualify are placed, or make room by pre-emption. Where every
troop of a core is stalled in allocation, the band placed last is pre-empted, or the threads of the only band trap. (Which fitting
set of cores a band takes, that a band which pre-emption would not place pre-empts none, and the second quad of a pair are the
model's choices: logs 31, 33, 40.) -/
def Obligations.SchedulerPlaces : Prop :=
  let quads (s : State) (q : Nat) (f : Quad → Quad) : List Quad := modIf (·.id == q) f s.quads
  (∀ (s : State) band cores b, s.band? band = some b → s.partner band = none → s.waits b = true → s.fitsOn b cores = true →
    s.coresFor b = some cores.length → (∀ q ∈ s.quads, q.passing = true → ∀ c ∈ cores, quadOf c ≠ q.id) →
    (s.argsOf b = .none → exec (.bandPlace band cores) s = .next (s.askArgs b)) ∧
    (s.argsOf b ≠ .none → (∀ tag, s.argsOf b ≠ .asked tag) → ∃ (w : State) (b1 : Band),
      exec (.bandPlace band cores) s = .next (cores.foldl (fun v c => (v.progressTraps c).admitOverflow c) w) ∧
      (b.troops = [] → b.saved = none → w.band? band = some b1 ∧ b1.state = .resident ∧ b1.cores = cores ∧
        b1.ncores = cores.length ∧ b1.residentSince = s.clock ∧ b1.aging = 0 ∧ b1.agingCounts = List.replicate 16 0 ∧
        b1.troops.length = b.ntroops ∧
        (∀ y ∈ b1.troops, y.threads.length = 64 ∧ y.sig = BitVec.allOnes 64 ∧ y.active = none ∧ y.retired = false ∧
          ∀ th ∈ y.threads, th.pc = ⟨b.fp.entry, 0⟩ ∧ th.status = .ready s.clock false) ∧
        b1.g = modAt b.g 0 fun _ => if b.fp.bench = 0 then Region.none
          else { Region.none with state := .held, space := .bench, kind := .e, len := 1024 * b.fp.bench, top := true }) ∧
      ∀ c ∈ cores, ∀ k, w.core? c = some k → ∀ l ∈ k.l1, ∀ r ∈ b1.g, r.state = .held → r.space ≠ .bench →
        b.troops = [] → b.saved = none → l.line ∉ s.rangeLines b.asid r.base r.len)) ∧
  (∀ (s : State) band b, s.band? band = some b → s.partner band = none → s.saveReady b = true →
    ∀ b1, (s.landBand band).band? band = some b1 → ∃ (v : State) (w : Band), v.band? band = some w ∧
    exec (.bandSaveComplete band) s = .next (b1.cores.foldl (fun v c => (v.progressTraps c).admitOverflow c) (v.leaveCores b1.asid b1.cores)) ∧
    w.state = .saved ∧ w.saving = false ∧ w.cores = [] ∧ w.benchMap = [] ∧ w.accMap = [] ∧ w.tileMap = [] ∧ w.hasPoint = false ∧
    w.aging = 0 ∧ w.waitSince = v.clock ∧ w.g = b1.g ∧ w.saved.isSome = true ∧
    (∀ x ∈ v.sleepers, x.tid.band ≠ band) ∧ (∀ x ∈ v.slots, ∀ t e, x.owner ≠ some (band, t, e)) ∧ ∀ h ∈ v.shadows, h.band.id ≠ band) ∧
  (∀ (s : State) (quad : Fin 16) q, s.quads.find? (·.id == quad.val) = some q →
    (q.passing = false → q.ends ≤ s.clock →
      exec (.turnBoundary quad) s = .next ((s.endTurn quad.val).decide quad.val (s.bands.length + 1))) ∧
    (q.passing = true → (∀ b ∈ s.bands, b.saving = true → b.id ∉ q.evicting ∧ ∀ c ∈ b.cores, quadOf c ≠ quad.val) →
      exec (.turnBoundary quad) s = .next (s.decide quad.val (s.bands.length + 1)))) ∧
  (∀ (s : State) quad,
    let on (b : Band) : Bool := b.cores.any fun c => quadOf c == quad
    let s1 : State := { s with bands := s.bands.map fun b => if b.state = .resident ∧ on b = true then { b with turns := satInc b.turns } else b }
    let counts (b : Band) : List Nat := modAt b.agingCounts quad (· + 1)
    let age (b : Band) : Band :=
      if s1.waits b = true ∧ couldTake b quad = true then
        (if (List.range 16).all fun q => !couldTake b q || 8 ≤ ((counts b)[q]?).getD 0 then
          { b with aging := min 3 (b.aging + 1), agingCounts := List.replicate 16 0 }
         else { b with agingCounts := counts b })
      else b
    s.endTurn quad = { s1 with
      bands := s1.bands.map age
      quads := quads s quad fun q => { q with ends := s.clock + s.dev.turn, turn := s.dev.turn, passing := true } }) ∧
  (∀ (s : State) quad n,
    ((∀ w ∈ s.candidates quad, s.roomFor w quad = none ∧ s.evictFor w quad = none) →
      s.decide quad (n + 1) = { s with quads := quads s quad fun q => { q with passing := false, evicting := [] } }) ∧
    ∀ w rest, s.candidates quad = w :: rest →
      (∀ cs, s.roomFor w quad = some cs → s.argsOf w ≠ .none → s.decide quad (n + 1) = (s.placeUnit w.id cs).decide quad n) ∧
      (∀ cs, s.roomFor w quad = some cs → s.argsOf w = .none → s.decide quad (n + 1) = (s.askArgs w).decide quad n) ∧
      ∀ vs, s.roomFor w quad = none → s.evictFor w quad = some vs → s.argsOf w ≠ .none →
        let u := vs.foldl (fun s v => s.preempt v) s
        s.decide quad (n + 1) = { u with quads := quads u quad fun q => { q with evicting := (vs.map s.unit).flatten } }) ∧
  (∀ (s : State) w quad, s.partner w.id = none → s.evictFor w quad = s.evictions w quad (s.victims w quad)) ∧
  (∀ (s : State) w quad, (∀ v ∈ s.victims w quad, v ∈ s.bands ∧ v.state = .resident ∧ (∃ c ∈ v.cores, quadOf c = quad) ∧
    (look 0 v.id s.effPrios < look 0 w.id s.effPrios ∨ look 0 v.id s.effPrios = look 0 w.id s.effPrios ∧
      ∀ q, s.quads.find? (·.id == quad) = some q → q.turn ≤ s.clock - v.residentSince))) ∧
  (∀ (s : State) w quad vs es, s.evictions w quad vs = some es → es <+: vs.map (·.id) ∧ es ≠ [] ∧
    ((es.foldl (fun s v => s.without v) s).roomFor w quad).isSome = true) ∧
  (∀ (s : State) b x, s.band? b = some x → s.partner b = none → ((s.preempt b).band? b).map (·.saving) = some true) ∧
  ∀ (s : State) core, (∀ e ∈ s.coreTroops core, s.troopStalled e.1 e.2 = true ∧ ∃ x, s.band? e.1 = some x ∧ x.saving = false) →
    (∀ e f, e ∈ s.coreTroops core → f ∈ s.coreTroops core → e.1 ≠ f.1 → ∃ b x, s.band? b = some x ∧
      (∃ t, (b, t) ∈ s.coreTroops core) ∧ exec (.regsPoolPreempt core) s = .next (s.preempt b) ∧
      ∀ g ∈ s.coreTroops core, ∀ y, s.band? g.1 = some y → s.clock - x.residentSince ≤ s.clock - y.residentSince) ∧
    ∀ b p, s.coreTroops core ≠ [] → (∀ e ∈ s.coreTroops core, e.1 = b) →
      let us := ((s.coreTroops core).map fun e => (s.troopTids e.1 e.2).filter fun t =>
        match s.statusOf t with | .waiting (.alloc _) => true | _ => false).flatten
      us ≠ [] → (∀ t ∈ us, (s.thread? t).map (fun th => (th.pc, th.npc)) = some p) →
      exec (.regsPoolPreempt core) s = .next (s.raiseAll p.1 p.2 0 (us.map fun t => ⟨t, 0x14, 1, 0⟩))

/-- R49, R95, R274 to R277, R48: the oldest continuation of a slice's queue, or of a context's ring while it has room for a
pending task, becomes a task with the old value, the address and the tag as its arguments, or is recorded. In a formation round each
free bundle slot takes, of the entry with the oldest-stamped thread, the oldest thread of every lane; a thread that a wait has
put off within a chain group goes on alone. That rounds fall on the clocks that 4 divides is the model's choice (log 26). -/
def Obligations.WorkReachesCores : Prop :=
  let drained (s s0 : State) (p : Packet) (out : Host.Outcome State Fault Refusal) : Prop :=
    let record (reason check : Nat) : State :=
      let n := sliceNum p.home p.slice
      let k := look 0 n s.sliceSeq
      let words := recordWords 3 0x0C reason ⟨p.src.core, p.src.slot, some p.src.lane, some p.src.pc⟩ (BitVec.ofNat 57 p.va) 0 p.gridseq
        [BitVec.ofNat 32 p.task, p.old, p.tag, BitVec.ofNat 32 check, BitVec.ofNat 32 n] (BitVec.ofNat 32 k)
      let r := s0.faultRecord p.asid words
      { r with sliceSeq := put 0 n (k + 1) s.sliceSeq, children := r.children.filter (·.1 != p.child) }
    (∀ n, s.taskAt p.asid p.task = .error n → out = .next (record 1 n)) ∧
    ∀ d, s.taskAt p.asid p.task = .ok d →
      (10 < p.depth → out = .next (record 2 0)) ∧
      (p.depth ≤ 10 → uncovered d.fp.features = true → out = .next (record 3 0)) ∧
      (p.depth ≤ 10 → uncovered d.fp.features = false → ∃ b, out = .next { s0 with bands := s.bands ++ [b], fresh := s.fresh + 1 } ∧
        b.id = s.fresh ∧ b.state = .pending ∧ b.asid = p.asid ∧ b.fp = d.fp ∧ b.ntroops = 1 ∧ b.task = true ∧
        b.args = [p.old, BitVec.ofNat 32 p.va, BitVec.ofNat 32 (p.va / 2 ^ 32), p.tag] ∧ b.parent = some (p.band, p.child) ∧
        b.depth = p.depth ∧ b.gridseq = p.gridseq ∧ b.die = p.die ∧ b.prio = if d.inh then p.prio else d.prio)
  (∀ (s : State) slice p, s.packets.find? (fun p => sliceNum p.home p.slice == slice) = some p →
    drained s { s with packets := s.packets.filter (·.child != p.child) } p (exec (.sliceQueueDrain slice) s)) ∧
  (∀ (s : State) asid p, s.rings.find? (·.asid == asid) = some p → p.asid = asid →
    s.pendCnt asid < ((s.ctx? asid).map (·.pendmax)).getD 0 →
    drained s { s with
      rings := s.rings.filter (·.child != p.child)
      ctxs := modIf (·.asid == asid) (fun c => { c with ring := c.ring - 1 }) s.ctxs } p (exec (.ringDrain asid) s)) ∧
  (∀ (s : State) core c, s.core? core = some c → c.nextForm ≤ s.clock → s.clock % 4 = 0 → s.formable core ≠ [] → s.freeBundles core ≠ 0 →
    exec (.formationRound core) s = .next
      ((((List.range (s.freeBundles core)).foldl (fun s _ => s.formOne core) (s.admitOverflow core)).modCore core fun c =>
        { c with nextForm := s.clock + 4 }).admitOverflow core)) ∧
  ∀ (s : State) core,
    (s.formable core = [] → s.formOne core = s) ∧
    (s.formable core ≠ [] → ∃ x b, x ∈ s.formable core ∧ (∀ e ∈ s.formable core, x.2 ≤ e.2) ∧
      (s.formOne core).bundles = s.bundles ++ [b] ∧ b.core = core ∧ b.id = s.fresh ∧ b.unit < 2 ∧ b.snap = s.snapOf x.1 ∧
      (let pc (t : Tid) : Pc := ((s.thread? t).map (·.pc)).getD ⟨0, 0⟩
       let mine (e : Tid × Nat) : Prop := e ∈ s.formable core ∧
         if (s.snapOf x.1).isSome = true then e = x else s.keyAt e.1 (pc e.1) = s.keyAt x.1 (pc x.1) ∧ s.snapOf e.1 = none
       b.pc = pc x.1 ∧
       (∀ t ∈ b.threads, ∃ n, mine (t, n) ∧ (t, n) ∈ b.stamps ∧ (∀ e, mine e → e.1.lane = t.lane → n ≤ e.2) ∧ (s.formOne core).statusOf t = .bundled b.id) ∧
       (∀ e, mine e → e.1.lane < 64 → ∃ t ∈ b.threads, t.lane = e.1.lane) ∧
       ∀ t u, t ∈ b.threads → u ∈ b.threads → t.lane = u.lane → t = u))

/-! ### Traps (spec/16) -/

/-- R113, R114, R297 to R302, R304, R305: TRAP raises SW_TRAP with its word in every acting thread. The threads of a troop that
trap at one instruction with one cause are one event, with the next packet's slot as its TNPC at the end of a clause. Without a
handler, or where a thread is in handler mode, the troop is killed; behind another event it is queued. It enters when it has one of
its core's trap slots and its threads' flags are clear: each thread's trap registers are loaded and it is ready at THENTRY. An
asynchronous trap is an event of its own at the thread's next instruction. TRET takes a thread back to TPC, or to TNPC for a skip;
one that migrates waits there for its band's save, and after UNSUPPORTED the feature it named joins the band's mask;
when its event's last thread has returned the slot is free and the oldest queued event starts. -/
def Obligations.TrapsTaken : Prop :=
  let handler (s : State) (b : Nat) : Prop := ∃ x c, s.band? b = some x ∧ s.ctx? x.asid = some c ∧ c.thentry ≠ 0xFFFFFFFF#32
  let origin (s : State) (b t : Nat) (ev : TrapEvent) : Origin := ⟨s.coreOf ⟨b, t, 0⟩, ((s.troop? b t).map (·.tslot)).getD 0, ev.lanes.head?.map (·.lane), some ev.tpc⟩
  let addr (ev : TrapEvent) : BitVec 57 := (ev.lanes.head?.map (·.addr)).getD 0
  let info (ev : TrapEvent) : Word := (ev.lanes.head?.map (·.info)).getD 0
  let tids (b t : Nat) (ev : TrapEvent) : List Tid := ev.lanes.map fun l => ⟨b, t, l.lane⟩
  let held (s : State) (b t : Nat) (ev : TrapEvent) : State := (tids b t ev).foldl (fun s u => s.holdFor u ev) s
  (∀ m n s b, s.bundle? = some b →
    let acting := b.threads.filter fun t => s.view.guardTrue m t
    exec (.trap m n) s = .next (s.finishIssue b (acting.map fun t => ⟨t, 0x12, n, 0⟩) [])) ∧
  (∀ (s : State) tpc tnpc hnd (rs : List Raised) b t cause, rs ≠ [] → cause ≠ 0x0B →
    (∀ r ∈ rs, r.tid.band = b ∧ r.tid.troop = t ∧ r.cause = cause) →
    let s1 : State := { s with fresh := s.fresh + 1 }
    s.raiseAll tpc tnpc hnd rs = s1.takeTrap b t
      ⟨s.fresh, cause, true, tpc, tnpc, rs.map fun r => ⟨r.tid.lane, r.info, r.addr⟩, [], [], none⟩) ∧
  (∀ (s : State) b t x ev, s.troop? b t = some x →
    (¬ handler s b → s.takeTrap b t ev = s.killTroop b t (origin s b t ev) 3 ev.cause (addr ev) (info ev)) ∧
    (handler s b → ev.precise = true → (∃ u ∈ tids b t ev, s.inHandler u = true) →
      s.takeTrap b t ev = s.killTroop b t (origin s b t ev) 1 ev.cause (addr ev) (info ev)) ∧
    (handler s b → (ev.precise = true → ∀ u ∈ tids b t ev, s.inHandler u = false) →
      (x.active = none → x.queue = [] → s.takeTrap b t ev = ((held s b t ev).modTroop b t fun x =>
        { x with active := some ev, entered := false, slot := none }).progressTraps (s.coreOf ⟨b, t, 0⟩)) ∧
      (x.active.isSome = true → x.queue.length < 4 →
        s.takeTrap b t ev = (held s b t ev).modTroop b t fun x => { x with queue := x.queue ++ [ev] }) ∧
      (x.active.isSome = true → 4 ≤ x.queue.length → ev.precise = true → s.takeTrap b t ev =
        (tids b t ev).foldl (fun s u => (s.leaveBundle u).makeWait u ev.tpc ev.tpc .trapRoom) s))) ∧
  (∀ (s : State) core,
    let give (s : State) (e : Nat × Nat) : State :=
      match s.slots.find? (fun x => x.core == core && x.owner.isNone), s.troop? e.1 e.2 with
      | some sl, some x =>
        match x.active with
        | some ev => (s.modSlot core sl.idx fun y => { y with owner := some (e.1, e.2, ev.id) }).modTroop e.1 e.2 fun x => { x with slot := some sl.idx }
        | none => s
      | _, _ => s
    let w := (s.slotQueue core).foldl give s
    exec (.trapEnter core) s = .next ((w.coreTroops core).foldl (fun s e => s.enterIfClear e.1 e.2) w)) ∧
  (∀ (s : State) b t x ev i, s.troop? b t = some x → x.active = some ev → x.slot = some i → x.entered = false →
    (∀ u ∈ tids b t ev, s.flagsSet u 0xFFF = false) → ((ev.lanes.map (·.lane)).Nodup) →
    let entry := (((s.band? b).bind fun y => s.ctx? y.asid).map (·.thentry)).getD 0
    (ev.precise = true ∨ ∀ l ∈ ev.lanes, ∃ n, s.statusOf ⟨b, t, l.lane⟩ = .waiting (.trapEntry n)) →
    ((s.enterIfClear b t).troop? b t).map (·.entered) = some true ∧
    (∀ r l, (s.enterIfClear b t).slotLane (s.coreOf ⟨b, t, 0⟩) i r l = 0) ∧
    ∀ l ∈ ev.lanes, ∀ th, s.thread? ⟨b, t, l.lane⟩ = some th → th.status ≠ .exited →
      ∃ th1 brd, (s.enterIfClear b t).thread? ⟨b, t, l.lane⟩ = some th1 ∧ th1.depth = true ∧ th1.pc = ⟨entry, 0⟩ ∧
        th1.status = .ready s.clock brd ∧ th1.trap.async = !ev.precise ∧ th1.trap.slot = i ∧ th1.trap.cause = ev.cause ∧
        th1.trap.addr = l.addr ∧ th1.trap.info = l.info ∧ th1.trap.tpc = (if ev.precise then ev.tpc else th.pc) ∧
        th1.trap.tnpc = (if ev.precise then ev.tnpc else th.pc) ∧ th1.trap.cf = ev.cf ∧ th1.trap.ck = ev.ck ∧
        th1.entering = true ∧ th1.preds = th.preds ∧ th1.flags = th.flags) ∧
  (∀ (s : State) id a, s.asyncs.find? (·.id == id) = some a →
    let s1 : State := { s with asyncs := s.asyncs.filter (·.id != a.id) }
    (s.statusOf a.tid = .exited → a.cause ≠ 0x0F → exec (.asyncTrapDeliver id) s = .next (s1.undelivered a)) ∧
    (s.statusOf a.tid = .exited → a.cause = 0x0F → exec (.asyncTrapDeliver id) s = .next s1) ∧
    (s.statusOf a.tid ≠ .exited → (∃ b, s.band? a.tid.band = some b ∧ b.state = .resident ∧ b.saving = false) →
      s.asyncReady a = true → (∀ x ∈ s.pairActs, a.tid ∉ x.tids) → (∀ k, s.statusOf a.tid ≠ .waiting (.tile k)) →
      exec (.asyncTrapDeliver id) s = .next (s1.takeTrap a.tid.band a.tid.troop
        ⟨a.id, a.cause, false, s.pcOf a.tid, s.pcOf a.tid, [⟨a.tid.lane, a.info, a.addr⟩], a.cf, a.ck, a.op⟩))) ∧
  (∀ m k s b, s.bundle? = some b →
    let eff (w : State) (t : Tid) : State × Flow := (w.trapReturn t k, .done)
    s.view.smooth b m [] (fun w t => w.inHandler t = true ∧ w.flagsSet t 0xFFF = false) eff s b.threads →
    exec (.tret m k) s = .next ((b.threads.foldl (s.view.turn b m [] eff) s).finishIssue b [] [])) ∧
  (∀ (s : State) (t : Tid) (k : TretKind) th, s.thread? t = some th → s.flagsSet t 0xFFF = false →
    ∃ (w : State) (brd : Bool), s.trapReturn t k = w.endEvent t.band t.troop ∧
    w.thread? t = some { th with
      depth := false, trap := TrapRegs.zero, pc := th.trap.target k, npc := th.trap.target k
      status := if k = .migrate then .waiting .migrate else .ready s.clock brd
      entering := if k = .skip then th.trap.enterN else th.trap.enter
      napLeft := if th.trap.moved then none else th.napLeft, borWait := if th.trap.moved then none else th.borWait } ∧
    (th.trap.target TretKind.retry = th.trap.tpc ∧ th.trap.target TretKind.migrate = th.trap.tpc ∧ th.trap.target TretKind.skip = th.trap.tnpc) ∧
    (∀ o x, th.trap.op = some o → s.op? o = some x → x.state = .suspended →
      w.op? o = some { x with state := if k = .retry then .running else .skipped, xfail := none }) ∧
    (k = .migrate → ∀ x, s.band? t.band = some x → ∃ y, w.band? t.band = some y ∧ y.mig = true ∧
      (∀ z ev, s.troop? t.band t.troop = some z → z.active = some ev → y.migEvent = (t.troop, ev.id)) ∧
      y.migBit = if th.trap.cause = 0x03 then some th.trap.info.toNat else x.migBit)) ∧
  ∀ (s : State) b t x ev, s.troop? b t = some x → x.active = some ev →
    ((∃ u ∈ tids b t ev, s.inHandler u = true ∧ s.statusOf u ≠ .exited) → s.endEvent b t = s) ∧
    (x.entered = true → (∀ u ∈ tids b t ev, s.inHandler u = false ∨ s.statusOf u = .exited) →
      let core := s.coreOf ⟨b, t, 0⟩
      let s1 := match x.slot with | some i => s.modSlot core i fun y => { y with owner := none } | none => s
      let s2 := s1.modTroop b t fun x => { x with active := none, entered := false, slot := none }
      (x.queue = [] → s.endEvent b t = s2.progressTraps core) ∧
      ∀ e rest, x.queue = e :: rest →
        s.endEvent b t = ((s2.modTroop b t fun x => { x with queue := rest }).startEvent b t e).progressTraps core)

/-! ### The end of work (spec/06, spec/17) -/

/-- R112, R233, R323 to R326, R329, R330: EXIT, once a thread's flags are clear, clears its lane in the masks, releases its names
and ends it; at the end of the clock the rounds that its exits complete issue, in increasing number of their registers. A troop whose threads have all exited gives up pending traps and
suspended operations, waits for the rest, returns g0 to g7, and frees its slots. A band whose troops have retired returns g8 to g15,
releases what it holds, and is DRAINING while a child lives, else RETIRED; the last band of a grid completes it, and its completion
record is written word 7 last, or COMPLETION UNWRITTEN is recorded. -/
def Obligations.WorkEnds : Prop :=
  (∀ m s b, s.bundle? = some b →
    let eff (w : State) (t : Tid) : State × Flow := (w.exitThread t, .done)
    s.view.smooth b m [] (fun w t => w.flagsSet t 0xFFF = false ∧ w.twinOf t = none) eff s b.threads →
    let u := (b.threads.foldl (s.view.turn b m [] eff) s).finishIssue b [] []
    exec (.exit m) s = .next { u with now := { u.now with
      exits := u.now.exits ++ (b.threads.map fun t => s.unit t.band).flatten.eraseDups } }) ∧
  (∀ (s : State) bs, s.exitRounds bs =
    (List.finRange 8).foldl (fun s ck => bs.foldl (fun s b => s.exitRound b ck) s) s) ∧
  (∀ (s : State) (t : Tid) x, s.troop? t.band t.troop = some x → (x.masks.map (·.1)).Nodup → ∃ y,
    (s.endThread t).troop? t.band t.troop = some y ∧ (s.endThread t).bundles.all (fun b => !b.threads.contains t) = true ∧
    y.names = (x.releaseAll t.lane).names ∧
    y.threads[t.lane]? = (x.threads[t.lane]?).map (fun th => { th with status := .exited }) ∧
    (∀ l, l ≠ t.lane → y.threads[l]? = x.threads[l]?) ∧
    ∀ k, look 0 k y.masks = setBit64 (look 0 k x.masks) t.lane false) ∧
  (∀ (s : State) b t x, s.troop? b t = some x → x.retired = false → (∀ th ∈ x.threads, th.status = .exited) →
    let mine (u : Tid) : Bool := u.band == b && u.troop == t
    let s1 := (s.asyncs.filter fun a => mine a.tid).foldl (fun s a => s.deliverAsync a) s
    let f : State := { s1 with ops := s1.ops.map fun o => if mine o.tid && o.state == .suspended then { o with state := .skipped } else o }
    let drained := (∀ o ∈ f.ops, mine o.tid = false) ∧ (∀ p ∈ f.pending, mine p.tid = false) ∧ ∀ a ∈ f.flights, mine a.tid = false
    let r := f.returnUnit ⟨b, t, 0⟩ troopRegs (((f.troop? b t).map (·.killed)).getD false)
    (¬ drained → exec (.troopRetire b t) s = .next f) ∧
    (drained → r.returnsOver ⟨b, t, 0⟩ troopRegs = false → exec (.troopRetire b t) s = .next r) ∧
    (drained → r.returnsOver ⟨b, t, 0⟩ troopRegs = true → r.troopOver b t = true → ∃ (w : State) (y : Troop),
      exec (.troopRetire b t) s = .next (w.progressTraps (r.coreOf ⟨b, t, 0⟩)) ∧ r.troop? b t = some y ∧
      w.troop? b t = some { y with retired := true, names := [], slot := none, active := none, queue := [] } ∧
      ∀ i, y.slot = some i → ∀ sl ∈ w.slots, sl.core = r.coreOf ⟨b, t, 0⟩ → sl.idx = i → sl.owner = none)) ∧
  (∀ (s : State) (t : Tid) g k,
    let r := s.regT t g
    (r.state = .pending ∨ r.state = .refused → s.returnOne t g k = s.emptyReg t g) ∧
    (r.state = .held → r.kids = [] → s.twinOf t = none → s.returnOne t g k =
      if r.top && r.space != .bench then (s.commit t.band).startReturn t g true else s.startReturn t g true) ∧
    (r.state = .held → r.kids ≠ [] → s.returnOne t g k = s)) ∧
  (∀ (s : State) b x, s.band? b = some x →
    let r := s.returnUnit ⟨b, 0, 0⟩ bandRegs x.killed
    (x.state = .resident ∨ x.state = .saved → x.troops ≠ [] → (∀ y ∈ x.troops, y.retired = true) →
      (r.returnsOver ⟨b, 0, 0⟩ bandRegs = false → exec (.bandRetire b) s = .next r) ∧
      ∀ y, r.band? b = some y → r.returnsOver ⟨b, 0, 0⟩ bandRegs = true → ∃ (w : State),
        exec (.bandRetire b) s = .next ((w.leaveCores x.asid x.cores).lastStep b) ∧ (∀ h ∈ w.shadows, h.band.id ≠ b) ∧
        w.band? b = some { y with
          cores := [], benchMap := [], accMap := [], tileMap := [], tileEntries := [], conv := List.replicate 8 Conv.none
          decay := 0x3F800000#32, saved := none, hasPoint := false, committed := false, saving := false }) ∧
    (x.state = .draining → s.kidsOf b = [] → exec (.bandRetire b) s = .next (s.lastStep b)) ∧
    (s.kidsOf b ≠ [] → (s.lastStep b).band? b = some { x with state := .draining }) ∧
    (s.kidsOf b = [] → ∃ (w : State), s.lastStep b = w.countRetired x ∧ w.band? b = some { x with state := .retired }) ∧
    (x.grid = none → ∀ p c, x.parent = some (p, c) → s.countRetired x = s.dropChild c) ∧
    (∀ g, x.grid = some g → s.partner x.id = none → s.countRetired x = (s.modGrid g fun y => { y with
      retired := y.retired + 1, killed := y.killed + if x.killed then 1 else 0 }).finishGrid g)) ∧
  (∀ (s : State) id g, s.grid? id = some g →
    (g.retired < g.bands → s.finishGrid id = s) ∧
    (g.complete = false → g.bands ≤ g.retired →
      let w := (if g.cpl then s.writeCompletion g else s).modGrid id fun x => { x with complete := true }
      s.finishGrid id = match g.parent with | some (_, c) => w.dropChild c | none => w)) ∧
  ∀ (s : State) (g : Grid) c, s.ctx? g.asid = some c →
    let bad : Nat := if g.killed = 0 then 0 else 1
    let words : List Word := [BitVec.ofNat 32 (1 + 2 ^ 8 * bad + 2 ^ 16 * g.asid), g.seq, 0, 0, BitVec.ofNat 32 g.bands,
      BitVec.ofNat 32 g.killed, BitVec.ofNat 32 c.cseq, g.seq]
    (∀ pa h, s.translateDev g.asid g.cplva .write = .ok (.mem pa h) → s.writeCompletion g =
      (s.writeWords h pa words).modCtx g.asid fun c => { c with cseq := c.cseq + 1 }) ∧
    ∀ f, s.translateDev g.asid g.cplva .write = .error f → s.writeCompletion g =
      s.faultRecord g.asid (recordWords 9 0 0 ⟨0, 0, none, none⟩ 0 f.info g.seq ([1, g.seq] ++ addrWords g.cplva) 0)

/-! ### Errors and redundant pairs (spec/16, spec/20) -/

/-- R202, R229, R312, R317 to R319, R346, R350, R353: two acts of one index with one signature pass together; with others, or when a
resident partner is more than PAIRWAIT late, the pair rolls back if it can, else its band is killed with SUB 5. An uncorrectable error
poisons the unit it is found in, or kills the band whose control state it struck with SUB 7; a corrected one is counted. Errors that
SNAPCTL enables trigger a snapshot, which latches while the registers are not frozen; one more within the same cycle of the fabric
clock is part of that latch, and a later one is missed. Which clocks share such a cycle is left open (log 24). -/
def Obligations.ErrorsContained : Prop :=
  let event (s : State) (k : Nat) (w : State) : Prop :=
    (s.dev.snapctl.getLsbD k = false → w = s) ∧
    (s.dev.snapctl.getLsbD k = true →
      let n := s.dev.snap
      let latch : Snap := ⟨(n.seq + 1) % 2 ^ 32, n.miss, true, s.clock, s.snapWords ((n.seq + 1) % 2 ^ 32)⟩
      w = { s with dev := { s.dev with snap :=
        if n.frozen = false then latch else if sameFabricCycle n.at_ s.clock = true then n else { n with miss := if n.miss < 0xFFFFFFFF then n.miss + 1 else n.miss } } })
  (∀ (s : State) act a, s.pairActs.find? (·.id == act) = some a → a.passed = false →
    let other := (s.partner a.band).bind fun p => s.pairActs.find? fun x => x.band == p && x.troop == a.troop && x.index == a.index
    (∀ o, other = some o → a.sig = o.sig → exec (.pairActCompare act) s = .next { s with
      pairActs := s.pairActs.map fun x => if x.id == a.id || x.id == o.id then { x with passed := true } else x }) ∧
    (∀ o, other = some o → a.sig ≠ o.sig → exec (.pairActCompare act) s = .next (s.diverge a.band a.troop)) ∧
    (∀ x, s.band? a.band = some x → x.state = .resident → other = none → a.deadline < s.clock →
      exec (.pairwaitTimeout act) s = .next (s.diverge a.band a.troop))) ∧
  (∀ (s : State) b t,
    let o : Origin := ⟨s.coreOf ⟨b, t, 0⟩, ((s.troop? b t).map (·.tslot)).getD 0, none, none⟩
    let can := ∀ x ∈ s.unit b, ∃ y, s.band? x = some y ∧ y.hasPoint = true ∧ y.committed = false ∧ ∃ h ∈ s.shadows, h.band.id = x
    (can → s.diverge b t = s.rollback b o 2 0x10) ∧ (¬ can → s.diverge b t = s.killBand b o 5 0x10)) ∧
  (∀ (s : State) site, ∃ (u w : State), exec (.ueDetected site) s = .next w ∧ event u 0 w ∧
    match site with
    | .homeLine l => l ∈ u.poison ∧ (∀ k, k ≠ l → (k ∈ u.poison ↔ k ∈ s.poison)) ∧ u = { s with poison := u.poison }
    | .l1Line core l => u = s.modCore core fun c => { c with l1 := c.l1.map fun x => if x.line == l then { x with poison := true } else x }
    | .l2Line die l => u = s.modDie die fun d => { d with l2 := d.l2.map fun x => if x.line == l then { x with poison := true } else x }
    | .physReg b t r => u = s.modTroop b t fun x => { x with
        names := x.names.map fun n => if n.1 = r.val then (n.1, { n.2 with poison := BitVec.allOnes 64 }) else n }
    | .reserveReg core i r => ∀ x, s.slot? core i = some x → ∃ y, u.slot? core i = some y ∧ look 0 r y.poison = BitVec.allOnes 64 ∧
        (∀ k, k ≠ r → look 0 k y.poison = look 0 k x.poison) ∧ y.regs = x.regs ∧ u = { s with slots := u.slots }
    | .benchWord core n => ∀ c, s.core? core = some c → ∃ d, u.core? core = some d ∧ (∀ k, k ∈ d.benchPoison ↔ k = n ∨ k ∈ c.benchPoison) ∧
        { d with benchPoison := [] } = { c with benchPoison := [] } ∧ u = { s with cores := u.cores }
    | .tileByte core t n => ∀ c, s.core? core = some c → ∃ d, u.core? core = some d ∧
        (∀ k, k ∈ d.tilePoison ↔ k = 4096 * t + n % 4096 ∨ k ∈ c.tilePoison) ∧
        { d with tilePoison := [] } = { c with tilePoison := [] } ∧ u = { s with cores := u.cores }
    | .accElem core r n => ∀ c, s.core? core = some c → ∃ d, u.core? core = some d ∧ (∀ k, k ∈ d.accPoison ↔
        (∃ i, i < 32 ∧ k = (r, n / 32 * 32 + i)) ∨ k ∈ c.accPoison) ∧
        { d with accPoison := [] } = { c with accPoison := [] } ∧ u = { s with cores := u.cores }
    | .control b => u = s.killBand b ⟨s.coreOf ⟨b, 0, 0⟩, ((s.troop? b 0).map (·.tslot)).getD 0, none, none⟩ 7 0
    | .link i => u = { s with dev := { s.dev with links := s.dev.links.map fun l =>
        if l.id == i then { l with replays := if l.replays < 0xFFFFFFFF then l.replays + 1 else l.replays } else l } }) ∧
  (∀ (s : State) core c, s.core? core = some c → ∃ (w : State), exec (.correctedError core) s = .next w ∧
    w = { s with cores := w.cores } ∧ w.core? core = some { c with cecnt := if c.cecnt < 0xFFFFFFFF then c.cecnt + 1 else c.cecnt } ∧
    ∀ k, k ≠ core → w.core? k = s.core? k) ∧
  (∀ (s : State) (bad : List Nat), ∃ (u w : State), exec (.patrolScrub bad) s = .next w ∧ u = { s with poison := u.poison } ∧
    (∀ l, l ∈ u.poison ↔ l ∈ bad ∨ l ∈ s.poison) ∧ (bad = [] → w = u) ∧ (bad ≠ [] → event u 0 w)) ∧
  ∀ (s : State) link, ∃ (w : State), exec (.linkDown link) s = .next w ∧
    event { s with dev := { s.dev with links := s.dev.links.map fun l => if l.id == link then { l with up := false } else l } } 2 w

/-! ### Outside the module (spec/20) -/

/-- R36, R190, R202, R340 to R342, R347, R357: while the module is not halted, every command of the host completes. RDMA reads and
writes the rings of the launch queues and registered memory, once bring-up is complete; of another place it has no effect, the
model's choice (log 48). A management command on queue pair 1 is answered under its own sequence, and one on another pair is refused.
Reads and writes of the launch queues, the per-context windows, the module registers, the peer groups and the snapshot region have
the effect of their maps at their sizes, and any other size, offset or ASID is refused; that a read of KICK is refused is the
model's choice (log 52). INVAL removes the entries it covers at once, and again with its answer once the accesses in progress
before it are done. -/
def Obligations.HostCommands : Prop := ∀ (s : State) (c : Cmd), s.cmd = c → s.dev.halted = false →
  let ans (w : State) (a : Reply) : Host.Outcome State Fault Refusal := .next { w with outbox := w.outbox ++ [.mgmt c.seq a] }
  let reads (off size v : Nat) : Prop := exec (.mgmtRead off size) s = ans s (.value (BitVec.ofNat 64 v))
  let unread (off size : Nat) : Prop := exec (.mgmtRead off size) s = ans s .refused
  let sets (off size : Nat) (v : BitVec 64) (w : State) : Prop := exec (.mgmtWrite off size v) s = ans w .done
  let unset (off size : Nat) : Prop := ∀ v, exec (.mgmtWrite off size v) s = ans s .refused
  let up := s.dev.devstat.toNat % 16 = 7
  let w32 (v : BitVec 64) : Nat := v.toNat % 2 ^ 32
  let dev (d : Device) : State := { s with dev := d }
  let cores (f : CoreSt → CoreSt) : State := { s with cores := s.cores.map f }
  let open_ (pa n : Nat) : Prop := up ∧ ∀ k, k < n →
    (∃ q ∈ s.queues, q.qbase ≤ pa + k ∧ pa + k < q.qbase + 128 * 2 ^ q.qsize) ∨ Config.registered (pa + k) = true
  (∀ pa bs,
    (open_ pa bs.length → ∃ (w : State), exec (.hostRdmaWrite pa bs) s = .next w ∧
      w = { s with mem := w.mem, poison := w.poison, unreturned := w.unreturned } ∧
      (∀ a, look 0 a w.mem = if pa ≤ a ∧ a < pa + bs.length then (bs[a - pa]?).getD 0 else look 0 a s.mem) ∧
      (∀ l, l ∈ w.poison ↔ l ∈ s.poison ∧ ¬ (pa ≤ 128 * l ∧ 128 * (l + 1) ≤ pa + bs.length)) ∧
      ∀ e, e ∈ w.unreturned ↔ e ∈ s.unreturned ∧ ¬ (pa ≤ e.1 ∧ e.1 < pa + bs.length)) ∧
    (¬ open_ pa bs.length → exec (.hostRdmaWrite pa bs) s = .next s)) ∧
  (∀ pa n, (open_ pa n → exec (.hostRdmaRead pa n) s =
      .next { s with outbox := s.outbox ++ [.rdma ((List.range n).map fun i => look 0 (pa + i) s.mem)] }) ∧
    (¬ open_ pa n → exec (.hostRdmaRead pa n) s = .next s)) ∧
  (c.qp ≠ 1 → ∀ off size v ctl nonce q target, exec (.mgmtRead off size) s = ans s .refused ∧ exec (.mgmtWrite off size v) s = ans s .refused ∧
    exec (.inval ctl) s = ans s .refused ∧ exec .snaptrig s = ans s .refused ∧ exec .snaparm s = ans s .refused ∧
    exec (.attest nonce) s = ans s .refused ∧ exec (.kick q target) s = ans s .refused) ∧
  (∀ id i, s.invals.find? (·.id == id) = some i →
    let going := ∃ n ∈ i.flights, (∃ f ∈ s.flights, f.id = n) ∨ ∃ p ∈ s.pending, p.id = n
    let w := ({ s with invals := s.invals.filter fun x => x.id != id } : State).dropTlbs i.mode i.asid i.base i.len
    (going → exec (.invalComplete id) s = .next s) ∧
    (¬ going → exec (.invalComplete id) s = .next { w with outbox := w.outbox ++ [.mgmt i.seq .done] })) ∧
  (c.qp = 1 →
  (∀ off size v, (∀ x, s.mgmtValue off size = some x → exec (.mgmtRead off size) s =
      .next { s with outbox := s.outbox ++ [.mgmt c.seq (.value (BitVec.ofNat 64 x))] }) ∧
    (s.mgmtValue off size = none → exec (.mgmtRead off size) s = .next { s with outbox := s.outbox ++ [.mgmt c.seq .refused] }) ∧
    (∀ w, s.mgmtSet c off size (v.toNat % 2 ^ (8 * size)) = some w → exec (.mgmtWrite off size v) s = .next w) ∧
    (s.mgmtSet c off size (v.toNat % 2 ^ (8 * size)) = none →
      exec (.mgmtWrite off size v) s = .next { s with outbox := s.outbox ++ [.mgmt c.seq .refused] })) ∧
  (∀ off size, ((size ≠ 2 ∧ size ≠ 4 ∧ size ≠ 8) ∨ off % size ≠ 0 ∨ (0x040000 ≤ off ∧ off < 0x100000) ∨ (0x180000 ≤ off ∧ off < 0x200000) ∨
    (0x200100 ≤ off ∧ off < 0x300000) ∨ 0x500000 ≤ off) → unread off size ∧ unset off size) ∧
  (∀ n q, s.queue? n = some q → n < 64 →
    let at_ (k : Nat) : Nat := 0x1000 * n + k
    let bit (b : Bool) : Nat := if b then 1 else 0
    let queue (off size : Nat) (v : BitVec 64) (q : Queue) : Prop := sets off size v (s.modQueue n fun _ => q)
    (reads (at_ 0) 8 q.qbase ∧ reads (at_ 0x08) 4 q.qsize ∧ reads (at_ 0x0C) 4 (q.qctx + 2 ^ 15 * bit q.qpriv) ∧ unread (at_ 0x10) 4 ∧
      reads (at_ 0x14) 4 q.qhead.toNat ∧ reads (at_ 0x18) 4 (bit q.idle + 2 * bit q.kickAhead + 4 * bit q.refused) ∧
      reads (at_ 0x1C) 4 q.qerr.toNat ∧ reads (at_ 0x20) 4 q.qrefcnt ∧ reads (at_ 0x24) 4 (bit q.qen)) ∧
    (∀ v, queue (at_ 0x10) 4 v (q.kicked (BitVec.ofNat 32 (w32 v))) ∧
      queue (at_ 0x18) 4 v { q with
        idle := q.idle && !v.getLsbD 0, kickAhead := q.kickAhead && !v.getLsbD 1, refused := q.refused && !v.getLsbD 2 } ∧
      queue (at_ 0x20) 4 v { q with qrefcnt := 0 } ∧
      queue (at_ 0x24) 4 v (if up then Queue.settle { q with qen := v.getLsbD 0 } else q)) ∧
    (∀ k size, k < 0x1000 → (size ≠ if k = 0 then 8 else 4) ∨ k = 4 → unread (at_ k) size ∧ unset (at_ k) size) ∧
    (∀ k, 0x28 ≤ k → k < 0x1000 → k % 4 = 0 → reads (at_ k) 4 0 ∧ ∀ v, queue (at_ k) 4 v q) ∧
    (q.qen = true → ∀ v, queue (at_ 0) 8 v q ∧ queue (at_ 0x08) 4 v q ∧ queue (at_ 0x0C) 4 v q ∧ queue (at_ 0x14) 4 v q) ∧
    (q.qen = false → ∀ v, queue (at_ 0) 8 v { q with qbase := v.toNat / 4096 * 4096 } ∧
      queue (at_ 0x0C) 4 v { q with qctx := v.toNat % 2 ^ 11, qpriv := v.getLsbD 15 } ∧
      queue (at_ 0x14) 4 v { q with qhead := BitVec.ofNat 32 (w32 v) } ∧
      queue (at_ 0x08) 4 v { q with qsize := if 4 ≤ v.toNat % 32 ∧ v.toNat % 32 ≤ 16 then v.toNat % 32 else 4 }) ∧
    unset (at_ 0x1C) 4) ∧
  (∀ asid, s.ctx? asid = none → asid < 2048 → ∀ k size,
    (k < 0x100 → unread (0x100000 + 0x100 * asid + k) size ∧ unset (0x100000 + 0x100 * asid + k) size) ∧
    (k < 0x200 → unread (0x400000 + 0x200 * asid + k) size ∧ unset (0x400000 + 0x200 * asid + k) size)) ∧
  (∀ asid c, s.ctx? asid = some c → asid < 2048 →
    let at_ (k : Nat) : Nat := 0x100000 + 0x100 * asid + k
    let group (i : Nat) : Nat := 0x400000 + 0x200 * asid + 2 * i
    (c.live = false → ∀ k, k < 0x100 → ∀ size, unread (at_ k) size ∧ unset (at_ k) size ∧ unread (group k) size ∧ unset (group k) size) ∧
    (c.live = true →
      (∀ e ∈ [(0x00, c.deedwait), (0x04, c.collwait), (0x08, c.pairwait), (0x0C, c.rollmax), (0x10, c.thentry.toNat),
        (0x14, c.thseg % 2 ^ 32), (0x18, c.thseg / 2 ^ 32), (0x1C, c.fqhead.toNat), (0x20, c.fqtail.toNat), (0x24, c.fqlost),
        (0x28, c.deperr), (0x2C, s.pendCnt c.asid)], reads (at_ e.1) 4 e.2) ∧
      (∀ v, ∀ e ∈ [(0x00, 0x040), (0x04, 0x143), (0x08, 0x185), (0x0C, 0x183), (0x10, 0x006), (0x14, 0x009), (0x18, 0x00A), (0x20, 0x181)],
        sets (at_ e.1) 4 v (s.setCtxCsr asid e.2 (BitVec.ofNat 32 (w32 v)))) ∧
      (∀ v, sets (at_ 0x24) 4 v (s.modCtx asid fun c => { c with fqlost := 0 }) ∧
        sets (at_ 0x28) 4 v (s.modCtx asid fun c => { c with deperr := 0 })) ∧
      (unset (at_ 0x1C) 4 ∧ unset (at_ 0x2C) 4) ∧
      (∀ k size, k < 0x100 → size ≠ 4 → unread (at_ k) size ∧ unset (at_ k) size) ∧
      (∀ k, 0x30 ≤ k → k < 0x100 → k % 4 = 0 → reads (at_ k) 4 0 ∧ unset (at_ k) 4) ∧
      ∀ i size, i < 256 → (size = 2 ∨ size = 4 ∨ size = 8) → group i % size = 0 →
        reads (group i) size ((List.range (size / 2)).foldr (fun k v => (look 0 (i + k) c.peers).toNat + 2 ^ 16 * v) 0) ∧
        ∀ v, ∃ (w : State) (d : Ctx), sets (group i) size v w ∧ w = { s with ctxs := w.ctxs } ∧ w.ctx? asid = some d ∧
          (∀ a, a ≠ asid → w.ctx? a = s.ctx? a) ∧ d = { c with peers := d.peers } ∧
          ∀ k, look 0 k d.peers = if i ≤ k ∧ k < i + size / 2 then
            BitVec.ofNat 16 (v.toNat / 2 ^ (16 * (k - i)) % 2 ^ 12 + 2 ^ 15 * (v.toNat / 2 ^ (16 * (k - i) + 15) % 2)) else look 0 k c.peers)) ∧
  (∀ c, s.core? 0 = some c → reads 0x200040 4 c.mgcapNext ∧ reads 0x200044 4 c.mgstepNext ∧ reads 0x200048 4 (if c.mxctl then 1 else 0)) ∧
  (reads 0x200000 8 0 ∧ reads 0x200008 8 s.dev.invBase ∧ reads 0x200010 8 s.dev.invLen ∧ reads 0x200080 8 s.dev.saveBase ∧
    reads 0x200088 8 s.dev.saveLen ∧ reads 0x200090 4 s.dev.pcap ∧ reads 0x2000C0 4 s.dev.turn ∧
    reads 0x2000C4 4 s.dev.snapctl.toNat ∧ reads 0x2000C8 4 s.dev.peerwait) ∧
  (∀ v, sets 0x200008 8 v (dev { s.dev with invBase := v.toNat }) ∧ sets 0x200010 8 v (dev { s.dev with invLen := v.toNat }) ∧
    sets 0x200040 4 v (cores fun c => { c with mgcapNext := max 8 (min 512 (v.toNat % 2 ^ 10)) }) ∧
    sets 0x200044 4 v (cores fun c => { c with mgstepNext := max 8 (min 512 (v.toNat % 2 ^ 10)) }) ∧
    sets 0x200048 4 v (cores fun c => { c with mxctl := v.getLsbD 0 }) ∧
    sets 0x200080 8 v (dev { s.dev with saveBase := v.toNat }) ∧ sets 0x200088 8 v (dev { s.dev with saveLen := v.toNat }) ∧
    sets 0x200090 4 v (dev { s.dev with pcap := min 3600 (v.toNat % 2 ^ 12) }) ∧
    sets 0x2000C0 4 v (dev { s.dev with turn := max 10000 (w32 v) }) ∧
    sets 0x2000C4 4 v (dev { s.dev with snapctl := BitVec.ofNat 3 v.toNat }) ∧
    sets 0x2000C8 4 v (dev { s.dev with peerwait := max 1 (v.toNat % 2 ^ 20) })) ∧
  (∀ off size, 0x200000 ≤ off → off < 0x200100 → (off, size) ∉ [(0x200000, 8), (0x200008, 8), (0x200010, 8), (0x200040, 4), (0x200044, 4),
      (0x200048, 4), (0x200080, 8), (0x200088, 8), (0x200090, 4), (0x2000C0, 4), (0x2000C4, 4), (0x2000C8, 4)] →
    unread off size ∧ unset off size) ∧
  (∀ off size, 0x300000 ≤ off → off < 0x400000 → (off % 4 = 0 → reads off 4 (s.snapWord off)) ∧ (size ≠ 4 → unread off size) ∧
    unset off size) ∧
  (∀ ctl : BitVec 64,
    let mode := ctl.toNat / 2 ^ 12 % 4
    let asid := ctl.toNat % 2 ^ 11
    let refused := mode = 3 ∨ ctl.toNat / 2 ^ 11 % 2 = 1 ∨ ctl.toNat / 2 ^ 14 ≠ 0 ∨
      (mode = 1 ∧ (s.dev.invLen = 0 ∨ 2 ^ 57 < s.dev.invBase + s.dev.invLen))
    exec (.mgmtWrite 0x200000 8 ctl) s = exec (.inval ctl) s ∧
    (refused → exec (.inval ctl) s = ans s .refused) ∧
    (¬ refused → exec (.inval ctl) s = .next (({ s with
      invals := s.invals ++ [⟨s.fresh, mode, asid, s.dev.invBase, s.dev.invLen, c.seq, s.oldAccesses mode asid⟩]
      fresh := s.fresh + 1 } : State).dropTlbs mode asid s.dev.invBase s.dev.invLen)))) ∧
  ∀ mode asid base len, ∃ (w : State), s.dropTlbs mode asid base len = w ∧ w = { s with cores := w.cores, dies := w.dies } ∧
    let covered (e : TlbEntry) : Bool := match mode with
      | 0 => e.asid == asid && !e.global
      | 1 => (e.asid == asid || e.global) && e.base < base + len && base < e.base + e.size
      | _ => true
    w.cores = s.cores.map (fun c => { c with tlb := c.tlb.filter fun e => !covered e }) ∧
    w.dies = s.dies.map fun d => { d with tlb := d.tlb.filter fun e => !covered e }

/-- R178, R189, R344, R347 to R351: power-on and a management reset leave the state of the start of bring-up; each stage that passes
writes its number to DEVSTAT and does its work, and one that fails is recorded, the images accepted before it measured; a power
window lowers or raises the governor caps by 32; 105 °C halts; SNAPTRIG, SNAPARM and ATTEST are answered; once bring-up is complete a
peer's request is served at the bytes or the Deed Table of its window, or refused; a walk that completes fills the TLBs of the cores
that wait, or leaves its failure with the instruction or the operation that waits for it. The order of a digest's bytes is the model's
choice (log 6), and so is that ATTEST is refused before stage 1 (log 50). -/
def Obligations.DeviceEvents : Prop :=
  let ans (w : State) (c : Cmd) (a : Reply) : Host.Outcome State Fault Refusal := .next { w with outbox := w.outbox ++ [.mgmt c.seq a] }
  let big (n : Nat) (x : Nat) : List Byte := (leBytes n x).reverse
  (∀ s : State, ∃ (w : State), exec .powerOn s = .next w ∧ exec .managementReset s = .next w ∧
    w = { State.reset with
      agenda := s.agenda, clock := s.clock, fresh := s.fresh, peerMem := s.peerMem, outbox := s.outbox, quads := w.quads, cores := w.cores } ∧
    w.quads = State.reset.quads.map (fun q => { q with ends := s.clock + q.turn }) ∧
    w.cores = State.reset.cores.map fun c => { c with mgorigin := s.clock, mgwindow := 0 }) ∧
  (∀ (s : State) passed reason, s.dev.halted = false → s.dev.devstat.toNat / 2 ^ 4 % 2 ^ 4 = 0 → s.dev.devstat.toNat % 2 ^ 4 < 7 →
    let n := s.dev.devstat.toNat % 2 ^ 4 + 1
    let extended (ms : List (BitVec 256)) (i : Nat) : List (BitVec 256) := modAt ms i fun m =>
      sha256 (big 32 m.toNat ++ big 32 (sha256 (Config.image i)).toNat)
    let good (i : Nat) : Bool := sha256 (Config.imageKey i) = Config.fusedKey i ∧ Config.signatureOk i = true ∧
      (Config.rollback i).toNat ≤ (Config.firmwareVersion i).toNat ∧ (Config.image i).length ≤ Config.regionSize i
    let images : List Nat := if n = 1 then [0] else if n = 2 then [1, 2, 3] else []
    let accepted := ∀ i ∈ images, good i = true
    (¬ (passed ≠ none ∧ accepted) → exec (.bringupStage passed reason) s =
      .next { s with dev := { s.dev with
        devstat := BitVec.ofNat 32 (n - 1 + 2 ^ 4 * n + 2 ^ 8 * reason.toNat)
        meas := (images.takeWhile good).foldl extended s.dev.meas } }) ∧
    (∀ down, passed = some down → accepted → ∃ (w : State), exec (.bringupStage passed reason) s = .next w ∧ w.dev.devstat = BitVec.ofNat 32 n ∧
      w = { s with dev := w.dev, mem := w.mem, poison := w.poison, cores := w.cores } ∧
      (n ≠ 4 → n ≠ 5 → w.mem = s.mem ∧ w.poison = s.poison) ∧ (n = 4 ∨ n = 5 → w.mem = [] ∧ w.poison = []) ∧
      w.dev.meas = images.foldl extended s.dev.meas ∧
      w.dev.links = s.dev.links.map (fun l => if (n = 3 ∧ l.id < 4) ∨ (n = 6 ∧ 16 ≤ l.id ∧ ∀ p ∈ down, 16 + p.val ≠ l.id) then { l with up := true } else l) ∧
      (n = 7 → w.dev.modnum = Config.moduleNumber.toNat ∧ w.dev.turn = 200000 ∧ w.dev.pcap = 3600 ∧ w.dev.peerwait = 1000 ∧
        w.dev.snapctl = 7#3 ∧ w.dev.snap.seq = 0 ∧ w.dev.snap.miss = 0 ∧ w.dev.windows = Config.windowTable ∧
        w.dev.saveBase = s.dev.saveBase ∧ w.dev.saveLen = s.dev.saveLen ∧
        w.cores = s.cores.map fun c => { CoreSt.reset c.id with mgorigin := s.clock }) ∧
      (n ≠ 7 → w.cores = s.cores ∧ w.dev = { s.dev with devstat := w.dev.devstat, meas := w.dev.meas, links := w.dev.links }))) ∧
  (∀ (s : State) watts, s.dev.halted = false →
    let powered (c : CoreSt) : CoreSt :=
      let cap := min c.mgcapNext c.mgpower
      if s.dev.pcap < watts then { c with mgpower := max 8 (cap - 32) }
      else if watts < s.dev.pcap - 100 then { c with mgpower := if cap + 32 < c.mgcapNext then cap + 32 else 512 }
      else c
    exec (.powerWindow watts) s = .next { s with dev := { s.dev with pwrw := watts }, cores := s.cores.map powered }) ∧
  (∀ (s : State) die temp, ∃ (w : State), exec (.thermalHalt die temp) s = .next w ∧ w = { s with dies := w.dies, dev := w.dev } ∧
    w.dies = s.dies.map (fun d => if d.id == die then { d with temp := temp } else d) ∧
    (temp < 105 → w.dev = s.dev) ∧
    (105 ≤ temp → w.dev = { s.dev with halted := true, devstat := s.dev.devstat ||| 0x1000#32 })) ∧
  (∀ s : State, s.dev.halted = true →
    (∀ x f q v, exec .snaptrig s = .next s ∧ exec .snaparm s = .next s ∧ exec (.attest x) s = .next s ∧ exec (.inval f) s = .next s ∧
      exec (.kick q v) s = .next s) ∧
    (∀ d r w, exec (.bringupStage d r) s = .next s ∧ exec (.powerWindow w) s = .next s) ∧
    (∀ off n v, exec (.mgmtRead off n) s = .next s ∧ exec (.mgmtWrite off n v) s = .next s) ∧
    ∀ pa bs n, exec (.hostRdmaWrite pa bs) s = .next s ∧ exec (.hostRdmaRead pa n) s = .next s) ∧
  (∀ (s : State) (c : Cmd), s.cmd = c → s.dev.halted = false → c.qp = 1 →
    exec .snaptrig s = ans s.snapTrigger c .done ∧
    exec .snaparm s = ans { s with dev := { s.dev with snap := { s.dev.snap with frozen := false } } } c .done ∧
    ∀ nonce : BitVec 256,
      let body : List Byte := leBytes 32 nonce.toNat ++ (s.dev.meas.map fun m => big 32 m.toNat).flatten ++
        ((List.range 4).map fun i => leBytes 4 (Config.firmwareVersion i).toNat).flatten ++ leBytes 2 s.dev.modnum ++
        (List.replicate Config.cores (leBytes 8 0x3F)).flatten
      (s.dev.devstat.toNat % 16 = 0 → exec (.attest nonce) s = ans s c .refused) ∧
      (s.dev.devstat.toNat % 16 ≠ 0 → exec (.attest nonce) s =
        ans s c (.bytes (body ++ (List.finRange 17088).map (Config.signature body))))) ∧
  (∀ (s : State) m off op, s.dev.halted = true ∨ s.dev.devstat.toNat % 16 ≠ 7 → exec (.peerRequest m off op) s = .next s) ∧
  (∀ (s : State) m off op, s.dev.halted = false → s.dev.devstat.toNat % 16 = 7 →
    let found (n : Nat) : Option Config.Window := s.dev.windows.find? fun x => x.off ≤ off && off + n ≤ x.off + x.len
    let tells (w : State) (a : Reply) : Host.Outcome State Fault Refusal := .next { w with outbox := w.outbox ++ [.peer m a] }
    let sends (home : Nat) (b : MsgBody) : Host.Outcome State Fault Refusal := .next { s with
      msgs := s.msgs ++ [⟨s.fresh, home, .peer m, b⟩], fresh := s.fresh + 1 }
    let abroad (x : Nat) : Nat := 2 ^ 64 * (m + 1) + x
    let writes (pa : Nat) (bs : List Byte) : State := { s with
      mem := writeBytes s.mem pa bs
      poison := s.poison.filter fun l => ¬ (pa ≤ 128 * l ∧ 128 * (l + 1) ≤ pa + bs.length)
      unreturned := s.unreturned.filter fun e => ¬ (pa ≤ e.1 ∧ e.1 < pa + bs.length) }
    let bad (pa n : Nat) : Prop := ∃ l, l ∈ s.poison ∧ pa / 128 ≤ l ∧ 128 * l < pa + n
    (∀ n, op = .read n → (found n = none → exec (.peerRequest m off op) s = tells s .refused) ∧
      ∀ x, found n = some x → let pa := x.pa + (off - x.off)
        (bad pa n → exec (.peerRequest m off op) s = tells s .refused) ∧
        (¬ bad pa n → exec (.peerRequest m off op) s = tells s (.bytes (readBytes s.mem pa n)))) ∧
    (∀ bs, op = .write bs → (found bs.length = none → exec (.peerRequest m off op) s = tells s .refused) ∧
      ∀ x, found bs.length = some x → exec (.peerRequest m off op) s = tells (writes (x.pa + (off - x.off)) bs) .done) ∧
    (∀ o w b c, op = .atomic o w b c → let n := if w then 8 else 4
      (found n = none → exec (.peerRequest m off op) s = tells s .refused) ∧
      ∀ x, found n = some x → let pa := x.pa + (off - x.off)
        let old := leNat (readBytes s.mem pa n)
        let new := newValue o (8 * n) old (b.toNat % 2 ^ (8 * n)) (c.toNat % 2 ^ (8 * n))
        (bad pa n → exec (.peerRequest m off op) s = tells s .refused) ∧
        (¬ bad pa n → exec (.peerRequest m off op) s = tells (writes pa (leBytes n new)) (.value (BitVec.ofNat 64 old)))) ∧
    (∀ asid len kind nowait (tag : BitVec 64), op = .dreq asid len kind nowait tag →
      (found len = none → exec (.peerRequest m off op) s = .next { s with outbox := s.outbox ++ [.deed m (.drefuse tag.toNat 7)] }) ∧
      ∀ x, found len = some x → exec (.peerRequest m off op) s = sends (x.die.getD 4) (.dreq ⟨abroad tag.toNat, x.domain,
        abroad asid, s.requester (.peer m), off, len, kind, nowait, s.clock + 16 * s.dev.turn⟩)) ∧
    (∀ tag : BitVec 64, op = .dcancel tag → (found 0 = none → exec (.peerRequest m off op) s = .next s) ∧
      ∀ x, found 0 = some x → exec (.peerRequest m off op) s = sends (x.die.getD 4) (.dcancel (abroad tag.toNat))) ∧
    ∀ (deed : BitVec 64) kind, op = .drel deed kind → exec (.peerRequest m off op) s =
      sends (deed.toNat / 2 ^ 17) (.drel (deed.toNat % 2 ^ 17) kind 0 (abroad deed.toNat))) ∧
  (∀ (s : State) walk w, s.walks.find? (fun w => w.id == walk && w.running) = some w →
    let s0 : State := { s with walks := s.walks.filter fun x => x.id != walk }
    let s1 : State := match s0.walks.find? (fun x => x.die == w.die && !x.running) with
      | none => s0
      | some y => { s0 with walks := s0.walks.map fun x => if x.id == y.id then { x with running := true } else x }
    let ops (bad : Option (Nat × XlateFail)) : List EngOp :=
      s.ops.map fun o => if o.walk = some walk then { o with walk := none, xfail := bad } else o
    let bundles (fails : WalkWait → Option XlateFail) : List Bundle := s.bundles.map fun b =>
      if b.walks.any (·.walk == walk) then { b with
        walks := b.walks.filter (·.walk != walk)
        faults := b.faults ++ (b.walks.filter (·.walk == walk)).filterMap fun x => (fails x).map fun f => (x, f) }
      else b
    (∀ f, s1.walkVa w.asid w.va = .error f → exec (.pageWalkComplete walk) s =
      .next { s1 with ops := ops (some (w.va / 4096, f)), bundles := bundles fun _ => some f }) ∧
    ∀ e lvl, s1.walkVa w.asid w.va = .ok (e, lvl) →
      let cores := (w.core :: (s1.bundles.filter fun b => b.walks.any (·.walk == walk)).map (·.core) ++
        (s1.ops.filter fun o => o.walk == some walk).map (·.core)).eraseDups
      exec (.pageWalkComplete walk) s = .next { (cores.foldl (fun s c => s.fillTlb c e) s1) with
        ops := ops none, bundles := bundles fun x => useFail e x.use x.sys lvl }) ∧
  ∀ (s : State) w e core, s.fillTlb core e = w → w = { s with cores := w.cores, dies := w.dies } ∧
    w.cores = s.cores.map (fun c => if c.id == core then { c with tlb := (e :: c.tlb.filter (· != e)).take 4096 } else c) ∧
    w.dies = s.dies.map fun d => if d.id == core / 16 then { d with tlb := (e :: d.tlb.filter (· != e)).take 65536 } else d

/-- R71 to R76, R87, R93, R96 to R98: a step runs the decoded instruction. A bundle that moves is the one whose turn it is on its core,
and takes its issue unit and pipes; or it goes on with its chain group. It stands inside a clause whose header lies at most seven
packets back, or enters one that passes its checks and whose WAIT its threads meet. Where the words at its PC read as `ws`, through
the TLB of its core at unpoisoned lines that may be fetched, and decode to a well-formed instruction, the step is `exec` of that
instruction, the bundle then naming its clause, its words and the next instruction, and a first chained instruction opening its
group; where they do not decode, every thread takes ILLEGAL_OP. An event is run as it stands, and a command of the
host with its queue pair and sequence. What a step adds: a group that no longer
goes on is closed, or kept by a bundle that waits for a page walk, and what follows at once. Clocks pass only where no bundle may
issue and no formation round is due. That steps come from an agenda, and else in an order of the model's own, is its choice
(log 1). -/
def Obligations.StepRunsDecoded : Prop :=
  let close (u : State) (chain : Bool) : State :=
    match u.group, u.bundle? with
    | some g, some b =>
      if b.walks ≠ [] then { (if g.first = b.pc then u else u.modBundle b.id fun x => { x with snap := some g }) with group := none }
      else if chain then u else { u with group := none }
    | _, _ => { u with group := none }
  let ends (o : Host.Outcome State Fault Refusal) (chain : Bool) : Host.Outcome State Fault Refusal :=
    match o with
    | .next u => .next (close u chain).finish
    | .fault r => .fault r
    | .refused r => .refused r
  let reads (s : State) (b : Bundle) (va : Nat) (w : Word) : Prop := va < 2 ^ 57 ∧ ∃ e, s.tlb1 b.core b.asid va = some e ∧ e.x = true ∧
    (e.prv = true → ∀ t ∈ b.threads, s.inHandler t = true) ∧
    let pa := e.pa + (va - e.base)
    let h := homeOf e.home.toNat e.die pa
    lineKey h pa ∉ s.poison ∧ BitVec.ofNat 32 (leNat (s.homeBytes h pa 4)) = w
  let here (b : Bundle) : List Nat := ((List.range 3).filter fun i => b.pc.slot.val ≤ i).map fun i => codeVa b.cseg b.pc.p i
  let runs (s : State) (b : Bundle) (ws : List Word) (out : Host.Outcome State Fault Refusal) : Prop :=
    let n := (instrLen ws).getD 1
    let v : State := { s with bundles := s.bundles.map fun x => if x.id == b.id then b else x }
    let b1 : Bundle := { b with words := ws.take n, npc := v.nextInstr b (v.bundleSys b) 24 (b.pc.plus n) }
    let u : State := { s with bundles := s.bundles.map fun x => if x.id == b.id then b1 else x }
    let illegal (info : Nat) : Host.Outcome State Fault Refusal :=
      ends (.next (u.raiseAll b.pc b1.npc 0 (b.threads.map fun t => ⟨t, 0x01, BitVec.ofNat 32 info, 0⟩))) false
    (∀ i k, decode ws = some (i, k) → i.wellFormed = true → out = ends (exec i { u with
      group := u.group.or (if i.mods.chain then some ⟨b.pc, s.bands, s.slots⟩ else none) }) i.mods.chain) ∧
    (decode ws = none → out = illegal (if opOf (ws.headD 0) = 0x6B then bitsOf ((ws[1]?).getD 0) 16 16 else 0)) ∧
    ∀ i k, decode ws = some (i, k) → i.wellFormed = false → out = illegal 0
  let issues (s : State) (b : Bundle) (out : Host.Outcome State Fault Refusal) : Prop :=
    (∀ e ∈ b.faults, e.1.use ≠ .fetch) →
    (∀ k w h ws, k < 8 →
      let p := b.pc.p - BitVec.ofNat 32 k
      reads s b (codeVa b.cseg p 0) w → headerOf w = some h → k < h.len →
      (∀ j, j < k → ∃ x, reads s b (codeVa b.cseg (b.pc.p - BitVec.ofNat 32 j) 0) x ∧ opOf x ≠ 0x7F) →
      (b.pc.slot = 0 → 0 < k ∧ ∀ t ∈ b.threads, ((s.thread? t).map (·.entering)).getD false = false) →
      List.Forall₂ (reads s b) (here b) ws →
      runs s { b with base := p, next := p + BitVec.ofNat 32 h.len, seta := h.seta, setb := h.setb } ws out) ∧
    ∀ w h all ws, b.pc.slot = 0 → b.threads ≠ [] → reads s b (codeVa b.cseg b.pc.p 0) w → headerOf w = some h →
      List.Forall₂ (reads s b) (packetVas b.cseg b.pc.p h.len) all → clauseWordsOk all = true →
      (∀ t ∈ b.threads, s.flagsSet t h.wait = false) →
      let b1 : Bundle := { b with pc := ⟨b.pc.p, 1⟩, base := b.pc.p, next := b.pc.p + BitVec.ofNat 32 h.len, seta := h.seta, setb := h.setb }
      List.Forall₂ (reads s b) (here b1) ws →
      runs (b.threads.foldl (fun s t => s.modThread t fun th => { th with entering := false }) s) b1 ws out
  (∀ (s : State) i rest, s.agenda = .event i :: rest → s.group = none → s.dev.halted = false → i.encoded = false →
    step s = ends (exec i { s with agenda := rest }) false) ∧
  (∀ (s : State) c i rest, s.agenda = .command c i :: rest → s.group = none → s.dev.halted = false → i.encoded = false →
    step s = ends (exec i { s with agenda := rest, cmd := c }) false) ∧
  (∀ (s : State) (b : Bundle) rest, s.agenda = .issue b.id :: rest ∨ (s.agenda = [] ∧ rest = [] ∧ s.ownMove = .issue b.id) →
    s.group = none → s.dev.halted = false → s.bundles.find? (·.id == b.id) = some b →
    let v : State := { s with agenda := rest }
    v.mayIssue b = true → issues { v.occupy b with cur := b.id, group := b.snap } { b with snap := none } (step s)) ∧
  (∀ (s : State) b g, s.group = some g → s.bundle? = some b → s.dev.halted = false → issues s { b with snap := none } (step s)) ∧
  ∀ (s : State) n rest, s.agenda = .tick n :: rest → s.group = none → s.dev.halted = false →
    let v : State := { s with agenda := rest }
    ((∃ b ∈ s.bundles, v.mayIssue b = true) ∨ (∃ c ∈ v.busyCores, v.formationDue c = true) → step s = .next v.finish) ∧
    ((∀ b ∈ s.bundles, v.mayIssue b = false) → (∀ c ∈ v.busyCores, v.formationDue c = false) →
      step s = .next (State.finish { v.endClock with clock := v.endClock.clock + 1 + min n v.endClock.idleClocks, group := none }))

/-! ### Decoding, reset and memory (spec/05, spec/02) -/

/-- R77 to R83, R104 to R327 (their encodings and worked examples): words of every family that the spec writes out decode to the
instructions it gives for them, with the number of words each has. -/
def Obligations.DecodedWords : Prop :=
  let none_ : Mods := ⟨false, false, false, none, none⟩
  let addend (r : VReg) : XM := { XM.plain with creg := some r }
  ∀ e ∈ ([([0x00000000#32], .nop), ([0x00900100#32, 0x00000300#32], .bra none_ (some 1) true .none 3), ([0x00803F00#32, 0x00000200#32], .bra none_ none false .none 2),
    ([0x05000000#32], .exit none_), ([0x36000000#32], .chwait none_),
    ([0x76000000#32, 0x00000000#32], .chwait { none_ with xg := some ⟨some 0, false, .ident, .ident⟩ }),
    ([0x8A024328#32], .iadd { none_ with chain := true } .i32 9 3 10), ([0x0A82C328#32], .isub none_ .i32 11 3 10),
    ([0x20020200#32, 0x18050000#32], .cvt none_ .e4m3 .f32 .rne true 1 8 2),
    ([0x28C00108#32, 0x40000020#32], .st none_ .w .norm 4 1 2 0x20),
    ([0x2901C214#32, 0x3A000008#32], .atom none_ .rlx 3 .device .add false 7 2 5 8),
    ([0x6931C214#32, 0x3B600000#32, 0x80001A00#32], .atom { none_ with xm := some (addend 6) } .acqrel 3 .device .cas false 7 2 5 0),
    ([0x6A210014#32, 0xB4012000#32, 0x80001A00#32], .atomc { none_ with xm := some (addend 6) } .rel 11 true 9 4 0 5 0),
    ([0x2C000108#32, 0x80000000#32], .bara none_ .arrive 8 1 2 0), ([0x2C80010C#32, 0x80000000#32], .barw none_ 8 1 3 0),
    ([0x30024418#32], .bor none_ .e false 9 4 6), ([0x70024418#32, 0x00000000#32], .bor { none_ with xg := some ⟨some 0, false, .ident, .ident⟩ } .e false 9 4 6),
    ([0x32100900#32], .rtn none_ true 9), ([0x34000400#32, 0x00000011#32], .spawn none_ 4 17),
    ([0x3801420C#32, 0x95400000#32], .cpy none_ 1 5 9 2 3 20), ([0x3C000000#32, 0x018C6BC0#32], .trsv none_ 3 .e4m3 .e4m3 .b32 1 true 0xC0),
    ([0x38811000#32, 0x00701850#32], .tcpy none_ .memToTile 4 16 7 3 0 2 true false),
    ([0x7D101000#32, 0x01860180#32, 0x80006200#32], .mma { none_ with xm := some (addend 24) } true false 16 3 192 1 true),
    ([0x3A025400#32, 0x90001800#32], .coll none_ false .sum 0 0 3 9 9 20)] : List (List Word × Instr)),
    decode e.1 = some (e.2, e.1.length) ∧ e.2.wellFormed = true

/-- R72 to R83 and the encodings: every well-formed instruction that has an encoding is what its words decode to, whatever words
follow them. -/
def Obligations.DecodeEncode : Prop :=
  ∀ (i : Instr) (rest : List Word), i.encoded = true → i.wellFormed = true → decode (encode i ++ rest) = some (i, (encode i).length)

/-- R36, R58, R247, R347, R353: the machine right after power-on. DEVSTAT is 0, every launch queue is disabled with a ring of 2^4
entries, the module registers hold their reset values, nothing is live, resident, cached or in progress, and memory is in its
canonical form. That memory then reads 0 is the model's choice (log 2). -/
def Obligations.ResetState : Prop :=
  let s := State.reset
  s.dev.devstat = 0#32 ∧ s.dev.turn = 200000 ∧ s.dev.snapctl = 7#3 ∧ s.dev.peerwait = 1000 ∧ s.dev.pcap = 3600 ∧ s.dev.pwrw = 0 ∧
  s.dev.snap.seq = 0 ∧ s.dev.snap.miss = 0 ∧ s.dev.snap.frozen = false ∧ s.dev.halted = false ∧ s.dev.meas = List.replicate 4 (0#256) ∧
  (∀ l ∈ s.dev.links, l.up = false) ∧
  s.queues.length = 64 ∧ (∀ q ∈ s.queues, q.qbase = 0 ∧ q.qsize = 4 ∧ q.qctx = 0 ∧ q.qpriv = false ∧ q.qhead = 0#32 ∧ q.idle = false ∧
    q.kickAhead = false ∧ q.refused = false ∧ q.qerr = 0#32 ∧ q.qrefcnt = 0 ∧ q.qen = false) ∧
  s.cores.map (·.id) = List.range 64 ∧ (∀ c ∈ s.cores, c.l1 = [] ∧ c.tlb = [] ∧ c.mx = [] ∧ c.cecnt = 0 ∧ c.mxctl = true ∧
    c.mgcapNext = 512 ∧ c.mgstepNext = 128 ∧ c.mgspent = 0) ∧
  s.dies.map (·.id) = List.range 4 ∧ (∀ d ∈ s.dies, d.l2 = [] ∧ d.tlb = [] ∧ d.temp = 0) ∧
  s.slots.length = 256 ∧ (∀ x ∈ s.slots, x.owner = none) ∧
  s.ctxs = [] ∧ s.bands = [] ∧ s.grids = [] ∧ s.bundles = [] ∧ s.ops = [] ∧ s.flights = [] ∧ s.pending = [] ∧ s.msgs = [] ∧ s.borrows = [] ∧
  s.asyncs = [] ∧ s.walks = [] ∧ s.returns = [] ∧ s.launches = [] ∧ s.packets = [] ∧ s.rings = [] ∧ s.deps = [] ∧ s.sleepers = [] ∧
  s.chunks = [] ∧ s.mail = [] ∧ s.families = [] ∧ s.holds = [] ∧ s.invals = [] ∧ s.peerReqs = [] ∧ s.outbox = [] ∧ s.unreturned = [] ∧
  s.homes.map (·.id) = List.range 5 ∧ (∀ h ∈ s.homes, h.entries = [] ∧ h.queue = []) ∧
  s.quads.map (·.id) = List.range 16 ∧ (∀ q ∈ s.quads, q.turn = 200000 ∧ q.passing = false) ∧
  s.poison = [] ∧ s.memOk ∧ ∀ a, look (0 : Byte) a s.mem = 0

/-- The model's own invariant (log 2): every step keeps memory, and the peers' memory, in canonical form: addresses strictly rising
and no entry listed that holds what an unlisted address reads as. -/
def Obligations.MemOkKept : Prop := ∀ (s t : State), s.memOk → step s = .next t → t.memOk
end

