-- ==== Sys2Proof/Laws/State.lean ====
section
/-! SUPPORT. What each update of one object leaves as it was, field by field. -/

namespace Sys2Proof.Machine

/-! ### modBand: a band -/

@[simp] theorem State.modBand_agenda (s : State) (b : Nat) (f : Band → Band) : (s.modBand b f).agenda = s.agenda := rfl
@[simp] theorem State.modBand_clock (s : State) (b : Nat) (f : Band → Band) : (s.modBand b f).clock = s.clock := rfl
@[simp] theorem State.modBand_fresh (s : State) (b : Nat) (f : Band → Band) : (s.modBand b f).fresh = s.fresh := rfl
@[simp] theorem State.modBand_mem (s : State) (b : Nat) (f : Band → Band) : (s.modBand b f).mem = s.mem := rfl
@[simp] theorem State.modBand_peerMem (s : State) (b : Nat) (f : Band → Band) : (s.modBand b f).peerMem = s.peerMem := rfl
@[simp] theorem State.modBand_poison (s : State) (b : Nat) (f : Band → Band) : (s.modBand b f).poison = s.poison := rfl
@[simp] theorem State.modBand_ctxs (s : State) (b : Nat) (f : Band → Band) : (s.modBand b f).ctxs = s.ctxs := rfl
@[simp] theorem State.modBand_grids (s : State) (b : Nat) (f : Band → Band) : (s.modBand b f).grids = s.grids := rfl
@[simp] theorem State.modBand_launches (s : State) (b : Nat) (f : Band → Band) : (s.modBand b f).launches = s.launches := rfl
@[simp] theorem State.modBand_children (s : State) (b : Nat) (f : Band → Band) : (s.modBand b f).children = s.children := rfl
@[simp] theorem State.modBand_deps (s : State) (b : Nat) (f : Band → Band) : (s.modBand b f).deps = s.deps := rfl
@[simp] theorem State.modBand_packets (s : State) (b : Nat) (f : Band → Band) : (s.modBand b f).packets = s.packets := rfl
@[simp] theorem State.modBand_rings (s : State) (b : Nat) (f : Band → Band) : (s.modBand b f).rings = s.rings := rfl
@[simp] theorem State.modBand_sliceSeq (s : State) (b : Nat) (f : Band → Band) : (s.modBand b f).sliceSeq = s.sliceSeq := rfl
@[simp] theorem State.modBand_sleepers (s : State) (b : Nat) (f : Band → Band) : (s.modBand b f).sleepers = s.sleepers := rfl
@[simp] theorem State.modBand_queues (s : State) (b : Nat) (f : Band → Band) : (s.modBand b f).queues = s.queues := rfl
@[simp] theorem State.modBand_quads (s : State) (b : Nat) (f : Band → Band) : (s.modBand b f).quads = s.quads := rfl
@[simp] theorem State.modBand_cores (s : State) (b : Nat) (f : Band → Band) : (s.modBand b f).cores = s.cores := rfl
@[simp] theorem State.modBand_dies (s : State) (b : Nat) (f : Band → Band) : (s.modBand b f).dies = s.dies := rfl
@[simp] theorem State.modBand_slots (s : State) (b : Nat) (f : Band → Band) : (s.modBand b f).slots = s.slots := rfl
@[simp] theorem State.modBand_bundles (s : State) (b : Nat) (f : Band → Band) : (s.modBand b f).bundles = s.bundles := rfl
@[simp] theorem State.modBand_cur (s : State) (b : Nat) (f : Band → Band) : (s.modBand b f).cur = s.cur := rfl
@[simp] theorem State.modBand_group (s : State) (b : Nat) (f : Band → Band) : (s.modBand b f).group = s.group := rfl
@[simp] theorem State.modBand_pending (s : State) (b : Nat) (f : Band → Band) : (s.modBand b f).pending = s.pending := rfl
@[simp] theorem State.modBand_holds (s : State) (b : Nat) (f : Band → Band) : (s.modBand b f).holds = s.holds := rfl
@[simp] theorem State.modBand_flights (s : State) (b : Nat) (f : Band → Band) : (s.modBand b f).flights = s.flights := rfl
@[simp] theorem State.modBand_walks (s : State) (b : Nat) (f : Band → Band) : (s.modBand b f).walks = s.walks := rfl
@[simp] theorem State.modBand_homes (s : State) (b : Nat) (f : Band → Band) : (s.modBand b f).homes = s.homes := rfl
@[simp] theorem State.modBand_msgs (s : State) (b : Nat) (f : Band → Band) : (s.modBand b f).msgs = s.msgs := rfl
@[simp] theorem State.modBand_borrows (s : State) (b : Nat) (f : Band → Band) : (s.modBand b f).borrows = s.borrows := rfl
@[simp] theorem State.modBand_families (s : State) (b : Nat) (f : Band → Band) : (s.modBand b f).families = s.families := rfl
@[simp] theorem State.modBand_returns (s : State) (b : Nat) (f : Band → Band) : (s.modBand b f).returns = s.returns := rfl
@[simp] theorem State.modBand_ops (s : State) (b : Nat) (f : Band → Band) : (s.modBand b f).ops = s.ops := rfl
@[simp] theorem State.modBand_chunks (s : State) (b : Nat) (f : Band → Band) : (s.modBand b f).chunks = s.chunks := rfl
@[simp] theorem State.modBand_asyncs (s : State) (b : Nat) (f : Band → Band) : (s.modBand b f).asyncs = s.asyncs := rfl
@[simp] theorem State.modBand_pairActs (s : State) (b : Nat) (f : Band → Band) : (s.modBand b f).pairActs = s.pairActs := rfl
@[simp] theorem State.modBand_shadows (s : State) (b : Nat) (f : Band → Band) : (s.modBand b f).shadows = s.shadows := rfl
@[simp] theorem State.modBand_invals (s : State) (b : Nat) (f : Band → Band) : (s.modBand b f).invals = s.invals := rfl
@[simp] theorem State.modBand_peerReqs (s : State) (b : Nat) (f : Band → Band) : (s.modBand b f).peerReqs = s.peerReqs := rfl
@[simp] theorem State.modBand_dev (s : State) (b : Nat) (f : Band → Band) : (s.modBand b f).dev = s.dev := rfl
@[simp] theorem State.modBand_outbox (s : State) (b : Nat) (f : Band → Band) : (s.modBand b f).outbox = s.outbox := rfl
@[simp] theorem State.modBand_cmd (s : State) (b : Nat) (f : Band → Band) : (s.modBand b f).cmd = s.cmd := rfl
@[simp] theorem State.modBand_unreturned (s : State) (b : Nat) (f : Band → Band) : (s.modBand b f).unreturned = s.unreturned := rfl
@[simp] theorem State.modBand_pins (s : State) (b : Nat) (f : Band → Band) : (s.modBand b f).pins = s.pins := rfl
@[simp] theorem State.modBand_snaps (s : State) (b : Nat) (f : Band → Band) : (s.modBand b f).snaps = s.snaps := rfl
@[simp] theorem State.modBand_now (s : State) (b : Nat) (f : Band → Band) : (s.modBand b f).now = s.now := rfl
@[simp] theorem State.modBand_mail (s : State) (b : Nat) (f : Band → Band) : (s.modBand b f).mail = s.mail := rfl
@[simp] theorem State.modBand_stale (s : State) (b : Nat) (f : Band → Band) : (s.modBand b f).stale = s.stale := rfl

/-! ### modTroop: a troop -/

@[simp] theorem State.modTroop_agenda (s : State) (b t : Nat) (f : Troop → Troop) : (s.modTroop b t f).agenda = s.agenda := rfl
@[simp] theorem State.modTroop_clock (s : State) (b t : Nat) (f : Troop → Troop) : (s.modTroop b t f).clock = s.clock := rfl
@[simp] theorem State.modTroop_fresh (s : State) (b t : Nat) (f : Troop → Troop) : (s.modTroop b t f).fresh = s.fresh := rfl
@[simp] theorem State.modTroop_mem (s : State) (b t : Nat) (f : Troop → Troop) : (s.modTroop b t f).mem = s.mem := rfl
@[simp] theorem State.modTroop_peerMem (s : State) (b t : Nat) (f : Troop → Troop) : (s.modTroop b t f).peerMem = s.peerMem := rfl
@[simp] theorem State.modTroop_poison (s : State) (b t : Nat) (f : Troop → Troop) : (s.modTroop b t f).poison = s.poison := rfl
@[simp] theorem State.modTroop_ctxs (s : State) (b t : Nat) (f : Troop → Troop) : (s.modTroop b t f).ctxs = s.ctxs := rfl
@[simp] theorem State.modTroop_grids (s : State) (b t : Nat) (f : Troop → Troop) : (s.modTroop b t f).grids = s.grids := rfl
@[simp] theorem State.modTroop_launches (s : State) (b t : Nat) (f : Troop → Troop) : (s.modTroop b t f).launches = s.launches := rfl
@[simp] theorem State.modTroop_children (s : State) (b t : Nat) (f : Troop → Troop) : (s.modTroop b t f).children = s.children := rfl
@[simp] theorem State.modTroop_deps (s : State) (b t : Nat) (f : Troop → Troop) : (s.modTroop b t f).deps = s.deps := rfl
@[simp] theorem State.modTroop_packets (s : State) (b t : Nat) (f : Troop → Troop) : (s.modTroop b t f).packets = s.packets := rfl
@[simp] theorem State.modTroop_rings (s : State) (b t : Nat) (f : Troop → Troop) : (s.modTroop b t f).rings = s.rings := rfl
@[simp] theorem State.modTroop_sliceSeq (s : State) (b t : Nat) (f : Troop → Troop) : (s.modTroop b t f).sliceSeq = s.sliceSeq := rfl
@[simp] theorem State.modTroop_sleepers (s : State) (b t : Nat) (f : Troop → Troop) : (s.modTroop b t f).sleepers = s.sleepers := rfl
@[simp] theorem State.modTroop_queues (s : State) (b t : Nat) (f : Troop → Troop) : (s.modTroop b t f).queues = s.queues := rfl
@[simp] theorem State.modTroop_quads (s : State) (b t : Nat) (f : Troop → Troop) : (s.modTroop b t f).quads = s.quads := rfl
@[simp] theorem State.modTroop_cores (s : State) (b t : Nat) (f : Troop → Troop) : (s.modTroop b t f).cores = s.cores := rfl
@[simp] theorem State.modTroop_dies (s : State) (b t : Nat) (f : Troop → Troop) : (s.modTroop b t f).dies = s.dies := rfl
@[simp] theorem State.modTroop_slots (s : State) (b t : Nat) (f : Troop → Troop) : (s.modTroop b t f).slots = s.slots := rfl
@[simp] theorem State.modTroop_bundles (s : State) (b t : Nat) (f : Troop → Troop) : (s.modTroop b t f).bundles = s.bundles := rfl
@[simp] theorem State.modTroop_cur (s : State) (b t : Nat) (f : Troop → Troop) : (s.modTroop b t f).cur = s.cur := rfl
@[simp] theorem State.modTroop_group (s : State) (b t : Nat) (f : Troop → Troop) : (s.modTroop b t f).group = s.group := rfl
@[simp] theorem State.modTroop_pending (s : State) (b t : Nat) (f : Troop → Troop) : (s.modTroop b t f).pending = s.pending := rfl
@[simp] theorem State.modTroop_holds (s : State) (b t : Nat) (f : Troop → Troop) : (s.modTroop b t f).holds = s.holds := rfl
@[simp] theorem State.modTroop_flights (s : State) (b t : Nat) (f : Troop → Troop) : (s.modTroop b t f).flights = s.flights := rfl
@[simp] theorem State.modTroop_walks (s : State) (b t : Nat) (f : Troop → Troop) : (s.modTroop b t f).walks = s.walks := rfl
@[simp] theorem State.modTroop_homes (s : State) (b t : Nat) (f : Troop → Troop) : (s.modTroop b t f).homes = s.homes := rfl
@[simp] theorem State.modTroop_msgs (s : State) (b t : Nat) (f : Troop → Troop) : (s.modTroop b t f).msgs = s.msgs := rfl
@[simp] theorem State.modTroop_borrows (s : State) (b t : Nat) (f : Troop → Troop) : (s.modTroop b t f).borrows = s.borrows := rfl
@[simp] theorem State.modTroop_families (s : State) (b t : Nat) (f : Troop → Troop) : (s.modTroop b t f).families = s.families := rfl
@[simp] theorem State.modTroop_returns (s : State) (b t : Nat) (f : Troop → Troop) : (s.modTroop b t f).returns = s.returns := rfl
@[simp] theorem State.modTroop_ops (s : State) (b t : Nat) (f : Troop → Troop) : (s.modTroop b t f).ops = s.ops := rfl
@[simp] theorem State.modTroop_chunks (s : State) (b t : Nat) (f : Troop → Troop) : (s.modTroop b t f).chunks = s.chunks := rfl
@[simp] theorem State.modTroop_asyncs (s : State) (b t : Nat) (f : Troop → Troop) : (s.modTroop b t f).asyncs = s.asyncs := rfl
@[simp] theorem State.modTroop_pairActs (s : State) (b t : Nat) (f : Troop → Troop) : (s.modTroop b t f).pairActs = s.pairActs := rfl
@[simp] theorem State.modTroop_shadows (s : State) (b t : Nat) (f : Troop → Troop) : (s.modTroop b t f).shadows = s.shadows := rfl
@[simp] theorem State.modTroop_invals (s : State) (b t : Nat) (f : Troop → Troop) : (s.modTroop b t f).invals = s.invals := rfl
@[simp] theorem State.modTroop_peerReqs (s : State) (b t : Nat) (f : Troop → Troop) : (s.modTroop b t f).peerReqs = s.peerReqs := rfl
@[simp] theorem State.modTroop_dev (s : State) (b t : Nat) (f : Troop → Troop) : (s.modTroop b t f).dev = s.dev := rfl
@[simp] theorem State.modTroop_outbox (s : State) (b t : Nat) (f : Troop → Troop) : (s.modTroop b t f).outbox = s.outbox := rfl
@[simp] theorem State.modTroop_cmd (s : State) (b t : Nat) (f : Troop → Troop) : (s.modTroop b t f).cmd = s.cmd := rfl
@[simp] theorem State.modTroop_unreturned (s : State) (b t : Nat) (f : Troop → Troop) : (s.modTroop b t f).unreturned = s.unreturned := rfl
@[simp] theorem State.modTroop_pins (s : State) (b t : Nat) (f : Troop → Troop) : (s.modTroop b t f).pins = s.pins := rfl
@[simp] theorem State.modTroop_snaps (s : State) (b t : Nat) (f : Troop → Troop) : (s.modTroop b t f).snaps = s.snaps := rfl
@[simp] theorem State.modTroop_now (s : State) (b t : Nat) (f : Troop → Troop) : (s.modTroop b t f).now = s.now := rfl
@[simp] theorem State.modTroop_mail (s : State) (b t : Nat) (f : Troop → Troop) : (s.modTroop b t f).mail = s.mail := rfl
@[simp] theorem State.modTroop_stale (s : State) (b t : Nat) (f : Troop → Troop) : (s.modTroop b t f).stale = s.stale := rfl

/-! ### modThread: a thread -/

@[simp] theorem State.modThread_agenda (s : State) (t : Tid) (f : Thread → Thread) : (s.modThread t f).agenda = s.agenda := rfl
@[simp] theorem State.modThread_clock (s : State) (t : Tid) (f : Thread → Thread) : (s.modThread t f).clock = s.clock := rfl
@[simp] theorem State.modThread_fresh (s : State) (t : Tid) (f : Thread → Thread) : (s.modThread t f).fresh = s.fresh := rfl
@[simp] theorem State.modThread_mem (s : State) (t : Tid) (f : Thread → Thread) : (s.modThread t f).mem = s.mem := rfl
@[simp] theorem State.modThread_peerMem (s : State) (t : Tid) (f : Thread → Thread) : (s.modThread t f).peerMem = s.peerMem := rfl
@[simp] theorem State.modThread_poison (s : State) (t : Tid) (f : Thread → Thread) : (s.modThread t f).poison = s.poison := rfl
@[simp] theorem State.modThread_ctxs (s : State) (t : Tid) (f : Thread → Thread) : (s.modThread t f).ctxs = s.ctxs := rfl
@[simp] theorem State.modThread_grids (s : State) (t : Tid) (f : Thread → Thread) : (s.modThread t f).grids = s.grids := rfl
@[simp] theorem State.modThread_launches (s : State) (t : Tid) (f : Thread → Thread) : (s.modThread t f).launches = s.launches := rfl
@[simp] theorem State.modThread_children (s : State) (t : Tid) (f : Thread → Thread) : (s.modThread t f).children = s.children := rfl
@[simp] theorem State.modThread_deps (s : State) (t : Tid) (f : Thread → Thread) : (s.modThread t f).deps = s.deps := rfl
@[simp] theorem State.modThread_packets (s : State) (t : Tid) (f : Thread → Thread) : (s.modThread t f).packets = s.packets := rfl
@[simp] theorem State.modThread_rings (s : State) (t : Tid) (f : Thread → Thread) : (s.modThread t f).rings = s.rings := rfl
@[simp] theorem State.modThread_sliceSeq (s : State) (t : Tid) (f : Thread → Thread) : (s.modThread t f).sliceSeq = s.sliceSeq := rfl
@[simp] theorem State.modThread_sleepers (s : State) (t : Tid) (f : Thread → Thread) : (s.modThread t f).sleepers = s.sleepers := rfl
@[simp] theorem State.modThread_queues (s : State) (t : Tid) (f : Thread → Thread) : (s.modThread t f).queues = s.queues := rfl
@[simp] theorem State.modThread_quads (s : State) (t : Tid) (f : Thread → Thread) : (s.modThread t f).quads = s.quads := rfl
@[simp] theorem State.modThread_cores (s : State) (t : Tid) (f : Thread → Thread) : (s.modThread t f).cores = s.cores := rfl
@[simp] theorem State.modThread_dies (s : State) (t : Tid) (f : Thread → Thread) : (s.modThread t f).dies = s.dies := rfl
@[simp] theorem State.modThread_slots (s : State) (t : Tid) (f : Thread → Thread) : (s.modThread t f).slots = s.slots := rfl
@[simp] theorem State.modThread_bundles (s : State) (t : Tid) (f : Thread → Thread) : (s.modThread t f).bundles = s.bundles := rfl
@[simp] theorem State.modThread_cur (s : State) (t : Tid) (f : Thread → Thread) : (s.modThread t f).cur = s.cur := rfl
@[simp] theorem State.modThread_group (s : State) (t : Tid) (f : Thread → Thread) : (s.modThread t f).group = s.group := rfl
@[simp] theorem State.modThread_pending (s : State) (t : Tid) (f : Thread → Thread) : (s.modThread t f).pending = s.pending := rfl
@[simp] theorem State.modThread_holds (s : State) (t : Tid) (f : Thread → Thread) : (s.modThread t f).holds = s.holds := rfl
@[simp] theorem State.modThread_flights (s : State) (t : Tid) (f : Thread → Thread) : (s.modThread t f).flights = s.flights := rfl
@[simp] theorem State.modThread_walks (s : State) (t : Tid) (f : Thread → Thread) : (s.modThread t f).walks = s.walks := rfl
@[simp] theorem State.modThread_homes (s : State) (t : Tid) (f : Thread → Thread) : (s.modThread t f).homes = s.homes := rfl
@[simp] theorem State.modThread_msgs (s : State) (t : Tid) (f : Thread → Thread) : (s.modThread t f).msgs = s.msgs := rfl
@[simp] theorem State.modThread_borrows (s : State) (t : Tid) (f : Thread → Thread) : (s.modThread t f).borrows = s.borrows := rfl
@[simp] theorem State.modThread_families (s : State) (t : Tid) (f : Thread → Thread) : (s.modThread t f).families = s.families := rfl
@[simp] theorem State.modThread_returns (s : State) (t : Tid) (f : Thread → Thread) : (s.modThread t f).returns = s.returns := rfl
@[simp] theorem State.modThread_ops (s : State) (t : Tid) (f : Thread → Thread) : (s.modThread t f).ops = s.ops := rfl
@[simp] theorem State.modThread_chunks (s : State) (t : Tid) (f : Thread → Thread) : (s.modThread t f).chunks = s.chunks := rfl
@[simp] theorem State.modThread_asyncs (s : State) (t : Tid) (f : Thread → Thread) : (s.modThread t f).asyncs = s.asyncs := rfl
@[simp] theorem State.modThread_pairActs (s : State) (t : Tid) (f : Thread → Thread) : (s.modThread t f).pairActs = s.pairActs := rfl
@[simp] theorem State.modThread_shadows (s : State) (t : Tid) (f : Thread → Thread) : (s.modThread t f).shadows = s.shadows := rfl
@[simp] theorem State.modThread_invals (s : State) (t : Tid) (f : Thread → Thread) : (s.modThread t f).invals = s.invals := rfl
@[simp] theorem State.modThread_peerReqs (s : State) (t : Tid) (f : Thread → Thread) : (s.modThread t f).peerReqs = s.peerReqs := rfl
@[simp] theorem State.modThread_dev (s : State) (t : Tid) (f : Thread → Thread) : (s.modThread t f).dev = s.dev := rfl
@[simp] theorem State.modThread_outbox (s : State) (t : Tid) (f : Thread → Thread) : (s.modThread t f).outbox = s.outbox := rfl
@[simp] theorem State.modThread_cmd (s : State) (t : Tid) (f : Thread → Thread) : (s.modThread t f).cmd = s.cmd := rfl
@[simp] theorem State.modThread_unreturned (s : State) (t : Tid) (f : Thread → Thread) : (s.modThread t f).unreturned = s.unreturned := rfl
@[simp] theorem State.modThread_pins (s : State) (t : Tid) (f : Thread → Thread) : (s.modThread t f).pins = s.pins := rfl
@[simp] theorem State.modThread_snaps (s : State) (t : Tid) (f : Thread → Thread) : (s.modThread t f).snaps = s.snaps := rfl
@[simp] theorem State.modThread_now (s : State) (t : Tid) (f : Thread → Thread) : (s.modThread t f).now = s.now := rfl
@[simp] theorem State.modThread_mail (s : State) (t : Tid) (f : Thread → Thread) : (s.modThread t f).mail = s.mail := rfl
@[simp] theorem State.modThread_stale (s : State) (t : Tid) (f : Thread → Thread) : (s.modThread t f).stale = s.stale := rfl

/-! ### modCtx: a context -/

@[simp] theorem State.modCtx_agenda (s : State) (a : Nat) (f : Ctx → Ctx) : (s.modCtx a f).agenda = s.agenda := rfl
@[simp] theorem State.modCtx_clock (s : State) (a : Nat) (f : Ctx → Ctx) : (s.modCtx a f).clock = s.clock := rfl
@[simp] theorem State.modCtx_fresh (s : State) (a : Nat) (f : Ctx → Ctx) : (s.modCtx a f).fresh = s.fresh := rfl
@[simp] theorem State.modCtx_mem (s : State) (a : Nat) (f : Ctx → Ctx) : (s.modCtx a f).mem = s.mem := rfl
@[simp] theorem State.modCtx_peerMem (s : State) (a : Nat) (f : Ctx → Ctx) : (s.modCtx a f).peerMem = s.peerMem := rfl
@[simp] theorem State.modCtx_poison (s : State) (a : Nat) (f : Ctx → Ctx) : (s.modCtx a f).poison = s.poison := rfl
@[simp] theorem State.modCtx_grids (s : State) (a : Nat) (f : Ctx → Ctx) : (s.modCtx a f).grids = s.grids := rfl
@[simp] theorem State.modCtx_bands (s : State) (a : Nat) (f : Ctx → Ctx) : (s.modCtx a f).bands = s.bands := rfl
@[simp] theorem State.modCtx_launches (s : State) (a : Nat) (f : Ctx → Ctx) : (s.modCtx a f).launches = s.launches := rfl
@[simp] theorem State.modCtx_children (s : State) (a : Nat) (f : Ctx → Ctx) : (s.modCtx a f).children = s.children := rfl
@[simp] theorem State.modCtx_deps (s : State) (a : Nat) (f : Ctx → Ctx) : (s.modCtx a f).deps = s.deps := rfl
@[simp] theorem State.modCtx_packets (s : State) (a : Nat) (f : Ctx → Ctx) : (s.modCtx a f).packets = s.packets := rfl
@[simp] theorem State.modCtx_rings (s : State) (a : Nat) (f : Ctx → Ctx) : (s.modCtx a f).rings = s.rings := rfl
@[simp] theorem State.modCtx_sliceSeq (s : State) (a : Nat) (f : Ctx → Ctx) : (s.modCtx a f).sliceSeq = s.sliceSeq := rfl
@[simp] theorem State.modCtx_sleepers (s : State) (a : Nat) (f : Ctx → Ctx) : (s.modCtx a f).sleepers = s.sleepers := rfl
@[simp] theorem State.modCtx_queues (s : State) (a : Nat) (f : Ctx → Ctx) : (s.modCtx a f).queues = s.queues := rfl
@[simp] theorem State.modCtx_quads (s : State) (a : Nat) (f : Ctx → Ctx) : (s.modCtx a f).quads = s.quads := rfl
@[simp] theorem State.modCtx_cores (s : State) (a : Nat) (f : Ctx → Ctx) : (s.modCtx a f).cores = s.cores := rfl
@[simp] theorem State.modCtx_dies (s : State) (a : Nat) (f : Ctx → Ctx) : (s.modCtx a f).dies = s.dies := rfl
@[simp] theorem State.modCtx_slots (s : State) (a : Nat) (f : Ctx → Ctx) : (s.modCtx a f).slots = s.slots := rfl
@[simp] theorem State.modCtx_bundles (s : State) (a : Nat) (f : Ctx → Ctx) : (s.modCtx a f).bundles = s.bundles := rfl
@[simp] theorem State.modCtx_cur (s : State) (a : Nat) (f : Ctx → Ctx) : (s.modCtx a f).cur = s.cur := rfl
@[simp] theorem State.modCtx_group (s : State) (a : Nat) (f : Ctx → Ctx) : (s.modCtx a f).group = s.group := rfl
@[simp] theorem State.modCtx_pending (s : State) (a : Nat) (f : Ctx → Ctx) : (s.modCtx a f).pending = s.pending := rfl
@[simp] theorem State.modCtx_holds (s : State) (a : Nat) (f : Ctx → Ctx) : (s.modCtx a f).holds = s.holds := rfl
@[simp] theorem State.modCtx_flights (s : State) (a : Nat) (f : Ctx → Ctx) : (s.modCtx a f).flights = s.flights := rfl
@[simp] theorem State.modCtx_walks (s : State) (a : Nat) (f : Ctx → Ctx) : (s.modCtx a f).walks = s.walks := rfl
@[simp] theorem State.modCtx_homes (s : State) (a : Nat) (f : Ctx → Ctx) : (s.modCtx a f).homes = s.homes := rfl
@[simp] theorem State.modCtx_msgs (s : State) (a : Nat) (f : Ctx → Ctx) : (s.modCtx a f).msgs = s.msgs := rfl
@[simp] theorem State.modCtx_borrows (s : State) (a : Nat) (f : Ctx → Ctx) : (s.modCtx a f).borrows = s.borrows := rfl
@[simp] theorem State.modCtx_families (s : State) (a : Nat) (f : Ctx → Ctx) : (s.modCtx a f).families = s.families := rfl
@[simp] theorem State.modCtx_returns (s : State) (a : Nat) (f : Ctx → Ctx) : (s.modCtx a f).returns = s.returns := rfl
@[simp] theorem State.modCtx_ops (s : State) (a : Nat) (f : Ctx → Ctx) : (s.modCtx a f).ops = s.ops := rfl
@[simp] theorem State.modCtx_chunks (s : State) (a : Nat) (f : Ctx → Ctx) : (s.modCtx a f).chunks = s.chunks := rfl
@[simp] theorem State.modCtx_asyncs (s : State) (a : Nat) (f : Ctx → Ctx) : (s.modCtx a f).asyncs = s.asyncs := rfl
@[simp] theorem State.modCtx_pairActs (s : State) (a : Nat) (f : Ctx → Ctx) : (s.modCtx a f).pairActs = s.pairActs := rfl
@[simp] theorem State.modCtx_shadows (s : State) (a : Nat) (f : Ctx → Ctx) : (s.modCtx a f).shadows = s.shadows := rfl
@[simp] theorem State.modCtx_invals (s : State) (a : Nat) (f : Ctx → Ctx) : (s.modCtx a f).invals = s.invals := rfl
@[simp] theorem State.modCtx_peerReqs (s : State) (a : Nat) (f : Ctx → Ctx) : (s.modCtx a f).peerReqs = s.peerReqs := rfl
@[simp] theorem State.modCtx_dev (s : State) (a : Nat) (f : Ctx → Ctx) : (s.modCtx a f).dev = s.dev := rfl
@[simp] theorem State.modCtx_outbox (s : State) (a : Nat) (f : Ctx → Ctx) : (s.modCtx a f).outbox = s.outbox := rfl
@[simp] theorem State.modCtx_cmd (s : State) (a : Nat) (f : Ctx → Ctx) : (s.modCtx a f).cmd = s.cmd := rfl
@[simp] theorem State.modCtx_unreturned (s : State) (a : Nat) (f : Ctx → Ctx) : (s.modCtx a f).unreturned = s.unreturned := rfl
@[simp] theorem State.modCtx_pins (s : State) (a : Nat) (f : Ctx → Ctx) : (s.modCtx a f).pins = s.pins := rfl
@[simp] theorem State.modCtx_snaps (s : State) (a : Nat) (f : Ctx → Ctx) : (s.modCtx a f).snaps = s.snaps := rfl
@[simp] theorem State.modCtx_now (s : State) (a : Nat) (f : Ctx → Ctx) : (s.modCtx a f).now = s.now := rfl
@[simp] theorem State.modCtx_mail (s : State) (a : Nat) (f : Ctx → Ctx) : (s.modCtx a f).mail = s.mail := rfl
@[simp] theorem State.modCtx_stale (s : State) (a : Nat) (f : Ctx → Ctx) : (s.modCtx a f).stale = s.stale := rfl

/-! ### modCore: a core -/

@[simp] theorem State.modCore_agenda (s : State) (c : Nat) (f : CoreSt → CoreSt) : (s.modCore c f).agenda = s.agenda := rfl
@[simp] theorem State.modCore_clock (s : State) (c : Nat) (f : CoreSt → CoreSt) : (s.modCore c f).clock = s.clock := rfl
@[simp] theorem State.modCore_fresh (s : State) (c : Nat) (f : CoreSt → CoreSt) : (s.modCore c f).fresh = s.fresh := rfl
@[simp] theorem State.modCore_mem (s : State) (c : Nat) (f : CoreSt → CoreSt) : (s.modCore c f).mem = s.mem := rfl
@[simp] theorem State.modCore_peerMem (s : State) (c : Nat) (f : CoreSt → CoreSt) : (s.modCore c f).peerMem = s.peerMem := rfl
@[simp] theorem State.modCore_poison (s : State) (c : Nat) (f : CoreSt → CoreSt) : (s.modCore c f).poison = s.poison := rfl
@[simp] theorem State.modCore_ctxs (s : State) (c : Nat) (f : CoreSt → CoreSt) : (s.modCore c f).ctxs = s.ctxs := rfl
@[simp] theorem State.modCore_grids (s : State) (c : Nat) (f : CoreSt → CoreSt) : (s.modCore c f).grids = s.grids := rfl
@[simp] theorem State.modCore_bands (s : State) (c : Nat) (f : CoreSt → CoreSt) : (s.modCore c f).bands = s.bands := rfl
@[simp] theorem State.modCore_launches (s : State) (c : Nat) (f : CoreSt → CoreSt) : (s.modCore c f).launches = s.launches := rfl
@[simp] theorem State.modCore_children (s : State) (c : Nat) (f : CoreSt → CoreSt) : (s.modCore c f).children = s.children := rfl
@[simp] theorem State.modCore_deps (s : State) (c : Nat) (f : CoreSt → CoreSt) : (s.modCore c f).deps = s.deps := rfl
@[simp] theorem State.modCore_packets (s : State) (c : Nat) (f : CoreSt → CoreSt) : (s.modCore c f).packets = s.packets := rfl
@[simp] theorem State.modCore_rings (s : State) (c : Nat) (f : CoreSt → CoreSt) : (s.modCore c f).rings = s.rings := rfl
@[simp] theorem State.modCore_sliceSeq (s : State) (c : Nat) (f : CoreSt → CoreSt) : (s.modCore c f).sliceSeq = s.sliceSeq := rfl
@[simp] theorem State.modCore_sleepers (s : State) (c : Nat) (f : CoreSt → CoreSt) : (s.modCore c f).sleepers = s.sleepers := rfl
@[simp] theorem State.modCore_queues (s : State) (c : Nat) (f : CoreSt → CoreSt) : (s.modCore c f).queues = s.queues := rfl
@[simp] theorem State.modCore_quads (s : State) (c : Nat) (f : CoreSt → CoreSt) : (s.modCore c f).quads = s.quads := rfl
@[simp] theorem State.modCore_dies (s : State) (c : Nat) (f : CoreSt → CoreSt) : (s.modCore c f).dies = s.dies := rfl
@[simp] theorem State.modCore_slots (s : State) (c : Nat) (f : CoreSt → CoreSt) : (s.modCore c f).slots = s.slots := rfl
@[simp] theorem State.modCore_bundles (s : State) (c : Nat) (f : CoreSt → CoreSt) : (s.modCore c f).bundles = s.bundles := rfl
@[simp] theorem State.modCore_cur (s : State) (c : Nat) (f : CoreSt → CoreSt) : (s.modCore c f).cur = s.cur := rfl
@[simp] theorem State.modCore_group (s : State) (c : Nat) (f : CoreSt → CoreSt) : (s.modCore c f).group = s.group := rfl
@[simp] theorem State.modCore_pending (s : State) (c : Nat) (f : CoreSt → CoreSt) : (s.modCore c f).pending = s.pending := rfl
@[simp] theorem State.modCore_holds (s : State) (c : Nat) (f : CoreSt → CoreSt) : (s.modCore c f).holds = s.holds := rfl
@[simp] theorem State.modCore_flights (s : State) (c : Nat) (f : CoreSt → CoreSt) : (s.modCore c f).flights = s.flights := rfl
@[simp] theorem State.modCore_walks (s : State) (c : Nat) (f : CoreSt → CoreSt) : (s.modCore c f).walks = s.walks := rfl
@[simp] theorem State.modCore_homes (s : State) (c : Nat) (f : CoreSt → CoreSt) : (s.modCore c f).homes = s.homes := rfl
@[simp] theorem State.modCore_msgs (s : State) (c : Nat) (f : CoreSt → CoreSt) : (s.modCore c f).msgs = s.msgs := rfl
@[simp] theorem State.modCore_borrows (s : State) (c : Nat) (f : CoreSt → CoreSt) : (s.modCore c f).borrows = s.borrows := rfl
@[simp] theorem State.modCore_families (s : State) (c : Nat) (f : CoreSt → CoreSt) : (s.modCore c f).families = s.families := rfl
@[simp] theorem State.modCore_returns (s : State) (c : Nat) (f : CoreSt → CoreSt) : (s.modCore c f).returns = s.returns := rfl
@[simp] theorem State.modCore_ops (s : State) (c : Nat) (f : CoreSt → CoreSt) : (s.modCore c f).ops = s.ops := rfl
@[simp] theorem State.modCore_chunks (s : State) (c : Nat) (f : CoreSt → CoreSt) : (s.modCore c f).chunks = s.chunks := rfl
@[simp] theorem State.modCore_asyncs (s : State) (c : Nat) (f : CoreSt → CoreSt) : (s.modCore c f).asyncs = s.asyncs := rfl
@[simp] theorem State.modCore_pairActs (s : State) (c : Nat) (f : CoreSt → CoreSt) : (s.modCore c f).pairActs = s.pairActs := rfl
@[simp] theorem State.modCore_shadows (s : State) (c : Nat) (f : CoreSt → CoreSt) : (s.modCore c f).shadows = s.shadows := rfl
@[simp] theorem State.modCore_invals (s : State) (c : Nat) (f : CoreSt → CoreSt) : (s.modCore c f).invals = s.invals := rfl
@[simp] theorem State.modCore_peerReqs (s : State) (c : Nat) (f : CoreSt → CoreSt) : (s.modCore c f).peerReqs = s.peerReqs := rfl
@[simp] theorem State.modCore_dev (s : State) (c : Nat) (f : CoreSt → CoreSt) : (s.modCore c f).dev = s.dev := rfl
@[simp] theorem State.modCore_outbox (s : State) (c : Nat) (f : CoreSt → CoreSt) : (s.modCore c f).outbox = s.outbox := rfl
@[simp] theorem State.modCore_cmd (s : State) (c : Nat) (f : CoreSt → CoreSt) : (s.modCore c f).cmd = s.cmd := rfl
@[simp] theorem State.modCore_unreturned (s : State) (c : Nat) (f : CoreSt → CoreSt) : (s.modCore c f).unreturned = s.unreturned := rfl
@[simp] theorem State.modCore_pins (s : State) (c : Nat) (f : CoreSt → CoreSt) : (s.modCore c f).pins = s.pins := rfl
@[simp] theorem State.modCore_snaps (s : State) (c : Nat) (f : CoreSt → CoreSt) : (s.modCore c f).snaps = s.snaps := rfl
@[simp] theorem State.modCore_now (s : State) (c : Nat) (f : CoreSt → CoreSt) : (s.modCore c f).now = s.now := rfl
@[simp] theorem State.modCore_mail (s : State) (c : Nat) (f : CoreSt → CoreSt) : (s.modCore c f).mail = s.mail := rfl
@[simp] theorem State.modCore_stale (s : State) (c : Nat) (f : CoreSt → CoreSt) : (s.modCore c f).stale = s.stale := rfl

/-! ### modDie: a C-die -/

@[simp] theorem State.modDie_agenda (s : State) (d : Nat) (f : DieSt → DieSt) : (s.modDie d f).agenda = s.agenda := rfl
@[simp] theorem State.modDie_clock (s : State) (d : Nat) (f : DieSt → DieSt) : (s.modDie d f).clock = s.clock := rfl
@[simp] theorem State.modDie_fresh (s : State) (d : Nat) (f : DieSt → DieSt) : (s.modDie d f).fresh = s.fresh := rfl
@[simp] theorem State.modDie_mem (s : State) (d : Nat) (f : DieSt → DieSt) : (s.modDie d f).mem = s.mem := rfl
@[simp] theorem State.modDie_peerMem (s : State) (d : Nat) (f : DieSt → DieSt) : (s.modDie d f).peerMem = s.peerMem := rfl
@[simp] theorem State.modDie_poison (s : State) (d : Nat) (f : DieSt → DieSt) : (s.modDie d f).poison = s.poison := rfl
@[simp] theorem State.modDie_ctxs (s : State) (d : Nat) (f : DieSt → DieSt) : (s.modDie d f).ctxs = s.ctxs := rfl
@[simp] theorem State.modDie_grids (s : State) (d : Nat) (f : DieSt → DieSt) : (s.modDie d f).grids = s.grids := rfl
@[simp] theorem State.modDie_bands (s : State) (d : Nat) (f : DieSt → DieSt) : (s.modDie d f).bands = s.bands := rfl
@[simp] theorem State.modDie_launches (s : State) (d : Nat) (f : DieSt → DieSt) : (s.modDie d f).launches = s.launches := rfl
@[simp] theorem State.modDie_children (s : State) (d : Nat) (f : DieSt → DieSt) : (s.modDie d f).children = s.children := rfl
@[simp] theorem State.modDie_deps (s : State) (d : Nat) (f : DieSt → DieSt) : (s.modDie d f).deps = s.deps := rfl
@[simp] theorem State.modDie_packets (s : State) (d : Nat) (f : DieSt → DieSt) : (s.modDie d f).packets = s.packets := rfl
@[simp] theorem State.modDie_rings (s : State) (d : Nat) (f : DieSt → DieSt) : (s.modDie d f).rings = s.rings := rfl
@[simp] theorem State.modDie_sliceSeq (s : State) (d : Nat) (f : DieSt → DieSt) : (s.modDie d f).sliceSeq = s.sliceSeq := rfl
@[simp] theorem State.modDie_sleepers (s : State) (d : Nat) (f : DieSt → DieSt) : (s.modDie d f).sleepers = s.sleepers := rfl
@[simp] theorem State.modDie_queues (s : State) (d : Nat) (f : DieSt → DieSt) : (s.modDie d f).queues = s.queues := rfl
@[simp] theorem State.modDie_quads (s : State) (d : Nat) (f : DieSt → DieSt) : (s.modDie d f).quads = s.quads := rfl
@[simp] theorem State.modDie_cores (s : State) (d : Nat) (f : DieSt → DieSt) : (s.modDie d f).cores = s.cores := rfl
@[simp] theorem State.modDie_slots (s : State) (d : Nat) (f : DieSt → DieSt) : (s.modDie d f).slots = s.slots := rfl
@[simp] theorem State.modDie_bundles (s : State) (d : Nat) (f : DieSt → DieSt) : (s.modDie d f).bundles = s.bundles := rfl
@[simp] theorem State.modDie_cur (s : State) (d : Nat) (f : DieSt → DieSt) : (s.modDie d f).cur = s.cur := rfl
@[simp] theorem State.modDie_group (s : State) (d : Nat) (f : DieSt → DieSt) : (s.modDie d f).group = s.group := rfl
@[simp] theorem State.modDie_pending (s : State) (d : Nat) (f : DieSt → DieSt) : (s.modDie d f).pending = s.pending := rfl
@[simp] theorem State.modDie_holds (s : State) (d : Nat) (f : DieSt → DieSt) : (s.modDie d f).holds = s.holds := rfl
@[simp] theorem State.modDie_flights (s : State) (d : Nat) (f : DieSt → DieSt) : (s.modDie d f).flights = s.flights := rfl
@[simp] theorem State.modDie_walks (s : State) (d : Nat) (f : DieSt → DieSt) : (s.modDie d f).walks = s.walks := rfl
@[simp] theorem State.modDie_homes (s : State) (d : Nat) (f : DieSt → DieSt) : (s.modDie d f).homes = s.homes := rfl
@[simp] theorem State.modDie_msgs (s : State) (d : Nat) (f : DieSt → DieSt) : (s.modDie d f).msgs = s.msgs := rfl
@[simp] theorem State.modDie_borrows (s : State) (d : Nat) (f : DieSt → DieSt) : (s.modDie d f).borrows = s.borrows := rfl
@[simp] theorem State.modDie_families (s : State) (d : Nat) (f : DieSt → DieSt) : (s.modDie d f).families = s.families := rfl
@[simp] theorem State.modDie_returns (s : State) (d : Nat) (f : DieSt → DieSt) : (s.modDie d f).returns = s.returns := rfl
@[simp] theorem State.modDie_ops (s : State) (d : Nat) (f : DieSt → DieSt) : (s.modDie d f).ops = s.ops := rfl
@[simp] theorem State.modDie_chunks (s : State) (d : Nat) (f : DieSt → DieSt) : (s.modDie d f).chunks = s.chunks := rfl
@[simp] theorem State.modDie_asyncs (s : State) (d : Nat) (f : DieSt → DieSt) : (s.modDie d f).asyncs = s.asyncs := rfl
@[simp] theorem State.modDie_pairActs (s : State) (d : Nat) (f : DieSt → DieSt) : (s.modDie d f).pairActs = s.pairActs := rfl
@[simp] theorem State.modDie_shadows (s : State) (d : Nat) (f : DieSt → DieSt) : (s.modDie d f).shadows = s.shadows := rfl
@[simp] theorem State.modDie_invals (s : State) (d : Nat) (f : DieSt → DieSt) : (s.modDie d f).invals = s.invals := rfl
@[simp] theorem State.modDie_peerReqs (s : State) (d : Nat) (f : DieSt → DieSt) : (s.modDie d f).peerReqs = s.peerReqs := rfl
@[simp] theorem State.modDie_dev (s : State) (d : Nat) (f : DieSt → DieSt) : (s.modDie d f).dev = s.dev := rfl
@[simp] theorem State.modDie_outbox (s : State) (d : Nat) (f : DieSt → DieSt) : (s.modDie d f).outbox = s.outbox := rfl
@[simp] theorem State.modDie_cmd (s : State) (d : Nat) (f : DieSt → DieSt) : (s.modDie d f).cmd = s.cmd := rfl
@[simp] theorem State.modDie_unreturned (s : State) (d : Nat) (f : DieSt → DieSt) : (s.modDie d f).unreturned = s.unreturned := rfl
@[simp] theorem State.modDie_pins (s : State) (d : Nat) (f : DieSt → DieSt) : (s.modDie d f).pins = s.pins := rfl
@[simp] theorem State.modDie_snaps (s : State) (d : Nat) (f : DieSt → DieSt) : (s.modDie d f).snaps = s.snaps := rfl
@[simp] theorem State.modDie_now (s : State) (d : Nat) (f : DieSt → DieSt) : (s.modDie d f).now = s.now := rfl
@[simp] theorem State.modDie_mail (s : State) (d : Nat) (f : DieSt → DieSt) : (s.modDie d f).mail = s.mail := rfl
@[simp] theorem State.modDie_stale (s : State) (d : Nat) (f : DieSt → DieSt) : (s.modDie d f).stale = s.stale := rfl

/-! ### modHome: a deed home -/

@[simp] theorem State.modHome_agenda (s : State) (h : Nat) (f : HomeSt → HomeSt) : (s.modHome h f).agenda = s.agenda := rfl
@[simp] theorem State.modHome_clock (s : State) (h : Nat) (f : HomeSt → HomeSt) : (s.modHome h f).clock = s.clock := rfl
@[simp] theorem State.modHome_fresh (s : State) (h : Nat) (f : HomeSt → HomeSt) : (s.modHome h f).fresh = s.fresh := rfl
@[simp] theorem State.modHome_mem (s : State) (h : Nat) (f : HomeSt → HomeSt) : (s.modHome h f).mem = s.mem := rfl
@[simp] theorem State.modHome_peerMem (s : State) (h : Nat) (f : HomeSt → HomeSt) : (s.modHome h f).peerMem = s.peerMem := rfl
@[simp] theorem State.modHome_poison (s : State) (h : Nat) (f : HomeSt → HomeSt) : (s.modHome h f).poison = s.poison := rfl
@[simp] theorem State.modHome_ctxs (s : State) (h : Nat) (f : HomeSt → HomeSt) : (s.modHome h f).ctxs = s.ctxs := rfl
@[simp] theorem State.modHome_grids (s : State) (h : Nat) (f : HomeSt → HomeSt) : (s.modHome h f).grids = s.grids := rfl
@[simp] theorem State.modHome_bands (s : State) (h : Nat) (f : HomeSt → HomeSt) : (s.modHome h f).bands = s.bands := rfl
@[simp] theorem State.modHome_launches (s : State) (h : Nat) (f : HomeSt → HomeSt) : (s.modHome h f).launches = s.launches := rfl
@[simp] theorem State.modHome_children (s : State) (h : Nat) (f : HomeSt → HomeSt) : (s.modHome h f).children = s.children := rfl
@[simp] theorem State.modHome_deps (s : State) (h : Nat) (f : HomeSt → HomeSt) : (s.modHome h f).deps = s.deps := rfl
@[simp] theorem State.modHome_packets (s : State) (h : Nat) (f : HomeSt → HomeSt) : (s.modHome h f).packets = s.packets := rfl
@[simp] theorem State.modHome_rings (s : State) (h : Nat) (f : HomeSt → HomeSt) : (s.modHome h f).rings = s.rings := rfl
@[simp] theorem State.modHome_sliceSeq (s : State) (h : Nat) (f : HomeSt → HomeSt) : (s.modHome h f).sliceSeq = s.sliceSeq := rfl
@[simp] theorem State.modHome_sleepers (s : State) (h : Nat) (f : HomeSt → HomeSt) : (s.modHome h f).sleepers = s.sleepers := rfl
@[simp] theorem State.modHome_queues (s : State) (h : Nat) (f : HomeSt → HomeSt) : (s.modHome h f).queues = s.queues := rfl
@[simp] theorem State.modHome_quads (s : State) (h : Nat) (f : HomeSt → HomeSt) : (s.modHome h f).quads = s.quads := rfl
@[simp] theorem State.modHome_cores (s : State) (h : Nat) (f : HomeSt → HomeSt) : (s.modHome h f).cores = s.cores := rfl
@[simp] theorem State.modHome_dies (s : State) (h : Nat) (f : HomeSt → HomeSt) : (s.modHome h f).dies = s.dies := rfl
@[simp] theorem State.modHome_slots (s : State) (h : Nat) (f : HomeSt → HomeSt) : (s.modHome h f).slots = s.slots := rfl
@[simp] theorem State.modHome_bundles (s : State) (h : Nat) (f : HomeSt → HomeSt) : (s.modHome h f).bundles = s.bundles := rfl
@[simp] theorem State.modHome_cur (s : State) (h : Nat) (f : HomeSt → HomeSt) : (s.modHome h f).cur = s.cur := rfl
@[simp] theorem State.modHome_group (s : State) (h : Nat) (f : HomeSt → HomeSt) : (s.modHome h f).group = s.group := rfl
@[simp] theorem State.modHome_pending (s : State) (h : Nat) (f : HomeSt → HomeSt) : (s.modHome h f).pending = s.pending := rfl
@[simp] theorem State.modHome_holds (s : State) (h : Nat) (f : HomeSt → HomeSt) : (s.modHome h f).holds = s.holds := rfl
@[simp] theorem State.modHome_flights (s : State) (h : Nat) (f : HomeSt → HomeSt) : (s.modHome h f).flights = s.flights := rfl
@[simp] theorem State.modHome_walks (s : State) (h : Nat) (f : HomeSt → HomeSt) : (s.modHome h f).walks = s.walks := rfl
@[simp] theorem State.modHome_msgs (s : State) (h : Nat) (f : HomeSt → HomeSt) : (s.modHome h f).msgs = s.msgs := rfl
@[simp] theorem State.modHome_borrows (s : State) (h : Nat) (f : HomeSt → HomeSt) : (s.modHome h f).borrows = s.borrows := rfl
@[simp] theorem State.modHome_families (s : State) (h : Nat) (f : HomeSt → HomeSt) : (s.modHome h f).families = s.families := rfl
@[simp] theorem State.modHome_returns (s : State) (h : Nat) (f : HomeSt → HomeSt) : (s.modHome h f).returns = s.returns := rfl
@[simp] theorem State.modHome_ops (s : State) (h : Nat) (f : HomeSt → HomeSt) : (s.modHome h f).ops = s.ops := rfl
@[simp] theorem State.modHome_chunks (s : State) (h : Nat) (f : HomeSt → HomeSt) : (s.modHome h f).chunks = s.chunks := rfl
@[simp] theorem State.modHome_asyncs (s : State) (h : Nat) (f : HomeSt → HomeSt) : (s.modHome h f).asyncs = s.asyncs := rfl
@[simp] theorem State.modHome_pairActs (s : State) (h : Nat) (f : HomeSt → HomeSt) : (s.modHome h f).pairActs = s.pairActs := rfl
@[simp] theorem State.modHome_shadows (s : State) (h : Nat) (f : HomeSt → HomeSt) : (s.modHome h f).shadows = s.shadows := rfl
@[simp] theorem State.modHome_invals (s : State) (h : Nat) (f : HomeSt → HomeSt) : (s.modHome h f).invals = s.invals := rfl
@[simp] theorem State.modHome_peerReqs (s : State) (h : Nat) (f : HomeSt → HomeSt) : (s.modHome h f).peerReqs = s.peerReqs := rfl
@[simp] theorem State.modHome_dev (s : State) (h : Nat) (f : HomeSt → HomeSt) : (s.modHome h f).dev = s.dev := rfl
@[simp] theorem State.modHome_outbox (s : State) (h : Nat) (f : HomeSt → HomeSt) : (s.modHome h f).outbox = s.outbox := rfl
@[simp] theorem State.modHome_cmd (s : State) (h : Nat) (f : HomeSt → HomeSt) : (s.modHome h f).cmd = s.cmd := rfl
@[simp] theorem State.modHome_unreturned (s : State) (h : Nat) (f : HomeSt → HomeSt) : (s.modHome h f).unreturned = s.unreturned := rfl
@[simp] theorem State.modHome_pins (s : State) (h : Nat) (f : HomeSt → HomeSt) : (s.modHome h f).pins = s.pins := rfl
@[simp] theorem State.modHome_snaps (s : State) (h : Nat) (f : HomeSt → HomeSt) : (s.modHome h f).snaps = s.snaps := rfl
@[simp] theorem State.modHome_now (s : State) (h : Nat) (f : HomeSt → HomeSt) : (s.modHome h f).now = s.now := rfl
@[simp] theorem State.modHome_mail (s : State) (h : Nat) (f : HomeSt → HomeSt) : (s.modHome h f).mail = s.mail := rfl
@[simp] theorem State.modHome_stale (s : State) (h : Nat) (f : HomeSt → HomeSt) : (s.modHome h f).stale = s.stale := rfl

/-! ### modGrid: a grid -/

@[simp] theorem State.modGrid_agenda (s : State) (g : Nat) (f : Grid → Grid) : (s.modGrid g f).agenda = s.agenda := rfl
@[simp] theorem State.modGrid_clock (s : State) (g : Nat) (f : Grid → Grid) : (s.modGrid g f).clock = s.clock := rfl
@[simp] theorem State.modGrid_fresh (s : State) (g : Nat) (f : Grid → Grid) : (s.modGrid g f).fresh = s.fresh := rfl
@[simp] theorem State.modGrid_mem (s : State) (g : Nat) (f : Grid → Grid) : (s.modGrid g f).mem = s.mem := rfl
@[simp] theorem State.modGrid_peerMem (s : State) (g : Nat) (f : Grid → Grid) : (s.modGrid g f).peerMem = s.peerMem := rfl
@[simp] theorem State.modGrid_poison (s : State) (g : Nat) (f : Grid → Grid) : (s.modGrid g f).poison = s.poison := rfl
@[simp] theorem State.modGrid_ctxs (s : State) (g : Nat) (f : Grid → Grid) : (s.modGrid g f).ctxs = s.ctxs := rfl
@[simp] theorem State.modGrid_bands (s : State) (g : Nat) (f : Grid → Grid) : (s.modGrid g f).bands = s.bands := rfl
@[simp] theorem State.modGrid_launches (s : State) (g : Nat) (f : Grid → Grid) : (s.modGrid g f).launches = s.launches := rfl
@[simp] theorem State.modGrid_children (s : State) (g : Nat) (f : Grid → Grid) : (s.modGrid g f).children = s.children := rfl
@[simp] theorem State.modGrid_deps (s : State) (g : Nat) (f : Grid → Grid) : (s.modGrid g f).deps = s.deps := rfl
@[simp] theorem State.modGrid_packets (s : State) (g : Nat) (f : Grid → Grid) : (s.modGrid g f).packets = s.packets := rfl
@[simp] theorem State.modGrid_rings (s : State) (g : Nat) (f : Grid → Grid) : (s.modGrid g f).rings = s.rings := rfl
@[simp] theorem State.modGrid_sliceSeq (s : State) (g : Nat) (f : Grid → Grid) : (s.modGrid g f).sliceSeq = s.sliceSeq := rfl
@[simp] theorem State.modGrid_sleepers (s : State) (g : Nat) (f : Grid → Grid) : (s.modGrid g f).sleepers = s.sleepers := rfl
@[simp] theorem State.modGrid_queues (s : State) (g : Nat) (f : Grid → Grid) : (s.modGrid g f).queues = s.queues := rfl
@[simp] theorem State.modGrid_quads (s : State) (g : Nat) (f : Grid → Grid) : (s.modGrid g f).quads = s.quads := rfl
@[simp] theorem State.modGrid_cores (s : State) (g : Nat) (f : Grid → Grid) : (s.modGrid g f).cores = s.cores := rfl
@[simp] theorem State.modGrid_dies (s : State) (g : Nat) (f : Grid → Grid) : (s.modGrid g f).dies = s.dies := rfl
@[simp] theorem State.modGrid_slots (s : State) (g : Nat) (f : Grid → Grid) : (s.modGrid g f).slots = s.slots := rfl
@[simp] theorem State.modGrid_bundles (s : State) (g : Nat) (f : Grid → Grid) : (s.modGrid g f).bundles = s.bundles := rfl
@[simp] theorem State.modGrid_cur (s : State) (g : Nat) (f : Grid → Grid) : (s.modGrid g f).cur = s.cur := rfl
@[simp] theorem State.modGrid_group (s : State) (g : Nat) (f : Grid → Grid) : (s.modGrid g f).group = s.group := rfl
@[simp] theorem State.modGrid_pending (s : State) (g : Nat) (f : Grid → Grid) : (s.modGrid g f).pending = s.pending := rfl
@[simp] theorem State.modGrid_holds (s : State) (g : Nat) (f : Grid → Grid) : (s.modGrid g f).holds = s.holds := rfl
@[simp] theorem State.modGrid_flights (s : State) (g : Nat) (f : Grid → Grid) : (s.modGrid g f).flights = s.flights := rfl
@[simp] theorem State.modGrid_walks (s : State) (g : Nat) (f : Grid → Grid) : (s.modGrid g f).walks = s.walks := rfl
@[simp] theorem State.modGrid_homes (s : State) (g : Nat) (f : Grid → Grid) : (s.modGrid g f).homes = s.homes := rfl
@[simp] theorem State.modGrid_msgs (s : State) (g : Nat) (f : Grid → Grid) : (s.modGrid g f).msgs = s.msgs := rfl
@[simp] theorem State.modGrid_borrows (s : State) (g : Nat) (f : Grid → Grid) : (s.modGrid g f).borrows = s.borrows := rfl
@[simp] theorem State.modGrid_families (s : State) (g : Nat) (f : Grid → Grid) : (s.modGrid g f).families = s.families := rfl
@[simp] theorem State.modGrid_returns (s : State) (g : Nat) (f : Grid → Grid) : (s.modGrid g f).returns = s.returns := rfl
@[simp] theorem State.modGrid_ops (s : State) (g : Nat) (f : Grid → Grid) : (s.modGrid g f).ops = s.ops := rfl
@[simp] theorem State.modGrid_chunks (s : State) (g : Nat) (f : Grid → Grid) : (s.modGrid g f).chunks = s.chunks := rfl
@[simp] theorem State.modGrid_asyncs (s : State) (g : Nat) (f : Grid → Grid) : (s.modGrid g f).asyncs = s.asyncs := rfl
@[simp] theorem State.modGrid_pairActs (s : State) (g : Nat) (f : Grid → Grid) : (s.modGrid g f).pairActs = s.pairActs := rfl
@[simp] theorem State.modGrid_shadows (s : State) (g : Nat) (f : Grid → Grid) : (s.modGrid g f).shadows = s.shadows := rfl
@[simp] theorem State.modGrid_invals (s : State) (g : Nat) (f : Grid → Grid) : (s.modGrid g f).invals = s.invals := rfl
@[simp] theorem State.modGrid_peerReqs (s : State) (g : Nat) (f : Grid → Grid) : (s.modGrid g f).peerReqs = s.peerReqs := rfl
@[simp] theorem State.modGrid_dev (s : State) (g : Nat) (f : Grid → Grid) : (s.modGrid g f).dev = s.dev := rfl
@[simp] theorem State.modGrid_outbox (s : State) (g : Nat) (f : Grid → Grid) : (s.modGrid g f).outbox = s.outbox := rfl
@[simp] theorem State.modGrid_cmd (s : State) (g : Nat) (f : Grid → Grid) : (s.modGrid g f).cmd = s.cmd := rfl
@[simp] theorem State.modGrid_unreturned (s : State) (g : Nat) (f : Grid → Grid) : (s.modGrid g f).unreturned = s.unreturned := rfl
@[simp] theorem State.modGrid_pins (s : State) (g : Nat) (f : Grid → Grid) : (s.modGrid g f).pins = s.pins := rfl
@[simp] theorem State.modGrid_snaps (s : State) (g : Nat) (f : Grid → Grid) : (s.modGrid g f).snaps = s.snaps := rfl
@[simp] theorem State.modGrid_now (s : State) (g : Nat) (f : Grid → Grid) : (s.modGrid g f).now = s.now := rfl
@[simp] theorem State.modGrid_mail (s : State) (g : Nat) (f : Grid → Grid) : (s.modGrid g f).mail = s.mail := rfl
@[simp] theorem State.modGrid_stale (s : State) (g : Nat) (f : Grid → Grid) : (s.modGrid g f).stale = s.stale := rfl

/-! ### modOp: an engine operation -/

@[simp] theorem State.modOp_agenda (s : State) (o : Nat) (f : EngOp → EngOp) : (s.modOp o f).agenda = s.agenda := rfl
@[simp] theorem State.modOp_clock (s : State) (o : Nat) (f : EngOp → EngOp) : (s.modOp o f).clock = s.clock := rfl
@[simp] theorem State.modOp_fresh (s : State) (o : Nat) (f : EngOp → EngOp) : (s.modOp o f).fresh = s.fresh := rfl
@[simp] theorem State.modOp_mem (s : State) (o : Nat) (f : EngOp → EngOp) : (s.modOp o f).mem = s.mem := rfl
@[simp] theorem State.modOp_peerMem (s : State) (o : Nat) (f : EngOp → EngOp) : (s.modOp o f).peerMem = s.peerMem := rfl
@[simp] theorem State.modOp_poison (s : State) (o : Nat) (f : EngOp → EngOp) : (s.modOp o f).poison = s.poison := rfl
@[simp] theorem State.modOp_ctxs (s : State) (o : Nat) (f : EngOp → EngOp) : (s.modOp o f).ctxs = s.ctxs := rfl
@[simp] theorem State.modOp_grids (s : State) (o : Nat) (f : EngOp → EngOp) : (s.modOp o f).grids = s.grids := rfl
@[simp] theorem State.modOp_bands (s : State) (o : Nat) (f : EngOp → EngOp) : (s.modOp o f).bands = s.bands := rfl
@[simp] theorem State.modOp_launches (s : State) (o : Nat) (f : EngOp → EngOp) : (s.modOp o f).launches = s.launches := rfl
@[simp] theorem State.modOp_children (s : State) (o : Nat) (f : EngOp → EngOp) : (s.modOp o f).children = s.children := rfl
@[simp] theorem State.modOp_deps (s : State) (o : Nat) (f : EngOp → EngOp) : (s.modOp o f).deps = s.deps := rfl
@[simp] theorem State.modOp_packets (s : State) (o : Nat) (f : EngOp → EngOp) : (s.modOp o f).packets = s.packets := rfl
@[simp] theorem State.modOp_rings (s : State) (o : Nat) (f : EngOp → EngOp) : (s.modOp o f).rings = s.rings := rfl
@[simp] theorem State.modOp_sliceSeq (s : State) (o : Nat) (f : EngOp → EngOp) : (s.modOp o f).sliceSeq = s.sliceSeq := rfl
@[simp] theorem State.modOp_sleepers (s : State) (o : Nat) (f : EngOp → EngOp) : (s.modOp o f).sleepers = s.sleepers := rfl
@[simp] theorem State.modOp_queues (s : State) (o : Nat) (f : EngOp → EngOp) : (s.modOp o f).queues = s.queues := rfl
@[simp] theorem State.modOp_quads (s : State) (o : Nat) (f : EngOp → EngOp) : (s.modOp o f).quads = s.quads := rfl
@[simp] theorem State.modOp_cores (s : State) (o : Nat) (f : EngOp → EngOp) : (s.modOp o f).cores = s.cores := rfl
@[simp] theorem State.modOp_dies (s : State) (o : Nat) (f : EngOp → EngOp) : (s.modOp o f).dies = s.dies := rfl
@[simp] theorem State.modOp_slots (s : State) (o : Nat) (f : EngOp → EngOp) : (s.modOp o f).slots = s.slots := rfl
@[simp] theorem State.modOp_bundles (s : State) (o : Nat) (f : EngOp → EngOp) : (s.modOp o f).bundles = s.bundles := rfl
@[simp] theorem State.modOp_cur (s : State) (o : Nat) (f : EngOp → EngOp) : (s.modOp o f).cur = s.cur := rfl
@[simp] theorem State.modOp_group (s : State) (o : Nat) (f : EngOp → EngOp) : (s.modOp o f).group = s.group := rfl
@[simp] theorem State.modOp_pending (s : State) (o : Nat) (f : EngOp → EngOp) : (s.modOp o f).pending = s.pending := rfl
@[simp] theorem State.modOp_holds (s : State) (o : Nat) (f : EngOp → EngOp) : (s.modOp o f).holds = s.holds := rfl
@[simp] theorem State.modOp_flights (s : State) (o : Nat) (f : EngOp → EngOp) : (s.modOp o f).flights = s.flights := rfl
@[simp] theorem State.modOp_walks (s : State) (o : Nat) (f : EngOp → EngOp) : (s.modOp o f).walks = s.walks := rfl
@[simp] theorem State.modOp_homes (s : State) (o : Nat) (f : EngOp → EngOp) : (s.modOp o f).homes = s.homes := rfl
@[simp] theorem State.modOp_msgs (s : State) (o : Nat) (f : EngOp → EngOp) : (s.modOp o f).msgs = s.msgs := rfl
@[simp] theorem State.modOp_borrows (s : State) (o : Nat) (f : EngOp → EngOp) : (s.modOp o f).borrows = s.borrows := rfl
@[simp] theorem State.modOp_families (s : State) (o : Nat) (f : EngOp → EngOp) : (s.modOp o f).families = s.families := rfl
@[simp] theorem State.modOp_returns (s : State) (o : Nat) (f : EngOp → EngOp) : (s.modOp o f).returns = s.returns := rfl
@[simp] theorem State.modOp_chunks (s : State) (o : Nat) (f : EngOp → EngOp) : (s.modOp o f).chunks = s.chunks := rfl
@[simp] theorem State.modOp_asyncs (s : State) (o : Nat) (f : EngOp → EngOp) : (s.modOp o f).asyncs = s.asyncs := rfl
@[simp] theorem State.modOp_pairActs (s : State) (o : Nat) (f : EngOp → EngOp) : (s.modOp o f).pairActs = s.pairActs := rfl
@[simp] theorem State.modOp_shadows (s : State) (o : Nat) (f : EngOp → EngOp) : (s.modOp o f).shadows = s.shadows := rfl
@[simp] theorem State.modOp_invals (s : State) (o : Nat) (f : EngOp → EngOp) : (s.modOp o f).invals = s.invals := rfl
@[simp] theorem State.modOp_peerReqs (s : State) (o : Nat) (f : EngOp → EngOp) : (s.modOp o f).peerReqs = s.peerReqs := rfl
@[simp] theorem State.modOp_dev (s : State) (o : Nat) (f : EngOp → EngOp) : (s.modOp o f).dev = s.dev := rfl
@[simp] theorem State.modOp_outbox (s : State) (o : Nat) (f : EngOp → EngOp) : (s.modOp o f).outbox = s.outbox := rfl
@[simp] theorem State.modOp_cmd (s : State) (o : Nat) (f : EngOp → EngOp) : (s.modOp o f).cmd = s.cmd := rfl
@[simp] theorem State.modOp_unreturned (s : State) (o : Nat) (f : EngOp → EngOp) : (s.modOp o f).unreturned = s.unreturned := rfl
@[simp] theorem State.modOp_pins (s : State) (o : Nat) (f : EngOp → EngOp) : (s.modOp o f).pins = s.pins := rfl
@[simp] theorem State.modOp_snaps (s : State) (o : Nat) (f : EngOp → EngOp) : (s.modOp o f).snaps = s.snaps := rfl
@[simp] theorem State.modOp_now (s : State) (o : Nat) (f : EngOp → EngOp) : (s.modOp o f).now = s.now := rfl
@[simp] theorem State.modOp_mail (s : State) (o : Nat) (f : EngOp → EngOp) : (s.modOp o f).mail = s.mail := rfl
@[simp] theorem State.modOp_stale (s : State) (o : Nat) (f : EngOp → EngOp) : (s.modOp o f).stale = s.stale := rfl

/-! ### modQueue: a launch queue -/

@[simp] theorem State.modQueue_agenda (s : State) (q : Nat) (f : Queue → Queue) : (s.modQueue q f).agenda = s.agenda := rfl
@[simp] theorem State.modQueue_clock (s : State) (q : Nat) (f : Queue → Queue) : (s.modQueue q f).clock = s.clock := rfl
@[simp] theorem State.modQueue_fresh (s : State) (q : Nat) (f : Queue → Queue) : (s.modQueue q f).fresh = s.fresh := rfl
@[simp] theorem State.modQueue_mem (s : State) (q : Nat) (f : Queue → Queue) : (s.modQueue q f).mem = s.mem := rfl
@[simp] theorem State.modQueue_peerMem (s : State) (q : Nat) (f : Queue → Queue) : (s.modQueue q f).peerMem = s.peerMem := rfl
@[simp] theorem State.modQueue_poison (s : State) (q : Nat) (f : Queue → Queue) : (s.modQueue q f).poison = s.poison := rfl
@[simp] theorem State.modQueue_ctxs (s : State) (q : Nat) (f : Queue → Queue) : (s.modQueue q f).ctxs = s.ctxs := rfl
@[simp] theorem State.modQueue_grids (s : State) (q : Nat) (f : Queue → Queue) : (s.modQueue q f).grids = s.grids := rfl
@[simp] theorem State.modQueue_bands (s : State) (q : Nat) (f : Queue → Queue) : (s.modQueue q f).bands = s.bands := rfl
@[simp] theorem State.modQueue_launches (s : State) (q : Nat) (f : Queue → Queue) : (s.modQueue q f).launches = s.launches := rfl
@[simp] theorem State.modQueue_children (s : State) (q : Nat) (f : Queue → Queue) : (s.modQueue q f).children = s.children := rfl
@[simp] theorem State.modQueue_deps (s : State) (q : Nat) (f : Queue → Queue) : (s.modQueue q f).deps = s.deps := rfl
@[simp] theorem State.modQueue_packets (s : State) (q : Nat) (f : Queue → Queue) : (s.modQueue q f).packets = s.packets := rfl
@[simp] theorem State.modQueue_rings (s : State) (q : Nat) (f : Queue → Queue) : (s.modQueue q f).rings = s.rings := rfl
@[simp] theorem State.modQueue_sliceSeq (s : State) (q : Nat) (f : Queue → Queue) : (s.modQueue q f).sliceSeq = s.sliceSeq := rfl
@[simp] theorem State.modQueue_sleepers (s : State) (q : Nat) (f : Queue → Queue) : (s.modQueue q f).sleepers = s.sleepers := rfl
@[simp] theorem State.modQueue_quads (s : State) (q : Nat) (f : Queue → Queue) : (s.modQueue q f).quads = s.quads := rfl
@[simp] theorem State.modQueue_cores (s : State) (q : Nat) (f : Queue → Queue) : (s.modQueue q f).cores = s.cores := rfl
@[simp] theorem State.modQueue_dies (s : State) (q : Nat) (f : Queue → Queue) : (s.modQueue q f).dies = s.dies := rfl
@[simp] theorem State.modQueue_slots (s : State) (q : Nat) (f : Queue → Queue) : (s.modQueue q f).slots = s.slots := rfl
@[simp] theorem State.modQueue_bundles (s : State) (q : Nat) (f : Queue → Queue) : (s.modQueue q f).bundles = s.bundles := rfl
@[simp] theorem State.modQueue_cur (s : State) (q : Nat) (f : Queue → Queue) : (s.modQueue q f).cur = s.cur := rfl
@[simp] theorem State.modQueue_group (s : State) (q : Nat) (f : Queue → Queue) : (s.modQueue q f).group = s.group := rfl
@[simp] theorem State.modQueue_pending (s : State) (q : Nat) (f : Queue → Queue) : (s.modQueue q f).pending = s.pending := rfl
@[simp] theorem State.modQueue_holds (s : State) (q : Nat) (f : Queue → Queue) : (s.modQueue q f).holds = s.holds := rfl
@[simp] theorem State.modQueue_flights (s : State) (q : Nat) (f : Queue → Queue) : (s.modQueue q f).flights = s.flights := rfl
@[simp] theorem State.modQueue_walks (s : State) (q : Nat) (f : Queue → Queue) : (s.modQueue q f).walks = s.walks := rfl
@[simp] theorem State.modQueue_homes (s : State) (q : Nat) (f : Queue → Queue) : (s.modQueue q f).homes = s.homes := rfl
@[simp] theorem State.modQueue_msgs (s : State) (q : Nat) (f : Queue → Queue) : (s.modQueue q f).msgs = s.msgs := rfl
@[simp] theorem State.modQueue_borrows (s : State) (q : Nat) (f : Queue → Queue) : (s.modQueue q f).borrows = s.borrows := rfl
@[simp] theorem State.modQueue_families (s : State) (q : Nat) (f : Queue → Queue) : (s.modQueue q f).families = s.families := rfl
@[simp] theorem State.modQueue_returns (s : State) (q : Nat) (f : Queue → Queue) : (s.modQueue q f).returns = s.returns := rfl
@[simp] theorem State.modQueue_ops (s : State) (q : Nat) (f : Queue → Queue) : (s.modQueue q f).ops = s.ops := rfl
@[simp] theorem State.modQueue_chunks (s : State) (q : Nat) (f : Queue → Queue) : (s.modQueue q f).chunks = s.chunks := rfl
@[simp] theorem State.modQueue_asyncs (s : State) (q : Nat) (f : Queue → Queue) : (s.modQueue q f).asyncs = s.asyncs := rfl
@[simp] theorem State.modQueue_pairActs (s : State) (q : Nat) (f : Queue → Queue) : (s.modQueue q f).pairActs = s.pairActs := rfl
@[simp] theorem State.modQueue_shadows (s : State) (q : Nat) (f : Queue → Queue) : (s.modQueue q f).shadows = s.shadows := rfl
@[simp] theorem State.modQueue_invals (s : State) (q : Nat) (f : Queue → Queue) : (s.modQueue q f).invals = s.invals := rfl
@[simp] theorem State.modQueue_peerReqs (s : State) (q : Nat) (f : Queue → Queue) : (s.modQueue q f).peerReqs = s.peerReqs := rfl
@[simp] theorem State.modQueue_dev (s : State) (q : Nat) (f : Queue → Queue) : (s.modQueue q f).dev = s.dev := rfl
@[simp] theorem State.modQueue_outbox (s : State) (q : Nat) (f : Queue → Queue) : (s.modQueue q f).outbox = s.outbox := rfl
@[simp] theorem State.modQueue_cmd (s : State) (q : Nat) (f : Queue → Queue) : (s.modQueue q f).cmd = s.cmd := rfl
@[simp] theorem State.modQueue_unreturned (s : State) (q : Nat) (f : Queue → Queue) : (s.modQueue q f).unreturned = s.unreturned := rfl
@[simp] theorem State.modQueue_pins (s : State) (q : Nat) (f : Queue → Queue) : (s.modQueue q f).pins = s.pins := rfl
@[simp] theorem State.modQueue_snaps (s : State) (q : Nat) (f : Queue → Queue) : (s.modQueue q f).snaps = s.snaps := rfl
@[simp] theorem State.modQueue_now (s : State) (q : Nat) (f : Queue → Queue) : (s.modQueue q f).now = s.now := rfl
@[simp] theorem State.modQueue_mail (s : State) (q : Nat) (f : Queue → Queue) : (s.modQueue q f).mail = s.mail := rfl
@[simp] theorem State.modQueue_stale (s : State) (q : Nat) (f : Queue → Queue) : (s.modQueue q f).stale = s.stale := rfl

/-! ### modSlot: a trap slot -/

@[simp] theorem State.modSlot_agenda (s : State) (c i : Nat) (f : TrapSlot → TrapSlot) : (s.modSlot c i f).agenda = s.agenda := rfl
@[simp] theorem State.modSlot_clock (s : State) (c i : Nat) (f : TrapSlot → TrapSlot) : (s.modSlot c i f).clock = s.clock := rfl
@[simp] theorem State.modSlot_fresh (s : State) (c i : Nat) (f : TrapSlot → TrapSlot) : (s.modSlot c i f).fresh = s.fresh := rfl
@[simp] theorem State.modSlot_mem (s : State) (c i : Nat) (f : TrapSlot → TrapSlot) : (s.modSlot c i f).mem = s.mem := rfl
@[simp] theorem State.modSlot_peerMem (s : State) (c i : Nat) (f : TrapSlot → TrapSlot) : (s.modSlot c i f).peerMem = s.peerMem := rfl
@[simp] theorem State.modSlot_poison (s : State) (c i : Nat) (f : TrapSlot → TrapSlot) : (s.modSlot c i f).poison = s.poison := rfl
@[simp] theorem State.modSlot_ctxs (s : State) (c i : Nat) (f : TrapSlot → TrapSlot) : (s.modSlot c i f).ctxs = s.ctxs := rfl
@[simp] theorem State.modSlot_grids (s : State) (c i : Nat) (f : TrapSlot → TrapSlot) : (s.modSlot c i f).grids = s.grids := rfl
@[simp] theorem State.modSlot_bands (s : State) (c i : Nat) (f : TrapSlot → TrapSlot) : (s.modSlot c i f).bands = s.bands := rfl
@[simp] theorem State.modSlot_launches (s : State) (c i : Nat) (f : TrapSlot → TrapSlot) : (s.modSlot c i f).launches = s.launches := rfl
@[simp] theorem State.modSlot_children (s : State) (c i : Nat) (f : TrapSlot → TrapSlot) : (s.modSlot c i f).children = s.children := rfl
@[simp] theorem State.modSlot_deps (s : State) (c i : Nat) (f : TrapSlot → TrapSlot) : (s.modSlot c i f).deps = s.deps := rfl
@[simp] theorem State.modSlot_packets (s : State) (c i : Nat) (f : TrapSlot → TrapSlot) : (s.modSlot c i f).packets = s.packets := rfl
@[simp] theorem State.modSlot_rings (s : State) (c i : Nat) (f : TrapSlot → TrapSlot) : (s.modSlot c i f).rings = s.rings := rfl
@[simp] theorem State.modSlot_sliceSeq (s : State) (c i : Nat) (f : TrapSlot → TrapSlot) : (s.modSlot c i f).sliceSeq = s.sliceSeq := rfl
@[simp] theorem State.modSlot_sleepers (s : State) (c i : Nat) (f : TrapSlot → TrapSlot) : (s.modSlot c i f).sleepers = s.sleepers := rfl
@[simp] theorem State.modSlot_queues (s : State) (c i : Nat) (f : TrapSlot → TrapSlot) : (s.modSlot c i f).queues = s.queues := rfl
@[simp] theorem State.modSlot_quads (s : State) (c i : Nat) (f : TrapSlot → TrapSlot) : (s.modSlot c i f).quads = s.quads := rfl
@[simp] theorem State.modSlot_cores (s : State) (c i : Nat) (f : TrapSlot → TrapSlot) : (s.modSlot c i f).cores = s.cores := rfl
@[simp] theorem State.modSlot_dies (s : State) (c i : Nat) (f : TrapSlot → TrapSlot) : (s.modSlot c i f).dies = s.dies := rfl
@[simp] theorem State.modSlot_bundles (s : State) (c i : Nat) (f : TrapSlot → TrapSlot) : (s.modSlot c i f).bundles = s.bundles := rfl
@[simp] theorem State.modSlot_cur (s : State) (c i : Nat) (f : TrapSlot → TrapSlot) : (s.modSlot c i f).cur = s.cur := rfl
@[simp] theorem State.modSlot_group (s : State) (c i : Nat) (f : TrapSlot → TrapSlot) : (s.modSlot c i f).group = s.group := rfl
@[simp] theorem State.modSlot_pending (s : State) (c i : Nat) (f : TrapSlot → TrapSlot) : (s.modSlot c i f).pending = s.pending := rfl
@[simp] theorem State.modSlot_holds (s : State) (c i : Nat) (f : TrapSlot → TrapSlot) : (s.modSlot c i f).holds = s.holds := rfl
@[simp] theorem State.modSlot_flights (s : State) (c i : Nat) (f : TrapSlot → TrapSlot) : (s.modSlot c i f).flights = s.flights := rfl
@[simp] theorem State.modSlot_walks (s : State) (c i : Nat) (f : TrapSlot → TrapSlot) : (s.modSlot c i f).walks = s.walks := rfl
@[simp] theorem State.modSlot_homes (s : State) (c i : Nat) (f : TrapSlot → TrapSlot) : (s.modSlot c i f).homes = s.homes := rfl
@[simp] theorem State.modSlot_msgs (s : State) (c i : Nat) (f : TrapSlot → TrapSlot) : (s.modSlot c i f).msgs = s.msgs := rfl
@[simp] theorem State.modSlot_borrows (s : State) (c i : Nat) (f : TrapSlot → TrapSlot) : (s.modSlot c i f).borrows = s.borrows := rfl
@[simp] theorem State.modSlot_families (s : State) (c i : Nat) (f : TrapSlot → TrapSlot) : (s.modSlot c i f).families = s.families := rfl
@[simp] theorem State.modSlot_returns (s : State) (c i : Nat) (f : TrapSlot → TrapSlot) : (s.modSlot c i f).returns = s.returns := rfl
@[simp] theorem State.modSlot_ops (s : State) (c i : Nat) (f : TrapSlot → TrapSlot) : (s.modSlot c i f).ops = s.ops := rfl
@[simp] theorem State.modSlot_chunks (s : State) (c i : Nat) (f : TrapSlot → TrapSlot) : (s.modSlot c i f).chunks = s.chunks := rfl
@[simp] theorem State.modSlot_asyncs (s : State) (c i : Nat) (f : TrapSlot → TrapSlot) : (s.modSlot c i f).asyncs = s.asyncs := rfl
@[simp] theorem State.modSlot_pairActs (s : State) (c i : Nat) (f : TrapSlot → TrapSlot) : (s.modSlot c i f).pairActs = s.pairActs := rfl
@[simp] theorem State.modSlot_shadows (s : State) (c i : Nat) (f : TrapSlot → TrapSlot) : (s.modSlot c i f).shadows = s.shadows := rfl
@[simp] theorem State.modSlot_invals (s : State) (c i : Nat) (f : TrapSlot → TrapSlot) : (s.modSlot c i f).invals = s.invals := rfl
@[simp] theorem State.modSlot_peerReqs (s : State) (c i : Nat) (f : TrapSlot → TrapSlot) : (s.modSlot c i f).peerReqs = s.peerReqs := rfl
@[simp] theorem State.modSlot_dev (s : State) (c i : Nat) (f : TrapSlot → TrapSlot) : (s.modSlot c i f).dev = s.dev := rfl
@[simp] theorem State.modSlot_outbox (s : State) (c i : Nat) (f : TrapSlot → TrapSlot) : (s.modSlot c i f).outbox = s.outbox := rfl
@[simp] theorem State.modSlot_cmd (s : State) (c i : Nat) (f : TrapSlot → TrapSlot) : (s.modSlot c i f).cmd = s.cmd := rfl
@[simp] theorem State.modSlot_unreturned (s : State) (c i : Nat) (f : TrapSlot → TrapSlot) : (s.modSlot c i f).unreturned = s.unreturned := rfl
@[simp] theorem State.modSlot_pins (s : State) (c i : Nat) (f : TrapSlot → TrapSlot) : (s.modSlot c i f).pins = s.pins := rfl
@[simp] theorem State.modSlot_snaps (s : State) (c i : Nat) (f : TrapSlot → TrapSlot) : (s.modSlot c i f).snaps = s.snaps := rfl
@[simp] theorem State.modSlot_now (s : State) (c i : Nat) (f : TrapSlot → TrapSlot) : (s.modSlot c i f).now = s.now := rfl
@[simp] theorem State.modSlot_mail (s : State) (c i : Nat) (f : TrapSlot → TrapSlot) : (s.modSlot c i f).mail = s.mail := rfl
@[simp] theorem State.modSlot_stale (s : State) (c i : Nat) (f : TrapSlot → TrapSlot) : (s.modSlot c i f).stale = s.stale := rfl

/-! ### modBundle: a bundle -/

@[simp] theorem State.modBundle_agenda (s : State) (b : Nat) (f : Bundle → Bundle) : (s.modBundle b f).agenda = s.agenda := rfl
@[simp] theorem State.modBundle_clock (s : State) (b : Nat) (f : Bundle → Bundle) : (s.modBundle b f).clock = s.clock := rfl
@[simp] theorem State.modBundle_fresh (s : State) (b : Nat) (f : Bundle → Bundle) : (s.modBundle b f).fresh = s.fresh := rfl
@[simp] theorem State.modBundle_mem (s : State) (b : Nat) (f : Bundle → Bundle) : (s.modBundle b f).mem = s.mem := rfl
@[simp] theorem State.modBundle_peerMem (s : State) (b : Nat) (f : Bundle → Bundle) : (s.modBundle b f).peerMem = s.peerMem := rfl
@[simp] theorem State.modBundle_poison (s : State) (b : Nat) (f : Bundle → Bundle) : (s.modBundle b f).poison = s.poison := rfl
@[simp] theorem State.modBundle_ctxs (s : State) (b : Nat) (f : Bundle → Bundle) : (s.modBundle b f).ctxs = s.ctxs := rfl
@[simp] theorem State.modBundle_grids (s : State) (b : Nat) (f : Bundle → Bundle) : (s.modBundle b f).grids = s.grids := rfl
@[simp] theorem State.modBundle_bands (s : State) (b : Nat) (f : Bundle → Bundle) : (s.modBundle b f).bands = s.bands := rfl
@[simp] theorem State.modBundle_launches (s : State) (b : Nat) (f : Bundle → Bundle) : (s.modBundle b f).launches = s.launches := rfl
@[simp] theorem State.modBundle_children (s : State) (b : Nat) (f : Bundle → Bundle) : (s.modBundle b f).children = s.children := rfl
@[simp] theorem State.modBundle_deps (s : State) (b : Nat) (f : Bundle → Bundle) : (s.modBundle b f).deps = s.deps := rfl
@[simp] theorem State.modBundle_packets (s : State) (b : Nat) (f : Bundle → Bundle) : (s.modBundle b f).packets = s.packets := rfl
@[simp] theorem State.modBundle_rings (s : State) (b : Nat) (f : Bundle → Bundle) : (s.modBundle b f).rings = s.rings := rfl
@[simp] theorem State.modBundle_sliceSeq (s : State) (b : Nat) (f : Bundle → Bundle) : (s.modBundle b f).sliceSeq = s.sliceSeq := rfl
@[simp] theorem State.modBundle_sleepers (s : State) (b : Nat) (f : Bundle → Bundle) : (s.modBundle b f).sleepers = s.sleepers := rfl
@[simp] theorem State.modBundle_queues (s : State) (b : Nat) (f : Bundle → Bundle) : (s.modBundle b f).queues = s.queues := rfl
@[simp] theorem State.modBundle_quads (s : State) (b : Nat) (f : Bundle → Bundle) : (s.modBundle b f).quads = s.quads := rfl
@[simp] theorem State.modBundle_cores (s : State) (b : Nat) (f : Bundle → Bundle) : (s.modBundle b f).cores = s.cores := rfl
@[simp] theorem State.modBundle_dies (s : State) (b : Nat) (f : Bundle → Bundle) : (s.modBundle b f).dies = s.dies := rfl
@[simp] theorem State.modBundle_slots (s : State) (b : Nat) (f : Bundle → Bundle) : (s.modBundle b f).slots = s.slots := rfl
@[simp] theorem State.modBundle_cur (s : State) (b : Nat) (f : Bundle → Bundle) : (s.modBundle b f).cur = s.cur := rfl
@[simp] theorem State.modBundle_group (s : State) (b : Nat) (f : Bundle → Bundle) : (s.modBundle b f).group = s.group := rfl
@[simp] theorem State.modBundle_pending (s : State) (b : Nat) (f : Bundle → Bundle) : (s.modBundle b f).pending = s.pending := rfl
@[simp] theorem State.modBundle_holds (s : State) (b : Nat) (f : Bundle → Bundle) : (s.modBundle b f).holds = s.holds := rfl
@[simp] theorem State.modBundle_flights (s : State) (b : Nat) (f : Bundle → Bundle) : (s.modBundle b f).flights = s.flights := rfl
@[simp] theorem State.modBundle_walks (s : State) (b : Nat) (f : Bundle → Bundle) : (s.modBundle b f).walks = s.walks := rfl
@[simp] theorem State.modBundle_homes (s : State) (b : Nat) (f : Bundle → Bundle) : (s.modBundle b f).homes = s.homes := rfl
@[simp] theorem State.modBundle_msgs (s : State) (b : Nat) (f : Bundle → Bundle) : (s.modBundle b f).msgs = s.msgs := rfl
@[simp] theorem State.modBundle_borrows (s : State) (b : Nat) (f : Bundle → Bundle) : (s.modBundle b f).borrows = s.borrows := rfl
@[simp] theorem State.modBundle_families (s : State) (b : Nat) (f : Bundle → Bundle) : (s.modBundle b f).families = s.families := rfl
@[simp] theorem State.modBundle_returns (s : State) (b : Nat) (f : Bundle → Bundle) : (s.modBundle b f).returns = s.returns := rfl
@[simp] theorem State.modBundle_ops (s : State) (b : Nat) (f : Bundle → Bundle) : (s.modBundle b f).ops = s.ops := rfl
@[simp] theorem State.modBundle_chunks (s : State) (b : Nat) (f : Bundle → Bundle) : (s.modBundle b f).chunks = s.chunks := rfl
@[simp] theorem State.modBundle_asyncs (s : State) (b : Nat) (f : Bundle → Bundle) : (s.modBundle b f).asyncs = s.asyncs := rfl
@[simp] theorem State.modBundle_pairActs (s : State) (b : Nat) (f : Bundle → Bundle) : (s.modBundle b f).pairActs = s.pairActs := rfl
@[simp] theorem State.modBundle_shadows (s : State) (b : Nat) (f : Bundle → Bundle) : (s.modBundle b f).shadows = s.shadows := rfl
@[simp] theorem State.modBundle_invals (s : State) (b : Nat) (f : Bundle → Bundle) : (s.modBundle b f).invals = s.invals := rfl
@[simp] theorem State.modBundle_peerReqs (s : State) (b : Nat) (f : Bundle → Bundle) : (s.modBundle b f).peerReqs = s.peerReqs := rfl
@[simp] theorem State.modBundle_dev (s : State) (b : Nat) (f : Bundle → Bundle) : (s.modBundle b f).dev = s.dev := rfl
@[simp] theorem State.modBundle_outbox (s : State) (b : Nat) (f : Bundle → Bundle) : (s.modBundle b f).outbox = s.outbox := rfl
@[simp] theorem State.modBundle_cmd (s : State) (b : Nat) (f : Bundle → Bundle) : (s.modBundle b f).cmd = s.cmd := rfl
@[simp] theorem State.modBundle_unreturned (s : State) (b : Nat) (f : Bundle → Bundle) : (s.modBundle b f).unreturned = s.unreturned := rfl
@[simp] theorem State.modBundle_pins (s : State) (b : Nat) (f : Bundle → Bundle) : (s.modBundle b f).pins = s.pins := rfl
@[simp] theorem State.modBundle_snaps (s : State) (b : Nat) (f : Bundle → Bundle) : (s.modBundle b f).snaps = s.snaps := rfl
@[simp] theorem State.modBundle_now (s : State) (b : Nat) (f : Bundle → Bundle) : (s.modBundle b f).now = s.now := rfl
@[simp] theorem State.modBundle_mail (s : State) (b : Nat) (f : Bundle → Bundle) : (s.modBundle b f).mail = s.mail := rfl
@[simp] theorem State.modBundle_stale (s : State) (b : Nat) (f : Bundle → Bundle) : (s.modBundle b f).stale = s.stale := rfl

/-! ### next: a fresh number -/

@[simp] theorem State.next_agenda (s : State) : (s.next).agenda = s.agenda := rfl
@[simp] theorem State.next_clock (s : State) : (s.next).clock = s.clock := rfl
@[simp] theorem State.next_mem (s : State) : (s.next).mem = s.mem := rfl
@[simp] theorem State.next_peerMem (s : State) : (s.next).peerMem = s.peerMem := rfl
@[simp] theorem State.next_poison (s : State) : (s.next).poison = s.poison := rfl
@[simp] theorem State.next_ctxs (s : State) : (s.next).ctxs = s.ctxs := rfl
@[simp] theorem State.next_grids (s : State) : (s.next).grids = s.grids := rfl
@[simp] theorem State.next_bands (s : State) : (s.next).bands = s.bands := rfl
@[simp] theorem State.next_launches (s : State) : (s.next).launches = s.launches := rfl
@[simp] theorem State.next_children (s : State) : (s.next).children = s.children := rfl
@[simp] theorem State.next_deps (s : State) : (s.next).deps = s.deps := rfl
@[simp] theorem State.next_packets (s : State) : (s.next).packets = s.packets := rfl
@[simp] theorem State.next_rings (s : State) : (s.next).rings = s.rings := rfl
@[simp] theorem State.next_sliceSeq (s : State) : (s.next).sliceSeq = s.sliceSeq := rfl
@[simp] theorem State.next_sleepers (s : State) : (s.next).sleepers = s.sleepers := rfl
@[simp] theorem State.next_queues (s : State) : (s.next).queues = s.queues := rfl
@[simp] theorem State.next_quads (s : State) : (s.next).quads = s.quads := rfl
@[simp] theorem State.next_cores (s : State) : (s.next).cores = s.cores := rfl
@[simp] theorem State.next_dies (s : State) : (s.next).dies = s.dies := rfl
@[simp] theorem State.next_slots (s : State) : (s.next).slots = s.slots := rfl
@[simp] theorem State.next_bundles (s : State) : (s.next).bundles = s.bundles := rfl
@[simp] theorem State.next_cur (s : State) : (s.next).cur = s.cur := rfl
@[simp] theorem State.next_group (s : State) : (s.next).group = s.group := rfl
@[simp] theorem State.next_pending (s : State) : (s.next).pending = s.pending := rfl
@[simp] theorem State.next_holds (s : State) : (s.next).holds = s.holds := rfl
@[simp] theorem State.next_flights (s : State) : (s.next).flights = s.flights := rfl
@[simp] theorem State.next_walks (s : State) : (s.next).walks = s.walks := rfl
@[simp] theorem State.next_homes (s : State) : (s.next).homes = s.homes := rfl
@[simp] theorem State.next_msgs (s : State) : (s.next).msgs = s.msgs := rfl
@[simp] theorem State.next_borrows (s : State) : (s.next).borrows = s.borrows := rfl
@[simp] theorem State.next_families (s : State) : (s.next).families = s.families := rfl
@[simp] theorem State.next_returns (s : State) : (s.next).returns = s.returns := rfl
@[simp] theorem State.next_ops (s : State) : (s.next).ops = s.ops := rfl
@[simp] theorem State.next_chunks (s : State) : (s.next).chunks = s.chunks := rfl
@[simp] theorem State.next_asyncs (s : State) : (s.next).asyncs = s.asyncs := rfl
@[simp] theorem State.next_pairActs (s : State) : (s.next).pairActs = s.pairActs := rfl
@[simp] theorem State.next_shadows (s : State) : (s.next).shadows = s.shadows := rfl
@[simp] theorem State.next_invals (s : State) : (s.next).invals = s.invals := rfl
@[simp] theorem State.next_peerReqs (s : State) : (s.next).peerReqs = s.peerReqs := rfl
@[simp] theorem State.next_dev (s : State) : (s.next).dev = s.dev := rfl
@[simp] theorem State.next_outbox (s : State) : (s.next).outbox = s.outbox := rfl
@[simp] theorem State.next_cmd (s : State) : (s.next).cmd = s.cmd := rfl
@[simp] theorem State.next_unreturned (s : State) : (s.next).unreturned = s.unreturned := rfl
@[simp] theorem State.next_pins (s : State) : (s.next).pins = s.pins := rfl
@[simp] theorem State.next_snaps (s : State) : (s.next).snaps = s.snaps := rfl
@[simp] theorem State.next_now (s : State) : (s.next).now = s.now := rfl
@[simp] theorem State.next_mail (s : State) : (s.next).mail = s.mail := rfl
@[simp] theorem State.next_stale (s : State) : (s.next).stale = s.stale := rfl

end Sys2Proof.Machine
end

