-- ==== Sys2Proof/Laws/Table.lean ====
section
/-! SUPPORT. Laws of the sparse tables and of the lists of objects: read after write, and the canonical form. -/

namespace Sys2Proof.Machine

variable {α : Type}

/-! ### Reading a table after a write -/

theorem look_filter (d : α) (k j : Nat) (h : j ≠ k) (l : List (Nat × α)) :
    look d j (l.filter fun e => e.1 != k) = look d j l := by
  induction l with
  | nil => rfl
  | cons e r ih =>
    obtain ⟨a, v⟩ := e
    by_cases hk : a = k
    · subst hk
      simp only [List.filter, bne_self_eq_false, look, if_neg (Ne.symm h), ih]
    · have : (a != k) = true := by simpa using hk
      simp only [List.filter, this, look, ih]

theorem look_filter_self (d : α) (k : Nat) (l : List (Nat × α)) :
    look d k (l.filter fun e => e.1 != k) = d := by
  induction l with
  | nil => rfl
  | cons e r ih =>
    obtain ⟨a, v⟩ := e
    by_cases hk : a = k
    · subst hk
      simpa only [List.filter, bne_self_eq_false] using ih
    · have : (a != k) = true := by simpa using hk
      simp only [List.filter, this, look, if_neg hk, ih]

theorem look_insertBy_ne (d : α) (k j : Nat) (v : α) (h : j ≠ k) (l : List (Nat × α)) :
    look d j (insertBy Prod.fst (k, v) l) = look d j l := by
  induction l with
  | nil => simp [insertBy, look, Ne.symm h]
  | cons e r ih =>
    obtain ⟨a, x⟩ := e
    simp only [insertBy]
    split
    · simp [look, Ne.symm h]
    · simp only [look, ih]

theorem look_insertBy_self (d : α) (k : Nat) (v : α) (l : List (Nat × α)) (h : ∀ e ∈ l, e.1 ≠ k) :
    look d k (insertBy Prod.fst (k, v) l) = v := by
  induction l with
  | nil => simp [insertBy, look]
  | cons e r ih =>
    obtain ⟨a, x⟩ := e
    simp only [insertBy]
    split
    · simp [look]
    · have ha : a ≠ k := h (a, x) (by simp)
      simp only [look, if_neg ha]
      exact ih fun e he => h e (by simp [he])

/-- A read after a write at the same key gives the value written. -/
@[simp] theorem look_put_self [DecidableEq α] (d : α) (k : Nat) (v : α) (l : List (Nat × α)) :
    look d k (put d k v l) = v := by
  unfold put
  split
  · next h => rw [look_filter_self, h]
  · exact look_insertBy_self d k v _ fun e he => by simpa using (List.mem_filter.1 he).2

/-- A write leaves every other key as it was. -/
theorem look_put_ne [DecidableEq α] (d : α) (k j : Nat) (v : α) (l : List (Nat × α)) (h : j ≠ k) :
    look d j (put d k v l) = look d j l := by
  unfold put
  split
  · exact look_filter d k j h l
  · rw [look_insertBy_ne d k j v h, look_filter d k j h]

theorem look_put [DecidableEq α] (d : α) (k j : Nat) (v : α) (l : List (Nat × α)) :
    look d j (put d k v l) = if j = k then v else look d j l := by
  split
  · next h => rw [h, look_put_self]
  · next h => exact look_put_ne d k j v l h

/-! ### The canonical form -/

theorem above_trans (a b : Nat) (h : a ≤ b) (l : List (Nat × α)) (hb : above b l = true) : above a l = true := by
  cases l with
  | nil => rfl
  | cons e r => simp only [above, decide_eq_true_eq] at hb ⊢; omega

theorem tableWf_head [DecidableEq α] (d : α) (e : Nat × α) (r : List (Nat × α)) (h : tableWf d (e :: r) = true) :
    tableWf d r = true := by
  simp only [tableWf, Bool.and_eq_true] at h
  exact h.2

theorem above_mem [DecidableEq α] (d : α) (k : Nat) (l : List (Nat × α)) (hw : tableWf d l = true) (ha : above k l = true) :
    ∀ e ∈ l, k < e.1 := by
  induction l generalizing k with
  | nil => simp
  | cons e r ih =>
    obtain ⟨a, x⟩ := e
    simp only [tableWf, Bool.and_eq_true] at hw
    simp only [above, decide_eq_true_eq] at ha
    intro e he
    rcases List.mem_cons.1 he with h | h
    · subst h; exact ha
    · exact ih k hw.2 (above_trans k a (by omega) r hw.1.2) e h

theorem above_of_mem (k : Nat) (l : List (Nat × α)) (h : ∀ e ∈ l, k < e.1) : above k l = true := by
  cases l with
  | nil => rfl
  | cons e r => simpa [above] using h e (by simp)

theorem tableWf_filter [DecidableEq α] (d : α) (k : Nat) (l : List (Nat × α)) (h : tableWf d l = true) :
    tableWf d (l.filter fun e => e.1 != k) = true := by
  induction l with
  | nil => rfl
  | cons e r ih =>
    obtain ⟨a, x⟩ := e
    have hr := ih (tableWf_head d _ r h)
    simp only [List.filter]
    split
    · simp only [tableWf, Bool.and_eq_true] at h ⊢
      refine ⟨⟨h.1.1, above_of_mem a _ fun e he => above_mem d a r h.2 h.1.2 e (List.mem_filter.1 he).1⟩, hr⟩
    · exact hr

theorem mem_insertBy (x e : Nat × α) (l : List (Nat × α)) (h : e ∈ insertBy Prod.fst x l) : e = x ∨ e ∈ l := by
  induction l with
  | nil => simpa [insertBy] using h
  | cons y r ih =>
    simp only [insertBy] at h
    split at h
    · simpa using h
    · rcases List.mem_cons.1 h with h | h
      · exact Or.inr (by simp [h])
      · rcases ih h with h | h
        · exact Or.inl h
        · exact Or.inr (by simp [h])

theorem tableWf_insertBy [DecidableEq α] (d : α) (k : Nat) (v : α) (l : List (Nat × α)) (h : tableWf d l = true)
    (hv : v ≠ d) (hk : ∀ e ∈ l, e.1 ≠ k) : tableWf d (insertBy Prod.fst (k, v) l) = true := by
  induction l with
  | nil => simp [insertBy, tableWf, above, hv]
  | cons e r ih =>
    obtain ⟨a, x⟩ := e
    have hw := h
    simp only [tableWf, Bool.and_eq_true] at h
    simp only [insertBy]
    split
    · next hlt =>
      simp only [tableWf, Bool.and_eq_true]
      exact ⟨⟨by simpa using hv, by simpa [above] using hlt⟩, ⟨h.1.1, h.1.2⟩, h.2⟩
    · next hlt =>
      have ha : a ≠ k := hk (a, x) (by simp)
      simp only [tableWf, Bool.and_eq_true]
      refine ⟨⟨h.1.1, above_of_mem a _ fun e he => ?_⟩, ih h.2 fun e he => hk e (by simp [he])⟩
      rcases mem_insertBy _ _ _ he with h' | h'
      · subst h'; simp only at hlt ⊢; omega
      · exact above_mem d a r h.2 h.1.2 e h'

/-- A write keeps the canonical form. -/
theorem tableWf_put [DecidableEq α] (d : α) (k : Nat) (v : α) (l : List (Nat × α)) (h : tableWf d l = true) :
    tableWf d (put d k v l) = true := by
  unfold put
  split
  · exact tableWf_filter d k l h
  · next hv => exact tableWf_insertBy d k v _ (tableWf_filter d k l h) hv fun e he => by simpa using (List.mem_filter.1 he).2

/-- Writing bytes keeps the canonical form. -/
theorem tableWf_writeBytes (m : List (Nat × Byte)) (a : Nat) (bs : List Byte) (h : tableWf 0 m = true) :
    tableWf 0 (writeBytes m a bs) = true := by
  induction bs generalizing m a with
  | nil => exact h
  | cons b r ih => exact ih _ _ (tableWf_put 0 a b m h)

/-- A byte outside those written reads as before. -/
theorem look_writeBytes_out (m : List (Nat × Byte)) (a j : Nat) (bs : List Byte) (h : j < a ∨ a + bs.length ≤ j) :
    look 0 j (writeBytes m a bs) = look 0 j m := by
  induction bs generalizing m a with
  | nil => rfl
  | cons b r ih =>
    simp only [List.length_cons] at h
    rw [writeBytes, ih _ _ (by omega), look_put_ne]
    omega

/-- A byte written reads as it was written. -/
theorem look_writeBytes_in (m : List (Nat × Byte)) (a i : Nat) (bs : List Byte) (h : i < bs.length) :
    look 0 (a + i) (writeBytes m a bs) = bs[i] := by
  induction bs generalizing m a i with
  | nil => simp at h
  | cons b r ih =>
    cases i with
    | zero => rw [writeBytes, look_writeBytes_out _ _ _ _ (by omega), Nat.add_zero, look_put_self]; rfl
    | succ i =>
      simp only [List.length_cons] at h
      have := ih (put 0 a b m) (a + 1) i (by omega)
      rw [writeBytes, show a + (i + 1) = a + 1 + i by omega, this]
      rfl

theorem readBytes_length (m : List (Nat × Byte)) (a n : Nat) : (readBytes m a n).length = n := by
  induction n generalizing a with
  | zero => rfl
  | succ n ih => simp [readBytes, ih]

/-- A read of the bytes just written gives them back. -/
theorem readBytes_writeBytes (m : List (Nat × Byte)) (a : Nat) (bs : List Byte) :
    readBytes (writeBytes m a bs) a bs.length = bs := by
  induction bs generalizing m a with
  | nil => rfl
  | cons b r ih =>
    simp only [List.length_cons, readBytes, writeBytes]
    rw [look_writeBytes_out _ _ _ _ (by omega), look_put_self, ih]

/-- A read elsewhere is unchanged. -/
theorem readBytes_writeBytes_out (m : List (Nat × Byte)) (a j n : Nat) (bs : List Byte) (h : j + n ≤ a ∨ a + bs.length ≤ j) :
    readBytes (writeBytes m a bs) j n = readBytes m j n := by
  induction n generalizing j with
  | zero => rfl
  | succ n ih => rw [readBytes, readBytes, look_writeBytes_out _ _ _ _ (by omega), ih _ (by omega)]

/-! ### Lists of objects -/

@[simp] theorem length_modAt (l : List α) (i : Nat) (f : α → α) : (modAt l i f).length = l.length := by
  induction l generalizing i with
  | nil => rfl
  | cons x r ih => cases i <;> simp [modAt, ih]

theorem getElem?_modAt (l : List α) (i j : Nat) (f : α → α) :
    (modAt l i f)[j]? = if j = i then l[j]?.map f else l[j]? := by
  induction l generalizing i j with
  | nil => simp [modAt]
  | cons x r ih =>
    cases i with
    | zero => cases j <;> simp [modAt]
    | succ i =>
      cases j with
      | zero => simp [modAt]
      | succ j => simp [modAt, ih]

/-- A change that a map cannot see leaves the mapped list. -/
theorem map_modAt {β : Type} (g : α → β) (l : List α) (i : Nat) (f : α → α) (h : ∀ x, g (f x) = g x) :
    (modAt l i f).map g = l.map g := by
  induction l generalizing i with
  | nil => rfl
  | cons x r ih => cases i <;> simp [modAt, h, ih]

theorem map_modIf {β : Type} (g : α → β) (p : α → Bool) (f : α → α) (l : List α) (h : ∀ x, g (f x) = g x) :
    (modIf p f l).map g = l.map g := by
  simp only [modIf, List.map_map]
  apply List.map_congr_left
  intro x _
  simp only [Function.comp]
  split
  · exact h x
  · rfl

/-- The first element that passes a test, after a change of the elements that pass another, where the change keeps both
tests' answers. -/
theorem find?_modIf (p q : α → Bool) (f : α → α) (l : List α) (h : ∀ x, q (f x) = q x) :
    (modIf p f l).find? q = (l.find? q).map fun x => if p x then f x else x := by
  induction l with
  | nil => rfl
  | cons x r ih =>
    have hq : q (if p x then f x else x) = q x := by split <;> simp [h]
    simp only [modIf, List.map, List.find?, hq] at ih ⊢
    cases q x <;> simp [ih]

end Sys2Proof.Machine
end

