-- ==== Sys2Proof/Laws/Registers.lean ====
section
/-! SUPPORT. What register reads, writes and last-read releases do (R64, R300): read after write, what stays, and that
nothing but registers, predicates and slots changes. -/

namespace Sys2Proof.Machine

/-! ### Finding objects after a change -/

theorem State.band?_modBand (s : State) (b c : Nat) (f : Band → Band) (hf : ∀ x, (f x).id = x.id) :
    (s.modBand b f).band? c = (s.band? c).map fun x => if x.id == b then f x else x := by
  simp only [State.band?, State.modBand]
  exact find?_modIf _ _ f _ fun x => by simp [hf]

theorem State.band?_id (s : State) (c : Nat) (x : Band) (h : s.band? c = some x) : x.id = c := by
  simpa using List.find?_some h

theorem State.band?_modBand_self (s : State) (b : Nat) (f : Band → Band) (hf : ∀ x, (f x).id = x.id) :
    (s.modBand b f).band? b = (s.band? b).map f := by
  rw [s.band?_modBand b b f hf]
  cases h : s.band? b with
  | none => rfl
  | some x => simp [s.band?_id b x h]

theorem State.band?_modBand_ne (s : State) (b c : Nat) (f : Band → Band) (hf : ∀ x, (f x).id = x.id) (hc : c ≠ b) :
    (s.modBand b f).band? c = s.band? c := by
  rw [s.band?_modBand b c f hf]
  cases h : s.band? c with
  | none => rfl
  | some x => simp [s.band?_id c x h, hc]

theorem State.troop?_modTroop (s : State) (b t c u : Nat) (f : Troop → Troop) :
    (s.modTroop b t f).troop? c u = if c = b ∧ u = t then (s.troop? c u).map f else s.troop? c u := by
  simp only [State.troop?, State.modTroop]
  by_cases hc : c = b
  · subst hc
    rw [State.band?_modBand_self s c (fun x => x.modTroop t f) fun x => rfl]
    cases s.band? c with
    | none => simp
    | some x => simp [Band.modTroop, getElem?_modAt]
  · rw [State.band?_modBand_ne s b c (fun x => x.modTroop t f) (fun x => rfl) hc]
    simp [hc]

theorem State.thread?_modThread (s : State) (t u : Tid) (f : Thread → Thread) :
    (s.modThread t f).thread? u = if u = t then (s.thread? u).map f else s.thread? u := by
  obtain ⟨tb, tt, tl⟩ := t
  obtain ⟨ub, ut, ul⟩ := u
  simp only [State.thread?, State.modThread, State.troop?_modTroop, Tid.mk.injEq]
  by_cases h : ub = tb ∧ ut = tt
  · simp only [h, and_self, if_true, true_and]
    cases s.troop? tb tt with
    | none => simp
    | some x => simp [Troop.modThread, getElem?_modAt]
  · rw [if_neg h, if_neg fun h' => h ⟨h'.1, h'.2.1⟩]

theorem State.slot?_modSlot (s : State) (c i c' i' : Nat) (f : TrapSlot → TrapSlot)
    (hf : ∀ x, (f x).core = x.core ∧ (f x).idx = x.idx) :
    (s.modSlot c i f).slot? c' i' = if c' = c ∧ i' = i then (s.slot? c' i').map f else s.slot? c' i' := by
  simp only [State.slot?, State.modSlot]
  rw [find?_modIf _ _ f _ fun x => by simp [hf]]
  cases h : s.slots.find? fun x => x.core == c' && x.idx == i' with
  | none => simp
  | some x =>
    have hx := List.find?_some h
    simp only [Bool.and_eq_true, beq_iff_eq] at hx
    obtain ⟨rfl, rfl⟩ := hx
    by_cases hc : x.core = c ∧ x.idx = i <;> simp [hc]

/-! ### What register traffic cannot change -/

/-- Two states differ at most in registers, predicates, trap slots' registers and where threads stand. -/
structure SameShape (s u : State) : Prop where
  bands : u.bands.map Band.bare = s.bands.map Band.bare
  slots : u.slots.map TrapSlot.bare = s.slots.map TrapSlot.bare
  rest : u = { s with bands := u.bands, slots := u.slots }

theorem SameShape.refl (s : State) : SameShape s s := ⟨rfl, rfl, rfl⟩

theorem SameShape.trans {s u v : State} (h : SameShape s u) (k : SameShape u v) : SameShape s v := by
  refine ⟨k.bands.trans h.bands, k.slots.trans h.slots, ?_⟩
  have h1 := h.rest
  have h2 := k.rest
  rw [h1] at h2
  exact h2

theorem SameShape.of_modTroop (s : State) (b t : Nat) (f : Troop → Troop) (hf : ∀ x, (f x).bare = x.bare) :
    SameShape s (s.modTroop b t f) := by
  refine ⟨?_, rfl, rfl⟩
  apply map_modIf
  intro x
  simp only [Band.bare, Band.modTroop]
  congr 1
  exact map_modAt _ _ _ _ hf

theorem SameShape.of_modThread (s : State) (t : Tid) (f : Thread → Thread) (hf : ∀ x, (f x).bare = x.bare) :
    SameShape s (s.modThread t f) := by
  apply SameShape.of_modTroop
  intro x
  simp only [Troop.bare, Troop.modThread]
  congr 1
  exact map_modAt _ _ _ _ hf

theorem SameShape.of_modSlot (s : State) (c i : Nat) (f : TrapSlot → TrapSlot) (hf : ∀ x, (f x).bare = x.bare) :
    SameShape s (s.modSlot c i f) := ⟨rfl, map_modIf _ _ _ _ hf, rfl⟩

theorem Troop.setName_bare (x : Troop) (r : VReg) (n : Option VName) : (x.setName r n).bare = x.bare := by
  cases n <;> rfl

theorem Troop.writeName_bare (x : Troop) (r : VReg) (l : Nat) (v : Word) : (x.writeName r l v).bare = x.bare :=
  x.setName_bare _ _

theorem Troop.freeIfDone_bare (x : Troop) (r : VReg) : (x.freeIfDone r).bare = x.bare := by
  unfold Troop.freeIfDone
  split
  · rfl
  · split
    · exact x.setName_bare _ _
    · rfl

theorem Troop.releaseName_bare (x : Troop) (r : VReg) (l : Nat) : (x.releaseName r l).bare = x.bare := by
  unfold Troop.releaseName
  split
  · rfl
  · split
    · rw [Troop.freeIfDone_bare, Troop.setName_bare]
    · rfl

theorem State.writeV_shape (s : State) (t : Tid) (r : VReg) (v : Word) : SameShape s (s.writeV t r v) := by
  unfold State.writeV
  split
  · exact .of_modSlot _ _ _ _ fun _ => rfl
  · exact .of_modTroop _ _ _ _ fun x => x.writeName_bare _ _ _

theorem State.writeP_shape (s : State) (t : Tid) (r : PReg) (b : Bool) : SameShape s (s.writeP t r b) :=
  .of_modThread _ _ _ fun _ => rfl

theorem State.release_shape (s : State) (t : Tid) (rs : List VReg) : SameShape s (s.release t rs) := by
  unfold State.release
  induction rs generalizing s with
  | nil => exact .refl s
  | cons r rs ih =>
    refine .trans ?_ (ih _)
    dsimp only
    split
    · exact .refl s
    · exact .of_modTroop _ _ _ _ fun x => x.releaseName_bare _ _

theorem State.writeRegs_shape (s : State) (t : Tid) (ws : List RegWrite) : SameShape s (s.writeRegs t ws) := by
  unfold State.writeRegs
  induction ws generalizing s with
  | nil => exact .refl s
  | cons w ws ih =>
    refine .trans ?_ (ih _)
    cases w with
    | v r x => exact s.writeV_shape t r x
    | p r b => exact s.writeP_shape t r b

/-! ### What the shape determines -/

theorem find?_map_same {α β : Type} (g : α → β) (p : α → Bool) (q : β → Bool) (l : List α) (h : ∀ x, q (g x) = p x) :
    (l.map g).find? q = (l.find? p).map g := by
  induction l with
  | nil => rfl
  | cons x r ih => simp only [List.map, List.find?, h]; cases p x <;> simp [ih]

theorem SameShape.band {s u : State} (h : SameShape s u) (b : Nat) :
    (u.band? b).map Band.bare = (s.band? b).map Band.bare := by
  have e : ∀ x : State, (x.band? b).map Band.bare = (x.bands.map Band.bare).find? (·.id == b) := fun x =>
    (find?_map_same Band.bare (·.id == b) (·.id == b) x.bands fun y => rfl).symm
  rw [e, e, h.bands]

theorem SameShape.troop {s u : State} (h : SameShape s u) (b t : Nat) :
    (u.troop? b t).map Troop.bare = (s.troop? b t).map Troop.bare := by
  have e : ∀ x : State, (x.troop? b t).map Troop.bare = ((x.band? b).map Band.bare).bind fun y => y.troops[t]? := by
    intro x
    simp only [State.troop?]
    cases x.band? b with
    | none => rfl
    | some y => simp [Band.bare]
  rw [e, e, h.band]

theorem SameShape.thread {s u : State} (h : SameShape s u) (t : Tid) :
    (u.thread? t).map Thread.bare = (s.thread? t).map Thread.bare := by
  have e : ∀ x : State, (x.thread? t).map Thread.bare =
      ((x.troop? t.band t.troop).map Troop.bare).bind fun y => y.threads[t.lane]? := by
    intro x
    simp only [State.thread?]
    cases x.troop? t.band t.troop with
    | none => rfl
    | some y => simp [Troop.bare]
  rw [e, e, h.troop]

theorem SameShape.coreOf {s u : State} (h : SameShape s u) (t : Tid) : u.coreOf t = s.coreOf t := by
  have e : ∀ x : State, x.coreOf t = (((x.band? t.band).map Band.bare).map fun b => b.coreOf t.troop).getD 0 := by
    intro x
    simp only [State.coreOf]
    cases x.band? t.band <;> rfl
  rw [e, e, h.band]

theorem SameShape.slot {s u : State} (h : SameShape s u) (c i : Nat) :
    (u.slot? c i).map TrapSlot.bare = (s.slot? c i).map TrapSlot.bare := by
  have e : ∀ x : State, (x.slot? c i).map TrapSlot.bare = (x.slots.map TrapSlot.bare).find? fun y => y.core == c && y.idx == i :=
    fun x => (find?_map_same TrapSlot.bare (fun y => y.core == c && y.idx == i) (fun y => y.core == c && y.idx == i)
      x.slots fun y => rfl).symm
  rw [e, e, h.slots]

theorem SameShape.slot_isSome {s u : State} (h : SameShape s u) (c i : Nat) : (u.slot? c i).isSome = (s.slot? c i).isSome := by
  have := congrArg Option.isSome (h.slot c i)
  simpa using this

theorem SameShape.thread_isSome {s u : State} (h : SameShape s u) (t : Tid) : (u.thread? t).isSome = (s.thread? t).isSome := by
  have := congrArg Option.isSome (h.thread t)
  simpa using this

theorem SameShape.slotFor {s u : State} (h : SameShape s u) (t : Tid) (r : VReg) : u.slotFor t r = s.slotFor t r := by
  unfold State.slotFor
  split
  · rfl
  · have ht := h.troop t.band t.troop
    rw [h.coreOf t]
    cases hu : u.troop? t.band t.troop with
    | none =>
      rw [hu] at ht
      cases hs : s.troop? t.band t.troop with
      | none => rfl
      | some y => rw [hs] at ht; simp at ht
    | some x =>
      rw [hu] at ht
      cases hs : s.troop? t.band t.troop with
      | none => rw [hs] at ht; simp at ht
      | some y =>
        rw [hs] at ht
        simp only [Option.map_some, Option.some.injEq] at ht
        have hslot : x.bare.slot = y.bare.slot := by rw [ht]
        change x.slot = y.slot at hslot
        have hths : (x.threads.map Thread.bare)[t.lane]? = (y.threads.map Thread.bare)[t.lane]? :=
          congrArg (fun z : Troop => z.threads[t.lane]?) ht
        simp only [List.getElem?_map] at hths
        simp only [hslot]
        cases hx : x.threads[t.lane]? with
        | none =>
          rw [hx] at hths
          cases hy : y.threads[t.lane]? with
          | none => rfl
          | some z => rw [hy] at hths; simp at hths
        | some w =>
          rw [hx] at hths
          cases hy : y.threads[t.lane]? with
          | none => rw [hy] at hths; simp at hths
          | some z =>
            rw [hy] at hths
            simp only [Option.map_some, Option.some.injEq] at hths
            have hd : w.bare.depth = z.bare.depth := by rw [hths]
            change w.depth = z.depth at hd
            cases y.slot <;> simp [hd]

/-! ### Names of a troop -/

theorem find?_filter_ne (l : List (Nat × VName)) (k j : Nat) (h : j ≠ k) :
    (l.filter fun e => e.1 != k).find? (fun e => e.1 == j) = l.find? fun e => e.1 == j := by
  induction l with
  | nil => rfl
  | cons e r ih =>
    by_cases hk : e.1 = k
    · have hj : (e.1 == j) = false := by simp [hk, Ne.symm h]
      have hf : (e.1 != k) = false := by simp [hk]
      rw [List.filter_cons_of_neg (by simp [hf]), List.find?_cons_of_neg (by simp [hj]), ih]
    · have hf : (e.1 != k) = true := by simp [hk]
      rw [List.filter_cons_of_pos (by simp [hf])]
      by_cases hj : e.1 = j
      · rw [List.find?_cons_of_pos (by simp [hj]), List.find?_cons_of_pos (by simp [hj])]
      · rw [List.find?_cons_of_neg (by simp [hj]), List.find?_cons_of_neg (by simp [hj]), ih]

theorem find?_filter_self (l : List (Nat × VName)) (k : Nat) :
    (l.filter fun e => e.1 != k).find? (fun e => e.1 == k) = none := by
  simp only [List.find?_eq_none, List.mem_filter]
  intro x hx
  simpa using hx.2

theorem find?_insertBy (l : List (Nat × VName)) (k j : Nat) (n : VName) (h : ∀ e ∈ l, e.1 ≠ k) :
    (insertBy (fun e : Nat × VName => e.1) (k, n) l).find? (fun e => e.1 == j) =
      if j = k then some (k, n) else l.find? fun e => e.1 == j := by
  induction l with
  | nil =>
    by_cases hj : j = k
    · simp [insertBy, hj]
    · have : (k == j) = false := by simpa using Ne.symm hj
      simp [insertBy, hj, this]
  | cons e r ih =>
    simp only [insertBy]
    have he : e.1 ≠ k := h e (by simp)
    split
    · by_cases hj : j = k
      · rw [List.find?_cons_of_pos (by simp [hj]), if_pos hj]
      · rw [List.find?_cons_of_neg (by simpa using Ne.symm hj), if_neg hj]
    · have ih := ih fun e he => h e (by simp [he])
      by_cases hj : j = k
      · rw [if_pos hj] at ih ⊢
        rw [List.find?_cons_of_neg (by simpa [hj] using he), ih]
      · rw [if_neg hj] at ih ⊢
        by_cases hej : e.1 = j
        · rw [List.find?_cons_of_pos (by simpa using hej), List.find?_cons_of_pos (by simpa using hej)]
        · rw [List.find?_cons_of_neg (by simpa using hej), List.find?_cons_of_neg (by simpa using hej), ih]

/-- Setting a name sets that name and no other. -/
theorem Troop.name?_setName (x : Troop) (r q : VReg) (n : Option VName) :
    (x.setName r n).name? q = if q = r then n else x.name? q := by
  have hv : q = r ↔ q.val = r.val := Fin.ext_iff
  cases n with
  | none =>
    simp only [Troop.setName, Troop.name?]
    by_cases h : q = r
    · subst h; simp
    · rw [find?_filter_ne _ _ _ (fun h' => h (hv.2 h'))]; simp [h]
  | some v =>
    simp only [Troop.setName, Troop.name?]
    rw [find?_insertBy _ _ _ _ fun e he => by simpa using (List.mem_filter.1 he).2]
    by_cases h : q = r
    · subst h; simp
    · have h' : q.val ≠ r.val := fun h' => h (hv.2 h')
      simp [h, h', find?_filter_ne _ _ _ h']

/-- The lane of a name of a troop, 0 without a physical register. -/
def Troop.lane (x : Troop) (r : VReg) (l : Nat) : Word := ((x.name? r).map fun n => look 0 l n.vals).getD 0

theorem State.troopLane_eq (s : State) (b t l : Nat) (r : VReg) :
    s.troopLane b t l r = ((s.troop? b t).map fun x => x.lane r l).getD 0 := by
  unfold State.troopLane Troop.lane
  cases s.troop? b t with
  | none => rfl
  | some x => simp only [Option.bind_some, Option.map_some, Option.getD_some]; cases x.name? r <;> rfl

/-- WriteName writes one lane of one name (R64). -/
theorem Troop.lane_writeName (x : Troop) (r q : VReg) (l k : Nat) (v : Word) :
    (x.writeName r l v).lane q k = if q = r ∧ k = l then v else x.lane q k := by
  simp only [Troop.lane, Troop.writeName, Troop.name?_setName]
  by_cases h : q = r
  · subst h
    simp only [if_true, true_and, Option.map_some, Option.getD_some, look_put]
    by_cases hk : k = l
    · simp [hk]
    · simp only [if_neg hk]
      cases x.name? q <;> rfl
  · simp [h]

/-- A last-read touches no other name. -/
theorem Troop.name?_releaseName (x : Troop) (r q : VReg) (l : Nat) (h : q ≠ r) : (x.releaseName r l).name? q = x.name? q := by
  unfold Troop.releaseName
  split
  · rfl
  · split
    · unfold Troop.freeIfDone
      split
      · rw [Troop.name?_setName, if_neg h]
      · split
        · rw [Troop.name?_setName, if_neg h, Troop.name?_setName, if_neg h]
        · rw [Troop.name?_setName, if_neg h]
    · rfl

theorem Troop.lane_releaseName (x : Troop) (r q : VReg) (l k : Nat) (h : q ≠ r) : (x.releaseName r l).lane q k = x.lane q k := by
  simp only [Troop.lane, x.name?_releaseName r q l h]

theorem map_insertBy_subset {α : Type} (f : α → Nat) (x : α) (l : List α) (k : Nat) (h : k ∈ (insertBy f x l).map f) :
    k = f x ∨ k ∈ l.map f := by
  induction l with
  | nil => simpa [insertBy] using h
  | cons y r ih =>
    simp only [insertBy] at h
    split at h
    · simpa using h
    · simp only [List.map_cons, List.mem_cons] at h ⊢
      rcases h with h | h
      · exact Or.inr (Or.inl h)
      · exact (ih h).imp_right Or.inr

/-- A name has a physical register where the troop's list of names holds it. -/
theorem Troop.mem_names (x : Troop) (r : VReg) : r.val ∈ x.names.map (·.1) ↔ (x.name? r).isSome = true := by
  simp [Troop.name?, List.find?_isSome]

/-- A troop after last-read releases of names in `rel`: no name has come, none outside `rel` has gone, and its threads stand
as they did. -/
structure Troop.Under (rel : List VReg) (x y : Troop) : Prop where
  names : ∀ k ∈ y.names.map (·.1), k ∈ x.names.map (·.1)
  same : ∀ q, q ∉ rel → y.name? q = x.name? q
  statuses : y.threads.map (·.status) = x.threads.map (·.status)

theorem Troop.Under.refl (rel : List VReg) (x : Troop) : Troop.Under rel x x := ⟨fun _ h => h, fun _ _ => rfl, rfl⟩

theorem Troop.Under.trans {rel : List VReg} {x y z : Troop} (h : Troop.Under rel x y) (k : Troop.Under rel y z) :
    Troop.Under rel x z :=
  ⟨fun n hn => h.names n (k.names n hn), fun q hq => (k.same q hq).trans (h.same q hq), k.statuses.trans h.statuses⟩

theorem Troop.names_setName_none (x : Troop) (r : VReg) : ∀ k ∈ (x.setName r none).names.map (·.1), k ∈ x.names.map (·.1) := by
  intro k hk
  simp only [Troop.setName, List.mem_map, List.mem_filter] at hk ⊢
  obtain ⟨e, ⟨he, -⟩, rfl⟩ := hk
  exact ⟨e, he, rfl⟩

theorem Troop.names_setName_some (x : Troop) (r : VReg) (v : VName) (h : (x.name? r).isSome = true) :
    ∀ k ∈ (x.setName r (some v)).names.map (·.1), k ∈ x.names.map (·.1) := by
  intro k hk
  rcases map_insertBy_subset _ _ _ _ hk with rfl | hk
  · exact (x.mem_names r).2 h
  · simp only [List.mem_map, List.mem_filter] at hk ⊢
    obtain ⟨e, ⟨he, -⟩, rfl⟩ := hk
    exact ⟨e, he, rfl⟩

/-- A last-read takes no physical register. -/
theorem Troop.names_releaseName (x : Troop) (r : VReg) (l : Nat) :
    ∀ k ∈ (x.releaseName r l).names.map (·.1), k ∈ x.names.map (·.1) := by
  unfold Troop.releaseName
  split
  · exact fun _ h => h
  · next n hn =>
    split
    · intro k hk
      apply x.names_setName_some r { n with released := setBit64 n.released l true } (by simp [hn])
      unfold Troop.freeIfDone at hk
      split at hk
      · exact hk
      · split at hk
        · exact Troop.names_setName_none _ _ k hk
        · exact hk
    · exact fun _ h => h

end Sys2Proof.Machine
end

