-- ==== Sys2Proof/Laws/Writes.lean ====
section
/-! SUPPORT. The effect of register writes and releases on every register lane, slot lane and predicate. -/

namespace Sys2Proof.Machine

/-! ### Where a register is read -/

theorem State.readV_of_slot (s : State) (t : Tid) (r : VReg) (c i : Nat) (h : s.slotFor t r = some (c, i)) :
    s.readV t r = s.slotLane c i (r.val - 48) t.lane := by
  unfold State.readV State.readLane State.slotLane
  exact congrArg (fun o => match o with
    | some (c, i) => (match s.slot? c i with | some sl => look 0 t.lane (look [] (r.val - 48) sl.regs) | none => 0)
    | none => s.troopLane t.band t.troop t.lane r) h

theorem State.readV_of_name (s : State) (t : Tid) (r : VReg) (h : s.slotFor t r = none) :
    s.readV t r = s.troopLane t.band t.troop t.lane r := by
  simp only [State.readV, State.readLane, h]

theorem State.troop?_of_thread (s : State) (t : Tid) (h : (s.thread? t).isSome = true) :
    ∃ x, s.troop? t.band t.troop = some x := by
  unfold State.thread? at h
  cases hx : s.troop? t.band t.troop with
  | none => simp [hx] at h
  | some x => exact ⟨x, rfl⟩

/-! ### Predicates -/

theorem State.thread?_modTroop (s : State) (b t : Nat) (f : Troop → Troop) (hf : ∀ x, (f x).threads = x.threads) (u : Tid) :
    (s.modTroop b t f).thread? u = s.thread? u := by
  simp only [State.thread?, State.troop?_modTroop]
  split
  · cases s.troop? u.band u.troop with
    | none => rfl
    | some x => simp [hf]
  · rfl

theorem State.readP_modTroop (s : State) (b t : Nat) (f : Troop → Troop) (hf : ∀ x, (f x).threads = x.threads) (u : Tid)
    (p : PReg) : (s.modTroop b t f).readP u p = s.readP u p := by
  simp only [State.readP, State.thread?_modTroop _ _ _ _ hf]

theorem State.readP_modSlot (s : State) (c i : Nat) (f : TrapSlot → TrapSlot) (u : Tid) (p : PReg) :
    (s.modSlot c i f).readP u p = s.readP u p := rfl

theorem Troop.setName_threads (x : Troop) (r : VReg) (n : Option VName) : (x.setName r n).threads = x.threads := by
  cases n <;> rfl

theorem Troop.releaseName_threads (x : Troop) (r : VReg) (l : Nat) : (x.releaseName r l).threads = x.threads := by
  unfold Troop.releaseName
  split
  · rfl
  · split
    · unfold Troop.freeIfDone
      split
      · rw [Troop.setName_threads]
      · split
        · rw [Troop.setName_threads, Troop.setName_threads]
        · rw [Troop.setName_threads]
    · rfl

theorem getLsbD_setBit (p : BitVec 24) (r q : PReg) (b : Bool) :
    (if b then p ||| BitVec.ofNat 24 (2 ^ r.val) else p &&& ~~~BitVec.ofNat 24 (2 ^ r.val)).getLsbD q.val =
      if q = r then b else p.getLsbD q.val := by
  have hq : q.val < 24 := q.isLt
  have hv : q = r ↔ q.val = r.val := Fin.ext_iff
  have hb : (BitVec.ofNat 24 (2 ^ r.val)).getLsbD q.val = decide (q.val = r.val) := by
    rw [BitVec.getLsbD_ofNat, Nat.testBit_two_pow]
    simp [hq, eq_comm]
  cases b with
  | false =>
    rw [if_neg (by simp), BitVec.getLsbD_and, BitVec.getLsbD_not, hb]
    by_cases h : q.val = r.val
    · simp [h, hv]
    · rw [if_neg fun h' => h (hv.1 h')]; simp [h, hq]
  | true =>
    rw [if_pos rfl, BitVec.getLsbD_or, hb]
    by_cases h : q.val = r.val
    · simp [h, hv]
    · rw [if_neg fun h' => h (hv.1 h')]; simp [h]

/-- A predicate written reads as written; the others are unchanged. -/
theorem State.readP_writeP (s : State) (t u : Tid) (r q : PReg) (b : Bool) (h : (s.thread? t).isSome = true) :
    (s.writeP t r b).readP u q = if u = t ∧ q = r then b else s.readP u q := by
  simp only [State.readP, State.writeP, State.thread?_modThread]
  by_cases hu : u = t
  · subst hu
    cases hx : s.thread? u with
    | none => simp [hx] at h
    | some x =>
      simp only [if_true, Option.map_some, true_and]
      exact getLsbD_setBit x.preds r q b
  · simp [hu]

/-! ### Names -/

theorem State.troopLane_modTroop (s : State) (b t : Nat) (f : Troop → Troop) (c u l : Nat) (r : VReg)
    (hf : ∀ x, s.troop? b t = some x → (c = b ∧ u = t → (f x).lane r l = x.lane r l)) :
    (s.modTroop b t f).troopLane c u l r = s.troopLane c u l r := by
  rw [State.troopLane_eq, State.troopLane_eq, State.troop?_modTroop]
  split
  · next h =>
    obtain ⟨rfl, rfl⟩ := h
    cases hx : s.troop? c u with
    | none => rfl
    | some x => simp [hf x hx ⟨rfl, rfl⟩]
  · rfl

theorem State.troopLane_modThread (s : State) (t : Tid) (f : Thread → Thread) (c u l : Nat) (r : VReg) :
    (s.modThread t f).troopLane c u l r = s.troopLane c u l r :=
  State.troopLane_modTroop _ _ _ _ _ _ _ _ fun _ _ _ => rfl

/-- A write through a name changes that lane alone. -/
theorem State.troopLane_writeV (s : State) (t : Tid) (r q : VReg) (v : Word) (b u l : Nat)
    (hx : (s.thread? t).isSome = true) :
    (s.writeV t r v).troopLane b u l q =
      if s.slotFor t r = none ∧ q = r ∧ (⟨b, u, l⟩ : Tid) = t then v else s.troopLane b u l q := by
  unfold State.writeV
  split
  · next h => simp only [h, reduceCtorEq, false_and, if_false]; rfl
  · next h =>
    obtain ⟨x, hx⟩ := s.troop?_of_thread t hx
    obtain ⟨tb, tt, tl⟩ := t
    rw [State.troopLane_eq, State.troopLane_eq, State.troop?_modTroop]
    simp only [true_and, Tid.mk.injEq, h]
    by_cases hbu : b = tb ∧ u = tt
    · obtain ⟨rfl, rfl⟩ := hbu
      simp only [and_self, if_true, true_and]
      simp only at hx
      simp only [hx, Option.map_some, Option.getD_some, Troop.lane_writeName]
    · rw [if_neg hbu, if_neg fun h' => hbu ⟨h'.2.1, h'.2.2.1⟩]

theorem State.slotLane_modTroop (s : State) (b t : Nat) (f : Troop → Troop) (c i k l : Nat) :
    (s.modTroop b t f).slotLane c i k l = s.slotLane c i k l := rfl

theorem State.slotLane_modThread (s : State) (t : Tid) (f : Thread → Thread) (c i k l : Nat) :
    (s.modThread t f).slotLane c i k l = s.slotLane c i k l := rfl

/-- A write through a trap slot changes that lane alone. -/
theorem State.slotLane_writeV (s : State) (t : Tid) (r : VReg) (v : Word) (c i k l : Nat)
    (hs : ∀ c i, s.slotFor t r = some (c, i) → (s.slot? c i).isSome = true) :
    (s.writeV t r v).slotLane c i k l =
      if s.slotFor t r = some (c, i) ∧ k = r.val - 48 ∧ l = t.lane then v else s.slotLane c i k l := by
  unfold State.writeV
  split
  · next c' i' h =>
    simp only [State.slotLane, h, Option.some.injEq, Prod.mk.injEq]
    rw [State.slot?_modSlot s c' i' c i (fun sl => { sl with
      regs := put [] (r.val - 48) (put 0 t.lane v (look [] (r.val - 48) sl.regs)) sl.regs,
      poison := put 0 (r.val - 48) (setBit64 (look 0 (r.val - 48) sl.poison) t.lane false) sl.poison }) fun x => ⟨rfl, rfl⟩]
    by_cases hc : c' = c ∧ i' = i
    · obtain ⟨rfl, rfl⟩ := hc
      have := hs c' i' h
      cases hx : s.slot? c' i' with
      | none => simp [hx] at this
      | some x =>
        simp only [and_self, if_true, Option.map_some, true_and, look_put]
        by_cases hk : k = r.val - 48
        · simp [hk, look_put]
        · simp [hk]
    · rw [if_neg fun h' => hc ⟨h'.1.symm, h'.2.symm⟩, if_neg fun h' => hc h'.1]
  · next h => rw [h]; simp only [reduceCtorEq, false_and, if_false]; rfl

theorem State.readP_writeV (s : State) (t : Tid) (r : VReg) (v : Word) (u : Tid) (p : PReg) :
    (s.writeV t r v).readP u p = s.readP u p := by
  unfold State.writeV
  split
  · rfl
  · exact State.readP_modTroop s _ _ (fun x => x.writeName r t.lane v) (fun x => x.setName_threads _ _) _ _

theorem State.troopLane_writeP (s : State) (t : Tid) (r : PReg) (b : Bool) (c u l : Nat) (q : VReg) :
    (s.writeP t r b).troopLane c u l q = s.troopLane c u l q := State.troopLane_modThread _ _ _ _ _ _ _

theorem State.slotLane_writeP (s : State) (t : Tid) (r : PReg) (b : Bool) (c i k l : Nat) :
    (s.writeP t r b).slotLane c i k l = s.slotLane c i k l := rfl

/-! ### Releases -/

/-- Releases touch only the names they release, in the thread's own troop. -/
theorem State.troopLane_release (s : State) (t : Tid) (rs : List VReg) (b u l : Nat) (q : VReg)
    (h : q ∉ rs ∨ ¬ (b = t.band ∧ u = t.troop)) : (s.release t rs).troopLane b u l q = s.troopLane b u l q := by
  unfold State.release
  induction rs generalizing s with
  | nil => rfl
  | cons r rs ih =>
    rw [List.foldl_cons, ih]
    · split
      · rfl
      · apply State.troopLane_modTroop
        intro x _ hbu
        rcases h with h | h
        · exact x.lane_releaseName r q _ _ fun hq => h (by simp [hq])
        · exact absurd hbu h
    · rcases h with h | h
      · exact Or.inl fun hq => h (by simp [hq])
      · exact Or.inr h

theorem State.slotLane_release (s : State) (t : Tid) (rs : List VReg) (c i k l : Nat) :
    (s.release t rs).slotLane c i k l = s.slotLane c i k l := by
  unfold State.release
  induction rs generalizing s with
  | nil => rfl
  | cons r rs ih => rw [List.foldl_cons, ih]; split <;> rfl

theorem State.readP_release (s : State) (t : Tid) (rs : List VReg) (u : Tid) (p : PReg) :
    (s.release t rs).readP u p = s.readP u p := by
  unfold State.release
  induction rs generalizing s with
  | nil => rfl
  | cons r rs ih =>
    rw [List.foldl_cons, ih]
    split
    · rfl
    · exact State.readP_modTroop _ _ _ _ (fun x => x.releaseName_threads _ _) _ _

theorem Troop.Under.release (x : Troop) {rel : List VReg} {r : VReg} (h : r ∈ rel) (l : Nat) :
    Troop.Under rel x (x.releaseName r l) :=
  ⟨x.names_releaseName r l, fun q hq => x.name?_releaseName r q l fun he => hq (he ▸ h), by rw [x.releaseName_threads]⟩

/-- A troop after releases. -/
theorem State.troop_release (s : State) (t : Tid) (rel rs : List VReg) (hrs : ∀ r ∈ rs, r ∈ rel) (b u : Nat) (x : Troop)
    (h : s.troop? b u = some x) : ∃ y, (s.release t rs).troop? b u = some y ∧ Troop.Under rel x y := by
  unfold State.release
  induction rs generalizing s x with
  | nil => exact ⟨x, h, .refl rel x⟩
  | cons r rs ih =>
    have ih := fun s => ih s fun q hq => hrs q (by simp [hq])
    rw [List.foldl_cons]
    split
    · exact ih s x h
    · by_cases hbu : b = t.band ∧ u = t.troop
      · obtain ⟨y, hy, hu⟩ := ih (s.modTroop t.band t.troop fun x => x.releaseName r t.lane) (x.releaseName r t.lane)
          (by rw [State.troop?_modTroop, if_pos hbu, h]; rfl)
        exact ⟨y, hy, (Troop.Under.release x (hrs r (by simp)) t.lane).trans hu⟩
      · exact ih _ x (by rw [State.troop?_modTroop, if_neg hbu, h])

end Sys2Proof.Machine
end

