-- ==== Sys2Proof/Laws/RegInstr.lean ====
section
/-! SUPPORT. What the issue of a register instruction does to a whole bundle: the spec lemma of `State.regInstr` (R64, R66,
R90, R96, R98, R132). -/

namespace Sys2Proof.Machine

/-! ### The writes of one thread -/

theorem mem_writtenRegs (ws : List RegWrite) (r : VReg) : r ∈ writtenRegs ws ↔ ∃ x, RegWrite.v r x ∈ ws := by
  unfold writtenRegs
  rw [List.mem_filterMap]
  constructor
  · rintro ⟨w, hw, he⟩
    cases w with
    | v q x => simp only [Option.some.injEq] at he; subst he; exact ⟨x, hw⟩
    | p q b => simp at he
  · rintro ⟨x, hx⟩; exact ⟨_, hx, rfl⟩

/-- The writes of one thread name no register twice with different values. -/
def Consistent (ws : List RegWrite) : Prop :=
  (∀ r x y, RegWrite.v r x ∈ ws → RegWrite.v r y ∈ ws → x = y) ∧ ∀ r x y, RegWrite.p r x ∈ ws → RegWrite.p r y ∈ ws → x = y

theorem Consistent.tail {w : RegWrite} {ws : List RegWrite} (h : Consistent (w :: ws)) : Consistent ws :=
  ⟨fun r x y hx hy => h.1 r x y (by simp [hx]) (by simp [hy]), fun r x y hx hy => h.2 r x y (by simp [hx]) (by simp [hy])⟩

theorem State.writeRegs_cons (s : State) (t : Tid) (w : RegWrite) (ws : List RegWrite) :
    s.writeRegs t (w :: ws) = (match w with | .v r x => s.writeV t r x | .p r b => s.writeP t r b).writeRegs t ws := by
  cases w <;> rfl

/-- The thread can be written: it exists, and so do its slots. -/
structure Writable (s : State) (t : Tid) : Prop where
  thread : (s.thread? t).isSome = true
  slots : ∀ r c i, s.slotFor t r = some (c, i) → (s.slot? c i).isSome = true

theorem Writable.mono {s u : State} {t : Tid} (h : Writable s t) (k : SameShape s u) : Writable u t :=
  ⟨by rw [k.thread_isSome]; exact h.thread,
   fun r c i e => by rw [k.slot_isSome]; rw [k.slotFor] at e; exact h.slots r c i e⟩

theorem State.step_shape (s : State) (t : Tid) (w : RegWrite) :
    SameShape s (match w with | .v r x => s.writeV t r x | .p r b => s.writeP t r b) := by
  cases w with
  | v r x => exact s.writeV_shape t r x
  | p r b => exact s.writeP_shape t r b

theorem State.troopLane_writeRegs_kept (s : State) (t : Tid) (ws : List RegWrite) (b u l : Nat) (q : VReg)
    (hw : Writable s t) (h : ¬ (s.slotFor t q = none ∧ q ∈ writtenRegs ws ∧ (⟨b, u, l⟩ : Tid) = t)) :
    (s.writeRegs t ws).troopLane b u l q = s.troopLane b u l q := by
  induction ws generalizing s with
  | nil => rfl
  | cons w ws ih =>
    rw [State.writeRegs_cons, ih _ (hw.mono (s.step_shape t w))]
    · cases w with
      | v r x =>
        rw [State.troopLane_writeV _ _ _ _ _ _ _ _ hw.thread, if_neg]
        rintro ⟨h1, h2, h3⟩
        subst h2
        exact h ⟨h1, (mem_writtenRegs _ _).2 ⟨x, by simp⟩, h3⟩
      | p r b => exact State.troopLane_writeP _ _ _ _ _ _ _ _
    · rw [(s.step_shape t w).slotFor]
      rintro ⟨h1, h2, h3⟩
      obtain ⟨x, hx⟩ := (mem_writtenRegs _ _).1 h2
      exact h ⟨h1, (mem_writtenRegs _ _).2 ⟨x, by simp [hx]⟩, h3⟩

theorem State.slotLane_writeRegs_kept (s : State) (t : Tid) (ws : List RegWrite) (c i k l : Nat) (hw : Writable s t)
    (h : ∀ r, s.slotFor t r = some (c, i) → r ∈ writtenRegs ws → r.val = 48 + k → t.lane ≠ l) :
    (s.writeRegs t ws).slotLane c i k l = s.slotLane c i k l := by
  induction ws generalizing s with
  | nil => rfl
  | cons w ws ih =>
    rw [State.writeRegs_cons, ih _ (hw.mono (s.step_shape t w))]
    · cases w with
      | v r x =>
        change (s.writeV t r x).slotLane c i k l = _
        rw [State.slotLane_writeV _ _ _ _ _ _ _ _ (hw.slots r), if_neg]
        rintro ⟨h1, h2, h3⟩
        have hr : 48 ≤ r.val := by
          unfold State.slotFor at h1
          split at h1
          · simp at h1
          · omega
        exact h r h1 ((mem_writtenRegs _ _).2 ⟨x, by simp⟩) (by omega) h3.symm
      | p r b => rfl
    · intro r h1 h2 h3
      rw [(s.step_shape t w).slotFor] at h1
      obtain ⟨x, hx⟩ := (mem_writtenRegs _ _).1 h2
      exact h r h1 ((mem_writtenRegs _ _).2 ⟨x, by simp [hx]⟩) h3

theorem State.readP_writeRegs_kept (s : State) (t : Tid) (ws : List RegWrite) (u : Tid) (q : PReg)
    (hw : Writable s t) (h : u = t → ∀ x, RegWrite.p q x ∉ ws) : (s.writeRegs t ws).readP u q = s.readP u q := by
  induction ws generalizing s with
  | nil => rfl
  | cons w ws ih =>
    rw [State.writeRegs_cons, ih _ (hw.mono (s.step_shape t w)) fun hu x hx => h hu x (by simp [hx])]
    cases w with
    | v r x => exact State.readP_writeV _ _ _ _ _ _
    | p r b =>
      change (s.writeP t r b).readP u q = _
      rw [State.readP_writeP _ _ _ _ _ _ hw.thread, if_neg]
      rintro ⟨h1, rfl⟩
      exact h h1 b (by simp)

theorem State.slotFor_ge (s : State) (t : Tid) (r : VReg) (c i : Nat) (h : s.slotFor t r = some (c, i)) : 48 ≤ r.val := by
  unfold State.slotFor at h
  split at h
  · simp at h
  · omega

/-- A register written reads as written, for the thread that wrote it. -/
theorem State.readV_writeRegs (s : State) (t : Tid) (ws : List RegWrite) (hw : Writable s t) (hc : Consistent ws) (q : VReg)
    (x : Word) (h : RegWrite.v q x ∈ ws) : (s.writeRegs t ws).readV t q = x := by
  induction ws generalizing s with
  | nil => simp at h
  | cons w ws ih =>
    have hs := s.step_shape t w
    rw [State.writeRegs_cons]
    by_cases hq : ∃ y, RegWrite.v q y ∈ ws
    · obtain ⟨y, hy⟩ := hq
      have : x = y := hc.1 q x y h (by simp [hy])
      subst this
      exact ih _ (hw.mono hs) hc.tail hy
    · have hwq : w = .v q x := by
        rcases List.mem_cons.1 h with h | h
        · exact h.symm
        · exact absurd ⟨x, h⟩ hq
      subst hwq
      have hn : q ∉ writtenRegs ws := fun h' => hq ((mem_writtenRegs _ _).1 h')
      change ((s.writeV t q x).writeRegs t ws).readV t q = x
      have hs' := s.writeV_shape t q x
      cases hf : s.slotFor t q with
      | none =>
        have hf' : ((s.writeV t q x).writeRegs t ws).slotFor t q = none := by
          rw [((s.writeV t q x).writeRegs_shape t ws).slotFor, hs'.slotFor, hf]
        rw [State.readV_of_name _ _ _ hf', State.troopLane_writeRegs_kept _ _ _ _ _ _ _ (hw.mono hs') (fun h' => hn h'.2.1),
          State.troopLane_writeV _ _ _ _ _ _ _ _ hw.thread, if_pos ⟨hf, rfl, rfl⟩]
      | some e =>
        obtain ⟨c, i⟩ := e
        have hf' : ((s.writeV t q x).writeRegs t ws).slotFor t q = some (c, i) := by
          rw [((s.writeV t q x).writeRegs_shape t ws).slotFor, hs'.slotFor, hf]
        have hge := s.slotFor_ge t q c i hf
        rw [State.readV_of_slot _ _ _ _ _ hf', State.slotLane_writeRegs_kept _ _ _ _ _ _ _ (hw.mono hs'),
          State.slotLane_writeV _ _ _ _ _ _ _ _ (hw.slots q), if_pos ⟨hf, rfl, rfl⟩]
        intro r _ h2 h3
        have : r = q := Fin.ext (by omega)
        subst this
        exact absurd h2 hn

theorem State.readP_writeRegs (s : State) (t : Tid) (ws : List RegWrite) (hw : Writable s t) (hc : Consistent ws) (q : PReg)
    (x : Bool) (h : RegWrite.p q x ∈ ws) : (s.writeRegs t ws).readP t q = x := by
  induction ws generalizing s with
  | nil => simp at h
  | cons w ws ih =>
    have hs := s.step_shape t w
    rw [State.writeRegs_cons]
    by_cases hq : ∃ y, RegWrite.p q y ∈ ws
    · obtain ⟨y, hy⟩ := hq
      have : x = y := hc.2 q x y h (by simp [hy])
      subst this
      exact ih _ (hw.mono hs) hc.tail hy
    · have hwq : w = .p q x := by
        rcases List.mem_cons.1 h with h | h
        · exact h.symm
        · exact absurd ⟨x, h⟩ hq
      subst hwq
      rw [State.readP_writeRegs_kept _ _ _ _ _ (hw.mono hs) fun _ y hy => hq ⟨y, hy⟩]
      change (s.writeP t q x).readP t q = x
      rw [State.readP_writeP _ _ _ _ _ _ hw.thread, if_pos ⟨rfl, rfl⟩]

theorem State.troop?_writeRegs_ne (s : State) (t : Tid) (ws : List RegWrite) (b u : Nat) (h : ¬ (b = t.band ∧ u = t.troop)) :
    (s.writeRegs t ws).troop? b u = s.troop? b u := by
  induction ws generalizing s with
  | nil => rfl
  | cons w ws ih =>
    rw [State.writeRegs_cons, ih]
    cases w with
    | v r x =>
      change (s.writeV t r x).troop? b u = _
      unfold State.writeV
      split
      · rfl
      · rw [State.troop?_modTroop, if_neg h]
    | p r x =>
      change (s.writeP t r x).troop? b u = _
      unfold State.writeP State.modThread
      rw [State.troop?_modTroop, if_neg h]

/-! ### The writes of several threads -/

/-- The writes of a list of threads, in order. -/
def State.writeAll (s : State) (f : Tid → List RegWrite) (ts : List Tid) : State := ts.foldl (fun s t => s.writeRegs t (f t)) s

theorem State.writeAll_shape (s : State) (f : Tid → List RegWrite) (ts : List Tid) : SameShape s (s.writeAll f ts) := by
  unfold State.writeAll
  induction ts generalizing s with
  | nil => exact .refl s
  | cons t ts ih => exact .trans (s.writeRegs_shape t (f t)) (ih _)

theorem State.troopLane_writeAll_kept (s : State) (f : Tid → List RegWrite) (ts : List Tid) (b u l : Nat) (q : VReg)
    (hw : ∀ t ∈ ts, Writable s t)
    (h : ∀ t ∈ ts, ¬ (s.slotFor t q = none ∧ q ∈ writtenRegs (f t) ∧ (⟨b, u, l⟩ : Tid) = t)) :
    (s.writeAll f ts).troopLane b u l q = s.troopLane b u l q := by
  unfold State.writeAll
  induction ts generalizing s with
  | nil => rfl
  | cons t ts ih =>
    have hs := s.writeRegs_shape t (f t)
    rw [List.foldl_cons, ih]
    · exact State.troopLane_writeRegs_kept _ _ _ _ _ _ _ (hw t (by simp)) (h t (by simp))
    · exact fun u hu => (hw u (by simp [hu])).mono hs
    · intro u hu; rw [hs.slotFor]; exact h u (by simp [hu])

theorem State.slotLane_writeAll_kept (s : State) (f : Tid → List RegWrite) (ts : List Tid) (c i k l : Nat)
    (hw : ∀ t ∈ ts, Writable s t)
    (h : ∀ t ∈ ts, ∀ r, s.slotFor t r = some (c, i) → r ∈ writtenRegs (f t) → r.val = 48 + k → t.lane ≠ l) :
    (s.writeAll f ts).slotLane c i k l = s.slotLane c i k l := by
  unfold State.writeAll
  induction ts generalizing s with
  | nil => rfl
  | cons t ts ih =>
    have hs := s.writeRegs_shape t (f t)
    rw [List.foldl_cons, ih]
    · exact State.slotLane_writeRegs_kept _ _ _ _ _ _ _ (hw t (by simp)) (h t (by simp))
    · exact fun u hu => (hw u (by simp [hu])).mono hs
    · intro u hu r; rw [hs.slotFor]; exact h u (by simp [hu]) r

theorem State.readP_writeAll_kept (s : State) (f : Tid → List RegWrite) (ts : List Tid) (u : Tid) (q : PReg)
    (hw : ∀ t ∈ ts, Writable s t) (h : u ∈ ts → ∀ x, RegWrite.p q x ∉ f u) : (s.writeAll f ts).readP u q = s.readP u q := by
  unfold State.writeAll
  induction ts generalizing s with
  | nil => rfl
  | cons t ts ih =>
    have hs := s.writeRegs_shape t (f t)
    rw [List.foldl_cons, ih]
    · exact State.readP_writeRegs_kept _ _ _ _ _ (hw t (by simp)) fun hu => by subst hu; exact h (by simp)
    · exact fun u hu => (hw u (by simp [hu])).mono hs
    · exact fun hu => h (by simp [hu])

theorem State.troop?_writeAll_ne (s : State) (f : Tid → List RegWrite) (ts : List Tid) (b u : Nat)
    (h : ∀ t ∈ ts, ¬ (b = t.band ∧ u = t.troop)) : (s.writeAll f ts).troop? b u = s.troop? b u := by
  unfold State.writeAll
  induction ts generalizing s with
  | nil => rfl
  | cons t ts ih =>
    rw [List.foldl_cons, ih _ fun u hu => h u (by simp [hu])]
    exact State.troop?_writeRegs_ne _ _ _ _ _ (h t (by simp))

/-- Each of several threads of distinct lanes reads what it wrote. -/
theorem State.readV_writeAll (s : State) (f : Tid → List RegWrite) (ts : List Tid) (hl : (ts.map (·.lane)).Nodup)
    (hw : ∀ t ∈ ts, Writable s t) (hc : ∀ t ∈ ts, Consistent (f t)) (t : Tid) (ht : t ∈ ts) (q : VReg) (x : Word)
    (h : RegWrite.v q x ∈ f t) : (s.writeAll f ts).readV t q = x := by
  unfold State.writeAll
  induction ts generalizing s with
  | nil => simp at ht
  | cons u ts ih =>
    have hs := s.writeRegs_shape u (f u)
    rw [List.map_cons, List.nodup_cons] at hl
    rw [List.foldl_cons]
    have hw' : ∀ t ∈ ts, Writable (s.writeRegs u (f u)) t := fun v hv => (hw v (by simp [hv])).mono hs
    by_cases hin : t ∈ ts
    · exact ih _ hl.2 hw' (fun v hv => hc v (by simp [hv])) hin
    · have htu : t = u := by
        rcases List.mem_cons.1 ht with h | h
        · exact h
        · exact absurd h hin
      subst htu
      have hout : ∀ v ∈ ts, v.lane ≠ t.lane := fun v hv he => hl.1 (List.mem_map.2 ⟨v, hv, he⟩)
      have hone := State.readV_writeRegs s t (f t) (hw t (by simp)) (hc t (by simp)) q x h
      have hsh := (s.writeRegs t (f t)).writeAll_shape f ts
      change ((s.writeRegs t (f t)).writeAll f ts).readV t q = x
      cases hf : (s.writeRegs t (f t)).slotFor t q with
      | none =>
        rw [State.readV_of_name _ _ _ (by rw [hsh.slotFor, hf]), State.troopLane_writeAll_kept _ _ _ _ _ _ _ hw',
          ← State.readV_of_name _ _ _ hf, hone]
        intro v hv h'
        exact hout v hv (by rw [← h'.2.2])
      | some e =>
        obtain ⟨c, i⟩ := e
        rw [State.readV_of_slot _ _ _ _ _ (by rw [hsh.slotFor]; exact hf), State.slotLane_writeAll_kept _ _ _ _ _ _ _ hw',
          ← State.readV_of_slot _ _ _ _ _ hf, hone]
        intro v hv r _ _ _
        exact hout v hv

theorem State.readP_writeAll (s : State) (f : Tid → List RegWrite) (ts : List Tid) (hl : (ts.map (·.lane)).Nodup)
    (hw : ∀ t ∈ ts, Writable s t) (hc : ∀ t ∈ ts, Consistent (f t)) (t : Tid) (ht : t ∈ ts) (q : PReg) (x : Bool)
    (h : RegWrite.p q x ∈ f t) : (s.writeAll f ts).readP t q = x := by
  unfold State.writeAll
  induction ts generalizing s with
  | nil => simp at ht
  | cons u ts ih =>
    have hs := s.writeRegs_shape u (f u)
    rw [List.map_cons, List.nodup_cons] at hl
    rw [List.foldl_cons]
    have hw' : ∀ t ∈ ts, Writable (s.writeRegs u (f u)) t := fun v hv => (hw v (by simp [hv])).mono hs
    by_cases hin : t ∈ ts
    · exact ih _ hl.2 hw' (fun v hv => hc v (by simp [hv])) hin
    · have htu : t = u := by
        rcases List.mem_cons.1 ht with h | h
        · exact h
        · exact absurd h hin
      subst htu
      change ((s.writeRegs t (f t)).writeAll f ts).readP t q = x
      rw [State.readP_writeAll_kept _ _ _ _ _ hw' fun h' => absurd h' hin]
      exact State.readP_writeRegs s t (f t) (hw t (by simp)) (hc t (by simp)) q x h

/-! ### The releases of several threads -/

/-- The last-read releases of a list of threads. -/
def State.releaseAll (s : State) (rel : List VReg) (ts : List Tid) : State := ts.foldl (fun s t => s.release t rel) s

theorem State.releaseAll_shape (s : State) (rel : List VReg) (ts : List Tid) : SameShape s (s.releaseAll rel ts) := by
  unfold State.releaseAll
  induction ts generalizing s with
  | nil => exact .refl s
  | cons t ts ih => exact .trans (s.release_shape t rel) (ih _)

theorem State.troopLane_releaseAll (s : State) (rel : List VReg) (ts : List Tid) (b u l : Nat) (q : VReg)
    (h : q ∉ rel ∨ ∀ t ∈ ts, ¬ (b = t.band ∧ u = t.troop)) :
    (s.releaseAll rel ts).troopLane b u l q = s.troopLane b u l q := by
  unfold State.releaseAll
  induction ts generalizing s with
  | nil => rfl
  | cons t ts ih =>
    rw [List.foldl_cons, ih]
    · apply State.troopLane_release
      rcases h with h | h
      · exact Or.inl h
      · exact Or.inr (h t (by simp))
    · rcases h with h | h
      · exact Or.inl h
      · exact Or.inr fun u hu => h u (by simp [hu])

theorem State.slotLane_releaseAll (s : State) (rel : List VReg) (ts : List Tid) (c i k l : Nat) :
    (s.releaseAll rel ts).slotLane c i k l = s.slotLane c i k l := by
  unfold State.releaseAll
  induction ts generalizing s with
  | nil => rfl
  | cons t ts ih => rw [List.foldl_cons, ih, State.slotLane_release]

theorem State.readP_releaseAll (s : State) (rel : List VReg) (ts : List Tid) (u : Tid) (p : PReg) :
    (s.releaseAll rel ts).readP u p = s.readP u p := by
  unfold State.releaseAll
  induction ts generalizing s with
  | nil => rfl
  | cons t ts ih => rw [List.foldl_cons, ih, State.readP_release]

theorem State.troop_releaseAll (s : State) (rel : List VReg) (ts : List Tid) (b u : Nat) (x : Troop)
    (h : s.troop? b u = some x) : ∃ y, (s.releaseAll rel ts).troop? b u = some y ∧ Troop.Under rel x y := by
  unfold State.releaseAll
  induction ts generalizing s x with
  | nil => exact ⟨x, h, .refl rel x⟩
  | cons t ts ih =>
    obtain ⟨y, hy, hu⟩ := s.troop_release t rel rel (fun _ h => h) b u x h
    obtain ⟨z, hz, hu'⟩ := ih _ y hy
    exact ⟨z, hz, hu.trans hu'⟩

/-! ### Room -/

theorem nodup_eraseDups {α : Type} [BEq α] [LawfulBEq α] (l : List α) : l.eraseDups.Nodup := by
  generalize hn : l.length = n
  induction n using Nat.strongRecOn generalizing l with
  | _ n ih =>
    cases l with
    | nil => simp
    | cons a r =>
      rw [List.eraseDups_cons, List.nodup_cons]
      refine ⟨fun h => ?_, ih _ ?_ _ rfl⟩
      · simpa using (List.mem_filter.1 (List.mem_eraseDups.1 h)).2
      · have := List.length_filter_le (fun b => !b == a) r
        simp only [List.length_cons] at hn
        omega

theorem length_eraseDups_le {α : Type} [BEq α] [LawfulBEq α] (l k : List α) (h : ∀ x ∈ l, x ∈ k) :
    l.eraseDups.length ≤ k.eraseDups.length := by
  have h1 : l.eraseDups.Nodup := nodup_eraseDups l
  have h2 : l.eraseDups ⊆ k.eraseDups := fun x hx => List.mem_eraseDups.2 (h x (List.mem_eraseDups.1 hx))
  exact (List.subperm_of_subset h1 h2).length_le

theorem SameShape.fp {s u : State} (h : SameShape s u) (b : Nat) (x : Band) (hx : u.band? b = some x) :
    ∃ y, s.band? b = some y ∧ y.fp = x.fp ∧ y.troops.length = x.troops.length := by
  have := h.band b
  rw [hx] at this
  cases hy : s.band? b with
  | none => simp [hy] at this
  | some y =>
    rw [hy] at this
    simp only [Option.map_some, Option.some.injEq] at this
    refine ⟨y, rfl, ?_, ?_⟩
    · have h' : x.bare.fp = y.bare.fp := by rw [this]
      exact h'.symm
    · have h' : x.bare.troops.length = y.bare.troops.length := by rw [this]
      simpa [Band.bare] using h'.symm

/-- The statuses of a troop's threads give what its waits are owed. -/
theorem owed_waits (b t : Nat) (tag : Tid → List VReg → List (Tid × VReg)) (x y : List Thread)
    (h : y.map (·.status) = x.map (·.status)) :
    (y.zipIdx.map fun e => match e.1.status with
      | .waiting w => tag ⟨b, t, e.2⟩ w.dests
      | _ => []) = x.zipIdx.map fun e => match e.1.status with
      | .waiting w => tag ⟨b, t, e.2⟩ w.dests
      | _ => [] := by
  have key : ∀ l : List Thread, (l.zipIdx.map fun e => match e.1.status with
      | .waiting w => tag ⟨b, t, e.2⟩ w.dests
      | _ => []) = (l.map (·.status)).zipIdx.map fun e => match e.1 with
      | .waiting w => tag ⟨b, t, e.2⟩ w.dests
      | _ => [] := by
    intro l
    rw [List.zipIdx_map, List.map_map]
    rfl
  rw [key, key, h]

/-- Register traffic leaves what a troop is owed (R66). -/
theorem State.owed_eq {s u : State} (hsh : SameShape s u) (b t : Nat) {rel : List VReg} {x y : Troop}
    (hx : s.troop? b t = some x) (hy : u.troop? b t = some y) (hu : Troop.Under rel x y) : u.owed b t = s.owed b t := by
  have hr := hsh.rest
  have h1 : u.pending = s.pending := by rw [hr]
  have h2 : u.cores = s.cores := by rw [hr]
  have h3 : u.sleepers = s.sleepers := by rw [hr]
  simp only [State.owed, h1, h2, h3, hx, hy, Option.map_some, Option.getD_some]
  congr 2
  exact owed_waits b t (fun u rs => if (u.band == b && u.troop == t) = true then rs.map fun r => (u, r) else []) _ _ hu.statuses

/-- After releases a troop counts no name that it did not count, and every name not released counts as it did (R66). -/
theorem State.counted_under {s u : State} (hsh : SameShape s u) (b t : Nat) {rel : List VReg} {x y : Troop}
    (hx : s.troop? b t = some x) (hy : u.troop? b t = some y) (hu : Troop.Under rel x y) :
    u.counted b t y ≤ s.counted b t x ∧
      ∀ q : VReg, q ∉ rel → (q.val ∈ u.countedNames b t y ↔ q.val ∈ s.countedNames b t x) := by
  have ho := State.owed_eq hsh b t hx hy hu
  have hs : (fun e : Tid × VReg => (u.slotFor e.1 e.2).isNone) = fun e => (s.slotFor e.1 e.2).isNone := by
    funext e; rw [hsh.slotFor]
  constructor
  · unfold State.counted State.countedNames
    apply length_eraseDups_le
    intro k hk
    rw [ho, hs] at hk
    simp only [List.mem_append] at hk ⊢
    exact hk.imp_left (hu.names k)
  · intro q hq
    unfold State.countedNames
    rw [ho, hs, List.mem_eraseDups, List.mem_eraseDups, List.mem_append, List.mem_append, y.mem_names, x.mem_names,
      hu.same q hq]

/-- Where a troop has room for what its threads need, its allocation succeeds, after any releases (R66). -/
theorem State.alloc_ok (s u : State) (ts : List Tid) (dests rel : List VReg) (f : Tid → List RegWrite) (b t : Nat)
    (hsh : SameShape s u) (hts : ∀ v ∈ ts, v.band = b ∧ v.troop = t) (hd : ∀ v ∈ ts, ∀ r ∈ writtenRegs (f v), r ∈ dests)
    (hroom : s.hasRoom b t ts dests rel)
    (hu : ∀ x, s.troop? b t = some x → ∃ y, u.troop? b t = some y ∧ Troop.Under rel x y) :
    u.alloc b t ((ts.map fun v => u.needs v (writtenRegs (f v))).flatten).eraseDups.length = .ok := by
  have hle : ((ts.map fun v => u.needs v (writtenRegs (f v))).flatten).eraseDups.length ≤ (s.freshNames ts dests rel).length := by
    apply length_eraseDups_le
    intro r hr
    simp only [List.mem_flatten, List.mem_map] at hr ⊢
    obtain ⟨l, ⟨v, hv, rfl⟩, hr⟩ := hr
    refine ⟨_, ⟨v, hv, rfl⟩, ?_⟩
    simp only [State.needs, List.mem_filter, Bool.and_eq_true] at hr
    obtain ⟨hr1, hr2, hr3⟩ := hr
    rw [hsh.slotFor] at hr2
    simp only [List.mem_filter, Bool.and_eq_true, Bool.or_eq_true, List.contains_iff_mem]
    refine ⟨hd v hv r hr1, hr2, ?_⟩
    by_cases hrel : r ∈ rel
    · exact Or.inl hrel
    · right
      obtain ⟨hb, ht⟩ := hts v hv
      rw [hb, ht] at hr3 ⊢
      cases hx : s.troop? b t with
      | none =>
        have := hsh.troop b t
        rw [hx] at this
        cases hy : u.troop? b t with
        | none => simp [hy] at hr3
        | some y => simp [hy] at this
      | some x =>
        obtain ⟨y, hy, hn⟩ := hu x hx
        have hc := (State.counted_under hsh b t hx hy hn).2 r hrel
        simp only [hy, Bool.not_eq_true', List.contains_eq_mem, decide_eq_false_iff_not] at hr3 ⊢
        exact fun h => hr3 (hc.2 h)
  unfold State.alloc
  split
  · rfl
  · next x hx =>
    split
    · rfl
    · next tr htr =>
      split
      · rfl
      · next hne =>
        rcases hroom with h0 | hroom
        · omega
        · obtain ⟨y, hy, hfp, hlen⟩ := hsh.fp b x hx
          have hut : u.troop? b t = some tr := by simp only [State.troop?, hx, Option.bind_some, htr]
          have : ∃ z, y.troops[t]? = some z := by
            have hlt := (List.getElem?_eq_some_iff.1 htr).1
            exact ⟨y.troops[t]'(by omega), List.getElem?_eq_getElem _⟩
          obtain ⟨z, hz⟩ := this
          have hst : s.troop? b t = some z := by simp only [State.troop?, hy, Option.bind_some, hz]
          obtain ⟨w, hw, hun⟩ := hu z hst
          have hlive := (State.counted_under hsh b t hst hw hun).1
          rw [hut, Option.some.injEq] at hw
          subst hw
          obtain ⟨h1, h2⟩ := hroom y hy z hz
          rw [hfp] at h1 h2
          rw [if_neg (by omega)]
          simp only
          rw [if_neg]
          rintro ⟨h3, -⟩
          omega

end Sys2Proof.Machine
end

