-- ==== Sys2Proof/Laws/RegIssue.lean ====
section
/-! SUPPORT. The spec lemma of `State.regInstr`: an issue without obstacle completes and leaves what `RegDone` says. -/

namespace Sys2Proof.Machine

/-- What stands after the writes of the troops in `K`. -/
structure Mid (s u : State) (b : Bundle) (m : Mods) (rel : List VReg) (w : Tid → List RegWrite) (K : List (Nat × Nat)) :
    Prop where
  shape : SameShape s u
  regs : ∀ t, b.acts s m t → (t.band, t.troop) ∈ K → ∀ r x, RegWrite.v r x ∈ w t → u.readV t r = x
  preds : ∀ t, b.acts s m t → (t.band, t.troop) ∈ K → ∀ r x, RegWrite.p r x ∈ w t → u.readP t r = x
  keptRegs : ∀ t r, r ∉ rel → ¬ (b.acts s m t ∧ (t.band, t.troop) ∈ K ∧ r ∈ writtenRegs (w t) ∧ s.slotFor t r = none) →
    u.troopLane t.band t.troop t.lane r = s.troopLane t.band t.troop t.lane r
  keptSlots : ∀ c i k l, (∀ t r, b.acts s m t → (t.band, t.troop) ∈ K → r ∈ writtenRegs (w t) → s.slotFor t r = some (c, i) →
    r.val = 48 + k → t.lane ≠ l) → u.slotLane c i k l = s.slotLane c i k l
  keptPreds : ∀ t r, (b.acts s m t → (t.band, t.troop) ∈ K → ∀ x, RegWrite.p r x ∉ w t) → u.readP t r = s.readP t r
  room : ∀ b' t', (b', t') ∉ K → ∀ x, s.troop? b' t' = some x →
    ∃ y, u.troop? b' t' = some y ∧ Troop.Under rel x y

/-- The threads of a bundle that act in one troop. -/
def Bundle.actors (b : Bundle) (s : State) (m : Mods) (k : Nat × Nat) : List Tid :=
  (b.threads.filter fun t => s.view.guardTrue m t).filter fun t => t.band == k.1 && t.troop == k.2

theorem Bundle.mem_actors (b : Bundle) (s : State) (m : Mods) (k : Nat × Nat) (t : Tid) :
    t ∈ b.actors s m k ↔ b.acts s m t ∧ (t.band, t.troop) = k := by
  obtain ⟨k1, k2⟩ := k
  simp only [Bundle.actors, List.mem_filter, Bundle.acts, Bool.and_eq_true, beq_iff_eq, Prod.mk.injEq]

theorem Mid.step {s u : State} {b : Bundle} {m : Mods} {srcs dests rel : List VReg} {w : Tid → List RegWrite}
    {K : List (Nat × Nat)} (hi : Issues s b m srcs dests rel) (hd : ∀ t, ∀ r ∈ writtenRegs (w t), r ∈ dests)
    (hc : ∀ t, Consistent (w t)) (h : Mid s u b m rel w K) (k : Nat × Nat) (hk : k ∉ K) (hne : b.actors s m k ≠ []) :
    (u.releaseAll rel (b.actors s m k)).alloc k.1 k.2
      (((b.actors s m k).map fun t => (u.releaseAll rel (b.actors s m k)).needs t (writtenRegs (w t))).flatten).eraseDups.length = .ok ∧
    Mid s ((u.releaseAll rel (b.actors s m k)).writeAll w (b.actors s m k)) b m rel w (k :: K) := by
  obtain ⟨k1, k2⟩ := k
  generalize hts : b.actors s m (k1, k2) = ts at hne ⊢
  have hmem : ∀ t, t ∈ ts ↔ b.acts s m t ∧ (t.band, t.troop) = (k1, k2) := fun t => by rw [← hts]; exact b.mem_actors s m _ t
  have hact : ∀ t ∈ ts, b.acts s m t := fun t ht => ((hmem t).1 ht).1
  have hkey : ∀ t ∈ ts, t.band = k1 ∧ t.troop = k2 := fun t ht => by simpa using ((hmem t).1 ht).2
  have hsub : ts.Sublist b.threads := by
    rw [← hts]; exact (List.filter_sublist).trans List.filter_sublist
  have hlanes : (ts.map (·.lane)).Nodup := hi.lanes.sublist (hsub.map _)
  have hsh1 := u.releaseAll_shape rel ts
  have hsh2 := (u.releaseAll rel ts).writeAll_shape w ts
  have hsu1 := h.shape.trans hsh1
  have hwr : ∀ t ∈ b.threads, Writable s t := fun t ht => ⟨hi.threads t ht, hi.slots t ht⟩
  have hwr1 : ∀ t ∈ ts, Writable (u.releaseAll rel ts) t := fun t ht => (hwr t (hact t ht).1).mono hsu1
  have hroom1 : ∀ x, s.troop? k1 k2 = some x → ∃ y, (u.releaseAll rel ts).troop? k1 k2 = some y ∧ Troop.Under rel x y := by
    intro x hx
    obtain ⟨y, hy, hn⟩ := h.room k1 k2 hk x hx
    obtain ⟨z, hz, hn'⟩ := u.troop_releaseAll rel ts k1 k2 y hy
    exact ⟨z, hz, hn.trans hn'⟩
  constructor
  · obtain ⟨t0, ht0⟩ := List.exists_mem_of_ne_nil ts hne
    have hr := hi.room t0 (hact t0 ht0).1
    have he : (b.threads.filter fun u => u.band == t0.band && u.troop == t0.troop && s.view.guardTrue m u) = ts := by
      rw [← hts, Bundle.actors, List.filter_filter]
      obtain ⟨h1, h2⟩ := hkey t0 ht0
      rw [h1, h2]
    rw [he, (hkey t0 ht0).1, (hkey t0 ht0).2] at hr
    exact State.alloc_ok s _ ts dests rel w k1 k2 hsu1 hkey (fun v _ => hd v) hr hroom1
  · refine ⟨hsu1.trans hsh2, ?_, ?_, ?_, ?_, ?_, ?_⟩
    · intro t hta htk r x hx
      by_cases hin : t ∈ ts
      · exact State.readV_writeAll _ w ts hlanes hwr1 (fun v _ => hc v) t hin r x hx
      · have hne' : ¬ (t.band = k1 ∧ t.troop = k2) := fun h' => hin ((hmem t).2 ⟨hta, by simp [h'.1, h'.2]⟩)
        have htK : (t.band, t.troop) ∈ K := by
          rcases List.mem_cons.1 htk with h' | h'
          · exact absurd (by simpa using h') hne'
          · exact h'
        have hold := h.regs t hta htK r x hx
        have hout : ∀ v ∈ ts, v.lane ≠ t.lane := by
          intro v hv he
          have hv' := (hact v hv).1
          have := List.inj_on_of_nodup_map hi.lanes hv' hta.1 he
          exact hin (this ▸ hv)
        cases hf : s.slotFor t r with
        | none =>
          rw [State.readV_of_name _ _ _ (by rw [h.shape.slotFor, hf])] at hold
          rw [State.readV_of_name _ _ _ (by rw [hsh2.slotFor, hsu1.slotFor, hf]),
            State.troopLane_writeAll_kept _ _ _ _ _ _ _ hwr1, State.troopLane_releaseAll, hold]
          · exact Or.inr fun v hv he => hne' ⟨he.1.trans (hkey v hv).1, he.2.trans (hkey v hv).2⟩
          · intro v hv h'
            exact hout v hv (by rw [← h'.2.2])
        | some e =>
          obtain ⟨c, i⟩ := e
          rw [State.readV_of_slot _ _ _ c i (by rw [h.shape.slotFor, hf])] at hold
          rw [State.readV_of_slot _ _ _ c i (by rw [hsh2.slotFor, hsu1.slotFor, hf]),
            State.slotLane_writeAll_kept _ _ _ _ _ _ _ hwr1, State.slotLane_releaseAll, hold]
          intro v hv q _ _ _
          exact hout v hv
    · intro t hta htk r x hx
      by_cases hin : t ∈ ts
      · exact State.readP_writeAll _ w ts hlanes hwr1 (fun v _ => hc v) t hin r x hx
      · have hne' : ¬ (t.band = k1 ∧ t.troop = k2) := fun h' => hin ((hmem t).2 ⟨hta, by simp [h'.1, h'.2]⟩)
        have htK : (t.band, t.troop) ∈ K := by
          rcases List.mem_cons.1 htk with h' | h'
          · exact absurd (by simpa using h') hne'
          · exact h'
        rw [State.readP_writeAll_kept _ _ _ _ _ hwr1 fun h' => absurd h' hin, State.readP_releaseAll]
        exact h.preds t hta htK r x hx
    · intro t r hr hno
      rw [State.troopLane_writeAll_kept _ _ _ _ _ _ _ hwr1, State.troopLane_releaseAll _ _ _ _ _ _ _ (Or.inl hr)]
      · exact h.keptRegs t r hr fun h' => hno ⟨h'.1, List.mem_cons_of_mem _ h'.2.1, h'.2.2⟩
      · intro v hv h'
        have hv' : v = t := by rw [← h'.2.2]
        subst hv'
        rw [hsu1.slotFor] at h'
        exact hno ⟨hact v hv, by simp [hkey v hv], h'.2.1, h'.1⟩
    · intro c i k l hno
      rw [State.slotLane_writeAll_kept _ _ _ _ _ _ _ hwr1, State.slotLane_releaseAll]
      · exact h.keptSlots c i k l fun t r h1 h2 => hno t r h1 (List.mem_cons_of_mem _ h2)
      · intro v hv r h1 h2 h3
        rw [hsu1.slotFor] at h1
        exact hno v r (hact v hv) (by simp [hkey v hv]) h2 h1 h3
    · intro t r hno
      rw [State.readP_writeAll_kept _ _ _ _ _ hwr1, State.readP_releaseAll]
      · exact h.keptPreds t r fun h1 h2 => hno h1 (List.mem_cons_of_mem _ h2)
      · intro hin
        exact hno (hact t hin) (by simp [hkey t hin])
    · intro b' t' hn x hx
      simp only [List.mem_cons, Prod.mk.injEq, not_or] at hn
      obtain ⟨y, hy, hnm⟩ := h.room b' t' hn.2 x hx
      obtain ⟨z, hz, hn'⟩ := u.troop_releaseAll rel ts b' t' y hy
      refine ⟨z, ?_, hnm.trans hn'⟩
      rw [State.troop?_writeAll_ne, hz]
      intro v hv h'
      exact hn.1 ⟨h'.1.trans (hkey v hv).1, h'.2.trans (hkey v hv).2⟩

/-! ### The end of an issue -/

theorem State.leaveBundle_bands (s : State) (t : Tid) : (s.leaveBundle t).bands = s.bands := rfl

/-- The end of an issue that raised nothing: the bundle goes on, or its threads leave it. -/
theorem State.finishIssue_nil (s : State) (b : Bundle) (hb : s.bundles.find? (·.id == b.id) = some b) :
    s.finishIssue b [] [] = if b.npc = ⟨b.next, 0⟩ then b.threads.foldl (fun s t => (s.leaveBundle t).makeReady t b.npc) s
      else s.modBundle b.id fun x => { x with pc := b.npc, faults := [] } := by
  unfold State.finishIssue State.raiseAll
  simp only [List.map_nil, List.eraseDups_nil, List.foldl_nil, hb]

/-! ### Where a thread goes on -/

theorem State.walkFrom_mem (s u : State) (h : u.mem = s.mem) (asid va : Nat) (lvl table : Nat) :
    u.walkFrom asid va table lvl = s.walkFrom asid va table lvl := by
  induction lvl generalizing table with
  | zero => rfl
  | succ l ih =>
    have hp : ∀ a i, u.pte a i = s.pte a i := fun a i => by simp only [State.pte, h]
    have hk : ∀ a i e, u.s64Ok a i e = s.s64Ok a i e := fun a i e => by simp only [State.s64Ok, hp]
    simp only [State.walkFrom, hp, hk, ih]

/-- Register traffic and moves of threads between bundles leave the clause headers that threads see (log 22). -/
theorem State.waitAt_rest {s u : State} (hb : u.bands.map Band.bare = s.bands.map Band.bare)
    (hr : u = { s with bands := u.bands, slots := u.slots, bundles := u.bundles }) (t : Tid) (pc : Pc) :
    u.waitAt t pc = s.waitAt t pc := by
  have hsh : SameShape { s with slots := u.slots, bundles := u.bundles } u := ⟨hb, rfl, hr⟩
  have hcore : u.coreOf t = s.coreOf t := hsh.coreOf t
  have hband : (u.band? t.band).map Band.bare = (s.band? t.band).map Band.bare := hsh.band t.band
  have hthread : (u.thread? t).map Thread.bare = (s.thread? t).map Thread.bare := hsh.thread t
  have hasid : u.asidOf t = s.asidOf t := by
    have := congrArg (Option.map (·.asid)) hband
    simp only [Option.map_map] at this
    exact congrArg (fun o => o.getD 0) this
  have hin : u.inHandler t = s.inHandler t := by
    have := congrArg (Option.map (·.depth)) hthread
    simp only [Option.map_map] at this
    exact congrArg (fun o => o.getD false) this
  have hctx : ∀ a, u.ctx? a = s.ctx? a := fun a => by unfold State.ctx?; rw [hr]
  have hcseg : u.csegOf t = s.csegOf t := by
    unfold State.csegOf
    rw [hin]
    cases h1 : u.band? t.band <;> cases h2 : s.band? t.band <;> simp only [h1, h2, Option.map_none, Option.map_some, reduceCtorEq, Option.some.injEq] at hband
    · rfl
    · next x y =>
      have ha : x.bare.asid = y.bare.asid := congrArg Band.asid hband
      have hc : x.bare.fp.cseg = y.bare.fp.cseg := congrArg (fun b : Band => b.fp.cseg) hband
      change x.asid = y.asid at ha
      change x.fp.cseg = y.fp.cseg at hc
      simp only [ha, hc, hctx]
  have hx : ∀ c a va k y, u.translateNow c a va k y = s.translateNow c a va k y := by
    intro c a va k y
    have h1 : u.tlb1 c a va = s.tlb1 c a va := by unfold State.tlb1 State.core?; rw [hr]
    have h2 : u.tlb2 (dieOf c) a va = s.tlb2 (dieOf c) a va := by unfold State.tlb2 State.die?; rw [hr]
    have h3 : u.walkVa a va = s.walkVa a va := by
      unfold State.walkVa
      simp only [hctx, State.walkFrom_mem s u (by rw [hr])]
    simp only [State.translateNow, h1, h2, h3]
  have hm : ∀ h pa n, u.homeBytes h pa n = s.homeBytes h pa n := fun h pa n => by unfold State.homeBytes; rw [hr]
  simp only [State.waitAt, hcore, hasid, hcseg, hin, hx, hm]

/-- What `standing` says of a thread (R93, R94): it is ready, stamped with the clock, or waits for a flag set for it. -/
theorem State.standing_cases (s : State) (t : Tid) (pc : Pc) :
    (∃ brd, s.standing t pc = .ready s.clock brd) ∨
      ∃ k, s.waitAt t pc = some k ∧ s.flagsSet t k = true ∧ s.standing t pc = .waiting (.flags k) := by
  unfold State.standing
  split
  · next m hm =>
    split
    · next hf => exact Or.inr ⟨m, hm, hf, rfl⟩
    · exact Or.inl ⟨_, rfl⟩
  · exact Or.inl ⟨_, rfl⟩

/-- A thread goes on at a PC, standing there as the clause lets it, and nothing else. -/
theorem State.makeReady_eq (s : State) (t : Tid) (pc : Pc) :
    s.makeReady t pc = s.modThread t fun th => { th with pc := pc, npc := pc, status := s.standing t pc } := rfl

/-- Threads that leave at the end of a clause. -/
def State.leaveAll (s : State) (pc : Pc) (ts : List Tid) : State := ts.foldl (fun s t => (s.leaveBundle t).makeReady t pc) s

theorem State.leaveAll_cons (s : State) (pc : Pc) (t : Tid) (ts : List Tid) :
    s.leaveAll pc (t :: ts) = ((s.leaveBundle t).makeReady t pc).leaveAll pc ts := rfl

/-- What leaving changes: bundles, and where the threads stand. -/
structure Left (s u : State) : Prop where
  bands : u.bands.map Band.bare = s.bands.map Band.bare
  rest : u = { s with bands := u.bands, bundles := u.bundles }
  lanes : ∀ b t l r, u.troopLane b t l r = s.troopLane b t l r
  preds : ∀ t p, u.readP t p = s.readP t p

theorem Left.trans {s u v : State} (h : Left s u) (k : Left u v) : Left s v := by
  refine ⟨k.bands.trans h.bands, ?_, fun b t l r => (k.lanes b t l r).trans (h.lanes b t l r), fun t p => (k.preds t p).trans (h.preds t p)⟩
  have h1 := h.rest
  have h2 := k.rest
  rw [h1] at h2
  exact h2

theorem Left.rest_after {s u v : State} (h : Left u v) (k : SameShape s u) :
    v = { s with bands := v.bands, slots := v.slots, bundles := v.bundles } := by
  have h1 := h.rest
  have h2 := k.rest
  rw [h1, h2]

theorem State.leave_one (s : State) (t : Tid) (pc : Pc) : Left s ((s.leaveBundle t).makeReady t pc) := by
  rw [State.makeReady_eq]
  have hsh := SameShape.of_modThread (s.leaveBundle t) t
    (fun th => { th with pc := pc, npc := pc, status := (s.leaveBundle t).standing t pc }) fun _ => rfl
  refine ⟨hsh.bands, rfl, fun b u l r => ?_, fun u p => ?_⟩
  · rw [State.troopLane_modThread]; rfl
  · simp only [State.readP, State.thread?_modThread]
    by_cases h : u = t
    · subst h
      have : (s.leaveBundle u).thread? u = s.thread? u := rfl
      rw [this]
      cases s.thread? u <;> simp
    · rw [if_neg h]; rfl

theorem State.leaveAll_left (s : State) (pc : Pc) (ts : List Tid) : Left s (s.leaveAll pc ts) := by
  induction ts generalizing s with
  | nil => exact ⟨rfl, rfl, fun _ _ _ _ => rfl, fun _ _ => rfl⟩
  | cons t ts ih => rw [State.leaveAll_cons]; exact (s.leave_one t pc).trans (ih _)

theorem State.leaveAll_thread_ne (s : State) (pc : Pc) (ts : List Tid) (t : Tid) (h : t ∉ ts) :
    (s.leaveAll pc ts).thread? t = s.thread? t := by
  induction ts generalizing s with
  | nil => rfl
  | cons u ts ih =>
    simp only [List.mem_cons, not_or] at h
    rw [State.leaveAll_cons, ih _ h.2]
    rw [State.makeReady_eq, State.thread?_modThread, if_neg h.1]
    rfl

theorem State.leaveAll_bundles (s : State) (pc : Pc) (ts : List Tid) (t : Tid)
    (h : t ∈ ts ∨ ∀ x ∈ s.bundles, t ∉ x.threads) : ∀ x ∈ (s.leaveAll pc ts).bundles, t ∉ x.threads := by
  induction ts generalizing s with
  | nil =>
    rcases h with h | h
    · simp at h
    · exact h
  | cons u ts ih =>
    rw [State.leaveAll_cons]
    apply ih
    have key : ∀ v, (v = u ∨ ∀ x ∈ s.bundles, v ∉ x.threads) → ∀ x ∈ ((s.leaveBundle u).makeReady u pc).bundles, v ∉ x.threads := by
      intro v hv x hx
      have hx' : x ∈ (s.leaveBundle u).bundles := hx
      simp only [State.leaveBundle, List.mem_filter, List.mem_map] at hx'
      obtain ⟨⟨y, hy, rfl⟩, -⟩ := hx'
      simp only [List.mem_filter, not_and]
      intro hm
      rcases hv with rfl | hv
      · simp
      · exact absurd hm (hv y hy)
    rcases h with h | h
    · rcases List.mem_cons.1 h with h | h
      · exact Or.inr (key t (Or.inl h))
      · exact Or.inl h
    · exact Or.inr (key t (Or.inr h))

theorem Left.waitAt {s u : State} (h : Left s u) (t : Tid) (pc : Pc) : u.waitAt t pc = s.waitAt t pc :=
  State.waitAt_rest h.bands (by have := h.rest; rw [this]) t pc

theorem State.leaveAll_ready (s : State) (pc : Pc) (ts : List Tid) (hn : ts.Nodup) (t : Tid) (ht : t ∈ ts)
    (hx : (s.thread? t).isSome = true) :
    ∃ th, (s.leaveAll pc ts).thread? t = some th ∧ th.pc = pc ∧ ((∃ brd, th.status = .ready s.clock brd) ∨
      ∃ k, (s.leaveAll pc ts).waitAt t pc = some k ∧ th.flags &&& k ≠ 0 ∧ th.status = .waiting (.flags k)) := by
  induction ts generalizing s with
  | nil => simp at ht
  | cons u ts ih =>
    rw [List.nodup_cons] at hn
    rw [State.leaveAll_cons]
    by_cases htu : t = u
    · subst htu
      have hw : (((s.leaveBundle t).makeReady t pc).leaveAll pc ts).waitAt t pc = (s.leaveBundle t).waitAt t pc := by
        rw [(State.leaveAll_left _ pc ts).waitAt, (s.leave_one t pc).waitAt]
        exact (State.waitAt_rest rfl rfl t pc).symm
      rw [State.leaveAll_thread_ne _ _ _ _ hn.1, hw, State.makeReady_eq, State.thread?_modThread, if_pos rfl]
      have hl : (s.leaveBundle t).thread? t = s.thread? t := rfl
      rw [hl]
      cases hth : s.thread? t with
      | none => simp [hth] at hx
      | some th =>
        refine ⟨_, rfl, rfl, ?_⟩
        rcases (s.leaveBundle t).standing_cases t pc with ⟨brd, h⟩ | ⟨k, h1, h2, h3⟩
        · exact Or.inl ⟨brd, h⟩
        · refine Or.inr ⟨k, h1, ?_, h3⟩
          simpa [State.flagsSet, hl, hth] using h2
    · have ht' : t ∈ ts := by
        rcases List.mem_cons.1 ht with h | h
        · exact absurd h htu
        · exact h
      have hc : ((s.leaveBundle u).makeReady u pc).clock = s.clock := rfl
      rw [← hc]
      apply ih _ hn.2 ht'
      rw [State.makeReady_eq, State.thread?_modThread, if_neg htu]
      exact hx

/-! ### The whole issue -/

theorem Run.fold_groups {s : State} {b : Bundle} {m : Mods} {srcs dests rel : List VReg} {w : Tid → List RegWrite}
    (hi : Issues s b m srcs dests rel) (hd : ∀ t, ∀ r ∈ writtenRegs (w t), r ∈ dests) (hc : ∀ t, Consistent (w t))
    (one : Run → Nat × Nat → Run)
    (hone : ∀ r k, b.actors s m k ≠ [] →
      (r.s.releaseAll rel (b.actors s m k)).alloc k.1 k.2
        (((b.actors s m k).map fun t => (r.s.releaseAll rel (b.actors s m k)).needs t (writtenRegs (w t))).flatten).eraseDups.length = .ok →
      one r k = { r with s := (r.s.releaseAll rel (b.actors s m k)).writeAll w (b.actors s m k) })
    (ks : List (Nat × Nat)) (hks : ks.Nodup) (hne : ∀ k ∈ ks, b.actors s m k ≠ []) (K : List (Nat × Nat))
    (hK : ∀ k ∈ ks, k ∉ K) (r : Run) (h : Mid s r.s b m rel w K) :
    ∃ u K', ks.foldl one r = { r with s := u } ∧ Mid s u b m rel w K' ∧ ∀ k, k ∈ K' ↔ k ∈ ks ∨ k ∈ K := by
  induction ks generalizing r K with
  | nil => exact ⟨r.s, K, rfl, h, by simp⟩
  | cons k ks ih =>
    rw [List.nodup_cons] at hks
    have hk := hne k (by simp)
    obtain ⟨ha, hm⟩ := h.step hi hd hc k (hK k (by simp)) hk
    rw [List.foldl_cons, hone r k hk ha]
    obtain ⟨u, K', hu, hM, hKK⟩ := ih hks.2 (fun j hj => hne j (by simp [hj])) (k :: K)
      (fun j hj => by
        simp only [List.mem_cons, not_or]
        exact ⟨fun he => hks.1 (he ▸ hj), hK j (by simp [hj])⟩)
      { r with s := (r.s.releaseAll rel (b.actors s m k)).writeAll w (b.actors s m k) } hm
    refine ⟨u, K', hu, hM, fun j => ?_⟩
    rw [hKK]
    simp only [List.mem_cons]
    tauto

/-- A register instruction whose issue meets no obstacle completes: its destinations hold the results and everything else
stays (R64, R66, R90, R96, R98, R132). -/
theorem State.regInstr_done {s : State} {b : Bundle} {m : Mods} {srcs dests rel : List VReg} {f : State → Tid → List RegWrite}
    (hi : Issues s b m srcs dests rel) (hd : ∀ t, ∀ r ∈ writtenRegs (f s.view t), r ∈ dests)
    (hc : ∀ t, Consistent (f s.view t)) : RegDone s (s.regInstr m srcs rel f) b m rel (f s.view) := by
  have hcur := hi.cur
  have hid : b.id = s.cur := by simpa using List.find?_some hcur
  have hfind : s.bundles.find? (·.id == b.id) = some b := by rw [hid]; exact hcur
  have hbad : ∀ t, b.acts s m t → srcs.any (s.view.poisonedReg t) = false := by
    intro t ht
    rw [List.any_eq_false]
    intro r hr
    rw [hi.sound t ht.1 ht.2 r hr]
    simp
  have hgood : ((b.threads.filter fun t => s.view.guardTrue m t).filter fun t => !srcs.any (s.view.poisonedReg t)) =
      b.threads.filter fun t => s.view.guardTrue m t := by
    apply List.filter_eq_self.2
    intro t ht
    rw [List.mem_filter] at ht
    rw [hbad t ⟨ht.1, ht.2⟩]
    rfl
  have hbads : ((b.threads.filter fun t => s.view.guardTrue m t).filter fun t => srcs.any (s.view.poisonedReg t)) = [] := by
    apply List.filter_eq_nil_iff.2
    intro t ht
    rw [List.mem_filter] at ht
    rw [hbad t ⟨ht.1, ht.2⟩]
    simp
  unfold State.regInstr
  simp only [hcur, hgood, hbads]
  -- the releases of the threads whose guard is false
  have hsh0 := s.releaseAll_shape rel (b.threads.filter fun t => !s.view.guardTrue m t)
  have hmid : Mid s (s.releaseAll rel (b.threads.filter fun t => !s.view.guardTrue m t)) b m rel (f s.view) [] := by
    refine ⟨hsh0, fun t _ h => by simp at h, fun t _ h => by simp at h, ?_, ?_, ?_, ?_⟩
    · intro t r hr _
      exact State.troopLane_releaseAll _ _ _ _ _ _ _ (Or.inl hr)
    · intro c i k l _
      exact State.slotLane_releaseAll _ _ _ _ _ _ _
    · intro t r _
      exact State.readP_releaseAll _ _ _ _ _
    · intro b' t' _ x hx
      exact State.troop_releaseAll _ _ _ _ _ _ hx
  obtain ⟨u, K, hu, hM, hK⟩ := Run.fold_groups hi hd hc
    (fun (r : Run) (k : Nat × Nat) =>
      let ts := (b.threads.filter fun t => s.view.guardTrue m t).filter fun t => t.band == k.1 && t.troop == k.2
      let s1 := ts.foldl (fun s t => s.release t rel) r.s
      let need := ((ts.map fun t => s1.needs t (writtenRegs (f s.view t))).flatten).eraseDups
      match s1.alloc k.1 k.2 need.length with
      | .ok => { r with s := ts.foldl (fun s' t => s'.writeRegs t (f s.view t)) s1 }
      | .exhausted => { r with raised := r.raised ++ ts.map fun t => (Fail.plain cRegsExhausted 0).raised t }
      | .stall => { r with s := ts.foldl (fun s t => s.follow b t (.again (.alloc need.length))) r.s })
    (by
      intro r k _ ha
      have ha' := ha
      simp only [State.releaseAll, Bundle.actors] at ha'
      simp only [ha']
      rfl)
    (((b.threads.filter fun t => s.view.guardTrue m t).map fun t => (t.band, t.troop)).eraseDups) (nodup_eraseDups _)
    (by
      intro k hk
      rw [List.mem_eraseDups, List.mem_map] at hk
      obtain ⟨t, ht, rfl⟩ := hk
      rw [List.mem_filter] at ht
      exact List.ne_nil_of_mem ((b.mem_actors s m _ t).2 ⟨⟨ht.1, ht.2⟩, rfl⟩))
    [] (by simp) ⟨_, [], [], [], []⟩ hmid
  have hfold : ∀ r : Run, r = (⟨u, [], [], [], []⟩ : Run) → r.s.finishIssue b r.raised [] = u.finishIssue b [] [] := by
    intro r hr; rw [hr]
  have hall : ∀ t, b.acts s m t → (t.band, t.troop) ∈ K := by
    intro t ht
    rw [hK]
    left
    rw [List.mem_eraseDups, List.mem_map]
    exact ⟨t, List.mem_filter.2 ⟨ht.1, ht.2⟩, rfl⟩
  have hub : u.bundles = s.bundles := by have := hM.shape.rest; rw [this]
  have hclk : u.clock = s.clock := by have := hM.shape.rest; rw [this]
  have hufind : u.bundles.find? (·.id == b.id) = some b := by rw [hub]; exact hfind
  refine (hfold _ hu) ▸ ?_
  rw [State.finishIssue_nil u b hufind]
  by_cases hend : b.npc = ⟨b.next, 0⟩
  · rw [if_pos hend]
    change RegDone s (u.leaveAll b.npc b.threads) b m rel (f s.view)
    have hL := u.leaveAll_left b.npc b.threads
    have hLs : SameShape u { u.leaveAll b.npc b.threads with bundles := u.bundles } :=
      ⟨hL.bands, by have := hL.rest; rw [this], by have := hL.rest; rw [this]⟩
    have hsl : ∀ t r, (u.leaveAll b.npc b.threads).slotFor t r = u.slotFor t r := fun t r => hLs.slotFor t r
    have hslots : (u.leaveAll b.npc b.threads).slots = u.slots := by have := hL.rest; rw [this]
    have hslane : ∀ c i k l, (u.leaveAll b.npc b.threads).slotLane c i k l = u.slotLane c i k l := by
      intro c i k l; simp only [State.slotLane, State.slot?, hslots]
    refine ⟨?_, ?_, ?_, ?_, ?_, ?_, ?_, ?_, ?_, ?_⟩
    · intro t ht r x hx
      rw [← hM.regs t ht (hall t ht) r x hx]
      cases hf : u.slotFor t r with
      | none => rw [State.readV_of_name _ _ _ hf, State.readV_of_name _ _ _ (by rw [hsl, hf]), hL.lanes]
      | some e => obtain ⟨c, i⟩ := e; rw [State.readV_of_slot _ _ _ c i hf, State.readV_of_slot _ _ _ c i (by rw [hsl, hf]), hslane]
    · intro t ht r x hx
      rw [hL.preds]; exact hM.preds t ht (hall t ht) r x hx
    · intro t r hr hno
      rw [hL.lanes]; exact hM.keptRegs t r hr fun h => hno ⟨h.1, h.2.2⟩
    · intro c i k l hno
      rw [hslane]; exact hM.keptSlots c i k l fun t r h1 _ => hno t r h1
    · intro t r hno
      rw [hL.preds]; exact hM.keptPreds t r fun h1 _ => hno h1
    · exact hL.bands.trans hM.shape.bands
    · rw [hslots]; exact hM.shape.slots
    · exact hL.rest_after hM.shape
    · intro hne; exact absurd hend hne
    · intro _ t ht
      have hth : (u.thread? t).isSome = true := by rw [hM.shape.thread_isSome]; exact hi.threads t ht
      have hnd : b.threads.Nodup := List.Nodup.of_map _ hi.lanes
      obtain ⟨th, h1, h2, h3⟩ := u.leaveAll_ready b.npc b.threads hnd t ht hth
      exact ⟨th, h1, h2, by rw [← hclk]; exact h3, u.leaveAll_bundles b.npc b.threads t (Or.inl ht)⟩
  · rw [if_neg hend]
    refine ⟨?_, ?_, ?_, ?_, ?_, ?_, ?_, ?_, ?_, ?_⟩
    · intro t ht r x hx
      exact hM.regs t ht (hall t ht) r x hx
    · intro t ht r x hx
      exact hM.preds t ht (hall t ht) r x hx
    · intro t r hr hno
      exact hM.keptRegs t r hr fun h => hno ⟨h.1, h.2.2⟩
    · intro c i k l hno
      exact hM.keptSlots c i k l fun t r h1 _ => hno t r h1
    · intro t r hno
      exact hM.keptPreds t r fun h1 _ => hno h1
    · exact hM.shape.bands
    · exact hM.shape.slots
    · have h2 := hM.shape.rest
      rw [h2]
      rfl
    · intro _
      show modIf (·.id == b.id) (fun x => { x with pc := b.npc, faults := [] }) u.bundles = _
      rw [hub]
    · intro h; exact absurd h hend

/-! ### Instructions that are register instructions -/

theorem consistent_one (w : RegWrite) : Consistent [w] :=
  ⟨fun r x y hx hy => by cases w <;> simp_all, fun r x y hx hy => by cases w <;> simp_all⟩

theorem regAt_one_ne (d : VReg) : d ≠ regAt d 1 := by
  intro h
  have := Fin.ext_iff.1 h
  simp only [regAt, Fin.val_ofNat] at this
  have := d.isLt
  omega

theorem consistent_pair (d : VReg) (x y : Word) : Consistent [.v d x, .v (regAt d 1) y] := by
  have h := regAt_one_ne d
  refine ⟨fun r a b ha hb => ?_, fun r a b ha _ => by simp at ha⟩
  simp only [List.mem_cons, RegWrite.v.injEq, List.not_mem_nil, or_false] at ha hb
  rcases ha with ⟨h1, rfl⟩ | ⟨h1, rfl⟩ <;> rcases hb with ⟨h2, rfl⟩ | ⟨h2, rfl⟩
  · rfl
  · exact absurd (h1.symm.trans h2) h
  · exact absurd (h2.symm.trans h1) h
  · rfl

theorem completesAs_of {i : Instr} {m : Mods} {srcs dests rel : List VReg} {f w : State → Tid → List RegWrite}
    (he : ∀ s, exec i s = .next (s.regInstr m srcs rel f)) (hw : ∀ v t, f v t = w v t)
    (hd : ∀ v t, ∀ r ∈ writtenRegs (w v t), r ∈ dests) (hc : ∀ v t, Consistent (w v t)) :
    CompletesAs i m srcs dests rel w := by
  have : f = w := funext fun v => funext fun t => hw v t
  subst this
  exact fun s b hi => ⟨_, he s, State.regInstr_done hi (hd _) (hc _)⟩

/-- An instruction that writes one vector register. -/
theorem completesV_of {i : Instr} {m : Mods} {srcs rel : List VReg} {d : VReg} {ok : State → Tid → Word → Prop}
    (val : State → Tid → Word) (he : ∀ s, exec i s = .next (s.regInstr m srcs rel fun v t => [.v d (val v t)]))
    (hok : ∀ v t, ok v t (val v t)) : CompletesV i m srcs d rel ok :=
  ⟨val, hok, completesAs_of he (fun _ _ => rfl) (fun _ _ r hr => by simpa [writtenRegs] using hr) fun _ _ => consistent_one _⟩

/-- An instruction that writes a register pair. -/
theorem completesV2_of {i : Instr} {m : Mods} {srcs rel : List VReg} {d : VReg} {ok : State → Tid → BitVec 64 → Prop}
    (val : State → Tid → BitVec 64) (he : ∀ s, exec i s = .next (s.regInstr m srcs rel fun v t => pairWrites d (val v t)))
    (hok : ∀ v t, ok v t (val v t)) : CompletesV2 i m srcs d rel ok := by
  refine ⟨val, hok, completesAs_of he (fun v t => ?_) (fun _ _ r hr => by simpa [writtenRegs] using hr) fun _ _ => consistent_pair _ _ _⟩
  have h1 : (val v t).truncate 32 = (val v t).extractLsb' 0 32 := by ext i; simp
  have h2 : ((val v t) >>> 32).truncate 32 = (val v t).extractLsb' 32 32 := by ext i; simp
  simp only [pairWrites, h1, h2]

/-- An instruction that writes one predicate. -/
theorem completesP_of {i : Instr} {m : Mods} {srcs rel : List VReg} {d : PReg} {ok : State → Tid → Bool}
    (val : State → Tid → Bool) (he : ∀ s, exec i s = .next (s.regInstr m srcs rel fun v t => [.p d (val v t)]))
    (hok : ∀ v t, val v t = ok v t) : CompletesP i m srcs d rel ok :=
  completesAs_of he (fun v t => by rw [hok]) (fun _ _ r hr => by simp [writtenRegs] at hr) fun _ _ => consistent_one _

end Sys2Proof.Machine
end

