-- ==== Sys2Proof/Laws/Turns.lean ====
section
/-! SUPPORT. The spec lemma of `State.runThreads`: an issue in which every thread has its effect, and its frame. -/

namespace Sys2Proof.Machine

/-! ### The frame -/

/-- What a `Touch` must allow for an issue to fit it. -/
structure Touch.Fits (x : Touch) : Prop where
  refl : ∀ s, s = x.rest s s
  trans : ∀ s u w, u = x.rest s u → w = x.rest u w → w = x.rest s w
  issue : ∀ s u : State, u = { s with bands := u.bands, slots := u.slots, bundles := u.bundles } → u = x.rest s u

theorem Kept.refl {x : Touch} (hx : x.Fits) (s : State) : Kept x s s :=
  ⟨fun _ _ _ _ _ => rfl, fun _ _ _ _ _ => rfl, rfl, fun _ _ _ => rfl, fun h => ⟨h, fun _ _ _ => rfl⟩, rfl, rfl, rfl, hx.refl s⟩

theorem Kept.trans {x : Touch} (hx : x.Fits) {s u w : State} (h : Kept x s u) (k : Kept x u w) : Kept x s w := by
  refine ⟨fun b t l r hr => (k.regs b t l r hr).trans (h.regs b t l r hr), fun c i j l hr => (k.slots c i j l hr).trans (h.slots c i j l hr),
    k.traps.trans h.traps, fun t p hp => (k.preds t p hp).trans (h.preds t p hp), fun hf => ?_, k.bands.trans h.bands,
    k.cores.trans h.cores, k.dies.trans h.dies, hx.trans s u w h.rest k.rest⟩
  obtain ⟨h1, h2⟩ := h.flags hf
  obtain ⟨k1, k2⟩ := k.flags h1
  exact ⟨k1, fun t f hn => (k2 t f hn).trans (h2 t f hn)⟩

/-- A frame that names less is also one that names more. -/
theorem Kept.mono {x y : Touch} {s u : State} (h : Kept x s u) (hr : ∀ r ∈ x.regs, r ∈ y.regs) (hp : ∀ r ∈ x.preds, r ∈ y.preds)
    (hf : ∀ r ∈ x.flags, r ∈ y.flags) (hb : u.bands.map (fun b => x.band b.idle) = s.bands.map (fun b => x.band b.idle) →
      u.bands.map (fun b => y.band b.idle) = s.bands.map fun b => y.band b.idle)
    (hc : u.cores.map x.core = s.cores.map x.core → u.cores.map y.core = s.cores.map y.core)
    (hd : u.dies.map x.die = s.dies.map x.die → u.dies.map y.die = s.dies.map y.die)
    (he : u = x.rest s u → u = y.rest s u) : Kept y s u :=
  ⟨fun b t l r hn => h.regs b t l r fun hm => hn (hr r hm), fun c i k l hn => h.slots c i k l fun r hm => hn r (hr r hm), h.traps,
    fun t p hn => h.preds t p fun hm => hn (hp p hm), fun ho => ⟨(h.flags ho).1, fun t f hn => (h.flags ho).2 t f fun hm => hn (hf f hm)⟩,
    hb h.bands, hc h.cores, hd h.dies, he h.rest⟩

theorem Band.idle_modTroop (x : Band) (t : Nat) (f : Troop → Troop)
    (hf : ∀ y : Troop, (f y).idle = y.idle) : (x.modTroop t f).idle = x.idle := by
  unfold Band.modTroop Band.idle
  simp only
  congr 1
  generalize x.troops = l
  induction l generalizing t with
  | nil => rfl
  | cons y l ih =>
    cases t with
    | zero => simp only [modAt, List.map_cons, hf y]
    | succ t => simp only [modAt, List.map_cons, ih t]

theorem State.idle_modBand (s : State) (b : Nat) (f : Band → Band) (g : Band → Band) (hf : ∀ x, g (f x).idle = g x.idle) :
    (s.modBand b f).bands.map (fun b => g b.idle) = s.bands.map fun b => g b.idle := by
  simp only [State.modBand, modIf, List.map_map]
  apply List.map_congr_left
  intro x _
  simp only [Function.comp]
  split
  · exact hf x
  · rfl

theorem State.idle_modTroop (s : State) (b t : Nat) (f : Troop → Troop) (g : Band → Band)
    (hf : ∀ y : Troop, (f y).idle = y.idle) :
    (s.modTroop b t f).bands.map (fun b => g b.idle) = s.bands.map fun b => g b.idle :=
  State.idle_modBand s b _ g fun x => by rw [Band.idle_modTroop x t f hf]

theorem State.idle_modThread (s : State) (t : Tid) (f : Thread → Thread) (g : Band → Band)
    (hf : ∀ y, (f y).idle = y.idle) :
    (s.modThread t f).bands.map (fun b => g b.idle) = s.bands.map fun b => g b.idle := by
  apply State.idle_modTroop
  intro y
  unfold Troop.idle Troop.modThread
  simp only
  congr 1
  generalize y.threads = l
  generalize t.lane = n
  induction l generalizing n with
  | nil => rfl
  | cons z l ih =>
    cases n with
    | zero => simp only [modAt, List.map_cons, hf z]
    | succ n => simp only [modAt, List.map_cons, ih n]

/-- A change of bands' threads that leaves predicates and flags. -/
theorem Kept.of_modThread {x : Touch} (hx : x.Fits) (s : State) (t : Tid) (f : Thread → Thread) (hf : ∀ y, (f y).idle = y.idle)
    (hp : ∀ y, (f y).preds = y.preds) (hg : ∀ y, (f y).flags = y.flags) : Kept x s (s.modThread t f) := by
  have hth : ∀ u, (s.modThread t f).thread? u = if u = t then (s.thread? u).map f else s.thread? u := fun u =>
    State.thread?_modThread s t u f
  refine ⟨fun b u l r _ => State.troopLane_modThread s t f b u l r, fun c i k l _ => rfl, rfl, fun u p _ => ?_, fun h => ⟨?_, ?_⟩,
    State.idle_modThread s t f x.band hf, rfl, rfl, hx.issue _ _ rfl⟩
  · simp only [State.readP, hth]
    by_cases h : u = t
    · rw [if_pos h]
      cases s.thread? u <;> simp [hp]
    · rw [if_neg h]
  · intro u th hu
    rw [hth] at hu
    split at hu
    · cases hs : s.thread? u with
      | none => simp [hs] at hu
      | some y =>
        simp only [hs, Option.map_some, Option.some.injEq] at hu
        rw [← hu, hg]
        exact h u y hs
    · exact h u th hu
  · intro u k _
    simp only [State.flagOf, hth]
    split
    · cases s.thread? u <;> simp [hg]
    · rfl

/-- A change of the bundles. -/
theorem Kept.of_bundles {x : Touch} (hx : x.Fits) (s : State) (bs : List Bundle) : Kept x s { s with bundles := bs } :=
  ⟨fun _ _ _ _ _ => rfl, fun _ _ _ _ _ => rfl, rfl, fun _ _ _ => rfl, fun h => ⟨h, fun _ _ _ => rfl⟩, rfl, rfl, rfl, hx.issue _ _ rfl⟩

theorem Kept.leave {x : Touch} (hx : x.Fits) (s : State) (t : Tid) : Kept x s (s.leaveBundle t) := Kept.of_bundles hx s _

theorem Kept.ready {x : Touch} (hx : x.Fits) (s : State) (t : Tid) (pc : Pc) : Kept x s (s.makeReady t pc) :=
  Kept.of_modThread hx s t _ (fun _ => rfl) (fun _ => rfl) fun _ => rfl

theorem Kept.wait {x : Touch} (hx : x.Fits) (s : State) (t : Tid) (pc npc : Pc) (w : Wait) : Kept x s (s.makeWait t pc npc w) :=
  Kept.of_modThread hx s t _ (fun _ => rfl) (fun _ => rfl) fun _ => rfl

/-- A flow with which an instruction's effect ends: not a trap, an error, a walk or a wait to execute it again. -/
def Flow.ends : Flow → Bool
  | .next | .jump _ | .ready | .done | .wait _ => true
  | _ => false

theorem Kept.follow {x : Touch} (hx : x.Fits) (s : State) (b : Bundle) (t : Tid) (f : Flow) (h : f.ends = true) :
    Kept x s (s.follow b t f) := by
  cases f with
  | next => exact Kept.refl hx s
  | jump pc =>
    exact ((Kept.leave hx s t).trans hx (Kept.ready hx _ t pc)).trans hx
      (Kept.of_modThread hx _ t _ (fun _ => rfl) (fun _ => rfl) fun _ => rfl)
  | ready => exact (Kept.leave hx s t).trans hx (Kept.ready hx _ t b.npc)
  | done => exact Kept.refl hx s
  | wait w => exact (Kept.leave hx s t).trans hx (Kept.wait hx _ t b.pc b.npc w)
  | again w => exact absurd h (by simp [Flow.ends])
  | walk va u => exact absurd h (by simp [Flow.ends])
  | trap f => exact absurd h (by simp [Flow.ends])
  | ue => exact absurd h (by simp [Flow.ends])

/-- An operation on registers: its shape stays, and flags do. -/
theorem Kept.of_shape {x : Touch} (hx : x.Fits) {s u : State} (h : SameShape s u) (hi : u.bands.map Band.idle = s.bands.map Band.idle)
    (hfl : ∀ t, (u.thread? t).map Thread.flags = (s.thread? t).map Thread.flags)
    (hr : ∀ b t l r, r ∉ x.regs → u.troopLane b t l r = s.troopLane b t l r)
    (hs : ∀ c i k l, (∀ r ∈ x.regs, r.val ≠ 48 + k) → u.slotLane c i k l = s.slotLane c i k l)
    (hp : ∀ t p, p ∉ x.preds → u.readP t p = s.readP t p) : Kept x s u := by
  have hho : u.holds = s.holds := by have := h.rest; rw [this]
  refine ⟨hr, hs, h.slots, hp, fun hf => ⟨?_, ?_⟩, ?_, ?_, ?_, ?_⟩
  · intro t th ht
    have := hfl t
    rw [ht] at this
    cases hs' : s.thread? t with
    | none => simp [hs'] at this
    | some y =>
      simp only [hs', Option.map_some, Option.some.injEq] at this
      rw [this, hho]
      exact hf t y hs'
  · intro t f _
    have := hfl t
    simp only [State.flagOf]
    cases hu : u.thread? t <;> cases hs' : s.thread? t <;> simp_all
  · have e : ∀ l : List Band, l.map (fun b => x.band b.idle) = (l.map Band.idle).map x.band := by intro l; simp
    rw [e, e, hi]
  · have := h.rest; rw [this]
  · have := h.rest; rw [this]
  · apply hx.issue
    have := h.rest
    rw [this]

theorem Troop.idle_setName (y : Troop) (r : VReg) (n : Option VName) :
    (y.setName r n).idle = y.idle := by
  unfold Troop.setName
  cases n <;> rfl

theorem Troop.idle_releaseName (y : Troop) (r : VReg) (l : Nat) :
    (y.releaseName r l).idle = y.idle := by
  unfold Troop.releaseName
  cases y.name? r with
  | none => rfl
  | some n =>
    simp only
    split
    · unfold Troop.freeIfDone
      generalize hz : y.setName r _ = z
      have hz' := Troop.idle_setName y r (some { n with released := setBit64 n.released l true })
      rw [hz] at hz'
      cases z.name? r with
      | none => exact hz'
      | some n' =>
        simp only
        split
        · exact (Troop.idle_setName z r none).trans hz'
        · exact hz'
    · rfl

theorem State.idle_release (s : State) (t : Tid) (rs : List VReg) : (s.release t rs).bands.map Band.idle = s.bands.map Band.idle := by
  unfold State.release
  induction rs generalizing s with
  | nil => rfl
  | cons r rs ih =>
    rw [List.foldl_cons, ih]
    split
    · rfl
    · exact State.idle_modTroop s _ _ _ (fun b => b) fun y => Troop.idle_releaseName y r _

theorem State.thread?_release (s : State) (t : Tid) (rs : List VReg) (u : Tid) : (s.release t rs).thread? u = s.thread? u := by
  unfold State.release
  induction rs generalizing s with
  | nil => rfl
  | cons r rs ih =>
    rw [List.foldl_cons, ih]
    split
    · rfl
    · exact State.thread?_modTroop s _ _ _ (fun y => Troop.releaseName_threads y r _) u

theorem Kept.release {x : Touch} (hx : x.Fits) (s : State) (t : Tid) (rs : List VReg) (h : ∀ r ∈ rs, r ∈ x.regs) :
    Kept x s (s.release t rs) :=
  Kept.of_shape hx (s.release_shape t rs) (s.idle_release t rs) (fun u => by rw [State.thread?_release])
    (fun b u l r hr => State.troopLane_release s t rs b u l r (Or.inl fun h' => hr (h r h')))
    (fun c i k l _ => State.slotLane_release s t rs c i k l) fun u p _ => State.readP_release s t rs u p

theorem State.finishIssue_kept {x : Touch} (hx : x.Fits) (s : State) (b : Bundle) : Kept x s (s.finishIssue b [] []) := by
  unfold State.finishIssue State.raiseAll
  simp only [List.map_nil, List.eraseDups_nil, List.foldl_nil]
  cases s.bundles.find? (·.id == b.id) with
  | none => exact Kept.refl hx s
  | some nb =>
    simp only
    split
    · generalize nb.threads = ts
      induction ts generalizing s with
      | nil => exact Kept.refl hx s
      | cons t ts ih =>
        rw [List.foldl_cons]
        exact ((Kept.leave hx s t).trans hx (Kept.ready hx _ t b.npc)).trans hx (ih _)
    · exact Kept.of_bundles hx s _

/-! ### Turns -/

theorem State.twinOf_release (s : State) (t : Tid) (rs : List VReg) (u : Tid) : (s.release t rs).twinOf u = s.twinOf u := by
  have h := (s.release_shape t rs).band u.band
  simp only [State.twinOf, State.partner]
  cases hu : (s.release t rs).band? u.band <;> cases hs : s.band? u.band <;> simp [hu, hs] at h
  · rfl
  · next x y =>
    have : x.pair = y.pair := by
      have := congrArg Band.pair h
      exact this
    simp [this]

/-- One thread's turn in `State.runThreads`. -/
def Run.turn (v : State) (b : Bundle) (m : Mods) (reads rel : List VReg) (act : State → State → Tid → Option Act)
    (twin : State → Tid → State) (body : State → State → Tid → State × Flow) (r : Run) (t : Tid) : Run :=
  if !v.guardTrue m t then { r with s := r.s.release t rel }
  else if reads.any (v.poisonedReg t) then { r with ues := r.ues ++ [t] }
  else
    match body v (r.s.release t rel) t with
    | (_, .trap f) => { r with s := ((body v r.s t).1).follow b t (.trap f), raised := r.raised ++ [f.raised t] }
    | (_, .ue) => { r with ues := r.ues ++ [t] }
    | (_, .walk va u) => { r with walks := r.walks ++ [(t, va, u)] }
    | (_, .again w) => { r with s := ((body v r.s t).1).follow b t (.again w) }
    | (s2, f) =>
      match r.s.twinOf t, (r.s.twinOf t).bind fun _ => act v r.s t with
      | some u, some a =>
        match r.s.passedAct t with
        | some pa =>
          if r.s.second t.band then { r with s := r.s.follow b t (.again (.pair pa.id)) }
          else { r with s := (((s2.mirror v.fresh t u).follow b t f) |> fun s => twin (s.release u rel) u).releaseTwin pa t u }
        | none =>
          match r.s.pairActs.find? fun x => x.tids.contains t with
          | some pa => { r with s := r.s.follow b t (.again (.pair pa.id)) }
          | none => { r with acts := r.acts ++ [(t, actBytes b.words t.lane a)] }
      | _, _ => { r with s := s2.follow b t f }

theorem State.runThreads_eq (s : State) (b : Bundle) (hb : s.bundle? = some b) (m : Mods) (reads rel : List VReg)
    (act : State → State → Tid → Option Act) (twin : State → Tid → State) (body : State → State → Tid → State × Flow) :
    s.runThreads m reads rel act twin body =
      (let r := b.threads.foldl (Run.turn s.view b m reads rel act twin body) ⟨s, [], [], [], []⟩
       if r.walks ≠ [] then r.walks.foldl (fun s e => s.startWalk b e.2.1 e.2.2 (s.inHandler e.1)) s
       else
       let keys := (r.acts.map fun e => (e.1.band, e.1.troop)).eraseDups
       let s1 := keys.foldl (fun s k => s.registerAct b k (r.acts.filter fun e => e.1.band == k.1 && e.1.troop == k.2)) r.s
       s1.finishIssue b r.raised r.ues) := by
  unfold State.runThreads
  simp only [hb]
  rfl

/-- A turn in which the thread has its effect. -/
theorem Run.turn_smooth (v : State) (b : Bundle) (m : Mods) (reads rel : List VReg) (act : State → State → Tid → Option Act)
    (twin : State → Tid → State) (body : State → State → Tid → State × Flow) (eff : State → Tid → State × Flow) (r : Run) (t : Tid)
    (h : v.guardTrue m t = true → (∀ q ∈ reads, v.poisonedReg t q = false) ∧
      body v (r.s.release t rel) t = eff (r.s.release t rel) t ∧ (eff (r.s.release t rel) t).2.ends = true ∧
      (act v r.s t = none ∨ r.s.twinOf t = none)) :
    Run.turn v b m reads rel act twin body r t = { r with s := v.turn b m rel eff r.s t } := by
  unfold Run.turn State.turn
  cases hg : v.guardTrue m t with
  | false => simp
  | true =>
    obtain ⟨h1, h2, h3, h4⟩ := h hg
    have hany : reads.any (v.poisonedReg t) = false := by
      rw [List.any_eq_false]
      intro q hq
      rw [h1 q hq]
      simp
    have hact : (r.s.twinOf t).bind (fun _ => act v r.s t) = none := by
      rcases h4 with h4 | h4
      · rw [h4]; cases r.s.twinOf t <;> rfl
      · rw [h4]; rfl
    simp only [Bool.not_true, Bool.false_eq_true, if_false, hany, h2, if_true, hact]
    clear h h2
    generalize eff (r.s.release t rel) t = e at h3 ⊢
    obtain ⟨s2, f⟩ := e
    cases f with
    | trap f => exact absurd h3 (by simp [Flow.ends])
    | ue => exact absurd h3 (by simp [Flow.ends])
    | again w => exact absurd h3 (by simp [Flow.ends])
    | walk va u => exact absurd h3 (by simp [Flow.ends])
    | _ => cases r.s.twinOf t <;> rfl

/-- The turns of an issue in which every thread has its effect. -/
theorem Run.fold_smooth (v : State) (b : Bundle) (m : Mods) (reads rel : List VReg) (act : State → State → Tid → Option Act)
    (twin : State → Tid → State) (body : State → State → Tid → State × Flow) (ok : State → Tid → Prop)
    (eff : State → Tid → State × Flow)
    (hok : ∀ u t, ok (u.release t rel) t → (∀ q ∈ reads, v.poisonedReg t q = false) ∧
      body v (u.release t rel) t = eff (u.release t rel) t ∧ (eff (u.release t rel) t).2.ends = true ∧
      (act v u t = none ∨ u.twinOf t = none))
    (ts : List Tid) (r : Run) (h : v.smooth b m rel ok eff r.s ts) :
    ts.foldl (Run.turn v b m reads rel act twin body) r = { r with s := ts.foldl (v.turn b m rel eff) r.s } := by
  induction ts generalizing r with
  | nil => rfl
  | cons t ts ih =>
    obtain ⟨h1, h2⟩ := h
    rw [List.foldl_cons, List.foldl_cons,
      Run.turn_smooth v b m reads rel act twin body eff r t fun hg => hok r.s t (h1 hg), ih _ h2]

theorem State.turn_kept {x : Touch} (hx : x.Fits) (v : State) (b : Bundle) (m : Mods) (rel : List VReg) (ok : State → Tid → Prop)
    (eff : State → Tid → State × Flow) (hrel : ∀ r ∈ rel, r ∈ x.regs) (heff : ∀ w t, ok w t → Kept x w (eff w t).1)
    (hend : ∀ w t, ok w t → (eff w t).2.ends = true) (ts : List Tid) (u : State) (h : v.smooth b m rel ok eff u ts) : Kept x u (ts.foldl (v.turn b m rel eff) u) := by
  induction ts generalizing u with
  | nil => exact Kept.refl hx u
  | cons t ts ih =>
    obtain ⟨h1, h2⟩ := h
    rw [List.foldl_cons]
    refine Kept.trans hx ?_ (ih _ h2)
    unfold State.turn
    split
    · next hg => exact ((Kept.release hx u t rel hrel).trans hx (heff _ t (h1 hg))).trans hx (Kept.follow hx _ b t _ (hend _ t (h1 hg)))
    · exact Kept.release hx u t rel hrel

/-- An instruction whose body has its effect where `ok` holds completes. -/
theorem completes_of {i : Instr} {m : Mods} {srcs rel : List VReg} {ok : Bundle → State → State → Tid → Prop}
    {eff : Bundle → State → State → Tid → State × Flow} {touch : Bundle → Touch}
    (act : Bundle → State → State → Tid → Option Act) (twin : Bundle → State → Tid → State)
    (body : Bundle → State → State → Tid → State × Flow)
    (hi : ∀ s b, s.bundle? = some b → exec i s = .next (s.runThreads m srcs rel (act b) (twin b) (body b)))
    (hok : ∀ b v w t, ok b v w t → body b v w t = eff b v w t ∧ (eff b v w t).2.ends = true)
    (hact : ∀ b v u t, ok b v (u.release t rel) t → act b v u t = none ∨ u.twinOf t = none)
    (hx : ∀ b, (touch b).Fits) (hrel : ∀ b, ∀ r ∈ rel, r ∈ (touch b).regs)
    (heff : ∀ b v w t, ok b v w t → Kept (touch b) w (eff b v w t).1) : Completes i m srcs rel ok eff touch := by
  intro s b hb hsm
  refine ⟨_, hi s b hb, ?_, ?_⟩
  · rw [State.runThreads_eq s b hb]
    rw [Run.fold_smooth s.view b m srcs rel (act b) (twin b) (body b) _ (eff b s.view)
      (fun u t h => ⟨h.1, (hok _ _ _ _ h.2).1, (hok _ _ _ _ h.2).2, hact _ _ _ _ h.2⟩) b.threads _ hsm]
    rfl
  · rw [State.runThreads_eq s b hb]
    rw [Run.fold_smooth s.view b m srcs rel (act b) (twin b) (body b) _ (eff b s.view)
      (fun u t h => ⟨h.1, (hok _ _ _ _ h.2).1, (hok _ _ _ _ h.2).2, hact _ _ _ _ h.2⟩) b.threads _ hsm]
    exact (State.turn_kept (hx b) s.view b m rel _ (eff b s.view) (hrel b) (fun w t h => heff _ _ _ _ h.2)
      (fun w t h => (hok _ _ _ _ h.2).2) b.threads s hsm).trans (hx b)
      (State.finishIssue_kept (hx b) _ b)

/-- The same for an instruction that is no visible act. -/
theorem completes_plain {i : Instr} {m : Mods} {srcs rel : List VReg} {ok : Bundle → State → State → Tid → Prop}
    {eff : Bundle → State → State → Tid → State × Flow} {touch : Bundle → Touch}
    (body : Bundle → State → State → Tid → State × Flow)
    (hi : ∀ s b, s.bundle? = some b → exec i s = .next (s.runReads m srcs rel (body b)))
    (hok : ∀ b v w t, ok b v w t → body b v w t = eff b v w t ∧ (eff b v w t).2.ends = true)
    (hx : ∀ b, (touch b).Fits) (hrel : ∀ b, ∀ r ∈ rel, r ∈ (touch b).regs)
    (heff : ∀ b v w t, ok b v w t → Kept (touch b) w (eff b v w t).1) : Completes i m srcs rel ok eff touch :=
  completes_of (fun _ => noAct) (fun _ s _ => s) body hi hok (fun _ _ _ _ _ => Or.inl rfl) hx hrel heff

theorem curBundle_of (s : State) (b : Bundle) (h : s.bundle? = some b) : s.curBundle = b := by
  unfold State.curBundle
  rw [h]
  rfl

end Sys2Proof.Machine
end

