-- ==== Sys2Proof/Laws/Effects.lean ====
section
/-! SUPPORT. The frames of the operations that instructions' effects are made of. -/

namespace Sys2Proof.Machine

/-! ### Registers and predicates -/

theorem State.slotLane_writeV_ne (s : State) (t : Tid) (r : VReg) (v : Word) (c i k l : Nat) (h : r.val ≠ 48 + k) :
    (s.writeV t r v).slotLane c i k l = s.slotLane c i k l := by
  unfold State.writeV
  split
  · next c' i' hs =>
    have h48 := s.slotFor_ge t r c' i' hs
    simp only [State.slotLane]
    rw [State.slot?_modSlot s c' i' c i (fun sl => { sl with
      regs := put [] (r.val - 48) (put 0 t.lane v (look [] (r.val - 48) sl.regs)) sl.regs,
      poison := put 0 (r.val - 48) (setBit64 (look 0 (r.val - 48) sl.poison) t.lane false) sl.poison }) fun x => ⟨rfl, rfl⟩]
    by_cases hc : c = c' ∧ i = i'
    · rw [if_pos hc]
      cases s.slot? c i with
      | none => rfl
      | some x =>
        simp only [Option.map_some, look_put]
        rw [if_neg (by omega)]
    · rw [if_neg hc]
  · rfl

theorem State.troopLane_writeV_ne (s : State) (t : Tid) (r q : VReg) (v : Word) (b u l : Nat) (h : q ≠ r) :
    (s.writeV t r v).troopLane b u l q = s.troopLane b u l q := by
  unfold State.writeV
  split
  · rfl
  · apply State.troopLane_modTroop
    intro x _ _
    rw [Troop.lane_writeName, if_neg fun h' => h h'.1]

theorem State.idle_writeV (s : State) (t : Tid) (r : VReg) (v : Word) : (s.writeV t r v).bands.map Band.idle = s.bands.map Band.idle := by
  unfold State.writeV
  split
  · rfl
  · exact State.idle_modTroop s _ _ (fun x => x.writeName r t.lane v) (fun b => b) fun y => Troop.idle_setName y r _

theorem State.thread?_writeV (s : State) (t : Tid) (r : VReg) (v : Word) (u : Tid) : (s.writeV t r v).thread? u = s.thread? u := by
  unfold State.writeV
  split
  · rfl
  · exact State.thread?_modTroop s _ _ (fun x => x.writeName r t.lane v) (fun y => Troop.setName_threads y r _) u

theorem Kept.writeV {x : Touch} (hx : x.Fits) (s : State) (t : Tid) (r : VReg) (v : Word) (h : r ∈ x.regs) :
    Kept x s (s.writeV t r v) :=
  Kept.of_shape hx (s.writeV_shape t r v) (s.idle_writeV t r v) (fun u => by rw [State.thread?_writeV])
    (fun b u l q hq => State.troopLane_writeV_ne s t r q v b u l fun e => hq (e ▸ h))
    (fun c i k l hk => State.slotLane_writeV_ne s t r v c i k l (hk r h)) fun u p _ => State.readP_writeV s t r v u p

theorem Kept.writeP {x : Touch} (hx : x.Fits) (s : State) (t : Tid) (r : PReg) (b : Bool) (h : r ∈ x.preds) :
    Kept x s (s.writeP t r b) := by
  have hth : ∀ u, (s.writeP t r b).thread? u = if u = t then (s.thread? u).map (fun th =>
      { th with preds := if b then th.preds ||| BitVec.ofNat 24 (2 ^ r.val) else th.preds &&& ~~~BitVec.ofNat 24 (2 ^ r.val) })
      else s.thread? u := fun u => State.thread?_modThread s t u _
  refine Kept.of_shape hx (s.writeP_shape t r b) (State.idle_modThread s t _ (fun b => b) fun _ => rfl) (fun u => ?_)
    (fun c u l q _ => State.troopLane_writeP s t r b c u l q) (fun c i k l _ => rfl) fun u p hp => ?_
  · rw [hth]
    split
    · cases s.thread? u <;> rfl
    · rfl
  · by_cases hu : (s.thread? t).isSome = true
    · rw [State.readP_writeP s t u r p b hu, if_neg fun h' : u = t ∧ p = r => hp (h'.2 ▸ h)]
    · have hn : s.thread? t = none := by simpa using hu
      simp only [State.readP, hth]
      by_cases hut : u = t
      · rw [if_pos hut, hut, hn]; rfl
      · rw [if_neg hut]

theorem Kept.writeRegs {x : Touch} (hx : x.Fits) (s : State) (t : Tid) (ws : List RegWrite)
    (h : ∀ r v, RegWrite.v r v ∈ ws → r ∈ x.regs) (hp : ∀ r v, RegWrite.p r v ∈ ws → r ∈ x.preds) : Kept x s (s.writeRegs t ws) := by
  unfold State.writeRegs
  induction ws generalizing s with
  | nil => exact Kept.refl hx s
  | cons w ws ih =>
    rw [List.foldl_cons]
    refine Kept.trans hx ?_ (ih _ (fun r v hr => h r v (List.mem_cons_of_mem _ hr)) fun r v hr => hp r v (List.mem_cons_of_mem _ hr))
    cases w with
    | v r v => exact Kept.writeV hx s t r v (h r v (by simp))
    | p r v => exact Kept.writeP hx s t r v (hp r v (by simp))

theorem Kept.reserve {x : Touch} (hx : x.Fits) (s : State) (t : Tid) (rs : List VReg) : Kept x s (s.reserve t rs) := by
  unfold State.reserve
  generalize (rs.filter fun r => (s.slotFor t r).isNone) = ns
  induction ns generalizing s with
  | nil => exact Kept.refl hx s
  | cons r ns ih =>
    rw [List.foldl_cons]
    refine Kept.trans hx ?_ (ih _)
    have hthr : ∀ y : Troop, (if (y.name? r).isSome then y else y.setName r (some VName.fresh)).threads = y.threads := by
      intro y; split
      · rfl
      · exact Troop.setName_threads y r _
    have hidle : ∀ y : Troop, (if (y.name? r).isSome then y else y.setName r (some VName.fresh)).idle = y.idle := by
      intro y; split
      · rfl
      · exact Troop.idle_setName y r _
    have hbare : ∀ y : Troop, (if (y.name? r).isSome then y else y.setName r (some VName.fresh)).bare = y.bare := by
      intro y; split
      · rfl
      · exact Troop.setName_bare y r _
    refine Kept.of_shape hx (SameShape.of_modTroop s _ _ _ hbare) (State.idle_modTroop s _ _ _ (fun b => b) hidle)
      (fun u => by rw [State.thread?_modTroop s _ _ _ hthr u]) (fun b u l q _ => ?_) (fun c i k l _ => rfl)
      fun u p _ => State.readP_modTroop s _ _ _ hthr u p
    apply State.troopLane_modTroop
    intro y _ _
    split
    · rfl
    · next hn =>
      simp only [Troop.lane, Troop.name?_setName]
      by_cases hq : q = r
      · subst hq
        simp only [Bool.not_eq_true, Option.isSome_eq_false_iff, Option.isNone_iff_eq_none] at hn
        rw [if_pos rfl, hn]
        rfl
      · rw [if_neg hq]

/-! ### Flags and operations in progress -/

theorem flagsHeld_append (hs : List FlagHold) (h : FlagHold) (t : Tid) (f : Nat) (hf : ¬ (h.tid = t ∧ h.flag = f)) :
    flagHeld (hs ++ [h]) t f = flagHeld hs t f := by
  simp only [flagHeld, List.any_append, List.any_cons, List.any_nil, Bool.or_false]
  have : (h.tid == t && h.flag == f) = false := by
    cases h1 : h.tid == t <;> cases h2 : h.flag == f <;> simp_all
  rw [this, Bool.or_false]

theorem flagsFold_bit (g : Nat → Bool) (ks : List Nat) (m : BitVec 12) (f : Nat) (hf : f < 12) :
    (ks.foldl (fun m k => if g k then m ||| BitVec.twoPow 12 k else m) m).getLsbD f = (m.getLsbD f || (ks.contains f && g f)) := by
  induction ks generalizing m with
  | nil => simp
  | cons k ks ih =>
    rw [List.foldl_cons, ih]
    by_cases hk : g k
    · rw [if_pos hk, BitVec.getLsbD_or, BitVec.getLsbD_twoPow]
      by_cases hkf : k = f
      · subst hkf; simp [hf, hk]
      · have hfk : ¬ f = k := fun h => hkf h.symm
        simp [hkf, hfk]
    · rw [if_neg hk]
      by_cases hkf : f = k
      · subst hkf; simp [hk]
      · simp [hkf]

/-- The bits of the flags that operations hold. -/
theorem flagsHeld_bit (hs : List FlagHold) (t : Tid) (f : Nat) : (flagsHeld hs t).getLsbD f = (Decidable.decide (f < 12) && flagHeld hs t f) := by
  by_cases hf : f < 12
  · have : (List.range 12).contains f = true := by simpa using hf
    rw [flagsHeld, flagsFold_bit _ _ _ _ hf, this]
    simp [hf]
  · rw [BitVec.getLsbD_of_ge _ _ (by omega)]; simp [hf]

theorem State.flagOf_refresh (s : State) (t u : Tid) (f : Nat) :
    (s.refreshFlags t).flagOf u f = if u = t ∧ (s.thread? t).isSome then (Decidable.decide (f < 12) && flagHeld s.holds t f) else s.flagOf u f := by
  simp only [State.flagOf, State.refreshFlags, State.thread?_modThread]
  by_cases h : u = t
  · subst h
    cases hs : s.thread? u with
    | none => simp
    | some th => simp [flagsHeld_bit]
  · simp [h]

/-- A field of the state that flags, registers and frames do not look at. -/
theorem Kept.of_rest {x : Touch} {s u : State} (hb : u.bands = s.bands) (hs : u.slots = s.slots) (hh : u.holds = s.holds)
    (hc : u.cores.map x.core = s.cores.map x.core) (hd : u.dies.map x.die = s.dies.map x.die) (hr : u = x.rest s u) : Kept x s u := by
  have hth : ∀ t, u.thread? t = s.thread? t := fun t => by simp only [State.thread?, State.troop?, State.band?, hb]
  have hsl : ∀ c i, u.slot? c i = s.slot? c i := fun c i => by simp only [State.slot?, hs]
  refine ⟨fun b t l r _ => by simp only [State.troopLane, State.troop?, State.band?, hb], fun c i k l _ => by simp only [State.slotLane, hsl],
    by rw [hs], fun t p _ => by simp only [State.readP, hth], fun hf => ⟨?_, fun t f _ => by simp only [State.flagOf, hth]⟩, by rw [hb], hc, hd, hr⟩
  intro t th ht
  rw [hth] at ht
  rw [hh]
  exact hf t th ht

theorem Kept.setFlag {x : Touch} (hx : x.Fits) (s : State) (t : Tid) (fl ow : Nat) (src : Bool) (h : fl < 12 → fl ∈ x.flags)
    (hr : ∀ s u : State, u = { s with bands := u.bands, holds := u.holds } → u = x.rest s u) : Kept x s (s.setFlag t fl ow src) := by
  unfold State.setFlag
  split
  · next hfl =>
    generalize hs1 : ({ s with holds := s.holds ++ [⟨t, fl, ow, src⟩] } : State) = s1
    have hth : ∀ u, s1.thread? u = s.thread? u := fun u => by subst hs1; rfl
    have hho : s1.holds = s.holds ++ [⟨t, fl, ow, src⟩] := by subst hs1; rfl
    have hth2 : ∀ u, (s1.refreshFlags t).thread? u = if u = t then (s1.thread? u).map (fun th => { th with flags := flagsHeld s1.holds t })
        else s1.thread? u := fun u => State.thread?_modThread s1 t u _
    refine ⟨fun b u l r _ => ?_, fun c i k l _ => ?_, ?_, fun u p _ => ?_, fun hf => ⟨?_, ?_⟩, ?_, ?_, ?_, ?_⟩
    · rw [State.refreshFlags, State.troopLane_modThread]; subst hs1; rfl
    · subst hs1; rfl
    · subst hs1; rfl
    · simp only [State.readP, hth2, hth]
      by_cases hu : u = t
      · rw [if_pos hu]; cases s.thread? u <;> rfl
      · rw [if_neg hu]
    · intro u th hu
      rw [hth2] at hu
      have hho2 : (s1.refreshFlags t).holds = s1.holds := rfl
      rw [hho2]
      by_cases hut : u = t
      · rw [if_pos hut] at hu
        cases hs : s1.thread? u with
        | none => simp [hs] at hu
        | some y =>
          simp only [hs, Option.map_some, Option.some.injEq] at hu
          rw [← hu, hut]
      · rw [if_neg hut, hth] at hu
        rw [hf u th hu, hho]
        apply BitVec.eq_of_getLsbD_eq
        intro i hi
        rw [flagsHeld_bit, flagsHeld_bit, flagsHeld_append _ _ _ _ fun h' => hut h'.1.symm]
    · intro u f hn
      rw [State.flagOf_refresh]
      split
      · next h' =>
        obtain ⟨rfl, hsome⟩ := h'
        rw [hho, flagsHeld_append s.holds ⟨u, fl, ow, src⟩ u f fun h' : u = u ∧ fl = f => hn (h'.2 ▸ h hfl)]
        rw [hth] at hsome
        simp only [State.flagOf]
        cases hs : s.thread? u with
        | none => simp [hs] at hsome
        | some y =>
          simp only [Option.map_some, Option.getD_some]
          rw [hf u y hs, flagsHeld_bit]
      · simp only [State.flagOf, hth]
    · have hi := State.idle_modThread s1 t (fun th => { th with flags := flagsHeld s1.holds t }) x.band fun _ => rfl
      have hb : s1.bands = s.bands := by subst hs1; rfl
      rw [hb] at hi
      exact hi
    · subst hs1; rfl
    · subst hs1; rfl
    · apply hr; subst hs1; rfl
  · exact Kept.refl hx s

/-- A long-latency operation begins. -/
theorem Kept.pend {x : Touch} (hx : x.Fits) (s : State) (b : Bundle) (t : Tid) (n : Nat) (p q : Bool) (what : Pend) (rel : List VReg)
    (ha : p = true → b.seta < 12 → b.seta ∈ x.flags) (hb : q = true → b.setb < 12 → b.setb ∈ x.flags)
    (hr : ∀ s u : State, u = { s with bands := u.bands, holds := u.holds, pending := u.pending, fresh := u.fresh } → u = x.rest s u) :
    Kept x s (s.pend b t n p q what rel) := by
  have hr' : ∀ s u : State, u = { s with bands := u.bands, holds := u.holds } → u = x.rest s u := fun s u h => hr s u (by rw [h])
  have h1 : Kept x s { s with pending := s.pending ++ [⟨s.fresh, t, b.pc, n, what, rel⟩], fresh := s.fresh + 1 } :=
    Kept.of_rest rfl rfl rfl rfl rfl (hr _ _ rfl)
  unfold State.pend
  simp only
  cases p <;> cases q
  · exact h1
  · exact h1.trans hx (Kept.setFlag hx _ t b.setb _ true (hb rfl) hr')
  · exact h1.trans hx (Kept.setFlag hx _ t b.seta _ false (ha rfl) hr')
  · exact (h1.trans hx (Kept.setFlag hx _ t b.seta _ false (ha rfl) hr')).trans hx (Kept.setFlag hx _ t b.setb _ true (hb rfl) hr')

/-! ### Bands, troops and the rest -/

/-- A change of a troop that leaves its registers and threads. -/
theorem Kept.of_modTroop {x : Touch} (hx : x.Fits) (s : State) (b t : Nat) (f : Troop → Troop) (hn : ∀ y, (f y).names = y.names)
    (hth : ∀ y, (f y).threads = y.threads)
    (hb : ∀ y, x.band (Band.modTroop y t f).idle = x.band y.idle) : Kept x s (s.modTroop b t f) := by
  have ht : ∀ u, (s.modTroop b t f).thread? u = s.thread? u := State.thread?_modTroop s b t f hth
  refine ⟨fun c u l r _ => ?_, fun c i k l _ => rfl, rfl, fun u p _ => by simp only [State.readP, ht], fun hf => ⟨?_, ?_⟩, ?_, rfl, rfl, hx.issue _ _ rfl⟩
  · apply State.troopLane_modTroop
    intro y _ _
    simp only [Troop.lane, Troop.name?, hn]
  · intro u th hu
    rw [ht] at hu
    exact hf u th hu
  · intro u k _
    simp only [State.flagOf, ht]
  · exact State.idle_modBand s b _ x.band hb

/-- A change of a troop that an erasure of troops does not see. -/
theorem Band.erase_modTroop (x : Band) (t : Nat) (f e : Troop → Troop) (hf : ∀ y, e (f y).idle = e y.idle) :
    ({ (x.modTroop t f).idle with troops := (x.modTroop t f).idle.troops.map e } : Band) =
      { x.idle with troops := x.idle.troops.map e } := by
  unfold Band.modTroop Band.idle
  simp only
  congr 1
  generalize x.troops = l
  induction l generalizing t with
  | nil => rfl
  | cons y l ih =>
    cases t with
    | zero => simp only [modAt, List.map_cons, hf y]
    | succ t => simp only [modAt, List.map_cons, ih t]

/-- A change of a thread that an erasure of threads does not see. -/
theorem Troop.erase_modThread (y : Troop) (l : Nat) (f e : Thread → Thread) (hf : ∀ th, e (f th).idle = e th.idle) :
    ({ (y.modThread l f).idle with threads := (y.modThread l f).idle.threads.map e } : Troop) =
      { y.idle with threads := y.idle.threads.map e } := by
  unfold Troop.modThread Troop.idle
  simp only
  congr 1
  generalize y.threads = ls
  induction ls generalizing l with
  | nil => rfl
  | cons z ls ih =>
    cases l with
    | zero => simp only [modAt, List.map_cons, hf z]
    | succ l => simp only [modAt, List.map_cons, ih l]

/-- A change of a thread that its issue state does not see. -/
theorem Kept.of_thread {x : Touch} (hx : x.Fits) (s : State) (t : Tid) (f : Thread → Thread)
    (hp : ∀ y, (f y).preds = y.preds) (hg : ∀ y, (f y).flags = y.flags)
    (hb : ∀ y, x.band (Band.modTroop y t.troop fun z => z.modThread t.lane f).idle = x.band y.idle) : Kept x s (s.modThread t f) := by
  have hth : ∀ u, (s.modThread t f).thread? u = if u = t then (s.thread? u).map f else s.thread? u := fun u =>
    State.thread?_modThread s t u f
  refine ⟨fun b u l r _ => State.troopLane_modThread s t f b u l r, fun c i k l _ => rfl, rfl, fun u p _ => ?_, fun h => ⟨?_, ?_⟩,
    State.idle_modBand s t.band _ x.band hb, rfl, rfl, hx.issue _ _ rfl⟩
  · simp only [State.readP, hth]
    by_cases h : u = t
    · rw [if_pos h]
      cases s.thread? u <;> simp [hp]
    · rw [if_neg h]
  · intro u th hu
    rw [hth] at hu
    split at hu
    · cases hs : s.thread? u with
      | none => simp [hs] at hu
      | some y =>
        simp only [hs, Option.map_some, Option.some.injEq] at hu
        rw [← hu, hg]
        exact h u y hs
    · exact h u th hu
  · intro u k _
    simp only [State.flagOf, hth]
    split
    · cases s.thread? u <;> simp [hg]
    · rfl

/-- A change of a band that leaves its number and troops. -/
theorem Kept.of_modBand {x : Touch} (hx : x.Fits) (s : State) (b : Nat) (f : Band → Band) (hi : ∀ y, (f y).id = y.id)
    (ht : ∀ y, (f y).troops = y.troops) (hb : ∀ y, x.band (f y).idle = x.band y.idle) : Kept x s (s.modBand b f) := by
  have htr : ∀ c u, (s.modBand b f).troop? c u = s.troop? c u := by
    intro c u
    simp only [State.troop?]
    by_cases hc : c = b
    · subst hc
      rw [State.band?_modBand_self s c f hi]
      cases s.band? c with
      | none => rfl
      | some y => simp [ht]
    · rw [State.band?_modBand_ne s b c f hi hc]
  have hth : ∀ u, (s.modBand b f).thread? u = s.thread? u := fun u => by simp only [State.thread?, htr]
  refine ⟨fun c u l r _ => by simp only [State.troopLane, htr], fun c i k l _ => rfl, rfl, fun u p _ => by simp only [State.readP, hth],
    fun hf => ⟨?_, fun u k _ => by simp only [State.flagOf, hth]⟩, State.idle_modBand s b f x.band hb, rfl, rfl, hx.issue _ _ rfl⟩
  intro u th hu
  rw [hth] at hu
  exact hf u th hu

/-- The default rest: nothing but bands, bundles and trap slots. -/
theorem Touch.fits (r p f b c d) : Touch.Fits { regs := r, preds := p, flags := f, band := b, core := c, die := d } :=
  ⟨fun _ => rfl, fun s u w h k => by have h1 := h; have h2 := k; rw [h1] at h2; exact h2, fun _ _ h => h⟩

theorem State.take_ok (w : State) (t : Tid) (ds : List VReg) (h : w.alloc t.band t.troop (w.needs t ds).eraseDups.length = .ok) :
    w.take t ds = .ok (w.reserve t ds) := by
  unfold State.take; rw [h]

end Sys2Proof.Machine
end

