-- ==== Sys2Proof/Laws/Issues.lean ====
section
/-! SUPPORT. Issues of long-latency instructions and of memory accesses: what they need to complete, and their frames. -/

namespace Sys2Proof.Machine

/-- An instruction whose checked sources depend on the state. -/
theorem completes_reads {i : Instr} {m : Mods} {srcs : List VReg} {ok : Bundle → State → State → Tid → Prop}
    {eff : Bundle → State → State → Tid → State × Flow} {touch : Bundle → Touch} (reads : State → List VReg)
    (body : Bundle → State → State → Tid → State × Flow) (hsub : ∀ s, ∀ r ∈ reads s, r ∈ srcs)
    (hi : ∀ s b, s.bundle? = some b → exec i s = .next (s.runReads m (reads s) [] (body b)))
    (hok : ∀ b v w t, ok b v w t → body b v w t = eff b v w t ∧ (eff b v w t).2.ends = true)
    (hx : ∀ b, (touch b).Fits)
    (heff : ∀ b v w t, ok b v w t → Kept (touch b) w (eff b v w t).1) : Completes i m srcs [] ok eff touch := by
  intro s b hb hsm
  have hf := Run.fold_smooth s.view b m (reads s) [] noAct (fun s _ => s) (body b) _ (eff b s.view)
    (fun u t h => ⟨fun q hq => h.1 q (hsub s q hq), (hok _ _ _ _ h.2).1, (hok _ _ _ _ h.2).2, Or.inl rfl⟩) b.threads ⟨s, [], [], [], []⟩ hsm
  refine ⟨_, hi s b hb, ?_, ?_⟩
  · rw [State.runReads, State.runThreads_eq s b hb]
    rw [hf]
    rfl
  · rw [State.runReads, State.runThreads_eq s b hb]
    rw [hf]
    exact (State.turn_kept (hx b) s.view b m [] _ (eff b s.view) (by simp) (fun w t h => heff _ _ _ _ h.2)
      (fun w t h => (hok _ _ _ _ h.2).2) b.threads s hsm).trans (hx b)
      (State.finishIssue_kept (hx b) _ b)

theorem Touch.longOp_fits (b : Bundle) : (Touch.longOp b).Fits :=
  ⟨fun _ => rfl, fun s u w h k => by have h1 := h; have h2 := k; rw [h1] at h2; exact h2, fun s u h => by rw [h]; rfl⟩

theorem Touch.access_fits (b : Bundle) (rs : List VReg) : (Touch.access b rs).Fits :=
  ⟨fun _ => rfl, fun s u w h k => by have h1 := h; have h2 := k; rw [h1] at h2; exact h2, fun s u h => by rw [h]; rfl⟩

theorem Kept.pend_longOp (s : State) (b : Bundle) (t : Tid) (n : Nat) (what : Pend) (rel : List VReg) :
    Kept (Touch.longOp b) s (s.pend b t n true true what rel) :=
  Kept.pend (Touch.longOp_fits b) s b t n true true what rel (fun _ _ => List.mem_cons_self ..)
    (fun _ _ => List.mem_cons_of_mem _ (List.mem_cons_self ..)) fun s u h => by rw [h]; rfl

theorem Kept.pend_access (rs : List VReg) (s : State) (b : Bundle) (t : Tid) (n : Nat) (what : Pend) (rel : List VReg) :
    Kept (Touch.access b rs) s (s.pend b t n true true what rel) :=
  Kept.pend (Touch.access_fits b rs) s b t n true true what rel (fun _ _ => List.mem_cons_self ..)
    (fun _ _ => List.mem_cons_of_mem _ (List.mem_cons_self ..)) fun s u h => by rw [h]; rfl

/-- A register is reserved and an operation set in progress. -/
theorem Kept.reserve_pend (s : State) (b : Bundle) (t : Tid) (ds : List VReg) (n : Nat) (what : Pend) (rel : List VReg) :
    Kept (Touch.longOp b) s ((s.reserve t ds).pend b t n true true what rel) :=
  (Kept.reserve (Touch.longOp_fits b) s t ds).trans (Touch.longOp_fits b) (Kept.pend_longOp _ b t n what rel)

/-- An instruction that acts once for its issue, where it leaves the bundle and what registers are read from as they are. -/
theorem completesOnce_of {need : Bundle → State → Prop} {pre : Bundle → State → State} {i : Instr} {m : Mods}
    {srcs rel : List VReg} {ok : Bundle → State → State → Tid → Prop} {eff : Bundle → State → State → Tid → State × Flow}
    {touch : Bundle → Touch} (body : Bundle → State → State → Tid → State × Flow)
    (hi : ∀ s b, s.bundle? = some b → need b s → exec i s = .next ((pre b s).runReads m srcs rel (body b)))
    (hp : ∀ s b, s.bundle? = some b → need b s → (pre b s).bundle? = some b)
    (hg : ∀ s b t, s.bundle? = some b → need b s → (pre b s).view.guardTrue m t = s.view.guardTrue m t)
    (hq : ∀ s b t r, s.bundle? = some b → need b s → (pre b s).view.poisonedReg t r = s.view.poisonedReg t r)
    (hok : ∀ s b w t, s.bundle? = some b → need b s → ok b s.view w t →
      body b (pre b s).view w t = eff b s.view w t ∧ (eff b s.view w t).2.ends = true)
    (hx : ∀ b, (touch b).Fits) (hrel : ∀ b, ∀ r ∈ rel, r ∈ (touch b).regs)
    (hk : ∀ s b, s.bundle? = some b → need b s → Kept (touch b) s (pre b s))
    (heff : ∀ b v w t, ok b v w t → Kept (touch b) w (eff b v w t).1) :
    CompletesOnce need pre (fun _ s => s) i m srcs rel ok eff touch := by
  intro s b hb hn hsm
  have hgf : ∀ (u : State) (t : Tid), (pre b s).view.turn b m rel (eff b s.view) u t = s.view.turn b m rel (eff b s.view) u t := fun u t => by
    unfold State.turn; rw [hg s b t hb hn]
  have hfun : (pre b s).view.turn b m rel (eff b s.view) = s.view.turn b m rel (eff b s.view) := by funext u t; exact hgf u t
  have hsm1 : ∀ (ts : List Tid) (u : State), s.view.smooth b m rel (fun w t => (∀ r ∈ srcs, s.view.poisonedReg t r = false) ∧ ok b s.view w t) (eff b s.view) u ts →
      (pre b s).view.smooth b m rel (fun w t => (∀ r ∈ srcs, s.view.poisonedReg t r = false) ∧ ok b s.view w t) (eff b s.view) u ts := by
    intro ts
    induction ts with
    | nil => intro u _; trivial
    | cons t ts ih =>
      intro u h
      refine ⟨fun h1 => h.1 (by rw [← hg s b t hb hn]; exact h1), ?_⟩
      rw [hgf]
      exact ih _ h.2
  have hf := Run.fold_smooth (pre b s).view b m srcs rel noAct (fun s _ => s) (body b) _ (eff b s.view)
    (fun u t h => ⟨fun q hq' => by rw [hq s b t q hb hn]; exact h.1 q hq', (hok _ _ _ _ hb hn h.2).1, (hok _ _ _ _ hb hn h.2).2, Or.inl rfl⟩)
    b.threads ⟨pre b s, [], [], [], []⟩ (hsm1 _ _ hsm)
  rw [hfun] at hf
  refine ⟨_, hi s b hb hn, ?_, ?_⟩
  · rw [State.runReads, State.runThreads_eq _ b (hp s b hb hn)]
    rw [hf]
    rfl
  · rw [State.runReads, State.runThreads_eq _ b (hp s b hb hn)]
    rw [hf]
    exact ((hk s b hb hn).trans (hx b) (State.turn_kept (hx b) s.view b m rel _ (eff b s.view) (hrel b) (fun w t h => heff _ _ _ _ h.2)
      (fun w t h => (hok s b _ _ hb hn h.2).2) b.threads (pre b s) hsm)).trans (hx b) (State.finishIssue_kept (hx b) _ b)

end Sys2Proof.Machine
end

