-- ==== Sys2Proof/Laws/Caches.lean ====
section
/-! SUPPORT. What moves when lines are filled, written down and dropped: nothing outside the caches and their homes. -/

namespace Sys2Proof.Machine

/-! ### The relation -/

theorem CacheOnly.refl (s : State) : CacheOnly s s := ⟨rfl, rfl, rfl⟩

theorem CacheOnly.trans {s u w : State} (h : CacheOnly s u) (k : CacheOnly u w) : CacheOnly s w := by
  refine ⟨?_, k.cores.trans h.cores, k.dies.trans h.dies⟩
  have h1 := h.rest
  have h2 := k.rest
  rw [h1] at h2
  exact h2

theorem CacheOnly.core (s : State) (c : Nat) (f : CoreSt → CoreSt) (h : ∀ x, (f x).cold = x.cold) : CacheOnly s (s.modCore c f) :=
  ⟨rfl, map_modIf _ _ f _ h, rfl⟩

theorem CacheOnly.die (s : State) (d : Nat) (f : DieSt → DieSt) (h : ∀ x, (f x).cold = x.cold) : CacheOnly s (s.modDie d f) :=
  ⟨rfl, rfl, map_modIf _ _ f _ h⟩

theorem CacheOnly.foldl {α : Type} (l : List α) (f : State → α → State) (s : State) (h : ∀ s a, CacheOnly s (f s a)) :
    CacheOnly s (l.foldl f s) := by
  induction l generalizing s with
  | nil => exact CacheOnly.refl s
  | cons a l ih => exact (h s a).trans (ih _)

/-! ### The operations -/

theorem CoreSt.cold_count (c : CoreSt) (asid : Nat) (f : CoreCounts → CoreCounts) : (c.count asid f).cold = c.cold := by
  unfold CoreSt.count
  split <;> rfl

theorem CacheOnly.setHome (s : State) (h : HomeId) (pa : Nat) (bs : List Byte) : CacheOnly s (s.setHomeBytes h pa bs) := by
  unfold State.setHomeBytes
  split <;> exact ⟨rfl, rfl, rfl⟩

theorem CacheOnly.keepReturned (s : State) (h : HomeId) (line : Nat) (mask : BitVec 128) :
    CacheOnly s (s.keepReturned h line mask) := ⟨rfl, rfl, rfl⟩

theorem CacheOnly.mergeHome (s : State) (h : HomeId) (line : Nat) (data : BitVec 1024) (mask : BitVec 128) (p : Bool) :
    CacheOnly s (s.mergeHome h line data mask p) := by
  unfold State.mergeHome
  have h1 := (CacheOnly.keepReturned s h line mask).trans (CacheOnly.foldl (lineBytes data mask)
    (fun s e => s.setHomeBytes h (lineBase line + e.1) [e.2]) _ fun s e => CacheOnly.setHome s h _ _)
  simp only
  split
  · exact h1.trans ⟨rfl, rfl, rfl⟩
  · exact h1

theorem CacheOnly.request (s : State) (core asid : Nat) (h : HomeId) : CacheOnly s (s.lineRequest core asid h) :=
  CacheOnly.core s core _ fun x => x.cold_count asid _

theorem CacheOnly.writeDownL2 (s : State) (die line : Nat) : CacheOnly s (s.writeDownL2 die line) := by
  unfold State.writeDownL2
  split
  · exact CacheOnly.refl s
  · split
    · exact CacheOnly.refl s
    · exact (CacheOnly.mergeHome ..).trans (CacheOnly.die _ _ _ fun _ => rfl)

theorem CacheOnly.dropL2 (s : State) (die line : Nat) : CacheOnly s (s.dropL2 die line) := CacheOnly.die _ _ _ fun _ => rfl

theorem CacheOnly.dropL1 (s : State) (core line : Nat) : CacheOnly s (s.dropL1 core line) := CacheOnly.core _ _ _ fun _ => rfl

theorem CacheOnly.roomL2 (s : State) (die : Nat) : CacheOnly s (s.roomL2 die) := by
  unfold State.roomL2
  split
  · exact CacheOnly.refl s
  · split
    · exact CacheOnly.refl s
    · split
      · exact CacheOnly.refl s
      · exact (CacheOnly.writeDownL2 ..).trans (CacheOnly.dropL2 ..)

theorem CacheOnly.invalL2 (s : State) (die line : Nat) : CacheOnly s (s.invalL2 die line) :=
  (CacheOnly.writeDownL2 ..).trans (CacheOnly.dropL2 ..)

theorem CacheOnly.fillL2 (s : State) (die asid line : Nat) (h : HomeId) : CacheOnly s (s.fillL2 die asid line h) := by
  unfold State.fillL2
  extract_lets s1
  have h0 : CacheOnly s s1 := by
    simp only [s1]
    split
    · split
      · exact CacheOnly.refl s
      · exact CacheOnly.invalL2 ..
    · exact CacheOnly.refl s
  clear_value s1
  refine h0.trans ?_
  split
  · exact CacheOnly.refl s1
  · exact (CacheOnly.roomL2 s1 die).trans (CacheOnly.die _ _ _ fun _ => rfl)

theorem CacheOnly.mergeL2 (s : State) (die asid line : Nat) (h : HomeId) (data : BitVec 1024) (mask : BitVec 128) (p : Bool) :
    CacheOnly s (s.mergeL2 die asid line h data mask p) := by
  unfold State.mergeL2
  split
  · exact CacheOnly.mergeHome ..
  · exact (CacheOnly.fillL2 ..).trans (CacheOnly.die _ _ _ fun _ => rfl)

theorem CacheOnly.writeDownL1 (s : State) (core line : Nat) : CacheOnly s (s.writeDownL1 core line) := by
  unfold State.writeDownL1
  split
  · exact CacheOnly.refl s
  · split
    · exact CacheOnly.refl s
    · exact ((CacheOnly.mergeL2 ..).trans (CacheOnly.request ..)).trans (CacheOnly.core _ _ _ fun _ => rfl)

theorem CacheOnly.invalL1 (s : State) (core line : Nat) : CacheOnly s (s.invalL1 core line) :=
  (CacheOnly.writeDownL1 ..).trans (CacheOnly.dropL1 ..)

theorem CacheOnly.roomL1 (s : State) (core : Nat) : CacheOnly s (s.roomL1 core) := by
  unfold State.roomL1
  split
  · exact CacheOnly.refl s
  · split
    · exact CacheOnly.refl s
    · extract_lets free
      clear_value free
      split
      · exact CacheOnly.refl s
      · exact CacheOnly.invalL1 ..

theorem CacheOnly.fillL1 (s : State) (core asid line : Nat) (h : HomeId) (pol : Policy) : CacheOnly s (s.fillL1 core asid line h pol) := by
  unfold State.fillL1
  extract_lets s1
  have h0 : CacheOnly s s1 := by
    simp only [s1]
    split
    · split
      · exact CacheOnly.refl s
      · exact CacheOnly.invalL1 ..
    · exact CacheOnly.refl s
  clear_value s1
  refine h0.trans ?_
  split
  · split
    · exact CacheOnly.core _ _ _ fun _ => rfl
    · exact CacheOnly.refl s1
  · refine (CacheOnly.trans ?_ (CacheOnly.roomL1 ..)).trans (CacheOnly.core _ _ _ fun _ => rfl)
    refine CacheOnly.trans ?_ (CacheOnly.request ..)
    split
    · exact CacheOnly.refl s1
    · exact CacheOnly.fillL2 ..

theorem CacheOnly.readSite (s : State) (core asid : Nat) (site : Site) (loc : Loc) (n : Nat) (pol : Policy) :
    CacheOnly s (s.readSite core asid site loc n pol).1 := by
  unfold State.readSite
  split
  · split <;> exact CacheOnly.refl s
  · next pa h c =>
    simp only
    split
    · refine CacheOnly.trans ?_ (CacheOnly.request ..)
      split
      · exact CacheOnly.invalL1 ..
      · exact CacheOnly.refl s
    · split <;> exact CacheOnly.fillL1 ..
  · simp only
    refine CacheOnly.trans ?_ (CacheOnly.request ..)
    split
    · exact CacheOnly.invalL1 ..
    · exact (CacheOnly.invalL1 ..).trans (CacheOnly.fillL2 ..)
  · exact CacheOnly.request ..

/-- A write in memory, as opposed to one in a bench. -/
theorem CacheOnly.writeSite (s : State) (core asid : Nat) (site : Site) (pa : Nat) (h : HomeId) (n v : Nat) (pol : Policy) :
    CacheOnly s (s.writeSite core asid site (.mem pa h) n v pol) := by
  unfold State.writeSite
  split
  · next he => cases he
  · next he =>
    cases he
    exact (CacheOnly.fillL1 ..).trans (CacheOnly.core _ _ _ fun _ => rfl)
  · next he =>
    cases he
    exact CacheOnly.mergeL2 ..
  · exact CacheOnly.setHome ..

theorem CacheOnly.releaseLines (s : State) (t : Tid) (sc : Scope) : CacheOnly s (s.releaseLines t sc) := by
  unfold State.releaseLines
  split <;> first | exact CacheOnly.refl s | exact CacheOnly.foldl _ _ _ fun s l => CacheOnly.writeDownL1 ..

theorem CacheOnly.acquireOn (s : State) (b core : Nat) : CacheOnly s (s.acquireOn b core) :=
  CacheOnly.foldl _ _ _ fun s l => CacheOnly.invalL1 ..

theorem CacheOnly.acquireLines (s : State) (t : Tid) (sc : Scope) : CacheOnly s (s.acquireLines t sc) := by
  unfold State.acquireLines
  split <;> first | exact CacheOnly.refl s | exact CacheOnly.acquireOn ..

/-! ### As frames of an issue -/

theorem Touch.ordered_fits (b : Bundle) (rs : List VReg) : (Touch.ordered b rs).Fits :=
  ⟨fun _ => rfl, fun s u w h k => by have h1 := h; have h2 := k; rw [h1] at h2; exact h2, fun s u h => by rw [h]; rfl⟩

theorem Kept.of_cacheOnly {b : Bundle} {rs : List VReg} {s u : State} (h : CacheOnly s u) : Kept (Touch.ordered b rs) s u := by
  have hr := h.rest
  refine Kept.of_rest (by rw [hr]; rfl) (by rw [hr]; rfl) (by rw [hr]; rfl) h.cores h.dies ?_
  rw [hr]
  rfl

theorem Kept.pend_ordered (rs : List VReg) (s : State) (b : Bundle) (t : Tid) (n : Nat) (what : Pend) (rel : List VReg) :
    Kept (Touch.ordered b rs) s (s.pend b t n true true what rel) :=
  Kept.pend (Touch.ordered_fits b rs) s b t n true true what rel (fun _ _ => List.mem_cons_self ..)
    (fun _ _ => List.mem_cons_of_mem _ (List.mem_cons_self ..)) fun s u h => by rw [h]; rfl

/-! ### Addresses -/

theorem State.translate_kept (b : Bundle) (rs : List VReg) (s : State) (core asid va : Nat) (u : Use) (sys : Bool) :
    Kept (Touch.access b rs) s (s.translate core asid va u sys).1 := by
  have hc : ∀ c : CoreSt, ∀ f, (c.count asid f).untimed = c.untimed := fun c f => by unfold CoreSt.count; split <;> rfl
  have hx : Kept (Touch.access b rs) s s := Kept.refl (Touch.access_fits ..) s
  unfold State.translate
  extract_lets hit
  have hhit : ∀ w e, (hit w e).1 = w := by intro w e; simp only [hit]; split <;> rfl
  clear_value hit
  split
  · exact hx
  · split
    · exact hx
    · split
      · rw [hhit]; exact hx
      · split
        · next e _ =>
          rw [hhit]
          have k1 : Kept (Touch.access b rs) s (s.countMiss core asid) :=
            Kept.of_rest rfl rfl rfl (map_modIf _ _ _ _ fun x => hc x _) rfl rfl
          exact k1.trans (Touch.access_fits ..)
            (Kept.of_rest rfl rfl rfl (map_modIf _ _ _ _ fun x => rfl) (map_modIf _ _ _ _ fun x => rfl) rfl)
        · exact hx

theorem State.reach_kept (b : Bundle) (rs : List VReg) (s : State) (t : Tid) (u : Use) (va : Nat) (r : Region) :
    Kept (Touch.access b rs) s (s.reach t u va r).1 := by
  unfold State.reach
  split
  · split <;> exact Kept.refl (Touch.access_fits ..) s
  · have := State.translate_kept b rs s (s.coreOf t) (s.asidOf t) va u (s.inHandler t)
    generalize s.translate (s.coreOf t) (s.asidOf t) va u (s.inHandler t) = p at this ⊢
    obtain ⟨s1, p⟩ := p
    cases p <;> exact this

/-- What AccessAddress does to the state: TLBs and their counts have moved, and nothing else (R188, R204). -/
theorem State.accessAddress_kept (b : Bundle) (rs : List VReg) (s : State) (t : Tid) (r : Region) (off : Int) (size align : Nat)
    (cls : Access) (u : Use) : Kept (Touch.access b rs) s (s.accessAddress t r off size align cls u).1 := by
  unfold State.accessAddress
  split
  · exact Kept.refl (Touch.access_fits ..) s
  · simp only
    split
    · exact Kept.refl (Touch.access_fits ..) s
    · exact State.reach_kept b rs s t u _ _

/-- What an access touches is less than what an ordered one does. -/
theorem Kept.access_ordered {b : Bundle} {rs : List VReg} {s u : State} (h : Kept (Touch.access b rs) s u) : Kept (Touch.ordered b rs) s u := by
  refine ⟨h.regs, h.slots, h.traps, h.preds, h.flags, h.bands, ?_, ?_, ?_⟩
  · have := congrArg (List.map CoreSt.cold) h.cores
    simp only [Touch.access, List.map_map] at this
    exact this
  · have := congrArg (List.map DieSt.cold) h.dies
    simp only [Touch.access, List.map_map] at this
    exact this
  · have := h.rest
    rw [this]
    rfl

/-! ### Issues of accesses -/

theorem Kept.flight_access (rs : List VReg) (b : Bundle) (s : State) (t : Tid) (n : Nat) (g : GReg) (x : Target) (a : Bool) (pol : Policy)
    (act : FlightAct) : Kept (Touch.access b rs) s (s.launchFlight t n g x a pol act) :=
  Kept.of_rest rfl rfl rfl rfl rfl rfl

theorem releaseAt_ok (w : State) (t : Tid) (rel : Bool) (sc : Scope) (h : rel = true → w.orderClear t sc = true) :
    w.releaseAt t rel sc = some (if rel then w.releaseLines t sc else w) := by
  unfold State.releaseAt
  cases rel with
  | false => rfl
  | true => simp [h rfl]

/-- An access changes no pairing. -/
theorem twinOf_access (b : Bundle) (rs : List VReg) {s u : State} (h : Kept (Touch.access b rs) s u) (t : Tid) : u.twinOf t = s.twinOf t := by
  have hb := h.bands
  simp only [Touch.access] at hb
  simp only [State.twinOf, State.partner, State.band?]
  have : ∀ l r : List Band, l.map (fun b => b.idle) = r.map (fun b => b.idle) →
      (l.find? (·.id == t.band)).bind (fun x => x.pair.map (·.2)) = (r.find? (·.id == t.band)).bind fun x => x.pair.map (·.2) := by
    intro l
    induction l with
    | nil => intro r h; cases r with | nil => rfl | cons => simp at h
    | cons x l ih =>
      intro r h
      cases r with
      | nil => simp at h
      | cons y r =>
        simp only [List.map_cons, List.cons.injEq] at h
        obtain ⟨h1, h2⟩ := h
        have hi : x.id = y.id := by have := congrArg Band.id h1; exact this
        have hp : x.pair = y.pair := by have := congrArg Band.pair h1; exact this
        simp only [List.find?_cons, hi]
        split
        · simp [hp]
        · exact ih r h2
  rw [this u.bands s.bands hb]

theorem Touch.atomic_regs (rel : Bool) (b : Bundle) (rs : List VReg) : (Touch.atomic rel b rs).regs = rs := by
  cases rel <;> rfl

theorem Touch.atomic_fits (rel : Bool) (b : Bundle) (rs : List VReg) : (Touch.atomic rel b rs).Fits := by
  cases rel
  · exact Touch.access_fits b rs
  · exact Touch.ordered_fits b rs

theorem Kept.access_atomic {rel : Bool} {b : Bundle} {rs : List VReg} {s u : State} (h : Kept (Touch.access b rs) s u) :
    Kept (Touch.atomic rel b rs) s u := by
  cases rel
  · exact h
  · exact h.access_ordered

theorem Kept.down (b : Bundle) (rs : List VReg) (w : State) (t : Tid) (rel : Bool) (sc : Scope) :
    Kept (Touch.atomic rel b rs) w (if rel then w.releaseLines t sc else w) := by
  cases rel
  · exact Kept.refl (Touch.access_fits ..) w
  · exact Kept.of_cacheOnly (CacheOnly.releaseLines ..)

theorem Kept.pend_atomic {rel : Bool} (rs : List VReg) (s : State) (b : Bundle) (t : Tid) (n : Nat) (what : Pend) (r : List VReg) :
    Kept (Touch.atomic rel b rs) s (s.pend b t n true true what r) := (Kept.pend_access rs s b t n what r).access_atomic

end Sys2Proof.Machine
end

