-- ==== Sys2Proof/Laws/Commands.lean ====
section
/-! SUPPORT. Commands that issue and count: the frame of a commit and of an operation's start, and the steadiness of region
registers and pairs under releases. -/

namespace Sys2Proof.Machine

theorem Touch.command_fits (rs : List VReg) : (Touch.command rs).Fits :=
  ⟨fun _ => rfl, fun s u w h k => by have h1 := h; have h2 := k; rw [h1] at h2; exact h2, fun s u h => by rw [h]; rfl⟩

theorem SameShape.regT {s u : State} (h : SameShape s u) (t : Tid) (g : GReg) : u.regT t g = s.regT t g := by
  unfold State.regT State.reg
  split
  · have := h.troop t.band t.troop
    cases h1 : u.troop? t.band t.troop <;> cases h2 : s.troop? t.band t.troop <;> simp [h1, h2] at this ⊢
    have := congrArg Troop.g this
    simp only [Troop.bare] at this
    rw [this]
  · have := h.band t.band
    cases h1 : u.band? t.band <;> cases h2 : s.band? t.band <;> simp [h1, h2] at this ⊢
    have := congrArg Band.g this
    simp only [Band.bare] at this
    rw [this]

theorem State.regT_release (s : State) (t : Tid) (rs : List VReg) (u : Tid) (g : GReg) : (s.release t rs).regT u g = s.regT u g :=
  (s.release_shape t rs).regT u g

theorem State.visibleTo_release (s : State) (t : Tid) (rs : List VReg) (u : Tid) (g : GReg) :
    (s.release t rs).visibleTo u g = s.visibleTo u g := by
  unfold State.visibleTo
  rw [State.regT_release]

/-- Commits change the rollback marks alone. -/
theorem Kept.commit {x : Touch} (hx : x.Fits) (hb : ∀ y : Band, x.band y.unpoint.idle = x.band y.idle)
    (hr : ∀ s u : State, u = { s with bands := u.bands, slots := u.slots, bundles := u.bundles, shadows := u.shadows } → u = x.rest s u)
    (s : State) (b : Nat) : Kept x s (s.commit b) := by
  unfold State.commit
  extract_lets bs s1
  have h1 : Kept x s s1 := Kept.of_rest rfl rfl rfl rfl rfl (hr _ _ rfl)
  refine h1.trans hx ?_
  generalize s1 = w
  induction bs generalizing w with
  | nil => exact Kept.refl hx w
  | cons c bs ih =>
    rw [List.foldl_cons]
    refine Kept.trans hx (Kept.of_modBand hx w c _ (fun y => ?_) (fun y => ?_) fun y => ?_) (ih _)
    · split <;> rfl
    · split <;> rfl
    · split
      · have e : ({ y with hasPoint := false, committed := true } : Band).unpoint.idle = y.unpoint.idle := rfl
        rw [← hb, e, hb]
      · rfl

theorem Kept.commit_command (rs : List VReg) (s : State) (b : Nat) : Kept (Touch.command rs) s (s.commit b) :=
  Kept.commit (Touch.command_fits rs) (fun _ => rfl) (fun s u h => by rw [h]; rfl) s b

theorem Kept.started (rs : List VReg) (s : State) (t : Tid) (pc : Pc) (cls : OpClass) (regs : List GReg) (hnd : Nat) (w : OpWork) :
    Kept (Touch.command rs) s (s.started t pc cls regs hnd w) := Kept.of_rest rfl rfl rfl rfl rfl rfl

end Sys2Proof.Machine
end

