-- ==== Sys2Proof/Laws/Sites.lean ====
section
/-! SUPPORT. Bytes of numbers and lines, and what a write at a site leaves to be read there (spec/10 R185, R187, R197). -/

namespace Sys2Proof.Machine

/-! ### Bytes and numbers -/

theorem leNat_lt (l : List Byte) : leNat l < 256 ^ l.length := by
  induction l with
  | nil => simp [leNat]
  | cons b l ih =>
    simp only [leNat, List.length_cons, Nat.pow_succ]
    have := b.isLt
    omega

theorem length_leBytes (n x : Nat) : (leBytes n x).length = n := by
  induction n generalizing x with
  | zero => rfl
  | succ n ih => simp [leBytes, ih]

theorem leNat_leBytes (n x : Nat) : leNat (leBytes n x) = x % 256 ^ n := by
  induction n generalizing x with
  | zero => simp [leBytes, leNat, Nat.mod_one]
  | succ n ih =>
    simp only [leBytes, leNat, ih, BitVec.toNat_ofNat]
    rw [show (2 : Nat) ^ 8 = 256 by norm_num, Nat.pow_succ, Nat.mul_comm (256 ^ n) 256, Nat.mod_mul]

theorem leNat_drop (l : List Byte) (o : Nat) : leNat (l.drop o) = leNat l / 256 ^ o := by
  induction o generalizing l with
  | zero => simp
  | succ o ih =>
    cases l with
    | nil => simp [leNat]
    | cons b l =>
      simp only [List.drop_succ_cons, ih, leNat]
      have h1 : (b.toNat + 256 * leNat l) / 256 = leNat l := by have := b.isLt; omega
      rw [Nat.pow_succ, Nat.mul_comm (256 ^ o) 256, ← Nat.div_div_eq_div_mul, h1]

theorem leNat_take (l : List Byte) (n : Nat) : leNat (l.take n) = leNat l % 256 ^ n := by
  induction n generalizing l with
  | zero => simp [leNat, Nat.mod_one]
  | succ n ih =>
    cases l with
    | nil => simp [leNat]
    | cons b l =>
      simp only [List.take_succ_cons, leNat, ih]
      rw [Nat.pow_succ, Nat.mul_comm (256 ^ n) 256, Nat.mod_mul]
      have := b.isLt
      have h1 : (b.toNat + 256 * leNat l) % 256 = b.toNat := by omega
      have h2 : (b.toNat + 256 * leNat l) / 256 = leNat l := by omega
      rw [h1, h2]

theorem pow1024 : (2 : Nat) ^ 1024 = 256 ^ 128 := by rw [show (1024 : Nat) = 8 * 128 by norm_num, Nat.pow_mul]

theorem pow256 (n : Nat) : 2 ^ (8 * n) = 256 ^ n := by rw [Nat.pow_mul]

/-- A field of a line given by its bytes. -/
theorem lineField_leNat (l : List Byte) (hl : l.length = 128) (o n : Nat) :
    lineField (BitVec.ofNat 1024 (leNat l)) o n = leNat ((l.drop o).take n) := by
  have h := leNat_lt l
  rw [hl] at h
  unfold lineField
  rw [BitVec.toNat_ofNat, pow1024, Nat.mod_eq_of_lt h, leNat_take, leNat_drop, pow256, pow256]

theorem readBytes_eq_map (m : List (Nat × Byte)) (a n : Nat) : readBytes m a n = (List.range n).map fun i => look 0 (a + i) m := by
  induction n generalizing a with
  | zero => rfl
  | succ n ih =>
    rw [readBytes, ih, List.range_succ_eq_map]
    simp only [List.map_cons, List.map_map, Nat.add_zero]
    congr 1
    apply List.map_congr_left
    intro i _
    simp only [Function.comp]
    congr 1
    omega

theorem drop_take_readBytes (m : List (Nat × Byte)) (a k o n : Nat) (h : o + n ≤ k) :
    ((readBytes m a k).drop o).take n = readBytes m (a + o) n := by
  rw [readBytes_eq_map, readBytes_eq_map, ← List.map_drop, ← List.map_take]
  apply List.ext_getElem
  · simp; omega
  · intro i h1 h2
    simp
    congr 1
    omega

/-- A field of a line as its home holds it. -/
theorem State.lineField_home (s : State) (h : HomeId) (line o n : Nat) (hn : o + n ≤ 128) :
    lineField (s.homeLine h line) o n = leNat (s.homeBytes h (lineBase line + o) n) := by
  unfold State.homeLine State.homeBytes
  split
  · rw [lineField_leNat _ (readBytes_length ..), drop_take_readBytes _ _ _ _ _ hn]
  · rw [lineField_leNat _ (readBytes_length ..), drop_take_readBytes _ _ _ _ _ hn]

theorem div_pow256_byte (v o i : Nat) (h : o ≤ i) : v * 256 ^ o / 256 ^ i = v / 256 ^ (i - o) := by
  obtain ⟨k, rfl⟩ := Nat.exists_eq_add_of_le h
  rw [Nat.pow_add, ← Nat.div_div_eq_div_mul, Nat.mul_div_cancel _ (Nat.pow_pos (by omega)), Nat.add_sub_cancel_left]

theorem getLsbD_byteMask (o n i : Nat) (h : o + n ≤ 128) : (byteMask o n).getLsbD i = (Decidable.decide (o ≤ i) && Decidable.decide (i < o + n)) := by
  unfold byteMask
  rw [BitVec.getLsbD_ofNat, Nat.testBit_mul_two_pow, Nat.testBit_two_pow_sub_one]
  by_cases h1 : o ≤ i <;> by_cases h2 : i < o + n <;> simp [h1, h2] <;> omega

/-- Byte i of a merged line. -/
theorem getElem_mergeLine (old new : BitVec 1024) (mask : BitVec 128) (o n : Nat) (h : o + n ≤ 128) :
    lineField (mergeLine old new mask) o n = leNat ((List.range n).map fun i =>
      BitVec.ofNat 8 ((if mask.getLsbD (o + i) then new else old).toNat / 2 ^ (8 * (o + i)))) := by
  unfold mergeLine
  rw [lineField_leNat _ (by simp), ← List.map_drop, ← List.map_take]
  congr 1
  apply List.ext_getElem
  · simp; omega
  · intro i h1 h2
    simp

theorem leBytes_eq_map (n v : Nat) : leBytes n v = (List.range n).map fun i => BitVec.ofNat 8 (v / 256 ^ i) := by
  induction n generalizing v with
  | zero => rfl
  | succ n ih =>
    rw [leBytes, ih, List.range_succ_eq_map]
    simp only [List.map_cons, List.map_map, Nat.pow_zero, Nat.div_one]
    congr 1
    apply List.map_congr_left
    intro i _
    simp only [Function.comp]
    rw [Nat.div_div_eq_div_mul, Nat.pow_succ, Nat.mul_comm 256]

/-- A value merged into a line is read back. -/
theorem lineField_merge (old : BitVec 1024) (o n v : Nat) (h : o + n ≤ 128) :
    lineField (mergeLine old (BitVec.ofNat 1024 (v % 2 ^ (8 * n) * 2 ^ (8 * o))) (byteMask o n)) o n = v % 2 ^ (8 * n) := by
  rw [getElem_mergeLine _ _ _ _ _ h]
  have hv : v % 2 ^ (8 * n) < 256 ^ n := by rw [pow256]; exact Nat.mod_lt _ (Nat.pow_pos (by omega))
  generalize v % 2 ^ (8 * n) = w at hv ⊢
  have hlt : w * 2 ^ (8 * o) < 2 ^ 1024 := by
    rw [pow256, pow1024]
    calc w * 256 ^ o < 256 ^ n * 256 ^ o := Nat.mul_lt_mul_of_pos_right hv (Nat.pow_pos (by omega))
      _ = 256 ^ (n + o) := (Nat.pow_add ..).symm
      _ ≤ 256 ^ 128 := Nat.pow_le_pow_right (by omega) (by omega)
  have e : ((List.range n).map fun i => BitVec.ofNat 8 ((if (byteMask o n).getLsbD (o + i) then BitVec.ofNat 1024 (w * 2 ^ (8 * o)) else old).toNat / 2 ^ (8 * (o + i)))) =
      leBytes n w := by
    rw [leBytes_eq_map]
    apply List.map_congr_left
    intro i hi
    rw [List.mem_range] at hi
    rw [getLsbD_byteMask _ _ _ h, if_pos (by simp; omega), BitVec.toNat_ofNat, Nat.mod_eq_of_lt hlt, pow256, pow256, div_pow256_byte _ _ _ (by omega)]
    congr 2
    congr 1
    omega
  rw [e, leNat_leBytes, Nat.mod_eq_of_lt hv]

/-- Bytes of the line outside the merged ones stay. -/
theorem lineField_merge_out (old new : BitVec 1024) (o n j k : Nat) (h : o + n ≤ 128) (hk : j + k ≤ 128) (hd : j + k ≤ o ∨ o + n ≤ j) :
    lineField (mergeLine old new (byteMask o n)) j k = lineField old j k := by
  rw [getElem_mergeLine _ _ _ _ _ hk]
  have e : ((List.range k).map fun i => BitVec.ofNat 8 ((if (byteMask o n).getLsbD (j + i) then new else old).toNat / 2 ^ (8 * (j + i)))) =
      leBytes k (old.toNat / 256 ^ j) := by
    rw [leBytes_eq_map]
    apply List.map_congr_left
    intro i hi
    rw [List.mem_range] at hi
    rw [getLsbD_byteMask _ _ _ h, if_neg (by simp; omega), pow256, Nat.div_div_eq_div_mul, ← Nat.pow_add]
  rw [e, leNat_leBytes, lineField, pow256, pow256]

/-! ### Cores through cache moves -/

theorem CacheOnly.core?_isSome {s u : State} (h : CacheOnly s u) (c : Nat) : (u.core? c).isSome = (s.core? c).isSome := by
  have hc := h.cores
  simp only [State.core?]
  generalize u.cores = l at hc ⊢
  generalize s.cores = k at hc ⊢
  induction l generalizing k with
  | nil => cases k with | nil => rfl | cons => simp at hc
  | cons x l ih =>
    cases k with
    | nil => simp at hc
    | cons y k =>
      simp only [List.map_cons, List.cons.injEq] at hc
      have hi : x.id = y.id := by have := congrArg CoreSt.id hc.1; exact this
      simp only [List.find?_cons, hi]
      split
      · rfl
      · exact ih k hc.2

theorem State.core?_modCore (s : State) (c d : Nat) (f : CoreSt → CoreSt) (hf : ∀ x, (f x).id = x.id) :
    (s.modCore c f).core? d = if d = c then (s.core? d).map f else s.core? d := by
  have h : (s.modCore c f).core? d = (s.core? d).map fun x => if x.id == c then f x else x := by
    simp only [State.core?, State.modCore]
    exact find?_modIf (fun x => x.id == c) (fun x => x.id == d) f s.cores (fun x => by rw [hf])
  rw [h]
  cases hs : s.core? d with
  | none => simp
  | some x =>
    have hx : x.id = d := by
      have := List.find?_some hs
      simpa using this
    by_cases hd : d = c
    · simp [hx, hd]
    · simp [hx, hd]

theorem State.l1Line?_modCore (s : State) (c d line : Nat) (f : CoreSt → CoreSt) (hf : ∀ x, (f x).id = x.id) :
    (s.modCore c f).l1Line? d line = if d = c then (s.core? d).bind (fun x => (f x).l1.find? fun l => l.line == line) else s.l1Line? d line := by
  unfold State.l1Line?
  rw [State.core?_modCore s c d f hf]
  split
  · cases s.core? d <;> rfl
  · rfl

/-- After a fill the core holds the line for the context. -/
theorem State.fillL1_line (s : State) (core asid line : Nat) (h : HomeId) (pol : Policy) (hc : (s.core? core).isSome = true) :
    ∃ l, (s.fillL1 core asid line h pol).l1Line? core line = some l ∧ l.asid = asid ∧ l.line = line := by
  unfold State.fillL1
  extract_lets s1
  have hs1 : CacheOnly s s1 := by
    simp only [s1]
    split
    · split
      · exact CacheOnly.refl s
      · exact CacheOnly.invalL1 ..
    · exact CacheOnly.refl s
  have ha : ∀ l, s1.l1Line? core line = some l → l.asid = asid := by
    intro l hl
    simp only [s1] at hl
    split at hl
    · next l' hl' =>
      split at hl
      · next hasid =>
        rw [hl'] at hl
        cases hl
        exact hasid
      · unfold State.invalL1 State.dropL1 at hl
        rw [State.l1Line?_modCore _ _ _ _ _ (by intro x; rfl), if_pos rfl] at hl
        cases hx : (s.writeDownL1 core line).core? core with
        | none => simp [hx] at hl
        | some x =>
          rw [hx] at hl
          simp only [Option.bind_some] at hl
          have h1 := List.find?_some hl
          have h2 := List.mem_of_find?_eq_some hl
          rw [List.mem_filter] at h2
          simp only [bne_iff_ne, ne_eq] at h2
          simp only [beq_iff_eq] at h1
          exact absurd h1 h2.2
    · next hn =>
      rw [hn] at hl
      simp at hl
  clear_value s1
  have hcs : (s1.core? core).isSome = true := by rw [hs1.core?_isSome]; exact hc
  cases hl : s1.l1Line? core line with
  | some l =>
    have hline : l.line = line := by
      unfold State.l1Line? at hl
      cases hx : s1.core? core with
      | none => simp [hx] at hl
      | some x =>
        rw [hx] at hl
        have := List.find?_some hl
        simpa using this
    simp only
    split
    · rw [State.l1Line?_modCore _ _ _ _ _ (by intro x; rfl), if_pos rfl]
      unfold State.l1Line? at hl
      cases hx : s1.core? core with
      | none => simp [hx] at hl
      | some x =>
        rw [hx] at hl
        simp only [Option.bind_some] at hl ⊢
        rw [find?_modIf (fun x => x.line == line) (fun x => x.line == line) _ x.l1 (by intro y; rfl), hl]
        refine ⟨_, rfl, ?_, ?_⟩
        · have := ha l (by unfold State.l1Line?; rw [hx]; exact hl)
          simp only [hline, beq_self_eq_true, if_true, this]
        · simp only [hline, beq_self_eq_true, if_true]
    · exact ⟨l, hl, ha l hl, hline⟩
  | none =>
    simp only
    rw [State.l1Line?_modCore _ _ _ _ _ (by intro x; rfl), if_pos rfl]
    have hk : CacheOnly s1 (((if h = .die (dieOf core) then s1 else s1.fillL2 (dieOf core) asid line h).lineRequest core asid h).roomL1 core) := by
      refine CacheOnly.trans (CacheOnly.trans ?_ (CacheOnly.request ..)) (CacheOnly.roomL1 ..)
      split
      · exact CacheOnly.refl s1
      · exact CacheOnly.fillL2 ..
    have hsome := hk.core?_isSome core
    rw [hcs] at hsome
    obtain ⟨x, hx⟩ := Option.isSome_iff_exists.1 hsome
    rw [hx]
    simp only [Option.bind_some, List.find?_cons, beq_self_eq_true]
    exact ⟨_, rfl, rfl, rfl⟩

/-- A fill of a line that the core holds for the context leaves everything, unless it is to be kept. -/
theorem State.fillL1_hit (s : State) (core asid line : Nat) (h : HomeId) (pol : Policy) (l : Line) (hl : s.l1Line? core line = some l)
    (ha : l.asid = asid) (hp : pol ≠ .keep) : s.fillL1 core asid line h pol = s := by
  unfold State.fillL1
  simp only [hl, ha, if_true, if_neg hp]

/-- An L1 write leaves its value in the line. -/
theorem State.writeL1_line (s : State) (core c asid pa : Nat) (h : HomeId) (n v : Nat) (pol : Policy) (hc : (s.core? c).isSome = true) :
    ∃ old l, (s.writeSite core asid (.l1 c) (.mem pa h) n v pol).l1Line? c (lineKey h pa) = some l ∧ l.asid = asid ∧
      (s.fillL1 c asid (lineKey h pa) h pol).l1Line? c (lineKey h pa) = some old ∧
      l.data = mergeLine old.data (BitVec.ofNat 1024 (v % 2 ^ (8 * n) * 2 ^ (8 * (pa % 128)))) (byteMask (pa % 128) n) ∧
      l.dirty = old.dirty ||| byteMask (pa % 128) n ∧ l.poison = old.poison := by
  obtain ⟨old, ho, hoa, hol⟩ := s.fillL1_line c asid (lineKey h pa) h pol hc
  refine ⟨old, { old with data := mergeLine old.data (BitVec.ofNat 1024 (v % 2 ^ (8 * n) * 2 ^ (8 * (pa % 128)))) (byteMask (pa % 128) n), dirty := old.dirty ||| byteMask (pa % 128) n, strm := old.strm || pol = .strm }, ?_, hoa, ho, rfl, rfl, rfl⟩
  · unfold State.writeSite
    simp only
    rw [State.l1Line?_modCore _ _ _ _ _ (by intro x; rfl), if_pos rfl]
    unfold State.l1Line? at ho
    cases hx : (s.fillL1 c asid (lineKey h pa) h pol).core? c with
    | none => simp [hx] at ho
    | some x =>
      rw [hx] at ho
      simp only [Option.bind_some] at ho ⊢
      rw [find?_modIf (fun x => x.line == lineKey h pa) (fun x => x.line == lineKey h pa) _ x.l1 (by intro y; rfl), ho]
      simp only [Option.map_some, hol, beq_self_eq_true, if_true]

theorem lineBase_lineKey (h : HomeId) (pa : Nat) (hp : pa < 2 ^ 52) : lineBase (lineKey h pa) + pa % 128 = pa := by
  unfold lineBase lineKey
  split <;> omega

/-- What was written at a site is read there: the bank, an L1, the home. -/
theorem State.readSite_writeSite (s : State) (core asid : Nat) (site : Site) (loc : Loc) (n v : Nat) (pol pol' : Policy)
    (hl : match loc with
      | .bench c _ => (s.core? c).isSome = true
      | .mem pa _ => pa < 2 ^ 52 ∧ pa % 128 + n ≤ 128 ∧ (match site with | .l1 c => (s.core? c).isSome = true | .l2 _ => False | _ => True))
    (hp : pol' ≠ .keep) :
    ((s.writeSite core asid site loc n v pol).readSite core asid site loc n pol').2.1 = v % 2 ^ (8 * n) := by
  cases loc with
  | bench c off =>
    simp only at hl
    have hb : ∀ site, s.writeSite core asid site (.bench c off) n v pol = s.modCore c fun x => { x with
      bench := writeBytes x.bench off (leBytes n v),
      benchPoison := x.benchPoison.filter fun w => !(off ≤ 4 * w && 4 * w + 4 ≤ off + n) } := by intro site; unfold State.writeSite; cases site <;> rfl
    have hr : ∀ site (u : State), u.readSite core asid site (.bench c off) n pol' = match u.core? c with
      | none => (u, 0, false)
      | some x => (u, leNat (readBytes x.bench off n), u.benchPoisoned c off n) := by intro site u; unfold State.readSite; cases site <;> rfl
    rw [hb, hr, State.core?_modCore _ _ _ _ (by intro x; rfl), if_pos rfl]
    obtain ⟨x, hx⟩ := Option.isSome_iff_exists.1 hl
    rw [hx]
    simp only [Option.map_some]
    have := readBytes_writeBytes x.bench off (leBytes n v)
    rw [length_leBytes] at this
    rw [this, leNat_leBytes, pow256]
  | mem pa h =>
    obtain ⟨h0, h1, h2⟩ := hl
    have hhome : ∀ site, (site = .home ∨ site = .bank) → ((s.writeSite core asid site (.mem pa h) n v pol).readSite core asid site (.mem pa h) n pol').2.1 = v % 2 ^ (8 * n) := by
      intro site hs
      have hw : s.writeSite core asid site (.mem pa h) n v pol = s.setHomeBytes h pa (leBytes n v) := by
        rcases hs with rfl | rfl <;> rfl
      have hr : ∀ u : State, (u.readSite core asid site (.mem pa h) n pol').2.1 = lineField ((u.lineRequest core asid h).homeLine h (lineKey h pa)) (pa % 128) n := by
        intro u; rcases hs with rfl | rfl <;> rfl
      rw [hw, hr, State.lineField_home _ _ _ _ _ h1]
      rw [lineBase_lineKey h pa h0]
      have hm : ((s.setHomeBytes h pa (leBytes n v)).lineRequest core asid h).homeBytes h pa n = leBytes n v := by
        unfold State.homeBytes State.lineRequest State.modCore State.setHomeBytes
        have := fun m : List Host.Cell => readBytes_writeBytes m pa (leBytes n v)
        simp only [length_leBytes] at this
        split <;> exact this _
      rw [hm, leNat_leBytes, pow256]
    cases site with
    | bank => exact hhome _ (Or.inr rfl)
    | home => exact hhome _ (Or.inl rfl)
    | l2 d => exact h2.elim
    | l1 c =>
      simp only at h2
      obtain ⟨old, l, hl, hla, _, hd, _⟩ := s.writeL1_line core c asid pa h n v pol h2
      generalize s.writeSite core asid (.l1 c) (.mem pa h) n v pol = u at hl
      unfold State.readSite
      simp only [hl, Option.map_some, hla, beq_self_eq_true, Option.getD_some, Bool.not_true, Bool.and_false, Bool.false_eq_true, if_false]
      rw [State.fillL1_hit u c asid _ h pol' l hl hla hp]
      simp only [hl, hd]
      exact lineField_merge _ _ _ _ h1

/-! ### Bytes outside a write -/

theorem look_writeLe (m : List (Nat × Byte)) (pa a n v : Nat) :
    look 0 a (writeBytes m pa (leBytes n v)) =
      (if pa ≤ a ∧ a < pa + n then some (BitVec.ofNat 8 (v / 256 ^ (a - pa))) else none).getD (look 0 a m) := by
  by_cases h : pa ≤ a ∧ a < pa + n
  · rw [if_pos h]
    obtain ⟨i, rfl⟩ := Nat.exists_eq_add_of_le h.1
    have hi : i < (leBytes n v).length := by rw [length_leBytes]; omega
    rw [look_writeBytes_in m pa i _ hi]
    simp [leBytes_eq_map]
  · rw [if_neg h]
    exact look_writeBytes_out m pa a _ (by rw [length_leBytes]; omega)

theorem State.benchByteAt_writeSite_out (s : State) (core asid c off n v : Nat) (pol : Policy) (site : Site) (d a : Nat)
    (h : a < off ∨ off + n ≤ a ∨ d ≠ c) : (s.writeSite core asid site (.bench c off) n v pol).benchByteAt d a = s.benchByteAt d a := by
  have hb : s.writeSite core asid site (.bench c off) n v pol = s.modCore c fun x => { x with
      bench := writeBytes x.bench off (leBytes n v),
      benchPoison := x.benchPoison.filter fun w => !(off ≤ 4 * w && 4 * w + 4 ≤ off + n) } := by unfold State.writeSite; cases site <;> rfl
  rw [hb]
  unfold State.benchByteAt
  rw [State.core?_modCore _ _ _ _ (by intro x; rfl)]
  by_cases hd : d = c
  · rw [if_pos hd]
    cases s.core? d with
    | none => rfl
    | some x =>
      simp only [Option.map_some, Option.getD_some]
      rw [look_writeLe, if_neg (by omega)]
      rfl
  · rw [if_neg hd]

theorem State.byteAt_writeHome_out (s : State) (core asid pa : Nat) (h : HomeId) (n v : Nat) (pol : Policy) (a : Nat) (ha : a < pa ∨ pa + n ≤ a) :
    (s.writeSite core asid .home (.mem pa h) n v pol).byteAt a = s.byteAt a ∧
    (s.writeSite core asid .home (.mem pa h) n v pol).peerByteAt a = s.peerByteAt a := by
  have hw : s.writeSite core asid .home (.mem pa h) n v pol = s.setHomeBytes h pa (leBytes n v) := rfl
  rw [hw]
  unfold State.setHomeBytes State.byteAt State.peerByteAt
  split
  · exact ⟨rfl, by rw [look_writeLe, if_neg (by omega)]; rfl⟩
  · exact ⟨by rw [look_writeLe, if_neg (by omega)]; rfl, rfl⟩

theorem State.writeL1_hit (s : State) (core asid c pa : Nat) (h : HomeId) (n v : Nat) (pol : Policy) (l : Line) (hl : s.l1Line? c (lineKey h pa) = some l)
    (ha : l.asid = asid) (hp : pol ≠ .keep) :
    (s.writeSite core asid (.l1 c) (.mem pa h) n v pol).mem = s.mem ∧ (s.writeSite core asid (.l1 c) (.mem pa h) n v pol).peerMem = s.peerMem ∧
    ∀ line, line ≠ lineKey h pa → (s.writeSite core asid (.l1 c) (.mem pa h) n v pol).l1Line? c line = s.l1Line? c line := by
  unfold State.writeSite
  simp only [State.fillL1_hit s c asid _ h pol l hl ha hp]
  refine ⟨rfl, rfl, fun line hn => ?_⟩
  rw [State.l1Line?_modCore _ _ _ _ _ (by intro x; rfl), if_pos rfl]
  unfold State.l1Line?
  cases s.core? c with
  | none => rfl
  | some x =>
    simp only [Option.bind_some]
    rw [find?_modIf (fun x => x.line == lineKey h pa) (fun x => x.line == line) _ x.l1 (by intro y; rfl)]
    cases hf : x.l1.find? (fun l => l.line == line) with
    | none => rfl
    | some y =>
      have : y.line = line := by have := List.find?_some hf; simpa using this
      simp [this, hn]

/-! ### Write-downs -/

theorem State.byteAt_setHome_one (s : State) (h : HomeId) (hh : h ≠ .peer) (pa a : Nat) (b : Byte) :
    (s.setHomeBytes h pa [b]).byteAt a = if a = pa then b else s.byteAt a := by
  unfold State.setHomeBytes State.byteAt
  rw [if_neg hh]
  simp only [writeBytes]
  rw [look_put]

theorem State.byteAt_fold (h : HomeId) (hh : h ≠ .peer) (base : Nat) (f : Nat → Byte) (l : List (Nat × Byte)) (hl : ∀ e ∈ l, e.2 = f e.1) (s : State)
    (i : Nat) : (l.foldl (fun s e => s.setHomeBytes h (base + e.1) [e.2]) s).byteAt (base + i) =
      if l.any (·.1 == i) then f i else s.byteAt (base + i) := by
  induction l generalizing s with
  | nil => rfl
  | cons e l ih =>
    rw [List.foldl_cons, ih (fun x hx => hl x (List.mem_cons_of_mem _ hx)), State.byteAt_setHome_one _ _ hh]
    simp only [List.any_cons]
    by_cases h1 : l.any (·.1 == i)
    · simp [h1]
    · simp only [h1, Bool.or_false]
      by_cases h2 : e.1 = i
      · subst h2; simp [hl e (by simp)]
      · have h3 : ¬ i = e.1 := fun h => h2 h.symm
        simp [h2, h3]

/-- A merged home line: the bytes of the mask, and no others. -/
theorem State.byteAt_mergeHome (s : State) (h : HomeId) (hh : h ≠ .peer) (line : Nat) (data : BitVec 1024) (mask : BitVec 128) (p : Bool) (i : Nat)
    (hi : i < 128) : (s.mergeHome h line data mask p).byteAt (lineBase line + i) =
      if mask.getLsbD i then BitVec.ofNat 8 (data.toNat / 2 ^ (8 * i)) else s.byteAt (lineBase line + i) := by
  have h0 : (s.mergeHome h line data mask p).byteAt (lineBase line + i) =
      ((lineBytes data mask).foldl (fun s e => s.setHomeBytes h (lineBase line + e.1) [e.2]) (s.keepReturned h line mask)).byteAt (lineBase line + i) := by
    unfold State.mergeHome
    simp only
    split <;> rfl
  rw [h0, State.byteAt_fold h hh (lineBase line) (fun i => BitVec.ofNat 8 (data.toNat / 2 ^ (8 * i))) _ ?_ _ i]
  · have : (lineBytes data mask).any (·.1 == i) = mask.getLsbD i := by
      unfold lineBytes
      rw [Bool.eq_iff_iff, List.any_eq_true]
      constructor
      · rintro ⟨e, he, hei⟩
        rw [List.mem_filterMap] at he
        obtain ⟨j, _, hj⟩ := he
        split at hj
        · next hm =>
          cases hj
          simp only [beq_iff_eq] at hei
          rw [← hei]; exact hm
        · simp at hj
      · intro hm
        exact ⟨(i, BitVec.ofNat 8 (data.toNat / 2 ^ (8 * i))), List.mem_filterMap.2 ⟨i, List.mem_range.2 hi, by rw [if_pos hm]⟩, by simp⟩
    rw [this]
    rfl
  · intro e he
    unfold lineBytes at he
    rw [List.mem_filterMap] at he
    obtain ⟨j, _, hj⟩ := he
    split at hj
    · cases hj; rfl
    · simp at hj

theorem State.l1Line?_inval (s : State) (core line : Nat) : (s.invalL1 core line).l1Line? core line = none := by
  unfold State.invalL1 State.dropL1
  rw [State.l1Line?_modCore _ _ _ _ _ (by intro x; rfl), if_pos rfl]
  cases (s.writeDownL1 core line).core? core with
  | none => rfl
  | some x =>
    simp only [Option.bind_some, List.find?_eq_none, List.mem_filter]
    rintro l ⟨_, h⟩
    simpa using h

theorem State.die?_modDie (s : State) (c d : Nat) (f : DieSt → DieSt) (hf : ∀ x, (f x).id = x.id) :
    (s.modDie c f).die? d = if d = c then (s.die? d).map f else s.die? d := by
  have h : (s.modDie c f).die? d = (s.die? d).map fun x => if x.id == c then f x else x := by
    simp only [State.die?, State.modDie]
    exact find?_modIf (fun x => x.id == c) (fun x => x.id == d) f s.dies (fun x => by rw [hf])
  rw [h]
  cases hs : s.die? d with
  | none => simp
  | some x =>
    have hx : x.id = d := by
      have := List.find?_some hs
      simpa using this
    by_cases hd : d = c
    · simp [hx, hd]
    · simp [hx, hd]

theorem State.l2Line?_inval (s : State) (die line : Nat) : (s.invalL2 die line).l2Line? die line = none := by
  unfold State.invalL2 State.dropL2 State.l2Line?
  rw [State.die?_modDie _ _ _ _ (by intro x; rfl), if_pos rfl]
  cases (s.writeDownL2 die line).die? die with
  | none => rfl
  | some x =>
    simp only [Option.map_some, Option.bind_some, List.find?_eq_none, List.mem_filter]
    rintro l ⟨_, h⟩
    simpa using h

theorem State.byteAt_invalL1 (s : State) (core line : Nat) (l : Line) (hl : s.l1Line? core line = some l) (hh : l.home = .die (dieOf core)) (i : Nat)
    (hi : i < 128) : (s.invalL1 core line).byteAt (lineBase line + i) =
      if l.dirty.getLsbD i then BitVec.ofNat 8 (l.data.toNat / 2 ^ (8 * i)) else s.byteAt (lineBase line + i) := by
  have h0 : (s.invalL1 core line).byteAt (lineBase line + i) = (s.writeDownL1 core line).byteAt (lineBase line + i) := rfl
  rw [h0]
  unfold State.writeDownL1
  simp only [hl]
  by_cases hd : l.dirty = 0
  · simp [hd]
  · rw [if_neg hd]
    have h1 : (((s.mergeL2 (dieOf core) l.asid line l.home l.data l.dirty l.poison).lineRequest core l.asid l.home).modCore core
        fun c => { c with l1 := modIf (fun x => x.line == line) (fun x => { x with dirty := 0, strm := false }) c.l1 }).byteAt (lineBase line + i) =
        (s.mergeL2 (dieOf core) l.asid line l.home l.data l.dirty l.poison).byteAt (lineBase line + i) := rfl
    rw [h1]
    unfold State.mergeL2
    rw [if_pos hh]
    exact State.byteAt_mergeHome s l.home (by rw [hh]; simp) line l.data l.dirty l.poison i hi

theorem State.byteAt_invalL2 (s : State) (die line : Nat) (l : Line) (hl : s.l2Line? die line = some l) (hh : l.home ≠ .peer) (i : Nat)
    (hi : i < 128) : (s.invalL2 die line).byteAt (lineBase line + i) =
      if l.dirty.getLsbD i then BitVec.ofNat 8 (l.data.toNat / 2 ^ (8 * i)) else s.byteAt (lineBase line + i) := by
  have h0 : (s.invalL2 die line).byteAt (lineBase line + i) = (s.writeDownL2 die line).byteAt (lineBase line + i) := rfl
  rw [h0]
  unfold State.writeDownL2
  simp only [hl]
  by_cases hd : l.dirty = 0
  · simp [hd]
  · rw [if_neg hd]
    exact State.byteAt_mergeHome s l.home hh line l.data l.dirty l.poison i hi

/-- The undo log takes a line without touching memory or caches. -/
theorem State.logWrite_caches (v : State) (b core : Nat) (site : Site) (loc : Loc) :
    (v.logWrite b core site loc).cores = v.cores ∧ (v.logWrite b core site loc).mem = v.mem ∧ (v.logWrite b core site loc).dies = v.dies := by
  have hl : ∀ h line, (v.logLine b core site h line).cores = v.cores ∧ (v.logLine b core site h line).mem = v.mem ∧ (v.logLine b core site h line).dies = v.dies := by
    intro h line
    unfold State.logLine
    split
    · exact ⟨rfl, rfl, rfl⟩
    · split
      · exact ⟨rfl, rfl, rfl⟩
      · split <;> exact ⟨rfl, rfl, rfl⟩
  cases loc with
  | bench c o => cases site <;> exact ⟨rfl, rfl, rfl⟩
  | mem pa h => cases h <;> cases site <;> first | exact hl _ _ | exact ⟨rfl, rfl, rfl⟩

end Sys2Proof.Machine
end

