-- ==== Sys2Proof/Laws/Landing.lean ====
section
/-! SUPPORT. The spec lemma of `State.landRegs`: what the end of a long-latency operation leaves (spec/06 R100 to R102). -/

namespace Sys2Proof.Machine

/-! ### Giving up flags -/

/-- Flags refreshed for threads in turn. -/
theorem State.thread?_refreshAll (s : State) (ts : List Tid) (u : Tid) :
    (ts.foldl (fun s t => s.refreshFlags t) s).thread? u =
      if u ∈ ts then (s.thread? u).map (fun th => { th with flags := flagsHeld s.holds u }) else s.thread? u := by
  induction ts generalizing s with
  | nil => simp
  | cons t ts ih =>
    rw [List.foldl_cons, ih]
    have hh : (s.refreshFlags t).holds = s.holds := rfl
    have ht : (s.refreshFlags t).thread? u = if u = t then (s.thread? u).map (fun th => { th with flags := flagsHeld s.holds t }) else s.thread? u :=
      State.thread?_modThread s t u _
    rw [hh, ht]
    by_cases h1 : u = t
    · subst h1
      rw [if_pos rfl, if_pos (List.mem_cons_self ..)]
      split
      · cases s.thread? u <;> rfl
      · rfl
    · simp [h1]

theorem State.slotFor_eq (s : State) (t : Tid) (r : VReg) :
    s.slotFor t r = if r.val < 48 then none else
      match (s.troop? t.band t.troop).bind Troop.slot, (s.thread? t).map Thread.depth with
      | some i, some true => some (s.coreOf t, i)
      | _, _ => none := by
  unfold State.slotFor State.thread?
  split
  · rfl
  · cases s.troop? t.band t.troop with
    | none => rfl
    | some x =>
      simp only [Option.bind_some]
      cases x.threads[t.lane]? with
      | none => cases x.slot <;> rfl
      | some th => cases x.slot <;> cases hd : th.depth <;> simp [hd]

theorem State.refreshAll_keep (ts : List Tid) (s : State) :
    (ts.foldl (fun s t => s.refreshFlags t) s) = { s with bands := (ts.foldl (fun s t => s.refreshFlags t) s).bands } ∧
    (ts.foldl (fun s t => s.refreshFlags t) s).bands.map Band.idle = s.bands.map Band.idle ∧
    (∀ b t l r, (ts.foldl (fun s t => s.refreshFlags t) s).troopLane b t l r = s.troopLane b t l r) ∧
    ∀ t r, (ts.foldl (fun s t => s.refreshFlags t) s).slotFor t r = s.slotFor t r := by
  induction ts generalizing s with
  | nil => exact ⟨rfl, rfl, fun _ _ _ _ => rfl, fun _ _ => rfl⟩
  | cons t ts ih =>
    rw [List.foldl_cons]
    obtain ⟨h1, h2, h3, h4⟩ := ih (s.refreshFlags t)
    refine ⟨?_, h2.trans (State.idle_modThread s t _ (fun b => b) fun _ => rfl), fun b u l r => (h3 b u l r).trans (State.troopLane_modThread s t _ b u l r),
      fun u r => (h4 u r).trans ?_⟩
    · have e : s.refreshFlags t = { s with bands := (s.refreshFlags t).bands } := rfl
      rw [h1, e]
    · have ht : ∀ v, (s.refreshFlags t).thread? v = if v = t then (s.thread? v).map (fun th => { th with flags := flagsHeld s.holds t }) else s.thread? v :=
        fun v => State.thread?_modThread s t v _
      have htr : ((s.refreshFlags t).troop? u.band u.troop).bind Troop.slot = (s.troop? u.band u.troop).bind Troop.slot := by
        have := State.troop?_modTroop s t.band t.troop u.band u.troop (fun x => x.modThread t.lane fun th => { th with flags := flagsHeld s.holds t })
        unfold State.refreshFlags State.modThread
        rw [this]
        split
        · cases s.troop? u.band u.troop <;> rfl
        · rfl
      have hco : (s.refreshFlags t).coreOf u = s.coreOf u := by
        unfold State.coreOf State.refreshFlags State.modThread State.modTroop
        rw [State.band?_modBand _ _ _ _ (by intro x; rfl)]
        cases s.band? u.band with
        | none => rfl
        | some x =>
          simp only [Option.map_some]
          split <;> rfl
      have hd : ((s.refreshFlags t).thread? u).map Thread.depth = (s.thread? u).map Thread.depth := by
        rw [ht]
        split
        · cases s.thread? u <;> rfl
        · rfl
      rw [State.slotFor_eq, State.slotFor_eq, htr, hco, hd]

theorem flagHeld_filter (hs : List FlagHold) (p : FlagHold → Bool) (t : Tid) (f : Nat) (h : ∀ x ∈ hs, p x = false → ¬ (x.tid = t ∧ x.flag = f)) :
    flagHeld (hs.filter p) t f = flagHeld hs t f := by
  unfold flagHeld
  rw [Bool.eq_iff_iff, List.any_eq_true, List.any_eq_true]
  constructor
  · rintro ⟨x, hx, hp⟩; exact ⟨x, (List.mem_filter.1 hx).1, hp⟩
  · rintro ⟨x, hx, hp⟩
    refine ⟨x, List.mem_filter.2 ⟨hx, ?_⟩, hp⟩
    cases hq : p x with
    | true => rfl
    | false => exact absurd (by simpa using hp) (h x hx hq)

theorem flagsHeld_congr (hs ks : List FlagHold) (t : Tid) (h : ∀ f, flagHeld hs t f = flagHeld ks t f) : flagsHeld hs t = flagsHeld ks t := by
  apply BitVec.eq_of_getLsbD_eq
  intro i hi
  rw [flagsHeld_bit, flagsHeld_bit, h]

theorem Kept.clearFlags {x : Touch} (s : State) (o : Nat) (src : Bool) (hf : ∀ h ∈ s.holds, h.owner = o → h.flag < 12 → h.flag ∈ x.flags)
    (hr : ∀ s u : State, u = { s with bands := u.bands, holds := u.holds } → u = x.rest s u) : Kept x s (s.clearFlags o src) := by
  suffices key : ∀ hit : FlagHold → Bool, (∀ h, hit h = true → h.owner = o) → Kept x s (((s.holds.filter hit).map (·.tid)).foldl
      (fun s t => s.refreshFlags t) { s with holds := s.holds.filter fun h => !hit h }) from
    key (fun h => h.owner == o && h.src == src) fun h hh => by
      simp only [Bool.and_eq_true, beq_iff_eq] at hh; exact hh.1
  intro hit hhit'
  generalize hts : (s.holds.filter hit).map (·.tid) = ts
  generalize hs1 : ({ s with holds := s.holds.filter fun h => !hit h } : State) = s1
  obtain ⟨k1, k2, k3, k4⟩ := State.refreshAll_keep ts s1
  have kt := State.thread?_refreshAll s1 ts
  generalize ts.foldl (fun s t => s.refreshFlags t) s1 = u at k1 k2 k3 k4 kt
  have hb : s1.bands = s.bands := by subst hs1; rfl
  have hho : s1.holds = s.holds.filter fun h => !hit h := by subst hs1; rfl
  have huh : u.holds = s1.holds := by rw [k1]
  have hus : u.slots = s.slots := by rw [k1]; subst hs1; rfl
  have hth1 : ∀ t, s1.thread? t = s.thread? t := fun t => by subst hs1; rfl
  have hmem : ∀ t, t ∉ ts → ∀ f, flagHeld s1.holds t f = flagHeld s.holds t f := by
    intro t ht f
    rw [hho]
    apply flagHeld_filter
    intro y hy hq hc
    apply ht
    rw [← hts, ← hc.1]
    exact List.mem_map_of_mem (List.mem_filter.2 ⟨hy, by simpa using hq⟩)
  refine ⟨fun b t l r _ => ?_, fun c i k l _ => ?_, by rw [hus], fun t p _ => ?_, fun hok => ⟨?_, ?_⟩, ?_, ?_, ?_, ?_⟩
  · rw [k3]; subst hs1; rfl
  · simp only [State.slotLane, State.slot?, hus]
  · simp only [State.readP, kt, hth1]
    by_cases hm : t ∈ ts
    · rw [if_pos hm]; cases s.thread? t <;> rfl
    · rw [if_neg hm]
  · intro t th ht
    rw [kt, hth1] at ht
    rw [huh]
    split at ht
    · cases hq : s.thread? t with
      | none => rw [hq] at ht; simp at ht
      | some y =>
        rw [hq] at ht
        simp only [Option.map_some, Option.some.injEq] at ht
        rw [← ht]
    · next hn =>
      rw [hok t th ht]
      exact flagsHeld_congr _ _ _ fun f => (hmem t hn f).symm
  · intro t f hn
    simp only [State.flagOf, kt, hth1]
    split
    · cases hq : s.thread? t with
      | none => rfl
      | some y =>
        simp only [Option.map_some, Option.getD_some]
        rw [hok t y hq, flagsHeld_bit, flagsHeld_bit]
        by_cases hf12 : f < 12
        · congr 1
          rw [hho]
          apply flagHeld_filter
          intro z hz hq' hc
          apply hn
          rw [← hc.2]
          exact hf z hz (hhit' z (by simpa using hq')) (by rw [hc.2]; exact hf12)
        · simp [hf12]
    · rfl
  · have e : ∀ l : List Band, l.map (fun b => x.band b.idle) = (l.map Band.idle).map x.band := by intro l; simp
    rw [e, e, k2, hb]
  · rw [k1]; subst hs1; rfl
  · rw [k1]; subst hs1; rfl
  · apply hr
    rw [k1]; subst hs1; rfl

theorem State.clearFlags_more (s : State) (o : Nat) (src : Bool) :
    (s.clearFlags o src).holds = (s.holds.filter fun h => !(h.owner == o && h.src == src)) ∧
    (∀ t r, (s.clearFlags o src).slotFor t r = s.slotFor t r) ∧ (∀ c i, (s.clearFlags o src).slot? c i = s.slot? c i) ∧
    (∀ t r, (s.clearFlags o src).readV t r = s.readV t r) ∧ (∀ t, (s.clearFlags o src).statusOf t = s.statusOf t) ∧
    (∀ t, ((s.clearFlags o src).thread? t).isSome = (s.thread? t).isSome) ∧ ∀ t, (s.clearFlags o src).twinOf t = s.twinOf t := by
  unfold State.clearFlags
  simp only
  generalize hts : (s.holds.filter fun h : FlagHold => h.owner == o && h.src == src).map (·.tid) = ts
  generalize hs1 : ({ s with holds := s.holds.filter fun h => !(h.owner == o && h.src == src) } : State) = s1
  obtain ⟨k1, k2, k3, k4⟩ := State.refreshAll_keep ts s1
  have kt := State.thread?_refreshAll s1 ts
  generalize ts.foldl (fun s t => s.refreshFlags t) s1 = u at k1 k2 k3 k4 kt
  have hsl : ∀ c i, u.slot? c i = s.slot? c i := fun c i => by rw [k1]; subst hs1; rfl
  have hsf : ∀ t r, u.slotFor t r = s.slotFor t r := fun t r => by rw [k4]; subst hs1; rfl
  have hth1 : ∀ t, s1.thread? t = s.thread? t := fun t => by subst hs1; rfl
  refine ⟨by rw [k1]; subst hs1; rfl, hsf, hsl, fun t r => ?_, fun t => ?_, fun t => ?_, fun t => ?_⟩
  · unfold State.readV State.readLane
    rw [hsf]
    split
    · rw [hsl]
    · rw [k3]; subst hs1; rfl
  · unfold State.statusOf
    rw [kt, hth1]
    split
    · cases s.thread? t <;> rfl
    · rfl
  · rw [kt, hth1]
    split
    · cases s.thread? t <;> rfl
    · rfl
  · have hb : s1.bands = s.bands := by subst hs1; rfl
    rw [hb] at k2
    simp only [State.twinOf, State.partner, State.band?]
    have : ∀ l r : List Band, l.map Band.idle = r.map Band.idle →
        (l.find? (·.id == t.band)).bind (fun x => x.pair.map (·.2)) = (r.find? (·.id == t.band)).bind fun x => x.pair.map (·.2) := by
      intro l
      induction l with
      | nil => intro r h; cases r with | nil => rfl | cons => simp at h
      | cons x l ih =>
        intro r h
        cases r with
        | nil => simp at h
        | cons y r =>
          simp only [List.map_cons, List.cons.injEq] at h
          obtain ⟨h1, h2⟩ := h
          have hi : x.id = y.id := by have := congrArg Band.id h1; exact this
          have hp : x.pair = y.pair := by have := congrArg Band.pair h1; exact this
          simp only [List.find?_cons, hi]
          split
          · simp [hp]
          · exact ih r h2
    rw [this u.bands s.bands k2]

/-! ### What accesses leave of threads -/

theorem SameThreads.refl (s : State) : SameThreads s s := ⟨rfl, rfl, rfl⟩

theorem SameThreads.trans {s u w : State} (h : SameThreads s u) (k : SameThreads u w) : SameThreads s w :=
  ⟨k.bands.trans h.bands, k.slots.trans h.slots, k.holds.trans h.holds⟩

theorem CacheOnly.sameThreads {s u : State} (h : CacheOnly s u) : SameThreads s u := by
  have hr := h.rest
  exact ⟨by rw [hr]; rfl, by rw [hr]; rfl, by rw [hr]; rfl⟩

theorem SameThreads.of_modBand (s : State) (b : Nat) (f : Band → Band) (hf : ∀ x, (f x).unpoint = x.unpoint) : SameThreads s (s.modBand b f) :=
  ⟨map_modIf _ _ _ _ hf, rfl, rfl⟩

theorem SameThreads.commit (s : State) (b : Nat) : SameThreads s (s.commit b) := by
  unfold State.commit
  simp only
  generalize (b :: (((s.band? b).bind fun x => x.pair.map (·.2)).toList)) = bs
  have h : ∀ (l : List Nat) (v : State), SameThreads v (l.foldl (fun s b => s.modBand b fun x => if x.hasPoint then { x with hasPoint := false, committed := true } else x) v) := by
    intro l
    induction l with
    | nil => exact fun v => SameThreads.refl v
    | cons b l ih =>
      intro v
      exact (SameThreads.of_modBand v b (fun x => if x.hasPoint then { x with hasPoint := false, committed := true } else x) fun x => by split <;> rfl).trans (ih _)
  exact SameThreads.trans (u := { s with shadows := s.shadows.filter fun x => !bs.contains x.band.id }) ⟨rfl, rfl, rfl⟩ (h bs _)

theorem SameThreads.logWrite (v : State) (b core : Nat) (site : Site) (loc : Loc) : SameThreads v (v.logWrite b core site loc) := by
  have hl : ∀ h line, SameThreads v (v.logLine b core site h line) := by
    intro h line
    unfold State.logLine
    split
    · exact SameThreads.refl v
    · split
      · exact SameThreads.refl v
      · split
        · exact SameThreads.trans (u := { v with shadows := v.shadows.filter fun x => x.band.id != b }) ⟨rfl, rfl, rfl⟩ (SameThreads.of_modBand _ b (fun b => { b with hasPoint := false, committed := true, undoOver := true }) fun x => rfl)
        · exact ⟨rfl, rfl, rfl⟩
  cases loc with
  | bench c o => cases site <;> exact SameThreads.refl v
  | mem pa h => cases h <;> cases site <;> first | exact hl _ _ | exact SameThreads.refl v

theorem SameThreads.writeSite (s : State) (core asid : Nat) (site : Site) (loc : Loc) (n v : Nat) (pol : Policy) :
    SameThreads s (s.writeSite core asid site loc n v pol) := by
  cases loc with
  | bench c o => unfold State.writeSite; cases site <;> exact ⟨rfl, rfl, rfl⟩
  | mem pa h => exact (CacheOnly.writeSite ..).sameThreads

theorem SameThreads.band? {s u : State} (h : SameThreads s u) (b : Nat) : (u.band? b).map Band.unpoint = (s.band? b).map Band.unpoint := by
  have e : ∀ l : List Band, (l.find? (·.id == b)).map Band.unpoint = (l.map Band.unpoint).find? (·.id == b) := fun l =>
    (find?_map_same Band.unpoint (fun x => x.id == b) (fun x => x.id == b) l fun _ => rfl).symm
  unfold State.band?
  rw [e, e, h.bands]

theorem SameThreads.troop? {s u : State} (h : SameThreads s u) (b t : Nat) : u.troop? b t = s.troop? b t := by
  have e : ∀ o : Option Band, (o.bind fun x => x.troops[t]?) = ((o.map Band.unpoint).bind fun x => x.troops[t]?) := by
    intro o; cases o <;> rfl
  unfold State.troop?
  rw [e (u.band? b), e (s.band? b), h.band?]

theorem SameThreads.thread? {s u : State} (h : SameThreads s u) (t : Tid) : u.thread? t = s.thread? t := by
  unfold State.thread?; rw [h.troop?]

theorem SameThreads.coreOf {s u : State} (h : SameThreads s u) (t : Tid) : u.coreOf t = s.coreOf t := by
  have e : ∀ o : Option Band, (o.map fun b => b.coreOf t.troop) = ((o.map Band.unpoint).map fun b => b.coreOf t.troop) := by
    intro o; cases o <;> rfl
  unfold State.coreOf
  rw [e (u.band? t.band), e (s.band? t.band), h.band?]

theorem SameThreads.twinOf {s u : State} (h : SameThreads s u) (t : Tid) : u.twinOf t = s.twinOf t := by
  have e : ∀ o : Option Band, (o.bind fun x => x.pair.map (·.2)) = ((o.map Band.unpoint).bind fun x => x.pair.map (·.2)) := by
    intro o; cases o <;> rfl
  unfold State.twinOf State.partner
  rw [e (u.band? t.band), e (s.band? t.band), h.band?]

theorem SameThreads.slotFor {s u : State} (h : SameThreads s u) (t : Tid) (r : VReg) : u.slotFor t r = s.slotFor t r := by
  rw [State.slotFor_eq, State.slotFor_eq, h.troop?, h.thread?, h.coreOf]

theorem SameThreads.writable {s u : State} (h : SameThreads s u) {t : Tid} (hw : Writable s t) : Writable u t :=
  ⟨by rw [h.thread?]; exact hw.thread, fun r c i hs => by
    rw [h.slotFor] at hs
    have := hw.slots r c i hs
    unfold State.slot? at this ⊢
    rw [h.slots]
    exact this⟩

theorem SameThreads.statusOf {s u : State} (h : SameThreads s u) (t : Tid) : u.statusOf t = s.statusOf t := by
  unfold State.statusOf; rw [h.thread?]

theorem SameThreads.flagsOk {s u : State} (h : SameThreads s u) (hs : s.flagsOk) : u.flagsOk := by
  intro t th ht
  rw [h.thread?] at ht
  rw [h.holds]
  exact hs t th ht

/-- A landing after accesses. -/
theorem SameThreads.lands {s v : State} (h : SameThreads s v) (p : Pending) (ws : List RegWrite) (twin : Bool) (hp : ∀ r x, RegWrite.p r x ∉ ws)
    (hc : Consistent ws) (hw : Writable s p.tid) (hs : s.statusOf p.tid ≠ .exited) (ht : twin = false ∨ s.twinOf p.tid = none)
    (hl : ∀ (s v : State) (p : Pending) (ws : List RegWrite) (twin : Bool), (∀ r x, RegWrite.p r x ∉ ws) → Consistent ws →
      v.holds = s.holds → (s.flagsOk → v.flagsOk) → Writable v p.tid → v.statusOf p.tid ≠ .exited → (twin = false ∨ v.twinOf p.tid = none) →
      Lands p s v (v.landRegs p ws twin) ws) : Lands p s v (v.landRegs p ws twin) ws :=
  hl s v p ws twin hp hc h.holds h.flagsOk (h.writable hw) (by rw [h.statusOf]; exact hs) (by rw [h.twinOf]; exact ht)

/-! ### The spec lemma -/

theorem Touch.landing_fits (p : Pending) (s : State) (ws : List RegWrite) : (Touch.landing p s ws).rest = fun v u =>
    { v with bands := u.bands, slots := u.slots, holds := u.holds } := rfl

/-- Frames of one landing follow each other. -/
theorem Kept.land_trans {p : Pending} {z : State} {ws : List RegWrite} {s u w : State} (h : Kept (Touch.landing p z ws) s u)
    (k : Kept (Touch.landing p z ws) u w) : Kept (Touch.landing p z ws) s w := by
  refine ⟨fun b t l r hr => (k.regs b t l r hr).trans (h.regs b t l r hr), fun c i j l hr => (k.slots c i j l hr).trans (h.slots c i j l hr),
    k.traps.trans h.traps, fun t p hp => (k.preds t p hp).trans (h.preds t p hp), fun hf => ?_, k.bands.trans h.bands,
    k.cores.trans h.cores, k.dies.trans h.dies, ?_⟩
  · obtain ⟨h1, h2⟩ := h.flags hf
    obtain ⟨k1, k2⟩ := k.flags h1
    exact ⟨k1, fun t f hn => (k2 t f hn).trans (h2 t f hn)⟩
  · have h1 := h.rest
    have h2 := k.rest
    rw [h1] at h2
    exact h2

/-- The default frame of a register operation, as a landing's. -/
theorem Kept.as_landing {p : Pending} {z : State} {ws : List RegWrite} {s u : State} (h : Kept { regs := p.rel ++ writtenRegs ws } s u)
    (hb : u.bundles = s.bundles) : Kept (Touch.landing p z ws) s u :=
  h.mono (fun _ h => h) (fun _ h => h) (fun _ h => by simp at h) (fun h => h) (fun h => h) (fun h => h) fun h => by
    rw [h]
    simp only [Touch.landing, hb]

theorem SameShape.bundles {s u : State} (h : SameShape s u) : u.bundles = s.bundles := by have := h.rest; rw [this]

/-- What `State.landRegs` does where no twin receives the result. -/
theorem Lands.of_landRegs (s v : State) (p : Pending) (ws : List RegWrite) (twin : Bool) (hp : ∀ r x, RegWrite.p r x ∉ ws) (hc : Consistent ws)
    (hv : v.holds = s.holds) (hok : s.flagsOk → v.flagsOk) (hw : Writable v p.tid) (hs : v.statusOf p.tid ≠ .exited) (ht : twin = false ∨ v.twinOf p.tid = none) :
    Lands p s v (v.landRegs p ws twin) ws := by
  obtain ⟨a1, a2, a3, a4, a5, a6, a7⟩ := v.clearFlags_more p.id true
  have kc : Kept (Touch.landing p s ws) v (v.clearFlags p.id true) := Kept.clearFlags v p.id true (fun h hh ho _ => by
    rw [hv] at hh
    exact List.mem_map_of_mem (List.mem_filter.2 ⟨hh, by simpa using ho⟩)) fun s u h => by rw [h]; rfl
  unfold State.landRegs
  simp only
  generalize v.clearFlags p.id true = v1 at a1 a2 a3 a4 a5 a6 a7 kc
  have r1 := v1.release_shape p.tid p.rel
  have r2 := v1.thread?_release p.tid p.rel
  have r3 : (v1.release p.tid p.rel).holds = v1.holds := by have := r1.rest; rw [this]
  have kr : Kept (Touch.landing p s ws) v1 (v1.release p.tid p.rel) :=
    (Kept.release (x := { regs := p.rel ++ writtenRegs ws }) (Touch.fits ..) v1 p.tid p.rel fun r h => List.mem_append_left _ h).as_landing r1.bundles
  have htw : (v1.release p.tid p.rel).twinOf p.tid = v.twinOf p.tid := by rw [State.twinOf_release, a7]
  have hst : (v1.release p.tid p.rel).statusOf p.tid ≠ .exited := by
    unfold State.statusOf
    rw [r2]
    have := a5 p.tid
    unfold State.statusOf at this
    rw [this]
    exact hs
  have hw1 : Writable v1 p.tid := ⟨by rw [a6]; exact hw.thread, fun r c i h => by rw [a3]; rw [a2] at h; exact hw.slots r c i h⟩
  have hw2 := hw1.mono r1
  generalize v1.release p.tid p.rel = v2 at r1 r2 r3 kr htw hst hw2
  rw [if_neg hst]
  have w1 := v2.writeRegs_shape p.tid ws
  have w3 : (v2.writeRegs p.tid ws).holds = v2.holds := by have := w1.rest; rw [this]
  have kw : Kept (Touch.landing p s ws) v2 (v2.writeRegs p.tid ws) :=
    (Kept.writeRegs (x := { regs := p.rel ++ writtenRegs ws }) (Touch.fits ..) v2 p.tid ws (fun r x h => List.mem_append_right _ ((mem_writtenRegs ws r).2 ⟨x, h⟩))
      fun r x h => absurd h (hp r x)).as_landing w1.bundles
  have hread : ∀ r x, RegWrite.v r x ∈ ws → (v2.writeRegs p.tid ws).readV p.tid r = x := fun r x h => State.readV_writeRegs v2 p.tid ws hw2 hc r x h
  have htw2 : (v2.writeRegs p.tid ws).twinOf p.tid = v2.twinOf p.tid := by
    have hb := w1.band p.tid.band
    simp only [State.twinOf, State.partner]
    cases hu : (v2.writeRegs p.tid ws).band? p.tid.band <;> cases hs' : v2.band? p.tid.band <;> simp [hu, hs'] at hb
    · rfl
    · next y z =>
      have e : y.pair = z.pair := by have := congrArg Band.pair hb; exact this
      simp only [Option.bind_some, e]
  generalize v2.writeRegs p.tid ws = v3 at w1 w3 kw hread htw2
  suffices hmain : Lands p s v (v3.clearFlags p.id false) ws by
    split
    · next u _ hu =>
      exfalso
      rcases ht with ht | ht
      · cases ht
      · rw [htw2, htw, ht] at hu
        simp at hu
    · exact hmain
  obtain ⟨b1, b2, b3, b4, b5, b6, b7⟩ := v3.clearFlags_more p.id false
  have kf : Kept (Touch.landing p s ws) v3 (v3.clearFlags p.id false) := Kept.clearFlags v3 p.id false (fun h hh ho _ => by
    rw [w3, r3, a1, hv] at hh
    exact List.mem_map_of_mem (List.mem_filter.2 ⟨(List.mem_filter.1 hh).1, by simpa using ho⟩)) fun s u h => by rw [h]; rfl
  have kall := ((kc.land_trans kr).land_trans kw).land_trans kf
  refine ⟨fun r x h => by rw [b4]; exact hread r x h, fun hso f hf => ?_, kall⟩
  have huok := (kall.flags (hok hso)).1
  have hthr : ((v3.clearFlags p.id false).thread? p.tid).isSome = true := by
    rw [b6]
    have := w1.thread_isSome p.tid
    rw [this]
    exact hw2.thread
  obtain ⟨th, hth⟩ := Option.isSome_iff_exists.1 hthr
  simp only [State.flagOf, hth, Option.map_some, Option.getD_some]
  rw [huok p.tid th hth, flagsHeld_bit, b1, w3, r3, a1, hv]
  simp only [hf, decide_true, Bool.true_and, flagHeld]
  rw [Bool.eq_iff_iff, List.any_eq_true, List.any_eq_true]
  constructor
  · rintro ⟨h, hm, hx⟩
    have hm1 := List.mem_filter.1 hm
    have hm2 := List.mem_filter.1 hm1.1
    refine ⟨h, hm2.1, ?_⟩
    simp only [Bool.not_eq_eq_eq_not, Bool.not_true, Bool.and_eq_false_imp, beq_iff_eq, Bool.and_eq_true] at hm1 hm2 hx ⊢
    refine ⟨hx, ?_⟩
    simp only [bne_iff_ne, ne_eq]
    intro he
    have x1 := hm1.2 he
    have x2 := hm2.2 he
    cases hsrc : h.src <;> simp_all
  · rintro ⟨h, hm, hx⟩
    simp only [Bool.and_eq_true, bne_iff_ne, ne_eq] at hx
    refine ⟨h, List.mem_filter.2 ⟨List.mem_filter.2 ⟨hm, ?_⟩, ?_⟩, by simpa using hx.1⟩
    · simp [hx.2]
    · simp [hx.2]

end Sys2Proof.Machine
end

