-- ==== Sys2Proof/Laws/Memory.lean ====
section
/-! SUPPORT. Every memory operation keeps home memory and the peers' windows in canonical form, and the machine after reset has
it. -/

namespace Sys2Proof.Machine

/-- What leaves both memories alone keeps their form. -/
theorem State.memOk_of_eq {s u : State} (h : s.memOk) (hm : u.mem = s.mem) (hp : u.peerMem = s.peerMem) : u.memOk := by
  simpa only [State.memOk, hm, hp] using h

/-- Memory after reset is in canonical form. -/
theorem State.memOk_reset : State.reset.memOk := ⟨rfl, rfl⟩

theorem State.memOk_setHomeBytes {s : State} (hs : s.memOk) (h : HomeId) (pa : Nat) (bs : List Byte) :
    (s.setHomeBytes h pa bs).memOk := by
  unfold State.setHomeBytes
  split
  · exact ⟨hs.1, tableWf_writeBytes _ _ _ hs.2⟩
  · exact ⟨tableWf_writeBytes _ _ _ hs.1, hs.2⟩

theorem State.memOk_writeWords {s : State} (hs : s.memOk) (h : HomeId) (pa : Nat) (ws : List Word) :
    (s.writeWords h pa ws).memOk := State.memOk_setHomeBytes hs h pa _

theorem State.memOk_writeHome {s : State} (hs : s.memOk) (pa : Nat) (bs : List Byte) : (s.writeHome pa bs).memOk :=
  ⟨tableWf_writeBytes _ _ _ hs.1, hs.2⟩

theorem State.memOk_foldl {α : Type} (f : State → α → State) (hf : ∀ s e, s.memOk → (f s e).memOk) (l : List α) {s : State}
    (hs : s.memOk) : (l.foldl f s).memOk := by
  induction l generalizing s with
  | nil => exact hs
  | cons e l ih => exact ih (hf s e hs)

theorem State.memOk_mergeHome {s : State} (hs : s.memOk) (h : HomeId) (line : Nat) (data : BitVec 1024) (mask : BitVec 128)
    (poison : Bool) : (s.mergeHome h line data mask poison).memOk := by
  unfold State.mergeHome
  have := State.memOk_foldl (fun (s : State) (e : Nat × Byte) => s.setHomeBytes h (lineBase line + e.1) [e.2])
    (fun s e hs => State.memOk_setHomeBytes hs h _ _) (lineBytes data mask)
    (State.memOk_of_eq (u := s.keepReturned h line mask) hs rfl rfl)
  dsimp only
  split
  · exact this
  · exact this

theorem State.memOk_modCore {s : State} (hs : s.memOk) (core : Nat) (f : CoreSt → CoreSt) : (s.modCore core f).memOk :=
  State.memOk_of_eq hs rfl rfl

theorem State.memOk_modDie {s : State} (hs : s.memOk) (die : Nat) (f : DieSt → DieSt) : (s.modDie die f).memOk :=
  State.memOk_of_eq hs rfl rfl

theorem State.memOk_writeDownL2 {s : State} (hs : s.memOk) (die line : Nat) : (s.writeDownL2 die line).memOk := by
  unfold State.writeDownL2
  split
  · exact hs
  · split
    · exact hs
    · exact State.memOk_modDie (State.memOk_mergeHome hs ..) ..

theorem State.memOk_roomL2 {s : State} (hs : s.memOk) (die : Nat) : (s.roomL2 die).memOk := by
  unfold State.roomL2
  split
  · exact hs
  · split
    · exact hs
    · split
      · exact hs
      · exact State.memOk_modDie (State.memOk_writeDownL2 hs ..) ..

theorem State.memOk_invalL2 {s : State} (hs : s.memOk) (die line : Nat) : (s.invalL2 die line).memOk :=
  State.memOk_modDie (State.memOk_writeDownL2 hs die line) ..

theorem State.memOk_fillL2 {s : State} (hs : s.memOk) (die asid line : Nat) (h : HomeId) :
    (s.fillL2 die asid line h).memOk := by
  unfold State.fillL2
  extract_lets s1
  have h1 : s1.memOk := by
    unfold s1
    split
    · split
      · exact hs
      · exact State.memOk_invalL2 hs ..
    · exact hs
  clear_value s1
  split
  · exact h1
  · exact State.memOk_modDie (State.memOk_roomL2 h1 die) ..

theorem State.memOk_mergeL2 {s : State} (hs : s.memOk) (die asid line : Nat) (h : HomeId) (data : BitVec 1024)
    (mask : BitVec 128) (poison : Bool) : (s.mergeL2 die asid line h data mask poison).memOk := by
  unfold State.mergeL2
  split
  · exact State.memOk_mergeHome hs ..
  · exact State.memOk_modDie (State.memOk_fillL2 hs ..) ..

theorem State.memOk_writeDownL1 {s : State} (hs : s.memOk) (core line : Nat) : (s.writeDownL1 core line).memOk := by
  unfold State.writeDownL1
  split
  · exact hs
  · split
    · exact hs
    · exact State.memOk_modCore (State.memOk_modCore (State.memOk_mergeL2 hs ..) ..) ..

theorem State.memOk_invalL1 {s : State} (hs : s.memOk) (core line : Nat) : (s.invalL1 core line).memOk :=
  State.memOk_modCore (State.memOk_writeDownL1 hs core line) ..

theorem State.memOk_roomL1 {s : State} (hs : s.memOk) (core : Nat) : (s.roomL1 core).memOk := by
  unfold State.roomL1
  split
  · exact hs
  · split
    · exact hs
    · extract_lets free
      clear_value free
      split
      · exact hs
      · exact State.memOk_invalL1 hs ..

theorem State.memOk_fillL1 {s : State} (hs : s.memOk) (core asid line : Nat) (h : HomeId) (pol : Policy) :
    (s.fillL1 core asid line h pol).memOk := by
  unfold State.fillL1
  extract_lets s1 die
  have h1 : s1.memOk := by
    unfold s1
    split
    · split
      · exact hs
      · exact State.memOk_invalL1 hs ..
    · exact hs
  clear_value s1
  split
  · split
    · exact State.memOk_modCore h1 ..
    · exact h1
  · have h2 : (if h = .die (dieOf core) then s1 else s1.fillL2 (dieOf core) asid line h).memOk := by
      split
      · exact h1
      · exact State.memOk_fillL2 h1 ..
    exact State.memOk_modCore (State.memOk_roomL1 (State.memOk_modCore h2 ..) core) ..

/-- A read at a site moves lines only. -/
theorem State.memOk_readSite {s : State} (hs : s.memOk) (core asid : Nat) (site : Site) (loc : Loc) (n : Nat) (pol : Policy) :
    (s.readSite core asid site loc n pol).1.memOk := by
  unfold State.readSite
  split
  · split <;> exact hs
  · next c =>
    dsimp only
    split
    · refine State.memOk_modCore ?_ ..
      split
      · exact State.memOk_invalL1 hs ..
      · exact hs
    · split <;> exact State.memOk_fillL1 hs ..
  · refine State.memOk_modCore ?_ ..
    split
    · exact State.memOk_invalL1 hs ..
    · exact State.memOk_fillL2 (State.memOk_invalL1 hs ..) ..
  · exact State.memOk_modCore hs ..

/-- A write at a site keeps the form, whichever level takes it. -/
theorem State.memOk_writeSite {s : State} (hs : s.memOk) (core asid : Nat) (site : Site) (loc : Loc) (n v : Nat) (pol : Policy) :
    (s.writeSite core asid site loc n v pol).memOk := by
  unfold State.writeSite
  split
  · exact State.memOk_modCore hs ..
  · exact State.memOk_modCore (State.memOk_fillL1 hs ..) ..
  · exact State.memOk_mergeL2 hs ..
  · exact State.memOk_setHomeBytes hs ..

/-- A placed program keeps the form. -/
theorem State.memOk_placeWords {s : State} (hs : s.memOk) (ws : List Word) : (s.placeWords ws).memOk := by
  unfold State.placeWords
  extract_lets bytes dev s1
  clear_value bytes
  have h : s1.memOk := by
    constructor
    · exact tableWf_writeBytes s.mem 0 bytes.flatten hs.1
    · exact hs.2
  exact State.memOk_modCore h ..

theorem State.memOk_restart {s : State} (hs : s.memOk) : s.restart.memOk := ⟨rfl, hs.2⟩

end Sys2Proof.Machine
end

