-- ==== Sys2Proof/Laws/Values.lean ====
section
/-! SUPPORT. The values that register instructions compute, by elements and by bits (R118, R134, R136, R140 to R143). -/

namespace Sys2Proof.Machine

/-- A two's complement reading agrees with the bit vector's. -/
theorem bits_signed (w : Nat) (x : BitVec w) (hw : 0 < w) : signedOf w x.toNat = x.toInt := by
  unfold signedOf
  rw [BitVec.toInt_eq_toNat_cond]
  have := x.isLt
  rw [Nat.mod_eq_of_lt this]
  obtain ⟨k, rfl⟩ : ∃ k, w = k + 1 := ⟨w - 1, by omega⟩
  simp only [Nat.add_sub_cancel, Nat.pow_succ]
  have e : (2 * x.toNat < 2 ^ k * 2) = (x.toNat < 2 ^ k) := by apply propext; omega
  simp only [e]
  split
  · rfl
  · push_cast; ring

/-- Element i of a word (R118). -/
theorem elem_toNat (w i : Nat) (x : Word) : (elemOf w i x).toNat = elem w i x.toNat := by
  simp [elemOf, elem, BitVec.extractLsb', Nat.shiftRight_eq_div_pow]

theorem satInt_eq (w : Nat) (n : Int) : (satInt w n) = (fit true w n).toNat := by
  unfold satInt fit clampInt wrapInt
  simp only [if_true, BitVec.toNat_ofInt]
  congr 1
  have : (-2 ^ (w-1) : Int) = -(2 ^ (w-1)) := by ring
  have h2 : (0:Int) < 2 ^ (w-1) := by positivity
  congr 1
  · split
    · omega
    · split <;> omega

theorem wrap_eq (w : Nat) (n : Int) : wrapInt w n = (fit false w n).toNat := by
  unfold fit wrapInt
  simp [BitVec.toNat_ofInt]

/-- Wrap and Sat of R136. -/
theorem fitInt_eq (sat : Bool) (w : Nat) (n : Int) : fitInt sat w n = (fit sat w n).toNat := by
  cases sat
  · exact wrap_eq w n
  · exact satInt_eq w n

theorem packElems_lt (w : Nat) (l : List Nat) : packElems w l < 2 ^ (w * l.length) := by
  induction l with
  | nil => simp [packElems]
  | cons x r ih =>
    simp only [packElems, List.length_cons]
    have h1 : x % 2^w < 2^w := Nat.mod_lt _ (by positivity)
    have : 2 ^ (w * (r.length + 1)) = 2 ^ w * 2 ^ (w * r.length) := by rw [← pow_add]; ring_nf
    rw [this]
    have h3 : packElems w r + 1 ≤ 2 ^ (w * r.length) := ih
    calc x % 2 ^ w + 2 ^ w * packElems w r < 2 ^ w + 2 ^ w * packElems w r := by omega
      _ = 2 ^ w * (packElems w r + 1) := by ring
      _ ≤ _ := Nat.mul_le_mul_left _ h3

/-- An element of packed elements. -/
theorem elem_packElems (w i : Nat) (l : List Nat) (h : i < l.length) : elem w i (packElems w l) = l[i] % 2 ^ w := by
  induction l generalizing i with
  | nil => simp at h
  | cons x r ih =>
    have h1 : x % 2^w < 2^w := Nat.mod_lt _ (by positivity)
    cases i with
    | zero => simp [elem, packElems]
    | succ i =>
      simp only [List.length_cons] at h
      have := ih i (by omega)
      simp only [elem, packElems, List.getElem_cons_succ] at this ⊢
      rw [← this]
      congr 1
      rw [show w * (i+1) = w + w * i by ring, pow_add, ← Nat.div_div_eq_div_mul]
      congr 1
      rw [Nat.add_mul_div_left _ _ (by positivity), Nat.div_eq_of_lt h1, Nat.zero_add]

theorem elemOf_pack (w i : Nat) (l : List Nat) (hl : w * l.length ≤ 32) (h : i < l.length) :
    elemOf w i (BitVec.ofNat 32 (packElems w l)) = BitVec.ofNat w l[i] := by
  apply BitVec.eq_of_toNat_eq
  rw [elem_toNat, BitVec.toNat_ofNat, Nat.mod_eq_of_lt, elem_packElems _ _ _ h, BitVec.toNat_ofNat]
  exact lt_of_lt_of_le (packElems_lt w l) (Nat.pow_le_pow_right (by omega) hl)

/-- A function applied to each element (R134). -/
theorem elemOf_mapElems (w i : Nat) (f : Nat → Nat → Nat) (a b : Word) (hi : i < 32 / w) :
    elemOf w i (BitVec.ofNat 32 (mapElems w f a.toNat b.toNat 32)) = BitVec.ofNat w (f (elemOf w i a).toNat (elemOf w i b).toNat) := by
  have hw : w * (32 / w) ≤ 32 := Nat.mul_div_le 32 w
  unfold mapElems
  rw [elemOf_pack _ _ _ (by simpa using hw) (by simpa using hi)]
  simp [elem_toNat]

theorem signedElems_ok (sat : Bool) (w : Nat) (hw : 0 < w) (f : Int → Int → Int) (a b : Word) (i : Nat) (hi : i < 32 / w) :
    elemOf w i (signedElems sat w f a b) = fit sat w (f (elemOf w i a).toInt (elemOf w i b).toInt) := by
  unfold signedElems
  rw [elemOf_mapElems _ _ _ _ _ hi]
  rw [bits_signed w _ hw, bits_signed w _ hw, fitInt_eq sat w]
  simp

theorem ofNat_wrap (w : Nat) (n : Int) : BitVec.ofNat w (wrapInt w n) = BitVec.ofInt w n := by
  rw [wrap_eq]
  exact BitVec.ofNat_toNat _ _ |>.trans (BitVec.setWidth_eq _)

theorem fitInt32 (sat : Bool) (n : Int) : BitVec.ofNat 32 (fitInt sat 32 n) = fit sat 32 n := by
  rw [fitInt_eq]; simp

theorem pick_uns (mx : Bool) (w : Nat) (p q : BitVec w) :
    (BitVec.ofNat w (pickElem true mx w p.toNat q.toNat)).toNat = if mx then max p.toNat q.toNat else min p.toNat q.toNat := by
  have hp := p.isLt
  have hq := q.isLt
  simp only [pickElem, if_true, Nat.mod_eq_of_lt hp, Nat.mod_eq_of_lt hq, BitVec.toNat_ofNat]
  by_cases h : p.toNat < q.toNat
  · cases mx <;> simp [h, Nat.mod_eq_of_lt hp, Nat.mod_eq_of_lt hq] <;> omega
  · cases mx <;> simp [h, Nat.mod_eq_of_lt hp, Nat.mod_eq_of_lt hq] <;> omega

theorem pick_int (mx : Bool) (w : Nat) (hw : 0 < w) (p q : BitVec w) :
    (BitVec.ofNat w (pickElem false mx w p.toNat q.toNat)).toInt = if mx then max p.toInt q.toInt else min p.toInt q.toInt := by
  simp only [pickElem, Bool.false_eq_true, if_false, bits_signed w p hw, bits_signed w q hw]
  by_cases h : p.toInt < q.toInt
  · cases mx <;> simp [h] <;> omega
  · cases mx <;> simp [h] <;> omega

theorem minMaxWord_elem (ty : MinTy) (mx : Bool) (x y : Word) (i : Nat) (hi : i < 32 / (MinTy.shape ty).1) :
    elemOf (MinTy.shape ty).1 i (minMaxWord ty mx x y) = BitVec.ofNat (MinTy.shape ty).1
      (pickElem (MinTy.shape ty).2 mx (MinTy.shape ty).1 (elemOf (MinTy.shape ty).1 i x).toNat (elemOf (MinTy.shape ty).1 i y).toNat) := by
  show elemOf (MinTy.shape ty).1 i (BitVec.ofNat 32 (mapElems (MinTy.shape ty).1 (pickElem (MinTy.shape ty).2 mx (MinTy.shape ty).1) _ _ 32)) = _
  rw [elemOf_mapElems _ _ _ _ _ hi]

/-- A shift of the sign by bits (R141). -/
theorem sar_bit (w : Nat) (x : BitVec w) (n i : Nat) (hi : i < w) :
    (sarBits w x n).getLsbD i = if i + n < w then x.getLsbD (i + n) else x.msb := by
  simp only [sarBits, BitVec.getLsbD_sshiftRight]
  have h0 : decide (w ≤ i) = false := by simp; omega
  simp only [h0, Bool.not_false, Bool.true_and]
  by_cases h : n ≤ w
  · rw [Nat.min_eq_left h, Nat.add_comm n i]
  · rw [Nat.min_eq_right (by omega), if_neg (by omega), if_neg (by omega)]

/-- POPC. -/
theorem popc_ok (x : Word) : (popcWord x).toNat = (List.finRange 32).countP fun i => x.getLsbD i.val := by
  unfold popcWord
  have hle : ((List.range 32).filter fun i => x.getLsbD i).length ≤ 32 := by
    simpa using List.length_filter_le (fun i => x.getLsbD i) (List.range 32)
  rw [BitVec.toNat_ofNat, Nat.mod_eq_of_lt (by omega)]
  rw [List.countP_eq_length_filter]
  rw [← List.map_coe_finRange_eq_range, List.filter_map, List.length_map]
  rfl

theorem testBit_log2 (n : Nat) (h : n ≠ 0) : n.testBit n.log2 = true := by
  rw [Nat.testBit_eq_decide_div_mod_eq]
  have h1 := Nat.log2_self_le h
  have h2 := Nat.lt_log2_self (n := n)
  have : n / 2 ^ n.log2 = 1 := by
    apply Nat.div_eq_of_lt_le <;> omega
  simp [this]

/-- CLZ. -/
theorem clz_ok (x : Word) : (clzWord x).toNat ≤ 32 ∧ (∀ i, 32 - (clzWord x).toNat ≤ i → x.getLsbD i = false) ∧
      ((clzWord x).toNat < 32 → x.getLsbD (31 - (clzWord x).toNat) = true) := by
  unfold clzWord
  by_cases h : x = 0
  · subst h; simp
  · have hn : x.toNat ≠ 0 := fun h' => h (BitVec.eq_of_toNat_eq (by simpa using h'))
    have hlt : Nat.log2 x.toNat < 32 := (Nat.log2_lt hn).2 x.isLt
    rw [if_neg h]
    simp only [BitVec.toNat_ofNat]
    rw [Nat.mod_eq_of_lt (by omega)]
    refine ⟨by omega, fun i hi => ?_, fun _ => ?_⟩
    · have : x.toNat < 2 ^ i := lt_of_lt_of_le (Nat.lt_log2_self (n := x.toNat)) (Nat.pow_le_pow_right (by omega) (by omega))
      rw [BitVec.getLsbD]
      exact Nat.testBit_lt_two_pow this
    · rw [show 31 - (31 - Nat.log2 x.toNat) = Nat.log2 x.toNat by omega, BitVec.getLsbD]
      exact testBit_log2 _ hn

theorem sum_bits_testBit (f : Nat → Bool) (n i : Nat) :
    (((List.range n).map fun j => if f j then 2 ^ (n - 1 - j) else 0).sum) < 2 ^ n ∧
    (i < n → Nat.testBit (((List.range n).map fun j => if f j then 2 ^ (n - 1 - j) else 0).sum) i = f (n - 1 - i)) := by
  induction n generalizing f i with
  | zero => simp
  | succ n ih =>
    rw [List.range_succ_eq_map]
    simp only [List.map_cons, List.map_map, List.sum_cons]
    have e : ((List.range n).map ((fun j => if f j then 2 ^ (n + 1 - 1 - j) else 0) ∘ Nat.succ)).sum =
        ((List.range n).map fun j => if f (j+1) then 2 ^ (n - 1 - j) else 0).sum := by
      congr 1
      apply List.map_congr_left
      intro j hj
      simp only [Function.comp, Nat.succ_eq_add_one]
      rw [show n + 1 - 1 - (j+1) = n - 1 - j by omega]
    rw [e]
    obtain ⟨h1, h2⟩ := ih (fun j => f (j+1)) i
    simp only [Nat.add_sub_cancel, Nat.sub_zero]
    constructor
    · split <;> rw [Nat.pow_succ] <;> omega
    · intro hi
      cases h0 : f 0 with
      | true =>
        simp only [if_true]
        rw [show (2 ^ n + _ : Nat) = 2 ^ n * 1 + _ by rw [Nat.mul_one], Nat.testBit_two_pow_mul_add 1 h1]
        split
        · next hlt => rw [h2 hlt]; congr 1; omega
        · have : i = n := by omega
          subst this; simp [h0]
      | false =>
        simp only [Bool.false_eq_true, if_false, Nat.zero_add]
        by_cases hlt : i < n
        · rw [h2 hlt]; congr 1; omega
        · have : i = n := by omega
          subst this
          rw [Nat.testBit_lt_two_pow h1]; simp [h0]

/-- BREV. -/
theorem brev_ok (x : Word) (i : Nat) (hi : i < 32) : (brevWord x).getLsbD i = x.getLsbD (31 - i) := by
  unfold brevWord
  rw [BitVec.getLsbD_ofNat]
  simp only [hi, decide_true, Bool.true_and]
  exact (sum_bits_testBit (fun j => x.getLsbD j) 32 i).2 hi

theorem signedOf_testBit (len f : Nat) (hl : 0 < len) (hf : f < 2 ^ len) (i : Nat) (hi : i < 32) :
    (BitVec.ofInt 32 (signedOf len f)).getLsbD i = if i < len then f.testBit i else f.testBit (len - 1) := by
  have : BitVec.ofInt 32 (signedOf len f) = (BitVec.ofNat len f).signExtend 32 := by
    rw [BitVec.signExtend]
    congr 1
    rw [BitVec.toInt_eq_toNat_cond, BitVec.toNat_ofNat, signedOf]
    obtain ⟨k, rfl⟩ : ∃ k, len = k + 1 := ⟨len - 1, by omega⟩
    simp only [Nat.add_sub_cancel, Nat.pow_succ]
    have e : (2 * (f % (2 ^ k * 2)) < 2 ^ k * 2) = (f % (2 ^ k * 2) < 2 ^ k) := by apply propext; omega
    simp only [e]
    split
    · rfl
    · push_cast; rfl
  rw [this, BitVec.getLsbD_signExtend]
  simp only [hi, decide_true, Bool.true_and]
  split
  · next h => rw [BitVec.getLsbD_ofNat]; simp [h]
  · rw [BitVec.msb_eq_getLsbD_last, BitVec.getLsbD_ofNat]; simp [hl]

/-- BFE by bits (R142). -/
theorem bfe_ok (sgn : Bool) (pos len : Nat) (x : Word) (i : Nat) (hi : i < 32) :
    (bfeWord sgn pos len x).getLsbD i = if i < len then x.getLsbD (pos + i)
      else sgn && decide (0 < len) && x.getLsbD (pos + len - 1) := by
  have hbit : ∀ j, (x.toNat / 2 ^ pos % 2 ^ len).testBit j = (decide (j < len) && x.getLsbD (pos + j)) := by
    intro j
    rw [Nat.testBit_mod_two_pow, Nat.testBit_div_two_pow, Nat.add_comm, BitVec.getLsbD]
  unfold bfeWord
  simp only
  by_cases h : (sgn && decide (0 < len)) = true
  · simp only [h, if_true]
    have hl : 0 < len := by simp at h; exact h.2
    rw [signedOf_testBit _ _ hl (Nat.mod_lt _ (by positivity)) _ hi, hbit, hbit]
    split
    · next h' => simp [h']
    · simp [hl, show pos + (len - 1) = pos + len - 1 by omega]
  · simp only [Bool.not_eq_true] at h
    simp only [h, Bool.false_eq_true, if_false]
    rw [BitVec.getLsbD_ofNat, hbit]
    split
    · next h' => simp [h', hi]
    · next h' => simp [h']

/-- BFI by bits (R142). -/
theorem bfi_ok (pos len : Nat) (x y : Word) (i : Nat) (hi : i < 32) :
    (bfiWord pos len x y).getLsbD i = if pos ≤ i ∧ i < pos + len then y.getLsbD (i - pos) else x.getLsbD i := by
  have hmask : (BitVec.ofNat 32 ((2 ^ len - 1) * 2 ^ pos)).getLsbD i = decide (pos ≤ i ∧ i < pos + len) := by
    rw [BitVec.getLsbD_ofNat, Nat.testBit_mul_two_pow, Nat.testBit_two_pow_sub_one]
    simp only [hi, decide_true, Bool.true_and]
    by_cases h : pos ≤ i
    · simp [h]; omega
    · simp [h]
  unfold bfiWord
  simp only [BitVec.getLsbD_or, BitVec.getLsbD_and, BitVec.getLsbD_not, hmask, BitVec.getLsbD_shiftLeft, hi, decide_true, Bool.true_and]
  by_cases h : pos ≤ i ∧ i < pos + len
  · simp [h, Nat.not_lt.2 h.1]
  · simp [h]

theorem bswzByte_ok (z : BitVec 64) (q : Nat) (hq : q < 32) :
    BitVec.ofNat 8 (bswzByte z.toNat q) = (let y : BitVec 8 := z.extractLsb' (8 * (q % 8)) 8
      if q < 8 then y else if q < 16 then 0 else if q < 24 then (if y.msb then 0xFF else 0) else 0xFF) := by
  have hy : (z.extractLsb' (8 * (q % 8)) 8).toNat = z.toNat / 2 ^ (8 * (q % 8)) % 256 := by
    simp [BitVec.extractLsb', Nat.shiftRight_eq_div_pow]
  have hm : (z.extractLsb' (8 * (q % 8)) 8).msb = decide (128 ≤ z.toNat / 2 ^ (8 * (q % 8)) % 256) := by
    rw [BitVec.msb_eq_decide, hy]
  simp only [bswzByte, hm]
  have h4 : q / 8 % 4 = q / 8 := by omega
  rw [h4]
  by_cases h1 : q < 8
  · rw [if_pos h1, Nat.div_eq_of_lt h1]
    apply BitVec.eq_of_toNat_eq
    rw [hy]; simp
  · by_cases h2 : q < 16
    · rw [if_neg h1, if_pos h2, show q / 8 = 1 by omega]; rfl
    · by_cases h3 : q < 24
      · rw [if_neg h1, if_neg h2, if_pos h3, show q / 8 = 2 by omega]
        simp only [decide_eq_true_eq]
        split <;> simp
      · rw [if_neg h1, if_neg h2, if_neg h3, show q / 8 = 3 by omega]; rfl

/-- BSWZ by bytes (R155). -/
theorem bswz_ok (sel : BitVec 20) (x y : Word) (k : Nat) (hk : k < 4) :
    elemOf 8 k (bswzWord sel x y) = BitVec.ofNat 8 (bswzByte (y ++ x).toNat (sel.extractLsb' (5 * k) 5).toNat) := by
  unfold bswzWord
  simp only
  rw [elemOf_pack _ _ _ (by simp) (by simpa using hk)]
  simp only [List.getElem_map, List.getElem_range]
  congr 2
  · rw [BitVec.toNat_append, Nat.shiftLeft_eq, Nat.mul_comm y.toNat, Nat.two_pow_add_eq_or_of_lt x.isLt]
  · simp [BitVec.extractLsb', Nat.shiftRight_eq_div_pow]

/-- A packed floating-point operation by elements (R134, R145). -/
theorem floatElems_ok (f : Fmt) (xm : XM) (op : Val → Val → Val) (a b : Word) (i : Nat) (hi : i < 32 / f.width) :
    elemOf f.width i (floatElems f xm op a b) = BitVec.ofNat f.width (floatResult
      (op ((f.value (elemOf f.width i a).toNat).modify xm.absA xm.negA) ((f.value (elemOf f.width i b).toNat).modify xm.absB xm.negB)) f xm) := by
  unfold floatElems
  rw [elemOf_mapElems _ _ _ _ _ hi]

theorem ffma_ok (f : Fmt) (xm : XM) (a b c : Word) (i : Nat) (hi : i < 32 / f.width) :
    elemOf f.width i (ffmaWord f xm a b c) = BitVec.ofNat f.width (floatResult
      ((((f.value (elemOf f.width i a).toNat).modify xm.absA xm.negA).mul
        ((f.value (elemOf f.width i b).toNat).modify xm.absB xm.negB)).add xm.rnd (f.value (elemOf f.width i c).toNat)) f xm) := by
  unfold ffmaWord
  rw [elemOf_pack _ _ _ (by simpa using Nat.mul_div_le 32 f.width) (by simpa using hi)]
  simp [elem_toNat]

theorem elemsOf_ok (f : Fmt) (x : Word) : elemsOf f x = (List.range (32 / f.width)).map fun i => f.value (elemOf f.width i x).toNat := by
  unfold elemsOf
  simp [elem_toNat]

theorem intDot_ok (w : Nat) (hw : 0 < w) (ua ub : Bool) (a b : Word) : intDot w ua ub a b = ((List.range (32 / w)).map fun i =>
    (if ua then ((elemOf w i a).toNat : Int) else (elemOf w i a).toInt) * (if ub then ((elemOf w i b).toNat : Int) else (elemOf w i b).toInt)).sum := by
  unfold intDot
  simp only [← bits_signed _ _ hw, elem_toNat]

theorem fclass_ok (y : Word) : fclassWord y =
    (let ex := (y.extractLsb' 23 8).toNat
     let mn := (y.extractLsb' 0 23).toNat
     if ex = 255 then (if mn ≠ 0 then 0x100 else if y.msb then 0x001 else 0x080)
      else if ex = 0 then (if mn = 0 then (if y.msb then 0x008 else 0x010) else if y.msb then 0x004 else 0x020)
      else if y.msb then 0x002 else 0x040) := by
  have hex : (y.extractLsb' 23 8).toNat = y.toNat / 2 ^ 23 % 256 := by simp [BitVec.extractLsb', Nat.shiftRight_eq_div_pow]
  have hmn : (y.extractLsb' 0 23).toNat = y.toNat % 2 ^ 23 := by simp [BitVec.extractLsb']
  have hms : y.msb = decide (y.toNat / 2 ^ 31 % 2 = 1) := by
    rw [BitVec.msb_eq_decide]
    have := y.isLt
    congr 1
    apply propext
    omega
  have hlt := y.isLt
  simp only [hex, hmn, hms]
  unfold fclassWord Fmt.value
  simp only [reduceCtorEq, if_false, Fmt.isFloat, if_true, Fmt.width, Fmt.infMag, Fmt.maxMag, Fmt.mbits, Fmt.bias, Option.some.injEq]
  simp only [show 32 - 1 = 31 from rfl]
  have e1 : y.toNat % 2 ^ 31 / 2 ^ 23 = y.toNat / 2 ^ 23 % 256 := by omega
  have e2 : y.toNat % 2 ^ 31 % 2 ^ 23 = y.toNat % 2 ^ 23 := by omega
  simp only [e1, e2]
  generalize hE : y.toNat / 2 ^ 23 % 256 = E
  generalize hM : y.toNat % 2 ^ 23 = M
  generalize hG : y.toNat % 2 ^ 31 = G
  have hg : G = E * 2 ^ 23 + M := by omega
  have hM' : M < 2 ^ 23 := by omega
  have hE' : E < 256 := by omega
  by_cases h1 : E = 255
  · subst h1
    by_cases h2 : M = 0
    · subst h2
      have : 2139095040 = G := by omega
      simp only [this, if_true]
      simp
    · rw [if_neg (show ¬ 2139095040 = G by omega), if_pos (show 2139095039 < G by omega)]
      simp [h2]
  · rw [if_neg (show ¬ 2139095040 = G by omega), if_neg (show ¬ 2139095039 < G by omega), if_neg h1]
    by_cases h0 : E = 0
    · rw [if_pos h0, if_pos h0]
      by_cases h2 : M = 0
      · subst h2
        simp
      · simp only [h2, if_false, hM', if_true, decide_eq_true_eq]
    · rw [if_neg h0, if_neg h0]
      simp only [show ¬ (2 ^ 23 + M = 0) by omega, show ¬ (2 ^ 23 + M < 2 ^ 23) by omega, if_false, decide_eq_true_eq]

theorem f32_value_normal (n : Bool) (E M : Nat) (hE : 1 ≤ E) (hE' : E ≤ 254) (hM : M < 2 ^ 23) :
    Fmt.f32.value (Fmt.f32.withSign n (E * 2 ^ 23 + M)) = .fin n (2 ^ 23 + M) ((E : Int) - 127 - 23) := by
  have hmod : Fmt.f32.withSign n (E * 2 ^ 23 + M) % 2 ^ 31 = E * 2 ^ 23 + M := by
    cases n <;> simp only [Fmt.withSign, Fmt.width, Bool.false_eq_true, if_false, if_true] <;> omega
  have hdiv : (Fmt.f32.withSign n (E * 2 ^ 23 + M) / 2 ^ 31 % 2 = 1) = (n = true) := by
    cases n
    · have : ¬ (Fmt.f32.withSign false (E * 2 ^ 23 + M) / 2 ^ 31 % 2 = 1) := by
        simp only [Fmt.withSign, Bool.false_eq_true, if_false]; omega
      exact propext ⟨fun h => absurd h this, fun h => absurd h (by simp)⟩
    · have : Fmt.f32.withSign true (E * 2 ^ 23 + M) / 2 ^ 31 % 2 = 1 := by
        simp only [Fmt.withSign, Fmt.width, if_true]; omega
      exact propext ⟨fun _ => rfl, fun _ => this⟩
  unfold Fmt.value
  simp only [reduceCtorEq, if_false, Fmt.isFloat, if_true, Fmt.infMag, Fmt.maxMag, Fmt.mbits, Fmt.bias, Option.some.injEq]
  simp only [show Fmt.f32.width - 1 = 31 from rfl, hmod, hdiv]
  have e1 : (E * 2 ^ 23 + M) / 2 ^ 23 = E := by omega
  have e2 : (E * 2 ^ 23 + M) % 2 ^ 23 = M := by omega
  rw [if_neg (by omega), if_neg (by omega), e1, e2, if_neg (by omega)]
  simp

theorem roundToFormat_int (n : Bool) (c j : Nat) (hc : 0 < c) (hc' : c < 2 ^ 24) (hj : c * 2 ^ j < 2 ^ 128) :
    ∃ E M, 1 ≤ E ∧ E ≤ 254 ∧ M < 2 ^ 23 ∧ roundToFormat (.fin n (c * 2 ^ j) 0) .f32 .rne false = Fmt.f32.withSign n (E * 2 ^ 23 + M) ∧
      (Val.fin n (2 ^ 23 + M) ((E : Int) - 127 - 23)).cmp (.fin n (c * 2 ^ j) 0) = some .eq := by
  have hk : c * 2 ^ j ≠ 0 := by positivity
  obtain ⟨L, hL⟩ : ∃ L, L = Nat.log2 (c * 2 ^ j) := ⟨_, rfl⟩
  have hlo : 2 ^ L ≤ c * 2 ^ j := hL ▸ Nat.log2_self_le hk
  have hhi : c * 2 ^ j < 2 ^ (L + 1) := hL ▸ Nat.lt_log2_self
  have hL127 : L ≤ 127 := by
    by_contra h
    have : 2 ^ 128 ≤ 2 ^ L := Nat.pow_le_pow_right (by omega) (by omega)
    omega
  have hLj : L ≤ 23 + j := by
    by_contra h
    have h1 : 2 ^ (24 + j) ≤ 2 ^ L := Nat.pow_le_pow_right (by omega) (by omega)
    have h2 : c * 2 ^ j < 2 ^ 24 * 2 ^ j := Nat.mul_lt_mul_of_pos_right hc' (by positivity)
    rw [← pow_add] at h2
    omega
  obtain ⟨K, hK⟩ : ∃ K, K = roundTo .rne n (c * 2 ^ j) 0 ((L : Int) - 23) := ⟨_, rfl⟩
  -- K stands for the value at the unit 2 ^ (L - 23)
  have hKv : (L ≤ 23 → K = c * 2 ^ j * 2 ^ (23 - L)) ∧ (23 < L → K * 2 ^ (L - 23) = c * 2 ^ j) := by
    constructor
    · intro h
      rw [hK, roundTo, if_pos (by omega)]
      congr 2
      omega
    · intro h
      rw [hK, roundTo, if_neg (by omega), roundShift]
      have hd : ((L : Int) - 23 - 0).toNat = L - 23 := by omega
      rw [hd]
      have hdvd : 2 ^ (L - 23) ∣ c * 2 ^ j := Dvd.dvd.mul_left (pow_dvd_pow 2 (by omega)) c
      simp only [Nat.mod_eq_zero_of_dvd hdvd, if_true]
      exact Nat.div_mul_cancel hdvd
  have hKb : 2 ^ 23 ≤ K ∧ K < 2 ^ 24 := by
    by_cases h : L ≤ 23
    · rw [hKv.1 h]
      have e1 : 2 ^ L * 2 ^ (23 - L) = 2 ^ 23 := by rw [← pow_add]; congr 1; omega
      have e2 : 2 ^ (L + 1) * 2 ^ (23 - L) = 2 ^ 24 := by rw [← pow_add]; congr 1; omega
      exact ⟨e1 ▸ Nat.mul_le_mul_right _ hlo, e2 ▸ Nat.mul_lt_mul_of_pos_right hhi (by positivity)⟩
    · have h := hKv.2 (by omega)
      have e1 : 2 ^ 23 * 2 ^ (L - 23) = 2 ^ L := by rw [← pow_add]; congr 1; omega
      have e2 : 2 ^ 24 * 2 ^ (L - 23) = 2 ^ (L + 1) := by rw [← pow_add]; congr 1; omega
      constructor
      · by_contra hlt
        have := Nat.mul_lt_mul_of_pos_right (Nat.lt_of_not_le hlt) (show 0 < 2 ^ (L - 23) by positivity)
        omega
      · by_contra hlt
        have := Nat.mul_le_mul_right (2 ^ (L - 23)) (Nat.le_of_not_lt hlt)
        omega
  refine ⟨L + 127, K - 2 ^ 23, by omega, by omega, by omega, ?_, ?_⟩
  · unfold roundToFormat
    simp only [reduceCtorEq, if_false, hk, Fmt.ulpExp, log2Of, ← hL, Fmt.mbits, Fmt.bias, Fmt.maxMag]
    have hm : max ((L : Int) + 0) (1 - ((127 : Nat) : Int)) - ((23 : Nat) : Int) = (L : Int) - 23 := by omega
    rw [hm, ← hK]
    have hq : ((L : Int) - 23 + ((23 : Nat) : Int) + ((127 : Nat) : Int) - 1).toNat = L + 126 := by omega
    have hmag : K + (L + 126) * 2 ^ 23 ≤ 0x7F7FFFFF := by omega
    rw [hq]
    generalize hX : K + (L + 126) * 2 ^ 23 = X at hmag ⊢
    rw [if_pos hmag]
    have hX' : X = (L + 127) * 2 ^ 23 + (K - 2 ^ 23) := by omega
    rw [hX']
  · simp only [Val.cmp]
    have e : 2 ^ 23 + (K - 2 ^ 23) = K := by omega
    have hle : ((L + 127 : Nat) : Int) - 127 - 23 = (L : Int) - 23 := by omega
    rw [e, hle]
    have key : signedAt (min ((L : Int) - 23) 0) n K ((L : Int) - 23) = signedAt (min ((L : Int) - 23) 0) n (c * 2 ^ j) 0 := by
      unfold signedAt
      have hnat : K * 2 ^ ((L : Int) - 23 - min ((L : Int) - 23) 0).toNat = c * 2 ^ j * 2 ^ ((0 : Int) - min ((L : Int) - 23) 0).toNat := by
        by_cases h : L ≤ 23
        · have h1 : ((L : Int) - 23 - min ((L : Int) - 23) 0).toNat = 0 := by omega
          have h2 : ((0 : Int) - min ((L : Int) - 23) 0).toNat = 23 - L := by omega
          rw [h1, h2, hKv.1 h, pow_zero, Nat.mul_one]
        · have h1 : ((L : Int) - 23 - min ((L : Int) - 23) 0).toNat = L - 23 := by omega
          have h2 : ((0 : Int) - min ((L : Int) - 23) 0).toNat = 0 := by omega
          rw [h1, h2, hKv.2 (by omega), pow_zero, Nat.mul_one]
      rw [hnat]
    rw [key]
    simp

theorem f32_value_bounds (x : Nat) (n : Bool) (k : Nat) (e : Int) (h : Fmt.f32.value x = .fin n k e) : k < 2 ^ 24 ∧ e ≤ 104 := by
  unfold Fmt.value at h
  simp only [reduceCtorEq, if_false, Fmt.isFloat, if_true, Fmt.infMag, Fmt.maxMag, Fmt.mbits, Fmt.bias, Option.some.injEq] at h
  simp only [show Fmt.f32.width - 1 = 31 from rfl] at h
  generalize x % 2 ^ 31 = G at h
  split at h
  · simp at h
  · split at h
    · simp at h
    · next h1 h2 =>
      split at h
      · injection h with _ hk he
        have hm : G % 2 ^ 23 < 2 ^ 23 := Nat.mod_lt _ (by norm_num)
        omega
      · injection h with _ hk he
        have hm : G % 2 ^ 23 < 2 ^ 23 := Nat.mod_lt _ (by norm_num)
        omega

theorem msb_withSign (n : Bool) (g : Nat) (hg : g < 2 ^ 31) : (BitVec.ofNat 32 (Fmt.f32.withSign n g)).msb = n := by
  rw [BitVec.msb_eq_decide]
  cases n
  · simp only [Fmt.withSign, Bool.false_eq_true, if_false, BitVec.toNat_ofNat]
    rw [Nat.mod_eq_of_lt (by omega)]
    simpa using hg
  · simp only [Fmt.withSign, Fmt.width, if_true, BitVec.toNat_ofNat]
    rw [Nat.mod_eq_of_lt (by omega)]
    simp

theorem frnd_ok (r : Rnd) (y : Word) :
    match Fmt.f32.value y.toNat with
    | .nan => frndWord r y = 0x7FC00000
    | .inf _ => frndWord r y = y
    | .fin n k e => if k = 0 then frndWord r y = y else
      (Fmt.f32.value (frndWord r y).toNat).cmp (.fin n (roundTo r n k e 0) 0) = some .eq ∧ (frndWord r y).msb = n := by
  unfold frndWord
  cases hv : Fmt.f32.value y.toNat with
  | nan => rfl
  | inf n => rfl
  | fin n k e =>
    simp only
    by_cases hk : k = 0
    · simp [hk]
    · rw [if_neg hk, if_neg hk]
      obtain ⟨hk1, he⟩ := f32_value_bounds _ _ _ _ hv
      by_cases hz : roundTo r n k e 0 = 0
      · rw [hz]
        have h1 : roundToFormat (.fin n 0 0) .f32 .rne false = Fmt.f32.withSign n 0 := rfl
        rw [h1]
        refine ⟨?_, msb_withSign n 0 (by norm_num)⟩
        cases n <;> decide
      · obtain ⟨c, j, hc, hc', hj, he'⟩ : ∃ c j, 0 < c ∧ c < 2 ^ 24 ∧ c * 2 ^ j < 2 ^ 128 ∧ roundTo r n k e 0 = c * 2 ^ j := by
          by_cases h0 : 0 ≤ e
          · refine ⟨k, (e - 0).toNat, by omega, hk1, ?_, by rw [roundTo, if_pos h0]⟩
            have h1 : 2 ^ (e - 0).toNat ≤ 2 ^ 104 := Nat.pow_le_pow_right (by omega) (by omega)
            calc k * 2 ^ (e - 0).toNat < 2 ^ 24 * 2 ^ (e - 0).toNat := Nat.mul_lt_mul_of_pos_right hk1 (by positivity)
              _ ≤ 2 ^ 24 * 2 ^ 104 := Nat.mul_le_mul_left _ h1
              _ = 2 ^ 128 := by norm_num
          · have hle : roundTo r n k e 0 ≤ k / 2 + 1 := by
              rw [roundTo, if_neg h0]
              unfold roundShift
              have hd : 1 ≤ (0 - e).toNat := by omega
              have hq : k / 2 ^ (0 - e).toNat ≤ k / 2 :=
                Nat.div_le_div_left (by calc 2 = 2 ^ 1 := rfl
                  _ ≤ 2 ^ (0 - e).toNat := Nat.pow_le_pow_right (by omega) hd) (by omega)
              simp only
              split
              · omega
              · have hb : ∀ c : Bool, (if c = true then k / 2 ^ (0 - e).toNat + 1 else k / 2 ^ (0 - e).toNat) ≤
                    k / 2 ^ (0 - e).toNat + 1 := fun c => by cases c <;> simp
                exact Nat.le_trans (hb _) (by omega)
            refine ⟨roundTo r n k e 0, 0, by omega, by omega, ?_, by simp⟩
            have : (2 : Nat) ^ 24 ≤ 2 ^ 128 := Nat.pow_le_pow_right (by omega) (by omega)
            have h3 : roundTo r n k e 0 < 2 ^ 24 := by omega
            rw [pow_zero, Nat.mul_one]
            exact lt_of_lt_of_le h3 this
        obtain ⟨E, M, h1, h2, h3, h4, h5⟩ := roundToFormat_int n c j hc hc' hj
        rw [he', h4]
        have hlt : Fmt.f32.withSign n (E * 2 ^ 23 + M) < 2 ^ 32 := by
          cases n <;> simp only [Fmt.withSign, Fmt.width, Bool.false_eq_true, if_false, if_true] <;> omega
        refine ⟨?_, msb_withSign n _ (by omega)⟩
        rw [BitVec.toNat_ofNat, Nat.mod_eq_of_lt hlt, f32_value_normal n E M h1 h2 h3]
        exact h5

theorem fscl_ok (xm : XM) (a b : Word) : fsclWord xm a b = BitVec.ofNat 32 (floatResult (if (elemOf 8 0 b).toNat = 255 then .nan else
    ((Fmt.f32.value a.toNat).modify xm.absA xm.negA).scale (((elemOf 8 0 b).toNat : Int) - 127)) .f32 xm) := by
  unfold fsclWord
  simp [elem_toNat, elem]

theorem convert_f2i (u : Bool) (xm : XM) (x : Word) : f2iWord u xm x = BitVec.ofInt 32 (toIntOf
    (((Fmt.f32.value x.toNat).modify xm.absA xm.negA).scale xm.k.toInt) (if u then .n32 else .i32) xm.rnd) := by
  unfold f2iWord
  exact ofNat_wrap 32 _

theorem cvtCount_fits (sf df : Fmt) (h : df ≠ .i64) : cvtBits sf df df ≤ 32 ∧ cvtCount sf df * df.container = cvtBits sf df df := by
  refine ⟨?_, rfl⟩
  cases sf <;> cases df <;> first | exact absurd rfl h | decide

theorem cvtField_elem (df sf : Fmt) (r : Rnd) (satf : Bool) (src i : Nat) (hi : i < cvtCount sf df) :
    elem df.container i (cvtField df sf r satf src) = convert sf df r satf (elem sf.container i src % 2 ^ sf.width) % 2 ^ df.container := by
  unfold cvtField
  rw [elem_packElems _ _ _ (by simpa using hi)]
  simp

theorem extract_toNat {n : Nat} (x : BitVec n) (lo w : Nat) : (x.extractLsb' lo w).toNat = x.toNat / 2 ^ lo % 2 ^ w := by
  simp [BitVec.extractLsb', Nat.shiftRight_eq_div_pow]

theorem elem_elem (a b i j x : Nat) (h : b * (j + 1) ≤ a) : elem b j (elem a i x) = x / 2 ^ (a * i + b * j) % 2 ^ b := by
  unfold elem
  obtain ⟨c, rfl⟩ : ∃ c, a = b * j + (b + c) := ⟨a - (b * j + b), by rw [Nat.mul_succ] at h; omega⟩
  rw [pow_add 2 (b * j), Nat.mod_mul_right_div_self, Nat.div_div_eq_div_mul, ← pow_add, pow_add 2 b c,
    Nat.mod_mul_right_mod]

theorem packElems_range (w n : Nat) (f : Nat → Nat) : packElems w ((List.range n).map f) < 2 ^ (w * n) := by
  simpa using packElems_lt w ((List.range n).map f)

theorem cvtField_lt (df sf : Fmt) (r : Rnd) (satf : Bool) (src : Nat) : cvtField df sf r satf src < 2 ^ (cvtBits sf df df) := by
  unfold cvtField cvtBits
  rw [Nat.mul_comm]
  exact packElems_range _ _ _

theorem putField_bits (w pos x old : Nat) (hx : x < 2 ^ w) (hold : old < 2 ^ 32) (hf : w * pos + w ≤ 32) :
    putField w pos x old < 2 ^ 32 ∧ putField w pos x old / 2 ^ (w * pos) % 2 ^ w = x ∧
      ∀ i, (i < w * pos ∨ w * pos + w ≤ i) → (putField w pos x old).testBit i = old.testBit i := by
  have hd : old = old / 2 ^ (w * pos + w) * 2 ^ (w * pos + w) + elem w pos old * 2 ^ (w * pos) + old % 2 ^ (w * pos) := by
    unfold elem
    have h1 := Nat.div_add_mod old (2 ^ (w * pos))
    have h2 := Nat.div_add_mod (old / 2 ^ (w * pos)) (2 ^ w)
    rw [Nat.div_div_eq_div_mul, ← pow_add] at h2
    calc old = 2 ^ (w * pos) * (old / 2 ^ (w * pos)) + old % 2 ^ (w * pos) := h1.symm
      _ = 2 ^ (w * pos) * (2 ^ w * (old / 2 ^ (w * pos + w)) + old / 2 ^ (w * pos) % 2 ^ w) + old % 2 ^ (w * pos) := by rw [h2]
      _ = _ := by rw [pow_add]; ring
  have hlow : old % 2 ^ (w * pos) < 2 ^ (w * pos) := Nat.mod_lt _ (by positivity)
  have hp : putField w pos x old = 2 ^ (w * pos + w) * (old / 2 ^ (w * pos + w)) + (2 ^ (w * pos) * x + old % 2 ^ (w * pos)) := by
    unfold putField
    rw [Nat.mod_eq_of_lt hx]
    generalize hQ : old / 2 ^ (w * pos + w) = Q at hd ⊢
    generalize hR : old % 2 ^ (w * pos) = R at hd ⊢
    generalize hE : elem w pos old = E at hd ⊢
    rw [hd, show Q * 2 ^ (w * pos + w) + E * 2 ^ (w * pos) + R - E * 2 ^ (w * pos) = Q * 2 ^ (w * pos + w) + R by omega]
    ring
  have hmid : 2 ^ (w * pos) * x + old % 2 ^ (w * pos) < 2 ^ (w * pos + w) := by
    rw [pow_add]
    calc 2 ^ (w * pos) * x + old % 2 ^ (w * pos) < 2 ^ (w * pos) * x + 2 ^ (w * pos) := by omega
      _ = 2 ^ (w * pos) * (x + 1) := by ring
      _ ≤ _ := Nat.mul_le_mul_left _ hx
  have hQ : old / 2 ^ (w * pos + w) < 2 ^ (32 - (w * pos + w)) := by
    rw [Nat.div_lt_iff_lt_mul (by positivity), ← pow_add, show 32 - (w * pos + w) + (w * pos + w) = 32 by omega]
    exact hold
  refine ⟨?_, ?_, ?_⟩
  · rw [hp]
    calc _ < 2 ^ (w * pos + w) * (old / 2 ^ (w * pos + w)) + 2 ^ (w * pos + w) := by omega
      _ = 2 ^ (w * pos + w) * (old / 2 ^ (w * pos + w) + 1) := by ring
      _ ≤ 2 ^ (w * pos + w) * 2 ^ (32 - (w * pos + w)) := Nat.mul_le_mul_left _ hQ
      _ = 2 ^ 32 := by rw [← pow_add]; congr 1; omega
  · rw [hp, pow_add, Nat.mul_assoc, ← Nat.add_assoc, ← Nat.mul_add, Nat.mul_add_div (by positivity), Nat.div_eq_of_lt hlow,
      Nat.add_zero, Nat.mul_add_mod, Nat.mod_eq_of_lt hx]
  · intro i hi
    rw [hp]
    conv_rhs => rw [hd]
    rw [show old / 2 ^ (w * pos + w) * 2 ^ (w * pos + w) + elem w pos old * 2 ^ (w * pos) + old % 2 ^ (w * pos) =
      2 ^ (w * pos + w) * (old / 2 ^ (w * pos + w)) + (2 ^ (w * pos) * elem w pos old + old % 2 ^ (w * pos)) by ring]
    have hE : elem w pos old < 2 ^ w := Nat.mod_lt _ (by positivity)
    have hmid' : 2 ^ (w * pos) * elem w pos old + old % 2 ^ (w * pos) < 2 ^ (w * pos + w) := by
      rw [pow_add]
      calc 2 ^ (w * pos) * elem w pos old + old % 2 ^ (w * pos) < 2 ^ (w * pos) * elem w pos old + 2 ^ (w * pos) := by omega
        _ = 2 ^ (w * pos) * (elem w pos old + 1) := by ring
        _ ≤ _ := Nat.mul_le_mul_left _ hE
    rw [Nat.testBit_two_pow_mul_add _ hmid, Nat.testBit_two_pow_mul_add _ hmid']
    rcases hi with hi | hi
    · rw [if_pos (by omega), if_pos (by omega), Nat.testBit_two_pow_mul_add _ hlow, Nat.testBit_two_pow_mul_add _ hlow,
        if_pos hi, if_pos hi]
    · rw [if_neg (by omega), if_neg (by omega)]

theorem cvt_wf (m : Mods) (df sf : Fmt) (r : Rnd) (satf : Bool) (esel : Fin 4) (d a : VReg)
    (h : Instr.wellFormed (.cvt m df sf r satf esel d a) = true) :
    (cvtBits sf df sf < 32 → cvtBits sf df sf * (esel.val + 1) ≤ 32) ∧ (cvtBits sf df df < 32 → cvtBits sf df df * (esel.val + 1) ≤ 32) := by
  have h1 : cvtOk sf df esel.val = true := by
    simp only [Instr.wellFormed, Instr.fieldsOk, Instr.rangesOk, Bool.and_eq_true] at h
    exact h.1.2.1.1
  have key : ∀ e : Fin 4, cvtOk sf df e.val = true → (cvtBits sf df sf < 32 → cvtBits sf df sf * (e.val + 1) ≤ 32) ∧
      (cvtBits sf df df < 32 → cvtBits sf df df * (e.val + 1) ≤ 32) := by
    cases sf <;> cases df <;> decide
  exact key esel h1

end Sys2Proof.Machine
end

