-- ==== Sys2Proof/Tests/Slice0.lean ====
section
/-! SUPPORT. Tests: words of the spec's encodings and their instructions, terms that the checks of WellFormed refuse, the spec's
worked examples, and for every statement of Certificates/Slice0 states and operands that meet its hypotheses. -/

open Sys2Proof Sys2Proof.Machine

namespace Sys2Proof.Tests

/-- No guard, chain or last-read. -/
def plain : Mods := ⟨false, false, false, none, none⟩
@[inherit_doc plain] def lastA : Mods := { plain with la := true }
@[inherit_doc plain] def lastB : Mods := { plain with lb := true }

/-! ### Encodings -/

/-- R85 and the encodings of its chapters: the words of the control instructions, field by field. -/
theorem test_decode_control : ∀ e ∈ ([
    ([0x00900300#32, 0xFFFFFE40#32], .bra plain (some 3) true .likely 0xFFFFFE#24),
    ([0x01300702#32], .brx lastA .uniform 7), ([0x01824000#32, 0x00000500#32], .call plain 9 5),
    ([0x02000900#32], .ret plain 9), ([0x0282C000#32], .join plain 11), ([0x03010000#32], .leave plain 4),
    ([0x03800500#32], .waitm plain 5), ([0x04128C0C#32], .matchKeys plain true 10 12 3),
    ([0x04818204#32], .vote plain (.any 6) 2 1), ([0x04918204#32], .vote plain (.all 6) 2 1),
    ([0x04A20204#32], .vote plain (.ballot 8) 2 1), ([0x05800000#32], .yield plain),
    ([0x06000000#32, 0xDEADBEEF#32], .trap plain 0xDEADBEEF), ([0x07000000#32, 0x000003E8#32], .nap plain 1000),
    ([0x06800000#32], .tret plain .retry), ([0x06900000#32], .tret plain .skip),
    ([0x06A00000#32], .tret plain .migrate)] : List (List Word × Instr)),
    decode e.1 = some (e.2, e.1.length) ∧ e.2.wellFormed = true := by decide +kernel

/-- R85 and the encodings of its chapters: the words of the moves instructions, field by field. -/
theorem test_decode_moves : ∀ e ∈ ([
    ([0x0800420D#32], .shfl lastB 1 2 3), ([0x08804200#32], .mov plain 1 2),
    ([0x09014000#32, 0x3F800000#32], .movi plain 5 0x3F800000), ([0x4980420C#32, 0x80001E00#32], .sel plain 1 2 3 7),
    ([0x17004200#32], .pmov plain (.pp 1 2)), ([0x17106800#32], .pmov plain (.nz 1 40)),
    ([0x172A0200#32], .pmov plain (.toV 40 2)), ([0x1735C000#32], .pmov plain (.clr 23)),
    ([0x1745C000#32], .pmov plain (.set 23))] : List (List Word × Instr)),
    decode e.1 = some (e.2, e.1.length) ∧ e.2.wellFormed = true := by decide +kernel

/-- R85 and the encodings of its chapters: the words of the integer instructions, field by field. -/
theorem test_decode_integer : ∀ e ∈ ([
    ([0x0B308418#32], .imul plain .i64 2 4 6), ([0x0B90420C#32], .imulh plain true 1 2 3),
    ([0x0C00420C#32], .imad plain 1 2 3), ([0x0C908414#32], .imadw plain true 2 4 5),
    ([0x0D50420C#32], .imin plain .n8x4 1 2 3), ([0x0DB0420C#32], .imax plain .n16x2 1 2 3),
    ([0x0E00420C#32], .and plain 1 2 3), ([0x0E80420C#32], .or plain 1 2 3), ([0x0F00420C#32], .xor plain 1 2 3),
    ([0x0F80420C#32], .andn plain 1 2 3), ([0x1010840C#32], .shl plain true 2 4 3),
    ([0x1080840C#32], .shr plain false 2 4 3), ([0x1110840C#32], .sar plain true 2 4 3),
    ([0x1180420C#32], .rotl plain 1 2 3), ([0x12004200#32], .popc plain 1 2), ([0x12804200#32], .clz plain 1 2),
    ([0x13004200#32], .brev plain 1 2), ([0x13804200#32, 0x00010818#32], .bfe plain true 1 2 24 8),
    ([0x1400420C#32, 0x00002000#32], .bfi plain 1 2 3 0 32), ([0x14A1420C#32], .icmp plain .lt 5 2 3),
    ([0x1551420C#32], .ncmp plain .ge 5 2 3), ([0x15804200#32, 0xFFFFFFFF#32], .iaddi plain 1 2 0xFFFFFFFF),
    ([0x1600420C#32, 0xFFFFFC02#32], .lea plain 1 2 3 2 0xFFFFFC#24), ([0x16C0420C#32], .plop plain .orn 1 2 3)] : List (List Word × Instr)),
    decode e.1 = some (e.2, e.1.length) ∧ e.2.wellFormed = true := by decide +kernel

/-- R85 and the encodings of its chapters: the words of the floating instructions, field by field. -/
theorem test_decode_floating : ∀ e ∈ ([
    ([0x1810420C#32], .fadd plain .bf16x2 1 2 3), ([0x18A0420C#32], .fsub plain .f16x2 1 2 3),
    ([0x1900420C#32], .fmul plain .f32 1 2 3), ([0x1980420C#32], .ffma plain .f32 1 2 3),
    ([0x1A00420C#32], .fmin plain .f32 1 2 3), ([0x1A80420C#32], .fmax plain .f32 1 2 3),
    ([0x1B60420C#32], .fcmp plain .unord 1 2 3), ([0x1B804200#32], .frcp plain 1 2),
    ([0x1C004200#32], .frsq plain 1 2), ([0x1C804200#32], .fsqrt plain 1 2), ([0x1D004200#32], .fexp2 plain 1 2),
    ([0x1D804200#32], .flog2 plain 1 2), ([0x1E004200#32], .fsin plain 1 2), ([0x1E804200#32], .fcos plain 1 2),
    ([0x1F004200#32], .ftanh plain 1 2), ([0x1FC04200#32], .frnd plain .rna 1 2),
    ([0x20008400#32, 0x8A480000#32], .cvt plain .i64 .i32 .rz false 0 2 4), ([0x20904200#32], .f2i plain true 1 2),
    ([0x21004200#32], .i2f plain false 1 2), ([0x21804200#32], .fclass plain 1 2),
    ([0x2210420C#32], .fdp4 plain true false 1 2 3), ([0x2220420C#32], .fdp4 plain false true 1 2 3),
    ([0x2280420C#32], .fdp8 plain 1 2 3), ([0x2310420C#32], .idp4 plain true false 1 2 3),
    ([0x23A0420C#32], .idp8 plain false true 1 2 3), ([0x2400420C#32], .fscl plain 1 2 3),
    ([0x24814108#32, 0x0008C420#32], .bswz plain 5 1 2 0x8C420)] : List (List Word × Instr)),
    decode e.1 = some (e.2, e.1.length) ∧ e.2.wellFormed = true := by decide +kernel

/-- R85 and the encodings of its chapters: the words of the memory instructions, field by field. -/
theorem test_decode_memory : ∀ e ∈ ([
    ([0x28610300#32, 0xF8FFFFF0#32], .ld plain .q .keep 15 4 3 0xFFFFF0#24),
    ([0x28110300#32, 0x24000000#32], .ld plain .s8 .strm 2 4 3 0),
    ([0x28A0031C#32, 0x20000006#32], .st plain .h .norm 2 3 7 6),
    ([0x29A00214#32, 0x399FFFF8#32], .red plain .rel 3 .die .inc true 2 5 0xFFFF8#20),
    ([0x2AB04210#32, 0x80000004#32], .atomw plain .acqrel 8 1 2 4 4),
    ([0x2B018210#32, 0x8F000004#32], .waitw plain 8 15 6 2 4 4), ([0x2BD00100#32], .fence plain .rel .device),
    ([0x2BA00000#32], .fence plain .acq .band), ([0x2BA00200#32], .fence plain .acqrel .band),
    ([0x2C200108#32, 0x80000010#32], .bara plain .arriveExpect 8 1 2 16),
    ([0x2D00C000#32, 0x00000060#32], .csrr plain 3 0x060),
    ([0x2D800500#32, 0x000000C0#32], .csrw plain .write 0x0C0 5),
    ([0x2DA00500#32, 0x000000C0#32], .csrw plain .clear 0x0C0 5), ([0x2E000000#32], .snap plain)] : List (List Word × Instr)),
    decode e.1 = some (e.2, e.1.length) ∧ e.2.wellFormed = true := by decide +kernel

/-- R85 and the encodings of its chapters: the words of the borrows instructions, field by field. -/
theorem test_decode_borrows : ∀ e ∈ ([
    ([0x30524418#32], .bor plain .a true 9 4 6), ([0x30924A10#32], .reb plain true 9 10 4),
    ([0x3100420C#32], .spl plain 1 2 3), ([0x31824800#32], .jon plain 9 8), ([0x32000400#32], .rtn plain false 4),
    ([0x32C0C900#32], .btst plain .kids 3 9), ([0x3321C900#32], .bqry plain .len 7 9),
    ([0x33800900#32], .bwait plain 9), ([0x3480080C#32, 0x9002FFFF#32], .spawna plain 9 8 3 5 0x7FFF#15),
    ([0x35000300#32, 0x20000080#32], .launch plain 2 3 128),
    ([0x3580080C#32, 0x12340005#32], .depcSet plain 0x1234 8 3 5),
    ([0x3590000C#32, 0x00070000#32], .depcAdd plain 7 3), ([0x35A00000#32, 0x00070000#32], .depcArrive plain 7)] : List (List Word × Instr)),
    decode e.1 = some (e.2, e.1.length) ∧ e.2.wellFormed = true := by decide +kernel

/-- R85 and the encodings of its chapters: the words of the engines instructions, field by field. -/
theorem test_decode_engines : ∀ e ∈ ([
    ([0x39014210#32, 0x90070000#32], .gath plain 5 9 2 4 7),
    ([0x39F00000#32, 0x00000003#32], .cwait plain .nearmem 3),
    ([0x38B11000#32, 0x00700120#32], .tcpy plain .benchToMem 4 16 7 0 2 1 false false),
    ([0x3AA10800#32, 0x56000000#32], .nmc plain .cmp 4 5 6 .f32 8),
    ([0x3AB10800#32, 0x50500000#32], .nmc plain .add 4 5 0 .n32 8), ([0x3C800500#32], .trel plain 5),
    ([0x3E808500#32], .cset plain 2 5), ([0x3D820000#32, 0x49830500#32], .accrd plain .i32 .rz true 8 96 .four true),
    ([0x3E000800#32, 0x08030700#32], .accwrReg plain .bf16 8 96 .eight true),
    ([0x3E100000#32, 0x02830410#32], .accwrTile plain 5 96 32 true)] : List (List Word × Instr)),
    decode e.1 = some (e.2, e.1.length) ∧ e.2.wellFormed = true := by decide +kernel

/-- R80 to R83: the extension words, field by field. -/
theorem test_decode_extensions : ∀ e ∈ ([
    ([0x5800420E#32, 0x4722C180#32, 0xA6FA0000#32], .fadd ⟨false, true, false, some ⟨some 3, true, .rot 5, .flip 6⟩, some ⟨true, false, false, true, true, .unit, 15, .ru, none, false⟩⟩ .f32 1 2 3),
    ([0xCC00420C#32, 0x82002700#32], .imad ⟨true, false, false, none, some ⟨false, false, false, false, true, .none, 0, .rne, some 9, true⟩⟩ 1 2 3),
    ([0x5980420C#32, 0x99440000#32], .ffma ⟨false, false, false, none, some ⟨false, true, true, false, false, .sym, 8, .rna, none, false⟩⟩ .f32 1 2 3),
    ([0x48804200#32, 0x3E5F8000#32], .mov ⟨false, false, false, some ⟨none, false, .bcast 63, .ident⟩, none⟩ 1 2),
    ([0x4E00420C#32, 0x0060D080#32], .and ⟨false, false, false, some ⟨some 0, false, .bfly 1, .up 2⟩, none⟩ 1 2 3),
    ([0x7D820000#32, 0x00000000#32, 0x2E000000#32], .accrd ⟨false, false, false, some ⟨some 23, false, .ident, .ident⟩, none⟩ .f32 .rne false 8 0 .one false)] : List (List Word × Instr)),
    decode e.1 = some (e.2, e.1.length) ∧ e.2.wellFormed = true := by decide +kernel

/-- R78 to R83, R85: reserved opcodes, variants, formats, fields and bits decode to nothing. -/
theorem test_decode_reserved : ∀ e ∈ ([
    [0x07800000#32], [0x17800000#32], [0x25000000#32], [0x2E800000#32], [0x36800000#32], [0x3B000000#32],
    [0x3F000000#32], [0x3F800000#32], [0x0A40420C#32], [0x0D60420C#32], [0x17504200#32], [0x1FD04200#32],
    [0x2240420C#32], [0x2BF00000#32], [0x2BA00300#32], [0x2C300108#32, 0x80000000#32], [0x28704200#32, 0x00000000#32],
    [0x2890020C#32, 0x00000000#32], [0x28404200#32, 0x0C000000#32], [0x28404200#32, 0x01000000#32],
    [0x2940420C#32, 0x00000000#32], [0x2900420C#32, 0x0E000000#32], [0x2900420C#32, 0x01C00000#32],
    [0x2A00420C#32, 0x00000000#32], [0x20004200#32, 0x90000000#32], [0x20004200#32, 0x00280000#32],
    [0x20004200#32, 0x00000001#32], [0x00A03F00#32, 0x00000000#32], [0x00801800#32, 0x00000000#32], [0x02830000#32],
    [0x13804200#32, 0x00020000#32], [0x2480420C#32, 0x00100000#32], [0x30624418#32], [0x32D04200#32], [0x33504200#32],
    [0x35B00000#32, 0x00000000#32], [0x3590000C#32, 0x00000001#32], [0x3804020C#32, 0x00000000#32],
    [0x3A204400#32, 0x00000000#32], [0x3A004400#32, 0x0C000000#32], [0x3AE04400#32, 0x00000000#32],
    [0x3C000000#32, 0x00001800#32], [0x3D400800#32, 0x00000000#32], [0x3D820000#32, 0x05000000#32],
    [0x3E200000#32, 0x00000000#32], [0x06B00000#32], [0x0880420C#32], [0x48804200#32, 0x30000000#32],
    [0x48804200#32, 0x06000001#32], [0x48804200#32, 0x06C00000#32], [0x5800420C#32, 0x81800000#32],
    [0x5800420C#32, 0x80050000#32], [0x5800420C#32, 0x80000400#32], [0x5800420C#32, 0x80000001#32],
    [0x68404200#32, 0x00000000#32, 0x46000000#32]] : List (List Word)), decode e = none := by decide +kernel

/-- R78, R80 to R83, R133 and the encoding checks of every instruction: one term that breaks each check is refused. -/
theorem test_ill_formed : ∀ i ∈ ([
    .bra lastA none false .none 0, .bra { plain with xg := some ⟨some 0, false, .ident, .ident⟩ } none false .none 0,
    .spl lastA 1 2 3, .mov lastB 1 2, .mov { plain with xm := some XM.plain } 1 2,
    .matchKeys { plain with xg := some ⟨some 0, false, .ident, .ident⟩ } false 10 12 3,
    .exit { plain with xg := some ⟨none, false, .rot 1, .ident⟩ },
    .shfl { plain with xg := some ⟨none, false, .rot 1, .ident⟩ } 1 2 3,
    .mov { plain with xg := some ⟨none, false, .ident, .rot 1⟩ } 1 2,
    .mov { plain with xg := some ⟨none, true, .ident, .ident⟩ } 1 2,
    .mov { plain with xg := some ⟨none, false, .flip 0, .ident⟩ } 1 2,
    .mov { plain with xg := some ⟨none, false, .flip 7, .ident⟩ } 1 2,
    .and { plain with xg := some ⟨none, false, .ident, .flip 7⟩ } 1 2 3,
    .iaddi { plain with xg := some ⟨some 0, false, .ident, .ident⟩, xm := some { XM.plain with sat := true } } 1 2 3,
    .atomc plain .rlx 8 false 0 1 2 3 0, .atomc { plain with xm := some XM.plain } .rlx 8 false 0 1 2 3 0,
    .atom plain .rlx 8 .device .cas false 1 2 3 0,
    .atom { plain with xm := some { XM.plain with creg := some 4 } } .rlx 8 .device .add false 1 2 3 0,
    .iadd { plain with xm := some { XM.plain with negA := true } } .i32 1 2 3,
    .iadd { plain with xm := some { XM.plain with absA := true } } .i32 1 2 3,
    .fscl { plain with xm := some { XM.plain with negB := true } } 1 2 3,
    .fscl { plain with xm := some { XM.plain with absB := true } } 1 2 3,
    .mma { plain with xm := some { XM.plain with absA := true } } false false 8 0 0 0 false,
    .fmin { plain with xm := some { XM.plain with sat := true } } .f32 1 2 3,
    .fmin { plain with xm := some { XM.plain with clamp := .unit } } .f32 1 2 3,
    .fmin { plain with xm := some { XM.plain with k := 1 } } .f32 1 2 3,
    .fmin { plain with xm := some { XM.plain with rnd := .rz } } .f32 1 2 3,
    .fadd { plain with xm := some { XM.plain with creg := some 4 } } .f32 1 2 3,
    .fadd { plain with xm := some { XM.plain with lc := true } } .f32 1 2 3,
    .mma { plain with xm := some { XM.plain with lc := true } } false false 8 0 0 0 false,
    .bra plain none true .none 0, .matchKeys plain false 63 12 3, .matchKeys plain true 10 63 3,
    .vote plain (.ballot 63) 2 1, .iadd plain .i64 63 4 6, .isub plain .i64 2 63 6, .imul plain .i64 2 4 63,
    .imadw plain false 63 2 3, .shl plain true 63 4 3, .shr plain true 2 63 3, .sar plain true 63 4 3,
    .bfe plain false 1 2 0 33, .bfe plain false 1 2 31 2, .bfi plain 1 2 3 1 32, .cvt plain .i4 .f32 .rne false 0 1 2,
    .cvt plain .f32 .n4 .rne false 0 1 2, .cvt plain .f32 .i32 .rne false 1 1 2,
    .cvt plain .bf16 .f32 .rne false 2 1 2, .cvt plain .i64 .i32 .rne false 0 63 2,
    .cvt plain .i32 .i64 .rne false 0 1 63, .ld plain .d .norm 8 63 2 0, .ld plain .q .norm 8 61 2 0,
    .st plain .d .norm 8 1 63 0, .st plain .q .norm 8 1 61 0, .atom plain .rlx 8 .device .fadd true 2 1 4 0,
    .atom plain .rlx 8 .device .faddbf true 2 1 4 0, .atom plain .rlx 8 .device .add true 63 1 4 0,
    .atom plain .rlx 8 .device .add true 2 1 63 0,
    .atom { plain with xm := some { XM.plain with creg := some 63 } } .rlx 8 .device .cas true 2 1 4 0,
    .red plain .acq 8 .device .add false 1 2 0, .red plain .acqrel 8 .device .add false 1 2 0,
    .red plain .rlx 8 .device .cas false 1 2 0, .red plain .rlx 8 .device .fadd true 1 2 0,
    .red plain .rlx 8 .device .add true 1 63 0, .atomw plain .rlx 8 1 2 63 0, .waitw plain 8 0 63 2 3 0,
    .csrr plain 1 0x064, .csrw plain .write 0x064 1, .csrw plain .write 0x041 1, .bor plain .e false 9 63 6,
    .reb plain false 9 10 63, .spawn plain 61 0, .spawna plain 8 61 3 0 0, .depcSet plain 0 61 3 0,
    .cpy plain 0 5 9 2 3 33, .gath plain 5 9 63 4 0, .tcpy plain .memToTile 4 57 0 0 0 0 false false,
    .tcpy plain .memToTile 4 16 0 0 1 0 false false, .tcpy plain .tileToMem 4 16 0 0 1 0 false false,
    .tcpy plain .memToBench 4 16 0 1 0 0 false false, .tcpy plain .benchToMem 4 16 0 0 0 0 false true,
    .nmc plain .fill 4 0 0 .f32 61, .nmc plain .fill 4 1 0 .f32 8, .nmc plain .fill 4 0 1 .f32 8,
    .nmc plain .fill 4 0 0 .bf16 8, .nmc plain .copy 4 5 1 .f32 8, .nmc plain .copy 4 5 0 .i32 8,
    .nmc plain .cmp 4 5 6 .i32 8, .nmc plain .add 4 5 1 .f32 8, .nmc plain .max 4 5 0 .f16 8,
    .trsv plain 0 .f32 .f32 .b32 0 false 0, .trsv plain 0 .e4m3 .e4m3 .b16 0 false 0,
    .trsv plain 0 .e4m3 .e4m3 .b32 0 false 1, .trsv plain 0 .e4m3 .e4m3 .b32 0 true 0xBF,
    .trsv plain 0 .e4m3 .e4m3 .b32 0 true 0xFB, .mma plain true true 8 0 0 0 false,
    .mma plain false false 57 0 0 0 false, .mma plain false false 8 0 16 0 false,
    .accrd plain .f32 .rne false 57 0 .eight false, .accrd plain .n32 .rne false 8 0 .one false,
    .accwrReg plain .f32 57 0 .eight false, .accwrReg plain .e4m3 8 0 .one false, .coll plain false .sum 0 0 0 9 9 61,
    .reb plain false 9 9 4, .reb plain false 9 1 4, .spl plain 2 2 3, .spl plain 2 9 3, .jon plain 9 9, .jon plain 9 2] : List Instr), i.wellFormed = false := by decide +kernel

/-- The same checks let the last value in range pass. -/
theorem test_well_formed : ∀ i ∈ ([
    .reb plain false 1 9 4, .trsv plain 0 .e4m3 .e4m3 .b32 0 true 0xC0, .bfi plain 1 2 3 0 32,
    .cvt plain .bf16 .f32 .rne false 1 1 2, .ld plain .q .norm 8 60 2 0,
    .mov { plain with xg := some ⟨none, false, .flip 6, .ident⟩ } 1 2, .mma plain false true 56 0 32 0 false,
    .imad { plain with xm := some { XM.plain with lc := true } } 1 2 3, .csrw plain .write 0x109 1,
    .coll plain true .sum 0 0 0 9 9 60] : List Instr), i.wellFormed = true := by decide +kernel

/-! ### States -/

/-- A module up to stage 7 with one core, die, quad and queue, and one thread whose clause is NOPs. -/
def base : State :=
  let r := State.reset
  { ({ r with cores := r.cores.take 1, slots := r.slots.take 4, dies := r.dies.take 1, quads := r.quads.take 1
              queues := r.queues.take 1 } : State).placeWords [] with cur := 2, agenda := [] }
/-- Its thread, and its bundle. -/
def t0 : Tid := ⟨1, 0, 0⟩
@[inherit_doc t0] def b0 : Bundle := bootBundle 2 1
/-- A HELD top-level register. -/
def region (kind : Kind) (base len : Nat) : Region :=
  { Region.none with state := .held, kind := kind, base := base, len := len, top := true, family := 7 }
/-- The module with a writable page at 0x1000, and a band with a bench granule, accumulator columns, a tile and registers of each state. -/
def st : State := (base.modCore 0 fun c => { c with tlb := ⟨0, false, 0x1000, 0x1000, 0x1000, 2, 0, false, false, true⟩ :: c.tlb }).modBand 1
  fun b => { b with
    fp := { b.fp with bench := 1, acc := 128, tiles := 1 }, benchMap := [[0]], accMap := [[0, 1, 2, 3]], tileMap := [[0]]
    tileEntries := [[TileEntry.clear]]
    g := [{ region .e 0 1024 with space := .bench }, region .e 0x1000 0x800, region .a 0x1800 0x400, Region.none,
      { Region.none with state := .refused, sub := 1 }, { Region.none with state := .pending }, region .s 0x1C00 0x400, Region.none] }

/-! ### Worked examples -/

/-- What the thread holds in `d` after one step from a packet of `ws`, with `vs` in its registers. -/
def gives (ws : List Word) (vs : List (VReg × Word)) (d : VReg) : Option Word :=
  let r := State.reset
  let s := ({ r with cores := r.cores.take 1, dies := r.dies.take 1, quads := r.quads.take 1, queues := [] } : State).placeWords ws
  match step (vs.foldl (fun s e => s.writeV ⟨s.fresh - 2, 0, 0⟩ e.1 e.2) s) with
  | .next t => ((t.troop? (s.fresh - 2) 0).bind fun x => x.name? d).map fun n => look 0 0 n.vals
  | _ => none

/-- R134: `iadd.i8x4 v3, v1, v2` (the worked example after R143), without and with SAT. -/
theorem test_iadd : gives (encode (.iadd plain .i8x4 3 1 2)) [(1, 0x10F0807F), (2, 0x20FFFF01)] 3 = some 0x30EF7F80 ∧
    gives (encode (.iadd { plain with xm := some { XM.plain with sat := true } } .i8x4 3 1 2)) [(1, 0x10F0807F), (2, 0x20FFFF01)] 3 =
      some 0x30EF807F := by decide +kernel

/-- R135, R145: `ffma.x2m1.sat v10, -v2, v3:bc0, v4!` in the words and the lanes of its worked example. -/
theorem test_ffma : gives [0x5982820C, 0x7E002000, 0xA2781300] [(2, 0x40400000), (3, 0x40000000), (4, 0x3F800000)] 10 = some 0xC0200000 ∧
    gives [0x5982820C, 0x7E002000, 0xA2781300] [(2, 0xFF000000), (3, 0x40000000), (4, 0x7F000000)] 10 = some 0x7F400000 := by
  decide +kernel

/-- R124, R151: `cvt.e4m3.f32.sat v8, v2, 1` in the words of its worked example: 470.0 saturates to 448; -0.001 and a NaN. -/
theorem test_cvt : ∀ e ∈ [(0x43EB0000, 0x7E00), (0xBA83126F, 0x8100), (0x7FC00000, 0x7F00)],
    gives [0x20020200, 0x18050000] [(2, BitVec.ofNat 32 e.1), (8, 0)] 8 = some (BitVec.ofNat 32 e.2) := by decide +kernel

/-- R129: `fdp4.e4m3 v3, v1, v2` of its worked example: 2^24 and the exact sum 2. -/
theorem test_fdp4 : gives (encode (.fdp4 plain false false 3 1 2)) [(1, 0x38383838), (2, 0x3838), (3, 0x4B800000)] 3 = some 0x4B800001 := by
  decide +kernel

/-- SHA-256 of "abc" (R16: FIPS 180-4's own example). -/
theorem test_sha256 : sha256 [0x61, 0x62, 0x63] = 0xba7816bf8f01cfea414140de5dae2223b00361a396177a9cb410ff61f20015ad#256 := by decide +kernel

/-! ### Witnesses of the statements -/

/-- Every vector register. -/
def allV : List VReg := List.finRange 64

/-- An issue of the one thread of `b0` meets the hypotheses of a completion statement: it acts, its sources are sound, and `ok`. -/
structure Meets (s : State) (m : Mods) (srcs rel : List VReg) (ok : Bundle → State → State → Tid → Prop) : Prop where
  bundle : s.bundle? = some b0
  acts : s.view.guardTrue m t0 = true
  smooth : ∀ eff, s.view.smooth b0 m rel (fun w t => (∀ r ∈ srcs, s.view.poisonedReg t r = false) ∧ ok b0 s.view w t) eff s b0.threads

/-- `Meets` from facts that decide. -/
theorem meets {s : State} {m : Mods} {srcs rel : List VReg} {ok : Bundle → State → State → Tid → Prop}
    (h : s.bundle? = some b0 ∧ s.view.guardTrue m t0 = true ∧ ∀ r ∈ srcs, s.view.poisonedReg t0 r = false)
    (hok : ok b0 s.view (s.release t0 rel) t0) : Meets s m srcs rel ok :=
  ⟨h.1, h.2.1, fun _ => ⟨fun _ => ⟨h.2.2, hok⟩, trivial⟩⟩

/-- A pair is its own first part and a second part that is known. -/
theorem pairEq {α β : Type} {e : α × β} {y : β} (h : e.2 = y) : e = (e.1, y) := Prod.ext rfl h

/-- The thread in handler mode, in the first trap slot of its core. -/
def inTrap (s : State) : State :=
  ((s.modThread t0 fun th => { th with depth := true, trap := { th.trap with slot := 0 } }).modTroop 1 0 fun x =>
    { x with active := some ⟨90, 0x12, true, ⟨1, 0⟩, ⟨1, 1⟩, [⟨0, 5, 0⟩], [], [], none⟩, entered := true, slot := some 0 }).modSlot 0 0
    fun y => { y with owner := some (1, 0, 90) }

/-- Every trap slot a bundle writes is there, from a test that decides. -/
theorem slotsFound {s : State} {b : Bundle} (h : ∀ t ∈ b.threads, ∀ r : VReg, (match s.slotFor t r with
    | some x => (s.slot? x.1 x.2).isSome | none => true) = true) :
    ∀ t ∈ b.threads, ∀ r c i, s.slotFor t r = some (c, i) → (s.slot? c i).isSome = true := by
  intro t ht r c i e
  have := h t ht r
  rwa [e] at this

/-- Register instructions (the statements MovesComplete to DotProducts): an issue that reads any register and writes a pair. -/
theorem wit_issues : Issues st b0 plain allV [62, 63] [] where
  cur := by decide +kernel
  lanes := by decide +kernel
  threads := by decide +kernel
  slots := slotsFound (by decide +kernel)
  sound := by decide +kernel
  room := fun t ht => by
    rw [List.mem_singleton.mp ht]
    refine Or.inr fun x hx tr ht => ?_
    have h : ∀ x ∈ (st.band? 1), ∀ tr ∈ x.troops[0]?, st.counted 1 0 tr + (st.freshNames
      (b0.threads.filter fun u => u.band == 1 && u.troop == 0 && st.view.guardTrue plain u) [62, 63] []).length ≤ min x.fp.regs x.fp.adm := by decide +kernel
    exact ⟨(h x hx tr ht).trans (Nat.min_le_left ..), (h x hx tr ht).trans (Nat.min_le_right ..)⟩

/-- The same in handler mode, where v48 to v63 are the trap slot's, with last-reads. -/
theorem wit_issues_handler : Issues (inTrap st) b0 { plain with la := true, lb := true } allV [63] [48, 63] where
  cur := by decide +kernel
  lanes := by decide +kernel
  threads := by decide +kernel
  slots := slotsFound (by decide +kernel)
  sound := by decide +kernel
  room := fun t ht => by
    rw [List.mem_singleton.mp ht]
    exact Or.inl (by decide +kernel)

/-- Room for a pair of registers. -/
def room2 (w : State) (t : Tid) : Prop := w.alloc t.band t.troop (w.needs t [62, 63]).eraseDups.length = .ok

/-- TransfersComplete, MembersComplete, PausesComplete, LongLatencyIssues, FencesComplete, ControlRegisters, TestsAndWaits: an
issue that reads any register, with room for its destinations and nothing in flight; LongLatencyIssues outside a chain group, -/
theorem wit_meets : Meets st plain allV [] (fun _ _ w t => room2 w t ∧ (w.thread? t).isSome = true ∧
    w.orderClear t .system = true ∧ w.pending = []) ∧ st.group = none :=
  ⟨meets (by decide +kernel) ⟨(by decide +kernel : _ = _), by decide +kernel⟩, rfl⟩

/-- and within one. -/
theorem wit_meets_chained : let s := { st with group := some ⟨⟨1, 0⟩, st.bands, st.slots⟩ }
    Meets s plain allV [] (fun _ _ w t => room2 w t) ∧ s.group.isSome = true :=
  ⟨meets (by decide +kernel) (by decide +kernel : _ = _), rfl⟩

/-- ControlRegisters and SnapTriggers: privileged writes are made in handler mode. -/
theorem wit_meets_handler : Meets (inTrap st) plain allV [] (fun _ _ w t => w.inHandler t = true) ∧
    (∀ t ∈ b0.threads, (inTrap st).inHandler t = true) ∧ csrAccess 0x006 = some .rwPriv :=
  ⟨meets (by decide +kernel) (by decide +kernel : _ = _), by decide +kernel⟩

/-- ControlRegisters: numbers of every access class. -/
theorem wit_csr_classes : [0x060, 0x0C0, 0x006, 0x0C3, 0x001, 0x064].map csrAccess =
    [some .w1c, some .rw, some .rwPriv, some .rwMgmt, some .r, none] := by decide +kernel

/-- Lanes 0 and 1 wait with VOTE.ballot on m0, of which `mask` are the members. -/
def voting (mask : BitVec 64) (codes : Nat × Nat) : State := st.modTroop 1 0 fun x =>
  let waits (c : Nat) (th : Thread) : Thread := { th with npc := ⟨1, 1⟩, status := .waiting (.collective 0 c 62 1 []) }
  { x with masks := [(0, mask)], threads := modAt (modAt x.threads 0 (waits codes.1)) 1 (waits codes.2) }

/-- MembersComplete: voters that complete, voters one of whom is missing, -/
theorem wit_voters : let s := voting 3 (3, 3)
    let u := voting 7 (3, 3)
    (s.voters 1 0 0).map (fun x => (x.tid.lane, x.code)) = [(0, 3), (1, 3)] ∧
    (∀ x ∈ s.voters 1 0 0, bit64 (s.readM 1 0 0) x.tid.lane = true ∧ s.voterDone x = true) ∧
    laneMask (s.voters 1 0 0) = s.readM 1 0 0 ∧
    (∀ x ∈ u.voters 1 0 0, bit64 (u.readM 1 0 0) x.tid.lane = true) ∧ laneMask (u.voters 1 0 0) ≠ u.readM 1 0 0 := by decide +kernel

/-- one that is no member, -/
theorem wit_voter_alone : let s := (voting 0 (0, 0)).modThread ⟨1, 0, 1⟩ fun th => { th with status := .exited }
    s.voters 1 0 0 = [⟨t0, 0, 62, 1, []⟩] ∧ bit64 (s.readM 1 0 0) 0 = false := by decide +kernel

/-- members of one collective, or of two, that exist, on distinct lanes. -/
theorem wit_complete_vote : ∀ codes ∈ [(3, 3), (1, 1), (2, 2), (4, 4), (5, 5), (1, 2)],
    let s := voting 3 codes
    let vs := s.voters 1 0 0
    vs.map (·.code) = [codes.1, codes.2] ∧ (vs.map (·.tid.lane)).Nodup ∧ (∀ x ∈ vs, x.tid.band = 1 ∧ x.tid.troop = 0) ∧
    ∀ x ∈ vs, (s.thread? x.tid).isSome = true ∧ ∀ r : VReg, s.slotFor x.tid r = none := by decide +kernel

/-- PausesComplete: a thread that naps until a clock that has come, and until one that has not. -/
theorem wit_nap : ∀ u ∈ [0, 5], let s := st.modThread t0 fun th => { th with status := .waiting (.nap u) }
    (s.thread? t0).map (·.status) = some (.waiting (.nap u)) ∧ s.clock = 0 := by decide +kernel

/-- Where the first bytes of g9 lie. -/
def at9 : Target := ⟨0x1000, .mem 0x1000 .base, region .e 0x1000 0x800⟩
/-- Where the first bytes of g10 lie, at their home. -/
def at10 : Target := ⟨0x1800, .mem 0x1800 .base, region .a 0x1800 0x400⟩
/-- Where the bench starts. -/
def at8 : Target := ⟨0, .bench 0 0, { region .e 0 1024 with space := .bench }⟩

/-- LoadsAndStoresIssue: an access of memory and one of the bench. -/
theorem wit_access : ∀ e ∈ [((9 : GReg), at9), (8, at8)], Meets st plain [2, 3] [] fun _ v w t =>
    (∃ w1, w.accessAddress t (v.regT t e.1) (v.offsetOf plain t 2 0) 4 4 .load .read = (w1, .ok e.2) ∧
      w1.alloc t.band t.troop (w1.needs t (ldRegs .w 63)).eraseDups.length = .ok) ∧
    ∃ w1, w.accessAddress t (v.regT t e.1) (v.offsetOf plain t 2 0) 4 4 .store .write = (w1, .ok e.2) := by
  intro e h
  simp only [List.mem_cons, List.mem_nil_iff, or_false] at h
  rcases h with rfl | rfl <;>
    exact meets (by decide +kernel) ⟨⟨_, pairEq (by decide +kernel), by decide +kernel⟩, _, pairEq (by decide +kernel)⟩

/-- AtomicsIssue: an atomic of each instruction, releasing, with nothing it has to wait for. -/
theorem wit_atomic : (Meets st plain [2, 3] [] fun _ v w t =>
      ∃ w1, w.accessAddress t (v.regT t 9) (v.offsetOf plain t 2 0) 8 8 .atomic .write = (w1, .ok at9) ∧ w1.twinOf t = none ∧
        w1.orderClear t .device = true ∧ room2 (w1.releaseLines t .device) t) ∧
    Meets st plain [2, 3] [] fun _ v w t =>
      ∃ w1, w.accessAddress t (v.regT t 10) (v.offsetOf plain t 2 0) 4 4 .homeOnly .write = (w1, .ok at10) ∧ w1.twinOf t = none ∧
        w1.orderClear t .device = true ∧ room2 (w1.releaseLines t .device) t :=
  ⟨meets (by decide +kernel) ⟨_, pairEq (by decide +kernel), by decide +kernel, by decide +kernel, (by decide +kernel : _ = _)⟩,
    meets (by decide +kernel) ⟨_, pairEq (by decide +kernel), by decide +kernel, by decide +kernel, (by decide +kernel : _ = _)⟩⟩

/-- WordWaits: WAITW reaches a word that nothing older of the thread holds up, and can read it; a sleeper at its limit and before it. -/
theorem wit_waitw : (Meets st plain [2, 3] [] fun _ v w t =>
      ∃ w1, w.accessAddress t (v.regT t 10) (v.offsetOf plain t 2 0) 4 4 .homeOnly .write = (w1, .ok at10) ∧
        w1.blocked w1.fresh t w1.fresh at10.loc 4 = false ∧ w1.alloc t.band t.troop (w1.needs t (regGroup 62 2)).eraseDups.length = .ok ∧
        ((w1.reserve t (regGroup 62 2)).readSite (w1.coreOf t) (w1.asidOf t) .home at10.loc 4 .norm).2.2 = false) ∧
    ∀ u ∈ [0, 9], let s := { st with sleepers := [⟨5, t0, 4, 0, 0x1800, 62, some u⟩] }
      (s.sleepers.find? (·.tid == t0)).map (·.deadline) = some (some u) ∧ s.clock = 0 ∧ (s.thread? t0).isSome = true :=
  ⟨meets (by decide +kernel) ⟨_, pairEq (by decide +kernel), by decide +kernel, by decide +kernel, by decide +kernel⟩, by decide +kernel⟩

/-- A result that `toOption` shows. -/
theorem okEq {ε α : Type} {e : Except ε α} {x : α} (h : e.toOption = some x) : e = .ok x := by
  cases e with
  | error f => cases h
  | ok y => cases h; rfl

/-- A line of the L1 of core 0, or of die 0's guests, with its first byte dirty. -/
def line32 (home : HomeId) (asid : Nat) : Line := ⟨32, home, asid, 5, 1, false, false, false⟩

/-- The state with `line32` in the L1 of core 0 and among die 0's guests. -/
def cached : State := (st.modCore 0 fun c => { c with l1 := [line32 .base 0] }).modDie 0 fun d => { d with l2 := [line32 .base 0] }

/-- SitesReadBack: a bench of the core, an L1 and a home take a write of a line's last bytes; the L1 holds a line of the context. -/
theorem wit_sites : (st.core? 0).isSome = true ∧ ((0x107C < 2 ^ 52 ∧ 0x107C % 128 + 4 ≤ 128) ∧ Policy.norm ≠ .keep) ∧
    cached.l1Line? 0 (lineKey .base 0x1000) = some (line32 .base 0) ∧ (line32 .base 0).asid = 0 := by decide +kernel

/-- A store of `n` bytes, or a reduction, in flight. -/
def flying (loc : Loc) (site : Site) (act : FlightAct) : Flight := ⟨50, t0, 3, 0, 0x1000, loc, site, .norm, act, 9⟩

/-- AccessesPerformed: accesses in flight of each kind that nothing older holds up, -/
theorem wit_perform : ∀ f ∈ [flying (.mem 0x1800 .base) .home (.store 4 7), flying (.mem 0x1800 .peer) .home (.store 16 7),
      flying (.bench 0 1020) .bank (.store 4 7), flying (.mem 0x1000 .base) (.l1 0) (.store 1 7), flying (.mem 0x1800 .base) .home (.red .add true 7)],
    let s := { st with flights := [f] }
    s.flights.find? (·.id == f.id) = some f ∧ s.canPerform f = true ∧ (s.core? 0).isSome = true := by decide +kernel

/-- a reduction of a sound word and of a poisoned one, -/
theorem wit_reduction : let f := flying (.mem 0x1800 .base) .home (.red .add false 7)
    (st.readSite (st.coreOf t0) 0 f.site f.loc 4 .norm).2.2 = false ∧
    (({ st with poison := [lineKey .base 0x1800] } : State).readSite (st.coreOf t0) 0 f.site f.loc 4 .norm).2.2 = true := by decide +kernel

/-- and lines that are there to be evicted: one that LDs of a clause still need, one that is free, one with its home on the die. -/
theorem wit_evict : let s := { cached with pins := [⟨0, 32, t0, 0, 2⟩] }
    (∃ p ∈ s.pins, p.core = 0 ∧ p.line = 32) ∧ (∀ p ∈ cached.pins, ¬ (p.core = 0 ∧ p.line = 32)) ∧
    (cached.l2Line? 0 32).map (·.home) = some .base ∧
    (((st.modCore 0 fun c => { c with l1 := [line32 (.die 0) 0] }).l1Line? 0 32).map (·.home)) = some (.die (dieOf 0)) := by decide +kernel

/-- An operation in progress. -/
def going (what : Pend) : Pending := ⟨50, t0, ⟨1, 0⟩, 3, what, [4]⟩

/-- ResultsLand: an operation of each kind of a thread that has not exited, its sources sound, with nothing older in its way, -/
theorem wit_land : ∀ w ∈ [Pend.sfu .rcp plain 1 2, .shfl plain 1 2 3, .regs [.v 1 9], .load (.mem 0x1000 .base) (.l1 0) .w .norm 1,
      .atom (.mem 0x1800 .base) 0x1800 .home .add true 1 0 2 (some .device), .atomc (.mem 0x1800 .base) 0x1800 false 3 5 0 9 1 true,
      .atomw (.mem 0x1800 .base) 5 3 1 true],
    let s := { st with pending := [going w] }
    s.pending.find? (·.id == 50) = some (going w) ∧ s.canLand (going w) = true ∧ s.statusOf t0 ≠ .exited ∧
    (∀ r : VReg, s.slotFor t0 r = none) ∧ s.poisonedReg t0 2 = false ∧ s.poisonedReg t0 3 = false ∧ s.twinOf t0 = none := by decide +kernel

/-- the word of an atomic, sound, and equal to the compare value or not, -/
theorem wit_land_word : let x := st.readSite 0 0 .home (.mem 0x1800 .base) 4 .norm
    x.2 = (0, false) ∧ (0 : Nat) = (0#32).toNat ∧ (0 : Nat) ≠ (1#32).toNat ∧ (st.readSite 0 0 (.l1 0) (.mem 0x1000 .base) 4 .norm).2.2 = false := by
  decide +kernel

/-- and a continuation that finds room in its slice's queue, in its context's ring, and nowhere. -/
theorem wit_place : let full (r : Nat) : State := st.modCtx 0 fun c => { c with pendmax := 0, ring := r }
    ((st.packets.filter fun q => q.home == 4 && q.slice == sliceOfLine .base 48).length < 64 ∧
      st.pendCnt 0 < ((st.ctx? 0).map (·.pendmax)).getD 0 ∧ (st.band? 1).isSome) ∧
    ¬ (full 4095).pendCnt 0 < (((full 4095).ctx? 0).map (·.pendmax)).getD 0 ∧
    (((full 4095).ctx? 0).map (·.ring)).getD 4096 = 4095 ∧ (((full 4096).ctx? 0).map (·.ring)).getD 4096 = 4096 := by decide +kernel

/-- AccessesChecked: a register for each check that an access can fail, in their order, and one access that each space lets pass. -/
theorem wit_checked : let k : Region := { region .e 0x1000 0x800 with kids := [⟨0x1080, 0x80, .s⟩] }
    ((st.regT t0 12).state = .refused ∧ (st.regT t0 11).state = .empty ∧ (st.regT t0 13).state = .pending ∧ (st.regT t0 9).state = .held) ∧
    (¬ ((0 : Int) ≤ 0x7FD ∧ (0x7FD : Int) + 4 ≤ 0x800) ∧ ¬ ((0 : Int) ≤ -1 ∧ (-1 : Int) + 4 ≤ 0x800) ∧ ((0 : Int) ≤ 0x7FC ∧ (0x7FC : Int) + 4 ≤ 0x800)) ∧
    (st.regT t0 14).kind = .s ∧ (st.regT t0 10).kind = .a ∧
    (∃ c ∈ k.kids, (0x7C : Int) < c.base - k.base + c.len ∧ (c.base : Int) - k.base < 0x7C + 8) ∧
    (∀ c ∈ k.kids, ¬ ((0x7C : Int) < c.base - k.base + c.len ∧ (c.base : Int) - k.base < 0x7C + 4)) ∧
    ((0x1000 + 2 : Int) % 4 ≠ 0 ∧ (0x1000 + 4 : Int) % 4 = 0) ∧ (st.regT t0 8).space = .bench ∧
    st.walkFailed 0x1000 .write false = none ∧ (st.tlb1 0 0 0x1000).map (fun e => (e.prv, e.w, e.x)) = some (false, true, false) := by decide +kernel

/-- RegistersTakeWrites: a thread with its context and its core. -/
theorem wit_csr : (st.thread? t0).isSome = true ∧ (st.ctxOf t0).isSome = true ∧ (st.core? (st.coreOf t0)).isSome = true := by decide +kernel

/-- SnapTriggers: registers that are not frozen, and registers frozen in this same clock, with no edge since. (Whether an edge lies
between two clocks is a free value.) -/
theorem wit_snap : st.dev.snap.frozen = false ∧
    (let s := { st with dev := { st.dev with snap := { st.dev.snap with frozen := true } } }
     s.dev.snap.frozen = true ∧ s.clock = s.dev.snap.at_) := by decide +kernel

/-- A phase object at the start of the bench that expects one arrival. -/
def withPhase : State := st.modCore 0 fun c => { c with bench := [(4, 1)] }

/-- BarrierWaits and BarriersArrive: an object that a thread reaches, well formed and sound, with nothing to wait for. -/
theorem wit_barrier : Meets withPhase plain [2, 3] [] fun _ v w t =>
    (w.phasePlace t 8 (v.offsetOf plain t 2 0) = .ok 0 ∧ w.benchPlace t 0 = (0, 0)) ∧
    w.blocked w.fresh t w.fresh (.bench 0 0) 16 = false ∧ w.orderClear t .band = true ∧ w.benchPoisoned 0 0 16 = false ∧
    (w.phaseAt 0 0).malformed = false :=
  meets (by decide +kernel) ⟨⟨okEq (by decide +kernel), by decide +kernel⟩, by decide +kernel⟩

/-- PhaseClocks: an object within its fields, at a clock that completes its phase and at one that does not. -/
theorem wit_phase : let p : Phase := ⟨0, 8, 127, 2, 1, false⟩
    (p.arrived < 2 ^ 24 ∧ p.bgot < 2 ^ 32 ∧ p.bexp < 2 ^ 32) ∧ (p.expect ≤ p.arrived + 1 ∧ p.bexp ≤ p.bgot + 8) ∧
    p.clock [⟨.arrive, 8⟩] = ⟨0, 0, 0, 2, 0, false⟩ ∧ p.clock [⟨.arrive, 7⟩] = ⟨7, 8, 127, 2, 2, false⟩ := by decide +kernel

/-- BarriersArrive: an arrival at that object while another thread of the band has not arrived. -/
theorem wit_arrivals : let s := withPhase.modThread ⟨1, 0, 1⟩ fun th => { th with status := .ready 0 true }
    let e : ArriveNote := ⟨t0, 0, 0, ⟨.arrive, 0⟩⟩
    (e.off % 16 = 0 ∧ (s.core? e.core).isSome ∧ (s.phaseAt e.core e.off).malformed = false) ∧
    ⟨1, 0, 1⟩ ∈ s.bandTids 1 ∧ s.statusOf ⟨1, 0, 1⟩ = .ready 0 true ∧ (⟨1, 0, 1⟩ : Tid) ∉ [e].map (·.tid) := by decide +kernel

/-- The state with pages that map the first GiB of VA to the same PA in the far tier, a task at 0x2000, one that needs a feature no
core has at 0x2040, the layout of four E4M3 elements at 0x2800, and a kernel at 0x3000. -/
def mapped : State := ({ st with
  mem := [(0x2000, 0x01), (0x2002, 0x0A), (0x2004, 0x01), (0x2008, 0x08), (0x2009, 0x08), (0x2040, 0x01), (0x2042, 0x0A), (0x2044, 0x01),
    (0x2048, 0x08), (0x2049, 0x08), (0x205D, 0x01), (0x2801, 0x10), (0x2808, 0x23), (0x280A, 0x08), (0x2832, 0x03), (0x3000, 0x01), (0x3004, 0x01),
    (0x3010, 0x08), (0x3011, 0x08), (0x301C, 0x01), (0x4000, 0x01), (0x4001, 0x50), (0x5000, 0x01), (0x5001, 0x60),
    (0x6000, 0x0F), (0x6007, 0x40)] } : State).modCtx 0 fun c =>
  { c with ptroot := 0x4000, ltbase := 0x2800, ltlen := 1, tdtbase := 0x2000, tdtlen := 3, depcnt := 4 }

/-- Room for one more operation of a class, outside a redundant pair. -/
def free (cls : OpClass) (w : State) (t : Tid) : Prop := w.countOf t.band t.troop cls < 255 ∧ w.twinOf t = none

/-- EnginesIssue, EngineRanges: commands of every engine whose checks pass, -/
theorem wit_engines : Meets st plain allV [] fun _ v w t =>
    ((v.cpyWork t 9 14 0 0 32).toOption.isSome = true ∧ (v.cpyWork t 9 11 0 0 0).toOption.isSome = true ∧ free .tag0 w t) ∧
    ((v.gathWork t 9 14 0 0 1 16).toOption.isSome = true ∧ (v.gathWork t 9 14 0 0 0xFFFFFFFF 16).toOption.isSome = true ∧ free .gather w t) ∧
    ((v.nmcWork t .cmp 9 14 9 .f32 0 0 128 128).toOption.isSome = true ∧ (v.nmcWork t .fill 9 0 0 .f32 0 0 128 7).toOption.isSome = true ∧
      free .nearmem w t) ∧
    ((v.collWork t 14 9 false .sum 0 128 2 fun _ => 0).toOption.isSome = true ∧ free .coll w t) :=
  meets (by decide +kernel) ⟨⟨by decide +kernel, by decide +kernel, by decide +kernel, by decide +kernel⟩,
    ⟨by decide +kernel, by decide +kernel, by decide +kernel, by decide +kernel⟩,
    ⟨by decide +kernel, by decide +kernel, by decide +kernel, by decide +kernel⟩, by decide +kernel, by decide +kernel, by decide +kernel⟩

/-- a TCPY among them, -/
theorem wit_tcpy : ∀ d ∈ [TcpyDir.memToTile, .memToBench, .benchToMem],
    let s := mapped.modBand 1 fun b => { b with tileEntries := [[{ TileEntry.clear with rv := true, af := .e4m3, bf := .e4m3, blk := .b32, fills := 1 }]] }
    s.bundle? = some b0 ∧ (s.tcpyWork s t0 ⟨d, 9, 0, 0, 8, 0, false, false, [0, 0, 0, 0, 0], 0, 0⟩).toOption.isSome = true ∧
    s.countOf 1 0 .tag0 < 255 ∧ s.twinOf t0 = none := by decide +kernel

/-- and what the checks of the ranges ask for, at the last place that passes. -/
theorem wit_ranges : (st.regT t0 14).check 0x3E0 32 .load = none ∧ (st.regT t0 9).check 0x7E0 32 .store = none ∧
    ((st.regT t0 9).base + 0x7E0) % 32 = 0 ∧ ((st.regT t0 14).check (0x380 + 0 * 128) 128 .load = none ∧
      (st.regT t0 9).check 0x780 128 .store = none ∧ (st.regT t0 9).space = .region ∧ (st.regT t0 14).space = .region ∧
      (0x780 % 128 = 0 ∧ 128 % 128 = 0 ∧ ((st.regT t0 14).base + 0x380) % 128 = 0)) ∧
    ((st.regT t0 9).check 0x7F8 8 .store = none ∧ 0x7F8 % 8 = 0) := by decide +kernel

/-- TilesReserve: an EMPTY tile, a READY one, one still read, and one whose zeroing is due. -/
def tiled (x : TileState) (due read : Bool) : State := (st.modBand 1 fun b => { b with tileEntries := [[{ TileEntry.clear with state := x }]] }).modCore 0
  fun c => { c with tileZero := if due then [0] else [], mx := if read then [⟨60, .round ⟨1, 0, 0, t0, false, false, false, 0, 0, TileEntry.clear, 0, [], [], 0⟩, false⟩] else [] }

/-- TilesReserve: those states of a tile. -/
theorem wit_tiles : (∀ x ∈ [TileState.empty, .ready], ((tiled x false false).tileAt t0 0).map (·.entry.state) = some x) ∧
    ((tiled .ready false true).tileRead 0 0 = true ∧ (tiled .ready false true).zeroDue 0 0 = false) ∧
    ((tiled .empty true false).zeroDue 0 0 = true ∧ (tiled .empty true false).tileRead 0 0 = false) ∧
    (st.view.srcA plain t0 5).toNat < 512 := by decide +kernel

/-- Convergence register c1 with the members given, of whom those given have signed. -/
def converging (members signed : BitVec 64) (words : List Word) (tile : TileState) : State := st.modBand 1 fun b => { b with
  conv := modAt b.conv 1 fun c => { c with members := members, signed := signed, words := words, rounds := signed != 0 }
  tileEntries := [[{ TileEntry.clear with state := tile, rv := true, af := .e4m3, bf := .e4m3, blk := .b32 }]] }

/-- MatrixIssues: a signer with others still to sign, the last signer of a round whose checks pass, -/
theorem wit_mma : (roundWords plain fun m => .mma m false false 8 0 32 1 false) = [0x3D000800, 0x00010100] ∧
    ∀ e ∈ [((3 : Nat), (0 : Nat)), (3, 2), (1, 0)], let s := converging (BitVec.ofNat 64 e.1) (BitVec.ofNat 64 e.2) [0x3D000800, 0x00010100] .ready
      let c := s.conv 1 1
      (c.members ≠ 0 ∧ t0.troop = c.troop ∧ bit64 c.members 0 = true ∧ bit64 c.signed 0 = false ∧ c.words = [0x3D000800, 0x00010100]) ∧
      s.countOf 1 0 .matrix < 255 ∧ (s.roundCheck t0 0 32).toOption.isSome = true ∧ s.view.roundPoison 1 c .e4m3 8 none = false := by
  decide +kernel

/-- transfers between registers, tiles and accumulators, -/
theorem wit_accumulator : Meets (converging 0 0 [] .ready) plain allV [] (fun _ _ w t =>
      (∀ x, w.band? t.band = some x → (32 : BitVec 12).toNat + 96 ≤ x.fp.acc) ∧ w.countOf t.band t.troop .matrix < 255 ∧ room2 w t ∧
      ((w.tileAt t 0).map fun x => (x.entry.state, decide (32 + x.entry.depth ≤ 64), w.tileSick x.core x.phys x.entry)) = some (.ready, true, false)) :=
  meets (by decide +kernel) ⟨fun x h => by
    have : ∀ x ∈ ((converging 0 0 [] .ready).release t0 []).band? 1, (32 : BitVec 12).toNat + 96 ≤ x.fp.acc := by decide +kernel
    exact this x h, by decide +kernel, (by decide +kernel : _ = _), by decide +kernel⟩

/-- and CSETs of a register whose round is in progress, and of one that is free. -/
theorem wit_cset : let n : CsetNote := ⟨[(t0, 1)], ⟨1, 0⟩, ⟨1, 1⟩, 1⟩
    n.tids = [(t0, 1)] ∧ (st.band? 1).isSome = true ∧ (∀ b ∈ st.band? 1, b.conv.length = 8) ∧ (st.conv 1 1).signed = 0 ∧
    ((converging 3 2 [] .ready).conv 1 1).signed ≠ 0 := by decide +kernel

/-- A command in progress under number 70, of the class of `cls`. -/
def running (cls : OpClass) (work : OpWork) (regs : List GReg) : EngOp :=
  { id := 70, tid := t0, pc := ⟨1, 0⟩, core := 0, asid := 0, cls := cls, work := work, sys := false, regs := regs, ranges := work.ranges,
    hnd := 0, state := .running, egress := none, sent := false, walk := none, xfail := none, old := [], diff := none, peerDown := false }

/-- A state whose only operations are those. -/
def withOps (os : List EngOp) : State := { mapped with ops := os }

/-- CPY of 20 bytes from g14 to g9; of none; GATH of a row; GATH of a zero row; NMC fill; TCPY of the layout's box to the bench. -/
def cpy20 : EngOp := running .tag0 (.cpy ⟨false, 0x1C00⟩ ⟨false, 0x1000⟩ 20) [14, 9]
def gathRow : EngOp := running .gather (.gath (some ⟨false, 0x1C00⟩) ⟨false, 0x1000⟩ 16) [14, 9]
def nmcFill : EngOp := running .nearmem (.nmc .fill .f32 0x1C00 0x1000 128 7 none 0) [9, 0]
def tcpyBench : EngOp := running .tag0 (.tcpy .memToBench false (0x1000 + 3 * 2 ^ 64 + 2 ^ 69 + 8 * 2 ^ 80 + 3 * 2 ^ 400) [0, 0, 0, 0, 0] true 0 0 none 0) [9, 8]

/-- EnginesComplete: rows that are read and places that are found, -/
theorem wit_rows : (∀ o ∈ [cpy20, gathRow], (withOps [o]).op? o.id = some o ∧ (withOps [o]).opReady o = true ∧
      ((withOps [o]).engRead o ⟨false, 0x1C00⟩ 16).2.toOption = some (List.replicate 16 0) ∧
      ((withOps [o]).engLocs o false .write (parts 0x1000 32)).toOption = some [(.mem 0x1000 .base, 32)]) := by decide +kernel

/-- boxes and lines that move whole, -/
theorem wit_moves : ((withOps [nmcFill]).opReady nmcFill = true ∧
      (((withOps [nmcFill]).nmcFlush t0 9 0 0 nmcFill.work).runNmc nmcFill .fill .f32 0x1C00 0x1000 128 7 none 0).2 = (1, none)) ∧
    ((withOps [tcpyBench]).opReady tcpyBench = true ∧ ((withOps [tcpyBench]).runOp tcpyBench).2 = (4, none)) := by decide +kernel

/-- operations that TRET skips, that are one of several, and that an engine cannot go on with; and the fill of a tile. -/
theorem wit_ops_end : (∀ o ∈ [cpy20, gathRow, nmcFill, tcpyBench], (withOps [{ o with state := .skipped }]).op? 70 = some { o with state := .skipped }) ∧
    (([cpy20, { gathRow with id := 71 }].map (·.id)).Nodup ∧ cpy20 ∈ [cpy20, { gathRow with id := 71 }]) ∧
    (let o : EngOp := { cpy20 with work := .cpy ⟨false, 0x40000000⟩ ⟨false, 0x1000⟩ 20, xfail := some (0x40000, ⟨1, 3⟩) }
     ((withOps [o]).runOp o).2 = (0, some (.fault 1 1 0x40000000 false)) ∧ (withOps [o]).opReady o = true) ∧
    (∀ x ∈ (tiled .filling false false).tileAt t0 0, ((tiled .filling false false).band? 1).isSome = true ∧ x.k = 0 ∧ x.idx = 0) := by
  decide +kernel

/-- A round of E4M3 tiles in the first columns, at the head of the matrix queue. -/
def round0 : Round := ⟨1, 0, 1, t0, false, false, false, 0, 0, { TileEntry.clear with state := .ready, rv := true, af := .e4m3, bf := .e4m3, blk := .b32 }, 32, [], [], 0⟩

/-- The state with one entry in the matrix queue and a governor budget. -/
def queued (w : MxWork) (budget : Nat) : State := st.modCore 0 fun c => { c with mx := [⟨70, w, false⟩], mgbudget := budget, mgused := 0 }

/-- MatrixPerforms: entries of each kind, a round within the budget and one over it, on columns that are distinct, with nothing poisoned;
a governor window that has begun. -/
theorem wit_matrix : (∀ n ∈ [unitsOf .e4m3, unitsOf .e4m3 - 1], let s := queued (.round round0) n
      ∀ c ∈ s.core? 0, c.mx.head? = some ⟨70, .round round0, false⟩ ∧ s.clock < c.mgorigin + 256 * (c.mgwindow + 1) ∧ c.mxNext ≤ s.clock ∧
        c.mgbudget = n ∧ s.tileSick 0 0 round0.entry = false) ∧ 0 < unitsOf .e4m3 ∧
    (∀ b ∈ st.band? 1, ∀ i < 128, b.accCol (b.kOf t0) i = i) ∧
    (∀ w ∈ [MxWork.read t0 .f32 .rne false 1 0 1 true, .writeReg t0 .f32 0 true [5], .writeTile t0 round0.entry [] 32 32 false],
      ((queued w 8).core? 0).bind (·.mx.head?) = some ⟨70, w, false⟩) ∧
    (∀ c ∈ st.core? 0, c.accBad 0 0 = false) ∧
    (let s := { st with clock := 256 }
     ∀ c ∈ s.core? 0, c.mgorigin + 256 * (c.mgwindow + 1) ≤ s.clock ∧ s.clock < c.mgorigin + 256 * (c.mgwindow + 2)) := by decide +kernel

/-- A chunk of 128 zero bytes of I32 elements, the COLL that has built it, and the slot of another input of the same chunk. -/
def chunk0 : Chunk := mkChunk .sum .i32 0 ⟨0, 5, 1, 2⟩ (List.replicate 128 0)
def coll0 : EngOp := { running .coll (.coll 0x1C00 0x1000 0 128 false .sum 2 2 5 1 2) [14, 9] with egress := some chunk0 }
def slot0 (np : Nat) (acc : Option Chunk) : ChunkSlot := ⟨80, 0, 5, 1, 2, np, false, .sum, 2, 128, [(70, chunk0)], acc, 10, [], [], none, false⟩

/-- CollectivesReduce: an egress that can read, a first input, inputs that find their slot with others to come, complete it, or are one too many, -/
theorem wit_coll : chunk0.verifies = true ∧ chunk0.op? = some .sum ∧ chunk0.fmc? = some 2 ∧ chunk0.data.length = 128 ∧
    ((withOps [{ coll0 with egress := none }]).opReady { coll0 with egress := none } = true ∧
      ((withOps [{ coll0 with egress := none }]).engRead coll0 ⟨false, 0x1C00⟩ 128).2.toOption = some (List.replicate 128 0)) ∧
    (∀ np ∈ [1, 2, 3], let s : State := { withOps [coll0] with chunks := [slot0 np none] }
      s.op? 70 = some coll0 ∧ s.chunks.find? (fun k => k.ident == ⟨0, chunk0.coll, chunk0.step, chunk0.chunk⟩) = some (slot0 np none) ∧
      s.overdue (slot0 np none) = false) ∧ (reduceAll .sum .i32 none chunk0 [chunk0]).2 = true ∧
    (reduceAll .sum .i32 (some (List.replicate 128 1)) chunk0 [chunk0]).2 = false := by decide +kernel

/-- a result that all have verified, one destination that a die has not, a peer's partial that agrees and one that does not, a slot that is overdue. -/
theorem wit_coll_ends : let s : State := { withOps [coll0] with chunks := [slot0 1 (some chunk0)] }
    (s.chunks.find? (·.id == 80) = some (slot0 1 (some chunk0)) ∧ (slot0 1 (some chunk0)).peers = [] ∧ (slot0 1 (some chunk0)).votes = []) ∧
    (s.opReady coll0 = true ∧ (s.engWrite coll0 ⟨false, 0x1000⟩ chunk0.data).2 = none) ∧ s.badDie (slot0 1 (some chunk0)) [0] = some 0 ∧
    (let x := Chunk.ofHeader chunk0.header chunk0.data
     x.verifies = true ∧ (Chunk.ofHeader chunk0.header []).verifies = true ∧ ([] : List Byte).length ≠ (slot0 1 (some chunk0)).len ∧
     (Chunk.ofHeader 0 chunk0.data).op? = some .sum) ∧
    (let u : State := { s with chunks := [slot0 2 none], clock := 11 }
     u.overdue (slot0 2 none) = true) := by decide +kernel

/-- BorrowsIssue: registers that a BOR, REB, SPL, JON and RTN may name, and operands within them; -/
theorem wit_borrows : Meets mapped plain allV [] (fun _ _ w t =>
      (w.regT t 11).state = .empty ∧ (w.regT t 12).state = .refused ∧ (w.thread? t).bind (·.borWait) = none ∧
      (w.regT t 9).state = .held ∧ (w.regT t 9).kids.length ≠ 64 ∧ (w.regT t 9).kids = [] ∧ (w.regT t 9).kind ≠ .a ∧
      w.flights = [] ∧ w.twinOf t = none) ∧
    ((2 ^ 57 - 128) % 128 = 0 ∧ 128 % 128 = 0 ∧ 2 ^ 57 - 128 + 128 ≤ 2 ^ 57) ∧ (0x780 + 0x80 ≤ (mapped.regT t0 9).len ∧ 0x780 < (mapped.regT t0 9).len) ∧
    (let s := mapped.setReg t0 11 (region .e 0x800 0x800)
     let x := s.regT t0 9
     let y := s.regT t0 11
     siblings x y = true ∧ x.kind = y.kind ∧ x.space = y.space ∧ y.base + y.len = x.base ∧ y.kids = []) :=
  ⟨meets (by decide +kernel) (by decide +kernel), by decide +kernel, by decide +kernel, by decide +kernel⟩

/-- an interrupted BOR that waits on; a range with pieces, and one without a home; a redundant pair whose second BOR asks, and whose first does not. -/
theorem wit_asks : (let s := mapped.modThread t0 fun th => { th with borWait := some 11 }
      (s.thread? t0).bind (·.borWait) = some 11 ∧ s.inHandler t0 = false) ∧
    (mapped.pieces 0 0x1000 0x80).toOption = some [⟨4, 0x1000, 0x80⟩] ∧ (mapped.pieces 0 0x40000000 0x80).toOption = none ∧
    mapped.partner 1 = none ∧ mapped.borrows = [] ∧
    (let two : State := { mapped with bands := mapped.bands ++ mapped.bands.map fun b => { b with id := 9 } }
     let pair := (two.modBand 1 fun b => { b with pair := some (0, 9) }).modBand 9 fun b => { b with pair := some (1, 1) }
     let r : Region := { Region.none with state := .pending, base := 0x1000, len := 0x80, top := true }
     pair.twinOf t0 = some ⟨9, 0, 0⟩ ∧ pair.pairedAsk t0 11 r = false ∧
     (pair.setReg ⟨9, 0, 0⟩ 11 { r with family := 44 }).pairedAsk t0 11 r = true) := by decide +kernel

/-- A request of 0x100 bytes at 0x1000 of domain 0. -/
def ask (kind : Kind) (nowait : Bool) : DeedReq := ⟨90, 0, 0, ⟨0, 0, 1, 11⟩, 0x1000, 0x100, kind, nowait, 50⟩

/-- The state with one message in flight, and what the base die's Deed Table holds. -/
def sent (body : MsgBody) (home : HomeSt) : State := ({ mapped with msgs := [⟨60, 4, askerOf t0 11, body⟩] } : State).modHome 4 fun _ => home
/-- An entry of the base die for one holder. -/
def entry0 (kind : Kind) : DeedEntry := ⟨0, 0, 0x1080, 0x100, kind, 0, none, 1⟩

/-- HomesAnswer: a message of each kind that is the oldest of its register, -/
theorem wit_messages : ∀ body ∈ [MsgBody.dreq (ask .e false), .drel 0 .s 7 3, .dcancel 90, .dquery 0 2, .dhold 0 2 []],
    let s := sent body ⟨4, [entry0 .s], [], [], []⟩
    s.msgs.find? (·.id == 60) = some ⟨60, 4, askerOf t0 11, body⟩ ∧ (∀ x ∈ s.msgs, ¬ x.id < 60) ∧
    s.home? 4 = some ⟨4, [entry0 .s], [], [], []⟩ ∧ (ask .e false).atHome 4 = some (ask .e false) := by decide +kernel

/-- tables that a request finds free, shared, held against it, full, or with a lost entry in its way, -/
theorem wit_tables : let h (es : List DeedEntry) (q : List DeedReq) (l : List Rebuild) : HomeSt := ⟨4, es, q, l, []⟩
    ((h [] [] []).shared (ask .e false) = none ∧ (h [] [] []).hasEntry (ask .e false) = true) ∧
    ((h [⟨0, 0, 0x1000, 0x100, .s, 0, none, 1⟩] [] []).shared (ask .s true)).isSome = true ∧
    ((ask .e true).meets 0 (entry0 .s).base (entry0 .s).len = true ∧ (entry0 .s).kind ≠ .e) ∧
    (h [] [ask .e false] []).grantable (ask .e false) = true ∧ (ask .s false).meets 0 (ask .e false).base (ask .e false).len = true ∧
    ((h [] [] [⟨0, 0, 0x1000, 0x80, 0, 5, []⟩]).lost.any fun x => (ask .e false).meets x.domain x.base x.len) = true ∧
    (Config.deedEntries 4 ≠ 0 → (⟨4, List.replicate (Config.deedEntries 4) (entry0 .s), [], [], []⟩ : HomeSt).entries.length = Config.deedEntries 4) := by
  refine ⟨by decide +kernel, by decide +kernel, by decide +kernel, by decide +kernel, by decide +kernel, by decide +kernel, fun _ => List.length_replicate⟩

/-- a bound that has come, an entry that is lost, and a rebuild that every die has answered. -/
theorem wit_homes : (let s := { sent (.dcancel 1) ⟨4, [], [ask .e false], [], []⟩ with clock := 50 }
      (s.homes.find? fun h => h.queue.any fun q => q.tag == 90 && !q.nowait && q.deadline ≤ s.clock) = some ⟨4, [], [ask .e false], [], []⟩ ∧
      s.home? 4 = some ⟨4, [], [ask .e false], [], []⟩) ∧
    (let h : HomeSt := ⟨4, [entry0 .s], [], [⟨0, 0, 0x1080, 0x100, 0, 0, []⟩], []⟩
     h.entries.find? (·.idx == 0) = some (entry0 .s) ∧ (h.lost.find? fun r => r.waiting == 0).isSome = true ∧ ∀ x ∈ h.heldRels, x.1 ≠ 0) := by
  decide +kernel

/-- A borrow of g11 with pieces still to ask for. -/
def asking (todo : List Piece) : Borrow := ⟨91, askerOf t0 11, 0, 0, 0, .e, false, todo, [⟨4, 2, 0x1000, 0x80⟩], 50, 91⟩

/-- RequestersTake: answers to a borrow's last piece, to an earlier one, to one withdrawn, and a release that is acknowledged, -/
theorem wit_answers : (∀ body ∈ [MsgBody.dgrant 91 (4 * 2 ^ 17 + 3) .e, .drefuse 91 2],
      ∀ todo ∈ [[(⟨4, 0x1080, 0x80⟩ : Piece)], [⟨4, 0x1080, 0x80⟩, ⟨4, 0x200000, 0x80⟩]],
      let s := ({ sent body ⟨4, [], [], [], []⟩ with borrows := [asking todo] } : State).modReg 1 0 11 fun r => { r with state := .pending }
      s.msgs.find? (·.id == 60) = some ⟨60, 4, askerOf t0 11, body⟩ ∧ s.borrows.find? (·.tag == 91) = some (asking todo) ∧
      (asking todo).who = askerOf t0 11 ∧ s.partner 1 = none ∧ (s.regT t0 11).state = .pending) ∧
    (sent (.dgrant 92 0 .e) ⟨4, [], [], [], []⟩).borrows.find? (·.tag == 92) = none ∧
    (∀ n ∈ [1, 2], let s := { sent (.drelack 93) ⟨4, [], [], [], []⟩ with returns := [⟨93, t0, 1, 9, region .e 0x1000 0x800, true, [], .releasing n⟩] }
      (s.returns.find? (·.id == 93)).map (·.stage) = some (.releasing n)) := by decide +kernel

/-- returns whose write-back may go, of a child and of a family, and requests to a peer that have waited too long. -/
theorem wit_returns : (∀ top ∈ [0, 1], let r : Return := ⟨93, t0, 1, 9, { region .e 0x1000 0x800 with top := top == 1, parent := 14 }, true, [], .waiting⟩
      let s := { mapped with returns := [r], families := [⟨7, 0, .e, .region, [⟨4, 2, 0x1000, 0x800⟩], 1⟩] }
      s.returns.find? (·.id == 93) = some r ∧ s.returnReady r = true ∧ s.second 1 = false ∧ (s.families.find? (·.id == 7)).map (·.members) = some 1) ∧
    (let s := { mapped with borrows := [asking [⟨5, 0x1080, 0x80⟩]], peerReqs := [(91, 1, 0)], clock := 4000000 }
     s.peerReqs.find? (·.1 == 91) = some (91, 1, 0) ∧ 0 + s.peerClocks ≤ s.clock ∧ s.openPeers.contains (91, 1) = true) ∧
    (let c : ChunkSlot := { slot0 2 (some chunk0) with cross := true, peers := [3] }
     let s := { mapped with chunks := [c], peerReqs := [(80, 0, 0)], clock := 4000000 }
     s.openPeers.contains (80, 0) = true ∧ s.chunks.find? (·.id == 80) = some c) := by decide +kernel

/-- LaunchesIssue: a thread with room for a child and nothing to wait for, a packet it can reach, and counters within the context and beyond it; -/
theorem wit_launches : Meets mapped plain allV [] (fun _ _ w t => w.twinOf t = none ∧ w.returns = [] ∧ w.depthOf t ≠ 10 ∧
      w.pendCnt (w.asidOf t) < ((w.ctxOf t).map (·.pendmax)).getD 0 ∧ t.troop = 0 ∧ t.lane = 0 ∧
      ((w.accessAddress t (w.regT t 9) 0 128 128 .load .read).2 = .ok at9 ∧ w.blocked w.fresh t w.fresh at9.loc 128 = false ∧
        (w.readSite 0 0 (.l1 0) at9.loc 128 .norm).2.2 = false) ∧ (w.accessAddress t (w.regT t 9) 0 1 1 .lookup .read).2 = .ok at9) ∧
    ((mapped.ctx? 0).map (·.depcnt)).getD 0 = 4 :=
  ⟨meets (by decide +kernel) (by decide +kernel), by decide +kernel⟩

/-- counters that are idle and armed, and how a count ends. -/
theorem wit_counters : let d : DepCounter := ⟨2, 1, 0, [0, 0, 0, 0], 1, 40, 2⟩
    let s := { mapped with deps := [d] }
    s.deps.find? (·.idx == 2) = some d ∧ s.deps.find? (·.idx == 3) = none ∧ (s.band? d.setter).isSome = true := by decide +kernel

/-- A launch of the thread's, under child number 44. -/
def launching (what : LaunchWhat) (counter : Bool) : State :=
  { mapped with launches := [⟨44, 0, what, 1, 1, 2, 0, ⟨0, 0, 0, ⟨1, 0⟩⟩, counter⟩], children := [(44, 1)] }

/-- A GRID of one band of one troop of the kernel at 0x3000, its argument block at 0x1C00, in bytes by place. -/
def gridCells : List (Nat × Byte) := [(0, 1), (4, 1), (5, 1), (72, 1), (76, 1), (78, 1), (81, 0x30), (89, 0x1C)]
/-- The number that bytes by place make. -/
def cellsNat (l : List (Nat × Byte)) : Nat := (l.map fun e => e.2.toNat * 256 ^ e.1).sum

/-- LaunchesChecked: a grid that passes and one that fails; a task that passes, one whose descriptor fails, and one that needs a feature no core has. -/
theorem wit_checks : (mapped.gridCodes 0 (cellsNat gridCells) = [] ∧ (mapped.kernelAt 0 0x3000).isSome = true ∧
      mapped.gridCodes 0 0 ≠ []) ∧
    (∀ b ∈ [0, 1], ((launching (.task 0 [0, 0, 0, 0] none) (b == 1)).launches.find? (·.id == 44)).map (·.counter) = some (b == 1)) ∧
    ((mapped.taskAt 0 0).toOption.map fun d => (d.inh, d.prio, uncovered d.fp.features)) = some (false, 2, false) ∧
    ((mapped.taskAt 0 2).toOption.map fun d => uncovered d.fp.features) = some true ∧ (mapped.taskAt 0 1).toOption = none ∧
    (mapped.taskAt 0 3).toOption = none := by decide +kernel

/-- A launch queue that consumes its ring at 0x8000, and a packet in its first slot. -/
def consuming (cells : List (Nat × Byte)) (f : Queue → Queue) : State := ({ mapped with
  mem := mapped.mem ++ cells.map fun e => (0x8000 + e.1, e.2) } : State).modQueue 0 fun q => f { q with qbase := 0x8000, qen := true, running := true, kick := 4, qpriv := true }

/-- QueuesConsume: packets of each kind that pass their checks, and that fail them; -/
theorem wit_packets : (∀ cells ∈ [[], [(0, 1)], [(1, 1)], [(0, 9)], gridCells, [(0, 2), (8, 3), (11, 0x10), (120, 1)], [(0, 3)], [(0, 3), (4, 9)]],
      let s := consuming cells id
      ((s.queue? 0).map fun x => (x.running, x.qen, x.qhead)) = some (true, true, 0) ∧
      BitVec.ofNat 32 (leNat (readBytes s.mem (0x8000 + 124) 4)) = (0 : Word) ∧ leNat (readBytes s.mem 0x8000 128) = cellsNat cells) ∧
    (let p := cellsNat [(0, 2), (8, 3), (11, 0x10), (120, 1)]
     (ctxnewFieldsOk p = true ∧ descriptorOk (p / 2 ^ 64 % 2 ^ 512) = true ∧ mapped.ctx? (ctxOf p).asid = none ∧ (ctxOf p).depcnt = 0) ∧
     ctxkillFieldsOk (cellsNat [(0, 3)]) = true ∧ (mapped.ctx? 0).map (·.live) = some true ∧ mapped.ctx? 9 = none) := by decide +kernel

/-- a slot without its packet, not yet read again, read again in time, and for too long. -/
theorem wit_rereads : (∀ e ∈ [(none, 0), (some 0, 64 * Config.clocksPerUs)], let s := { consuming [(124, 7)] (fun q => { q with reread := e.1 }) with clock := e.2 }
      BitVec.ofNat 32 (leNat (readBytes s.mem (0x8000 + 124) 4)) ≠ (0 : Word) ∧ ((s.queue? 0).map (·.reread)) = some e.1 ∧ s.clock = e.2) := by decide +kernel

/-- ContextsEnd: a context that is live, and one whose kill is under way. -/
theorem wit_contexts : (mapped.ctx? 0).isSome = true ∧
    (let s := mapped.modCtx 0 fun c => { c with live := false, kill := some (5, true, 0x9000, 1) }
     (s.ctx? 0).bind (·.kill) = some (5, true, 0x9000, 1)) := by decide +kernel

/-- A grid of one band whose argument block is as `args` says. -/
def grid0 (args : ArgState) : Grid := ⟨0, 0, 3, false, 0, true, none, 0x1C00, 128, args, 1, 0, 0, false⟩
/-- A waiting band of that grid, beside the resident one: on four cores where it takes accumulator columns, else on one. -/
def waitingBand (args : ArgState) (k : Nat) : State := { mapped with
  grids := [grid0 args]
  bands := mapped.bands ++ (mapped.bands.map fun b => { b with
    id := 9, state := .pending, grid := some 0, cores := [], ncores := if k = 0 then 1 else 4, troops := [], prio := 3, benchMap := [], accMap := [], tileMap := []
    fp := { b.fp with bench := 0, acc := k, tiles := 0 } }) }

/-- SchedulerPlaces: a band that fits, one that does not, -/
theorem wit_places : (∀ args ∈ [ArgState.none, .refused 2], let s := waitingBand args 0
      (s.band? 9).isSome = true ∧ s.partner 9 = none ∧ (∀ b ∈ s.band? 9, s.waits b = true ∧ s.fitsOn b [0] = true ∧ s.coresFor b = some 1 ∧
        s.argsOf b = args ∧ b.troops = [] ∧ b.saved = none ∧ (s.candidates 0).map (·.id) = [9] ∧ s.roomFor b 0 = some [0]) ∧
      (∀ q ∈ s.quads, q.passing = false ∧ q.id = 0)) ∧
    (let s := waitingBand (.refused 2) 4096
     (s.candidates 0).map (·.id) = [9] ∧ ∀ b ∈ s.band? 9, s.roomFor b 0 = none ∧ s.evictFor b 0 = some [1] ∧ s.argsOf b ≠ .none ∧
       (s.victims b 0).map (·.id) = [1] ∧ s.evictions b 0 (s.victims b 0) = some [1]) ∧
    (mapped.candidates 0).length = 0 := by decide +kernel

/-- a save that is ready, quads at their turn's end and within the pass, -/
theorem wit_turns : (let s : State := { mapped.modBand 1 (fun b => { b with saving := true }) with bundles := [] }
      ∀ b ∈ s.band? 1, s.partner 1 = none ∧ s.saveReady b = true ∧ ((s.landBand 1).band? 1).isSome = true) ∧
    (∀ p ∈ [0, 1], let s : State := { mapped with clock := 200000, quads := mapped.quads.map fun q => { q with passing := p == 1 } }
      ∀ q ∈ s.quads.find? (·.id == 0), q.passing = (p == 1) ∧ q.ends ≤ s.clock ∧ ∀ b ∈ s.bands, b.saving = false) := by decide +kernel

/-- and cores on which every troop is stalled, of two bands and of one. -/
def stalled (s : State) : State := { s with bands := s.bands.map fun b => { b with troops := b.troops.map fun x => { x with
  threads := modAt x.threads 0 fun th => { th with status := .waiting (.alloc 1) } } } }
/-- SchedulerPlaces: stalled troops of one band and of two. -/
theorem wit_stalled : (let s := stalled mapped
      s.coreTroops 0 = [(1, 0)] ∧ s.troopStalled 1 0 = true ∧ (s.band? 1).map (·.saving) = some false) ∧
    (let s := stalled { mapped with bands := mapped.bands ++ mapped.bands.map fun b => { b with id := 9 } }
     (∀ e ∈ s.coreTroops 0, s.troopStalled e.1 e.2 = true ∧ (s.band? e.1).map (·.saving) = some false) ∧ (1, 0) ∈ s.coreTroops 0 ∧
       (9, 0) ∈ s.coreTroops 0) := by decide +kernel

/-- WorkReachesCores: continuations of a sound task, one too deep, one that needs a feature no core has, and one whose descriptor fails,
from a slice and from a ring; -/
def packet (task depth : Nat) : Packet := ⟨4, 0, 0, task, 7, 0x1000, 9, 1, 44, depth, 2, 3, none, ⟨0, 0, 0, ⟨1, 0⟩⟩⟩
/-- WorkReachesCores: those packets, in a slice queue and in a ring. -/
theorem wit_continuations : (∀ e ∈ [(0, 2), (0, 11), (2, 2), (3, 2)],
      let s := { mapped with packets := [packet e.1 e.2], rings := [packet e.1 e.2] }
      s.packets.find? (fun p => sliceNum p.home p.slice == sliceNum 4 0) = some (packet e.1 e.2) ∧
      s.rings.find? (·.asid == 0) = some (packet e.1 e.2) ∧ s.pendCnt 0 < ((s.ctx? 0).map (·.pendmax)).getD 0) ∧
    (mapped.taskAt 0 0).toOption.isSome = true ∧ (mapped.taskAt 0 3).toOption.isNone = true := by decide +kernel

/-- a round that is due. -/
theorem wit_round : let s := ({ mapped with bundles := [] } : State).modThread t0 fun th => { th with status := .ready 0 true }
    (∀ c ∈ s.core? 0, c.nextForm ≤ s.clock) ∧ s.clock % 4 = 0 ∧ s.formable 0 = [(t0, 0)] ∧ s.freeBundles 0 ≠ 0 := by decide +kernel

/-- A trap event of the thread. -/
def event0 (precise : Bool) : TrapEvent := ⟨90, 0x12, precise, ⟨1, 0⟩, ⟨1, 1⟩, [⟨0, 5, 0⟩], [], [], none⟩
/-- The state with a handler at packet 0x40. -/
def handled : State := mapped.modCtx 0 fun c => { c with thentry := 0x40 }

/-- TrapsTaken: events that meet a handler or none, in and out of handler mode, an empty place, one behind another and one too many; -/
theorem wit_events : (∀ c ∈ mapped.ctx? 0, c.thentry = 0xFFFFFFFF#32) ∧ (∀ c ∈ handled.ctx? 0, c.thentry ≠ 0xFFFFFFFF#32) ∧
    handled.inHandler t0 = false ∧ (inTrap handled).inHandler t0 = true ∧
    ((handled.troop? 1 0).map fun x => (x.active, x.queue)) = some (none, []) ∧
    (∀ n ∈ [0, 4], ((handled.modTroop 1 0 fun x => { x with active := some (event0 true), queue := List.replicate n (event0 false) }).troop? 1 0).map
      (fun x => (x.active.isSome, x.queue.length)) = some (true, n)) := by decide +kernel

/-- one that has its slot and may enter, precise and asynchronous; -/
theorem wit_enter : ∀ p ∈ [0, 1],
    let s := (handled.modThread t0 fun th => { th with status := .waiting (.trapEntry 90) }).modTroop 1 0 fun x =>
      { x with active := some (event0 (p == 1)), slot := some 0 }
    (s.troop? 1 0).map (fun x => (x.active, x.slot, x.entered)) = some (some (event0 (p == 1)), some 0, false) ∧
      s.flagsSet t0 0xFFF = false ∧ s.statusOf t0 = .waiting (.trapEntry 90) := by decide +kernel

/-- asynchronous traps of a live thread and of one that has exited; -/
theorem wit_async : (∀ e ∈ [0x0D, 0x0F], let a : AsyncTrap := ⟨61, t0, e, 0, 0, [], [], none⟩
      let s := { handled with asyncs := [a] }
      s.asyncs.find? (·.id == 61) = some a ∧ s.statusOf t0 ≠ .exited ∧ (s.band? 1).map (fun b => (b.state, b.saving)) = some (.resident, false) ∧
      s.asyncReady a = true ∧ s.pairActs = [] ∧ s.statusOf t0 = .bundled 2 ∧
      (s.modThread t0 fun th => { th with status := .exited }).statusOf t0 = .exited) := by decide +kernel

/-- returns from the handler, of the last thread of an event, with an event behind it and without, and of one of several. -/
theorem wit_return : (∀ n ∈ [0, 1], let s := (inTrap handled).modTroop 1 0 fun x => { x with queue := List.replicate n (event0 false) }
      s.bundle? = some b0 ∧ s.inHandler t0 = true ∧ s.flagsSet t0 0xFFF = false ∧
      (let w := s.modThread t0 fun th => { th with depth := false }
       (w.troop? 1 0).map (fun x => (x.active.isSome, x.entered, x.queue.length)) = some (true, true, n) ∧ w.inHandler t0 = false)) ∧
    (let s := (withOps [{ cpy20 with state := .suspended }]).modThread t0 fun th => { th with depth := true, trap := { th.trap with op := some 70 } }
     (s.thread? t0).bind (·.trap.op) = some 70 ∧ (s.op? 70).map (·.state) = some .suspended) := by decide +kernel
/-- TrapsTaken: TRET of a thread in handler mode. -/
theorem wit_tret : Meets (inTrap handled) plain [] [] fun _ _ w t => w.inHandler t = true ∧ w.flagsSet t 0xFFF = false :=
  meets (by decide +kernel) (by decide +kernel)

/-- WorkEnds: a thread that may exit; a troop of which none is left, with nothing to drain, with work in progress, and with a register to return; -/
theorem wit_exit : Meets mapped plain [] [] fun _ _ w t => w.flagsSet t 0xFFF = false ∧ w.twinOf t = none :=
  meets (by decide +kernel) (by decide +kernel)
/-- The state whose only thread has exited. -/
def ended : State := { (mapped.modThread t0 fun th => { th with status := .exited }) with bundles := [] }
/-- WorkEnds: a troop of exited threads, in each stage of its end. -/
theorem wit_troop_ends : (∀ x ∈ ended.troop? 1 0, x.retired = false ∧ ∀ th ∈ x.threads, th.status = .exited) ∧
    (ended.ops = [] ∧ ended.pending = [] ∧ ended.flights = [] ∧ { ended with ops := [cpy20] }.ops = [cpy20]) ∧
    (let e := ended.modTroop 1 0 fun x => { x with g := List.replicate 8 Region.none, slot := some 0 }
     let r := e.returnUnit t0 troopRegs false
     r.returnsOver t0 troopRegs = true ∧ r.troopOver 1 0 = true ∧ (r.troop? 1 0).isSome = true) ∧
    (let e := (ended.modTroop 1 0 fun x => { x with g := List.replicate 8 Region.none }).setReg t0 0 (region .e 0x1000 0x800)
     (e.returnUnit t0 troopRegs false).returnsOver t0 troopRegs = false) ∧
    (∀ x ∈ ended.troop? 1 0, (x.masks.map (·.1)).Nodup) := by decide +kernel

/-- registers of each state that RTN gives up, -/
theorem wit_gives_up : (mapped.regT t0 13).state = .pending ∧ (mapped.regT t0 12).state = .refused ∧
    ((mapped.regT t0 9).state = .held ∧ (mapped.regT t0 9).kids = [] ∧ (mapped.regT t0 9).top = true ∧ (mapped.regT t0 9).space ≠ .bench ∧
      mapped.twinOf t0 = none) ∧ (mapped.regT t0 8).space = .bench ∧
    (let s := mapped.modReg 1 0 9 fun r => { r with kids := [⟨0, 128, .e⟩] }
     (s.regT t0 9).state = .held ∧ (s.regT t0 9).kids ≠ []) := by decide +kernel

/-- bands all of whose troops have retired, with a register to return and without, with a child and without; of a task and of a grid. -/
def spent (f : Band → Band) : State := mapped.modBand 1 fun b => f { b with
  troops := b.troops.map fun x => { x with retired := true, g := List.replicate 8 Region.none }, g := List.replicate 8 Region.none }
/-- WorkEnds: those bands. -/
theorem wit_bands_end : (∀ b ∈ (spent id).band? 1, b.state = .resident ∧ b.troops ≠ [] ∧ (∀ y ∈ b.troops, y.retired = true) ∧
      let r := (spent id).returnUnit ⟨1, 0, 0⟩ bandRegs b.killed
      r.returnsOver ⟨1, 0, 0⟩ bandRegs = true ∧ (r.band? 1).isSome = true) ∧
    (let s := spent fun b => { b with g := [region .e 0x1000 0x800] ++ List.replicate 7 Region.none }
     (s.returnUnit ⟨1, 0, 0⟩ bandRegs false).returnsOver ⟨1, 0, 0⟩ bandRegs = false) ∧
    ((spent fun b => { b with state := .draining }).band? 1).map (·.state) = some .draining ∧
    (spent id).kidsOf 1 = [] ∧ { spent id with children := [(44, 1)] }.kidsOf 1 = [44] ∧
    ((spent fun b => { b with parent := some (0, 44) }).band? 1).map (fun b => (b.grid, b.parent)) = some (none, some (0, 44)) ∧
    (((waitingBand .none 0).band? 9).map (·.grid) = some (some 0) ∧ (waitingBand .none 0).partner 9 = none) := by decide +kernel

/-- grids with bands to come and without, and completion records with a page and without one. -/
theorem wit_grids : (∀ n ∈ [0, 1], let s := { mapped with grids := [{ grid0 .none with retired := n }] }
      s.grid? 0 = some { grid0 .none with retired := n } ∧ (grid0 .none).complete = false ∧ (grid0 .none).bands = 1) ∧
    (mapped.ctx? 0).isSome = true ∧ (mapped.translateDev 0 0x7000 .write).toOption.isSome = true ∧
    (mapped.translateDev 0 0x40000000 .write).toOption = none := by decide +kernel

/-- ErrorsContained: acts of the members of a pair, alike and not, and one whose partner is late; -/
def act (id band : Nat) (sig : BitVec 64) : PairAct := ⟨id, band, 0, 3, sig, 50, [⟨band, 0, 0⟩], false⟩
/-- Band 1 with band 9 as its pair. -/
def paired : State :=
  ((({ mapped with bands := mapped.bands ++ mapped.bands.map fun b => { b with id := 9 } } : State).modBand 1
    fun b => { b with pair := some (0, 9) }).modBand 9 fun b => { b with pair := some (1, 1) })
/-- ErrorsContained: those acts. -/
theorem wit_acts : paired.partner 1 = some 9 ∧ (paired.band? 1).map (·.state) = some .resident ∧
    (∀ g ∈ [5, 6], let s := { paired with pairActs := [act 80 1 5, act 81 9 (BitVec.ofNat 64 g)] }
      s.pairActs.find? (·.id == 80) = some (act 80 1 5) ∧
      (s.pairActs.find? fun x => x.band == 9 && x.troop == 0 && x.index == 3) = some (act 81 9 (BitVec.ofNat 64 g))) ∧
    (let s := { paired with pairActs := [act 80 1 5], clock := 51 }
     s.pairActs.find? (·.id == 80) = some (act 80 1 5) ∧ (s.pairActs.find? fun x => x.band == 9) = none ∧ (act 80 1 5).deadline < s.clock) := by
  decide +kernel

/-- bands that can go back and that cannot; the units an error can strike; what SNAPCTL enables. -/
theorem wit_errors : (∀ b ∈ mapped.band? 1, b.hasPoint = false) ∧
    (let s := { mapped.modBand 1 fun b => { b with hasPoint := true } with shadows := mapped.bands.map fun b => ⟨b, ⟨[], [], [], [], [], [], []⟩, [], 0, [], 5⟩ }
     ∀ x ∈ s.unit 1, (s.band? x).map (fun b => (b.hasPoint, b.committed)) = some (true, false) ∧ (s.shadows.map (·.band.id)) = [x]) ∧
    (mapped.core? 0).isSome = true ∧ (mapped.slot? 0 0).isSome = true ∧ (∀ k < 3, mapped.dev.snapctl.getLsbD k = true) ∧
    ({ mapped with dev := { mapped.dev with snapctl := 0 } }.dev.snapctl.getLsbD 0 = false) ∧ mapped.dev.snap.frozen = false := by decide +kernel

/-- HostCommands: RDMA of a ring, whole and at its edge; commands of queue pairs 1 and 0; an INVAL whose accesses are done and one that waits; -/
def ringed : State := { mapped with queues := mapped.queues.map fun q => { q with qbase := 0x8000 } }
/-- HostCommands: RDMA of the last slot of that ring. -/
theorem wit_rdma : ringed.dev.halted = false ∧ ringed.dev.devstat.toNat % 16 = 7 ∧
    (∀ k < 128, ∃ q ∈ ringed.queues, q.qbase ≤ 0x8000 + 2048 - 128 + k ∧ 0x8000 + 2048 - 128 + k < q.qbase + 128 * 2 ^ q.qsize) ∧
    ¬ (State.reset.dev.devstat.toNat % 16 = 7) ∧
    (ringed.cmd.qp = 1 ∧ { ringed with cmd := ⟨2, 0⟩ }.cmd.qp ≠ 1) := by decide +kernel
/-- HostCommands: those INVALs. -/
theorem wit_invals : ∀ fs ∈ [[], [60]], let i : Inval := ⟨70, 0, 0, 0, 0, 9, fs⟩
    let s := { mapped with invals := [i], pending := [⟨60, t0, ⟨1, 0⟩, 0, .regs [], []⟩] }
    s.invals.find? (·.id == 70) = some i ∧ ((∃ n ∈ i.flights, ∃ p ∈ s.pending, p.id = n) ↔ fs = [60]) := by decide +kernel
/-- registers that answer and that refuse; a queue enabled and not; contexts of each state, with peers at the last place. -/
theorem wit_registers : mapped.mgmtValue 0x200090 4 = some 3600 ∧ mapped.mgmtValue 0x200090 2 = none ∧
    (∀ b ∈ [0, 1], ((mapped.modQueue 0 fun q => { q with qen := b == 1 }).queue? 0).map (·.qen) = some (b == 1)) ∧ mapped.ctx? 9 = none ∧
    (∀ b ∈ [0, 1], ((mapped.modCtx 0 fun c => { c with live := b == 1 }).ctx? 0).map (·.live) = some (b == 1)) ∧
    (0x400000 + 2 * 255) % 2 = 0 ∧ (0x400000 + 2 * 252) % 8 = 0 ∧ (mapped.core? 0).isSome = true := by decide +kernel

/-- DeviceEvents: stages that may pass, and that do not; a halted module and one up to stage 7; windows at their last byte, sound and poisoned; -/
def windowed (bad : List Nat) : State := { mapped with poison := bad, dev := { mapped.dev with windows := [⟨0x1000, 0x100, 0x9000, 6, some 2⟩] } }
/-- DeviceEvents: those stages and windows. -/
theorem wit_stages : (∀ n ∈ [0, 2, 6], let s := { mapped with dev := { mapped.dev with devstat := BitVec.ofNat 32 n } }
      s.dev.halted = false ∧ s.dev.devstat.toNat / 2 ^ 4 % 2 ^ 4 = 0 ∧ s.dev.devstat.toNat % 2 ^ 4 < 7) ∧
    { mapped with dev := { mapped.dev with halted := true } }.dev.halted = true ∧ (mapped.dev.halted = false ∧ mapped.dev.devstat.toNat % 16 = 7) ∧
    (∀ e ∈ [(0x1000, 0x100), (0x10FF, 1), (0x1100, 0)], (windowed []).dev.windows.find? (fun x => x.off ≤ e.1 && e.1 + e.2 ≤ x.off + x.len) = some ⟨0x1000, 0x100, 0x9000, 6, some 2⟩) ∧
    (windowed []).dev.windows.find? (fun x => x.off ≤ 0x10FF && 0x10FF + 2 ≤ x.off + x.len) = none ∧
    (windowed []).poison = [] ∧ (0x91 * 2 ∈ (windowed [0x122]).poison ∧ 0x9000 / 128 ≤ 0x122 ∧ 128 * 0x122 < 0x9000 + 0x101) := by decide +kernel

/-- and walks that end in a leaf, and in a failure. -/
theorem wit_walks : ∀ e ∈ [(0x1000, true), (0x40000000, false)], let w : Walk := ⟨75, 0, 0, 0, e.1, true⟩
    let s := { mapped with walks := [w] }
    s.walks.find? (fun w => w.id == 75 && w.running) = some w ∧ (s.walkVa 0 e.1).toOption.isSome = e.2 := by decide +kernel

/-- StepRunsDecoded: an event at the head of the agenda; a bundle that may issue, by the agenda and by the module's own order; time that may pass; -/
theorem wit_moves_next : (∀ i ∈ [Instr.powerOn], let s := { base with agenda := [Move.event i] }
      s.group = none ∧ s.dev.halted = false ∧ i.encoded = false) ∧
    (let s := { base with agenda := [Move.command ⟨1, 7⟩ .snaparm] }
     s.group = none ∧ s.dev.halted = false ∧ Instr.snaparm.encoded = false) ∧
    (∀ l ∈ [[Move.issue 2], []], let s := { base with agenda := l }
      (s.agenda = [Move.issue 2] ∨ s.agenda = [] ∧ s.ownMove = .issue 2) ∧ s.bundles.find? (·.id == 2) = some b0 ∧
      ({ s with agenda := [] } : State).mayIssue b0 = true ∧ b0.faults = []) ∧
    (let s := { base with group := some ⟨⟨1, 0⟩, base.bands, base.slots⟩ }
     s.group.isSome = true ∧ s.bundle? = some b0) ∧
    (let s := { base with bundles := [], agenda := [Move.tick 3] }
     s.bundles = [] ∧ ∀ c ∈ s.busyCores, s.formationDue c = false) := by decide +kernel

/-- the words that a bundle reads at slot 0 of packet 1 of its clause, and from the clause's header on: of NOPs, and of an undecodable word. -/
theorem wit_words : (∀ va ∈ [0, 4, 8, 12, 16, 20], va < 2 ^ 57 ∧ ∀ e ∈ base.tlb1 0 0 va, e.x = true ∧ e.prv = false ∧
      (let pa := e.pa + (va - e.base)
       lineKey (homeOf e.home.toNat e.die pa) pa ∉ base.poison ∧
       BitVec.ofNat 32 (leNat (base.homeBytes (homeOf e.home.toNat e.die pa) pa 4)) = if va = 0 then bootHeader else 0)) ∧
    ((base.tlb1 0 0 0).isSome = true ∧ codeVa 0 1 2 = 20) ∧ packetVas 0 0 2 = [0, 4, 8, 12, 16, 20] ∧
    (headerOf bootHeader).map (·.len) = some 2 ∧ (headerOf bootHeader).map (·.wait) = some 0 ∧ opOf 0 ≠ 0x7F ∧
    clauseWordsOk [bootHeader, 0, 0, 0, 0, 0] = true ∧ base.flagsSet t0 0 = false ∧
    (base.thread? t0).map (·.entering) = some false ∧
    (decode [0, 0, 0] = some (.nop, 1) ∧ Instr.nop.wellFormed = true) ∧ decode [0x3F800000, 0, 0] = none := by decide +kernel

/-- MemOkKept: the invariant holds after power-on and in a state that lists memory, and a step is taken there. -/
theorem wit_memory : (State.reset.memOk ∧ mapped.memOk ∧ base.memOk) ∧
    (match step base with | .next t => t.clock == 0 | _ => false) = true := by
  unfold State.memOk
  decide +kernel

end Sys2Proof.Tests
end

/-! # Every step keeps both memories in canonical form (O60)

`State.memOk` is kept by every operation of the model: one lemma `State.memOk_f` for each operation `f` that answers a state,
in the order of the model's files, and one lemma `nextOk_exec…` for each instruction or event that is more than one such
operation. Home memory and the peers' windows change in `State.setHomeBytes`, `State.writeHome`, a restart and the bring-up
stages alone; whatever else an operation does, it hands the two memories on. So each proof follows the branches of its
definition and composes the lemmas of the operations called there.

Where the state handed to an operation is a record update, `by exact hs` proves its form: the update is known only once the
goal is. -/

namespace Sys2Proof.Machine

open State

/-! ### Answers: pairs, options, outcomes -/

theorem State.memOk_ite {c : Prop} [Decidable c] {s u : State} (hs : s.memOk) (hu : u.memOk) :
    (if c then s else u).memOk := by
  split
  · exact hs
  · exact hu

theorem State.memOk_ite_fst {c : Prop} [Decidable c] {α : Type} {p q : State × α} (hp : p.1.memOk) (hq : q.1.memOk) :
    (if c then p else q).1.memOk := by
  split
  · exact hp
  · exact hq

/-- The state of a pair that an operation answered. -/
theorem State.memOk_fst_of_eq {α : Type} {p : State × α} {s : State} {a : α} (e : p = (s, a)) (h : p.1.memOk) : s.memOk := by
  subst e
  exact h

theorem State.memOk_foldl_fst {α β : Type} (f : State × β → α → State × β)
    (hf : ∀ r a, r.1.memOk → (f r a).1.memOk) (l : List α) {r : State × β} (hr : r.1.memOk) : (l.foldl f r).1.memOk :=
  List.foldlRecOn l f hr fun r h a _ => hf r a h

theorem State.memOk_elim {α : Type} {o : Option α} {s : State} {f : α → State} (hs : s.memOk) (hf : ∀ a, (f a).memOk) :
    (o.elim s f).memOk := by
  cases o with
  | none => exact hs
  | some a => exact hf a

theorem State.memOk_getD {o : Option State} {s : State} (ho : ∀ u, o = some u → u.memOk) (hs : s.memOk) :
    (o.getD s).memOk := by
  cases o with
  | none => exact hs
  | some u => exact ho u rfl

/-- The next state of an outcome, where it has one, is in canonical form. -/
def NextOk : Host.Outcome State Fault Refusal → Prop
  | .next s => s.memOk
  | _ => True

theorem nextOk_next {s : State} (hs : s.memOk) : NextOk (.next s) := hs

theorem nextOk_ite {c : Prop} [Decidable c] {o p : Host.Outcome State Fault Refusal} (ho : NextOk o) (hp : NextOk p) :
    NextOk (if c then o else p) := by
  split
  · exact ho
  · exact hp

/-- The state that a bundle comes to is in canonical form, whether it issues or stops. -/
def Front.memOk : Front → Prop
  | .run s _ => s.memOk
  | .stop s => s.memOk

theorem Front.memOk_run {s : State} (hs : s.memOk) i : (Front.run s i).memOk := hs

theorem Front.memOk_stop {s : State} (hs : s.memOk) : (Front.stop s).memOk := hs

/-- The state in which a step does what it does is in canonical form. -/
def Todo.memOk : Todo → Prop
  | .exec s _ _ => s.memOk
  | .rest s => s.memOk

theorem Todo.memOk_exec {s : State} (hs : s.memOk) i c : (Todo.exec s i c).memOk := hs

theorem Todo.memOk_rest {s : State} (hs : s.memOk) : (Todo.rest s).memOk := hs

/-! ### The tables of the state (Machine/Table) -/

theorem State.memOk_next {s : State} (hs : s.memOk) : s.next.memOk := hs

theorem State.memOk_modBand {s : State} (hs : s.memOk) b f : (s.modBand b f).memOk := hs

theorem State.memOk_modTroop {s : State} (hs : s.memOk) b t f : (s.modTroop b t f).memOk :=
  memOk_modBand hs ..

theorem State.memOk_modThread {s : State} (hs : s.memOk) t f : (s.modThread t f).memOk :=
  memOk_modTroop hs ..

theorem State.memOk_modCtx {s : State} (hs : s.memOk) a f : (s.modCtx a f).memOk := hs

theorem State.memOk_modHome {s : State} (hs : s.memOk) h f : (s.modHome h f).memOk := hs

theorem State.memOk_modGrid {s : State} (hs : s.memOk) g f : (s.modGrid g f).memOk := hs

theorem State.memOk_modOp {s : State} (hs : s.memOk) o f : (s.modOp o f).memOk := hs

theorem State.memOk_modQueue {s : State} (hs : s.memOk) q f : (s.modQueue q f).memOk := hs

theorem State.memOk_modSlot {s : State} (hs : s.memOk) c i f : (s.modSlot c i f).memOk := hs

theorem State.memOk_modBundle {s : State} (hs : s.memOk) b f : (s.modBundle b f).memOk := hs

/-! ### Operands (Machine/Operands) -/

theorem State.memOk_view {s : State} (hs : s.memOk) : s.view.memOk := by
  unfold State.view
  split <;> exact hs

theorem State.memOk_release {s : State} (hs : s.memOk) t rs : (s.release t rs).memOk :=
  memOk_foldl _ (fun _ _ h => memOk_ite h (memOk_modTroop h ..)) _ hs

theorem State.memOk_writeV {s : State} (hs : s.memOk) t r v : (s.writeV t r v).memOk := by
  unfold State.writeV
  split
  · extract_lets k
    exact memOk_modSlot hs ..
  · exact memOk_modTroop hs ..

theorem State.memOk_writeP {s : State} (hs : s.memOk) t r b : (s.writeP t r b).memOk := memOk_modThread hs ..

theorem State.memOk_writeRegs {s : State} (hs : s.memOk) t ws : (s.writeRegs t ws).memOk := by
  unfold State.writeRegs
  refine memOk_foldl _ (fun _ _ h => ?_) _ hs
  split
  · exact memOk_writeV h ..
  · exact memOk_writeP h ..

theorem State.memOk_reserve {s : State} (hs : s.memOk) t rs : (s.reserve t rs).memOk :=
  memOk_foldl _ (fun _ _ h => memOk_modTroop h ..) _ hs

/-! ### Flags (Machine/Flags) -/

theorem State.memOk_refreshFlags {s : State} (hs : s.memOk) t : (s.refreshFlags t).memOk :=
  memOk_modThread hs ..

theorem State.memOk_setFlag {s : State} (hs : s.memOk) t flag owner src : (s.setFlag t flag owner src).memOk :=
  memOk_ite (memOk_refreshFlags (by exact hs) _) hs

theorem State.memOk_clearFlags {s : State} (hs : s.memOk) owner src : (s.clearFlags owner src).memOk :=
  memOk_foldl _ (fun _ _ h => memOk_refreshFlags h _) _ (by exact hs)

theorem State.memOk_dropFlags {s : State} (hs : s.memOk) owner : (s.dropFlags owner).memOk :=
  memOk_clearFlags (memOk_clearFlags hs ..) ..

/-! ### Memory (Machine/Memory) -/

theorem State.memOk_fillTlb {s : State} (hs : s.memOk) core e : (s.fillTlb core e).memOk := by
  unfold State.fillTlb
  extract_lets s1
  have h1 : s1.memOk := memOk_modCore hs ..
  exact memOk_modDie h1 ..

theorem State.memOk_keepReturned {s : State} (hs : s.memOk) h line mask : (s.keepReturned h line mask).memOk :=
  hs

theorem State.memOk_publish {s : State} (hs : s.memOk) lines : (s.publish lines).memOk := hs

theorem State.memOk_dropL1 {s : State} (hs : s.memOk) core line : (s.dropL1 core line).memOk :=
  memOk_modCore hs ..

theorem State.memOk_dropL2 {s : State} (hs : s.memOk) die line : (s.dropL2 die line).memOk :=
  memOk_modDie hs ..

theorem State.memOk_lineRequest {s : State} (hs : s.memOk) core asid h : (s.lineRequest core asid h).memOk :=
  memOk_modCore hs ..

/-! ### Threads that are ready or wait (Machine/Ready) -/

theorem State.memOk_makeReady {s : State} (hs : s.memOk) t pc : (s.makeReady t pc).memOk :=
  memOk_modThread hs ..

theorem State.memOk_admitOverflow {s : State} (hs : s.memOk) core : (s.admitOverflow core).memOk := by
  unfold State.admitOverflow
  extract_lets waiting
  refine memOk_foldl _ (fun _ _ h => ?_) _ hs
  split
  · exact memOk_ite (memOk_modThread h ..) h
  · exact h

theorem State.memOk_leaveBundle {s : State} (hs : s.memOk) t : (s.leaveBundle t).memOk := hs

theorem State.memOk_makeWait {s : State} (hs : s.memOk) t pc npc w : (s.makeWait t pc npc w).memOk :=
  memOk_modThread hs ..

theorem State.memOk_leaveCores {s : State} (hs : s.memOk) asid cores : (s.leaveCores asid cores).memOk := hs

theorem State.memOk_snapTrigger {s : State} (hs : s.memOk) : s.snapTrigger.memOk :=
  memOk_ite (memOk_ite hs hs) hs

theorem State.memOk_snapEvent {s : State} (hs : s.memOk) bit : (s.snapEvent bit).memOk :=
  memOk_ite (memOk_snapTrigger hs) hs

/-! ### Records, kills and traps (Machine/Ops) -/

/-- A fault-queue record goes through `State.writeWords`, where there is a place for it. -/
theorem State.memOk_faultRecord {s : State} (hs : s.memOk) asid words : (s.faultRecord asid words).memOk := by
  unfold State.faultRecord
  split
  · exact hs
  extract_lets lost
  have hlost : ∀ s, s.memOk → (lost s).memOk := by
    intro _ h
    unfold lost
    exact memOk_modCtx h ..
  refine memOk_ite hs ?_
  refine memOk_ite (hlost _ hs) ?_
  split
  · exact hlost _ hs
  · exact hlost _ hs
  · exact memOk_ite (hlost _ hs) (memOk_modCtx (memOk_writeWords hs ..) ..)

theorem State.memOk_contextError {s : State} (hs : s.memOk) b o sub cause addr info killed :
    (s.contextError b o sub cause addr info killed).memOk :=
  memOk_snapEvent (memOk_faultRecord hs ..) _

theorem State.memOk_dropConv {s : State} (hs : s.memOk) b t m : (s.dropConv b t m).memOk := by
  unfold State.dropConv
  split
  · exact hs
  extract_lets cs gone s1
  have h1 : s1.memOk := memOk_modBand hs ..
  exact memOk_foldl _ (fun _ _ h => memOk_dropFlags h _) _ (by exact h1)

theorem State.memOk_noteMasks {s : State} (hs : s.memOk) b t : (s.noteMasks b t).memOk := memOk_ite hs hs

theorem State.memOk_endThread {s : State} (hs : s.memOk) t : (s.endThread t).memOk :=
  memOk_modThread (memOk_modTroop (memOk_leaveBundle (memOk_noteMasks hs ..) _) ..) ..

theorem State.memOk_freeSlot {s : State} (hs : s.memOk) core i : (s.freeSlot core i).memOk :=
  memOk_modSlot hs ..

theorem State.memOk_discardWork {s : State} (hs : s.memOk) b t all : (s.discardWork b t all).memOk := by
  unfold State.discardWork
  extract_lets mine lost gone s1
  have h1 : s1.memOk := memOk_foldl _ (fun _ _ h => memOk_dropFlags h _) _ hs
  exact h1

theorem State.memOk_discardLines {s : State} (hs : s.memOk) cores die lines :
    (s.discardLines cores die lines).memOk :=
  hs

theorem State.memOk_discardDirty {s : State} (hs : s.memOk) b rs : (s.discardDirty b rs).memOk := by
  unfold State.discardDirty
  split
  · exact hs
  · exact memOk_foldl _ (fun _ _ h => memOk_ite (memOk_discardLines h ..) h) _ hs

theorem State.memOk_unqueue {s : State} (hs : s.memOk) b t p : (s.unqueue b t p).memOk := by
  unfold State.unqueue
  split
  · exact hs
  · extract_lets out first evs
    exact memOk_modTroop (by exact hs) ..

theorem State.memOk_endTroop {s : State} (hs : s.memOk) b t : (s.endTroop b t).memOk := by
  unfold State.endTroop
  split
  · exact hs
  extract_lets core s1 s2 s3
  have h1 : s1.memOk := memOk_dropConv (memOk_discardWork hs ..) ..
  have h2 : s2.memOk := memOk_foldl _ (fun _ _ h => memOk_endThread h _) _ (memOk_unqueue h1 ..)
  have h3 : s3.memOk := by
    unfold s3
    split
    · exact memOk_freeSlot h2 ..
    · exact h2
  exact memOk_modTroop (memOk_discardDirty h3 ..) ..

theorem State.memOk_killTroop {s : State} (hs : s.memOk) b t o sub cause addr info :
    (s.killTroop b t o sub cause addr info).memOk :=
  memOk_endTroop (memOk_contextError hs ..) ..

theorem State.memOk_interrupt {s : State} (hs : s.memOk) t : (s.interrupt t).memOk := by
  unfold State.interrupt
  extract_lets pc s1
  have h1 : s1.memOk := memOk_leaveBundle hs _
  split
  · exact memOk_modThread h1 ..
  · exact memOk_modThread h1 ..
  · exact memOk_modThread h1 ..
  · exact h1
  · exact memOk_modThread h1 ..

theorem State.memOk_holdFor {s : State} (hs : s.memOk) t ev : (s.holdFor t ev).memOk := by
  unfold State.holdFor
  split
  · exact hs
  · exact hs
  refine memOk_ite (memOk_makeWait (memOk_leaveBundle hs _) ..) ?_
  refine memOk_ite hs ?_
  extract_lets s1 pc
  have h1 : s1.memOk := memOk_interrupt hs _
  exact memOk_makeWait h1 ..

theorem State.memOk_enterThread {s : State} (hs : s.memOk) b t slot ev l : (s.enterThread b t slot ev l).memOk := by
  unfold State.enterThread
  extract_lets tid s0 here entry at_ regs
  have h0 : s0.memOk := memOk_ite hs (memOk_holdFor hs ..)
  split
  · exact hs
  · exact memOk_makeReady (memOk_modThread h0 ..) ..

theorem State.memOk_enterIfClear {s : State} (hs : s.memOk) b t : (s.enterIfClear b t).memOk := by
  unfold State.enterIfClear
  split
  · exact hs
  split
  · refine memOk_ite hs ?_
    extract_lets core s1 s2
    have h1 : s1.memOk := memOk_modSlot hs ..
    have h2 : s2.memOk := memOk_foldl _ (fun _ _ h => memOk_enterThread h ..) _ h1
    exact memOk_modTroop h2 ..
  · exact hs

theorem State.memOk_progressTraps {s : State} (hs : s.memOk) core : (s.progressTraps core).memOk := by
  unfold State.progressTraps
  extract_lets s1
  have h1 : s1.memOk := by
    unfold s1
    refine memOk_foldl _ (fun _ _ h => ?_) _ hs
    split
    · split
      · exact memOk_modTroop (memOk_modSlot h ..) ..
      · exact h
    · exact h
  exact memOk_foldl _ (fun _ _ h => memOk_enterIfClear h ..) _ h1

theorem State.memOk_startEvent {s : State} (hs : s.memOk) b t ev : (s.startEvent b t ev).memOk := by
  unfold State.startEvent
  extract_lets l x o s1
  have h1 : s1.memOk := memOk_foldl _ (fun _ _ h => memOk_holdFor h ..) _ hs
  exact memOk_ite (memOk_killTroop hs ..) (memOk_progressTraps (memOk_modTroop h1 ..) _)

theorem State.memOk_takeTrap {s : State} (hs : s.memOk) b t ev : (s.takeTrap b t ev).memOk := by
  unfold State.takeTrap
  split
  · exact hs
  extract_lets l x o addr info
  refine memOk_ite (memOk_killTroop hs ..) ?_
  refine memOk_ite (memOk_killTroop hs ..) ?_
  refine memOk_ite (memOk_startEvent hs ..) ?_
  refine memOk_ite ?_ ?_
  · exact memOk_modTroop (memOk_foldl _ (fun _ _ h => memOk_holdFor h ..) _ hs) ..
  · exact memOk_ite (memOk_foldl _ (fun _ _ h => memOk_makeWait (memOk_leaveBundle h _) ..) _ hs) hs

theorem State.memOk_raiseAll {s : State} (hs : s.memOk) tpc tnpc hnd rs : (s.raiseAll tpc tnpc hnd rs).memOk := by
  unfold State.raiseAll
  extract_lets keys
  refine memOk_foldl _ (fun _ _ h => ?_) _ hs
  extract_lets mine ev s1
  have h1 : s1.memOk := memOk_ite (memOk_modCtx h ..) h
  exact memOk_takeTrap (memOk_next h1) ..

theorem State.memOk_endEvent {s : State} (hs : s.memOk) b t : (s.endEvent b t).memOk := by
  unfold State.endEvent
  split
  · exact hs
  split
  · exact hs
  refine memOk_ite ?_ hs
  extract_lets core s1 s2 s3
  have h1 : s1.memOk := by
    unfold s1
    split
    · exact memOk_freeSlot hs ..
    · exact hs
  have h2 : s2.memOk := memOk_modTroop h1 ..
  have h3 : s3.memOk := by
    unfold s3
    split
    · exact h2
    · exact memOk_startEvent (memOk_modTroop h2 ..) ..
  exact memOk_progressTraps h3 _

theorem State.memOk_returnOp {s : State} (hs : s.memOk) k o : (s.returnOp k o).memOk := by
  unfold State.returnOp
  split
  · exact hs
  · exact memOk_modOp hs ..

theorem State.memOk_trapReturn {s : State} (hs : s.memOk) t k : (s.trapReturn t k).memOk := by
  unfold State.trapReturn
  split
  · exact hs
  extract_lets r s1 ev s2 s3
  have h1 : s1.memOk := memOk_modThread (memOk_returnOp hs ..) ..
  have h2 : s2.memOk := memOk_ite (memOk_modBand h1 ..) h1
  have h3 : s3.memOk := memOk_ite (memOk_makeWait (memOk_leaveBundle h2 _) ..) (memOk_makeReady (memOk_leaveBundle h2 _) ..)
  exact memOk_endEvent h3 ..

theorem State.memOk_raiseAsync {s : State} (hs : s.memOk) t cause info addr cf ck op :
    (s.raiseAsync t cause info addr cf ck op).memOk :=
  hs

theorem State.memOk_undelivered {s : State} (hs : s.memOk) a : (s.undelivered a).memOk := by
  unfold State.undelivered
  extract_lets x o w more s1
  have h1 : s1.memOk := memOk_faultRecord hs ..
  exact memOk_returnOp h1 ..

theorem State.memOk_deliverAsync {s : State} (hs : s.memOk) a : (s.deliverAsync a).memOk := by
  unfold State.deliverAsync
  extract_lets s1 ev
  have h1 : s1.memOk := hs
  exact memOk_ite (memOk_ite h1 (memOk_undelivered h1 _)) (memOk_takeTrap h1 ..)

/-! ### Accesses (Machine/Access) -/

theorem State.memOk_modReg {s : State} (hs : s.memOk) b t g f : (s.modReg b t g f).memOk :=
  memOk_ite (memOk_modTroop hs ..) (memOk_modBand hs ..)

theorem State.memOk_setReg {s : State} (hs : s.memOk) t g r : (s.setReg t g r).memOk := memOk_modReg hs ..

theorem State.memOk_joinWalk {s : State} (hs : s.memOk) core asid va : (s.joinWalk core asid va).1.memOk := by
  unfold State.joinWalk
  extract_lets die busy w s1
  have h1 : s1.memOk := hs
  split
  · exact hs
  · exact memOk_modCore h1 ..

theorem State.memOk_countMiss {s : State} (hs : s.memOk) core asid : (s.countMiss core asid).memOk :=
  memOk_modCore hs ..

theorem State.memOk_translate {s : State} (hs : s.memOk) core asid va u sys :
    (s.translate core asid va u sys).1.memOk := by
  unfold State.translate
  refine memOk_ite_fst hs ?_
  extract_lets hit
  have hhit : ∀ s e, s.memOk → (hit s e).1.memOk := by
    intro _ _ h
    unfold hit
    split <;> exact h
  split
  · exact hs
  split
  · exact hhit _ _ hs
  split
  · exact hhit _ _ (memOk_fillTlb (memOk_countMiss hs ..) ..)
  · exact hs

theorem State.memOk_startWalk {s : State} (hs : s.memOk) b va u sys : (s.startWalk b va u sys).memOk := by
  unfold State.startWalk
  split
  next s1 _ e =>
  have h1 := memOk_fst_of_eq e (memOk_joinWalk (memOk_countMiss hs ..) ..)
  exact memOk_modBundle h1 ..

theorem State.memOk_reach {s : State} (hs : s.memOk) t u va r : (s.reach t u va r).1.memOk := by
  unfold State.reach
  refine memOk_ite_fst ?_ ?_
  · split <;> exact hs
  · split
    · next e => exact memOk_fst_of_eq e (memOk_translate hs ..)
    · next e => exact memOk_fst_of_eq e (memOk_translate hs ..)
    · next e => exact memOk_fst_of_eq e (memOk_translate hs ..)

theorem State.memOk_accessAddress {s : State} (hs : s.memOk) t r off size align cls u :
    (s.accessAddress t r off size align cls u).1.memOk := by
  unfold State.accessAddress
  split
  · exact hs
  · extract_lets va
    exact memOk_ite_fst hs (memOk_reach hs ..)

theorem State.memOk_logLine {s : State} (hs : s.memOk) band core site h line :
    (s.logLine band core site h line).memOk := by
  unfold State.logLine
  split
  · exact hs
  refine memOk_ite hs ?_
  refine memOk_ite (memOk_modBand (by exact hs) ..) ?_
  extract_lets u
  exact hs

theorem State.memOk_logWrite {s : State} (hs : s.memOk) band core site loc : (s.logWrite band core site loc).memOk := by
  unfold State.logWrite
  split
  · exact hs
  · exact memOk_logLine hs ..
  · exact memOk_logLine hs ..
  · exact hs

theorem State.memOk_commit {s : State} (hs : s.memOk) band : (s.commit band).memOk := by
  unfold State.commit
  extract_lets bs s1
  have h1 : s1.memOk := hs
  exact memOk_foldl _ (fun _ _ h => memOk_modBand h ..) _ h1

theorem State.memOk_atomicAt {s : State} (hs : s.memOk) band core asid site loc n f :
    (s.atomicAt band core asid site loc n f).1.memOk := by
  unfold State.atomicAt
  split
  next s1 _ _ e =>
  have h1 := memOk_fst_of_eq e (memOk_readSite hs ..)
  refine memOk_ite_fst h1 ?_
  dsimp only
  exact memOk_writeSite (memOk_logWrite h1 ..) ..

theorem State.memOk_performFlight {s : State} (hs : s.memOk) f : (s.performFlight f).memOk := by
  unfold State.performFlight
  extract_lets s0 core
  have h0 : s0.memOk := hs
  split
  · exact memOk_writeSite (memOk_logWrite h0 ..) ..
  extract_lets bits
  split
  next s1 _ _ e =>
  have h1 := memOk_fst_of_eq e (memOk_atomicAt h0 ..)
  exact memOk_ite (memOk_commit h1 _) h1

theorem State.memOk_releaseLines {s : State} (hs : s.memOk) t sc : (s.releaseLines t sc).memOk := by
  unfold State.releaseLines
  split
  · exact hs
  · exact hs
  · exact hs
  · extract_lets rs core
    exact memOk_foldl _ (fun _ _ h => memOk_writeDownL1 h ..) _ hs

theorem State.memOk_acquireOn {s : State} (hs : s.memOk) b core : (s.acquireOn b core).memOk :=
  memOk_foldl _ (fun _ _ h => memOk_invalL1 h ..) _ hs

theorem State.memOk_acquireLines {s : State} (hs : s.memOk) t sc : (s.acquireLines t sc).memOk := by
  unfold State.acquireLines
  split
  · exact hs
  · exact hs
  · exact hs
  · exact memOk_acquireOn hs ..

/-! ### Region registers and deeds (Machine/Regions) -/

theorem State.memOk_send {s : State} (hs : s.memOk) home who body : (s.send home who body).memOk := hs

theorem State.memOk_dropMsg {s : State} (hs : s.memOk) id : (s.dropMsg id).memOk := hs

theorem State.memOk_modAskerReg {s : State} (hs : s.memOk) who f : (s.modAskerReg who f).memOk := by
  unfold State.modAskerReg
  extract_lets both
  have hboth : ∀ b t g, (both b t g).memOk := by
    intro _ _ _
    unfold both
    extract_lets s1
    have h1 : s1.memOk := memOk_modReg hs ..
    split
    · exact memOk_modReg h1 ..
    · exact h1
  split
  · exact hboth ..
  · exact hboth ..
  · exact hs

theorem State.memOk_invalRange {s : State} (hs : s.memOk) cores lines : (s.invalRange cores lines).memOk := by
  unfold State.invalRange
  extract_lets s1
  have h1 : s1.memOk := memOk_foldl _ (fun _ _ h => memOk_foldl _ (fun _ _ h1 => memOk_invalL1 h1 ..) _ h) _ hs
  exact memOk_foldl _ (fun _ _ h => memOk_foldl _ (fun _ _ h2 => memOk_invalL2 h2 ..) _ h) _ h1

theorem State.memOk_dropGuests {s : State} (hs : s.memOk) die asid lines : (s.dropGuests die asid lines).memOk :=
  memOk_foldl _ (fun _ _ h => memOk_ite h (memOk_invalL2 h ..)) _ hs

/-- A return writes lines down through the caches, which keep the form. -/
theorem State.memOk_writeBack {s : State} (hs : s.memOk) r : (s.writeBack r).memOk := by
  unfold State.writeBack
  extract_lets reg asid cores lines done dies s1 s2
  have hdone : ∀ s, s.memOk → (done s).memOk := by
    intro _ h
    unfold done
    exact memOk_ite (memOk_publish h _) h
  have h1 : s1.memOk := memOk_foldl _ (fun _ _ h => memOk_foldl _ (fun _ _ h1 => memOk_writeDownL1 h1 ..) _ h) _ hs
  have h2 : s2.memOk := memOk_ite (memOk_foldl _ (fun _ _ h => memOk_foldl _ (fun _ _ h2 => memOk_writeDownL2 h2 ..) _ h) _ h1) hs
  refine memOk_ite hs ?_
  refine memOk_ite (hdone _ (memOk_discardLines hs ..)) ?_
  exact memOk_ite (memOk_ite h1 hs) (hdone _ (memOk_foldl _ (fun _ _ h => memOk_dropGuests h ..) _ h2))

theorem State.memOk_askNext {s : State} (hs : s.memOk) tag : (s.askNext tag).memOk := by
  unfold State.askNext
  split
  · exact hs
  split
  · exact hs
  · extract_lets until_
    exact memOk_send hs ..

theorem State.memOk_countRef {s : State} (hs : s.memOk) asid : (s.countRef asid).memOk := memOk_modCtx hs ..

theorem State.memOk_refuseReg {s : State} (hs : s.memOk) who sub : (s.refuseReg who sub).memOk := by
  unfold State.refuseReg
  split
  · extract_lets s1 x
    have h1 : s1.memOk := memOk_modGrid hs ..
    exact h1
  · exact memOk_modAskerReg hs ..

theorem State.memOk_releasePieces {s : State} (hs : s.memOk) who kind fam got :
    (s.releasePieces who kind fam got).memOk :=
  memOk_foldl _ (fun _ _ h => memOk_send h ..) _ hs

theorem State.memOk_startBorrow {s : State} (hs : s.memOk) tag who asid base len kind nowait die :
    (s.startBorrow tag who asid base len kind nowait die).memOk := by
  unfold State.startBorrow
  split
  · exact memOk_clearFlags (memOk_refuseReg (memOk_countRef hs _) ..) ..
  · extract_lets dom b
    exact memOk_askNext (by exact hs) _

theorem State.memOk_clearTag {s : State} (hs : s.memOk) tag : (s.clearTag tag).memOk :=
  memOk_clearFlags hs ..

theorem State.memOk_withdraw {s : State} (hs : s.memOk) tag : (s.withdraw tag).memOk := by
  unfold State.withdraw
  split
  · exact hs
  extract_lets s1 s2
  have h1 : s1.memOk := hs
  have h2 : s2.memOk := by
    unfold s2
    split
    · exact h1
    · exact memOk_send h1 ..
  exact memOk_clearTag (memOk_releasePieces h2 ..) _

theorem State.memOk_holdReg {s : State} (hs : s.memOk) b : (s.holdReg b).memOk := by
  unfold State.holdReg
  extract_lets deed space base len f s1
  have h1 : s1.memOk := hs
  split
  · extract_lets n f1 s2 s3
    have h2 : s2.memOk := hs
    have h3 : s3.memOk := memOk_modGrid h2 ..
    exact h3
  · extract_lets s2 lines
    have h2 : s2.memOk := memOk_modAskerReg h1 ..
    refine memOk_ite h2 ?_
    refine memOk_foldl _ ?_ _ (memOk_invalRange h2 ..)
    intro _ _ h
    exact memOk_foldl _ (fun _ _ h3 => memOk_acquireOn h3 ..) _ h

theorem State.memOk_takeGrant {s : State} (hs : s.memOk) home who tag deed kind :
    (s.takeGrant home who tag deed kind).memOk := by
  unfold State.takeGrant
  split
  · exact memOk_send hs ..
  split
  · exact hs
  · extract_lets b1
    exact memOk_ite (memOk_clearTag (memOk_holdReg (by exact hs) _) _) (memOk_askNext (by exact hs) _)

theorem State.memOk_takeRefusal {s : State} (hs : s.memOk) tag sub : (s.takeRefusal tag sub).memOk := by
  unfold State.takeRefusal
  split
  · exact hs
  extract_lets s1
  have h1 : s1.memOk := hs
  exact memOk_clearTag (memOk_refuseReg (memOk_countRef (memOk_releasePieces h1 ..) _) ..) _

theorem State.memOk_setHome {s : State} (hs : s.memOk) h : (s.setHome h).memOk := memOk_modHome hs ..

theorem State.memOk_grantAt {s : State} (hs : s.memOk) home who q : (s.grantAt home who q).memOk := by
  unfold State.grantAt
  split
  · exact hs
  · split
    exact memOk_send (memOk_setHome hs _) ..

theorem State.memOk_arrive {s : State} (hs : s.memOk) home who q0 : (s.arrive home who q0).memOk := by
  unfold State.arrive
  split
  · exact hs
  · exact memOk_send hs ..
  extract_lets refuse wait
  have hrefuse : ∀ sub, (refuse sub).memOk := by
    intro _
    unfold refuse
    exact memOk_send hs ..
  have hwait : wait.memOk := memOk_modCtx (memOk_setHome hs _) ..
  refine memOk_ite (hrefuse _) ?_
  exact memOk_ite (memOk_ite (memOk_grantAt hs ..) (memOk_ite (hrefuse _) hwait)) (memOk_ite (hrefuse _) hwait)

theorem State.memOk_examine {s : State} (hs : s.memOk) home kept qs : (s.examine home kept qs).memOk := by
  induction qs generalizing s kept with
  | nil => exact memOk_modHome hs ..
  | cons q rest ih =>
    unfold State.examine
    split
    · exact hs
    · split
      · exact ih (memOk_grantAt hs ..) _
      · exact ih hs _

theorem State.memOk_examineHome {s : State} (hs : s.memOk) home : (s.examineHome home).memOk := by
  unfold State.examineHome
  split
  · exact hs
  · exact memOk_examine hs ..

theorem State.memOk_takeRelease {s : State} (hs : s.memOk) home who idx fam ret :
    (s.takeRelease home who idx fam ret).memOk := by
  unfold State.takeRelease
  split
  · exact hs
  refine memOk_ite (memOk_setHome hs _) ?_
  extract_lets s1
  have h1 : s1.memOk := memOk_setHome hs _
  exact memOk_examineHome (memOk_ite h1 (memOk_send h1 ..)) _

theorem State.memOk_takeCancel {s : State} (hs : s.memOk) home tag : (s.takeCancel home tag).memOk :=
  memOk_examineHome (memOk_modHome hs ..) _

theorem State.memOk_expire {s : State} (hs : s.memOk) home tag : (s.expire home tag).memOk := by
  unfold State.expire
  split
  · exact hs
  split
  · exact hs
  · extract_lets older sub
    exact memOk_examineHome (memOk_send (memOk_setHome hs _) ..) _

theorem State.memOk_leaveFamily {s : State} (hs : s.memOk) fam : (s.leaveFamily fam).1.memOk := by
  unfold State.leaveFamily
  split
  · exact hs
  · exact memOk_ite_fst hs hs

theorem State.memOk_leaveParent {s : State} (hs : s.memOk) b t g reg : (s.leaveParent b t g reg).memOk :=
  memOk_modReg hs ..

theorem State.memOk_startReturn {s : State} (hs : s.memOk) t g rel : (s.startReturn t g rel).memOk := by
  unfold State.startReturn
  extract_lets reg s1 older r
  have h1 : s1.memOk := memOk_setReg hs ..
  exact memOk_ite h1 h1

theorem State.memOk_endReturn {s : State} (hs : s.memOk) id : (s.endReturn id).memOk := hs

theorem State.memOk_finishWriteBack {s : State} (hs : s.memOk) r : (s.finishWriteBack r).memOk := by
  unfold State.finishWriteBack
  extract_lets s0 s1 who
  have h0 : s0.memOk := memOk_ite (memOk_releaseLines hs ..) hs
  have h1 : s1.memOk := memOk_writeBack h0 _
  refine memOk_ite (memOk_endReturn (memOk_leaveParent h1 ..) _) ?_
  refine memOk_ite (memOk_endReturn h0 _) ?_
  split
  next s2 _ _ e =>
  have h2 := memOk_fst_of_eq e (memOk_leaveFamily h1 _)
  refine memOk_ite (memOk_endReturn h2 _) ?_
  extract_lets s3
  have h3 : s3.memOk := memOk_foldl _ (fun _ _ h => memOk_send h ..) _ h2
  exact h3

theorem State.memOk_takeAck {s : State} (hs : s.memOk) ret : (s.takeAck ret).memOk := by
  unfold State.takeAck
  split
  · exact hs
  split
  · exact memOk_ite (memOk_endReturn hs _) hs
  · exact hs

theorem State.memOk_emptyReg {s : State} (hs : s.memOk) t g : (s.emptyReg t g).memOk := by
  unfold State.emptyReg
  extract_lets s1
  have h1 : s1.memOk := by
    unfold s1
    split
    · exact memOk_ite (memOk_withdraw hs _) hs
    · exact memOk_ite (memOk_clearTag hs _) hs
  exact memOk_setReg h1 ..

theorem State.memOk_loseEntry {s : State} (hs : s.memOk) home idx : (s.loseEntry home idx).memOk := by
  unfold State.loseEntry
  split
  · exact hs
  split
  · exact hs
  extract_lets r out h1 s1 s2
  have h2 : s1.memOk := memOk_setHome (by exact hs) _
  have h3 : s2.memOk := memOk_foldl _ (fun _ _ h => memOk_send h ..) _ h2
  exact memOk_foldl _ (fun _ _ h => memOk_send h ..) _ h3

theorem State.memOk_takeHold {s : State} (hs : s.memOk) home idx found : (s.takeHold home idx found).memOk :=
  memOk_modHome hs ..

theorem State.memOk_endRebuild {s : State} (hs : s.memOk) home r : (s.endRebuild home r).memOk := by
  unfold State.endRebuild
  split
  · exact hs
  extract_lets ids held n entries h1 s1 s2
  have h2 : s1.memOk := memOk_setHome hs _
  have h3 : s2.memOk := by
    unfold s2
    refine memOk_foldl _ (fun _ _ h => ?_) _ h2
    extract_lets who s3
    have h3 : s3.memOk := memOk_ite (memOk_modHome h ..) h
    exact memOk_ite h3 (memOk_send h3 ..)
  exact memOk_examineHome (memOk_faultRecord h3 ..) _

/-! ### Bands that end or roll back (Machine/Contain) -/

theorem State.memOk_restoreStores {s : State} (hs : s.memOk) b v : (s.restoreStores b v).memOk := by
  unfold State.restoreStores
  refine memOk_foldl _ (fun _ _ h => ?_) _ hs
  extract_lets bm am tm
  exact memOk_modCore h ..

theorem State.memOk_dropZero {s : State} (hs : s.memOk) b : (s.dropZero b).memOk :=
  memOk_foldl _ (fun _ _ h => memOk_modCore h ..) _ hs

theorem State.memOk_endBand {s : State} (hs : s.memOk) b : (s.endBand b).memOk := by
  unfold State.endBand
  split
  · exact hs
  extract_lets s1 s2
  have h1 : s1.memOk := memOk_foldl _ (fun _ _ h => memOk_endTroop h ..) _ hs
  have h2 : s2.memOk := memOk_discardDirty h1 ..
  exact memOk_modBand (by exact h2) ..

theorem State.memOk_killBand {s : State} (hs : s.memOk) b o sub cause : (s.killBand b o sub cause).memOk :=
  memOk_foldl _ (fun _ _ h => memOk_endBand h _) _ (memOk_contextError hs ..)

theorem State.memOk_undoLine {s : State} (hs : s.memOk) cores asid u : (s.undoLine cores asid u).memOk :=
  memOk_mergeL2 (memOk_discardLines hs ..) ..

theorem State.memOk_dropPoisoned {s : State} (hs : s.memOk) cores : (s.dropPoisoned cores).memOk := by
  unfold State.dropPoisoned
  extract_lets s1
  have h1 : s1.memOk := memOk_foldl _ (fun _ _ h => memOk_modCore h ..) _ hs
  exact memOk_foldl _ (fun _ _ h => memOk_modDie h ..) _ h1

theorem State.memOk_undoBorrows {s : State} (hs : s.memOk) now old undo : (s.undoBorrows now old undo).memOk := by
  unfold State.undoBorrows
  extract_lets mine s1 taken rs s2 s3
  have h1 : s1.memOk := memOk_foldl _ (fun _ _ h => memOk_withdraw h _) _ hs
  have h2 : s2.memOk := by
    unfold s2
    refine memOk_foldl _ (fun _ _ h => ?_) _ h1
    extract_lets lines back
    have hback : back.memOk := memOk_foldl _ (fun _ _ h2 => memOk_mergeHome h2 ..) _ h
    exact memOk_publish (memOk_discardLines hback ..) _
  have h3 : s3.memOk := by
    unfold s3
    refine memOk_foldl _ (fun _ _ h => ?_) _ h2
    split
    · exact h
    · exact memOk_releasePieces (by exact h) ..
  exact h3

/-- A rollback puts the logged lines back at their level through `State.undoLine` (R317). -/
theorem State.memOk_rollBand {s : State} (hs : s.memOk) b : (s.rollBand b).memOk := by
  unfold State.rollBand
  split
  · extract_lets s1 s2 s3 s4 mine s5 s6 s7
    have h1 : s1.memOk := memOk_foldl _ (fun _ _ h => memOk_leaveBundle h _) _ hs
    have h2 : s2.memOk := memOk_foldl _ (fun _ _ h => memOk_dropConv (memOk_discardWork h ..) ..) _ (memOk_dropZero h1 _)
    have h3 : s3.memOk := memOk_dropPoisoned (memOk_foldl _ (fun _ _ h => memOk_undoLine h ..) _ h2) _
    have h4 : s4.memOk := memOk_undoBorrows h3 ..
    have h5 : s5.memOk := h4
    have h6 : s6.memOk := memOk_restoreStores h5 ..
    have h7 : s7.memOk := memOk_modBand h6 ..
    refine memOk_foldl _ (fun _ _ h => ?_) _ h7
    split
    · split
      · exact memOk_makeReady (memOk_refreshFlags h _) ..
      · exact memOk_refreshFlags h _
    · exact h
  · exact hs

theorem State.memOk_rollback {s : State} (hs : s.memOk) b o sub cause : (s.rollback b o sub cause).memOk := by
  unfold State.rollback
  extract_lets s1 n asid s2
  have h1 : s1.memOk := memOk_foldl _ (fun _ _ h => memOk_rollBand h _) _ hs
  have h2 : s2.memOk := memOk_faultRecord h1 ..
  exact memOk_ite (memOk_killBand h2 ..) h2

theorem State.memOk_consumeUe {s : State} (hs : s.memOk) t : (s.consumeUe t).memOk :=
  memOk_ite (memOk_rollback hs ..) (memOk_killBand hs ..)

theorem State.memOk_diverge {s : State} (hs : s.memOk) b t : (s.diverge b t).memOk :=
  memOk_ite (memOk_rollback hs ..) (memOk_killBand hs ..)

/-! ### Running an instruction (Machine/Issue) -/

theorem State.memOk_keepSnap {s : State} (hs : s.memOk) b t : (s.keepSnap b t).memOk := by
  unfold State.keepSnap
  split
  · exact hs
  · exact memOk_ite hs hs

theorem State.memOk_follow {s : State} (hs : s.memOk) b t f : (s.follow b t f).memOk := by
  unfold State.follow
  split
  · exact hs
  · exact memOk_modThread (memOk_makeReady (memOk_leaveBundle hs _) ..) ..
  · exact memOk_makeReady (memOk_leaveBundle hs _) ..
  · exact hs
  · exact memOk_makeWait (memOk_leaveBundle hs _) ..
  · exact memOk_makeWait (memOk_leaveBundle (memOk_keepSnap hs ..) _) ..
  · exact hs
  · exact hs
  · exact hs

theorem State.memOk_finishIssue {s : State} (hs : s.memOk) b raised ues : (s.finishIssue b raised ues).memOk := by
  unfold State.finishIssue
  extract_lets imm hnd s1 bands s2
  have h1 : s1.memOk := memOk_raiseAll hs ..
  have h2 : s2.memOk := by
    unfold s2
    refine memOk_foldl _ (fun _ _ h => ?_) _ h1
    split
    · exact memOk_consumeUe h _
    · exact h
  split
  · exact h2
  · refine memOk_ite ?_ (memOk_modBundle h2 ..)
    exact memOk_foldl _ (fun _ _ h => memOk_makeReady (memOk_leaveBundle h _) ..) _ h2

theorem State.memOk_trapAll {s : State} (hs : s.memOk) cause info : (s.trapAll cause info).memOk := by
  unfold State.trapAll
  split
  · exact hs
  · exact memOk_finishIssue hs ..

theorem State.memOk_take {s u : State} (hs : s.memOk) {t ds} (e : s.take t ds = .ok u) : u.memOk := by
  unfold State.take at e
  split at e
  · cases e
    exact memOk_reserve hs ..
  · cases e
  · cases e

theorem State.memOk_mirror {s : State} (hs : s.memOk) old t u : (s.mirror old t u).memOk := by
  unfold State.mirror
  extract_lets news s1 dests
  have h1 : s1.memOk := memOk_refreshFlags (by exact hs) _
  exact memOk_reserve h1 ..

theorem State.memOk_releaseTwin {s : State} (hs : s.memOk) a t u : (s.releaseTwin a t u).memOk := by
  unfold State.releaseTwin
  extract_lets mine left s1
  have h1 : s1.memOk := hs
  split
  · split
    · exact memOk_makeReady h1 ..
    · exact h1
  · exact h1

theorem State.memOk_registerAct {s : State} (hs : s.memOk) b k acts : (s.registerAct b k acts).memOk := by
  unfold State.registerAct
  split
  · exact hs
  extract_lets asid wait sig a s1
  have h1 : s1.memOk := memOk_modTroop (by exact hs) ..
  exact memOk_foldl _ (fun _ _ h => memOk_follow h ..) _ h1

/-- An instruction keeps the form where its body does, for each thread, and what becomes of the twin does (R312). -/
theorem State.memOk_runThreads {s : State} (hs : s.memOk) m reads rel act {twin : State → Tid → State}
    {body : State → State → Tid → State × Flow} (htwin : ∀ s u, s.memOk → (twin s u).memOk)
    (hbody : ∀ v s t, s.memOk → (body v s t).1.memOk) : (s.runThreads m reads rel act twin body).memOk := by
  unfold State.runThreads
  split
  · exact hs
  · extract_lets v one r keys s1
    have hone : ∀ r t, r.s.memOk → (one r t).s.memOk := by
      intro r t hr
      unfold one
      have hbefore := hbody v _ t hr
      split
      · exact memOk_release hr ..
      · split
        · exact hr
        · split
          · exact memOk_follow hbefore ..
          · exact hr
          · exact hr
          · exact memOk_follow hbefore ..
          · next s2 f _ _ _ _ e =>
            have h2 := memOk_fst_of_eq e (hbody v _ t (memOk_release hr ..))
            split
            · split
              · split
                · exact memOk_follow hr ..
                · exact memOk_releaseTwin
                    (htwin _ _ (memOk_release (memOk_follow (memOk_mirror h2 ..) ..) ..)) ..
              · split
                · exact memOk_follow hr ..
                · exact hr
            · exact memOk_follow h2 ..
    have hr : r.s.memOk := List.foldlRecOn (motive := fun r => r.s.memOk) _ one hs fun r h t _ => hone r t h
    split
    · exact memOk_foldl _ (fun _ _ h => memOk_startWalk h ..) _ hs
    · exact memOk_finishIssue (memOk_foldl _ (fun _ _ h => memOk_registerAct h ..) _ hr) ..

theorem State.memOk_runPlain {s : State} (hs : s.memOk) m {body : State → State → Tid → State × Flow}
    (hbody : ∀ v s t, s.memOk → (body v s t).1.memOk) : (s.runPlain m body).memOk :=
  memOk_runThreads hs m [] [] noAct (fun _ _ h => h) hbody

theorem State.memOk_runReads {s : State} (hs : s.memOk) m reads rel {body : State → State → Tid → State × Flow}
    (hbody : ∀ v s t, s.memOk → (body v s t).1.memOk) : (s.runReads m reads rel body).memOk :=
  memOk_runThreads hs m reads rel noAct (fun _ _ h => h) hbody

theorem State.memOk_releaseIdle {s : State} (hs : s.memOk) m rel : (s.releaseIdle m rel).memOk := by
  unfold State.releaseIdle
  split
  · exact hs
  · exact memOk_foldl _ (fun _ _ h => memOk_release h ..) _ hs

/-- A register instruction writes no memory, whichever of its troops trap or wait. -/
theorem State.memOk_regInstr {s : State} (hs : s.memOk) m reads rel f : (s.regInstr m reads rel f).memOk := by
  unfold State.regInstr
  split
  · exact hs
  · extract_lets v acting bad good s0 groups one r
    have h0 : s0.memOk := memOk_foldl _ (fun _ _ h => memOk_release h ..) _ hs
    have hone : ∀ r k, r.s.memOk → (one r k).s.memOk := by
      intro r k hr
      unfold one
      extract_lets ts s1 need
      have h1 : s1.memOk := memOk_foldl _ (fun _ _ h => memOk_release h ..) _ hr
      split
      · exact memOk_foldl _ (fun _ _ h => memOk_writeRegs h ..) _ h1
      · exact hr
      · exact memOk_foldl _ (fun _ _ h => memOk_follow h ..) _ hr
    have hr : r.s.memOk := List.foldlRecOn (motive := fun r => r.s.memOk) _ one h0 fun r h k _ => hone r k h
    exact memOk_finishIssue hr ..

theorem State.memOk_pend {s : State} (hs : s.memOk) b t issue seta setb what rel :
    (s.pend b t issue seta setb what rel).memOk := by
  unfold State.pend
  extract_lets p s1 s2
  have h1 : s1.memOk := hs
  have h2 : s2.memOk := memOk_ite (memOk_setFlag h1 ..) h1
  exact memOk_ite (memOk_setFlag h2 ..) h2

/-! ### Results that land (Machine/Pending) -/

theorem State.memOk_landRegs {s : State} (hs : s.memOk) p ws twin : (s.landRegs p ws twin).memOk := by
  unfold State.landRegs
  extract_lets s1 s2 s3
  have h1 : s1.memOk := memOk_release (memOk_clearFlags hs ..) ..
  have h2 : s2.memOk := memOk_ite h1 (memOk_writeRegs h1 ..)
  have h3 : s3.memOk := by
    unfold s3
    split
    · exact memOk_ite h2 (memOk_writeRegs h2 ..)
    · exact h2
  exact memOk_clearFlags h3 ..

theorem State.memOk_landUe {s : State} (hs : s.memOk) p : (s.landUe p).memOk :=
  memOk_consumeUe (memOk_dropFlags hs _) _

theorem State.memOk_writeRing {s : State} (hs : s.memOk) asid : (s.writeRing asid).memOk := by
  unfold State.writeRing
  split
  · exact hs
  split
  · exact memOk_setHomeBytes hs ..
  · exact hs

theorem State.memOk_placeContinuation {s u : State} (hs : s.memOk) {t pc h line va task old tag}
    (e : s.placeContinuation t pc h line va task old tag = some u) : u.memOk := by
  unfold State.placeContinuation at e
  split at e
  · cases e
  · dsimp only at e
    split at e
    · cases e
      exact hs
    · split at e
      · cases e
        refine memOk_writeRing (memOk_modCtx ?_ ..) _
        exact hs
      · cases e

theorem State.memOk_returnSleeper {s : State} (hs : s.memOk) x reason w : (s.returnSleeper x reason w).memOk := by
  unfold State.returnSleeper
  extract_lets s1 s2 s3
  have h1 : s1.memOk := hs
  have h2 : s2.memOk := memOk_writeRegs h1 ..
  have h3 : s3.memOk := memOk_ite (memOk_acquireLines h2 ..) h2
  split
  · exact memOk_makeReady h3 ..
  · exact h3

theorem State.memOk_wakeWord {s : State} (hs : s.memOk) pa w : (s.wakeWord pa w).memOk :=
  memOk_foldl _ (fun _ _ h => memOk_returnSleeper h ..) _ hs

theorem State.memOk_landAtomc {s : State} (hs : s.memOk) p loc va addeq task b c tag d acq :
    (s.landAtomc p loc va addeq task b c tag d acq).memOk := by
  unfold State.landAtomc
  extract_lets core asid fin
  have hfin : ∀ s st, s.memOk → (fin s st).memOk := by
    intro _ _ h
    unfold fin
    exact memOk_landRegs (memOk_ite (memOk_acquireLines h ..) h) ..
  split
  · exact memOk_landRegs hs ..
  split
  next s1 _ _ e =>
  have h1 := memOk_fst_of_eq e (memOk_readSite hs ..)
  refine memOk_ite (memOk_landUe h1 _) ?_
  extract_lets n hit s2
  have h2 : s2.memOk := memOk_commit h1 _
  refine memOk_ite ?_ (hfin _ _ (memOk_ite (memOk_writeSite h2 ..) h2))
  split
  · exact hfin _ _ h1
  next s3 e1 =>
  have h3 := memOk_placeContinuation h1 e1
  exact hfin _ _ (memOk_writeSite (memOk_commit h3 _) ..)

theorem State.memOk_landAtomw {s : State} (hs : s.memOk) p loc b c d acq : (s.landAtomw p loc b c d acq).memOk := by
  unfold State.landAtomw
  extract_lets core asid
  split
  · exact memOk_landRegs hs ..
  split
  next s1 _ _ e =>
  have h1 := memOk_fst_of_eq e (memOk_readSite hs ..)
  refine memOk_ite (memOk_landUe h1 _) ?_
  extract_lets sum n s2 s3
  have h2 : s2.memOk := memOk_writeSite (memOk_commit h1 _) ..
  have h3 : s3.memOk := memOk_ite (memOk_wakeWord h2 ..) h2
  exact memOk_landRegs (memOk_ite (memOk_acquireLines h3 ..) h3) ..

theorem State.memOk_land {s : State} (hs : s.memOk) p : (s.land p).memOk := by
  unfold State.land
  extract_lets s1 core asid
  have h1 : s1.memOk := hs
  split
  · exact memOk_landRegs h1 ..
  · exact memOk_ite (memOk_landUe h1 _) (memOk_landRegs h1 ..)
  · exact memOk_ite (memOk_landUe h1 _) (memOk_landRegs h1 ..)
  · split
    next s2 _ _ e =>
    have h2 := memOk_fst_of_eq e (memOk_readSite h1 ..)
    exact memOk_ite (memOk_landUe h2 _) (memOk_landRegs h2 ..)
  · extract_lets bits
    split
    next s2 _ _ e =>
    have h2 := memOk_fst_of_eq e (memOk_atomicAt h1 ..)
    refine memOk_ite (memOk_landUe h2 _) ?_
    extract_lets s0 s3
    have h0 : s0.memOk := memOk_ite (memOk_commit h2 _) h2
    have h3 : s3.memOk := by
      unfold s3
      split
      · exact memOk_acquireLines h0 ..
      · exact h0
    exact memOk_landRegs h3 ..
  · exact memOk_landAtomc h1 ..
  · exact memOk_landAtomw h1 ..

theorem State.memOk_landBand {s : State} (hs : s.memOk) b : (s.landBand b).memOk := by
  unfold State.landBand
  extract_lets ps fs
  refine memOk_foldl _ (fun _ _ h => ?_) _ hs
  split
  · exact memOk_land h _
  · exact memOk_performFlight h _
  · exact h

theorem nextOk_execLongLatencyResult {s : State} (hs : s.memOk) id : NextOk (execLongLatencyResult id s) := by
  unfold execLongLatencyResult
  split
  · exact nextOk_next (memOk_ite (memOk_land hs _) hs)
  · exact nextOk_next hs

/-! ### Borrows and deed messages (Machine/Borrow) -/

theorem State.memOk_askBorrow {s : State} (hs : s.memOk) t g kind nowait base len :
    (s.askBorrow t g kind nowait base len).1.memOk := by
  unfold State.askBorrow
  extract_lets x r first tag s1
  have h1 : s1.memOk := memOk_setReg (memOk_next hs) ..
  exact memOk_ite_fst h1 (memOk_startBorrow h1 ..)

theorem nextOk_execBor {s : State} (hs : s.memOk) m kind nowait d a b : NextOk (execBor m kind nowait d a b s) := by
  unfold execBor
  extract_lets bu ra
  refine nextOk_next (memOk_runReads hs _ _ _ (fun _ _ _ h => ?_))
  extract_lets waits base len st
  have hwaits : ∀ s, s.memOk → (waits s).1.memOk := by
    intro _ h1
    unfold waits
    exact memOk_ite_fst h1 h1
  refine memOk_ite_fst (hwaits _ (memOk_modThread h ..)) ?_
  refine memOk_ite_fst h ?_
  refine memOk_ite_fst h ?_
  refine memOk_ite_fst h ?_
  split
  next s1 _ e =>
  have h1 := memOk_fst_of_eq e (memOk_askBorrow h ..)
  exact memOk_ite_fst (memOk_ite (memOk_setFlag h1 ..) h1) (hwaits _ h1)

theorem State.memOk_carveLines {s : State} (hs : s.memOk) t p c base len : (s.carveLines t p c base len).memOk := by
  unfold State.carveLines
  refine memOk_ite hs ?_
  extract_lets lines s1
  have h1 : s1.memOk := memOk_foldl _ (fun _ _ h => memOk_foldl _ (fun _ _ h1 => memOk_writeDownL1 h1 ..) _ h) _ hs
  exact memOk_foldl _ (fun _ _ h => memOk_foldl _ (fun _ _ h2 => memOk_invalL1 h2 ..) _ h) _ h1

theorem nextOk_execReb {s : State} (hs : s.memOk) m toS d a b : NextOk (execReb m toS d a b s) := by
  unfold execReb
  extract_lets rb
  refine nextOk_next (memOk_runReads hs _ _ _ (fun _ _ _ h => ?_))
  extract_lets p off len k child clash c s1
  have h1 : s1.memOk := memOk_setReg h ..
  refine memOk_ite_fst h ?_
  refine memOk_ite_fst h ?_
  refine memOk_ite_fst h ?_
  refine memOk_ite_fst h ?_
  exact memOk_ite_fst h (memOk_ite_fst h (memOk_ite_fst h (memOk_carveLines (memOk_setReg h1 ..) ..)))

theorem State.memOk_countFamily {s : State} (hs : s.memOk) t fam up : (s.countFamily t fam up).memOk := by
  unfold State.countFamily
  refine memOk_ite hs ?_
  extract_lets fams
  exact hs

theorem State.memOk_modKids {s : State} (hs : s.memOk) t r f : (s.modKids t r f).memOk := memOk_modReg hs ..

theorem nextOk_execSpl {s : State} (hs : s.memOk) m d a b : NextOk (execSpl m d a b s) := by
  unfold execSpl
  refine nextOk_next (memOk_runReads hs _ _ _ (fun _ _ _ h => ?_))
  extract_lets x sp parent hi lo s1
  have h1 : s1.memOk := memOk_setReg (memOk_setReg h ..) ..
  refine memOk_ite_fst h ?_
  refine memOk_ite_fst h ?_
  exact memOk_ite_fst h (memOk_ite_fst h (memOk_ite (memOk_countFamily h1 ..) (memOk_modKids h1 ..)))

theorem nextOk_execJon {s : State} (hs : s.memOk) m d a : NextOk (execJon m d a s) := by
  unfold execJon
  refine nextOk_next (memOk_runPlain hs _ (fun _ _ _ h => ?_))
  extract_lets x y z s1
  have h1 : s1.memOk := memOk_setReg (memOk_setReg h ..) ..
  exact memOk_ite_fst h (memOk_ite_fst h (memOk_ite (memOk_countFamily h1 ..) (memOk_modKids h1 ..)))

theorem State.memOk_twinReturn {s : State} (hs : s.memOk) a u : (s.twinReturn a u).memOk := by
  unfold State.twinReturn
  extract_lets r cores s1
  have h1 : s1.memOk := memOk_ite (memOk_discardLines hs ..) hs
  exact memOk_setReg h1 ..

theorem nextOk_execRtn {s : State} (hs : s.memOk) m rel a : NextOk (execRtn m rel a s) := by
  unfold execRtn
  refine nextOk_next (memOk_runThreads hs _ _ _ _ (fun _ _ h => memOk_twinReturn h ..) (fun _ _ _ h => ?_))
  extract_lets r s1
  have h1 : s1.memOk := memOk_ite (memOk_commit h _) h
  split
  · exact h
  · exact memOk_emptyReg h ..
  · exact memOk_emptyReg h ..
  · exact memOk_ite_fst h (memOk_ite_fst h (memOk_startReturn h1 ..))

theorem nextOk_execBtst {s : State} (hs : s.memOk) m c d a : NextOk (execBtst m c d a s) := by
  unfold execBtst
  refine nextOk_next (memOk_runPlain hs _ (fun _ _ _ h => ?_))
  extract_lets r x
  exact memOk_writeP h ..

theorem nextOk_execBqry {s : State} (hs : s.memOk) m f d a : NextOk (execBqry m f d a s) := by
  unfold execBqry
  refine nextOk_next (memOk_runPlain hs _ (fun _ _ _ h => ?_))
  split
  · exact h
  next s1 e =>
  have h1 := memOk_take h e
  exact memOk_writeV h1 ..

theorem nextOk_execDreq {s : State} (hs : s.memOk) msg : NextOk (execDreq msg s) := by
  unfold execDreq
  split
  · split
    · exact nextOk_next (memOk_arrive (memOk_dropMsg hs _) ..)
    · exact nextOk_next hs
  · exact nextOk_next hs

theorem State.memOk_toPeer {s u : State} (hs : s.memOk) {m} (e : s.toPeer m = some u) : u.memOk := by
  unfold State.toPeer at e
  split at e
  · cases e
    exact memOk_of_eq (memOk_dropMsg hs m.id) rfl rfl
  · cases e

theorem nextOk_execDgrant {s : State} (hs : s.memOk) msg : NextOk (execDgrant msg s) := by
  unfold execDgrant
  split
  · split
    · exact nextOk_next (memOk_getD (fun _ h => memOk_toPeer hs h) (memOk_takeGrant (memOk_dropMsg hs _) ..))
    · exact nextOk_next hs
  · exact nextOk_next hs

theorem nextOk_execDrefuse {s : State} (hs : s.memOk) msg : NextOk (execDrefuse msg s) := by
  unfold execDrefuse
  split
  · split
    · exact nextOk_next (memOk_getD (fun _ h => memOk_toPeer hs h) (memOk_takeRefusal (memOk_dropMsg hs _) ..))
    · exact nextOk_next hs
  · exact nextOk_next hs

theorem nextOk_execDcancel {s : State} (hs : s.memOk) msg : NextOk (execDcancel msg s) := by
  unfold execDcancel
  split
  · split
    · exact nextOk_next (memOk_takeCancel (memOk_dropMsg hs _) ..)
    · exact nextOk_next hs
  · exact nextOk_next hs

theorem nextOk_execDrel {s : State} (hs : s.memOk) msg : NextOk (execDrel msg s) := by
  unfold execDrel
  split
  · split
    · exact nextOk_next (memOk_takeRelease (memOk_dropMsg hs _) ..)
    · exact nextOk_next hs
  · exact nextOk_next hs

theorem nextOk_execDrelack {s : State} (hs : s.memOk) msg : NextOk (execDrelack msg s) := by
  unfold execDrelack
  split
  · split
    · exact nextOk_next (memOk_getD (fun _ h => memOk_toPeer hs h) (memOk_takeAck (memOk_dropMsg hs _) _))
    · exact nextOk_next hs
  · exact nextOk_next hs

theorem nextOk_execRtnWritebackDone {s : State} (hs : s.memOk) ret : NextOk (execRtnWritebackDone ret s) := by
  unfold execRtnWritebackDone
  split
  · exact nextOk_next (memOk_ite (memOk_finishWriteBack hs _) hs)
  · exact nextOk_next hs

theorem nextOk_execDeedwaitTimeout {s : State} (hs : s.memOk) tag : NextOk (execDeedwaitTimeout tag s) := by
  unfold execDeedwaitTimeout
  split
  · exact nextOk_next (memOk_expire hs ..)
  · exact nextOk_next hs

theorem nextOk_execDquery {s : State} (hs : s.memOk) msg : NextOk (execDquery msg s) := by
  unfold execDquery
  split
  · split
    · exact nextOk_next (memOk_send (memOk_dropMsg hs _) ..)
    · exact nextOk_next hs
  · exact nextOk_next hs

theorem nextOk_execDhold {s : State} (hs : s.memOk) msg : NextOk (execDhold msg s) := by
  unfold execDhold
  split
  · split
    · exact nextOk_next (memOk_takeHold (memOk_dropMsg hs _) ..)
    · exact nextOk_next hs
  · exact nextOk_next hs

theorem nextOk_execDeedRebuildEnd {s : State} (hs : s.memOk) home : NextOk (execDeedRebuildEnd home s) := by
  unfold execDeedRebuildEnd
  split
  · exact nextOk_next (memOk_endRebuild hs ..)
  · exact nextOk_next hs

/-! ### Control registers (Machine/Csr) -/

theorem State.memOk_csrClear {s : State} (hs : s.memOk) t n : (s.csrClear t n).memOk := by
  unfold State.csrClear
  extract_lets asid core x x1
  have hcore : ∀ f, (core f).memOk := by
    intro _
    unfold core
    exact memOk_modCore hs ..
  split
  · exact memOk_modCtx hs ..
  · exact memOk_modCtx hs ..
  · exact hcore _
  · exact hcore _
  · exact hcore _
  · exact hcore _
  · exact memOk_modCtx hs ..
  · exact hcore _
  · exact hcore _
  · exact memOk_modCtx hs ..
  · exact memOk_modCtx hs ..
  · exact memOk_modCtx hs ..
  · exact memOk_modBand hs ..
  · exact memOk_modCore hs ..
  · exact hs
  · exact hs

theorem State.memOk_setCtxCsr {s : State} (hs : s.memOk) asid n x : (s.setCtxCsr asid n x).memOk := by
  unfold State.setCtxCsr
  split
  · exact memOk_modCtx hs ..
  · exact memOk_modCtx hs ..
  · exact memOk_modCtx hs ..
  · exact memOk_modCtx hs ..
  · exact memOk_modCtx hs ..
  · exact memOk_modCtx hs ..
  · exact memOk_modCtx hs ..
  · exact memOk_modCtx hs ..
  · exact hs

theorem State.memOk_setTrapPc {s : State} (hs : s.memOk) t next x : (s.setTrapPc t next x).memOk :=
  memOk_modThread hs ..

theorem State.memOk_csrWrite {s : State} (hs : s.memOk) t mode n x : (s.csrWrite t mode n x).memOk := by
  unfold State.csrWrite
  extract_lets old v x1
  split
  · exact memOk_ite (memOk_modThread hs ..) (memOk_csrClear hs ..)
  · exact hs
  · exact memOk_ite (memOk_setTrapPc hs ..) (memOk_ite (memOk_setTrapPc hs ..) (memOk_setCtxCsr hs ..))
  · exact hs

/-! ### Launches (Machine/Launch) -/

theorem State.memOk_startGrid {s : State} (hs : s.memOk) asid spec fp arglen seq gridseq parent depth :
    (s.startGrid asid spec fp arglen seq gridseq parent depth).memOk :=
  hs

theorem State.memOk_dropChild {s : State} (hs : s.memOk) c : (s.dropChild c).memOk := hs

theorem State.memOk_submit {s : State} (hs : s.memOk) t pc what : (s.submit t pc what).memOk := by
  unfold State.submit
  split
  · exact hs
  · extract_lets l
    exact hs

theorem nextOk_execSpawn {s : State} (hs : s.memOk) m a task : NextOk (execSpawn m a task s) := by
  unfold execSpawn
  extract_lets bu ra
  refine nextOk_next (memOk_runThreads hs _ _ _ _ (fun _ _ h => h) ?_)
  intro _ _ _ h
  exact memOk_ite_fst h (memOk_ite_fst h (memOk_ite_fst h (memOk_submit (memOk_commit h _) ..)))

theorem nextOk_execSpawna {s : State} (hs : s.memOk) m k a b task off : NextOk (execSpawna m k a b task off s) := by
  unfold execSpawna
  extract_lets bu ra at_
  refine nextOk_next (memOk_runThreads hs _ _ _ _ (fun _ _ h => h) (fun _ _ _ h => ?_))
  refine memOk_ite_fst h ?_
  split
  · next e => exact memOk_fst_of_eq e (memOk_accessAddress h ..)
  · next e => exact memOk_fst_of_eq e (memOk_accessAddress h ..)
  next s1 _ e =>
  have h1 := memOk_fst_of_eq e (memOk_accessAddress h ..)
  exact memOk_ite_fst h1 (memOk_ite_fst h1 (memOk_submit (memOk_commit h1 _) ..))

theorem nextOk_execLaunch {s : State} (hs : s.memOk) m k a off : NextOk (execLaunch m k a off s) := by
  unfold execLaunch
  extract_lets bu
  refine nextOk_next (memOk_runThreads hs _ _ _ _ (fun _ _ h => h) (fun _ _ _ h => ?_))
  refine memOk_ite_fst h ?_
  refine memOk_ite_fst h ?_
  split
  · next e => exact memOk_fst_of_eq e (memOk_accessAddress h ..)
  · next e => exact memOk_fst_of_eq e (memOk_accessAddress h ..)
  next s1 _ e =>
  have h1 := memOk_fst_of_eq e (memOk_accessAddress h ..)
  refine memOk_ite_fst h1 ?_
  refine memOk_ite_fst h1 ?_
  split
  next s2 _ _ e1 =>
  have h2 := memOk_fst_of_eq e1 (memOk_readSite h1 ..)
  exact memOk_ite_fst h1 (memOk_submit (memOk_commit h2 _) ..)

theorem State.memOk_launchRecord {s : State} (hs : s.memOk) l kind more : (s.launchRecord l kind more).memOk :=
  memOk_dropChild (memOk_faultRecord hs ..) _

theorem State.memOk_startTask {s : State} (hs : s.memOk) asid child parent depth launcher gridseq d args die counter :
    (s.startTask asid child parent depth launcher gridseq d args die counter).memOk :=
  hs

theorem State.memOk_checkLaunch {s : State} (hs : s.memOk) l : (s.checkLaunch l).memOk := by
  unfold State.checkLaunch
  extract_lets s1
  have h1 : s1.memOk := hs
  split
  · extract_lets p codes
    split
    · exact memOk_launchRecord h1 ..
    split
    · exact h1
    · exact memOk_startGrid h1 ..
  · split
    · exact memOk_launchRecord h1 ..
    refine memOk_ite ?_ (memOk_startTask h1 ..)
    extract_lets va
    exact memOk_launchRecord h1 ..

theorem nextOk_execDeviceLaunchCheck {s : State} (hs : s.memOk) id : NextOk (execDeviceLaunchCheck id s) := by
  unfold execDeviceLaunchCheck
  split
  · exact nextOk_next (memOk_checkLaunch hs _)
  · exact nextOk_next hs

theorem State.memOk_fireCounter {s : State} (hs : s.memOk) d : (s.fireCounter d).memOk := by
  unfold State.fireCounter
  extract_lets s1
  have h1 : s1.memOk := hs
  split
  · exact h1
  · extract_lets l
    exact h1

theorem State.memOk_armCounter {s : State} (hs : s.memOk) t idx count task args :
    (s.armCounter t idx count task args).memOk := by
  unfold State.armCounter
  extract_lets s1
  have h1 : s1.memOk := by
    unfold s1
    split
    · exact memOk_dropChild hs _
    · exact hs
  split
  · exact h1
  extract_lets d s2
  have h2 : s2.memOk := h1
  exact memOk_ite (memOk_fireCounter h2 _) h2

theorem State.memOk_addCounter {s : State} (hs : s.memOk) asid idx x : (s.addCounter asid idx x).memOk := by
  unfold State.addCounter
  split
  · exact memOk_modCtx hs ..
  extract_lets d1 s1
  have h1 : s1.memOk := hs
  exact memOk_ite (memOk_fireCounter h1 _) h1

theorem nextOk_execDepcSet {s : State} (hs : s.memOk) m ctr a b task : NextOk (execDepcSet m ctr a b task s) := by
  unfold execDepcSet
  extract_lets ra
  refine nextOk_ite (nextOk_next (memOk_trapAll hs ..)) ?_
  refine nextOk_next (memOk_runThreads hs _ _ _ _ (fun _ _ h => h) ?_)
  intro _ _ _ h
  exact memOk_ite_fst h (memOk_ite_fst h (memOk_armCounter (memOk_commit h _) ..))

theorem nextOk_execDepcAdd {s : State} (hs : s.memOk) m ctr b : NextOk (execDepcAdd m ctr b s) := by
  unfold execDepcAdd
  refine nextOk_ite (nextOk_next (memOk_trapAll hs ..)) ?_
  refine nextOk_next (memOk_runThreads hs _ _ _ _ (fun _ _ h => h) ?_)
  intro _ _ _ h
  exact memOk_ite_fst h (memOk_addCounter (memOk_commit h _) ..)

theorem nextOk_execDepcArrive {s : State} (hs : s.memOk) m ctr : NextOk (execDepcArrive m ctr s) := by
  unfold execDepcArrive
  refine nextOk_ite (nextOk_next (memOk_trapAll hs ..)) ?_
  refine nextOk_next (memOk_runThreads hs _ _ _ _ (fun _ _ h => h) ?_)
  intro _ _ _ h
  exact memOk_ite_fst h (memOk_addCounter (memOk_commit h _) ..)

theorem nextOk_execChwait {s : State} (hs : s.memOk) m : NextOk (execChwait m s) := by
  unfold execChwait
  refine nextOk_next (memOk_runPlain hs _ (fun _ _ _ h => ?_))
  extract_lets ks
  exact memOk_ite_fst h h

/-! ### Tiles (Machine/Tiles) -/

theorem State.memOk_modTile {s : State} (hs : s.memOk) t x f : (s.modTile t x f).memOk := memOk_modBand hs ..

theorem nextOk_execTrsv {s : State} (hs : s.memOk) m tile af bf blk fills sc soff :
    NextOk (execTrsv m tile af bf blk fills sc soff s) := by
  unfold execTrsv
  refine nextOk_next (memOk_runPlain hs _ (fun _ _ _ h => ?_))
  split
  · exact h
  · exact memOk_ite_fst h (memOk_modTile h ..)

theorem State.memOk_zeroTile {s : State} (hs : s.memOk) core phys : (s.zeroTile core phys).memOk :=
  memOk_modCore hs ..

theorem nextOk_execTrel {s : State} (hs : s.memOk) m a : NextOk (execTrel m a s) := by
  unfold execTrel
  refine nextOk_next (memOk_runReads hs _ _ _ (fun _ _ _ h => ?_))
  extract_lets i
  split
  · exact h
  split
  · exact h
  · exact h
  extract_lets s1
  have h1 : s1.memOk := memOk_modTile h ..
  exact memOk_ite_fst h1 (memOk_ite_fst (memOk_modCore h1 ..) (memOk_zeroTile h1 ..))

theorem State.memOk_setTileBits {s : State} (hs : s.memOk) core phys pos w x :
    (s.setTileBits core phys pos w x).memOk :=
  memOk_modCore hs ..

/-! ### Engines (Machine/Engines) -/

theorem State.memOk_startOp {s : State} (hs : s.memOk) t pc cls regs hnd work skipped :
    (s.startOp t pc cls regs hnd work skipped).memOk :=
  hs

theorem State.memOk_retireOps {s : State} (hs : s.memOk) b t c : (s.retireOps b t c).memOk := hs

theorem State.memOk_completeOp {s : State} (hs : s.memOk) o : (s.completeOp o).memOk :=
  memOk_retireOps (memOk_modOp hs ..) ..

theorem State.memOk_engMiss {s : State} (hs : s.memOk) o va : (s.engMiss o va).memOk := by
  unfold State.engMiss
  extract_lets s1
  have h1 : s1.memOk := memOk_countMiss hs ..
  split
  · exact memOk_fillTlb h1 ..
  split
  next s2 _ e =>
  have h2 := memOk_fst_of_eq e (memOk_joinWalk h1 ..)
  exact memOk_modOp h2 ..

theorem State.memOk_makeRoom {s : State} (hs : s.memOk) o l : (s.makeRoom o l).memOk := by
  unfold State.makeRoom
  split
  · exact hs
  split
  · exact memOk_ite hs (memOk_roomL1 (memOk_invalL1 hs ..) _)
  · exact memOk_roomL1 hs _

theorem State.memOk_uncounted {s : State} (hs : s.memOk) old o : (s.uncounted old o).memOk :=
  memOk_modCore hs ..

theorem State.memOk_engReadAt {s : State} (hs : s.memOk) o l n : (s.engReadAt o l n).1.memOk := by
  unfold State.engReadAt
  extract_lets s1
  have h1 : s1.memOk := memOk_makeRoom hs ..
  split
  next s2 _ _ e =>
  have h2 := memOk_fst_of_eq e (memOk_readSite h1 ..)
  exact memOk_uncounted h2 ..

theorem State.memOk_engWriteAt {s : State} (hs : s.memOk) o l n x : (s.engWriteAt o l n x).memOk := by
  unfold State.engWriteAt
  extract_lets s1
  have h1 : s1.memOk := memOk_makeRoom hs ..
  exact memOk_uncounted (memOk_writeSite (memOk_logWrite h1 ..) ..) ..

theorem State.memOk_engReadParts {s : State} (hs : s.memOk) o bench ps : (s.engReadParts o bench ps).1.memOk := by
  induction ps generalizing s with
  | nil => exact hs
  | cons p r ih =>
    unfold State.engReadParts
    split
    · exact hs
    · split
      next s1 _ _ e =>
      have h1 := memOk_fst_of_eq e (memOk_engReadAt hs ..)
      split
      · exact h1
      · have h2 := ih h1
        split
        · next e2 => exact memOk_fst_of_eq e2 h2
        · next e2 => exact memOk_fst_of_eq e2 h2

theorem State.memOk_engRead {s : State} (hs : s.memOk) o x n : (s.engRead o x n).1.memOk :=
  memOk_engReadParts hs ..

theorem State.memOk_engStore {s : State} (hs : s.memOk) o ls bs : (s.engStore o ls bs).memOk := by
  induction ls generalizing s bs with
  | nil => exact hs
  | cons p r ih => exact ih (memOk_engWriteAt hs ..) _

theorem State.memOk_engWrite {s : State} (hs : s.memOk) o x bs : (s.engWrite o x bs).1.memOk := by
  unfold State.engWrite
  split
  · exact hs
  · exact memOk_engStore hs ..

theorem State.memOk_engBits {s : State} (hs : s.memOk) o bench pos w : (s.engBits o bench pos w).1.memOk := by
  unfold State.engBits
  split
  · next e => exact memOk_fst_of_eq e (memOk_engRead hs ..)
  · next e => exact memOk_fst_of_eq e (memOk_engRead hs ..)

theorem State.memOk_engOld {s : State} (hs : s.memOk) o ls : (s.engOld o ls).1.memOk := by
  induction ls generalizing s with
  | nil => exact hs
  | cons p r ih => exact ih (memOk_engReadAt hs ..)

theorem State.memOk_setEngBits {s : State} (hs : s.memOk) o bench pos w x : (s.setEngBits o bench pos w x).1.memOk := by
  unfold State.setEngBits
  extract_lets n
  split
  · exact hs
  refine memOk_ite_fst (memOk_engStore hs ..) ?_
  split
  next s2 _ e =>
  have h2 := memOk_fst_of_eq e (memOk_engOld hs ..)
  exact memOk_engStore h2 ..

theorem State.memOk_suspendOp {s : State} (hs : s.memOk) o kind why va wr idx :
    (s.suspendOp o kind why va wr idx).memOk := by
  unfold State.suspendOp
  extract_lets stat cf s1
  have h1 : s1.memOk := memOk_modCtx (memOk_modOp hs ..) ..
  exact memOk_raiseAsync h1 ..

theorem State.memOk_issueOp {s : State} (hs : s.memOk) t pc cls regs hnd visible skipped w :
    (s.issueOp t pc cls regs hnd visible skipped w).1.memOk := by
  unfold State.issueOp
  split
  · exact hs
  · exact memOk_ite_fst hs (memOk_startOp (memOk_ite (memOk_commit hs _) hs) ..)

theorem nextOk_execCpy {s : State} (hs : s.memOk) m tag d sg a b val : NextOk (execCpy m tag d sg a b val s) := by
  unfold execCpy
  extract_lets bu regs work go
  have hgo : ∀ v s t skipped, s.memOk → (go v s t skipped).1.memOk := by
    intro _ _ _ _ h
    unfold go
    exact memOk_issueOp h ..
  exact nextOk_next (memOk_runThreads hs _ _ _ _ (fun _ _ h => hgo _ _ _ _ h) (fun _ _ _ h => hgo _ _ _ _ h))

theorem nextOk_execGath {s : State} (hs : s.memOk) m d sg a b rb : NextOk (execGath m d sg a b rb s) := by
  unfold execGath
  extract_lets bu ra len work go
  have hgo : ∀ v s t skipped, s.memOk → (go v s t skipped).1.memOk := by
    intro _ _ _ _ h
    unfold go
    exact memOk_issueOp h ..
  exact nextOk_next (memOk_runThreads hs _ _ _ _ (fun _ _ h => hgo _ _ _ _ h) (fun _ _ _ h => hgo _ _ _ _ h))

theorem State.memOk_moveRow {s : State} (hs : s.memOk) o src n dst pad : (s.moveRow o src n dst pad).1.memOk := by
  unfold State.moveRow
  split
  · exact memOk_engWrite hs ..
  split
  · next e => exact memOk_fst_of_eq e (memOk_engRead hs ..)
  next s1 _ e =>
  have h1 := memOk_fst_of_eq e (memOk_engRead hs ..)
  exact memOk_engWrite h1 ..

theorem State.memOk_loadElem {s : State} (hs : s.memOk) o l bench i : (s.loadElem o l bench i).1.memOk := by
  unfold State.loadElem
  extract_lets w i0 n
  split
  · exact memOk_engBits hs ..
  · split
    · next e => exact memOk_fst_of_eq e (memOk_engBits hs ..)
    next s2 _ e =>
    have h2 := memOk_fst_of_eq e (memOk_engBits hs ..)
    split
    · next e1 => exact memOk_fst_of_eq e1 (memOk_engBits h2 ..)
    · next e1 => exact memOk_fst_of_eq e1 (memOk_engBits h2 ..)
  · split
    · next e => exact memOk_fst_of_eq e (memOk_engBits hs ..)
    next s2 _ e =>
    have h2 := memOk_fst_of_eq e (memOk_engBits hs ..)
    refine memOk_ite_fst h2 ?_
    refine memOk_ite_fst ?_ h2
    extract_lets r
    split
    · next e1 => exact memOk_fst_of_eq e1 (memOk_engBits h2 ..)
    · next e1 => exact memOk_fst_of_eq e1 (memOk_engBits h2 ..)

theorem State.memOk_tileIssue {s : State} (hs : s.memOk) t x : (s.tileIssue t x).memOk := by
  unfold State.tileIssue
  split
  · exact hs
  · exact memOk_modTile hs ..

theorem nextOk_execTcpy {s : State} (hs : s.memOk) m dir g a hnd tile bg tag dc tr :
    NextOk (execTcpy m dir g a hnd tile bg tag dc tr s) := by
  unfold execTcpy
  extract_lets bu ra args toMem go
  have hgo : ∀ v s t skipped, s.memOk → (go v s t skipped).1.memOk := by
    intro _ _ _ _ h
    unfold go
    extract_lets x
    split
    · next s1 e =>
      have h1 := memOk_fst_of_eq e (memOk_issueOp h ..)
      exact memOk_tileIssue h1 ..
    · exact memOk_issueOp h ..
  exact nextOk_next (memOk_runThreads hs _ _ _ _ (fun _ _ h => hgo _ _ _ _ h) (fun _ _ _ h => hgo _ _ _ _ h))

theorem State.memOk_moveElem {s : State} (hs : s.memOk) o l dir tr org memBench tile bench q :
    (s.moveElem o l dir tr org memBench tile bench q).1.memOk := by
  unfold State.moveElem
  extract_lets i inn w e core phys mpos
  have hload : (if inn then s.loadElem o l memBench i else (s, .ok l.fill)).1.memOk := by
    split
    · exact memOk_loadElem hs ..
    · exact hs
  split
  case h_1 | h_2 =>
    split
    next e =>
    have h1 := memOk_fst_of_eq e hload
    split
    · exact h1
    · split
      · exact memOk_setTileBits h1 ..
      · exact memOk_setEngBits h1 ..
  case h_3 =>
    split
    · exact hs
    · split
      split
      · exact hs
      · exact memOk_setEngBits hs ..
  case h_4 =>
    split
    · exact hs
    · have h1 := memOk_engBits hs o true (8 * bench + l.place .benchToMem tr e q) w
      split
      · next e => exact memOk_fst_of_eq e h1
      · next e => exact memOk_setEngBits (memOk_fst_of_eq e h1) ..

/-- Moving elements keeps the form where moving one does. -/
theorem State.memOk_moveElems {step : State → Nat → State × Option Halt} (hstep : ∀ s q, s.memOk → (step s q).1.memOk)
    {s : State} (hs : s.memOk) n q : (moveElems step n q s).1.memOk := by
  induction n generalizing s q with
  | zero => exact hs
  | succ n ih =>
    unfold moveElems
    split
    · next e => exact ih (memOk_fst_of_eq e (hstep s q hs)) _
    · next e => exact memOk_fst_of_eq e (hstep s q hs)

theorem State.memOk_nmcCaches {s : State} (hs : s.memOk) t g base len drop : (s.nmcCaches t g base len drop).memOk := by
  unfold State.nmcCaches
  extract_lets cores lines s1
  have h1 : s1.memOk := memOk_foldl _ (fun _ _ h => memOk_foldl _ (fun _ _ h1 => memOk_writeDownL1 h1 ..) _ h) _ hs
  refine memOk_ite (memOk_invalRange hs ..) ?_
  exact memOk_foldl _ (fun _ _ h => memOk_foldl _ (fun _ _ h2 => memOk_writeDownL2 h2 ..) _ h) _ h1

theorem State.memOk_nmcFlush {s : State} (hs : s.memOk) t d sg rg w : (s.nmcFlush t d sg rg w).memOk := by
  unfold State.nmcFlush
  split
  · extract_lets s1 s2
    have h1 : s1.memOk := memOk_ite hs (memOk_nmcCaches hs ..)
    have h2 : s2.memOk := memOk_nmcCaches h1 ..
    split
    · exact memOk_ite h2 (memOk_nmcCaches h2 ..)
    · exact h2
  · exact hs

theorem nextOk_execNmc {s : State} (hs : s.memOk) m op d sg rg fmt a : NextOk (execNmc m op d sg rg fmt a s) := by
  unfold execNmc
  extract_lets bu ra regs work go
  have hgo : ∀ v s t skipped, s.memOk → (go v s t skipped).1.memOk := by
    intro v s t skipped h
    unfold go
    extract_lets w
    clear_value w
    have hissue := memOk_issueOp h t bu.pc .nearmem regs 0 true skipped w
    split
    · next e =>
      have h1 := memOk_fst_of_eq e hissue
      dsimp only
      split
      · exact memOk_ite h1 (memOk_nmcFlush h1 ..)
      · exact h1
    · exact hissue
  exact nextOk_next (memOk_runThreads hs _ _ _ _ (fun _ _ h => hgo _ _ _ _ h) fun _ _ _ h => hgo _ _ _ _ h)

theorem State.memOk_nmcPut {s : State} (hs : s.memOk) o pa bs : (s.nmcPut o pa bs).memOk := by
  unfold State.nmcPut
  extract_lets here s1 s2
  have h1 : s1.memOk := memOk_modOp hs ..
  have h2 : s2.memOk := memOk_setHomeBytes h1 ..
  exact h2

theorem State.memOk_nmcLine {s : State} (hs : s.memOk) o op f fill k src dst :
    (s.nmcLine o op f fill k src dst).1.memOk := by
  unfold State.nmcLine
  split
  · exact hs
  split
  · exact hs
  extract_lets here from_
  refine memOk_ite_fst hs ?_
  refine memOk_ite_fst hs ?_
  split
  · exact memOk_nmcPut hs ..
  · exact memOk_nmcPut hs ..
  · exact memOk_modOp hs ..
  · exact memOk_nmcPut hs ..

theorem State.memOk_nmcResult {s : State} (hs : s.memOk) o res : (s.nmcResult o res).1.memOk := by
  unfold State.nmcResult
  extract_lets x
  split
  · exact hs
  refine memOk_ite_fst (memOk_engWrite hs ..) ?_
  split
  · exact hs
  · exact memOk_setHomeBytes hs ..

theorem State.memOk_runNmc {s : State} (hs : s.memOk) o op f src dst n fill res done :
    (s.runNmc o op f src dst n fill res done).1.memOk := by
  unfold State.runNmc
  extract_lets step
  have htep : ∀ s k, s.memOk → (step s k).1.memOk := by
    intro _ _ h
    unfold step
    exact memOk_ite_fst h (memOk_nmcLine h ..)
  split
  · next e => exact memOk_fst_of_eq e (memOk_moveElems htep hs ..)
  next s1 _ e =>
  have h1 := memOk_fst_of_eq e (memOk_moveElems htep hs ..)
  split
  next e1 => exact memOk_fst_of_eq e1 (memOk_nmcResult h1 ..)

theorem State.memOk_opDone {s : State} (hs : s.memOk) o k : (s.opDone o k).memOk := memOk_modOp hs ..

theorem State.memOk_runColl {s : State} (hs : s.memOk) o src dst len : (s.runColl o src dst len).1.memOk := by
  unfold State.runColl
  refine memOk_ite_fst ?_ ?_
  · split
    · next e => exact memOk_fst_of_eq e (memOk_engRead hs ..)
    · next e => exact memOk_fst_of_eq e (memOk_engRead hs ..)
  · split
    · split
      · exact memOk_engWrite hs ..
      · exact hs
    · exact hs

theorem State.memOk_runOp {s : State} (hs : s.memOk) o : (s.runOp o).1.memOk := by
  unfold State.runOp
  split
  · split
    next e => exact memOk_fst_of_eq e (memOk_moveRow hs ..)
  · split
    next e => exact memOk_fst_of_eq e (memOk_moveRow hs ..)
  · extract_lets l x
    exact memOk_moveElems (fun _ _ h => memOk_moveElem h ..) hs ..
  · exact memOk_runNmc (memOk_nmcFlush hs ..) ..
  · split
    next e => exact memOk_fst_of_eq e (memOk_runColl hs ..)
  · exact hs

theorem State.memOk_endOp {s : State} (hs : s.memOk) o : (s.endOp o).memOk := by
  unfold State.endOp
  extract_lets s1
  have h1 : s1.memOk := by
    unfold s1
    split
    · extract_lets s2
      have h2 : s2.memOk := by
        unfold s2
        split
        · exact memOk_modTile hs ..
        · exact memOk_modTile hs ..
        · exact hs
      split
      · exact memOk_ite h2 (memOk_addCounter h2 ..)
      · exact h2
    · exact hs
  exact memOk_completeOp h1 _

theorem State.memOk_finishOp {s : State} (hs : s.memOk) o : (s.finishOp o).memOk := by
  unfold State.finishOp
  refine memOk_ite (memOk_endOp hs _) ?_
  refine memOk_ite hs ?_
  split
  · next s1 _ e =>
    have h1 := memOk_fst_of_eq e (memOk_runOp hs _)
    exact memOk_endOp h1 _
  · exact hs
  · next s1 _ _ e =>
    have h1 := memOk_fst_of_eq e (memOk_runOp hs _)
    exact memOk_engMiss (memOk_opDone h1 ..) ..
  next s1 _ e =>
  have h1 := memOk_fst_of_eq e (memOk_runOp hs _)
  exact memOk_consumeUe h1 _

theorem State.memOk_faultOp {s : State} (hs : s.memOk) o : (s.faultOp o).memOk := by
  unfold State.faultOp
  refine memOk_ite hs ?_
  split
  · next s1 _ _ _ _ _ e =>
    have h1 := memOk_fst_of_eq e (memOk_runOp hs _)
    exact memOk_suspendOp (memOk_opDone h1 ..) ..
  · exact hs

theorem nextOk_execCpyComplete {s : State} (hs : s.memOk) op : NextOk (execCpyComplete op s) := by
  unfold execCpyComplete
  split
  · exact nextOk_next (memOk_ite (memOk_finishOp hs _) hs)
  · exact nextOk_next hs

theorem nextOk_execGathComplete {s : State} (hs : s.memOk) op : NextOk (execGathComplete op s) := by
  unfold execGathComplete
  split
  · exact nextOk_next (memOk_ite (memOk_finishOp hs _) hs)
  · exact nextOk_next hs

theorem nextOk_execTcpyComplete {s : State} (hs : s.memOk) op : NextOk (execTcpyComplete op s) := by
  unfold execTcpyComplete
  split
  · exact nextOk_next (memOk_ite (memOk_finishOp hs _) hs)
  · exact nextOk_next hs

theorem nextOk_execNmcComplete {s : State} (hs : s.memOk) op : NextOk (execNmcComplete op s) := by
  unfold execNmcComplete
  split
  · exact nextOk_next (memOk_ite (memOk_finishOp hs _) hs)
  · exact nextOk_next hs

theorem nextOk_execCopyFault {s : State} (hs : s.memOk) op : NextOk (execCopyFault op s) := by
  unfold execCopyFault
  split
  · exact nextOk_next (memOk_faultOp hs _)
  · exact nextOk_next hs

/-! ### The matrix engine (Machine/Matrix) -/

theorem State.memOk_setConv {s : State} (hs : s.memOk) b c x : (s.setConv b c x).memOk := memOk_modBand hs ..

theorem State.memOk_noteCset {s : State} (hs : s.memOk) t pc npc c mask : (s.noteCset t pc npc c mask).memOk :=
  hs

theorem State.memOk_setMembers {s : State} (hs : s.memOk) t c mask : (s.setMembers t c mask).memOk :=
  memOk_setConv hs ..

theorem State.memOk_applyCset {s : State} (hs : s.memOk) n : (s.applyCset n).memOk := by
  unfold State.applyCset
  extract_lets r
  have hr : r.1.memOk := by
    unfold r
    refine memOk_foldl_fst _ ?_ _ hs
    intro _ _ h
    exact memOk_ite_fst h (memOk_setMembers h ..)
  exact memOk_raiseAll hr ..

theorem State.memOk_issueRound {s : State} (hs : s.memOk) v t ck m zi dec a x col ru :
    (s.issueRound v t ck m zi dec a x col ru).memOk := by
  unfold State.issueRound
  extract_lets c xm taken members r e s1 s2
  have h1 : s1.memOk := memOk_clearFlags hs ..
  have h2 : s2.memOk := memOk_ite h1 (memOk_foldl _ (fun _ _ h => memOk_foldl _ (fun _ _ h2 => memOk_modTroop h2 ..) _ h) _ h1)
  exact memOk_modCore (memOk_setConv h2 ..) ..

theorem nextOk_execMma {s : State} (hs : s.memOk) m zi dec a tile col ck ru :
    NextOk (execMma m zi dec a tile col ck ru s) := by
  unfold execMma
  extract_lets bu w rel
  refine nextOk_next (memOk_runPlain hs _ (fun _ _ _ h => ?_))
  extract_lets c c1 s1 c2
  have h1 : s1.memOk := memOk_ite h (memOk_startOp h ..)
  refine memOk_ite_fst h ?_
  refine memOk_ite_fst h ?_
  refine memOk_ite_fst h ?_
  refine memOk_ite_fst h ?_
  refine memOk_ite_fst (memOk_setFlag (memOk_setConv h1 ..) ..) ?_
  split
  · exact memOk_setConv h1 ..
  · exact memOk_ite_fst (memOk_setConv h1 ..) (memOk_ite_fst h (memOk_issueRound (memOk_setConv h1 ..) ..))

theorem State.memOk_exitRound {s : State} (hs : s.memOk) b ck : (s.exitRound b ck).memOk := by
  unfold State.exitRound
  extract_lets c s1 s2
  have h1 : s1.memOk := memOk_setConv (memOk_dropFlags hs _) ..
  have h2 : s2.memOk := h1
  split
  · extract_lets t
    split
    · exact memOk_ite (memOk_consumeUe hs _) (memOk_issueRound hs ..)
    · exact memOk_raiseAsync h2 ..
  · exact hs

theorem State.memOk_exitRounds {s : State} (hs : s.memOk) bs : (s.exitRounds bs).memOk :=
  memOk_foldl _ (fun _ _ h => memOk_foldl _ (fun _ _ h1 => memOk_exitRound h1 ..) _ h) _ hs

theorem State.memOk_queueMatrix {s : State} (hs : s.memOk) t pc w : (s.queueMatrix t pc w).memOk :=
  memOk_modCore (memOk_startOp hs ..) ..

theorem nextOk_execAccrd {s : State} (hs : s.memOk) m df r satf d col nr zr :
    NextOk (execAccrd m df r satf d col nr zr s) := by
  unfold execAccrd
  extract_lets bu
  refine nextOk_next (memOk_runPlain hs _ (fun _ _ _ h => ?_))
  refine memOk_ite_fst h ?_
  refine memOk_ite_fst h ?_
  split
  · exact h
  next s1 e =>
  have h1 := memOk_take h e
  exact memOk_setFlag (memOk_queueMatrix h1 ..) ..

theorem nextOk_execAccwrReg {s : State} (hs : s.memOk) m sf a col nr add : NextOk (execAccwrReg m sf a col nr add s) := by
  unfold execAccwrReg
  extract_lets bu ra
  refine nextOk_next ?_
  exact memOk_runReads hs _ _ _ (fun _ _ _ h => memOk_ite_fst h (memOk_ite_fst h (memOk_queueMatrix h ..)))

theorem nextOk_execAccwrTile {s : State} (hs : s.memOk) m tile col row0 add :
    NextOk (execAccwrTile m tile col row0 add s) := by
  unfold execAccwrTile
  extract_lets bu
  refine nextOk_next (memOk_runPlain hs _ (fun _ _ _ h => ?_))
  split
  · exact h
  · refine memOk_ite_fst h ?_
    exact memOk_ite_fst h (memOk_ite_fst h (memOk_ite_fst h (memOk_ite_fst h (memOk_queueMatrix h ..))))

theorem State.memOk_suspects {s : State} (hs : s.memOk) core r xs : (s.suspects core r xs).memOk := by
  unfold State.suspects
  split
  · extract_lets asid s1 s2
    have h1 : s1.memOk := memOk_modCore hs ..
    have h2 : s2.memOk := memOk_modThread h1 ..
    exact memOk_ite (memOk_raiseAsync h2 ..) h2
  · exact hs

theorem State.memOk_mmaCell core r b data {acc : State × List (Nat × Nat × Nat)} (h : acc.1.memOk) p :
    (State.mmaCell core r b data acc p).1.memOk := by
  unfold State.mmaCell
  split
  · exact h
  · exact memOk_modCore h ..

theorem State.memOk_mmaExecute {s : State} (hs : s.memOk) core r : (s.mmaExecute core r).memOk := by
  unfold State.mmaExecute
  split
  · exact hs
  · exact memOk_suspects (memOk_foldl_fst _ (fun _ _ h => memOk_mmaCell _ _ _ _ h _) _ hs) ..

theorem State.memOk_readAcc {s : State} (hs : s.memOk) core op t df r satf d col nr zr :
    (s.readAcc core op t df r satf d col nr zr).memOk := by
  unfold State.readAcc
  split
  · extract_lets w cols conv1 bits ws s1
    have h1 : s1.memOk := memOk_clearFlags (memOk_writeRegs hs ..) ..
    exact memOk_ite (memOk_consumeUe (memOk_dropFlags hs _) _) (memOk_ite (memOk_modCore h1 ..) h1)
  · exact hs

theorem State.memOk_writeAcc {s : State} (hs : s.memOk) core t sf col add vals :
    (s.writeAcc core t sf col add vals).memOk := by
  unfold State.writeAcc
  split
  · exact hs
  · extract_lets x
    exact memOk_foldl _ (fun _ _ h => memOk_modCore h ..) _ hs

theorem State.memOk_writeAccTile {s : State} (hs : s.memOk) core t e data col row0 add :
    (s.writeAccTile core t e data col row0 add).memOk := by
  unfold State.writeAccTile
  split
  · exact hs
  extract_lets one
  have hone : ∀ s k n, s.memOk → (one s k n).memOk := by
    intro _ _ _ h
    unfold one
    extract_lets sb x
    exact memOk_modCore h ..
  exact memOk_foldl _ (fun _ _ h => memOk_foldl _ (fun _ _ h1 => hone _ _ _ h1) _ h) _ hs

theorem State.memOk_entryDone {s : State} (hs : s.memOk) op : (s.entryDone op).memOk := by
  unfold State.entryDone
  split
  · exact memOk_completeOp hs _
  · exact hs

theorem State.memOk_performEntry {s : State} (hs : s.memOk) core c e : (s.performEntry core c e).memOk := by
  unfold State.performEntry
  extract_lets s0
  have h0 : s0.memOk := memOk_modCore hs ..
  split
  · extract_lets u s1
    have h1 : s1.memOk := memOk_modCore h0 ..
    refine memOk_ite hs ?_
    refine memOk_ite (memOk_ite hs (memOk_modCore hs ..)) ?_
    exact memOk_ite (memOk_consumeUe h1 _) (memOk_entryDone (memOk_mmaExecute h1 ..) _)
  · exact memOk_entryDone (memOk_readAcc h0 ..) _
  · exact memOk_entryDone (memOk_writeAcc h0 ..) _
  · exact memOk_entryDone (memOk_writeAccTile h0 ..) _

theorem nextOk_execMatrixEntryPerform {s : State} (hs : s.memOk) core : NextOk (execMatrixEntryPerform core s) := by
  unfold execMatrixEntryPerform
  split
  · split
    · exact nextOk_next (memOk_performEntry hs ..)
    · exact nextOk_next hs
  · exact nextOk_next hs

theorem nextOk_execGovernorWindow {s : State} (hs : s.memOk) core : NextOk (execGovernorWindow core s) := by
  unfold execGovernorWindow
  split
  · exact nextOk_next (memOk_ite (memOk_modCore hs ..) hs)
  · exact nextOk_next hs

/-! ### Collectives (Machine/Coll) -/

theorem nextOk_execColl {s : State} (hs : s.memOk) m cross opr fmc lenu npm sg d a :
    NextOk (execColl m cross opr fmc lenu npm sg d a s) := by
  unfold execColl
  extract_lets bu ra work go
  have hgo : ∀ v s t skipped, s.memOk → (go v s t skipped).1.memOk := by
    intro _ _ _ _ h
    unfold go
    exact memOk_issueOp h ..
  refine nextOk_ite (nextOk_next (memOk_runPlain hs _ (fun _ _ _ h => h))) ?_
  refine nextOk_ite (nextOk_next (memOk_runPlain hs _ (fun _ _ _ h => h))) ?_
  exact nextOk_next (memOk_runThreads hs _ _ _ _ (fun _ _ h => hgo _ _ _ _ h) (fun _ _ _ h => hgo _ _ _ _ h))

theorem State.memOk_failInput {s : State} (hs : s.memOk) ck op : (s.failInput ck op).memOk := by
  unfold State.failInput
  split
  · exact hs
  extract_lets s1
  have h1 : s1.memOk := memOk_completeOp hs _
  exact memOk_ite h1 (memOk_raiseAsync h1 ..)

theorem State.memOk_discardMail {s : State} (hs : s.memOk) c : (s.discardMail c).memOk := hs

theorem State.memOk_tellPeers {s : State} (hs : s.memOk) c group n : (s.tellPeers c group n).memOk := hs

theorem State.memOk_failChunk {s : State} (hs : s.memOk) c kind hop modnum : (s.failChunk c kind hop modnum).memOk := by
  unfold State.failChunk
  extract_lets ck seq s1 s2 s3
  have h1 : s1.memOk := memOk_modCtx (memOk_faultRecord hs ..) ..
  have h2 : s2.memOk := memOk_discardMail (by exact h1) _
  have h3 : s3.memOk := memOk_ite (memOk_tellPeers h2 ..) h2
  exact memOk_foldl _ (fun _ _ h => memOk_failInput h ..) _ h3

theorem State.memOk_setSlot {s : State} (hs : s.memOk) c : (s.setSlot c).memOk := hs

theorem State.memOk_deliverInput {s : State} (hs : s.memOk) op data : (s.deliverInput op data).1.memOk := by
  unfold State.deliverInput
  split
  · exact hs
  split
  · refine memOk_ite_fst (memOk_endOp hs _) ?_
    refine memOk_ite_fst hs ?_
    split
    · next s1 e =>
      have h1 := memOk_fst_of_eq e (memOk_engWrite hs ..)
      exact memOk_endOp h1 _
    · exact hs
  · exact hs

theorem State.memOk_deliverAll data ops {s : State} (hs : s.memOk) : (State.deliverAll data ops s).1.memOk := by
  induction ops generalizing s with
  | nil => exact hs
  | cons op r ih =>
    unfold State.deliverAll
    split
    · next e => exact ih (memOk_fst_of_eq e (memOk_deliverInput hs ..))
    · exact hs

theorem State.memOk_deliver {s : State} (hs : s.memOk) c data : (s.deliver c data).memOk := by
  unfold State.deliver
  split
  · next e =>
    have h1 := memOk_fst_of_eq e (memOk_deliverAll _ _ hs)
    exact h1
  · exact memOk_engMiss hs ..
  · exact hs

theorem State.memOk_tryDeliver {s : State} (hs : s.memOk) c : (s.tryDeliver c).memOk := by
  unfold State.tryDeliver
  split
  · exact memOk_ite (memOk_deliver hs ..) hs
  · exact hs

theorem nextOk_execCollDeliver {s : State} (hs : s.memOk) slot bad : NextOk (execCollDeliver slot bad s) := by
  unfold execCollDeliver
  split
  · exact nextOk_next hs
  refine nextOk_ite (nextOk_next hs) ?_
  refine nextOk_ite (nextOk_next (memOk_tryDeliver hs _)) ?_
  split
  · exact nextOk_next (memOk_failChunk hs ..)
  extract_lets c1 s1 s2
  have h1 : s1.memOk := memOk_setSlot hs _
  have h2 : s2.memOk := memOk_ite (memOk_tellPeers h1 ..) h1
  exact nextOk_next (memOk_tryDeliver h2 _)

theorem State.memOk_takePartial {s : State} (hs : s.memOk) c a x port modnum out :
    (s.takePartial c a x port modnum out).memOk := by
  unfold State.takePartial
  extract_lets o
  refine memOk_ite (memOk_failChunk hs ..) ?_
  exact memOk_ite (memOk_failChunk hs ..) (memOk_ite (memOk_failChunk hs ..) (memOk_setSlot hs _))

theorem State.memOk_hear {s : State} (hs : s.memOk) m : (s.hear m).memOk := by
  unfold State.hear
  refine memOk_ite ?_ ?_
  · split <;> exact hs
  · split
    · exact hs
    split
    · exact hs
    · exact memOk_ite (memOk_takePartial hs ..) hs
    · extract_lets c1
      exact memOk_tryDeliver (memOk_setSlot hs _) _
    · extract_lets c1
      exact memOk_ite (memOk_failChunk hs ..) (memOk_setSlot hs _)

theorem State.memOk_openMail {s : State} (hs : s.memOk) i : (s.openMail i).memOk :=
  memOk_foldl _ (fun _ _ h => memOk_hear h _) _ (by exact hs)

theorem State.memOk_gathered {s : State} (hs : s.memOk) c out : (s.gathered c out).memOk := by
  unfold State.gathered
  split
  · exact memOk_failChunk hs ..
  · exact hs
  split
  refine memOk_ite (memOk_failChunk hs ..) ?_
  refine memOk_ite (memOk_failChunk hs ..) ?_
  extract_lets s1
  have h1 : s1.memOk := memOk_setSlot hs _
  exact memOk_ite (memOk_openMail (memOk_tellPeers h1 ..) _) h1

theorem State.memOk_joinSlot {s : State} (hs : s.memOk) c o x out : (s.joinSlot c o x out).memOk := by
  unfold State.joinSlot
  extract_lets s1 c1
  have h1 : s1.memOk := memOk_modOp hs ..
  exact memOk_ite (memOk_failChunk h1 ..) (memOk_ite (memOk_setSlot h1 _) (memOk_gathered h1 ..))

theorem State.memOk_egress {s : State} (hs : s.memOk) o : (s.egress o).memOk := by
  unfold State.egress
  split
  · refine memOk_ite hs ?_
    split
    · next s1 _ e =>
      have h1 := memOk_fst_of_eq e (memOk_engRead hs ..)
      exact memOk_modOp h1 ..
    · exact memOk_engMiss hs ..
    · exact hs
  · exact hs

theorem State.memOk_egressAll {s : State} (hs : s.memOk) : s.egressAll.memOk := by
  unfold State.egressAll
  refine memOk_foldl _ (fun _ _ h => ?_) _ hs
  split
  · exact memOk_egress h _
  · exact h

theorem State.memOk_arriveInput {s : State} (hs : s.memOk) o got out : (s.arriveInput o got out).memOk := by
  unfold State.arriveInput
  split
  · refine memOk_ite hs ?_
    extract_lets x i s1 c
    have h1 : s1.memOk := by
      unfold s1
      split
      · exact memOk_ite (memOk_failChunk hs ..) hs
      · exact hs
    split
    · exact memOk_joinSlot h1 ..
    · exact memOk_ite h1 (memOk_joinSlot (by exact h1) ..)
  · exact memOk_ite (memOk_endOp hs _) hs

theorem nextOk_execCollInputArrive {s : State} (hs : s.memOk) op got out : NextOk (execCollInputArrive op got out s) := by
  unfold execCollInputArrive
  split
  · exact nextOk_next (memOk_ite (memOk_arriveInput hs ..) hs)
  · exact nextOk_next hs

theorem nextOk_execCollTimeout {s : State} (hs : s.memOk) slot : NextOk (execCollTimeout slot s) := by
  unfold execCollTimeout
  split
  · exact nextOk_next hs
  · exact nextOk_next (memOk_ite (memOk_failChunk hs ..) hs)

/-! ### Control flow (Machine/Control) -/

theorem nextOk_execCall {s : State} (hs : s.memOk) m d off : NextOk (execCall m d off s) := by
  unfold execCall
  extract_lets b
  refine nextOk_next (memOk_runPlain hs _ (fun _ _ _ h => ?_))
  split
  · exact h
  next s1 e =>
  have h1 := memOk_take h e
  exact memOk_writeV h1 ..

theorem State.memOk_setMember {s : State} (hs : s.memOk) t r b : (s.setMember t r b).memOk :=
  memOk_modTroop (memOk_noteMasks hs ..) ..

theorem nextOk_execMatchKeys {s : State} (hs : s.memOk) m k64 d a b : NextOk (execMatchKeys m k64 d a b s) := by
  unfold execMatchKeys
  extract_lets src
  refine nextOk_next (memOk_runReads hs _ _ _ (fun _ _ _ h => ?_))
  extract_lets key
  split
  · exact h
  · next e => exact memOk_take h e

theorem nextOk_execVote {s : State} (hs : s.memOk) m form a b : NextOk (execVote m form a b s) := by
  unfold execVote
  refine nextOk_next (memOk_runPlain hs _ (fun _ _ _ h => ?_))
  extract_lets key
  split
  · exact h
  · exact h
  split
  · exact h
  · next e => exact memOk_take h e

theorem State.memOk_completeVote {s : State} (hs : s.memOk) vs : (s.completeVote vs).memOk := by
  unfold State.completeVote
  split
  · exact hs
  refine memOk_ite ?_ ?_
  · refine memOk_foldl _ (fun _ _ h => ?_) _ hs
    extract_lets s1
    have h1 : s1.memOk := memOk_writeRegs (memOk_release h ..) ..
    split
    · exact memOk_makeReady h1 ..
    · exact h1
  · extract_lets pcOf
    exact memOk_foldl _ (fun _ _ h => memOk_raiseAll h ..) _ hs

theorem State.memOk_examineMask {s : State} (hs : s.memOk) b t r : (s.examineMask b t r).memOk := by
  unfold State.examineMask
  extract_lets vs mask inside outside s1
  have h1 : s1.memOk := memOk_foldl _ (fun _ _ h => memOk_ite (memOk_completeVote h _) h) _ hs
  exact memOk_ite hs (memOk_ite (memOk_completeVote h1 _) h1)

theorem State.memOk_examineMasks {s : State} (hs : s.memOk) b t : (s.examineMasks b t).memOk :=
  memOk_foldl _ (fun _ _ h => memOk_examineMask h ..) _ hs

theorem nextOk_execNap {s : State} (hs : s.memOk) m n : NextOk (execNap m n s) := by
  unfold execNap
  refine nextOk_next (memOk_runPlain hs _ (fun _ _ _ h => ?_))
  extract_lets left s1
  have h1 : s1.memOk := memOk_modThread h ..
  exact memOk_ite_fst h1 h1

theorem nextOk_execNapExpire {s : State} (hs : s.memOk) t : NextOk (execNapExpire t s) := by
  unfold execNapExpire
  split
  · exact nextOk_next hs
  split
  · exact nextOk_next (memOk_ite (memOk_makeReady hs ..) hs)
  · exact nextOk_next hs

/-! ### Retirement (Machine/Ending) -/

theorem State.memOk_exitThread {s : State} (hs : s.memOk) t : (s.exitThread t).memOk :=
  memOk_endEvent (memOk_unqueue (memOk_dropConv (memOk_endThread hs _) ..) ..) ..

theorem nextOk_execExit {s : State} (hs : s.memOk) m : NextOk (execExit m s) := by
  unfold execExit
  extract_lets bands s1 x
  have h1 : s1.memOk := by
    unfold s1
    refine memOk_runThreads hs _ _ _ _ ?_ ?_
    · intro _ _ h
      exact memOk_exitThread h _
    · intro _ _ _ h
      exact memOk_ite_fst h (memOk_exitThread h _)
  exact nextOk_next (by exact h1)

theorem State.memOk_returnAct {s : State} (hs : s.memOk) t g : (s.returnAct t g).memOk := by
  unfold State.returnAct
  split
  · exact hs
  · extract_lets wait sig a
    exact memOk_modTroop (by exact hs) ..

theorem State.memOk_pairReturn {s : State} (hs : s.memOk) t u g : (s.pairReturn t u g).memOk := by
  unfold State.pairReturn
  extract_lets mine s1
  have h1 : s1.memOk := hs
  split
  · exact memOk_returnAct hs ..
  · exact memOk_ite hs (memOk_twinReturn (memOk_startReturn (memOk_commit h1 _) ..) ..)

theorem State.memOk_returnOne {s : State} (hs : s.memOk) t g killed : (s.returnOne t g killed).memOk := by
  unfold State.returnOne
  extract_lets r
  split
  · exact hs
  · exact memOk_emptyReg hs ..
  · exact memOk_emptyReg hs ..
  refine memOk_ite hs ?_
  refine memOk_ite ?_ (memOk_startReturn hs ..)
  split
  · exact memOk_startReturn (memOk_commit hs _) ..
  · exact memOk_ite (memOk_pairReturn hs ..) (memOk_ite hs (memOk_setReg (memOk_startReturn hs ..) ..))

theorem State.memOk_returnUnit {s : State} (hs : s.memOk) t gs killed : (s.returnUnit t gs killed).memOk := by
  unfold State.returnUnit
  refine memOk_foldl _ (fun _ _ h => ?_) _ hs
  split
  · exact h
  · exact memOk_returnOne h ..

theorem State.memOk_flushTroop {s : State} (hs : s.memOk) b t : (s.flushTroop b t).memOk := by
  unfold State.flushTroop
  extract_lets mine s1
  have h1 : s1.memOk := memOk_foldl _ (fun _ _ h => memOk_deliverAsync h _) _ hs
  exact h1

theorem State.memOk_retireTroop {s : State} (hs : s.memOk) b t : (s.retireTroop b t).memOk := by
  unfold State.retireTroop
  extract_lets s1 tid killed s2 core s3
  have h1 : s1.memOk := memOk_flushTroop hs ..
  have h2 : s2.memOk := memOk_returnUnit h1 ..
  have h3 : s3.memOk := by
    unfold s3
    split
    · exact memOk_freeSlot h2 ..
    · exact h2
  exact memOk_ite h1 (memOk_ite (memOk_progressTraps (memOk_modTroop h3 ..) _) h2)

theorem State.memOk_writeCompletion {s : State} (hs : s.memOk) g : (s.writeCompletion g).memOk := by
  unfold State.writeCompletion
  extract_lets cseq
  split
  · exact memOk_modCtx (memOk_writeWords hs ..) ..
  · exact hs
  · exact memOk_faultRecord hs ..

theorem State.memOk_finishGrid {s : State} (hs : s.memOk) id : (s.finishGrid id).memOk := by
  unfold State.finishGrid
  split
  · exact hs
  refine memOk_ite hs ?_
  extract_lets s1 s2
  have h1 : s1.memOk := memOk_ite (memOk_writeCompletion hs _) hs
  have h2 : s2.memOk := memOk_modGrid h1 ..
  split
  · exact memOk_dropChild h2 _
  · exact h2

theorem State.memOk_countRetired {s : State} (hs : s.memOk) b : (s.countRetired b).memOk := by
  unfold State.countRetired
  split
  · extract_lets other k
    exact memOk_ite hs (memOk_finishGrid (memOk_modGrid hs ..) _)
  split
  · exact memOk_dropChild hs _
  · exact hs

theorem State.memOk_lastStep {s : State} (hs : s.memOk) b : (s.lastStep b).memOk := by
  unfold State.lastStep
  split
  · exact hs
  · exact memOk_ite (memOk_countRetired (memOk_modBand hs ..) _) (memOk_modBand hs ..)

theorem State.memOk_retireBand {s : State} (hs : s.memOk) b : (s.retireBand b).memOk := by
  unfold State.retireBand
  split
  · exact hs
  · extract_lets tid s1 s2
    have h1 : s1.memOk := memOk_returnUnit hs ..
    clear_value s1
    refine memOk_ite ?_ h1
    have h2 : s2.memOk := h1
    exact memOk_lastStep (memOk_leaveCores (memOk_modBand (memOk_dropZero h2 _) ..) ..) _

theorem nextOk_execBandRetire {s : State} (hs : s.memOk) band : NextOk (execBandRetire band s) := by
  unfold execBandRetire
  split
  · exact nextOk_next hs
  split
  · exact nextOk_next (memOk_ite (memOk_retireBand hs _) hs)
  · exact nextOk_next (memOk_ite (memOk_retireBand hs _) hs)
  · exact nextOk_next (memOk_ite (memOk_lastStep hs _) hs)
  · exact nextOk_next hs

/-! ### The front end (Machine/Front) -/

theorem State.memOk_answer {s : State} (hs : s.memOk) c a : (s.answer c a).memOk := hs

/-- A management command keeps the form where what it does does. -/
theorem State.nextOk_command {s : State} (hs : s.memOk) {f : Cmd → State} (hf : ∀ c, (f c).memOk) : NextOk (s.command f) :=
  nextOk_next (memOk_ite hs (memOk_ite (memOk_answer hs ..) (hf _)))

theorem nextOk_execQueueSlotReread {s : State} (hs : s.memOk) q : NextOk (execQueueSlotReread q s) := by
  unfold execQueueSlotReread
  split
  · exact nextOk_next hs
  · exact nextOk_ite (nextOk_next (memOk_modQueue hs ..)) (nextOk_next hs)

theorem nextOk_execKickAheadTimeout {s : State} (hs : s.memOk) q : NextOk (execKickAheadTimeout q s) := by
  unfold execKickAheadTimeout
  split
  · exact nextOk_next hs
  split
  · exact nextOk_next hs
  · exact nextOk_ite (nextOk_next (memOk_modQueue hs ..)) (nextOk_next hs)

/-- A packet keeps the form where its acceptance does. -/
theorem State.memOk_consume {s : State} (hs : s.memOk) q p codes {accept : State → State}
    (ha : ∀ s, s.memOk → (accept s).memOk) : (s.consume q p codes accept).memOk := by
  unfold State.consume
  extract_lets s1
  have h1 : s1.memOk := by
    unfold s1
    split
    · exact memOk_modQueue hs ..
    · exact ha _ hs
  exact memOk_modQueue h1 ..

theorem nextOk_execNopPacket {s : State} (hs : s.memOk) q : NextOk (execNopPacket q s) := by
  unfold execNopPacket
  split
  · exact nextOk_ite (nextOk_next hs) (nextOk_next (memOk_consume hs _ _ _ (fun _ h => h)))
  · exact nextOk_next hs

theorem nextOk_execGridPacket {s : State} (hs : s.memOk) q : NextOk (execGridPacket q s) := by
  unfold execGridPacket
  split
  · refine nextOk_ite (nextOk_next hs) ?_
    extract_lets spec codes
    refine nextOk_next (memOk_consume hs _ _ _ (fun _ h => ?_))
    split
    · exact memOk_startGrid h ..
    · exact h
  · exact nextOk_next hs

theorem State.memOk_completeAt {s : State} (hs : s.memOk) cpl pa kind asid seq cut cseq :
    (s.completeAt cpl pa kind asid seq cut cseq).memOk :=
  memOk_ite (memOk_writeWords hs ..) hs

theorem nextOk_execCtxnew {s : State} (hs : s.memOk) q : NextOk (execCtxnew q s) := by
  unfold execCtxnew
  split
  · refine nextOk_ite (nextOk_next hs) ?_
    extract_lets c meets codes cpl
    refine nextOk_next (memOk_consume hs _ _ _ (fun _ h => ?_))
    extract_lets s1
    have h1 : s1.memOk := h
    exact memOk_completeAt h1 ..
  · exact nextOk_next hs

theorem State.memOk_stopCtx {s : State} (hs : s.memOk) asid : (s.stopCtx asid).memOk := hs

theorem State.memOk_killCtx {s : State} (hs : s.memOk) asid seq cpl pa : (s.killCtx asid seq cpl pa).memOk :=
  memOk_modCtx (memOk_stopCtx hs _) ..

theorem nextOk_execCtxkill {s : State} (hs : s.memOk) q : NextOk (execCtxkill q s) := by
  unfold execCtxkill
  split
  · refine nextOk_ite (nextOk_next hs) ?_
    extract_lets asid codes
    exact nextOk_next (memOk_consume hs _ _ _ (fun _ h => memOk_killCtx h ..))
  · exact nextOk_next hs

theorem State.memOk_wipe {s : State} (hs : s.memOk) asid base len : (s.wipe asid base len).memOk := by
  unfold State.wipe
  refine memOk_foldl _ (fun _ _ h => ?_) _ hs
  split
  · extract_lets line s1 s2
    have h1 : s1.memOk := memOk_publish (memOk_discardLines h ..) _
    have h2 : s2.memOk := h1
    exact memOk_setHomeBytes h2 ..
  · exact h

theorem State.memOk_reclaimHome {s : State} (hs : s.memOk) asid home : (s.reclaimHome asid home).memOk := by
  unfold State.reclaimHome
  split
  · exact hs
  extract_lets mine ids s1 h1 s2
  have h2 : s1.memOk := memOk_foldl _ (fun _ _ h => memOk_wipe h ..) _ hs
  have h3 : s2.memOk := h2
  exact memOk_examineHome (memOk_setHome h3 _) _

theorem State.memOk_forgetAsid {s : State} (hs : s.memOk) asid : (s.forgetAsid asid).memOk := hs

theorem nextOk_execReclaimWalkEnd {s : State} (hs : s.memOk) asid : NextOk (execReclaimWalkEnd asid s) := by
  unfold execReclaimWalkEnd
  split
  · exact nextOk_next hs
  split
  · exact nextOk_next hs
  extract_lets s1
  have h1 : s1.memOk := memOk_foldl _ (fun _ _ h => memOk_reclaimHome h ..) _ hs
  exact nextOk_next (memOk_completeAt (memOk_forgetAsid h1 _) ..)

theorem State.memOk_contFault {s : State} (hs : s.memOk) p reason check : (s.contFault p reason check).memOk := by
  unfold State.contFault
  extract_lets n k o s1
  have h1 : s1.memOk := memOk_faultRecord hs ..
  exact memOk_dropChild (by exact h1) _

theorem State.memOk_drain {s : State} (hs : s.memOk) p : (s.drain p).memOk := by
  unfold State.drain
  split
  · exact memOk_contFault hs ..
  · exact memOk_ite (memOk_contFault hs ..) (memOk_ite (memOk_contFault hs ..) (memOk_startTask hs ..))

theorem nextOk_execSliceQueueDrain {s : State} (hs : s.memOk) slice : NextOk (execSliceQueueDrain slice s) := by
  unfold execSliceQueueDrain
  split
  · exact nextOk_next (memOk_drain (by exact hs) _)
  · exact nextOk_next hs

theorem nextOk_execRingDrain {s : State} (hs : s.memOk) asid : NextOk (execRingDrain asid s) := by
  unfold execRingDrain
  split
  · refine nextOk_ite ?_ (nextOk_next hs)
    extract_lets s1
    have h1 : s1.memOk := hs
    exact nextOk_next (memOk_drain (memOk_modCtx h1 ..) _)
  · exact nextOk_next hs

/-! ### The scheduler (Machine/Sched) -/

theorem State.memOk_reboard {s : State} (hs : s.memOk) old : (s.reboard old).memOk :=
  memOk_foldl _ (fun _ _ h => memOk_ite (memOk_modThread h ..) h) _ hs

theorem State.memOk_retakeSlot {s : State} (hs : s.memOk) b t core x : (s.retakeSlot b t core x).memOk := by
  unfold State.retakeSlot
  split
  · exact hs
  · exact memOk_modTroop (memOk_modSlot hs ..) ..

theorem State.memOk_freshLines {s : State} (hs : s.memOk) b : (s.freshLines b).memOk :=
  memOk_foldl _ (fun _ _ h => memOk_foldl _ (fun _ _ h1 => memOk_invalL1 h1 ..) _ h) _ hs

theorem State.memOk_placeBand {s : State} (hs : s.memOk) id cores : (s.placeBand id cores).memOk := by
  unfold State.placeBand
  split
  · exact hs
  extract_lets c ks bm am tm tslot s1 b1 x s2 s3 gap s4 s5
  have h1 : s1.memOk := memOk_foldl _ (fun _ _ h => memOk_modCore h ..) _ hs
  have hx : x.memOk := memOk_modBand h1 ..
  have h2 : s2.memOk := hx
  have h3 : s3.memOk := by
    unfold s3
    split
    · exact h2
    · exact memOk_foldl _ (fun _ _ h => memOk_retakeSlot h ..) _ (memOk_restoreStores h2 ..)
  have h4 : s4.memOk := h3
  have h5 : s5.memOk := memOk_reboard (memOk_freshLines h4 _) _
  exact memOk_foldl _ (fun _ _ h => memOk_admitOverflow (memOk_progressTraps h _) _) _ h5

theorem State.memOk_placeUnit {s : State} (hs : s.memOk) id cores : (s.placeUnit id cores).memOk := by
  unfold State.placeUnit
  split
  · exact memOk_placeBand hs ..
  · exact memOk_placeBand (memOk_placeBand hs ..) ..

theorem State.memOk_askArgs {s : State} (hs : s.memOk) b : (s.askArgs b).memOk := by
  unfold State.askArgs
  split
  · exact hs
  extract_lets s1
  have h1 : s1.memOk := memOk_modGrid (memOk_next hs) ..
  exact memOk_startBorrow h1 ..

theorem nextOk_execBandPlace {s : State} (hs : s.memOk) band cores : NextOk (execBandPlace band cores s) := by
  unfold execBandPlace
  split
  · exact nextOk_next hs
  extract_lets n x y parts held
  refine nextOk_ite (nextOk_next hs) ?_
  split
  · exact nextOk_next (memOk_askArgs hs _)
  · exact nextOk_next hs
  · exact nextOk_next (memOk_placeUnit hs ..)

theorem State.memOk_preempt {s : State} (hs : s.memOk) b : (s.preempt b).memOk := by
  unfold State.preempt
  refine memOk_foldl _ (fun _ _ h => ?_) _ hs
  extract_lets s1
  have h1 : s1.memOk := by
    unfold s1
    refine memOk_foldl _ (fun _ _ h1 => ?_) _ h
    split
    · exact memOk_makeReady (memOk_leaveBundle h1 _) ..
    · exact h1
  exact memOk_modBand h1 ..

theorem State.memOk_writeBackBand {s : State} (hs : s.memOk) b : (s.writeBackBand b).memOk := by
  unfold State.writeBackBand
  extract_lets rs lines s1
  have h1 : s1.memOk := memOk_foldl _ (fun _ _ h => memOk_foldl _ (fun _ _ h1 => memOk_writeDownL1 h1 ..) _ h) _ hs
  exact memOk_foldl _ (fun _ _ h => memOk_foldl _ (fun _ _ h2 => memOk_invalL2 h2 ..) _ h) _ h1

theorem State.memOk_saveBand {s : State} (hs : s.memOk) id : (s.saveBand id).memOk := by
  unfold State.saveBand
  extract_lets s1
  have h1 : s1.memOk := memOk_landBand hs _
  split
  · exact hs
  extract_lets s2 x v s3 mig s4
  have h2 : s2.memOk := memOk_writeBackBand h1 _
  have h3 : s3.memOk := h2
  have h4 : s4.memOk := memOk_modBand h3 ..
  exact memOk_foldl _ (fun _ _ h => memOk_admitOverflow (memOk_progressTraps h _) _) _ (memOk_leaveCores h4 ..)

theorem State.memOk_without {s : State} (hs : s.memOk) b : (s.without b).memOk :=
  memOk_foldl _ (fun _ _ h => memOk_modBand h ..) _ hs

theorem State.memOk_modQuad {s : State} (hs : s.memOk) q f : (s.modQuad q f).memOk := hs

theorem State.memOk_decide {s : State} (hs : s.memOk) quad n : (s.decide quad n).memOk := by
  induction n generalizing s with
  | zero => exact hs
  | succ n ih =>
    unfold State.decide
    split
    · exact memOk_modQuad hs ..
    · exact ih (memOk_askArgs hs _)
    · exact ih (memOk_placeUnit hs ..)
    · exact memOk_modQuad (memOk_foldl _ (fun _ _ h => memOk_preempt h _) _ hs) ..

theorem State.memOk_ageBands {s : State} (hs : s.memOk) quad : (s.ageBands quad).memOk := hs

theorem State.memOk_endTurn {s : State} (hs : s.memOk) quad : (s.endTurn quad).memOk := by
  unfold State.endTurn
  extract_lets s1
  have h1 : s1.memOk := hs
  exact memOk_modQuad (memOk_ageBands h1 _) ..

theorem nextOk_execTurnBoundary {s : State} (hs : s.memOk) quad : NextOk (execTurnBoundary quad s) := by
  unfold execTurnBoundary
  split
  · exact nextOk_next hs
  refine nextOk_ite ?_ ?_
  · exact nextOk_ite (nextOk_next hs) (nextOk_next (memOk_decide hs ..))
  · exact nextOk_ite (nextOk_next (memOk_decide (memOk_endTurn hs _) ..)) (nextOk_next hs)

theorem State.memOk_migrate {s : State} (hs : s.memOk) b : (s.migrate b).memOk := by
  unfold State.migrate
  extract_lets go
  have hgo : ∀ s, s.memOk → (go s).memOk := by
    intro _ h
    unfold go
    exact memOk_ite h (memOk_preempt h _)
  refine memOk_ite hs ?_
  split
  · exact hgo _ hs
  · extract_lets mask
    exact memOk_ite (memOk_killBand hs ..) (hgo _ (memOk_foldl _ (fun _ _ h => memOk_modBand h ..) _ hs))

theorem nextOk_execRegsPoolPreempt {s : State} (hs : s.memOk) core : NextOk (execRegsPoolPreempt core s) := by
  unfold execRegsPoolPreempt
  extract_lets ts bs us pcs
  clear_value bs
  split
  · exact nextOk_next hs
  · split
    · exact nextOk_next (memOk_foldl _ (fun _ _ h => memOk_raiseAll h ..) _ hs)
    · split
      · exact nextOk_next (memOk_preempt hs _)
      · exact nextOk_next hs

/-! ### Formation, traps and errors (Machine/Events) -/

theorem State.memOk_formOne {s : State} (hs : s.memOk) core : (s.formOne core).memOk := by
  unfold State.formOne
  extract_lets ready pcOf
  split
  · exact hs
  extract_lets key mine ts b s1
  have h1 : s1.memOk := hs
  exact memOk_foldl _ (fun _ _ h => memOk_modThread h ..) _ h1

theorem nextOk_execFormationRound {s : State} (hs : s.memOk) core : NextOk (execFormationRound core s) := by
  unfold execFormationRound
  refine nextOk_ite ?_ (nextOk_next hs)
  extract_lets s1
  have h1 : s1.memOk := memOk_foldl _ (fun _ _ h => memOk_formOne h _) _ (memOk_admitOverflow hs _)
  exact nextOk_next (memOk_admitOverflow (memOk_modCore h1 ..) _)

theorem nextOk_execAsyncTrapDeliver {s : State} (hs : s.memOk) id : NextOk (execAsyncTrapDeliver id s) := by
  unfold execAsyncTrapDeliver
  split
  · exact nextOk_next hs
  refine nextOk_ite (nextOk_next (memOk_deliverAsync hs _)) ?_
  extract_lets there inside
  exact nextOk_ite (nextOk_next (memOk_deliverAsync hs _)) (nextOk_next hs)

theorem nextOk_execPairActCompare {s : State} (hs : s.memOk) act : NextOk (execPairActCompare act s) := by
  unfold execPairActCompare
  split
  · exact nextOk_next hs
  split
  · exact nextOk_next hs
  · exact nextOk_ite (nextOk_next hs) (nextOk_ite (nextOk_next (by exact hs)) (nextOk_next (memOk_diverge hs ..)))

theorem nextOk_execPairwaitTimeout {s : State} (hs : s.memOk) act : NextOk (execPairwaitTimeout act s) := by
  unfold execPairwaitTimeout
  split
  · exact nextOk_next hs
  · extract_lets there
    exact nextOk_ite (nextOk_next hs) (nextOk_next (memOk_diverge hs ..))

theorem State.memOk_poisonAt {s : State} (hs : s.memOk) a : (s.poisonAt a).memOk := by
  unfold State.poisonAt
  split
  · exact memOk_ite hs hs
  · exact memOk_modCore hs ..
  · exact memOk_modDie hs ..
  · exact memOk_modTroop hs ..
  · exact memOk_modSlot hs ..
  · exact memOk_modCore hs ..
  · extract_lets k
    exact memOk_modCore hs ..
  · extract_lets new
    exact memOk_modCore hs ..
  · exact memOk_killBand hs ..
  · exact hs

theorem State.memOk_trackPeers {s : State} (hs : s.memOk) : s.trackPeers.memOk := hs

theorem State.memOk_peerAtomicFails {s : State} (hs : s.memOk) t va : (s.peerAtomicFails t va).memOk := by
  unfold State.peerAtomicFails
  extract_lets stat s1
  have h1 : s1.memOk := memOk_modCtx hs ..
  exact memOk_raiseAsync h1 ..

theorem State.memOk_peerFails {s : State} (hs : s.memOk) id : (s.peerFails id).memOk := by
  unfold State.peerFails
  split
  · exact memOk_send (memOk_takeRefusal hs ..) ..
  · split
    · next s1 _ _ _ _ _ e =>
      have h1 := memOk_fst_of_eq e (memOk_runOp hs _)
      exact memOk_suspendOp (memOk_opDone h1 ..) ..
    · exact hs
  · extract_lets va
    exact memOk_peerAtomicFails (memOk_dropFlags (by exact hs) _) ..
  · exact memOk_peerAtomicFails (by exact hs) ..
  · exact memOk_failChunk hs ..
  · exact hs

theorem nextOk_execPeerTimeout {s : State} (hs : s.memOk) id : NextOk (execPeerTimeout id s) := by
  unfold execPeerTimeout
  split
  · exact nextOk_next hs
  · exact nextOk_ite (nextOk_next hs) (nextOk_next (memOk_peerFails hs _))

/-! ### The device and the host port (Machine/Device) -/

theorem State.memOk_setCtxReg {s : State} (hs : s.memOk) asid n v : (s.setCtxReg asid n v).memOk := by
  unfold State.setCtxReg
  split
  · exact memOk_modCtx hs ..
  · exact memOk_modCtx hs ..
  · exact memOk_setCtxCsr hs ..

theorem State.memOk_allCores {s : State} (hs : s.memOk) f : (s.allCores f).memOk := hs

theorem State.memOk_setModuleReg {s : State} (hs : s.memOk) off v : (s.setModuleReg off v).memOk := by
  unfold State.setModuleReg
  split
  · exact hs
  · exact hs
  · exact memOk_allCores hs _
  · exact memOk_allCores hs _
  · exact memOk_allCores hs _
  · exact hs
  · exact hs
  · exact hs
  · exact hs
  · exact hs
  · exact hs
  · exact hs

theorem State.memOk_dropTlbs {s : State} (hs : s.memOk) mode asid base len : (s.dropTlbs mode asid base len).memOk :=
  hs

theorem State.memOk_startInval {s : State} (hs : s.memOk) c ctl : (s.startInval c ctl).memOk :=
  memOk_ite (memOk_answer hs ..) (memOk_dropTlbs (by exact hs) ..)

theorem nextOk_execInvalComplete {s : State} (hs : s.memOk) id : NextOk (execInvalComplete id s) := by
  unfold execInvalComplete
  split
  · exact nextOk_next hs
  · extract_lets live
    exact nextOk_ite (nextOk_next hs) (nextOk_next (memOk_answer (memOk_dropTlbs (by exact hs) ..) ..))

theorem State.memOk_mgmtSet {s u : State} (hs : s.memOk) {c off size v} (e : s.mgmtSet c off size v = some u) : u.memOk := by
  unfold State.mgmtSet at e
  split at e
  · cases e
  · split at e
    · split at e
      · cases e
        exact memOk_answer (memOk_modQueue hs ..) ..
      · cases e
    · split at e
      · dsimp only at e
        split at e
        · cases e
          exact memOk_answer (memOk_setCtxReg hs ..) ..
        · cases e
      · split at e
        · split at e
          · cases e
            exact memOk_startInval hs ..
          · cases e
        · split at e
          · split at e
            · split at e
              · cases e
                exact memOk_answer (memOk_setModuleReg hs ..) ..
              · cases e
            · cases e
          · split at e
            · dsimp only at e
              split at e
              · cases e
                exact memOk_answer (memOk_modCtx hs ..) ..
              · cases e
            · cases e

/-- The stages that zero the memory leave it empty, and an empty memory is in canonical form (R347). -/
theorem State.memOk_stageDone {s : State} (hs : s.memOk) n down : (s.stageDone n down).memOk := by
  unfold State.stageDone
  split
  · exact ⟨rfl, hs.2⟩
  · exact ⟨rfl, hs.2⟩
  · exact hs
  · exact hs

theorem State.memOk_stageFails {s : State} (hs : s.memOk) n reason : (s.stageFails n reason).memOk := hs

theorem nextOk_execBringupStage {s : State} (hs : s.memOk) passed reason : NextOk (execBringupStage passed reason s) := by
  unfold execBringupStage
  extract_lets x n
  refine nextOk_ite (nextOk_next hs) ?_
  refine nextOk_next ?_
  split
  · exact memOk_stageDone hs ..
  · exact memOk_stageFails hs ..

theorem nextOk_execPowerWindow {s : State} (hs : s.memOk) watts : NextOk (execPowerWindow watts s) := by
  unfold execPowerWindow
  refine nextOk_ite (nextOk_next hs) ?_
  extract_lets x s1
  have h1 : s1.memOk := hs
  refine nextOk_ite (nextOk_next (memOk_allCores h1 _)) ?_
  exact nextOk_ite (nextOk_next (memOk_allCores h1 _)) (nextOk_next h1)

theorem nextOk_execThermalHalt {s : State} (hs : s.memOk) die temp : NextOk (execThermalHalt die temp s) := by
  unfold execThermalHalt
  extract_lets s1 x
  have h1 : s1.memOk := memOk_modDie hs ..
  exact nextOk_ite (nextOk_next (by exact h1)) (nextOk_next h1)

theorem nextOk_execPatrolScrub {s : State} (hs : s.memOk) bad : NextOk (execPatrolScrub bad s) := by
  unfold execPatrolScrub
  extract_lets s1
  have h1 : s1.memOk := memOk_foldl _ (fun _ _ h => memOk_poisonAt h _) _ hs
  exact nextOk_next (memOk_ite h1 (memOk_snapEvent h1 _))

theorem State.memOk_answerPeer {s : State} (hs : s.memOk) m r : (s.answerPeer m r).memOk := hs

theorem State.memOk_peerDreq {s : State} (hs : s.memOk) modnum off asid len kind nowait tag :
    (s.peerDreq modnum off asid len kind nowait tag).memOk := by
  unfold State.peerDreq
  split
  · exact hs
  · exact memOk_send hs ..

theorem State.memOk_peerAccess {s : State} (hs : s.memOk) modnum pa op : (s.peerAccess modnum pa op).memOk := by
  unfold State.peerAccess
  extract_lets bad
  split
  · exact memOk_answerPeer hs ..
  · exact memOk_answerPeer (memOk_writeHome hs ..) ..
  · refine memOk_ite (memOk_answerPeer hs ..) ?_
    extract_lets n old new
    exact memOk_answerPeer (memOk_writeHome hs ..) ..
  · exact hs

theorem nextOk_execPeerRequest {s : State} (hs : s.memOk) modnum off op : NextOk (execPeerRequest modnum off op s) := by
  unfold execPeerRequest
  refine nextOk_ite (nextOk_next hs) ?_
  split
  · exact nextOk_next (memOk_peerDreq hs ..)
  · split
    · exact nextOk_next (memOk_send hs ..)
    · exact nextOk_next hs
  · exact nextOk_next (memOk_send hs ..)
  · split
    · exact nextOk_next (memOk_answerPeer hs ..)
    · exact nextOk_next (memOk_peerAccess hs ..)
  · split
    · exact nextOk_next (memOk_answerPeer hs ..)
    · exact nextOk_next (memOk_peerAccess hs ..)
  split
  · exact nextOk_next (memOk_answerPeer hs ..)
  · exact nextOk_next (memOk_peerAccess hs ..)

/-! ### Integer instructions (Machine/Integer) -/

theorem nextOk_execPmov {s : State} (hs : s.memOk) m form : NextOk (execPmov m form s) := by
  unfold execPmov
  split <;> exact nextOk_next (memOk_regInstr hs ..)

theorem nextOk_execShfl {s : State} (hs : s.memOk) m d a b : NextOk (execShfl m d a b s) := by
  unfold execShfl
  extract_lets bu rel
  refine nextOk_ite ?_ ?_
  · refine nextOk_next (memOk_runReads hs _ _ _ (fun _ _ _ h => ?_))
    split
    · exact h
    next s1 e =>
    have h1 := memOk_take h e
    exact memOk_pend h1 ..
  · refine nextOk_next (memOk_runReads (memOk_releaseIdle hs ..) _ _ _ (fun _ _ _ h => ?_))
    split
    · exact h
    next s1 e =>
    have h1 := memOk_take h e
    exact memOk_pend h1 ..

theorem State.memOk_intInstr {s : State} (hs : s.memOk) m ty f d a b : (s.intInstr m ty f d a b).memOk := by
  unfold State.intInstr
  extract_lets sat ra rb
  split <;> exact memOk_regInstr hs ..

theorem State.memOk_wordInstr {s : State} (hs : s.memOk) m f d a b : (s.wordInstr m f d a b).memOk :=
  memOk_regInstr hs ..

theorem State.memOk_shiftInstr {s : State} (hs : s.memOk) m pair f d a b : (s.shiftInstr m pair f d a b).memOk := by
  unfold State.shiftInstr
  refine memOk_ite ?_ (memOk_regInstr hs ..)
  extract_lets ra
  exact memOk_regInstr hs ..

theorem State.memOk_unaryInstr {s : State} (hs : s.memOk) m f d a : (s.unaryInstr m f d a).memOk :=
  memOk_regInstr hs ..

/-! ### Floating-point instructions (Machine/FloatOps) -/

theorem State.memOk_floatInstr {s : State} (hs : s.memOk) m f op d a b : (s.floatInstr m f op d a b).memOk :=
  memOk_wordInstr hs ..

theorem State.memOk_sfuInstr {s : State} (hs : s.memOk) m f d a : (s.sfuInstr m f d a).memOk := by
  unfold State.sfuInstr
  extract_lets bu rel
  refine memOk_ite ?_ ?_
  · refine memOk_runReads hs _ _ _ (fun _ _ _ h => ?_)
    split
    · exact h
    next s1 e =>
    have h1 := memOk_take h e
    exact memOk_pend h1 ..
  · refine memOk_runReads (memOk_releaseIdle hs ..) _ _ _ (fun _ _ _ h => ?_)
    split
    · exact h
    next s1 e =>
    have h1 := memOk_take h e
    exact memOk_pend h1 ..

theorem State.memOk_dotInstr {s : State} (hs : s.memOk) m fa fb d a b : (s.dotInstr m fa fb d a b).memOk := by
  unfold State.dotInstr
  extract_lets c xm
  exact memOk_regInstr hs ..

theorem State.memOk_intDotInstr {s : State} (hs : s.memOk) m w ua ub d a b : (s.intDotInstr m w ua ub d a b).memOk := by
  unfold State.intDotInstr
  extract_lets c
  exact memOk_regInstr hs ..

/-! ### Memory instructions (Machine/MemoryOps) -/

theorem State.memOk_pin {s : State} (hs : s.memOk) b t loc site pol : (s.pin b t loc site pol).memOk := by
  unfold State.pin
  split
  · exact memOk_ite hs hs
  · exact hs

theorem nextOk_execLd {s : State} (hs : s.memOk) m sz pol k d a off : NextOk (execLd m sz pol k d a off s) := by
  unfold execLd
  extract_lets bu n
  refine nextOk_next (memOk_runReads hs _ _ _ (fun _ _ _ h => ?_))
  split
  · next e => exact memOk_fst_of_eq e (memOk_accessAddress h ..)
  · next e => exact memOk_fst_of_eq e (memOk_accessAddress h ..)
  next s1 _ e =>
  have h1 := memOk_fst_of_eq e (memOk_accessAddress h ..)
  split
  · exact h1
  next s2 e1 =>
  have h2 := memOk_take h1 e1
  exact memOk_pend (memOk_pin h2 ..) ..

theorem State.memOk_launchFlight {s : State} (hs : s.memOk) t issue g x atomic pol act :
    (s.launchFlight t issue g x atomic pol act).memOk :=
  hs

theorem nextOk_execSt {s : State} (hs : s.memOk) m sz pol k a b off : NextOk (execSt m sz pol k a b off s) := by
  unfold execSt
  extract_lets n rb
  refine nextOk_next (memOk_runReads hs _ _ _ (fun _ _ _ h => ?_))
  split
  · next e => exact memOk_fst_of_eq e (memOk_accessAddress h ..)
  · next e => exact memOk_fst_of_eq e (memOk_accessAddress h ..)
  next s1 _ e =>
  have h1 := memOk_fst_of_eq e (memOk_accessAddress h ..)
  extract_lets data
  exact memOk_launchFlight h1 ..

theorem State.memOk_releaseAt {s u : State} (hs : s.memOk) {t rel sc} (e : s.releaseAt t rel sc = some u) : u.memOk := by
  unfold State.releaseAt at e
  split at e
  · cases e
    exact hs
  · split at e
    · cases e
      exact memOk_releaseLines hs ..
    · cases e

theorem nextOk_execAtom {s : State} (hs : s.memOk) m ord k sc op w64 d a b off :
    NextOk (execAtom m ord k sc op w64 d a b off s) := by
  unfold execAtom
  extract_lets bu n rb rc acq
  refine nextOk_next (memOk_runThreads hs _ _ _ _ (fun _ _ h => h) (fun _ _ _ h => ?_))
  split
  · next e => exact memOk_fst_of_eq e (memOk_accessAddress h ..)
  · next e => exact memOk_fst_of_eq e (memOk_accessAddress h ..)
  next s1 _ e =>
  have h1 := memOk_fst_of_eq e (memOk_accessAddress h ..)
  split
  · exact h1
  next s2 e1 =>
  have h2 := memOk_releaseAt h1 e1
  split
  · exact h2
  next s3 e2 =>
  have h3 := memOk_take h2 e2
  extract_lets what
  exact memOk_pend h3 ..

theorem nextOk_execRed {s : State} (hs : s.memOk) m ord k sc op w64 a b off :
    NextOk (execRed m ord k sc op w64 a b off s) := by
  unfold execRed
  extract_lets n rb
  refine nextOk_next (memOk_runThreads hs _ _ _ _ (fun _ _ h => h) (fun _ _ _ h => ?_))
  split
  · next e => exact memOk_fst_of_eq e (memOk_accessAddress h ..)
  · next e => exact memOk_fst_of_eq e (memOk_accessAddress h ..)
  next s1 _ e =>
  have h1 := memOk_fst_of_eq e (memOk_accessAddress h ..)
  split
  · exact h1
  next s2 e1 =>
  have h2 := memOk_releaseAt h1 e1
  exact memOk_launchFlight h2 ..

theorem nextOk_execAtomc {s : State} (hs : s.memOk) m ord k addeq task d a b off :
    NextOk (execAtomc m ord k addeq task d a b off s) := by
  unfold execAtomc
  extract_lets bu c
  refine nextOk_ite (nextOk_next (memOk_runPlain hs _ (fun _ _ _ h => h))) ?_
  refine nextOk_next (memOk_runThreads hs _ _ _ _ (fun _ _ h => h) (fun _ _ _ h => ?_))
  split
  · next e => exact memOk_fst_of_eq e (memOk_accessAddress h ..)
  · next e => exact memOk_fst_of_eq e (memOk_accessAddress h ..)
  next s1 _ e =>
  have h1 := memOk_fst_of_eq e (memOk_accessAddress h ..)
  split
  · exact h1
  next s2 e1 =>
  have h2 := memOk_releaseAt h1 e1
  split
  · exact h2
  next s3 e2 =>
  have h3 := memOk_take h2 e2
  extract_lets what
  exact memOk_pend h3 ..

theorem nextOk_execAtomw {s : State} (hs : s.memOk) m ord k d a b off : NextOk (execAtomw m ord k d a b off s) := by
  unfold execAtomw
  extract_lets bu rb
  refine nextOk_next (memOk_runThreads hs _ _ _ _ (fun _ _ h => h) (fun _ _ _ h => ?_))
  split
  · next e => exact memOk_fst_of_eq e (memOk_accessAddress h ..)
  · next e => exact memOk_fst_of_eq e (memOk_accessAddress h ..)
  next s1 _ e =>
  have h1 := memOk_fst_of_eq e (memOk_accessAddress h ..)
  split
  · exact h1
  next s2 e1 =>
  have h2 := memOk_releaseAt h1 e1
  split
  · exact h2
  next s3 e2 =>
  have h3 := memOk_take h2 e2
  extract_lets what
  exact memOk_pend h3 ..

theorem nextOk_execWaitw {s : State} (hs : s.memOk) m k tmo d a b off : NextOk (execWaitw m k tmo d a b off s) := by
  unfold execWaitw
  refine nextOk_next (memOk_runReads hs _ _ _ (fun _ _ _ h => ?_))
  split
  · next e => exact memOk_fst_of_eq e (memOk_accessAddress h ..)
  · next e => exact memOk_fst_of_eq e (memOk_accessAddress h ..)
  next s1 _ e =>
  have h1 := memOk_fst_of_eq e (memOk_accessAddress h ..)
  split
  · exact h1
  refine memOk_ite_fst h1 ?_
  split
  · exact h1
  next s2 e1 =>
  have h2 := memOk_take h1 e1
  split
  next s3 _ _ e2 =>
  have h3 := memOk_fst_of_eq e2 (memOk_readSite h2 ..)
  extract_lets ret slice words limit z
  have hret : ∀ s r, s.memOk → (ret s r).memOk := by
    intro _ _ h4
    unfold ret
    exact memOk_writeRegs h4 ..
  exact memOk_ite_fst h1 (memOk_ite_fst (memOk_acquireLines (hret _ _ h3) ..) (memOk_ite_fst (hret _ _ h3) h3))

theorem nextOk_execWaitwTimeout {s : State} (hs : s.memOk) t : NextOk (execWaitwTimeout t s) := by
  unfold execWaitwTimeout
  split
  · exact nextOk_next hs
  split
  · exact nextOk_next hs
  · exact nextOk_ite (nextOk_next (memOk_returnSleeper hs ..)) (nextOk_next hs)

theorem nextOk_execFence {s : State} (hs : s.memOk) m ord sc : NextOk (execFence m ord sc s) := by
  unfold execFence
  refine nextOk_next (memOk_runPlain hs _ (fun _ _ _ h => ?_))
  extract_lets rel acq
  split
  · exact h
  next s2 e =>
  have h2 := memOk_releaseAt h e
  exact memOk_ite_fst h2 (memOk_ite (memOk_acquireLines h2 ..) h2)

theorem nextOk_execAccessPerformed {s : State} (hs : s.memOk) site : NextOk (execAccessPerformed site s) := by
  unfold execAccessPerformed
  split
  · split
    · exact nextOk_next (memOk_ite (memOk_performFlight hs _) hs)
    · exact nextOk_next hs
  · exact nextOk_next (memOk_ite hs (memOk_invalL1 hs ..))
  · exact nextOk_next (memOk_invalL2 hs ..)

theorem State.memOk_nextWalk {s : State} (hs : s.memOk) die : (s.nextWalk die).memOk := by
  unfold State.nextWalk
  split <;> exact hs

theorem nextOk_execPageWalkComplete {s : State} (hs : s.memOk) walk : NextOk (execPageWalkComplete walk s) := by
  unfold execPageWalkComplete
  split
  · exact nextOk_next hs
  · extract_lets s1 r waits ops s2 bad s3 go
    have h1 : s1.memOk := memOk_nextWalk (by exact hs) _
    have h2 : s2.memOk := by
      clear_value s1 r
      unfold s2
      split
      · exact h1
      · exact memOk_foldl _ (fun _ _ h => memOk_fillTlb h ..) _ h1
    clear_value s2
    exact nextOk_next h2

/-! ### Synchronisation and control registers (Machine/Sync) -/

theorem State.memOk_takeShadow {s : State} (hs : s.memOk) b arriving : (s.takeShadow b arriving).memOk := by
  unfold State.takeShadow
  extract_lets s1 s2 s3 slots
  have h1 : s1.memOk := memOk_landBand hs _
  have h2 : s2.memOk := memOk_modBand h1 ..
  split
  · exact h1
  refine memOk_ite h1 ?_
  split
  · exact h1
  · extract_lets kept die sh
    exact h2

theorem State.memOk_barrier {s : State} (hs : s.memOk) b core off arriving : (s.barrier b core off arriving).memOk :=
  memOk_ite hs (memOk_ite (memOk_modBand (by exact hs) ..) (memOk_takeShadow hs ..))

theorem State.memOk_phaseClock {s : State} (hs : s.memOk) p mine : (s.phaseClock p mine).memOk := by
  unfold State.phaseClock
  extract_lets o arr s1
  have h1 : s1.memOk := memOk_modCore hs ..
  exact memOk_ite (memOk_foldl _ (fun _ _ h => memOk_barrier h ..) _ h1) h1

theorem State.memOk_applyArrivals {s : State} (hs : s.memOk) ops : (s.applyArrivals ops).memOk :=
  memOk_foldl _ (fun _ _ h => memOk_phaseClock h ..) _ hs

theorem nextOk_execBara {s : State} (hs : s.memOk) m kind k a b off : NextOk (execBara m kind k a b off s) := by
  unfold execBara
  refine nextOk_next (memOk_runReads hs _ _ _ (fun _ _ _ h => ?_))
  split
  · extract_lets s1 x
    have h1 : s1.memOk := memOk_releaseLines h ..
    exact h1
  · exact h

theorem nextOk_execBarw {s : State} (hs : s.memOk) m k a b off : NextOk (execBarw m k a b off s) := by
  unfold execBarw
  refine nextOk_next (memOk_runReads hs _ _ _ (fun _ _ _ h => ?_))
  split
  · exact h
  split
  refine memOk_ite_fst h ?_
  split
  · exact h
  · extract_lets q
    exact memOk_ite_fst h (memOk_acquireLines h ..)

theorem State.memOk_needSystem {s : State} (hs : s.memOk) m : (s.needSystem m).memOk := by
  unfold State.needSystem
  split
  · exact hs
  · exact memOk_raiseAll hs ..

theorem nextOk_execCsrr {s : State} (hs : s.memOk) m d num : NextOk (execCsrr m d num s) := by
  unfold execCsrr
  refine nextOk_ite (nextOk_next (memOk_trapAll hs ..)) ?_
  refine nextOk_next (memOk_runPlain hs _ (fun _ _ _ h => ?_))
  split
  · exact h
  next s1 e =>
  have h1 := memOk_take h e
  exact memOk_writeV h1 ..

theorem nextOk_execCsrw {s : State} (hs : s.memOk) m mode num a : NextOk (execCsrw m mode num a s) := by
  unfold execCsrw
  extract_lets run
  have hrun : ∀ s, s.memOk → (run s).memOk := by
    intro _ h
    unfold run
    exact memOk_runReads h _ _ _ (fun _ _ _ h1 => memOk_csrWrite h1 ..)
  split
  · exact nextOk_next (memOk_trapAll hs ..)
  · exact nextOk_next (memOk_trapAll hs ..)
  · exact nextOk_next (memOk_runReads hs _ _ _ (fun _ _ _ h => h))
  · exact nextOk_next (hrun _ (memOk_needSystem hs _))
  · exact nextOk_next (hrun _ hs)
  · exact nextOk_next (hrun _ hs)

theorem nextOk_execSnap {s : State} (hs : s.memOk) m : NextOk (execSnap m s) := by
  unfold execSnap
  extract_lets s1 fire
  have h1 : s1.memOk := memOk_needSystem hs _
  exact nextOk_next (memOk_runPlain (memOk_ite (memOk_snapTrigger h1) h1) _ (fun _ _ _ h => h))

/-! ### Every instruction and event -/

/-- Whatever an instruction or event answers: those that are one operation by its lemma, the others by their own. -/
theorem nextOk_exec {s : State} (hs : s.memOk) i : NextOk (exec i s) := by
  cases i
  case mov | movi | sel | imulh | imad | imadw | imin | imax | icmp | ncmp | plop | ffma | fcmp | cvt =>
    exact nextOk_next (memOk_regInstr hs ..)
  case and | or | xor | andn | rotl | bfi | lea | fscl | bswz => exact nextOk_next (memOk_wordInstr hs ..)
  case popc | clz | brev | bfe | iaddi | frnd | f2i | i2f | fclass => exact nextOk_next (memOk_unaryInstr hs ..)
  case frcp | frsq | fsqrt | fexp2 | flog2 | fsin | fcos | ftanh => exact nextOk_next (memOk_sfuInstr hs ..)
  case nop | bra | waitm | yield | trap => exact nextOk_next (memOk_runPlain hs _ (fun _ _ _ h => h))
  case fadd | fsub | fmul | fmin | fmax => exact nextOk_next (memOk_floatInstr hs ..)
  case iadd | isub | imul => exact nextOk_next (memOk_intInstr hs ..)
  case shl | shr | sar => exact nextOk_next (memOk_shiftInstr hs ..)
  case brx | ret => exact nextOk_next (memOk_runReads hs _ _ _ (fun _ _ _ h => h))
  case join | leave => exact nextOk_next (memOk_runPlain hs _ (fun _ _ _ h => memOk_setMember h ..))
  case fdp4 | fdp8 => exact nextOk_next (memOk_dotInstr hs ..)
  case idp4 | idp8 => exact nextOk_next (memOk_intDotInstr hs ..)
  case bwait | cwait => exact nextOk_next (memOk_runPlain hs _ (fun _ _ _ h => memOk_ite_fst h h))
  case powerOn | managementReset => exact nextOk_next (memOk_restart hs)
  case tret =>
    exact nextOk_next (memOk_runPlain hs _ (fun _ _ _ h => memOk_ite_fst h (memOk_ite_fst h (memOk_trapReturn h ..))))
  case trelZero => exact nextOk_ite (nextOk_next (memOk_zeroTile hs ..)) (nextOk_next hs)
  case cset => exact nextOk_next (memOk_runPlain hs _ (fun _ _ _ h => memOk_noteCset h ..))
  case collPartialArrive => exact nextOk_next (memOk_hear hs _)
  case trapEnter => exact nextOk_next (memOk_progressTraps hs _)
  case ueDetected => exact nextOk_next (memOk_snapEvent (memOk_poisonAt hs _) _)
  case correctedError => exact nextOk_next (memOk_modCore hs ..)
  case kick => exact nextOk_command hs (fun _ => memOk_answer (memOk_modQueue hs ..) ..)
  case bandSaveComplete =>
    exact nextOk_ite (nextOk_next (memOk_foldl _ (fun _ _ h => memOk_saveBand h _) _ hs)) (nextOk_next hs)
  case deedEntryLost => exact nextOk_next (memOk_snapEvent (memOk_loseEntry hs ..) _)
  case troopRetire => exact nextOk_next (memOk_ite (memOk_retireTroop hs ..) hs)
  case hostRdmaWrite => exact nextOk_next (memOk_ite (memOk_writeHome hs ..) hs)
  case hostRdmaRead => exact nextOk_next (memOk_ite hs hs)
  case mgmtRead => exact nextOk_command hs (fun _ => memOk_answer hs ..)
  case mgmtWrite => exact nextOk_command hs (fun _ => memOk_getD (fun _ h => memOk_mgmtSet hs h) (memOk_answer hs ..))
  case inval => exact nextOk_command hs (fun _ => memOk_startInval hs ..)
  case snaptrig => exact nextOk_command hs (fun _ => memOk_answer (memOk_snapTrigger hs) ..)
  case snaparm => exact nextOk_command hs (fun _ => memOk_answer (by exact hs) ..)
  case attest => exact nextOk_command hs (fun _ => memOk_ite (memOk_answer hs ..) (memOk_answer hs ..))
  case linkDown => exact nextOk_next (memOk_snapEvent (by exact hs) _)
  case call => exact nextOk_execCall hs ..
  case matchKeys => exact nextOk_execMatchKeys hs ..
  case vote => exact nextOk_execVote hs ..
  case exit => exact nextOk_execExit hs ..
  case nap => exact nextOk_execNap hs ..
  case napExpire => exact nextOk_execNapExpire hs ..
  case shfl => exact nextOk_execShfl hs ..
  case pmov => exact nextOk_execPmov hs ..
  case ld => exact nextOk_execLd hs ..
  case st => exact nextOk_execSt hs ..
  case atom => exact nextOk_execAtom hs ..
  case red => exact nextOk_execRed hs ..
  case atomc => exact nextOk_execAtomc hs ..
  case atomw => exact nextOk_execAtomw hs ..
  case waitw => exact nextOk_execWaitw hs ..
  case waitwTimeout => exact nextOk_execWaitwTimeout hs ..
  case fence => exact nextOk_execFence hs ..
  case bara => exact nextOk_execBara hs ..
  case barw => exact nextOk_execBarw hs ..
  case csrr => exact nextOk_execCsrr hs ..
  case csrw => exact nextOk_execCsrw hs ..
  case snap => exact nextOk_execSnap hs ..
  case bor => exact nextOk_execBor hs ..
  case reb => exact nextOk_execReb hs ..
  case spl => exact nextOk_execSpl hs ..
  case jon => exact nextOk_execJon hs ..
  case rtn => exact nextOk_execRtn hs ..
  case btst => exact nextOk_execBtst hs ..
  case bqry => exact nextOk_execBqry hs ..
  case spawn => exact nextOk_execSpawn hs ..
  case spawna => exact nextOk_execSpawna hs ..
  case launch => exact nextOk_execLaunch hs ..
  case deviceLaunchCheck => exact nextOk_execDeviceLaunchCheck hs ..
  case depcSet => exact nextOk_execDepcSet hs ..
  case depcAdd => exact nextOk_execDepcAdd hs ..
  case depcArrive => exact nextOk_execDepcArrive hs ..
  case chwait => exact nextOk_execChwait hs ..
  case cpy => exact nextOk_execCpy hs ..
  case cpyComplete => exact nextOk_execCpyComplete hs ..
  case gath => exact nextOk_execGath hs ..
  case gathComplete => exact nextOk_execGathComplete hs ..
  case tcpy => exact nextOk_execTcpy hs ..
  case tcpyComplete => exact nextOk_execTcpyComplete hs ..
  case nmc => exact nextOk_execNmc hs ..
  case nmcComplete => exact nextOk_execNmcComplete hs ..
  case copyFault => exact nextOk_execCopyFault hs ..
  case trsv => exact nextOk_execTrsv hs ..
  case trel => exact nextOk_execTrel hs ..
  case mma => exact nextOk_execMma hs ..
  case accrd => exact nextOk_execAccrd hs ..
  case accwrReg => exact nextOk_execAccwrReg hs ..
  case accwrTile => exact nextOk_execAccwrTile hs ..
  case matrixEntryPerform => exact nextOk_execMatrixEntryPerform hs ..
  case governorWindow => exact nextOk_execGovernorWindow hs ..
  case coll => exact nextOk_execColl hs ..
  case collInputArrive => exact nextOk_execCollInputArrive hs ..
  case collDeliver => exact nextOk_execCollDeliver hs ..
  case collTimeout => exact nextOk_execCollTimeout hs ..
  case formationRound => exact nextOk_execFormationRound hs ..
  case asyncTrapDeliver => exact nextOk_execAsyncTrapDeliver hs ..
  case pairActCompare => exact nextOk_execPairActCompare hs ..
  case pairwaitTimeout => exact nextOk_execPairwaitTimeout hs ..
  case queueSlotReread => exact nextOk_execQueueSlotReread hs ..
  case kickAheadTimeout => exact nextOk_execKickAheadTimeout hs ..
  case nopPacket => exact nextOk_execNopPacket hs ..
  case gridPacket => exact nextOk_execGridPacket hs ..
  case ctxnew => exact nextOk_execCtxnew hs ..
  case ctxkill => exact nextOk_execCtxkill hs ..
  case reclaimWalkEnd => exact nextOk_execReclaimWalkEnd hs ..
  case turnBoundary => exact nextOk_execTurnBoundary hs ..
  case bandPlace => exact nextOk_execBandPlace hs ..
  case regsPoolPreempt => exact nextOk_execRegsPoolPreempt hs ..
  case sliceQueueDrain => exact nextOk_execSliceQueueDrain hs ..
  case ringDrain => exact nextOk_execRingDrain hs ..
  case dreq => exact nextOk_execDreq hs ..
  case dgrant => exact nextOk_execDgrant hs ..
  case drefuse => exact nextOk_execDrefuse hs ..
  case dcancel => exact nextOk_execDcancel hs ..
  case drel => exact nextOk_execDrel hs ..
  case drelack => exact nextOk_execDrelack hs ..
  case rtnWritebackDone => exact nextOk_execRtnWritebackDone hs ..
  case deedwaitTimeout => exact nextOk_execDeedwaitTimeout hs ..
  case dquery => exact nextOk_execDquery hs ..
  case dhold => exact nextOk_execDhold hs ..
  case deedRebuildEnd => exact nextOk_execDeedRebuildEnd hs ..
  case peerTimeout => exact nextOk_execPeerTimeout hs ..
  case bandRetire => exact nextOk_execBandRetire hs ..
  case bringupStage => exact nextOk_execBringupStage hs ..
  case powerWindow => exact nextOk_execPowerWindow hs ..
  case thermalHalt => exact nextOk_execThermalHalt hs ..
  case patrolScrub => exact nextOk_execPatrolScrub hs ..
  case longLatencyResult => exact nextOk_execLongLatencyResult hs ..
  case accessPerformed => exact nextOk_execAccessPerformed hs ..
  case pageWalkComplete => exact nextOk_execPageWalkComplete hs ..
  case invalComplete => exact nextOk_execInvalComplete hs ..
  case peerRequest => exact nextOk_execPeerRequest hs ..

/-! ### Fetch (Machine/Fetch) -/

theorem State.memOk_fetchWords {s : State} (hs : s.memOk) core asid sys vas : (s.fetchWords core asid sys vas).1.memOk := by
  induction vas generalizing s with
  | nil => exact hs
  | cons va r ih =>
    have h1 := memOk_translate hs core asid va .fetch sys
    unfold State.fetchWords
    split
    · next e => exact memOk_fst_of_eq e h1
    · next e => exact memOk_fst_of_eq e h1
    · next e => exact memOk_fst_of_eq e h1
    · next e =>
      have h1 := memOk_fst_of_eq e h1
      split
      · exact h1
      · split
        · next e2 => exact memOk_fst_of_eq e2 (ih h1)
        · exact ih h1

theorem State.memOk_stopTrap {s : State} (hs : s.memOk) pc npc ts f : (s.stopTrap pc npc ts f).memOk :=
  memOk_raiseAll hs ..

theorem State.memOk_stopFetch {s : State} (hs : s.memOk) b f : (s.stopFetch b f).memOk :=
  memOk_stopTrap hs ..

theorem State.memOk_stopWait {s : State} (hs : s.memOk) b ts w : (s.stopWait b ts w).memOk :=
  memOk_foldl _ (fun _ _ h => memOk_makeWait (memOk_leaveBundle h _) ..) _ hs

theorem State.memOk_stopAt {s : State} (hs : s.memOk) b a : (s.stopAt b a).memOk := by
  unfold State.stopAt
  split
  · exact hs
  · exact memOk_stopFetch hs ..
  · exact memOk_startWalk hs ..
  · exact memOk_elim hs (fun _ => memOk_consumeUe hs _)

theorem State.memOk_clauseBase {s : State} (hs : s.memOk) b n p : (s.clauseBase b n p).1.memOk := by
  induction n generalizing s p with
  | zero => exact hs
  | succ n ih =>
    have h1 := memOk_fetchWords hs b.core b.asid (s.bundleSys b) [codeVa b.cseg p 0]
    unfold State.clauseBase
    split
    · next e =>
      have h1 := memOk_fst_of_eq e h1
      split
      · exact h1
      · exact ih h1 _
    · next e => exact memOk_fst_of_eq e h1

theorem State.memOk_frontInstr {s : State} (hs : s.memOk) b : (s.frontInstr b).memOk := by
  unfold State.frontInstr
  extract_lets sys vas
  split
  · next s1 _ e =>
    have h1 := memOk_fst_of_eq e (memOk_fetchWords hs ..)
    extract_lets n b1 s2
    have h2 : s2.memOk := memOk_modBundle h1 ..
    split
    · split
      · extract_lets s3
        have h3 : s3.memOk := h2
        exact Front.memOk_run h3 _
      · exact Front.memOk_stop (memOk_stopTrap h2 ..)
    · exact Front.memOk_stop (memOk_stopTrap h2 ..)
  · next s1 _ _ e =>
    have h1 := memOk_fst_of_eq e (memOk_fetchWords hs ..)
    exact Front.memOk_stop (memOk_stopAt h1 ..)

theorem State.memOk_frontClause {s : State} (hs : s.memOk) b w : (s.frontClause b w).memOk := by
  unfold State.frontClause
  extract_lets bad
  have hbad : ∀ s, s.memOk → (bad s).memOk := by
    intro _ h
    unfold bad
    exact Front.memOk_stop (memOk_stopTrap h ..)
  split
  · exact hbad _ hs
  split
  · next s1 _ e =>
    have h1 := memOk_fst_of_eq e (memOk_fetchWords hs ..)
    split
    · exact hbad _ h1
    extract_lets s2 held go s3 b1
    have h2 : s2.memOk := memOk_foldl _ (fun _ _ h => memOk_modThread h ..) _ h1
    have h3 : s3.memOk := memOk_stopWait h2 ..
    split
    · exact Front.memOk_stop h3
    · exact memOk_frontInstr (memOk_modBundle h3 ..) _
  · next s1 _ _ e =>
    have h1 := memOk_fst_of_eq e (memOk_fetchWords hs ..)
    exact Front.memOk_stop (memOk_stopAt h1 ..)

theorem State.memOk_frontInside {s : State} (hs : s.memOk) b : (s.frontInside b).memOk := by
  unfold State.frontInside
  extract_lets bad
  have hbad : ∀ s, s.memOk → (bad s).memOk := by
    intro _ h
    unfold bad
    exact Front.memOk_stop (memOk_stopTrap h ..)
  split
  · next s1 _ e =>
    have h1 := memOk_fst_of_eq e (memOk_clauseBase hs ..)
    exact Front.memOk_stop (memOk_stopAt h1 ..)
  · next s1 e =>
    have h1 := memOk_fst_of_eq e (memOk_clauseBase hs ..)
    exact hbad _ h1
  next s1 _ _ e =>
  have h1 := memOk_fst_of_eq e (memOk_clauseBase hs ..)
  split
  · exact hbad _ h1
  split
  · exact hbad _ h1
  · extract_lets b1
    exact memOk_frontInstr (memOk_modBundle h1 ..) _

theorem State.memOk_front {s : State} (hs : s.memOk) b : (s.front b).memOk := by
  unfold State.front
  split
  · exact memOk_frontInside hs _
  split
  · next s1 _ _ e =>
    have h1 := memOk_fst_of_eq e (memOk_fetchWords hs ..)
    split
    · exact memOk_frontClause h1 ..
    extract_lets new
    split
    · exact memOk_frontInside h1 _
    · exact Front.memOk_stop (memOk_stopTrap h1 ..)
  · next s1 _ _ e =>
    have h1 := memOk_fst_of_eq e (memOk_fetchWords hs ..)
    exact Front.memOk_stop (memOk_stopAt h1 ..)

theorem State.memOk_closeGroup {s : State} (hs : s.memOk) chain : (s.closeGroup chain).memOk := by
  unfold State.closeGroup
  split
  · refine memOk_ite ?_ (memOk_ite hs hs)
    refine memOk_ite (by exact hs) ?_
    extract_lets x
    have hx : x.memOk := memOk_modBundle hs ..
    exact hx
  · exact hs

theorem State.memOk_occupy {s : State} (hs : s.memOk) b : (s.occupy b).memOk := memOk_modCore hs ..

/-! ### What follows a step (Machine/Settle) -/

theorem State.memOk_wake {s : State} (hs : s.memOk) t w : (s.wake t w).memOk := by
  unfold State.wake
  split
  · extract_lets s1
    have h1 : s1.memOk := by
      unfold s1
      split
      · exact memOk_acquireLines hs ..
      · exact hs
    exact memOk_makeReady h1 ..
  · exact hs

theorem State.memOk_wakeAll {s : State} (hs : s.memOk) : s.wakeAll.memOk :=
  memOk_foldl _ (fun _ _ h => memOk_ite (memOk_wake h ..) h) _ hs

theorem State.memOk_examineAll {s : State} (hs : s.memOk) : s.examineAll.memOk :=
  memOk_foldl _ (fun _ _ h => memOk_examineMasks h ..) _ hs

theorem State.memOk_retireAll {s : State} (hs : s.memOk) : s.retireAll.memOk :=
  memOk_foldl _ (fun _ _ h => memOk_retireOps h ..) _ hs

theorem State.memOk_migrateAll {s : State} (hs : s.memOk) : s.migrateAll.memOk :=
  memOk_foldl _ (fun _ _ h => memOk_migrate h _) _ hs

theorem State.memOk_boardAll {s : State} (hs : s.memOk) : s.boardAll.memOk :=
  memOk_foldl _ (fun _ _ h => memOk_admitOverflow h _) _ hs

theorem State.memOk_unpin {s : State} (hs : s.memOk) : s.unpin.memOk := hs

theorem State.memOk_settle {s : State} (hs : s.memOk) : s.settle.memOk := by
  unfold State.settle
  refine memOk_unpin ?_
  exact memOk_trackPeers (memOk_boardAll (memOk_migrateAll (memOk_retireAll (memOk_wakeAll (memOk_egressAll hs)))))

theorem State.memOk_endClock {s : State} (hs : s.memOk) : s.endClock.memOk := by
  unfold State.endClock
  extract_lets s1 s2 s3 s4
  have h1 : s1.memOk := memOk_exitRounds hs _
  have h2 : s2.memOk := memOk_foldl _ (fun _ _ h => memOk_applyCset h _) _ h1
  have h3 : s3.memOk := memOk_foldl _ (fun _ _ h => memOk_modBand h ..) _ h2
  have h4 : s4.memOk := memOk_examineAll (memOk_applyArrivals h3 _)
  exact memOk_wakeAll (by exact h4)

theorem State.memOk_finish {s : State} (hs : s.memOk) : s.finish.memOk := memOk_settle hs

/-! ### The agenda (Machine/Agenda) -/

theorem State.memOk_todoIssue {s : State} (hs : s.memOk) b : (s.todoIssue b).memOk := by
  unfold State.todoIssue
  extract_lets s0 b0
  have hfront : ((s0.modBundle b.id fun _ => b0).front b0).memOk :=
    memOk_front (memOk_modBundle (by exact hs) ..) _
  split
  · next e =>
    rw [e] at hfront
    exact hfront
  · next e =>
    rw [e] at hfront
    exact memOk_closeGroup hfront _

theorem State.memOk_passClocks {s : State} (hs : s.memOk) n : (s.passClocks n).memOk := by
  unfold State.passClocks
  refine memOk_ite hs ?_
  extract_lets s1
  have h1 : s1.memOk := memOk_endClock hs
  exact h1

theorem State.memOk_todoOf {s : State} (hs : s.memOk) a : (s.todoOf a).memOk := by
  unfold State.todoOf
  split
  · split
    · exact Todo.memOk_rest hs
    · exact Todo.memOk_exec hs ..
  · split
    · exact Todo.memOk_rest hs
    · exact Todo.memOk_exec (by exact hs) ..
  · split
    · split
      · exact memOk_todoIssue (memOk_occupy hs _) _
      · exact Todo.memOk_rest hs
    · exact Todo.memOk_rest hs
  · exact Todo.memOk_rest (memOk_passClocks hs _)

/-- Whatever comes next, it takes place in a state that keeps the form. -/
theorem State.memOk_todo {s : State} (hs : s.memOk) : s.todo.memOk := by
  unfold State.todo
  split
  · split
    · exact Todo.memOk_rest (by exact hs)
    · exact memOk_todoIssue hs _
  · exact Todo.memOk_rest (by exact hs)
  · split
    · exact Todo.memOk_rest (by exact hs)
    · exact memOk_todoOf (by exact hs) _
  split
  · exact Todo.memOk_rest hs
  · exact memOk_todoOf hs _

theorem State.memOk_after {s : State} (hs : s.memOk) chain : (s.after chain).memOk :=
  memOk_finish (memOk_closeGroup hs _)

/-! ### The step -/

theorem nextOk_step {s : State} (hs : s.memOk) : NextOk (step s) := by
  unfold step
  have htodo := memOk_todo hs
  split
  · next e =>
    rw [e] at htodo
    exact nextOk_next (memOk_after htodo _)
  · next u i c e =>
    rw [e] at htodo
    have hexec := nextOk_exec htodo i
    split
    · next e' =>
      rw [e'] at hexec
      exact nextOk_next (memOk_after hexec _)
    · trivial
    · trivial

/-- Settles O60: a step is `State.after` of a state that `State.todo` or `exec` answers, and each of the three keeps the form. -/
theorem memOkKept : Obligations.MemOkKept := by
  unfold Obligations.MemOkKept
  intro s t hs hstep
  have h := nextOk_step hs
  rw [hstep] at h
  exact h

end Sys2Proof.Machine

/-! # SNAP is one trigger per issue (O30)

A trigger writes the snapshot registers alone, on which neither the threads of a bundle nor their guards depend. So SNAP has the
shape of `completesOnce_of`: the trigger before the threads' turns, in which nothing happens. -/

namespace Sys2Proof.Machine

/-! ### A state with other snapshot registers -/

/-- The state with the snapshot registers replaced: all that a trigger may change (R350). -/
def State.setSnap (s : State) (x : Snap) : State := { s with dev := { s.dev with snap := x } }

theorem State.bundle?_setSnap (s : State) (x : Snap) : (s.setSnap x).bundle? = s.bundle? := rfl

theorem State.view_setSnap (s : State) (x : Snap) : (s.setSnap x).view = s.view.setSnap x := by
  have hgroup : (s.setSnap x).group = s.group := rfl
  simp only [State.view, hgroup]
  cases s.group with
  | none => rfl
  | some g => rfl

theorem State.guardTrue_view_setSnap (s : State) (x : Snap) (m : Mods) (t : Tid) :
    (s.setSnap x).view.guardTrue m t = s.view.guardTrue m t := by
  rw [State.view_setSnap]
  rfl

theorem State.poisonedReg_view_setSnap (s : State) (x : Snap) (t : Tid) (r : VReg) :
    (s.setSnap x).view.poisonedReg t r = s.view.poisonedReg t r := by
  rw [State.view_setSnap]
  rfl

/-- What SNAP touches: beside its threads' places, the snapshot registers (R282). -/
def Touch.snapshot : Touch :=
  { rest := fun s u => { s with bands := u.bands, slots := u.slots, bundles := u.bundles, dev := { s.dev with snap := u.dev.snap } } }

theorem Touch.snapshot_fits : Touch.snapshot.Fits where
  refl _ := rfl
  trans s u w h k := by
    rw [h] at k
    exact k
  issue s u h := by
    rw [h]
    rfl

theorem Kept.setSnap (s : State) (x : Snap) : Kept Touch.snapshot s (s.setSnap x) :=
  Kept.of_rest rfl rfl rfl rfl rfl rfl

/-! ### The trigger (R350) -/

/-- No edge of the fabric clock lies between two clocks of one of its cycles (R9, log 24). -/
theorem sameFabricCycle_iff (a b : Nat) :
    sameFabricCycle a b = true ↔ ¬ ∃ k, a < k ∧ k ≤ b ∧ Config.fabricEdge k = true := by
  simp only [sameFabricCycle, List.all_eq_true, List.mem_range, Bool.not_eq_true', not_exists, not_and, Bool.not_eq_true]
  constructor
  · intro h k hak hkb
    have hk := h (k - a - 1) (by omega)
    rwa [show a + 1 + (k - a - 1) = k by omega] at hk
  · intro h k hk
    exact h _ (by omega) (by omega)

theorem State.snapTrigger_of_unfrozen {s : State} (hf : s.dev.snap.frozen = false) :
    s.snapTrigger = s.setSnap ⟨(s.dev.snap.seq + 1) % 2 ^ 32, s.dev.snap.miss, true, s.clock,
      s.snapWords ((s.dev.snap.seq + 1) % 2 ^ 32)⟩ := by
  simp only [State.snapTrigger, hf, Bool.false_eq_true, if_false, State.setSnap]

theorem State.snapTrigger_of_miss {s : State} (hf : s.dev.snap.frozen = true)
    (hc : sameFabricCycle s.dev.snap.at_ s.clock = false) :
    s.snapTrigger = s.setSnap { s.dev.snap with miss := satInc s.dev.snap.miss } := by
  simp only [State.snapTrigger, hf, hc, Bool.false_eq_true, if_true, if_false, State.setSnap]

theorem State.snapTrigger_of_sameCycle {s : State} (hf : s.dev.snap.frozen = true)
    (hc : sameFabricCycle s.dev.snap.at_ s.clock = true) : s.snapTrigger = s := by
  simp only [State.snapTrigger, hf, hc, if_true]

/-- Whatever a trigger finds, it changes the snapshot registers alone. -/
theorem State.exists_snapTrigger_eq_setSnap (s : State) : ∃ x, s.snapTrigger = s.setSnap x := by
  cases hf : s.dev.snap.frozen with
  | false => exact ⟨_, snapTrigger_of_unfrozen hf⟩
  | true =>
    cases hc : sameFabricCycle s.dev.snap.at_ s.clock with
    | false => exact ⟨_, snapTrigger_of_miss hf hc⟩
    | true => exact ⟨s.dev.snap, snapTrigger_of_sameCycle hf hc⟩

theorem State.exists_ite_snapTrigger_eq_setSnap (s : State) (fire : Bool) :
    ∃ x, (if fire then s.snapTrigger else s) = s.setSnap x := by
  cases fire with
  | false => exact ⟨s.dev.snap, rfl⟩
  | true => exact s.exists_snapTrigger_eq_setSnap

/-! ### The instruction (R280, R282) -/

/-- No PRIV is raised where every acting thread is in handler mode. -/
theorem State.needSystem_of_inHandler {s : State} {b : Bundle} {m : Mods} (hb : s.bundle? = some b)
    (hh : ∀ t ∈ b.threads, s.view.guardTrue m t = true → s.inHandler t = true) : s.needSystem m = s := by
  have hnone : (b.threads.filter fun t => s.view.guardTrue m t && !s.inHandler t) = [] := by
    rw [List.filter_eq_nil_iff]
    intro t ht
    simp only [Bool.and_eq_true, Bool.not_eq_true', not_and, Bool.not_eq_false]
    exact hh t ht
  simp only [State.needSystem, hb, hnone, List.map_nil]
  rfl

theorem exec_snap {s : State} {b : Bundle} {m : Mods} (hb : s.bundle? = some b)
    (hh : ∀ t ∈ b.threads, s.view.guardTrue m t = true → s.inHandler t = true) :
    exec (.snap m) s = .next ((if b.threads.any (s.view.guardTrue m) then s.snapTrigger else s).runReads m [] []
      fun _ s _ => (s, .next)) := by
  change execSnap m s = _
  simp only [execSnap, State.needSystem_of_inHandler hb hh, hb]
  rfl

/-- An issue of SNAP in handler mode is its trigger, after which its threads go on. -/
theorem completesOnce_snap (m : Mods) :
    CompletesOnce (fun b s => ∀ t ∈ b.threads, s.view.guardTrue m t = true → s.inHandler t = true)
      (fun b s => if b.threads.any (s.view.guardTrue m) then s.snapTrigger else s) (fun _ s => s) (.snap m) m [] []
      (fun _ _ _ _ => True) (fun _ _ w _ => (w, .next)) (fun _ => Touch.snapshot) := by
  have hset := State.exists_ite_snapTrigger_eq_setSnap
  apply completesOnce_of fun _ _ s _ => (s, .next)
  case hi =>
    intro s b hb hh
    exact exec_snap hb hh
  case hp =>
    intro s b hb _
    obtain ⟨x, hx⟩ := hset s (b.threads.any (s.view.guardTrue m))
    rw [hx, State.bundle?_setSnap, hb]
  case hg =>
    intro s b t _ _
    obtain ⟨x, hx⟩ := hset s (b.threads.any (s.view.guardTrue m))
    rw [hx, State.guardTrue_view_setSnap]
  case hq =>
    intro s b t r _ _
    obtain ⟨x, hx⟩ := hset s (b.threads.any (s.view.guardTrue m))
    rw [hx, State.poisonedReg_view_setSnap]
  case hok => exact fun _ _ _ _ _ _ _ => ⟨rfl, rfl⟩
  case hx => exact fun _ => Touch.snapshot_fits
  case hrel => exact fun _ _ hr => absurd hr List.not_mem_nil
  case hk =>
    intro s b _ _
    obtain ⟨x, hx⟩ := hset s (b.threads.any (s.view.guardTrue m))
    rw [hx]
    exact Kept.setSnap s x
  case heff => exact fun _ _ w _ _ => Kept.refl Touch.snapshot_fits w

/-- Settles O30: an issue of SNAP is one trigger, and a trigger is a latch, a miss, or part of the latch of its cycle. -/
theorem snapTriggers : Obligations.SnapTriggers := by
  unfold Obligations.SnapTriggers
  refine fun m => ⟨completesOnce_snap m, fun s => ⟨fun hf => ?_, fun hf hedge => ?_, fun hf hedge => ?_⟩⟩
  · rw [State.snapTrigger_of_unfrozen hf]
    rfl
  · have hc : sameFabricCycle s.dev.snap.at_ s.clock = false := by
      rw [← Bool.not_eq_true, sameFabricCycle_iff]
      exact not_not_intro hedge
    rw [State.snapTrigger_of_miss hf hc]
    rfl
  · exact State.snapTrigger_of_sameCycle hf ((sameFabricCycle_iff _ _).mpr hedge)

end Sys2Proof.Machine

/-! # The check of a launch (O46)

`State.checkLaunch` has five cases: a grid that meets codes or none, and a task whose descriptor fails, needs features that no
core has, or passes. One lemma says what each case leaves; the bands of a grid that starts are described once, for
`State.startGrid`. What a check reads does not depend on the launches that still wait. -/

namespace Sys2Proof.Machine

/-! ### The least of a list -/

theorem leastBy_eq_none_iff {α : Type} (f : α → Nat) (l : List α) : leastBy f l = none ↔ l = [] := by
  cases l with
  | nil => simp [leastBy]
  | cons x r =>
    simp only [leastBy, reduceCtorEq, iff_false]
    split
    · exact Option.some_ne_none x
    · split <;> exact Option.some_ne_none _

theorem leastBy_mem_and_le {α : Type} (f : α → Nat) {l : List α} {x : α} (h : leastBy f l = some x) :
    x ∈ l ∧ ∀ y ∈ l, f x ≤ f y := by
  induction l generalizing x with
  | nil => simp [leastBy] at h
  | cons a r ih =>
    simp only [leastBy] at h
    split at h
    next hr =>
      obtain rfl := Option.some.inj h
      simp [(leastBy_eq_none_iff f r).mp hr]
    next z hz =>
      obtain ⟨hmem, hle⟩ := ih hz
      split at h
      next haz =>
        obtain rfl := Option.some.inj h
        simp only [List.mem_cons, true_or, forall_eq_or_imp, le_refl, true_and]
        exact fun y hy => haz.trans (hle y hy)
      next haz =>
        obtain rfl := Option.some.inj h
        simp only [List.mem_cons, hmem, or_true, forall_eq_or_imp, true_and]
        exact ⟨by omega, hle⟩

/-- The least number of a list is the one that `leastBy` answers. -/
theorem leastBy_id_eq_some {l : List Nat} {c : Nat} (hc : c ∈ l) (hle : ∀ d ∈ l, c ≤ d) :
    leastBy (fun c => c) l = some c := by
  cases h : leastBy (fun c => c) l with
  | none => simp [(leastBy_eq_none_iff _ l).mp h] at hc
  | some x =>
    obtain ⟨hx, hxle⟩ := leastBy_mem_and_le _ h
    rw [le_antisymm (hxle c hc) (hle x hx)]

/-! ### The bands of a grid (R40, R57) -/

theorem length_gridBands (g : Nat) (spec : GridSpec) (base : Band) (id x y z : Nat) :
    (gridBands g spec base id x y z).length = if spec.red then 2 else 1 := by
  unfold gridBands
  cases spec.red <;> rfl

/-- A band of a grid is the grid's base band with its number, its grid, its coordinate and its pair. -/
theorem eq_of_mem_gridBands {g : Nat} {spec : GridSpec} {base b : Band} {id x y z : Nat}
    (hb : b ∈ gridBands g spec base id x y z) :
    ∃ n p, b = { base with id := n, grid := some g, x := x, y := y, z := z, pair := p } := by
  cases hred : spec.red with
  | false =>
    simp only [gridBands, hred, Bool.false_eq_true, if_false, List.mem_singleton] at hb
    exact ⟨id, base.pair, hb⟩
  | true =>
    simp only [gridBands, hred, if_true, List.mem_cons, List.not_mem_nil, or_false] at hb
    obtain rfl | rfl := hb
    · exact ⟨id, some (0, id + 1), rfl⟩
    · exact ⟨id + 1, some (1, id), rfl⟩

/-- The number i below gx * gy * gz counts a coordinate, x fastest (R40). -/
theorem coordinate_lt {gx gy gz i : Nat} (hi : i < gx * gy * gz) :
    i % gx < gx ∧ i / gx % gy < gy ∧ i / (gx * gy) < gz := by
  have hxy : 0 < gx * gy := Nat.pos_of_mul_pos_right (Nat.zero_lt_of_lt hi)
  exact ⟨Nat.mod_lt _ (Nat.pos_of_mul_pos_right hxy), Nat.mod_lt _ (Nat.pos_of_mul_pos_left hxy),
    Nat.div_lt_of_lt_mul hi⟩

/-- A band as a grid starts it: PENDING, with the kernel's footprint and the packet's fields, at a coordinate of the grid. -/
def IsGridBand (s : State) (asid : Nat) (spec : GridSpec) (fp : Footprint) (depth : Nat) (b : Band) : Prop :=
  b.state = .pending ∧ b.asid = asid ∧ b.fp = fp ∧ b.ntroops = spec.troops ∧ b.depth = depth ∧ b.prio = spec.prio ∧
    b.grid = some s.fresh ∧ b.x < spec.gx ∧ b.y < spec.gy ∧ b.z < spec.gz

theorem State.exists_bands_startGrid (s : State) (asid : Nat) (spec : GridSpec) (fp : Footprint) (arglen : Nat)
    (seq gridseq : Word) (parent : Option (Nat × Nat)) (depth : Nat) :
    ∃ bs, (s.startGrid asid spec fp arglen seq gridseq parent depth).bands = s.bands ++ bs ∧
      bs.length = spec.gx * spec.gy * spec.gz * (if spec.red then 2 else 1) ∧
      ∀ b ∈ bs, IsGridBand s asid spec fp depth b := by
  refine ⟨_, rfl, ?_, fun b hb => ?_⟩
  · simp only [List.length_flatten, List.map_map, Function.comp_def, length_gridBands, List.map_const', List.sum_replicate,
      List.length_range, smul_eq_mul]
  · simp only [List.mem_flatten, List.mem_map, List.mem_range, exists_exists_and_eq_and] at hb
    obtain ⟨i, hi, hb⟩ := hb
    obtain ⟨n, p, rfl⟩ := eq_of_mem_gridBands hb
    exact ⟨rfl, rfl, rfl, rfl, rfl, rfl, rfl, coordinate_lt hi⟩

/-! ### The check of a launch (R47) -/

/-- A launch no longer waits for its check. -/
def State.withoutLaunch (s : State) (id : Nat) : State := { s with launches := s.launches.filter (·.id != id) }

/-- The codes that a launched packet meets: that of its type, and those of a GRID packet (R43, R47). -/
def State.launchCodes (s : State) (asid p : Nat) : List Nat :=
  (if p % 256 = 1 then [] else [1]) ++ s.gridCodes asid p

theorem exec_deviceLaunchCheck {s : State} {l : Launch} (h : s.launches.find? (·.id == l.id) = some l) :
    exec (.deviceLaunchCheck l.id) s = .next (s.checkLaunch l) := by
  change execDeviceLaunchCheck l.id s = _
  simp only [execDeviceLaunchCheck, h]

theorem fieldOf_zero_eight (p : Nat) : fieldOf p 0 8 = p % 256 := by
  simp only [fieldOf, pow_zero, Nat.div_one, Nat.reducePow]

/-- Where no check fails there is a kernel header that passes (R23). -/
theorem State.exists_kernelAt_of_gridCodes {s : State} {asid p : Nat} (h : s.gridCodes asid p = []) :
    ∃ fp n, s.kernelAt asid (GridSpec.of p).khdr = some (fp, n) := by
  cases hk : s.kernelAt asid (GridSpec.of p).khdr with
  | none => simp [State.gridCodes, hk] at h
  | some k => exact ⟨k.1, k.2, rfl⟩

section Grid

variable {s : State} {l : Launch} {pkt : BitVec 1024} {va : Nat} (hl : l.what = .grid pkt va)

include hl

/-- A grid that fails checks is recorded with the lowest code. -/
theorem State.checkLaunch_of_least {c : Nat} (hc : c ∈ s.launchCodes l.asid pkt.toNat)
    (hle : ∀ d ∈ s.launchCodes l.asid pkt.toNat, c ≤ d) :
    s.checkLaunch l = (s.withoutLaunch l.id).launchRecord l 1 (BitVec.ofNat 32 c :: addrWords va) := by
  have hleast : leastBy (fun c => c)
      ((if pkt.toNat % 256 = 1 then [] else [1]) ++ (s.withoutLaunch l.id).gridCodes l.asid pkt.toNat) = some c :=
    leastBy_id_eq_some hc hle
  simp only [State.withoutLaunch] at hleast ⊢
  simp only [State.checkLaunch, hl, fieldOf_zero_eight, hleast]

/-- A grid that passes starts. -/
theorem State.checkLaunch_of_passes {n : Nat} {fp : Footprint} (hcodes : s.launchCodes l.asid pkt.toNat = [])
    (hk : s.kernelAt l.asid (GridSpec.of pkt.toNat).khdr = some (fp, n)) :
    s.checkLaunch l = (s.withoutLaunch l.id).startGrid l.asid (GridSpec.of pkt.toNat) fp n l.gridseq l.gridseq
      (some (l.parent, l.id)) l.depth := by
  have hleast : leastBy (fun c => c)
      ((if pkt.toNat % 256 = 1 then [] else [1]) ++ (s.withoutLaunch l.id).gridCodes l.asid pkt.toNat) = none :=
    (leastBy_eq_none_iff _ _).mpr hcodes
  have hkernel : (s.withoutLaunch l.id).kernelAt l.asid (GridSpec.of pkt.toNat).khdr = some (fp, n) := hk
  simp only [State.withoutLaunch] at hleast hkernel ⊢
  simp only [State.checkLaunch, hl, fieldOf_zero_eight, hleast, hkernel]

end Grid

section Task

variable {s : State} {l : Launch} {idx : Nat} {args : List Word} {die : Option Nat} (hl : l.what = .task idx args die)

include hl

/-- A task whose descriptor fails is recorded with the number of the check (R28). -/
theorem State.checkLaunch_of_taskAt_error {n : Nat} (ht : s.taskAt l.asid idx = .error n) :
    s.checkLaunch l = (s.withoutLaunch l.id).launchRecord l 2 [BitVec.ofNat 32 idx, BitVec.ofNat 32 n] := by
  have htask : (s.withoutLaunch l.id).taskAt l.asid idx = .error n := ht
  simp only [State.withoutLaunch] at htask ⊢
  simp only [State.checkLaunch, hl, htask]

/-- A task that needs features no core has is recorded like a refused launch (R47). -/
theorem State.checkLaunch_of_uncovered {d : TaskDesc} (ht : s.taskAt l.asid idx = .ok d)
    (hf : uncovered d.fp.features = true) :
    s.checkLaunch l = (s.withoutLaunch l.id).launchRecord l 1 ((7 : Word) ::
      addrWords (((s.ctx? l.asid).map (·.tdtbase)).getD 0 + 32 * idx) ++ [BitVec.ofNat 32 idx]) := by
  have htask : (s.withoutLaunch l.id).taskAt l.asid idx = .ok d := ht
  simp only [State.withoutLaunch] at htask ⊢
  simp only [State.checkLaunch, hl, htask, hf, if_true]
  rfl

/-- A task that passes starts. -/
theorem State.checkLaunch_of_covered {d : TaskDesc} (ht : s.taskAt l.asid idx = .ok d)
    (hf : uncovered d.fp.features = false) :
    s.checkLaunch l = (s.withoutLaunch l.id).startTask l.asid l.id l.parent l.depth l.prio l.gridseq d args die
      l.counter := by
  have htask : (s.withoutLaunch l.id).taskAt l.asid idx = .ok d := ht
  simp only [State.withoutLaunch] at htask ⊢
  simp only [State.checkLaunch, hl, htask, hf, Bool.false_eq_true, if_false]

end Task

/-- A band as a task starts it: PENDING, alone, with its descriptor's footprint, and the arguments and priority given. -/
def IsTaskBand (s : State) (asid child parent depth : Nat) (gridseq : Word) (fp : Footprint) (args : List Word)
    (die : Option Nat) (prio : Nat) (b : Band) : Prop :=
  b.id = s.fresh ∧ b.state = .pending ∧ b.asid = asid ∧ b.fp = fp ∧ b.ntroops = 1 ∧ b.task = true ∧ b.args = args ∧
    b.parent = some (parent, child) ∧ b.depth = depth ∧ b.gridseq = gridseq ∧ b.die = die ∧ b.prio = prio

theorem State.exists_band_startTask (s : State) (asid child parent depth launcher : Nat) (gridseq : Word) (d : TaskDesc)
    (args : List Word) (die : Option Nat) (counter : Bool) :
    ∃ b, s.startTask asid child parent depth launcher gridseq d args die counter =
        { s with bands := s.bands ++ [b], fresh := s.fresh + 1 } ∧
      IsTaskBand s asid child parent depth gridseq d.fp args die
        (if d.inh = true ∨ counter = true then launcher else d.prio) b := by
  refine ⟨_, rfl, rfl, rfl, rfl, rfl, rfl, rfl, rfl, rfl, rfl, rfl, rfl, ?_⟩
  simp only [newBand, Bool.or_eq_true]

/-- Settles O46: the check is one of five cases, by the codes that a grid meets and by a task's descriptor. -/
theorem launchesChecked : Obligations.LaunchesChecked := by
  unfold Obligations.LaunchesChecked
  intro s l hfind s0 origin record
  rw [exec_deviceLaunchCheck hfind]
  refine ⟨fun pkt va hl => ⟨fun c hc hle => ?_, fun hcodes => ?_⟩, fun idx args die hl =>
    ⟨fun n ht => ?_, fun d ht => ⟨fun hf => ?_, fun hf => ?_⟩⟩⟩
  · exact congrArg _ (State.checkLaunch_of_least hl hc hle)
  · obtain ⟨fp, n, hk⟩ := State.exists_kernelAt_of_gridCodes (List.append_eq_nil_iff.mp hcodes).2
    exact ⟨fp, n, _, hk, congrArg _ (State.checkLaunch_of_passes hl hcodes hk), rfl,
      (s.withoutLaunch l.id).exists_bands_startGrid .., rfl⟩
  · exact congrArg _ (State.checkLaunch_of_taskAt_error hl ht)
  · exact congrArg _ (State.checkLaunch_of_uncovered hl ht hf)
  · rw [State.checkLaunch_of_covered hl ht hf]
    obtain ⟨b, hstart, hb⟩ := (s.withoutLaunch l.id).exists_band_startTask l.asid l.id l.parent l.depth l.prio l.gridseq d
      args die l.counter
    exact ⟨b, congrArg _ hstart, hb⟩

end Sys2Proof.Machine

/-! # Contexts: their making, their kill and the end of their reclaim walk (O48)

A kill is a filter of the state by the bands of its context, so what stays is said by membership. `State.forgetAsid` filters what
the walks of the homes leave, whatever they leave: its lemmas hold of every state. -/

namespace Sys2Proof.Machine

/-! ### Finding a context after a change -/

theorem State.ctx?_asid {s : State} {a : Nat} {c : Ctx} (h : s.ctx? a = some c) : c.asid = a := by
  simpa using List.find?_some h

theorem State.ctx?_modCtx (s : State) (a b : Nat) (f : Ctx → Ctx) (hf : ∀ c, (f c).asid = c.asid) :
    (s.modCtx a f).ctx? b = (s.ctx? b).map fun c => if c.asid == a then f c else c := by
  simp only [State.ctx?, State.modCtx]
  exact find?_modIf _ _ f _ fun c => by rw [hf]

theorem State.ctx?_modCtx_self (s : State) (a : Nat) (f : Ctx → Ctx) (hf : ∀ c, (f c).asid = c.asid) :
    (s.modCtx a f).ctx? a = (s.ctx? a).map f := by
  rw [s.ctx?_modCtx a a f hf]
  cases h : s.ctx? a with
  | none => rfl
  | some c => simp [State.ctx?_asid h]

theorem State.ctx?_modCtx_ne (s : State) {a b : Nat} (f : Ctx → Ctx) (hf : ∀ c, (f c).asid = c.asid) (hb : b ≠ a) :
    (s.modCtx a f).ctx? b = s.ctx? b := by
  rw [s.ctx?_modCtx a b f hf]
  cases h : s.ctx? b with
  | none => rfl
  | some c => simp [State.ctx?_asid h, hb]

/-! ### What a kill stops (R42, R57, R331) -/

@[simp] theorem State.ctx?_stopCtx (s : State) (asid a : Nat) : (s.stopCtx asid).ctx? a = s.ctx? a := rfl

/-- The numbers of a context's bands, by which a kill knows the threads whose work it stops. -/
theorem bandIds_contains_iff (l : List Band) (asid i : Nat) :
    ((l.filter fun b => b.asid == asid).map (·.id)).contains i = true ↔ ∃ b ∈ l, b.id = i ∧ b.asid = asid := by
  simp only [List.contains_iff_mem, List.mem_map, List.mem_filter, beq_iff_eq]
  exact exists_congr fun b => by tauto

/-- Of a list of threads' work, what is not of a context's bands is kept. -/
theorem mem_filter_not_ofBands {α : Type} (l : List α) (tid : α → Tid) (bs : List Band) (asid : Nat) (x : α) :
    (x ∈ l.filter fun y => !((bs.filter fun b => b.asid == asid).map (·.id)).contains (tid y).band) ↔
      x ∈ l ∧ ¬ ∃ b ∈ bs, b.id = (tid x).band ∧ b.asid = asid := by
  rw [List.mem_filter, ← bandIds_contains_iff, Bool.not_eq_true', Bool.not_eq_true]

/-- The bands of a killed context are retired, and hold no core and no troop (R57). -/
theorem State.retired_of_mem_stopCtx {s : State} {asid : Nat} {b : Band} (hb : b ∈ (s.stopCtx asid).bands)
    (ha : b.asid = asid) : b.state = .retired ∧ b.troops = [] ∧ b.cores = [] := by
  obtain ⟨x, -, rfl⟩ := List.mem_map.mp hb
  split at ha
  next hx =>
    rw [if_pos hx]
    exact ⟨rfl, rfl, rfl⟩
  next hx => exact absurd ha hx

/-- The bands of other contexts stay. -/
theorem State.filter_bands_stopCtx (s : State) (asid : Nat) :
    (s.stopCtx asid).bands.filter (·.asid != asid) = s.bands.filter (·.asid != asid) := by
  simp only [State.stopCtx]
  induction s.bands with
  | nil => rfl
  | cons b r ih =>
    rw [List.map_cons]
    by_cases hb : b.asid = asid
    · rw [if_pos hb, List.filter_cons_of_neg (by simp [Band.released, hb]), List.filter_cons_of_neg (by simp [hb]), ih]
    · rw [if_neg hb, List.filter_cons_of_pos (by simp [hb]), List.filter_cons_of_pos (by simp [hb]), ih]

/-- No counter of the context's window stays (R50, R331). -/
theorem State.not_window_of_mem_stopCtx {s : State} {asid : Nat} {c : Ctx} {d : DepCounter} (hc : s.ctx? asid = some c)
    (hd : d ∈ (s.stopCtx asid).deps) : ¬ (c.depbase ≤ d.idx ∧ d.idx < c.depbase + c.depcnt) := by
  have hout := (List.mem_filter.mp hd).2
  simp only [hc, Option.map_some, Option.getD_some, Bool.not_eq_true', Bool.and_eq_false_iff, decide_eq_false_iff_not] at hout
  exact not_and_or.mpr hout

/-- The killed context is no longer live, and keeps what its completion record will say. -/
theorem State.ctx?_killCtx_self {s : State} {asid : Nat} {c : Ctx} (hc : s.ctx? asid = some c) (seq : Word) (cpl : Bool)
    (pa : Nat) : (s.killCtx asid seq cpl pa).ctx? asid = some { c with
      live := false
      kill := some (seq, cpl, pa, (s.grids.filter fun g => g.asid == asid && !g.complete).length) } := by
  rw [State.killCtx, State.ctx?_modCtx_self, State.ctx?_stopCtx, hc, Option.map_some]
  exact fun _ => rfl

theorem State.ctx?_killCtx_ne (s : State) {asid a : Nat} (seq : Word) (cpl : Bool) (pa : Nat) (ha : a ≠ asid) :
    (s.killCtx asid seq cpl pa).ctx? a = s.ctx? a := by
  rw [State.killCtx, State.ctx?_modCtx_ne _ _ ?_ ha, State.ctx?_stopCtx]
  exact fun _ => rfl

/-! ### The end of the reclaim walk (R68, R182, R331) -/

/-- What is left of a list of an ASID's objects is of other contexts. -/
theorem asid_ne_of_mem_filter {α : Type} {l : List α} {f : α → Nat} {asid : Nat} {x : α}
    (hx : x ∈ l.filter fun y => f y != asid) : f x ≠ asid :=
  bne_iff_ne.mp (List.mem_filter.mp hx).2

/-- A translation that is left in an ASID's name is one that every context shares (R189). -/
theorem global_of_mem_filter {l : List TlbEntry} {asid : Nat} {e : TlbEntry}
    (he : e ∈ l.filter fun y => y.asid != asid || y.global) (ha : e.asid = asid) : e.global = true := by
  simpa [ha] using (List.mem_filter.mp he).2

theorem State.asid_ne_of_mem_ctxs_forgetAsid {w : State} {asid : Nat} {c : Ctx} (hc : c ∈ (w.forgetAsid asid).ctxs) :
    c.asid ≠ asid :=
  asid_ne_of_mem_filter hc

theorem State.asid_ne_of_mem_bands_forgetAsid {w : State} {asid : Nat} {b : Band} (hb : b ∈ (w.forgetAsid asid).bands) :
    b.asid ≠ asid :=
  asid_ne_of_mem_filter hb

/-- A core keeps no line of the ASID, and no translation but shared ones. -/
theorem State.core_forgetAsid {w : State} {asid : Nat} {k : CoreSt} (hk : k ∈ (w.forgetAsid asid).cores) :
    (∀ l ∈ k.l1, l.asid ≠ asid) ∧ ∀ e ∈ k.tlb, e.asid = asid → e.global = true := by
  obtain ⟨x, -, rfl⟩ := List.mem_map.mp hk
  exact ⟨fun _ => asid_ne_of_mem_filter, fun _ => global_of_mem_filter⟩

/-- A C-die keeps no line of the ASID, and no translation but shared ones. -/
theorem State.die_forgetAsid {w : State} {asid : Nat} {d : DieSt} (hd : d ∈ (w.forgetAsid asid).dies) :
    (∀ l ∈ d.l2, l.asid ≠ asid) ∧ ∀ e ∈ d.tlb, e.asid = asid → e.global = true := by
  obtain ⟨x, -, rfl⟩ := List.mem_map.mp hd
  exact ⟨fun _ => asid_ne_of_mem_filter, fun _ => global_of_mem_filter⟩

theorem exec_reclaimWalkEnd {s : State} {asid pa cut : Nat} {c : Ctx} {seq : Word} {cpl : Bool} (hc : s.ctx? asid = some c)
    (hk : c.kill = some (seq, cpl, pa, cut)) :
    exec (.reclaimWalkEnd asid) s = .next ((((s.homes.map (·.id)).foldl (fun s h => s.reclaimHome asid h) s).forgetAsid
      asid).completeAt cpl pa 3 asid seq cut c.cseq) := by
  change execReclaimWalkEnd asid s = _
  simp only [execReclaimWalkEnd, hc, hk]

/-- Settles O48: a new context is read off its packet, a kill filters the state by its context, and the walk's end forgets it. -/
theorem contextsEnd : Obligations.ContextsEnd := by
  unfold Obligations.ContextsEnd
  refine ⟨fun p => ⟨rfl, rfl, rfl, rfl, rfl, rfl, rfl, rfl, rfl, rfl, rfl, rfl, rfl, rfl⟩, ?_, ?_⟩
  · intro s asid seq cpl pa c hc
    exact ⟨State.ctx?_killCtx_self hc seq cpl pa, fun a => s.ctx?_killCtx_ne seq cpl pa,
      fun b hb => State.retired_of_mem_stopCtx hb, s.filter_bands_stopCtx asid, rfl, rfl, rfl, rfl, rfl,
      rfl, rfl, fun d hd => State.not_window_of_mem_stopCtx hc hd, fun x => mem_filter_not_ofBands s.ops (·.tid) s.bands asid x,
      fun x => mem_filter_not_ofBands s.pending (·.tid) s.bands asid x,
      fun x => mem_filter_not_ofBands s.flights (·.tid) s.bands asid x,
      fun x => mem_filter_not_ofBands s.asyncs (·.tid) s.bands asid x, rfl, rfl, rfl⟩
  · intro s asid c seq cpl pa cut hc hk
    exact ⟨exec_reclaimWalkEnd hc hk, fun _ => State.asid_ne_of_mem_ctxs_forgetAsid,
      fun _ => State.asid_ne_of_mem_bands_forgetAsid, fun _ => State.core_forgetAsid, fun _ => State.die_forgetAsid⟩

end Sys2Proof.Machine

/-! # The state after power-on (O59)

Every table of `State.reset` is empty, a constant list, or one entry per number, so each claim about its entries is one about the
entry at reset. -/

namespace Sys2Proof.Machine

theorem State.reset_queue {q : Queue} (hq : q ∈ State.reset.queues) : q = Queue.reset :=
  List.eq_of_mem_replicate hq

theorem State.reset_core {c : CoreSt} (hc : c ∈ State.reset.cores) : ∃ i, c = CoreSt.reset i := by
  obtain ⟨i, -, rfl⟩ := List.mem_map.mp hc
  exact ⟨i, rfl⟩

theorem State.reset_die {d : DieSt} (hd : d ∈ State.reset.dies) : ∃ i, d = ⟨i, [], [], 0⟩ := by
  obtain ⟨i, -, rfl⟩ := List.mem_map.mp hd
  exact ⟨i, rfl⟩

theorem State.reset_home {h : HomeSt} (hh : h ∈ State.reset.homes) : ∃ i, h = ⟨i, [], [], [], []⟩ := by
  obtain ⟨i, -, rfl⟩ := List.mem_map.mp hh
  exact ⟨i, rfl⟩

theorem State.reset_quad {q : Quad} (hq : q ∈ State.reset.quads) : ∃ i, q = ⟨i, 200000, 200000, false, []⟩ := by
  obtain ⟨i, -, rfl⟩ := List.mem_map.mp hq
  exact ⟨i, rfl⟩

theorem State.reset_slot {x : TrapSlot} (hx : x ∈ State.reset.slots) : ∃ c i, x = ⟨c, i, none, [], []⟩ := by
  obtain ⟨l, hl, hx⟩ := List.mem_flatten.mp hx
  obtain ⟨c, -, rfl⟩ := List.mem_map.mp hl
  obtain ⟨i, -, rfl⟩ := List.mem_map.mp hx
  exact ⟨c, i, rfl⟩

theorem State.length_reset_slots : State.reset.slots.length = 256 := by
  simp only [State.reset, List.length_flatten, List.map_map, Function.comp_def, TrapSlot.resetOf, List.length_map,
    List.length_range, List.map_const', List.sum_replicate, smul_eq_mul, Config.cores, Config.trapSlots]

theorem State.reset_link {l : Link} (hl : l ∈ State.reset.dev.links) : l.up = false := by
  obtain ⟨i, -, rfl⟩ := List.mem_map.mp hl
  rfl

/-- Settles O59: the registers stand in `State.reset` itself, and an entry of a table is the entry at reset. -/
theorem resetState : Obligations.ResetState := by
  unfold Obligations.ResetState
  intro s
  refine ⟨rfl, rfl, rfl, rfl, rfl, rfl, rfl, rfl, rfl, rfl, rfl, fun _ => State.reset_link, ?queues, ?queue, ?cores, ?core, ?dies, ?die,
    ?slots, ?slot, rfl, rfl, rfl, rfl, rfl, rfl, rfl, rfl, rfl, rfl, rfl, rfl, rfl, rfl, rfl, rfl, rfl, rfl, rfl, rfl, rfl, rfl,
    rfl, rfl, rfl, ?homes, ?home, ?quads, ?quad, rfl, ⟨rfl, rfl⟩, fun _ => rfl⟩
  case queues => exact List.length_replicate
  case queue =>
    intro q hq
    rw [State.reset_queue hq]
    exact ⟨rfl, rfl, rfl, rfl, rfl, rfl, rfl, rfl, rfl, rfl, rfl⟩
  case cores => rfl
  case core =>
    intro c hc
    obtain ⟨i, rfl⟩ := State.reset_core hc
    exact ⟨rfl, rfl, rfl, rfl, rfl, rfl, rfl, rfl⟩
  case dies => rfl
  case die =>
    intro d hd
    obtain ⟨i, rfl⟩ := State.reset_die hd
    exact ⟨rfl, rfl, rfl⟩
  case slots => exact State.length_reset_slots
  case slot =>
    intro x hx
    obtain ⟨c, i, rfl⟩ := State.reset_slot hx
    rfl
  case homes => rfl
  case home =>
    intro h hh
    obtain ⟨i, rfl⟩ := State.reset_home hh
    exact ⟨rfl, rfl⟩
  case quads => rfl
  case quad =>
    intro q hq
    obtain ⟨i, rfl⟩ := State.reset_quad hq
    exact ⟨rfl, rfl⟩

end Sys2Proof.Machine

/-! # The launch queues (O47)

A packet that a queue finds is consumed by `State.consume`, whatever its KIND: refused with the least of the codes it meets, or
accepted. What differs from KIND to KIND is the list of codes and what an accepted packet does. -/

namespace Sys2Proof.Machine

/-! ### Changes at one place of a list -/

theorem modAt_modAt {α : Type} (l : List α) (i : Nat) (f g : α → α) : modAt (modAt l i f) i g = modAt l i fun x => g (f x) := by
  induction l generalizing i with
  | nil => rfl
  | cons x r ih =>
    cases i with
    | zero => rfl
    | succ i => simp only [modAt, ih]

theorem modAt_congr {α : Type} {l : List α} {i : Nat} {x : α} {f g : α → α} (hx : l[i]? = some x) (h : f x = g x) :
    modAt l i f = modAt l i g := by
  induction l generalizing i with
  | nil => rfl
  | cons y r ih =>
    cases i with
    | zero =>
      obtain rfl : y = x := by simpa using hx
      simp only [modAt, h]
    | succ i => simp only [modAt, ih (by simpa using hx)]

theorem State.modQueue_congr {s : State} {q : Nat} {x : Queue} {f g : Queue → Queue} (hx : s.queue? q = some x) (h : f x = g x) :
    s.modQueue q f = s.modQueue q g := by
  simp only [State.modQueue, modAt_congr hx h]

theorem State.modQueue_modQueue (s : State) (q : Nat) (f g : Queue → Queue) :
    (s.modQueue q f).modQueue q g = s.modQueue q fun x => g (f x) := by
  simp only [State.modQueue, modAt_modAt]

/-! ### A queue that comes to rest, and the packet in its slot (R37, R38) -/

/-- A queue whose consumption is looked at again: it goes on, or ends and is IDLE (R38). -/
def Queue.rest (x : Queue) : Queue :=
  if (x.qen = true ∨ x.reread.isSome = true) ∧ (x.kick - x.qhead).toNat < 2 ^ 31 then x
  else { x with running := false, idle := true, reread := none }

theorem Queue.settle_of_running {x : Queue} (h : x.running = true) : x.settle = x.rest := by
  by_cases hgo : (x.qen = true ∨ x.reread.isSome = true) ∧ (x.kick - x.qhead).toNat < 2 ^ 31
  · have hgo' : ((x.qen || x.reread.isSome) && atOrAhead x.kick x.qhead) = true := by
      simpa only [atOrAhead, Bool.and_eq_true, Bool.or_eq_true, decide_eq_true_eq] using hgo
    simp only [Queue.settle, Queue.rest, hgo', if_pos hgo, Bool.not_true, Bool.and_false, Bool.false_eq_true, if_false]
  · have hgo' : ((x.qen || x.reread.isSome) && atOrAhead x.kick x.qhead) = false := by
      rw [← Bool.not_eq_true]
      simpa only [atOrAhead, Bool.and_eq_true, Bool.or_eq_true, decide_eq_true_eq] using hgo
    simp only [Queue.settle, Queue.rest, hgo', if_neg hgo, h, Bool.not_false, Bool.and_self, if_true]

theorem Queue.kicked_eq_rest (x : Queue) (target : Word) :
    x.kicked target = Queue.rest { x with kickAhead := false, idle := false, kick := target, running := true } :=
  Queue.settle_of_running rfl

/-- A queue whose packet has been consumed (R37, R38). -/
def Queue.after (x : Queue) : Queue := Queue.rest { x with qhead := x.qhead + 1, reread := none }

/-- A queue whose packet has been refused (R43). -/
def Queue.refuse (p c : Nat) (x : Queue) : Queue :=
  Queue.after { x with
    refused := true, qrefcnt := satInc x.qrefcnt, qerr := BitVec.ofNat 32 (c + 2 ^ 8 * (p / 2 ^ 992 % 2 ^ 32 % 2 ^ 24)) }

/-- SEQ is the last word of a slot (R39). -/
theorem State.packetSeq_slotAt (s : State) (x : Queue) : packetSeq (s.slotAt x) =
    BitVec.ofNat 32 (leNat (readBytes s.mem (x.qbase + 128 * (x.qhead.toNat % 2 ^ x.qsize) + 124) 4)) := by
  rw [State.slotAt, ← drop_take_readBytes s.mem _ 128 124 4 (by norm_num), leNat_take, leNat_drop, packetSeq, fieldOf,
    ← pow256, ← pow256]

theorem packetSeq_eq_ofNat_div (p : Nat) : packetSeq p = BitVec.ofNat 32 (p / 2 ^ 992) := by
  apply BitVec.eq_of_toNat_eq
  simp only [packetSeq, fieldOf, BitVec.toNat_ofNat, Nat.mod_mod]

theorem toNat_packetSeq (p : Nat) : (packetSeq p).toNat = p / 2 ^ 992 % 2 ^ 32 := by
  rw [packetSeq_eq_ofNat_div, BitVec.toNat_ofNat]

/-- A queue finds a packet: it runs, may consume, and the packet in the slot of QHEAD bears its number (R37). -/
structure State.Finds (s : State) (q : Fin 64) (x : Queue) (p : Nat) : Prop where
  queue : s.queue? q = some x
  running : x.running = true
  may : x.qen = true ∨ x.reread.isSome = true
  seq : packetSeq p = x.qhead
  slot : s.slotAt x = p

theorem State.Finds.packetAt {s : State} {q : Fin 64} {x : Queue} {p : Nat} (h : s.Finds q x p) : s.packetAt q = some (x, p) := by
  have hmay : (x.qen || x.reread.isSome) = true := by simpa only [Bool.or_eq_true] using h.may
  simp only [State.packetAt, h.queue, h.running, h.slot, h.seq, hmay, beq_self_eq_true, Bool.and_self, if_true]

/-! ### Consumption (R37, R43) -/

section Consume

variable {s : State} {q : Fin 64} {x : Queue} {p : Nat} (hx : s.queue? q = some x) (hrun : x.running = true)

include hx hrun

/-- The least code met is the one a packet is refused with; nothing else changes. -/
theorem State.consume_of_least {codes : List Nat} {accept : State → State} {c : Nat} (hc : c ∈ codes) (hle : ∀ d ∈ codes, c ≤ d) :
    s.consume q p codes accept = s.modQueue q (Queue.refuse p c) := by
  simp only [State.consume, leastBy_id_eq_some hc hle, State.modQueue_modQueue, toNat_packetSeq]
  apply State.modQueue_congr hx
  exact Queue.settle_of_running hrun

/-- A packet that meets no code has its effect. -/
theorem State.consume_of_passes {codes : List Nat} {accept : State → State} (hcodes : codes = [])
    (hq : (accept s).queues = s.queues) : s.consume q p codes accept = (accept s).modQueue q Queue.after := by
  have hxa : (accept s).queue? q = some x := by rw [State.queue?, hq]; exact hx
  simp only [State.consume, (leastBy_eq_none_iff _ _).mpr hcodes]
  apply State.modQueue_congr hxa
  exact Queue.settle_of_running hrun

end Consume

/-! ### KICK, re-reads and the time limit (R38) -/

theorem exec_kick {s : State} (q : Fin 64) (target : Word) (hh : s.dev.halted = false) (hqp : s.cmd.qp = 1) :
    exec (.kick q target) s = .next ((s.modQueue q fun x => x.kicked target).answer s.cmd .done) := by
  change execKick q target s = _
  simp only [execKick, State.command, hh, hqp, ne_eq, not_true_eq_false, if_false, Bool.false_eq_true]

theorem exec_queueSlotReread {s : State} {q : Fin 64} {x : Queue} (hx : s.queue? q = some x) (hrun : x.running = true)
    (hseq : packetSeq (s.slotAt x) ≠ x.qhead) (hre : x.reread = none) :
    exec (.queueSlotReread q) s = .next (s.modQueue q fun x => { x with reread := some s.clock }) := by
  change execQueueSlotReread q s = _
  simp only [execQueueSlotReread, hx, hrun, bne_iff_ne.mpr hseq, hre, Option.isNone_none, Bool.and_self, if_true]

theorem exec_kickAheadTimeout {s : State} {q : Fin 64} {x : Queue} {t : Nat} (hx : s.queue? q = some x) (hrun : x.running = true)
    (hseq : packetSeq (s.slotAt x) ≠ x.qhead) (hre : x.reread = some t) (ht : t + 64 * Config.clocksPerUs ≤ s.clock) :
    exec (.kickAheadTimeout q) s =
      .next (s.modQueue q fun x => { x with kickAhead := true, running := false, reread := none }) := by
  change execKickAheadTimeout q s = _
  simp only [execKickAheadTimeout, hx, hrun, bne_iff_ne.mpr hseq, hre, ht, decide_true, Bool.and_self, if_true]

/-! ### The packets (R39 to R43) -/

/-- A packet whose low bits are 0 is of KIND 0 (R39). -/
theorem mod_256_of_mod_eq_zero {p n : Nat} (hn : 8 ≤ n) (h : p % 2 ^ n = 0) : p % 256 = 0 := by
  exact Nat.mod_eq_zero_of_dvd ((Nat.pow_dvd_pow 2 hn).trans (Nat.dvd_of_mod_eq_zero h))

theorem exec_nopPacket {s : State} {q : Fin 64} {x : Queue} {p : Nat} (h : s.Finds q x p) (hk : ¬ (1 ≤ p % 256 ∧ p % 256 ≤ 3)) :
    exec (.nopPacket q) s = .next (s.consume q p (if p % 2 ^ 992 = 0 then [] else [1]) fun s => s) := by
  have hk' : (decide (1 ≤ p % 256) && decide (p % 256 ≤ 3)) = false := by
    rw [← Bool.not_eq_true]
    simpa only [Bool.and_eq_true, decide_eq_true_eq] using hk
  change execNopPacket q s = _
  simp only [execNopPacket, h.packetAt, packetKind, fieldOf_zero_eight, hk', Bool.false_eq_true, if_false]
  simp only [fieldOf, pow_zero, Nat.div_one]

theorem State.liveCtx_iff (s : State) (asid : Nat) : s.liveCtx asid = true ↔ (s.ctx? asid).map (·.live) = some true := by
  cases h : s.ctx? asid <;> simp [State.liveCtx, h]

/-- The codes that a GRID packet of a queue meets (R43). -/
def State.gridPacketCodes (s : State) (x : Queue) (p : Nat) : List Nat :=
  s.gridCodes x.qctx p ++ if (s.ctx? x.qctx).map (·.live) = some true then [] else [3]

/-- What an accepted GRID packet of a queue does (R40). -/
def State.acceptGrid (s : State) (x : Queue) (p : Nat) : State :=
  match s.kernelAt x.qctx (GridSpec.of p).khdr with
  | some (fp, n) => s.startGrid x.qctx (GridSpec.of p) fp n (packetSeq p) (packetSeq p) none 0
  | none => s

theorem State.queues_acceptGrid (s : State) (x : Queue) (p : Nat) : (s.acceptGrid x p).queues = s.queues := by
  unfold State.acceptGrid
  split <;> rfl

theorem exec_gridPacket {s : State} {q : Fin 64} {x : Queue} {p : Nat} (h : s.Finds q x p) (hk : p % 256 = 1) :
    exec (.gridPacket q) s = .next (s.consume q p (s.gridPacketCodes x p) fun s => s.acceptGrid x p) := by
  change execGridPacket q s = _
  simp only [execGridPacket, h.packetAt, packetKind, fieldOf_zero_eight, hk, ne_eq, not_true_eq_false, if_false,
    State.gridPacketCodes, State.liveCtx_iff]
  rfl

/-- The codes that a CTXNEW packet of a queue meets (R43). -/
def State.ctxnewCodes (s : State) (x : Queue) (p : Nat) : List Nat :=
  let c := Machine.ctxOf p
  (if ctxnewFieldsOk p then [] else [1]) ++ (if descriptorOk (p / 2 ^ 64 % 2 ^ 512) then [] else [4]) ++
    (if s.ctx? c.asid = none then [] else [5]) ++
    (if c.depbase + c.depcnt ≤ 65536 ∧ ∀ y ∈ s.ctxs, c.depcnt = 0 ∨ y.depcnt = 0 ∨ c.depbase + c.depcnt ≤ y.depbase ∨
      y.depbase + y.depcnt ≤ c.depbase then [] else [6]) ++ if x.qpriv then [] else [9]

/-- What an accepted CTXNEW packet does: the context exists, and its completion record is written if it asks for one (R41). -/
def State.acceptCtxnew (s : State) (p : Nat) (seq : Word) : State :=
  let s1 : State := { s with ctxs := s.ctxs ++ [{ Machine.ctxOf p with cseq := p / 2 ^ 11 % 2 }] }
  if p / 2 ^ 11 % 2 = 1 then s1.writeWords .base (p / 2 ^ 832 % 2 ^ 64) (completionWords 2 (Machine.ctxOf p).asid seq 0 0 0 0) else s1

theorem State.queues_writeWords (s : State) (h : HomeId) (pa : Nat) (ws : List Word) : (s.writeWords h pa ws).queues = s.queues := by
  unfold State.writeWords State.setHomeBytes
  split <;> rfl

theorem State.queues_acceptCtxnew (s : State) (p : Nat) (seq : Word) : (s.acceptCtxnew p seq).queues = s.queues := by
  unfold State.acceptCtxnew
  extract_lets w
  split
  · exact State.queues_writeWords ..
  · rfl

/-- Windows of counters meet unless one is empty or ends before the other (R43). -/
theorem windowsMeet_eq_false_iff (a n b m : Nat) : windowsMeet a n b m = false ↔ n = 0 ∨ m = 0 ∨ a + n ≤ b ∨ b + m ≤ a := by
  simp only [windowsMeet, Bool.and_eq_false_iff, bne_eq_false_iff_eq, decide_eq_false_iff_not, not_lt, or_assoc]
  tauto

theorem ctxnewCodes_eq (s : State) (x : Queue) (p : Nat) :
    (if ctxnewFieldsOk p then [] else [1]) ++ (if descriptorOk (fieldOf p 64 512) then [] else [4]) ++
      (if (s.ctx? (ctxOf p).asid).isSome then [5] else []) ++
      (if 65536 < (ctxOf p).depbase + (ctxOf p).depcnt ||
        s.ctxs.any fun y => windowsMeet (ctxOf p).depbase (ctxOf p).depcnt y.depbase y.depcnt then [6] else []) ++
      (if x.qpriv then [] else [9]) = s.ctxnewCodes x p := by
  have hwindow : (decide (65536 < (ctxOf p).depbase + (ctxOf p).depcnt) ||
      s.ctxs.any fun y => windowsMeet (ctxOf p).depbase (ctxOf p).depcnt y.depbase y.depcnt) = true ↔
      ¬ ((ctxOf p).depbase + (ctxOf p).depcnt ≤ 65536 ∧ ∀ y ∈ s.ctxs, (ctxOf p).depcnt = 0 ∨ y.depcnt = 0 ∨
        (ctxOf p).depbase + (ctxOf p).depcnt ≤ y.depbase ∨ y.depbase + y.depcnt ≤ (ctxOf p).depbase) := by
    rw [← Bool.not_eq_false, Bool.or_eq_false_iff, decide_eq_false_iff_not, not_lt, List.any_eq_false]
    simp only [Bool.not_eq_true, windowsMeet_eq_false_iff]
  have hsix : (if 65536 < (ctxOf p).depbase + (ctxOf p).depcnt ||
      s.ctxs.any fun y => windowsMeet (ctxOf p).depbase (ctxOf p).depcnt y.depbase y.depcnt then [6] else []) =
      if (ctxOf p).depbase + (ctxOf p).depcnt ≤ 65536 ∧ ∀ y ∈ s.ctxs, (ctxOf p).depcnt = 0 ∨ y.depcnt = 0 ∨
        (ctxOf p).depbase + (ctxOf p).depcnt ≤ y.depbase ∨ y.depbase + y.depcnt ≤ (ctxOf p).depbase then [] else [6] := by
    split
    next h => rw [if_neg (hwindow.mp h)]
    next h => rw [if_pos (not_not.mp (mt hwindow.mpr h))]
  have hfive : (if (s.ctx? (ctxOf p).asid).isSome then [5] else []) = if s.ctx? (ctxOf p).asid = none then [] else [5] := by
    cases s.ctx? (ctxOf p).asid <;> rfl
  rw [hsix, hfive]
  rfl

theorem acceptCtxnew_eq (s : State) (p : Nat) :
    (let cpl := fieldOf p 11 1 == 1
     let s1 : State := { s with ctxs := s.ctxs ++ [{ ctxOf p with cseq := bitN cpl }] }
     s1.completeAt cpl (fieldOf p 832 64) 2 (ctxOf p).asid (packetSeq p) 0 0) = s.acceptCtxnew p (packetSeq p) := by
  have hbit : bitN (p / 2 ^ 11 % 2 == 1) = p / 2 ^ 11 % 2 := by
    rcases Nat.mod_two_eq_zero_or_one (p / 2 ^ 11) with h | h
    · simp only [h]
      rfl
    · simp only [h]
      rfl
  simp only [State.completeAt, State.acceptCtxnew, fieldOf, pow_one, hbit, beq_iff_eq]

theorem exec_ctxnew {s : State} {q : Fin 64} {x : Queue} {p : Nat} (h : s.Finds q x p) (hk : p % 256 = 2) :
    exec (.ctxnew q) s = .next (s.consume q p (s.ctxnewCodes x p) fun s => s.acceptCtxnew p x.qhead) := by
  change execCtxnew q s = _
  simp only [execCtxnew, h.packetAt, packetKind, fieldOf_zero_eight, hk, ne_eq, not_true_eq_false, if_false, ctxnewCodes_eq]
  rw [← h.seq]
  exact congrArg (fun accept => Host.Outcome.next (s.consume q p (s.ctxnewCodes x p) accept)) (funext fun s => acceptCtxnew_eq s p)

/-- The codes that a CTXKILL packet of a queue meets (R43). -/
def State.ctxkillCodes (s : State) (x : Queue) (p : Nat) : List Nat :=
  (if ctxkillFieldsOk p then [] else [1]) ++
    (if (s.ctx? (p / 2 ^ 32 % 2 ^ 11)).map (·.live) = some true then [] else [3]) ++ if x.qpriv then [] else [9]

theorem exec_ctxkill {s : State} {q : Fin 64} {x : Queue} {p : Nat} (h : s.Finds q x p) (hk : p % 256 = 3) :
    exec (.ctxkill q) s = .next (s.consume q p (s.ctxkillCodes x p) fun s =>
      s.killCtx (p / 2 ^ 32 % 2 ^ 11) x.qhead (decide (p / 2 ^ 11 % 2 = 1)) (p / 2 ^ 832 % 2 ^ 64)) := by
  have hcpl : (fieldOf p 11 1 == 1) = decide (p / 2 ^ 11 % 2 = 1) := by simp [fieldOf, beq_eq_decide]
  change execCtxkill q s = _
  simp only [execCtxkill, h.packetAt, packetKind, fieldOf_zero_eight, hk, ne_eq, not_true_eq_false, if_false, hcpl, h.seq,
    State.liveCtx_iff]
  simp only [fieldOf, State.ctxkillCodes]
  rfl

/-- Settles O47: a kick and a packet change their queue as `Queue.rest` says, and a packet is refused or accepted by the codes of
its KIND. -/
theorem queuesConsume : Obligations.QueuesConsume := by
  unfold Obligations.QueuesConsume
  intro upd at_ seq rest next finds refuse least
  have hfinds : ∀ {s q x p}, finds s q x p → s.Finds q x p := by
    intro s q x p ⟨hx, hrun, hmay, hseq, hp⟩
    refine ⟨hx, hrun, hmay, ?_, hp.symm⟩
    have hslot : s.slotAt x = p := hp.symm
    rw [← hslot, s.packetSeq_slotAt x]
    exact hseq
  have hslot : ∀ {s : State} {x}, seq s x ≠ x.qhead → packetSeq (s.slotAt x) ≠ x.qhead := by
    intro s x h
    rwa [s.packetSeq_slotAt x]
  refine ⟨?kick, ?reread, ?timeout, ?seq, ?nop, ?grid, ?ctxnew, ?ctxkill⟩
  case kick =>
    intro s q target hh hqp
    rw [exec_kick q target hh hqp]
    simp only [Queue.kicked_eq_rest]
    rfl
  case reread =>
    intro s q x hx hrun hseq hre
    exact exec_queueSlotReread hx hrun (hslot hseq) hre
  case timeout =>
    intro s q x t hx hrun hseq hre ht
    exact exec_kickAheadTimeout hx hrun (hslot hseq) hre ht
  case seq =>
    intro s q x p h
    rw [← (hfinds h).seq, packetSeq_eq_ofNat_div]
  case nop =>
    intro s q x p h
    have hf := hfinds h
    have hrefused (hk : ¬ (1 ≤ p % 256 ∧ p % 256 ≤ 3)) (hp : p % 2 ^ 992 ≠ 0) :
        exec (.nopPacket q) s = .next (upd s q (refuse p 1)) := by
      rw [exec_nopPacket hf hk, if_neg hp, State.consume_of_least hf.queue hf.running (List.mem_singleton_self 1) (by simp)]
      rfl
    refine ⟨fun hp => ?_, fun hk hp => hrefused (by omega) hp, fun hk => hrefused (by omega) fun hp => ?_⟩
    · have hk := mod_256_of_mod_eq_zero (by norm_num) hp
      rw [exec_nopPacket hf (by omega), State.consume_of_passes hf.queue hf.running (if_pos hp) rfl]
      rfl
    · have hk0 := mod_256_of_mod_eq_zero (by norm_num) hp
      omega
  case grid =>
    intro s q x p h hk codes
    have hf := hfinds h
    rw [exec_gridPacket hf hk]
    refine ⟨fun c hc => ?_, fun hcodes => ?_⟩
    · exact congrArg _ (State.consume_of_least hf.queue hf.running hc.1 hc.2)
    · obtain ⟨fp, n, hkernel⟩ := State.exists_kernelAt_of_gridCodes (List.append_eq_nil_iff.mp hcodes).1
      refine ⟨fp, n, hkernel, ?_⟩
      have haccept : s.acceptGrid x p = s.startGrid x.qctx (GridSpec.of p) fp n x.qhead x.qhead none 0 := by
        simp only [State.acceptGrid, hkernel, hf.seq]
      refine (congrArg Host.Outcome.next (State.consume_of_passes (accept := fun s => s.acceptGrid x p) hf.queue hf.running hcodes
        (s.queues_acceptGrid x p))).trans ?_
      rw [haccept]
      rfl
  case ctxnew =>
    intro s q x p h hk c codes cpl
    have hf := hfinds h
    rw [exec_ctxnew hf hk]
    exact ⟨fun c hc => congrArg _ (State.consume_of_least hf.queue hf.running hc.1 hc.2), fun hcodes =>
      congrArg _ (State.consume_of_passes hf.queue hf.running hcodes (s.queues_acceptCtxnew p x.qhead))⟩
  case ctxkill =>
    intro s q x p h hk asid codes
    have hf := hfinds h
    rw [exec_ctxkill hf hk]
    exact ⟨fun c hc => congrArg _ (State.consume_of_least hf.queue hf.running hc.1 hc.2), fun hcodes =>
      congrArg _ (State.consume_of_passes hf.queue hf.running hcodes rfl)⟩

end Sys2Proof.Machine

/-! # Continuations become tasks, threads become bundles (O50)

A slice's queue and a context's ring drain alike, by `State.drain`, which has four cases. What it reads of the state does not
depend on the packet taken out of its queue, nor on the count of the ring. A formation round makes its bundles one by one, each of
the oldest thread of every lane. -/

namespace Sys2Proof.Machine

/-! ### What a drain reads -/

theorem State.walkFrom_modCtx (s : State) (a : Nat) (f : Ctx → Ctx) (asid va table lvl : Nat) :
    (s.modCtx a f).walkFrom asid va table lvl = s.walkFrom asid va table lvl := by
  induction lvl generalizing table with
  | zero => rfl
  | succ lvl ih =>
    simp only [State.walkFrom, ih]
    rfl

section ModCtx

variable (s : State) (a : Nat) {f : Ctx → Ctx} (hasid : ∀ c, (f c).asid = c.asid) (hroot : ∀ c, (f c).ptroot = c.ptroot)

include hasid hroot

/-- A walk reads the root of a context's tables, and nothing else of the context (R189). -/
theorem State.walkVa_modCtx (asid va : Nat) : (s.modCtx a f).walkVa asid va = s.walkVa asid va := by
  simp only [State.walkVa, s.ctx?_modCtx a asid f hasid, State.walkFrom_modCtx]
  cases s.ctx? asid with
  | none => rfl
  | some c =>
    have hc : (if c.asid == a then f c else c).ptroot = c.ptroot := by
      split
      · exact hroot c
      · rfl
    simp only [Option.map_some, hc]

theorem State.translateDev_modCtx (asid va : Nat) (u : Use) :
    (s.modCtx a f).translateDev asid va u = s.translateDev asid va u := by
  simp only [State.translateDev, s.walkVa_modCtx a hasid hroot]

theorem State.deviceRead_modCtx (asid va n : Nat) : (s.modCtx a f).deviceRead asid va n = s.deviceRead asid va n := by
  simp only [State.deviceRead, s.translateDev_modCtx a hasid hroot]
  rfl

theorem State.xPage_modCtx (asid va : Nat) : (s.modCtx a f).xPage asid va = s.xPage asid va := by
  simp only [State.xPage, s.translateDev_modCtx a hasid hroot]

/-- A task's descriptor lies in the table that its context names (R26). -/
theorem State.taskAt_modCtx (hbase : ∀ c, (f c).tdtbase = c.tdtbase) (hlen : ∀ c, (f c).tdtlen = c.tdtlen) (asid idx : Nat) :
    (s.modCtx a f).taskAt asid idx = s.taskAt asid idx := by
  simp only [State.taskAt, s.ctx?_modCtx a asid f hasid, s.deviceRead_modCtx a hasid hroot, s.xPage_modCtx a hasid hroot]
  cases s.ctx? asid with
  | none => rfl
  | some c =>
    have hc : (if c.asid == a then f c else c).tdtbase = c.tdtbase ∧ (if c.asid == a then f c else c).tdtlen = c.tdtlen := by
      split
      · exact ⟨hbase c, hlen c⟩
      · exact ⟨rfl, rfl⟩
    simp only [Option.map_some, hc]

end ModCtx

/-! ### The drain (R49, R275, R277) -/

theorem State.sliceSeq_faultRecord (s : State) (asid : Nat) (words : List Word) :
    (s.faultRecord asid words).sliceSeq = s.sliceSeq := by
  unfold State.faultRecord State.writeWords State.setHomeBytes
  split
  · rfl
  · extract_lets lost
    split
    · rfl
    · split
      · rfl
      · split
        · rfl
        · rfl
        · split
          · rfl
          · split <;> rfl

/-- The record of a continuation that cannot be placed (R277). -/
def State.contRecord (s : State) (p : Packet) (reason check : Nat) : State :=
  let n := sliceNum p.home p.slice
  let k := look 0 n s.sliceSeq
  let words := recordWords 3 0x0C reason ⟨p.src.core, p.src.slot, some p.src.lane, some p.src.pc⟩ (BitVec.ofNat 57 p.va) 0 p.gridseq
    [BitVec.ofNat 32 p.task, p.old, p.tag, BitVec.ofNat 32 check, BitVec.ofNat 32 n] (BitVec.ofNat 32 k)
  let r := s.faultRecord p.asid words
  { r with sliceSeq := put 0 n (k + 1) s.sliceSeq, children := r.children.filter (·.1 != p.child) }

theorem State.contFault_eq (s : State) (p : Packet) (reason check : Nat) : s.contFault p reason check = s.contRecord p reason check := by
  simp only [State.contFault, State.contRecord, State.dropChild, State.sliceSeq_faultRecord]

section Drain

variable {s : State} {p : Packet}

theorem State.drain_of_error {n : Nat} (h : s.taskAt p.asid p.task = .error n) : s.drain p = s.contRecord p 1 n := by
  simp only [State.drain, h, State.contFault_eq]

variable {d : TaskDesc} (h : s.taskAt p.asid p.task = .ok d)

include h

theorem State.drain_of_deep (hdepth : 10 < p.depth) : s.drain p = s.contRecord p 2 0 := by
  simp only [State.drain, h, hdepth, if_true, State.contFault_eq]

theorem State.drain_of_uncovered (hdepth : p.depth ≤ 10) (hf : uncovered d.fp.features = true) : s.drain p = s.contRecord p 3 0 := by
  simp only [State.drain, h, if_neg (Nat.not_lt.mpr hdepth), hf, if_true, State.contFault_eq]

theorem State.drain_of_covered (hdepth : p.depth ≤ 10) (hf : uncovered d.fp.features = false) :
    ∃ b, s.drain p = { s with bands := s.bands ++ [b], fresh := s.fresh + 1 } ∧
      IsTaskBand s p.asid p.child p.band p.depth p.gridseq d.fp
        [p.old, BitVec.ofNat 32 p.va, BitVec.ofNat 32 (p.va / 2 ^ 32), p.tag] p.die (if d.inh then p.prio else d.prio) b := by
  obtain ⟨b, hb, hband⟩ := s.exists_band_startTask p.asid p.child p.band p.depth p.prio p.gridseq d
    ([p.old] ++ addrWords p.va ++ [p.tag]) p.die false
  refine ⟨b, ?_, ?_⟩
  · simp only [State.drain, h, if_neg (Nat.not_lt.mpr hdepth), hf, Bool.false_eq_true, if_false, hb]
  · simp only [Bool.false_eq_true, or_false] at hband
    exact hband

end Drain

theorem exec_sliceQueueDrain {s : State} {slice : Nat} {p : Packet}
    (h : s.packets.find? (fun p => sliceNum p.home p.slice == slice) = some p) :
    exec (.sliceQueueDrain slice) s = .next (({ s with packets := s.packets.filter (·.child != p.child) } : State).drain p) := by
  change execSliceQueueDrain slice s = _
  simp only [execSliceQueueDrain, h]

theorem exec_ringDrain {s : State} {asid : Nat} {p : Packet} (h : s.rings.find? (·.asid == asid) = some p)
    (hroom : s.pendCnt asid < ((s.ctx? asid).map (·.pendmax)).getD 0) :
    exec (.ringDrain asid) s = .next ((({ s with rings := s.rings.filter (·.child != p.child) } : State).modCtx asid
      fun c => { c with ring := c.ring - 1 }).drain p) := by
  change execRingDrain asid s = _
  simp only [execRingDrain, h, hroom, if_true]

/-! ### Formation (R95) -/

theorem exec_formationRound {s : State} {core : Nat} {c : CoreSt} (hc : s.core? core = some c) (hdue : c.nextForm ≤ s.clock)
    (hclock : s.clock % 4 = 0) (hready : s.formable core ≠ []) (hfree : s.freeBundles core ≠ 0) :
    exec (.formationRound core) s = .next
      ((((List.range (s.freeBundles core)).foldl (fun s _ => s.formOne core) (s.admitOverflow core)).modCore core fun c =>
        { c with nextForm := s.clock + 4 }).admitOverflow core) := by
  have hform : s.formationDue core = true := by
    simp [State.formationDue, hc, hdue, hclock, hready, hfree]
  change execFormationRound core s = _
  simp only [execFormationRound, hform, if_true]

/-- The oldest thread of each lane, of some threads with their stamps (R95). -/
def oldestByLane (mine : List (Tid × Nat)) : List (Tid × Nat) :=
  (List.range 64).filterMap fun l => oldest (mine.filter fun e => e.1.lane == l)

theorem oldest_lane {mine : List (Tid × Nat)} {l : Nat} {e : Tid × Nat} (h : oldest (mine.filter fun e => e.1.lane == l) = some e) :
    e ∈ mine ∧ e.1.lane = l ∧ ∀ f ∈ mine, f.1.lane = l → e.2 ≤ f.2 := by
  obtain ⟨hmem, hle⟩ := leastBy_mem_and_le _ h
  obtain ⟨hmine, hlane⟩ := List.mem_filter.mp hmem
  exact ⟨hmine, beq_iff_eq.mp hlane, fun f hf hfl => hle f (List.mem_filter.mpr ⟨hf, beq_iff_eq.mpr hfl⟩)⟩

theorem mem_oldestByLane {mine : List (Tid × Nat)} {e : Tid × Nat} (h : e ∈ oldestByLane mine) :
    e ∈ mine ∧ oldest (mine.filter fun f => f.1.lane == e.1.lane) = some e := by
  obtain ⟨l, -, hl⟩ := List.mem_filterMap.mp h
  obtain ⟨hmine, hlane, -⟩ := oldest_lane hl
  exact ⟨hmine, hlane ▸ hl⟩

/-- Every lane of which there is a thread has its oldest. -/
theorem exists_mem_oldestByLane {mine : List (Tid × Nat)} {e : Tid × Nat} (he : e ∈ mine) (hl : e.1.lane < 64) :
    ∃ f ∈ oldestByLane mine, f.1.lane = e.1.lane := by
  cases h : oldest (mine.filter fun f => f.1.lane == e.1.lane) with
  | none =>
    have hnil := List.filter_eq_nil_iff.mp ((leastBy_eq_none_iff _ _).mp h)
    exact absurd (beq_self_eq_true _) (hnil e he)
  | some f =>
    exact ⟨f, List.mem_filterMap.mpr ⟨_, List.mem_range.mpr hl, h⟩, (oldest_lane h).2.1⟩

/-- The PC of a thread as a formation round sees it. -/
def State.formPc (s : State) (t : Tid) : Pc := ((s.thread? t).map (·.pc)).getD ⟨0, 0⟩

/-- The threads that may share a bundle with the oldest one: those of its entry, or itself alone within a chain group (R95, R98). -/
def State.formSet (s : State) (core : Nat) (x : Tid × Nat) : List (Tid × Nat) :=
  if (s.snapOf x.1).isSome then [x]
  else (s.formable core).filter fun e => s.keyAt e.1 (s.formPc e.1) == s.keyAt x.1 (s.formPc x.1) && (s.snapOf e.1).isNone

theorem State.mem_formSet {s : State} {core : Nat} {x : Tid × Nat} (hx : x ∈ s.formable core) (e : Tid × Nat) :
    e ∈ s.formSet core x ↔ e ∈ s.formable core ∧
      if (s.snapOf x.1).isSome = true then e = x else s.keyAt e.1 (s.formPc e.1) = s.keyAt x.1 (s.formPc x.1) ∧ s.snapOf e.1 = none := by
  unfold State.formSet
  split
  · simp only [List.mem_singleton]
    exact ⟨fun h => ⟨h ▸ hx, h⟩, And.right⟩
  · simp only [List.mem_filter, Bool.and_eq_true, beq_iff_eq, Option.isNone_iff_eq_none]

/-- The bundle that a round forms of the oldest thread's entry (R95). -/
def State.newBundle (s : State) (core : Nat) (x : Tid × Nat) : Bundle :=
  let key := s.keyAt x.1 (s.formPc x.1)
  let ts := oldestByLane (s.formSet core x)
  { id := s.fresh, core := core, unit := s.freeUnit core, asid := key.asid, cseg := key.cseg, pc := key.pc, npc := key.pc,
    base := key.pc.p, next := key.pc.p, seta := 15, setb := 15, words := [], threads := ts.map (·.1), stamps := ts,
    walks := [], faults := [], snap := s.snapOf x.1 }

/-- Threads leave the Gather Board for a bundle (R95). -/
def State.bundleThreads (s : State) (id : Nat) (ts : List (Tid × Nat)) : State :=
  ts.foldl (fun s e => s.modThread e.1 fun th => { th with status := .bundled id }) s

theorem State.bundles_bundleThreads (s : State) (id : Nat) (ts : List (Tid × Nat)) : (s.bundleThreads id ts).bundles = s.bundles := by
  unfold State.bundleThreads
  induction ts generalizing s with
  | nil => rfl
  | cons e ts ih => exact (ih _).trans rfl

/-- A thread that exists and joins a bundle, or has joined it, is in it. -/
theorem State.statusOf_bundleThreads {s : State} {id : Nat} {ts : List (Tid × Nat)} {t : Tid} (hs : (s.thread? t).isSome = true)
    (ht : (∃ e ∈ ts, e.1 = t) ∨ s.statusOf t = .bundled id) : (s.bundleThreads id ts).statusOf t = .bundled id := by
  unfold State.bundleThreads
  induction ts generalizing s with
  | nil => simpa using ht
  | cons e ts ih =>
    have hth := State.thread?_modThread s e.1 t fun th => { th with status := .bundled id }
    rw [List.foldl_cons]
    obtain ⟨th, hth0⟩ := Option.isSome_iff_exists.mp hs
    by_cases het : t = e.1
    · rw [if_pos het, hth0] at hth
      exact ih (by rw [hth]; rfl) (Or.inr (by rw [State.statusOf, hth]; rfl))
    · rw [if_neg het] at hth
      refine ih (by rw [hth]; exact hs) ?_
      rcases ht with ⟨f, hf, hft⟩ | ht
      · rcases List.mem_cons.mp hf with rfl | hf
        · exact absurd hft.symm het
        · exact Or.inl ⟨f, hf, hft⟩
      · exact Or.inr (by rw [State.statusOf, hth]; exact ht)

/-- A thread on a Gather Board exists. -/
theorem State.isSome_thread?_of_mem_formable {s : State} {core : Nat} {e : Tid × Nat} (h : e ∈ s.formable core) :
    (s.thread? e.1).isSome = true := by
  obtain ⟨hb, -⟩ := List.mem_filter.mp h
  obtain ⟨t, -, ht⟩ := List.mem_filterMap.mp hb
  cases hth : s.thread? t with
  | none => simp [State.statusOf, hth] at ht
  | some th =>
    split at ht
    next =>
      obtain rfl := Option.some.inj ht
      simp [hth]
    next => exact absurd ht (by simp)

theorem State.formOne_of_oldest {s : State} {core : Nat} {x : Tid × Nat} (h : oldest (s.formable core) = some x) :
    s.formOne core = ({ s with
      bundles := s.bundles ++ [s.newBundle core x], fresh := s.fresh + 1
      snaps := s.snaps.filter fun e => !((oldestByLane (s.formSet core x)).any fun y => y.1 == e.1) } : State).bundleThreads s.fresh
        (oldestByLane (s.formSet core x)) := by
  simp only [State.formOne, h]
  rfl

theorem State.freeUnit_lt (s : State) (core : Nat) : s.freeUnit core < 2 := by
  simp only [State.freeUnit]
  split <;> decide

/-- Settles O50: both queues drain by `State.drain`, and a bundle takes the oldest thread of every lane of its set. -/
theorem workReachesCores : Obligations.WorkReachesCores := by
  unfold Obligations.WorkReachesCores
  intro drained
  have hdrained {s s0 : State} {p : Packet} (hseq : s0.sliceSeq = s.sliceSeq) (hfresh : s0.fresh = s.fresh) (hbands : s0.bands = s.bands)
      (htask : s0.taskAt p.asid p.task = s.taskAt p.asid p.task) : drained s s0 p (.next (s0.drain p)) := by
    refine ⟨fun n hn => ?_, fun d hd => ⟨fun hdepth => ?_, fun hdepth hf => ?_, fun hdepth hf => ?_⟩⟩
    · rw [State.drain_of_error (htask.trans hn), State.contRecord, hseq]
    · rw [State.drain_of_deep (htask.trans hd) hdepth, State.contRecord, hseq]
    · rw [State.drain_of_uncovered (htask.trans hd) hdepth hf, State.contRecord, hseq]
    · obtain ⟨b, hb, hband⟩ := State.drain_of_covered (htask.trans hd) hdepth hf
      rw [hb, ← hbands, ← hfresh]
      exact ⟨b, rfl, hband⟩
  refine ⟨?slice, ?ring, ?round, ?form⟩
  case slice =>
    intro s slice p h
    rw [exec_sliceQueueDrain h]
    exact hdrained rfl rfl rfl rfl
  case ring =>
    intro s asid p h _ hroom
    rw [exec_ringDrain h hroom]
    have htask := ({ s with rings := s.rings.filter (·.child != p.child) } : State).taskAt_modCtx asid
      (f := fun c => { c with ring := c.ring - 1 }) (fun _ => rfl) (fun _ => rfl) (fun _ => rfl) (fun _ => rfl) p.asid p.task
    exact hdrained rfl rfl rfl htask
  case round =>
    intro s core c hc hdue hclock hready hfree
    exact exec_formationRound hc hdue hclock hready hfree
  case form =>
    intro s core
    refine ⟨fun hnone => ?_, fun hsome => ?_⟩
    · simp only [State.formOne, (leastBy_eq_none_iff _ _).mpr hnone, oldest]
    · obtain ⟨x, hx⟩ : ∃ x, oldest (s.formable core) = some x :=
        Option.ne_none_iff_exists'.mp (mt (leastBy_eq_none_iff _ _).mp hsome)
      obtain ⟨hmem, hle⟩ := leastBy_mem_and_le _ hx
      rw [State.formOne_of_oldest hx]
      refine ⟨x, s.newBundle core x, hmem, hle, State.bundles_bundleThreads .., rfl, rfl, s.freeUnit_lt core, rfl, rfl, ?_, ?_, ?_⟩
      · intro t ht
        obtain ⟨e, he, rfl⟩ := List.mem_map.mp ht
        obtain ⟨hmine, hold⟩ := mem_oldestByLane he
        have hset := (State.mem_formSet hmem e).mp hmine
        refine ⟨e.2, hset, he, fun f hf hlane => ?_, ?_⟩
        · exact (oldest_lane hold).2.2 f ((State.mem_formSet hmem f).mpr hf) hlane
        · exact State.statusOf_bundleThreads (State.isSome_thread?_of_mem_formable hset.1) (Or.inl ⟨e, he, rfl⟩)
      · intro e he hlane
        obtain ⟨f, hf, hfl⟩ := exists_mem_oldestByLane ((State.mem_formSet hmem e).mpr he) hlane
        exact ⟨f.1, List.mem_map_of_mem hf, hfl⟩
      · intro t u ht hu hlane
        obtain ⟨e, he, rfl⟩ := List.mem_map.mp ht
        obtain ⟨f, hf, rfl⟩ := List.mem_map.mp hu
        have he' := (mem_oldestByLane he).2
        have hf' := (mem_oldestByLane hf).2
        rw [hlane, hf'] at he'
        rw [Option.some.inj he']

end Sys2Proof.Machine

/-! # Control and status registers (O28)

CSRR is a register instruction that reads the state at its thread's turn. CSRW writes a context, a count, a trap register, DECAY or
the snapshot's MISS: each is a change that the frame `Touch.control` names. The checks of access come before any thread acts. -/

namespace Sys2Proof.Machine

/-! ### What a CSRW may change -/

/-- A thread without what a CSRW writes of it: its trap registers and TSTAT[12:11] (R321). -/
def Thread.untrapped (th : Thread) : Thread := { th with trap := .zero, susp := false, rolled := false }

/-- A troop without what a CSRW writes of its threads. -/
def Troop.untrapped (y : Troop) : Troop := { y with threads := y.threads.map Thread.untrapped }

/-- What a CSRW touches beside the registers it reads last (R281). -/
def Touch.control (rel : List VReg) : Touch :=
  { regs := rel
    band := fun x => { x with rollCount := 0, troops := x.troops.map Troop.untrapped }
    core := fun c => { c with counts := [], cecnt := 0 }
    rest := fun s u => { s with bands := u.bands, slots := u.slots, bundles := u.bundles, ctxs := u.ctxs, cores := u.cores,
                                now := { s.now with decays := u.now.decays }, dev := { s.dev with snap := u.dev.snap } } }

theorem Touch.control_fits (rel : List VReg) : (Touch.control rel).Fits where
  refl _ := rfl
  trans s u w h k := by
    rw [h] at k
    exact k
  issue s u h := by
    rw [h]
    rfl

section Control

variable (rel : List VReg) (s : State)

theorem Kept.control_modCtx (asid : Nat) (f : Ctx → Ctx) : Kept (Touch.control rel) s (s.modCtx asid f) :=
  Kept.of_rest rfl rfl rfl rfl rfl rfl

theorem Kept.control_modCore (core : Nat) (f : CoreSt → CoreSt)
    (hf : ∀ c : CoreSt, ({ f c with counts := [], cecnt := 0 } : CoreSt) = { c with counts := [], cecnt := 0 }) :
    Kept (Touch.control rel) s (s.modCore core f) :=
  Kept.of_rest rfl rfl rfl (map_modIf _ _ f s.cores hf) rfl rfl

/-- A change of the counts that a core keeps (R204, R247). -/
theorem Kept.control_count (core asid : Nat) (f : CoreCounts → CoreCounts) :
    Kept (Touch.control rel) s (s.modCore core fun c => c.count asid f) := by
  refine Kept.control_modCore rel s core _ fun c => ?_
  unfold CoreSt.count
  split <;> rfl

theorem Kept.control_modThread (t : Tid) (f : Thread → Thread) (hp : ∀ y, (f y).preds = y.preds) (hg : ∀ y, (f y).flags = y.flags)
    (hf : ∀ th : Thread, (f th).idle.untrapped = th.idle.untrapped) : Kept (Touch.control rel) s (s.modThread t f) := by
  refine Kept.of_thread (Touch.control_fits rel) s t f hp hg fun y => ?_
  have hband := Band.erase_modTroop y t.troop (fun z => z.modThread t.lane f) Troop.untrapped fun z =>
    Troop.erase_modThread z t.lane f Thread.untrapped hf
  exact congrArg (fun x : Band => { x with rollCount := 0 }) hband

/-- Each count that a W1C register clears lies in a context, a core, a band or the snapshot registers (R281). -/
theorem Kept.csrClear (t : Tid) (n : Nat) : Kept (Touch.control rel) s (s.csrClear t n) := by
  unfold State.csrClear
  extract_lets asid core
  have hctx (f : Ctx → Ctx) : Kept (Touch.control rel) s (s.modCtx asid f) := Kept.control_modCtx rel s asid f
  have hcore (f : CoreCounts → CoreCounts) : Kept (Touch.control rel) s (core f) := Kept.control_count rel s _ asid f
  split
  case h_13 => exact Kept.of_modBand (Touch.control_fits rel) s t.band _ (fun _ => rfl) (fun _ => rfl) fun _ => rfl
  case h_14 => exact Kept.control_modCore rel s _ _ fun _ => rfl
  case h_15 => exact Kept.of_rest rfl rfl rfl rfl rfl rfl
  case h_16 => exact Kept.refl (Touch.control_fits rel) s
  case h_1 | h_2 | h_7 | h_10 | h_11 | h_12 => exact hctx _
  case h_3 | h_4 | h_5 | h_6 | h_8 | h_9 => exact hcore _

/-- A register of a context lies in the context. -/
theorem Kept.setCtxCsr (asid n : Nat) (x : Word) : Kept (Touch.control rel) s (s.setCtxCsr asid n x) := by
  have hctx (f : Ctx → Ctx) : Kept (Touch.control rel) s (s.modCtx asid f) := Kept.control_modCtx rel s asid f
  unfold State.setCtxCsr
  split
  case h_9 => exact Kept.refl (Touch.control_fits rel) s
  all_goals exact hctx _

theorem Kept.setTrapPc (t : Tid) (next : Bool) (x : Word) : Kept (Touch.control rel) s (s.setTrapPc t next x) := by
  cases next with
  | false => exact Kept.control_modThread rel s t _ (fun _ => rfl) (fun _ => rfl) fun _ => rfl
  | true => exact Kept.control_modThread rel s t _ (fun _ => rfl) (fun _ => rfl) fun _ => rfl

theorem Kept.csrWrite (t : Tid) (mode : CsrMode) (n : Nat) (x : Word) :
    Kept (Touch.control rel) s (s.csrWrite t mode n x) := by
  unfold State.csrWrite
  extract_lets old v
  split
  · split
    · exact Kept.control_modThread rel s t _ (fun _ => rfl) (fun _ => rfl) fun _ => rfl
    · exact Kept.csrClear rel s t n
  · exact Kept.of_rest rfl rfl rfl rfl rfl rfl
  · split
    · exact Kept.setTrapPc rel s t false v
    · split
      · exact Kept.setTrapPc rel s t true v
      · exact Kept.setCtxCsr rel s _ n v
  · exact Kept.refl (Touch.control_fits rel) s

end Control

/-! ### Traps of a whole issue (R81, R87) -/

/-- An encoding check fails in every thread of the bundle (R87). -/
theorem State.trapAll_eq {s : State} {b : Bundle} (hb : s.bundle? = some b) (cause info : Nat) :
    s.trapAll cause info = s.finishIssue b (b.threads.map fun t => (Fail.plain cause info).raised t) [] := by
  simp only [State.trapAll, hb]

/-- The threads whose guard is false take the last-read releases, and the others trap: none does anything else. -/
theorem Run.fold_trap (v : State) (b : Bundle) (m : Mods) (rel : List VReg) (f : Fail) (ts : List Tid) (r : Run) :
    ts.foldl (Run.turn v b m [] rel noAct (fun s _ => s) fun _ s _ => (s, .trap f)) r =
      { r with
        s := (ts.filter fun t => !v.guardTrue m t).foldl (fun w t => w.release t rel) r.s
        raised := r.raised ++ (ts.filter fun t => v.guardTrue m t).map f.raised } := by
  induction ts generalizing r with
  | nil => simp
  | cons t ts ih =>
    rw [List.foldl_cons, ih]
    cases hg : v.guardTrue m t with
    | false => simp [Run.turn, hg]
    | true => simp [Run.turn, hg, State.follow]

/-- An instruction that every acting thread may not execute (R81). -/
theorem State.runReads_trap {s : State} {b : Bundle} (hb : s.bundle? = some b) (m : Mods) (rel : List VReg) (f : Fail) :
    s.runReads m [] rel (fun _ s _ => (s, .trap f)) =
      ((b.threads.filter fun t => !s.view.guardTrue m t).foldl (fun w t => w.release t rel) s).finishIssue b
        ((b.threads.filter fun t => s.view.guardTrue m t).map f.raised) [] := by
  rw [State.runReads, State.runThreads_eq s b hb, Run.fold_trap]
  rfl

theorem State.runReads_of_noBundle {s : State} (hb : s.bundle? = none) (m : Mods) (reads rel : List VReg)
    (body : State → State → Tid → State × Flow) : s.runReads m reads rel body = s := by
  simp only [State.runReads, State.runThreads, hb]

theorem State.needSystem_eq {s : State} {b : Bundle} (hb : s.bundle? = some b) (m : Mods) :
    s.needSystem m = s.raiseAll b.pc b.npc 0
      ((b.threads.filter fun t => s.view.guardTrue m t && !s.inHandler t).map fun t => (Fail.plain cPriv 0).raised t) := by
  simp only [State.needSystem, hb]

/-! ### CSRR and CSRW (R280, R281) -/

theorem completes_csrr (m : Mods) (d : VReg) (num : BitVec 9) (h : (csrAccess num.toNat).isSome) :
    Completes (.csrr m d num) m [] [] (fun _ _ w t => w.alloc t.band t.troop (w.needs t [d]).eraseDups.length = .ok)
      (fun _ _ w t => ((w.reserve t [d]).writeV t d (w.csrRead t num.toNat), .next)) fun _ => { regs := [d] } := by
  have hx : Touch.Fits { regs := [d] } := Touch.fits ..
  apply completes_plain fun _ _ s t =>
    match s.take t [d] with
    | .error f => (s, f)
    | .ok s1 => (s1.writeV t d (s.csrRead t num.toNat), .next)
  case hi =>
    intro s b _
    change execCsrr m d num s = _
    simp only [execCsrr, Option.isNone_iff_eq_none, Option.isSome_iff_ne_none.mp h, if_false]
    rfl
  case hok =>
    intro b v w t hok
    simp only [State.take_ok w t [d] hok, Flow.ends, and_self]
  case hx => exact fun _ => hx
  case hrel => exact fun _ _ hr => absurd hr List.not_mem_nil
  case heff =>
    intro b v w t _
    exact (Kept.reserve hx w t [d]).trans hx (Kept.writeV hx _ t d _ (List.mem_singleton_self d))

/-- A CSRW that no thread of its issue is kept from. -/
theorem completesOnce_csrw {need : Bundle → State → Prop} {m : Mods} {mode : CsrMode} {num : BitVec 9} {a : VReg}
    (hi : ∀ s b, s.bundle? = some b → need b s → exec (.csrw m mode num a) s = .next (s.runReads m [a] (lastReads m [a] [])
      fun v s t => (s.csrWrite t mode num.toNat (v.srcA m t a), .next))) :
    CompletesOnce need (fun _ s => s) (fun _ s => s) (.csrw m mode num a) m [a] (lastReads m [a] []) (fun _ _ _ _ => True)
      (fun _ v w t => (w.csrWrite t mode num.toNat (v.srcA m t a), .next)) fun _ => Touch.control (lastReads m [a] []) := by
  apply completesOnce_of fun _ v s t => (s.csrWrite t mode num.toNat (v.srcA m t a), .next)
  case hi => exact hi
  case hp => exact fun _ _ hb _ => hb
  case hg => exact fun _ _ _ _ _ => rfl
  case hq => exact fun _ _ _ _ _ _ => rfl
  case hok => exact fun _ _ _ _ _ _ _ => ⟨rfl, rfl⟩
  case hx => exact fun _ => Touch.control_fits _
  case hrel => exact fun _ _ hr => hr
  case hk => exact fun s _ _ _ => Kept.refl (Touch.control_fits _) s
  case heff => exact fun _ _ w t _ => Kept.csrWrite _ w t mode _ _

section Csrw

variable {m : Mods} {mode : CsrMode} {num : BitVec 9} {a : VReg}

theorem exec_csrw_of_free (h : csrAccess num.toNat = some .rw ∨ csrAccess num.toNat = some .w1c) (s : State) :
    exec (.csrw m mode num a) s = .next (s.runReads m [a] (lastReads m [a] [])
      fun v s t => (s.csrWrite t mode num.toNat (v.srcA m t a), .next)) := by
  change execCsrw m mode num a s = _
  rcases h with h | h <;> simp only [execCsrw, h]

theorem exec_csrw_of_priv (h : csrAccess num.toNat = some .rwPriv) (s : State) :
    exec (.csrw m mode num a) s = .next ((s.needSystem m).runReads m [a] (lastReads m [a] [])
      fun v s t => (s.csrWrite t mode num.toNat (v.srcA m t a), .next)) := by
  change execCsrw m mode num a s = _
  simp only [execCsrw, h]

theorem exec_csrw_of_mgmt (h : csrAccess num.toNat = some .rwMgmt) (s : State) :
    exec (.csrw m mode num a) s = .next (s.runReads m [] (lastReads m [a] []) fun _ s _ => (s, .trap (Fail.plain cPriv 0))) := by
  change execCsrw m mode num a s = _
  simp only [execCsrw, h]

theorem exec_csrw_of_closed (h : csrAccess num.toNat = some .r ∨ csrAccess num.toNat = none) (s : State) :
    exec (.csrw m mode num a) s = .next (s.trapAll cIllegal 0) := by
  change execCsrw m mode num a s = _
  rcases h with h | h <;> simp only [execCsrw, h]

end Csrw

/-- Settles O28: the access class of a number says which threads a CSRW stops, and what it writes lies in `Touch.control`. -/
theorem controlRegisters : Obligations.ControlRegisters := by
  unfold Obligations.ControlRegisters
  intro special raises
  refine ⟨completes_csrr, fun m d num h s b hb => ?_, fun m mode num a => ?_⟩
  · change execCsrr m d num s = _
    simp only [execCsrr, h, Option.isNone_none, if_true, State.trapAll_eq hb]
    rfl
  · intro writes
    have hclosed (h : csrAccess num.toNat = some .r ∨ csrAccess num.toNat = none) : raises (.csrw m mode num a) 0x01 := by
      intro s b hb
      rw [exec_csrw_of_closed h, State.trapAll_eq hb]
      rfl
    split
    next h => exact completesOnce_csrw fun s _ _ _ => exec_csrw_of_free (Or.inl h) s
    next h => exact completesOnce_csrw fun s _ _ _ => exec_csrw_of_free (Or.inr h) s
    next h =>
      refine ⟨completesOnce_csrw fun s b hb hh => ?_, fun s b hb => ⟨_, exec_csrw_of_priv h s, fun hnone => ?_⟩⟩
      · rw [exec_csrw_of_priv h, State.needSystem_of_inHandler hb hh]
      · rw [State.needSystem_eq hb]
        exact State.runReads_of_noBundle hnone ..
    next h =>
      intro s b hb
      rw [exec_csrw_of_mgmt h, State.runReads_trap hb]
      rfl
    next h => exact hclosed (Or.inl h)
    next h => exact hclosed (Or.inr h)

end Sys2Proof.Machine

/-! # Launches on their way, and dependence counters (O45)

SPAWN, SPAWNA and LAUNCH end alike: the rollback interval is committed, and a launch and a child are added, by `State.child`. The
accesses before it move TLBs, and for LAUNCH caches. DEPC changes one counter, and a count that is not positive fires it. -/

namespace Sys2Proof.Machine

/-! ### A child is set on its way (R44, R46, R316) -/

/-- The rollback interval is committed, and a launch and a child are added, one depth below the band (R44, R316). -/
def State.child (w : State) (t : Tid) (pc : Pc) (what : LaunchWhat) : State :=
  let c := w.commit t.band
  match c.band? t.band with
  | some b => { c with
      launches := c.launches ++ [⟨c.fresh, b.asid, what, b.id, b.depth + 1, b.prio, b.gridseq, c.sourceOf t pc, false⟩]
      children := c.children ++ [(c.fresh, b.id)], fresh := c.fresh + 1 }
  | none => c

theorem State.submit_commit (w : State) (t : Tid) (pc : Pc) (what : LaunchWhat) :
    (w.commit t.band).submit t pc what = w.child t pc what := by
  simp only [State.submit, State.child]
  cases (w.commit t.band).band? t.band <;> rfl

/-- The older returns of a thread are complete, and it is of no pair. -/
def State.LaunchClear (w : State) (t : Tid) : Prop := w.twinOf t = none ∧ ∀ r ∈ w.returns, r.tid ≠ t

theorem State.LaunchClear.returnsDone {w : State} {t : Tid} (h : w.LaunchClear t) : w.returnsDone t = true := by
  simpa [State.returnsDone] using h.2

/-- The context of a thread's band has room for a pending task (R48). -/
def State.HasTaskRoom (w : State) (t : Tid) : Prop := w.pendCnt (w.asidOf t) < ((w.ctxOf t).map (·.pendmax)).getD 0

theorem State.HasTaskRoom.tasksFull {w : State} {t : Tid} (h : w.HasTaskRoom t) : w.tasksFull t = false :=
  decide_eq_false (Nat.not_le.mpr h)

/-- A `Touch` under which a thread may set a child on its way: the marks of rollback points, launches and children. -/
structure Touch.Launches (x : Touch) : Prop extends x.Fits where
  point : ∀ y : Band, x.band y.unpoint.idle = x.band y.idle
  child : ∀ s u : State, u = { s with
    bands := u.bands, slots := u.slots, bundles := u.bundles, shadows := u.shadows, launches := u.launches
    children := u.children, fresh := u.fresh } → u = x.rest s u

theorem Kept.commit_of_launches {x : Touch} (hx : x.Launches) (s : State) (b : Nat) : Kept x s (s.commit b) :=
  Kept.commit hx.toFits hx.point (fun s u h => hx.child s u (by rw [h])) s b

theorem Kept.child {x : Touch} (hx : x.Launches) (s : State) (t : Tid) (pc : Pc) (what : LaunchWhat) :
    Kept x s (s.child t pc what) := by
  have hcommit := Kept.commit_of_launches hx s t.band
  unfold State.child
  extract_lets c
  split
  · exact hcommit.trans hx.toFits (Kept.of_rest rfl rfl rfl rfl rfl (hx.child _ _ rfl))
  · exact hcommit

/-! ### What a SPAWN, SPAWNA, LAUNCH or DEPC may change -/

/-- What SPAWN touches. -/
def Touch.spawn (rel : List VReg) : Touch :=
  { regs := rel, band := Band.unpoint, rest := fun s u =>
    { s with bands := u.bands, slots := u.slots, bundles := u.bundles, shadows := u.shadows, launches := u.launches,
             children := u.children, fresh := u.fresh } }

/-- What SPAWNA touches: beside SPAWN's parts the TLBs and their counts (R188, R204). -/
def Touch.spawna (rel : List VReg) : Touch :=
  { Touch.spawn rel with core := CoreSt.untimed, die := DieSt.untimed, rest := fun s u =>
    { (Touch.spawn rel).rest s u with cores := u.cores, dies := u.dies } }

/-- What LAUNCH touches: beside SPAWNA's parts the caches, as its packet is read (R261). -/
def Touch.launch (rel : List VReg) : Touch :=
  { Touch.spawn rel with core := CoreSt.cold, die := DieSt.cold, rest := fun s u =>
    { (Touch.spawn rel).rest s u with cores := u.cores, dies := u.dies, mem := u.mem, peerMem := u.peerMem, poison := u.poison
                                      unreturned := u.unreturned } }

/-- What DEPC touches: beside SPAWN's parts the counters and DEPERR (R50). -/
def Touch.depc (rel : List VReg) : Touch :=
  { Touch.spawn rel with rest := fun s u => { (Touch.spawn rel).rest s u with deps := u.deps, ctxs := u.ctxs } }

theorem Touch.spawn_launches (rel : List VReg) : (Touch.spawn rel).Launches where
  refl _ := rfl
  trans s u w h k := by
    rw [h] at k
    exact k
  issue s u h := by
    rw [h]
    rfl
  point _ := rfl
  child _ _ h := h

theorem Touch.spawna_launches (rel : List VReg) : (Touch.spawna rel).Launches where
  refl _ := rfl
  trans s u w h k := by
    rw [h] at k
    exact k
  issue s u h := by
    rw [h]
    rfl
  point _ := rfl
  child s u h := by
    rw [h]
    rfl

theorem Touch.launch_launches (rel : List VReg) : (Touch.launch rel).Launches where
  refl _ := rfl
  trans s u w h k := by
    rw [h] at k
    exact k
  issue s u h := by
    rw [h]
    rfl
  point _ := rfl
  child s u h := by
    rw [h]
    rfl

theorem Touch.depc_launches (rel : List VReg) : (Touch.depc rel).Launches where
  refl _ := rfl
  trans s u w h k := by
    rw [h] at k
    exact k
  issue s u h := by
    rw [h]
    rfl
  point _ := rfl
  child s u h := by
    rw [h]
    rfl

/-! ### The address of an access moves TLBs alone (R188, R193) -/

/-- Between two states only TLBs and the counts of their misses have moved. -/
structure TlbOnly (s u : State) : Prop where
  rest : u = { s with cores := u.cores, dies := u.dies }
  cores : u.cores.map CoreSt.untimed = s.cores.map CoreSt.untimed
  dies : u.dies.map DieSt.untimed = s.dies.map DieSt.untimed

theorem TlbOnly.refl (s : State) : TlbOnly s s := ⟨rfl, rfl, rfl⟩

theorem CoreSt.untimed_count (c : CoreSt) (asid : Nat) (f : CoreCounts → CoreCounts) : (c.count asid f).untimed = c.untimed := by
  unfold CoreSt.count
  split <;> rfl

theorem TlbOnly.fillTlb_countMiss (s : State) (core asid : Nat) (e : TlbEntry) :
    TlbOnly s ((s.countMiss core asid).fillTlb core e) where
  rest := rfl
  cores := by
    have hmiss : (s.countMiss core asid).cores.map CoreSt.untimed = s.cores.map CoreSt.untimed :=
      map_modIf _ _ _ _ fun c => CoreSt.untimed_count c asid _
    exact (map_modIf CoreSt.untimed _ (fun c => { c with tlb := (e :: c.tlb.filter (· != e)).take Config.tlb1Entries }) _
      fun _ => rfl).trans hmiss
  dies := map_modIf DieSt.untimed _ (fun d => { d with tlb := (e :: d.tlb.filter (· != e)).take Config.tlb2Entries }) _ fun _ => rfl

theorem TlbOnly.translate (s : State) (core asid va : Nat) (u : Use) (sys : Bool) :
    TlbOnly s (s.translate core asid va u sys).1 := by
  unfold State.translate
  extract_lets hit
  have hhit : ∀ w e, (hit w e).1 = w := by
    intro w e
    simp only [hit]
    split <;> rfl
  clear_value hit
  split
  · exact TlbOnly.refl s
  · split
    · exact TlbOnly.refl s
    · split
      · rw [hhit]
        exact TlbOnly.refl s
      · split
        · rw [hhit]
          exact TlbOnly.fillTlb_countMiss ..
        · exact TlbOnly.refl s

theorem TlbOnly.reach (s : State) (t : Tid) (u : Use) (va : Nat) (r : Region) : TlbOnly s (s.reach t u va r).1 := by
  unfold State.reach
  split
  · split <;> exact TlbOnly.refl s
  · have h := TlbOnly.translate s (s.coreOf t) (s.asidOf t) va u (s.inHandler t)
    generalize s.translate (s.coreOf t) (s.asidOf t) va u (s.inHandler t) = p at h ⊢
    obtain ⟨s1, p⟩ := p
    cases p <;> exact h

theorem TlbOnly.accessAddress (s : State) (t : Tid) (r : Region) (off : Int) (size align : Nat) (cls : Access) (u : Use) :
    TlbOnly s (s.accessAddress t r off size align cls u).1 := by
  unfold State.accessAddress
  split
  · exact TlbOnly.refl s
  · extract_lets va
    split
    · exact TlbOnly.refl s
    · exact TlbOnly.reach ..

theorem TlbOnly.of_accessAddress {s s1 : State} {t : Tid} {r : Region} {off : Int} {size align : Nat} {cls : Access} {u : Use}
    {x : Reached} (h : s.accessAddress t r off size align cls u = (s1, x)) : TlbOnly s s1 := by
  have hs := TlbOnly.accessAddress s t r off size align cls u
  rwa [h] at hs

theorem TlbOnly.launchClear {s u : State} (h : TlbOnly s u) {t : Tid} (hs : s.LaunchClear t) : u.LaunchClear t := by
  rw [h.rest]
  exact hs

theorem TlbOnly.hasTaskRoom {s u : State} (h : TlbOnly s u) {t : Tid} (hs : s.HasTaskRoom t) : u.HasTaskRoom t := by
  rw [h.rest]
  exact hs

theorem TlbOnly.spawna {s u : State} (h : TlbOnly s u) (rel : List VReg) : Kept (Touch.spawna rel) s u := by
  have hrest := h.rest
  refine Kept.of_rest ?_ ?_ ?_ h.cores h.dies ?_ <;> rw [hrest]
  rfl

theorem TlbOnly.cacheOnly {s u : State} (h : TlbOnly s u) : CacheOnly s u where
  rest := by
    rw [h.rest]
    rfl
  cores := by
    have hc := congrArg (List.map CoreSt.cold) h.cores
    simp only [List.map_map] at hc
    exact hc
  dies := by
    have hd := congrArg (List.map DieSt.cold) h.dies
    simp only [List.map_map] at hd
    exact hd

theorem CacheOnly.launch {s u : State} (h : CacheOnly s u) (rel : List VReg) : Kept (Touch.launch rel) s u := by
  have hrest := h.rest
  refine Kept.of_rest ?_ ?_ ?_ h.cores h.dies ?_ <;> rw [hrest]
  all_goals rfl

/-! ### SPAWN, SPAWNA and LAUNCH (R46, R48, R261) -/

/-- The four argument words of a task. -/
def State.argWords (v : State) (m : Mods) (t : Tid) (a : VReg) : List Word :=
  [v.srcA m t (regAt a 0), v.srcA m t (regAt a 1), v.srcA m t (regAt a 2), v.srcA m t (regAt a 3)]

theorem State.taskArgs_eq (v : State) (m : Mods) (t : Tid) (a : VReg) : v.taskArgs m t a = v.argWords m t a := rfl

theorem State.LaunchClear.twinOf_release {w : State} {t : Tid} {rel : List VReg} (h : (w.release t rel).LaunchClear t) :
    w.twinOf t = none := (w.twinOf_release t rel t).symm.trans h.1

theorem completes_spawn (m : Mods) (a : VReg) (task : BitVec 13) :
    Completes (.spawn m a task) m (regGroup a 4) (lastReads m (regGroup a 4) [])
      (fun _ _ w t => w.LaunchClear t ∧ w.depthOf t ≠ 10 ∧ w.HasTaskRoom t)
      (fun b v w t => (w.child t b.pc (.task task.toNat (v.argWords m t a) none), .next))
      fun _ => Touch.spawn (lastReads m (regGroup a 4) []) := by
  apply completes_of (fun _ v _ t => some ⟨v.taskArgs m t a, [], []⟩) (fun _ s _ => s) fun b v s t =>
    if s.depthOf t = 10 then (s, .trap (Fail.plain cNestDepth 0))
    else if s.tasksFull t then (s, .again .spawn)
    else if !s.returnsDone t then (s, .again .returns)
    else ((s.commit t.band).submit t b.pc (.task task.toNat (v.taskArgs m t a) none), .next)
  case hi =>
    intro s b hb
    change execSpawn m a task s = _
    rw [execSpawn, curBundle_of s b hb]
  case hok =>
    intro b v w t ⟨hclear, hdeep, hroom⟩
    simp only [hdeep, hroom.tasksFull, hclear.returnsDone, State.submit_commit, State.taskArgs_eq, Bool.not_true, Bool.false_eq_true,
      if_false, Flow.ends, and_self]
  case hact => exact fun _ _ _ _ h => Or.inr h.1.twinOf_release
  case hx => exact fun _ => (Touch.spawn_launches _).toFits
  case hrel => exact fun _ _ hr => hr
  case heff => exact fun b v w t _ => Kept.child (Touch.spawn_launches _) w t b.pc _

theorem completes_spawna (m : Mods) (k : GReg) (a b : VReg) (task : BitVec 13) (off : BitVec 15) :
    Completes (.spawna m k a b task off) m (regGroup a 4 ++ [b]) (lastReads m (regGroup a 4) [b])
      (fun _ v w t => w.LaunchClear t ∧ w.depthOf t ≠ 10 ∧ w.HasTaskRoom t ∧
        ∃ w1 x, w.accessAddress t (v.regT t k) ((v.srcB m t b).toNat + off.toInt) 1 1 .lookup .read = (w1, .ok x))
      (fun bu v w t => match w.accessAddress t (v.regT t k) ((v.srcB m t b).toNat + off.toInt) 1 1 .lookup .read with
        | (w1, .ok x) => (w1.child t bu.pc (.task task.toNat (v.argWords m t a) (w1.homeDieOf t x.loc)), .next)
        | (w1, _) => (w1, .next))
      fun _ => Touch.spawna (lastReads m (regGroup a 4) [b]) := by
  apply completes_of
    (fun _ v _ t => some ⟨v.taskArgs m t a ++ [v.srcB m t b], [((v.regT t k).base + ((v.srcB m t b).toNat + off.toInt)).toNat], []⟩)
    (fun _ s _ => s) fun bu v s t =>
      if s.depthOf t = 10 then (s, .trap (Fail.plain cNestDepth 0))
      else
        match s.accessAddress t (v.regT t k) ((v.srcB m t b).toNat + off.toInt) 1 1 .lookup .read with
        | (s1, .fail f) => (s1, .trap f)
        | (s1, .walk va) => (s1, .walk va .read)
        | (s1, .ok x) =>
          if s1.tasksFull t then (s1, .again .spawn)
          else if !s1.returnsDone t then (s1, .again .returns)
          else ((s1.commit t.band).submit t bu.pc (.task task.toNat (v.taskArgs m t a) (s1.homeDieOf t x.loc)), .next)
  case hi =>
    intro s bu hb
    change execSpawna m k a b task off s = _
    rw [execSpawna, curBundle_of s bu hb] <;> rfl
  case hok =>
    intro bu v w t ⟨hclear, hdeep, hroom, w1, x, hat⟩
    have htlb := TlbOnly.of_accessAddress hat
    simp only [hdeep, hat, (htlb.hasTaskRoom hroom).tasksFull, (htlb.launchClear hclear).returnsDone, State.submit_commit,
      State.taskArgs_eq, Bool.not_true, Bool.false_eq_true, if_false, Flow.ends, and_self]
  case hact => exact fun _ _ _ _ h => Or.inr h.1.twinOf_release
  case hx => exact fun _ => (Touch.spawna_launches _).toFits
  case hrel => exact fun _ _ hr => hr
  case heff =>
    intro bu v w t ⟨_, _, _, w1, x, hat⟩
    simp only [hat]
    exact ((TlbOnly.of_accessAddress hat).spawna _).trans (Touch.spawna_launches _).toFits (Kept.child (Touch.spawna_launches _) w1 t _ _)

/-- The packet that a LAUNCH reads, as a load of 128 bytes (R261). -/
def State.launchPacket (w : State) (t : Tid) (k : GReg) (x : Target) : State × Nat × Bool :=
  w.readSite (w.coreOf t) (w.asidOf t) (w.siteOf t k x false) x.loc 128 .norm

theorem completes_launch (m : Mods) (k : GReg) (a : VReg) (off : BitVec 24) :
    Completes (.launch m k a off) m [a] (lastReads m [a] [])
      (fun _ v w t => w.LaunchClear t ∧ w.depthOf t ≠ 10 ∧ t.troop = 0 ∧ t.lane = 0 ∧
        ∃ w1 x, w.accessAddress t (v.regT t k) (v.offsetOf m t a off.toInt) 128 128 .load .read = (w1, .ok x) ∧
          w1.blocked w1.fresh t w1.fresh x.loc 128 = false ∧ (w1.launchPacket t k x).2.2 = false)
      (fun bu v w t => match w.accessAddress t (v.regT t k) (v.offsetOf m t a off.toInt) 128 128 .load .read with
        | (w1, .ok x) => ((w1.launchPacket t k x).1.child t bu.pc (.grid (BitVec.ofNat 1024 (w1.launchPacket t k x).2.1) x.va), .next)
        | (w1, _) => (w1, .next))
      fun _ => Touch.launch (lastReads m [a] []) := by
  apply completes_of
    (fun _ v _ t => some ⟨[v.srcA m t a], [((v.regT t k).base + v.offsetOf m t a off.toInt).toNat], []⟩) (fun _ s _ => s)
    fun bu v s t =>
      if s.depthOf t = 10 then (s, .trap (Fail.plain cNestDepth 0))
      else if t.troop ≠ 0 || t.lane ≠ 0 then (s, .trap (Fail.plain cPriv 0))
      else
        match s.accessAddress t (v.regT t k) (v.offsetOf m t a off.toInt) 128 128 .load .read with
        | (s1, .fail f) => (s1, .trap f)
        | (s1, .walk va) => (s1, .walk va .read)
        | (s1, .ok x) =>
          if s1.blocked s1.fresh t s1.fresh x.loc 128 then (s1, .again (.order .core))
          else if !s1.returnsDone t then (s1, .again .returns)
          else
            let (s2, p, bad) := s1.launchPacket t k x
            if bad then (s1, .ue)
            else ((s2.commit t.band).submit t bu.pc (.grid (BitVec.ofNat 1024 p) x.va), .next)
  case hi =>
    intro s bu hb
    change execLaunch m k a off s = _
    rw [execLaunch, curBundle_of s bu hb] <;> rfl
  case hok =>
    intro bu v w t ⟨hclear, hdeep, htroop, hlane, w1, x, hat, hfree, hsound⟩
    have htlb := TlbOnly.of_accessAddress hat
    simp only [hdeep, htroop, hlane, hat, hfree, hsound, (htlb.launchClear hclear).returnsDone, State.submit_commit, ne_eq,
      not_true_eq_false, decide_false, Bool.or_self, Bool.not_true, Bool.false_eq_true, if_false, Flow.ends, and_self]
  case hact => exact fun _ _ _ _ h => Or.inr h.1.twinOf_release
  case hx => exact fun _ => (Touch.launch_launches _).toFits
  case hrel => exact fun _ _ hr => hr
  case heff =>
    intro bu v w t ⟨_, _, _, _, w1, x, hat, _⟩
    have hread : CacheOnly w1 (w1.launchPacket t k x).1 := CacheOnly.readSite ..
    simp only [hat]
    exact (((TlbOnly.of_accessAddress hat).cacheOnly.trans hread).launch _).trans (Touch.launch_launches _).toFits
      (Kept.child (Touch.launch_launches _) _ t _ _)

/-! ### The dependence counters (R50) -/

/-- A firing counter is IDLE, and its task is launched as the setter's child. -/
theorem State.fireCounter_eq {s : State} {d : DepCounter} {b : Band} (hb : s.band? d.setter = some b) : s.fireCounter d = { s with
    deps := s.deps.filter (·.idx != d.idx)
    launches := s.launches ++ [⟨d.child, b.asid, .task d.task d.args none, b.id, b.depth + 1, d.prio, b.gridseq,
      ⟨0, 0, 0, ⟨0, 0⟩⟩, true⟩] } := by
  have hb' : ({ s with deps := s.deps.filter fun x => x.idx != d.idx } : State).band? d.setter = some b := hb
  simp only [State.fireCounter, hb']

theorem State.fireCounter_rest (s : State) (d : DepCounter) :
    s.fireCounter d = { s with deps := (s.fireCounter d).deps, launches := (s.fireCounter d).launches } := by
  unfold State.fireCounter
  extract_lets s1
  split <;> rfl

/-- The priority that a counter for a task holds: the descriptor's, or the setter's (R50, log 39). -/
def State.counterPrio (s : State) (b : Band) (task : Nat) : Nat :=
  match s.taskAt b.asid task with
  | .ok k => if k.inh then b.prio else k.prio
  | .error _ => b.prio

/-- The counter as it is armed. -/
def State.newCounter (s : State) (b : Band) (idx : Nat) (count : Word) (task : Nat) (args : List Word) : DepCounter :=
  ⟨idx, count.toInt, task, args, b.id, s.fresh, s.counterPrio b task⟩

/-- The state with a counter armed: one that was armed before loses its child. -/
def State.armed (s : State) (b : Band) (idx : Nat) (count : Word) (task : Nat) (args : List Word) : State :=
  { s with
    deps := s.deps.filter (·.idx != idx) ++ [s.newCounter b idx count task args]
    children := s.children.filter (fun x => (s.deps.find? (·.idx == idx)).map (·.child) != some x.1) ++ [(s.fresh, b.id)]
    fresh := s.fresh + 1 }

theorem State.armCounter_eq {s : State} {t : Tid} {b : Band} (hb : s.band? t.band = some b) (idx : Nat) (count : Word) (task : Nat)
    (args : List Word) : s.armCounter t idx count task args =
      if 0 < count.toInt then s.armed b idx count task args
      else (s.armed b idx count task args).fireCounter (s.newCounter b idx count task args) := by
  have hprio : s.counterPrio b task = s.taskPrio b task := rfl
  cases hd : s.deps.find? (·.idx == idx) with
  | none =>
    have hkeep : s.children.filter (fun x => (none : Option Nat) != some x.1) = s.children :=
      List.filter_eq_self.mpr fun _ _ => rfl
    simp only [State.armCounter, State.armed, State.newCounter, hd, hb, hprio, Option.map_none, hkeep, ← not_lt, ite_not]
  | some d =>
    have hb' : (s.dropChild d.child).band? t.band = some b := hb
    have hdrop : s.children.filter (fun x => some d.child != some x.1) = (s.dropChild d.child).children := by
      refine List.filter_congr fun x _ => ?_
      rw [bne_comm]
      rfl
    simp only [State.armCounter, State.armed, State.newCounter, hd, hb', hprio, Option.map_some, hdrop, ← not_lt, ite_not]
    rfl

theorem State.armCounter_rest (s : State) (t : Tid) (idx : Nat) (count : Word) (task : Nat) (args : List Word) :
    let u := s.armCounter t idx count task args
    u = { s with deps := u.deps, launches := u.launches, children := u.children, fresh := u.fresh } := by
  intro u
  cases hb : s.band? t.band with
  | none =>
    simp only [u, State.armCounter]
    cases s.deps.find? (·.idx == idx) with
    | none =>
      simp only [hb]
    | some d =>
      have hb' : (s.dropChild d.child).band? t.band = none := hb
      simp only [hb']
      rfl
  | some b =>
    have hu : u = _ := State.armCounter_eq hb idx count task args
    rw [hu]
    split
    · rfl
    · rw [State.fireCounter_rest]
      rfl

theorem State.addCounter_of_idle {s : State} {idx : Nat} (h : s.deps.find? (·.idx == idx) = none) (asid : Nat) (x : Int) :
    s.addCounter asid idx x = s.modCtx asid fun c => { c with deperr := satInc c.deperr } := by
  simp only [State.addCounter, h]

theorem State.addCounter_of_armed {s : State} {idx : Nat} {d : DepCounter} (h : s.deps.find? (·.idx == idx) = some d) (asid : Nat)
    (x : Int) :
    let d1 : DepCounter := { d with count := max (-2 ^ 31) (min (2 ^ 31 - 1) (d.count + x)) }
    let left : State := { s with deps := modIf (·.idx == idx) (fun _ => d1) s.deps }
    s.addCounter asid idx x = if 0 < d1.count then left else left.fireCounter d1 := by
  have hsat (n : Int) : satS32 n = max (-2 ^ 31) (min (2 ^ 31 - 1) n) := by norm_num [satS32]
  simp only [State.addCounter, h, hsat, ← not_lt, ite_not]

theorem State.addCounter_rest (s : State) (asid idx : Nat) (x : Int) :
    let u := s.addCounter asid idx x
    u = { s with deps := u.deps, launches := u.launches, ctxs := u.ctxs } := by
  intro u
  cases hd : s.deps.find? (·.idx == idx) with
  | none =>
    have hu : u = _ := State.addCounter_of_idle hd asid x
    rw [hu]
    rfl
  | some d =>
    have hu : u = _ := State.addCounter_of_armed hd asid x
    rw [hu]
    split
    · rfl
    · rw [State.fireCounter_rest]

theorem Kept.armCounter (rel : List VReg) (s : State) (t : Tid) (idx : Nat) (count : Word) (task : Nat) (args : List Word) :
    Kept (Touch.depc rel) s (s.armCounter t idx count task args) := by
  have h := s.armCounter_rest t idx count task args
  generalize s.armCounter t idx count task args = u at h ⊢
  refine Kept.of_rest ?_ ?_ ?_ ?_ ?_ ?_ <;> rw [h]
  rfl

theorem Kept.addCounter (rel : List VReg) (s : State) (asid idx : Nat) (x : Int) :
    Kept (Touch.depc rel) s (s.addCounter asid idx x) := by
  have h := s.addCounter_rest asid idx x
  generalize s.addCounter asid idx x = u at h ⊢
  refine Kept.of_rest ?_ ?_ ?_ ?_ ?_ ?_ <;> rw [h]
  rfl

/-- The counter index lies in the window of the bundle's context (R50). -/
def CounterWithin (ctr : BitVec 16) (b : Bundle) (s : State) : Prop := ctr.toNat < ((s.ctx? b.asid).map (·.depcnt)).getD 0

theorem CounterWithin.noCounter {ctr : BitVec 16} {b : Bundle} {s : State} (hb : s.bundle? = some b) (h : CounterWithin ctr b s) :
    s.noCounter ctr = false := by
  rw [State.noCounter, curBundle_of s b hb]
  exact decide_eq_false (Nat.not_le.mpr h)

theorem State.noCounter_of_le {ctr : BitVec 16} {b : Bundle} {s : State} (hb : s.bundle? = some b)
    (h : ((s.ctx? b.asid).map (·.depcnt)).getD 0 ≤ ctr.toNat) : s.noCounter ctr = true := by
  rw [State.noCounter, curBundle_of s b hb]
  exact decide_eq_true h

/-- A DEPC of a counter that its context has, where its body acts for a thread as it must. -/
theorem completesOnce_depc {i : Instr} {m : Mods} {ctr : BitVec 16} {srcs rel : List VReg} {ok : State → Tid → Prop}
    {eff : State → State → Tid → State × Flow} (act : State → State → Tid → Option Act) (body : State → State → Tid → State × Flow)
    (hi : ∀ s, s.noCounter ctr = false → exec i s = .next (s.runThreads m srcs rel act (fun s _ => s) body))
    (hok : ∀ v w t, ok w t → w.LaunchClear t ∧ body v w t = eff v w t ∧ (eff v w t).2 = .next)
    (heff : ∀ v w t, Kept (Touch.depc rel) w (eff v w t).1) :
    CompletesOnce (CounterWithin ctr) (fun _ s => s) (fun _ s => s) i m srcs rel (fun _ _ w t => ok w t) (fun _ => eff)
      fun _ => Touch.depc rel := by
  intro s b hb hn hsm
  have hends (w : State) (t : Tid) (h : ok w t) : (eff s.view w t).2.ends = true := by rw [(hok s.view w t h).2.2]; rfl
  have hturns := Run.fold_smooth s.view b m srcs rel act (fun s _ => s) body _ (eff s.view) (fun u t h =>
    ⟨h.1, (hok s.view _ t h.2).2.1, hends _ t h.2, Or.inr (hok s.view _ t h.2).1.twinOf_release⟩) b.threads ⟨s, [], [], [], []⟩ hsm
  have hfits := (Touch.depc_launches rel).toFits
  refine ⟨_, hi s (hn.noCounter hb), ?_, ?_⟩
  · rw [State.runThreads_eq s b hb, hturns]
    rfl
  · rw [State.runThreads_eq s b hb, hturns]
    exact (State.turn_kept hfits s.view b m rel _ (eff s.view) (fun _ hr => hr) (fun w t _ => heff s.view w t)
      (fun w t h => hends w t h.2) b.threads s hsm).trans hfits (State.finishIssue_kept hfits _ b)

theorem completesOnce_depcSet (m : Mods) (ctr : BitVec 16) (a b : VReg) (task : BitVec 13) :
    CompletesOnce (CounterWithin ctr) (fun _ s => s) (fun _ s => s) (.depcSet m ctr a b task) m (regGroup a 4 ++ [b])
      (lastReads m (regGroup a 4) [b]) (fun _ _ w t => w.LaunchClear t ∧ w.depthOf t ≠ 10)
      (fun _ v w t => ((w.commit t.band).armCounter t (w.counterOf (w.asidOf t) ctr.toNat) (v.srcB m t b) task.toNat
        (v.argWords m t a), .next)) fun _ => Touch.depc (lastReads m (regGroup a 4) [b]) := by
  apply completesOnce_depc (ok := fun w t => w.LaunchClear t ∧ w.depthOf t ≠ 10)
    (fun v _ t => some ⟨v.taskArgs m t a ++ [v.srcB m t b], [], []⟩) fun v s t =>
      if s.depthOf t = 10 then (s, .trap (Fail.plain cNestDepth 0))
      else if !s.returnsDone t then (s, .again .returns)
      else ((s.commit t.band).armCounter t (s.counterOf (s.asidOf t) ctr.toNat) (v.srcB m t b) task.toNat (v.taskArgs m t a), .next)
  case hi =>
    intro s hn
    change execDepcSet m ctr a b task s = _
    simp only [execDepcSet, hn, Bool.false_eq_true, if_false]
  case hok =>
    intro v w t ⟨hclear, hdeep⟩
    simp only [hclear, hdeep, hclear.returnsDone, State.taskArgs_eq, Bool.not_true, Bool.false_eq_true, if_false, and_self]
  case heff =>
    intro v w t
    exact (Kept.commit_of_launches (Touch.depc_launches _) w t.band).trans (Touch.depc_launches _).toFits (Kept.armCounter ..)

theorem completesOnce_depcAdd (m : Mods) (ctr : BitVec 16) (b : VReg) :
    CompletesOnce (CounterWithin ctr) (fun _ s => s) (fun _ s => s) (.depcAdd m ctr b) m [b] (lastReads m [] [b])
      (fun _ _ w t => w.LaunchClear t)
      (fun _ v w t => ((w.commit t.band).addCounter (w.asidOf t) (w.counterOf (w.asidOf t) ctr.toNat) (v.srcB m t b).toInt, .next))
      fun _ => Touch.depc (lastReads m [] [b]) := by
  apply completesOnce_depc (ok := fun w t => w.LaunchClear t) (fun v _ t => some ⟨[v.srcB m t b], [], []⟩) fun v s t =>
    if !s.returnsDone t then (s, .again .returns)
    else ((s.commit t.band).addCounter (s.asidOf t) (s.counterOf (s.asidOf t) ctr.toNat) (v.srcB m t b).toInt, .next)
  case hi =>
    intro s hn
    change execDepcAdd m ctr b s = _
    simp only [execDepcAdd, hn, Bool.false_eq_true, if_false]
  case hok =>
    intro v w t hclear
    simp only [hclear, hclear.returnsDone, Bool.not_true, Bool.false_eq_true, if_false, and_self]
  case heff =>
    intro v w t
    exact (Kept.commit_of_launches (Touch.depc_launches _) w t.band).trans (Touch.depc_launches _).toFits (Kept.addCounter ..)

theorem completesOnce_depcArrive (m : Mods) (ctr : BitVec 16) :
    CompletesOnce (CounterWithin ctr) (fun _ s => s) (fun _ s => s) (.depcArrive m ctr) m [] [] (fun _ _ w t => w.LaunchClear t)
      (fun _ _ w t => ((w.commit t.band).addCounter (w.asidOf t) (w.counterOf (w.asidOf t) ctr.toNat) (-1), .next))
      fun _ => Touch.depc [] := by
  apply completesOnce_depc (ok := fun w t => w.LaunchClear t) (fun _ _ _ => some ⟨[], [], []⟩) fun _ s t =>
    if !s.returnsDone t then (s, .again .returns)
    else ((s.commit t.band).addCounter (s.asidOf t) (s.counterOf (s.asidOf t) ctr.toNat) (-1), .next)
  case hi =>
    intro s hn
    change execDepcArrive m ctr s = _
    simp only [execDepcArrive, hn, Bool.false_eq_true, if_false]
  case hok =>
    intro v w t hclear
    simp only [hclear, hclear.returnsDone, Bool.not_true, Bool.false_eq_true, if_false, and_self]
  case heff =>
    intro v w t
    exact (Kept.commit_of_launches (Touch.depc_launches _) w t.band).trans (Touch.depc_launches _).toFits (Kept.addCounter ..)

/-- Settles O45: the three launches add a child after a commit, and DEPC arms, changes or fires its counter. -/
theorem launchesIssue : Obligations.LaunchesIssue := by
  unfold Obligations.LaunchesIssue
  intro clear deep room args child touch touchDep no within
  refine ⟨completes_spawn, completes_spawna, completes_launch, completesOnce_depcSet, completesOnce_depcAdd, completesOnce_depcArrive,
    ?traps, ?arm, ?add, ?fire⟩
  case traps =>
    intro m ctr a b task
    refine ⟨fun s bu hb hle => ?_, fun s bu hb hle => ?_, fun s bu hb hle => ?_⟩
    · change execDepcSet m ctr a b task s = _
      simp only [execDepcSet, State.noCounter_of_le hb hle, if_true, State.trapAll_eq hb]
      rfl
    · change execDepcAdd m ctr b s = _
      simp only [execDepcAdd, State.noCounter_of_le hb hle, if_true, State.trapAll_eq hb]
      rfl
    · change execDepcArrive m ctr s = _
      simp only [execDepcArrive, State.noCounter_of_le hb hle, if_true, State.trapAll_eq hb]
      rfl
  case arm =>
    intro s t idx count task args b hb
    exact State.armCounter_eq hb idx count task args
  case add =>
    intro s asid idx x
    exact ⟨fun h => State.addCounter_of_idle h asid x, fun d h => State.addCounter_of_armed h asid x⟩
  case fire =>
    intro s d b hb
    exact ⟨_, State.fireCounter_eq hb⟩

end Sys2Proof.Machine

/-! # Commands of the host (O54)

A management command is answered by `State.mgmtValue` and `State.mgmtSet`, which look first at the size and then at the part of the
space that an offset lies in. So there is one lemma for each part of the space, and the registers' maps are read off those. -/

namespace Sys2Proof.Machine

/-! ### RDMA (R37, R202, R340) -/

/-- RDMA may touch a range once bring-up is complete: every byte lies in a launch queue's ring or in registered memory (R340). -/
def State.RdmaOpen (s : State) (pa n : Nat) : Prop :=
  s.dev.devstat.toNat % 16 = 7 ∧ ∀ k, k < n →
    (∃ q ∈ s.queues, q.qbase ≤ pa + k ∧ pa + k < q.qbase + 128 * 2 ^ q.qsize) ∨ Config.registered (pa + k) = true

theorem Device.ready_iff (d : Device) : d.ready = true ↔ d.devstat.toNat % 16 = 7 := by
  simp only [Device.ready, fieldOf, pow_zero, Nat.div_one, beq_iff_eq, Nat.reducePow]

theorem State.rdmaOpen_iff {s : State} (hh : s.dev.halted = false) (pa n : Nat) :
    (s.dev.serves && s.rdmaMay pa n) = true ↔ s.RdmaOpen pa n := by
  simp only [Device.serves, hh, Bool.not_false, Bool.and_true, Bool.and_eq_true, Device.ready_iff, State.rdmaMay, State.rdmaByte,
    List.all_eq_true, List.mem_range, Bool.or_eq_true, List.any_eq_true, decide_eq_true_eq, State.RdmaOpen]

theorem mem_wholeLines (pa n l : Nat) : l ∈ wholeLines pa n ↔ pa ≤ 128 * l ∧ 128 * (l + 1) ≤ pa + n := by
  simp only [wholeLines, List.mem_filter, List.mem_map, List.mem_range, Bool.and_eq_true, decide_eq_true_eq, and_iff_right_iff_imp]
  intro h
  exact ⟨l - pa / 128, by omega, by omega⟩

theorem look_writeBytes (m : List (Nat × Byte)) (pa a : Nat) (bs : List Byte) :
    look 0 a (writeBytes m pa bs) = if pa ≤ a ∧ a < pa + bs.length then (bs[a - pa]?).getD 0 else look 0 a m := by
  split
  next h =>
    have hi : a - pa < bs.length := by omega
    have hin := look_writeBytes_in m pa (a - pa) bs hi
    rw [Nat.add_sub_cancel' h.1] at hin
    simp only [hin, List.getElem?_eq_getElem hi, Option.getD_some]
  next h => exact look_writeBytes_out m pa a bs (by omega)

theorem State.writeHome_eq (s : State) (pa : Nat) (bs : List Byte) :
    let w := s.writeHome pa bs
    w = { s with mem := w.mem, poison := w.poison, unreturned := w.unreturned } ∧
    (∀ a, look 0 a w.mem = if pa ≤ a ∧ a < pa + bs.length then (bs[a - pa]?).getD 0 else look 0 a s.mem) ∧
    (∀ l, l ∈ w.poison ↔ l ∈ s.poison ∧ ¬ (pa ≤ 128 * l ∧ 128 * (l + 1) ≤ pa + bs.length)) ∧
    ∀ e, e ∈ w.unreturned ↔ e ∈ s.unreturned ∧ ¬ (pa ≤ e.1 ∧ e.1 < pa + bs.length) := by
  refine ⟨rfl, fun a => look_writeBytes s.mem pa a bs, fun l => ?_, fun e => ?_⟩
  · simp only [State.writeHome, List.mem_filter, Bool.not_eq_true', ← Bool.not_eq_true, List.contains_iff_mem, mem_wholeLines]
  · simp only [State.writeHome, List.mem_filter, Bool.not_eq_true', ← Bool.not_eq_true, Bool.and_eq_true, decide_eq_true_eq]

/-! ### Management commands (R340, R341, R351, R357) -/

/-- The sizes of a management command, and its alignment (R341). -/
def Sized (off size : Nat) : Prop := (size = 2 ∨ size = 4 ∨ size = 8) ∧ off % size = 0

theorem sized_iff (off size : Nat) : ((size ≠ 2 && size ≠ 4 && size ≠ 8) || off % size ≠ 0) = true ↔ ¬ Sized off size := by
  simp only [Sized, Bool.or_eq_true, Bool.and_eq_true, decide_eq_true_eq]
  tauto

theorem State.command_of_qp {s : State} (hh : s.dev.halted = false) (hqp : s.cmd.qp = 1) (f : Cmd → State) :
    s.command f = .next (f s.cmd) := by
  simp only [State.command, hh, hqp, Bool.false_eq_true, if_false, ne_eq, not_true_eq_false]

theorem State.command_of_other {s : State} (hh : s.dev.halted = false) (hqp : s.cmd.qp ≠ 1) (f : Cmd → State) :
    s.command f = .next (s.answer s.cmd .refused) := by
  simp only [State.command, hh, hqp, Bool.false_eq_true, if_false, ne_eq, not_false_eq_true, if_true]

section Answers

variable {s : State} (hh : s.dev.halted = false) (hqp : s.cmd.qp = 1)

include hh hqp

theorem exec_mgmtRead_of_some {off size x : Nat} (h : s.mgmtValue off size = some x) :
    exec (.mgmtRead off size) s = .next (s.answer s.cmd (.value (BitVec.ofNat 64 x))) := by
  change execMgmtRead off size s = _
  simp only [execMgmtRead, State.command_of_qp hh hqp, h]

theorem exec_mgmtRead_of_none {off size : Nat} (h : s.mgmtValue off size = none) :
    exec (.mgmtRead off size) s = .next (s.answer s.cmd .refused) := by
  change execMgmtRead off size s = _
  simp only [execMgmtRead, State.command_of_qp hh hqp, h]

theorem exec_mgmtWrite_of_some {off size : Nat} {v : BitVec 64} {w : State}
    (h : s.mgmtSet s.cmd off size (v.toNat % 2 ^ (8 * size)) = some w) : exec (.mgmtWrite off size v) s = .next w := by
  change execMgmtWrite off size v s = _
  simp only [execMgmtWrite, State.command_of_qp hh hqp, h, Option.getD_some]

theorem exec_mgmtWrite_of_none {off size : Nat} {v : BitVec 64}
    (h : s.mgmtSet s.cmd off size (v.toNat % 2 ^ (8 * size)) = none) :
    exec (.mgmtWrite off size v) s = .next (s.answer s.cmd .refused) := by
  change execMgmtWrite off size v s = _
  simp only [execMgmtWrite, State.command_of_qp hh hqp, h, Option.getD_none]

theorem exec_inval (ctl : BitVec 64) : exec (.inval ctl) s = .next (s.startInval s.cmd ctl.toNat) := by
  change execInval ctl s = _
  simp only [execInval, State.command_of_qp hh hqp]

end Answers

/-! ### The parts of the management space (R36, R342, R356) -/

/-- An offset lies in a part of the space. -/
theorem inPart {lo hi off : Nat} (h0 : lo ≤ off) (h1 : off < hi) : (decide (lo ≤ off) && decide (off < hi)) = true := by
  simp only [h0, h1, decide_true, Bool.and_self]

theorem notInPart {lo hi off : Nat} (h : off < lo ∨ hi ≤ off) : ¬ (decide (lo ≤ off) && decide (off < hi)) = true := by
  simp only [Bool.and_eq_true, decide_eq_true_eq]
  omega

/-- Neither a read nor a write of an offset is served. -/
def State.Unserved (s : State) (off size : Nat) : Prop :=
  s.mgmtValue off size = none ∧ ∀ c v, s.mgmtSet c off size v = none

section Space

variable {s : State} {off size : Nat}

theorem State.unserved_of_sized (h : Sized off size → s.Unserved off size) : s.Unserved off size := by
  by_cases hs : Sized off size
  · exact h hs
  · have hs' := (sized_iff off size).mpr hs
    unfold State.Unserved State.mgmtValue State.mgmtSet
    exact ⟨if_pos hs', fun _ _ => if_pos hs'⟩

variable (hs : Sized off size)

include hs

/-- The launch queues' registers lie below 0x040000 (R36). -/
theorem State.mgmt_queue (h : off < 0x040000) :
    s.mgmtValue off size = ((s.queue? (off / 0x1000)).bind fun q => q.readReg (off % 0x1000) size) ∧
    ∀ c v, s.mgmtSet c off size v = ((s.queue? (off / 0x1000)).bind fun q => q.writeReg s.dev.ready (off % 0x1000) size v).map
      fun q => (s.modQueue (off / 0x1000) fun _ => q).answer c .done := by
  have hs' := (sized_iff off size).not_left.mpr hs
  unfold State.mgmtValue State.mgmtSet
  refine ⟨(if_neg hs').trans (if_pos h), fun c v => ((if_neg hs').trans (if_pos h)).trans ?_⟩
  cases (s.queue? (off / 0x1000)).bind fun q => q.writeReg s.dev.ready (off % 0x1000) size v <;> rfl

/-- The context of an ASID, where it takes commands: a killed one does not (R342). -/
def State.openCtx (s : State) (asid : Nat) : Option Ctx := (s.ctx? asid).filter (·.live)

/-- What a read of a context's window answers. -/
def State.windowValue (s : State) (c : Ctx) (k : Nat) : Nat :=
  match windowCsr k with
  | some (n, _) => s.ctxReg c n
  | none => 0

/-- A context's window is read and written in words (R342). -/
theorem State.mgmt_window (h0 : 0x100000 ≤ off) (h1 : off < 0x180000) {c : Ctx} (hc : s.openCtx ((off - 0x100000) / 0x100) = some c)
    (h4 : size = 4) : s.mgmtValue off size = some (s.windowValue c (off % 0x100)) ∧
    (∀ n, windowCsr (off % 0x100) = some (n, true) → ∀ k v, s.mgmtSet k off size v =
      some ((s.setCtxReg ((off - 0x100000) / 0x100) n (BitVec.ofNat 32 v)).answer k .done)) ∧
    ((∀ n, windowCsr (off % 0x100) ≠ some (n, true)) → ∀ k v, s.mgmtSet k off size v = none) := by
  have hs' := (sized_iff off size).not_left.mpr hs
  unfold State.openCtx at hc
  subst h4
  unfold State.mgmtValue State.mgmtSet
  refine ⟨?_, fun n hn k v => ?_, fun hn k v => ?_⟩
  · rw [if_neg hs', if_neg (by omega), if_pos (inPart h0 h1), hc]
    rfl
  · rw [if_neg hs', if_neg (by omega), if_pos (inPart h0 h1)]
    simp only [hc, hn]
  · rw [if_neg hs', if_neg (by omega), if_pos (inPart h0 h1)]
    cases hw : windowCsr (off % 0x100) with
    | none => simp only [hc]
    | some p =>
      obtain ⟨n, _ | _⟩ := p
      · simp only [hc]
      · exact absurd hw (hn n)

theorem State.unserved_window (h0 : 0x100000 ≤ off) (h1 : off < 0x180000)
    (h : s.openCtx ((off - 0x100000) / 0x100) = none ∨ size ≠ 4) : s.Unserved off size := by
  have hs' := (sized_iff off size).not_left.mpr hs
  unfold State.openCtx at h
  unfold State.Unserved State.mgmtValue State.mgmtSet
  refine ⟨?_, fun c v => ?_⟩
  · rw [if_neg hs', if_neg (by omega), if_pos (inPart h0 h1)]
    split
    next hc => exact absurd h (by simp [hc])
    next => rfl
  · rw [if_neg hs', if_neg (by omega), if_pos (inPart h0 h1)]
    dsimp only
    split
    next hc _ => exact absurd h (by simp [hc])
    next => rfl

/-- INVAL's control word is read as 0, and a write of it starts an invalidation (R190, R342). -/
theorem State.mgmt_inval (h : off = 0x200000) (h8 : size = 8) : s.mgmtValue off size = some 0 ∧
    ∀ c v, s.mgmtSet c off size v = some (s.startInval c v) := by
  have hs' := (sized_iff off size).not_left.mpr hs
  unfold State.mgmtValue State.mgmtSet
  refine ⟨?_, fun c v => ?_⟩
  · rw [if_neg hs', if_neg (by omega), if_neg (notInPart (by omega)), if_pos h, if_pos h8]
  · rw [if_neg hs', if_neg (by omega), if_neg (notInPart (by omega))]
    exact (if_pos h).trans (if_pos h8)

theorem State.unserved_inval (h : off = 0x200000) (h8 : size ≠ 8) : s.Unserved off size := by
  have hs' := (sized_iff off size).not_left.mpr hs
  unfold State.Unserved State.mgmtValue State.mgmtSet
  refine ⟨?_, fun c v => ?_⟩
  · rw [if_neg hs', if_neg (by omega), if_neg (notInPart (by omega)), if_pos h, if_neg h8]
  · rw [if_neg hs', if_neg (by omega), if_neg (notInPart (by omega))]
    exact (if_pos h).trans (if_neg h8)

/-- A register of the module is read and written at its size (R342). -/
theorem State.mgmt_module (h0 : 0x200000 < off) (h1 : off < 0x200100) {x : Nat} (hx : s.moduleReg off = some (size, x)) :
    s.mgmtValue off size = some x ∧ ∀ c v, s.mgmtSet c off size v = some ((s.setModuleReg off v).answer c .done) := by
  have hs' := (sized_iff off size).not_left.mpr hs
  unfold State.mgmtValue State.mgmtSet
  refine ⟨?_, fun c v => ?_⟩
  · rw [if_neg hs', if_neg (by omega), if_neg (notInPart (by omega)), if_neg (by omega), if_pos (inPart h0.le h1), hx]
    exact if_pos rfl
  · rw [if_neg hs', if_neg (by omega), if_neg (notInPart (by omega))]
    refine (if_neg (by omega)).trans ((if_pos (inPart h0.le h1)).trans ?_)
    rw [hx]
    exact if_pos rfl

theorem State.unserved_module (h0 : 0x200000 < off) (h1 : off < 0x200100) (hx : ∀ x, s.moduleReg off ≠ some (size, x)) :
    s.Unserved off size := by
  have hs' := (sized_iff off size).not_left.mpr hs
  unfold State.Unserved State.mgmtValue State.mgmtSet
  refine ⟨?_, fun c v => ?_⟩
  · rw [if_neg hs', if_neg (by omega), if_neg (notInPart (by omega)), if_neg (by omega), if_pos (inPart h0.le h1)]
    cases hr : s.moduleReg off with
    | none => rfl
    | some p => exact if_neg fun hn => hx p.2 (by rw [hr, ← hn])
  · rw [if_neg hs', if_neg (by omega), if_neg (notInPart (by omega))]
    refine (if_neg (by omega)).trans ((if_pos (inPart h0.le h1)).trans ?_)
    cases hr : s.moduleReg off with
    | none => rfl
    | some p => exact if_neg fun hn => hx p.2 (by rw [hr, ← hn])

/-- The snapshot region is read in words, and not written (R356). -/
theorem State.mgmt_snapshot (h0 : 0x300000 ≤ off) (h1 : off < 0x400000) :
    s.mgmtValue off size = (if size = 4 then some (s.snapWord off) else none) ∧ ∀ c v, s.mgmtSet c off size v = none := by
  have hs' := (sized_iff off size).not_left.mpr hs
  unfold State.mgmtValue State.mgmtSet
  refine ⟨?_, fun c v => ?_⟩
  · rw [if_neg hs', if_neg (by omega), if_neg (notInPart (by omega)), if_neg (by omega), if_neg (notInPart (by omega)),
      if_pos (inPart h0 h1)]
  · rw [if_neg hs', if_neg (by omega), if_neg (notInPart (by omega))]
    exact (if_neg (by omega)).trans ((if_neg (notInPart (by omega))).trans (if_neg (notInPart (by omega))))

/-- The peer groups are read and written by halfwords (R342). -/
theorem State.mgmt_group (h0 : 0x400000 ≤ off) (h1 : off < 0x500000) :
    s.mgmtValue off size = (s.openCtx ((off - 0x400000) / 0x200)).map (fun c => c.readPeers (off % 0x200 / 2) (size / 2)) ∧
    ∀ k v, s.mgmtSet k off size v = (s.openCtx ((off - 0x400000) / 0x200)).map fun _ =>
      (s.modCtx ((off - 0x400000) / 0x200) fun x => x.writePeers (off % 0x200 / 2) v (size / 2)).answer k .done := by
  have hs' := (sized_iff off size).not_left.mpr hs
  unfold State.mgmtValue State.mgmtSet State.openCtx
  refine ⟨?_, fun c v => ?_⟩
  · rw [if_neg hs', if_neg (by omega), if_neg (notInPart (by omega)), if_neg (by omega), if_neg (notInPart (by omega)),
      if_neg (notInPart (by omega)), if_pos (inPart h0 h1)]
  · rw [if_neg hs', if_neg (by omega), if_neg (notInPart (by omega))]
    refine (if_neg (by omega)).trans ((if_neg (notInPart (by omega))).trans ((if_pos (inPart h0 h1)).trans ?_))
    dsimp only
    cases (s.ctx? ((off - 0x400000) / 0x200)).filter (·.live) <;> rfl

theorem State.unserved_gap (h : (0x040000 ≤ off ∧ off < 0x100000) ∨ (0x180000 ≤ off ∧ off < 0x200000) ∨
    (0x200100 ≤ off ∧ off < 0x300000) ∨ 0x500000 ≤ off) : s.Unserved off size := by
  have hs' := (sized_iff off size).not_left.mpr hs
  unfold State.Unserved State.mgmtValue State.mgmtSet
  refine ⟨?_, fun c v => ?_⟩
  · rw [if_neg hs', if_neg (by omega), if_neg (notInPart (by omega)), if_neg (by omega), if_neg (notInPart (by omega)),
      if_neg (notInPart (by omega)), if_neg (notInPart (by omega))]
  · rw [if_neg hs', if_neg (by omega), if_neg (notInPart (by omega))]
    exact (if_neg (by omega)).trans ((if_neg (notInPart (by omega))).trans (if_neg (notInPart (by omega))))

end Space

/-! ### The launch queues' registers (R36) -/

section QueueWindow

variable {s : State} {n : Nat} {q : Queue} (hq : s.queue? n = some q) (hn : n < 64)

include hq hn

theorem State.mgmtValue_queueAt {k size x : Nat} (hk : k < 0x1000) (hs : Sized (0x1000 * n + k) size) (h : q.readReg k size = some x) :
    s.mgmtValue (0x1000 * n + k) size = some x := by
  rw [(State.mgmt_queue hs (by omega)).1, show (0x1000 * n + k) / 0x1000 = n by omega, show (0x1000 * n + k) % 0x1000 = k by omega, hq]
  exact h

theorem State.mgmtSet_queueAt {k size v : Nat} {r : Queue} (hk : k < 0x1000) (hs : Sized (0x1000 * n + k) size)
    (h : q.writeReg s.dev.ready k size v = some r) (c : Cmd) :
    s.mgmtSet c (0x1000 * n + k) size v = some ((s.modQueue n fun _ => r).answer c .done) := by
  rw [(State.mgmt_queue hs (by omega)).2, show (0x1000 * n + k) / 0x1000 = n by omega, show (0x1000 * n + k) % 0x1000 = k by omega, hq,
    Option.bind_some, h, Option.map_some]

theorem State.mgmtSet_queueAt_none {k size v : Nat} (hk : k < 0x1000) (h : q.writeReg s.dev.ready k size v = none) (c : Cmd) :
    s.mgmtSet c (0x1000 * n + k) size v = none := by
  by_cases hs : Sized (0x1000 * n + k) size
  · rw [(State.mgmt_queue hs (by omega)).2, show (0x1000 * n + k) / 0x1000 = n by omega, show (0x1000 * n + k) % 0x1000 = k by omega,
      hq, Option.bind_some, h, Option.map_none]
  · exact (State.unserved_of_sized fun h => absurd h hs).2 c v

theorem State.mgmtValue_queueAt_none {k size : Nat} (hk : k < 0x1000) (h : q.readReg k size = none) :
    s.mgmtValue (0x1000 * n + k) size = none := by
  by_cases hs : Sized (0x1000 * n + k) size
  · rw [(State.mgmt_queue hs (by omega)).1, show (0x1000 * n + k) / 0x1000 = n by omega, show (0x1000 * n + k) % 0x1000 = k by omega,
      hq, Option.bind_some, h]
  · exact (State.unserved_of_sized fun h => absurd h hs).1

end QueueWindow

/-- QBASE is read and written in eight bytes, the other registers in four; KICK's second half is no register (R36, R357). -/
theorem Queue.reg_of_size {q : Queue} {k size : Nat} (h : (size ≠ if k = 0 then 8 else 4) ∨ k = 4) :
    q.readReg k size = none ∧ ∀ up v, q.writeReg up k size v = none := by
  unfold Queue.readReg Queue.writeReg
  by_cases hk : k = 0
  · subst hk
    have h8 : size ≠ 8 := by simpa using h
    exact ⟨(if_pos rfl).trans (if_neg h8), fun _ _ => (if_pos rfl).trans (if_pos h8)⟩
  · rw [if_neg hk] at h
    have h4 : (decide (size ≠ 4) || decide (k = 4)) = true := by simpa using h
    exact ⟨(if_neg hk).trans (if_pos h4), fun _ _ => (if_neg hk).trans (if_pos h4)⟩

/-- A reserved offset reads 0, and a write of it is ignored (R36). -/
theorem Queue.reg_reserved {q : Queue} {k : Nat} (h : 0x28 ≤ k) : q.readReg k 4 = some 0 ∧ ∀ up v, q.writeReg up k 4 v = some q := by
  have h4 : ¬ (decide ((4 : Nat) ≠ 4) || decide (k = 4)) = true := by simp; omega
  unfold Queue.readReg Queue.writeReg
  refine ⟨?_, fun up v => ?_⟩
  · rw [if_neg (by omega), if_neg h4]
    split
    case h_9 => rfl
    all_goals omega
  · rw [if_neg (by omega)]
    refine (if_neg h4).trans ?_
    split
    case h_9 => rfl
    all_goals omega

/-! ### The contexts' windows (R342) -/

theorem State.openCtx_eq_none {s : State} {asid : Nat} (h : ∀ c, s.ctx? asid = some c → c.live = false) : s.openCtx asid = none := by
  cases hc : s.ctx? asid with
  | none => simp [State.openCtx, hc]
  | some c => simp [State.openCtx, hc, h c hc]

theorem State.openCtx_eq_some {s : State} {asid : Nat} {c : Ctx} (hc : s.ctx? asid = some c) (hl : c.live = true) :
    s.openCtx asid = some c := by
  simp [State.openCtx, hc, hl]

/-- The registers of a context's window that are written as a CSRW writes them, by offset. -/
def windowRegs : List (Nat × Nat) :=
  [(0x00, 0x040), (0x04, 0x143), (0x08, 0x185), (0x0C, 0x183), (0x10, 0x006), (0x14, 0x009), (0x18, 0x00A), (0x20, 0x181)]

theorem windowCsr_of_mem : ∀ e ∈ windowRegs,
    e.1 < 0x100 ∧ e.1 % 4 = 0 ∧ windowCsr e.1 = some (e.2, true) ∧ e.2 ≠ 0x182 ∧ e.2 ≠ 0x109 := by
  decide

theorem windowCsr_reserved {k : Nat} (h : 0x30 ≤ k) : windowCsr k = none := by
  unfold windowCsr
  split
  case h_13 => rfl
  all_goals omega

theorem State.setCtxReg_eq {s : State} {asid n : Nat} {v : Word} (h1 : n ≠ 0x182) (h2 : n ≠ 0x109) :
    s.setCtxReg asid n v = s.setCtxCsr asid n v := by
  unfold State.setCtxReg
  split
  · exact absurd rfl h1
  · exact absurd rfl h2
  · rfl

section Window

variable {s : State} {asid k : Nat} (ha : asid < 2048) (hk : k < 0x100)

include ha hk

theorem State.unserved_windowAt {size : Nat} (h : s.openCtx asid = none ∨ size ≠ 4) :
    s.Unserved (0x100000 + 0x100 * asid + k) size :=
  State.unserved_of_sized fun hs => State.unserved_window hs (by omega) (by omega) (by
    rwa [show (0x100000 + 0x100 * asid + k - 0x100000) / 0x100 = asid by omega])

variable {c : Ctx} (hc : s.openCtx asid = some c) (h4 : k % 4 = 0)

include hc h4

theorem State.mgmtValue_windowAt : s.mgmtValue (0x100000 + 0x100 * asid + k) 4 = some (s.windowValue c k) := by
  have hi : (0x100000 + 0x100 * asid + k - 0x100000) / 0x100 = asid := by omega
  have hk' : (0x100000 + 0x100 * asid + k) % 0x100 = k := by omega
  have h := (State.mgmt_window (s := s) (off := 0x100000 + 0x100 * asid + k) (size := 4) ⟨by decide, by omega⟩ (by omega) (by omega)
    (by rwa [hi]) rfl).1
  rwa [hk'] at h

theorem State.mgmtSet_windowAt {n : Nat} (hw : windowCsr k = some (n, true)) (m : Cmd) (v : Nat) :
    s.mgmtSet m (0x100000 + 0x100 * asid + k) 4 v = some ((s.setCtxReg asid n (BitVec.ofNat 32 v)).answer m .done) := by
  have hi : (0x100000 + 0x100 * asid + k - 0x100000) / 0x100 = asid := by omega
  have hk' : (0x100000 + 0x100 * asid + k) % 0x100 = k := by omega
  have h := (State.mgmt_window (s := s) (off := 0x100000 + 0x100 * asid + k) (size := 4) ⟨by decide, by omega⟩ (by omega) (by omega)
    (by rwa [hi]) rfl).2.1
  rw [hk', hi] at h
  exact h n hw m v

theorem State.mgmtSet_windowAt_none (hw : ∀ n, windowCsr k ≠ some (n, true)) (m : Cmd) (v : Nat) :
    s.mgmtSet m (0x100000 + 0x100 * asid + k) 4 v = none := by
  have hi : (0x100000 + 0x100 * asid + k - 0x100000) / 0x100 = asid := by omega
  have hk' : (0x100000 + 0x100 * asid + k) % 0x100 = k := by omega
  have h := (State.mgmt_window (s := s) (off := 0x100000 + 0x100 * asid + k) (size := 4) ⟨by decide, by omega⟩ (by omega) (by omega)
    (by rwa [hi]) rfl).2.2
  rw [hk'] at h
  exact h hw m v

end Window

/-! ### The peer groups (R342) -/

theorem Ctx.readPeers_eq (c : Ctx) (i n : Nat) :
    c.readPeers i n = (List.range n).foldr (fun k v => (look 0 (i + k) c.peers).toNat + 2 ^ 16 * v) 0 := by
  induction n generalizing i with
  | zero => rfl
  | succ n ih =>
    rw [Ctx.readPeers, ih, List.range_succ_eq_map, List.foldr_cons, List.foldr_map]
    simp only [Nat.add_zero, Nat.add_assoc, Nat.add_comm 1, Nat.succ_eq_add_one]

/-- A write of halfwords leaves the context otherwise as it was, and each halfword holds its part of the value. -/
theorem Ctx.writePeers_eq (c : Ctx) (i v n : Nat) :
    c.writePeers i v n = { c with peers := (c.writePeers i v n).peers } ∧
    ∀ k, look 0 k (c.writePeers i v n).peers =
      if i ≤ k ∧ k < i + n then peerHalf (v / 2 ^ (16 * (k - i)) % 2 ^ 16) else look 0 k c.peers := by
  induction n generalizing c i v with
  | zero => exact ⟨rfl, fun k => (if_neg (by omega)).symm⟩
  | succ n ih =>
    obtain ⟨hrest, hlook⟩ := ih { c with peers := put 0 i (peerHalf (v % 2 ^ 16)) c.peers } (i + 1) (v / 2 ^ 16)
    refine ⟨hrest, fun k => ?_⟩
    rw [Ctx.writePeers, hlook, look_put]
    by_cases hki : k = i
    · subst hki
      rw [if_neg (by omega), if_pos rfl, if_pos (by omega), Nat.sub_self, Nat.mul_zero, pow_zero, Nat.div_one]
    · rw [if_neg hki]
      by_cases hin : i ≤ k ∧ k < i + (n + 1)
      · rw [if_pos hin, if_pos (by omega), Nat.div_div_eq_div_mul, ← pow_add, show 16 + 16 * (k - (i + 1)) = 16 * (k - i) by omega]
      · rw [if_neg hin, if_neg (by omega)]

/-- A halfword of a command's value: the bits beyond its size are none of it. -/
theorem peerHalf_eq (v N j : Nat) (h : 16 * j + 16 ≤ N) : peerHalf (v % 2 ^ N / 2 ^ (16 * j) % 2 ^ 16) =
    BitVec.ofNat 16 (v / 2 ^ (16 * j) % 2 ^ 12 + 2 ^ 15 * (v / 2 ^ (16 * j + 15) % 2)) := by
  have hhalf : v % 2 ^ N / 2 ^ (16 * j) % 2 ^ 16 = v / 2 ^ (16 * j) % 2 ^ 16 := by
    rw [show N = 16 * j + (N - 16 * j) by omega, pow_add, Nat.mod_mul_right_div_self,
      Nat.mod_mod_of_dvd _ (Nat.pow_dvd_pow 2 (by omega))]
  rw [hhalf, pow_add, ← Nat.div_div_eq_div_mul]
  generalize v / 2 ^ (16 * j) = y
  simp only [peerHalf, fieldOf]
  congr 1
  omega

/-! ### The module's registers (R342) -/

/-- The module's registers with their sizes, beside INVAL's control word. -/
def moduleRegs : List (Nat × Nat) :=
  [(0x200008, 8), (0x200010, 8), (0x200040, 4), (0x200044, 4), (0x200048, 4), (0x200080, 8), (0x200088, 8), (0x200090, 4),
   (0x2000C0, 4), (0x2000C4, 4), (0x2000C8, 4)]

theorem State.mem_moduleRegs {s : State} {off size x : Nat} (h : s.moduleReg off = some (size, x)) : (off, size) ∈ moduleRegs := by
  unfold State.moduleReg at h
  dsimp only at h
  split at h
  case h_12 => exact absurd h (Option.some_ne_none _).symm
  all_goals
    obtain ⟨rfl, -⟩ := Prod.mk.inj (Option.some.inj h)
    decide

theorem State.unserved_moduleAt {s : State} {off size : Nat} (h0 : 0x200000 ≤ off) (h1 : off < 0x200100)
    (h : (off, size) ∉ (0x200000, 8) :: moduleRegs) : s.Unserved off size := by
  obtain ⟨hinval, hreg⟩ := not_or.mp (mt List.mem_cons.mpr h)
  refine State.unserved_of_sized fun hs => ?_
  by_cases hoff : off = 0x200000
  · exact State.unserved_inval hs hoff fun h8 => hinval (by rw [hoff, h8])
  · exact State.unserved_module hs (by omega) h1 fun x hx => hreg (State.mem_moduleRegs hx)

/-! ### INVAL (R190, R357) -/

/-- A control word that is refused (R357). -/
def State.InvalRefused (s : State) (ctl : BitVec 64) : Prop :=
  ctl.toNat / 2 ^ 12 % 4 = 3 ∨ ctl.toNat / 2 ^ 11 % 2 = 1 ∨ ctl.toNat / 2 ^ 14 ≠ 0 ∨
    (ctl.toNat / 2 ^ 12 % 4 = 1 ∧ (s.dev.invLen = 0 ∨ 2 ^ 57 < s.dev.invBase + s.dev.invLen))

theorem State.invalRefused_iff (s : State) (ctl : BitVec 64) :
    invalRefused ctl.toNat s.dev.invLen s.dev.invBase = true ↔ s.InvalRefused ctl := by
  have hhigh : fieldOf ctl.toNat 14 50 = ctl.toNat / 2 ^ 14 := Nat.mod_eq_of_lt (by have := ctl.isLt; omega)
  have hbit : fieldOf ctl.toNat 11 1 ≠ 0 ↔ ctl.toNat / 2 ^ 11 % 2 = 1 := by
    change ctl.toNat / 2 ^ 11 % 2 ^ 1 ≠ 0 ↔ _
    omega
  have hmode : fieldOf ctl.toNat 12 2 = ctl.toNat / 2 ^ 12 % 4 := rfl
  simp only [invalRefused, State.InvalRefused, Bool.or_eq_true, Bool.and_eq_true, beq_iff_eq, bne_iff_ne, decide_eq_true_eq, hhigh,
    hbit, hmode, or_assoc]

theorem State.startInval_of_refused {s : State} {ctl : BitVec 64} (h : s.InvalRefused ctl) (c : Cmd) :
    s.startInval c ctl.toNat = s.answer c .refused := by
  simp only [State.startInval, (s.invalRefused_iff ctl).mpr h, if_true]

theorem State.startInval_of_accepted {s : State} {ctl : BitVec 64} (h : ¬ s.InvalRefused ctl) (c : Cmd) :
    let mode := ctl.toNat / 2 ^ 12 % 4
    let asid := ctl.toNat % 2 ^ 11
    s.startInval c ctl.toNat = ({ s with
      invals := s.invals ++ [⟨s.fresh, mode, asid, s.dev.invBase, s.dev.invLen, c.seq, s.oldAccesses mode asid⟩]
      fresh := s.fresh + 1 } : State).dropTlbs mode asid s.dev.invBase s.dev.invLen := by
  have hno := Bool.eq_false_iff.mpr (mt (s.invalRefused_iff ctl).mp h)
  simp only [State.startInval, hno, Bool.false_eq_true, if_false, fieldOf, pow_zero, Nat.div_one, Nat.reducePow]

theorem exec_invalComplete {s : State} {id : Nat} {i : Inval} (h : s.invals.find? (·.id == id) = some i) :
    let going := ∃ n ∈ i.flights, (∃ f ∈ s.flights, f.id = n) ∨ ∃ p ∈ s.pending, p.id = n
    (going → exec (.invalComplete id) s = .next s) ∧
    (¬ going → exec (.invalComplete id) s = .next ((({ s with invals := s.invals.filter fun x => x.id != id } : State).dropTlbs
      i.mode i.asid i.base i.len).answer ⟨1, i.seq⟩ .done)) := by
  intro going
  have hgoing : (i.flights.any fun n => s.flights.any (fun f => f.id == n) || s.pending.any fun p => p.id == n) = true ↔ going := by
    simp only [List.any_eq_true, Bool.or_eq_true, beq_iff_eq, going]
  change (going → execInvalComplete id s = _) ∧ (¬ going → execInvalComplete id s = _)
  simp only [execInvalComplete, h]
  exact ⟨fun hg => if_pos (hgoing.mpr hg), fun hg => if_neg (mt hgoing.mp hg)⟩

/-! ### The answers of the management space -/

/-- A read is answered with a value. -/
def State.Reads (s : State) (off size v : Nat) : Prop :=
  exec (.mgmtRead off size) s = .next (s.answer s.cmd (.value (BitVec.ofNat 64 v)))

/-- A write is answered as done, in a state. -/
def State.Sets (s : State) (off size : Nat) (v : BitVec 64) (w : State) : Prop :=
  exec (.mgmtWrite off size v) s = .next (w.answer s.cmd .done)

/-- A read is refused. -/
def State.Unread (s : State) (off size : Nat) : Prop := exec (.mgmtRead off size) s = .next (s.answer s.cmd .refused)

/-- Every write is refused. -/
def State.Unset (s : State) (off size : Nat) : Prop := ∀ v, exec (.mgmtWrite off size v) s = .next (s.answer s.cmd .refused)

/-- The part of a command's value that a register of a word takes. -/
theorem low_word (v : BitVec 64) : BitVec.ofNat 32 (v.toNat % 2 ^ (8 * 4)) = BitVec.ofNat 32 (v.toNat % 2 ^ 32) := rfl

theorem low_all (v : BitVec 64) : v.toNat % 2 ^ (8 * 8) = v.toNat := Nat.mod_eq_of_lt v.isLt

theorem low_field (v : BitVec 64) {lo w : Nat} (h : lo + w ≤ 32) : fieldOf (v.toNat % 2 ^ (8 * 4)) lo w = v.toNat / 2 ^ lo % 2 ^ w := by
  rw [fieldOf, show 8 * 4 = lo + (32 - lo) by omega, pow_add, Nat.mod_mul_right_div_self,
    Nat.mod_mod_of_dvd _ (Nat.pow_dvd_pow 2 (by omega))]

theorem low_field_zero (v : BitVec 64) {w : Nat} (h : w ≤ 32) : fieldOf (v.toNat % 2 ^ (8 * 4)) 0 w = v.toNat % 2 ^ w := by
  rw [low_field v (by omega), pow_zero, Nat.div_one]

theorem low_bit (v : BitVec 64) {i : Nat} (h : i < 32) : (fieldOf (v.toNat % 2 ^ (8 * 4)) i 1 == 1) = v.getLsbD i := by
  rw [low_field v (by omega), BitVec.getLsbD, Nat.testBit_eq_decide_div_mod_eq]
  rfl

theorem low_bit_not (v : BitVec 64) {i : Nat} (h : i < 32) : (fieldOf (v.toNat % 2 ^ (8 * 4)) i 1 == 0) = !v.getLsbD i := by
  rw [← low_bit v h, low_field v (by omega), pow_one]
  rcases Nat.mod_two_eq_zero_or_one (v.toNat / 2 ^ i) with h | h <;> rw [h] <;> rfl

section Management

variable {s : State} (hh : s.dev.halted = false) (hqp : s.cmd.qp = 1)

include hh hqp

theorem State.refused_of_unserved {off size : Nat} (h : s.Unserved off size) : s.Unread off size ∧ s.Unset off size :=
  ⟨exec_mgmtRead_of_none hh hqp h.1, fun _ => exec_mgmtWrite_of_none hh hqp (h.2 ..)⟩

/-! The launch queues -/

section QueueClauses

variable {n : Nat} {q : Queue} (hq : s.queue? n = some q) (hn : n < 64)

include hq hn

theorem State.reads_queue {k size x : Nat} (hk : k < 0x1000) (hs : Sized k size) (h : q.readReg k size = some x) :
    s.Reads (0x1000 * n + k) size x := by
  refine exec_mgmtRead_of_some hh hqp (State.mgmtValue_queueAt hq hn hk ?_ h)
  obtain ⟨rfl | rfl | rfl, hm⟩ := hs <;> exact ⟨by decide, by omega⟩

theorem State.sets_queue {k size : Nat} {v : BitVec 64} {r : Queue} (hk : k < 0x1000) (hs : Sized k size)
    (h : q.writeReg s.dev.ready k size (v.toNat % 2 ^ (8 * size)) = some r) :
    s.Sets (0x1000 * n + k) size v (s.modQueue n fun _ => r) := by
  refine exec_mgmtWrite_of_some hh hqp (State.mgmtSet_queueAt hq hn hk ?_ h _)
  obtain ⟨rfl | rfl | rfl, hm⟩ := hs <;> exact ⟨by decide, by omega⟩

theorem State.reads_queueMap :
    let bit (b : Bool) : Nat := if b then 1 else 0
    let reads (k size x : Nat) : Prop := s.Reads (0x1000 * n + k) size x
    reads 0 8 q.qbase ∧ reads 0x08 4 q.qsize ∧ reads 0x0C 4 (q.qctx + 2 ^ 15 * bit q.qpriv) ∧ s.Unread (0x1000 * n + 0x10) 4 ∧
      reads 0x14 4 q.qhead.toNat ∧ reads 0x18 4 (bit q.idle + 2 * bit q.kickAhead + 4 * bit q.refused) ∧
      reads 0x1C 4 q.qerr.toNat ∧ reads 0x20 4 q.qrefcnt ∧ reads 0x24 4 (bit q.qen) := by
  have hread {k size x : Nat} (hk : k < 0x1000 ∧ Sized k size) (h : q.readReg k size = some x) : s.Reads (0x1000 * n + k) size x :=
    State.reads_queue hh hqp hq hn hk.1 hk.2 h
  exact ⟨hread ⟨by decide, by decide, by decide⟩ rfl, hread ⟨by decide, by decide, by decide⟩ rfl,
    hread ⟨by decide, by decide, by decide⟩ rfl,
    exec_mgmtRead_of_none hh hqp (State.mgmtValue_queueAt_none hq hn (by decide) rfl),
    hread ⟨by decide, by decide, by decide⟩ rfl, hread ⟨by decide, by decide, by decide⟩ rfl,
    hread ⟨by decide, by decide, by decide⟩ rfl, hread ⟨by decide, by decide, by decide⟩ rfl,
    hread ⟨by decide, by decide, by decide⟩ rfl⟩

/-- The registers that a running queue takes too. -/
theorem State.sets_queueMap (v : BitVec 64) :
    let sets (k : Nat) (r : Queue) : Prop := s.Sets (0x1000 * n + k) 4 v (s.modQueue n fun _ => r)
    sets 0x10 (q.kicked (BitVec.ofNat 32 (v.toNat % 2 ^ 32))) ∧
    sets 0x18 { q with
        idle := q.idle && !v.getLsbD 0, kickAhead := q.kickAhead && !v.getLsbD 1, refused := q.refused && !v.getLsbD 2 } ∧
    sets 0x20 { q with qrefcnt := 0 } ∧
    sets 0x24 (if s.dev.devstat.toNat % 16 = 7 then Queue.settle { q with qen := v.getLsbD 0 } else q) := by
  have hset {k : Nat} {r : Queue} (hk : k < 0x1000 ∧ k % 4 = 0)
      (h : q.writeReg s.dev.ready k 4 (v.toNat % 2 ^ (8 * 4)) = some r) : s.Sets (0x1000 * n + k) 4 v (s.modQueue n fun _ => r) :=
    State.sets_queue hh hqp hq hn hk.1 ⟨by decide, hk.2⟩ h
  refine ⟨hset (by decide) rfl, hset (by decide) ?_, hset (by decide) rfl, hset (by decide) ?_⟩
  · rw [← low_bit_not v (by decide), ← low_bit_not v (by decide), ← low_bit_not v (by decide)]
    rfl
  · rw [← low_bit v (by decide)]
    change some (if s.dev.ready = true then _ else _) = _
    simp only [Device.ready_iff]

/-- The registers that only a disabled queue takes (R36). -/
theorem State.sets_queueMap_of_disabled (v : BitVec 64) (he : q.qen = false) :
    let sets (k size : Nat) (r : Queue) : Prop := s.Sets (0x1000 * n + k) size v (s.modQueue n fun _ => r)
    sets 0 8 { q with qbase := v.toNat / 4096 * 4096 } ∧
    sets 0x0C 4 { q with qctx := v.toNat % 2 ^ 11, qpriv := v.getLsbD 15 } ∧
    sets 0x14 4 { q with qhead := BitVec.ofNat 32 (v.toNat % 2 ^ 32) } ∧
    sets 0x08 4 { q with qsize := if 4 ≤ v.toNat % 32 ∧ v.toNat % 32 ≤ 16 then v.toNat % 32 else 4 } := by
  have hset {k size : Nat} {r : Queue} (hk : k < 0x1000 ∧ Sized k size)
      (h : q.writeReg s.dev.ready k size (v.toNat % 2 ^ (8 * size)) = some r) :
      s.Sets (0x1000 * n + k) size v (s.modQueue n fun _ => r) :=
    State.sets_queue hh hqp hq hn hk.1 hk.2 h
  have hoff : ¬ q.qen = true := by simp [he]
  refine ⟨hset ⟨by decide, by decide, by decide⟩ ?_, hset ⟨by decide, by decide, by decide⟩ ?_,
    hset ⟨by decide, by decide, by decide⟩ ?_, hset ⟨by decide, by decide, by decide⟩ ?_⟩
  · rw [low_all]
    exact congrArg some (if_neg hoff)
  · rw [← low_bit v (by decide), ← low_field_zero v (w := 11) (by decide)]
    exact congrArg some (if_neg hoff)
  · exact congrArg some (if_neg hoff)
  · have h5 := low_field_zero v (w := 5) (by decide)
    refine (congrArg some (if_neg hoff)).trans ?_
    simp only [h5, Bool.and_eq_true, decide_eq_true_eq, Nat.reducePow]

/-- A running queue's place and settings stand (R36). -/
theorem State.sets_queueMap_of_enabled (v : BitVec 64) (he : q.qen = true) :
    let sets (k size : Nat) : Prop := s.Sets (0x1000 * n + k) size v (s.modQueue n fun _ => q)
    sets 0 8 ∧ sets 0x08 4 ∧ sets 0x0C 4 ∧ sets 0x14 4 := by
  have hset {k size : Nat} (hk : k < 0x1000 ∧ Sized k size)
      (h : q.writeReg s.dev.ready k size (v.toNat % 2 ^ (8 * size)) = some (if q.qen then q else q)) :
      s.Sets (0x1000 * n + k) size v (s.modQueue n fun _ => q) := by
    rw [ite_self] at h
    exact State.sets_queue hh hqp hq hn hk.1 hk.2 h
  exact ⟨hset ⟨by decide, by decide, by decide⟩ (congrArg some ((if_pos he).trans (ite_self q).symm)),
    hset ⟨by decide, by decide, by decide⟩ (congrArg some ((if_pos he).trans (ite_self q).symm)),
    hset ⟨by decide, by decide, by decide⟩ (congrArg some ((if_pos he).trans (ite_self q).symm)),
    hset ⟨by decide, by decide, by decide⟩ (congrArg some ((if_pos he).trans (ite_self q).symm))⟩

theorem State.queue_unserved :
    (∀ k size, k < 0x1000 → ((size ≠ if k = 0 then 8 else 4) ∨ k = 4) →
      s.Unread (0x1000 * n + k) size ∧ s.Unset (0x1000 * n + k) size) ∧ s.Unset (0x1000 * n + 0x1C) 4 := by
  refine ⟨fun k size hk hs => ⟨?_, fun v => ?_⟩, fun v => ?_⟩
  · exact exec_mgmtRead_of_none hh hqp (State.mgmtValue_queueAt_none hq hn hk (Queue.reg_of_size hs).1)
  · exact exec_mgmtWrite_of_none hh hqp (State.mgmtSet_queueAt_none hq hn hk ((Queue.reg_of_size hs).2 ..) _)
  · exact exec_mgmtWrite_of_none hh hqp (State.mgmtSet_queueAt_none hq hn (by decide) rfl _)

theorem State.queue_reserved {k : Nat} (h0 : 0x28 ≤ k) (hk : k < 0x1000) (h4 : k % 4 = 0) :
    s.Reads (0x1000 * n + k) 4 0 ∧ ∀ v, s.Sets (0x1000 * n + k) 4 v (s.modQueue n fun _ => q) :=
  ⟨State.reads_queue hh hqp hq hn hk ⟨by decide, h4⟩ (Queue.reg_reserved h0).1,
    fun _ => State.sets_queue hh hqp hq hn hk ⟨by decide, h4⟩ ((Queue.reg_reserved h0).2 ..)⟩

end QueueClauses

/-! The contexts' windows and peer groups -/

section WindowClauses

variable {asid : Nat} (ha : asid < 2048)

include ha

theorem State.window_unserved {k : Nat} (hk : k < 0x100) {size : Nat} (h : s.openCtx asid = none ∨ size ≠ 4) :
    s.Unread (0x100000 + 0x100 * asid + k) size ∧ s.Unset (0x100000 + 0x100 * asid + k) size :=
  State.refused_of_unserved hh hqp (State.unserved_windowAt ha hk h)

theorem State.group_unserved {k : Nat} (hk : k < 0x200) {size : Nat} (h : s.openCtx asid = none) :
    s.Unread (0x400000 + 0x200 * asid + k) size ∧ s.Unset (0x400000 + 0x200 * asid + k) size := by
  refine State.refused_of_unserved hh hqp (State.unserved_of_sized fun hs => ?_)
  have hg := State.mgmt_group (s := s) hs (by omega) (by omega)
  rw [show (0x400000 + 0x200 * asid + k - 0x400000) / 0x200 = asid by omega, h] at hg
  exact hg

variable {c : Ctx} (hc : s.ctx? asid = some c) (hl : c.live = true)

include hc hl

theorem State.reads_window {k : Nat} (hk : k < 0x100) (h4 : k % 4 = 0) :
    s.Reads (0x100000 + 0x100 * asid + k) 4 (s.windowValue c k) :=
  exec_mgmtRead_of_some hh hqp (State.mgmtValue_windowAt ha hk (State.openCtx_eq_some hc hl) h4)

theorem State.sets_window {k n : Nat} (hk : k < 0x100) (h4 : k % 4 = 0) (hw : windowCsr k = some (n, true)) (v : BitVec 64) :
    s.Sets (0x100000 + 0x100 * asid + k) 4 v (s.setCtxReg asid n (BitVec.ofNat 32 (v.toNat % 2 ^ 32))) :=
  exec_mgmtWrite_of_some hh hqp (State.mgmtSet_windowAt ha hk (State.openCtx_eq_some hc hl) h4 hw _ _)

theorem State.unset_window {k : Nat} (hk : k < 0x100) (h4 : k % 4 = 0) (hw : ∀ n, windowCsr k ≠ some (n, true)) :
    s.Unset (0x100000 + 0x100 * asid + k) 4 :=
  fun _ => exec_mgmtWrite_of_none hh hqp (State.mgmtSet_windowAt_none ha hk (State.openCtx_eq_some hc hl) h4 hw _ _)

theorem State.reads_windowMap : ∀ e ∈ [(0x00, c.deedwait), (0x04, c.collwait), (0x08, c.pairwait), (0x0C, c.rollmax), (0x10, c.thentry.toNat),
    (0x14, c.thseg % 2 ^ 32), (0x18, c.thseg / 2 ^ 32), (0x1C, c.fqhead.toNat), (0x20, c.fqtail.toNat), (0x24, c.fqlost),
    (0x28, c.deperr), (0x2C, s.pendCnt c.asid)], s.Reads (0x100000 + 0x100 * asid + e.1) 4 e.2 := by
  have hread {k : Nat} (hk : k < 0x100 ∧ k % 4 = 0) := State.reads_window hh hqp ha hc hl hk.1 hk.2
  simp only [List.forall_mem_cons, List.not_mem_nil, false_imp_iff, implies_true, and_true]
  exact ⟨hread (by decide), hread (by decide), hread (by decide), hread (by decide), hread (by decide), hread (by decide),
    hread (by decide), hread (by decide), hread (by decide), hread (by decide), hread (by decide), hread (by decide)⟩

theorem State.sets_windowMap (v : BitVec 64) : ∀ e ∈ windowRegs,
    s.Sets (0x100000 + 0x100 * asid + e.1) 4 v (s.setCtxCsr asid e.2 (BitVec.ofNat 32 (v.toNat % 2 ^ 32))) := fun e he => by
  obtain ⟨hk, h4, hw, h1, h2⟩ := windowCsr_of_mem e he
  rw [← State.setCtxReg_eq h1 h2]
  exact State.sets_window hh hqp ha hc hl hk h4 hw v

theorem State.window_reserved {k : Nat} (h0 : 0x30 ≤ k) (hk : k < 0x100) (h4 : k % 4 = 0) :
    s.Reads (0x100000 + 0x100 * asid + k) 4 0 ∧ s.Unset (0x100000 + 0x100 * asid + k) 4 := by
  have hv : s.windowValue c k = 0 := by simp only [State.windowValue, windowCsr_reserved h0]
  refine ⟨hv ▸ State.reads_window hh hqp ha hc hl hk h4, State.unset_window hh hqp ha hc hl hk h4 fun n => ?_⟩
  rw [windowCsr_reserved h0]
  exact (Option.some_ne_none _).symm

theorem State.reads_group {i size : Nat} (hi : i < 256) (hs : Sized (0x400000 + 0x200 * asid + 2 * i) size) :
    s.Reads (0x400000 + 0x200 * asid + 2 * i) size
      ((List.range (size / 2)).foldr (fun k v => (look 0 (i + k) c.peers).toNat + 2 ^ 16 * v) 0) := by
  have hg := (State.mgmt_group (s := s) hs (by omega) (by omega)).1
  rw [show (0x400000 + 0x200 * asid + 2 * i - 0x400000) / 0x200 = asid by omega, State.openCtx_eq_some hc hl, Option.map_some,
    show (0x400000 + 0x200 * asid + 2 * i) % 0x200 / 2 = i by omega, Ctx.readPeers_eq] at hg
  exact exec_mgmtRead_of_some hh hqp hg

theorem State.sets_group {i size : Nat} (hi : i < 256) (hs : Sized (0x400000 + 0x200 * asid + 2 * i) size) (v : BitVec 64) :
    ∃ (w : State) (d : Ctx), s.Sets (0x400000 + 0x200 * asid + 2 * i) size v w ∧ w = { s with ctxs := w.ctxs } ∧ w.ctx? asid = some d ∧
      (∀ a, a ≠ asid → w.ctx? a = s.ctx? a) ∧ d = { c with peers := d.peers } ∧
      ∀ k, look 0 k d.peers = if i ≤ k ∧ k < i + size / 2 then
        BitVec.ofNat 16 (v.toNat / 2 ^ (16 * (k - i)) % 2 ^ 12 + 2 ^ 15 * (v.toNat / 2 ^ (16 * (k - i) + 15) % 2)) else look 0 k c.peers := by
  have hg := (State.mgmt_group (s := s) hs (by omega) (by omega)).2 s.cmd (v.toNat % 2 ^ (8 * size))
  rw [show (0x400000 + 0x200 * asid + 2 * i - 0x400000) / 0x200 = asid by omega, State.openCtx_eq_some hc hl, Option.map_some,
    show (0x400000 + 0x200 * asid + 2 * i) % 0x200 / 2 = i by omega] at hg
  obtain ⟨hrest, hlook⟩ := Ctx.writePeers_eq c i (v.toNat % 2 ^ (8 * size)) (size / 2)
  have hasid (x : Ctx) : (x.writePeers i (v.toNat % 2 ^ (8 * size)) (size / 2)).asid = x.asid :=
    (congrArg Ctx.asid (Ctx.writePeers_eq x ..).1 :)
  refine ⟨_, c.writePeers i (v.toNat % 2 ^ (8 * size)) (size / 2), exec_mgmtWrite_of_some hh hqp hg, rfl, ?_, ?_, hrest, fun k => ?_⟩
  · exact (s.ctx?_modCtx_self asid _ hasid).trans (congrArg (Option.map _) hc)
  · exact fun a => s.ctx?_modCtx_ne _ hasid
  · rw [hlook]
    split
    next hk => exact peerHalf_eq _ _ _ (by obtain ⟨h, -⟩ := hs; omega)
    next => rfl

end WindowClauses

/-! The module's registers -/

theorem State.reads_module {off size x : Nat} (hoff : 0x200000 < off ∧ off < 0x200100 ∧ Sized off size)
    (hx : s.moduleReg off = some (size, x)) : s.Reads off size x :=
  exec_mgmtRead_of_some hh hqp (State.mgmt_module hoff.2.2 hoff.1 hoff.2.1 hx).1

theorem State.sets_module {off size x : Nat} (hoff : 0x200000 < off ∧ off < 0x200100 ∧ Sized off size)
    (hx : s.moduleReg off = some (size, x)) (v : BitVec 64) : s.Sets off size v (s.setModuleReg off (v.toNat % 2 ^ (8 * size))) :=
  exec_mgmtWrite_of_some hh hqp ((State.mgmt_module hoff.2.2 hoff.1 hoff.2.1 hx).2 ..)

/-- Core 0 answers for the matrix engine's registers, which every core keeps alike (R247). -/
theorem State.reads_coreRegs {c : CoreSt} (hc : s.core? 0 = some c) :
    s.Reads 0x200040 4 c.mgcapNext ∧ s.Reads 0x200044 4 c.mgstepNext ∧ s.Reads 0x200048 4 (if c.mxctl then 1 else 0) := by
  have hread {off x : Nat} (f : CoreSt → Nat) (hoff : 0x200000 < off ∧ off < 0x200100 ∧ Sized off 4)
      (hr : s.moduleReg off = some (4, ((s.core? 0).map f).getD 0)) (hx : f c = x) : s.Reads off 4 x := by
    rw [hc, Option.map_some, Option.getD_some, hx] at hr
    exact State.reads_module hh hqp hoff hr
  exact ⟨hread (·.mgcapNext) ⟨by decide, by decide, by decide, by decide⟩ rfl rfl,
    hread (·.mgstepNext) ⟨by decide, by decide, by decide, by decide⟩ rfl rfl,
    hread (fun c => bitN c.mxctl) ⟨by decide, by decide, by decide, by decide⟩ rfl rfl⟩

theorem State.reads_moduleMap : s.Reads 0x200000 8 0 ∧ s.Reads 0x200008 8 s.dev.invBase ∧ s.Reads 0x200010 8 s.dev.invLen ∧
    s.Reads 0x200080 8 s.dev.saveBase ∧ s.Reads 0x200088 8 s.dev.saveLen ∧ s.Reads 0x200090 4 s.dev.pcap ∧
    s.Reads 0x2000C0 4 s.dev.turn ∧ s.Reads 0x2000C4 4 s.dev.snapctl.toNat ∧ s.Reads 0x2000C8 4 s.dev.peerwait := by
  have hread {off size x : Nat} (hoff : 0x200000 < off ∧ off < 0x200100 ∧ Sized off size) (hx : s.moduleReg off = some (size, x)) :
      s.Reads off size x := State.reads_module hh hqp hoff hx
  exact ⟨exec_mgmtRead_of_some hh hqp (State.mgmt_inval ⟨by decide, by decide⟩ rfl rfl).1,
    hread ⟨by decide, by decide, by decide, by decide⟩ rfl, hread ⟨by decide, by decide, by decide, by decide⟩ rfl,
    hread ⟨by decide, by decide, by decide, by decide⟩ rfl, hread ⟨by decide, by decide, by decide, by decide⟩ rfl,
    hread ⟨by decide, by decide, by decide, by decide⟩ rfl, hread ⟨by decide, by decide, by decide, by decide⟩ rfl,
    hread ⟨by decide, by decide, by decide, by decide⟩ rfl, hread ⟨by decide, by decide, by decide, by decide⟩ rfl⟩

theorem State.sets_moduleMap (v : BitVec 64) :
    let dev (d : Device) : State := { s with dev := d }
    let cores (f : CoreSt → CoreSt) : State := { s with cores := s.cores.map f }
    s.Sets 0x200008 8 v (dev { s.dev with invBase := v.toNat }) ∧ s.Sets 0x200010 8 v (dev { s.dev with invLen := v.toNat }) ∧
    s.Sets 0x200040 4 v (cores fun c => { c with mgcapNext := max 8 (min 512 (v.toNat % 2 ^ 10)) }) ∧
    s.Sets 0x200044 4 v (cores fun c => { c with mgstepNext := max 8 (min 512 (v.toNat % 2 ^ 10)) }) ∧
    s.Sets 0x200048 4 v (cores fun c => { c with mxctl := v.getLsbD 0 }) ∧
    s.Sets 0x200080 8 v (dev { s.dev with saveBase := v.toNat }) ∧ s.Sets 0x200088 8 v (dev { s.dev with saveLen := v.toNat }) ∧
    s.Sets 0x200090 4 v (dev { s.dev with pcap := min 3600 (v.toNat % 2 ^ 12) }) ∧
    s.Sets 0x2000C0 4 v (dev { s.dev with turn := max 10000 (v.toNat % 2 ^ 32) }) ∧
    s.Sets 0x2000C4 4 v (dev { s.dev with snapctl := BitVec.ofNat 3 v.toNat }) ∧
    s.Sets 0x2000C8 4 v (dev { s.dev with peerwait := max 1 (v.toNat % 2 ^ 20) }) := by
  have hset {off size x : Nat} {w : State} (hoff : 0x200000 < off ∧ off < 0x200100 ∧ Sized off size)
      (hx : s.moduleReg off = some (size, x)) (hw : s.setModuleReg off (v.toNat % 2 ^ (8 * size)) = w) : s.Sets off size v w :=
    hw ▸ State.sets_module hh hqp hoff hx v
  have hsnap : BitVec.ofNat 3 (v.toNat % 2 ^ (8 * 4)) = BitVec.ofNat 3 v.toNat := by
    apply BitVec.eq_of_toNat_eq
    simp only [BitVec.toNat_ofNat]
    omega
  refine ⟨hset ⟨by decide, by decide, by decide, by decide⟩ rfl ?_, hset ⟨by decide, by decide, by decide, by decide⟩ rfl ?_,
    hset ⟨by decide, by decide, by decide, by decide⟩ rfl ?_, hset ⟨by decide, by decide, by decide, by decide⟩ rfl ?_,
    hset ⟨by decide, by decide, by decide, by decide⟩ rfl ?_, hset ⟨by decide, by decide, by decide, by decide⟩ rfl ?_,
    hset ⟨by decide, by decide, by decide, by decide⟩ rfl ?_, hset ⟨by decide, by decide, by decide, by decide⟩ rfl ?_,
    hset ⟨by decide, by decide, by decide, by decide⟩ rfl ?_, hset ⟨by decide, by decide, by decide, by decide⟩ rfl ?_,
    hset ⟨by decide, by decide, by decide, by decide⟩ rfl ?_⟩
  · rw [low_all]; rfl
  · rw [low_all]; rfl
  · rw [← low_field_zero v (w := 10) (by decide)]; rfl
  · rw [← low_field_zero v (w := 10) (by decide)]; rfl
  · rw [← low_bit v (by decide)]; rfl
  · rw [low_all]; rfl
  · rw [low_all]; rfl
  · rw [← low_field_zero v (w := 12) (by decide)]; rfl
  · rfl
  · rw [← hsnap]; rfl
  · rw [← low_field_zero v (w := 20) (by decide)]; rfl

theorem State.module_unserved {off size : Nat} (h0 : 0x200000 ≤ off) (h1 : off < 0x200100)
    (h : (off, size) ∉ (0x200000, 8) :: moduleRegs) : s.Unread off size ∧ s.Unset off size :=
  State.refused_of_unserved hh hqp (State.unserved_moduleAt h0 h1 h)

/-! The snapshot region and INVAL -/

theorem State.snapshot_answers {off : Nat} (size : Nat) (h0 : 0x300000 ≤ off) (h1 : off < 0x400000) :
    (off % 4 = 0 → s.Reads off 4 (s.snapWord off)) ∧ (size ≠ 4 → s.Unread off size) ∧ s.Unset off size := by
  refine ⟨fun h4 => exec_mgmtRead_of_some hh hqp (State.mgmt_snapshot ⟨by decide, h4⟩ h0 h1).1, fun h => ?_, fun v => ?_⟩
  · have hno : s.Unserved off size := State.unserved_of_sized fun hs => by
      rw [State.Unserved, (State.mgmt_snapshot hs h0 h1).1, if_neg h]
      exact ⟨rfl, (State.mgmt_snapshot hs h0 h1).2⟩
    exact (State.refused_of_unserved hh hqp hno).1
  · by_cases hs : Sized off size
    · exact exec_mgmtWrite_of_none hh hqp ((State.mgmt_snapshot hs h0 h1).2 ..)
    · exact (State.refused_of_unserved hh hqp (State.unserved_of_sized fun h => absurd h hs)).2 v

theorem State.inval_answers (ctl : BitVec 64) :
    let mode := ctl.toNat / 2 ^ 12 % 4
    let asid := ctl.toNat % 2 ^ 11
    exec (.mgmtWrite 0x200000 8 ctl) s = exec (.inval ctl) s ∧
    (s.InvalRefused ctl → exec (.inval ctl) s = .next (s.answer s.cmd .refused)) ∧
    (¬ s.InvalRefused ctl → exec (.inval ctl) s = .next (({ s with
      invals := s.invals ++ [⟨s.fresh, mode, asid, s.dev.invBase, s.dev.invLen, s.cmd.seq, s.oldAccesses mode asid⟩]
      fresh := s.fresh + 1 } : State).dropTlbs mode asid s.dev.invBase s.dev.invLen)) := by
  refine ⟨?_, fun h => ?_, fun h => ?_⟩
  · have hset := (State.mgmt_inval (s := s) ⟨by decide, by decide⟩ rfl rfl).2 s.cmd (ctl.toNat % 2 ^ (8 * 8))
    rw [exec_mgmtWrite_of_some hh hqp hset, exec_inval hh hqp, low_all]
  · rw [exec_inval hh hqp, State.startInval_of_refused h]
  · rw [exec_inval hh hqp, State.startInval_of_accepted h]

end Management

/-- On another queue pair every management command is refused (R340). -/
theorem exec_of_other {s : State} (hh : s.dev.halted = false) (hqp : s.cmd.qp ≠ 1) (off size : Nat) (v ctl : BitVec 64)
    (nonce : BitVec 256) (q : Fin 64) (target : Word) :
    let refused (i : Instr) : Prop := exec i s = .next (s.answer s.cmd .refused)
    refused (.mgmtRead off size) ∧ refused (.mgmtWrite off size v) ∧ refused (.inval ctl) ∧ refused .snaptrig ∧ refused .snaparm ∧
      refused (.attest nonce) ∧ refused (.kick q target) :=
  ⟨(State.command_of_other hh hqp _ : execMgmtRead off size s = _),
    (State.command_of_other hh hqp _ : execMgmtWrite off size v s = _),
    (State.command_of_other hh hqp _ : execInval ctl s = _),
    (State.command_of_other hh hqp _ : execSnaptrig s = _),
    (State.command_of_other hh hqp _ : execSnaparm s = _),
    (State.command_of_other hh hqp _ : execAttest nonce s = _),
    (State.command_of_other hh hqp _ : execKick q target s = _)⟩

theorem exec_hostRdmaWrite {s : State} (hh : s.dev.halted = false) (pa : Nat) (bs : List Byte) :
    (s.RdmaOpen pa bs.length → exec (.hostRdmaWrite pa bs) s = .next (s.writeHome pa bs)) ∧
    (¬ s.RdmaOpen pa bs.length → exec (.hostRdmaWrite pa bs) s = .next s) := by
  rw [← s.rdmaOpen_iff hh]
  exact ⟨fun h => congrArg _ (if_pos h), fun h => congrArg _ (if_neg h)⟩

theorem exec_hostRdmaRead {s : State} (hh : s.dev.halted = false) (pa n : Nat) :
    (s.RdmaOpen pa n → exec (.hostRdmaRead pa n) s =
      .next { s with outbox := s.outbox ++ [.rdma ((List.range n).map fun i => look 0 (pa + i) s.mem)] }) ∧
    (¬ s.RdmaOpen pa n → exec (.hostRdmaRead pa n) s = .next s) := by
  rw [← s.rdmaOpen_iff hh, ← readBytes_eq_map]
  exact ⟨fun h => congrArg _ (if_pos h), fun h => congrArg _ (if_neg h)⟩

/-- Settles O54: each command by the lemma of its part of the space. -/
theorem hostCommands : Obligations.HostCommands := by
  unfold Obligations.HostCommands
  intro s c hc hh
  subst hc
  refine ⟨fun pa bs => ⟨fun ho => ⟨_, (exec_hostRdmaWrite hh pa bs).1 ho, State.writeHome_eq s pa bs⟩, (exec_hostRdmaWrite hh pa bs).2⟩,
    fun pa n => exec_hostRdmaRead hh pa n, fun hqp off size v ctl nonce q target => exec_of_other hh hqp off size v ctl nonce q target,
    fun id i hi => exec_invalComplete hi, fun hqp => ?_, fun mode asid base len => ⟨_, rfl, rfl, rfl, rfl⟩⟩
  refine ⟨fun off size v => ⟨fun x => exec_mgmtRead_of_some hh hqp, exec_mgmtRead_of_none hh hqp, fun w => exec_mgmtWrite_of_some hh hqp,
      exec_mgmtWrite_of_none hh hqp⟩, fun off size h => ?gaps, fun n q hq hn => ?queue, fun asid hc ha k size => ?noContext,
    fun asid c hc ha => ⟨fun hl k hk size => ?killed, fun hl => ?window⟩, fun c => State.reads_coreRegs hh hqp, State.reads_moduleMap hh hqp,
    State.sets_moduleMap hh hqp, fun off size => State.module_unserved hh hqp, fun off size => State.snapshot_answers hh hqp size,
    State.inval_answers hh hqp⟩
  case gaps =>
    refine State.refused_of_unserved hh hqp (State.unserved_of_sized fun hs => State.unserved_gap hs ?_)
    obtain ⟨hsize, hoff⟩ := hs
    omega
  case queue =>
    exact ⟨State.reads_queueMap hh hqp hq hn, State.sets_queueMap hh hqp hq hn, (State.queue_unserved hh hqp hq hn).1,
      fun k h0 hk h4 => State.queue_reserved hh hqp hq hn h0 hk h4, fun he v => State.sets_queueMap_of_enabled hh hqp hq hn v he,
      fun he v => State.sets_queueMap_of_disabled hh hqp hq hn v he, (State.queue_unserved hh hqp hq hn).2⟩
  case noContext =>
    have hno : s.openCtx asid = none := State.openCtx_eq_none (by simp [hc])
    exact ⟨fun hk => State.window_unserved hh hqp ha hk (.inl hno), fun hk => State.group_unserved hh hqp ha hk hno⟩
  case killed =>
    have hno : s.openCtx asid = none := State.openCtx_eq_none fun d hd => Option.some.inj (hc.symm.trans hd) ▸ hl
    obtain ⟨hread, hset⟩ := State.window_unserved hh hqp ha hk (size := size) (.inl hno)
    exact ⟨hread, hset, State.group_unserved hh hqp ha (by omega) hno⟩
  case window =>
    refine ⟨State.reads_windowMap hh hqp ha hc hl, State.sets_windowMap hh hqp ha hc hl,
      fun v => ⟨State.sets_window hh hqp ha hc hl (k := 0x24) (n := 0x182) (by decide) (by decide) rfl v,
        State.sets_window hh hqp ha hc hl (k := 0x28) (n := 0x109) (by decide) (by decide) rfl v⟩,
      ⟨State.unset_window hh hqp ha hc hl (by decide) (by decide) (by simp [windowCsr]),
        State.unset_window hh hqp ha hc hl (by decide) (by decide) (by simp [windowCsr])⟩,
      fun k size hk h4 => State.window_unserved hh hqp ha hk (.inr h4), fun k h0 hk h4 => State.window_reserved hh hqp ha hc hl h0 hk h4,
      fun i size hi hsize hoff => ⟨State.reads_group hh hqp ha hc hl hi ⟨hsize, hoff⟩, State.sets_group hh hqp ha hc hl hi ⟨hsize, hoff⟩⟩⟩

end Sys2Proof.Machine

/-! # The scheduler (O49)

Placement leaves a band's fields and threads, then drops the lines of its held ranges from the L1s of its cores: of that only this is
needed, that an invalidation drops a line and brings no line in. A turn boundary is a filter, a sort and a case distinction; the
pre-emptions it decides on are the first of the sorted bands. -/

namespace Sys2Proof.Machine

/-! ### Folds and lists -/

/-- A fact that every step of a fold keeps. -/
theorem foldl_keeps {α β : Type} {P : β → Prop} {f : β → α → β} (hkeep : ∀ s a, P s → P (f s a)) (l : List α) {s : β} (h : P s) :
    P (l.foldl f s) := by
  induction l generalizing s with
  | nil => exact h
  | cons a l ih => exact ih (hkeep s a h)

/-- A fact that every step of a fold keeps and that the step of a member brings about. -/
theorem foldl_of_mem {α β : Type} {P : β → Prop} {f : β → α → β} (hkeep : ∀ s a, P s → P (f s a)) {l : List α} {a : α}
    (ha : a ∈ l) (hset : ∀ s, P (f s a)) (s : β) : P (l.foldl f s) := by
  induction l generalizing s with
  | nil => exact absurd ha List.not_mem_nil
  | cons x l ih =>
    rw [List.foldl_cons]
    rcases List.mem_cons.mp ha with rfl | h
    · exact foldl_keeps hkeep l (hset s)
    · exact ih h _

theorem mem_insertBefore {α : Type} (f : α → Nat) (x y : α) (l : List α) : y ∈ sortBy.insertBefore f l x ↔ y = x ∨ y ∈ l := by
  induction l with
  | nil => simp [sortBy.insertBefore]
  | cons z l ih =>
    unfold sortBy.insertBefore
    split
    · simp
    · simp only [List.mem_cons, ih]
      tauto

theorem mem_sortBy {α : Type} (f : α → Nat) (y : α) (l : List α) : y ∈ sortBy f l ↔ y ∈ l := by
  have h : ∀ (k acc : List α), y ∈ k.foldl (fun acc x => sortBy.insertBefore f acc x) acc ↔ y ∈ k ∨ y ∈ acc := by
    intro k
    induction k with
    | nil => simp
    | cons x k ih =>
      intro acc
      rw [List.foldl_cons, ih, mem_insertBefore, List.mem_cons]
      tauto
  rw [sortBy, h, List.mem_reverse]
  simp only [List.not_mem_nil, or_false]

theorem eraseDups_eq_singleton {α : Type} [BEq α] [LawfulBEq α] {l : List α} {a : α} (hne : l ≠ []) (h : ∀ x ∈ l, x = a) :
    l.eraseDups = [a] := by
  cases l with
  | nil => exact absurd rfl hne
  | cons x r =>
    have hx : x = a := h x List.mem_cons_self
    have hr : r.filter (fun y => !y == x) = [] := by
      simp only [List.filter_eq_nil_iff]
      intro y hy
      simp [h y (List.mem_cons_of_mem _ hy), hx]
    rw [List.eraseDups_cons, hr, hx, List.eraseDups_nil]

/-! ### Lines in the L1s (R262, R354) -/

section Lines

variable (s : State)

theorem State.cores_mergeHome (h : HomeId) (line : Nat) (data : BitVec 1024) (mask : BitVec 128) (p : Bool) :
    (s.mergeHome h line data mask p).cores = s.cores := by
  have hfold : ∀ w : State, w.cores = s.cores → ((lineBytes data mask).foldl
      (fun w e => w.setHomeBytes h (lineBase line + e.1) [e.2]) w).cores = s.cores := fun w =>
    foldl_keeps (P := fun w : State => w.cores = s.cores) (fun w e hw => by unfold State.setHomeBytes; split <;> exact hw) _
  unfold State.mergeHome
  dsimp only
  split
  · exact hfold _ rfl
  · exact hfold _ rfl

theorem State.cores_writeDownL2 (die line : Nat) : (s.writeDownL2 die line).cores = s.cores := by
  unfold State.writeDownL2
  split
  · rfl
  · split
    · rfl
    · rw [State.modDie_cores, s.cores_mergeHome]

theorem State.cores_invalL2 (die line : Nat) : (s.invalL2 die line).cores = s.cores :=
  s.cores_writeDownL2 die line

theorem State.cores_roomL2 (die : Nat) : (s.roomL2 die).cores = s.cores := by
  unfold State.roomL2
  split
  · rfl
  · split
    · rfl
    · split
      · rfl
      · exact s.cores_writeDownL2 die _

theorem State.cores_fillL2 (die asid line : Nat) (h : HomeId) : (s.fillL2 die asid line h).cores = s.cores := by
  unfold State.fillL2
  extract_lets s1 l
  have h1 : s1.cores = s.cores := by
    unfold s1
    split
    · split
      · rfl
      · exact s.cores_invalL2 die line
    · rfl
  split
  · exact h1
  · rw [State.modDie_cores, State.cores_roomL2, h1]

theorem State.cores_mergeL2 (die asid line : Nat) (h : HomeId) (data : BitVec 1024) (mask : BitVec 128) (p : Bool) :
    (s.mergeL2 die asid line h data mask p).cores = s.cores := by
  unfold State.mergeL2
  split
  · exact s.cores_mergeHome ..
  · rw [State.modDie_cores, State.cores_fillL2]

/-- A change of a core that leaves its lines' numbers brings no line in. -/
theorem State.l1Line?_modCore_of_lines {d : Nat} {f : CoreSt → CoreSt} (hid : ∀ x, (f x).id = x.id)
    (hl : ∀ x, ∀ l ∈ (f x).l1, ∃ k ∈ x.l1, k.line = l.line) {c line : Nat} (h : s.l1Line? c line = none) :
    (s.modCore d f).l1Line? c line = none := by
  rw [State.l1Line?_modCore s d c line f hid]
  split
  next =>
    unfold State.l1Line? at h
    cases hc : s.core? c with
    | none => rfl
    | some x =>
      simp only [hc, Option.bind_some, List.find?_eq_none, beq_iff_eq] at h ⊢
      intro l hlm hline
      obtain ⟨k, hk, he⟩ := hl x l hlm
      exact h k hk (he.trans hline)
  next => exact h

theorem CoreSt.l1_count (c : CoreSt) (asid : Nat) (f : CoreCounts → CoreCounts) :
    (c.count asid f).id = c.id ∧ (c.count asid f).l1 = c.l1 := by
  unfold CoreSt.count
  split <;> exact ⟨rfl, rfl⟩

/-- An invalidation brings no line in. -/
theorem State.l1Line?_invalL1_of_none {c line : Nat} (d k : Nat) (h : s.l1Line? c line = none) :
    (s.invalL1 d k).l1Line? c line = none := by
  have hdown : (s.writeDownL1 d k).l1Line? c line = none := by
    unfold State.writeDownL1
    split
    · exact h
    · next l _ =>
      split
      · exact h
      · refine State.l1Line?_modCore_of_lines _ (by exact fun _ => rfl) (fun x y hy => ?_) ?_
        · obtain ⟨z, hz, rfl⟩ := List.mem_map.mp hy
          exact ⟨z, hz, by split <;> rfl⟩
        · refine State.l1Line?_modCore_of_lines _ (fun x => (x.l1_count _ _).1) (fun x y hy => ?_) ?_
          · rw [(x.l1_count _ _).2] at hy
            exact ⟨y, hy, rfl⟩
          · unfold State.l1Line? State.core?
            rw [s.cores_mergeL2]
            exact h
  exact State.l1Line?_modCore_of_lines _ (by exact fun _ => rfl) (fun x y hy => ⟨y, (List.mem_filter.mp hy).1, rfl⟩) hdown

theorem State.walkVa_of_eq {s u : State} (hm : u.mem = s.mem) (hc : u.ctxs = s.ctxs) (asid va : Nat) :
    u.walkVa asid va = s.walkVa asid va := by
  unfold State.walkVa State.ctx?
  rw [hc]
  split
  · rfl
  · split
    · rfl
    · exact State.walkFrom_mem s u hm ..

theorem State.rangeLines_of_eq {s u : State} (hm : u.mem = s.mem) (hc : u.ctxs = s.ctxs) (asid base len : Nat) :
    u.rangeLines asid base len = s.rangeLines asid base len := by
  simp only [State.rangeLines, State.walkVa_of_eq hm hc]

/-- The lines of a range that an L1 holds are among those that some cache holds. -/
theorem State.mem_cachedLines {asid base len c line : Nat} (hr : line ∈ s.rangeLines asid base len) (h : s.l1Line? c line ≠ none) :
    line ∈ s.cachedLines asid base len := by
  obtain ⟨l, hl⟩ := Option.ne_none_iff_exists'.mp h
  obtain ⟨k, hk, hf⟩ := Option.bind_eq_some_iff.mp hl
  have hline : l.line = line := by simpa using List.find?_some hf
  have hheld : line ∈ ((s.cores.map fun c => c.l1.map (·.line)).flatten ++ (s.dies.map fun d => d.l2.map (·.line)).flatten).eraseDups :=
    List.mem_eraseDups.mpr (List.mem_append_left _ (List.mem_flatten.mpr ⟨k.l1.map (·.line),
      List.mem_map.mpr ⟨k, List.mem_of_find?_eq_some hk, rfl⟩, List.mem_map.mpr ⟨l, List.mem_of_find?_eq_some hf, hline⟩⟩))
  unfold State.cachedLines
  dsimp only
  rw [if_neg (by rw [List.isEmpty_iff]; exact List.ne_nil_of_mem hheld)]
  exact List.mem_filter.mpr ⟨hheld, List.contains_iff_mem.mpr hr⟩

theorem State.freshLines_cacheOnly (b : Band) : CacheOnly s (s.freshLines b) :=
  CacheOnly.foldl _ _ _ fun _ _ => CacheOnly.foldl _ _ _ fun _ _ => CacheOnly.invalL1 ..

/-- After a placement the band's cores hold no line of its held ranges. -/
theorem State.l1Line?_freshLines {b : Band} {c line : Nat} {r : Region} (hc : c ∈ b.cores) (hr : r ∈ b.g) (hh : r.state = .held)
    (hs : r.space ≠ .bench) (hline : line ∈ s.rangeLines b.asid r.base r.len) : (s.freshLines b).l1Line? c line = none := by
  have hkeep : ∀ (w : State) (d : Nat) (ls : List Nat), w.l1Line? c line = none →
      (ls.foldl (fun w l => w.invalL1 d l) w).l1Line? c line = none := fun w d ls =>
    foldl_keeps (P := fun w : State => w.l1Line? c line = none) (fun w l hw => w.l1Line?_invalL1_of_none d l hw) ls
  unfold State.freshLines
  dsimp only
  by_cases h : s.l1Line? c line = none
  · exact foldl_keeps (P := fun w : State => w.l1Line? c line = none) (fun w d hw => hkeep w d _ hw) _ h
  · have hmem : line ∈ (((b.g ++ (b.troops.map (·.g)).flatten).filter fun r => r.state = .held && r.space != .bench).map fun r =>
        s.cachedLines b.asid r.base r.len).flatten :=
      List.mem_flatten.mpr ⟨_, List.mem_map.mpr ⟨r, List.mem_filter.mpr ⟨List.mem_append_left _ hr, by simp [hh, hs]⟩, rfl⟩,
        s.mem_cachedLines hline h⟩
    exact foldl_of_mem (P := fun w : State => w.l1Line? c line = none) (fun w d hw => hkeep w d _ hw) hc
      (fun w => foldl_of_mem (P := fun w : State => w.l1Line? c line = none) (fun w l hw => w.l1Line?_invalL1_of_none c l hw) hmem
        (fun w => w.l1Line?_inval c line) w) s

end Lines

/-! ### Placement (R57, R59, R61, R62, R68) -/

/-- First writes touch a troop's names alone. -/
theorem Troop.writeName_names (x : Troop) (r : VReg) (l : Nat) (v : Word) :
    x.writeName r l v = { x with names := (x.writeName r l v).names } := rfl

theorem Band.preload_names (b : Band) (troop core : Nat) (x : Troop) :
    b.preload troop core x = { x with names := (b.preload troop core x).names } := by
  have hinner : ∀ (lane : Nat) (vs : List (Nat × Word)) (y : Troop), y = { x with names := y.names } →
      let z := vs.foldl (fun x p => x.writeName (Fin.ofNat 64 p.1) lane p.2) y
      z = { x with names := z.names } := fun lane vs y =>
    foldl_keeps (P := fun z : Troop => z = { x with names := z.names })
      (fun z p hz => by rw [z.writeName_names, hz]) vs
  exact foldl_keeps (P := fun z : Troop => z = { x with names := z.names }) (fun z lane hz => hinner lane _ z hz) _ rfl

theorem Band.newTroop_fresh (b : Band) (troop core tslot clock : Nat) :
    let y := b.newTroop troop core tslot clock
    y.threads.length = 64 ∧ y.sig = BitVec.allOnes 64 ∧ y.active = none ∧ y.retired = false ∧
      ∀ th ∈ y.threads, th.pc = ⟨b.fp.entry, 0⟩ ∧ th.status = .ready clock false := by
  unfold Band.newTroop
  dsimp only
  rw [b.preload_names]
  refine ⟨List.length_replicate, rfl, rfl, rfl, fun th hth => ?_⟩
  rw [List.eq_of_mem_replicate hth]
  exact ⟨rfl, rfl⟩

/-- A band replaced by one of its number. -/
theorem State.band?_replace {s : State} {b : Nat} {x y : Band} (h : s.band? b = some x) (hy : y.id = b) :
    (s.modBand b fun _ => y).band? b = some y := by
  have hsame : s.modBand b (fun _ => y) = s.modBand b fun z => { y with id := z.id } := by
    unfold State.modBand modIf
    congr 1
    refine List.map_congr_left fun z _ => ?_
    split
    · next hz =>
      have hid : y.id = z.id := hy.trans (beq_iff_eq.mp hz).symm
      change y = { y with id := z.id }
      rw [← hid]
    · rfl
  rw [hsame, State.band?_modBand_self s b _ (by exact fun _ => rfl), h, Option.map_some, s.band?_id b x h, ← hy]

/-- Granules and tiles that cores hand out change the cores alone. -/
theorem State.foldl_own (l : List (Nat × Nat)) (asid : Nat) (f g h : Nat × Nat → List Nat) (s : State) :
    let w := l.foldl (fun s e => s.modCore e.2 fun x => x.own asid (f e) (g e) (h e)) s
    w = { s with cores := w.cores } :=
  foldl_keeps (P := fun w : State => w = { s with cores := w.cores })
    (fun _ e hw => congrArg (fun u : State => u.modCore e.2 fun x => x.own asid (f e) (g e) (h e)) hw) l rfl

/-- A band that was never placed has no threads on a Gather Board. -/
theorem State.reboard_of_new (s : State) {old : Band} (h : old.troops = []) : s.reboard old = s := by
  unfold State.reboard
  rw [h]
  rfl

/-- A band after its first placement on cores (R57, R59, R62). -/
def Band.Fresh (b b1 : Band) (cores : List Nat) (clock : Nat) : Prop :=
  b1.state = .resident ∧ b1.cores = cores ∧ b1.ncores = cores.length ∧ b1.residentSince = clock ∧ b1.aging = 0 ∧
    b1.agingCounts = List.replicate 16 0 ∧ b1.troops.length = b.ntroops ∧
    (∀ y ∈ b1.troops, y.threads.length = 64 ∧ y.sig = BitVec.allOnes 64 ∧ y.active = none ∧ y.retired = false ∧
      ∀ th ∈ y.threads, th.pc = ⟨b.fp.entry, 0⟩ ∧ th.status = .ready clock false) ∧
    b1.g = modAt b.g 0 fun _ => if b.fp.bench = 0 then Region.none
      else { Region.none with state := .held, space := .bench, kind := .e, len := 1024 * b.fp.bench, top := true }

/-- What a placement of a band leaves, before progress traps are looked for: a fresh band at its first placement, and no line of
what it holds in its cores' L1s. -/
theorem State.placeBand_eq {s : State} {id : Nat} {b : Band} (hb : s.band? id = some b) (cores : List Nat) :
    ∃ (w : State) (b1 : Band), s.placeBand id cores = cores.foldl (fun v c => (v.progressTraps c).admitOverflow c) w ∧
      (b.troops = [] → b.saved = none → w.band? id = some b1 ∧ b.Fresh b1 cores s.clock ∧
        ∀ c ∈ cores, ∀ r ∈ b1.g, r.state = .held → r.space ≠ .bench → ∀ line ∈ s.rangeLines b.asid r.base r.len,
          w.l1Line? c line = none) := by
  unfold State.placeBand
  split
  next hno => exact absurd (hno.symm.trans hb) (Option.some_ne_none b).symm
  next x hx =>
    obtain rfl := Option.some.inj (hb.symm.trans hx)
    extract_lets c ks bm am tm tslot s1 b1 u s2 s3 gap s4 s5
    refine ⟨s5, b1, rfl, fun htroops hsaved => ?_⟩
    have hempty : b.troops.isEmpty = true := by rw [htroops]; rfl
    have hnew : b1.troops = (List.range b.ntroops).map fun i => b.newTroop i (cores[i % c]?.getD 0) (tslot i) s.clock := if_pos hempty
    have hg : b1.g = modAt b.g 0 fun _ => b.benchReg := if_pos hempty
    have h3 : s3 = s2 := by
      unfold s3
      rw [hsaved]
    have h5 : s5 = s4.freshLines b1 := State.reboard_of_new _ htroops
    have hcache : s5 = s4.cached s5 := by
      rw [h5]
      exact (s4.freshLines_cacheOnly b1).rest
    have hs1 : s1 = { s with cores := s1.cores } := s.foldl_own ks b.asid _ _ _
    have hmem4 : s4.mem = s.mem := by
      change s3.mem = s.mem
      rw [h3]
      exact (congrArg State.mem hs1 :)
    have hctx4 : s4.ctxs = s.ctxs := by
      change s3.ctxs = s.ctxs
      rw [h3]
      exact (congrArg State.ctxs hs1 :)
    refine ⟨?_, ⟨rfl, rfl, rfl, rfl, rfl, rfl, ?_, fun y hy => ?_, hg⟩, fun core hcore r hr hh hs line hline => ?_⟩
    · have hbands : s5.bands = u.bands := by
        rw [congrArg State.bands hcache]
        change s3.bands = u.bands
        rw [h3]
      have hb1 : s1.band? id = some b := by
        rw [State.band?, congrArg State.bands hs1]
        exact hb
      rw [State.band?, hbands]
      exact State.band?_replace hb1 (s.band?_id id b hb)
    · rw [hnew, List.length_map, List.length_range]
    · rw [hnew] at hy
      obtain ⟨i, -, rfl⟩ := List.mem_map.mp hy
      exact b.newTroop_fresh ..
    · rw [h5]
      refine State.l1Line?_freshLines s4 hcore hr hh hs ?_
      rw [State.rangeLines_of_eq hmem4 hctx4]
      exact hline

theorem State.unit_of_single {s : State} {b : Nat} (hp : s.partner b = none) : s.unit b = [b] := by
  rw [State.unit, hp]
  rfl

section Place

variable {s : State} {band : Nat} {cores : List Nat} {b : Band} (hb : s.band? band = some b) (hp : s.partner band = none)
  (hw : s.waits b = true) (hfit : s.fitsOn b cores = true) (hcores : s.coresFor b = some cores.length)
  (hfree : ∀ q ∈ s.quads, q.passing = true → ∀ c ∈ cores, quadOf c ≠ q.id)

include hb hp hw hfit hcores hfree

theorem exec_bandPlace : exec (.bandPlace band cores) s = match s.argsOf b with
    | .none => .next (s.askArgs b)
    | .asked _ => .next s
    | _ => .next (s.placeBand band cores) := by
  have hheld : (s.quads.any fun q => q.passing && cores.any fun c => quadOf c == q.id) = false := by
    simp only [List.any_eq_false, Bool.and_eq_true, List.any_eq_true, beq_iff_eq, not_and, not_exists]
    exact fun q hq hpass c hc => hfree q hq hpass c hc
  have hunit : s.placeUnit band cores = s.placeBand band cores := by
    unfold State.placeUnit
    rw [hp]
  change execBandPlace band cores s = _
  unfold execBandPlace
  simp only [hb, hp, Option.bind_none, hw, hfit, hcores, hheld, hunit, Bool.not_true, Bool.or_false, ne_eq, not_true_eq_false,
    decide_false, Bool.false_eq_true, if_false] <;> rfl

theorem exec_bandPlace_asks (ha : s.argsOf b = .none) : exec (.bandPlace band cores) s = .next (s.askArgs b) := by
  rw [exec_bandPlace hb hp hw hfit hcores hfree, ha]

theorem exec_bandPlace_places (ha : s.argsOf b ≠ .none) (hk : ∀ tag, s.argsOf b ≠ .asked tag) :
    exec (.bandPlace band cores) s = .next (s.placeBand band cores) := by
  rw [exec_bandPlace hb hp hw hfit hcores hfree]
  split
  next h => exact absurd h ha
  next tag h => exact absurd h (hk tag)
  next => rfl

end Place

/-! ### Save (R308) -/

theorem State.writeBackBand_cacheOnly (s : State) (b : Band) : CacheOnly s (s.writeBackBand b) :=
  (CacheOnly.foldl _ _ _ fun _ _ => CacheOnly.foldl _ _ _ fun _ _ => CacheOnly.writeDownL1 ..).trans
    (CacheOnly.foldl _ _ _ fun _ _ => CacheOnly.foldl _ _ _ fun _ _ => CacheOnly.invalL2 ..)

/-- What the save of a band leaves, before the cores that it left are given to others. -/
theorem State.saveBand_eq {s : State} {band : Nat} {b1 : Band} (hb : (s.landBand band).band? band = some b1) :
    ∃ (v : State) (w : Band), v.band? band = some w ∧
      s.saveBand band = b1.cores.foldl (fun v c => (v.progressTraps c).admitOverflow c) (v.leaveCores b1.asid b1.cores) ∧
      w.state = .saved ∧ w.saving = false ∧ w.cores = [] ∧ w.benchMap = [] ∧ w.accMap = [] ∧ w.tileMap = [] ∧ w.hasPoint = false ∧
      w.aging = 0 ∧ w.waitSince = v.clock ∧ w.g = b1.g ∧ w.saved.isSome = true ∧
      (∀ x ∈ v.sleepers, x.tid.band ≠ band) ∧ (∀ x ∈ v.slots, ∀ t e, x.owner ≠ some (band, t, e)) ∧
      ∀ h ∈ v.shadows, h.band.id ≠ band := by
  unfold State.saveBand
  extract_lets s1
  split
  next hno => exact absurd (hno.symm.trans hb) (Option.some_ne_none b1).symm
  next x hx =>
    obtain rfl := Option.some.inj (hb.symm.trans hx)
    extract_lets s2 u v s3 mig s4
    have h3 : s3.band? band = some b1 := by
      have hbands : s2.bands = s1.bands := (congrArg State.bands (s1.writeBackBand_cacheOnly b1).rest :)
      change s2.bands.find? _ = _
      rw [hbands]
      exact hb
    refine ⟨s4, _, (State.band?_modBand_self s3 band _ (by exact fun _ => rfl)).trans (congrArg (Option.map _) h3),
      rfl, rfl, rfl, rfl, rfl, rfl, rfl,
      rfl, rfl, rfl, rfl, rfl, fun x hx => ?_, fun x hx t e ho => ?_, fun h hh => ?_⟩
    · simpa using (List.mem_filter.mp hx).2
    · obtain ⟨y, -, rfl⟩ := List.mem_map.mp hx
      split at ho
      next o _ _ hy =>
        split at ho
        next => exact absurd ho (Option.some_ne_none _).symm
        next hne => exact hne (congrArg Prod.fst (Option.some.inj (hy.symm.trans ho)))
      next hy => exact absurd (hy.symm.trans ho) (Option.some_ne_none _).symm
    · simpa using (List.mem_filter.mp hh).2

theorem exec_bandSaveComplete {s : State} {band : Nat} {b : Band} (hb : s.band? band = some b) (hp : s.partner band = none)
    (hr : s.saveReady b = true) : exec (.bandSaveComplete band) s = .next (s.saveBand band) := by
  change execBandSaveComplete band s = _
  simp only [execBandSaveComplete, State.unit_of_single hp, List.all_cons, List.all_nil, hb, Option.map_some, Option.getD_some, hr,
    Bool.and_self, if_true, List.foldl_cons, List.foldl_nil]

/-! ### Turns (R54, R55, R58) -/

theorem State.not_quadSaving {s : State} {quad : Nat} {q : Quad} (hq : s.quads.find? (·.id == quad) = some q)
    (h : ∀ b ∈ s.bands, b.saving = true → b.id ∉ q.evicting ∧ ∀ c ∈ b.cores, quadOf c ≠ quad) : s.quadSaving quad = false := by
  unfold State.quadSaving
  rw [hq]
  simp only [Option.map_some, Option.getD_some, List.any_eq_false, Bool.and_eq_true, Bool.or_eq_true, List.contains_iff_mem,
    List.any_eq_true, beq_iff_eq, not_and, not_or, not_exists]
  exact fun b hb hs => h b hb hs

theorem exec_turnBoundary {s : State} {quad : Fin 16} {q : Quad} (hq : s.quads.find? (·.id == quad.val) = some q) :
    (q.passing = false → q.ends ≤ s.clock →
      exec (.turnBoundary quad) s = .next ((s.endTurn quad.val).decide quad.val (s.bands.length + 1))) ∧
    (q.passing = true → (∀ b ∈ s.bands, b.saving = true → b.id ∉ q.evicting ∧ ∀ c ∈ b.cores, quadOf c ≠ quad.val) →
      exec (.turnBoundary quad) s = .next (s.decide quad.val (s.bands.length + 1))) := by
  change (_ → _ → execTurnBoundary quad s = _) ∧ (_ → _ → execTurnBoundary quad s = _)
  simp only [execTurnBoundary, hq]
  refine ⟨fun hp he => ?_, fun hp hs => ?_⟩
  · rw [hp, if_neg Bool.false_ne_true, if_pos he]
  · rw [hp, if_pos rfl, State.not_quadSaving hq hs, if_neg Bool.false_ne_true]

/-- The end of a turn (R54, R55, R58): resident bands count it, and a waiting band that has seen eight boundaries of every quad that
could take it ages. -/
theorem State.endTurn_eq (s : State) (quad : Nat) :
    let on (b : Band) : Bool := b.cores.any fun c => quadOf c == quad
    let s1 : State := { s with bands := s.bands.map fun b => if b.state = .resident ∧ on b = true then { b with turns := satInc b.turns } else b }
    let counts (b : Band) : List Nat := modAt b.agingCounts quad (· + 1)
    let age (b : Band) : Band :=
      if s1.waits b = true ∧ couldTake b quad = true then
        (if (List.range 16).all fun q => !couldTake b q || 8 ≤ ((counts b)[q]?).getD 0 then
          { b with aging := min 3 (b.aging + 1), agingCounts := List.replicate 16 0 }
         else { b with agingCounts := counts b })
      else b
    s.endTurn quad = { s1 with
      bands := s1.bands.map age
      quads := modIf (·.id == quad) (fun q => { q with ends := s.clock + s.dev.turn, turn := s.dev.turn, passing := true }) s.quads } := by
  intro on s1 counts age
  have h1 : ({ s with bands := s.bands.map fun b =>
      if b.state = .resident && b.cores.any (fun c => quadOf c == quad) then { b with turns := satInc b.turns } else b } : State) = s1 := by
    simp only [Bool.and_eq_true, decide_eq_true_eq, s1, on]
  have hage : (s1.ageBands quad).bands = s1.bands.map age := by
    simp only [State.ageBands, Bool.and_eq_true, age, counts]
    rfl
  unfold State.endTurn
  rw [h1, State.modQuad, hage]
  rfl

/-- The decision for a band that pre-emption need not make room for, or that it places. -/
theorem State.planFor_of_room {s : State} {quad : Nat} {w : Band} {cs : List Nat} (hr : s.roomFor w quad = some cs) :
    (s.argsOf w ≠ .none → s.planFor quad w = some (.place w.id cs)) ∧ (s.argsOf w = .none → s.planFor quad w = some (.ask w)) := by
  unfold State.planFor
  rw [hr]
  dsimp only
  refine ⟨fun ha => ?_, fun ha => by rw [ha]⟩
  split
  next h => exact absurd h ha
  next => rfl

theorem State.planFor_of_noRoom {s : State} {quad : Nat} {w : Band} (hr : s.roomFor w quad = none) :
    (s.evictFor w quad = none → s.planFor quad w = none) ∧
    ∀ vs, s.evictFor w quad = some vs → s.argsOf w ≠ .none → s.planFor quad w = some (.evict vs) := by
  unfold State.planFor
  rw [hr]
  dsimp only
  refine ⟨fun he => by rw [he]; rfl, fun vs he ha => ?_⟩
  rw [he]
  dsimp only [Option.map_some]
  split
  next h => exact absurd h ha
  next => rfl

/-- The decisions for the first candidate (R54): its place, its arguments, or the pre-emptions that make room. -/
theorem State.decide_of_first {s : State} {quad n : Nat} {w : Band} {rest : List Band} (hc : s.candidates quad = w :: rest) :
    (∀ cs, s.planFor quad w = some (.place w.id cs) → s.decide quad (n + 1) = (s.placeUnit w.id cs).decide quad n) ∧
    (s.planFor quad w = some (.ask w) → s.decide quad (n + 1) = (s.askArgs w).decide quad n) ∧
    ∀ vs, s.planFor quad w = some (.evict vs) → s.decide quad (n + 1) =
      (vs.foldl (fun s v => s.preempt v) s).modQuad quad fun q => { q with evicting := (vs.map s.unit).flatten } := by
  have hfirst : ∀ p, s.planFor quad w = some p → (s.candidates quad).findSome? (s.planFor quad) = some p := fun p hp => by
    rw [hc, List.findSome?_cons, hp]
  exact ⟨fun cs hp => by rw [State.decide, hfirst _ hp], fun hp => by rw [State.decide, hfirst _ hp],
    fun vs hp => by rw [State.decide, hfirst _ hp]⟩

theorem State.decide_of_none {s : State} {quad : Nat} (n : Nat)
    (h : ∀ w ∈ s.candidates quad, s.roomFor w quad = none ∧ s.evictFor w quad = none) :
    s.decide quad (n + 1) = s.modQuad quad fun q => { q with passing := false, evicting := [] } := by
  have hno : (s.candidates quad).findSome? (s.planFor quad) = none :=
    List.findSome?_eq_none_iff.mpr fun w hw => (State.planFor_of_noRoom (h w hw).1).1 (h w hw).2
  rw [State.decide, hno]

theorem State.evictFor_of_single {s : State} {w : Band} (hp : s.partner w.id = none) (quad : Nat) :
    s.evictFor w quad = s.evictions w quad (s.victims w quad) := by
  unfold State.evictFor
  rw [hp]
  cases s.evictions w quad (s.victims w quad) <;> rfl

theorem State.mem_victims {s : State} {w v : Band} {quad : Nat} (h : v ∈ s.victims w quad) :
    v ∈ s.bands ∧ v.state = .resident ∧ (∃ c ∈ v.cores, quadOf c = quad) ∧
      (look 0 v.id s.effPrios < look 0 w.id s.effPrios ∨ look 0 v.id s.effPrios = look 0 w.id s.effPrios ∧
        ∀ q, s.quads.find? (·.id == quad) = some q → q.turn ≤ s.clock - v.residentSince) := by
  simp only [State.victims, mem_sortBy, List.mem_filter, Bool.and_eq_true, Bool.or_eq_true, beq_iff_eq, decide_eq_true_eq,
    List.any_eq_true] at h
  obtain ⟨hv, ⟨hres, hon⟩, hless | ⟨heq, hturn⟩⟩ := h
  · exact ⟨hv, hres, hon, .inl hless⟩
  · refine ⟨hv, hres, hon, .inr ⟨heq, fun q hq => ?_⟩⟩
    rwa [hq] at hturn

/-- The pre-emptions that a band needs are the first of those that may go, up to the one that makes room. -/
theorem State.evictions_prefix {w : Band} {quad : Nat} {vs : List Band} : ∀ {s : State} {es : List Nat}, s.evictions w quad vs = some es →
    es <+: vs.map (·.id) ∧ es ≠ [] ∧ ((es.foldl (fun s v => s.without v) s).roomFor w quad).isSome = true := by
  induction vs with
  | nil => exact fun h => absurd h (Option.some_ne_none _).symm
  | cons v r ih =>
    intro s es h
    rw [State.evictions] at h
    split at h
    next hroom =>
      obtain rfl := Option.some.inj h
      exact ⟨⟨r.map (·.id), rfl⟩, List.cons_ne_nil _ _, hroom⟩
    next =>
      obtain ⟨fs, hfs, rfl⟩ := Option.map_eq_some_iff.mp h
      obtain ⟨hpre, -, hroom⟩ := ih hfs
      exact ⟨List.prefix_cons_iff.mpr (.inr ⟨fs, rfl, hpre⟩), List.cons_ne_nil _ _, hroom⟩

/-! ### Pre-emption (R66, R308) -/

theorem State.band?_preempt {s : State} {b : Nat} {x : Band} (hb : s.band? b = some x) (hp : s.partner b = none) :
    ((s.preempt b).band? b).map (·.saving) = some true := by
  unfold State.preempt
  rw [State.unit_of_single hp, List.foldl_cons, List.foldl_nil]
  extract_lets s1
  have h1 : (s1.band? b).isSome = true := by
    refine foldl_keeps (P := fun w : State => (w.band? b).isSome = true) (fun w t hw => ?_) _ (by rw [hb]; rfl)
    split
    · rw [State.makeReady, State.modThread, State.modTroop, State.band?_modBand _ _ _ _ (by exact fun _ => rfl), Option.isSome_map]
      exact hw
    · exact hw
  obtain ⟨y, hy⟩ := Option.isSome_iff_exists.mp h1
  rw [State.band?_modBand_self s1 b _ (by exact fun _ => rfl), hy]
  rfl

/-- The threads of a core's troops that wait for a register, with their troops' order (R66). -/
def State.starved (s : State) (core : Nat) : List Tid :=
  ((s.coreTroops core).map fun e => (s.troopTids e.1 e.2).filter fun t =>
    match s.statusOf t with | .waiting (.alloc _) => true | _ => false).flatten

section Stalled

variable {s : State} {core : Nat}
  (hst : ∀ e ∈ s.coreTroops core, s.troopStalled e.1 e.2 = true ∧ ∃ x, s.band? e.1 = some x ∧ x.saving = false)

include hst

/-- Where every troop is stalled and no band is being saved, the pre-emption goes on. -/
theorem State.stalled_goesOn (hne : s.coreTroops core ≠ []) : ((s.coreTroops core).isEmpty ||
    !((s.coreTroops core).all fun e => s.troopStalled e.1 e.2) ||
    (((s.coreTroops core).map (·.1)).eraseDups).any fun b => ((s.band? b).map (·.saving)).getD true) = false := by
  have hall : ((s.coreTroops core).all fun e => s.troopStalled e.1 e.2) = true := List.all_eq_true.mpr fun e he => (hst e he).1
  have hany : ((((s.coreTroops core).map (·.1)).eraseDups).any fun b => ((s.band? b).map (·.saving)).getD true) = false := by
    refine List.any_eq_false.mpr fun b hb => ?_
    obtain ⟨e, he, rfl⟩ := List.mem_map.mp (List.mem_eraseDups.mp hb)
    obtain ⟨-, x, hx, hs⟩ := hst e he
    simp [hx, hs]
  rw [hall, hany, List.isEmpty_eq_false_iff.mpr hne]
  rfl

/-- Of several bands the one placed last is pre-empted. -/
theorem exec_regsPoolPreempt_of_many {e f : Nat × Nat} (he : e ∈ s.coreTroops core) (hf : f ∈ s.coreTroops core) (hne : e.1 ≠ f.1) :
    ∃ b x, s.band? b = some x ∧ (∃ t, (b, t) ∈ s.coreTroops core) ∧ exec (.regsPoolPreempt core) s = .next (s.preempt b) ∧
      ∀ g ∈ s.coreTroops core, ∀ y, s.band? g.1 = some y → s.clock - x.residentSince ≤ s.clock - y.residentSince := by
  have hmem : ∀ b, b ∈ ((s.coreTroops core).map (·.1)).eraseDups.reverse ↔ ∃ t, (b, t) ∈ s.coreTroops core := fun b => by
    simp [List.mem_reverse, List.mem_eraseDups]
  have hgo := State.stalled_goesOn hst (List.ne_nil_of_mem he)
  have hleast : leastBy (fun b => s.clock - ((s.band? b).map (·.residentSince)).getD 0)
      ((s.coreTroops core).map (·.1)).eraseDups.reverse ≠ none := fun h =>
    List.ne_nil_of_mem ((hmem e.1).mpr ⟨e.2, he⟩) ((leastBy_eq_none_iff _ _).mp h)
  obtain ⟨b, hb⟩ := Option.ne_none_iff_exists'.mp hleast
  obtain ⟨hin, hle⟩ := leastBy_mem_and_le _ hb
  obtain ⟨t, ht⟩ := (hmem b).mp hin
  obtain ⟨-, x, hx, -⟩ := hst _ ht
  refine ⟨b, x, hx, ⟨t, ht⟩, ?_, fun g hg y hy => ?_⟩
  · change execRegsPoolPreempt core s = _
    unfold execRegsPoolPreempt
    extract_lets ts bs us pcs
    rw [if_neg (Bool.eq_false_iff.mp hgo)]
    have hbs : ∀ g ∈ s.coreTroops core, g.1 ∈ bs := fun g hg => List.mem_reverse.mp ((hmem g.1).mpr ⟨g.2, hg⟩)
    have hpick : leastBy (fun b => s.clock - ((s.band? b).map (·.residentSince)).getD 0) bs.reverse = some b := hb
    clear_value bs
    match bs, hbs, hpick with
    | [a], hbs, _ => exact absurd ((List.mem_singleton.mp (hbs e he)).trans (List.mem_singleton.mp (hbs f hf)).symm) hne
    | [], hbs, _ => exact absurd (hbs e he) List.not_mem_nil
    | a :: a' :: r, _, hpick =>
      dsimp only
      rw [hpick]
  · have hmin := hle g.1 ((hmem g.1).mpr ⟨g.2, hg⟩)
    rwa [hx, hy] at hmin

/-- Threads of one band trap together. -/
theorem exec_regsPoolPreempt_of_one {b : Nat} {p : Pc × Pc} (hne : s.coreTroops core ≠ []) (hb : ∀ e ∈ s.coreTroops core, e.1 = b)
    (hu : s.starved core ≠ []) (hp : ∀ t ∈ s.starved core, (s.thread? t).map (fun th => (th.pc, th.npc)) = some p) :
    exec (.regsPoolPreempt core) s = .next (s.raiseAll p.1 p.2 0 ((s.starved core).map fun t => ⟨t, 0x14, 1, 0⟩)) := by
  have hbs : ((s.coreTroops core).map (·.1)).eraseDups = [b] :=
    eraseDups_eq_singleton (by simpa using hne) (by simpa using hb)
  have hpcs : ((s.starved core).filterMap fun t => (s.thread? t).map fun th => (th.pc, th.npc)).eraseDups = [p] := by
    refine eraseDups_eq_singleton ?_ fun x hx => ?_
    · obtain ⟨t, ht⟩ := List.exists_mem_of_ne_nil _ hu
      exact List.ne_nil_of_mem (List.mem_filterMap.mpr ⟨t, ht, hp t ht⟩)
    · obtain ⟨t, ht, hx⟩ := List.mem_filterMap.mp hx
      exact Option.some.inj (hx.symm.trans (hp t ht))
  have hall : ((s.starved core).filter fun t => ((s.thread? t).map fun th => (th.pc, th.npc)) == some p) = s.starved core :=
    List.filter_eq_self.mpr fun t ht => beq_iff_eq.mpr (hp t ht)
  change execRegsPoolPreempt core s = _
  unfold execRegsPoolPreempt
  extract_lets ts bs us pcs
  rw [if_neg (Bool.eq_false_iff.mp (State.stalled_goesOn hst hne))]
  rw [show bs = [b] from hbs]
  change Host.Outcome.next (pcs.foldl _ s) = _
  rw [show pcs = [p] from hpcs, List.foldl_cons, List.foldl_nil, show us = s.starved core from rfl, hall]
  rfl

end Stalled

/-- Settles O49: placement and save from what they leave, and the decisions of a turn boundary by its cases. -/
theorem schedulerPlaces : Obligations.SchedulerPlaces := by
  unfold Obligations.SchedulerPlaces
  refine ⟨?place, ?save, fun s quad q hq => exec_turnBoundary hq, ?turn, ?decide, fun s w quad hp => State.evictFor_of_single hp quad,
    fun s w quad v hv => State.mem_victims hv, fun s w quad vs es he => State.evictions_prefix he,
    fun s b x hb hp => State.band?_preempt hb hp, ?stalled⟩
  case place =>
    intro s band cores b hb hp hw hfit hcores hfree
    refine ⟨fun ha => exec_bandPlace_asks hb hp hw hfit hcores hfree ha, fun ha hk => ?_⟩
    obtain ⟨w, b1, hplace, hnew⟩ := State.placeBand_eq hb cores
    refine ⟨w, b1, (exec_bandPlace_places hb hp hw hfit hcores hfree ha hk).trans (congrArg _ hplace),
      fun ht hs => ⟨(hnew ht hs).1, (hnew ht hs).2.1⟩, fun c hc k hk l hl r hr hh hsp ht hs hline => ?_⟩
    have hnone := (hnew ht hs).2.2 c hc r hr hh hsp l.line hline
    rw [State.l1Line?, hk, Option.bind_some, List.find?_eq_none] at hnone
    exact hnone l hl (beq_self_eq_true l.line)
  case save =>
    intro s band b hb hp hr b1 hb1
    obtain ⟨v, w, hw, hsave, hrest⟩ := State.saveBand_eq hb1
    exact ⟨v, w, hw, (exec_bandSaveComplete hb hp hr).trans (congrArg _ hsave), hrest⟩
  case turn =>
    exact fun s quad => s.endTurn_eq quad
  case decide =>
    intro s quad n
    refine ⟨State.decide_of_none n, fun w rest hc => ?_⟩
    obtain ⟨hplace, hask, hevict⟩ := State.decide_of_first (n := n) hc
    exact ⟨fun cs hr ha => hplace cs ((State.planFor_of_room hr).1 ha), fun cs hr ha => hask ((State.planFor_of_room hr).2 ha),
      fun vs hr he ha => hevict vs ((State.planFor_of_noRoom hr).2 vs he ha)⟩
  case stalled =>
    intro s core hst
    refine ⟨fun e f he hf hne => exec_regsPoolPreempt_of_many hst he hf hne, fun b p hne hb hu hp => ?_⟩
    exact exec_regsPoolPreempt_of_one hst hne hb hu hp

end Sys2Proof.Machine

/-! # SHFL and the SFU functions begin (O19), LD and ST issue (O20)

Outside a chain group a long-latency operation issues after the releases of the threads whose guard is false. They free registers,
so poison may go with them, but neither the guards nor the bundle change: what follows is an issue of the released state, with the
turns of the state before. An access moves TLBs (`TlbOnly`), then takes its registers and a pin, or is put in flight. -/

namespace Sys2Proof.Machine

/-! ### An issue in which every thread has its effect -/

section Smooth

variable {s : State} {b : Bundle} {m : Mods} {rel : List VReg} {ok : State → Tid → Prop} {eff : State → Tid → State × Flow}

theorem State.runReads_of_smooth {srcs : List VReg} {body : State → State → Tid → State × Flow} (hb : s.bundle? = some b)
    (hok : ∀ w t, ok w t → (∀ r ∈ srcs, s.view.poisonedReg t r = false) ∧ body s.view w t = eff w t ∧ (eff w t).2.ends = true)
    (hsm : s.view.smooth b m rel ok eff s b.threads) :
    s.runReads m srcs rel body = (b.threads.foldl (s.view.turn b m rel eff) s).finishIssue b [] [] := by
  have hturns := Run.fold_smooth s.view b m srcs rel noAct (fun s _ => s) body ok eff
    (fun u t h => ⟨(hok _ t h).1, (hok _ t h).2.1, (hok _ t h).2.2, Or.inl rfl⟩) b.threads ⟨s, [], [], [], []⟩ hsm
  rw [State.runReads, State.runThreads_eq s b hb, hturns]
  rfl

/-- Of the state that registers are read from a turn asks for guards alone. -/
theorem State.turn_congr {v w : State} (hg : ∀ t, w.guardTrue m t = v.guardTrue m t) : w.turn b m rel eff = v.turn b m rel eff := by
  funext u t
  simp only [State.turn, hg]

theorem State.smooth_congr {v w : State} (hg : ∀ t, w.guardTrue m t = v.guardTrue m t) (ts : List Tid) (u : State) :
    w.smooth b m rel ok eff u ts ↔ v.smooth b m rel ok eff u ts := by
  induction ts generalizing u with
  | nil => exact Iff.rfl
  | cons t ts ih => simp only [State.smooth, hg, State.turn_congr hg, ih]

end Smooth

/-! ### Threads that do not act release (R64) -/

/-- The threads of a bundle whose guard is false. -/
def State.idlers (s : State) (b : Bundle) (m : Mods) : List Tid := b.threads.filter fun t => !s.view.guardTrue m t

theorem State.releaseIdle_eq {s : State} {b : Bundle} (hb : s.bundle? = some b) (m : Mods) (rel : List VReg) :
    s.releaseIdle m rel = s.releaseAll rel (s.idlers b m) := by
  simp only [State.releaseIdle, hb]
  rfl

theorem Kept.releaseAll {x : Touch} (hx : x.Fits) {rel : List VReg} (hrel : ∀ r ∈ rel, r ∈ x.regs) (s : State) (ts : List Tid) :
    Kept x s (s.releaseAll rel ts) :=
  foldl_keeps (fun u t h => h.trans hx (Kept.release hx u t rel hrel)) ts (Kept.refl hx s)

theorem State.bundle?_releaseAll (s : State) (rel : List VReg) (ts : List Tid) : (s.releaseAll rel ts).bundle? = s.bundle? := by
  rw [(s.releaseAll_shape rel ts).rest]
  rfl

theorem State.view_of_ungrouped {s : State} (hn : s.group = none) : s.view = s := by
  simp only [State.view, hn]

theorem State.view_releaseAll {s : State} (hn : s.group = none) (rel : List VReg) (ts : List Tid) :
    (s.releaseAll rel ts).view = s.releaseAll rel ts := by
  apply State.view_of_ungrouped
  rw [(s.releaseAll_shape rel ts).rest]
  exact hn

theorem State.guardTrue_releaseAll (s : State) (rel : List VReg) (ts : List Tid) (m : Mods) (t : Tid) :
    (s.releaseAll rel ts).guardTrue m t = s.guardTrue m t := by
  simp only [State.guardTrue, State.readP_releaseAll]

theorem State.fresh_releaseAll (s : State) (rel : List VReg) (ts : List Tid) : (s.releaseAll rel ts).fresh = s.fresh := by
  rw [(s.releaseAll_shape rel ts).rest]

/-- An issue without sources outside a chain group, after the releases of the threads that do not act. -/
theorem State.runReads_releaseIdle {s : State} {b : Bundle} {m : Mods} {rel : List VReg} {body : State → State → Tid → State × Flow}
    {ok : State → Tid → Prop} {eff : State → Tid → State × Flow} (hb : s.bundle? = some b) (hn : s.group = none)
    (hok : ∀ w t, ok w t → body (s.releaseAll rel (s.idlers b m)) w t = eff w t ∧ (eff w t).2.ends = true)
    (hsm : s.view.smooth b m [] ok eff (s.releaseAll rel (s.idlers b m)) b.threads) :
    (s.releaseIdle m rel).runReads m [] [] body =
      (b.threads.foldl (s.view.turn b m [] eff) (s.releaseAll rel (s.idlers b m))).finishIssue b [] [] := by
  have hview : (s.releaseAll rel (s.idlers b m)).view = _ := State.view_releaseAll hn rel _
  have hg (t : Tid) : (s.releaseAll rel (s.idlers b m)).view.guardTrue m t = s.view.guardTrue m t := by
    rw [hview, State.view_of_ungrouped hn, State.guardTrue_releaseAll]
  rw [State.releaseIdle_eq hb, State.runReads_of_smooth ((s.bundle?_releaseAll rel _).trans hb) ?body
    ((State.smooth_congr hg _ _).mpr hsm), State.turn_congr hg]
  case body =>
    intro w t h
    rw [hview]
    exact ⟨fun _ hr => absurd hr List.not_mem_nil, hok w t h⟩

/-! ### A long-latency operation begins (R100, R101) -/

/-- The body of SHFL and of the SFU functions: a register for the destination, then the operation in progress. -/
def State.beginLong (v s : State) (t : Tid) (b : Bundle) (d : VReg) (setb : Bool) (what : Pend) (rel : List VReg) : State × Flow :=
  match s.take t [d] with
  | .error f => (s, f)
  | .ok s1 => (s1.pend b t v.fresh true setb what rel, .next)

theorem State.beginLong_ok {v s : State} {t : Tid} {d : VReg}
    (h : s.alloc t.band t.troop (s.needs t [d]).eraseDups.length = .ok) (b : Bundle) (setb : Bool) (what : Pend) (rel : List VReg) :
    v.beginLong s t b d setb what rel = ((s.reserve t [d]).pend b t v.fresh true setb what rel, .next) := by
  simp only [State.beginLong, State.take_ok s t [d] h]

theorem Touch.longOp_fits_on (b : Bundle) (rel : List VReg) (flags : List Nat) :
    Touch.Fits { Touch.longOp b with regs := rel, flags := flags } :=
  ⟨(Touch.longOp_fits b).refl, (Touch.longOp_fits b).trans, (Touch.longOp_fits b).issue⟩

/-- An operation that reads its sources later, outside a chain group. -/
theorem completesOnce_readsLater {i : Instr} {m : Mods} {rel : List VReg} {d : VReg} {what : Pend}
    (hi : ∀ s b, s.bundle? = some b → s.group = none →
      exec i s = .next ((s.releaseIdle m rel).runReads m [] [] fun v w t => v.beginLong w t b d true what rel)) :
    CompletesOnce (fun _ s => s.group = none)
      (fun b s => (b.threads.filter fun t => !s.view.guardTrue m t).foldl (fun s t => s.release t rel) s) (fun _ s => s) i m [] []
      (fun _ _ w t => w.alloc t.band t.troop (w.needs t [d]).eraseDups.length = .ok)
      (fun b v w t => ((w.reserve t [d]).pend b t v.fresh true true what rel, .next))
      fun b => { Touch.longOp b with regs := rel } := by
  intro s b hb hn hsm
  have hx : Touch.Fits { Touch.longOp b with regs := rel } := Touch.longOp_fits_on b rel _
  have hrun := State.runReads_releaseIdle (body := fun v w t => v.beginLong w t b d true what rel) hb hn
    (fun w t h => ⟨?begins, rfl⟩) hsm
  case begins => rw [State.beginLong_ok h.2, State.fresh_releaseAll, State.view_of_ungrouped hn]
  have hreleases : Kept { Touch.longOp b with regs := rel } s (s.releaseAll rel (s.idlers b m)) := Kept.releaseAll hx (fun _ hr => hr) s _
  refine ⟨_, (hi s b hb hn).trans (congrArg _ hrun), rfl, (hreleases.trans hx ?_).trans hx (State.finishIssue_kept hx _ b)⟩
  refine State.turn_kept hx s.view b m [] _ _ (fun _ hr => absurd hr List.not_mem_nil) (fun w t _ => ?_) (fun _ _ _ => rfl) _ _ hsm
  exact (Kept.reserve hx w t [d]).trans hx (Kept.pend hx _ b t _ true true what rel (fun _ _ => List.mem_cons_self)
    (fun _ _ => List.mem_cons_of_mem _ List.mem_cons_self) fun _ _ h => by rw [h]; rfl)

/-- An operation of a chain group, whose sources are read at issue (R98). -/
theorem completesOnce_chained {i : Instr} {m : Mods} {srcs rel : List VReg} {d : VReg} {what : State → Tid → Pend}
    (hi : ∀ s b, s.bundle? = some b → s.group.isSome = true →
      exec i s = .next (s.runReads m srcs rel fun v w t => v.beginLong w t b d false (what v t) [])) :
    CompletesOnce (fun _ s => s.group.isSome = true) (fun _ s => s) (fun _ s => s) i m srcs rel
      (fun _ _ w t => w.alloc t.band t.troop (w.needs t [d]).eraseDups.length = .ok)
      (fun b v w t => ((w.reserve t [d]).pend b t v.fresh true false (what v t) [], .next))
      fun b => { Touch.longOp b with regs := rel, flags := [b.seta] } := by
  have hx (b : Bundle) : Touch.Fits { Touch.longOp b with regs := rel, flags := [b.seta] } := Touch.longOp_fits_on b rel _
  apply completesOnce_of fun b v w t => v.beginLong w t b d false (what v t) []
  case hi => exact hi
  case hp => exact fun _ _ hb _ => hb
  case hg => exact fun _ _ _ _ _ => rfl
  case hq => exact fun _ _ _ _ _ _ => rfl
  case hok => exact fun _ b _ _ _ _ h => ⟨State.beginLong_ok h b false _ [], rfl⟩
  case hx => exact hx
  case hrel => exact fun _ _ hr => hr
  case hk => exact fun s b _ _ => Kept.refl (hx b) s
  case heff =>
    intro b v w t _
    exact (Kept.reserve (hx b) w t [d]).trans (hx b) (Kept.pend (hx b) _ b t _ true false _ [] (fun _ _ => List.mem_cons_self) nofun
      fun _ _ h => by rw [h]; rfl)

theorem exec_shfl_of_ungrouped {s : State} {bu : Bundle} (hb : s.bundle? = some bu) (hn : s.group = none) (m : Mods) (d a b : VReg) :
    exec (.shfl m d a b) s = .next ((s.releaseIdle m (lastReads m [a] [b])).runReads m [] [] fun v w t =>
      v.beginLong w t bu d true (.shfl m d a b) (lastReads m [a] [b])) := by
  change execShfl m d a b s = _
  simp only [execShfl, hn, curBundle_of s bu hb]
  rfl

theorem exec_shfl_of_grouped {s : State} {bu : Bundle} (hb : s.bundle? = some bu) (hn : s.group.isSome = true) (m : Mods) (d a b : VReg) :
    exec (.shfl m d a b) s = .next (s.runReads m [a, b] (lastReads m [a] [b]) fun v w t =>
      v.beginLong w t bu d false (.regs [.v d (v.readLane t a ((v.srcB m t b).toNat % 64))]) []) := by
  change execShfl m d a b s = _
  simp only [execShfl, hn, curBundle_of s bu hb]
  rfl

theorem State.sfuInstr_of_ungrouped {s : State} {b : Bundle} (hb : s.bundle? = some b) (hn : s.group = none) (m : Mods) (f : SfuFn)
    (d a : VReg) : s.sfuInstr m f d a = (s.releaseIdle m (lastReads m [a] [])).runReads m [] [] fun v w t =>
      v.beginLong w t b d true (.sfu f m d a) (lastReads m [a] []) := by
  simp only [State.sfuInstr, hn, curBundle_of s b hb]
  rfl

theorem State.sfuInstr_of_grouped {s : State} {b : Bundle} (hb : s.bundle? = some b) (hn : s.group.isSome = true) (m : Mods) (f : SfuFn)
    (d a : VReg) : s.sfuInstr m f d a = s.runReads m [a] (lastReads m [a] []) fun v w t =>
      v.beginLong w t b d false (.regs [.v d (sfuResult f (xmOrPlain m) (v.srcA m t a))]) [] := by
  simp only [State.sfuInstr, hn, curBundle_of s b hb]
  rfl

/-- Every SFU instruction is `State.sfuInstr` of its function (R149). -/
theorem exec_sfu (m : Mods) (d a : VReg) : ∀ e ∈ [(SfuFn.rcp, Instr.frcp m d a), (.rsq, .frsq m d a), (.sqrt, .fsqrt m d a),
    (.exp2, .fexp2 m d a), (.log2, .flog2 m d a), (.sin, .fsin m d a), (.cos, .fcos m d a), (.tanh, .ftanh m d a)],
    ∀ s : State, exec e.2 s = .next (s.sfuInstr m e.1 d a) := by
  simp only [List.forall_mem_cons, List.not_mem_nil, false_imp_iff, implies_true, and_true]
  refine ⟨?_, ?_, ?_, ?_, ?_, ?_, ?_, ?_⟩ <;> intro s <;> rfl

/-- Settles O19: outside a chain group the idle threads release before an issue without sources; inside one the sources are read. -/
theorem longLatencyIssues : Obligations.LongLatencyIssues := by
  unfold Obligations.LongLatencyIssues
  refine ⟨fun m d a b => ⟨?shfl, ?shflChained⟩, fun m d a f i hf => ⟨?sfu, ?sfuChained⟩⟩
  case shfl => exact completesOnce_readsLater fun s bu hb hn => exec_shfl_of_ungrouped hb hn m d a b
  case shflChained => exact completesOnce_chained fun s bu hb hn => exec_shfl_of_grouped hb hn m d a b
  case sfu =>
    exact completesOnce_readsLater fun s b hb hn => by rw [exec_sfu m d a _ hf, State.sfuInstr_of_ungrouped hb hn]
  case sfuChained =>
    exact completesOnce_chained fun s b hb hn => by rw [exec_sfu m d a _ hf, State.sfuInstr_of_grouped hb hn]

/-! ### LD and ST (R191, R193, R249) -/

/-- What AccessAddress moves lies in every frame of an access. -/
theorem TlbOnly.kept {x : Touch} {s u : State} (h : TlbOnly s u) (hc : x.core = CoreSt.untimed) (hd : x.die = DieSt.untimed)
    (hr : u = { s with cores := u.cores, dies := u.dies } → u = x.rest s u) : Kept x s u := by
  have hrest := h.rest
  refine Kept.of_rest ?_ ?_ ?_ (hc ▸ h.cores) (hd ▸ h.dies) (hr hrest) <;> rw [hrest]

/-- The pin of an LD by the place it reached: lines of E and S regions are read in the L1, those of A at their home (R185, R334). -/
theorem State.pin_siteOf (s : State) (b : Bundle) (t : Tid) (k : GReg) (x : Target) (pol : Policy) :
    s.pin b t x.loc (s.siteOf t k x false) pol = match x.loc with
      | .mem pa h => if pol = .strm ∨ x.reg.kind = .a then s
        else { s with pins := s.pins ++ [⟨s.coreOf t, lineKey h pa, t, b.base, b.next⟩] }
      | .bench .. => s := by
  cases hl : x.loc with
  | bench c o => rfl
  | mem pa h =>
    by_cases hk : x.reg.kind = .a
    · simp only [State.siteOf, hl, hk, State.pin, if_true, or_true]
    · simp only [State.siteOf, hl, hk, State.pin, if_false, or_false, Bool.false_and, Bool.false_eq_true]

theorem State.pin_rest (s : State) (b : Bundle) (t : Tid) (loc : Loc) (site : Site) (pol : Policy) :
    s.pin b t loc site pol = { s with pins := (s.pin b t loc site pol).pins } := by
  unfold State.pin
  split
  · split <;> rfl
  · rfl

/-- What an LD touches: beside an access's parts the lines kept for its clause; SETA, but not SETB (R101, R334). -/
def Touch.load (b : Bundle) (rel : List VReg) : Touch :=
  { Touch.access b rel with flags := [b.seta], rest := fun s u => { (Touch.access b rel).rest s u with pins := u.pins } }

theorem Touch.load_fits (b : Bundle) (rel : List VReg) : (Touch.load b rel).Fits where
  refl _ := rfl
  trans s u w h k := by
    rw [h] at k
    exact k
  issue s u h := by
    rw [h]
    rfl

theorem Kept.pin_load (rel : List VReg) (s : State) (b c : Bundle) (t : Tid) (loc : Loc) (site : Site) (pol : Policy) :
    Kept (Touch.load b rel) s (s.pin c t loc site pol) := by
  rw [State.pin_rest]
  exact Kept.of_rest rfl rfl rfl rfl rfl rfl

/-- The body of LD: the place, the destinations' registers, then the load in progress with its line kept. -/
def State.beginLoad (v w : State) (m : Mods) (b : Bundle) (t : Tid) (sz : LdSize) (pol : Policy) (k : GReg) (d a : VReg)
    (off : BitVec 24) : State × Flow :=
  match w.accessAddress t (v.regT t k) (v.offsetOf m t a off.toInt) (ldBytes sz) (ldBytes sz) .load .read with
  | (w1, .fail f) => (w1, .trap f)
  | (w1, .walk va) => (w1, .walk va .read)
  | (w1, .ok x) =>
    match w1.take t (ldRegs sz d) with
    | .error f => (w1, f)
    | .ok w2 => ((w2.pin b t x.loc (w2.siteOf t k x false) pol).pend b t v.fresh true false
      (.load x.loc (w2.siteOf t k x false) sz pol d) [], .next)

theorem exec_ld {s : State} {b : Bundle} (hb : s.bundle? = some b) (m : Mods) (sz : LdSize) (pol : Policy) (k : GReg) (d a : VReg)
    (off : BitVec 24) : exec (.ld m sz pol k d a off) s =
      .next (s.runReads m [a] (lastReads m [a] []) fun v w t => v.beginLoad w m b t sz pol k d a off) := by
  change execLd m sz pol k d a off s = _
  simp only [execLd, curBundle_of s b hb]
  rfl

theorem completes_ld (m : Mods) (sz : LdSize) (pol : Policy) (k : GReg) (d a : VReg) (off : BitVec 24) :
    Completes (.ld m sz pol k d a off) m [a] (lastReads m [a] [])
      (fun _ v w t => ∃ w1 x,
        w.accessAddress t (v.regT t k) (v.offsetOf m t a off.toInt) (ldBytes sz) (ldBytes sz) .load .read = (w1, .ok x) ∧
        w1.alloc t.band t.troop (w1.needs t (ldRegs sz d)).eraseDups.length = .ok)
      (fun b v w t =>
        match w.accessAddress t (v.regT t k) (v.offsetOf m t a off.toInt) (ldBytes sz) (ldBytes sz) .load .read with
        | (w1, .ok x) =>
          let w2 := w1.reserve t (ldRegs sz d)
          ((w2.pin b t x.loc (w2.siteOf t k x false) pol).pend b t v.fresh true false
            (.load x.loc (w2.siteOf t k x false) sz pol d) [], .next)
        | (w1, _) => (w1, .next))
      fun b => Touch.load b (lastReads m [a] []) := by
  have hx (b : Bundle) : (Touch.load b (lastReads m [a] [])).Fits := Touch.load_fits b _
  apply completes_plain fun b v w t => v.beginLoad w m b t sz pol k d a off
  case hi => exact fun s b hb => exec_ld hb m sz pol k d a off
  case hok =>
    intro b v w t ⟨w1, x, hat, hroom⟩
    simp only [State.beginLoad, hat, State.take_ok w1 t _ hroom, Flow.ends, and_self]
  case hx => exact hx
  case hrel => exact fun _ _ hr => hr
  case heff =>
    intro b v w t ⟨w1, x, hat, _⟩
    have htlb : Kept (Touch.load b (lastReads m [a] [])) w w1 :=
      (TlbOnly.of_accessAddress hat).kept rfl rfl fun h => by rw [h]; rfl
    simp only [hat]
    exact ((htlb.trans (hx b) (Kept.reserve (hx b) w1 t _)).trans (hx b) (Kept.pin_load _ _ b b t _ _ pol)).trans (hx b)
      (Kept.pend (hx b) _ b t _ true false _ [] (fun _ _ => List.mem_cons_self) nofun fun _ _ h => by rw [h]; rfl)

/-- What an ST touches: an access's parts, and no flag (R249). -/
def Touch.store (b : Bundle) (rel : List VReg) : Touch := { Touch.access b rel with flags := [] }

theorem Touch.store_fits (b : Bundle) (rel : List VReg) : (Touch.store b rel).Fits :=
  ⟨(Touch.access_fits b rel).refl, (Touch.access_fits b rel).trans, (Touch.access_fits b rel).issue⟩

theorem completes_st (m : Mods) (sz : StSize) (pol : Policy) (k : GReg) (a b : VReg) (off : BitVec 24) :
    Completes (.st m sz pol k a b off) m (a :: stRegs sz b) (lastReads m [a] (stRegs sz b))
      (fun _ v w t => ∃ w1 x,
        w.accessAddress t (v.regT t k) (v.offsetOf m t a off.toInt) (stBytes sz) (stBytes sz) .store .write = (w1, .ok x))
      (fun _ v w t =>
        match w.accessAddress t (v.regT t k) (v.offsetOf m t a off.toInt) (stBytes sz) (stBytes sz) .store .write with
        | (w1, .ok x) => (w1.launchFlight t v.fresh k x false pol
            (.store (stBytes sz) (BitVec.ofNat 128 (v.storeData m t (stRegs sz b) % 2 ^ (8 * stBytes sz)))), .next)
        | (w1, _) => (w1, .next))
      fun c => Touch.store c (lastReads m [a] (stRegs sz b)) := by
  apply completes_plain fun _ v w t =>
    match w.accessAddress t (v.regT t k) (v.offsetOf m t a off.toInt) (stBytes sz) (stBytes sz) .store .write with
    | (w1, .fail f) => (w1, .trap f)
    | (w1, .walk va) => (w1, .walk va .write)
    | (w1, .ok x) => (w1.launchFlight t v.fresh k x false pol
        (.store (stBytes sz) (BitVec.ofNat 128 (v.storeData m t (stRegs sz b) % 2 ^ (8 * stBytes sz)))), .next)
  case hi => exact fun _ _ _ => rfl
  case hok =>
    intro c v w t ⟨w1, x, hat⟩
    simp only [hat, Flow.ends, and_self]
  case hx => exact fun c => Touch.store_fits c _
  case hrel => exact fun _ _ hr => hr
  case heff =>
    intro c v w t ⟨w1, x, hat⟩
    have htlb : Kept (Touch.store c (lastReads m [a] (stRegs sz b))) w w1 :=
      (TlbOnly.of_accessAddress hat).kept rfl rfl fun h => by rw [h]; rfl
    simp only [hat]
    exact htlb.trans (Touch.store_fits c _) (Kept.of_rest rfl rfl rfl rfl rfl rfl)

/-- Settles O20: the body of each reaches its place and then begins as a load in progress or a store in flight. -/
theorem loadsAndStoresIssue : Obligations.LoadsAndStoresIssue := by
  unfold Obligations.LoadsAndStoresIssue
  refine ⟨fun m sz pol k d a off => ?_, completes_st⟩
  have h := completes_ld m sz pol k d a off
  simp only [State.pin_siteOf] at h
  exact h

end Sys2Proof.Machine

/-! # What the encoder writes, the decoder reads (O58, O57)

The words of an instruction are sums of fields times powers of two. A field is read back by looking at the sum from its highest
term on: terms above the field are dropped (`bitsOf_high_add`), the field's own term is its value where the rest of the sum stays
below it (`bitsOf_add_low`), and a sum that stays below the field reads 0 (`bitsOf_of_lt`). With these rules the base word, the
extension words and the immediate word of every instruction are read back; `simp` closes their side conditions by `omega`. -/

namespace Sys2Proof

/-! ### Fields of a sum of shifted fields -/

theorem bitsOf_ofNat {n lo w : Nat} (h : lo + w ≤ 32) : bitsOf (BitVec.ofNat 32 n) lo w = n / 2 ^ lo % 2 ^ w := by
  obtain ⟨d, hd⟩ := Nat.exists_eq_add_of_le h
  rw [bitsOf, BitVec.toNat_ofNat, hd, Nat.add_assoc, Nat.pow_add, Nat.mod_mul_right_div_self, Nat.pow_add,
    Nat.mod_mul_right_mod]

section Fields
variable {x y lo w k : Nat}

@[simp] theorem bitsOf_high_add (h : lo + w ≤ k) (hk : k ≤ 32) :
    bitsOf (BitVec.ofNat 32 (x * 2 ^ k + y)) lo w = bitsOf (BitVec.ofNat 32 y) lo w := by
  obtain ⟨d, rfl⟩ := Nat.exists_eq_add_of_le h
  have hx : x * 2 ^ (lo + w + d) = 2 ^ lo * (2 ^ w * (2 ^ d * x)) := by ring
  rw [bitsOf_ofNat (by omega), bitsOf_ofNat (by omega), hx, Nat.mul_add_div (Nat.two_pow_pos lo), Nat.mul_add_mod]

@[simp] theorem bitsOf_add_low (h : lo + w ≤ 32) (hx : x < 2 ^ w) (hy : y < 2 ^ lo) :
    bitsOf (BitVec.ofNat 32 (x * 2 ^ lo + y)) lo w = x := by
  rw [bitsOf_ofNat h, Nat.mul_comm, Nat.mul_add_div (Nat.two_pow_pos lo), Nat.div_eq_of_lt hy, Nat.add_zero,
    Nat.mod_eq_of_lt hx]

@[simp] theorem bitsOf_of_lt (h : lo + w ≤ 32) (hy : y < 2 ^ lo) : bitsOf (BitVec.ofNat 32 y) lo w = 0 := by
  rw [bitsOf_ofNat h, Nat.div_eq_of_lt hy, Nat.zero_mod]

@[simp] theorem bitsOf_high (h : lo + w ≤ k) (hk : k ≤ 32) : bitsOf (BitVec.ofNat 32 (x * 2 ^ k)) lo w = 0 := by
  simpa [bitsOf] using bitsOf_high_add (x := x) (y := 0) h hk

@[simp] theorem bitsOf_mul_same (h : lo + w ≤ 32) (hx : x < 2 ^ w) : bitsOf (BitVec.ofNat 32 (x * 2 ^ lo)) lo w = x :=
  bitsOf_add_low h hx (Nat.two_pow_pos lo)

@[simp] theorem bitsOf_lowest (h : w ≤ 32) (hx : x < 2 ^ w) : bitsOf (BitVec.ofNat 32 x) 0 w = x := by
  simpa using bitsOf_mul_same (lo := 0) (by omega) hx

end Fields

theorem bitOf_eq {x : Word} {i : Nat} {b : Bool} (h : bitsOf x i 1 = b.toNat) : bitOf x i = b := by
  rw [bitOf, h]
  cases b <;> rfl

theorem field6_eq {x : Word} {lo : Nat} {v : Fin 64} (h : bitsOf x lo 6 = v.val) : field6 x lo = v := Fin.ext h

@[simp] theorem need_true {α : Type} (x : Option α) : need true x = x := rfl

/-! ### The base word -/

/-- The base word of a raw instruction: the first of its words (R77). -/
def Raw.base (r : Raw) : Word :=
  BitVec.ofNat 32 (r.chain.toNat * 2 ^ 31 + (r.xg.isSome || r.xm.isSome).toNat * 2 ^ 30 + r.op.val * 2 ^ 23 +
    r.t.val * 2 ^ 20 + r.d.val * 2 ^ 14 + r.a.val * 2 ^ 8 + r.b.val * 2 ^ 2 + r.la.toNat * 2 ^ 1 + r.lb.toNat)

/-- The extension words of a guard word and a modifier word, each where present (R72). -/
def extWords (xg : Option XG) (xm : Option XM) : List Word :=
  (xg.map fun g => g.word xm.isSome).toList ++ (xm.map XM.word).toList

theorem Raw.words_eq (r : Raw) : r.words = r.base :: (r.imm.toList ++ extWords r.xg r.xm) := by
  simp only [Raw.words, Raw.base, extWords, List.append_assoc, Nat.pow_one]

section Base
variable (r : Raw)

theorem Raw.bitsOf_base : bitsOf r.base 31 1 = r.chain.toNat ∧ bitsOf r.base 30 1 = (r.xg.isSome || r.xm.isSome).toNat ∧
    bitsOf r.base 23 7 = r.op.val ∧ bitsOf r.base 20 3 = r.t.val ∧ bitsOf r.base 14 6 = r.d.val ∧
    bitsOf r.base 8 6 = r.a.val ∧ bitsOf r.base 2 6 = r.b.val ∧ bitsOf r.base 1 1 = r.la.toNat ∧
    bitsOf r.base 0 1 = r.lb.toNat := by
  have hc := r.chain.toNat_lt
  have hx := (r.xg.isSome || r.xm.isSome).toNat_lt
  have ha := r.la.toNat_lt
  have hb := r.lb.toNat_lt
  simp (disch := omega) only [Raw.base, Nat.add_assoc, bitsOf_high_add, bitsOf_add_low, bitsOf_lowest, and_self]

end Base

/-! ### Extension words -/

@[simp] theorem permOf_code (p : Perm) : permOf p.code p.amount = some p := by cases p <;> rfl

theorem Perm.code_lt (p : Perm) : p.code < 8 := by cases p <;> simp [Perm.code]

/-- The guard field of an XG word: the predicate's number, or 31 for none (R80). -/
def XG.guardCode (x : XG) : Nat := x.guard.elim 31 Fin.val

theorem XG.guardCode_lt (x : XG) : x.guardCode < 32 := by
  rw [XG.guardCode]
  cases x.guard with
  | none => decide
  | some p => exact Nat.lt_trans p.isLt (by decide)

theorem guardOf_guardCode (x : XG) : guardOf x.guardCode = some x.guard := by
  rw [XG.guardCode, guardOf]
  cases x.guard with
  | none => rfl
  | some p =>
    have hp := p.isLt
    rw [Option.elim_some, if_neg (by omega), fin?, dif_pos hp]
    rfl

theorem XG.word_eq (x : XG) (more : Bool) : x.word more = BitVec.ofNat 32 (more.toNat * 2 ^ 30 + x.guardCode * 2 ^ 25 +
    x.sense.toNat * 2 ^ 24 + x.permA.code * 2 ^ 21 + x.permA.amount.val * 2 ^ 15 + x.permB.code * 2 ^ 12 +
    x.permB.amount.val * 2 ^ 6) := by
  rw [XG.word, XG.guardCode]
  cases x.guard <;> rfl

theorem XG.bitsOf_word (x : XG) (more : Bool) : bitsOf (x.word more) 31 1 = 0 ∧ bitsOf (x.word more) 30 1 = more.toNat ∧
    bitsOf (x.word more) 25 5 = x.guardCode ∧ bitsOf (x.word more) 24 1 = x.sense.toNat ∧
    bitsOf (x.word more) 21 3 = x.permA.code ∧ bitsOf (x.word more) 15 6 = x.permA.amount.val ∧
    bitsOf (x.word more) 12 3 = x.permB.code ∧ bitsOf (x.word more) 6 6 = x.permB.amount.val ∧
    bitsOf (x.word more) 0 6 = 0 := by
  have hm := more.toNat_lt
  have hg := x.guardCode_lt
  have hs := x.sense.toNat_lt
  have ha := x.permA.code_lt
  have hb := x.permB.code_lt
  simp (disch := omega) only [XG.word_eq, Nat.add_assoc, bitsOf_high_add, bitsOf_add_low, bitsOf_mul_same, bitsOf_high,
    bitsOf_of_lt, and_self]

@[simp] theorem xgOf_word (x : XG) (more : Bool) : xgOf (x.word more) = some x := by
  obtain ⟨h31, -, hg, hs, hca, haa, hcb, hab, h0⟩ := x.bitsOf_word more
  simp only [xgOf, h31, h0, hg, hca, hcb, guardOf_guardCode, bitOf_eq hs, field6_eq haa, field6_eq hab, permOf_code,
    BEq.rfl, Bool.and_self, need_true]

@[simp] theorem XG.bitOf_word_more (x : XG) (more : Bool) : bitOf (x.word more) 30 = more := by
  obtain ⟨-, hmore, -⟩ := x.bitsOf_word more
  exact bitOf_eq hmore

@[simp] theorem XG.bitOf_word_kind (x : XG) (more : Bool) : bitOf (x.word more) 31 = false := by
  obtain ⟨h31, -⟩ := x.bitsOf_word more
  exact bitOf_eq h31

@[simp] theorem rndOf_code (r : Rnd) : rndOf r.code = some r := by cases r <;> rfl
@[simp] theorem clampOf_code (c : Clamp) : clampOf c.code = some c := by cases c <;> rfl

theorem Rnd.code_lt (r : Rnd) : r.code < 8 := by cases r <;> decide
theorem Clamp.code_lt (c : Clamp) : c.code < 4 := by cases c <;> decide

/-- The register field of an XM word: C, or 0 where CV = 0 (R83). -/
def XM.addendField (x : XM) : Fin 64 := x.creg.getD 0

theorem XM.word_eq (x : XM) : x.word = BitVec.ofNat 32 (2 * 2 ^ 30 + x.negA.toNat * 2 ^ 29 + x.negB.toNat * 2 ^ 28 +
    x.absA.toNat * 2 ^ 27 + x.absB.toNat * 2 ^ 26 + x.sat.toNat * 2 ^ 25 + x.clamp.code * 2 ^ 23 + x.k.toNat * 2 ^ 19 +
    x.rnd.code * 2 ^ 16 + x.addendField.val * 2 ^ 10 + x.creg.isSome.toNat * 2 ^ 9 + x.lc.toNat * 2 ^ 8) := by
  rw [XM.word, XM.addendField]
  cases x.creg <;> simp [Nat.add_assoc]

/-- The fields of an XM word from CLAMP up. -/
theorem XM.bitsOf_word_high (x : XM) : bitsOf x.word 30 2 = 2 ∧ bitsOf x.word 29 1 = x.negA.toNat ∧
    bitsOf x.word 28 1 = x.negB.toNat ∧ bitsOf x.word 27 1 = x.absA.toNat ∧ bitsOf x.word 26 1 = x.absB.toNat ∧
    bitsOf x.word 25 1 = x.sat.toNat ∧ bitsOf x.word 23 2 = x.clamp.code := by
  have hna := x.negA.toNat_lt
  have hnb := x.negB.toNat_lt
  have haa := x.absA.toNat_lt
  have hab := x.absB.toNat_lt
  have hs := x.sat.toNat_lt
  have hcl := x.clamp.code_lt
  have hr := x.rnd.code_lt
  have hcv := x.creg.isSome.toNat_lt
  have hlc := x.lc.toNat_lt
  simp (disch := omega) only [XM.word_eq, Nat.add_assoc, bitsOf_high_add, bitsOf_add_low, and_self]

/-- The fields of an XM word below CLAMP. -/
theorem XM.bitsOf_word_low (x : XM) : bitsOf x.word 19 4 = x.k.toNat ∧ bitsOf x.word 16 3 = x.rnd.code ∧
    bitsOf x.word 10 6 = x.addendField.val ∧ bitsOf x.word 9 1 = x.creg.isSome.toNat ∧ bitsOf x.word 8 1 = x.lc.toNat ∧
    bitsOf x.word 0 8 = 0 := by
  have hr := x.rnd.code_lt
  have hcv := x.creg.isSome.toNat_lt
  have hlc := x.lc.toNat_lt
  simp (disch := omega) only [XM.word_eq, Nat.add_assoc, bitsOf_high_add, bitsOf_add_low, bitsOf_mul_same, bitsOf_high,
    and_self]

@[simp] theorem XM.bitOf_word_kind (x : XM) : bitOf x.word 31 = true := by
  obtain ⟨hkind, -⟩ := x.bitsOf_word_high
  refine bitOf_eq ?_
  rw [bitsOf] at hkind ⊢
  rw [Bool.toNat_true]
  omega

@[simp] theorem xmOf_word (x : XM) : xmOf x.word = some x := by
  obtain ⟨hkind, hna, hnb, haa, hab, hs, hcl⟩ := x.bitsOf_word_high
  obtain ⟨hk, hr, hc, hcv, hlc, h0⟩ := x.bitsOf_word_low
  have hcreg : (x.creg.isSome || x.addendField.val == 0) = true := by
    rw [XM.addendField]
    cases x.creg <;> rfl
  have hget : (if x.creg.isSome = true then some x.addendField else none) = x.creg := by
    rw [XM.addendField]
    cases x.creg <;> rfl
  simp only [xmOf, hkind, h0, bitOf_eq hcv, hc, hcl, hr, hk, bitOf_eq hna, bitOf_eq hnb, bitOf_eq haa, bitOf_eq hab,
    bitOf_eq hs, bitOf_eq hlc, field6_eq hc, clampOf_code, rndOf_code, BitVec.ofNat_toNat, BitVec.setWidth_eq, hcreg, hget,
    BEq.rfl, Bool.and_self, need_true]

/-! ### How the extension words are told apart (R80, R83) -/

section Ext
variable {e f : Word} {more : List Word} {g : XG} {m : XM}

theorem extOf_xm (hk : bitOf e 31 = true) (hm : xmOf e = some m) : extOf (e :: more) = some (none, some m) := by
  simp [extOf, hk, hm]

theorem extOf_xg (hk : bitOf e 31 = false) (h30 : bitOf e 30 = false) (hg : xgOf e = some g) :
    extOf (e :: more) = some (some g, none) := by
  simp [extOf, hk, h30, hg]

theorem extOf_xg_xm (hk : bitOf e 31 = false) (h30 : bitOf e 30 = true) (hg : xgOf e = some g) (hm : xmOf f = some m) :
    extOf (e :: f :: more) = some (some g, some m) := by
  simp [extOf, hk, h30, hg, hm]

theorem iextOf_xm (hk : bitOf e 31 = true) (hm : xmOf e = some m) : iextOf (e :: more) = some (none, some m) := by
  simp [iextOf, hk, hm]

theorem iextOf_xg (hk : bitOf e 31 = false) (h30 : bitOf e 30 = false) (hg : xgOf e = some g) :
    iextOf (e :: more) = some (some g, none) := by
  simp [iextOf, hk, h30, hg]

end Ext

/-- The extension words of an instruction that is not an I-form are read back. -/
theorem extOf_extWords {xg : Option XG} {xm : Option XM} (h : (xg.isSome || xm.isSome) = true) (rest : List Word) :
    extOf (extWords xg xm ++ rest) = some (xg, xm) := by
  match xg, xm with
  | none, some m => exact extOf_xm m.bitOf_word_kind (xmOf_word m)
  | some g, none => exact extOf_xg (g.bitOf_word_kind _) (g.bitOf_word_more _) (xgOf_word g _)
  | some g, some m => exact extOf_xg_xm (g.bitOf_word_kind _) (g.bitOf_word_more _) (xgOf_word g _) (xmOf_word m)

/-- The extension word of an I-form is read back. -/
theorem iextOf_extWords {xg : Option XG} {xm : Option XM} (h : (xg.isSome || xm.isSome) = true) (h1 : xg = none ∨ xm = none)
    (rest : List Word) : iextOf (extWords xg xm ++ rest) = some (xg, xm) := by
  rcases h1 with rfl | rfl
  · obtain ⟨m, rfl⟩ := Option.isSome_iff_exists.1 h
    exact iextOf_xm m.bitOf_word_kind (xmOf_word m)
  · obtain ⟨g, rfl⟩ := Option.isSome_iff_exists.1 ((Bool.or_false _).symm.trans h)
    exact iextOf_xg (g.bitOf_word_kind _) (g.bitOf_word_more _) (xgOf_word g _)

/-! ### How many words there are (R72, R79) -/

section Len
variable {x i e f : Word} {rest : List Word}

theorem instrLen_plain (hx : bitOf x 30 = false) (hi : isIForm (opOf x) = false) : instrLen (x :: rest) = some 1 := by
  simp [instrLen, hx, hi]

theorem instrLen_imm (hx : bitOf x 30 = false) (hi : isIForm (opOf x) = true) : instrLen (x :: i :: rest) = some 2 := by
  simp [instrLen, hx, hi]

theorem instrLen_imm_ext (hx : bitOf x 30 = true) (hi : isIForm (opOf x) = true) :
    instrLen (x :: i :: e :: rest) = some 3 := by
  simp [instrLen, hx, hi]

theorem instrLen_xm (hx : bitOf x 30 = true) (hi : isIForm (opOf x) = false) (hk : bitOf e 31 = true) :
    instrLen (x :: e :: rest) = some 2 := by
  simp [instrLen, hx, hi, hk]

theorem instrLen_xg (hx : bitOf x 30 = true) (hi : isIForm (opOf x) = false) (hk : bitOf e 30 = false) :
    instrLen (x :: e :: rest) = some 2 := by
  simp [instrLen, hx, hi, hk]

theorem instrLen_xg_xm (hx : bitOf x 30 = true) (hi : isIForm (opOf x) = false) (hk : bitOf e 31 = false)
    (hm : bitOf e 30 = true) : instrLen (x :: e :: f :: rest) = some 3 := by
  simp [instrLen, hx, hi, hk, hm]

end Len

/-! ### The words of a raw instruction -/

/-- A raw instruction that words can have: its opcode is not NOP's, an immediate word stands where the opcode is an I-form, and
then at most one extension word (R72). -/
structure Raw.Formed (r : Raw) : Prop where
  op_ne_zero : r.op ≠ 0
  imm_isSome : r.imm.isSome = isIForm r.op.val
  one_ext : isIForm r.op.val = true → r.xg = none ∨ r.xm = none

section Words
variable (r : Raw) (rest : List Word)

theorem Raw.opOf_base : opOf r.base = r.op.val := by
  obtain ⟨-, -, hop, -⟩ := r.bitsOf_base
  exact hop

theorem Raw.bitOf_base_ext : bitOf r.base 30 = (r.xg.isSome || r.xm.isSome) := by
  obtain ⟨-, hx, -⟩ := r.bitsOf_base
  exact bitOf_eq hx

theorem Raw.base_ne_zero (h : r.op ≠ 0) : r.base ≠ 0#32 := by
  intro h0
  have hop := r.opOf_base
  rw [h0] at hop
  exact h (Fin.ext hop.symm)

theorem instrLen_words (h : r.Formed) : instrLen (r.words ++ rest) = some r.words.length := by
  have hop := r.opOf_base
  have hx := r.bitOf_base_ext
  have himm := h.imm_isSome
  have hext := h.one_ext
  rw [← hop] at himm hext
  rw [Raw.words_eq]
  generalize r.base = x at *
  generalize r.imm = imm at *
  generalize r.xg = xg at *
  generalize r.xm = xm at *
  match imm, xg, xm with
  | none, none, none => exact instrLen_plain hx himm.symm
  | none, none, some m => exact instrLen_xm hx himm.symm m.bitOf_word_kind
  | none, some g, none => exact instrLen_xg hx himm.symm (g.bitOf_word_more _)
  | none, some g, some m => exact instrLen_xg_xm hx himm.symm (g.bitOf_word_kind _) (g.bitOf_word_more _)
  | some i, none, none => exact instrLen_imm hx himm.symm
  | some i, none, some m => exact instrLen_imm_ext hx himm.symm
  | some i, some g, none => exact instrLen_imm_ext hx himm.symm
  | some i, some g, some m => exact (hext himm.symm).elim nofun nofun

end Words

section RawOf
variable {x i : Word} {rest : List Word} {e : Option XG × Option XM}

/-- The raw instruction of a base word, an immediate word and extension words. -/
def rawWith (x : Word) (imm : Option Word) (e : Option XG × Option XM) : Raw :=
  ⟨bitOf x 31, ⟨bitsOf x 23 7, Nat.mod_lt _ (by decide)⟩, ⟨bitsOf x 20 3, Nat.mod_lt _ (by decide)⟩,
    field6 x 14, field6 x 8, field6 x 2, bitOf x 1, bitOf x 0, imm, e.1, e.2⟩

theorem rawOf_plain (hx : bitOf x 30 = false) (hi : isIForm (opOf x) = false) :
    rawOf (x :: rest) = some (rawWith x none (none, none)) := by
  simp [rawOf, hx, hi, rawWith]

theorem rawOf_ext (hx : bitOf x 30 = true) (hi : isIForm (opOf x) = false) (he : extOf rest = some e) :
    rawOf (x :: rest) = some (rawWith x none e) := by
  simp [rawOf, hx, hi, he, rawWith]

theorem rawOf_imm (hx : bitOf x 30 = false) (hi : isIForm (opOf x) = true) :
    rawOf (x :: i :: rest) = some (rawWith x (some i) (none, none)) := by
  simp [rawOf, hx, hi, rawWith]

theorem rawOf_imm_ext (hx : bitOf x 30 = true) (hi : isIForm (opOf x) = true) (he : iextOf rest = some e) :
    rawOf (x :: i :: rest) = some (rawWith x (some i) e) := by
  simp [rawOf, hx, hi, he, rawWith]

theorem rawWith_base (r : Raw) : rawWith r.base r.imm (r.xg, r.xm) = r := by
  obtain ⟨hch, -, hop, ht, hd, ha, hb, hla, hlb⟩ := r.bitsOf_base
  simp only [rawWith, bitOf_eq hch, hop, ht, field6_eq hd, field6_eq ha, field6_eq hb, bitOf_eq hla, bitOf_eq hlb, Fin.eta]

theorem extWords_nil {xg : Option XG} {xm : Option XM} (h : (xg.isSome || xm.isSome) = false) :
    extWords xg xm = [] ∧ (xg, xm) = (none, none) := by
  simp only [Bool.or_eq_false_iff, Option.isSome_eq_false_iff, Option.isNone_iff_eq_none] at h
  obtain ⟨rfl, rfl⟩ := h
  exact ⟨rfl, rfl⟩

theorem rawOf_words (r : Raw) (h : r.Formed) (rest : List Word) : rawOf (r.words ++ rest) = some r := by
  have himm := h.imm_isSome
  have hext := h.one_ext
  rw [← r.opOf_base] at himm hext
  have hx := r.bitOf_base_ext
  rw [Raw.words_eq]
  conv_rhs => rw [← rawWith_base r]
  generalize r.base = x at *
  generalize r.imm = imm at *
  generalize r.xg = xg at *
  generalize r.xm = xm at *
  cases imm with
  | none =>
    cases he : xg.isSome || xm.isSome with
    | true => exact rawOf_ext (hx.trans he) himm.symm (extOf_extWords he rest)
    | false =>
      obtain ⟨hnil, hnone⟩ := extWords_nil he
      rw [hnil, hnone]
      exact rawOf_plain (hx.trans he) himm.symm
  | some i =>
    cases he : xg.isSome || xm.isSome with
    | true => exact rawOf_imm_ext (hx.trans he) himm.symm (iextOf_extWords he (hext himm.symm) rest)
    | false =>
      obtain ⟨hnil, hnone⟩ := extWords_nil he
      rw [hnil, hnone]
      exact rawOf_imm (hx.trans he) himm.symm

end RawOf

/-! ### Codes of variants are read back -/

@[simp] theorem hintOf_code (c : Hint) : hintOf c.code = c := by cases c <;> rfl
@[simp] theorem condOf_code (c : Cond) : condOf c.code = some c := by cases c <;> rfl
@[simp] theorem ldSizeOf_code (c : LdSize) : ldSizeOf c.code = some c := by cases c <;> rfl
@[simp] theorem stSizeOf_code (c : StSize) : stSizeOf c.code = some c := by cases c <;> rfl
@[simp] theorem policyOf_code (c : Policy) : policyOf c.code = some c := by cases c <;> rfl
@[simp] theorem ord4Of_code (c : Ord4) : ord4Of c.code = some c := by cases c <;> rfl
@[simp] theorem fenceOrdOf_code (c : FenceOrd) : fenceOrdOf c.code = some c := by cases c <;> rfl
@[simp] theorem scopeOf_code (c : Scope) : scopeOf c.code = some c := by cases c <;> rfl
@[simp] theorem atomOpOf_code (c : AtomOp) : atomOpOf c.code = some c := by cases c <;> rfl
@[simp] theorem baraOf_code (c : BaraKind) : baraOf c.code = some c := by cases c <;> rfl
@[simp] theorem csrModeOf_code (c : CsrMode) : csrModeOf c.code = some c := by cases c <;> rfl
@[simp] theorem borOf_code (k : Kind) (n : Bool) : borOf (borCode k n) = some (k, n) := by cases k <;> cases n <;> rfl
@[simp] theorem btstOf_code (c : BtstCond) : btstOf c.code = some c := by cases c <;> rfl
@[simp] theorem bqryOf_code (c : BqryField) : bqryOf c.code = some c := by cases c <;> rfl
@[simp] theorem tcpyDirOf_code (c : TcpyDir) : tcpyDirOf c.code = some c := by cases c <;> rfl
@[simp] theorem nmcOf_code (c : NmcOp) : nmcOf c.code = some c := by cases c <;> rfl
@[simp] theorem opClassOf_code (c : OpClass) : opClassOf c.code = c := by cases c <;> rfl
@[simp] theorem blkOf_code (c : BlkLen) : blkOf c.code = some c := by cases c <;> rfl
@[simp] theorem regCountOf_code (c : RegCount) : regCountOf c.code = c := by cases c <;> rfl
@[simp] theorem collOpOf_code (c : CollOp) : collOpOf c.code = some c := by cases c <;> rfl
@[simp] theorem fcondOf_code (c : FCond) : fcondOf c.code = c := by cases c <;> rfl
@[simp] theorem predOpOf_code (c : PredOp) : predOpOf c.code = c := by cases c <;> rfl
@[simp] theorem Fmt.ofCode_code (f : Fmt) : Fmt.ofCode f.code = some f := by cases f <;> rfl

theorem Hint.code_lt (c : Hint) : c.code < 4 := by cases c <;> decide
theorem Policy.code_lt (c : Policy) : c.code < 4 := by cases c <;> decide
theorem AtomOp.code_lt (c : AtomOp) : c.code < 16 := by cases c <;> decide
theorem BlkLen.code_lt (c : BlkLen) : c.code < 4 := by cases c <;> decide
theorem RegCount.code_lt (c : RegCount) : c.code < 4 := by cases c <;> decide
theorem CollOp.code_lt (c : CollOp) : c.code < 4 := by cases c <;> decide
theorem Fmt.code_lt (f : Fmt) : f.code < 32 := by cases f <;> decide

/-! ### Small register files and fields of the immediate word -/

@[simp] theorem narrow?_wideField {n : Nat} (h : n ≤ 64) (x : Fin n) : narrow? n (wideField x) = some x := by
  have hx : x.val % 64 = x.val := Nat.mod_eq_of_lt (Nat.lt_of_lt_of_le x.isLt h)
  simp only [narrow?, wideField, Fin.ofNat, fin?, hx, x.isLt, dite_true, Fin.eta]

theorem braCond_none : braCond 63 = some none := rfl

theorem braCond_wideField (p : PReg) : braCond (wideField p) = some (some p) := by
  have hp : wideField p ≠ 63 := by
    intro h
    have hval := congrArg Fin.val h
    simp only [wideField, Fin.ofNat] at hval
    omega
  rw [braCond, if_neg hp, narrow?_wideField (by decide), Option.map_some]

@[simp] theorem immG_val (x : Word) (lo : Nat) : (immG x lo).val = bitsOf x lo 4 := rfl

@[simp] theorem immFin_val (x : Word) (lo w : Nat) : (immFin x lo w).val = bitsOf x lo w := rfl

@[simp] theorem immBits_eq_iff (x : Word) (lo w : Nat) (v : BitVec w) : immBits x lo w = v ↔ bitsOf x lo w = v.toNat := by
  rw [immBits, ← BitVec.toNat_inj, BitVec.toNat_ofNat, bitsOf, Nat.mod_mod]

@[simp] theorem bitOf_eq_iff (x : Word) (i : Nat) (b : Bool) : bitOf x i = b ↔ bitsOf x i 1 = b.toNat := by
  have h : bitsOf x i 1 < 2 := Nat.mod_lt _ (by decide)
  rw [bitOf]
  cases b
  · rw [beq_eq_false_iff_ne, Bool.toNat_false]
    omega
  · rw [beq_iff_eq, Bool.toNat_true]

@[simp] theorem tOf_val_le (b : Bool) : (tOf b).val ≤ 1 := by cases b <;> decide
@[simp] theorem tOf_val_beq_one (b : Bool) : ((tOf b).val == 1) = b := by cases b <;> rfl
@[simp] theorem tOf2_val_lt (b0 b1 : Bool) : (tOf2 b0 b1).val < 4 := by cases b0 <;> cases b1 <;> decide
@[simp] theorem tOf2_low (b0 b1 : Bool) : ((tOf2 b0 b1).val % 2 == 1) = b0 := by cases b0 <;> cases b1 <;> rfl
@[simp] theorem tOf2_high (b0 b1 : Bool) : ((tOf2 b0 b1).val / 2 == 1) = b1 := by cases b0 <;> cases b1 <;> rfl

/-! ### Fields of an encoded instruction -/

section Mk
variable (m : Mods) (op : Fin 128) (t : Fin 8) (d a b : Fin 64) (imm : Option Nat)

@[simp] theorem Raw.mods_mk' : (Raw.mk' m op t d a b imm).mods = m := rfl
@[simp] theorem Raw.op_mk' : (Raw.mk' m op t d a b imm).op = op := rfl
@[simp] theorem Raw.t_mk' : (Raw.mk' m op t d a b imm).t = t := rfl
@[simp] theorem Raw.d_mk' : (Raw.mk' m op t d a b imm).d = d := rfl
@[simp] theorem Raw.a_mk' : (Raw.mk' m op t d a b imm).a = a := rfl
@[simp] theorem Raw.b_mk' : (Raw.mk' m op t d a b imm).b = b := rfl
@[simp] theorem Raw.imm_mk' : (Raw.mk' m op t d a b imm).imm = imm.map (BitVec.ofNat 32) := rfl
@[simp] theorem Raw.xm_mk' : (Raw.mk' m op t d a b imm).xm = m.xm := rfl

end Mk

theorem selSource_addend (c : PReg) : selSource (some { XM.plain with creg := some (wideField c) }) = some c := by
  simp [selSource, XM.plain]

theorem Mods.xm_of_ok {m : Mods} {p : Accept} (h : m.ok p = true) (hp : p.xm = false) : m.xm = none := by
  cases hx : m.xm with
  | none => rfl
  | some x => simp [Mods.ok, XM.ok, hx, hp] at h

theorem sel_xm {m : Mods} {d a b : VReg} {c : PReg} (h : (Instr.sel m d a b c).modsOk = true) : m.xm = none :=
  Mods.xm_of_ok (p := Accept.two) h rfl

/-! ### The opcode map, block by block (R85)

An instruction whose fields stand in the base word as they are is read back by computation. The others are named: variants are
told apart by their codes, registers of the small files pass `narrow?`, and fields of the immediate word are read by the rules
above, for which the bounds of the codes in it are at hand. -/

section ToRaw
variable {i : Instr} {r : Raw} (hr : i.toRaw = some r)
include hr

theorem control_toRaw (hi : r.op.val < 0x10) : r.control = some i := by
  replace hi := Nat.ble_eq_true_of_le hi
  unfold Raw.control
  cases i with
  | bra m c s h off =>
    cases hr
    have hh := h.code_lt
    cases c <;> simp (disch := omega) [braCond_none, braCond_wideField, -BitVec.ofNat_toNat, -Nat.reducePow]
  | call =>
    cases hr
    simp (disch := omega) [-BitVec.ofNat_toNat, -Nat.reducePow]
  | trap | nap => cases hr; simp
  | brx _ h => cases hr; cases h <;> rfl
  | tret _ k => cases hr; cases k <;> rfl
  | join | leave | waitm | matchKeys => cases hr; simp
  | vote _ f => cases f <;> cases hr <;> simp
  | pmov _ f => cases f <;> cases hr <;> cases hi
  | _ => cases hr <;> cases hi <;> rfl

theorem integer_toRaw (hm : i.modsOk = true) (lo : 0x10 ≤ r.op.val) (hi : r.op.val < 0x30) :
    r.integer = some i := by
  replace lo := Nat.ble_eq_true_of_le lo
  replace hi := Nat.ble_eq_true_of_le hi
  unfold Raw.integer
  cases i with
  | movi | iaddi => cases hr; simp
  | bfe m s d a pos len  =>
    cases hr
    have hs := s.toNat_lt
    simp (disch := omega) [Nat.add_assoc, Fin.ext_iff, -BitVec.ofNat_toNat, -Nat.reducePow]
  | bfi | lea =>
    cases hr
    simp (disch := omega) [Fin.ext_iff, -BitVec.ofNat_toNat, -Nat.reducePow]
  | sel m d a b c =>
    cases hr
    have hxm : m.xm = none := sel_xm hm
    simp [selSource_addend, ← hxm]
  | iadd _ ty | isub _ ty | imul _ ty | imin _ ty | imax _ ty => cases hr; cases ty <;> rfl
  | imulh | imadw | shl | shr | sar | icmp | ncmp | plop => cases hr; simp
  | pmov _ f => cases f <;> cases hr <;> simp
  | vote _ f => cases f <;> cases hr <;> cases lo
  | _ => cases hr <;> cases lo <;> cases hi <;> rfl

theorem float_toRaw (lo : 0x30 ≤ r.op.val) (hi : r.op.val < 0x50) :
    r.float = some i := by
  replace lo := Nat.ble_eq_true_of_le lo
  replace hi := Nat.ble_eq_true_of_le hi
  unfold Raw.float
  cases i with
  | fadd _ f | fsub _ f | fmul _ f | ffma _ f | fmin _ f | fmax _ f => cases hr; cases f <;> rfl
  | frnd _ x => cases hr; cases x <;> rfl
  | fcmp | f2i | i2f | fdp4 | idp4 | idp8 => cases hr; simp
  | cvt m df sf x s e d a =>
    cases hr
    have hdf := df.code_lt
    have hsf := sf.code_lt
    have hx := x.code_lt
    have hs := s.toNat_lt
    simp (disch := omega) [Nat.add_assoc, Fin.ext_iff, -BitVec.ofNat_toNat, -Nat.reducePow]
  | bswz =>
    cases hr
    simp (disch := omega) [-BitVec.ofNat_toNat, -Nat.reducePow]
  | vote _ f | pmov _ f => cases f <;> cases hr <;> cases lo
  | _ => cases hr <;> cases lo <;> cases hi <;> rfl

theorem memory_toRaw (lo : 0x50 ≤ r.op.val) (hi : r.op.val < 0x60) : r.memory = some i := by
  replace lo := Nat.ble_eq_true_of_le lo
  replace hi := Nat.ble_eq_true_of_le hi
  unfold Raw.memory
  cases i with
  | ld m sz p k d a off | st m sz p k a b off =>
    cases hr
    have hp := p.code_lt
    simp (disch := omega) [Nat.add_assoc, Fin.ext_iff, -BitVec.ofNat_toNat, -Nat.reducePow]
  | atom m o k sc op w d a b off | red m o k sc op w a b off => 
    cases hr
    have hop := op.code_lt
    have hw := w.toNat_lt
    simp (disch := omega) [Nat.add_assoc, Fin.ext_iff, -BitVec.ofNat_toNat, -Nat.reducePow]
  | atomc m o k e task d a b off => 
    cases hr
    have he := e.toNat_le
    simp (disch := omega) [he, Nat.add_assoc, Fin.ext_iff, -BitVec.ofNat_toNat, -Nat.reducePow]
  | atomw | waitw | bara | barw | csrr | csrw | fence => 
    cases hr
    simp (disch := omega) [Nat.add_assoc, Fin.ext_iff, -BitVec.ofNat_toNat, -Nat.reducePow]
  | vote _ f | pmov _ f => cases f <;> cases hr <;> cases lo
  | _ => cases hr <;> cases lo <;> cases hi <;> rfl

theorem borrow_toRaw (lo : 0x60 ≤ r.op.val) (hi : r.op.val < 0x70) : r.borrow = some i := by
  replace lo := Nat.ble_eq_true_of_le lo
  replace hi := Nat.ble_eq_true_of_le hi
  unfold Raw.borrow
  cases i with
  | bor | reb | spl | jon | rtn | btst | bqry | bwait => cases hr; simp
  | spawn | spawna | launch | depcSet | depcAdd | depcArrive =>
    cases hr
    simp (disch := omega) [Nat.add_assoc, Fin.ext_iff, -BitVec.ofNat_toNat, -Nat.reducePow]
  | vote _ f | pmov _ f => cases f <;> cases hr <;> cases lo
  | _ => cases hr <;> cases lo <;> cases hi <;> rfl

theorem engine_toRaw (lo : 0x70 ≤ r.op.val) : r.engine = some i := by
  replace lo := Nat.ble_eq_true_of_le lo
  unfold Raw.engine
  cases i with
  | cpy | gath | cwait =>
    cases hr
    simp (disch := omega) [Nat.add_assoc, Fin.ext_iff, -BitVec.ofNat_toNat, -Nat.reducePow]
  | tcpy m dir g a hnd tile bg tag dc tr =>
    cases hr
    have hdc := dc.toNat_lt
    have htr := tr.toNat_lt
    simp (disch := omega) [Nat.add_assoc, Fin.ext_iff, -BitVec.ofNat_toNat, -Nat.reducePow]
  | coll m x o =>
    cases hr
    have ho := o.code_lt
    simp (disch := omega) [Nat.add_assoc, Fin.ext_iff, -BitVec.ofNat_toNat, -Nat.reducePow]
  | nmc m o d s r f a =>
    cases hr
    have hf := f.code_lt
    simp (disch := omega) [Nat.add_assoc, Fin.ext_iff, -BitVec.ofNat_toNat, -Nat.reducePow]
  | trsv m tile af bf blk fills sc soff =>
    cases hr
    have haf := af.code_lt
    have hbf := bf.code_lt
    have hblk := blk.code_lt
    have hsc := sc.toNat_lt
    simp (disch := omega) [Nat.add_assoc, Fin.ext_iff, -BitVec.ofNat_toNat, -Nat.reducePow]
  | mma m zi dec a tile col ck ru =>
    cases hr
    have hru := ru.toNat_lt
    simp (disch := omega) [Nat.add_assoc, Fin.ext_iff, -BitVec.ofNat_toNat, -Nat.reducePow]
  | accrd m f x s d col nr zr =>
    cases hr
    have hf := f.code_lt
    have hx := x.code_lt
    have hs := s.toNat_lt
    have hnr := nr.code_lt
    have hzr := zr.toNat_lt
    simp (disch := omega) [Nat.add_assoc, -BitVec.ofNat_toNat, -Nat.reducePow]
  | accwrReg m f a col nr add =>
    cases hr
    have hf := f.code_lt
    have hnr := nr.code_lt
    have hadd := add.toNat_lt
    simp (disch := omega) [Nat.add_assoc, -BitVec.ofNat_toNat, -Nat.reducePow]
  | accwrTile m tile col row0 add =>
    cases hr
    have hadd := add.toNat_lt
    simp (disch := omega) [Nat.add_assoc, Fin.ext_iff, -BitVec.ofNat_toNat, -Nat.reducePow]
  | cset => cases hr; simp
  | vote _ f | pmov _ f => cases f <;> cases hr <;> cases lo
  | _ => cases hr <;> cases lo <;> rfl

end ToRaw

theorem toInstr_toRaw {i : Instr} {r : Raw} (hr : i.toRaw = some r) (hm : i.modsOk = true) : r.toInstr = some i := by
  rw [Raw.toInstr]
  split_ifs with h1 h2 h3 h4 h5
  · exact control_toRaw hr h1
  · exact integer_toRaw hr hm (Nat.le_of_not_lt h1) h2
  · exact float_toRaw hr (Nat.le_of_not_lt h2) h3
  · exact memory_toRaw hr (Nat.le_of_not_lt h3) h4
  · exact borrow_toRaw hr (Nat.le_of_not_lt h4) h5
  · exact engine_toRaw hr (Nat.le_of_not_lt h5)

/-! ### The fields that the encoder gives have the form of words -/

/-- For each instruction with an encoding, the opcode is not NOP's, an immediate word stands where the opcode is an I-form, and
the instruction then accepts one extension word at most. -/
theorem toRaw_tables (i : Instr) : i.toRaw.all (fun r => r.op != 0 && r.imm.isSome == isIForm r.op &&
    isIForm r.op == i.accept.elim false (·.iform)) = true := by
  cases i with
  | vote _ f => cases f <;> rfl
  | pmov _ f => cases f <;> rfl
  | atom _ _ _ _ op => cases op <;> rfl
  | _ => rfl

theorem toRaw_isSome (i : Instr) : i.toRaw.isSome = i.accept.isSome := by
  cases i with
  | vote _ f => cases f <;> rfl
  | pmov _ f => cases f <;> rfl
  | atom _ _ _ _ op => cases op <;> rfl
  | _ => rfl

/-- The extension words are the instruction's own, but for SEL, whose predicate source stands in an XM word. -/
theorem toRaw_ext {i : Instr} {r : Raw} (hr : i.toRaw = some r) :
    r.xg = i.mods.xg ∧ (i.accept.elim false (·.iform) = true → r.xm = i.mods.xm) := by
  cases i with
  | vote _ f => cases f <;> cases hr <;> exact ⟨rfl, fun _ => rfl⟩
  | pmov _ f => cases f <;> cases hr <;> exact ⟨rfl, fun _ => rfl⟩
  | sel => cases hr; exact ⟨rfl, nofun⟩
  | _ => cases hr <;> exact ⟨rfl, fun _ => rfl⟩

theorem Mods.ok_one_ext {m : Mods} {p : Accept} (h : m.ok p = true) (hp : p.iform = true) : m.xg = none ∨ m.xm = none := by
  simp only [Mods.ok, Bool.and_eq_true, hp, Bool.not_true, Bool.false_or, Bool.or_eq_true, beq_iff_eq] at h
  exact h.2

theorem toRaw_formed {i : Instr} {r : Raw} (hr : i.toRaw = some r) (hm : i.modsOk = true) : r.Formed := by
  have ht := toRaw_tables i
  obtain ⟨hxg, hxm⟩ := toRaw_ext hr
  rw [hr, Option.all_some, Bool.and_eq_true, Bool.and_eq_true, bne_iff_ne, beq_iff_eq, beq_iff_eq] at ht
  obtain ⟨⟨hop, himm⟩, hi⟩ := ht
  refine ⟨hop, himm, fun hf => ?_⟩
  rw [hi] at hf
  rw [hxg, hxm hf]
  rw [Instr.modsOk] at hm
  cases hp : i.accept with
  | none => rw [hp] at hf; cases hf
  | some p =>
    rw [hp] at hf hm
    exact Mods.ok_one_ext hm hf

/-! ### Decoding what was encoded -/

theorem decode_words {i : Instr} {r : Raw} (hr : i.toRaw = some r) (hf : i.fieldsOk = true) (rest : List Word) :
    decode (r.words ++ rest) = some (i, r.words.length) := by
  obtain ⟨hm, -⟩ : i.modsOk = true ∧ i.rangesOk = true := by rwa [← Bool.and_eq_true]
  have hform := toRaw_formed hr hm
  have hraw := rawOf_words r hform rest
  have hlen := instrLen_words r rest hform
  rw [Raw.words_eq, List.cons_append] at hraw hlen ⊢
  simp only [decode, r.base_ne_zero hform.op_ne_zero, if_false, hraw, hlen, toInstr_toRaw hr hm, hf, if_true]

/-- Settles O58: an instruction of the encoder's table is read back by `decode_words`; NOP is its one word. -/
theorem decodeEncode : Obligations.DecodeEncode := by
  intro i rest henc hwf
  rw [Instr.wellFormed, Bool.and_eq_true] at hwf
  obtain ⟨hf, -⟩ := hwf
  by_cases hn : i = .nop
  · subst hn
    rfl
  have hacc : i.toRaw.isSome = true := by
    rw [toRaw_isSome]
    simpa [Instr.encoded, hn] using henc
  obtain ⟨r, hr⟩ := Option.isSome_iff_exists.1 hacc
  have he : encode i = r.words := by rw [encode, if_neg hn, hr]; rfl
  rw [he]
  exact decode_words hr hf rest

/-- Settles O57: the listed words are closed terms, so that the decoder's answers are computed. -/
theorem decodedWords : Obligations.DecodedWords := by
  unfold Obligations.DecodedWords
  decide +kernel

end Sys2Proof

/-! # What the end of a clock leaves of the chain group (O56)

The chain group in progress (R98) belongs to fetch and issue: no operation that the end of a clock is made of changes it. -/

namespace Sys2Proof.Machine

theorem CacheOnly.group_eq {s u : State} (h : CacheOnly s u) : u.group = s.group := by
  rw [h.rest]
  rfl

@[simp] theorem foldl_group {α : Type} {f : State → α → State} (l : List α) (s : State)
    (h : ∀ s a, (f s a).group = s.group) :
    (l.foldl f s).group = s.group := by
  induction l generalizing s with
  | nil => rfl
  | cons a l ih => exact (ih _).trans (h s a)

theorem foldl_fst_group {α β : Type} {f : State × β → α → State × β} (l : List α) (r : State × β)
    (h : ∀ r a, (f r a).1.group = r.1.group) : (l.foldl f r).1.group = r.1.group := by
  induction l generalizing r with
  | nil => rfl
  | cons a l ih => exact (ih _).trans (h r a)

@[simp] theorem ite_group {c : Prop} [Decidable c] (s u : State) : (if c then s else u).group = if c then s.group else u.group :=
  apply_ite State.group c s u

/-! ### Registers, flags and cached lines -/

@[simp] theorem State.release_group (s : State) t rs : (s.release t rs).group = s.group := by
  simp [State.release]

@[simp] theorem State.writeV_group (s : State) t r v : (s.writeV t r v).group = s.group := by
  unfold State.writeV
  repeat' split
  all_goals simp

@[simp] theorem State.writeP_group (s : State) t r b : (s.writeP t r b).group = s.group := by
  simp [State.writeP]

@[simp] theorem State.writeRegs_group (s : State) t ws : (s.writeRegs t ws).group = s.group := by
  refine foldl_group _ _ fun s w => ?_
  cases w <;> simp

@[simp] theorem State.refreshFlags_group (s : State) t : (s.refreshFlags t).group = s.group := by
  simp [State.refreshFlags]

@[simp] theorem State.clearFlags_group (s : State) owner src : (s.clearFlags owner src).group = s.group := by
  simp [State.clearFlags]

@[simp] theorem State.dropFlags_group (s : State) owner : (s.dropFlags owner).group = s.group := by
  simp [State.dropFlags]

@[simp] theorem State.setHomeBytes_group (s : State) h pa bs : (s.setHomeBytes h pa bs).group = s.group :=
  (CacheOnly.setHome s h pa bs).group_eq

@[simp] theorem State.publish_group (s : State) lines : (s.publish lines).group = s.group := by
  simp [State.publish]

@[simp] theorem State.mergeHome_group (s : State) h line data mask poison :
    (s.mergeHome h line data mask poison).group = s.group :=
  (CacheOnly.mergeHome s h line data mask poison).group_eq

@[simp] theorem State.mergeL2_group (s : State) die asid line h data mask poison :
    (s.mergeL2 die asid line h data mask poison).group = s.group :=
  (CacheOnly.mergeL2 s die asid line h data mask poison).group_eq

@[simp] theorem State.readSite_group (s : State) core asid site loc n pol :
    (s.readSite core asid site loc n pol).1.group = s.group :=
  (CacheOnly.readSite s core asid site loc n pol).group_eq

@[simp] theorem State.writeSite_group (s : State) _core asid site loc n v pol :
    (s.writeSite _core asid site loc n v pol).group = s.group := by
  cases loc with
  | bench c off => rfl
  | mem pa h => exact (CacheOnly.writeSite s _core asid site pa h n v pol).group_eq

/-! ### Threads, context errors and discarded work -/

@[simp] theorem State.makeReady_group (s : State) t pc : (s.makeReady t pc).group = s.group := by
  simp [State.makeReady]

@[simp] theorem State.leaveBundle_group (s : State) t : (s.leaveBundle t).group = s.group := by
  simp [State.leaveBundle]

@[simp] theorem State.makeWait_group (s : State) t pc npc w : (s.makeWait t pc npc w).group = s.group := by
  simp [State.makeWait]

@[simp] theorem State.snapTrigger_group (s : State) : s.snapTrigger.group = s.group := by
  simp [State.snapTrigger]

@[simp] theorem State.snapEvent_group (s : State) bit : (s.snapEvent bit).group = s.group := by
  simp [State.snapEvent]

@[simp] theorem State.writeWords_group (s : State) h pa ws : (s.writeWords h pa ws).group = s.group := by
  simp [State.writeWords]

@[simp] theorem State.faultRecord_group (s : State) asid words : (s.faultRecord asid words).group = s.group := by
  unfold State.faultRecord
  repeat' split
  all_goals simp

@[simp] theorem State.contextError_group (s : State) b o sub cause addr info killed :
    (s.contextError b o sub cause addr info killed).group = s.group := by
  simp [State.contextError]

@[simp] theorem State.dropConv_group (s : State) b t m : (s.dropConv b t m).group = s.group := by
  unfold State.dropConv
  split
  · rfl
  · exact foldl_group _ _ fun s o => s.dropFlags_group o

@[simp] theorem State.noteMasks_group (s : State) b t : (s.noteMasks b t).group = s.group := by
  simp [State.noteMasks]

@[simp] theorem State.endThread_group (s : State) t : (s.endThread t).group = s.group := by
  simp [State.endThread]

@[simp] theorem State.freeSlot_group (s : State) core i : (s.freeSlot core i).group = s.group := by
  simp [State.freeSlot]

@[simp] theorem State.discardWork_group (s : State) b t all : (s.discardWork b t all).group = s.group := by
  simp [State.discardWork]

@[simp] theorem State.discardLines_group (s : State) cores die lines :
    (s.discardLines cores die lines).group = s.group := by
  simp [State.discardLines]

@[simp] theorem State.discardDirty_group (s : State) b rs : (s.discardDirty b rs).group = s.group := by
  unfold State.discardDirty
  split
  · rfl
  · refine foldl_group _ _ fun s r => ?_
    split <;> rfl

/-! ### Traps -/

@[simp] theorem State.unqueue_group (s : State) b t p : (s.unqueue b t p).group = s.group := by
  unfold State.unqueue
  repeat' split
  all_goals simp

@[simp] theorem State.endTroop_group (s : State) b t : (s.endTroop b t).group = s.group := by
  unfold State.endTroop
  repeat' split
  all_goals simp

@[simp] theorem State.killTroop_group (s : State) b t o sub cause addr info :
    (s.killTroop b t o sub cause addr info).group = s.group := by
  simp [State.killTroop]

@[simp] theorem State.interrupt_group (s : State) t : (s.interrupt t).group = s.group := by
  unfold State.interrupt
  repeat' split
  all_goals simp

@[simp] theorem State.holdFor_group (s : State) t ev : (s.holdFor t ev).group = s.group := by
  unfold State.holdFor
  repeat' split
  all_goals simp

@[simp] theorem State.enterThread_group (s : State) b t slot ev l :
    (s.enterThread b t slot ev l).group = s.group := by
  unfold State.enterThread
  dsimp only
  split
  · rfl
  · rw [State.makeReady_group, State.modThread_group]
    split
    · rfl
    · exact s.holdFor_group ..

@[simp] theorem State.enterIfClear_group (s : State) b t : (s.enterIfClear b t).group = s.group := by
  unfold State.enterIfClear
  repeat' split
  all_goals simp

@[simp] theorem State.progressTraps_group (s : State) core : (s.progressTraps core).group = s.group := by
  refine (foldl_group _ _ fun s e => s.enterIfClear_group ..).trans (foldl_group _ _ fun s e => ?_)
  repeat' split
  all_goals rfl

@[simp] theorem State.startEvent_group (s : State) b t ev : (s.startEvent b t ev).group = s.group := by
  simp [State.startEvent]

@[simp] theorem State.takeTrap_group (s : State) b t ev : (s.takeTrap b t ev).group = s.group := by
  unfold State.takeTrap
  repeat' split
  all_goals simp

@[simp] theorem State.raiseAll_group (s : State) tpc tnpc hnd rs : (s.raiseAll tpc tnpc hnd rs).group = s.group := by
  simp [State.raiseAll]

@[simp] theorem State.raiseAsync_group (s : State) t cause info addr cf ck op :
    (s.raiseAsync t cause info addr cf ck op).group = s.group := by
  simp [State.raiseAsync]

/-! ### Accesses, ownership and rollback -/

@[simp] theorem State.logLine_group (s : State) band core site h line :
    (s.logLine band core site h line).group = s.group := by
  unfold State.logLine
  repeat' split
  all_goals simp

@[simp] theorem State.logWrite_group (s : State) band core site loc :
    (s.logWrite band core site loc).group = s.group := by
  unfold State.logWrite
  repeat' split
  all_goals simp

@[simp] theorem State.commit_group (s : State) band :
    (s.commit band).group = s.group :=
  foldl_group _ _ fun _ _ => rfl

@[simp] theorem State.atomicAt_group (s : State) band core asid site loc n f :
    (s.atomicAt band core asid site loc n f).1.group = s.group := by
  simp only [State.atomicAt]
  split <;> simp

@[simp] theorem State.performFlight_group (s : State) f : (s.performFlight f).group = s.group := by
  unfold State.performFlight
  repeat' split
  all_goals simp

@[simp] theorem State.acquireLines_group (s : State) t sc : (s.acquireLines t sc).group = s.group :=
  (CacheOnly.acquireLines s t sc).group_eq

@[simp] theorem State.send_group (s : State) home who body : (s.send home who body).group = s.group := by
  simp [State.send]

@[simp] theorem State.releasePieces_group (s : State) who kind fam got :
    (s.releasePieces who kind fam got).group = s.group := by
  simp [State.releasePieces]

@[simp] theorem State.clearTag_group (s : State) tag : (s.clearTag tag).group = s.group := by
  simp [State.clearTag]

@[simp] theorem State.withdraw_group (s : State) tag : (s.withdraw tag).group = s.group := by
  unfold State.withdraw
  repeat' split
  all_goals simp

@[simp] theorem State.restoreStores_group (s : State) b v :
    (s.restoreStores b v).group = s.group :=
  foldl_group _ _ fun _ _ => rfl

@[simp] theorem State.dropZero_group (s : State) b : (s.dropZero b).group = s.group :=
  foldl_group _ _ fun _ _ => rfl

@[simp] theorem State.endBand_group (s : State) b : (s.endBand b).group = s.group := by
  unfold State.endBand
  repeat' split
  all_goals simp

@[simp] theorem State.killBand_group (s : State) b o sub cause : (s.killBand b o sub cause).group = s.group := by
  simp [State.killBand]

@[simp] theorem State.undoLine_group (s : State) cores asid u : (s.undoLine cores asid u).group = s.group := by
  simp [State.undoLine]

@[simp] theorem State.dropPoisoned_group (s : State) cores : (s.dropPoisoned cores).group = s.group := by
  refine (foldl_group _ _ fun s d => ?_).trans (foldl_group _ _ fun s c => ?_) <;> rfl

theorem foldl_mergeHome_group (s : State) (undo : List Undo) (m : BitVec 128) :
    (undo.foldl (fun s u => s.mergeHome u.home u.line u.old m false) s).group = s.group :=
  foldl_group _ _ fun s _ => s.mergeHome_group ..

@[simp] theorem State.undoBorrows_group (s : State) now old undo : (s.undoBorrows now old undo).group = s.group := by
  unfold State.undoBorrows
  extract_lets mine s1 taken rs s2 s3
  have h1 : s1.group = s.group := foldl_group _ _ fun s t => s.withdraw_group t
  have h2 : s2.group = s1.group := foldl_group _ _ fun s r => by
    rw [State.publish_group, State.discardLines_group]
    exact foldl_mergeHome_group _ _ _
  have h3 : s3.group = s2.group := foldl_group _ _ fun s f => by
    split
    · rfl
    · exact State.releasePieces_group ..
  exact h3.trans (h2.trans h1)

@[simp] theorem State.rollBand_group (s : State) b : (s.rollBand b).group = s.group := by
  unfold State.rollBand
  split
  case h_2 => rfl
  rename_i now sh _ _
  extract_lets s1 s2 s3 s4 mine s5 s6 s7
  have h2 : s2.group = s.group := by simp [s2, s1]
  have h3 : s3.group = s2.group := by simp [s3]
  have h4 : s4.group = s3.group := s3.undoBorrows_group ..
  have h7 : s7.group = s4.group := by simp [s7, s6, s5]
  refine (foldl_group _ _ fun s t => ?_).trans (h7.trans (h4.trans (h3.trans h2)))
  repeat' split
  all_goals simp

@[simp] theorem State.rollback_group (s : State) b o sub cause : (s.rollback b o sub cause).group = s.group := by
  simp [State.rollback]

@[simp] theorem State.consumeUe_group (s : State) t : (s.consumeUe t).group = s.group := by
  simp [State.consumeUe]

/-! ### Results that land -/

@[simp] theorem State.landRegs_group (s : State) p ws twin : (s.landRegs p ws twin).group = s.group := by
  unfold State.landRegs
  extract_lets s1 s2 s3
  have h2 : s2.group = s.group := by simp [s2, s1]
  have h3 : s3.group = s2.group := by
    dsimp only [s3]
    repeat' split
    all_goals simp
  rw [State.clearFlags_group, h3, h2]

@[simp] theorem State.landUe_group (s : State) p : (s.landUe p).group = s.group := by
  simp [State.landUe]

@[simp] theorem State.writeRing_group (s : State) asid : (s.writeRing asid).group = s.group := by
  unfold State.writeRing
  split
  · rfl
  · split
    · exact (CacheOnly.setHome ..).group_eq
    · rfl

theorem State.placeContinuation_group {s u : State} {t pc h line va task old tag}
    (h : s.placeContinuation t pc h line va task old tag = some u) : u.group = s.group := by
  unfold State.placeContinuation at h
  split at h
  · cases h
  · dsimp only at h
    split_ifs at h
    · cases h
      rfl
    · cases h
      exact State.writeRing_group ..

@[simp] theorem State.returnSleeper_group (s : State) x reason w : (s.returnSleeper x reason w).group = s.group := by
  unfold State.returnSleeper
  extract_lets s1 s2 s3
  have h3 : s3.group = s.group := by simp [s3, s2, s1]
  split
  · rw [State.makeReady_group, h3]
  · exact h3

@[simp] theorem State.wakeWord_group (s : State) pa w : (s.wakeWord pa w).group = s.group := by
  simp [State.wakeWord]

@[simp] theorem State.landAtomc_group (s : State) p loc va addeq task b c tag d acq :
    (s.landAtomc p loc va addeq task b c tag d acq).group = s.group := by
  unfold State.landAtomc
  extract_lets core asid
  split
  · exact s.landRegs_group ..
  rename_i fin _ pa h
  have hfin (u : State) (st : Nat) : (fin u st).group = u.group := by
    dsimp only [fin]
    split <;> simp
  have h1 := s.readSite_group core asid .home (.mem pa h) 4 .norm
  generalize s.readSite core asid .home (.mem pa h) 4 .norm = x at h1 ⊢
  obtain ⟨s1, o, bad⟩ := x
  dsimp only at h1 ⊢
  split
  · rw [State.landUe_group, h1]
  cases addeq
  all_goals
    simp only [Bool.false_eq_true, if_true, if_false]
    split
    · split
      · rw [hfin, h1]
      next s2 hp => rw [hfin, State.writeSite_group, State.commit_group, State.placeContinuation_group hp, h1]
    · simp [hfin, h1]

@[simp] theorem State.landAtomw_group (s : State) p loc b c d acq :
    (s.landAtomw p loc b c d acq).group = s.group := by
  unfold State.landAtomw
  repeat' split
  all_goals simp

@[simp] theorem State.land_group (s : State) p : (s.land p).group = s.group := by
  unfold State.land
  repeat' split
  all_goals simp

@[simp] theorem State.landBand_group (s : State) b : (s.landBand b).group = s.group := by
  refine foldl_group _ _ fun s i => ?_
  repeat' split
  all_goals simp

/-! ### Votes, barriers and the end of a clock -/

@[simp] theorem State.setConv_group (s : State) b c x : (s.setConv b c x).group = s.group := by
  simp [State.setConv]

@[simp] theorem State.setMembers_group (s : State) t c mask : (s.setMembers t c mask).group = s.group := by
  simp [State.setMembers]

@[simp] theorem State.applyCset_group (s : State) n : (s.applyCset n).group = s.group := by
  unfold State.applyCset
  rw [State.raiseAll_group]
  refine foldl_fst_group _ _ fun r e => ?_
  split <;> simp

@[simp] theorem State.issueRound_group (s : State) v t ck m zi dec a x col ru :
    (s.issueRound v t ck m zi dec a x col ru).group = s.group := by
  unfold State.issueRound
  extract_lets c xm taken members r e s1 s2
  have h2 : s2.group = s.group := by
    dsimp only [s2]
    split
    · exact s.clearFlags_group ..
    · refine (foldl_group _ _ fun s g => ?_).trans (s.clearFlags_group ..)
      exact foldl_group _ _ fun s r => rfl
  exact h2

@[simp] theorem State.exitRound_group (s : State) b ck : (s.exitRound b ck).group = s.group := by
  unfold State.exitRound
  dsimp only
  repeat' split
  all_goals simp

@[simp] theorem State.exitRounds_group (s : State) bs : (s.exitRounds bs).group = s.group := by
  simp [State.exitRounds]

@[simp] theorem State.completeVote_group (s : State) vs : (s.completeVote vs).group = s.group := by
  unfold State.completeVote
  split
  · rfl
  · split
    · refine foldl_group _ _ fun s x => ?_
      dsimp only
      split <;> simp
    · exact foldl_group _ _ fun s p => s.raiseAll_group ..

@[simp] theorem State.examineMask_group (s : State) b t r : (s.examineMask b t r).group = s.group := by
  simp [State.examineMask]

@[simp] theorem State.examineMasks_group (s : State) b t : (s.examineMasks b t).group = s.group := by
  simp [State.examineMasks]

@[simp] theorem State.takeShadow_group (s : State) b arriving : (s.takeShadow b arriving).group = s.group := by
  unfold State.takeShadow
  dsimp only
  repeat' split
  all_goals simp

@[simp] theorem State.barrier_group (s : State) b core off arriving :
    (s.barrier b core off arriving).group = s.group := by
  simp [State.barrier]

@[simp] theorem State.phaseClock_group (s : State) p mine : (s.phaseClock p mine).group = s.group := by
  simp [State.phaseClock]

@[simp] theorem State.applyArrivals_group (s : State) ops : (s.applyArrivals ops).group = s.group := by
  simp [State.applyArrivals]

@[simp] theorem State.wake_group (s : State) t w : (s.wake t w).group = s.group := by
  unfold State.wake
  repeat' split
  all_goals simp

@[simp] theorem State.wakeAll_group (s : State) : s.wakeAll.group = s.group := by
  simp [State.wakeAll]

@[simp] theorem State.examineAll_group (s : State) : s.examineAll.group = s.group := by
  simp [State.examineAll]

@[simp] theorem State.endClock_group (s : State) : s.endClock.group = s.group := by
  unfold State.endClock
  extract_lets s1 s2 s3 s4
  have h2 : s2.group = s1.group := foldl_group _ _ fun s n => s.applyCset_group n
  have h3 : s3.group = s2.group := foldl_group _ _ fun s e => rfl
  have h4 : s4.group = s3.group := by simp [s4]
  rw [State.wakeAll_group]
  exact h4.trans (h3.trans (h2.trans (s.exitRounds_group ..)))

end Sys2Proof.Machine

/-! # A step runs the instruction decoded from the words at the moving bundle's PC (O56)

From the outside in: a move becomes an event or a bundle that issues; the bundle's fetches find the words that stand in memory,
its clause's header among them; and the words decode to what the step executes. -/

namespace Sys2Proof.Machine

/-! ### Words of the code segment -/

/-- A word of code stands at an address for a bundle: a page with X maps it in the first-level TLB of its core, for system
software alone where the page has PRV, and its home holds the word on a line that is not poisoned (R71, R76, R188, R202). -/
def State.WordAt (s : State) (b : Bundle) (va : Nat) (w : Word) : Prop :=
  va < 2 ^ 57 ∧ ∃ e, s.tlb1 b.core b.asid va = some e ∧ e.x = true ∧
    (e.prv = true → ∀ t ∈ b.threads, s.inHandler t = true) ∧
    let pa := e.pa + (va - e.base)
    let h := homeOf e.home.toNat e.die pa
    lineKey h pa ∉ s.poison ∧ BitVec.ofNat 32 (leNat (s.homeBytes h pa 4)) = w

/-- No walk that the current bundle made for a fetch has failed (R189). -/
def State.FetchClear (s : State) : Prop := ∀ b, s.bundle? = some b → ∀ e ∈ b.faults, e.1.use ≠ .fetch

theorem State.FetchClear.walkFailed {s : State} (hs : s.FetchClear) (va : Nat) (sys : Bool) :
    s.walkFailed va .fetch sys = none := by
  unfold State.walkFailed
  cases hb : s.bundle? with
  | none => rfl
  | some b =>
    have h : b.faults.find? (fun e => e.1.va == va && e.1.use == .fetch && e.1.sys == sys) = none := by
      refine List.find?_eq_none.mpr fun e he => ?_
      simp [hs b hb e he]
    simp [h]

theorem useFail_fetch {e : TlbEntry} {sys : Bool} (hx : e.x = true) (hp : e.prv = true → sys = true) :
    useFail e .fetch sys 0 = none := by
  unfold useFail
  cases hprv : e.prv <;> simp_all

theorem State.translate_of_tlb1 {s : State} {core asid va : Nat} {u : Use} {sys : Bool} {e : TlbEntry} (hva : va < 2 ^ 57)
    (hf : s.walkFailed va u sys = none) (he : s.tlb1 core asid va = some e) (hu : useFail e u sys 0 = none) :
    s.translate core asid va u sys = (s, .at (e.loc va)) := by
  unfold State.translate
  rw [if_neg (by omega)]
  simp only [hf, he, hu]

theorem State.fetchWords_of_wordAt {s : State} {b : Bundle} (hs : s.FetchClear) {vas : List Nat} {ws : List Word}
    (h : List.Forall₂ (s.WordAt b) vas ws) : s.fetchWords b.core b.asid (s.bundleSys b) vas = (s, .words ws) := by
  induction h with
  | nil => rfl
  | @cons va w vas ws hw _ ih =>
    obtain ⟨hva, e, he, hx, hprv, hpoison, hword⟩ := hw
    have hu : useFail e .fetch (s.bundleSys b) 0 = none :=
      useFail_fetch hx fun hp => by simpa [State.bundleSys] using hprv hp
    have ht := State.translate_of_tlb1 hva (hs.walkFailed va (s.bundleSys b)) he hu
    rw [State.fetchWords, ht]
    simp only [TlbEntry.loc, TlbEntry.paOf]
    rw [if_neg (by simpa using hpoison), ih]
    simp only [hword]

theorem State.fetchWords_one {s : State} {b : Bundle} (hs : s.FetchClear) {va : Nat} {w : Word} (h : s.WordAt b va w) :
    s.fetchWords b.core b.asid (s.bundleSys b) [va] = (s, .words [w]) :=
  State.fetchWords_of_wordAt hs (.cons h .nil)

theorem opOf_of_headerOf {w : Word} {h : Header} (hw : headerOf w = some h) : opOf w = 0x7F := by
  simp only [headerOf, need] at hw
  split at hw
  next hc =>
    simp only [Bool.and_eq_true, beq_iff_eq] at hc
    obtain ⟨⟨⟨hop, _⟩, _⟩, _⟩ := hc
    exact hop
  · cases hw

/-- The search for a header finds the nearest one, k packets back (R71, R73). -/
theorem State.clauseBase_of_wordAt {s : State} {b : Bundle} (hs : s.FetchClear) {w : Word} (hop : opOf w = 0x7F) (n k : Nat)
    (p : Word) (hk : k < n) (hw : s.WordAt b (codeVa b.cseg (p - BitVec.ofNat 32 k) 0) w)
    (hbefore : ∀ j, j < k → ∃ x, s.WordAt b (codeVa b.cseg (p - BitVec.ofNat 32 j) 0) x ∧ opOf x ≠ 0x7F) :
    s.clauseBase b n p = (s, .ok (some (p - BitVec.ofNat 32 k, w))) := by
  induction n generalizing k p with
  | zero => omega
  | succ n ih =>
    cases k with
    | zero =>
      have hp : p - BitVec.ofNat 32 0 = p := BitVec.sub_zero p
      rw [hp] at hw ⊢
      rw [State.clauseBase, State.fetchWords_one hs hw]
      simp only [hop, if_true]
    | succ k =>
      have hback (j : Nat) : p - BitVec.ofNat 32 (j + 1) = p - 1 - BitVec.ofNat 32 j := by
        rw [BitVec.ofNat_add, BitVec.add_comm, ← BitVec.sub_sub]
        rfl
      obtain ⟨x, hx, hopx⟩ := hbefore 0 k.succ_pos
      have hp : p - BitVec.ofNat 32 0 = p := BitVec.sub_zero p
      rw [hp] at hx
      rw [State.clauseBase, State.fetchWords_one hs hx]
      simp only [hopx, if_false]
      rw [hback] at hw ⊢
      exact ih k (p - 1) (by omega) hw fun j hj => hback j ▸ hbefore (j + 1) (by omega)

/-! ### A bundle in its state -/

theorem State.modBundle_modBundle (s : State) (i : Nat) (b c : Bundle) (hb : b.id = i) :
    (s.modBundle i fun _ => b).modBundle i (fun _ => c) = s.modBundle i fun _ => c := by
  simp only [State.modBundle, modIf, List.map_map, State.mk.injEq, true_and, and_true]
  refine List.map_congr_left fun x _ => ?_
  by_cases hx : x.id = i <;> simp [hx, hb]

/-- A bundle that issues stands in its state as the current one, if at all. -/
theorem State.fetchClear_modBundle {s : State} {b : Bundle} (hf : ∀ e ∈ b.faults, e.1.use ≠ .fetch) :
    (s.modBundle s.cur fun _ => b).FetchClear := by
  intro x hx
  have hx' : (modIf (·.id == s.cur) (fun _ => b) s.bundles).find? (·.id == s.cur) = some x := hx
  have hcur : x.id = s.cur := by simpa using List.find?_some hx'
  have hmem := List.mem_of_find?_eq_some hx'
  simp only [modIf, List.mem_map] at hmem
  obtain ⟨y, -, rfl⟩ := hmem
  split at hcur
  next hy => simpa [hy] using hf
  next hy => simp [hcur] at hy

/-! ### The end of a step -/

theorem State.closeGroup_of_ungrouped {s : State} (h : s.group = none) (chain : Bool) :
    s.closeGroup chain = { s with group := none } := by
  simp [State.closeGroup, h]

theorem State.closeGroup_false_group (s : State) : (s.closeGroup false).group = none := by
  unfold State.closeGroup
  split
  · split
    · split <;> rfl
    · rfl
  · rfl

theorem State.after_closeGroup (s : State) : (s.closeGroup false).after false = s.after false := by
  have h := s.closeGroup_false_group
  unfold State.after
  rw [State.closeGroup_of_ungrouped h]
  generalize s.closeGroup false = u at h
  cases u
  cases h
  rfl

/-- What a step makes of the outcome of an instruction. -/
def endStep (o : Host.Outcome State Fault Refusal) (chain : Bool) : Host.Outcome State Fault Refusal :=
  match o with
  | .next u => .next (u.after chain)
  | .fault r => .fault r
  | .refused r => .refused r

/-- The outcome of a step in which a bundle comes to `f`. -/
def Front.outcome : Front → Host.Outcome State Fault Refusal
  | .run s i => endStep (exec i s) i.mods.chain
  | .stop s => .next (s.after false)

theorem step_of_exec {s t : State} {i : Instr} {chain : Bool} (h : s.todo = .exec t i chain) :
    step s = endStep (exec i t) chain := by
  cases he : exec i t <;> simp [step, endStep, h, he]

theorem step_of_rest {s t : State} (h : s.todo = .rest t) : step s = .next (t.after false) := by
  unfold step
  rw [h]

theorem step_of_todoIssue {s v : State} {b : Bundle} (h : s.todo = v.todoIssue b) :
    step s = ((({ v with cur := b.id, group := v.group.or b.snap } : State).modBundle b.id fun _ =>
      { b with snap := none }).front { b with snap := none }).outcome := by
  unfold State.todoIssue at h
  dsimp only at h
  split at h
  next u i he => rw [step_of_exec h, he]; rfl
  next u he => rw [step_of_rest h, he, State.after_closeGroup]; rfl

/-! ### From the words to the instruction -/

/-- The bundle with the words it issues and the instruction after them. -/
def State.reading (s : State) (b : Bundle) (ws : List Word) : Bundle :=
  { b with
    words := ws.take ((instrLen ws).getD 1)
    npc := (s.modBundle b.id fun _ => b).nextInstr b ((s.modBundle b.id fun _ => b).bundleSys b) 24
      (b.pc.plus ((instrLen ws).getD 1)) }

/-- The outcome of a step in which bundle `b`, as it stands in its clause, issues what `ws` decode to (R72, R87, R98). -/
def State.issueOutcome (s : State) (b : Bundle) (ws : List Word) : Host.Outcome State Fault Refusal :=
  let b1 := s.reading b ws
  let u := s.modBundle b.id fun _ => b1
  let illegal (info : Nat) : Host.Outcome State Fault Refusal :=
    .next ((u.stopTrap b.pc b1.npc b.threads (Fail.plain cIllegal info)).after false)
  match decode ws with
  | some (i, _) =>
    if i.wellFormed then
      endStep (exec i { u with group := u.group.or (if i.mods.chain then some ⟨b.pc, s.bands, s.slots⟩ else none) })
        i.mods.chain
    else illegal 0
  | none => illegal (illegalInfo ws)

/-- The addresses of the words from a bundle's PC to the end of its packet. -/
def Bundle.restVas (b : Bundle) : List Nat :=
  ((List.range 3).filter fun i => b.pc.slot.val ≤ i).map fun i => codeVa b.cseg b.pc.p i

theorem State.frontInstr_outcome {s : State} {b : Bundle} (hid : b.id = s.cur) (hf : ∀ e ∈ b.faults, e.1.use ≠ .fetch)
    {ws : List Word} (hw : List.Forall₂ (s.WordAt b) b.restVas ws) :
    ((s.modBundle b.id fun _ => b).frontInstr b).outcome = s.issueOutcome b ws := by
  have hclear : (s.modBundle b.id fun _ => b).FetchClear := hid ▸ State.fetchClear_modBundle hf
  have hfetch := State.fetchWords_of_wordAt (s := s.modBundle b.id fun _ => b) hclear hw
  have hstate : (s.modBundle b.id fun _ => b).modBundle b.id (fun _ => s.reading b ws) =
      s.modBundle b.id fun _ => s.reading b ws := s.modBundle_modBundle b.id b _ rfl
  have hfront : (s.modBundle b.id fun _ => b).frontInstr b =
      let u := s.modBundle b.id fun _ => s.reading b ws
      match decode ws with
      | some (i, _) =>
        if i.wellFormed then .run { u with
          cur := b.id
          group := u.group.or (if i.mods.chain then some ⟨b.pc, s.bands, s.slots⟩ else none) } i
        else .stop (u.stopTrap b.pc (s.reading b ws).npc b.threads (Fail.plain cIllegal 0))
      | none => .stop (u.stopTrap b.pc (s.reading b ws).npc b.threads (Fail.plain cIllegal (illegalInfo ws))) := by
    rw [← hstate]
    unfold State.frontInstr
    unfold Bundle.restVas at hfetch
    simp only [hfetch]
    cases hg : s.group <;> simp [hg] <;> rfl
  rw [hfront]
  unfold State.issueOutcome
  rw [hid]
  cases decode ws with
  | none => rfl
  | some r =>
    dsimp only
    split <;> rfl

/-! ### Going on inside a clause and entering one -/

theorem toNat_sub_sub_ofNat {k : Nat} (p : Word) (hk : k < 8) : (p - (p - BitVec.ofNat 32 k)).toNat = k := by
  have h : p - (p - BitVec.ofNat 32 k) = BitVec.ofNat 32 k := sub_sub_cancel _ _
  rw [h, BitVec.toNat_ofNat]
  omega

/-- The bundle in the clause of header `h` at packet `p` (R71, R96). -/
def Bundle.inClause (b : Bundle) (p : Word) (h : Header) : Bundle :=
  { b with base := p, next := p + BitVec.ofNat 32 h.len, seta := h.seta, setb := h.setb }

/-- The nearest header before a bundle's PC, or at it, stands k packets back and its clause holds the PC (R71, R73). -/
structure State.HeaderBack (s : State) (b : Bundle) (k : Nat) (w : Word) (h : Header) : Prop where
  near : k < 8
  at_base : s.WordAt b (codeVa b.cseg (b.pc.p - BitVec.ofNat 32 k) 0) w
  header : headerOf w = some h
  holds : k < h.len
  between : ∀ j, j < k → ∃ x, s.WordAt b (codeVa b.cseg (b.pc.p - BitVec.ofNat 32 j) 0) x ∧ opOf x ≠ 0x7F

theorem State.frontInside_outcome {s : State} {b : Bundle} (hid : b.id = s.cur) (hf : ∀ e ∈ b.faults, e.1.use ≠ .fetch)
    {k : Nat} {w : Word} {h : Header} (hh : s.HeaderBack b k w h) {ws : List Word}
    (hw : List.Forall₂ (s.WordAt b) b.restVas ws) :
    ((s.modBundle b.id fun _ => b).frontInside b).outcome =
      s.issueOutcome (b.inClause (b.pc.p - BitVec.ofNat 32 k) h) ws := by
  have hclear : (s.modBundle b.id fun _ => b).FetchClear := hid ▸ State.fetchClear_modBundle hf
  have hbase := State.clauseBase_of_wordAt (s := s.modBundle b.id fun _ => b) hclear (opOf_of_headerOf hh.header) 8 k b.pc.p
    hh.near hh.at_base hh.between
  have hinstr := State.frontInstr_outcome (b := b.inClause (b.pc.p - BitVec.ofNat 32 k) h) hid hf hw
  have hlen : ¬ h.len ≤ (b.pc.p - (b.pc.p - BitVec.ofNat 32 k)).toNat := by
    have := hh.holds
    rw [toNat_sub_sub_ofNat _ hh.near]
    omega
  rw [← hinstr]
  unfold State.frontInside
  simp only [hbase, hh.header, if_neg hlen, State.modBundle_modBundle _ _ _ _ rfl]
  rfl

/-- At slot 0 a bundle goes on inside a clause where no header stands at its PC and none of its threads enters (R75). -/
theorem State.front_outcome_inside {s : State} {b : Bundle} (hid : b.id = s.cur) (hf : ∀ e ∈ b.faults, e.1.use ≠ .fetch)
    {k : Nat} {w : Word} {h : Header} (hh : s.HeaderBack b k w h)
    (hslot : b.pc.slot = 0 → 0 < k ∧ ∀ t ∈ b.threads, ((s.thread? t).map (·.entering)).getD false = false)
    {ws : List Word} (hw : List.Forall₂ (s.WordAt b) b.restVas ws) :
    ((s.modBundle b.id fun _ => b).front b).outcome = s.issueOutcome (b.inClause (b.pc.p - BitVec.ofNat 32 k) h) ws := by
  rw [← State.frontInside_outcome hid hf hh hw]
  have hclear : (s.modBundle b.id fun _ => b).FetchClear := hid ▸ State.fetchClear_modBundle hf
  unfold State.front
  by_cases h0 : b.pc.slot = 0
  · obtain ⟨hk, hnew⟩ := hslot h0
    obtain ⟨x, hx, hop⟩ := hh.between 0 hk
    have hp : b.pc.p - BitVec.ofNat 32 0 = b.pc.p := BitVec.sub_zero _
    rw [hp] at hx
    have hfetch := State.fetchWords_one (s := s.modBundle b.id fun _ => b) hclear hx
    have hnone : (b.threads.filter fun t =>
        (((s.modBundle b.id fun _ => b).thread? t).map (·.entering)).getD false) = [] :=
      List.filter_eq_nil_iff.mpr fun t ht => Bool.eq_false_iff.mp (hnew t ht)
    simp only [h0, ne_eq, not_true, if_false, hfetch, if_neg hop, hnone, List.isEmpty_nil, if_true]
  · rw [if_pos h0]

/-! #### Entering -/

/-- The threads of a bundle have entered their clause (R75). -/
def State.entered (s : State) (ts : List Tid) : State :=
  ts.foldl (fun s t => s.modThread t fun th => { th with entering := false }) s

theorem State.entered_eq (s : State) (ts : List Tid) : s.entered ts = { s with bands := (s.entered ts).bands } := by
  induction ts generalizing s with
  | nil => rfl
  | cons t ts ih => exact ih (s.modThread t _)

theorem State.entered_modBundle (s : State) (ts : List Tid) (i : Nat) (f : Bundle → Bundle) :
    (s.modBundle i f).entered ts = (s.entered ts).modBundle i f := by
  induction ts generalizing s with
  | nil => rfl
  | cons t ts ih => exact ih (s.modThread t _)

theorem State.entered_thread? {α : Type} (g : Thread → α) (hg : ∀ th : Thread, g { th with entering := false } = g th)
    (s : State) (ts : List Tid) (t : Tid) : ((s.entered ts).thread? t).map g = (s.thread? t).map g := by
  induction ts generalizing s with
  | nil => rfl
  | cons u ts ih =>
    refine (ih (s.modThread u _)).trans ?_
    rw [State.thread?_modThread]
    split
    · rw [Option.map_map]
      exact congrArg (fun f => (s.thread? t).map f) (funext hg)
    · rfl

theorem State.entered_flagsSet (s : State) (ts : List Tid) (t : Tid) (mask : BitVec 12) :
    (s.entered ts).flagsSet t mask = s.flagsSet t mask := by
  have h (u : State) : u.flagsSet t mask = ((u.thread? t).map fun th => th.flags &&& mask != 0).getD false := by
    unfold State.flagsSet
    cases u.thread? t <;> rfl
  rw [h, h, State.entered_thread? _ (fun _ => rfl)]

theorem State.entered_inHandler (s : State) (ts : List Tid) (t : Tid) : (s.entered ts).inHandler t = s.inHandler t := by
  unfold State.inHandler
  rw [State.entered_thread? _ (fun _ => rfl)]

theorem State.WordAt.entered {s : State} {b : Bundle} {va : Nat} {w : Word} (h : s.WordAt b va w) (ts : List Tid) :
    (s.entered ts).WordAt b va w := by
  obtain ⟨hva, e, he, hx, hprv, hword⟩ := h
  rw [State.entered_eq]
  refine ⟨hva, e, he, hx, fun hp t ht => ?_, hword⟩
  rw [← State.entered_eq, State.entered_inHandler]
  exact hprv hp t ht

/-- The bundle behind the header of the clause that it has entered (R75, R96). -/
def Bundle.enters (b : Bundle) (h : Header) : Bundle :=
  { b with pc := ⟨b.pc.p, 1⟩, base := b.pc.p, next := b.pc.p + BitVec.ofNat 32 h.len, seta := h.seta, setb := h.setb }

/-- A header stands at the bundle's PC, the clause passes its checks and every thread meets its WAIT (R73 to R75, R93). -/
structure State.CanEnter (s : State) (b : Bundle) (w : Word) (h : Header) : Prop where
  at_pc : s.WordAt b (codeVa b.cseg b.pc.p 0) w
  header : headerOf w = some h
  clause : ∃ all, List.Forall₂ (s.WordAt b) (packetVas b.cseg b.pc.p h.len) all ∧ clauseWordsOk all = true
  wait : ∀ t ∈ b.threads, s.flagsSet t h.wait = false

theorem State.frontClause_outcome {s : State} {b : Bundle} (hid : b.id = s.cur) (hf : ∀ e ∈ b.faults, e.1.use ≠ .fetch)
    {w : Word} {h : Header} (he : s.CanEnter b w h) (hts : b.threads ≠ []) {ws : List Word}
    (hw : List.Forall₂ (s.WordAt (b.enters h)) (b.enters h).restVas ws) :
    ((s.modBundle b.id fun _ => b).frontClause b w).outcome = (s.entered b.threads).issueOutcome (b.enters h) ws := by
  have hclear : (s.modBundle b.id fun _ => b).FetchClear := hid ▸ State.fetchClear_modBundle hf
  obtain ⟨all, hall, hok⟩ := he.clause
  have hfetch := State.fetchWords_of_wordAt (s := s.modBundle b.id fun _ => b) hclear hall
  have hstate := s.entered_modBundle b.threads b.id fun _ => b
  have hflags (t : Tid) (ht : t ∈ b.threads) :
      (((s.entered b.threads).modBundle b.id fun _ => b).flagsSet t h.wait) = false :=
    (s.entered_flagsSet b.threads t h.wait).trans (he.wait t ht)
  have hheld : (b.threads.filter fun t => ((s.entered b.threads).modBundle b.id fun _ => b).flagsSet t h.wait) = [] :=
    List.filter_eq_nil_iff.mpr fun t ht => by simp [hflags t ht]
  have hgo : (b.threads.filter fun t => !((s.entered b.threads).modBundle b.id fun _ => b).flagsSet t h.wait) = b.threads :=
    List.filter_eq_self.mpr fun t ht => by simp [hflags t ht]
  have hcur : (s.entered b.threads).cur = s.cur := by rw [State.entered_eq]
  have hinstr := State.frontInstr_outcome (s := s.entered b.threads) (b := b.enters h) (hid.trans hcur.symm) hf
    (hw.imp fun _ _ hx => hx.entered b.threads)
  rw [← hinstr]
  unfold State.frontClause
  unfold State.entered at hstate hheld hgo ⊢
  simp only [he.header, hfetch, hok, Bool.not_true, Bool.false_eq_true, if_false, hstate, hheld, hgo]
  rw [if_neg (by simpa using hts)]
  exact congrArg (fun u => (State.frontInstr u (b.enters h)).outcome) (State.modBundle_modBundle _ _ _ _ rfl)

/-- A bundle at the header of a clause that it may enter issues the clause's first instruction. -/
theorem State.front_outcome_enter {s : State} {b : Bundle} (hid : b.id = s.cur) (hf : ∀ e ∈ b.faults, e.1.use ≠ .fetch)
    {w : Word} {h : Header} (he : s.CanEnter b w h) (hslot : b.pc.slot = 0) (hts : b.threads ≠ []) {ws : List Word}
    (hw : List.Forall₂ (s.WordAt (b.enters h)) (b.enters h).restVas ws) :
    ((s.modBundle b.id fun _ => b).front b).outcome = (s.entered b.threads).issueOutcome (b.enters h) ws := by
  have hclear : (s.modBundle b.id fun _ => b).FetchClear := hid ▸ State.fetchClear_modBundle hf
  have hfetch := State.fetchWords_one (s := s.modBundle b.id fun _ => b) hclear he.at_pc
  rw [← State.frontClause_outcome hid hf he hts hw]
  unfold State.front
  simp only [hslot, ne_eq, not_true, if_false, hfetch, opOf_of_headerOf he.header, if_true]

/-! ### Moves -/

theorem State.todo_of_agenda {s : State} {m : Move} {rest : List Move} (ha : s.agenda = m :: rest) (hg : s.group = none)
    (hh : s.dev.halted = false) : s.todo = ({ s with agenda := rest } : State).todoOf m := by
  simp [State.todo, ha, hg, hh]

theorem State.todo_of_noAgenda {s : State} (ha : s.agenda = []) (hg : s.group = none) (hh : s.dev.halted = false) :
    s.todo = s.todoOf s.ownMove := by
  simp [State.todo, ha, hg, hh]

theorem State.todo_of_group {s : State} {b : Bundle} {g : GroupSnap} (hg : s.group = some g) (hb : s.bundle? = some b)
    (hh : s.dev.halted = false) : s.todo = s.todoIssue b := by
  simp [State.todo, hg, hb, hh]

theorem State.todoOf_issue {s : State} {b : Bundle} (hb : s.bundles.find? (·.id == b.id) = some b) (hm : s.mayIssue b = true) :
    s.todoOf (.issue b.id) = (s.occupy b).todoIssue b := by
  simp [State.todoOf, hb, hm]

theorem step_of_event {s : State} {i : Instr} {rest : List Move} (ha : s.agenda = .event i :: rest) (hg : s.group = none)
    (hh : s.dev.halted = false) (hi : i.encoded = false) : step s = endStep (exec i { s with agenda := rest }) false :=
  step_of_exec ((State.todo_of_agenda ha hg hh).trans (by simp [State.todoOf, hi]))

theorem step_of_command {s : State} {c : Cmd} {i : Instr} {rest : List Move} (ha : s.agenda = .command c i :: rest)
    (hg : s.group = none) (hh : s.dev.halted = false) (hi : i.encoded = false) :
    step s = endStep (exec i { s with agenda := rest, cmd := c }) false :=
  step_of_exec ((State.todo_of_agenda ha hg hh).trans (by simp [State.todoOf, hi]))

theorem step_of_issue {s : State} {b : Bundle} {rest : List Move}
    (ha : s.agenda = .issue b.id :: rest ∨ (s.agenda = [] ∧ rest = [] ∧ s.ownMove = .issue b.id)) (hg : s.group = none)
    (hh : s.dev.halted = false) (hb : s.bundles.find? (·.id == b.id) = some b)
    (hm : ({ s with agenda := rest } : State).mayIssue b = true) :
    step s = ((({ ({ s with agenda := rest } : State).occupy b with cur := b.id, group := b.snap } : State).modBundle b.id
      fun _ => { b with snap := none }).front { b with snap := none }).outcome := by
  have htodo : s.todo = (({ s with agenda := rest } : State).occupy b).todoIssue b := by
    refine Eq.trans ?_ (State.todoOf_issue hb hm)
    obtain ha | ⟨ha, rfl, hmove⟩ := ha
    · exact State.todo_of_agenda ha hg hh
    · rw [State.todo_of_noAgenda ha hg hh, hmove, ← ha]
  have hgroup : (({ s with agenda := rest } : State).occupy b).group = none := hg
  rw [step_of_todoIssue htodo, hgroup, Option.none_or]

theorem step_of_group {s : State} {b : Bundle} {g : GroupSnap} (hg : s.group = some g) (hb : s.bundle? = some b)
    (hh : s.dev.halted = false) :
    step s = ((s.modBundle b.id fun _ => { b with snap := none }).front { b with snap := none }).outcome := by
  have hcur : b.id = s.cur := by simpa using List.find?_some hb
  have hs : ({ s with cur := b.id, group := s.group.or b.snap } : State) = s := by
    rw [hcur, hg, Option.some_or, ← hg]
  rw [step_of_todoIssue (State.todo_of_group hg hb hh), hs]

/-! ### The passing of clocks -/

theorem State.clockBusy_iff (s : State) :
    s.clockBusy = true ↔ (∃ b ∈ s.bundles, s.mayIssue b = true) ∨ ∃ c ∈ s.busyCores, s.formationDue c = true := by
  simp [State.clockBusy, or_comm]

theorem State.clockBusy_eq_false (s : State) (hbundles : ∀ b ∈ s.bundles, s.mayIssue b = false)
    (hcores : ∀ c ∈ s.busyCores, s.formationDue c = false) : s.clockBusy = false := by
  refine Bool.eq_false_iff.mpr fun hbusy => ?_
  obtain ⟨b, hmem, hm⟩ | ⟨c, hmem, hm⟩ := s.clockBusy_iff.mp hbusy
  · rw [hbundles b hmem] at hm
    cases hm
  · rw [hcores c hmem] at hm
    cases hm

theorem State.after_of_ungrouped {s : State} (h : s.group = none) : s.after false = State.finish { s with group := none } := by
  rw [State.after, State.closeGroup_of_ungrouped h]

theorem State.passClocks_of_busy {s : State} (n : Nat) (h : s.clockBusy = true) : s.passClocks n = s := by
  simp [State.passClocks, h]

theorem State.passClocks_of_idle {s : State} (n : Nat) (h : s.clockBusy = false) :
    s.passClocks n = { s.endClock with clock := s.endClock.clock + 1 + min n s.endClock.idleClocks } := by
  simp [State.passClocks, h]

theorem step_of_tick_busy {s v : State} {n : Nat} (h : s.todo = v.todoOf (.tick n)) (hg : v.group = none)
    (hbusy : v.clockBusy = true) : step s = .next v.finish := by
  have hv : ({ v with group := none } : State) = v := by rw [← hg]
  rw [step_of_rest h, State.passClocks_of_busy n hbusy, State.after_of_ungrouped hg, hv]

theorem step_of_tick_idle {s v : State} {n : Nat} (h : s.todo = v.todoOf (.tick n)) (hg : v.group = none)
    (hidle : v.clockBusy = false) :
    step s = .next (State.finish
      { v.endClock with clock := v.endClock.clock + 1 + min n v.endClock.idleClocks, group := none }) := by
  have hend : ({ v.endClock with clock := v.endClock.clock + 1 + min n v.endClock.idleClocks } : State).group = none :=
    v.endClock_group.trans hg
  rw [step_of_rest h, State.passClocks_of_idle n hidle, State.after_of_ungrouped hend]

/-! ### O56 -/

theorem State.issueOutcome_of_wellFormed {s : State} {b : Bundle} {ws : List Word} {i : Instr} {k : Nat}
    (h : decode ws = some (i, k)) (hi : i.wellFormed = true) :
    s.issueOutcome b ws =
      let u := s.modBundle b.id fun _ => s.reading b ws
      endStep (exec i { u with group := u.group.or (if i.mods.chain then some ⟨b.pc, s.bands, s.slots⟩ else none) })
        i.mods.chain := by
  simp [State.issueOutcome, h, hi]

theorem State.issueOutcome_of_illFormed {s : State} {b : Bundle} {ws : List Word} {i : Instr} {k : Nat}
    (h : decode ws = some (i, k)) (hi : i.wellFormed = false) :
    s.issueOutcome b ws =
      .next (((s.modBundle b.id fun _ => s.reading b ws).stopTrap b.pc (s.reading b ws).npc b.threads
        (Fail.plain cIllegal 0)).after false) := by
  simp [State.issueOutcome, h, hi]

theorem State.issueOutcome_of_undecoded {s : State} {b : Bundle} {ws : List Word} (h : decode ws = none) :
    s.issueOutcome b ws =
      .next (((s.modBundle b.id fun _ => s.reading b ws).stopTrap b.pc (s.reading b ws).npc b.threads
        (Fail.plain cIllegal (illegalInfo ws))).after false) := by
  simp [State.issueOutcome, h]

/-- Settles O56: a step is the outcome of the move that comes next, an issuing bundle's fetch finds the words that stand at its
PC, and the end of a clock leaves the chain group as it is. -/
theorem stepRunsDecoded : Obligations.StepRunsDecoded := by
  unfold Obligations.StepRunsDecoded
  extract_lets close ends reads here runs issues
  have hclose : close = State.closeGroup := by
    funext u chain
    dsimp only [close]
    unfold State.closeGroup
    cases u.group with
    | none => rfl
    | some g =>
      cases u.bundle? with
      | none => rfl
      | some b =>
        dsimp only
        repeat' split
        all_goals rfl
  have hends : ends = endStep := by
    funext o chain
    dsimp only [ends]
    rw [hclose]
    cases o <;> rfl
  have hruns {s b ws out} (h : out = s.issueOutcome b ws) : runs s b ws out := by
    dsimp only [runs]
    rw [hends]
    refine ⟨fun i k hd hi => ?_, fun hd => ?_, fun i k hd hi => ?_⟩
    · exact h.trans (State.issueOutcome_of_wellFormed hd hi)
    · exact h.trans (State.issueOutcome_of_undecoded hd)
    · exact h.trans (State.issueOutcome_of_illFormed hd hi)
  have hissues {s : State} {b : Bundle} {out} (hid : b.id = s.cur)
      (h : out = ((s.modBundle b.id fun _ => b).front b).outcome) : issues s b out := by
    refine fun hf => ⟨fun k w hd ws hk => ?_, fun w hd all ws h0 hts hw hh hall hok hwait => ?_⟩
    · intro p hw hh hlen hbetween hslot hws
      exact hruns (h.trans (State.front_outcome_inside hid hf ⟨hk, hw, hh, hlen, hbetween⟩ hslot hws))
    · intro b1 hws
      exact hruns (h.trans (State.front_outcome_enter hid hf ⟨hw, hh, ⟨all, hall, hok⟩, hwait⟩ h0 hts hws))
  refine ⟨?_, ?_, ?_, ?_, ?_⟩
  · intro s i rest ha hg hh hi
    exact hends ▸ step_of_event ha hg hh hi
  · intro s c i rest ha hg hh hi
    exact hends ▸ step_of_command ha hg hh hi
  · intro s b rest ha hg hh hb v hm
    exact hissues (b := { b with snap := none }) rfl (step_of_issue ha hg hh hb hm)
  · intro s b g hg hb hh
    have hcur : b.id = s.cur := by simpa using List.find?_some hb
    exact hissues (b := { b with snap := none }) hcur (step_of_group (b := b) hg hb hh)
  · intro s n rest ha hg hh v
    refine ⟨fun hbusy => ?_, fun hbundles hcores => ?_⟩
    · exact step_of_tick_busy (State.todo_of_agenda ha hg hh) hg (v.clockBusy_iff.mpr hbusy)
    · exact step_of_tick_idle (State.todo_of_agenda ha hg hh) hg (v.clockBusy_eq_false hbundles hcores)

end Sys2Proof.Machine

/-! # Control transfers, pauses and the end of a nap (O16, O18)

NOP, BRA, BRX, RET and YIELD change nothing but where a thread stands, CALL writes its link, and NAP takes what an interruption left
of it. -/

namespace Sys2Proof.Machine

/-! ### Instructions that only say where a thread goes -/

/-- An instruction without an effect beside its last-reads and its flow completes. -/
theorem completes_flow {i : Instr} {m : Mods} {srcs rel : List VReg} (flow : Bundle → State → State → Tid → Flow)
    (hi : ∀ s b, s.bundle? = some b → exec i s = .next (s.runReads m srcs rel fun v w t => (w, flow b v w t)))
    (hend : ∀ b v w t, (flow b v w t).ends = true) :
    Completes i m srcs rel (fun _ _ _ _ => True) (fun b v w t => (w, flow b v w t)) fun _ => { regs := rel } :=
  completes_plain (fun b v w t => (w, flow b v w t)) hi (fun b v w t _ => ⟨rfl, hend b v w t⟩) (fun _ => Touch.fits ..)
    (fun _ _ h => h) fun _ _ w _ _ => Kept.refl (Touch.fits ..) w

theorem completes_bra (m : Mods) (c : Option PReg) (sense : Bool) (h : Hint) (off : BitVec 24) :
    Completes (.bra m c sense h off) m [] [] (fun _ _ _ _ => True)
      (fun b v w t => (w, .jump (if ∃ p, c = some p ∧ v.readP t p = sense then ⟨b.next, 0⟩ else ⟨b.pc.p + off.signExtend 32, 0⟩)))
      fun _ => {} := by
  refine completes_flow (rel := []) _ (fun s b hb => ?_) fun _ _ _ _ => rfl
  change execBra m c sense h off s = _
  unfold execBra
  rw [curBundle_of s b hb]
  cases c with
  | none => simp [State.runPlain, State.runReads, Bundle.target]
  | some p =>
    dsimp only [State.runPlain, State.runReads]
    congr
    funext v w t
    cases hp : v.readP t p <;> cases sense <;> simp [hp, Bundle.target, Bundle.nextClause]

theorem completes_call (m : Mods) (d : VReg) (off : BitVec 24) :
    Completes (.call m d off) m [] [] (fun _ _ w t => w.alloc t.band t.troop (w.needs t [d]).eraseDups.length = .ok)
      (fun b _ w t => ((w.reserve t [d]).writeV t d b.next, .jump ⟨b.pc.p + off.signExtend 32, 0⟩)) fun _ => { regs := [d] } := by
  have hx : Touch.Fits { regs := [d] } := Touch.fits ..
  apply completes_plain fun b _ w t =>
    match w.take t [d] with
    | .error f => (w, f)
    | .ok w1 => (w1.writeV t d b.next, .jump (b.target off))
  case hi =>
    intro s b hb
    change execCall m d off s = _
    unfold execCall
    rw [curBundle_of s b hb]
    rfl
  case hok =>
    intro b v w t hok
    simp only [State.take_ok w t [d] hok, Bundle.target, Flow.ends, and_self]
  case hx => exact fun _ => hx
  case hrel => exact fun _ _ hr => absurd hr List.not_mem_nil
  case heff =>
    intro b v w t _
    exact (Kept.reserve hx w t [d]).trans hx (Kept.writeV hx _ t d _ (List.mem_singleton_self d))

/-- Settles O16: each transfer is an instruction that only says where its threads go, CALL with a link before. -/
theorem transfersComplete : Obligations.TransfersComplete := by
  unfold Obligations.TransfersComplete
  intro dest
  refine ⟨?_, completes_bra, ?_, ?_, completes_call⟩
  · exact completes_flow (rel := []) (fun _ _ _ _ => .next) (fun _ _ _ => rfl) fun _ _ _ _ => rfl
  · intro m h a
    exact completes_flow _ (fun _ _ _ => rfl) fun _ _ _ _ => rfl
  · intro m a
    exact completes_flow _ (fun _ _ _ => rfl) fun _ _ _ _ => rfl

/-! ### NAP (R113) -/

/-- A band whose threads have no nap left over. -/
def Band.unnapped (x : Band) : Band :=
  { x with troops := x.troops.map fun y => { y with threads := y.threads.map fun th => { th with napLeft := none } } }

/-- The clocks that a NAP still lasts: its count in handler mode, else what an interruption left of it. -/
def State.napCount (w : State) (t : Tid) (n : Nat) : Nat :=
  ((w.thread? t).map fun th => if th.depth then n else th.napLeft.getD n).getD 0

/-- A nap that goes on leaves nothing for the next. -/
def State.takeNap (w : State) (t : Tid) : State := w.modThread t fun th => if th.depth then th else { th with napLeft := none }

theorem Kept.takeNap (w : State) (t : Tid) : Kept { band := Band.unnapped } w (w.takeNap t) := by
  refine Kept.of_thread (Touch.fits ..) w t _ (fun y => ?_) (fun y => ?_) fun x => ?_
  · split <;> rfl
  · split <;> rfl
  · refine Band.erase_modTroop x t.troop _ (fun y => { y with threads := y.threads.map fun th => { th with napLeft := none } }) fun y => ?_
    exact Troop.erase_modThread y t.lane _ (fun th => { th with napLeft := none }) fun th => by split <;> rfl

/-- NAP waits for its count; a count of 0 acts as YIELD. -/
def napFlow (w : State) (n : Nat) : Flow := if n = 0 then .ready else .wait (.nap (w.clock + n))

theorem completes_nap (m : Mods) (n : Word) :
    Completes (.nap m n) m [] [] (fun _ _ w t => (w.thread? t).isSome = true)
      (fun _ _ w t => (w.takeNap t, napFlow w (w.napCount t n.toNat))) fun _ => { band := Band.unnapped } := by
  refine completes_plain (fun _ _ w t => (w.takeNap t, napFlow w (w.napCount t n.toNat))) (fun s b _ => ?_)
    (fun b v w t _ => ⟨rfl, ?_⟩) (fun _ => Touch.fits ..) (fun _ _ hr => absurd hr List.not_mem_nil) fun b v w t _ => Kept.takeNap w t
  · change execNap m n s = _
    unfold execNap State.runPlain State.runReads
    congr
    funext v w t
    unfold State.napCount napFlow
    rw [apply_ite (Prod.mk (w.takeNap t))]
    cases w.thread? t <;> rfl
  · unfold napFlow
    split <;> rfl

theorem exec_napExpire {s : State} {t : Tid} {th : Thread} {u : Nat} (ht : s.thread? t = some th)
    (hw : th.status = .waiting (.nap u)) :
    exec (.napExpire t) s = .next (if u ≤ s.clock then s.makeReady t th.npc else s) := by
  change execNapExpire t s = _
  simp only [execNapExpire, ht, hw]

/-- Settles O18: YIELD only says where its threads go, NAP takes what is left of it, and a nap ends when its clock has come. -/
theorem pausesComplete : Obligations.PausesComplete := by
  unfold Obligations.PausesComplete
  intro naps flow
  refine ⟨fun m => ?_, completes_nap, fun s t th u ht hw => exec_napExpire ht hw⟩
  exact completes_flow (rel := []) (fun _ _ _ _ => .ready) (fun _ _ _ => rfl) fun _ _ _ _ => rfl

end Sys2Proof.Machine

/-! # A collective among more lanes than a mask register has bits (O17)

A register keeps the lanes that have written it in a mask of 64 bits, and is freed once all of these have released it (R64). A thread
of lane 64 would write without a mark, so that the last-read of another member of its collective frees the register with its result.
MembersComplete asks only for distinct lanes, not for lanes below 64, where a member's own mark would keep its register. -/

namespace Sys2Proof.Machine

/-- A member of a ballot on lane 64, whose result goes to v0 and v1. -/
def voterBeyond : Voter := ⟨⟨0, 0, 64⟩, 3, 0, 1, []⟩

/-- A member of the same ballot on lane 0, whose result goes to v2 and v3, and which releases v0. -/
def voterWithin : Voter := ⟨⟨0, 0, 0⟩, 3, 2, 1, [0]⟩

/-- A band whose troop has 65 threads, of which lane 0 alone has written v0. -/
def crowded : State :=
  ({ State.reset with bands := [bootBand 0 0 0] } : State).modTroop 0 0 fun x =>
    { x with names := [(0, { VName.fresh with written := 1 })], threads := List.replicate 65 (Thread.start ⟨1, 0⟩ 0) }

theorem crowded_thread (x : Voter) (hx : x ∈ [voterBeyond, voterWithin]) : (crowded.thread? x.tid).isSome = true := by
  revert x
  decide +kernel

theorem crowded_slotFor (x : Voter) (hx : x ∈ [voterBeyond, voterWithin]) (r : VReg) : crowded.slotFor x.tid r = none := by
  revert x r
  decide +kernel

/-- The ballot has a vote of lane 0, but v0 has been freed when it is over, and reads 0 in lane 64. -/
theorem crowded_ballot : ((crowded.completeVote [voterBeyond, voterWithin]).readV voterBeyond.tid (regAt 0 1) ++
    (crowded.completeVote [voterBeyond, voterWithin]).readV voterBeyond.tid 0).getLsbD 0 = false := by
  decide +kernel

/-- Refutes O17: of two members that complete a ballot, the one on lane 64 loses its result to the last-read of the other. -/
theorem not_membersComplete : ¬ Obligations.MembersComplete := by
  unfold Obligations.MembersComplete
  intro h
  obtain ⟨-, -, -, -, -, -, -, -, hvotes⟩ := h
  obtain ⟨hresults, -⟩ := hvotes crowded 0 0 [voterBeyond, voterWithin] (by decide) (by decide) fun x hx =>
    ⟨crowded_thread x hx, fun r c i h => absurd ((crowded_slotFor x hx r).symm.trans h) (by simp)⟩
  obtain ⟨-, -, hballot, -⟩ := hresults (by decide) voterBeyond List.mem_cons_self
  have hbit := (hballot rfl 0 (by decide)).mpr ⟨voterWithin, by decide, rfl, by decide⟩
  exact absurd (crowded_ballot.symm.trans hbit) (by decide)

end Sys2Proof.Machine

/-! # Traps: taking one, entering the handler and returning from it (O51)

An event is taken by the cases of `State.takeTrap`. Entry changes the event's threads one at a time (`OnlyThreads`), so that the fold
over its lanes leaves each thread as its own entry left it. A thread whose flags are clear is ready wherever it goes on, at the handler
as at its return. -/

namespace Sys2Proof.Machine

/-! ### Raising and taking an event (R297, R301, R302) -/

theorem State.hasHandler_iff (s : State) (b : Nat) :
    s.hasHandler b = true ↔ ∃ x c, s.band? b = some x ∧ s.ctx? x.asid = some c ∧ c.thentry ≠ 0xFFFFFFFF#32 := by
  unfold State.hasHandler
  cases hx : s.band? b with
  | none => simp
  | some x => cases hc : s.ctx? x.asid <;> simp [hc]

theorem exec_trap {s : State} {b : Bundle} (hb : s.bundle? = some b) (m : Mods) (n : Word) :
    exec (.trap m n) s =
      .next (s.finishIssue b ((b.threads.filter fun t => s.view.guardTrue m t).map fun t => ⟨t, 0x12, n, 0⟩) []) := by
  have hrelease (ts : List Tid) : ts.foldl (fun w t => w.release t []) s = s := List.foldl_fixed' (fun _ => rfl) ts
  change Host.Outcome.next (s.runReads m [] [] fun _ w _ => (w, .trap ⟨cSwTrap, n, 0⟩)) = _
  rw [State.runReads_trap hb, hrelease]
  rfl

/-- The threads of one troop that trap with one cause are one event; a COPY_FAULT would load the CF registers (R222). -/
theorem State.raiseAll_of_one {s : State} (tpc tnpc : Pc) (hnd : Word) {rs : List Raised} {b t cause : Nat} (hne : rs ≠ [])
    (hcopy : cause ≠ 0x0B) (hone : ∀ r ∈ rs, r.tid.band = b ∧ r.tid.troop = t ∧ r.cause = cause) :
    s.raiseAll tpc tnpc hnd rs = s.next.takeTrap b t
      ⟨s.fresh, cause, true, tpc, tnpc, rs.map fun r => ⟨r.tid.lane, r.info, r.addr⟩, [], [], none⟩ := by
  have hkeys : (rs.map fun r => (r.tid.band, r.tid.troop, r.cause)).eraseDups = [(b, t, cause)] :=
    eraseDups_eq_singleton (by simpa using hne) fun k hk => by
      obtain ⟨r, hr, rfl⟩ := List.mem_map.mp hk
      obtain ⟨rfl, rfl, rfl⟩ := hone r hr
      rfl
  have hmine : rs.filter (fun r => r.tid.band == b && r.tid.troop == t && r.cause == cause) = rs :=
    List.filter_eq_self.mpr fun r hr => by simp [hone r hr]
  have hcf : (rs.head?.map fun r => preciseCf r hnd).getD [] = [] := by
    cases rs with
    | nil => rfl
    | cons r rs => simp [preciseCf, hone r List.mem_cons_self, hcopy]
  unfold State.raiseAll
  simp only [hkeys, List.foldl_cons, List.foldl_nil, hmine, hcf, if_neg hcopy]

/-- The origin that a record of an event names (R307). -/
def State.eventOrigin (s : State) (b t : Nat) (ev : TrapEvent) : Origin :=
  { s.originTroop b t with lane := ev.lanes.head?.map (·.lane), pc := some ev.tpc }

/-- The troop of an event is killed, with a record of its lowest lane (R301, R302). -/
def State.killEvent (s : State) (b t : Nat) (ev : TrapEvent) (sub : Nat) : State :=
  s.killTroop b t (s.eventOrigin b t ev) sub ev.cause ((ev.lanes.head?.map (·.addr)).getD 0) ((ev.lanes.head?.map (·.info)).getD 0)

/-- The threads of an event wait for its entry (R301). -/
def State.holdAll (s : State) (b t : Nat) (ev : TrapEvent) : State := (ev.tids b t).foldl (fun s u => s.holdFor u ev) s

section TakeTrap

variable {s : State} {b t : Nat} {x : Troop} {ev : TrapEvent}

theorem State.takeTrap_of_noHandler (hx : s.troop? b t = some x) (hh : s.hasHandler b = false) :
    s.takeTrap b t ev = s.killEvent b t ev 3 := by
  simp only [State.takeTrap, hx, hh, Bool.not_false, if_true]
  rfl

theorem State.takeTrap_of_inHandler (hx : s.troop? b t = some x) (hh : s.hasHandler b = true) (hp : ev.precise = true)
    (hin : ∃ u ∈ ev.tids b t, s.inHandler u = true) : s.takeTrap b t ev = s.killEvent b t ev 1 := by
  simp only [State.takeTrap, hx, hh, hp, List.any_eq_true.mpr hin, Bool.not_true, Bool.false_eq_true, if_false, Bool.and_true, if_true]
  rfl

/-- An event that no handler-mode thread keeps from its troop. -/
def State.Enterable (s : State) (b t : Nat) (ev : TrapEvent) : Prop :=
  s.hasHandler b = true ∧ (ev.precise = true → ∀ u ∈ ev.tids b t, s.inHandler u = false)

theorem State.Enterable.notInHandler (h : s.Enterable b t ev) : (ev.precise && (ev.tids b t).any s.inHandler) = false := by
  cases hp : ev.precise with
  | false => rfl
  | true => simpa using h.2 hp

theorem State.takeTrap_of_idle (hx : s.troop? b t = some x) (hev : s.Enterable b t ev) (ha : x.active = none) (hq : x.queue = []) :
    s.takeTrap b t ev = ((s.holdAll b t ev).modTroop b t fun x => { x with active := some ev, entered := false, slot := none }).progressTraps
      (s.coreOf ⟨b, t, 0⟩) := by
  simp only [State.takeTrap, hx, hev.1, hev.notInHandler, ha, hq, State.startEvent, Bool.not_true, Bool.false_eq_true, if_false,
    Option.isNone_none, List.isEmpty_nil, Bool.and_self, if_true]
  rfl

theorem State.takeTrap_of_room (hx : s.troop? b t = some x) (hev : s.Enterable b t ev) (ha : x.active.isSome = true)
    (hq : x.queue.length < 4) :
    s.takeTrap b t ev = (s.holdAll b t ev).modTroop b t fun x => { x with queue := x.queue ++ [ev] } := by
  have hactive : x.active.isNone = false := by simpa [Option.isSome_iff_ne_none] using ha
  simp only [State.takeTrap, hx, hev.1, hev.notInHandler, hactive, hq, Bool.not_true, Bool.false_eq_true, if_false, Bool.false_and,
    if_true]
  rfl

theorem State.takeTrap_of_full (hx : s.troop? b t = some x) (hev : s.Enterable b t ev) (ha : x.active.isSome = true)
    (hq : 4 ≤ x.queue.length) (hp : ev.precise = true) :
    s.takeTrap b t ev = (ev.tids b t).foldl (fun s u => (s.leaveBundle u).makeWait u ev.tpc ev.tpc .trapRoom) s := by
  have hactive : x.active.isNone = false := by simpa [Option.isSome_iff_ne_none] using ha
  simp only [State.takeTrap, hx, hev.1, hev.notInHandler, hactive, Nat.not_lt.mpr hq, Bool.not_true, Bool.false_eq_true, if_false,
    Bool.false_and, if_pos hp]

end TakeTrap

/-! ### Where a thread goes on -/

/-- A thread without a flag set is ready wherever it goes on (R93, R94). -/
theorem State.standing_of_flagsClear {s : State} {t : Tid} (h : s.flagsSet t 0xFFF = false) (pc : Pc) :
    ∃ brd, s.standing t pc = .ready s.clock brd := by
  obtain hready | ⟨k, -, hk, -⟩ := s.standing_cases t pc
  · exact hready
  · unfold State.flagsSet at h hk
    cases hth : s.thread? t with
    | none => simp [hth] at hk
    | some th =>
      simp only [hth, bne_eq_false_iff_eq, bne_iff_ne, ne_eq] at h hk
      have hall : th.flags &&& 0xFFF = th.flags := BitVec.and_allOnes
      rw [← hall, h] at hk
      simp at hk

/-- Between two states only threads of `P` have moved. -/
structure OnlyThreads (P : Tid → Prop) (s u : State) : Prop where
  rest : u = { s with bands := u.bands }
  threads : ∀ v, ¬ P v → u.thread? v = s.thread? v
  troops : ∀ b t, (u.troop? b t).isSome = (s.troop? b t).isSome
  asid : ∀ v, u.asidOf v = s.asidOf v

section OnlyThreads

variable {P : Tid → Prop} {s u w : State}

theorem OnlyThreads.refl (P : Tid → Prop) (s : State) : OnlyThreads P s s := ⟨rfl, fun _ _ => rfl, fun _ _ => rfl, fun _ => rfl⟩

theorem OnlyThreads.trans (h : OnlyThreads P s u) (k : OnlyThreads P u w) : OnlyThreads P s w := by
  refine ⟨?_, fun v hv => (k.threads v hv).trans (h.threads v hv), fun b t => (k.troops b t).trans (h.troops b t),
    fun v => (k.asid v).trans (h.asid v)⟩
  have hrest := k.rest
  rw [h.rest] at hrest
  exact hrest

theorem OnlyThreads.mono {Q : Tid → Prop} (h : OnlyThreads P s u) (hPQ : ∀ v, P v → Q v) : OnlyThreads Q s u :=
  ⟨h.rest, fun v hv => h.threads v fun hP => hv (hPQ v hP), h.troops, h.asid⟩

theorem OnlyThreads.of_modThread (s : State) (t : Tid) (f : Thread → Thread) : OnlyThreads (· = t) s (s.modThread t f) := by
  refine ⟨rfl, fun v hv => by rw [State.thread?_modThread, if_neg hv], fun b i => ?_, fun v => ?_⟩
  · rw [State.modThread, State.troop?_modTroop]
    split
    · exact Option.isSome_map
    · rfl
  · unfold State.asidOf State.modThread State.modTroop
    rw [State.band?_modBand s t.band v.band (fun x => x.modTroop t.troop fun y => y.modThread t.lane f) fun _ => rfl, Option.map_map]
    refine congrArg (fun o => Option.getD o 0) (congrArg (fun f => (s.band? v.band).map f) (funext fun x => ?_))
    dsimp only [Function.comp]
    split <;> rfl

theorem OnlyThreads.clock (h : OnlyThreads P s u) : u.clock = s.clock := by rw [h.rest]

theorem OnlyThreads.slotLane (h : OnlyThreads P s u) (c i r l : Nat) : u.slotLane c i r l = s.slotLane c i r l := by
  rw [h.rest]
  rfl

theorem OnlyThreads.ctxOf (h : OnlyThreads P s u) (v : Tid) : u.ctxOf v = s.ctxOf v := by
  rw [State.ctxOf, h.asid, h.rest]
  rfl

theorem OnlyThreads.flagsSet (h : OnlyThreads P s u) {v : Tid} (hv : ¬ P v) (k : BitVec 12) : u.flagsSet v k = s.flagsSet v k := by
  rw [State.flagsSet, h.threads v hv]
  rfl

theorem OnlyThreads.statusOf (h : OnlyThreads P s u) {v : Tid} (hv : ¬ P v) : u.statusOf v = s.statusOf v := by
  rw [State.statusOf, h.threads v hv]
  rfl

end OnlyThreads

/-! ### Entry to the handler (R299) -/

/-- The trap registers that a thread of an event enters with, which an asynchronous one reaches at `here`. -/
def TrapEvent.regs (ev : TrapEvent) (slot : Nat) (l : TrapLane) (here : Pc) (entering : Bool) : TrapRegs :=
  { async := !ev.precise, slot := slot, cause := ev.cause, addr := l.addr, info := l.info,
    tpc := if ev.precise then ev.tpc else here, tnpc := if ev.precise then ev.tnpc else here,
    cf := ev.cf, ck := ev.ck, op := ev.op, moved := false,
    enter := entering || ev.cause == 0x02, enterN := (entering && !ev.precise) || ev.cause == 0x02 }

/-- A thread in handler mode, with its trap registers loaded, ready at the handler's entry. -/
def Thread.atHandler (th : Thread) (ev : TrapEvent) (slot : Nat) (l : TrapLane) (entry : Word) (status : Status) : Thread :=
  { th with
    depth := true, trap := ev.regs slot l th.pc th.entering, entering := true, pc := ⟨entry, 0⟩, npc := ⟨entry, 0⟩, status := status }

/-- A thread may enter with its event: it has no flag set, and where the event is asynchronous it waits for its entry. -/
def State.MayEnter (s : State) (ev : TrapEvent) (u : Tid) : Prop :=
  s.flagsSet u 0xFFF = false ∧ (ev.precise = true ∨ ∃ n, s.statusOf u = .waiting (.trapEntry n))

/-- THENTRY for a thread. -/
def State.thentryOf (s : State) (u : Tid) : Word := ((s.ctxOf u).map (·.thentry)).getD 0

theorem State.holdFor_of_waiting {s : State} {u : Tid} {n : Nat} (h : s.statusOf u = .waiting (.trapEntry n)) (ev : TrapEvent) :
    s.holdFor u ev = s := by
  simp only [State.holdFor, h]

section Enter

variable {s : State} {b t slot : Nat} {ev : TrapEvent} {l : TrapLane}

theorem State.enterThread_of_exited (h : s.statusOf ⟨b, t, l.lane⟩ = .exited) : s.enterThread b t slot ev l = s := by
  simp only [State.enterThread, h]

theorem State.enterThread_of_mayEnter (h : s.MayEnter ev ⟨b, t, l.lane⟩) (hne : s.statusOf ⟨b, t, l.lane⟩ ≠ .exited) {th : Thread}
    (hth : s.thread? ⟨b, t, l.lane⟩ = some th) :
    s.enterThread b t slot ev l =
      (s.modThread ⟨b, t, l.lane⟩ fun y => { y with depth := true, trap := ev.regs slot l th.pc th.entering, entering := true }).makeReady
        ⟨b, t, l.lane⟩ ⟨s.thentryOf ⟨b, t, l.lane⟩, 0⟩ := by
  have hheld : (if ev.precise = true then s else s.holdFor ⟨b, t, l.lane⟩ ev) = s := by
    split
    · rfl
    · next hp =>
      obtain ⟨n, hn⟩ := h.2.resolve_left hp
      exact State.holdFor_of_waiting hn ev
  cases hst : s.statusOf ⟨b, t, l.lane⟩ with
  | exited => exact absurd hst hne
  | _ =>
    simp only [State.enterThread, hst, hheld, hth, Option.map_some, Option.getD_some]
    rfl

theorem State.onlyThreads_enterThread (h : s.MayEnter ev ⟨b, t, l.lane⟩) :
    OnlyThreads (· = ⟨b, t, l.lane⟩) s (s.enterThread b t slot ev l) := by
  by_cases hex : s.statusOf ⟨b, t, l.lane⟩ = .exited
  · rw [State.enterThread_of_exited hex]
    exact .refl _ s
  · cases hth : s.thread? ⟨b, t, l.lane⟩ with
    | none => exact absurd (by simp [State.statusOf, hth]) hex
    | some th =>
      rw [State.enterThread_of_mayEnter h hex hth, State.makeReady_eq]
      exact (OnlyThreads.of_modThread s _ _).trans (OnlyThreads.of_modThread _ _ _)

theorem State.thread?_enterThread (h : s.MayEnter ev ⟨b, t, l.lane⟩) {th : Thread} (hth : s.thread? ⟨b, t, l.lane⟩ = some th)
    (hne : th.status ≠ .exited) :
    ∃ brd, (s.enterThread b t slot ev l).thread? ⟨b, t, l.lane⟩ =
      some (th.atHandler ev slot l (s.thentryOf ⟨b, t, l.lane⟩) (.ready s.clock brd)) := by
  have hstatus : s.statusOf ⟨b, t, l.lane⟩ ≠ .exited := by simpa [State.statusOf, hth] using hne
  rw [State.enterThread_of_mayEnter h hstatus hth, State.makeReady_eq]
  generalize hw : (s.modThread ⟨b, t, l.lane⟩ fun y =>
    { y with depth := true, trap := ev.regs slot l th.pc th.entering, entering := true }) = w
  have hwth : w.thread? ⟨b, t, l.lane⟩ =
      some { th with depth := true, trap := ev.regs slot l th.pc th.entering, entering := true } := by
    rw [← hw, State.thread?_modThread, if_pos rfl, hth]
    rfl
  have hclear : w.flagsSet ⟨b, t, l.lane⟩ 0xFFF = false := by
    have hs := h.1
    unfold State.flagsSet at hs ⊢
    simpa only [hth, hwth] using hs
  obtain ⟨brd, hbrd⟩ := State.standing_of_flagsClear hclear ⟨s.thentryOf ⟨b, t, l.lane⟩, 0⟩
  refine ⟨brd, ?_⟩
  have hclock : w.clock = s.clock := by rw [← hw, State.modThread_clock]
  rw [State.thread?_modThread, if_pos rfl, hwth, hbrd, hclock]
  rfl

end Enter

/-- The threads of some lanes enter the handler. -/
def State.enterAll (s : State) (b t slot : Nat) (ev : TrapEvent) (ls : List TrapLane) : State :=
  ls.foldl (fun s l => s.enterThread b t slot ev l) s

section EnterAll

variable {b t slot : Nat} {ev : TrapEvent}

theorem lane_ne_of_mem {ls : List TrapLane} {j k : TrapLane} (hk : k.lane ∉ ls.map (·.lane)) (hj : j ∈ ls) : j.lane ≠ k.lane :=
  fun he => hk (List.mem_map.mpr ⟨j, hj, he⟩)

/-- Who may enter still may once another thread has entered. -/
theorem State.mayEnter_enterThread {s : State} {l k : TrapLane} (hl : s.MayEnter ev ⟨b, t, l.lane⟩) (hk : s.MayEnter ev ⟨b, t, k.lane⟩)
    (hne : k.lane ≠ l.lane) : (s.enterThread b t slot ev l).MayEnter ev ⟨b, t, k.lane⟩ := by
  have hother : ¬ (⟨b, t, k.lane⟩ : Tid) = ⟨b, t, l.lane⟩ := by simpa using hne
  have honly := State.onlyThreads_enterThread (slot := slot) hl
  unfold State.MayEnter
  rw [honly.flagsSet hother, honly.statusOf hother]
  exact hk

theorem State.onlyThreads_enterAll {s : State} {ls : List TrapLane} (hnd : (ls.map (·.lane)).Nodup)
    (hmay : ∀ l ∈ ls, s.MayEnter ev ⟨b, t, l.lane⟩) :
    OnlyThreads (fun u => ∃ l ∈ ls, u = ⟨b, t, l.lane⟩) s (s.enterAll b t slot ev ls) := by
  induction ls generalizing s with
  | nil => exact .refl _ s
  | cons l ls ih =>
    rw [List.map_cons, List.nodup_cons] at hnd
    have hfirst := hmay l List.mem_cons_self
    have honly := State.onlyThreads_enterThread (slot := slot) hfirst
    refine (honly.mono fun u hu => ⟨l, List.mem_cons_self, hu⟩).trans ?_
    refine (ih hnd.2 fun k hk => ?_).mono fun u ⟨k, hk, hu⟩ => ⟨k, List.mem_cons_of_mem _ hk, hu⟩
    exact State.mayEnter_enterThread hfirst (hmay k (List.mem_cons_of_mem _ hk)) (lane_ne_of_mem hnd.1 hk)

theorem State.thread?_enterAll {s : State} {ls : List TrapLane} (hnd : (ls.map (·.lane)).Nodup)
    (hmay : ∀ l ∈ ls, s.MayEnter ev ⟨b, t, l.lane⟩) {l : TrapLane} (hl : l ∈ ls) {th : Thread}
    (hth : s.thread? ⟨b, t, l.lane⟩ = some th) (hne : th.status ≠ .exited) :
    ∃ brd, (s.enterAll b t slot ev ls).thread? ⟨b, t, l.lane⟩ =
      some (th.atHandler ev slot l (s.thentryOf ⟨b, t, l.lane⟩) (.ready s.clock brd)) := by
  induction ls generalizing s with
  | nil => exact absurd hl List.not_mem_nil
  | cons k ls ih =>
    rw [List.map_cons, List.nodup_cons] at hnd
    have hfirst := hmay k List.mem_cons_self
    have hrest : ∀ j ∈ ls, (s.enterThread b t slot ev k).MayEnter ev ⟨b, t, j.lane⟩ := fun j hj =>
      State.mayEnter_enterThread hfirst (hmay j (List.mem_cons_of_mem _ hj)) (lane_ne_of_mem hnd.1 hj)
    have honly := State.onlyThreads_enterThread (slot := slot) hfirst
    obtain hlk | hls := List.mem_cons.mp hl
    · subst hlk
      obtain ⟨brd, hbrd⟩ := State.thread?_enterThread (slot := slot) hfirst hth hne
      refine ⟨brd, ((State.onlyThreads_enterAll hnd.2 hrest).threads _ ?_).trans hbrd⟩
      rintro ⟨j, hj, he⟩
      exact lane_ne_of_mem hnd.1 hj (congrArg Tid.lane he).symm
    · have hother : ¬ (⟨b, t, l.lane⟩ : Tid) = ⟨b, t, k.lane⟩ := fun he => lane_ne_of_mem hnd.1 hls (congrArg Tid.lane he)
      obtain ⟨brd, hbrd⟩ := ih hnd.2 hrest hls ((honly.threads _ hother).trans hth)
      refine ⟨brd, hbrd.trans ?_⟩
      rw [honly.clock, State.thentryOf, honly.ctxOf]
      rfl

end EnterAll

/-- A trap slot whose registers are zeroed reads 0 in every lane. -/
theorem State.slotLane_zeroed (s : State) (c i r l : Nat) :
    (s.modSlot c i fun sl => { sl with regs := [], poison := [] }).slotLane c i r l = 0 := by
  unfold State.slotLane
  rw [State.slot?_modSlot s c i c i (fun sl => { sl with regs := [], poison := [] }) fun _ => ⟨rfl, rfl⟩, if_pos ⟨rfl, rfl⟩]
  cases s.slot? c i <;> rfl

section EnterIfClear

variable {s : State} {b t i : Nat} {x : Troop} {ev : TrapEvent}

theorem State.enterIfClear_of_clear (hx : s.troop? b t = some x) (ha : x.active = some ev) (hi : x.slot = some i)
    (he : x.entered = false) (hclear : ∀ u ∈ ev.tids b t, s.flagsSet u 0xFFF = false) :
    s.enterIfClear b t = ((s.modSlot (s.coreOf ⟨b, t, 0⟩) i fun sl => { sl with regs := [], poison := [] }).enterAll b t i ev
      ev.lanes).modTroop b t fun x => { x with entered := true } := by
  have hany : (ev.tids b t).any (fun u => s.flagsSet u 0xFFF) = false := by simpa using hclear
  simp only [State.enterIfClear, hx, ha, hi, he, hany, Bool.or_self, Bool.false_eq_true, if_false]
  rfl

theorem State.thentryOf_eq {y : Band} (hy : s.band? b = some y) (l : Nat) :
    s.thentryOf ⟨b, t, l⟩ = (((s.band? b).bind fun y => s.ctx? y.asid).map (·.thentry)).getD 0 := by
  simp only [State.thentryOf, State.ctxOf, State.asidOf, hy, Option.map_some, Option.getD_some, Option.bind_some]

/-- What an event's entry leaves: its troop knows it, its slot reads 0, and its live threads stand at the handler. -/
theorem State.enterIfClear_enters (hx : s.troop? b t = some x) (ha : x.active = some ev) (hi : x.slot = some i)
    (he : x.entered = false) (hclear : ∀ u ∈ ev.tids b t, s.flagsSet u 0xFFF = false) (hnd : (ev.lanes.map (·.lane)).Nodup)
    (hheld : ev.precise = true ∨ ∀ l ∈ ev.lanes, ∃ n, s.statusOf ⟨b, t, l.lane⟩ = .waiting (.trapEntry n)) :
    ((s.enterIfClear b t).troop? b t).map (·.entered) = some true ∧
    (∀ r l, (s.enterIfClear b t).slotLane (s.coreOf ⟨b, t, 0⟩) i r l = 0) ∧
    ∀ l ∈ ev.lanes, ∀ th, s.thread? ⟨b, t, l.lane⟩ = some th → th.status ≠ .exited → ∃ brd,
      (s.enterIfClear b t).thread? ⟨b, t, l.lane⟩ = some (th.atHandler ev i l (s.thentryOf ⟨b, t, l.lane⟩) (.ready s.clock brd)) := by
  rw [State.enterIfClear_of_clear hx ha hi he hclear]
  generalize hz : (s.modSlot (s.coreOf ⟨b, t, 0⟩) i fun sl => { sl with regs := [], poison := [] }) = z
  have hmay : ∀ l ∈ ev.lanes, z.MayEnter ev ⟨b, t, l.lane⟩ := by
    intro l hl
    subst hz
    exact ⟨hclear _ (List.mem_map_of_mem hl), hheld.imp_right fun h => h l hl⟩
  have honly := State.onlyThreads_enterAll (slot := i) hnd hmay
  refine ⟨?_, fun r l => ?_, fun l hl th hth hne => ?_⟩
  · have hsome := honly.troops b t
    have hztroop : z.troop? b t = some x := by subst hz; exact hx
    rw [hztroop] at hsome
    obtain ⟨y, hy⟩ := Option.isSome_iff_exists.mp hsome
    rw [State.troop?_modTroop, if_pos ⟨rfl, rfl⟩, hy]
    rfl
  · rw [State.slotLane_modTroop, honly.slotLane, ← hz, State.slotLane_zeroed]
  · rw [State.thread?_modTroop _ b t (fun x => { x with entered := true }) fun _ => rfl]
    obtain ⟨brd, hbrd⟩ := State.thread?_enterAll (slot := i) hnd hmay hl (th := th) (by subst hz; exact hth) hne
    refine ⟨brd, hbrd.trans ?_⟩
    subst hz
    rfl

end EnterIfClear

/-! ### Asynchronous traps (R298) -/

section Async

variable {s : State} {id : Nat} {a : AsyncTrap}

/-- A pending asynchronous trap is no longer one. -/
def State.withoutAsync (s : State) (a : AsyncTrap) : State := { s with asyncs := s.asyncs.filter (·.id != a.id) }

/-- The event that an asynchronous trap becomes. -/
def State.asyncEvent (s : State) (a : AsyncTrap) : TrapEvent :=
  ⟨a.id, a.cause, false, s.pcOf a.tid, s.pcOf a.tid, [⟨a.tid.lane, a.info, a.addr⟩], a.cf, a.ck, a.op⟩

theorem State.deliverAsync_of_exited (h : s.statusOf a.tid = .exited) :
    s.deliverAsync a = if a.cause = 0x0F then s.withoutAsync a else (s.withoutAsync a).undelivered a := by
  simp only [State.deliverAsync, h, if_true]
  rfl

theorem State.deliverAsync_of_live (h : s.statusOf a.tid ≠ .exited) :
    s.deliverAsync a = (s.withoutAsync a).takeTrap a.tid.band a.tid.troop (s.asyncEvent a) := by
  simp only [State.deliverAsync, h, if_false]
  rfl

theorem exec_asyncTrapDeliver_of_exited (ha : s.asyncs.find? (·.id == id) = some a) (h : s.statusOf a.tid = .exited) :
    exec (.asyncTrapDeliver id) s = .next (s.deliverAsync a) := by
  change execAsyncTrapDeliver id s = _
  simp only [execAsyncTrapDeliver, ha, h, if_true]

theorem exec_asyncTrapDeliver_of_live (ha : s.asyncs.find? (·.id == id) = some a) (h : s.statusOf a.tid ≠ .exited)
    (hthere : ∃ b, s.band? a.tid.band = some b ∧ b.state = .resident ∧ b.saving = false) (hready : s.asyncReady a = true)
    (hacts : ∀ x ∈ s.pairActs, a.tid ∉ x.tids) (htile : ∀ k, s.statusOf a.tid ≠ .waiting (.tile k)) :
    exec (.asyncTrapDeliver id) s = .next (s.deliverAsync a) := by
  obtain ⟨b, hb, hres, hsav⟩ := hthere
  have hout : (s.pairActs.any fun x => x.tids.contains a.tid) = false := by simpa using hacts
  change execAsyncTrapDeliver id s = _
  simp only [execAsyncTrapDeliver, ha, h, if_false, hb, Option.map_some, Option.getD_some, hres, hsav, hready, hout]
  exact if_pos rfl

end Async

/-! ### TRET (R303 to R305) -/

theorem exec_tret {s : State} {b : Bundle} (hb : s.bundle? = some b) (m : Mods) (k : TretKind)
    (hsm : s.view.smooth b m [] (fun w t => w.inHandler t = true ∧ w.flagsSet t 0xFFF = false) (fun w t => (w.trapReturn t k, .done)) s
      b.threads) :
    exec (.tret m k) s =
      .next ((b.threads.foldl (s.view.turn b m [] fun w t => (w.trapReturn t k, .done)) s).finishIssue b [] []) := by
  refine congrArg Host.Outcome.next (State.runReads_of_smooth (srcs := []) hb (fun w t ⟨hin, hclear⟩ => ?_) hsm)
  simp only [hin, hclear, Bool.not_true, Bool.false_eq_true, if_false, Flow.ends, and_self, and_true]
  exact fun _ hr => absurd hr List.not_mem_nil

/-- A thread in which TRET has ended handler mode, by the trap registers of its trap. -/
def Thread.back (th : Thread) (k : TretKind) (r : TrapRegs) : Thread :=
  { th with
    depth := false, trap := .zero, entering := if k = .skip then r.enterN else r.enter
    napLeft := if r.moved then none else th.napLeft, borWait := if r.moved then none else th.borWait }

/-- A band marked to migrate for a thread's event, with the feature that UNSUPPORTED named (R305). -/
def Band.marked (x : Band) (troop event : Nat) (r : TrapRegs) : Band :=
  { x with mig := true, migEvent := (troop, event), migBit := if r.cause = 0x03 then some r.info.toNat else x.migBit }

/-- The event whose handler a thread runs. -/
def State.eventOf (s : State) (t : Tid) : Nat := (((s.troop? t.band t.troop).bind (·.active)).map (·.id)).getD 0

/-- The state in which a thread has returned, and its event may be over. -/
def State.returned (s : State) (t : Tid) (k : TretKind) (th : Thread) : State :=
  let s1 := (s.returnOp k th.trap.op).modThread t fun y => y.back k th.trap
  if k = .migrate then
    ((s1.modBand t.band fun b => b.marked t.troop (s.eventOf t) th.trap).leaveBundle t).makeWait t th.trap.tpc th.trap.tpc .migrate
  else (s1.leaveBundle t).makeReady t (th.trap.target k)

section Returned

variable {s : State} {t : Tid} {k : TretKind} {th : Thread}

theorem State.trapReturn_eq (hth : s.thread? t = some th) :
    s.trapReturn t k = (s.returned t k th).endEvent t.band t.troop := by
  simp only [State.trapReturn, hth]
  unfold State.returned
  split <;> rfl

theorem State.band?_returnOp (s : State) (k : TretKind) (o : Option Nat) (b : Nat) : (s.returnOp k o).band? b = s.band? b := by
  cases o <;> rfl

theorem State.clock_returnOp (s : State) (k : TretKind) (o : Option Nat) : (s.returnOp k o).clock = s.clock := by
  cases o <;> rfl

theorem State.band?_leaveBundle (s : State) (t : Tid) (b : Nat) : (s.leaveBundle t).band? b = s.band? b := rfl

theorem State.band?_modThread (s : State) (t : Tid) (f : Thread → Thread) :
    (s.modThread t f).band? t.band = (s.band? t.band).map fun x => x.modTroop t.troop fun y => y.modThread t.lane f :=
  s.band?_modBand_self t.band _ fun _ => rfl

/-- A change of a band that leaves its number and its troops leaves every thread. -/
theorem State.thread?_modBand (s : State) (b : Nat) (f : Band → Band) (hid : ∀ x, (f x).id = x.id)
    (htroops : ∀ x, (f x).troops = x.troops) (v : Tid) : (s.modBand b f).thread? v = s.thread? v := by
  unfold State.thread? State.troop?
  rw [State.band?_modBand s b v.band f hid]
  cases s.band? v.band with
  | none => rfl
  | some x =>
    simp only [Option.map_some, Option.bind_some]
    split <;> simp only [htroops]

theorem State.thread?_returned (hth : s.thread? t = some th) (hclear : s.flagsSet t 0xFFF = false) :
    ∃ brd, (s.returned t k th).thread? t = some { th.back k th.trap with
      pc := th.trap.target k, npc := th.trap.target k
      status := if k = .migrate then .waiting .migrate else .ready s.clock brd } := by
  have hop : (s.returnOp k th.trap.op).thread? t = some th := by
    unfold State.thread? State.troop?
    rw [State.band?_returnOp]
    exact hth
  generalize hw : (s.returnOp k th.trap.op).modThread t (fun y => y.back k th.trap) = w
  have hwth : w.thread? t = some (th.back k th.trap) := by
    rw [← hw, State.thread?_modThread, if_pos rfl, hop]
    rfl
  unfold State.returned
  rw [hw]
  split
  · next hk =>
    subst hk
    refine ⟨false, ?_⟩
    rw [State.makeWait, State.thread?_modThread, if_pos rfl]
    change Option.map _ ((w.modBand t.band _).thread? t) = _
    rw [State.thread?_modBand w t.band (fun b => b.marked t.troop (s.eventOf t) th.trap) (fun _ => rfl) fun _ => rfl, hwth]
    rfl
  · have hwclear : (w.leaveBundle t).flagsSet t 0xFFF = false := by
      change w.flagsSet t 0xFFF = false
      unfold State.flagsSet at hclear ⊢
      simpa only [hth, hwth, Thread.back] using hclear
    obtain ⟨brd, hbrd⟩ := State.standing_of_flagsClear hwclear (th.trap.target k)
    have hclock : (w.leaveBundle t).clock = s.clock := by
      subst hw
      exact s.clock_returnOp k th.trap.op
    refine ⟨brd, ?_⟩
    rw [State.makeReady_eq, State.thread?_modThread, if_pos rfl, hbrd, hclock]
    change Option.map _ (w.thread? t) = _
    rw [hwth]
    rfl

/-- TRET resumes the operation that its trap has suspended, or completes it unmoved (R226). -/
theorem State.op?_returned {o : Nat} {x : EngOp} (ho : th.trap.op = some o) (hx : s.op? o = some x) (hs : x.state = .suspended) :
    (s.returned t k th).op? o = some { x with state := if k = .retry then .running else .skipped, xfail := none } := by
  have hid : x.id = o := by simpa using List.find?_some hx
  have hops : (s.returned t k th).ops = (s.returnOp k (some o)).ops := by
    unfold State.returned
    rw [ho]
    split <;> rfl
  have hfind := find?_modIf (fun y => y.id == o) (fun y => y.id == o)
    (fun y : EngOp => if y.state = .suspended then { y with state := if k = .retry then .running else .skipped, xfail := none } else y)
    s.ops fun y => by split <;> rfl
  unfold State.op? at hx ⊢
  rw [hops]
  refine hfind.trans ?_
  rw [hx]
  simp [hid, hs]

theorem State.band?_returned (hk : k = .migrate) {x : Band} (hx : s.band? t.band = some x) :
    ∃ y : Band, (s.returned t k th).band? t.band = some y ∧ y.mig = true ∧
      y.migEvent = (t.troop, s.eventOf t) ∧ y.migBit = if th.trap.cause = 0x03 then some th.trap.info.toNat else x.migBit := by
  unfold State.returned
  rw [if_pos hk, State.makeWait, State.band?_modThread, State.band?_leaveBundle,
    State.band?_modBand_self _ t.band (fun b => b.marked t.troop (s.eventOf t) th.trap) fun _ => rfl, State.band?_modThread,
    State.band?_returnOp, hx]
  exact ⟨_, rfl, rfl, rfl, rfl⟩

end Returned

/-! ### The end of an event (R301, R304) -/

section EndEvent

variable {s : State} {b t : Nat} {x : Troop} {ev : TrapEvent}

theorem State.endEvent_of_running (hx : s.troop? b t = some x) (ha : x.active = some ev)
    (hrun : ∃ u ∈ ev.tids b t, s.inHandler u = true ∧ s.statusOf u ≠ .exited) : s.endEvent b t = s := by
  have hall : (ev.tids b t).all (fun u => !s.inHandler u || s.statusOf u == .exited) = false := by
    obtain ⟨u, hu, hin, hne⟩ := hrun
    exact List.all_eq_false.mpr ⟨u, hu, by simpa [hin] using hne⟩
  simp only [State.endEvent, hx, ha, hall, Bool.and_false, Bool.false_eq_true, if_false]

/-- The trap slot of a troop is free (R300). -/
def State.slotFreed (s : State) (core : Nat) (slot : Option Nat) : State :=
  match slot with
  | some i => s.modSlot core i fun y => { y with owner := none }
  | none => s

/-- A troop whose event is over. -/
def State.eventOver (s : State) (b t : Nat) (x : Troop) : State :=
  (s.slotFreed (s.coreOf ⟨b, t, 0⟩) x.slot).modTroop b t fun x => { x with active := none, entered := false, slot := none }

theorem State.endEvent_of_over (hx : s.troop? b t = some x) (ha : x.active = some ev) (he : x.entered = true)
    (hover : ∀ u ∈ ev.tids b t, s.inHandler u = false ∨ s.statusOf u = .exited) :
    (x.queue = [] → s.endEvent b t = (s.eventOver b t x).progressTraps (s.coreOf ⟨b, t, 0⟩)) ∧
    ∀ e rest, x.queue = e :: rest → s.endEvent b t =
      (((s.eventOver b t x).modTroop b t fun x => { x with queue := rest }).startEvent b t e).progressTraps (s.coreOf ⟨b, t, 0⟩) := by
  have hall : (ev.tids b t).all (fun u => !s.inHandler u || s.statusOf u == .exited) = true := by simpa using hover
  simp only [State.endEvent, hx, ha, he, hall, Bool.and_self, if_true]
  unfold State.eventOver State.slotFreed
  refine ⟨fun hq => ?_, fun e rest hq => ?_⟩
  · rw [hq]
    cases x.slot <;> rfl
  · rw [hq]
    cases x.slot <;> rfl

end EndEvent

/-! ### O51 -/

/-- Settles O51: each clause by the lemma of its part, from TRAP to the end of an event. -/
theorem trapsTaken : Obligations.TrapsTaken := by
  unfold Obligations.TrapsTaken
  intro handler origin addr info tids held
  have hhandler (s : State) (b : Nat) : handler s b ↔ s.hasHandler b = true := (s.hasHandler_iff b).symm
  refine ⟨?_, ?_, ?_, ?_, ?_, ?_, ?_, ?_, ?_⟩
  · exact fun m n s b hb => exec_trap hb m n
  · exact fun s tpc tnpc hnd rs b t cause hne hcopy hone => State.raiseAll_of_one tpc tnpc hnd hne hcopy hone
  · intro s b t x ev hx
    refine ⟨fun hno => ?_, fun hh hp hin => ?_, fun hh hfree => ?_⟩
    · exact State.takeTrap_of_noHandler hx (Bool.eq_false_iff.mpr fun h => hno ((hhandler s b).mpr h))
    · exact State.takeTrap_of_inHandler hx ((hhandler s b).mp hh) hp hin
    · have hev : s.Enterable b t ev := ⟨(hhandler s b).mp hh, hfree⟩
      exact ⟨State.takeTrap_of_idle hx hev, State.takeTrap_of_room hx hev, State.takeTrap_of_full hx hev⟩
  · exact fun s core => rfl
  · intro s b t x ev i hx ha hi he hclear hnd entry hheld
    obtain ⟨hentered, hslot, hthreads⟩ := State.enterIfClear_enters hx ha hi he hclear hnd hheld
    refine ⟨hentered, hslot, fun l hl th hth hne => ?_⟩
    obtain ⟨brd, hbrd⟩ := hthreads l hl th hth hne
    obtain ⟨y, hy, -⟩ := Option.bind_eq_some_iff.mp hx
    rw [State.thentryOf_eq hy] at hbrd
    exact ⟨_, brd, hbrd, rfl, rfl, rfl, rfl, rfl, rfl, rfl, rfl, rfl, rfl, rfl, rfl, rfl, rfl, rfl⟩
  · intro s id a ha s1
    refine ⟨fun hex hc => ?_, fun hex hc => ?_, fun hne hthere hready hacts htile => ?_⟩
    · rw [exec_asyncTrapDeliver_of_exited ha hex, State.deliverAsync_of_exited hex, if_neg hc]
      rfl
    · rw [exec_asyncTrapDeliver_of_exited ha hex, State.deliverAsync_of_exited hex, if_pos hc]
      rfl
    · rw [exec_asyncTrapDeliver_of_live ha hne hthere hready hacts htile, State.deliverAsync_of_live hne]
      rfl
  · exact fun m k s b hb hsm => exec_tret hb m k hsm
  · intro s t k th hth hclear
    obtain ⟨brd, hback⟩ := State.thread?_returned (k := k) hth hclear
    refine ⟨s.returned t k th, brd, State.trapReturn_eq hth, hback, ⟨rfl, rfl, rfl⟩,
      fun o x ho hx hs => State.op?_returned ho hx hs, fun hk x hx => ?_⟩
    obtain ⟨y, hy, hmig, hevent, hbit⟩ := State.band?_returned (th := th) hk hx
    refine ⟨y, hy, hmig, fun z ev hz hev => ?_, hbit⟩
    rw [hevent, State.eventOf, hz, Option.bind_some, hev]
    rfl
  · intro s b t x ev hx ha
    refine ⟨State.endEvent_of_running hx ha, fun he hover => ?_⟩
    exact State.endEvent_of_over hx ha he hover

end Sys2Proof.Machine

/-! # The end of work: EXIT, the retirement of troops, bands and grids (O52)

Each retirement gives up what is in progress, returns what it holds, and ends when nothing is left. The lemmas say, per stage, which
state the model answers. -/

namespace Sys2Proof.Machine

/-! ### EXIT (R112) -/

theorem exec_exit {s : State} {b : Bundle} (hb : s.bundle? = some b) (m : Mods)
    (hsm : s.view.smooth b m [] (fun w t => w.flagsSet t 0xFFF = false ∧ w.twinOf t = none) (fun w t => (w.exitThread t, .done)) s
      b.threads) :
    exec (.exit m) s =
      let u := (b.threads.foldl (s.view.turn b m [] fun w t => (w.exitThread t, .done)) s).finishIssue b [] []
      .next { u with now := { u.now with exits := u.now.exits ++ (b.threads.map fun t => s.unit t.band).flatten.eraseDups } } := by
  have hturns := Run.fold_smooth s.view b m [] [] (fun _ _ _ => some ⟨[], [], []⟩) (fun w u => w.exitThread u)
    (fun _ w t => if w.flagsSet t 0xFFF then (w, .again (.flags 0xFFF)) else (w.exitThread t, .done)) _
    (fun w t => (w.exitThread t, .done))
    (fun w t ⟨hclear, htwin⟩ => ⟨fun _ hr => absurd hr List.not_mem_nil, by rw [hclear]; rfl, rfl, Or.inr htwin⟩)
    b.threads ⟨s, [], [], [], []⟩ hsm
  change execExit m s = _
  unfold execExit
  rw [curBundle_of s b hb, State.runThreads_eq s b hb, hturns]
  rfl

/-! ### The end of a thread (R64, R107) -/

theorem Troop.releaseAll_threads (x : Troop) (l : Nat) : (x.releaseAll l).threads = x.threads :=
  foldl_keeps (P := fun y : Troop => y.threads = x.threads) (fun y _ hy => (y.releaseName_threads _ l).trans hy) _ rfl

theorem Troop.releaseName_masks (x : Troop) (r : VReg) (l : Nat) : (x.releaseName r l).masks = x.masks :=
  show (x.releaseName r l).bare.masks = x.bare.masks from congrArg Troop.masks (x.releaseName_bare r l)

theorem Troop.releaseAll_masks (x : Troop) (l : Nat) : (x.releaseAll l).masks = x.masks :=
  foldl_keeps (P := fun y : Troop => y.masks = x.masks) (fun y _ hy => (y.releaseName_masks _ l).trans hy) _ rfl

theorem look_of_not_mem {α : Type} (d : α) {k : Nat} {l : List (Nat × α)} (h : k ∉ l.map (·.1)) : look d k l = d := by
  induction l with
  | nil => rfl
  | cons e l ih =>
    rw [List.map_cons, List.mem_cons, not_or] at h
    obtain ⟨a, v⟩ := e
    rw [look, if_neg (Ne.symm h.1), ih h.2]

/-- A pass over a table that writes each entry changed, at its own key. -/
theorem look_foldl_put {α : Type} [DecidableEq α] (d : α) (f : α → α) {l : List (Nat × α)} (hnd : (l.map (·.1)).Nodup)
    (acc : List (Nat × α)) (k : Nat) :
    look d k (l.foldl (fun m e => put d e.1 (f e.2) m) acc) = if k ∈ l.map (·.1) then f (look d k l) else look d k acc := by
  induction l generalizing acc with
  | nil => rfl
  | cons e l ih =>
    obtain ⟨a, v⟩ := e
    rw [List.map_cons, List.nodup_cons] at hnd
    rw [List.foldl_cons, ih hnd.2, look_put, List.map_cons]
    by_cases hk : k = a
    · subst hk
      rw [if_neg hnd.1, if_pos rfl, if_pos List.mem_cons_self, look, if_pos rfl]
    · simp only [List.mem_cons, hk, false_or, if_false, look, if_neg (Ne.symm hk)]

/-- A mask register after the pass of EXIT over the masks of a troop. -/
theorem look_clearLane {ms : List (Nat × BitVec 64)} (hnd : (ms.map (·.1)).Nodup) (lane k : Nat) :
    look 0 k (ms.foldl (fun ms e => put 0 e.1 (setBit64 e.2 lane false) ms) ms) = setBit64 (look 0 k ms) lane false := by
  rw [look_foldl_put 0 (fun x => setBit64 x lane false) hnd]
  split
  · rfl
  · next hk =>
    rw [look_of_not_mem 0 hk]
    simp [setBit64]

theorem State.troop?_noteMasks (s : State) (b t c u : Nat) : (s.noteMasks b t).troop? c u = s.troop? c u := by
  unfold State.noteMasks
  split <;> rfl

/-- A troop from which a lane has exited. -/
def Troop.exited (x : Troop) (lane : Nat) : Troop :=
  let x1 := x.releaseAll lane
  ({ x1 with masks := x1.masks.foldl (fun ms e => put 0 e.1 (setBit64 e.2 lane false) ms) x1.masks } : Troop).modThread lane fun th =>
    { th with status := .exited }

theorem State.troop?_endThread (s : State) (t : Tid) {x : Troop} (hx : s.troop? t.band t.troop = some x) :
    (s.endThread t).troop? t.band t.troop = some (x.exited t.lane) := by
  unfold State.endThread
  rw [State.modThread, State.troop?_modTroop, if_pos ⟨rfl, rfl⟩, State.troop?_modTroop, if_pos ⟨rfl, rfl⟩]
  change Option.map _ (Option.map _ ((s.noteMasks t.band t.troop).troop? t.band t.troop)) = _
  rw [State.troop?_noteMasks, hx]
  rfl

theorem State.bundles_endThread (s : State) (t : Tid) : (s.endThread t).bundles.all (fun b => !b.threads.contains t) = true := by
  change ((s.noteMasks t.band t.troop).leaveBundle t).bundles.all (fun b => !b.threads.contains t) = true
  simp only [State.leaveBundle, List.all_eq_true, List.mem_filter, List.mem_map]
  rintro b ⟨⟨y, -, rfl⟩, -⟩
  simp

section Exited

variable (x : Troop) (lane : Nat)

theorem Troop.exited_names : (x.exited lane).names = (x.releaseAll lane).names := rfl

theorem Troop.exited_thread (l : Nat) :
    (x.exited lane).threads[l]? = if l = lane then (x.threads[l]?).map fun th => { th with status := .exited } else x.threads[l]? := by
  change (modAt (x.releaseAll lane).threads lane _)[l]? = _
  rw [getElem?_modAt, Troop.releaseAll_threads]

theorem Troop.exited_mask (hnd : (x.masks.map (·.1)).Nodup) (k : Nat) :
    look 0 k (x.exited lane).masks = setBit64 (look 0 k x.masks) lane false := by
  change look 0 k ((x.releaseAll lane).masks.foldl _ (x.releaseAll lane).masks) = _
  rw [Troop.releaseAll_masks]
  exact look_clearLane hnd lane k

end Exited

/-! ### Troops (R323, R324) -/

section Troops

variable {s : State} {b t : Nat}

theorem State.troopOver_iff : s.troopOver b t = true ↔
    ∃ x, s.troop? b t = some x ∧ x.retired = false ∧ ∀ th ∈ x.threads, th.status = .exited := by
  unfold State.troopOver
  cases s.troop? b t with
  | none => simp
  | some x => simp

/-- Nothing of a troop is in progress any more. -/
theorem State.troopDrained_iff : s.troopDrained b t = true ↔
    (∀ o ∈ s.ops, (o.tid.band == b && o.tid.troop == t) = false) ∧ (∀ p ∈ s.pending, (p.tid.band == b && p.tid.troop == t) = false) ∧
      ∀ a ∈ s.flights, (a.tid.band == b && a.tid.troop == t) = false := by
  simp [State.troopDrained, and_assoc]

theorem exec_troopRetire (h : s.troopOver b t = true) : exec (.troopRetire b t) s = .next (s.retireTroop b t) := by
  change execTroopRetire b t s = _
  rw [execTroopRetire, if_pos h]

/-- The returns of a troop as far as they go once its work has drained. -/
def State.troopReturned (f : State) (b t : Nat) : State :=
  f.returnUnit ⟨b, t, 0⟩ troopRegs (((f.troop? b t).map (·.killed)).getD false)

theorem State.retireTroop_of_busy (h : (s.flushTroop b t).troopDrained b t = false) : s.retireTroop b t = s.flushTroop b t := by
  simp only [State.retireTroop, h, Bool.not_false, if_true]

theorem State.retireTroop_of_returning (h : (s.flushTroop b t).troopDrained b t = true)
    (hr : ((s.flushTroop b t).troopReturned b t).returnsOver ⟨b, t, 0⟩ troopRegs = false) :
    s.retireTroop b t = (s.flushTroop b t).troopReturned b t := by
  unfold State.troopReturned at hr ⊢
  simp only [State.retireTroop, h, hr, Bool.not_true, Bool.false_eq_true, if_false, Bool.false_and]

/-- The trap slot of a troop is free, and the troop has retired. -/
def State.troopRetired (r : State) (b t : Nat) (slot : Option Nat) : State :=
  (r.slotFreed (r.coreOf ⟨b, t, 0⟩) slot).modTroop b t fun x =>
    { x with retired := true, names := [], slot := none, active := none, queue := [] }

theorem State.retireTroop_of_returned (h : (s.flushTroop b t).troopDrained b t = true)
    (hr : ((s.flushTroop b t).troopReturned b t).returnsOver ⟨b, t, 0⟩ troopRegs = true)
    (ho : ((s.flushTroop b t).troopReturned b t).troopOver b t = true) {y : Troop}
    (hy : ((s.flushTroop b t).troopReturned b t).troop? b t = some y) :
    s.retireTroop b t = (((s.flushTroop b t).troopReturned b t).troopRetired b t y.slot).progressTraps
      (((s.flushTroop b t).troopReturned b t).coreOf ⟨b, t, 0⟩) := by
  unfold State.troopReturned at hr ho hy ⊢
  simp only [State.retireTroop, h, hr, ho, hy, Bool.not_true, Bool.false_eq_true, if_false, Bool.and_self, if_true, Option.bind_some]
  unfold State.troopRetired State.slotFreed
  cases y.slot <;> rfl

theorem State.troop?_slotFreed (r : State) (core : Nat) (slot : Option Nat) : (r.slotFreed core slot).troop? b t = r.troop? b t := by
  cases slot <;> rfl

theorem State.troop?_troopRetired {r : State} {slot : Option Nat} {y : Troop} (hy : r.troop? b t = some y) :
    (r.troopRetired b t slot).troop? b t =
      some { y with retired := true, names := [], slot := none, active := none, queue := [] } := by
  rw [State.troopRetired, State.troop?_modTroop, if_pos ⟨rfl, rfl⟩, State.troop?_slotFreed, hy]
  rfl

theorem State.slots_troopRetired (r : State) {i : Nat} {sl : TrapSlot} (hsl : sl ∈ (r.troopRetired b t (some i)).slots)
    (hcore : sl.core = r.coreOf ⟨b, t, 0⟩) (hi : sl.idx = i) : sl.owner = none := by
  change sl ∈ modIf _ _ r.slots at hsl
  obtain ⟨y, -, rfl⟩ := List.mem_map.mp hsl
  by_cases hy : (y.core == r.coreOf ⟨b, t, 0⟩ && y.idx == i) = true
  · rw [if_pos hy]
  · rw [if_neg hy] at hcore hi
    exact absurd (by simp [hcore, hi]) hy

end Troops

/-! ### Implicit returns (R324) -/

section Returns

variable {s : State} {t : Tid} {g : GReg}

theorem State.returnOne_of_asked (k : Bool) (h : (s.regT t g).state = .pending ∨ (s.regT t g).state = .refused) :
    s.returnOne t g k = s.emptyReg t g := by
  obtain h | h := h <;> simp only [State.returnOne, h]

theorem State.returnOne_of_free (k : Bool) (h : (s.regT t g).state = .held) (hk : (s.regT t g).kids = []) (htwin : s.twinOf t = none) :
    s.returnOne t g k = if (s.regT t g).top && (s.regT t g).space != .bench then (s.commit t.band).startReturn t g true
      else s.startReturn t g true := by
  simp only [State.returnOne, h, hk, htwin, List.isEmpty_nil, Bool.not_true, Bool.false_eq_true, if_false]

theorem State.returnOne_of_carved (k : Bool) (h : (s.regT t g).state = .held) (hk : (s.regT t g).kids ≠ []) :
    s.returnOne t g k = s := by
  have hne : (s.regT t g).kids.isEmpty = false := by simpa using hk
  simp only [State.returnOne, h, hne, Bool.not_false, if_true]

end Returns

/-! ### Bands (R325, R326) -/

section Bands

variable {s : State} {b : Nat} {x : Band}

/-- The returns of a band as far as they go. -/
def State.bandReturned (s : State) (b : Nat) (x : Band) : State := s.returnUnit ⟨b, 0, 0⟩ bandRegs x.killed

theorem exec_bandRetire_of_placed (hx : s.band? b = some x) (hst : x.state = .resident ∨ x.state = .saved) (hne : x.troops ≠ [])
    (hall : ∀ y ∈ x.troops, y.retired = true) : exec (.bandRetire b) s = .next (s.retireBand b) := by
  have hover : x.troopsOver = true := by simpa [Band.troopsOver, hne] using hall
  change execBandRetire b s = _
  obtain hst | hst := hst <;> simp only [execBandRetire, hx, hst, hover, if_true]

theorem exec_bandRetire_of_draining (hx : s.band? b = some x) (hst : x.state = .draining) (hkids : s.kidsOf b = []) :
    exec (.bandRetire b) s = .next (s.lastStep b) := by
  change execBandRetire b s = _
  simp only [execBandRetire, hx, hst, hkids, List.isEmpty_nil, if_true]

theorem State.retireBand_of_returning (hx : s.band? b = some x)
    (hr : (s.bandReturned b x).returnsOver ⟨b, 0, 0⟩ bandRegs = false) : s.retireBand b = s.bandReturned b x := by
  unfold State.bandReturned at hr ⊢
  simp only [State.retireBand, hx, hr, Bool.false_eq_true, if_false]

/-- A band has given up its shadow and what it holds. -/
def State.bandReleased (r : State) (b : Nat) (x : Band) : State :=
  (({ r with shadows := r.shadows.filter fun h => h.band.id != b } : State).dropZero x).modBand b Band.released

theorem State.retireBand_of_returned (hx : s.band? b = some x)
    (hr : (s.bandReturned b x).returnsOver ⟨b, 0, 0⟩ bandRegs = true) :
    s.retireBand b = (((s.bandReturned b x).bandReleased b x).leaveCores x.asid x.cores).lastStep b := by
  unfold State.bandReturned at hr ⊢
  simp only [State.retireBand, hx, hr, if_true]
  rfl

theorem State.dropZero_rest (s : State) (x : Band) : s.dropZero x = { s with cores := (s.dropZero x).cores } :=
  foldl_keeps (P := fun w : State => w = { s with cores := w.cores })
    (fun w e hw => by rw [hw]; rfl) _ rfl

theorem State.shadows_bandReleased (r : State) (h : Shadow) (hh : h ∈ (r.bandReleased b x).shadows) : h.band.id ≠ b := by
  rw [State.bandReleased, State.modBand_shadows, State.dropZero_rest] at hh
  simpa using (List.mem_filter.mp hh).2

theorem State.band?_bandReleased {r : State} {y : Band} (hy : r.band? b = some y) :
    (r.bandReleased b x).band? b = some y.released := by
  rw [State.bandReleased, State.band?_modBand_self _ b Band.released fun _ => rfl, State.dropZero_rest]
  change Option.map _ (r.band? b) = _
  rw [hy]
  rfl

theorem State.band?_lastStep_of_kids (hx : s.band? b = some x) (hkids : s.kidsOf b ≠ []) :
    (s.lastStep b).band? b = some { x with state := .draining } := by
  have hne : (s.kidsOf b).isEmpty = false := by simpa using hkids
  simp only [State.lastStep, hx, hne, Bool.false_eq_true, if_false]
  rw [State.band?_modBand_self s b (fun y => { y with state := .draining }) fun _ => rfl, hx]
  rfl

theorem State.lastStep_of_noKids (hx : s.band? b = some x) (hkids : s.kidsOf b = []) :
    s.lastStep b = (s.modBand b fun y => { y with state := .retired }).countRetired x := by
  simp only [State.lastStep, hx, hkids, List.isEmpty_nil, if_true]

theorem State.countRetired_of_task {p c : Nat} (hg : x.grid = none) (hp : x.parent = some (p, c)) : s.countRetired x = s.dropChild c := by
  simp only [State.countRetired, hg, hp]

theorem State.countRetired_of_grid {g : Nat} (hg : x.grid = some g) (hp : s.partner x.id = none) :
    s.countRetired x = (s.modGrid g fun y => { y with
      retired := y.retired + 1, killed := y.killed + if x.killed then 1 else 0 }).finishGrid g := by
  simp [State.countRetired, hg, hp]

end Bands

/-! ### Grids and completion records (R329, R330) -/

section Grids

variable {s : State} {id : Nat} {g : Grid}

theorem State.finishGrid_of_running (hg : s.grid? id = some g) (h : g.retired < g.bands) : s.finishGrid id = s := by
  simp [State.finishGrid, hg, h]

/-- A grid is complete, with its record written. -/
def State.gridDone (s : State) (id : Nat) (g : Grid) : State :=
  (if g.cpl then s.writeCompletion g else s).modGrid id fun x => { x with complete := true }

theorem State.finishGrid_of_last (hg : s.grid? id = some g) (hc : g.complete = false) (h : g.bands ≤ g.retired) :
    (g.parent = none → s.finishGrid id = s.gridDone id g) ∧
    ∀ p c, g.parent = some (p, c) → s.finishGrid id = (s.gridDone id g).dropChild c := by
  refine ⟨fun hp => ?_, fun p c hp => ?_⟩ <;>
  · simp only [State.finishGrid, hg, hc, Nat.not_lt.mpr h, hp, Bool.false_or, decide_false, Bool.false_eq_true, if_false]
    rfl

theorem State.writeCompletion_of_mapped {c : Ctx} (hc : s.ctx? g.asid = some c) {pa : Nat} {h : HomeId}
    (hx : s.translateDev g.asid g.cplva .write = .ok (.mem pa h)) :
    s.writeCompletion g = (s.writeWords h pa (completionWords 1 g.asid g.seq 0 g.bands g.killed c.cseq)).modCtx g.asid fun c =>
      { c with cseq := c.cseq + 1 } := by
  simp only [State.writeCompletion, hc, hx, Option.map_some, Option.getD_some]

theorem State.writeCompletion_of_unmapped {f : XlateFail} (hx : s.translateDev g.asid g.cplva .write = .error f) :
    s.writeCompletion g = s.faultRecord g.asid
      (recordWords 9 0 0 ⟨0, 0, none, none⟩ 0 f.info g.seq ([1, g.seq] ++ addrWords g.cplva) 0) := by
  simp only [State.writeCompletion, hx]

end Grids

/-! ### O52 -/

/-- Settles O52: each clause by the lemma of its stage, from EXIT to the completion record. -/
theorem workEnds : Obligations.WorkEnds := by
  unfold Obligations.WorkEnds
  refine ⟨?_, ?_, ?_, ?_, ?_, ?_, ?_, ?_⟩
  · exact fun m s b hb hsm => exec_exit hb m hsm
  · exact fun s bs => rfl
  · intro s t x hx hnd
    refine ⟨x.exited t.lane, s.troop?_endThread t hx, s.bundles_endThread t, x.exited_names t.lane, ?_, fun l hl => ?_,
      x.exited_mask t.lane hnd⟩
    · rw [Troop.exited_thread, if_pos rfl]
    · rw [Troop.exited_thread, if_neg hl]
  · intro s b t x hx hret hall mine s1 f drained r
    have hover : s.troopOver b t = true := State.troopOver_iff.mpr ⟨x, hx, hret, hall⟩
    have hdrained : (s.flushTroop b t).troopDrained b t = true ↔ drained := State.troopDrained_iff
    rw [exec_troopRetire hover]
    refine ⟨fun hbusy => ?_, fun hd hr => ?_, fun hd hr ho => ?_⟩
    · rw [State.retireTroop_of_busy (Bool.eq_false_iff.mpr fun h => hbusy (hdrained.mp h))]
      rfl
    · rw [State.retireTroop_of_returning (hdrained.mpr hd) hr]
      rfl
    · obtain ⟨y, hy, -⟩ := State.troopOver_iff.mp ho
      refine ⟨r.troopRetired b t y.slot, y, ?_, hy, State.troop?_troopRetired hy, fun i hi sl hsl => ?_⟩
      · rw [State.retireTroop_of_returned (hdrained.mpr hd) hr ho hy]
        rfl
      · rw [hi] at hsl
        exact State.slots_troopRetired r hsl
  · intro s t g k r
    exact ⟨State.returnOne_of_asked k, State.returnOne_of_free k, State.returnOne_of_carved k⟩
  · intro s b x hx r
    refine ⟨fun hst hne hall => ⟨fun hr => ?_, fun y hy hr => ?_⟩, exec_bandRetire_of_draining hx, State.band?_lastStep_of_kids hx,
      fun hkids => ?_, fun hg p c hp => State.countRetired_of_task hg hp, fun g hg hp => State.countRetired_of_grid hg hp⟩
    · rw [exec_bandRetire_of_placed hx hst hne hall, State.retireBand_of_returning hx hr]
      rfl
    · refine ⟨r.bandReleased b x, ?_, r.shadows_bandReleased, State.band?_bandReleased hy⟩
      rw [exec_bandRetire_of_placed hx hst hne hall, State.retireBand_of_returned hx hr]
      rfl
    · refine ⟨_, State.lastStep_of_noKids hx hkids, ?_⟩
      rw [State.band?_modBand_self s b (fun y => { y with state := .retired }) fun _ => rfl, hx]
      rfl
  · intro s id g hg
    refine ⟨State.finishGrid_of_running hg, fun hc h => ?_⟩
    obtain ⟨hhost, hchild⟩ := State.finishGrid_of_last hg hc h
    cases hp : g.parent with
    | none => exact hhost hp
    | some p => exact hchild p.1 p.2 hp
  · intro s g c hc bad words
    have hwords : words = completionWords 1 g.asid g.seq 0 g.bands g.killed c.cseq := rfl
    rw [hwords]
    exact ⟨fun pa h hx => State.writeCompletion_of_mapped hc hx, fun f hx => State.writeCompletion_of_unmapped hx⟩

end Sys2Proof.Machine

/-! # Moves, integer arithmetic, logic and predicates (O1 to O11)

Each of these is a register instruction: `completesV_of` and its like say what its issue leaves, and what remains is the value, by
the lemmas on words, elements and bits. -/

namespace Sys2Proof.Machine

/-! ### The shared forms of register instructions -/

/-- A two-source instruction on words completes with any description of its function's value. -/
theorem completesV_word {i : Instr} {m : Mods} {d a b : VReg} {ok : State → Tid → Word → Prop} (f : Word → Word → Word)
    (he : ∀ s, exec i s = .next (s.wordInstr m f d a b)) (hok : ∀ v t, ok v t (f (v.srcA m t a) (v.srcB m t b))) :
    CompletesV i m [a, b] d (lastReads m [a] [b]) ok :=
  completesV_of _ he hok

/-- The same with one source. -/
theorem completesV_unary {i : Instr} {m : Mods} {d a : VReg} {ok : State → Tid → Word → Prop} (f : Word → Word)
    (he : ∀ s, exec i s = .next (s.unaryInstr m f d a)) (hok : ∀ v t, ok v t (f (v.srcA m t a))) :
    CompletesV i m [a] d (lastReads m [a] []) ok :=
  completesV_of _ he hok

/-! ### Moves (R138) -/

/-- Settles O1: each form is a register instruction whose writes are the values stated. -/
theorem movesComplete : Obligations.MovesComplete := by
  unfold Obligations.MovesComplete
  refine ⟨?mov, ?movi, ?sel, ?pp, ?nz, ?toV, ?clr, ?set⟩
  case mov => exact fun m d a => completesV_of (fun v t => v.srcA m t a) (fun _ => rfl) fun _ _ => rfl
  case movi => exact fun m d imm => completesV_of (fun _ _ => imm) (fun _ => rfl) fun _ _ => rfl
  case sel =>
    exact fun m d a b c => completesV_of (fun v t => if v.readP t c then v.srcA m t a else v.srcB m t b) (fun _ => rfl) fun _ _ => rfl
  case pp => exact fun m d a => completesP_of (fun v t => v.readP t a) (fun _ => rfl) fun _ _ => rfl
  case nz =>
    exact fun m d a => completesP_of (fun v t => v.srcA m t a != 0) (fun _ => rfl) fun v t => by
      simp only [bne, beq_eq_decide, decide_not, ne_eq]
  case toV => exact fun m d a => completesV_of (fun v t => if v.readP t a then 1 else 0) (fun _ => rfl) fun _ _ => rfl
  case clr => exact fun m d => completesP_of (fun _ _ => false) (fun _ => rfl) fun _ _ => rfl
  case set => exact fun m d => completesP_of (fun _ _ => true) (fun _ => rfl) fun _ _ => rfl

/-! ### Sums, differences and products (R140) -/

theorem IntTy.bits_pos (ty : IntTy) : 0 < IntTy.bits ty := by cases ty <;> decide

/-- An operation on signed elements completes, each element exact and then wrapped or clamped. -/
theorem completesV_elements {i : Instr} {m : Mods} {ty : IntTy} (hty : ty ≠ .i64) {d a b : VReg} (f : Int → Int → Int)
    (he : ∀ s, exec i s = .next (s.intInstr m ty f d a b)) :
    CompletesV i m [a, b] d (lastReads m [a] [b]) fun v t x => ∀ k, k < 32 / IntTy.bits ty →
      elemOf (IntTy.bits ty) k x = fit (xmOrPlain m).sat (IntTy.bits ty)
        (f (elemOf (IntTy.bits ty) k (v.srcA m t a)).toInt (elemOf (IntTy.bits ty) k (v.srcB m t b)).toInt) := by
  refine completesV_word (signedElems (xmOrPlain m).sat (IntTy.bits ty) f) (fun s => ?_) fun v t k hk =>
    signedElems_ok _ _ (IntTy.bits_pos ty) f _ _ k hk
  rw [he]
  cases ty with
  | i64 => exact absurd rfl hty
  | i32 | i16x2 | i8x4 => rfl

/-- Settles O2: IADD, ISUB and IMUL are one operation on signed elements. -/
theorem elementArithmetic : Obligations.ElementArithmetic := by
  unfold Obligations.ElementArithmetic
  intro m ty d a b hty
  exact ⟨completesV_elements hty _ fun _ => rfl, completesV_elements hty _ fun _ => rfl, completesV_elements hty _ fun _ => rfl⟩

/-- A wrapped or clamped integer as a bit vector (R136). -/
theorem ofNat_fitInt (sat : Bool) (w : Nat) (n : Int) : BitVec.ofNat w (fitInt sat w n) = fit sat w n := by
  rw [fitInt_eq, BitVec.ofNat_toNat, BitVec.setWidth_eq]

/-- An operation on signed pairs completes, exact and then wrapped or clamped. -/
theorem completesV2_pairs {i : Instr} {m : Mods} {d a b : VReg} (f : Int → Int → Int)
    (he : ∀ s, exec i s = .next (s.intInstr m .i64 f d a b)) :
    CompletesV2 i m [a, regAt a 1, b, regAt b 1] d (lastReads m [a, regAt a 1] [b, regAt b 1]) fun v t x =>
      x = fit (xmOrPlain m).sat 64 (f (v.srcA2 m t a).toInt (v.srcB2 m t b).toInt) :=
  completesV2_of (fun v t => signedPair (xmOrPlain m).sat f (v.srcA2 m t a) (v.srcB2 m t b)) he fun _ _ => ofNat_fitInt _ _ _

/-- Settles O3: the 64-bit forms are the same operation on signed pairs. -/
theorem pairArithmetic : Obligations.PairArithmetic := by
  unfold Obligations.PairArithmetic
  intro m d a b
  exact ⟨completesV2_pairs _ fun _ => rfl, completesV2_pairs _ fun _ => rfl, completesV2_pairs _ fun _ => rfl⟩

/-- The unsigned product of two words as a bit vector. -/
theorem ofInt_wideProduct_unsigned (w : Nat) (x y : Word) :
    BitVec.ofInt w (wideProduct true x y) = BitVec.ofNat w (x.toNat * y.toNat) := by
  rw [wideProduct, if_pos rfl, ← Nat.cast_mul, BitVec.ofInt_natCast]

/-- The high word of a wrapped integer (R140). -/
theorem high_wrapInt (n : Int) : BitVec.ofNat 32 (wrapInt 64 n / 2 ^ 32) = (BitVec.ofInt 64 n).extractLsb' 32 32 := by
  rw [wrap_eq, BitVec.extractLsb', Nat.shiftRight_eq_div_pow]
  rfl

/-- IMULH writes the high word of the product. -/
theorem completesV_imulh (m : Mods) (u : Bool) (d a b : VReg) :
    CompletesV (.imulh m u d a b) m [a, b] d (lastReads m [a] [b]) fun v t x =>
      x = (BitVec.ofInt 64 (wideProduct u (v.srcA m t a) (v.srcB m t b))).extractLsb' 32 32 :=
  completesV_of _ (fun _ => rfl) fun _ _ => high_wrapInt _

/-- A wrapped sum with a 64-bit addend. -/
theorem ofNat_wrapInt_add (x : BitVec 64) (n : Int) : BitVec.ofNat 64 (wrapInt 64 (x.toNat + n)) = x + BitVec.ofInt 64 n := by
  rw [ofNat_wrap, BitVec.ofInt_add, BitVec.ofInt_natCast, BitVec.ofNat_toNat, BitVec.setWidth_eq]

/-- IMADW adds the product to the destination pair. -/
theorem completesV2_imadw (m : Mods) (u : Bool) (d a b : VReg) :
    CompletesV2 (.imadw m u d a b) m [a, b, d, regAt d 1] d (lastReads m [a] [b]) fun v t x =>
      x = v.readV t (regAt d 1) ++ v.readV t d + BitVec.ofInt 64 (wideProduct u (v.srcA m t a) (v.srcB m t b)) :=
  completesV2_of _ (fun _ => rfl) fun _ _ => ofNat_wrapInt_add _ _

/-- Settles O4: the forms of IMULH and IMADW by their products, IMAD and IADDI by the wrapped or clamped sum. -/
theorem wideArithmetic : Obligations.WideArithmetic := by
  unfold Obligations.WideArithmetic
  refine ⟨fun m => completesV_imulh m false, fun m d a b => ?_, fun m d a b => ?_, fun m => completesV2_imadw m false,
    fun m d a b => ?_, fun m d a imm => ?_⟩
  · simpa only [ofInt_wideProduct_unsigned] using completesV_imulh m true d a b
  · exact completesV_of _ (fun _ => rfl) fun _ _ => ofNat_fitInt _ _ _
  · simpa only [ofInt_wideProduct_unsigned] using completesV2_imadw m true d a b
  · exact completesV_unary _ (fun _ => rfl) fun _ _ => ofNat_fitInt _ _ _

/-! ### Least and greatest elements (R141) -/

theorem MinTy.shape_pos (ty : MinTy) : 0 < (MinTy.shape ty).1 := by cases ty <;> decide

/-- An element of IMIN or IMAX in the unsigned order or the signed one. -/
theorem minMaxWord_ok (ty : MinTy) (mx : Bool) (x y : Word) (k : Nat) (hk : k < 32 / (MinTy.shape ty).1) :
    let w := (MinTy.shape ty).1
    let p := elemOf w k x
    let q := elemOf w k y
    if (MinTy.shape ty).2 then (elemOf w k (minMaxWord ty mx x y)).toNat = if mx then max p.toNat q.toNat else min p.toNat q.toNat
    else (elemOf w k (minMaxWord ty mx x y)).toInt = if mx then max p.toInt q.toInt else min p.toInt q.toInt := by
  intro w p q
  rw [minMaxWord_elem ty mx x y k hk]
  cases (MinTy.shape ty).2 with
  | true => exact pick_uns mx w p q
  | false => exact pick_int mx w (MinTy.shape_pos ty) p q

/-- Settles O5: IMIN and IMAX pick one of each two elements. -/
theorem minMaxElements : Obligations.MinMaxElements := by
  unfold Obligations.MinMaxElements
  intro m ty d a b
  exact ⟨completesV_word (minMaxWord ty false) (fun _ => rfl) fun _ _ => minMaxWord_ok ty false _ _,
    completesV_word (minMaxWord ty true) (fun _ => rfl) fun _ _ => minMaxWord_ok ty true _ _⟩

/-! ### Logic, shifts, bits and bytes (R141, R142, R155) -/

/-- Settles O6: each is a function of two words, and a rotation by 32 is none. -/
theorem logicWords : Obligations.LogicWords := by
  unfold Obligations.LogicWords
  intro m d a b of
  refine ⟨?and, ?or, ?xor, ?andn, ?rotl⟩
  case and => exact completesV_word _ (fun _ => rfl) fun _ _ => rfl
  case or => exact completesV_word _ (fun _ => rfl) fun _ _ => rfl
  case xor => exact completesV_word _ (fun _ => rfl) fun _ _ => rfl
  case andn => exact completesV_word _ (fun _ => rfl) fun _ _ => rfl
  case rotl => exact completesV_word _ (fun _ => rfl) fun _ _ => BitVec.rotateLeft_mod_eq_rotateLeft

/-- A shift of a word completes. -/
theorem completesV_shift {i : Instr} {m : Mods} {d a b : VReg} {ok : State → Tid → Word → Prop}
    (f : (w : Nat) → BitVec w → Nat → BitVec w) (he : ∀ s, exec i s = .next (s.shiftInstr m false f d a b))
    (hok : ∀ v t, ok v t (f 32 (v.srcA m t a) (v.srcB m t b).toNat)) : CompletesV i m [a, b] d (lastReads m [a] [b]) ok :=
  completesV_of (fun v t => f 32 (v.srcA m t a) (v.srcB m t b).toNat)
    (fun s => (he s).trans (congrArg _ (if_neg Bool.false_ne_true))) hok

/-- A shift of a pair completes. -/
theorem completesV2_shift {i : Instr} {m : Mods} {d a b : VReg} {ok : State → Tid → BitVec 64 → Prop}
    (f : (w : Nat) → BitVec w → Nat → BitVec w) (he : ∀ s, exec i s = .next (s.shiftInstr m true f d a b))
    (hok : ∀ v t, ok v t (f 64 (v.srcA2 m t a) (v.srcB m t b).toNat)) :
    CompletesV2 i m [a, regAt a 1, b] d (lastReads m [a, regAt a 1] [b]) ok :=
  completesV2_of (fun v t => f 64 (v.srcA2 m t a) (v.srcB m t b).toNat) (fun s => (he s).trans (congrArg _ (if_pos rfl))) hok

/-- Settles O7: the forms of SHL and SHR are shifts that stop at the width, and SAR's bits are those of `sar_bit`. -/
theorem shifts : Obligations.Shifts := by
  unfold Obligations.Shifts
  intro m d a b n rel srcs
  refine ⟨?shl, ?shr, ?sar, ?shl2, ?shr2, ?sar2⟩
  case shl => exact completesV_shift shlBits (fun _ => rfl) fun _ _ => rfl
  case shr => exact completesV_shift shrBits (fun _ => rfl) fun _ _ => rfl
  case sar => exact completesV_shift sarBits (fun _ => rfl) fun _ _ => sar_bit 32 _ _
  case shl2 => exact completesV2_shift shlBits (fun _ => rfl) fun _ _ => rfl
  case shr2 => exact completesV2_shift shrBits (fun _ => rfl) fun _ _ => rfl
  case sar2 => exact completesV2_shift sarBits (fun _ => rfl) fun _ _ => sar_bit 64 _ _

/-- Settles O8: a function of one word each. -/
theorem bitCounts : Obligations.BitCounts := by
  unfold Obligations.BitCounts
  intro m d a
  exact ⟨completesV_unary popcWord (fun _ => rfl) fun _ _ => popc_ok _, completesV_unary clzWord (fun _ => rfl) fun _ _ => clz_ok _,
    completesV_unary brevWord (fun _ => rfl) fun _ _ => brev_ok _⟩

/-- Settles O9: the bits of BFE and BFI by `bfe_ok` and `bfi_ok`; LEA is its own sum. -/
theorem bitFields : Obligations.BitFields := by
  unfold Obligations.BitFields
  refine ⟨fun m sgn d a pos len => ?_, fun m d a b pos len => ?_, fun m d a b sh off => ?_⟩
  · exact completesV_unary (bfeWord sgn pos.val len.val) (fun _ => rfl) fun _ _ => bfe_ok sgn pos.val len.val _
  · exact completesV_word (bfiWord pos.val len.val) (fun _ => rfl) fun _ _ => bfi_ok pos.val len.val _ _
  · exact completesV_word (fun x y => x + (y <<< sh.val) + off.signExtend 32) (fun _ => rfl) fun _ _ => rfl

/-- Settles O10: a byte by its selector's number, and that number's cases. -/
theorem byteSwizzle : Obligations.ByteSwizzle := by
  unfold Obligations.ByteSwizzle
  intro m d a b sel
  refine completesV_word (bswzWord sel) (fun _ => rfl) fun v t k hk => ?_
  exact (bswz_ok sel _ _ k hk).trans (bswzByte_ok _ _ (BitVec.isLt _))

/-! ### Predicates (R143) -/

/-- The signed order of words is that of their values (R143). -/
theorem condHolds_toInt (c : Cond) (x y : Word) : condHolds c x.toInt y.toInt = match c with
    | .eq => x == y | .ne => x != y | .lt => x.slt y | .le => x.sle y | .gt => y.slt x | .ge => y.sle x := by
  cases c with
  | eq | ne => simp only [condHolds, bne, beq_eq_decide, decide_not, BitVec.toInt_inj, ne_eq]
  | lt | gt => exact BitVec.slt_eq_decide.symm
  | le | ge => exact BitVec.sle_eq_decide.symm

/-- The unsigned order of words is that of their numbers (R143). -/
theorem condHolds_toNat (c : Cond) (x y : Word) : condHolds c x.toNat y.toNat = match c with
    | .eq => x == y | .ne => x != y | .lt => x.ult y | .le => x.ule y | .gt => y.ult x | .ge => y.ule x := by
  cases c with
  | eq | ne => simp only [condHolds, bne, beq_eq_decide, decide_not, Nat.cast_inj, BitVec.toNat_inj, ne_eq]
  | lt | gt => simp only [condHolds, BitVec.ult, Nat.cast_lt]
  | le | ge => simp only [condHolds, BitVec.ule, Nat.cast_le]

/-- Settles O11: ICMP and NCMP by the orders of words, PLOP by its table. -/
theorem predicates : Obligations.Predicates := by
  unfold Obligations.Predicates
  refine ⟨fun m c d a b => ?_, fun m c d a b => ?_, fun m o d a b => ?_⟩
  · exact completesP_of _ (fun _ => rfl) fun _ _ => condHolds_toInt c _ _
  · exact completesP_of _ (fun _ => rfl) fun _ _ => condHolds_toNat c _ _
  · refine completesP_of _ (fun _ => rfl) fun v t => ?_
    cases o with
    | xnor => cases v.readP t a <;> cases v.readP t b <;> rfl
    | xor => cases v.readP t a <;> cases v.readP t b <;> rfl
    | and | or | andn | orn | nand | nor => rfl

end Sys2Proof.Machine

/-! # Floating-point arithmetic, conversions and dot products (O12 to O15) -/

namespace Sys2Proof.Machine

/-! ### Elements (R134, R145) -/

/-- A packed floating-point operation completes, each element rounded once from its exact value. -/
theorem completesV_float {i : Instr} {m : Mods} {f : FloatTy} {d a b : VReg} (op : Val → Val → Val)
    (he : ∀ s, exec i s = .next (s.floatInstr m f op d a b)) :
    CompletesV i m [a, b] d (lastReads m [a] [b]) fun v t x => ∀ k, k < 32 / (floatFmt f).width →
      elemOf (floatFmt f).width k x = BitVec.ofNat (floatFmt f).width (floatResult
        (op (((floatFmt f).value (elemOf (floatFmt f).width k (v.srcA m t a)).toNat).modify (xmOrPlain m).absA (xmOrPlain m).negA)
          (((floatFmt f).value (elemOf (floatFmt f).width k (v.srcB m t b)).toNat).modify (xmOrPlain m).absB (xmOrPlain m).negB))
        (floatFmt f) (xmOrPlain m)) :=
  completesV_word (floatElems (floatFmt f) (xmOrPlain m) op) he fun _ _ => floatElems_ok _ _ _ _ _

/-- Settles O12: two-source operations are one form, and FFMA adds its addend's elements. -/
theorem floatElements : Obligations.FloatElements := by
  unfold Obligations.FloatElements
  intro m f d a b g xm fa fb fc is
  refine ⟨?fadd, ?fsub, ?fmul, ?fmin, ?fmax, ?ffma⟩
  case fadd => exact completesV_float (fun x y => x.add xm.rnd y) fun _ => rfl
  case fsub => exact completesV_float (fun x y => x.add xm.rnd y.neg) fun _ => rfl
  case fmul => exact completesV_float Val.mul fun _ => rfl
  case fmin => exact completesV_float (pickNumber false) fun _ => rfl
  case fmax => exact completesV_float (pickNumber true) fun _ => rfl
  case ffma =>
    exact completesV_of (fun v t => ffmaWord g xm (v.srcA m t a) (v.srcB m t b) (v.readV t (addendReg m d))) (fun _ => rfl)
      fun _ _ => ffma_ok g xm _ _ _

/-! ### Words (R145 to R148) -/

/-- Settles O13: FCMP by its comparison, the other three by the values of their words. -/
theorem floatWords : Obligations.FloatWords := by
  unfold Obligations.FloatWords
  refine ⟨fun m c d a b => ?fcmp, fun m d a b => ?fscl, fun m r d a => ?frnd, fun m d a => ?fclass⟩
  case fcmp => exact completesP_of _ (fun _ => rfl) fun _ _ => rfl
  case fscl => exact completesV_word (fsclWord (xmOrPlain m)) (fun _ => rfl) fun _ _ => fscl_ok _ _ _
  case frnd =>
    exact completesV_unary (fun x => frndWord r (modifyWord (xmOrPlain m).absA (xmOrPlain m).negA x)) (fun _ => rfl) fun _ _ =>
      frnd_ok r _
  case fclass => exact completesV_unary fclassWord (fun _ => rfl) fun _ _ => fclass_ok _

/-! ### CVT (R151) -/

/-- The source of a CVT as 64 bits: a pair, or a word. -/
def cvtSource (sf : Fmt) (m : Mods) (a : VReg) (v : State) (t : Tid) : BitVec 64 :=
  if sf = .i64 then v.srcA2 m t a else (v.srcA m t a).zeroExtend 64

/-- The bit at which a field of w bits begins: ESEL counts fields narrower than a word. -/
def fieldStart (w e : Nat) : Nat := if w < 32 then e * w else 0

theorem fieldStart_eq (w e : Nat) : fieldStart w e = w * if w < 32 then e else 0 := by
  unfold fieldStart
  split
  · exact Nat.mul_comm e w
  · exact (Nat.mul_zero w).symm

/-- The elements of a field lie within it. -/
theorem container_mul_succ_le (f : Fmt) {sf df : Fmt} {i : Nat} (hi : i < cvtCount sf df) : f.container * (i + 1) ≤ cvtBits sf df f := by
  rw [cvtBits, Nat.mul_comm]
  exact Nat.mul_le_mul_right _ hi

/-- The source field of a CVT. -/
def cvtTaken (sf df : Fmt) (e : Nat) (x : BitVec 64) : Nat :=
  if cvtBits sf df sf < 32 then elem (cvtBits sf df sf) e x.toNat else x.toNat

/-- The word that a CVT writes over an old one. -/
def cvtWord (df sf : Fmt) (r : Rnd) (satf : Bool) (e : Nat) (x : BitVec 64) (old : Word) : Word :=
  if cvtBits sf df df < 32 then
    BitVec.ofNat 32 (putField (cvtBits sf df df) e (cvtField df sf r satf (cvtTaken sf df e x)) old.toNat)
  else BitVec.ofNat 32 (cvtField df sf r satf (cvtTaken sf df e x))

/-- A format of 64 bits fills its pair whatever the other format is. -/
theorem cvtBits_i64 (sf df : Fmt) : cvtBits .i64 df .i64 = 64 ∧ cvtBits sf .i64 .i64 = 64 := by
  simp [cvtBits, cvtCount, Fmt.container, Fmt.width]

theorem cvtTaken_cvtSource (sf df : Fmt) (e : Nat) (m : Mods) (a : VReg) (v : State) (t : Tid) :
    (if sf = .i64 then (v.srcA2 m t a).toNat
      else if cvtBits sf df sf < 32 then elem (cvtBits sf df sf) e (v.srcA m t a).toNat else (v.srcA m t a).toNat) =
      cvtTaken sf df e (cvtSource sf m a v t) := by
  unfold cvtTaken cvtSource
  by_cases h : sf = .i64
  · subst h
    simp only [(cvtBits_i64 df df).1, if_true, Nat.reduceLT, if_false]
  · simp only [h, if_false, BitVec.truncate_eq_setWidth, BitVec.toNat_setWidth_of_le (show 32 ≤ 64 by decide)]

theorem exec_cvt (m : Mods) (df sf : Fmt) (r : Rnd) (satf : Bool) (e : Fin 4) (d a : VReg) (s : State) :
    exec (.cvt m df sf r satf e d a) s =
      .next (s.regInstr m ((if sf = .i64 then [a, regAt a 1] else [a]) ++ if cvtBits sf df df < 32 then [d] else [])
        (lastReads m (if sf = .i64 then [a, regAt a 1] else [a]) []) fun v t =>
          if df = .i64 then pairWrites d (BitVec.ofNat 64 (cvtField df sf r satf (cvtTaken sf df e.val (cvtSource sf m a v t))))
          else [.v d (cvtWord df sf r satf e.val (cvtSource sf m a v t) (v.readV t d))]) := by
  change execCvt m df sf r satf e d a s = _
  simp only [execCvt, cvtTaken_cvtSource, cvtWord]
  congr
  funext v t
  by_cases h : cvtBits sf df df < 32 <;> simp only [h, if_true, if_false]

/-- The elements that CVT takes from its source field (R151). -/
theorem elem_cvtTaken (sf df : Fmt) (e : Nat) (x : BitVec 64) (i : Nat) (hi : i < cvtCount sf df) :
    elem sf.container i (cvtTaken sf df e x) % 2 ^ sf.width =
      (x.extractLsb' (fieldStart (cvtBits sf df sf) e + sf.container * i) sf.width).toNat := by
  have hw : sf.width ≤ sf.container := by cases sf <;> decide
  have hmod (y : Nat) : y % 2 ^ sf.container % 2 ^ sf.width = y % 2 ^ sf.width := Nat.mod_mod_of_dvd y (pow_dvd_pow 2 hw)
  unfold cvtTaken fieldStart
  rw [extract_toNat]
  by_cases h : cvtBits sf df sf < 32
  · rw [if_pos h, if_pos h, elem_elem _ _ _ _ _ (container_mul_succ_le sf hi), hmod, Nat.mul_comm e]
  · rw [if_neg h, if_neg h, elem, hmod, Nat.zero_add]

/-- One converted element fills a pair. -/
theorem cvtField_i64 (sf : Fmt) (r : Rnd) (satf : Bool) (e : Nat) (x : BitVec 64) :
    BitVec.ofNat 64 (cvtField .i64 sf r satf (cvtTaken sf .i64 e x)) = BitVec.ofNat 64 (convert sf .i64 r satf
      (x.extractLsb' (fieldStart (cvtBits sf .i64 sf) e + sf.container * 0) sf.width).toNat) := by
  have hn : cvtCount sf .i64 = 1 := by simp [cvtCount, Fmt.container, Fmt.width]
  have hlt : cvtField .i64 sf r satf (cvtTaken sf .i64 e x) < 2 ^ 64 := (cvtBits_i64 sf sf).2 ▸ cvtField_lt .i64 sf r satf _
  have h0 := cvtField_elem .i64 sf r satf (cvtTaken sf .i64 e x) 0 (by omega)
  rw [elem_cvtTaken sf .i64 e x 0 (by omega), elem, Nat.mul_zero, pow_zero, Nat.div_one] at h0
  apply BitVec.eq_of_toNat_eq
  rw [BitVec.toNat_ofNat, BitVec.toNat_ofNat]
  exact h0

/-- The field of a written word holds the converted elements. -/
theorem cvtWord_field {df sf : Fmt} (r : Rnd) (satf : Bool) {e : Nat} (x : BitVec 64) (old : Word) (hdf : df ≠ .i64)
    (hfit : cvtBits sf df df < 32 → cvtBits sf df df * (e + 1) ≤ 32) :
    elem (cvtBits sf df df) (if cvtBits sf df df < 32 then e else 0) (cvtWord df sf r satf e x old).toNat =
      cvtField df sf r satf (cvtTaken sf df e x) := by
  have hlt := cvtField_lt df sf r satf (cvtTaken sf df e x)
  unfold cvtWord
  by_cases h : cvtBits sf df df < 32
  · obtain ⟨hword, hfield, -⟩ := putField_bits (cvtBits sf df df) e _ old.toNat hlt old.isLt (hfit h)
    rw [if_pos h, if_pos h, BitVec.toNat_ofNat, Nat.mod_eq_of_lt hword, elem, hfield]
  · have h32 : cvtBits sf df df = 32 := by
      have := (cvtCount_fits sf df hdf).1
      omega
    rw [h32] at hlt ⊢
    rw [if_neg (Nat.lt_irrefl 32), if_neg (Nat.lt_irrefl 32), elem, BitVec.toNat_ofNat, Nat.mod_eq_of_lt hlt, Nat.mul_zero,
      pow_zero, Nat.div_one, Nat.mod_eq_of_lt hlt]

/-- Element i of a written word is the conversion of element i of the source. -/
theorem cvtWord_elem {df sf : Fmt} (r : Rnd) (satf : Bool) {e : Nat} (x : BitVec 64) (old : Word) (hdf : df ≠ .i64)
    (hfit : cvtBits sf df df < 32 → cvtBits sf df df * (e + 1) ≤ 32) (i : Nat) (hi : i < cvtCount sf df) :
    (cvtWord df sf r satf e x old).extractLsb' (fieldStart (cvtBits sf df df) e + df.container * i) df.container =
      BitVec.ofNat df.container (convert sf df r satf
        (x.extractLsb' (fieldStart (cvtBits sf df sf) e + sf.container * i) sf.width).toNat % 2 ^ df.container) := by
  apply BitVec.eq_of_toNat_eq
  calc ((cvtWord df sf r satf e x old).extractLsb' (fieldStart (cvtBits sf df df) e + df.container * i) df.container).toNat
    _ = elem df.container i (cvtField df sf r satf (cvtTaken sf df e x)) := by
      rw [extract_toNat, fieldStart_eq, ← elem_elem _ _ _ _ _ (container_mul_succ_le df hi), cvtWord_field r satf x old hdf hfit]
    _ = convert sf df r satf (elem sf.container i (cvtTaken sf df e x) % 2 ^ sf.width) % 2 ^ df.container :=
      cvtField_elem df sf r satf _ i hi
    _ = _ := by rw [elem_cvtTaken sf df e x i hi, BitVec.toNat_ofNat, Nat.mod_mod]

/-- A CVT keeps the bits of a word that its field does not fill. -/
theorem cvtWord_kept {df sf : Fmt} (r : Rnd) (satf : Bool) {e : Nat} (x : BitVec 64) (old : Word)
    (hfit : cvtBits sf df df * (e + 1) ≤ 32) (h : cvtBits sf df df < 32) (i : Nat) (hi : i < 32)
    (hout : i < fieldStart (cvtBits sf df df) e ∨ fieldStart (cvtBits sf df df) e + cvtBits sf df df ≤ i) :
    (cvtWord df sf r satf e x old).getLsbD i = old.getLsbD i := by
  rw [fieldStart, if_pos h, Nat.mul_comm e] at hout
  obtain ⟨-, -, hkept⟩ := putField_bits (cvtBits sf df df) e _ old.toNat (cvtField_lt df sf r satf (cvtTaken sf df e x)) old.isLt hfit
  rw [cvtWord, if_pos h, BitVec.getLsbD_ofNat, hkept i hout, decide_eq_true hi, Bool.true_and]
  rfl

/-- CVT to I64 writes a pair. -/
theorem completesV2_cvt (m : Mods) (sf : Fmt) (r : Rnd) (satf : Bool) (e : Fin 4) (d a : VReg) :
    CompletesV2 (.cvt m .i64 sf r satf e d a) m (if sf = .i64 then [a, regAt a 1] else [a]) d
      (lastReads m (if sf = .i64 then [a, regAt a 1] else [a]) []) fun v t x =>
        x = BitVec.ofNat 64 (convert sf .i64 r satf
          ((cvtSource sf m a v t).extractLsb' (fieldStart (cvtBits sf .i64 sf) e.val + sf.container * 0) sf.width).toNat) := by
  refine completesV2_of _ (fun s => ?_) fun v t => cvtField_i64 sf r satf e.val (cvtSource sf m a v t)
  simp only [exec_cvt, (cvtBits_i64 sf sf).2, if_true, Nat.reduceLT, if_false, List.append_nil]

/-- CVT to a narrower format writes a word. -/
theorem completesV_cvt {m : Mods} {df sf : Fmt} {r : Rnd} {satf : Bool} {e : Fin 4} {d a : VReg} (hdf : df ≠ .i64)
    {ok : State → Tid → Word → Prop}
    (hok : ∀ v t, ok v t (cvtWord df sf r satf e.val (cvtSource sf m a v t) (v.readV t d))) :
    CompletesV (.cvt m df sf r satf e d a) m
      ((if sf = .i64 then [a, regAt a 1] else [a]) ++ if cvtBits sf df df < 32 then [d] else []) d
      (lastReads m (if sf = .i64 then [a, regAt a 1] else [a]) []) ok :=
  completesV_of _ (fun s => by simp only [exec_cvt, hdf, if_false]) hok

/-- Settles O14: F2I and I2F are functions of a word; CVT by the elements of its field and the bits beside it. -/
theorem conversions : Obligations.Conversions := by
  unfold Obligations.Conversions
  refine ⟨fun m u d a => ?f2i, fun m u d a => ?i2f, fun m df sf r satf esel d a hwf => ?cvt⟩
  case f2i => exact completesV_unary (f2iWord u (xmOrPlain m)) (fun _ => rfl) fun _ _ => convert_f2i u _ _
  case i2f => exact completesV_unary (i2fWord u (xmOrPlain m)) (fun _ => rfl) fun _ _ => rfl
  case cvt =>
    intro ra part src sel e
    obtain ⟨-, hfit⟩ := cvt_wf m df sf r satf esel d a hwf
    refine ⟨fun hdf => ?_, fun hdf => ?_⟩
    · subst hdf
      exact completesV2_cvt m sf r satf esel d a
    · refine completesV_cvt hdf fun v t => ⟨fun i hi => ?_, fun hp i hi hout => ?_⟩
      · exact cvtWord_elem r satf _ _ hdf hfit i hi
      · exact cvtWord_kept r satf _ _ (hfit hp) hp i hi hout

/-! ### Dot products (R153, R154) -/

/-- A dot product of floating-point elements completes, rounded once. -/
theorem completesV_dot {i : Instr} {m : Mods} {d a b : VReg} (fa fb : Fmt)
    (he : ∀ s, exec i s = .next (s.dotInstr m fa fb d a b)) :
    CompletesV i m [a, b, addendReg m d] d (lastReads3 m [a] [b] [addendReg m d]) fun v t x =>
      x = dotRound (v.readV t (addendReg m d))
        ((List.range (32 / fa.width)).map fun k => fa.value (elemOf fa.width k (v.srcA m t a)).toNat)
        ((List.range (32 / fb.width)).map fun k => fb.value (elemOf fb.width k (v.srcB m t b)).toNat)
        (xmOrPlain m).rnd (xmOrPlain m).sat :=
  completesV_of (fun v t => dotRound (v.readV t (addendReg m d)) (elemsOf fa (v.srcA m t a)) (elemsOf fb (v.srcB m t b))
    (xmOrPlain m).rnd (xmOrPlain m).sat) he fun v t => by rw [elemsOf_ok, elemsOf_ok]

/-- A dot product of integer elements completes, wrapped or clamped once. -/
theorem completesV_intDot {i : Instr} {m : Mods} {d a b : VReg} (w : Nat) (hw : 0 < w) (ua ub : Bool)
    (he : ∀ s, exec i s = .next (s.intDotInstr m w ua ub d a b)) :
    CompletesV i m [a, b, addendReg m d] d (lastReads3 m [a] [b] [addendReg m d]) fun v t x =>
      x = fit (xmOrPlain m).sat 32 ((v.readV t (addendReg m d)).toInt + ((List.range (32 / w)).map fun k =>
        (if ua then ((elemOf w k (v.srcA m t a)).toNat : Int) else (elemOf w k (v.srcA m t a)).toInt) *
          (if ub then ((elemOf w k (v.srcB m t b)).toNat : Int) else (elemOf w k (v.srcB m t b)).toInt)).sum) :=
  completesV_of (fun v t => BitVec.ofNat 32 (fitInt (xmOrPlain m).sat 32
      ((v.readV t (addendReg m d)).toInt + intDot w ua ub (v.srcA m t a) (v.srcB m t b)))) he
    fun v t => by rw [ofNat_fitInt, intDot_ok w hw]

/-- Settles O15: the four instructions are two forms. -/
theorem dotProducts : Obligations.DotProducts := by
  unfold Obligations.DotProducts
  intro m d a b c srcs rel xm fs fsum el isum
  refine ⟨fun ae be => ?fdp4, ?fdp8, fun ua ub => ?idp4, fun ua ub => ?idp8⟩
  case fdp4 => exact completesV_dot (if ae then .e5m2 else .e4m3) (if be then .e5m2 else .e4m3) fun _ => rfl
  case fdp8 => exact completesV_dot .e2m1 .e2m1 fun _ => rfl
  case idp4 => exact completesV_intDot 8 (by decide) ua ub fun _ => rfl
  case idp8 => exact completesV_intDot 4 (by decide) ua ub fun _ => rfl

end Sys2Proof.Machine

/-! # The checks of an access through a region register (O27)

The check of a register (R160) has one lemma for each of its answers; what passes is aligned, and then placed in the band's bench
or by the TLB entry of its core (R188, R193). -/

namespace Sys2Proof.Machine

/-! ### The checks of an access (R159, R160) -/

/-- The kinds of register that permit a class (R159). -/
def Access.Permitted (cls : Access) (r : Region) : Prop := match cls with
  | .load => r.kind ≠ .a
  | .store => r.kind = .e
  | .atomic => r.kind ≠ .s
  | .homeOnly => r.kind = .a ∧ r.space = .region
  | .lookup => True

/-- An access of a size at an offset meets a child of its register (R160). -/
def Region.Overlaps (r : Region) (off : Int) (size : Nat) (c : KidRange) : Prop :=
  off < (c.base : Int) - r.base + c.len ∧ (c.base : Int) - r.base < off + size

theorem Region.permits_iff (r : Region) (cls : Access) : r.permits cls = true ↔ cls.Permitted r := by
  cases cls <;> simp [Region.permits, Access.Permitted]

theorem Region.overlaps_iff (r : Region) (off : Int) (size : Nat) (c : KidRange) :
    meets off size ((c.base : Int) - r.base) c.len = true ↔ r.Overlaps off size c := by
  simp only [meets, Bool.and_eq_true, decide_eq_true_eq, Region.Overlaps]

section Check

variable {r : Region} {off : Int} {size : Nat} {cls : Access}

theorem Region.check_of_refused (h : r.state = .refused) :
    r.check off size cls = some ⟨0x07, BitVec.ofNat 32 r.sub, BitVec.ofInt 57 off⟩ := if_pos h

theorem Region.check_of_unheld (h : r.state = .empty ∨ r.state = .pending) : r.check off size cls = some ⟨0x06, 1, BitVec.ofInt 57 off⟩ := by
  have hr : r.state ≠ .refused := by rcases h with h | h <;> simp [h]
  have hh : r.state ≠ .held := by rcases h with h | h <;> simp [h]
  exact (if_neg hr).trans (if_pos hh)

/-- The checks of a HELD register, in their order. -/
theorem Region.check_of_held (h : r.state = .held) : r.check off size cls =
    if 0 ≤ off ∧ off + size ≤ r.len then
      if r.permits cls then
        if r.kids.any fun k => meets off size ((k.base : Int) - r.base) k.len then some ⟨0x05, 3, BitVec.ofInt 57 off⟩ else .none
      else some ⟨0x05, 2, BitVec.ofInt 57 off⟩
    else some ⟨0x05, 1, BitVec.ofInt 57 off⟩ := by
  have hin : (decide (off < 0) || decide ((r.len : Int) < off + size)) = true ↔ ¬ (0 ≤ off ∧ off + size ≤ r.len) := by
    simp only [Bool.or_eq_true, decide_eq_true_eq]
    omega
  simp only [Region.check, h, reduceCtorEq, if_false, ne_eq, not_true_eq_false, hin, ite_not, Bool.not_eq_true', ← Bool.not_eq_true]
  rfl

theorem Region.check_of_outside (h : r.state = .held) (hin : ¬ (0 ≤ off ∧ off + size ≤ r.len)) :
    r.check off size cls = some ⟨0x05, 1, BitVec.ofInt 57 off⟩ := by
  rw [Region.check_of_held h, if_neg hin]

theorem Region.check_of_forbidden (h : r.state = .held) (hin : 0 ≤ off ∧ off + size ≤ r.len) (hp : ¬ cls.Permitted r) :
    r.check off size cls = some ⟨0x05, 2, BitVec.ofInt 57 off⟩ := by
  rw [Region.check_of_held h, if_pos hin, if_neg (mt (r.permits_iff cls).mp hp)]

theorem Region.check_of_overlap (h : r.state = .held) (hin : 0 ≤ off ∧ off + size ≤ r.len) (hp : cls.Permitted r)
    (hk : ∃ c ∈ r.kids, r.Overlaps off size c) : r.check off size cls = some ⟨0x05, 3, BitVec.ofInt 57 off⟩ := by
  rw [Region.check_of_held h, if_pos hin, if_pos ((r.permits_iff cls).mpr hp), if_pos]
  simpa only [List.any_eq_true, Region.overlaps_iff] using hk

theorem Region.check_of_passed (h : r.state = .held) (hin : 0 ≤ off ∧ off + size ≤ r.len) (hp : cls.Permitted r)
    (hk : ∀ c ∈ r.kids, ¬ r.Overlaps off size c) : r.check off size cls = .none := by
  rw [Region.check_of_held h, if_pos hin, if_pos ((r.permits_iff cls).mpr hp), if_neg]
  simpa only [List.any_eq_true, Region.overlaps_iff, not_exists, not_and] using hk

end Check

/-! ### The address (R193, R188) -/

section Address

variable {s : State} {t : Tid} {r : Region} {off : Int} {size align : Nat} {cls : Access} {u : Use}

theorem State.accessAddress_of_fail {f : Fail} (h : r.check off size cls = some f) :
    (s.accessAddress t r off size align cls u).2 = .fail f := by
  simp only [State.accessAddress, h]

theorem State.accessAddress_of_misaligned (h : r.check off size cls = none) (ha : (r.base + off) % align ≠ 0) :
    (s.accessAddress t r off size align cls u).2 = .fail ⟨0x08, 0, BitVec.ofInt 57 off⟩ := by
  simp only [State.accessAddress, h, bne_iff_ne, ne_eq, ha, not_false_eq_true, if_true]
  rfl

theorem State.accessAddress_of_aligned (h : r.check off size cls = none) (ha : (r.base + off) % align = 0) :
    s.accessAddress t r off size align cls u = s.reach t u (r.base + off).toNat r := by
  simp only [State.accessAddress, h, bne_iff_ne, ne_eq, ha, not_true_eq_false, if_false]

theorem State.reach_bench {b : Band} {va : Nat} (hs : r.space = .bench) (hb : s.band? t.band = some b) :
    (s.reach t u va r).2 = .ok ⟨va, .bench (b.benchAt va).1 (b.benchAt va).2, r⟩ := by
  simp only [State.reach, hs, if_true, hb]

/-- A translation that its use may use. -/
theorem useFail_none {e : TlbEntry} {sys : Bool} {lvl : Nat} (hp : e.prv = true → sys = true) (hw : u = .write → e.w = true)
    (hx : u = .fetch → e.x = true) : useFail e u sys lvl = none := by
  unfold useFail
  have hsys : (e.prv && !sys) = false := by cases h : e.prv <;> simp_all
  rw [hsys]
  cases u <;> simp_all

theorem State.reach_memory {e : TlbEntry} {va : Nat} (hs : r.space ≠ .bench) (hva : va < 2 ^ 57)
    (hwalk : s.walkFailed va u (s.inHandler t) = none) (he : s.tlb1 (s.coreOf t) (s.asidOf t) va = some e)
    (huse : useFail e u (s.inHandler t) 0 = none) : (s.reach t u va r).2 = .ok ⟨va, e.loc va, r⟩ := by
  simp only [State.reach, hs, if_false, State.translate, Nat.not_le.mpr hva, hwalk, he, huse]

end Address

/-- Settles O27: each check fails in its turn; an access that passes them all is placed in the bench or by the TLB entry. -/
theorem accessesChecked : Obligations.AccessesChecked := by
  unfold Obligations.AccessesChecked
  intro s t r off size align cls u
  refine ⟨fun h => ?refused, fun h => ?unheld, fun h hin => ?outside, fun h hin hp => ?forbidden, fun h hin hp hk => ?overlap,
    fun h hin hp hk => ?passed⟩
  case refused => exact State.accessAddress_of_fail (Region.check_of_refused h)
  case unheld => exact State.accessAddress_of_fail (Region.check_of_unheld h)
  case outside => exact State.accessAddress_of_fail (Region.check_of_outside h hin)
  case forbidden => exact State.accessAddress_of_fail (Region.check_of_forbidden h hin hp)
  case overlap => exact State.accessAddress_of_fail (Region.check_of_overlap h hin hp hk)
  case passed =>
    have hpass := Region.check_of_passed (cls := cls) h hin hp hk
    refine ⟨State.accessAddress_of_misaligned hpass, fun ha => ⟨fun b hs hb => ?bench, fun e hs hva hwalk he hprv hw hx => ?memory⟩⟩
    case bench => exact (congrArg Prod.snd (State.accessAddress_of_aligned hpass ha)).trans (State.reach_bench hs hb)
    case memory =>
      exact (congrArg Prod.snd (State.accessAddress_of_aligned hpass ha)).trans
        (State.reach_memory hs hva hwalk he (useFail_none hprv hw hx))

end Sys2Proof.Machine

/-! # Tests of region registers, and waits (O31)

An instruction without sources, last-reads or visible act completes where each thread's turn ends as its effect says; BWAIT, CHWAIT
and CWAIT have none but the place where their threads go on. -/

namespace Sys2Proof.Machine

/-- An issue of an instruction without sources, last-reads or visible act, each thread of which has its effect and ends. -/
theorem completes_runPlain {i : Instr} {m : Mods} {ok : Bundle → State → State → Tid → Prop}
    {eff : Bundle → State → State → Tid → State × Flow} {touch : Bundle → Touch} (body : State → State → Tid → State × Flow)
    (hi : ∀ s, exec i s = .next (s.runPlain m body))
    (hok : ∀ b v w t, ok b v w t → body v w t = eff b v w t ∧ (eff b v w t).2.ends = true) (hx : ∀ b, (touch b).Fits)
    (heff : ∀ b v w t, ok b v w t → Kept (touch b) w (eff b v w t).1) : Completes i m [] [] ok eff touch :=
  completes_plain (fun _ => body) (fun s _ _ => hi s) hok hx (fun _ _ hr => absurd hr List.not_mem_nil) heff

theorem completes_btst (m : Mods) (c : BtstCond) (d : PReg) (a : GReg) : Completes (.btst m c d a) m [] [] (fun _ _ _ _ => True)
    (fun _ _ w t =>
      let r := w.regT t a
      (w.writeP t d (match c with
        | .held => r.state == .held
        | .pending => r.state == .pending
        | .refused => r.state == .refused
        | .empty => r.state == .empty
        | .kids => !r.kids.isEmpty), .next)) fun _ => { preds := [d] } := by
  have hx : Touch.Fits { preds := [d] } := Touch.fits ..
  refine completes_runPlain _ (fun _ => rfl) (fun _ _ w t _ => ⟨?_, rfl⟩) (fun _ => hx) fun _ _ w t _ =>
    Kept.writeP hx w t d _ List.mem_cons_self
  cases c <;> rfl

/-- BQRY writes the field of the register as the thread finds it, 0 for an EMPTY one (R157, R172). -/
theorem Region.field_eq (r : Region) (f : BqryField) : r.field f = BitVec.ofNat 32 (if r.state = .empty then 0 else match f with
    | .lo => r.base
    | .hi => r.base / 2 ^ 32
    | .len => r.len
    | .stat => gstateCode r.state + 2 ^ 3 * kindCode r.kind + 2 ^ 5 * spaceCode r.space + 2 ^ 7 * bitN r.top +
        2 ^ 8 * r.kids.length + 2 ^ 16 * r.parent + 2 ^ 24 * (if r.state = .refused then r.sub else 0)
    | .deed => r.deed) := by
  unfold Region.field
  split
  · rfl
  · cases f <;> rfl

theorem completes_bqry (m : Mods) (f : BqryField) (d : VReg) (a : GReg) : Completes (.bqry m f d a) m [] []
    (fun _ _ w t => w.alloc t.band t.troop (w.needs t [d]).eraseDups.length = .ok)
    (fun _ _ w t => ((w.reserve t [d]).writeV t d ((w.regT t a).field f), .next)) fun _ => { regs := [d] } := by
  have hx : Touch.Fits { regs := [d] } := Touch.fits ..
  refine completes_runPlain (fun _ w t => match w.take t [d] with
      | .error e => (w, e)
      | .ok w1 => (w1.writeV t d ((w.regT t a).field f), .next)) (fun _ => rfl)
    (fun _ _ w t h => ⟨?_, rfl⟩) (fun _ => hx) fun _ _ w t _ => ?_
  · rw [State.take_ok w t [d] h]
  · exact (Kept.reserve hx w t [d]).trans hx (Kept.writeV hx _ t d _ List.mem_cons_self)

/-- An instruction that changes nothing but where its threads stand: they wait or go on. -/
theorem completes_waits {i : Instr} {m : Mods} {flow : State → Tid → Flow} (body : State → State → Tid → State × Flow)
    (hi : ∀ s, exec i s = .next (s.runPlain m body)) (hbody : ∀ v w t, body v w t = (w, flow w t)) (hends : ∀ w t, (flow w t).ends = true) :
    Completes i m [] [] (fun _ _ _ _ => True) (fun _ _ w t => (w, flow w t)) fun _ => {} :=
  completes_runPlain body hi (fun _ v w t _ => ⟨hbody v w t, hends w t⟩) (fun _ => Touch.fits ..) fun _ _ w _ _ => Kept.refl (Touch.fits ..) w

/-- Settles O31: BTST writes a predicate, BQRY a register, and BWAIT, CHWAIT and CWAIT only say where their threads go. -/
theorem testsAndWaits : Obligations.TestsAndWaits := by
  unfold Obligations.TestsAndWaits
  refine ⟨completes_btst, fun m f d a => ?bqry, fun m a => ?bwait, fun m => ?chwait, fun m cls n => ?cwait⟩
  case bqry =>
    have h := completes_bqry m f d a
    simp only [Region.field_eq] at h
    exact h
  case bwait =>
    refine completes_waits _ (fun _ => rfl) (fun _ w t => ?_) fun w t => ?_
    · exact (apply_ite (Prod.mk w) ..).symm
    · split <;> rfl
  case chwait =>
    refine completes_waits _ (fun _ => rfl) (fun _ w t => ?_) fun w t => ?_
    · simp only [List.isEmpty_iff, apply_ite (Prod.mk w)]
    · split <;> rfl
  case cwait =>
    refine completes_waits _ (fun _ => rfl) (fun _ w t => ?_) fun w t => ?_
    · exact (apply_ite (Prod.mk w) ..).symm
    · split <;> rfl

end Sys2Proof.Machine

/-! # What answers do at the requester (O44)

A message that may be delivered leaves the fabric and is taken by the borrow or return that it names. Between the register that a grant
or refusal fills and the outcome lie only flags given up and lines moved, which no register sees; so each part of the state after is
read off one equation for the whole. Of the caches this is needed, that an invalidation drops its line and brings none in. -/

namespace Sys2Proof.Machine

/-! ### Messages that may be delivered (R177, R343) -/

/-- A message is the oldest of its register at its home, and between modules the oldest of its pair. -/
def State.Due (s : State) (m : Msg) : Prop := s.msgs.find? (·.id == m.id) = some m ∧
  ∀ x ∈ s.msgs, x.id < m.id → x.body.toHolder = m.body.toHolder →
    ¬ (x.home = m.home ∧ (5 ≤ m.home ∨ x.who = m.who)) ∧ ∀ n, x.who = m.who → m.who ≠ .peer n

theorem State.msg?_of_due {s : State} {m : Msg} (h : s.Due m) : s.msg? m.id = some m := by
  obtain ⟨hfind, hold⟩ := h
  have hdel : s.deliverable m = true := by
    simp only [State.deliverable, Bool.not_eq_true', List.any_eq_false, Bool.and_eq_true, Bool.or_eq_true, decide_eq_true_eq,
      beq_iff_eq]
    rintro x hx ⟨⟨hlt, hway⟩, hclash⟩
    obtain ⟨hhome, hpeer⟩ := hold x hx hlt hway
    rcases hclash with h | ⟨hwho, habroad⟩
    · exact hhome h
    · cases hm : m.who <;> simp only [hm, reduceCtorEq] at habroad
      exact hpeer _ hwho hm
  simp only [State.msg?, hfind, Option.filter_some, hdel, if_true]

section Delivered

variable {s : State} {id home : Nat} {who : Asker}

theorem State.toPeer_of_own (hwho : ∀ n, who ≠ .peer n) (body : MsgBody) : s.toPeer ⟨id, home, who, body⟩ = none := by
  cases who <;> simp_all [State.toPeer]

theorem exec_dgrant {tag deed : Nat} {kind : Kind} (h : s.Due ⟨id, home, who, .dgrant tag deed kind⟩) :
    exec (.dgrant id) s = .next ((s.toPeer ⟨id, home, who, .dgrant tag deed kind⟩).getD
      ((s.dropMsg id).takeGrant home who tag deed kind)) := by
  change execDgrant id s = _
  simp only [execDgrant, State.msg?_of_due h]

theorem exec_drefuse {tag sub : Nat} (h : s.Due ⟨id, home, who, .drefuse tag sub⟩) :
    exec (.drefuse id) s = .next ((s.toPeer ⟨id, home, who, .drefuse tag sub⟩).getD
      ((s.dropMsg id).takeRefusal tag (refusalSub home sub))) := by
  change execDrefuse id s = _
  simp only [execDrefuse, State.msg?_of_due h]

theorem exec_drelack {ret : Nat} (h : s.Due ⟨id, home, who, .drelack ret⟩) :
    exec (.drelack id) s = .next ((s.toPeer ⟨id, home, who, .drelack ret⟩).getD ((s.dropMsg id).takeAck ret)) := by
  change execDrelack id s = _
  simp only [execDrelack, State.msg?_of_due h]

end Delivered

theorem askerOf_ne_peer (t : Tid) (g : GReg) (n : Nat) : askerOf t g ≠ .peer n := by
  unfold askerOf
  split <;> exact nofun

/-- Messages sent in turn, each with a body of its own to a home of its own. -/
def State.sendEach {α : Type} (s : State) (who : Asker) (home : α → Nat) (body : α → MsgBody) (l : List α) : State :=
  l.foldl (fun w a => w.send (home a) who (body a)) s

theorem State.sendEach_rest {α : Type} (s : State) (who : Asker) (home : α → Nat) (body : α → MsgBody) (l : List α) :
    s.sendEach who home body l = { s with msgs := (s.sendEach who home body l).msgs, fresh := (s.sendEach who home body l).fresh } := by
  induction l generalizing s with
  | nil => rfl
  | cons a l ih => exact ih (s.send (home a) who (body a))

theorem State.mem_sendEach {α : Type} (s : State) (who : Asker) (home : α → Nat) (body : α → MsgBody) {l : List α} {a : α} (ha : a ∈ l) :
    ∃ m ∈ (s.sendEach who home body l).msgs, m.home = home a ∧ m.body = body a :=
  foldl_of_mem (P := fun w : State => ∃ m ∈ w.msgs, m.home = home a ∧ m.body = body a)
    (fun _ _ ⟨m, hm, hsent⟩ => ⟨m, List.mem_append_left _ hm, hsent⟩) ha
    (fun _ => ⟨_, List.mem_append_right _ List.mem_cons_self, rfl, rfl⟩) s

/-! ### Region registers read after a change (R157, R161) -/

/-- What a map that keeps bands' numbers does not see, a look-up by number does not see either. -/
theorem State.band?_of_map_eq {s u : State} {e : Band → Band} (he : ∀ x, (e x).id = x.id) (h : u.bands.map e = s.bands.map e) (b : Nat) :
    (u.band? b).map e = (s.band? b).map e := by
  have hmap (l : List Band) : (l.find? (·.id == b)).map e = (l.map e).find? (·.id == b) :=
    (find?_map_same e (·.id == b) (·.id == b) l fun x => by rw [he]).symm
  simp only [State.band?, hmap, h]

theorem State.reg_of_map_eq {s u : State} {e : Band → Band} (he : ∀ x, (e x).id = x.id) (hg : ∀ x, (e x).g = x.g)
    (htr : ∀ x, (e x).troops.map Troop.g = x.troops.map Troop.g) (h : u.bands.map e = s.bands.map e) (b t : Nat) (g : GReg) :
    u.reg b t g = s.reg b t g := by
  have hband := State.band?_of_map_eq he h b
  unfold State.reg State.troop?
  cases hu : u.band? b with
  | none => cases hs : s.band? b <;> simp_all
  | some x =>
    cases hs : s.band? b with
    | none => simp_all
    | some y =>
      simp only [hu, hs, Option.map_some, Option.some.injEq] at hband
      have hxy : x.troops.map Troop.g = y.troops.map Troop.g := by rw [← htr, hband, htr]
      have hgg : x.g = y.g := by rw [← hg, hband, hg]
      have htroop := congrArg (·[t]?) hxy
      simp only [List.getElem?_map] at htroop
      split
      · cases hx : x.troops[t]? <;> cases hy : y.troops[t]? <;> simp_all
      · simp [hgg]

/-- A register that exists holds what is put there. -/
theorem State.regT_modReg {s : State} {t : Tid} {g : GReg} (h : (s.regT t g).state ≠ .empty) (f : Region → Region) :
    (s.modReg t.band t.troop g f).regT t g = f (s.regT t g) := by
  unfold State.regT State.reg State.modReg at *
  split
  · next hg =>
    rw [if_pos hg] at h
    rw [State.troop?_modTroop, if_pos ⟨rfl, rfl⟩]
    cases htr : s.troop? t.band t.troop with
    | none => simp [htr, Region.none] at h
    | some x =>
      simp only [htr, Option.bind_some, Option.map_some, getElem?_modAt, if_true] at h ⊢
      cases hx : x.g[g.val]? with
      | none => simp [hx, Region.none] at h
      | some r => rfl
  · next hg =>
    rw [if_neg hg] at h
    rw [State.band?_modBand_self s _ _ (by exact fun _ => rfl)]
    cases hb : s.band? t.band with
    | none => simp [hb, Region.none] at h
    | some x =>
      simp only [hb, Option.bind_some, Option.map_some, getElem?_modAt, if_true] at h ⊢
      cases hx : x.g[g.val - 8]? with
      | none => simp [hx, Region.none] at h
      | some r => rfl

theorem State.modReg_rest (s : State) (b t : Nat) (g : GReg) (f : Region → Region) :
    s.modReg b t g f = { s with bands := (s.modReg b t g f).bands } := by
  unfold State.modReg
  split <;> rfl

/-- A change of a register leaves all that bands hold beside registers. -/
theorem State.unborrowed_modReg (s : State) (b t : Nat) (g : GReg) (f : Region → Region) :
    (s.modReg b t g f).bands.map Band.unborrowed = s.bands.map Band.unborrowed := by
  unfold State.modReg
  split
  · refine map_modIf _ _ _ _ fun x => ?_
    have htr := map_modAt (fun y : Troop => ({ y with g := [] } : Troop)) x.troops t (fun y => { y with g := modAt y.g g.val f }) fun _ => rfl
    simp only [Band.unborrowed, Band.unpoint, Band.modTroop, htr]
  · exact map_modIf _ _ _ _ fun _ => rfl

/-! ### Flags given up (R101, R170) -/

theorem State.clearFlags_eq (s : State) (o : Nat) (src : Bool) :
    s.clearFlags o src = { s with bands := (s.clearFlags o src).bands, holds := (s.clearFlags o src).holds } ∧
    (s.clearFlags o src).bands.map Band.idle = s.bands.map Band.idle := by
  unfold State.clearFlags
  extract_lets hit ts
  obtain ⟨hrest, hbands, -⟩ := State.refreshAll_keep ts { s with holds := s.holds.filter fun h => !hit h }
  exact ⟨by rw [hrest], hbands⟩

theorem State.regT_clearFlags (s : State) (o : Nat) (src : Bool) (t : Tid) (g : GReg) : (s.clearFlags o src).regT t g = s.regT t g :=
  State.reg_of_map_eq (e := Band.idle) (fun _ => rfl) (fun _ => rfl) (fun x => by simp [Band.idle, Troop.idle, Function.comp_def])
    (s.clearFlags_eq o src).2 ..

/-! ### The register of a borrow (R158, R180) -/

/-- Pairs, states and cores of bands, as region registers leave them. -/
theorem State.askers_of_unborrowed {s u : State} (h : u.bands.map Band.unborrowed = s.bands.map Band.unborrowed) :
    (∀ b, u.partner b = s.partner b) ∧ (∀ who, u.askerBands who = s.askerBands who) ∧ ∀ who, u.askerCores who = s.askerCores who := by
  have hband := State.band?_of_map_eq (e := Band.unborrowed) (fun _ => rfl) h
  have hof {α : Type} (F : Band → α) (hF : ∀ x, F x.unborrowed = F x) (b : Nat) : (u.band? b).map F = (s.band? b).map F := by
    have hmap (o : Option Band) : o.map F = (o.map Band.unborrowed).map F := by
      cases o <;> simp [hF]
    rw [hmap, hband, ← hmap]
  have hpartner (b : Nat) : u.partner b = s.partner b := by
    have := hof (fun x => x.pair.map (·.2)) (fun _ => rfl) b
    unfold State.partner
    cases hu : u.band? b <;> cases hs : s.band? b <;> simp_all
  have hbands (who : Asker) : u.askerBands who = s.askerBands who := by
    cases who <;> simp only [State.askerBands, hpartner]
  have hcores (b t : Nat) (g : GReg) : u.holderCores b t g = s.holderCores b t g := by
    have := hof (fun x => if g.val < 8 then [x.coreOf t] else x.cores) (fun _ => rfl) b
    unfold State.holderCores
    cases hu : u.band? b <;> cases hs : s.band? b <;> simp_all
  have hlives (b : Nat) : (u.band? b).map (fun x => Decidable.decide (x.state = .resident)) =
      (s.band? b).map fun x => Decidable.decide (x.state = .resident) :=
    hof (fun x => Decidable.decide (x.state = .resident)) (fun _ => rfl) b
  refine ⟨hpartner, hbands, fun who => ?_⟩
  cases who <;> simp only [State.askerCores, hbands, hcores, hlives]

theorem State.modAskerReg_of_single {s : State} {t : Tid} (hp : s.partner t.band = none) (g : GReg) (f : Region → Region) :
    s.modAskerReg (askerOf t g) f = s.modReg t.band t.troop g f := by
  by_cases hg : g.val < 8
  · simp only [askerOf, hg, if_true, State.modAskerReg, hp]
  · simp only [askerOf, hg, if_false, State.modAskerReg, hp, State.modReg]

/-! ### Lines that a grant drops (R186, R252) -/

theorem CacheOnly.invalRange (s : State) (cores lines : List Nat) : CacheOnly s (s.invalRange cores lines) :=
  (CacheOnly.foldl _ _ _ fun _ _ => CacheOnly.foldl _ _ _ fun _ _ => CacheOnly.invalL1 ..).trans
    (CacheOnly.foldl _ _ _ fun _ _ => CacheOnly.foldl _ _ _ fun _ _ => CacheOnly.invalL2 ..)

section Dropped

variable {s : State} {c line : Nat}

theorem State.l1Line?_invalL2 (d k : Nat) : (s.invalL2 d k).l1Line? c line = s.l1Line? c line := by
  simp only [State.l1Line?, State.core?, State.cores_invalL2]

theorem State.l1Line?_invalAll_of_none (d : Nat) (lines : List Nat) (h : s.l1Line? c line = none) :
    (lines.foldl (fun w l => w.invalL1 d l) s).l1Line? c line = none :=
  foldl_keeps (P := fun w : State => w.l1Line? c line = none) (fun w l hw => w.l1Line?_invalL1_of_none d l hw) lines h

theorem State.l1Line?_acquireOn_of_none (b d : Nat) (h : s.l1Line? c line = none) : (s.acquireOn b d).l1Line? c line = none :=
  State.l1Line?_invalAll_of_none d _ h

theorem State.l1Line?_invalDies_of_none (dies lines : List Nat) (h : s.l1Line? c line = none) :
    (dies.foldl (fun w d => lines.foldl (fun w l => w.invalL2 d l) w) s).l1Line? c line = none :=
  foldl_keeps (P := fun w : State => w.l1Line? c line = none)
    (fun _ d hw => foldl_keeps (P := fun w : State => w.l1Line? c line = none)
      (fun _ l hw => (State.l1Line?_invalL2 d l).trans hw) lines hw) dies h

/-- A line that a core does not hold stays away; one of the range goes. -/
theorem State.l1Line?_invalRange {cores lines : List Nat} (hc : c ∈ cores) (h : s.l1Line? c line = none ∨ line ∈ lines) :
    (s.invalRange cores lines).l1Line? c line = none := by
  refine State.l1Line?_invalDies_of_none _ lines ?_
  rcases h with h | h
  · exact foldl_keeps (P := fun w : State => w.l1Line? c line = none) (fun _ d hw => State.l1Line?_invalAll_of_none d lines hw) cores h
  · exact foldl_of_mem (P := fun w : State => w.l1Line? c line = none) (fun _ d hw => State.l1Line?_invalAll_of_none d lines hw) hc
      (foldl_of_mem (P := fun w : State => w.l1Line? c line = none) (fun w l hw => w.l1Line?_invalL1_of_none c l hw) h
        fun w => w.l1Line?_inval c line) s

theorem State.not_mem_l1_of_none {k : CoreSt} (hk : s.core? c = some k) (h : s.l1Line? c line = none) :
    ∀ l ∈ k.l1, l.line ≠ line := by
  simpa only [State.l1Line?, hk, Option.bind_some, List.find?_eq_none, beq_iff_eq] using h

end Dropped

/-! ### Grants and refusals at the requester (R161, R164, R166) -/

section Answered

variable {s : State} {tag : Nat} {b : Borrow} {p : Piece} {t : Tid} {g : GReg}

/-- The register and the family that the grant of a last piece makes, before the caches of its holders move. -/
def State.grantHeld (s : State) (b : Borrow) (t : Tid) (g : GReg) : State :=
  let space := if b.got.any (5 ≤ ·.home) then Space.peer else .region
  ({ s with families := s.families ++ [⟨b.family, b.asid, b.kind, space, b.got, 1⟩] } : State).modReg t.band t.troop g fun r =>
    { r with state := .held, space := space, deed := (b.got.head?.map fun x => min x.home 5 * 2 ^ 17 + x.idx).getD 0, family := b.family }

/-- The caches of the holders after the grant of a last piece: S and E drop the range, which is an acquire at `.device` (R251). -/
def State.grantDropped (s : State) (b : Borrow) : State :=
  (s.askerBands b.who).foldl (fun w x => (s.askerCores b.who).foldl (fun w c => w.acquireOn x c) w)
    (s.invalRange (s.askerCores b.who) (b.got.map fun x => s.cachedLines b.asid x.base x.len).flatten)

theorem CacheOnly.grantDropped (s : State) (b : Borrow) : CacheOnly s (s.grantDropped b) :=
  (CacheOnly.invalRange ..).trans (CacheOnly.foldl _ _ _ fun _ _ => CacheOnly.foldl _ _ _ fun _ _ => CacheOnly.acquireOn ..)

theorem State.holdReg_of_single (hwho : b.who = askerOf t g) (hp : s.partner t.band = none) :
    s.holdReg b = if b.kind = .a then s.grantHeld b t g else (s.grantHeld b t g).grantDropped b := by
  have hreg (w : State) (hw : w.bands = s.bands) (f : Region → Region) :
      w.modAskerReg b.who f = w.modReg t.band t.troop g f := by
    rw [hwho, State.modAskerReg_of_single]
    simpa only [State.partner, State.band?, hw] using hp
  have hgrid (n : Nat) : b.who ≠ .grid n := by
    rw [hwho]
    unfold askerOf
    split <;> exact nofun
  unfold State.holdReg
  cases hw : b.who with
  | grid n => exact absurd hw (hgrid n)
  | _ =>
    simp only [← hw, hreg]
    rfl

/-- No core that holds the register keeps a line of a granted range in its L1. -/
theorem State.l1Line?_grantDropped {c line : Nat} {x : Grant} (hx : x ∈ b.got) (hc : c ∈ s.askerCores b.who)
    (hline : line ∈ s.rangeLines b.asid x.base x.len) : (s.grantDropped b).l1Line? c line = none := by
  refine foldl_keeps (P := fun w : State => w.l1Line? c line = none) (fun _ y hw => foldl_keeps (P := fun w : State => w.l1Line? c line = none)
    (fun _ d hw => State.l1Line?_acquireOn_of_none y d hw) _ hw) _ (State.l1Line?_invalRange hc ?_)
  by_cases h : s.l1Line? c line = none
  · exact Or.inl h
  · exact Or.inr (List.mem_flatten.mpr ⟨_, List.mem_map.mpr ⟨x, hx, rfl⟩, s.mem_cachedLines hline h⟩)

theorem State.takeGrant_of_last {home deed : Nat} {who : Asker} {kind : Kind} (hb : s.borrows.find? (·.tag == tag) = some b)
    (htodo : b.todo = [p]) : s.takeGrant home who tag deed kind =
      (({ s with borrows := s.borrows.filter (·.tag != tag) } : State).holdReg
        { b with todo := [], got := b.got ++ [⟨home, deed % 2 ^ 17, p.base, p.len⟩] }).clearFlags tag false := by
  simp only [State.takeGrant, hb, htodo, List.isEmpty_nil, if_true]
  rfl

theorem State.grantHeld_rest (s : State) (b : Borrow) (t : Tid) (g : GReg) : s.grantHeld b t g = { s with
    bands := (s.grantHeld b t g).bands
    families := s.families ++ [⟨b.family, b.asid, b.kind, if b.got.any (5 ≤ ·.home) then .peer else .region, b.got, 1⟩] } :=
  State.modReg_rest ..

/-- What the grant of the last piece of a register's borrow leaves: the register, the family, and the caches of S and E. -/
theorem State.takeGrant_last {home deed : Nat} {who : Asker} {kind : Kind} (hb : s.borrows.find? (·.tag == tag) = some b)
    (hwho : b.who = askerOf t g) (htodo : b.todo = [p]) (hp : s.partner t.band = none) (hpend : (s.regT t g).state = .pending) :
    let all := b.got ++ [⟨home, deed % 2 ^ 17, p.base, p.len⟩]
    let space := if all.any (5 ≤ ·.home) then Space.peer else .region
    let u := s.takeGrant home who tag deed kind
    u.regT t g = { s.regT t g with
      state := .held, space := space, deed := (all.head?.map fun x => min x.home 5 * 2 ^ 17 + x.idx).getD 0, family := b.family } ∧
    u.borrows = s.borrows.filter (·.tag != tag) ∧ u.families = s.families ++ [⟨b.family, b.asid, b.kind, space, all, 1⟩] ∧
    u.msgs = s.msgs ∧
    (b.kind ≠ .a → ∀ c ∈ s.askerCores b.who, ∀ k, u.core? c = some k → ∀ l ∈ k.l1, ∀ x ∈ all,
      l.line ∉ s.rangeLines b.asid x.base x.len) ∧
    (b.kind = .a → u.cores = s.cores ∧ u.dies = s.dies) := by
  intro all space u
  let s0 : State := { s with borrows := s.borrows.filter (·.tag != tag) }
  let b1 : Borrow := { b with todo := [], got := all }
  let v : State := if b.kind = .a then s0.grantHeld b1 t g else (s0.grantHeld b1 t g).grantDropped b1
  have hu : u = v.clearFlags tag false := (State.takeGrant_of_last hb htodo).trans
    (congrArg (·.clearFlags tag false) (State.holdReg_of_single (s := s0) (b := b1) hwho hp))
  have hcaches : CacheOnly (s0.grantHeld b1 t g) v := by
    unfold v
    split
    · exact CacheOnly.refl _
    · exact CacheOnly.grantDropped ..
  have hrest : u = { s0 with bands := u.bands, holds := u.holds, families := s.families ++ [⟨b.family, b.asid, b.kind, space, all, 1⟩]
                             mem := v.mem, peerMem := v.peerMem, poison := v.poison, unreturned := v.unreturned
                             cores := v.cores, dies := v.dies } := by
    have h := (v.clearFlags_eq tag false).1
    rw [← hu] at h
    have hv := hcaches.rest
    rw [State.grantHeld_rest] at hv
    rw [hv] at h
    exact h
  refine ⟨?_, (congrArg State.borrows hrest :), (congrArg State.families hrest :), (congrArg State.msgs hrest :),
    fun hkind c hc k hk l hl x hx hline => ?_,
    fun hkind => ?_⟩
  · have hbands : v.bands = (s0.grantHeld b1 t g).bands := (congrArg State.bands hcaches.rest :)
    have hreg : v.regT t g = (s0.grantHeld b1 t g).regT t g := by
      simp only [State.regT, State.reg, State.troop?, State.band?, hbands]
    rw [hu, State.regT_clearFlags, hreg]
    exact State.regT_modReg (s := { s0 with families := s.families ++ [⟨b.family, b.asid, b.kind, space, all, 1⟩] })
      (fun h => absurd (hpend.symm.trans h) nofun) _
  · have hheld : (s0.grantHeld b1 t g).askerCores b.who = s.askerCores b.who :=
      (State.askers_of_unborrowed ((State.unborrowed_modReg ..).trans rfl)).2.2 _
    have hdrop : ((s0.grantHeld b1 t g).grantDropped b1).l1Line? c l.line = none := by
      refine State.l1Line?_grantDropped (x := x) hx (by rw [← hheld] at hc; exact hc) ?_
      have hg := State.grantHeld_rest s0 b1 t g
      rw [State.rangeLines_of_eq (congrArg State.mem hg :) (congrArg State.ctxs hg :)]
      exact hline
    have hv : v = (s0.grantHeld b1 t g).grantDropped b1 := if_neg hkind
    have hcore : v.core? c = some k := by
      have : u.core? c = v.core? c := congrArg (·.find? (·.id == c)) (congrArg State.cores hrest :)
      exact this.symm.trans hk
    exact State.not_mem_l1_of_none hcore (by rw [hv]; exact hdrop) l hl rfl
  · have hv : v = s0.grantHeld b1 t g := if_pos hkind
    have hg := State.grantHeld_rest s0 b1 t g
    rw [← hv] at hg
    exact ⟨(congrArg State.cores hrest :).trans (congrArg State.cores hg :), (congrArg State.dies hrest :).trans (congrArg State.dies hg :)⟩

/-- The request for a piece of a borrow (R164, R177). -/
def State.pieceReq (s : State) (tag : Nat) (b : Borrow) (q : Piece) : DeedReq :=
  ⟨tag, b.domain, b.asid, s.requester b.who, s.pieceKey b.asid q, q.len, b.kind, b.nowait,
    if q.home < 5 then b.deadline else s.clock + Config.peerDeedWait (q.home - 5)⟩

theorem find?_modIf_const {α : Type} {f : α → Bool} {l : List α} {a b : α} (h : l.find? f = some a) (hb : f b = true) :
    (modIf f (fun _ => b) l).find? f = some b := by
  induction l with
  | nil => exact absurd h nofun
  | cons x l ih =>
    cases hx : f x with
    | true => simp only [modIf, List.map_cons, hx, if_true, List.find?_cons, hb]
    | false =>
      rw [List.find?_cons, hx] at h
      simpa only [modIf, List.map_cons, List.find?_cons, hx, Bool.false_eq_true, if_false] using ih h

theorem State.takeGrant_of_more {home deed : Nat} {who : Asker} {kind : Kind} {q : Piece} {rest : List Piece}
    (hb : s.borrows.find? (·.tag == tag) = some b) (htodo : b.todo = p :: q :: rest) :
    s.takeGrant home who tag deed kind = { s with
      borrows := modIf (·.tag == tag)
        (fun _ => { b with todo := q :: rest, got := b.got ++ [⟨home, deed % 2 ^ 17, p.base, p.len⟩] }) s.borrows
      msgs := s.msgs ++ [⟨s.fresh, q.home, b.who, .dreq (s.pieceReq tag b q)⟩], fresh := s.fresh + 1 } := by
  have htag : (b.tag == tag) = true := by simpa using List.find?_some hb
  have hnext := find?_modIf_const hb
    (b := { b with todo := q :: rest, got := b.got ++ [⟨home, deed % 2 ^ 17, p.base, p.len⟩] }) htag
  simp only [State.takeGrant, hb, htodo, List.isEmpty_cons, Bool.false_eq_true, if_false, State.askNext, hnext]
  rfl

theorem State.takeGrant_of_withdrawn {home deed : Nat} {who : Asker} {kind : Kind} (hb : s.borrows.find? (·.tag == tag) = none) :
    s.takeGrant home who tag deed kind = s.send home who (.drel (deed % 2 ^ 17) kind tag 0) := by
  simp only [State.takeGrant, hb]

/-- What the refusal of a register's borrow leaves: the register, its count, and the releases of the pieces granted before. -/
theorem State.takeRefusal_of_single {sub : Nat} (hb : s.borrows.find? (·.tag == tag) = some b) (hwho : b.who = askerOf t g)
    (hp : s.partner t.band = none) (hpend : (s.regT t g).state = .pending) :
    let u := s.takeRefusal tag sub
    u.regT t g = { s.regT t g with state := .refused, sub := sub } ∧ u.borrows = s.borrows.filter (·.tag != tag) ∧
    u.ctxs = modIf (·.asid == b.asid) (fun c => { c with borref := satInc c.borref }) s.ctxs ∧
    ∀ x ∈ b.got, ∃ m ∈ u.msgs, m.home = x.home ∧ m.body = .drel x.idx b.kind b.tag 0 := by
  intro u
  let s1 : State := { s with borrows := s.borrows.filter (·.tag != tag) }
  let sent : State := s1.sendEach b.who (·.home) (fun x => .drel x.idx b.kind b.tag 0) b.got
  let refused : State := (sent.countRef b.asid).modReg t.band t.troop g fun r => { r with state := .refused, sub := sub }
  have hsent := s1.sendEach_rest b.who (·.home) (fun x => .drel x.idx b.kind b.tag 0) b.got
  have hbands : (sent.countRef b.asid).bands = s.bands := (congrArg State.bands hsent :)
  have hsingle : (sent.countRef b.asid).partner t.band = none := by
    simpa only [State.partner, State.band?, hbands] using hp
  have hreg : (sent.countRef b.asid).regT t g = s.regT t g := by
    simp only [State.regT, State.reg, State.troop?, State.band?, hbands]
  have hu : u = refused.clearFlags tag false := by
    have hto : (sent.countRef b.asid).refuseReg b.who sub = refused := by
      unfold State.refuseReg
      cases hw : b.who with
      | grid n =>
        rw [hwho] at hw
        unfold askerOf at hw
        split at hw <;> exact absurd hw nofun
      | _ => exact (congrArg (fun w => State.modAskerReg _ w _) (hw.symm.trans hwho)).trans (State.modAskerReg_of_single hsingle g _)
    have h : u = ((sent.countRef b.asid).refuseReg b.who sub).clearFlags tag false := by
      simp only [u, State.takeRefusal, hb]
      rfl
    rw [h, hto]
  have hrest : u = { s1 with
      bands := u.bands, holds := u.holds, msgs := sent.msgs, fresh := sent.fresh
      ctxs := modIf (·.asid == b.asid) (fun c => { c with borref := satInc c.borref }) s.ctxs } := by
    have h := (refused.clearFlags_eq tag false).1
    rw [← hu] at h
    have hr : refused = { sent.countRef b.asid with bands := refused.bands } := State.modReg_rest ..
    rw [hr] at h
    simp only [State.countRef, State.modCtx] at h
    have hs : sent = { s1 with msgs := sent.msgs, fresh := sent.fresh } := hsent
    rw [hs] at h
    exact h
  refine ⟨?_, (congrArg State.borrows hrest :), (congrArg State.ctxs hrest :), fun x hx => ?_⟩
  · rw [hu, State.regT_clearFlags, ← hreg]
    exact State.regT_modReg (by rw [hreg, hpend]; exact nofun) _
  · rw [(congrArg State.msgs hrest :)]
    exact s1.mem_sendEach b.who (·.home) (fun x => .drel x.idx b.kind b.tag 0) hx

end Answered

/-! ### Write-backs (R175, R186) -/

theorem CacheOnly.discardLines (s : State) (cores : List Nat) (die : Option Nat) (lines : List Nat) :
    CacheOnly s (s.discardLines cores die lines) where
  rest := rfl
  cores := by
    simp only [State.discardLines, List.map_map]
    exact List.map_congr_left fun c _ => by simp only [Function.comp]; split <;> rfl
  dies := by
    simp only [State.discardLines, List.map_map]
    exact List.map_congr_left fun d _ => by simp only [Function.comp]; split <;> rfl

theorem CacheOnly.dropGuests (s : State) (die asid : Nat) (lines : List Nat) : CacheOnly s (s.dropGuests die asid lines) :=
  CacheOnly.foldl _ _ _ fun w l => by
    split
    · exact CacheOnly.refl w
    · exact CacheOnly.invalL2 ..

theorem CacheOnly.writeDownsL1 (s : State) (cores lines : List Nat) :
    CacheOnly s (cores.foldl (fun w c => lines.foldl (fun w l => w.writeDownL1 c l) w) s) :=
  CacheOnly.foldl _ _ _ fun _ _ => CacheOnly.foldl _ _ _ fun _ _ => CacheOnly.writeDownL1 ..

theorem CacheOnly.writeBack (s : State) (r : Return) : CacheOnly s (s.writeBack r) := by
  unfold State.writeBack
  extract_lets reg asid cores lines done dies down s1
  have hdone (w : State) : CacheOnly w (done w) := by
    unfold done
    split
    · exact ⟨rfl, rfl, rfl⟩
    · exact CacheOnly.refl w
  have hdown : CacheOnly s s1 := by
    unfold s1
    split
    · exact (CacheOnly.writeDownsL1 s cores lines).trans
        (CacheOnly.foldl _ _ _ fun _ _ => CacheOnly.foldl _ _ _ fun _ _ => CacheOnly.writeDownL2 ..)
    · exact CacheOnly.refl s
  split
  · exact CacheOnly.refl s
  · split
    · exact (CacheOnly.discardLines ..).trans (hdone _)
    · split
      · split
        · exact CacheOnly.writeDownsL1 ..
        · exact CacheOnly.refl s
      · exact (hdown.trans (CacheOnly.foldl _ _ _ fun _ _ => CacheOnly.dropGuests ..)).trans (hdone _)

/-- The caches after the write-back of a return, which an RTN.rel begins with a release (R175, R176). -/
def State.writtenBack (s : State) (r : Return) : State := (if r.rel then s.releaseLines r.tid .device else s).writeBack r

section WrittenBack

variable {s : State} {r : Return}

theorem CacheOnly.released (s : State) (r : Return) : CacheOnly s (if r.rel then s.releaseLines r.tid .device else s) := by
  split
  · exact CacheOnly.releaseLines ..
  · exact CacheOnly.refl s

theorem CacheOnly.writtenBack (s : State) (r : Return) : CacheOnly s (s.writtenBack r) :=
  (CacheOnly.released s r).trans (CacheOnly.writeBack ..)

theorem State.finishWriteBack_of_child (h : r.reg.top = false) :
    s.finishWriteBack r = { (s.writtenBack r).modReg r.band r.tid.troop (Fin.ofNat 16 r.reg.parent) fun x =>
      { x with kids := x.kids.erase ⟨r.reg.base, r.reg.len, r.reg.kind⟩ } with returns := s.returns.filter (·.id != r.id) } := by
  have hw : (s.writtenBack r).returns = s.returns := (congrArg State.returns (CacheOnly.writtenBack s r).rest :)
  have hm := State.modReg_rest (s.writtenBack r) r.band r.tid.troop (Fin.ofNat 16 r.reg.parent) fun x =>
    { x with kids := x.kids.erase ⟨r.reg.base, r.reg.len, r.reg.kind⟩ }
  have hreturns := (congrArg State.returns hm).trans hw
  simp only [State.finishWriteBack, h, Bool.not_false, if_true]
  rw [← hreturns]
  rfl

variable (htop : r.reg.top = true) (hfirst : s.second r.band = false)

include htop hfirst

theorem State.finishWriteBack_of_top : s.finishWriteBack r =
    let w := (s.writtenBack r).leaveFamily r.reg.family
    if w.2.1.isEmpty then w.1.endReturn r.id
    else
      let sent := w.1.sendEach (askerOf r.tid r.g) (·.home) (fun g => .drel g.idx w.2.2 r.reg.family r.id) w.2.1
      { sent with returns := modIf (·.id == r.id) (fun x => { x with stage := .releasing w.2.1.length }) sent.returns } := by
  have hsecond : (if r.rel then s.releaseLines r.tid .device else s).second r.band = false := by
    have hb : (if r.rel then s.releaseLines r.tid .device else s).bands = s.bands := (congrArg State.bands (CacheOnly.released s r).rest :)
    simpa only [State.second, State.band?, hb] using hfirst
  simp only [State.finishWriteBack, htop, Bool.not_true, Bool.false_eq_true, if_false, hsecond]
  rfl

variable {f : Family} (hf : s.families.find? (·.id == r.reg.family) = some f)

include hf

theorem State.finishWriteBack_of_member (hm : 1 < f.members) : s.finishWriteBack r = { s.writtenBack r with
    families := modIf (·.id == r.reg.family) (fun x => { x with members := x.members - 1 }) s.families
    returns := s.returns.filter (·.id != r.id) } := by
  have hw := (CacheOnly.writtenBack s r).rest
  have hfam : (s.writtenBack r).families = s.families := (congrArg State.families hw :)
  have hret : (s.writtenBack r).returns = s.returns := (congrArg State.returns hw :)
  rw [State.finishWriteBack_of_top htop hfirst]
  simp only [State.leaveFamily, hfam, hf, Nat.not_le.mpr hm, if_false, List.isEmpty_nil, if_true, State.endReturn, hret]

theorem State.finishWriteBack_of_last (hm : f.members ≤ 1) (hgot : f.got ≠ []) :
    let u := s.finishWriteBack r
    u.families = s.families.filter (·.id != r.reg.family) ∧
    u.returns = modIf (·.id == r.id) (fun x => { x with stage := .releasing f.got.length }) s.returns ∧
    (∀ g ∈ f.got, ∃ m ∈ u.msgs, m.home = g.home ∧ m.body = .drel g.idx f.kind r.reg.family r.id) ∧
    u = { s.writtenBack r with families := u.families, returns := u.returns, msgs := u.msgs, fresh := u.fresh } := by
  intro u
  have hw := (CacheOnly.writtenBack s r).rest
  have hfam : (s.writtenBack r).families = s.families := (congrArg State.families hw :)
  have hret : (s.writtenBack r).returns = s.returns := (congrArg State.returns hw :)
  let left : State := { s.writtenBack r with families := s.families.filter (·.id != r.reg.family) }
  let sent : State := left.sendEach (askerOf r.tid r.g) (·.home) (fun g => .drel g.idx f.kind r.reg.family r.id) f.got
  have hsent : sent = { left with msgs := sent.msgs, fresh := sent.fresh } := left.sendEach_rest ..
  have hu : u = { sent with returns := modIf (·.id == r.id) (fun x => { x with stage := .releasing f.got.length }) sent.returns } := by
    have hne : f.got.isEmpty = false := by simpa using hgot
    unfold u
    rw [State.finishWriteBack_of_top htop hfirst]
    simp only [State.leaveFamily, hfam, hf, hm, if_true, hne, Bool.false_eq_true, if_false]
    rfl
  have hrest : u = { left with
      msgs := sent.msgs, fresh := sent.fresh
      returns := modIf (·.id == r.id) (fun x => { x with stage := .releasing f.got.length }) s.returns } := by
    have hsr : sent.returns = s.returns := (congrArg State.returns hsent :).trans hret
    rw [hsr, hsent] at hu
    exact hu
  refine ⟨(congrArg State.families hrest :), (congrArg State.returns hrest :), fun g hg => ?_, ?_⟩
  · rw [(congrArg State.msgs hrest :)]
    exact left.mem_sendEach (askerOf r.tid r.g) (·.home) (fun g => .drel g.idx f.kind r.reg.family r.id) hg
  · rw [hrest]

end WrittenBack

/-! ### Acknowledgements and peers that do not answer (R177, R345) -/

theorem State.takeAck_of_releasing {s : State} {ret n : Nat} {r : Return} (hr : s.returns.find? (·.id == ret) = some r)
    (hn : r.stage = .releasing n) : s.takeAck ret = { s with
      returns := if n ≤ 1 then s.returns.filter (·.id != ret)
        else modIf (·.id == ret) (fun x => { x with stage := .releasing (n - 1) }) s.returns } := by
  simp only [State.takeAck, hr, hn]
  split <;> rfl

theorem exec_peerTimeout {s : State} {id : Nat} {r : Nat × Nat × Nat} (hr : s.peerReqs.find? (·.1 == id) = some r)
    (hlate : r.2.2 + s.peerClocks ≤ s.clock) (hopen : s.openPeers.contains (r.1, r.2.1) = true) :
    exec (.peerTimeout id) s = .next (s.peerFails id) := by
  change execPeerTimeout id s = _
  simp only [execPeerTimeout, hr, Nat.not_lt.mpr hlate, decide_false, hopen, Bool.not_true, Bool.or_self, Bool.false_eq_true, if_false]

/-! ### O44 -/

/-- Settles O44: a message is delivered, then taken; of a return the caches are written back, then its parent or family is left. -/
theorem requestersTake : Obligations.RequestersTake := by
  unfold Obligations.RequestersTake
  refine ⟨?last, ?more, ?withdrawn, ?refused, ?grantLeaves, ?refusalLeaves, ?ackLeaves, ?ack, ?writeBack, ?peers⟩
  case last =>
    intro s id home t g tag deed kind b p hgot hb hwho htodo hp hpend
    refine ⟨_, (exec_dgrant hgot).trans (by rw [State.toPeer_of_own (askerOf_ne_peer t g), Option.getD_none]), ?_⟩
    exact State.takeGrant_last (s := s.dropMsg id) hb hwho htodo hp hpend
  case more =>
    intro s id home who tag deed kind b p q rest hgot hown hb htodo
    rw [exec_dgrant hgot, State.toPeer_of_own hown, Option.getD_none, State.takeGrant_of_more (s := s.dropMsg id) hb htodo]
    rfl
  case withdrawn =>
    intro s id home who tag deed kind hgot hown hb
    rw [exec_dgrant hgot, State.toPeer_of_own hown, Option.getD_none, State.takeGrant_of_withdrawn (s := s.dropMsg id) hb]
    rfl
  case refused =>
    intro s id home t g tag sub b hgot hb hwho hp hpend
    refine ⟨_, (exec_drefuse hgot).trans (by rw [State.toPeer_of_own (askerOf_ne_peer t g), Option.getD_none]), ?_⟩
    exact State.takeRefusal_of_single (s := s.dropMsg id) hb hwho hp hpend
  case grantLeaves => exact fun s id home n tag deed kind hgot => exec_dgrant hgot
  case refusalLeaves => exact fun s id home n tag sub hgot => exec_drefuse hgot
  case ackLeaves => exact fun s id home n ret hgot => exec_drelack hgot
  case ack =>
    intro s id home who ret r n hgot hown hr hn
    rw [exec_drelack hgot, State.toPeer_of_own hown, Option.getD_none, State.takeAck_of_releasing (s := s.dropMsg id) hr hn]
    rfl
  case writeBack =>
    intro s ret r hr hready
    have hid : r.id = ret := by simpa using List.find?_some hr
    have hexec : exec (.rtnWritebackDone ret) s = .next (s.finishWriteBack r) := by
      change execRtnWritebackDone ret s = _
      simp only [execRtnWritebackDone, hr, hready, if_true]
    rw [hexec]
    subst hid
    refine ⟨s.writtenBack r, CacheOnly.writtenBack s r, fun h => congrArg _ (State.finishWriteBack_of_child h),
      fun htop hfirst f hf => ⟨fun hm => congrArg _ (State.finishWriteBack_of_member htop hfirst hf hm), fun hm hgot => ⟨_, rfl, ?_⟩⟩⟩
    exact State.finishWriteBack_of_last htop hfirst hf hm hgot
  case peers =>
    intro s id r hr hlate hopen
    rw [exec_peerTimeout hr hlate hopen]
    refine ⟨fun b hb => ?_, fun o w k kind why va wr hb ho hrun => ?_, fun c hb ho hpend hflight hc => ?_⟩
    · simp only [State.peerFails, hb]
    · simp only [State.peerFails, hb, ho, hrun]
    · simp only [State.peerFails, hb, ho, hpend, hflight, hc]
      rfl

end Sys2Proof.Machine

/-! # The device and its peers (O55)

Power-on, bring-up, power and heat, attestation, the requests of peers, and page walks that complete: one equation for each event,
and for each outcome that the statement tells apart. While the module is halted an event is left as it stands (R351); a peer is
served at the window that its offset lies in, and at no other place (R344). -/

namespace Sys2Proof.Machine

/-! ### Bring-up (R347, R348) -/

/-- Bytes of a number, most significant first. -/
theorem beBytes_eq (n x : Nat) : beBytes n x = (leBytes n x).reverse := by
  rw [leBytes_eq_map, beBytes]

theorem imageOk_eq (i : Nat) : imageOk i = decide (sha256 (Config.imageKey i) = Config.fusedKey i ∧ Config.signatureOk i = true ∧
    (Config.rollback i).toNat ≤ (Config.firmwareVersion i).toNat ∧ (Config.image i).length ≤ Config.regionSize i) := by
  rw [Bool.eq_iff_iff]
  simp only [imageOk, Bool.and_eq_true, beq_iff_eq, BitVec.ule, decide_eq_true_eq, and_assoc]

theorem stageImages_eq (n : Nat) : stageImages n = if n = 1 then [0] else if n = 2 then [1, 2, 3] else [] := by
  unfold stageImages
  split
  · rfl
  · rfl
  · next h1 h2 => rw [if_neg h1, if_neg h2]

theorem extendMeas_eq : extendMeas = fun ms i => modAt ms i fun m =>
    sha256 ((leBytes 32 m.toNat).reverse ++ (leBytes 32 (sha256 (Config.image i)).toNat).reverse) := by
  funext ms i
  simp only [extendMeas, beBytes_eq]

/-- The number of the stage that bring-up is to complete. -/
def Device.stage (d : Device) : Nat := d.devstat.toNat % 2 ^ 4 + 1

theorem Device.stage_eq (d : Device) : fieldOf d.devstat.toNat 0 4 + 1 = d.stage := by
  simp only [fieldOf, pow_zero, Nat.div_one, Device.stage]

section Stage

variable {s : State} (hh : s.dev.halted = false) (hrun : s.dev.devstat.toNat / 2 ^ 4 % 2 ^ 4 = 0) (hlt : s.dev.devstat.toNat % 2 ^ 4 < 7)

include hh hrun hlt

theorem bringupStage_goes_on :
    (s.dev.halted || decide (fieldOf s.dev.devstat.toNat 4 4 ≠ 0) || decide (7 < s.dev.stage)) = false := by
  have h7 : ¬ 7 < s.dev.stage := Nat.not_lt.mpr hlt
  have hat : fieldOf s.dev.devstat.toNat 4 4 = 0 := hrun
  simp only [hh, hat, h7, ne_eq, not_true_eq_false, decide_false, Bool.or_self]

theorem exec_bringupStage_fails {passed : Option (List (Fin 8))} (reason : BitVec 4)
    (h : ¬ (passed ≠ none ∧ ∀ i ∈ stageImages s.dev.stage, imageOk i = true)) :
    exec (.bringupStage passed reason) s = .next (s.stageFails s.dev.stage reason) := by
  change execBringupStage passed reason s = _
  simp only [execBringupStage, s.dev.stage_eq, bringupStage_goes_on hh hrun hlt, Bool.false_eq_true, if_false]
  cases passed with
  | none => rfl
  | some down =>
    have hbad : (stageImages s.dev.stage).all imageOk = false := by
      rw [← Bool.not_eq_true, List.all_eq_true]
      exact fun hall => h ⟨Option.some_ne_none down, hall⟩
    simp only [hbad]

theorem exec_bringupStage_passes {down : List (Fin 8)} (reason : BitVec 4) (h : ∀ i ∈ stageImages s.dev.stage, imageOk i = true) :
    exec (.bringupStage (some down) reason) s = .next (s.stageDone s.dev.stage down) := by
  change execBringupStage (some down) reason s = _
  simp only [execBringupStage, s.dev.stage_eq, bringupStage_goes_on hh hrun hlt, Bool.false_eq_true, if_false, List.all_eq_true.mpr h]

end Stage

/-- The device after a stage but the last: its number, the registers of its images, and its links. -/
def State.stageDevice (s : State) (n : Nat) (down : List (Fin 8)) : Device := { s.dev with
  devstat := BitVec.ofNat 32 n, meas := (stageImages n).foldl extendMeas s.dev.meas
  links := s.dev.links.map fun l =>
    if (n = 3 ∧ l.id < 4) ∨ (n = 6 ∧ 16 ≤ l.id ∧ ∀ p ∈ down, 16 + p.val ≠ l.id) then { l with up := true } else l }

theorem stageLinks_iff (n : Nat) (down : List (Fin 8)) (i : Nat) :
    stageLinks n down i = true ↔ (n = 3 ∧ i < 4) ∨ (n = 6 ∧ 16 ≤ i ∧ ∀ p ∈ down, 16 + p.val ≠ i) := by
  have hports : (!(down.any fun p => 16 + p.val == i)) = true ↔ ∀ p ∈ down, 16 + p.val ≠ i := by
    simp only [Bool.not_eq_true', List.any_eq_false, beq_iff_eq, ne_eq]
  unfold stageLinks
  split
  · next h => simp [h]
  · next h => simp only [Bool.and_eq_true, decide_eq_true_eq, hports, h, false_and, false_or, and_assoc]

theorem State.stageDone_eq (s : State) (n : Nat) (down : List (Fin 8)) : s.stageDone n down =
    if n = 4 ∨ n = 5 then { s with dev := s.stageDevice n down, mem := [], poison := [] }
    else if n = 7 then { s with
      cores := s.cores.map fun c => { CoreSt.reset c.id with mgorigin := s.clock }
      dev := { Device.reset with
        devstat := 7, modnum := Config.moduleNumber.toNat, meas := (s.stageDevice n down).meas, links := (s.stageDevice n down).links
        saveBase := s.dev.saveBase, saveLen := s.dev.saveLen, invBase := s.dev.invBase, invLen := s.dev.invLen
        windows := Config.windowTable, snap := { s.dev.snap with seq := 0, miss := 0 } } }
    else { s with dev := s.stageDevice n down } := by
  have hdev : ({ s.dev with
      devstat := BitVec.ofNat 32 n, meas := (stageImages n).foldl extendMeas s.dev.meas
      links := s.dev.links.map fun l => if stageLinks n down l.id then { l with up := true } else l } : Device) = s.stageDevice n down := by
    simp only [State.stageDevice, stageLinks_iff]
  unfold State.stageDone
  rw [hdev]
  dsimp only
  split
  · rw [if_pos (Or.inl rfl)]
  · rw [if_pos (Or.inr rfl)]
  · rfl
  · next h4 h5 h7 => rw [if_neg (not_or.mpr ⟨h4, h5⟩), if_neg h7]

/-! ### Power, heat and the halted module (R351) -/

/-- A power window on one core: over the cap its units fall by 32, well under it they rise by 32 (R351). -/
def CoreSt.powered (c : CoreSt) (pcap watts : Nat) : CoreSt :=
  let cap := min c.mgcapNext c.mgpower
  if pcap < watts then { c with mgpower := max 8 (cap - 32) }
  else if watts < pcap - 100 then { c with mgpower := if cap + 32 < c.mgcapNext then cap + 32 else 512 }
  else c

theorem exec_powerWindow {s : State} (hh : s.dev.halted = false) (watts : Nat) : exec (.powerWindow watts) s = .next { s with
    dev := { s.dev with pwrw := watts }, cores := s.cores.map (·.powered s.dev.pcap watts) } := by
  change execPowerWindow watts s = _
  simp only [execPowerWindow, hh, Bool.false_eq_true, if_false, State.allCores, CoreSt.powered, CoreSt.capInForce]
  by_cases hover : s.dev.pcap < watts
  · simp only [hover, if_true]
  · by_cases hunder : watts + 100 < s.dev.pcap
    · have hsub : watts < s.dev.pcap - 100 := by omega
      simp only [hover, hunder, hsub, if_true, if_false]
      rfl
    · have hsub : ¬ watts < s.dev.pcap - 100 := by omega
      simp only [hover, hunder, hsub, if_false, List.map_id']

theorem exec_thermalHalt (s : State) (die temp : Nat) : exec (.thermalHalt die temp) s = .next { s with
    dies := s.dies.map fun d => if d.id == die then { d with temp := temp } else d
    dev := if 105 ≤ temp then { s.dev with halted := true, devstat := s.dev.devstat ||| 0x1000#32 } else s.dev } := by
  change execThermalHalt die temp s = _
  unfold execThermalHalt
  split <;> rfl

/-- While the module is halted, nothing happens on a command of the host (R351). -/
theorem exec_command_of_halted {s : State} (hh : s.dev.halted = true) {i : Instr} {f : Cmd → State} (hi : exec i s = s.command f) :
    exec i s = .next s := by
  rw [hi]
  simp only [State.command, hh, if_true]

theorem exec_command_of_qp {s : State} (hh : s.dev.halted = false) (hqp : s.cmd.qp = 1) (i : Instr) {f : Cmd → State}
    (hi : exec i s = s.command f) : exec i s = .next (f s.cmd) :=
  hi.trans (State.command_of_qp hh hqp f)

theorem Device.serves_eq_false {d : Device} (h : d.halted = true ∨ d.devstat.toNat % 16 ≠ 7) : d.serves = false := by
  rcases h with h | h
  · simp only [Device.serves, h, Bool.not_true, Bool.and_false]
  · simp only [Device.serves, Bool.eq_false_iff.mpr (mt d.ready_iff.mp h), Bool.false_and]

theorem Device.serves_eq_true {d : Device} (hh : d.halted = false) (h : d.devstat.toNat % 16 = 7) : d.serves = true := by
  simp only [Device.serves, hh, d.ready_iff.mpr h, Bool.not_false, Bool.and_true]

/-! ### Attestation (R349) -/

/-- What ATTEST answers before the signature: the nonce, the measurements, the versions, the module number and the features. -/
theorem State.attestBody_eq (s : State) (nonce : BitVec 256) : s.attestBody nonce =
    leBytes 32 nonce.toNat ++ (s.dev.meas.map fun m => (leBytes 32 m.toNat).reverse).flatten ++
      ((List.range 4).map fun i => leBytes 4 (Config.firmwareVersion i).toNat).flatten ++ leBytes 2 s.dev.modnum ++
      (List.replicate Config.cores (leBytes 8 0x3F)).flatten := by
  simp only [State.attestBody, beBytes_eq, List.map_const', List.length_range]
  rfl

theorem Device.keyed_iff (d : Device) : d.keyed = true ↔ d.devstat.toNat % 16 ≠ 0 := by
  simp only [Device.keyed, fieldOf, pow_zero, Nat.div_one, decide_eq_true_eq, Nat.reducePow]
  omega

theorem exec_attest {s : State} (hh : s.dev.halted = false) (hqp : s.cmd.qp = 1) (nonce : BitVec 256) : exec (.attest nonce) s =
    .next (if s.dev.keyed = true then
        s.answer s.cmd (.bytes (s.attestBody nonce ++ (List.finRange 17088).map (Config.signature (s.attestBody nonce))))
      else s.answer s.cmd .refused) :=
  exec_command_of_qp hh hqp (.attest nonce) (execAttest.eq_1 nonce s)

/-! ### Requests of peers (R178, R344) -/

theorem State.writeHome_filters (s : State) (pa : Nat) (bs : List Byte) : s.writeHome pa bs = { s with
    mem := writeBytes s.mem pa bs
    poison := s.poison.filter fun l => ¬ (pa ≤ 128 * l ∧ 128 * (l + 1) ≤ pa + bs.length)
    unreturned := s.unreturned.filter fun e => ¬ (pa ≤ e.1 ∧ e.1 < pa + bs.length) } := by
  have hpoison (l : Nat) : (!(wholeLines pa bs.length).contains l) =
      Decidable.decide (¬ (pa ≤ 128 * l ∧ 128 * (l + 1) ≤ pa + bs.length)) := by
    rw [Bool.eq_iff_iff]
    simp only [Bool.not_eq_true', ← Bool.not_eq_true, List.contains_iff_mem, mem_wholeLines, decide_eq_true_eq]
  simp only [State.writeHome, hpoison, ← Bool.decide_and, decide_not]

/-- A poisoned line among those of the bytes that a request covers (R202). -/
def PoisonedWithin (poison : List Nat) (pa n : Nat) : Prop := ∃ l, l ∈ poison ∧ pa / 128 ≤ l ∧ 128 * l < pa + n

theorem any_poisoned_iff (poison : List Nat) (pa n : Nat) :
    ((List.range (n / 128 + 2)).any fun k => 128 * (pa / 128 + k) < pa + n && poison.contains (pa / 128 + k)) = true ↔
      PoisonedWithin poison pa n := by
  simp only [PoisonedWithin, List.any_eq_true, List.mem_range, Bool.and_eq_true, decide_eq_true_eq, List.contains_iff_mem]
  constructor
  · rintro ⟨k, -, hlt, hmem⟩
    exact ⟨_, hmem, Nat.le_add_right .., hlt⟩
  · rintro ⟨l, hmem, hle, hlt⟩
    exact ⟨l - pa / 128, by omega, by rwa [Nat.add_sub_cancel' hle], by rwa [Nat.add_sub_cancel' hle]⟩

/-- A request that touches memory: a read, a write or an atomic (R344). -/
def TouchesMemory : PeerOp → Prop
  | .read _ | .write _ | .atomic .. => True
  | _ => False

section Peers

variable {s : State} (hserves : s.dev.serves = true) (m off : Nat)

include hserves

section Dreq

variable {asid len : Nat} {kind : Kind} {nowait : Bool} {tag : BitVec 64}

theorem exec_peerDreq : exec (.peerRequest m off (.dreq asid len kind nowait tag)) s =
    .next (s.peerDreq m off asid len kind nowait tag.toNat) := by
  change execPeerRequest m off (.dreq asid len kind nowait tag) s = _
  simp only [execPeerRequest, hserves, Bool.not_true, Bool.false_eq_true, if_false]

theorem exec_peerDreq_of_none (h : s.windowAt off len = none) : exec (.peerRequest m off (.dreq asid len kind nowait tag)) s =
    .next { s with outbox := s.outbox ++ [.deed m (.drefuse tag.toNat 7)] } := by
  rw [exec_peerDreq hserves]
  simp only [State.peerDreq, h]

theorem exec_peerDreq_of_some {w : Config.Window} (h : s.windowAt off len = some w) :
    exec (.peerRequest m off (.dreq asid len kind nowait tag)) s =
      .next (s.send (windowHome w) (.peer m) (.dreq ⟨abroadTag m tag.toNat, w.domain, abroadTag m asid,
        s.requester (.peer m), off, len, kind, nowait, s.clock + 16 * s.dev.turn⟩)) := by
  rw [exec_peerDreq hserves]
  simp only [State.peerDreq, h]

end Dreq

theorem exec_peerDcancel_of_none {tag : BitVec 64} (h : s.windowAt off 0 = none) :
    exec (.peerRequest m off (.dcancel tag)) s = .next s := by
  change execPeerRequest m off (.dcancel tag) s = _
  simp only [execPeerRequest, hserves, Bool.not_true, Bool.false_eq_true, if_false, h]

theorem exec_peerDcancel_of_some {tag : BitVec 64} {w : Config.Window} (h : s.windowAt off 0 = some w) :
    exec (.peerRequest m off (.dcancel tag)) s = .next (s.send (windowHome w) (.peer m) (.dcancel (abroadTag m tag.toNat))) := by
  change execPeerRequest m off (.dcancel tag) s = _
  simp only [execPeerRequest, hserves, Bool.not_true, Bool.false_eq_true, if_false, h]

theorem exec_peerDrel (deed : BitVec 64) (kind : Kind) : exec (.peerRequest m off (.drel deed kind)) s =
    .next (s.send (deed.toNat / 2 ^ 17) (.peer m) (.drel (deed.toNat % 2 ^ 17) kind 0 (abroadTag m deed.toNat))) := by
  change execPeerRequest m off (.drel deed kind) s = _
  simp only [execPeerRequest, hserves, Bool.not_true, Bool.false_eq_true, if_false]

variable {op : PeerOp} (hop : TouchesMemory op)

include hop

theorem exec_peerRequest_of_none (h : s.windowAt off (peerSize op) = none) :
    exec (.peerRequest m off op) s = .next (s.answerPeer m .refused) := by
  change execPeerRequest m off op s = _
  cases op with
  | read _ | write _ | atomic _ _ _ _ => simp only [execPeerRequest, hserves, Bool.not_true, Bool.false_eq_true, if_false, h]
  | dreq _ _ _ _ _ | dcancel _ | drel _ _ => exact hop.elim

theorem exec_peerRequest_of_some {w : Config.Window} (h : s.windowAt off (peerSize op) = some w) :
    exec (.peerRequest m off op) s = .next (s.peerAccess m (w.pa + (off - w.off)) op) := by
  change execPeerRequest m off op s = _
  cases op with
  | read _ | write _ | atomic _ _ _ _ => simp only [execPeerRequest, hserves, Bool.not_true, Bool.false_eq_true, if_false, h]
  | dreq _ _ _ _ _ | dcancel _ | drel _ _ => exact hop.elim

end Peers

section PeerAccess

variable {s : State} (m : Nat) {pa n : Nat}

theorem State.peerAccess_read_poisoned (h : PoisonedWithin s.poison pa n) : s.peerAccess m pa (.read n) = s.answerPeer m .refused :=
  congrArg (s.answerPeer m) (if_pos ((any_poisoned_iff s.poison pa n).mpr h))

theorem State.peerAccess_read_sound (h : ¬ PoisonedWithin s.poison pa n) :
    s.peerAccess m pa (.read n) = s.answerPeer m (.bytes (readBytes s.mem pa n)) :=
  congrArg (s.answerPeer m) (if_neg (mt (any_poisoned_iff s.poison pa n).mp h))

variable {o : AtomOp} {w : Bool} {b c : BitVec 64}

theorem State.peerAccess_atomic_poisoned (h : PoisonedWithin s.poison pa (if w then 8 else 4)) :
    s.peerAccess m pa (.atomic o w b c) = s.answerPeer m .refused :=
  if_pos ((any_poisoned_iff s.poison pa _).mpr h)

theorem State.peerAccess_atomic_sound (hn : (if w then 8 else 4) = n) (h : ¬ PoisonedWithin s.poison pa n) :
    s.peerAccess m pa (.atomic o w b c) =
      (s.writeHome pa (leBytes n (newValue o (8 * n) (leNat (readBytes s.mem pa n)) (b.toNat % 2 ^ (8 * n)) (c.toNat % 2 ^ (8 * n))))).answerPeer
        m (.value (BitVec.ofNat 64 (leNat (readBytes s.mem pa n)))) := by
  subst hn
  exact if_neg (mt (any_poisoned_iff s.poison pa _).mp h)

end PeerAccess

/-! ### Page walks that complete (R189) -/

/-- Filling TLBs changes the cores and the dies alone. -/
theorem State.foldl_fillTlb_frame (e : TlbEntry) (cores : List Nat) (s : State) :
    cores.foldl (fun s c => s.fillTlb c e) s =
      { s with
        cores := (cores.foldl (fun s c => s.fillTlb c e) s).cores
        dies := (cores.foldl (fun s c => s.fillTlb c e) s).dies } := by
  induction cores generalizing s with
  | nil => rfl
  | cons c cs ih =>
    simp only [List.foldl_cons]
    rw [ih]
    rfl

/-- The state in which a completing walk reads the page tables: it stands no longer, and its slot has gone on to the next miss. -/
def State.afterWalk (s : State) (walk : Nat) (w : Walk) : State :=
  ({ s with walks := s.walks.filter fun x => x.id != walk } : State).nextWalk w.die

theorem State.afterWalk_frame (s : State) (walk : Nat) (w : Walk) : s.afterWalk walk w = { s with walks := (s.afterWalk walk w).walks } := by
  unfold State.afterWalk State.nextWalk
  split <;> rfl

/-- The end of a walk frees an engine operation that waits for it, with the failure it leaves. -/
def EngOp.walked (walk : Nat) (bad : Option (Nat × XlateFail)) (o : EngOp) : EngOp :=
  if o.walk = some walk then { o with walk := none, xfail := bad } else o

theorem EngOp.modIf_walk (walk : Nat) (bad : Option (Nat × XlateFail)) (ops : List EngOp) :
    modIf (fun o => o.walk == some walk) (fun o => { o with walk := none, xfail := bad }) ops = ops.map (·.walked walk bad) := by
  simp only [modIf, EngOp.walked, beq_iff_eq]

/-- The end of a walk frees a bundle of it, with the failures it leaves to the threads that wait. -/
def Bundle.walked (walk : Nat) (fails : WalkWait → Option XlateFail) (b : Bundle) : Bundle :=
  if b.walks.any (·.walk == walk) then { b with
    walks := b.walks.filter (·.walk != walk)
    faults := b.faults ++ (b.walks.filter (·.walk == walk)).filterMap fun x => (fails x).map fun f => (x, f) }
  else b

section Walks

variable {s : State} {walk : Nat} {w : Walk} (hw : s.walks.find? (fun w => w.id == walk && w.running) = some w)

include hw

theorem exec_pageWalkComplete_error {f : XlateFail} (hr : (s.afterWalk walk w).walkVa w.asid w.va = .error f) :
    exec (.pageWalkComplete walk) s = .next { s.afterWalk walk w with
      ops := s.ops.map (·.walked walk (some (w.va / 4096, f))), bundles := s.bundles.map (·.walked walk fun _ => some f) } := by
  change execPageWalkComplete walk s = _
  simp only [execPageWalkComplete, hw]
  simp only [← State.afterWalk.eq_1, hr, EngOp.modIf_walk]
  rw [State.afterWalk_frame]
  rfl

theorem exec_pageWalkComplete_ok {e : TlbEntry} {lvl : Nat} (hr : (s.afterWalk walk w).walkVa w.asid w.va = .ok (e, lvl)) :
    exec (.pageWalkComplete walk) s = .next
      { ((w.core :: ((s.afterWalk walk w).bundles.filter fun b => b.walks.any (·.walk == walk)).map (·.core) ++
            ((s.afterWalk walk w).ops.filter fun o => o.walk == some walk).map (·.core)).eraseDups.foldl
          (fun s c => s.fillTlb c e) (s.afterWalk walk w)) with
        ops := s.ops.map (·.walked walk none), bundles := s.bundles.map (·.walked walk fun x => useFail e x.use x.sys lvl) } := by
  change execPageWalkComplete walk s = _
  simp only [execPageWalkComplete, hw]
  simp only [← State.afterWalk.eq_1, hr, EngOp.modIf_walk]
  rw [State.foldl_fillTlb_frame, State.afterWalk_frame]
  rfl

end Walks

/-- Settles O55: event by event, from the equations above. -/
theorem deviceEvents : Obligations.DeviceEvents := by
  unfold Obligations.DeviceEvents
  intro ans big
  refine ⟨fun s => ⟨s.restart, rfl, rfl, rfl, rfl, rfl⟩, ?bringup, fun s watts hh => exec_powerWindow hh watts, ?heat, ?halted,
    ?commands, ?unserved, ?peers, ?walks, ?fill⟩
  case bringup =>
    intro s passed reason hh hrun hlt n extended good images accepted
    have hgood : imageOk = good := funext imageOk_eq
    have himages : stageImages n = images := stageImages_eq n
    have hext : extendMeas = extended := extendMeas_eq
    have haccepted : accepted ↔ ∀ i ∈ stageImages s.dev.stage, imageOk i = true := by rw [hgood]; exact himages ▸ Iff.rfl
    constructor
    · intro h
      rw [haccepted] at h
      rw [exec_bringupStage_fails hh hrun hlt reason h, State.stageFails, hgood, hext, ← himages]
      simp only [fieldOf, pow_zero, Nat.div_one]
      rfl
    · rintro down rfl h
      refine ⟨s.stageDone n down, exec_bringupStage_passes hh hrun hlt reason (haccepted.mp h), ?_⟩
      rw [← himages, ← hext, State.stageDone_eq]
      by_cases h45 : n = 4 ∨ n = 5
      · have h7 : n ≠ 7 := by rintro h; rw [h] at h45; exact absurd h45 (by decide)
        rw [if_pos h45]
        exact ⟨rfl, rfl, fun h4 h5 => (h45.elim h4 h5).elim, fun _ => ⟨rfl, rfl⟩, rfl, rfl, fun h => absurd h h7, fun _ => ⟨rfl, rfl⟩⟩
      · rw [if_neg h45]
        by_cases h7 : n = 7
        · rw [if_pos h7, h7]
          exact ⟨rfl, rfl, fun _ _ => ⟨rfl, rfl⟩, fun h => absurd h (by decide), rfl, rfl,
            fun _ => ⟨rfl, rfl, rfl, rfl, rfl, rfl, rfl, rfl, rfl, rfl, rfl⟩, fun h => absurd rfl h⟩
        · rw [if_neg h7]
          exact ⟨rfl, rfl, fun _ _ => ⟨rfl, rfl⟩, fun h => absurd h h45, rfl, rfl, fun h => absurd h h7, fun _ => ⟨rfl, rfl⟩⟩
  case heat =>
    intro s die temp
    refine ⟨_, exec_thermalHalt s die temp, rfl, rfl, fun h => ?_, fun h => ?_⟩
    · exact if_neg (Nat.not_le.mpr h)
    · exact if_pos h
  case halted =>
    intro s hh
    have hserves : s.dev.serves = false := Device.serves_eq_false (.inl hh)
    refine ⟨fun x f q v => ?_, fun d r w => ⟨?_, ?_⟩, fun off n v => ?_, fun pa bs n => ⟨?_, ?_⟩⟩
    · exact ⟨exec_command_of_halted hh (execSnaptrig.eq_1 s), exec_command_of_halted hh (execSnaparm.eq_1 s),
        exec_command_of_halted hh (execAttest.eq_1 x s), exec_command_of_halted hh (execInval.eq_1 f s),
        exec_command_of_halted hh (execKick.eq_1 q v s)⟩
    · change execBringupStage d r s = _
      simp only [execBringupStage, hh, Bool.true_or, if_true]
    · change execPowerWindow w s = _
      simp only [execPowerWindow, hh, if_true]
    · exact ⟨exec_command_of_halted hh (execMgmtRead.eq_1 off n s), exec_command_of_halted hh (execMgmtWrite.eq_1 off n v s)⟩
    · change execHostRdmaWrite pa bs s = _
      simp only [execHostRdmaWrite, hserves, Bool.false_and, Bool.false_eq_true, if_false]
    · change execHostRdmaRead pa n s = _
      simp only [execHostRdmaRead, hserves, Bool.false_and, Bool.false_eq_true, if_false]
  case commands =>
    rintro s c rfl hh hqp
    refine ⟨exec_command_of_qp hh hqp .snaptrig (execSnaptrig.eq_1 s), exec_command_of_qp hh hqp .snaparm (execSnaparm.eq_1 s), fun nonce => ?_⟩
    intro body
    have hbody : s.attestBody nonce = body := State.attestBody_eq s nonce
    rw [exec_attest hh hqp, hbody]
    exact ⟨fun h => congrArg Host.Outcome.next (if_neg (mt s.dev.keyed_iff.mp (not_not_intro h))),
      fun h => congrArg Host.Outcome.next (if_pos (s.dev.keyed_iff.mpr h))⟩
  case unserved =>
    intro s m off op h
    change execPeerRequest m off op s = _
    simp only [execPeerRequest, Device.serves_eq_false h, Bool.not_false, if_true]
  case peers =>
    intro s m off op hh h7 found tells sends abroad writes bad
    have hserves : s.dev.serves = true := Device.serves_eq_true hh h7
    refine ⟨?_, ?_, ?_, ?_, ?_, ?_⟩
    · rintro n rfl
      have hop : TouchesMemory (.read n) := trivial
      refine ⟨exec_peerRequest_of_none hserves m off hop, fun x hx => ⟨fun h => ?_, fun h => ?_⟩⟩
      · rw [exec_peerRequest_of_some hserves m off hop hx, State.peerAccess_read_poisoned m h]; rfl
      · rw [exec_peerRequest_of_some hserves m off hop hx, State.peerAccess_read_sound m h]; rfl
    · rintro bs rfl
      have hop : TouchesMemory (.write bs) := trivial
      refine ⟨exec_peerRequest_of_none hserves m off hop, fun x hx => ?_⟩
      rw [exec_peerRequest_of_some hserves m off hop hx, State.peerAccess, State.writeHome_filters]; rfl
    · rintro o w b c rfl n
      have hop : TouchesMemory (.atomic o w b c) := trivial
      refine ⟨exec_peerRequest_of_none hserves m off hop, fun x hx => ⟨fun h => ?_, fun h => ?_⟩⟩
      · rw [exec_peerRequest_of_some hserves m off hop hx, State.peerAccess_atomic_poisoned m h]; rfl
      · rw [exec_peerRequest_of_some hserves m off hop hx, State.peerAccess_atomic_sound m rfl h, State.writeHome_filters]; rfl
    · rintro asid len kind nowait tag rfl
      exact ⟨fun h => exec_peerDreq_of_none hserves m off h, fun x h => exec_peerDreq_of_some hserves m off h⟩
    · rintro tag rfl
      exact ⟨fun h => exec_peerDcancel_of_none hserves m off h, fun x h => exec_peerDcancel_of_some hserves m off h⟩
    · rintro deed kind rfl
      exact exec_peerDrel hserves m off deed kind
  case walks =>
    intro s walk w hw s0 s1 ops bundles
    exact ⟨fun f hr => exec_pageWalkComplete_error hw hr, fun e lvl hr => exec_pageWalkComplete_ok hw hr⟩
  case fill =>
    rintro s w e core rfl
    exact ⟨rfl, rfl, rfl⟩

end Sys2Proof.Machine

/-! # What the statements about borrows and homes leave out (O42, O43)

BOR's frame names SETA's flag of its own clause alone. The second BOR of a redundant pair asks under the number that the first took
(R180), and where it is refused at once the flags that the first holds under that number are cleared with it (R170): a flag of
another clause. A home's answers replace its table, but a withdrawal changes the queue of every table under the home's number; the
statement does not ask that there be only one. -/

namespace Sys2Proof.Machine

/-! ### BOR (R170, R180) -/

/-- A range register with a request of 128 bytes at 0 under number 3. -/
def askedFirst : Region := { Region.none with state := .pending, len := 128, top := true, family := 3 }

/-- A band of one thread, member of a redundant pair with another. -/
def memberBand (id member other : Nat) (regs : List Region) (flags : BitVec 12) (names : List (Nat × VName)) : Band :=
  let b := (bootBand id 2 0).modTroop 0 fun x =>
    { x with names := names, g := regs, threads := [{ Thread.start ⟨1, 0⟩ 0 with flags := flags }] }
  { b with pair := some (member, other) }

/-- Band 1 has asked through g0 with SETA f3 and NOWAIT; band 2, whose v2 holds the length, is to ask in a clause without SETA. -/
def secondAsks : State :=
  { State.reset with
    bands := [memberBand 1 0 2 [askedFirst] 8 [], memberBand 2 1 1 [Region.none] 0 [(2, { VName.fresh with vals := [(0, 128)], written := 1 })]]
    holds := [⟨⟨1, 0, 0⟩, 3, 3, false⟩], bundles := [bootBundle 2 2], cur := 2, fresh := 4 }

/-- Flags are as operations hold them where every listed thread's are. -/
theorem State.flagsOk_of_all {s : State} (h : (s.bands.all fun b => b.troops.zipIdx.all fun x => x.1.threads.zipIdx.all fun y =>
    y.1.flags == flagsHeld s.holds ⟨b.id, x.2, y.2⟩) = true) : s.flagsOk := by
  intro t th ht
  obtain ⟨x, hx, hth⟩ := Option.bind_eq_some_iff.mp ht
  obtain ⟨b, hb, htr⟩ := Option.bind_eq_some_iff.mp hx
  have hid : b.id = t.band := by simpa using List.find?_some hb
  simp only [List.all_eq_true, beq_iff_eq] at h
  have hflags := h b (List.mem_of_find?_eq_some hb) (x, t.troop) (List.mk_mem_zipIdx_iff_getElem?.mpr htr) (th, t.lane)
    (List.mk_mem_zipIdx_iff_getElem?.mpr hth)
  rwa [hid] at hflags

theorem secondAsks_flagsOk : secondAsks.flagsOk := State.flagsOk_of_all (by decide +kernel)

theorem secondAsks_refused : (match exec (.bor ⟨false, false, false, none, none⟩ .e false 0 0 2) secondAsks with
    | .next u => u.flagOf ⟨1, 0, 0⟩ 3
    | _ => true) = false := by
  decide +kernel

/-- Refutes O42: the refusal of band 2's request clears f3 of band 1's thread, which band 2's clause does not name. -/
theorem not_borrowsIssue : ¬ Obligations.BorrowsIssue := by
  unfold Obligations.BorrowsIssue
  intro h
  obtain ⟨hbor, -⟩ := h
  obtain ⟨hasks, -⟩ := hbor ⟨false, false, false, none, none⟩ .e false 0 0 2
  obtain ⟨u, hexec, -, hkept⟩ := hasks secondAsks (bootBundle 2 2) (by decide +kernel)
    ⟨fun _ => ⟨by decide +kernel, by decide +kernel⟩, trivial⟩
  have hflag := (hkept.flags secondAsks_flagsOk).2 ⟨1, 0, 0⟩ 3 (by decide)
  have hcleared := secondAsks_refused
  rw [hexec] at hcleared
  exact absurd (hcleared.symm.trans hflag) (by decide +kernel)

/-! ### DCANCEL (R177) -/

/-- A module whose base die's home has two tables, of which the second alone has an entry, and a withdrawal on its way. -/
def twoTables : State :=
  { State.reset with
    homes := [⟨4, [], [], [], []⟩, ⟨4, [⟨0, 0, 0, 128, .s, 0, none, 1⟩], [], [], []⟩]
    msgs := [⟨1, 4, .grid 0, .dcancel 9⟩] }

/-- Refutes O43: a withdrawal leaves the second table its entry, where the statement puts the first table in its place. -/
theorem not_homesAnswer : ¬ Obligations.HomesAnswer := by
  unfold Obligations.HomesAnswer
  intro h
  obtain ⟨-, -, -, -, -, -, hcancel, -⟩ := h
  have holdest : ∀ x ∈ twoTables.msgs, ¬ x.id < 1 := by decide
  have hexec := hcancel twoTables 1 4 (.grid 0) 9 ⟨4, [], [], [], []⟩
    ⟨by decide +kernel, fun x hx hlt => absurd hlt (holdest x hx)⟩ (by decide +kernel)
  have hhomes := congrArg State.homes (Host.Outcome.next.inj hexec)
  exact absurd hhomes (by decide +kernel)

end Sys2Proof.Machine

/-! # Atomics issue (O21)

The four atomics share one body: the place, the wait of a release with the lines that it writes down, then what is the instruction's own
(`Atomic.body`). `Atomic.completes` says once what such a body leaves where nothing is in its way; the instruction's own part is
an operation in progress (ATOM, ATOMC, ATOMW) or an access in flight (RED). -/

namespace Sys2Proof.Machine

/-! ### The place and the order of an atomic (R193, R252) -/

/-- The operands of an atomic that say where it acts and in what order. -/
structure Atomic where
  g : GReg
  a : VReg
  off : Int
  size : Nat
  cls : Access
  rel : Bool
  sc : Scope

/-- Where an atomic of a thread acts. -/
def Atomic.find (o : Atomic) (m : Mods) (v w : State) (t : Tid) : State × Reached :=
  w.accessAddress t (v.regT t o.g) (v.offsetOf m t o.a o.off) o.size o.size o.cls .write

/-- The state in which the lines that a release writes down are down. -/
def Atomic.down (o : Atomic) (w : State) (t : Tid) : State := if o.rel then w.releaseLines t o.sc else w

/-- Nothing is in the way of an atomic: no member of a pair, and nothing that a release waits for. -/
def Atomic.Clear (o : Atomic) (w : State) (t : Tid) : Prop := w.twinOf t = none ∧ (o.rel = true → w.orderClear t o.sc = true)

/-- The body of an atomic, with what it does once its place is found and its release is done. -/
def Atomic.body (o : Atomic) (m : Mods) (act : State → State → Tid → Target → State × Flow) (v w : State) (t : Tid) : State × Flow :=
  match o.find m v w t with
  | (w1, .fail f) => (w1, .trap f)
  | (w1, .walk va) => (w1, .walk va .write)
  | (w1, .ok x) =>
    match w1.releaseAt t o.rel o.sc with
    | none => (w1, .again (.order o.sc))
    | some w2 => act v w2 t x

/-- What an atomic touches, with the flags that it sets. -/
def Touch.atomicOp (rel : Bool) (b : Bundle) (regs : List VReg) (flags : List Nat) : Touch := { Touch.atomic rel b regs with flags := flags }

theorem Touch.atomicOp_fits (rel : Bool) (b : Bundle) (regs : List VReg) (flags : List Nat) : (Touch.atomicOp rel b regs flags).Fits :=
  ⟨(Touch.atomic_fits rel b regs).refl, (Touch.atomic_fits rel b regs).trans, (Touch.atomic_fits rel b regs).issue⟩

theorem Touch.atomicOp_regs (rel : Bool) (b : Bundle) (regs : List VReg) (flags : List Nat) :
    (Touch.atomicOp rel b regs flags).regs = regs := Touch.atomic_regs rel b regs

/-- Releases of lines move caches alone, which the frame of a releasing atomic allows. -/
theorem CacheOnly.kept_atomicOp {s u : State} (h : CacheOnly s u) (b : Bundle) (regs : List VReg) (flags : List Nat) :
    Kept (Touch.atomicOp true b regs flags) s u := by
  have hrest := h.rest
  refine Kept.of_rest ?_ ?_ ?_ h.cores h.dies ?_ <;> (rw [hrest]; rfl)

theorem TlbOnly.kept_atomicOp {s u : State} (h : TlbOnly s u) (rel : Bool) (b : Bundle) (regs : List VReg) (flags : List Nat) :
    Kept (Touch.atomicOp rel b regs flags) s u := by
  cases rel with
  | false => exact h.kept rfl rfl fun hr => by rw [hr]; rfl
  | true => exact h.cacheOnly.kept_atomicOp b regs flags

theorem Atomic.kept_down (o : Atomic) (w : State) (t : Tid) (b : Bundle) (regs : List VReg) (flags : List Nat) :
    Kept (Touch.atomicOp o.rel b regs flags) w (o.down w t) := by
  unfold Atomic.down
  cases o.rel with
  | false => exact Kept.refl (Touch.atomicOp_fits ..) w
  | true => exact (CacheOnly.releaseLines w t o.sc).kept_atomicOp b regs flags

theorem Kept.pend_atomicOp (rel : Bool) (b : Bundle) (regs : List VReg) (s : State) (t : Tid) (issue : Nat) (what : Pend) :
    Kept (Touch.atomicOp rel b regs [b.seta]) s (s.pend b t issue true false what []) := by
  refine Kept.pend (Touch.atomicOp_fits ..) s b t issue true false what [] (fun _ _ => List.mem_cons_self) nofun fun s u h => ?_
  cases rel <;> rw [h] <;> rfl

theorem Kept.flight_atomicOp (rel : Bool) (b : Bundle) (regs : List VReg) (s : State) (t : Tid) (issue : Nat) (g : GReg) (x : Target)
    (atomic : Bool) (pol : Policy) (act : FlightAct) :
    Kept (Touch.atomicOp rel b regs []) s (s.launchFlight t issue g x atomic pol act) := by
  cases rel <;> exact Kept.of_rest rfl rfl rfl rfl rfl rfl

theorem TlbOnly.twinOf {s u : State} (h : TlbOnly s u) (t : Tid) : u.twinOf t = s.twinOf t := by
  rw [h.rest]
  rfl

/-- An atomic completes where its place is found, it is clear, and what it does then has its effect and lies in its frame. -/
theorem Atomic.completes (o : Atomic) {i : Instr} {m : Mods} {srcs rel : List VReg} {ready : State → Tid → Prop} {flags : Bundle → List Nat}
    (act : Bundle → State → State → Tid → Target → State × Flow) (eff : Bundle → State → State → Tid → Target → State)
    (pairAct : State → State → Tid → Option Act)
    (hexec : ∀ s b, s.bundle? = some b → exec i s = .next (s.runThreads m srcs rel pairAct (fun s _ => s) (o.body m (act b))))
    (hready : ∀ w t, ready w t → o.Clear w t)
    (hact : ∀ b v w t x, ready w t → act b v (o.down w t) t x = (eff b v (o.down w t) t x, .next))
    (hkept : ∀ b v w t x, Kept (Touch.atomicOp o.rel b rel (flags b)) w (eff b v w t x)) :
    Completes i m srcs rel (fun _ v w t => ∃ w1 x, o.find m v w t = (w1, .ok x) ∧ ready w1 t)
      (fun b v w t => match o.find m v w t with
        | (w1, .ok x) => (eff b v (o.down w1 t) t x, .next)
        | (w1, _) => (w1, .next))
      fun b => Touch.atomicOp o.rel b rel (flags b) := by
  apply completes_of (fun _ => pairAct) (fun _ s _ => s) fun b => o.body m (act b)
  case hi => exact hexec
  case hok =>
    intro b v w t ⟨w1, x, hat, hr⟩
    have hdown : w1.releaseAt t o.rel o.sc = some (o.down w1 t) := releaseAt_ok w1 t o.rel o.sc (hready w1 t hr).2
    simp only [Atomic.body, hat, hdown, hact b v w1 t x hr, Flow.ends, and_self]
  case hact =>
    intro b v u t ⟨w1, x, hat, hr⟩
    have htwin := (TlbOnly.of_accessAddress hat).twinOf t
    rw [State.twinOf_release] at htwin
    exact Or.inr (htwin.symm.trans (hready w1 t hr).1)
  case hx => exact fun b => Touch.atomicOp_fits ..
  case hrel => exact fun b r hr => (Touch.atomicOp_regs ..).symm ▸ hr
  case heff =>
    intro b v w t ⟨w1, x, hat, _⟩
    have hx := Touch.atomicOp_fits o.rel b rel (flags b)
    simp only [hat]
    exact ((TlbOnly.of_accessAddress hat).kept_atomicOp ..).trans hx ((o.kept_down w1 t b rel (flags b)).trans hx (hkept b v _ t x))

/-! ### ATOM, ATOMC and ATOMW: an operation in progress (R198, R269, R273) -/

/-- A troop has room for the registers of a result. -/
def State.HasResultRoom (w : State) (t : Tid) (ds : List VReg) : Prop := w.alloc t.band t.troop (w.needs t ds).eraseDups.length = .ok

/-- The destinations of an atomic are taken, and it is in progress. -/
def State.beginResult (ds : List VReg) (what : State → State → Tid → Target → Pend) (b : Bundle) (v w : State) (t : Tid) (x : Target) :
    State × Flow :=
  match w.take t ds with
  | .error f => (w, f)
  | .ok w1 => (w1.pend b t v.fresh true false (what v w1 t x) [], .next)

theorem Atomic.completes_result (o : Atomic) {i : Instr} {m : Mods} {srcs rel ds : List VReg} (what : State → State → Tid → Target → Pend)
    (pairAct : State → State → Tid → Option Act)
    (hexec : ∀ s b, s.bundle? = some b →
      exec i s = .next (s.runThreads m srcs rel pairAct (fun s _ => s) (o.body m (State.beginResult ds what b)))) :
    Completes i m srcs rel (fun _ v w t => ∃ w1 x, o.find m v w t = (w1, .ok x) ∧ o.Clear w1 t ∧ (o.down w1 t).HasResultRoom t ds)
      (fun b v w t => match o.find m v w t with
        | (w1, .ok x) => (((o.down w1 t).reserve t ds).pend b t v.fresh true false (what v ((o.down w1 t).reserve t ds) t x) [], .next)
        | (w1, _) => (w1, .next))
      fun b => Touch.atomicOp o.rel b rel [b.seta] := by
  apply o.completes (State.beginResult ds what)
    (fun b v w t x => (w.reserve t ds).pend b t v.fresh true false (what v (w.reserve t ds) t x) []) pairAct
  case hexec => exact hexec
  case hready => exact fun _ _ h => h.1
  case hact =>
    intro b v w t x ⟨_, hroom⟩
    simp only [State.beginResult, State.take_ok _ t ds hroom]
  case hkept =>
    intro b v w t x
    have hx := Touch.atomicOp_fits o.rel b rel [b.seta]
    exact (Kept.reserve hx w t ds).trans hx (Kept.pend_atomicOp ..)

theorem exec_atom {s : State} {b : Bundle} (hb : s.bundle? = some b) (m : Mods) (ord : Ord4) (k : GReg) (sc : Scope) (op : AtomOp)
    (w64 : Bool) (d a c : VReg) (off : BitVec 20) : exec (.atom m ord k sc op w64 d a c off) s =
      .next (s.runThreads m (a :: atomRegs w64 c ++ casRegs m w64) (lastReads3 m [a] (atomRegs w64 c) (casRegs m w64))
        (actOfAtomic m k a off.toInt fun v t => wordsOf w64 (v.atomSrc m t w64 c) ++
          (if (casRegs m w64).isEmpty then [] else wordsOf w64 (v.casSrc m t w64))) (fun s _ => s)
        (Atomic.body ⟨k, a, off.toInt, if w64 then 8 else 4, .atomic, Ord4.releases ord, sc⟩ m
          (State.beginResult (atomRegs w64 d) (fun v w t x => .atom x.loc x.va (w.siteOf t k x true) op w64 (v.atomSrc m t w64 c)
            (v.casSrc m t w64) d (if Ord4.acquires ord then some sc else none)) b))) := by
  change execAtom m ord k sc op w64 d a c off s = _
  simp only [execAtom, curBundle_of s b hb]
  rfl

/-- The module has feature 2, the home-only atomics with continuations (R63, R273). -/
theorem lacks_two : lacks 2 = false := by decide

theorem exec_atomc {s : State} {b : Bundle} (hb : s.bundle? = some b) (m : Mods) (ord : Ord4) (k : GReg) (addeq : Bool) (task : BitVec 13)
    (d a c : VReg) (off : BitVec 13) : exec (.atomc m ord k addeq task d a c off) s =
      .next (s.runThreads m [a, c, addendReg m d, d] (lastReads3 m [a] [c] [addendReg m d])
        (actOfAtomic m k a off.toInt fun v t => [v.srcB m t c, v.readV t (addendReg m d), v.readV t d]) (fun s _ => s)
        (Atomic.body ⟨k, a, off.toInt, 4, .homeOnly, Ord4.releases ord, .device⟩ m
          (State.beginResult [d] (fun v _ t x => .atomc x.loc x.va addeq task.toNat (v.srcB m t c) (v.readV t (addendReg m d))
            (v.readV t d) d (Ord4.acquires ord)) b))) := by
  change execAtomc m ord k addeq task d a c off s = _
  simp only [execAtomc, curBundle_of s b hb, lacks_two, Bool.false_eq_true, if_false]
  rfl

theorem regGroup_two (r : VReg) : regGroup r 2 = [r, regAt r 1] := by
  have hzero : regAt r 0 = r := Fin.ext (Nat.mod_eq_of_lt r.isLt)
  simp only [regGroup, List.range_succ, List.range_zero, List.nil_append, List.cons_append, List.map_cons, List.map_nil, hzero]

theorem exec_atomw {s : State} {b : Bundle} (hb : s.bundle? = some b) (m : Mods) (ord : Ord4) (k : GReg) (d a c : VReg) (off : BitVec 24) :
    exec (.atomw m ord k d a c off) s =
      .next (s.runThreads m [a, c, regAt c 1] (lastReads m [a] [c, regAt c 1])
        (actOfAtomic m k a off.toInt fun v t => [c, regAt c 1].map fun r => v.srcB m t r) (fun s _ => s)
        (Atomic.body ⟨k, a, off.toInt, 4, .homeOnly, Ord4.releases ord, .device⟩ m
          (State.beginResult [d] (fun v _ t x => .atomw x.loc (v.srcB m t c) (v.srcB m t (regAt c 1)) d (Ord4.acquires ord)) b))) := by
  change execAtomw m ord k d a c off s = _
  simp only [execAtomw, curBundle_of s b hb, regGroup_two]
  rfl

/-! ### RED: an access in flight (R198) -/

theorem Atomic.completes_flight (o : Atomic) {i : Instr} {m : Mods} {srcs rel : List VReg} (act : State → Tid → FlightAct)
    (pairAct : State → State → Tid → Option Act)
    (hexec : ∀ s b, s.bundle? = some b → exec i s = .next (s.runThreads m srcs rel pairAct (fun s _ => s)
      (o.body m fun v w t x => (w.launchFlight t v.fresh o.g x true .norm (act v t), .next)))) :
    Completes i m srcs rel (fun _ v w t => ∃ w1 x, o.find m v w t = (w1, .ok x) ∧ o.Clear w1 t)
      (fun _ v w t => match o.find m v w t with
        | (w1, .ok x) => ((o.down w1 t).launchFlight t v.fresh o.g x true .norm (act v t), .next)
        | (w1, _) => (w1, .next))
      fun b => Touch.atomicOp o.rel b rel [] :=
  o.completes (fun _ v w t x => (w.launchFlight t v.fresh o.g x true .norm (act v t), .next))
    (fun _ v w t x => w.launchFlight t v.fresh o.g x true .norm (act v t)) pairAct hexec (fun _ _ h => h)
    (fun _ _ _ _ _ _ => rfl) fun b _ _ _ _ => Kept.flight_atomicOp o.rel b rel ..

/-! ### The obligation -/

/-- Settles O21: each atomic is the shared body with its own operation in progress, RED with its access in flight. -/
theorem atomicsIssue : Obligations.AtomicsIssue := by
  unfold Obligations.AtomicsIssue
  refine ⟨fun m ord k sc op w64 d a b off => ?atom, fun m ord k sc op w64 a b off => ?red, fun m ord k addeq task d a b off => ?atomc,
    fun m ord k d a b off => ?atomw⟩
  case atom => exact Atomic.completes_result _ _ _ fun s bu hb => exec_atom hb m ord k sc op w64 d a b off
  case red =>
    exact Atomic.completes_flight ⟨k, a, off.toInt, if w64 then 8 else 4, .atomic, Ord4.releases ord, sc⟩
      (fun v t => .red op w64 (v.atomSrc m t w64 b)) _ fun _ _ _ => rfl
  case atomc => exact Atomic.completes_result _ _ _ fun s bu hb => exec_atomc hb m ord k addeq task d a b off
  case atomw => exact Atomic.completes_result _ _ _ fun s bu hb => exec_atomw hb m ord k d a b off

end Sys2Proof.Machine

/-! # What is written at a site is read there (O24)

The laws of the sites say it for one place each: `State.readSite_writeSite` for the bytes written, `State.benchByteAt_writeSite_out`,
`State.byteAt_writeHome_out` and `State.writeL1_hit` for all that stays. What is left is the rest of the written L1 line. -/

namespace Sys2Proof.Machine

/-- A write of an L1 line that the core holds for the context keeps the line's other bytes. -/
theorem State.writeL1_lineField_out {s : State} {core asid c pa n v : Nat} {h : HomeId} {pol : Policy} {l : Line}
    (hl : s.l1Line? c (lineKey h pa) = some l) (ha : l.asid = asid) (hp : pol ≠ .keep) (hn : pa % 128 + n ≤ 128) :
    ∃ l', (s.writeSite core asid (.l1 c) (.mem pa h) n v pol).l1Line? c (lineKey h pa) = some l' ∧
      ∀ j k, j + k ≤ 128 → (j + k ≤ pa % 128 ∨ pa % 128 + n ≤ j) → lineField l'.data j k = lineField l.data j k := by
  have hc : (s.core? c).isSome = true := Option.isSome_of_isSome_bind (Option.isSome_of_eq_some hl)
  obtain ⟨old, l', hl', -, hold, hdata, -, -⟩ := s.writeL1_line core c asid pa h n v pol hc
  rw [State.fillL1_hit s c asid _ h pol l hl ha hp, hl] at hold
  obtain rfl := Option.some.inj hold
  refine ⟨l', hl', fun j k hk hout => ?_⟩
  rw [hdata]
  exact lineField_merge_out _ _ _ _ _ _ hn hk hout

/-- Settles O24: the bytes read back by the laws of the sites, and of a written L1 line the bytes beside them. -/
theorem sitesReadBack : Obligations.SitesReadBack := by
  unfold Obligations.SitesReadBack
  refine ⟨fun s core asid site loc n v pol pol' hp hl => s.readSite_writeSite core asid site loc n v pol pol' hl hp,
    fun s core asid c off n v pol site d a => s.benchByteAt_writeSite_out core asid c off n v pol site d a,
    fun s core asid pa h n v pol a => s.byteAt_writeHome_out core asid pa h n v pol a,
    fun s core asid c pa h n v pol l hl ha hp hn => ?_⟩
  obtain ⟨hmem, hpeer, hlines⟩ := s.writeL1_hit core asid c pa h n v pol l hl ha hp
  exact ⟨hmem, hpeer, hlines, State.writeL1_lineField_out hl ha hp hn⟩

end Sys2Proof.Machine

/-! # Accesses are performed, lines are evicted (O25)

An access in flight with nothing older before it is performed (`exec_accessPerformed_of_clear`): a store is one write at its site, which
the laws of the sites describe, and a reduction reads there, then writes NewValue. An eviction is the invalidation of its line. -/

namespace Sys2Proof.Machine

/-! ### What a write leaves, byte by byte (R185, R199) -/

theorem State.core?_modCore_self {s : State} {core : Nat} {c : CoreSt} (hc : s.core? core = some c) {f : CoreSt → CoreSt}
    (hf : ∀ x, (f x).id = x.id) : (s.modCore core f).core? core = some (f c) := by
  rw [State.core?_modCore s core core f hf, if_pos rfl, hc]
  rfl

theorem State.core?_modCore_ne (s : State) {core k : Nat} (hk : k ≠ core) {f : CoreSt → CoreSt} (hf : ∀ x, (f x).id = x.id) :
    (s.modCore core f).core? k = s.core? k := by
  rw [State.core?_modCore s core k f hf, if_neg hk]

theorem State.writeSite_bench (s : State) (core asid : Nat) (site : Site) (c off n v : Nat) (pol : Policy) :
    s.writeSite core asid site (.bench c off) n v pol = s.modCore c fun x => { x with
      bench := writeBytes x.bench off (leBytes n v),
      benchPoison := x.benchPoison.filter fun w => !(off ≤ 4 * w && 4 * w + 4 ≤ off + n) } := by
  cases site <;> rfl

theorem State.benchByteAt_writeSite {s : State} {c : Nat} (hc : (s.core? c).isSome = true) (core asid : Nat) (site : Site) (off n v : Nat)
    (pol : Policy) (e a : Nat) : (s.writeSite core asid site (.bench c off) n v pol).benchByteAt e a =
      if e = c ∧ off ≤ a ∧ a < off + n then BitVec.ofNat 8 (v / 256 ^ (a - off)) else s.benchByteAt e a := by
  by_cases hin : e = c ∧ off ≤ a ∧ a < off + n
  · obtain ⟨rfl, hbyte⟩ := hin
    obtain ⟨x, hx⟩ := Option.isSome_iff_exists.mp hc
    rw [State.writeSite_bench, if_pos ⟨rfl, hbyte⟩, State.benchByteAt, State.core?_modCore_self hx (by exact fun _ => rfl)]
    simp only [Option.map_some, Option.getD_some, look_writeLe, if_pos hbyte]
  · rw [if_neg hin]
    exact State.benchByteAt_writeSite_out s core asid c off n v pol site e a (by omega)

/-- A write at a home, in memory or in a peer's window. -/
theorem State.bytesAt_setHomeBytes (s : State) (h : HomeId) (pa n v a : Nat) :
    let new := if pa ≤ a ∧ a < pa + n then some (BitVec.ofNat 8 (v / 256 ^ (a - pa))) else none
    let u := s.setHomeBytes h pa (leBytes n v)
    if h = .peer then u.peerByteAt a = new.getD (s.peerByteAt a) ∧ u.byteAt a = s.byteAt a
    else u.byteAt a = new.getD (s.byteAt a) ∧ u.peerByteAt a = s.peerByteAt a := by
  intro new u
  split
  · next hh =>
    simp only [u, State.setHomeBytes, if_pos hh, State.peerByteAt, State.byteAt, and_true]
    exact look_writeLe ..
  · next hh =>
    simp only [u, State.setHomeBytes, if_neg hh, State.peerByteAt, State.byteAt, and_true]
    exact look_writeLe ..

theorem State.setHomeBytes_rest (s : State) (h : HomeId) (pa : Nat) (bs : List Byte) :
    s.setHomeBytes h pa bs = { s with mem := (s.setHomeBytes h pa bs).mem, peerMem := (s.setHomeBytes h pa bs).peerMem } := by
  unfold State.setHomeBytes
  split <;> rfl

/-! ### The undo log takes no home word and no bench word (R315) -/

theorem State.logWrite_bench (s : State) (band core : Nat) (site : Site) (c off : Nat) :
    s.logWrite band core site (.bench c off) = s := by
  cases site <;> rfl

theorem State.logWrite_home (s : State) (band core : Nat) (loc : Loc) : s.logWrite band core .home loc = s := by
  cases loc with
  | bench c off => rfl
  | mem pa h => cases h <;> rfl

/-! ### Accesses in flight (R249) -/

section Flight
variable {s : State} {f : Flight}

/-- The state with an access no longer in flight. -/
def State.withoutFlight (s : State) (f : Flight) : State := { s with flights := s.flights.filter fun x => x.id != f.id }

theorem exec_accessPerformed_of_clear (hf : s.flights.find? (·.id == f.id) = some f) (hc : s.canPerform f = true) :
    exec (.accessPerformed (.access f.id)) s = .next (s.performFlight f) := by
  change execAccessPerformed (.access f.id) s = _
  simp only [execAccessPerformed, hf, hc, if_true]

theorem State.performFlight_store {n : Nat} {d : BitVec 128} (ha : f.act = .store n d) : s.performFlight f =
    ((s.withoutFlight f).logWrite f.tid.band ((s.withoutFlight f).coreOf f.tid) f.site f.loc).writeSite
      ((s.withoutFlight f).coreOf f.tid) f.asid f.site f.loc n d.toNat f.pol := by
  simp only [State.performFlight, ha, State.withoutFlight]

theorem State.performFlight_homeStore {n pa : Nat} {d : BitVec 128} {h : HomeId} (ha : f.act = .store n d) (hl : f.loc = .mem pa h)
    (hs : f.site = .home) : s.performFlight f = (s.withoutFlight f).setHomeBytes h pa (leBytes n d.toNat) := by
  rw [State.performFlight_store ha, hs, State.logWrite_home, hl]
  rfl

theorem State.performFlight_benchStore {n c off : Nat} {d : BitVec 128} (ha : f.act = .store n d) (hl : f.loc = .bench c off) :
    s.performFlight f = (s.withoutFlight f).writeSite ((s.withoutFlight f).coreOf f.tid) f.asid f.site (.bench c off) n d.toNat f.pol := by
  rw [State.performFlight_store ha, hl, State.logWrite_bench]

/-- The width in bits in which a reduction computes is that of the bytes it reads (R198). -/
theorem redBits_eq (w : Bool) : (if w then 64 else 32) = 8 * if w then 8 else 4 := by
  cases w <;> rfl

section Red
variable {op : AtomOp} {w : Bool} {b : BitVec 64} {s1 : State} {o : Nat}

theorem State.performFlight_red_of_sound (ha : f.act = .red op w b)
    (hread : (s.withoutFlight f).readSite ((s.withoutFlight f).coreOf f.tid) f.asid f.site f.loc (if w then 8 else 4) .norm = (s1, o, false)) :
    let u := (s1.logWrite f.tid.band ((s.withoutFlight f).coreOf f.tid) f.site f.loc).writeSite ((s.withoutFlight f).coreOf f.tid) f.asid
      f.site f.loc (if w then 8 else 4) (newValue op (8 * if w then 8 else 4) o (b.toNat % 2 ^ (8 * if w then 8 else 4)) 0) .norm
    s.performFlight f = if f.site = .home then u.commit f.tid.band else u := by
  simp only [State.withoutFlight] at hread
  simp only [State.performFlight, ha, State.atomicAt, hread, State.withoutFlight, redBits_eq, Bool.false_eq_true, if_false, Bool.not_false,
    Bool.and_true, decide_eq_true_eq]

theorem State.performFlight_red_of_poisoned (ha : f.act = .red op w b)
    (hread : (s.withoutFlight f).readSite ((s.withoutFlight f).coreOf f.tid) f.asid f.site f.loc (if w then 8 else 4) .norm = (s1, o, true)) :
    s.performFlight f = s1 := by
  simp only [State.withoutFlight] at hread
  simp only [State.performFlight, ha, State.atomicAt, hread, if_true, Bool.not_true, Bool.and_false, Bool.false_eq_true, if_false]

end Red
end Flight

/-! ### Evictions (R187, R334) -/

theorem State.pinned_iff (s : State) (core line : Nat) : s.pinned core line = true ↔ ∃ p ∈ s.pins, p.core = core ∧ p.line = line := by
  simp only [State.pinned, List.any_eq_true, Bool.and_eq_true, beq_iff_eq]

theorem exec_evictL1 (s : State) (core line : Nat) :
    exec (.accessPerformed (.evictL1 core line)) s = .next (if s.pinned core line then s else s.invalL1 core line) := rfl

theorem exec_evictL1_of_unpinned {s : State} {core line : Nat} (h : ∀ p ∈ s.pins, ¬ (p.core = core ∧ p.line = line)) :
    exec (.accessPerformed (.evictL1 core line)) s = .next (s.invalL1 core line) := by
  have hp : ¬ s.pinned core line = true := by
    rw [State.pinned_iff]
    exact fun ⟨p, hp, hpin⟩ => h p hp hpin
  rw [exec_evictL1, if_neg hp]

/-! ### The obligation -/

/-- Settles O25: a flight is performed by its action and site, a line evicted by its invalidation. -/
theorem accessesPerformed : Obligations.AccessesPerformed := by
  unfold Obligations.AccessesPerformed
  refine ⟨fun s f n d pa h ⟨hf, hclear⟩ ha hl hs => ?home, fun s f n d c off ⟨hf, hclear⟩ ha hl hc => ?bench,
    fun s f n d pa h c ⟨hf, hclear⟩ ha hl hs => ⟨?l1, ?log⟩, fun s f op w b ⟨hf, hclear⟩ ha =>
      ⟨fun s1 o hread => ?sound, fun s1 o hread => ?poisoned⟩,
    fun s core line => ⟨fun hp => ?pinned, fun hp => ?evictL1⟩, fun s die line => ?evictL2⟩
  case home =>
    refine ⟨_, exec_accessPerformed_of_clear hf hclear, ?_, fun a => ?_⟩
    · rw [State.performFlight_homeStore ha hl hs]
      exact State.setHomeBytes_rest ..
    · rw [State.performFlight_homeStore ha hl hs]
      exact (s.withoutFlight f).bytesAt_setHomeBytes h pa n d.toNat a
  case bench =>
    refine ⟨_, exec_accessPerformed_of_clear hf hclear, ?_, fun e a => ?_, ?_⟩
    · rw [State.performFlight_benchStore ha hl, State.writeSite_bench]
      rfl
    · rw [State.performFlight_benchStore ha hl]
      exact State.benchByteAt_writeSite (s := s.withoutFlight f) hc ..
    · rw [State.performFlight_benchStore ha hl, State.writeSite_bench]
      exact map_modIf _ _ _ _ fun _ => rfl
  case l1 =>
    rw [exec_accessPerformed_of_clear hf hclear, State.performFlight_store ha, hs]
    rfl
  case log => exact fun v b core => v.logWrite_caches b core (.l1 c) f.loc
  case sound =>
    rw [exec_accessPerformed_of_clear hf hclear]
    exact congrArg _ (State.performFlight_red_of_sound ha hread)
  case poisoned =>
    rw [exec_accessPerformed_of_clear hf hclear]
    exact congrArg _ (State.performFlight_red_of_poisoned ha hread)
  case pinned => rw [exec_evictL1, if_pos ((s.pinned_iff core line).mpr hp)]
  case evictL1 =>
    exact ⟨_, exec_evictL1_of_unpinned hp, CacheOnly.invalL1 s core line, s.l1Line?_inval core line,
      fun l hl hh i hi => s.byteAt_invalL1 core line l hl hh i hi⟩
  case evictL2 =>
    exact ⟨_, rfl, CacheOnly.invalL2 s die line, s.l2Line?_inval die line, fun l hl hh i hi => s.byteAt_invalL2 die line l hl hh i hi⟩

end Sys2Proof.Machine

/-! # Errors are contained (O53)

Acts of a redundant pair pass together or diverge, and a divergence has two outcomes. An error changes the one unit that its site names,
and is then an event for SNAPCTL: what `State.poisonAt` leaves is said site by site, what a trigger leaves by `State.snapTrigger_eq`. -/

namespace Sys2Proof.Machine

/-! ### Error events (R350, R353) -/

/-- The snapshot registers after a trigger: latched where they are not frozen, else counted as missed, unless the trigger shares the
latch's cycle of the fabric clock. -/
theorem State.snapTrigger_eq (s : State) :
    s.snapTrigger = s.setSnap (if s.dev.snap.frozen = false then
        ⟨(s.dev.snap.seq + 1) % 2 ^ 32, s.dev.snap.miss, true, s.clock, s.snapWords ((s.dev.snap.seq + 1) % 2 ^ 32)⟩
      else if sameFabricCycle s.dev.snap.at_ s.clock = true then s.dev.snap
      else { s.dev.snap with miss := satInc s.dev.snap.miss }) := by
  cases hf : s.dev.snap.frozen with
  | false => rw [State.snapTrigger_of_unfrozen hf, if_pos rfl]
  | true =>
    rw [if_neg Bool.true_eq_false.mp]
    cases hc : sameFabricCycle s.dev.snap.at_ s.clock with
    | false => rw [State.snapTrigger_of_miss hf hc, if_neg Bool.false_ne_true]
    | true =>
      rw [State.snapTrigger_of_sameCycle hf hc, if_pos rfl]
      rfl

theorem State.snapEvent_of_disabled {s : State} {k : Nat} (h : s.dev.snapctl.getLsbD k = false) : s.snapEvent k = s := by
  simp only [State.snapEvent, h, Bool.false_eq_true, if_false]

theorem State.snapEvent_of_enabled {s : State} {k : Nat} (h : s.dev.snapctl.getLsbD k = true) : s.snapEvent k = s.snapTrigger := by
  simp only [State.snapEvent, h, if_true]

/-! ### Acts of a redundant pair (R312) -/

section Acts
variable {s : State} {act : Nat} {a : PairAct}

theorem exec_pairActCompare_of_same (ha : s.pairActs.find? (·.id == act) = some a) (hp : a.passed = false) {o : PairAct}
    (ho : s.otherAct a = some o) (h : a.sig = o.sig) : exec (.pairActCompare act) s = .next { s with
      pairActs := modIf (fun x => x.id == a.id || x.id == o.id) (fun x => { x with passed := true }) s.pairActs } := by
  change execPairActCompare act s = _
  simp only [execPairActCompare, ha, ho, hp, h, Bool.false_eq_true, if_false, if_true]

theorem exec_pairActCompare_of_other (ha : s.pairActs.find? (·.id == act) = some a) (hp : a.passed = false) {o : PairAct}
    (ho : s.otherAct a = some o) (h : a.sig ≠ o.sig) : exec (.pairActCompare act) s = .next (s.diverge a.band a.troop) := by
  change execPairActCompare act s = _
  simp only [execPairActCompare, ha, ho, hp, h, Bool.false_eq_true, if_false]

theorem exec_pairwaitTimeout_of_late (ha : s.pairActs.find? (·.id == act) = some a) (hp : a.passed = false) {x : Band}
    (hx : s.band? a.band = some x) (hr : x.state = .resident) (ho : s.otherAct a = none) (hl : a.deadline < s.clock) :
    exec (.pairwaitTimeout act) s = .next (s.diverge a.band a.troop) := by
  change execPairwaitTimeout act s = _
  have hlate : ¬ s.clock ≤ a.deadline := Nat.not_le.mpr hl
  simp [execPairwaitTimeout, ha, hx, hr, ho, hp, hlate]

end Acts

/-- A band rolls back where each member of its unit has a point that is not committed, with its shadow (R317). -/
theorem State.canRoll_iff (s : State) (b : Nat) : s.canRoll b = true ↔ ∀ x ∈ s.unit b,
    ∃ y, s.band? x = some y ∧ y.hasPoint = true ∧ y.committed = false ∧ ∃ h ∈ s.shadows, h.band.id = x := by
  simp only [State.canRoll, List.all_eq_true]
  refine forall₂_congr fun x _ => ?_
  cases s.band? x with
  | none => simp
  | some y => simp [and_assoc]

theorem State.diverge_of_canRoll {s : State} {b : Nat} (h : s.canRoll b = true) (t : Nat) :
    s.diverge b t = s.rollback b (s.originTroop b t) 2 0x10 := if_pos h

theorem State.diverge_of_not_canRoll {s : State} {b : Nat} (h : ¬ s.canRoll b = true) (t : Nat) :
    s.diverge b t = s.killBand b (s.originTroop b t) 5 0x10 := if_neg h

/-! ### Units that an error strikes (R202, R229, R319) -/

theorem mem_appendNew {α : Type} [BEq α] [LawfulBEq α] (l : List α) (x k : α) :
    k ∈ (if l.contains x then l else l ++ [x]) ↔ k = x ∨ k ∈ l := by
  split
  · next hx =>
    have hmem : x ∈ l := List.contains_iff_mem.mp hx
    exact ⟨Or.inr, fun h => h.elim (fun h => h ▸ hmem) id⟩
  · simp [or_comm]

theorem State.poisonAt_homeLine (s : State) (l : Nat) :
    s.poisonAt (.homeLine l) = { s with poison := if s.poison.contains l then s.poison else s.poison ++ [l] } := by
  simp only [State.poisonAt]
  split <;> rfl

theorem State.mem_poison_homeLine (s : State) (l k : Nat) : k ∈ (s.poisonAt (.homeLine l)).poison ↔ k = l ∨ k ∈ s.poison := by
  rw [State.poisonAt_homeLine]
  exact mem_appendNew ..

theorem State.poisonAt_benchWord (s : State) (core w : Nat) : s.poisonAt (.benchWord core w) = s.modCore core fun c =>
    { c with benchPoison := if c.benchPoison.contains w then c.benchPoison else c.benchPoison ++ [w] } := by
  refine congrArg (s.modCore core) (funext fun c => ?_)
  split <;> rfl

theorem State.poisonAt_tileByte (s : State) (core t n : Nat) : s.poisonAt (.tileByte core t n) = s.modCore core fun c =>
    { c with tilePoison := if c.tilePoison.contains (4096 * t + n % 4096) then c.tilePoison
      else c.tilePoison ++ [4096 * t + n % 4096] } := by
  refine congrArg (s.modCore core) (funext fun c => ?_)
  split <;> rfl

/-- The elements of a row of a granule, beside those that are poisoned already (R229). -/
theorem mem_poisonRow (l : List (Nat × Nat)) (r n : Nat) (k : Nat × Nat) :
    k ∈ l ++ (((List.range 32).map fun i => (r, n / 32 * 32 + i)).filter fun e => !l.contains e) ↔
      (∃ i, i < 32 ∧ k = (r, n / 32 * 32 + i)) ∨ k ∈ l := by
  by_cases hk : k ∈ l <;> simp [hk, eq_comm]

theorem State.poisonAt_reserveReg {s : State} {core i r : Nat} {x : TrapSlot} (hx : s.slot? core i = some x) :
    (s.poisonAt (.reserveReg core i r)).slot? core i = some { x with poison := put 0 r (BitVec.allOnes 64) x.poison } := by
  simp only [State.poisonAt]
  rw [State.slot?_modSlot s core i core i (fun x => { x with poison := put 0 r (BitVec.allOnes 64) x.poison })
    fun _ => ⟨rfl, rfl⟩, if_pos ⟨rfl, rfl⟩, hx]
  rfl

/-! ### Patrol scrub (R346) -/

/-- Lines poisoned one after another: each of them, and nothing beside memory's marks. -/
theorem State.poisonAll_homeLines (bad : List Nat) (s : State) :
    (∃ p, bad.foldl (fun s l => s.poisonAt (.homeLine l)) s = { s with poison := p }) ∧
      ∀ l, l ∈ (bad.foldl (fun s l => s.poisonAt (.homeLine l)) s).poison ↔ l ∈ bad ∨ l ∈ s.poison := by
  induction bad generalizing s with
  | nil => exact ⟨⟨s.poison, rfl⟩, by simp⟩
  | cons b bad ih =>
    obtain ⟨⟨p, hp⟩, hmem⟩ := ih (s.poisonAt (.homeLine b))
    refine ⟨⟨p, ?_⟩, fun l => ?_⟩
    · rw [List.foldl_cons, hp, State.poisonAt_homeLine]
    · rw [List.foldl_cons, hmem, State.mem_poison_homeLine, List.mem_cons]
      tauto

/-! ### The obligation -/

/-- Settles O53: the two acts by whether their signatures agree, each site by what it poisons, and every error event by what a trigger
does to the snapshot registers. -/
theorem errorsContained : Obligations.ErrorsContained := by
  unfold Obligations.ErrorsContained
  intro event
  have hevent : ∀ s k, event s k (s.snapEvent k) := by
    refine fun s k => ⟨State.snapEvent_of_disabled, fun hk => ?_⟩
    rw [State.snapEvent_of_enabled hk, State.snapTrigger_eq]
    rfl
  refine ⟨fun s act a ha hp => ⟨?same, ?other, ?late⟩, fun s b t => ⟨?rolls, ?dies⟩, fun s site => ?ue, fun s core c hc => ?corrected,
    fun s bad => ?scrub, fun s link => ?link⟩
  case same => exact fun o ho => exec_pairActCompare_of_same ha hp ho
  case other => exact fun o ho => exec_pairActCompare_of_other ha hp ho
  case late => exact fun x => exec_pairwaitTimeout_of_late ha hp
  case rolls => exact fun hcan => State.diverge_of_canRoll ((s.canRoll_iff b).mpr hcan) t
  case dies => exact fun hcan => State.diverge_of_not_canRoll (mt (s.canRoll_iff b).mp hcan) t
  case ue =>
    refine ⟨s.poisonAt site, _, rfl, hevent _ 0, ?_⟩
    cases site with
    | homeLine l =>
      refine ⟨(s.mem_poison_homeLine l l).mpr (Or.inl rfl), fun k hk => ?_, ?_⟩
      · simp only [State.mem_poison_homeLine, hk, false_or]
      · rw [State.poisonAt_homeLine]
    | l1Line core l => rfl
    | l2Line die l => rfl
    | physReg b t r => rfl
    | reserveReg core i r =>
      intro x hx
      refine ⟨_, State.poisonAt_reserveReg hx, ?_, fun k hk => ?_, rfl, rfl⟩
      · rw [look_put, if_pos rfl]
      · exact look_put_ne (0 : BitVec 64) r k (BitVec.allOnes 64) x.poison hk
    | benchWord core n =>
      intro c hc
      rw [State.poisonAt_benchWord]
      exact ⟨_, State.core?_modCore_self hc fun _ => rfl, mem_appendNew _ _, rfl, rfl⟩
    | tileByte core t n =>
      intro c hc
      rw [State.poisonAt_tileByte]
      exact ⟨_, State.core?_modCore_self hc fun _ => rfl, mem_appendNew _ _, rfl, rfl⟩
    | accElem core r n =>
      intro c hc
      exact ⟨_, State.core?_modCore_self hc fun _ => rfl, mem_poisonRow _ _ _, rfl, rfl⟩
    | control b => rfl
    | link i => rfl
  case corrected =>
    exact ⟨_, rfl, rfl, State.core?_modCore_self hc fun _ => rfl, fun k hk => s.core?_modCore_ne hk fun _ => rfl⟩
  case scrub =>
    obtain ⟨⟨p, hp⟩, hmem⟩ := State.poisonAll_homeLines bad s
    refine ⟨bad.foldl (fun s l => s.poisonAt (.homeLine l)) s, _, rfl, ?_, hmem, fun hb => ?_, fun hb => ?_⟩
    · rw [hp]
    · rw [if_pos (List.isEmpty_iff.mpr hb)]
    · rw [if_neg (mt List.isEmpty_iff.mp hb)]
      exact hevent _ 0
  case link => exact ⟨_, rfl, hevent _ 2⟩

end Sys2Proof.Machine

/-! # Commands of the engines issue (O35)

The five commands share one issue, `State.issueOp`: where the checks pass and the class counter stands below 255, the operation starts, after
a commit where its destination is seen outside the band. `completes_command` says once what such an issue leaves; an instruction adds
what it does beside (the tile's event of a TCPY, the write-backs of an NMC). -/

namespace Sys2Proof.Machine

/-! ### The shared issue (R206, R316) -/

/-- The rollback interval is committed where an act is visible. -/
def State.commitWhere (w : State) (visible : Bool) (t : Tid) : State := if visible then w.commit t.band else w

theorem State.issueOp_of_counted {w : State} {t : Tid} {cls : OpClass} (hc : w.countOf t.band t.troop cls < 255) (pc : Pc) (regs : List GReg)
    (hnd : Nat) (visible : Bool) (k : OpWork) :
    w.issueOp t pc cls regs hnd visible false (.ok k) = ((w.commitWhere visible t).started t pc cls regs hnd k, .next) := by
  have hfull : w.counterFull t cls = false := decide_eq_false (Nat.not_le.mpr hc)
  cases visible <;> simp only [State.issueOp, hfull] <;> rfl

/-- A frame within which a command may commit and start. -/
structure Touch.Commands (x : Touch) : Prop extends x.Fits where
  point : ∀ y : Band, x.band y.unpoint.idle = x.band y.idle
  command : ∀ s u : State, u = (Touch.command []).rest s u → u = x.rest s u

theorem Kept.command {x : Touch} (hx : x.Commands) (w : State) (t : Tid) (pc : Pc) (cls : OpClass) (regs : List GReg) (hnd : Nat)
    (visible : Bool) (k : OpWork) : Kept x w ((w.commitWhere visible t).started t pc cls regs hnd k) := by
  have hcommit : Kept x w (w.commitWhere visible t) := by
    cases visible with
    | false => exact Kept.refl hx.toFits w
    | true => exact Kept.commit hx.toFits hx.point (fun s u h => hx.command s u (by rw [h]; rfl)) w t.band
  exact hcommit.trans hx.toFits (Kept.of_rest rfl rfl rfl rfl rfl (hx.command _ _ rfl))

theorem Touch.command_commands (rel : List VReg) : (Touch.command rel).Commands :=
  { Touch.command_fits rel with point := fun _ => rfl, command := fun _ _ h => h }

/-- A command completes where its checks pass, its counter has room and no partner waits for its act, if its body then has its effect
within its frame. -/
theorem completes_command {i : Instr} {m : Mods} {srcs rel : List VReg} {touch : Touch} (cls : OpClass) (visible : State → Tid → Bool)
    (work : State → State → Tid → Except Fail OpWork) (eff : Bundle → State → State → Tid → OpWork → State)
    (pairAct : Bundle → State → State → Tid → Option Act) (twin : Bundle → State → Tid → State)
    (body : Bundle → State → State → Tid → State × Flow)
    (hexec : ∀ s b, s.bundle? = some b → exec i s = .next (s.runThreads m srcs rel (pairAct b) (twin b) (body b)))
    (hact : ∀ b v u t, visible v t = false → pairAct b v u t = none)
    (hbody : ∀ b v w t k, work v w t = .ok k → w.countOf t.band t.troop cls < 255 → body b v w t = (eff b v w t k, .next))
    (hx : touch.Commands) (hrel : ∀ r ∈ rel, r ∈ touch.regs) (hkept : ∀ b v w t k, Kept touch w (eff b v w t k)) :
    Completes i m srcs rel
      (fun _ v w t => ∃ k, work v w t = .ok k ∧ w.countOf t.band t.troop cls < 255 ∧ (visible v t = true → w.twinOf t = none))
      (fun b v w t => match work v w t with
        | .ok k => (eff b v w t k, .next)
        | .error _ => (w, .next))
      fun _ => touch := by
  apply completes_of pairAct twin body
  case hi => exact hexec
  case hok =>
    intro b v w t ⟨k, hk, hc, _⟩
    simp only [hk, hbody b v w t k hk hc, Flow.ends, and_self]
  case hact =>
    intro b v u t ⟨k, _, _, htwin⟩
    cases hv : visible v t with
    | false => exact Or.inl (hact b v u t hv)
    | true => exact Or.inr ((u.twinOf_release t rel t).symm.trans (htwin hv))
  case hx => exact fun _ => hx.toFits
  case hrel => exact fun _ => hrel
  case heff =>
    intro b v w t ⟨k, hk, _⟩
    simp only [hk]
    exact hkept b v w t k

/-! ### CPY, GATH and COLL (R210, R211, R289) -/

theorem completes_cpy (m : Mods) (tag : Fin 4) (d sg : GReg) (a b : VReg) (val : Fin 64) :
    Completes (.cpy m tag d sg a b val) m [a, b] (lastReads m [a] [b])
      (fun _ v w t => ∃ k, v.cpyWork t d sg (v.srcA m t a).toNat (v.srcB m t b).toNat val.val = .ok k ∧
        w.countOf t.band t.troop (tagClass tag) < 255 ∧ (v.visibleTo t d = true → w.twinOf t = none))
      (fun bu v w t => match v.cpyWork t d sg (v.srcA m t a).toNat (v.srcB m t b).toNat val.val with
        | .ok k => ((w.commitWhere (v.visibleTo t d) t).started t bu.pc (tagClass tag) (if val.val = 0 then [d] else [sg, d]) 0 k, .next)
        | .error _ => (w, .next))
      fun _ => Touch.command (lastReads m [a] [b]) := by
  apply completes_command (tagClass tag) (fun v t => v.visibleTo t d)
    (fun v _ t => v.cpyWork t d sg (v.srcA m t a).toNat (v.srcB m t b).toNat val.val)
    (fun bu v w t k => (w.commitWhere (v.visibleTo t d) t).started t bu.pc (tagClass tag) (if val.val = 0 then [d] else [sg, d]) 0 k)
  case hexec =>
    intro s bu hb
    change execCpy m tag d sg a b val s = _
    rw [execCpy, curBundle_of s bu hb]
  case hact => exact fun _ _ _ _ hv => if_neg (Bool.eq_false_iff.mp hv)
  case hbody =>
    intro bu v w t k hk hc
    simp only [hk, State.issueOp_of_counted hc]
  case hx => exact Touch.command_commands _
  case hrel => exact fun _ hr => hr
  case hkept => exact fun _ _ w t k => Kept.command (Touch.command_commands _) w t ..

theorem completes_gath (m : Mods) (d sg : GReg) (a b : VReg) (rb : BitVec 12) :
    let work (v : State) (t : Tid) : Except Fail OpWork :=
      v.gathWork t d sg (v.srcA m t a).toNat (v.srcA m t (regAt a 1)).toNat (v.srcB m t b) (16 * (rb.toNat + 1))
    Completes (.gath m d sg a b rb) m (regGroup a 2 ++ [b]) (lastReads m (regGroup a 2) [b])
      (fun _ v w t => ∃ k, work v t = .ok k ∧ w.countOf t.band t.troop .gather < 255 ∧ (v.visibleTo t d = true → w.twinOf t = none))
      (fun bu v w t => match work v t with
        | .ok k => ((w.commitWhere (v.visibleTo t d) t).started t bu.pc .gather
          (if v.srcB m t b = 0xFFFFFFFF#32 then [d] else [sg, d]) 0 k, .next)
        | .error _ => (w, .next))
      fun _ => Touch.command (lastReads m (regGroup a 2) [b]) := by
  intro work
  apply completes_command .gather (fun v t => v.visibleTo t d) (fun v _ t => work v t)
    (fun bu v w t k => (w.commitWhere (v.visibleTo t d) t).started t bu.pc .gather
      (if v.srcB m t b = 0xFFFFFFFF#32 then [d] else [sg, d]) 0 k)
  case hexec =>
    intro s bu hb
    change execGath m d sg a b rb s = _
    rw [execGath, curBundle_of s bu hb]
  case hact => exact fun _ _ _ _ hv => if_neg (Bool.eq_false_iff.mp hv)
  case hbody =>
    intro bu v w t k hk hc
    simp only [work] at hk
    simp only [hk, State.issueOp_of_counted hc]
  case hx => exact Touch.command_commands _
  case hrel => exact fun _ hr => hr
  case hkept => exact fun _ _ w t k => Kept.command (Touch.command_commands _) w t ..

/-- The module has features 3 and 5: collectives, also across modules (R289, R352). -/
theorem lacks_three : lacks 3 = false := by decide

theorem lacks_five : lacks 5 = false := by decide

theorem completes_coll (m : Mods) (cross : Bool) (opr : CollOp) (fmc : Fin 4) (lenu : Fin 512) (npm : Fin 16) (sg d : GReg) (a : VReg) :
    let work (v : State) (t : Tid) : Except Fail OpWork :=
      v.collWork t sg d cross opr fmc (128 * (lenu.val + 1)) (npm.val + 1) fun k => v.srcA m t (regAt a k)
    Completes (.coll m cross opr fmc lenu npm sg d a) m (regGroup a 4) (lastReads m (regGroup a 4) [])
      (fun _ v w t => ∃ k, work v t = .ok k ∧ w.countOf t.band t.troop .coll < 255 ∧ (true = true → w.twinOf t = none))
      (fun bu v w t => match work v t with
        | .ok k => ((w.commitWhere true t).started t bu.pc .coll [sg, d] 0 k, .next)
        | .error _ => (w, .next))
      fun _ => Touch.command (lastReads m (regGroup a 4) []) := by
  intro work
  apply completes_command .coll (fun _ _ => true) (fun v _ t => work v t)
    (fun bu _ w t k => (w.commitWhere true t).started t bu.pc .coll [sg, d] 0 k)
  case hexec =>
    intro s bu hb
    change execColl m cross opr fmc lenu npm sg d a s = _
    simp only [execColl, lacks_three, lacks_five, Bool.and_false, Bool.false_eq_true, if_false, curBundle_of s bu hb]
    rfl
  case hact => exact fun _ _ _ _ hv => absurd hv Bool.true_eq_false.mp
  case hbody =>
    intro bu v w t k hk hc
    simp only [work] at hk
    simp only [hk, State.issueOp_of_counted hc]
  case hx => exact Touch.command_commands _
  case hrel => exact fun _ hr => hr
  case hkept => exact fun _ _ w t k => Kept.command (Touch.command_commands _) w t ..

/-! ### TCPY (R217, R219, R222) -/

/-- A change of a tile's entry lies in a frame that leaves the Tile Tables open. -/
theorem Kept.modTile {x : Touch} (hx : x.Fits) (hb : ∀ y : Band, x.band y.idle = x.band { y.idle with tileEntries := [] }) (s : State) (t : Tid)
    (y : TileAt) (f : TileEntry → TileEntry) : Kept x s (s.modTile t y f) :=
  Kept.of_modBand hx s t.band _ (fun _ => rfl) (fun _ => rfl) fun y => (hb _).trans (hb y).symm

/-- What issuing a TCPY touches: beside a command's parts the Tile Tables. -/
def Touch.tensorCopy (rel : List VReg) : Touch := { Touch.command rel with band := fun x => { x.unpoint with tileEntries := [] } }

theorem Touch.tensorCopy_commands (rel : List VReg) : (Touch.tensorCopy rel).Commands where
  refl := (Touch.command_fits rel).refl
  trans := (Touch.command_fits rel).trans
  issue := (Touch.command_fits rel).issue
  point _ := rfl
  command _ _ h := h

/-- The operands that a TCPY reads from its registers (R219). -/
def State.tcpyArgs (v : State) (m : Mods) (dir : TcpyDir) (g : GReg) (a : VReg) (hnd : BitVec 12) (tile : Fin 512) (bg : GReg) (tag : Fin 4)
    (dc tr : Bool) (t : Tid) : TcpyArgs :=
  ⟨dir, g, hnd.toNat, tile.val, bg, tag, dc, tr, (List.range 5).map fun k => (v.srcA m t (regAt a k)).toInt,
    v.srcA m t (regAt a 5), (v.srcA m t (regAt a 6)).toNat % 2 ^ 16⟩

theorem TcpyArgs.onTile_iff (x : TcpyArgs) : x.onTile = true ↔ x.dir = .memToTile ∨ x.dir = .tileToMem := by
  simp only [TcpyArgs.onTile, Bool.or_eq_true, decide_eq_true_eq]

theorem Kept.tileIssue (rel : List VReg) (s : State) (t : Tid) (x : TcpyArgs) : Kept (Touch.tensorCopy rel) s (s.tileIssue t x) := by
  have hx := (Touch.tensorCopy_commands rel).toFits
  unfold State.tileIssue
  split
  · exact Kept.refl hx s
  · exact Kept.modTile hx (fun _ => rfl) ..

/-- The event of a tile at issue (R217). -/
theorem State.tileIssue_eq (s : State) (t : Tid) (x : TcpyArgs) : s.tileIssue t x =
    match (if x.dir = .memToTile ∨ x.dir = .tileToMem then s.tileAt t x.tile else none) with
    | some y => s.modTile t y fun e => if x.dir = .memToTile then e.fill else e.drain
    | none => s := by
  simp only [State.tileIssue, TcpyArgs.onTile_iff]
  generalize (if x.dir = .memToTile ∨ x.dir = .tileToMem then s.tileAt t x.tile else none) = o
  cases o <;> rfl

theorem completes_tcpy (m : Mods) (dir : TcpyDir) (g : GReg) (a : VReg) (hnd : BitVec 12) (tile : Fin 512) (bg : GReg) (tag : Fin 4)
    (dc tr : Bool) :
    let args (v : State) (t : Tid) : TcpyArgs := v.tcpyArgs m dir g a hnd tile bg tag dc tr t
    let out (v : State) (t : Tid) : Bool := (dir = .tileToMem || dir = .benchToMem) && v.visibleTo t g
    let regs := if dir = .memToTile ∨ dir = .tileToMem then [g] else [g, bg]
    Completes (.tcpy m dir g a hnd tile bg tag dc tr) m (regGroup a 7) (lastReads m (regGroup a 8) [])
      (fun _ v w t => ∃ k, w.tcpyWork v t (args v t) = .ok k ∧ w.countOf t.band t.troop (tagClass tag) < 255 ∧
        (out v t = true → w.twinOf t = none))
      (fun bu v w t => match w.tcpyWork v t (args v t) with
        | .ok k => (((w.commitWhere (out v t) t).started t bu.pc (tagClass tag) regs hnd.toNat k).tileIssue t (args v t), .next)
        | .error _ => (w, .next))
      fun _ => Touch.tensorCopy (lastReads m (regGroup a 8) []) := by
  intro args out regs
  have hregs : ∀ v t, (if (args v t).onTile then [g] else [g, bg]) = regs := fun v t => by
    simp only [TcpyArgs.onTile_iff]
    rfl
  apply completes_command (tagClass tag) out (fun v w t => w.tcpyWork v t (args v t))
    (fun bu v w t k => ((w.commitWhere (out v t) t).started t bu.pc (tagClass tag) regs hnd.toNat k).tileIssue t (args v t))
    (body := fun bu v w t =>
      match w.issueOp t bu.pc (tagClass tag) (if (args v t).onTile then [g] else [g, bg]) hnd.toNat (out v t) false
          (w.tcpyWork v t (args v t)) with
      | (s1, .next) => (s1.tileIssue t (args v t), .next)
      | r => r)
  case hexec =>
    intro s bu hb
    change execTcpy m dir g a hnd tile bg tag dc tr s = _
    simp only [execTcpy, curBundle_of s bu hb]
    rfl
  case hact => exact fun _ _ _ _ hv => if_neg (Bool.eq_false_iff.mp hv)
  case hbody =>
    intro bu v w t k hk hc
    simp only [hk, hregs, State.issueOp_of_counted hc]
  case hx => exact Touch.tensorCopy_commands _
  case hrel => exact fun _ hr => hr
  case hkept =>
    intro _ _ w t k
    exact (Kept.command (Touch.tensorCopy_commands _) w t ..).trans (Touch.tensorCopy_commands _).toFits (Kept.tileIssue ..)

/-! ### NMC (R223, R224) -/

theorem CacheOnly.nmcCaches (s : State) (t : Tid) (g : GReg) (base len : Nat) (drop : Bool) : CacheOnly s (s.nmcCaches t g base len drop) := by
  cases drop with
  | true => exact CacheOnly.invalRange ..
  | false =>
    exact (CacheOnly.writeDownsL1 ..).trans (CacheOnly.foldl _ _ _ fun _ _ => CacheOnly.foldl _ _ _ fun _ _ => CacheOnly.writeDownL2 ..)

theorem CacheOnly.nmcFlush (s : State) (t : Tid) (d sg rg : GReg) (k : OpWork) : CacheOnly s (s.nmcFlush t d sg rg k) := by
  cases k with
  | nmc op f src dst n fill res done =>
    have hsrc : CacheOnly s (if op = .fill then s else s.nmcCaches t sg src n false) := by
      split
      · exact CacheOnly.refl s
      · exact CacheOnly.nmcCaches ..
    have hdst := hsrc.trans (CacheOnly.nmcCaches _ t d dst n true)
    simp only [State.nmcFlush]
    split
    · split
      · exact hdst
      · exact hdst.trans (CacheOnly.nmcCaches ..)
    · exact hdst
  | _ => exact CacheOnly.refl s

/-- What issuing an NMC touches: beside a command's parts the caches. -/
def Touch.nearMemory (rel : List VReg) : Touch :=
  { Touch.command rel with core := CoreSt.cold, die := DieSt.cold, rest := fun s u =>
    { (Touch.command rel).rest s u with
      mem := u.mem, peerMem := u.peerMem, poison := u.poison, unreturned := u.unreturned, cores := u.cores, dies := u.dies } }

theorem Touch.nearMemory_commands (rel : List VReg) : (Touch.nearMemory rel).Commands where
  refl _ := rfl
  trans s u w h k := by
    rw [h] at k
    exact k
  issue s u h := by
    rw [h]
    rfl
  point _ := rfl
  command s u h := by
    rw [h]
    rfl

theorem CacheOnly.nearMemory {s u : State} (h : CacheOnly s u) (rel : List VReg) : Kept (Touch.nearMemory rel) s u := by
  have hrest := h.rest
  refine Kept.of_rest ?_ ?_ ?_ h.cores h.dies ?_ <;> (rw [hrest]; rfl)

/-- The registers that an NMC names, in the order of its operation (R223). -/
def nmcRegs (op : NmcOp) (d sg rg : GReg) : List GReg := match op with | .fill => [d] | .cmp => [d, sg, rg] | _ => [d, sg]

/-- The operation that an NMC's operands ask for (R223). -/
def State.nmcAsked (v : State) (m : Mods) (op : NmcOp) (d sg rg : GReg) (fmt : Fmt) (a : VReg) (t : Tid) : Except Fail OpWork :=
  v.nmcWork t op d sg rg fmt (v.srcA m t (regAt a 0)).toNat (v.srcA m t (regAt a 1)).toNat (v.srcA m t (regAt a 2)).toNat
    (v.srcA m t (regAt a 3))

/-- The issue of an NMC, with the write-backs in the holders' caches (R224). -/
def State.nmcIssue (w : State) (t : Tid) (pc : Pc) (op : NmcOp) (d sg rg : GReg) (skipped : Bool) (k : Except Fail OpWork) : State × Flow :=
  match w.issueOp t pc .nearmem (nmcRegs op d sg rg) 0 true skipped k with
  | (s1, .next) => (match k with | .ok x => if skipped then s1 else s1.nmcFlush t d sg rg x | .error _ => s1, .next)
  | r => r

theorem exec_nmc {s : State} {bu : Bundle} (hb : s.bundle? = some bu) (m : Mods) (op : NmcOp) (d sg rg : GReg) (fmt : Fmt) (a : VReg) :
    exec (.nmc m op d sg rg fmt a) s = .next (s.runThreads m (regGroup a 4) (lastReads m (regGroup a 4) [])
      (fun v w t => some ⟨(regGroup a 4).map (v.srcA m t), (nmcRegs op d sg rg).map fun g => (v.regT t g).base,
        w.actOf t bu.pc .nearmem (v.nmcAsked m op d sg rg fmt a t)⟩)
      (fun w t => (w.nmcIssue t bu.pc op d sg rg true (w.nmcAsked m op d sg rg fmt a t)).1)
      fun v w t => w.nmcIssue t bu.pc op d sg rg false (v.nmcAsked m op d sg rg fmt a t)) := by
  change execNmc m op d sg rg fmt a s = _
  unfold execNmc
  rw [curBundle_of s bu hb]
  rfl

theorem completes_nmc (m : Mods) (op : NmcOp) (d sg rg : GReg) (fmt : Fmt) (a : VReg) :
    Completes (.nmc m op d sg rg fmt a) m (regGroup a 4) (lastReads m (regGroup a 4) [])
      (fun _ v w t => ∃ k, v.nmcAsked m op d sg rg fmt a t = .ok k ∧ w.countOf t.band t.troop .nearmem < 255 ∧
        (true = true → w.twinOf t = none))
      (fun bu v w t => match v.nmcAsked m op d sg rg fmt a t with
        | .ok k => (((w.commitWhere true t).started t bu.pc .nearmem (nmcRegs op d sg rg) 0 k).nmcFlush t d sg rg k, .next)
        | .error _ => (w, .next))
      fun _ => Touch.nearMemory (lastReads m (regGroup a 4) []) := by
  apply completes_command .nearmem (fun _ _ => true) (fun v _ t => v.nmcAsked m op d sg rg fmt a t)
    (fun bu _ w t k => ((w.commitWhere true t).started t bu.pc .nearmem (nmcRegs op d sg rg) 0 k).nmcFlush t d sg rg k)
  case hexec => exact fun s bu hb => exec_nmc hb m op d sg rg fmt a
  case hact => exact fun _ _ _ _ hv => absurd hv Bool.true_eq_false.mp
  case hbody =>
    intro bu v w t k hk hc
    simp only [hk, State.nmcIssue, State.issueOp_of_counted hc, Bool.false_eq_true, if_false]
  case hx => exact Touch.nearMemory_commands _
  case hrel => exact fun _ hr => hr
  case hkept =>
    intro _ _ w t k
    exact (Kept.command (Touch.nearMemory_commands _) w t ..).trans (Touch.nearMemory_commands _).toFits
      ((CacheOnly.nmcFlush ..).nearMemory _)

/-! ### O35 -/

/-- Settles O35: each command is the shared issue with its own checks, a TCPY with its tile's event, an NMC with its write-backs. -/
theorem enginesIssue : Obligations.EnginesIssue := by
  unfold Obligations.EnginesIssue
  refine ⟨completes_cpy, completes_gath, fun m dir g a hnd tile bg tag dc tr => ?tcpy, completes_nmc, completes_coll⟩
  case tcpy =>
    have h := completes_tcpy m dir g a hnd tile bg tag dc tr
    simp only [State.tileIssue_eq] at h
    exact h

end Sys2Proof.Machine

/-! # The ranges that the issue checks give (O36)

Each check of a command passes by its own hypothesis, and a range through a register begins at the register's base plus the offset. -/

namespace Sys2Proof.Machine

theorem Region.side_natCast (r : Region) (off : Nat) : r.side off = ⟨r.space = .bench, r.base + off⟩ := by
  simp only [Region.side, ← Nat.cast_add, Int.toNat_natCast]

section Ranges
variable {s : State} {t : Tid} {d sg rg : GReg} {src dst len : Nat}

theorem State.cpyWork_of_checks {val : Nat} (hs : val ≠ 0 → (s.regT t sg).check src val .load = none)
    (hd : (s.regT t d).check dst 32 .store = none) (ha : ((s.regT t d).base + dst) % 32 = 0) :
    s.cpyWork t d sg src dst val = .ok (.cpy ((s.regT t sg).side src) ((s.regT t d).side dst) val) := by
  have hsrc : (if val = 0 then none else (s.regT t sg).check src val .load) = none := by
    split
    · rfl
    · next h => exact hs h
  simp only [State.cpyWork, hsrc, hd, ha, ne_eq, not_true_eq_false, if_false]

theorem State.gathWork_of_checks {idx : Word} (hs : idx ≠ 0xFFFFFFFF#32 → (s.regT t sg).check (src + idx.toNat * len : Nat) len .load = none)
    (hd : (s.regT t d).check dst len .store = none) (has : ((s.regT t sg).base + src) % 16 = 0) (had : ((s.regT t d).base + dst) % 16 = 0) :
    s.gathWork t d sg src dst idx len = .ok (.gath
      (if idx = 0xFFFFFFFF#32 then none else some ((s.regT t sg).side (src + idx.toNat * len : Nat))) ((s.regT t d).side dst) len) := by
  have hsrc : (if idx = 0xFFFFFFFF#32 then none else (s.regT t sg).check (src + idx.toNat * len : Nat) len .load) = none := by
    split
    · rfl
    · next h => exact hs h
  simp only [State.gathWork, hsrc, hd, has, had, ne_eq, not_true_eq_false, if_false]

theorem State.nmcWork_of_checks {op : NmcOp} {x : Word} (fmt : Fmt) (hd : (s.regT t d).check dst len .store = none)
    (hspace : (s.regT t d).space = .region) (ha : dst % 128 = 0) (hn : len % 128 = 0) (hpos : len ≠ 0)
    (hs : op ≠ .fill → (s.regT t sg).check src len .load = none ∧ (s.regT t sg).space = .region ∧ src % 128 = 0)
    (hr : op = .cmp → (s.regT t rg).check x.toNat 8 .store = none ∧ x.toNat % 8 = 0) :
    s.nmcWork t op d sg rg fmt src dst len x = .ok (.nmc op fmt ((s.regT t sg).base + src) ((s.regT t d).base + dst) len x
      (if op = .cmp then some ((s.regT t rg).side x.toNat) else none) 0) := by
  by_cases hfill : op = .fill
  · simp [State.nmcWork, hd, hspace, ha, hn, hpos, hfill]
  · obtain ⟨hload, hfrom, hat⟩ := hs hfill
    by_cases hcmp : op = .cmp
    · obtain ⟨hres, hword⟩ := hr hcmp
      simp [State.nmcWork, hd, hspace, ha, hn, hpos, hload, hfrom, hat, hcmp, hres, hword]
    · simp [State.nmcWork, hd, hspace, ha, hn, hpos, hfill, hload, hfrom, hat, hcmp]

theorem State.collWork_of_checks (cross : Bool) (opr : CollOp) (fmc : Fin 4) (np : Nat) (r : Nat → Word)
    (hs : (s.regT t sg).check (r 0).toNat len .load = none) (hd : (s.regT t d).check (r 1).toNat len .store = none)
    (hss : (s.regT t sg).space = .region) (hds : (s.regT t d).space = .region) (has : ((s.regT t sg).base + (r 0).toNat) % 128 = 0)
    (had : ((s.regT t d).base + (r 1).toNat) % 128 = 0) :
    s.collWork t sg d cross opr fmc len np r = .ok (.coll ((s.regT t sg).base + (r 0).toNat) ((s.regT t d).base + (r 1).toNat) (r 1).toNat len
      cross opr fmc np ((r 3).toNat % 2 ^ 16) ((r 2).toNat / 2 ^ 24) ((r 2).toNat % 2 ^ 24)) := by
  simp only [State.collWork, hs, hd, hss, hds, has, had, Option.or_none, ne_eq, not_true_eq_false, if_false]

end Ranges

/-- Settles O36: the work of each command where its checks pass, with the ranges written as bases and offsets. -/
theorem engineRanges : Obligations.EngineRanges := by
  unfold Obligations.EngineRanges
  intro s t d sg rg src dst len passes at_ side
  have hside : ∀ g off, (s.regT t g).side ((off : Nat) : Int) = side g off := fun g off => (s.regT t g).side_natCast off
  refine ⟨fun val hs hd ha => ?cpy, fun idx hidx hs hd has had => ?gath, fun hd has had => ?zeros,
    fun op fmt x hd hspace ha hn hpos hs hr => ?nmc, fun cross opr fmc np r hr0 hr1 hsrc hdst hs hd hss hds has had => ?coll⟩
  case cpy => rw [State.cpyWork_of_checks hs hd ha, hside, hside]
  case gath => rw [State.gathWork_of_checks (fun _ => hs) hd has had, if_neg (show idx ≠ 0xFFFFFFFF#32 from hidx), hside, hside]
  case zeros =>
    rw [State.gathWork_of_checks (idx := 0xFFFFFFFF) (fun h => absurd rfl h) hd has had,
      if_pos (show (0xFFFFFFFF : Word) = 0xFFFFFFFF#32 from rfl), hside]
  case nmc => rw [State.nmcWork_of_checks fmt hd hspace ha hn hpos hs hr, hside]
  case coll =>
    have h0 : (r 0).toNat = src := by rw [hr0, BitVec.toNat_ofNat, Nat.mod_eq_of_lt hsrc]
    have h1 : (r 1).toNat = dst := by rw [hr1, BitVec.toNat_ofNat, Nat.mod_eq_of_lt hdst]
    subst h0 h1
    exact State.collWork_of_checks cross opr fmc np r hs hd hss hds has had

end Sys2Proof.Machine

/-! # Tiles are reserved and released (O37)

TRSV and TREL change one entry of the thread's Tile Table. The bytes of a released tile are cleared by `State.zeroTile`, at issue or
by TREL_ZERO: one granule of the core's table of bytes, with its poison and its place among the tiles that wait. -/

namespace Sys2Proof.Machine

/-! ### TRSV (R215) -/

/-- What TRSV touches: the Tile Tables. -/
def Touch.tiles : Touch := { band := fun x => { x with tileEntries := [] } }

theorem completes_trsv (m : Mods) (tile : Fin 512) (af bf : Fmt) (blk : BlkLen) (fills : Fin 4) (sc : Bool) (soff : BitVec 8) :
    Completes (.trsv m tile af bf blk fills sc soff) m [] []
      (fun _ _ w t => ∃ x, w.tileAt t tile.val = some x ∧ x.entry.state = .empty)
      (fun _ _ w t => (match w.tileAt t tile.val with
        | some x => w.modTile t x fun e =>
            { e with rv := true, af := af, bf := bf, blk := blk, sc := sc, soff := 16 * soff.toNat, fills := fills.val + 1 }
        | none => w, .next))
      fun _ => Touch.tiles := by
  have hx : Touch.tiles.Fits := Touch.fits ..
  refine completes_runPlain _ (fun _ => rfl) (fun _ v w t ⟨x, hat, hempty⟩ => ⟨?_, rfl⟩) (fun _ => hx) fun _ v w t ⟨x, hat, _⟩ => ?_
  · simp only [hat, hempty, ne_eq, not_true_eq_false, if_false]
  · simp only [hat]
    exact Kept.modTile hx (fun _ => rfl) ..

/-! ### The bytes of a tile (R214, R216) -/

theorem look_clearGranule {α : Type} (d : α) (m : List (Nat × α)) (g size i : Nat) :
    look d i (clearGranule m g size) = if g * size ≤ i ∧ i < (g + 1) * size then d else look d i m := by
  induction m with
  | nil => simp [clearGranule, look]
  | cons e m ih =>
    obtain ⟨k, v⟩ := e
    simp only [clearGranule] at ih
    by_cases hk : g * size ≤ k ∧ k < (g + 1) * size
    · rw [clearGranule, List.filter_cons_of_neg (by simpa using hk), ih]
      by_cases hi : k = i
      · rw [if_pos (hi ▸ hk), if_pos (hi ▸ hk)]
      · rw [look, if_neg hi]
    · rw [clearGranule, List.filter_cons_of_pos (by simpa [Nat.not_le, imp_iff_not_or] using hk), look, look, ih]
      by_cases hi : k = i
      · rw [if_pos hi, if_pos hi, if_neg (hi ▸ hk)]
      · rw [if_neg hi, if_neg hi]

/-- A core without what its tiles hold and wait for. -/
def CoreSt.untiled (c : CoreSt) : CoreSt := { c with tiles := [], tilePoison := [], tileZero := [] }

theorem State.core?_zeroTile (s : State) (core tile c : Nat) : (s.zeroTile core tile).core? c =
    if c = core then (s.core? c).map fun x => { x with
      tiles := clearGranule x.tiles tile 4096
      tilePoison := x.tilePoison.filter fun y => y / 4096 != tile
      tileZero := x.tileZero.filter fun y => y != tile }
    else s.core? c := State.core?_modCore s core c _ fun _ => rfl

theorem State.zeroDue_zeroTile (s : State) (core tile : Nat) : (s.zeroTile core tile).zeroDue core tile = false := by
  simp only [State.zeroDue, State.core?_zeroTile, if_pos]
  cases s.core? core with
  | none => rfl
  | some x => simp

theorem State.tileBytes_zeroTile (s : State) (core tile c i : Nat) :
    ((s.zeroTile core tile).core? c).map (fun x => look 0 i x.tiles) =
      (s.core? c).map fun x => if c = core ∧ tile * 4096 ≤ i ∧ i < (tile + 1) * 4096 then 0 else look 0 i x.tiles := by
  rw [State.core?_zeroTile]
  by_cases hc : c = core
  · simp only [hc, if_true, true_and, Option.map_map, Function.comp_def, look_clearGranule]
  · simp only [hc, if_false, false_and]

theorem State.cores_zeroTile (s : State) (core tile : Nat) :
    (s.zeroTile core tile).cores.map CoreSt.untiled = s.cores.map CoreSt.untiled := map_modIf _ _ _ _ fun _ => rfl

/-! ### TREL (R216) -/

/-- What TREL touches: the Tile Tables, and on the cores the tiles' bytes and those that wait to be zeroed. -/
def Touch.tileRelease (rel : List VReg) : Touch :=
  { Touch.tiles with
    regs := rel
    core := CoreSt.untiled
    rest := fun s u => { s with bands := u.bands, slots := u.slots, bundles := u.bundles, cores := u.cores } }

theorem Touch.tileRelease_fits (rel : List VReg) : (Touch.tileRelease rel).Fits where
  refl _ := rfl
  trans s u w h k := by
    rw [h] at k
    exact k
  issue s u h := by
    rw [h]
    rfl

/-- A tile with a cleared entry: its bytes are due to be zeroed already, or wait for a reader, or are zeroed now. -/
def State.clearTile (w : State) (x : TileAt) : State × Flow :=
  if w.zeroDue x.core x.phys then (w, .next)
  else if w.tileRead x.core x.phys then (w.modCore x.core fun c => { c with tileZero := c.tileZero ++ [x.phys] }, .wait (.tile x.phys))
  else (w.zeroTile x.core x.phys, .next)

theorem State.clearTile_ends (w : State) (x : TileAt) : (w.clearTile x).2.ends = true := by
  unfold State.clearTile
  split
  · rfl
  · split <;> rfl

theorem Kept.modCore_tileRelease (rel : List VReg) (s : State) (core : Nat) (f : CoreSt → CoreSt) (hf : ∀ x, (f x).untiled = x.untiled) :
    Kept (Touch.tileRelease rel) s (s.modCore core f) := Kept.of_rest rfl rfl rfl (map_modIf _ _ _ _ hf) rfl rfl

theorem Kept.clearTile (rel : List VReg) (w : State) (x : TileAt) : Kept (Touch.tileRelease rel) w (w.clearTile x).1 := by
  unfold State.clearTile
  split
  · exact Kept.refl (Touch.tileRelease_fits rel) w
  · split
    · exact Kept.modCore_tileRelease rel w _ _ fun _ => rfl
    · exact Kept.modCore_tileRelease rel w _ _ fun _ => rfl

theorem completes_trel (m : Mods) (a : VReg) :
    Completes (.trel m a) m [a] (lastReads m [a] [])
      (fun _ v w t => (v.srcA m t a).toNat < 512 ∧ ∃ x, w.tileAt t (v.srcA m t a).toNat = some x ∧
        (x.entry.state = .empty ∨ x.entry.state = .ready))
      (fun _ v w t => match w.tileAt t (v.srcA m t a).toNat with
        | some x => (w.modTile t x fun _ => TileEntry.clear).clearTile x
        | none => (w, .next))
      fun _ => Touch.tileRelease (lastReads m [a] []) := by
  have hx := Touch.tileRelease_fits (lastReads m [a] [])
  apply completes_plain
  case hi => exact fun _ _ _ => rfl
  case hok =>
    intro _ v w t ⟨hlt, x, hat, hstate⟩
    refine ⟨?_, ?_⟩
    · simp only [hlt, if_true, hat]
      rcases hstate with h | h <;> (rw [h]; rfl)
    · simp only [hat]
      exact State.clearTile_ends ..
  case hx => exact fun _ => hx
  case hrel => exact fun _ _ hr => hr
  case heff =>
    intro _ v w t ⟨_, x, hat, _⟩
    simp only [hat]
    exact (Kept.modTile hx (fun _ => rfl) ..).trans hx (Kept.clearTile ..)

/-! ### TREL_ZERO -/

theorem exec_trelZero_of_due {s : State} {core tile : Nat} (hdue : s.zeroDue core tile = true) (hread : s.tileRead core tile = false) :
    exec (.trelZero core tile) s = .next (s.zeroTile core tile) := by
  change execTrelZero core tile s = _
  simp only [execTrelZero, hdue, hread, Bool.not_false, Bool.and_self, if_true]

/-- Settles O37: TRSV and TREL as changes of one entry, and the bytes of a tile as those of a cleared granule. -/
theorem tilesReserve : Obligations.TilesReserve := by
  unfold Obligations.TilesReserve
  refine ⟨completes_trsv, completes_trel, fun s core tile hdue hread => ?_⟩
  exact ⟨_, exec_trelZero_of_due hdue hread, s.zeroDue_zeroTile core tile, s.tileBytes_zeroTile core tile, rfl, s.cores_zeroTile core tile⟩

end Sys2Proof.Machine

/-! # Engine operations end (O39)

An operation that is ready runs (`State.runOp`): to its end, after which the tile's event and the arrive come and it is complete, or to a
fault, which suspends it. `State.completeOp` marks it and lets the complete operations before the first incomplete one of its class
leave the list: what `retireDone` drops is a prefix. -/

namespace Sys2Proof.Machine

/-! ### The events of the engines (R205) -/

section Events
variable {s : State} {o : EngOp}

theorem exec_cpyComplete (ho : s.op? o.id = some o) (hw : o.work.isCpy = true) : exec (.cpyComplete o.id) s = .next (s.finishOp o) := by
  change execCpyComplete o.id s = _
  simp only [execCpyComplete, ho, hw, if_true]

theorem exec_gathComplete (ho : s.op? o.id = some o) (hw : o.work.isGath = true) : exec (.gathComplete o.id) s = .next (s.finishOp o) := by
  change execGathComplete o.id s = _
  simp only [execGathComplete, ho, hw, if_true]

theorem exec_tcpyComplete (ho : s.op? o.id = some o) (hw : o.work.isTcpy = true) : exec (.tcpyComplete o.id) s = .next (s.finishOp o) := by
  change execTcpyComplete o.id s = _
  simp only [execTcpyComplete, ho, hw, if_true]

theorem exec_nmcComplete (ho : s.op? o.id = some o) (hw : o.work.isNmc = true) : exec (.nmcComplete o.id) s = .next (s.finishOp o) := by
  change execNmcComplete o.id s = _
  simp only [execNmcComplete, ho, hw, if_true]

theorem State.opReady_running (hr : s.opReady o = true) : o.state = .running := by
  simp only [State.opReady, Bool.and_eq_true, decide_eq_true_eq] at hr
  exact hr.1.1.1

theorem State.finishOp_of_skipped (h : o.state = .skipped) : s.finishOp o = s.endOp o := if_pos h

theorem State.finishOp_of_moved {w : State} {k : Nat} (hr : s.opReady o = true) (h : s.runOp o = (w, k, none)) :
    s.finishOp o = w.endOp o := by
  have hrun := State.opReady_running hr
  simp only [State.finishOp, hrun, hr, h, reduceCtorEq, if_false, Bool.not_true, Bool.false_eq_true]

/-- Only a TCPY has an event or an arrive to give. -/
theorem State.endOp_of_not_tcpy (h : o.work.isTcpy = false) : s.endOp o = s.completeOp o := by
  unfold State.endOp
  split
  · next hw => rw [hw] at h; exact absurd h Bool.true_eq_false.mp
  · rfl

theorem OpWork.isTcpy_eq_false {k : OpWork} (h : k.isCpy = true ∨ k.isGath = true ∨ k.isNmc = true) : k.isTcpy = false := by
  cases k with
  | tcpy => rcases h with h | h | h <;> exact absurd h Bool.false_ne_true
  | _ => rfl

/-! ### Rows (R210, R211) -/

theorem State.engWrite_of_locs {x : Side} {bs : List Byte} {ls : List (Loc × Nat)}
    (h : s.engLocs o x.bench .write (parts x.va bs.length) = .ok ls) : s.engWrite o x bs = (s.engStore o ls bs, none) := by
  simp only [State.engWrite, h]

/-- What a row's engine reads: n bytes of the source, or n zeros where there is none. -/
def State.rowRead (s : State) (o : EngOp) (src : Option Side) (n : Nat) : State × Except Halt (List Byte) :=
  match src with
  | none => (s, .ok (List.replicate n 0))
  | some x => s.engRead o x n

theorem State.moveRow_of_read {src : Option Side} {n : Nat} {dst : Side} {pad : Nat} {s1 : State} {bs : List Byte}
    {ls : List (Loc × Nat)} (hread : s.rowRead o src n = (s1, .ok bs))
    (hlocs : s1.engLocs o dst.bench .write (parts dst.va (bs.length + pad)) = .ok ls) :
    s.moveRow o src n dst pad = (s1.engStore o ls (bs ++ List.replicate pad 0), none) := by
  have hlocs : s1.engLocs o dst.bench .write (parts dst.va (bs ++ List.replicate pad 0).length) = .ok ls := by
    rwa [List.length_append, List.length_replicate]
  rw [← State.engWrite_of_locs hlocs]
  cases src with
  | none =>
    obtain ⟨rfl, hbs⟩ := Prod.mk.inj hread
    obtain rfl := Except.ok.inj hbs
    simp only [State.moveRow, List.replicate_append_replicate]
  | some x =>
    change s.engRead o x n = _ at hread
    simp only [State.moveRow, hread]

theorem exec_cpyComplete_of_moved {src dst : Side} {val : Nat} {s1 : State} {bs : List Byte} {ls : List (Loc × Nat)}
    (ho : s.op? o.id = some o) (hr : s.opReady o = true) (hw : o.work = .cpy src dst val)
    (hread : s.rowRead o (if val = 0 then none else some src) val = (s1, .ok bs))
    (hlocs : s1.engLocs o dst.bench .write (parts dst.va (bs.length + (32 - val))) = .ok ls) :
    exec (.cpyComplete o.id) s = .next ((s1.engStore o ls (bs ++ List.replicate (32 - val) 0)).completeOp o) := by
  have hrun : s.runOp o = (s1.engStore o ls (bs ++ List.replicate (32 - val) 0), 0, none) := by
    simp only [State.runOp, hw, State.moveRow_of_read hread hlocs]
  rw [exec_cpyComplete ho (by rw [hw]; rfl), State.finishOp_of_moved hr hrun, State.endOp_of_not_tcpy (by rw [hw]; rfl)]

theorem exec_gathComplete_of_moved {src : Option Side} {dst : Side} {len : Nat} {s1 : State} {bs : List Byte} {ls : List (Loc × Nat)}
    (ho : s.op? o.id = some o) (hr : s.opReady o = true) (hw : o.work = .gath src dst len) (hread : s.rowRead o src len = (s1, .ok bs))
    (hlocs : s1.engLocs o dst.bench .write (parts dst.va bs.length) = .ok ls) :
    exec (.gathComplete o.id) s = .next ((s1.engStore o ls bs).completeOp o) := by
  have hrun : s.runOp o = (s1.engStore o ls bs, 0, none) := by
    simp only [State.runOp, hw, State.moveRow_of_read (pad := 0) hread hlocs, List.replicate_zero, List.append_nil]
  rw [exec_gathComplete ho (by rw [hw]; rfl), State.finishOp_of_moved hr hrun, State.endOp_of_not_tcpy (by rw [hw]; rfl)]

end Events

/-! ### The event of a filled tile (R217) -/

theorem State.tileAt_of_band {s : State} {t : Tid} {b : Band} (hb : s.band? t.band = some b) (idx : Nat) : s.tileAt t idx =
    if b.fp.tiles ≤ idx then none
    else some ⟨b.coreOf t.troop, t.troop % max 1 b.ncores, idx, (((b.tileMap[t.troop % max 1 b.ncores]?).getD [])[idx]?).getD 0,
      (((b.tileEntries[t.troop % max 1 b.ncores]?).getD [])[idx]?).getD TileEntry.clear⟩ := by
  simp only [State.tileAt, hb]

/-- A changed entry is found by the thread that names the tile. -/
theorem State.tileAt_modTile {s : State} {t : Tid} {idx : Nat} {x : TileAt} {b : Band} {es : List TileEntry} {e : TileEntry}
    (hx : s.tileAt t idx = some x) (hb : s.band? t.band = some b) (hes : b.tileEntries[x.k]? = some es) (he : es[x.idx]? = some e)
    (f : TileEntry → TileEntry) : (s.modTile t x f).tileAt t idx = some { x with entry := f e } := by
  have hband : (s.modTile t x f).band? t.band =
      some { b with tileEntries := modAt b.tileEntries x.k fun es => modAt es x.idx f } := by
    rw [State.modTile, State.band?_modBand_self _ _ _ (by exact fun _ => rfl), hb]
    rfl
  rw [State.tileAt_of_band hb] at hx
  split at hx
  · exact absurd hx nofun
  · next hlt =>
    obtain rfl := Option.some.inj hx
    rw [State.tileAt_of_band hband, if_neg hlt]
    simp only [getElem?_modAt, if_true, hes, he, Option.map_some, Option.getD_some]
    rfl

/-- The completion of a fill that arrives nowhere. -/
theorem State.endOp_of_fill {s : State} {o : EngOp} {tr : Bool} {r : BitVec 512} {org : List Int} {memBench : Bool} {tile bench done : Nat}
    {x : TileAt} (hw : o.work = .tcpy .memToTile tr r org memBench tile bench none done) (hx : s.tileAt o.tid tile = some x) :
    s.endOp o = (s.modTile o.tid x TileEntry.filled).completeOp o := by
  simp only [State.endOp, hw, hx]

theorem State.tileAt_completeOp (s : State) (o : EngOp) (t : Tid) (idx : Nat) : (s.completeOp o).tileAt t idx = s.tileAt t idx := rfl

/-! ### Complete operations retire in issue order (R206) -/

theorem retireDone_eq_dropWhile (l : List EngOp) : retireDone l = l.dropWhile fun o => o.state = .complete := by
  induction l with
  | nil => rfl
  | cons o l ih =>
    rw [retireDone, List.dropWhile_cons, ih]
    simp only [decide_eq_true_eq]

theorem mem_retireDone_of_incomplete {l : List EngOp} {x : EngOp} (hx : x ∈ l) (h : x.state ≠ .complete) : x ∈ retireDone l := by
  rw [retireDone_eq_dropWhile]
  rw [← List.takeWhile_append_dropWhile (p := fun o : EngOp => o.state = .complete) (l := l), List.mem_append] at hx
  exact hx.resolve_left fun ht => h (by simpa using List.mem_takeWhile_imp ht)

theorem head?_retireDone {l : List EngOp} {x : EngOp} (h : (retireDone l).head? = some x) : x.state ≠ .complete := by
  rw [retireDone_eq_dropWhile, ← List.find?_not_eq_head?_dropWhile] at h
  simpa using List.find?_some h

/-- The operations of a list whose numbers stand in a tail of it are that tail. -/
theorem filter_ids_of_suffix {l r : List EngOp} (h : r <:+ l) (hnd : (l.map (·.id)).Nodup) :
    l.filter (fun o => (r.map (·.id)).contains o.id) = r := by
  obtain ⟨p, rfl⟩ := h
  rw [List.map_append, List.nodup_append] at hnd
  obtain ⟨_, _, hdisj⟩ := hnd
  have hp : p.filter (fun o => (r.map (·.id)).contains o.id) = [] := by
    rw [List.filter_eq_nil_iff]
    intro x hx hc
    exact hdisj x.id (List.mem_map_of_mem hx) x.id (List.contains_iff_mem.mp hc) rfl
  have hr : r.filter (fun o => (r.map (·.id)).contains o.id) = r := by
    rw [List.filter_eq_self]
    exact fun x hx => List.contains_iff_mem.mpr (List.mem_map_of_mem hx)
  rw [List.filter_append, hp, hr, List.nil_append]

section Retire
variable {w : State} {o : EngOp}

/-- The operations after one is marked complete. -/
def State.markedOps (w : State) (o : EngOp) : List EngOp := modIf (·.id == o.id) (fun x => { x with state := .complete }) w.ops

/-- An operation counts with another: the same troop and class. -/
def EngOp.sameClass (o y : EngOp) : Bool := y.tid.band == o.tid.band && y.tid.troop == o.tid.troop && y.cls == o.cls

theorem State.ops_completeOp (w : State) (o : EngOp) : (w.completeOp o).ops = (w.markedOps o).filter fun y =>
    !o.sameClass y || ((retireDone ((w.markedOps o).filter o.sameClass)).map (·.id)).contains y.id := rfl

theorem State.mem_markedOps {x : EngOp} : x ∈ w.markedOps o ↔
    ∃ y ∈ w.ops, x = if y.id = o.id then { y with state := .complete } else y := by
  simp only [State.markedOps, modIf, List.mem_map, beq_iff_eq]
  exact exists_congr fun y => and_congr_right fun _ => eq_comm

theorem State.mem_markedOps_of_ne {x : EngOp} (h : x.id ≠ o.id) : x ∈ w.markedOps o ↔ x ∈ w.ops := by
  rw [State.mem_markedOps]
  constructor
  · rintro ⟨y, hy, rfl⟩
    split at h
    · next he => exact absurd he h
    · next he => rwa [if_neg he]
  · exact fun hx => ⟨x, hx, (if_neg h).symm⟩

theorem State.complete_of_mem_markedOps {x : EngOp} (hx : x ∈ w.markedOps o) (h : x.id = o.id) : x.state = .complete := by
  obtain ⟨y, _, rfl⟩ := State.mem_markedOps.mp hx
  split at h
  · next he => rw [if_pos he]
  · next he => exact absurd h he

theorem State.mem_markedOps_of_mem_completeOp {x : EngOp} (hx : x ∈ (w.completeOp o).ops) : x ∈ w.markedOps o := by
  rw [State.ops_completeOp] at hx
  exact List.mem_of_mem_filter hx

/-- What is not complete does not retire. -/
theorem State.mem_completeOp_of_incomplete {x : EngOp} (hx : x ∈ w.markedOps o) (h : x.state ≠ .complete) : x ∈ (w.completeOp o).ops := by
  rw [State.ops_completeOp, List.mem_filter, Bool.or_eq_true, Bool.not_eq_true']
  refine ⟨hx, ?_⟩
  cases hp : o.sameClass x with
  | false => exact Or.inl rfl
  | true =>
    have hleft := mem_retireDone_of_incomplete (List.mem_filter.mpr ⟨hx, hp⟩) h
    exact Or.inr (List.contains_iff_mem.mpr (List.mem_map_of_mem hleft))

/-- Of an operation's troop and class those are left that retire after the first incomplete one. -/
theorem State.sameClass_completeOp (hnd : (w.ops.map (·.id)).Nodup) :
    (w.completeOp o).ops.filter o.sameClass = retireDone ((w.markedOps o).filter o.sameClass) := by
  have hmarked : ((w.markedOps o).map (·.id)).Nodup := by
    rwa [State.markedOps, map_modIf _ _ _ _ (by exact fun _ => rfl)]
  have hsame : (((w.markedOps o).filter o.sameClass).map (·.id)).Nodup := hmarked.sublist (List.filter_sublist.map _)
  have hsuffix : retireDone ((w.markedOps o).filter o.sameClass) <:+ (w.markedOps o).filter o.sameClass := by
    rw [retireDone_eq_dropWhile]
    exact List.dropWhile_suffix _
  rw [← filter_ids_of_suffix hsuffix hsame, State.ops_completeOp, List.filter_filter, List.filter_filter]
  refine List.filter_congr fun y _ => ?_
  cases o.sameClass y <;> simp

end Retire

/-! ### An operation that cannot go on (R225, R227) -/

/-- CFSTAT of an operation (R227). -/
def EngOp.cfStat (o : EngOp) (kind why : Nat) (wr : Bool) : Word :=
  BitVec.ofNat 32 (kind + 2 ^ 4 * why + 2 ^ 8 * bitN wr + 2 ^ 9 * o.cls.code.val + 2 ^ 12 * bitN o.work.dc)

/-- A suspension marks the operation, counts the fault and raises COPY_FAULT, and changes nothing else. -/
theorem State.suspendOp_eq (w : State) (o : EngOp) (kind why va : Nat) (wr : Bool) (idx : List Word) :
    w.suspendOp o kind why va wr idx = { w with
      ops := modIf (·.id == o.id) (fun x => { x with state := .suspended }) w.ops
      ctxs := modIf (·.asid == o.asid) (fun c => { c with cfcount := satInc c.cfcount }) w.ctxs
      asyncs := w.asyncs ++ [⟨w.fresh, o.tid, 0x0B, o.cfStat kind why wr, BitVec.ofNat 57 va,
        [o.cfStat kind why wr, BitVec.ofNat 32 (o.hnd + 2 ^ 12 * o.work.tileIdx), BitVec.ofNat 32 va, BitVec.ofNat 32 (va / 2 ^ 32 % 2 ^ 25)] ++
          (idx ++ List.replicate 5 0).take 5, [], some o.id⟩]
      fresh := w.fresh + 1 } := rfl

theorem State.opDone_eq (w : State) (o : EngOp) (k : Nat) : w.opDone o k = { w with ops := (w.opDone o k).ops } := rfl

theorem exec_copyFault_of_fault {s w : State} {o : EngOp} {k kind why va : Nat} {wr : Bool} (ho : s.op? o.id = some o)
    (hr : s.opReady o = true) (hrun : s.runOp o = (w, k, some (.fault kind why va wr))) :
    exec (.copyFault o.id) s = .next ((w.opDone o k).suspendOp o kind why va wr (cfIndices o k)) := by
  change execCopyFault o.id s = _
  simp only [execCopyFault, ho, State.faultOp, hr, hrun, Bool.not_true, Bool.false_eq_true, if_false]

theorem suspended_of_mem_modIf {ops : List EngOp} {id : Nat} {x : EngOp}
    (hx : x ∈ modIf (·.id == id) (fun y => { y with state := .suspended }) ops) (h : x.id = id) : x.state = .suspended := by
  obtain ⟨y, _, rfl⟩ := List.mem_map.mp hx
  split at h
  · next he => rw [if_pos he]
  · next he => exact absurd (beq_iff_eq.mpr h) he

/-! ### O39 -/

/-- Settles O39: the events by what their operation moved, retirement by the dropped prefix, COPY_FAULT by the suspension. -/
theorem enginesComplete : Obligations.EnginesComplete := by
  unfold Obligations.EnginesComplete
  refine ⟨fun s o src dst val s1 bs ls ho hr hw hread hlocs => ?cpy, fun s o src dst len s1 bs ls ho hr hw hread hlocs => ?gath,
    fun s o dir tr r org memBench tile bench dep done w k ho hr hw hmove => ?tcpy,
    fun s o op f src dst n fill res done w k ho hr hw hmove => ?nmc, fun s o ho hskip => ?skipped,
    fun s o tr r org memBench tile bench dep done x b es e hw hx hb hes he hdep => ?filled, fun w o hnd _ => ?retire,
    fun s o w k kind why va wr ho hr hrun => ?fault⟩
  case cpy =>
    refine exec_cpyComplete_of_moved ho hr hw ?_ hlocs
    rw [← hread]
    split
    · next hz => rw [hz]; rfl
    · rfl
  case gath =>
    refine exec_gathComplete_of_moved ho hr hw ?_ hlocs
    rw [← hread]
    cases src <;> rfl
  case tcpy =>
    have hrun : s.runOp o = (w, k, none) := by
      simp only [State.runOp, hw]
      exact hmove
    rw [exec_tcpyComplete ho (by rw [hw]; rfl), State.finishOp_of_moved hr hrun]
  case nmc =>
    have hrun : s.runOp o = (w, k, none) := by
      rw [← hmove]
      simp only [State.runOp, hw]
    rw [exec_nmcComplete ho (by rw [hw]; rfl), State.finishOp_of_moved hr hrun, State.endOp_of_not_tcpy (by rw [hw]; rfl)]
  case skipped =>
    refine ⟨fun hw => ?_, fun hw => ?_, fun hw => ?_, fun hw => ?_⟩
    · rw [exec_cpyComplete ho hw, State.finishOp_of_skipped hskip, State.endOp_of_not_tcpy (OpWork.isTcpy_eq_false (Or.inl hw))]
    · rw [exec_gathComplete ho hw, State.finishOp_of_skipped hskip,
        State.endOp_of_not_tcpy (OpWork.isTcpy_eq_false (Or.inr (Or.inl hw)))]
    · rw [exec_tcpyComplete ho hw, State.finishOp_of_skipped hskip]
    · rw [exec_nmcComplete ho hw, State.finishOp_of_skipped hskip,
        State.endOp_of_not_tcpy (OpWork.isTcpy_eq_false (Or.inr (Or.inr hw)))]
  case filled =>
    subst hdep
    rw [State.endOp_of_fill hw hx, State.tileAt_completeOp, State.tileAt_modTile hx hb hes he]
    rfl
  case retire =>
    refine ⟨rfl, fun x hx => State.complete_of_mem_markedOps (State.mem_markedOps_of_mem_completeOp hx),
      fun x hx hne => (State.mem_markedOps_of_ne hne).mp (State.mem_markedOps_of_mem_completeOp hx),
      fun x hx hne h => State.mem_completeOp_of_incomplete ((State.mem_markedOps_of_ne hne).mpr hx) h, fun x hx => ?_⟩
    have hsame : ((w.completeOp o).ops.filter o.sameClass).head? = some x := hx
    rw [State.sameClass_completeOp hnd] at hsame
    exact head?_retireDone hsame
  case fault =>
    have hexec := exec_copyFault_of_fault ho hr hrun
    rw [State.suspendOp_eq, State.opDone_eq] at hexec
    exact ⟨_, hexec, fun x hx => suspended_of_mem_modIf hx, rfl, rfl, rfl⟩

end Sys2Proof.Machine

/-! # Fences, waits and barriers that acquire (O22, O23, O32)

FENCE, WAITW and BARW change registers only by name; beside that they move caches. A release or an acquire of lines moves caches alone
(`CacheOnly`), and so does a read at a home, so that each frame is put together of these and of the instruction's own writes. -/

namespace Sys2Proof.Machine

/-! ### Frames in which caches move and no flag does (R252) -/

theorem CacheOnly.kept {x : Touch} {s u : State} (h : CacheOnly s u) (hc : x.core = CoreSt.cold) (hd : x.die = DieSt.cold)
    (hr : u = s.cached u → u = x.rest s u) : Kept x s u := by
  have hrest := h.rest
  refine Kept.of_rest ?_ ?_ ?_ (hc ▸ h.cores) (hd ▸ h.dies) (hr hrest) <;> (rw [hrest]; rfl)

/-- What an issue touches that releases or acquires and holds no flag. -/
def Touch.orderedOnly (b : Bundle) (rel : List VReg) : Touch := { Touch.ordered b rel with flags := [] }

theorem Touch.orderedOnly_fits (b : Bundle) (rel : List VReg) : (Touch.orderedOnly b rel).Fits :=
  ⟨(Touch.ordered_fits b rel).refl, (Touch.ordered_fits b rel).trans, (Touch.ordered_fits b rel).issue⟩

theorem CacheOnly.orderedOnly {s u : State} (h : CacheOnly s u) (b : Bundle) (rel : List VReg) : Kept (Touch.orderedOnly b rel) s u :=
  h.kept rfl rfl fun hr => by rw [hr]; rfl

theorem CacheOnly.pending_eq {s u : State} (h : CacheOnly s u) : u.pending = s.pending := by rw [h.rest]; rfl

/-! ### FENCE (R254) -/

/-- The two parts of a fence, where it has them. -/
def State.fenced (w : State) (t : Tid) (ord : FenceOrd) (sc : Scope) : State :=
  let w1 := if ord = .acq then w else w.releaseLines t sc
  if ord = .rel then w1 else w1.acquireLines t sc

theorem CacheOnly.fenced (w : State) (t : Tid) (ord : FenceOrd) (sc : Scope) : CacheOnly w (w.fenced t ord sc) := by
  cases ord with
  | acq => exact CacheOnly.acquireLines w t sc
  | rel => exact CacheOnly.releaseLines w t sc
  | acqrel => exact (CacheOnly.releaseLines w t sc).trans (CacheOnly.acquireLines _ t sc)

/-- The body of FENCE: it waits as a release does, then for older loads as an acquire does (R250, log 14). -/
def State.fence (w : State) (t : Tid) (ord : FenceOrd) (sc : Scope) : State × Flow :=
  match w.releaseAt t (ord != .acq) sc with
  | none => (w, .again (.order sc))
  | some w1 =>
    if (ord != .rel) && w1.pending.any (fun p => p.tid == t && p.what.place.isSome) then (w1, .again .loads)
    else (if ord != .rel then w1.acquireLines t sc else w1, .next)

/-- No load of a thread is in progress. -/
def State.NoLoads (w : State) (t : Tid) : Prop := ∀ p ∈ w.pending, p.tid = t → p.what.place = none

theorem State.NoLoads.any_eq_false {w : State} {t : Tid} (h : w.NoLoads t) :
    w.pending.any (fun p => p.tid == t && p.what.place.isSome) = false := by
  rw [List.any_eq_false]
  intro p hp hload
  obtain ⟨ht, hplace⟩ := Bool.and_eq_true_iff.mp hload
  rw [h p hp (beq_iff_eq.mp ht)] at hplace
  exact Bool.false_ne_true hplace

theorem State.fence_of_clear {w : State} {t : Tid} {ord : FenceOrd} {sc : Scope} (hrel : ord ≠ .acq → w.orderClear t sc = true)
    (hacq : ord ≠ .rel → w.NoLoads t) : w.fence t ord sc = (w.fenced t ord sc, .next) := by
  have hloads (hne : ord ≠ .rel) : (w.releaseLines t sc).NoLoads t := by
    unfold State.NoLoads
    rw [(CacheOnly.releaseLines w t sc).pending_eq]
    exact hacq hne
  cases ord with
  | acq =>
    have hat : w.releaseAt t (FenceOrd.acq != .acq) sc = some w := releaseAt_ok w t false sc nofun
    simp only [State.fence, hat, (hacq nofun).any_eq_false]
    rfl
  | rel =>
    have hat : w.releaseAt t (FenceOrd.rel != .acq) sc = some (w.releaseLines t sc) := releaseAt_ok w t true sc fun _ => hrel nofun
    simp only [State.fence, hat]
    rfl
  | acqrel =>
    have hat : w.releaseAt t (FenceOrd.acqrel != .acq) sc = some (w.releaseLines t sc) := releaseAt_ok w t true sc fun _ => hrel nofun
    simp only [State.fence, hat, (hloads nofun).any_eq_false]
    rfl

/-- Settles O22: where nothing is left to wait for a fence is its release and its acquire, which move caches alone. -/
theorem fencesComplete : Obligations.FencesComplete := by
  unfold Obligations.FencesComplete
  intro m ord sc
  apply completes_runPlain fun _ w t => w.fence t ord sc
  case hi => exact fun _ => rfl
  case hok => exact fun _ _ w t ⟨hrel, hacq⟩ => ⟨State.fence_of_clear hrel hacq, rfl⟩
  case hx => exact fun b => Touch.orderedOnly_fits b []
  case heff => exact fun b _ w t _ => (CacheOnly.fenced w t ord sc).orderedOnly b []

/-! ### BARW (R266) -/

/-- The body of BARW once its object is found: it waits for older accesses, answers what the bank does, or compares the generation. -/
def State.awaitPhase (w : State) (t : Tid) (x q : Nat) : State × Flow :=
  if w.blocked w.fresh t w.fresh (.bench (w.benchPlace t x).1 (w.benchPlace t x).2) 16 then (w, .again (.order .core))
  else match w.phaseBank (w.benchPlace t x).1 (w.benchPlace t x).2 with
    | some f => (w, f)
    | none =>
      if (w.phaseAt (w.benchPlace t x).1 (w.benchPlace t x).2).gen = q then (w, .wait (.barw x q)) else (w.acquireLines t .band, .next)

theorem State.phaseBank_of_sound {w : State} {core o : Nat} (hp : w.benchPoisoned core o 16 = false)
    (hm : (w.phaseAt core o).malformed = false) : w.phaseBank core o = none := by
  simp only [State.phaseBank, hp, hm, Bool.false_eq_true, if_false]

/-- Settles O32: at a sound object that nothing older is in the way of BARW compares the generation, then waits or acquires. -/
theorem barrierWaits : Obligations.BarrierWaits := by
  unfold Obligations.BarrierWaits
  intro m k a b off
  apply completes_plain fun _ v w t => match w.phasePlace t k (v.offsetOf m t a off.toInt) with
    | .error f => (w, .trap f)
    | .ok x => w.awaitPhase t x ((v.srcB m t b).toNat % 128)
  case hi => exact fun _ _ _ => rfl
  case hok =>
    intro bu v w t ⟨x, core, o, hplace, hat, hclear, hpoison, hform⟩
    have hbank := State.phaseBank_of_sound hpoison hform
    simp only [hplace, State.awaitPhase, hat, hclear, hbank, Bool.false_eq_true, if_false, true_and]
    split <;> rfl
  case hx => exact fun bu => Touch.orderedOnly_fits bu _
  case hrel => exact fun _ _ hr => hr
  case heff =>
    intro bu v w t ⟨x, core, o, hplace, _⟩
    simp only [hplace]
    split
    · exact Kept.refl (Touch.orderedOnly_fits bu _) w
    · exact (CacheOnly.acquireLines w t .band).orderedOnly bu _

/-! ### WAITW (R270) -/

/-- The pair that WAITW returns: its reason and the word. -/
def State.returnWord (w : State) (t : Tid) (d : VReg) (reason o : Nat) : State :=
  w.writeRegs t [.v d (BitVec.ofNat 32 reason), .v (regAt d 1) (BitVec.ofNat 32 o)]

/-- What WAITW does once it has read its word `o`: it returns at once, or the thread sleeps on the word. -/
def State.waitOnWord (w : State) (t : Tid) (tmo : BitVec 4) (d : VReg) (b : Word) (pa : Nat) (h : HomeId) (o : Nat) : State × Flow :=
  let slice := sliceOfLine h (lineKey h pa)
  let words := w.waitedWords (homeNum h) slice
  if BitVec.ofNat 32 o ≠ b then ((w.returnWord t d 0 o).acquireLines t .device, .next)
  else if pa ∉ words ∧ 256 ≤ words.length then (w.returnWord t d 3 o, .next)
  else
    let z : Sleeper := ⟨w.fresh, t, homeNum h, slice, pa, d, if tmo = 15 then none else some (w.clock + 2 ^ (10 + tmo.toNat))⟩
    ({ w with sleepers := w.sleepers ++ [z], fresh := w.fresh + 1 }, .wait (.waitw z.id))

/-- The word of an address, read at its home. -/
def State.homeWord (w : State) (t : Tid) (l : Loc) : State × Nat × Bool := w.readSite (w.coreOf t) (w.asidOf t) .home l 4 .norm

/-- What WAITW touches: beside an ordered access's parts its result pair and the sleepers. -/
def Touch.wordWait (b : Bundle) (rel : List VReg) (d : VReg) : Touch :=
  { Touch.ordered b (rel ++ [d, regAt d 1]) with flags := [], rest := fun s u =>
    { (Touch.ordered b []).rest s u with sleepers := u.sleepers } }

theorem Touch.wordWait_fits (b : Bundle) (rel : List VReg) (d : VReg) : (Touch.wordWait b rel d).Fits where
  refl _ := rfl
  trans s u w h k := by
    rw [h] at k
    exact k
  issue s u h := by
    rw [h]
    rfl

theorem CacheOnly.wordWait {s u : State} (h : CacheOnly s u) (b : Bundle) (rel : List VReg) (d : VReg) :
    Kept (Touch.wordWait b rel d) s u := h.kept rfl rfl fun hr => by rw [hr]; rfl

theorem Kept.returnWord (b : Bundle) (rel : List VReg) (w : State) (t : Tid) (d : VReg) (reason o : Nat) :
    Kept (Touch.wordWait b rel d) w (w.returnWord t d reason o) := by
  apply Kept.writeRegs (Touch.wordWait_fits b rel d)
  · intro r x hr
    have hmem : r ∈ [d, regAt d 1] := by simpa using Or.imp And.left And.left (by simpa using hr)
    exact List.mem_append_right _ hmem
  · intro r x hr
    simp at hr

theorem Kept.waitOnWord (bu : Bundle) (rel : List VReg) (w : State) (t : Tid) (tmo : BitVec 4) (d : VReg) (b : Word) (pa : Nat) (h : HomeId)
    (o : Nat) : Kept (Touch.wordWait bu rel d) w (w.waitOnWord t tmo d b pa h o).1 := by
  unfold State.waitOnWord
  extract_lets slice words z
  split
  · exact (Kept.returnWord ..).trans (Touch.wordWait_fits bu rel d) ((CacheOnly.acquireLines _ t .device).wordWait bu rel d)
  · split
    · exact Kept.returnWord ..
    · exact Kept.of_rest rfl rfl rfl rfl rfl rfl

theorem State.waitOnWord_ends (w : State) (t : Tid) (tmo : BitVec 4) (d : VReg) (b : Word) (pa : Nat) (h : HomeId) (o : Nat) :
    (w.waitOnWord t tmo d b pa h o).2.ends = true := by
  unfold State.waitOnWord
  extract_lets slice words z
  split
  · rfl
  · split <;> rfl

/-- The room of a slice as WAITW tests it. -/
theorem State.waitOnWord_eq (w : State) (t : Tid) (tmo : BitVec 4) (d : VReg) (b : Word) (pa : Nat) (h : HomeId) (o : Nat) :
    w.waitOnWord t tmo d b pa h o =
      if BitVec.ofNat 32 o ≠ b then ((w.returnWord t d 0 o).acquireLines t .device, .next)
      else if !(w.waitedWords (homeNum h) (sliceOfLine h (lineKey h pa))).contains pa &&
        256 ≤ (w.waitedWords (homeNum h) (sliceOfLine h (lineKey h pa))).length then (w.returnWord t d 3 o, .next)
      else
        ({ w with
          sleepers := w.sleepers ++ [⟨w.fresh, t, homeNum h, sliceOfLine h (lineKey h pa), pa, d,
            if tmo = 15 then none else some (w.clock + 2 ^ (10 + tmo.toNat))⟩]
          fresh := w.fresh + 1 }, .wait (.waitw w.fresh)) := by
  simp only [State.waitOnWord, Bool.and_eq_true, Bool.not_eq_true', List.contains_eq_mem, decide_eq_false_iff_not, decide_eq_true_eq]

theorem completes_waitw (m : Mods) (k : GReg) (tmo : BitVec 4) (d a b : VReg) (off : BitVec 24) :
    Completes (.waitw m k tmo d a b off) m [a, b] (lastReads m [a] [b])
      (fun _ v w t => ∃ w1 x pa h,
        w.accessAddress t (v.regT t k) (v.offsetOf m t a off.toInt) 4 4 .homeOnly .write = (w1, .ok x) ∧ x.loc = .mem pa h ∧
        w1.blocked w1.fresh t w1.fresh x.loc 4 = false ∧
        w1.alloc t.band t.troop (w1.needs t (regGroup d 2)).eraseDups.length = .ok ∧
        ((w1.reserve t (regGroup d 2)).homeWord t x.loc).2.2 = false)
      (fun _ v w t => match w.accessAddress t (v.regT t k) (v.offsetOf m t a off.toInt) 4 4 .homeOnly .write with
        | (w1, .ok ⟨_, .mem pa h, _⟩) =>
          ((w1.reserve t (regGroup d 2)).homeWord t (.mem pa h)).1.waitOnWord t tmo d (v.srcB m t b) pa h
            ((w1.reserve t (regGroup d 2)).homeWord t (.mem pa h)).2.1
        | (w1, _) => (w1, .next))
      fun bu => Touch.wordWait bu (lastReads m [a] [b]) d := by
  refine completes_plain _ (fun _ _ _ => rfl) ?hok (fun bu => Touch.wordWait_fits bu _ d) (fun _ _ hr => List.mem_append_left _ hr) ?heff
  case hok =>
    rintro bu v w t ⟨w1, ⟨va, loc, reg⟩, pa, h, hat, rfl, hclear, hroom, hsound⟩
    refine ⟨?_, ?_⟩
    · simp only at hclear hsound
      simp only [hat, hclear, State.take_ok w1 t _ hroom, Bool.false_eq_true, if_false]
      simp only [State.homeWord] at hsound ⊢
      simp only [hsound, Bool.false_eq_true, if_false, State.waitOnWord_eq]
      rfl
    · simp only [hat]
      exact State.waitOnWord_ends ..
  case heff =>
    rintro bu v w t ⟨w1, ⟨va, loc, reg⟩, pa, h, hat, rfl, _⟩
    have hx := Touch.wordWait_fits bu (lastReads m [a] [b]) d
    simp only [hat]
    exact ((((TlbOnly.of_accessAddress hat).cacheOnly.wordWait bu _ d).trans hx (Kept.reserve hx w1 t _)).trans hx
      ((CacheOnly.readSite ..).wordWait bu _ d)).trans hx (Kept.waitOnWord ..)

/-- A sleeper whose limit has come returns 2 and acquires nothing. -/
theorem State.returnSleeper_late {s : State} {x : Sleeper} {th : Thread} (hth : s.thread? x.tid = some th) (w : Word) :
    s.returnSleeper x 2 w = (({ s with sleepers := s.sleepers.filter fun y => y.id != x.id } : State).writeRegs x.tid
      [.v x.d 2, .v (regAt x.d 1) w]).makeReady x.tid th.npc := by
  have hthread : (({ s with sleepers := s.sleepers.filter fun y => y.id != x.id } : State).writeRegs x.tid
      [.v x.d (BitVec.ofNat 32 2), .v (regAt x.d 1) w]).thread? x.tid = some th := by
    simp only [State.writeRegs, List.foldl_cons, List.foldl_nil, State.thread?_writeV]
    exact hth
  have hlate : ¬ 2 ≤ 1 := by decide
  simp only [State.returnSleeper, hlate, if_false, hthread]
  rfl

theorem exec_waitwTimeout {s : State} {x : Sleeper} {u : Nat} (hx : s.sleepers.find? (·.tid == x.tid) = some x)
    (hu : x.deadline = some u) : exec (.waitwTimeout x.tid) s =
      .next (if u ≤ s.clock then s.returnSleeper x 2 (BitVec.ofNat 32 (leNat (readBytes s.mem x.pa 4))) else s) := by
  change execWaitwTimeout x.tid s = _
  simp only [execWaitwTimeout, hx, hu]
  split <;> rfl

/-- Settles O23: WAITW by its read at the home and what it then does; a limit by whether it has come. -/
theorem wordWaits : Obligations.WordWaits := by
  unfold Obligations.WordWaits
  refine ⟨completes_waitw, fun s x u hx hu hdue th hth => ?_, fun s x u hx hu hearly => ?_⟩
  · rw [exec_waitwTimeout hx hu, if_pos hdue, State.returnSleeper_late hth]
  · rw [exec_waitwTimeout hx hu, if_neg (Nat.not_le.mpr hearly)]

end Sys2Proof.Machine

/-! # PhaseClock (O33)

Arrivals only raise ARRIVED and BGOT, and posted bytes only BEXP, each by a saturating sum; so the BARAs of a clock are two sums before the
completion test and one after it. -/

namespace Sys2Proof.Machine

/-- The BARAs that arrive, those that deliver, and the bytes that they deliver and post (R265). -/
def arrivalsOf (ops : List Arrival) : Nat := (ops.filter fun o => o.kind ≠ .expect).length

def deliveredBy (ops : List Arrival) : Nat := ((ops.filter fun o => o.kind = .arrive).map (·.bytes)).sum

def postedBy (ops : List Arrival) : Nat := ((ops.filter fun o => o.kind ≠ .arrive).map (·.bytes)).sum

theorem arrivalsOf_cons (o : Arrival) (ops : List Arrival) :
    arrivalsOf (o :: ops) = (if o.kind = .expect then 0 else 1) + arrivalsOf ops := by
  by_cases h : o.kind = .expect <;> simp [arrivalsOf, h, Nat.add_comm]

theorem deliveredBy_cons (o : Arrival) (ops : List Arrival) :
    deliveredBy (o :: ops) = (if o.kind = .arrive then o.bytes else 0) + deliveredBy ops := by
  by_cases h : o.kind = .arrive <;> simp [deliveredBy, h]

theorem postedBy_cons (o : Arrival) (ops : List Arrival) :
    postedBy (o :: ops) = (if o.kind = .arrive then 0 else o.bytes) + postedBy ops := by
  by_cases h : o.kind = .arrive <;> simp [postedBy, h]

theorem Phase.arrive_eq {p : Phase} (o : Arrival) (ha : p.arrived < 2 ^ 24) (hg : p.bgot < 2 ^ 32) :
    p.arrive o = { p with
      arrived := min (p.arrived + if o.kind = .expect then 0 else 1) (2 ^ 24 - 1)
      bgot := min (p.bgot + if o.kind = .arrive then o.bytes else 0) (2 ^ 32 - 1) } := by
  have harrived : min p.arrived 16777215 = p.arrived := by omega
  have hgot : min p.bgot 4294967295 = p.bgot := by omega
  obtain ⟨kind, bytes⟩ := o
  cases kind <;> simp [Phase.arrive, harrived, hgot]

theorem Phase.post_eq {p : Phase} (o : Arrival) (hb : p.bexp < 2 ^ 32) :
    p.post o = { p with bexp := min (p.bexp + if o.kind = .arrive then 0 else o.bytes) (2 ^ 32 - 1) } := by
  have hexp : min p.bexp 4294967295 = p.bexp := by omega
  by_cases h : o.kind = .arrive <;> simp [Phase.post, h, hexp]

theorem Phase.foldl_arrive (ops : List Arrival) (p : Phase) (ha : p.arrived < 2 ^ 24) (hg : p.bgot < 2 ^ 32) :
    ops.foldl Phase.arrive p = { p with
      arrived := min (p.arrived + arrivalsOf ops) (2 ^ 24 - 1), bgot := min (p.bgot + deliveredBy ops) (2 ^ 32 - 1) } := by
  induction ops generalizing p with
  | nil =>
    have harrived : p.arrived = min (p.arrived + arrivalsOf []) (2 ^ 24 - 1) := by simp only [arrivalsOf, List.filter_nil, List.length_nil]; omega
    have hgot : p.bgot = min (p.bgot + deliveredBy []) (2 ^ 32 - 1) := by
      simp only [deliveredBy, List.filter_nil, List.map_nil, List.sum_nil]
      omega
    rw [← harrived, ← hgot]
    rfl
  | cons o ops ih =>
    rw [List.foldl_cons, Phase.arrive_eq o ha hg, ih _ (by simp only; omega) (by simp only; omega), arrivalsOf_cons, deliveredBy_cons]
    simp only [Phase.mk.injEq, true_and, and_true]
    constructor <;> omega

theorem Phase.foldl_post (ops : List Arrival) (p : Phase) (hb : p.bexp < 2 ^ 32) :
    ops.foldl Phase.post p = { p with bexp := min (p.bexp + postedBy ops) (2 ^ 32 - 1) } := by
  induction ops generalizing p with
  | nil =>
    have hexp : p.bexp = min (p.bexp + postedBy []) (2 ^ 32 - 1) := by
      simp only [postedBy, List.filter_nil, List.map_nil, List.sum_nil]
      omega
    rw [← hexp]
    rfl
  | cons o ops ih =>
    rw [List.foldl_cons, Phase.post_eq o hb, ih _ (by simp only; omega), postedBy_cons]
    simp only [Phase.mk.injEq, true_and, and_true]
    omega

theorem Phase.done_iff (p : Phase) : p.done = true ↔ p.expect ≤ p.arrived ∧ p.bexp ≤ p.bgot := by
  simp only [Phase.done, Bool.and_eq_true, decide_eq_true_eq]

theorem Phase.clock_eq (p : Phase) (ops : List Arrival) (ha : p.arrived < 2 ^ 24) (hg : p.bgot < 2 ^ 32) (hb : p.bexp < 2 ^ 32) :
    let arrived := min (p.arrived + arrivalsOf ops) (2 ^ 24 - 1)
    let got := min (p.bgot + deliveredBy ops) (2 ^ 32 - 1)
    p.clock ops = if p.expect ≤ arrived ∧ p.bexp ≤ got then
        { p with gen := (p.gen + 1) % 128, arrived := arrived - p.expect, bgot := got - p.bexp, bexp := min (postedBy ops) (2 ^ 32 - 1) }
      else { p with arrived := arrived, bgot := got, bexp := min (p.bexp + postedBy ops) (2 ^ 32 - 1) } := by
  intro arrived got
  rw [Phase.clock, Phase.foldl_arrive ops p ha hg]
  simp only [Phase.complete, Phase.done_iff]
  split
  · rw [Phase.foldl_post _ _ (by simp only; decide)]
    simp only [Nat.zero_add, arrived, got]
  · rw [Phase.foldl_post _ _ (by exact hb)]

/-- Settles O33: the clock of an object by its sums of arrivals, deliveries and posted bytes. -/
theorem phaseClocks : Obligations.PhaseClocks := by
  unfold Obligations.PhaseClocks
  exact fun p ops ha hg hb => p.clock_eq ops ha hg hb

end Sys2Proof.Machine

/-! # Barriers arrive (O34)

The BARAs of a clock come to each object together. An object within its fields is what its 16 bytes read back as, and PhaseClock keeps it
within them; the bytes of different objects are apart. So, where no band barrier completes, the clock's end is one write of each object,
whatever their order: what a write leaves is said for one object, and the objects of the clock are taken one by one. -/

namespace Sys2Proof.Machine

/-! ### BARA (R264, R267) -/

/-- What BARA touches: beside a release's parts the arrivals of the clock. -/
def Touch.arrival (b : Bundle) (rel : List VReg) : Touch :=
  { Touch.ordered b rel with flags := [], rest := fun s u =>
    { (Touch.ordered b rel).rest s u with now := { s.now with arrivals := u.now.arrivals } } }

theorem Touch.arrival_fits (b : Bundle) (rel : List VReg) : (Touch.arrival b rel).Fits where
  refl _ := rfl
  trans s u w h k := by
    rw [h] at k
    exact k
  issue s u h := by
    rw [h]
    rfl

theorem State.baraPlace_of_sound {v w : State} {m : Mods} {t : Tid} {k : GReg} {a : VReg} {off : Int} {x : Nat}
    (hplace : w.phasePlace t k (v.offsetOf m t a off) = .ok x) (hclear : w.orderClear t .band = true)
    (hp : w.benchPoisoned (w.benchPlace t x).1 (w.benchPlace t x).2 16 = false)
    (hm : (w.phaseAt (w.benchPlace t x).1 (w.benchPlace t x).2).malformed = false) :
    State.baraPlace v w m t k a off = .ok (w.benchPlace t x) := by
  have hbank := State.phaseBank_of_sound hp hm
  simp only [State.baraPlace, hplace, hclear, hbank, Bool.not_true, Bool.false_eq_true, if_false]

/-- An arrival is counted in the clock. -/
def State.noteArrival (w : State) (n : ArriveNote) : State := { w with now := { w.now with arrivals := w.now.arrivals ++ [n] } }

theorem completes_bara (m : Mods) (kind : BaraKind) (k : GReg) (a b : VReg) (off : BitVec 24) :
    Completes (.bara m kind k a b off) m [a, b] (lastReads m [a] [b])
      (fun _ v w t => ∃ x core o, w.phasePlace t k (v.offsetOf m t a off.toInt) = .ok x ∧ w.benchPlace t x = (core, o) ∧
        w.orderClear t .band = true ∧ w.benchPoisoned core o 16 = false ∧ (w.phaseAt core o).malformed = false)
      (fun _ v w t => match w.phasePlace t k (v.offsetOf m t a off.toInt) with
        | .ok x => ((w.releaseLines t .band).noteArrival
            ⟨t, (w.benchPlace t x).1, (w.benchPlace t x).2, ⟨kind, (v.srcB m t b).toNat⟩⟩, .next)
        | .error _ => (w, .next))
      fun bu => Touch.arrival bu (lastReads m [a] [b]) := by
  apply completes_plain fun _ v w t => match State.baraPlace v w m t k a off.toInt with
    | .ok p => ((w.releaseLines t .band).noteArrival ⟨t, p.1, p.2, ⟨kind, (v.srcB m t b).toNat⟩⟩, .next)
    | .error f => (w, f)
  case hi => exact fun _ _ _ => rfl
  case hok =>
    intro bu v w t ⟨x, core, o, hplace, hat, hclear, hpoison, hform⟩
    obtain ⟨rfl, rfl⟩ := Prod.mk.injEq .. ▸ hat
    simp only [State.baraPlace_of_sound hplace hclear hpoison hform, hplace, Flow.ends, and_self]
  case hx => exact fun bu => Touch.arrival_fits bu _
  case hrel => exact fun _ _ hr => hr
  case heff =>
    intro bu v w t ⟨x, core, o, hplace, _⟩
    have hrelease : Kept (Touch.arrival bu (lastReads m [a] [b])) w (w.releaseLines t .band) :=
      (CacheOnly.releaseLines w t .band).kept rfl rfl fun hr => by rw [hr]; rfl
    simp only [hplace]
    exact hrelease.trans (Touch.arrival_fits bu _) (Kept.of_rest rfl rfl rfl rfl rfl rfl)

/-! ### An object within its fields (R263) -/

/-- A well-formed object whose fields lie within their widths. -/
structure Phase.Sound (p : Phase) : Prop where
  arrived : p.arrived < 2 ^ 24
  expect : p.expect < 2 ^ 24
  expects : 0 < p.expect
  gen : p.gen < 2 ^ 7
  bexp : p.bexp < 2 ^ 32
  bgot : p.bgot < 2 ^ 32
  formed : p.malformed = false

theorem fieldOf_lt (x lo w : Nat) : fieldOf x lo w < 2 ^ w := Nat.mod_lt _ (Nat.two_pow_pos w)

theorem Phase.sound_ofNat {x : Nat} (h : (Phase.ofNat x).malformed = false) : (Phase.ofNat x).Sound where
  arrived := fieldOf_lt ..
  expect := fieldOf_lt ..
  expects := by
    simp only [Phase.ofNat, Bool.or_eq_false_iff, beq_eq_false_iff_ne] at h
    exact Nat.pos_of_ne_zero h.1.1
  gen := fieldOf_lt ..
  bexp := fieldOf_lt ..
  bgot := fieldOf_lt ..
  formed := h

theorem Phase.Sound.ofNat_toNat {p : Phase} (h : p.Sound) : Phase.ofNat p.toNat = p := by
  obtain ⟨bgot, bexp, gen, expect, arrived, malformed⟩ := p
  obtain ⟨harr, hexp, hpos, hgen, hbexp, hbgot, hform⟩ := h
  simp only at harr hexp hpos hgen hbexp hbgot hform
  simp only [Phase.ofNat, Phase.toNat, fieldOf, Phase.mk.injEq]
  refine ⟨by omega, by omega, by omega, by omega, by omega, ?_⟩
  rw [hform]
  simp only [Bool.or_eq_false_iff, beq_eq_false_iff_ne, bne_eq_false_iff_eq]
  exact ⟨⟨by omega, by omega⟩, by omega⟩

theorem Phase.Sound.toNat_lt {p : Phase} (h : p.Sound) : p.toNat < 256 ^ 16 := by
  obtain ⟨harr, hexp, hpos, hgen, hbexp, hbgot, hform⟩ := h
  simp only [Phase.toNat]
  omega

theorem Phase.Sound.clock {p : Phase} (h : p.Sound) (ops : List Arrival) : (p.clock ops).Sound := by
  have hpos := h.expects
  rw [p.clock_eq ops h.arrived h.bgot h.bexp]
  split
  · exact ⟨by simp only; omega, h.expect, h.expects, Nat.mod_lt _ (by decide), by simp only; omega, by simp only; omega, h.formed⟩
  · exact ⟨by simp only; omega, h.expect, h.expects, h.gen, by simp only; omega, by simp only; omega, h.formed⟩

/-! ### The bytes of an object -/

/-- The object at a bench place is written. -/
def State.writePhase (s : State) (core off : Nat) (p : Phase) : State :=
  s.modCore core fun c => { c with bench := writeBytes c.bench off (leBytes 16 p.toNat) }

theorem State.core?_writePhase (s : State) (core off : Nat) (p : Phase) (c : Nat) : (s.writePhase core off p).core? c =
    if c = core then (s.core? c).map fun x => { x with bench := writeBytes x.bench off (leBytes 16 p.toNat) } else s.core? c :=
  State.core?_modCore s core c _ fun _ => rfl

theorem State.phaseAt_sound {s : State} {core off : Nat} (h : (s.phaseAt core off).malformed = false) : (s.phaseAt core off).Sound := by
  obtain ⟨x, hx⟩ : ∃ x, s.phaseAt core off = Phase.ofNat x := by
    unfold State.phaseAt
    split
    · exact ⟨_, rfl⟩
    · exact ⟨_, rfl⟩
  rw [hx] at h ⊢
  exact Phase.sound_ofNat h

theorem State.phaseAt_writePhase_self {s : State} {core : Nat} (hc : (s.core? core).isSome = true) (off : Nat) {p : Phase} (hp : p.Sound) :
    (s.writePhase core off p).phaseAt core off = p := by
  obtain ⟨c, hc⟩ := Option.isSome_iff_exists.mp hc
  have hread := readBytes_writeBytes c.bench off (leBytes 16 p.toNat)
  rw [length_leBytes] at hread
  simp only [State.phaseAt, State.core?_writePhase, if_true, hc, Option.map_some, hread, leNat_leBytes, Nat.mod_eq_of_lt hp.toNat_lt,
    hp.ofNat_toNat]

theorem State.phaseAt_writePhase_ne (s : State) {core off c o : Nat} (p : Phase) (hoff : off % 16 = 0) (ho : o % 16 = 0)
    (hne : (c, o) ≠ (core, off)) : (s.writePhase core off p).phaseAt c o = s.phaseAt c o := by
  simp only [State.phaseAt, State.core?_writePhase]
  by_cases hcore : c = core
  · have hapart : o ≠ off := fun h => hne (by rw [hcore, h])
    rw [if_pos hcore]
    cases s.core? c with
    | none => rfl
    | some x =>
      simp only [Option.map_some]
      rw [readBytes_writeBytes_out _ _ _ _ _ (by rw [length_leBytes]; omega)]
  · rw [if_neg hcore]

theorem State.benchByteAt_writePhase_ne (s : State) {core off c i : Nat} (p : Phase) (hoff : off % 16 = 0)
    (hne : (c, i / 16 * 16) ≠ (core, off)) : (s.writePhase core off p).benchByteAt c i = s.benchByteAt c i := by
  simp only [State.benchByteAt, State.core?_writePhase]
  by_cases hcore : c = core
  · have hapart : i / 16 * 16 ≠ off := fun h => hne (by rw [hcore, h])
    rw [if_pos hcore]
    cases s.core? c with
    | none => rfl
    | some x =>
      simp only [Option.map_some, Option.getD_some]
      exact look_writeBytes_out _ _ _ _ (by rw [length_leBytes]; omega)
  · rw [if_neg hcore]

/-- Two states differ in benches alone. -/
structure BenchOnly (s u : State) : Prop where
  rest : u = { s with cores := u.cores }
  cores : u.cores.map (fun c => { c with bench := [] }) = s.cores.map fun c => { c with bench := [] }

theorem BenchOnly.refl (s : State) : BenchOnly s s := ⟨rfl, rfl⟩

theorem BenchOnly.trans {s u w : State} (h : BenchOnly s u) (k : BenchOnly u w) : BenchOnly s w := by
  refine ⟨?_, k.cores.trans h.cores⟩
  have hu := h.rest
  have hw := k.rest
  rw [hu] at hw
  exact hw

theorem BenchOnly.writePhase (s : State) (core off : Nat) (p : Phase) : BenchOnly s (s.writePhase core off p) :=
  ⟨rfl, map_modIf _ _ _ _ fun _ => rfl⟩

theorem State.core?_writePhase_isSome (s : State) (core off : Nat) (p : Phase) (c : Nat) :
    ((s.writePhase core off p).core? c).isSome = (s.core? c).isSome := by
  rw [State.core?_writePhase]
  split
  · rw [Option.isSome_map]
  · rfl

/-! ### The BARAs of one object (R265, R314) -/

/-- A thread has not come to an object: it lives, it does not wait there, and it does not arrive in this clock. -/
def State.Away (s : State) (place : Nat × Nat) (arriving : List Tid) (t : Tid) : Prop :=
  match s.statusOf t with
  | .exited => False
  | .waiting (.barw x _) => s.benchPlace t x ≠ place
  | _ => t ∉ arriving

/-- No band of the threads that arrive has all its threads at the object. -/
def State.NoBarrier (s : State) (place : Nat × Nat) (mine : List ArriveNote) : Prop :=
  ∀ e ∈ mine, ∃ t ∈ s.bandTids e.tid.band, s.Away place (mine.map (·.tid)) t

theorem BenchOnly.noBarrier {s u : State} (h : BenchOnly s u) {place : Nat × Nat} {mine : List ArriveNote} (hs : s.NoBarrier place mine) :
    u.NoBarrier place mine := by
  rw [h.rest]
  exact hs

theorem State.Away.cases {s : State} {place : Nat × Nat} {arriving : List Tid} {t : Tid} (h : s.Away place arriving t) :
    (∃ x q, s.statusOf t = .waiting (.barw x q) ∧ s.benchPlace t x ≠ place) ∨
      s.statusOf t ≠ .exited ∧ (∀ x q, s.statusOf t ≠ .waiting (.barw x q)) ∧ t ∉ arriving := by
  unfold State.Away at h
  split at h
  · exact absurd h id
  · next x q hst => exact Or.inl ⟨x, q, hst, h⟩
  · next hno hnb => exact Or.inr ⟨hno, hnb, h⟩

theorem State.barrier_of_away {s : State} {b core off : Nat} {arriving : List Tid} {t : Tid} (ht : t ∈ s.bandTids b)
    (haway : s.Away (core, off) arriving t) : s.barrier b core off arriving = s := by
  unfold State.barrier
  extract_lets waits
  have hall : (s.bandTids b).all waits = false := by
    rw [List.all_eq_false]
    refine ⟨t, ht, ?_⟩
    simp only [waits]
    obtain ⟨x, q, hst, hplace⟩ | ⟨hno, hnb, hmem⟩ := haway.cases
    · simpa only [hst, beq_iff_eq] using hplace
    · split
      · next hst => exact absurd hst hno
      · next hst => exact absurd hst (hnb _ _)
      · simpa using hmem
  rw [if_pos (by rw [hall]; rfl)]

theorem State.phaseClock_of_noBarrier {s : State} {place : Nat × Nat} {mine : List ArriveNote} (h : s.NoBarrier place mine) :
    s.phaseClock place mine = s.writePhase place.1 place.2 ((s.phaseAt place.1 place.2).clock (mine.map (·.what))) := by
  set u := s.writePhase place.1 place.2 ((s.phaseAt place.1 place.2).clock (mine.map (·.what))) with hu
  have hopen : u.NoBarrier place mine := (BenchOnly.writePhase s ..).noBarrier h
  have hbarriers : (mine.map fun e => e.tid.band).eraseDups.foldl
      (fun s b => s.barrier b place.1 place.2 (mine.map (·.tid))) u = u := by
    refine List.foldlRecOn (motive := fun w => w = u) _ _ rfl fun w hw b hb => ?_
    obtain ⟨e, he, rfl⟩ := List.mem_map.mp (List.mem_eraseDups.mp hb)
    obtain ⟨t, ht, haway⟩ := hopen e he
    rw [hw]
    exact State.barrier_of_away ht haway
  unfold State.phaseClock
  simp only
  split
  · exact hbarriers
  · rfl

/-! ### The BARAs of a clock -/

/-- The place of an arrival's object. -/
def ArriveNote.place (e : ArriveNote) : Nat × Nat := (e.core, e.off)

/-- The arrivals of a clock at an object. -/
def arrivalsAt (ops : List ArriveNote) (place : Nat × Nat) : List ArriveNote := ops.filter fun e => (e.core, e.off) == place

/-- What the arrivals of a clock at some of its objects leave. -/
structure Arrived (s u : State) (ops : List ArriveNote) (places : List (Nat × Nat)) : Prop where
  bench : BenchOnly s u
  exist : ∀ c, (u.core? c).isSome = (s.core? c).isSome
  taken : ∀ c o, (c, o) ∈ places → u.phaseAt c o = (s.phaseAt c o).clock ((arrivalsAt ops (c, o)).map (·.what))
  kept : ∀ c o, o % 16 = 0 → (c, o) ∉ places → u.phaseAt c o = s.phaseAt c o
  bytes : ∀ c i, (c, i / 16 * 16) ∉ places → u.benchByteAt c i = s.benchByteAt c i

theorem Arrived.nil (s : State) (ops : List ArriveNote) : Arrived s s ops [] :=
  ⟨BenchOnly.refl s, fun _ => rfl, fun _ _ h => absurd h List.not_mem_nil, fun _ _ _ _ => rfl, fun _ _ _ => rfl⟩

/-- One more object takes its arrivals. -/
theorem Arrived.step {s u : State} {ops : List ArriveNote} {done : List (Nat × Nat)} (h : Arrived s u ops done) {place : Nat × Nat}
    (hnew : place ∉ done) (halign : ∀ p ∈ place :: done, p.2 % 16 = 0) (hcore : (s.core? place.1).isSome = true)
    (hform : (s.phaseAt place.1 place.2).malformed = false) (hopen : s.NoBarrier place (arrivalsAt ops place)) :
    Arrived s (u.phaseClock place (arrivalsAt ops place)) ops (place :: done) := by
  obtain ⟨core, off⟩ := place
  have hoff : off % 16 = 0 := halign _ List.mem_cons_self
  have hold : u.phaseAt core off = s.phaseAt core off := h.kept core off hoff hnew
  have hsound : (s.phaseAt core off).Sound := State.phaseAt_sound hform
  rw [State.phaseClock_of_noBarrier (h.bench.noBarrier hopen), hold]
  refine ⟨h.bench.trans (BenchOnly.writePhase u ..), fun c => ?exist, fun c o hmem => ?taken, fun c o ho hmem => ?kept,
    fun c i hmem => ?bytes⟩
  case exist => rw [State.core?_writePhase_isSome, h.exist]
  case taken =>
    by_cases hhere : (c, o) = (core, off)
    · obtain ⟨rfl, rfl⟩ := Prod.mk.injEq .. ▸ hhere
      exact State.phaseAt_writePhase_self ((h.exist c).trans hcore) o (hsound.clock _)
    · rw [State.phaseAt_writePhase_ne u _ hoff (halign _ hmem) hhere]
      exact h.taken c o ((List.mem_cons.mp hmem).resolve_left hhere)
  case kept =>
    rw [State.phaseAt_writePhase_ne u _ hoff ho fun he => hmem (he ▸ List.mem_cons_self)]
    exact h.kept c o ho fun hin => hmem (List.mem_cons_of_mem _ hin)
  case bytes =>
    rw [State.benchByteAt_writePhase_ne u _ hoff fun he => hmem (he ▸ List.mem_cons_self)]
    exact h.bytes c i fun hin => hmem (List.mem_cons_of_mem _ hin)

/-- What a clock's arrivals meet: aligned, well-formed objects on cores that exist, none of them completing a band barrier. -/
structure State.MeetsObjects (s : State) (ops : List ArriveNote) : Prop where
  aligned : ∀ e ∈ ops, e.off % 16 = 0
  cores : ∀ e ∈ ops, (s.core? e.core).isSome = true
  formed : ∀ e ∈ ops, (s.phaseAt e.core e.off).malformed = false
  noBarrier : ∀ e ∈ ops, s.NoBarrier e.place (arrivalsAt ops e.place)

theorem Arrived.foldl {s : State} {ops : List ArriveNote} (hops : s.MeetsObjects ops) (places done : List (Nat × Nat)) {u : State}
    (hplaces : ∀ p ∈ places ++ done, ∃ e ∈ ops, e.place = p) (hnodup : (places ++ done).Nodup) (h : Arrived s u ops done) :
    ∃ all, (∀ p, p ∈ all ↔ p ∈ places ++ done) ∧ Arrived s (places.foldl (fun w p => w.phaseClock p (arrivalsAt ops p)) u) ops all := by
  induction places generalizing u done with
  | nil => exact ⟨done, fun _ => Iff.rfl, h⟩
  | cons place places ih =>
    have hperm : (places ++ place :: done).Perm (place :: places ++ done) := List.perm_middle
    have hmem (p : Nat × Nat) : p ∈ places ++ place :: done ↔ p ∈ place :: places ++ done := hperm.mem_iff
    obtain ⟨e, he, heplace⟩ := hplaces place (List.mem_append_left _ List.mem_cons_self)
    have hstep := h.step (place := place) ?new ?align ?core ?form ?clear
    case new => exact fun hin => (List.nodup_cons.mp hnodup).1 (List.mem_append_right _ hin)
    case align =>
      intro p hp
      obtain ⟨d, hd, rfl⟩ := hplaces p ((hmem p).mp (List.mem_append_right _ hp))
      exact hops.aligned d hd
    case core => exact heplace ▸ hops.cores e he
    case form => exact heplace ▸ hops.formed e he
    case clear => exact heplace ▸ hops.noBarrier e he
    obtain ⟨all, hall, harrived⟩ := ih (place :: done) (fun p hp => hplaces p ((hmem p).mp hp)) (hperm.nodup_iff.mpr hnodup) hstep
    exact ⟨all, fun p => (hall p).trans (hmem p), harrived⟩

theorem Arrived.applyArrivals {s : State} {ops : List ArriveNote} (hops : s.MeetsObjects ops) :
    ∃ all, (∀ p, p ∈ all ↔ ∃ e ∈ ops, e.place = p) ∧ Arrived s (s.applyArrivals ops) ops all := by
  have hplaces (p : Nat × Nat) : p ∈ (ops.map ArriveNote.place).eraseDups ↔ ∃ e ∈ ops, e.place = p := by
    rw [List.mem_eraseDups, List.mem_map]
  have h := Arrived.foldl hops (ops.map ArriveNote.place).eraseDups [] (u := s)
  rw [List.append_nil] at h
  obtain ⟨all, hall, harrived⟩ := h (fun p hp => (hplaces p).mp hp) (nodup_eraseDups _) (Arrived.nil s ops)
  exact ⟨all, fun p => (hall p).trans (hplaces p), harrived⟩

theorem arrivalsAt_eq_nil {ops : List ArriveNote} {p : Nat × Nat} : arrivalsAt ops p = [] ↔ ¬ ∃ e ∈ ops, e.place = p := by
  simp only [arrivalsAt, List.filter_eq_nil_iff, beq_iff_eq, not_exists, not_and]
  exact Iff.rfl

theorem State.applyArrivals_phaseAt {s : State} {ops : List ArriveNote} (hops : s.MeetsObjects ops) (c o : Nat) (ho : o % 16 = 0) :
    (s.applyArrivals ops).phaseAt c o = if arrivalsAt ops (c, o) = [] then s.phaseAt c o
      else (s.phaseAt c o).clock ((arrivalsAt ops (c, o)).map (·.what)) := by
  obtain ⟨all, hall, harrived⟩ := Arrived.applyArrivals hops
  split
  · next hnone => exact harrived.kept c o ho fun hin => arrivalsAt_eq_nil.mp hnone ((hall _).mp hin)
  · next hsome => exact harrived.taken c o ((hall _).mpr (not_not.mp fun h => hsome (arrivalsAt_eq_nil.mpr h)))

theorem State.applyArrivals_benchByteAt {s : State} {ops : List ArriveNote} (hops : s.MeetsObjects ops) (c i : Nat)
    (hi : ∀ e ∈ ops, e.place ≠ (c, i / 16 * 16)) : (s.applyArrivals ops).benchByteAt c i = s.benchByteAt c i := by
  obtain ⟨all, hall, harrived⟩ := Arrived.applyArrivals hops
  refine harrived.bytes c i fun hin => ?_
  obtain ⟨e, he, hplace⟩ := (hall _).mp hin
  exact hi e he hplace

theorem BenchOnly.applyArrivals {s : State} {ops : List ArriveNote} (hops : s.MeetsObjects ops) : BenchOnly s (s.applyArrivals ops) := by
  obtain ⟨all, _, harrived⟩ := Arrived.applyArrivals hops
  exact harrived.bench

/-- Settles O34: BARA by its place and release, the end of the clock object by object. -/
theorem barriersArrive : Obligations.BarriersArrive := by
  unfold Obligations.BarriersArrive
  refine ⟨completes_bara, ?_⟩
  intro s ops hobjects at_ hopen
  have hops : s.MeetsObjects ops :=
    ⟨fun e he => (hobjects e he).1, fun e he => (hobjects e he).2.1, fun e he => (hobjects e he).2.2, fun e he d hd => by
      obtain ⟨hdops, hdplace⟩ := List.mem_filter.mp hd
      obtain ⟨t, ht, haway⟩ := hopen d hdops
      rw [show e.place = (d.core, d.off) from (beq_iff_eq.mp hdplace).symm]
      exact ⟨t, ht, haway⟩⟩
  exact ⟨State.applyArrivals_phaseAt hops, State.applyArrivals_benchByteAt hops, (BenchOnly.applyArrivals hops).rest,
    (BenchOnly.applyArrivals hops).cores⟩

end Sys2Proof.Machine

/-! # Registers take what CSRW writes (O29)

A register is read where CSRW wrote it: in the thread's trap registers, in its context, in the log of the clock, or in a count of its core.
Each place has one lemma, of what it holds after the write; the map of a register then says how its number is read from there. -/

namespace Sys2Proof.Machine

/-- The value that a CSRW offers a register (R280). -/
def State.csrValue (s : State) (t : Tid) (mode : CsrMode) (n : Nat) (x : Word) : Word :=
  match mode with
  | .write => x
  | .set => s.csrRead t n ||| x
  | .clear => s.csrRead t n &&& ~~~x

/-! ### Words and numbers -/

theorem toNat_and_low (v : Word) (m : Word) (k : Nat) (hm : m.toNat = 2 ^ k - 1) : (v &&& m).toNat = v.toNat % 2 ^ k := by
  rw [BitVec.toNat_and, hm, Nat.and_two_pow_sub_one_eq_mod]

/-- An 8-bit field in which 0 is taken as 1 (R281). -/
theorem ofNat_field8 (v : Word) : BitVec.ofNat 32 (field8 v) = if v &&& 0xFF = 0 then 1 else v &&& 0xFF := by
  have hlow : (v &&& 0xFF).toNat = v.toNat % 256 := toNat_and_low v 0xFF 8 rfl
  apply BitVec.eq_of_toNat_eq
  split
  · next h =>
    rw [h] at hlow
    simp only [field8, BitVec.toNat_ofNat, ← hlow]
    rfl
  · next h =>
    have hpos : (v &&& 0xFF).toNat ≠ 0 := fun h0 => h (BitVec.eq_of_toNat_eq h0)
    simp only [field8, BitVec.toNat_ofNat]
    omega

theorem getLsbD_pageMask (i : Nat) (hi : i < 32) : (0xFFFFF000 : Word).getLsbD i = decide (12 ≤ i) := by
  have hall : ∀ i < 32, (0xFFFFF000 : Word).getLsbD i = decide (12 ≤ i) := by decide
  exact hall i hi

/-- THSEGLO without its low 12 bits (R299, R321). -/
theorem ofNat_segLow (hi : Nat) (v : Word) : BitVec.ofNat 32 (hi * 2 ^ 32 + v.toNat / 2 ^ 12 * 2 ^ 12) = v &&& 0xFFFFF000 := by
  have hpage : BitVec.ofNat 32 (hi * 2 ^ 32 + v.toNat / 2 ^ 12 * 2 ^ 12) = BitVec.ofNat 32 (v.toNat / 2 ^ 12 * 2 ^ 12) := by
    apply BitVec.eq_of_toNat_eq
    simp only [BitVec.toNat_ofNat]
    omega
  rw [hpage]
  apply BitVec.eq_of_getLsbD_eq
  intro i hi
  rw [BitVec.getLsbD_and, getLsbD_pageMask i hi, BitVec.getLsbD_ofNat, Nat.testBit_mul_two_pow, Nat.testBit_div_two_pow]
  by_cases h : 12 ≤ i
  · rw [Nat.sub_add_cancel h]
    simp [h, hi, BitVec.getLsbD]
  · simp [h]

/-- THSEGHI in 25 bits (R321). -/
theorem ofNat_segHigh (lo : Nat) (v : Word) :
    BitVec.ofNat 32 ((v.toNat % 2 ^ 25 * 2 ^ 32 + lo % 2 ^ 32) / 2 ^ 32) = v &&& 0x01FFFFFF := by
  have hlow : (v &&& 0x01FFFFFF).toNat = v.toNat % 2 ^ 25 := toNat_and_low v 0x01FFFFFF 25 rfl
  apply BitVec.eq_of_toNat_eq
  rw [hlow, BitVec.toNat_ofNat]
  omega

section Places

variable {s : State} {t : Tid}

/-! ### The context's registers -/

theorem State.ctxOf_modCtx {c : Ctx} (hc : s.ctxOf t = some c) {f : Ctx → Ctx} (hf : ∀ c, (f c).asid = c.asid) :
    (s.modCtx (s.asidOf t) f).ctxOf t = some (f c) := by
  change (s.modCtx (s.asidOf t) f).ctx? (s.asidOf t) = some (f c)
  rw [State.ctx?_modCtx_self s _ f hf, show s.ctx? (s.asidOf t) = some c from hc]
  rfl

/-- A register of the context is read off the context that the write leaves. -/
theorem State.csrRead_modCtx {c : Ctx} (hc : s.ctxOf t = some c) {n : Nat} (get : Ctx → Nat) (unset : Nat)
    (hread : ∀ u : State, u.csrRead t n = BitVec.ofNat 32 (((u.ctxOf t).map get).getD unset)) {f : Ctx → Ctx}
    (hf : ∀ c, (f c).asid = c.asid) : (s.modCtx (s.asidOf t) f).csrRead t n = BitVec.ofNat 32 (get (f c)) := by
  rw [hread, State.ctxOf_modCtx hc hf]
  rfl

theorem State.csrRead_thseghi (u : State) (t : Tid) : u.csrRead t 0x00A = BitVec.ofNat 32 (((u.ctxOf t).map fun c => c.thseg / 2 ^ 32).getD 0) := by
  change BitVec.ofNat 32 (((u.ctxOf t).map Ctx.thseg).getD 0 / 2 ^ 32) = _
  cases u.ctxOf t <;> rfl

/-! ### The counts of a core -/

/-- The counts of a context are those of before, changed. -/
theorem State.coreCounts_count {core : Nat} (hc : (s.core? core).isSome = true) (asid : Nat) {f : CoreCounts → CoreCounts}
    (hf : ∀ k, (f k).asid = k.asid) : (s.modCore core fun c => c.count asid f).coreCounts core asid = f (s.coreCounts core asid) := by
  obtain ⟨c, hc⟩ := Option.isSome_iff_exists.mp hc
  have hid : ∀ x : CoreSt, (x.count asid f).id = x.id := fun x => by unfold CoreSt.count; split <;> rfl
  simp only [State.coreCounts, State.core?_modCore_self hc hid, hc, Option.bind_some]
  unfold CoreSt.count
  split
  · next hany =>
    obtain ⟨k, hk⟩ := Option.isSome_iff_exists.mp (List.find?_isSome.mpr (List.any_eq_true.mp hany))
    have hkey : (k.asid == asid) = true := List.find?_some (p := fun x : CoreCounts => x.asid == asid) hk
    have hfind := find?_modIf (fun x : CoreCounts => x.asid == asid) (fun x => x.asid == asid) f c.counts fun x => by rw [hf x]
    simp only [hfind, hk, Option.map_some, hkey, if_true, Option.getD_some]
  · next hnone =>
    have hfind : c.counts.find? (·.asid == asid) = none := by
      rw [List.find?_eq_none]
      exact fun x hx hkey => hnone (List.any_eq_true.mpr ⟨x, hx, hkey⟩)
    have hkey : ((f ⟨asid, 0, 0, 0, 0, 0, 0, 0⟩).asid == asid) = true := by rw [hf]; exact beq_self_eq_true asid
    simp only [List.find?_cons, hkey, hfind, Option.getD_some, Option.getD_none]

/-- A count of the core is read off the core's counts that the write leaves. -/
theorem State.csrRead_count (hc : (s.core? (s.coreOf t)).isSome = true) {n : Nat} (get : CoreCounts → Nat)
    (hread : ∀ u : State, u.csrRead t n = BitVec.ofNat 32 (get (u.coreCounts (u.coreOf t) (u.asidOf t)))) {f : CoreCounts → CoreCounts}
    (hf : ∀ k, (f k).asid = k.asid) (hzero : ∀ k, get (f k) = 0) :
    (s.modCore (s.coreOf t) fun c => c.count (s.asidOf t) f).csrRead t n = 0 := by
  rw [hread]
  change BitVec.ofNat 32 (get ((s.modCore (s.coreOf t) fun c => c.count (s.asidOf t) f).coreCounts (s.coreOf t) (s.asidOf t))) = 0
  rw [State.coreCounts_count hc _ hf, hzero]
  rfl

/-! ### Registers of the thread, of the clock and of the band -/

theorem State.csrRead_setTpc {th : Thread} (hth : s.thread? t = some th) (v : Word) : (s.setTrapPc t false v).csrRead t 0x004 = v := by
  change BitVec.ofNat 32 ((((s.modThread t _).thread? t).map (·.trap)).getD TrapRegs.zero).tpc.p.toNat = v
  rw [State.thread?_modThread, if_pos rfl, hth]
  exact BitVec.ofNat_toNat 32 v

theorem State.csrRead_setTnpc {th : Thread} (hth : s.thread? t = some th) (v : Word) : (s.setTrapPc t true v).csrRead t 0x008 = v := by
  change BitVec.ofNat 32 ((((s.modThread t _).thread? t).map (·.trap)).getD TrapRegs.zero).tnpc.p.toNat = v
  rw [State.thread?_modThread, if_pos rfl, hth]
  exact BitVec.ofNat_toNat 32 v

/-- DECAY as the band's threads read it is what has been written last in the clock (R246). -/
theorem State.csrRead_decay (v : Word) :
    ({ s with now := { s.now with decays := s.now.decays ++ [(t.band, v)] } } : State).csrRead t 0x0C0 = v := by
  change BitVec.ofNat 32 ((((((s.now.decays ++ [(t.band, v)]).filter fun e => e.1 == t.band).getLast?.map (·.2)).or
    ((s.band? t.band).map (·.decay))).getD 0 : Word).toNat) = v
  rw [List.filter_append, List.filter_cons_of_pos (by exact beq_self_eq_true t.band), List.filter_nil, List.getLast?_append]
  exact BitVec.ofNat_toNat 32 v

theorem State.csrRead_clearRollCount : (s.modBand t.band fun b => { b with rollCount := 0 }).csrRead t 0x184 = 0 := by
  change BitVec.ofNat 32 ((((s.modBand t.band fun b => { b with rollCount := 0 }).band? t.band).map (·.rollCount)).getD 0) = 0
  rw [State.band?_modBand_self s t.band _ (by exact fun _ => rfl)]
  cases s.band? t.band <;> rfl

theorem State.csrRead_clearCecnt (hc : (s.core? (s.coreOf t)).isSome = true) :
    (s.modCore (s.coreOf t) fun c => { c with cecnt := 0 }).csrRead t 0x187 = 0 := by
  obtain ⟨c, hc⟩ := Option.isSome_iff_exists.mp hc
  change BitVec.ofNat 32 ((((s.modCore (s.coreOf t) fun c => { c with cecnt := 0 }).core? (s.coreOf t)).map (·.cecnt)).getD 0) = 0
  rw [State.core?_modCore_self hc (by exact fun _ => rfl)]
  rfl

/-! ### The obligation -/

/-- The numbers of the W1C registers but TSTAT (R281). -/
theorem mem_of_csrAccess_w1c {n : Nat} (h : csrAccess n = some .w1c) (hn : n ≠ 0) :
    n ∈ [0x042, 0x043, 0x08B, 0x109, 0x144, 0x182] ∨ n ∈ [0x060, 0x061, 0x062, 0x063, 0x0C1, 0x0C2] ∨ n ∈ [0x184, 0x187, 0x1C5] := by
  unfold csrAccess at h
  split at h <;> simp at h hn ⊢

theorem State.csrWrite_of_w1c {n : Nat} (h : csrAccess n = some .w1c) (hn : n ≠ 0) (mode : CsrMode) (x : Word) :
    s.csrWrite t mode n x = s.csrClear t n := by
  simp only [State.csrWrite, h, if_neg hn]

/-- A W1C register reads 0 after a write (R281). -/
theorem State.csrRead_csrClear {c : Ctx} (hctx : s.ctxOf t = some c) (hcore : (s.core? (s.coreOf t)).isSome = true) {n : Nat}
    (h : csrAccess n = some .w1c) (hn : n ≠ 0) : (s.csrClear t n).csrRead t n = 0 := by
  obtain hmem | hmem | hmem := mem_of_csrAccess_w1c h hn
  · simp only [List.mem_cons, List.not_mem_nil, or_false] at hmem
    obtain rfl | rfl | rfl | rfl | rfl | rfl := hmem
    · exact State.csrRead_modCtx hctx Ctx.borref 0 (fun _ => rfl) fun _ => rfl
    · exact State.csrRead_modCtx hctx Ctx.borque 0 (fun _ => rfl) fun _ => rfl
    · exact State.csrRead_modCtx hctx Ctx.cfcount 0 (fun _ => rfl) fun _ => rfl
    · exact State.csrRead_modCtx hctx Ctx.deperr 0 (fun _ => rfl) fun _ => rfl
    · exact State.csrRead_modCtx hctx Ctx.ckcount 0 (fun _ => rfl) fun _ => rfl
    · exact State.csrRead_modCtx hctx Ctx.fqlost 0 (fun _ => rfl) fun _ => rfl
  · simp only [List.mem_cons, List.not_mem_nil, or_false] at hmem
    obtain rfl | rfl | rfl | rfl | rfl | rfl := hmem
    · exact State.csrRead_count hcore CoreCounts.lreq (fun _ => rfl) (fun _ => rfl) fun _ => rfl
    · exact State.csrRead_count hcore CoreCounts.rreq (fun _ => rfl) (fun _ => rfl) fun _ => rfl
    · exact State.csrRead_count hcore CoreCounts.tlbmiss (fun _ => rfl) (fun _ => rfl) fun _ => rfl
    · exact State.csrRead_count hcore CoreCounts.walks (fun _ => rfl) (fun _ => rfl) fun _ => rfl
    · exact State.csrRead_count hcore CoreCounts.mxsusp (fun _ => rfl) (fun _ => rfl) fun _ => rfl
    · exact State.csrRead_count hcore CoreCounts.mgov (fun _ => rfl) (fun _ => rfl) fun _ => rfl
  · simp only [List.mem_cons, List.not_mem_nil, or_false] at hmem
    obtain rfl | rfl | rfl := hmem
    · exact State.csrRead_clearRollCount
    · exact State.csrRead_clearCecnt hcore
    · rfl

/-- The registers that take a value whole. -/
theorem State.csrRead_csrWrite_whole {c : Ctx} {th : Thread} (hth : s.thread? t = some th) (hctx : s.ctxOf t = some c) {n : Nat}
    (hn : n ∈ [0x004, 0x006, 0x008, 0x0C0, 0x181]) (mode : CsrMode) (x : Word) :
    (s.csrWrite t mode n x).csrRead t n = s.csrValue t mode n x := by
  simp only [List.mem_cons, List.not_mem_nil, or_false] at hn
  obtain rfl | rfl | rfl | rfl | rfl := hn
  · exact State.csrRead_setTpc hth _
  · calc (s.csrWrite t mode 0x006 x).csrRead t 0x006 = BitVec.ofNat 32 (s.csrValue t mode 0x006 x).toNat :=
          State.csrRead_modCtx hctx (fun c => c.thentry.toNat) 0xFFFFFFFF (fun _ => rfl) fun _ => rfl
      _ = s.csrValue t mode 0x006 x := BitVec.ofNat_toNat 32 _
  · exact State.csrRead_setTnpc hth _
  · exact State.csrRead_decay _
  · calc (s.csrWrite t mode 0x181 x).csrRead t 0x181 = BitVec.ofNat 32 (s.csrValue t mode 0x181 x).toNat :=
          State.csrRead_modCtx hctx (fun c => c.fqtail.toNat) 0 (fun _ => rfl) fun _ => rfl
      _ = s.csrValue t mode 0x181 x := BitVec.ofNat_toNat 32 _

/-- The bounds: 8 bits, 0 taken as 1. -/
theorem State.csrRead_csrWrite_bound {c : Ctx} (hctx : s.ctxOf t = some c) {n : Nat} (hn : n ∈ [0x040, 0x143, 0x183, 0x185])
    (mode : CsrMode) (x : Word) : (s.csrWrite t mode n x).csrRead t n = BitVec.ofNat 32 (field8 (s.csrValue t mode n x)) := by
  simp only [List.mem_cons, List.not_mem_nil, or_false] at hn
  obtain rfl | rfl | rfl | rfl := hn
  · exact State.csrRead_modCtx hctx Ctx.deedwait 16 (fun _ => rfl) fun _ => rfl
  · exact State.csrRead_modCtx hctx Ctx.collwait 0 (fun _ => rfl) fun _ => rfl
  · exact State.csrRead_modCtx hctx Ctx.rollmax 0 (fun _ => rfl) fun _ => rfl
  · exact State.csrRead_modCtx hctx Ctx.pairwait 0 (fun _ => rfl) fun _ => rfl

end Places

/-- Settles O29: each register by the place that CSRW wrote and the map that reads it. -/
theorem registersTakeWrites : Obligations.RegistersTakeWrites := by
  unfold Obligations.RegistersTakeWrites
  intro s t mode n x hthread hcontext hcore
  obtain ⟨th, hth⟩ := Option.isSome_iff_exists.mp hthread
  obtain ⟨c, hctx⟩ := Option.isSome_iff_exists.mp hcontext
  refine ⟨fun hn => State.csrRead_csrWrite_whole hth hctx hn mode x, ?low, ?high, fun hn => ?bound, fun h hn => ?cleared, ?status⟩
  case low =>
    rintro rfl
    calc (s.csrWrite t mode 0x009 x).csrRead t 0x009
        = BitVec.ofNat 32 (c.thseg / 2 ^ 32 * 2 ^ 32 + (s.csrValue t mode 0x009 x).toNat / 2 ^ 12 * 2 ^ 12) :=
          State.csrRead_modCtx hctx Ctx.thseg 0 (fun _ => rfl) fun _ => rfl
      _ = s.csrValue t mode 0x009 x &&& 0xFFFFF000 := ofNat_segLow _ _
  case high =>
    rintro rfl
    calc (s.csrWrite t mode 0x00A x).csrRead t 0x00A
        = BitVec.ofNat 32 (((s.csrValue t mode 0x00A x).toNat % 2 ^ 25 * 2 ^ 32 + c.thseg % 2 ^ 32) / 2 ^ 32) :=
          State.csrRead_modCtx hctx (fun c => c.thseg / 2 ^ 32) 0 (fun u => State.csrRead_thseghi u t) fun _ => rfl
      _ = s.csrValue t mode 0x00A x &&& 0x01FFFFFF := ofNat_segHigh _ _
  case bound => exact (State.csrRead_csrWrite_bound hctx hn mode x).trans (ofNat_field8 _)
  case cleared =>
    rw [State.csrWrite_of_w1c h hn]
    exact State.csrRead_csrClear hctx hcore h hn
  case status =>
    rintro rfl
    exact (State.thread?_modThread s t t _).trans (if_pos rfl)

end Sys2Proof.Machine

/-! # The matrix engine and the governor's window (O40)

A round, an ACCWR from registers and an ACCWR from a tile each write a list of accumulator elements with distinct keys, one after the other.
What such a list of writes leaves is said once; each operation is then one such list, with its own cells, keys and values. -/

namespace Sys2Proof.Machine

/-! ### Writes of accumulator elements -/

/-- `F` writes the element at `key p`, with a value made of the element's old one, and leaves the rest of the core but the marks of poison. -/
def WritesAcc {P : Type} (key : P → Nat) (val : P → Word → Word) (F : CoreSt → P → CoreSt) : Prop :=
  ∀ c p, F c p = { c with acc := put 0 (key p) (val p (look 0 (key p) c.acc)) c.acc, accPoison := (F c p).accPoison }

section Writes

variable {P : Type} {key : P → Nat} {val : P → Word → Word} {F : CoreSt → P → CoreSt} (hF : WritesAcc key val F)
include hF

theorem WritesAcc.acc (c : CoreSt) (p : P) : (F c p).acc = put 0 (key p) (val p (look 0 (key p) c.acc)) c.acc := by rw [hF c p]

theorem WritesAcc.id (c : CoreSt) (p : P) : (F c p).id = c.id := by rw [hF c p]

/-- Nothing but the accumulator and its poison is written. -/
theorem WritesAcc.foldl_eq (ps : List P) (c : CoreSt) :
    ps.foldl F c = { c with acc := (ps.foldl F c).acc, accPoison := (ps.foldl F c).accPoison } := by
  refine foldl_keeps (P := fun d : CoreSt => d = { c with acc := d.acc, accPoison := d.accPoison }) (fun d p hd => ?_) ps rfl
  rw [hF d p, hd]

/-- An element that no cell names is as it was. -/
theorem WritesAcc.look_foldl_of_ne {k : Nat} (ps : List P) (c : CoreSt) (hk : ∀ p ∈ ps, k ≠ key p) :
    look 0 k (ps.foldl F c).acc = look 0 k c.acc := by
  induction ps generalizing c with
  | nil => rfl
  | cons p ps ih =>
    rw [List.foldl_cons, ih _ fun q hq => hk q (List.mem_cons_of_mem _ hq), hF.acc, look_put_ne _ _ _ _ _ (hk p List.mem_cons_self)]

/-- Where no two cells have one key, every element has the value made of its old one. -/
theorem WritesAcc.look_foldl_of_mem {ps : List P} (hnd : (ps.map key).Nodup) (c : CoreSt) {p : P} (hp : p ∈ ps) :
    look 0 (key p) (ps.foldl F c).acc = val p (look 0 (key p) c.acc) := by
  induction ps generalizing c with
  | nil => cases hp
  | cons q ps ih =>
    obtain ⟨hq, hnd⟩ := List.nodup_cons.mp hnd
    rw [List.foldl_cons]
    obtain rfl | hp := List.mem_cons.mp hp
    · have hlater : ∀ x ∈ ps, key p ≠ key x := fun x hx hkey => hq (List.mem_map.mpr ⟨x, hx, hkey.symm⟩)
      rw [hF.look_foldl_of_ne ps _ hlater, hF.acc, look_put_self]
    · have hne : key p ≠ key q := fun hkey => hq (List.mem_map.mpr ⟨p, hp, hkey⟩)
      rw [ih hnd _ hp, hF.acc, look_put_ne _ _ _ _ _ hne]

end Writes

/-- A fold whose every step changes a core by `F` changes it by the fold of `F`. -/
theorem core?_foldl {P β : Type} {core : Nat} (proj : β → State) {g : β → P → β} {F : CoreSt → P → CoreSt}
    (hstep : ∀ a c p, (proj a).core? core = some c → (proj (g a p)).core? core = some (F c p)) (ps : List P) {a : β} {c : CoreSt}
    (hc : (proj a).core? core = some c) : (proj (ps.foldl g a)).core? core = some (ps.foldl F c) := by
  induction ps generalizing a c with
  | nil => exact hc
  | cons p ps ih => exact ih (hstep a c p hc)

/-- A fold of changes of cores changes cores. -/
theorem foldl_modCore_eq {P : Type} (core : Nat) (F : P → CoreSt → CoreSt) (ps : List P) (s : State) :
    ps.foldl (fun s p => s.modCore core (F p)) s = { s with cores := (ps.foldl (fun s p => s.modCore core (F p)) s).cores } := by
  refine foldl_keeps (P := fun u : State => u = { s with cores := u.cores }) (fun u p hu => ?_) ps rfl
  rw [hu]
  rfl

/-! ### Cells and keys -/

/-- The band's columns `col` to `col + n - 1` are distinct columns of the core. -/
def Band.Spread (b : Band) (k col n : Nat) : Prop := ∀ i j, i < n → j < n →
  b.accCol k (col + i) < 4096 ∧ (b.accCol k (col + i) = b.accCol k (col + j) → i = j)

theorem accKey_inj {r r' c c' : Nat} (h : accKey r c = accKey r' c') (hc : c < 4096) (hc' : c' < 4096) : r = r' ∧ c = c' := by
  unfold accKey at h
  omega

theorem mem_cells {rows cols : Nat} {p : Nat × Nat} : p ∈ List.product (List.range rows) (List.range cols) ↔ p.1 < rows ∧ p.2 < cols := by
  obtain ⟨i, n⟩ := p
  rw [List.pair_mem_product, List.mem_range, List.mem_range]

theorem roundCells_eq_product : roundCells = List.product (List.range 64) (List.range 96) := rfl

theorem mem_roundCells {p : Nat × Nat} : p ∈ roundCells ↔ p.1 < 64 ∧ p.2 < 96 := by
  rw [roundCells_eq_product, mem_cells]

/-- The cells of distinct columns have distinct keys. -/
theorem Band.Spread.nodup_keys {b : Band} {k col cols : Nat} (h : b.Spread k col cols) (rows row0 : Nat) :
    ((List.product (List.range rows) (List.range cols)).map fun p : Nat × Nat => accKey (row0 + p.1) (b.accCol k (col + p.2))).Nodup := by
  refine List.Nodup.map_on ?_ (List.nodup_range.product List.nodup_range)
  intro p hp q hq hkey
  obtain ⟨-, hp⟩ := mem_cells.mp hp
  obtain ⟨-, hq⟩ := mem_cells.mp hq
  obtain ⟨hrow, hcol⟩ := accKey_inj hkey (h _ _ hp hp).1 (h _ _ hq hq).1
  exact Prod.ext (by omega) ((h _ _ hp hq).2 hcol)

theorem Band.Spread.nodup_rowKeys {b : Band} {k col cols : Nat} (h : b.Spread k col cols) (row : Nat) :
    ((List.range cols).map fun e => accKey row (b.accCol k (col + e))).Nodup := by
  refine List.Nodup.map_on ?_ List.nodup_range
  intro i hi j hj hkey
  have hi := List.mem_range.mp hi
  have hj := List.mem_range.mp hj
  exact (h _ _ hi hj).2 (accKey_inj hkey (h _ _ hi hi).1 (h _ _ hj hj).1).2

/-! ### A round -/

section Rounds

variable {core : Nat} {r : Round} {b : Band} {data : List (Nat × Byte)}

/-- One element of a round, in its core. -/
def Round.cell (r : Round) (b : Band) (data : List (Nat × Byte)) (c : CoreSt) (p : Nat × Nat) : CoreSt :=
  let col := b.accCol (b.kOf r.last) (r.col + p.2)
  c.setAcc p.1 col (r.element data (c.accAt p.1 col) p.1 p.2).1 (c.accBad p.1 col && !r.zi)

theorem Round.writesAcc_cell (r : Round) (b : Band) (data : List (Nat × Byte)) :
    WritesAcc (fun p : Nat × Nat => accKey p.1 (b.accCol (b.kOf r.last) (r.col + p.2))) (fun p x => (r.element data x p.1 p.2).1)
      (r.cell b data) := fun _ _ => rfl

theorem State.core?_mmaCell (a : State × List (Nat × Nat × Nat)) (c : CoreSt) (p : Nat × Nat) (hc : a.1.core? core = some c) :
    (State.mmaCell core r b data a p).1.core? core = some (r.cell b data c p) := by
  unfold State.mmaCell
  rw [hc]
  exact State.core?_modCore_self hc fun _ => rfl

theorem State.core?_roundCells {s : State} {c : CoreSt} (hc : s.core? core = some c) :
    (roundCells.foldl (State.mmaCell core r b data) (s, [])).1.core? core = some (roundCells.foldl (r.cell b data) c) :=
  core?_foldl Prod.fst State.core?_mmaCell roundCells hc

/-- Where no element has a suspect block, the round finds none and changes cores only. -/
theorem State.roundCells_of_none_suspect {s : State} (h : ∀ x i n, i < 64 → n < 96 → (r.element data x i n).2 = []) :
    roundCells.foldl (State.mmaCell core r b data) (s, []) =
      ({ s with cores := (roundCells.foldl (State.mmaCell core r b data) (s, [])).1.cores }, []) := by
  have hkeep : ∀ a, a = ({ s with cores := a.1.cores }, []) → ∀ p ∈ roundCells, State.mmaCell core r b data a p =
      ({ s with cores := (State.mmaCell core r b data a p).1.cores }, []) := by
    intro a ha p hp
    obtain ⟨hi, hn⟩ := mem_roundCells.mp hp
    unfold State.mmaCell
    split
    · exact ha
    · next c hc =>
      simp only [h _ _ _ hi hn, List.append_nil]
      rw [ha]
      rfl
  exact List.foldlRecOn (motive := fun a : State × List (Nat × Nat × Nat) => a = ({ s with cores := a.1.cores }, []))
    roundCells _ rfl fun a ha p hp => hkeep a ha p hp

/-- ExponentCheck changes the counts of the core. -/
theorem State.core?_suspects {s : State} {c : CoreSt} (hc : s.core? core = some c) (xs : List (Nat × Nat × Nat)) :
    ∃ counts, (s.suspects core r xs).core? core = some { c with counts := counts } := by
  have hcount : ∀ (x : CoreSt) asid f, ∃ counts, x.count asid f = { x with counts := counts } := fun x asid f => by
    unfold CoreSt.count
    split
    · exact ⟨_, rfl⟩
    · exact ⟨_, rfl⟩
  have hid : ∀ asid f, ∀ x : CoreSt, (x.count asid f).id = x.id := fun asid f x => by
    obtain ⟨counts, h⟩ := hcount x asid f
    rw [h]
  unfold State.suspects
  split
  · next first last _ _ =>
    obtain ⟨counts, h⟩ := hcount c (s.asidOf r.last) fun k =>
      { k with mxsusp := min 0xFFFFFFFF (k.mxsusp + xs.length), mxsloc := r.place last }
    refine ⟨counts, ?_⟩
    rw [← h]
    dsimp only
    split
    · exact State.core?_modCore_self hc (hid _ _)
    · exact State.core?_modCore_self hc (hid _ _)
  · exact ⟨c.counts, hc⟩

theorem State.suspects_of_cores {s : State} {w : State × List (Nat × Nat × Nat)} (h : w = ({ s with cores := w.1.cores }, [])) :
    w.1.suspects core r w.2 = { s with cores := (w.1.suspects core r w.2).cores } := by
  rw [h]
  rfl

/-- What the elements of a round leave in its core. -/
theorem Round.foldl_cell_spec (c : CoreSt) (hspread : b.Spread (b.kOf r.last) r.col 96) :
    ∃ d, roundCells.foldl (r.cell b data) c = d ∧ d = { c with acc := d.acc, accPoison := d.accPoison } ∧
      (∀ p ∈ roundCells, look 0 (accKey p.1 (b.accCol (b.kOf r.last) (r.col + p.2))) d.acc =
        (r.element data (c.accAt p.1 (b.accCol (b.kOf r.last) (r.col + p.2))) p.1 p.2).1) ∧
      ∀ k, (∀ p ∈ roundCells, k ≠ accKey p.1 (b.accCol (b.kOf r.last) (r.col + p.2))) → look 0 k d.acc = look 0 k c.acc := by
  have hw := r.writesAcc_cell b data
  have hkeys : (roundCells.map fun p : Nat × Nat => accKey p.1 (b.accCol (b.kOf r.last) (r.col + p.2))).Nodup := by
    simpa only [roundCells_eq_product, Nat.zero_add] using hspread.nodup_keys 64 0
  exact ⟨_, rfl, hw.foldl_eq roundCells c, fun p hp => hw.look_foldl_of_mem hkeys c hp, fun k hk => hw.look_foldl_of_ne roundCells c hk⟩

theorem State.mmaExecute_eq {s : State} (hb : s.band? r.band = some b) : s.mmaExecute core r =
    (roundCells.foldl (State.mmaCell core r b (s.tileData core r.tile)) (s, [])).1.suspects core r
      (roundCells.foldl (State.mmaCell core r b (s.tileData core r.tile)) (s, [])).2 := by
  unfold State.mmaExecute
  generalize roundCells = ps
  rw [hb]

/-- What a round leaves in its core (R237). -/
theorem State.mmaExecute_spec {s : State} {c : CoreSt} (hc : s.core? core = some c) (hb : s.band? r.band = some b)
    (hspread : b.Spread (b.kOf r.last) r.col 96) :
    ∃ c1, (s.mmaExecute core r).core? core = some c1 ∧
      c1 = { c with acc := c1.acc, accPoison := c1.accPoison, counts := c1.counts } ∧
      (∀ i n, i < 64 → n < 96 → c1.accAt i (b.accCol (b.kOf r.last) (r.col + n)) =
        (r.element (s.tileData core r.tile) (c.accAt i (b.accCol (b.kOf r.last) (r.col + n))) i n).1) ∧
      (∀ k, (∀ i n, i < 64 → n < 96 → k ≠ accKey i (b.accCol (b.kOf r.last) (r.col + n))) → look 0 k c1.acc = look 0 k c.acc) ∧
      ((∀ x i n, i < 64 → n < 96 → (r.element (s.tileData core r.tile) x i n).2 = []) →
        s.mmaExecute core r = { s with cores := (s.mmaExecute core r).cores }) := by
  obtain ⟨d, hfold, hframe, hcells, hrest⟩ := Round.foldl_cell_spec (data := s.tileData core r.tile) c hspread
  have hd := (State.core?_roundCells (r := r) (b := b) (data := s.tileData core r.tile) hc).trans (congrArg some hfold)
  have hquiet := State.roundCells_of_none_suspect (core := core) (r := r) (b := b) (data := s.tileData core r.tile) (s := s)
  have hexec := State.mmaExecute_eq (core := core) hb
  rw [hexec]
  generalize roundCells.foldl (State.mmaCell core r b (s.tileData core r.tile)) (s, []) = w at hd hquiet ⊢
  obtain ⟨counts, hcore⟩ := State.core?_suspects (r := r) hd w.2
  refine ⟨_, hcore, ?_, fun i n hi hn => hcells (i, n) (mem_roundCells.mpr ⟨hi, hn⟩),
    fun k hk => hrest k fun p hp => hk _ _ (mem_roundCells.mp hp).1 (mem_roundCells.mp hp).2, fun hnone => ?_⟩
  · rw [hframe]
  · exact State.suspects_of_cores (hquiet hnone)

end Rounds

/-! ### ACCWR -/

theorem CoreSt.writesAcc_putAcc {P : Type} (row col : P → Nat) (add : Bool) (x : P → Val) :
    WritesAcc (fun p => accKey (row p) (col p))
      (fun p w => BitVec.ofNat 32 (roundToFormat (if add then (Fmt.f32.value w.toNat).add .rne (x p) else x p) .f32 .rne false))
      (fun c p => c.putAcc (row p) (col p) add (x p)) := fun _ _ => rfl

/-- What the elements put by an ACCWR leave in their core (R242). -/
theorem State.putAccs_spec {P : Type} {s : State} {core : Nat} {c : CoreSt} (hc : s.core? core = some c) (row col : P → Nat) (add : Bool)
    (x : P → Val) {ps : List P} (hnd : (ps.map fun p => accKey (row p) (col p)).Nodup) {w : State}
    (hw : w = ps.foldl (fun s p => s.modCore core fun c => c.putAcc (row p) (col p) add (x p)) s) :
    ∃ c1, w = { s with cores := w.cores } ∧ w.core? core = some c1 ∧ c1.mx = c.mx ∧
      (∀ p ∈ ps, c1.accAt (row p) (col p) = BitVec.ofNat 32 (roundToFormat (if add then
        (Fmt.f32.value (c.accAt (row p) (col p)).toNat).add .rne (x p) else x p) .f32 .rne false)) ∧
      ∀ k, (∀ p ∈ ps, k ≠ accKey (row p) (col p)) → look 0 k c1.acc = look 0 k c.acc := by
  have hwr := CoreSt.writesAcc_putAcc row col add x
  have hcore := core?_foldl id (g := fun s p => s.modCore core fun c => c.putAcc (row p) (col p) add (x p))
    (fun _ _ _ ha => State.core?_modCore_self ha fun _ => rfl) ps hc
  refine ⟨_, ?_, hw ▸ hcore, ?_, fun p hp => hwr.look_foldl_of_mem hnd c hp, fun k hk => hwr.look_foldl_of_ne ps c hk⟩
  · rw [hw]
    exact foldl_modCore_eq core _ ps s
  · rw [hwr.foldl_eq ps c]

/-! ### The obligation -/

section Entries

variable {s : State} {core : Nat} {c : CoreSt} {op : Nat}

theorem exec_matrixEntryPerform {e : MxEntry} (hc : s.core? core = some c) (he : c.mx.head? = some e) :
    exec (.matrixEntryPerform core) s = .next (s.performEntry core c e) := by
  change execMatrixEntryPerform core s = _
  simp only [execMatrixEntryPerform, hc, he]

theorem State.core?_popMx (hc : s.core? core = some c) : (s.modCore core CoreSt.popMx).core? core = some c.popMx :=
  State.core?_modCore_self hc fun _ => rfl

/-- A core's charge of a round (R244). -/
def CoreSt.charge (c : CoreSt) (units clock : Nat) : CoreSt := { c with mgused := c.mgused + units, mxNext := clock + 4 }

/-- The state in which a round is performed: popped and charged. -/
def State.charged (s : State) (core units : Nat) : State := (s.modCore core CoreSt.popMx).modCore core fun c => c.charge units s.clock

theorem State.core?_charged (hc : s.core? core = some c) (units : Nat) :
    (s.charged core units).core? core = some (c.popMx.charge units s.clock) :=
  State.core?_modCore_self (State.core?_popMx hc) fun _ => rfl

theorem State.tileSick_charged (hc : s.core? core = some c) (units phys : Nat) (e : TileEntry) :
    (s.charged core units).tileSick core phys e = s.tileSick core phys e := by
  simp only [State.tileSick, State.core?_charged hc, hc]
  rfl

theorem State.tileData_charged (hc : s.core? core = some c) (units phys : Nat) :
    (s.charged core units).tileData core phys = s.tileData core phys := by
  simp only [State.tileData, State.core?_charged hc, hc]
  rfl

theorem CoreSt.windowDue_of_lt {clock : Nat} (h : clock < c.mgorigin + 256 * (c.mgwindow + 1)) : c.windowDue clock = false :=
  decide_eq_false (by omega)

/-- A round that the budget allows is performed. -/
theorem State.performEntry_round {r : Round} {held : Bool} (hc : s.core? core = some c)
    (hwin : s.clock < c.mgorigin + 256 * (c.mgwindow + 1)) (hnext : c.mxNext ≤ s.clock)
    (hbudget : c.mgused + unitsOf r.entry.af ≤ c.mgbudget) (hsick : s.tileSick core r.tile r.entry = false) :
    s.performEntry core c ⟨op, .round r, held⟩ = ((s.charged core (unitsOf r.entry.af)).mmaExecute core r).entryDone op := by
  have hready : ¬(c.windowDue s.clock || s.clock < c.mxNext) = true := by
    rw [CoreSt.windowDue_of_lt hwin, Bool.false_or, decide_eq_true_eq]
    omega
  have hsick' := (State.tileSick_charged hc (unitsOf r.entry.af) r.tile r.entry).trans hsick
  unfold State.performEntry
  dsimp only
  rw [if_neg hready, if_neg (by omega)]
  exact if_neg (by exact ne_true_of_eq_false hsick')

/-- A round over the budget is held and counted. -/
theorem State.performEntry_over {r : Round} (hwin : s.clock < c.mgorigin + 256 * (c.mgwindow + 1)) (hnext : c.mxNext ≤ s.clock)
    (hbudget : c.mgbudget < c.mgused + unitsOf r.entry.af) :
    s.performEntry core c ⟨op, .round r, false⟩ = s.modCore core fun c =>
      ({ c with mx := modAt c.mx 0 fun e => { e with held := true } } : CoreSt).count (s.asidOf r.last) fun k =>
        { k with mgov := satInc k.mgov } := by
  have hready : ¬(c.windowDue s.clock || s.clock < c.mxNext) = true := by
    rw [CoreSt.windowDue_of_lt hwin, Bool.false_or, decide_eq_true_eq]
    omega
  unfold State.performEntry
  dsimp only
  rw [if_neg hready, if_pos hbudget]
  rfl

/-- ACCRD of sound elements: the registers, the flags, and the columns zeroed where it says so (R241). -/
theorem State.readAcc_sound {t : Tid} {df : Fmt} {r : Rnd} {satf : Bool} {d : VReg} {col nr : Nat} {zr : Bool} {b : Band}
    (hc : s.core? core = some c) (hb : s.band? t.band = some b)
    (hsound : ∀ e < nr * 32 / df.width, c.accBad t.lane (b.accCol (b.kOf t) (col + e)) = false) :
    let cols := (List.range (nr * 32 / df.width)).map fun e => b.accCol (b.kOf t) (col + e)
    let bits := packElems df.width (cols.map fun p =>
      if df = .i32 then wrapInt 32 (toIntOf (Fmt.f32.value (c.accAt t.lane p).toNat) .i32 r)
      else roundToFormat (Fmt.f32.value (c.accAt t.lane p).toNat) df r satf)
    let w := (s.writeRegs t
      ((List.range nr).map fun j => RegWrite.v (regAt d j) (BitVec.ofNat 32 (bits / 2 ^ (32 * j))))).clearFlags op false
    s.readAcc core op t df r satf d col nr zr =
      if zr then w.modCore core fun c => cols.foldl (fun c p => c.setAcc t.lane p 0 false) c else w := by
  intro cols bits w
  have hany : ¬cols.any (c.accBad t.lane) = true := by
    intro h
    obtain ⟨p, hp, hbad⟩ := List.any_eq_true.mp h
    obtain ⟨e, he, rfl⟩ := List.mem_map.mp hp
    rw [hsound e (List.mem_range.mp he)] at hbad
    cases hbad
  unfold State.readAcc
  rw [hb, hc]
  exact if_neg hany

theorem CoreSt.windows_of_one {clock : Nat} (hdue : c.mgorigin + 256 * (c.mgwindow + 1) ≤ clock)
    (hnext : clock < c.mgorigin + 256 * (c.mgwindow + 2)) : c.windows clock = c.window := by
  have hnum : (clock - c.mgorigin) / 256 = c.mgwindow + 1 := by omega
  unfold CoreSt.windows
  rw [if_neg (by omega), hnum]
  rfl

end Entries

/-- Settles O40: the entries by the accumulator elements they write, the window by its number. -/
theorem matrixPerforms : Obligations.MatrixPerforms := by
  unfold Obligations.MatrixPerforms
  refine ⟨?round, ?held, ?read, ?registers, ?tile, ?window⟩
  case round =>
    intro s core c op r held b hc hhead hb hwin hnext hbudget hsick hspread
    have hcharged := State.core?_charged hc (unitsOf r.entry.af)
    obtain ⟨c1, hc1, hframe, hcells, hrest, hquiet⟩ := State.mmaExecute_spec (s := s.charged core (unitsOf r.entry.af)) (r := r) (b := b)
      hcharged hb hspread
    rw [State.tileData_charged hc] at hcells hquiet
    refine ⟨_, _, c1, (exec_matrixEntryPerform hc hhead).trans (congrArg _ (State.performEntry_round hc hwin hnext hbudget hsick)), rfl,
      hc1, ?_, ?_, ?_, hcells, hrest, fun hnone => hquiet hnone⟩
    · rw [hframe]
      rfl
    · rw [hframe]
      rfl
    · rw [hframe]
      rfl
  case held =>
    intro s core c op r hc hhead hwin hnext hbudget
    exact (exec_matrixEntryPerform hc hhead).trans (congrArg _ (State.performEntry_over hwin hnext hbudget))
  case read =>
    intro s core c op t df r satf d col nr zr held b hc hhead hb hsound
    exact (exec_matrixEntryPerform hc hhead).trans (congrArg (fun w : State => Host.Outcome.next (w.entryDone op))
      (State.readAcc_sound (c := c.popMx) (State.core?_popMx hc) hb hsound))
  case registers =>
    intro s core c op t sf col add vals held b hc hhead hb hspread
    have hwork : (s.modCore core CoreSt.popMx).writeAcc core t sf col add vals = (List.range (vals.length * 32 / sf.width)).foldl
        (fun s e => s.modCore core fun c => c.putAcc t.lane (b.accCol (b.kOf t) (col + e)) add
          (sf.value (elem sf.width e (packElems 32 (vals.map (·.toNat)))))) (s.modCore core CoreSt.popMx) := by
      unfold State.writeAcc
      rw [show (s.modCore core CoreSt.popMx).band? t.band = some b from hb]
    obtain ⟨c1, hw, hc1, hmx, hcells, hrest⟩ := State.putAccs_spec (State.core?_popMx hc) (fun _ => t.lane)
      (fun e => b.accCol (b.kOf t) (col + e)) add _ (Band.Spread.nodup_rowKeys hspread t.lane) hwork
    exact ⟨_, _, c1, exec_matrixEntryPerform hc hhead, rfl, hw, hc1, hmx, fun e he => hcells e (List.mem_range.mpr he),
      fun k hk => hrest k fun e he => hk e (List.mem_range.mp he)⟩
  case tile =>
    intro s core c op t en data col row0 add held b hc hhead hb hspread
    have hwork : (s.modCore core CoreSt.popMx).writeAccTile core t en data col row0 add =
        (List.product (List.range en.depth) (List.range 96)).foldl (fun s p => s.modCore core fun c =>
          c.putAcc (row0 + p.1) (b.accCol (b.kOf t) (col + p.2)) add
            (let sb := tileScale en data p.2 (p.1 / blockLen en.af)
             if sb = 0xFF then Val.nan else (tileElem en data p.2 p.1).scale ((sb : Int) - 127))) (s.modCore core CoreSt.popMx) := by
      unfold State.writeAccTile List.product
      rw [show (s.modCore core CoreSt.popMx).band? t.band = some b from hb, List.foldl_flatMap]
      simp only [List.foldl_map]
    obtain ⟨c1, hw, hc1, hmx, hcells, hrest⟩ := State.putAccs_spec (State.core?_popMx hc) (fun p : Nat × Nat => row0 + p.1)
      (fun p => b.accCol (b.kOf t) (col + p.2)) add _ (Band.Spread.nodup_keys hspread en.depth row0) hwork
    exact ⟨_, _, c1, exec_matrixEntryPerform hc hhead, rfl, hw, hc1, hmx, fun k n hk hn => hcells (k, n) (mem_cells.mpr ⟨hk, hn⟩),
      fun j hj => hrest j fun p hp => hj _ _ (mem_cells.mp hp).1 (mem_cells.mp hp).2⟩
  case window =>
    intro s core c hc hdue hnext
    have hexec : exec (.governorWindow core) s = .next (s.modCore core fun c => c.windows s.clock) := by
      change execGovernorWindow core s = _
      simp only [execGovernorWindow, hc, CoreSt.windowDue, hdue, decide_true, if_true]
    have hid : ∀ x : CoreSt, (x.windows s.clock).id = x.id := fun x => by
      unfold CoreSt.windows
      split <;> rfl
    refine ⟨_, hexec, rfl, ?_, fun d hd => State.core?_modCore_ne s hd hid⟩
    rw [State.core?_modCore_self hc hid, CoreSt.windows_of_one hdue hnext]
    rfl

end Sys2Proof.Machine

/-! # CSET, MMA, ACCRD and ACCWR issue (O38)

A convergence register reads back as it is set. MMA's body signs the round, counts it from the first signature and issues it with the last; ACCRD
and ACCWR count an operation and queue it. -/

namespace Sys2Proof.Machine

/-! ### Convergence registers -/

section Registers

variable {s : State} {b : Nat} {y : Band}

theorem State.conv_of_band (hb : s.band? b = some y) (c : CReg) : s.conv b c = (y.conv[c.val]?).getD Conv.none := by
  simp only [State.conv, hb, Option.bind_some]

theorem State.band?_setConv (hb : s.band? b = some y) (c : CReg) (x : Conv) :
    (s.setConv b c x).band? b = some { y with conv := modAt y.conv c.val fun _ => x } := by
  rw [State.setConv, State.band?_modBand_self s b _ (by exact fun _ => rfl), hb]
  rfl

theorem State.conv_setConv_self (hb : s.band? b = some y) {c : CReg} (hc : c.val < y.conv.length) (x : Conv) :
    (s.setConv b c x).conv b c = x := by
  rw [State.conv_of_band (State.band?_setConv hb c x), getElem?_modAt, if_pos rfl, List.getElem?_eq_getElem hc]
  rfl

theorem State.conv_setConv_ne (hb : s.band? b = some y) {c d : CReg} (hd : d ≠ c) (x : Conv) : (s.setConv b c x).conv b d = s.conv b d := by
  rw [State.conv_of_band (State.band?_setConv hb c x), State.conv_of_band hb, getElem?_modAt, if_neg fun h => hd (Fin.ext h)]

/-- A register with members is one of a band there is. -/
theorem State.exists_conv_of_members {c : CReg} (h : (s.conv b c).members ≠ 0) : ∃ y, s.band? b = some y ∧ c.val < y.conv.length := by
  cases hb : s.band? b with
  | none => simp [State.conv, hb, Conv.none] at h
  | some y =>
    refine ⟨y, rfl, Decidable.byContradiction fun hlen => h ?_⟩
    rw [State.conv_of_band hb, List.getElem?_eq_none (by omega)]
    rfl

end Registers

/-! ### CSET (R231) -/

/-- What CSET touches: the notes of the clock. -/
def Touch.noted : Touch :=
  { rest := fun s u => { s with bands := u.bands, slots := u.slots, bundles := u.bundles, now := { s.now with csets := u.now.csets } } }

theorem Touch.noted_fits : Touch.noted.Fits :=
  ⟨fun _ => rfl, fun s u w h k => by have h1 := h; have h2 := k; rw [h1] at h2; exact h2, fun s u h => by rw [h]; rfl⟩

theorem completes_cset (m : Mods) (d : CReg) (a : MReg) : Completes (.cset m d a) m [] [] (fun _ _ _ _ => True)
    (fun b _ w t => (w.noteCset t b.pc b.npc d (w.maskBefore t a), .next)) fun _ => Touch.noted := by
  apply completes_plain fun b _ w t => (w.noteCset t b.pc b.npc d (w.maskBefore t a), .next)
  case hi =>
    intro s b hb
    change execCset m d a s = _
    rw [execCset, curBundle_of s b hb]
    rfl
  case hok => exact fun _ _ _ _ _ => ⟨rfl, rfl⟩
  case hx => exact fun _ => Touch.noted_fits
  case hrel => exact fun _ _ hr => hr
  case heff => exact fun _ _ _ _ _ => Kept.of_rest rfl rfl rfl rfl rfl rfl

theorem State.applyCset_of_signed {s : State} {n : CsetNote} {t : Tid} {mask : BitVec 64} (hn : n.tids = [(t, mask)])
    (h : (s.conv t.band n.c).signed ≠ 0) : s.applyCset n = s.raiseAll n.pc n.npc 0 [⟨t, 0x01, 0x23, 0⟩] := by
  simp only [State.applyCset, hn, List.foldl_cons, List.foldl_nil, if_pos h]
  rfl

theorem State.applyCset_of_unsigned {s : State} {n : CsetNote} {t : Tid} {mask : BitVec 64} (hn : n.tids = [(t, mask)])
    (h : (s.conv t.band n.c).signed = 0) : s.applyCset n = s.setMembers t n.c mask := by
  simp only [State.applyCset, hn, List.foldl_cons, List.foldl_nil, h]
  rfl

/-! ### Matrix entries -/

/-- What an instruction of the matrix engine touches: operations, flags and its core's matrix queue. -/
def Touch.matrix (regs : List VReg) (flags : List Nat) (band : Band → Band) : Touch :=
  { regs := regs, flags := flags, band := band, core := fun c => { c with mx := [] }, rest := fun s u =>
    { s with bands := u.bands, slots := u.slots, bundles := u.bundles, ops := u.ops, fresh := u.fresh, holds := u.holds, cores := u.cores } }

section Frames

variable {regs : List VReg} {flags : List Nat} {band : Band → Band}

theorem Touch.matrix_fits : (Touch.matrix regs flags band).Fits :=
  ⟨fun _ => rfl, fun s u w h k => by have h1 := h; have h2 := k; rw [h1] at h2; exact h2, fun s u h => by rw [h]; rfl⟩

theorem Kept.startedMatrix (w : State) (t : Tid) (pc : Pc) :
    Kept (Touch.matrix regs flags band) w (w.started t pc .matrix [] 0 .matrix) := Kept.of_rest rfl rfl rfl rfl rfl rfl

theorem Kept.entry (w : State) (core : Nat) (e : MxEntry) :
    Kept (Touch.matrix regs flags band) w (w.modCore core fun c => { c with mx := c.mx ++ [e] }) :=
  Kept.of_rest rfl rfl rfl (map_modIf _ _ _ _ fun _ => rfl) rfl rfl

theorem Kept.setFlagMatrix (w : State) (t : Tid) (fl ow : Nat) (src : Bool) (h : fl < 12 → fl ∈ flags) :
    Kept (Touch.matrix regs flags band) w (w.setFlag t fl ow src) :=
  Kept.setFlag Touch.matrix_fits w t fl ow src h fun s u h => by rw [h]; rfl

/-- A lane of a register is released. -/
theorem Kept.releaseLane {x : Touch} (hx : x.Fits) (s : State) (b t : Nat) {r : VReg} (hr : r ∈ x.regs) (l : Nat) :
    Kept x s (s.modTroop b t fun y => y.releaseName r l) := by
  refine Kept.of_shape hx (SameShape.of_modTroop s b t _ fun y => y.releaseName_bare r l) ?idle ?flags ?lanes (fun _ _ _ _ _ => rfl) ?preds
  case idle => exact State.idle_modTroop s b t _ (fun b => b) fun y => Troop.idle_releaseName y r l
  case flags =>
    intro u
    rw [State.thread?_modTroop s b t _ fun y => y.releaseName_threads r l]
  case lanes =>
    intro c u k q hq
    exact State.troopLane_modTroop s b t _ c u k q fun y _ _ => y.lane_releaseName r q l k fun h => hq (h ▸ hr)
  case preds => exact fun u p _ => State.readP_modTroop s b t _ (fun y => y.releaseName_threads r l) u p

/-- The last-reads of the signers. -/
theorem Kept.releaseSigners {x : Touch} (hx : x.Fits) (b t : Nat) (sigs : List (Nat × List VReg)) (h : ∀ g ∈ sigs, ∀ r ∈ g.2, r ∈ x.regs)
    (s : State) :
    Kept x s (sigs.foldl (fun s g => g.2.foldl (fun s r => s.modTroop b t fun y => y.releaseName r g.1) s) s) :=
  List.foldlRecOn (motive := Kept x s) sigs _ (Kept.refl hx s) fun _ hu g hg =>
    List.foldlRecOn (motive := Kept x s) g.2 _ hu fun w hw r hr => hw.trans hx (Kept.releaseLane hx w b t (h g hg r hr) g.1)

end Frames

/-- An entry joins its core's matrix queue, counted (R239, R240). -/
def State.queued (w : State) (t : Tid) (pc : Pc) (k : MxWork) : State :=
  (w.started t pc .matrix [] 0 .matrix).modCore (w.coreOf t) fun c => { c with mx := c.mx ++ [⟨w.fresh, k, false⟩] }

theorem Kept.queued {regs : List VReg} {flags : List Nat} {band : Band → Band} (w : State) (t : Tid) (pc : Pc) (k : MxWork) :
    Kept (Touch.matrix regs flags band) w (w.queued t pc k) :=
  (Kept.startedMatrix w t pc).trans Touch.matrix_fits (Kept.entry _ _ _)

/-- The columns that an instruction names lie inside the band's (R238). -/
def State.FitsCols (w : State) (t : Tid) (col : BitVec 12) (n : Nat) : Prop := ∀ x, w.band? t.band = some x → col.toNat + n ≤ x.fp.acc

theorem State.badCols_eq_false {w : State} {t : Tid} {col : BitVec 12} {n : Nat} {x : Band} (hx : w.band? t.band = some x)
    (h : w.FitsCols t col n) : w.badCols t col.toNat n = false := by
  have := h x hx
  simp only [State.badCols, hx, Option.map_some, Option.getD_some, decide_eq_false_iff_not]
  omega

theorem State.counterFull_eq_false {w : State} {t : Tid} {c : OpClass} (h : w.countOf t.band t.troop c < 255) : w.counterFull t c = false :=
  decide_eq_false (Nat.not_le.mpr h)

/-! ### ACCRD and ACCWR (R241, R242) -/

theorem completes_accrd (m : Mods) (df : Fmt) (r : Rnd) (satf : Bool) (d : VReg) (col : BitVec 12) (nr : RegCount) (zr : Bool) :
    Completes (.accrd m df r satf d col nr zr) m [] []
      (fun _ _ w t => w.FitsCols t col (accElems df nr) ∧ (∃ x, w.band? t.band = some x) ∧ w.countOf t.band t.troop .matrix < 255 ∧
        w.alloc t.band t.troop (w.needs t (regGroup d nr.n)).eraseDups.length = .ok)
      (fun b _ w t => (((w.reserve t (regGroup d nr.n)).queued t b.pc (.read t df r satf d col.toNat nr.n zr)).setFlag t b.seta
        (w.reserve t (regGroup d nr.n)).fresh false, .next))
      fun b => Touch.matrix (regGroup d nr.n) [b.seta] fun x => x := by
  apply completes_plain
  case hi =>
    intro s b hb
    change execAccrd m df r satf d col nr zr s = _
    rw [execAccrd, curBundle_of s b hb]
    rfl
  case hok =>
    intro b v w t ⟨hcols, ⟨x, hx⟩, hcount, halloc⟩
    simp only [State.badCols_eq_false hx hcols, State.counterFull_eq_false hcount, State.take_ok w t _ halloc, Bool.false_eq_true, if_false]
    exact ⟨rfl, rfl⟩
  case hx => exact fun _ => Touch.matrix_fits
  case hrel => exact fun _ _ hr => absurd hr List.not_mem_nil
  case heff =>
    intro b v w t _
    exact ((Kept.reserve Touch.matrix_fits w t _).trans Touch.matrix_fits (Kept.queued _ t b.pc _)).trans Touch.matrix_fits
      (Kept.setFlagMatrix _ t _ _ _ fun _ => List.mem_cons_self)

theorem completes_accwrReg (m : Mods) (sf : Fmt) (a : VReg) (col : BitVec 12) (nr : RegCount) (add : Bool) :
    Completes (.accwrReg m sf a col nr add) m (regGroup a nr.n) (lastReads m (regGroup a nr.n) [])
      (fun _ _ w t => w.FitsCols t col (accElems sf nr) ∧ (∃ x, w.band? t.band = some x) ∧ w.countOf t.band t.troop .matrix < 255)
      (fun b v w t => (w.queued t b.pc (.writeReg t sf col.toNat add ((regGroup a nr.n).map (v.srcA m t))), .next))
      fun _ => Touch.matrix (lastReads m (regGroup a nr.n) []) [] fun x => x := by
  apply completes_plain
  case hi =>
    intro s b hb
    change execAccwrReg m sf a col nr add s = _
    rw [execAccwrReg, curBundle_of s b hb]
  case hok =>
    intro b v w t ⟨hcols, ⟨x, hx⟩, hcount⟩
    simp only [State.badCols_eq_false hx hcols, State.counterFull_eq_false hcount, Bool.false_eq_true, if_false]
    exact ⟨rfl, rfl⟩
  case hx => exact fun _ => Touch.matrix_fits
  case hrel => exact fun _ _ hr => hr
  case heff => exact fun b _ w t _ => Kept.queued w t b.pc _

theorem State.exists_band_of_tileAt {w : State} {t : Tid} {i : Nat} {x : TileAt} (h : w.tileAt t i = some x) :
    ∃ y, w.band? t.band = some y := by
  unfold State.tileAt at h
  cases hy : w.band? t.band with
  | none => simp [hy] at h
  | some y => exact ⟨y, rfl⟩

theorem completes_accwrTile (m : Mods) (tile : Fin 512) (col : BitVec 12) (row0 : Fin 64) (add : Bool) :
    Completes (.accwrTile m tile col row0 add) m [] []
      (fun _ _ w t => w.FitsCols t col 96 ∧ w.countOf t.band t.troop .matrix < 255 ∧ ∃ x, w.tileAt t tile.val = some x ∧
        x.entry.state = .ready ∧ row0.val + x.entry.depth ≤ 64 ∧ w.tileSick x.core x.phys x.entry = false)
      (fun b _ w t => match w.tileAt t tile.val with
        | some x => (w.queued t b.pc (.writeTile t x.entry (w.tileData x.core x.phys) col.toNat row0.val add), .next)
        | none => (w, .next))
      fun _ => Touch.matrix [] [] fun x => x := by
  apply completes_plain
  case hi =>
    intro s b hb
    change execAccwrTile m tile col row0 add s = _
    rw [execAccwrTile, curBundle_of s b hb]
    rfl
  case hok =>
    intro b v w t ⟨hcols, hcount, x, hx, hready, hrows, hsick⟩
    obtain ⟨y, hy⟩ := State.exists_band_of_tileAt hx
    have hdepth : ¬64 < row0.val + x.entry.depth := by omega
    simp only [hx, hready, State.badCols_eq_false hy hcols, State.counterFull_eq_false hcount, hsick, if_neg hdepth, Bool.false_eq_true,
      if_false, ne_eq, not_true_eq_false]
    exact ⟨rfl, rfl⟩
  case hx => exact fun _ => Touch.matrix_fits
  case hrel => exact fun _ _ hr => hr
  case heff =>
    intro b v w t ⟨_, _, x, hx, _⟩
    simp only [hx]
    exact Kept.queued w t b.pc _

/-! ### MMA (R232 to R236) -/

/-- A convergence register that a lane has signed for a round with these words, counted as `op`. -/
def Conv.sign (c : Conv) (words : List Word) (op lane : Nat) (rel : List VReg) : Conv :=
  { c with words := words, rounds := true, op := if c.rounds then c.op else op, signed := setBit64 c.signed lane true,
           sigs := c.sigs ++ [(lane, rel)] }

/-- The state in which a thread's round is counted: from its first signature. -/
def State.countRound (w : State) (t : Tid) (pc : Pc) (ck : CReg) : State :=
  if (w.conv t.band ck).rounds then w else w.started t pc .matrix [] 0 .matrix

section Signing

variable {w : State} {t : Tid} {ck : CReg}

theorem Conv.sign_eq (c : Conv) (words : List Word) (op lane : Nat) (rel : List VReg) :
    (let c1 := if c.rounds then { c with words := words } else { c with words := words, rounds := true, op := op }
     { c1 with signed := setBit64 c1.signed lane true, sigs := c1.sigs ++ [(lane, rel)] }) = c.sign words op lane rel := by
  unfold Conv.sign
  cases h : c.rounds
  · rfl
  · simp

theorem State.conv_countRound (pc : Pc) : (w.countRound t pc ck).conv t.band ck = w.conv t.band ck := by
  unfold State.countRound
  split <;> rfl

theorem Kept.countRound {regs : List VReg} {flags : List Nat} {band : Band → Band} (pc : Pc) :
    Kept (Touch.matrix regs flags band) w (w.countRound t pc ck) := by
  unfold State.countRound
  split
  · exact Kept.refl Touch.matrix_fits w
  · exact Kept.startedMatrix w t pc

end Signing

/-- What MMA touches: last-reads, flags, its convergence register, its operation and its core's queue. -/
def Touch.mma (regs : List VReg) : Touch := Touch.matrix regs (List.range 12) fun x => { x with conv := [] }

section Rounds

variable {regs : List VReg}

theorem Kept.setConv (w : State) (b : Nat) (ck : CReg) (c : Conv) : Kept (Touch.mma regs) w (w.setConv b ck c) :=
  Kept.of_modBand Touch.matrix_fits w b _ (fun _ => rfl) (fun _ => rfl) fun _ => rfl

/-- A round that issues touches the flags, the last-reads of its signers, its register and the queue. -/
theorem Kept.issueRound (w v : State) (t : Tid) (ck : CReg) (m : Mods) (zi dec : Bool) (a : VReg) (x : TileAt) (col : BitVec 12) (ru : Bool)
    (hsigs : ∀ g ∈ (w.conv t.band ck).sigs, ∀ r ∈ g.2, r ∈ regs) :
    Kept (Touch.mma regs) w (w.issueRound v t ck m zi dec a x col ru) := by
  have hfits : (Touch.mma regs).Fits := Touch.matrix_fits
  have hflags : Kept (Touch.mma regs) w (w.clearFlags (w.conv t.band ck).op true) :=
    Kept.clearFlags w _ true (fun _ _ _ h => List.mem_range.mpr h) fun s u h => by rw [h]; rfl
  unfold State.issueRound
  refine Kept.trans hfits (Kept.trans hfits (Kept.trans hfits hflags ?_) (Kept.setConv _ t.band ck _)) (Kept.entry _ x.core _)
  split
  · exact Kept.refl hfits _
  · exact Kept.releaseSigners hfits t.band t.troop _ hsigs _

end Rounds

/-- The registers whose last use a signature of MMA is, LA and LC as the instruction has them (R232). -/
def mmaReleases (m : Mods) (a : VReg) : List VReg := lastReads3 m (regGroup a 8) [] (xmOrPlain m).creg.toList

/-- All registers that an MMA of these words may release. -/
def mmaRegs (m : Mods) (a : VReg) : List VReg :=
  lastReads3 { m with la := true } (regGroup a 8) [] (xmOrPlain m).creg.toList ++ (xmOrPlain m).creg.toList

theorem mmaReleases_subset (m : Mods) (a : VReg) : ∀ r ∈ mmaReleases m a, r ∈ mmaRegs m a := by
  intro r hr
  simp only [mmaReleases, lastReads3, lastReads, ite_self, List.append_nil, List.mem_append] at hr
  simp only [mmaRegs, lastReads3, lastReads, if_true, List.mem_append]
  obtain hr | hr := hr
  · split at hr
    · exact Or.inl (Or.inl (Or.inl hr))
    · exact absurd hr List.not_mem_nil
  · split at hr
    · exact Or.inr hr
    · exact absurd hr List.not_mem_nil

/-- The module has feature 1: the narrow formats (R352). -/
theorem lacks_one : lacks 1 = false := by decide

section Mma

variable (m : Mods) (zi dec : Bool) (a : VReg) (tile : Fin 512) (col : BitVec 12) (ck : CReg) (ru : Bool)

/-- The register as a thread's MMA leaves it. -/
def State.signedConv (w : State) (t : Tid) : Conv :=
  (w.conv t.band ck).sign (roundWords m fun m => .mma m zi dec a tile col ck ru) w.fresh t.lane (mmaReleases m a)

/-- The condition under which a thread's MMA signs, and its round issues if it is the last to sign (R232 to R236, R238). -/
def State.MaySign (pc : Pc) (w v : State) (t : Tid) : Prop :=
  let c := w.conv t.band ck
  let c2 := w.signedConv m zi dec a tile col ck ru t
  let w1 := w.countRound t pc ck
  c.members ≠ 0 ∧ t.troop = c.troop ∧ bit64 c.members t.lane = true ∧ bit64 c.signed t.lane = false ∧
    (c.signed ≠ 0 → c.words = roundWords m fun m => .mma m zi dec a tile col ck ru) ∧
    (c.rounds = false → w.countOf t.band t.troop .matrix < 255) ∧ (∀ g ∈ c.sigs, ∀ r ∈ g.2, r ∈ mmaRegs m a) ∧
    (c2.signed = c2.members → (∃ x, w1.roundCheck t tile col = .ok x) ∧
      (c2.latch = none → ∀ x, w1.roundCheck t tile col = .ok x →
        v.roundPoison t.band c2 x.entry.af a (xmOrPlain m).creg = false))

/-- What a thread's MMA then does. -/
def State.signRound (bu : Bundle) (w v : State) (t : Tid) : State × Flow :=
  let c2 := w.signedConv m zi dec a tile col ck ru t
  let w1 := w.countRound t bu.pc ck
  if c2.signed ≠ c2.members then ((w1.setConv t.band ck c2).setFlag t bu.setb c2.op true, .next)
  else match w1.roundCheck t tile col with
    | .ok x => ((w1.setConv t.band ck c2).issueRound v t ck m zi dec a x col ru, .next)
    | .error _ => (w, .next)

theorem State.signRound_ends (bu : Bundle) (v w : State) (t : Tid) : (w.signRound m zi dec a tile col ck ru bu v t).2.ends = true := by
  unfold State.signRound
  dsimp only
  split
  · rfl
  · split <;> rfl

theorem Kept.signRound {v w : State} {t : Tid} {bu : Bundle} (h : w.MaySign m zi dec a tile col ck ru bu.pc v t) :
    Kept (Touch.mma (mmaRegs m a)) w (w.signRound m zi dec a tile col ck ru bu v t).1 := by
  have hfits : (Touch.mma (mmaRegs m a)).Fits := Touch.matrix_fits
  obtain ⟨hmembers, -, -, -, -, -, hsigs, -⟩ := h
  have hset : Kept (Touch.mma (mmaRegs m a)) w ((w.countRound t bu.pc ck).setConv t.band ck (w.signedConv m zi dec a tile col ck ru t)) :=
    (Kept.countRound bu.pc).trans hfits (Kept.setConv _ t.band ck _)
  unfold State.signRound
  dsimp only
  split
  · exact hset.trans hfits (Kept.setFlagMatrix _ t _ _ _ fun hf => List.mem_range.mpr hf)
  · split
    · refine hset.trans hfits (Kept.issueRound _ v t ck m zi dec a _ col ru ?_)
      obtain ⟨y, hy, hlen⟩ := State.exists_conv_of_members (State.conv_countRound (t := t) (ck := ck) bu.pc ▸ hmembers)
      rw [State.conv_setConv_self hy hlen]
      intro g hg
      obtain hg | hg := List.mem_append.mp hg
      · exact hsigs g hg
      · rw [List.mem_singleton.mp hg]
        exact mmaReleases_subset m a
    · exact Kept.refl hfits w

theorem completes_mma : Completes (.mma m zi dec a tile col ck ru) m [] []
    (fun bu v w t => w.MaySign m zi dec a tile col ck ru bu.pc v t) (fun bu v w t => w.signRound m zi dec a tile col ck ru bu v t)
    fun _ => Touch.mma (mmaRegs m a) := by
  apply completes_plain
  case hi =>
    intro s b hb
    change execMma m zi dec a tile col ck ru s = _
    rw [execMma, curBundle_of s b hb]
    rfl
  case hok =>
    intro bu v w t ⟨hmembers, htroop, hlane, hunsigned, hwords, hcount, _, hlast⟩
    refine ⟨?_, State.signRound_ends m zi dec a tile col ck ru bu v w t⟩
    extract_lets c c1 s1 c2
    have hc2 : c2 = w.signedConv m zi dec a tile col ck ru t := Conv.sign_eq ..
    have hs1 : s1 = w.countRound t bu.pc ck := rfl
    have hmember : ¬(c.members = 0 || t.troop ≠ c.troop || !bit64 c.members t.lane) = true := by
      simpa [c, htroop, hlane] using hmembers
    have hsame : ¬(c.signed ≠ 0 && c.words ≠ roundWords m fun m => .mma m zi dec a tile col ck ru) = true := by
      simpa using hwords
    have hroom : ¬(!c.rounds && w.counterFull t .matrix) = true := by
      cases hr : c.rounds with
      | false => simp [State.counterFull_eq_false (hcount hr)]
      | true => simp
    rw [if_neg hmember, if_neg (ne_true_of_eq_false hunsigned), if_neg hsame, if_neg hroom, hc2, hs1]
    unfold State.signRound
    dsimp only
    split
    · rfl
    · next hdone =>
      obtain ⟨⟨x, hx⟩, hsound⟩ := hlast (not_not.mp hdone)
      have hpoison : ¬((w.signedConv m zi dec a tile col ck ru t).latch.isNone &&
          v.roundPoison t.band (w.signedConv m zi dec a tile col ck ru t) x.entry.af a (xmOrPlain m).creg) = true := by
        rw [Bool.and_eq_true_iff, Option.isNone_iff_eq_none]
        exact fun ⟨hlatch, hp⟩ => Bool.false_ne_true ((hsound hlatch x hx).symm.trans hp)
      simp only [hx, lacks_one, Bool.false_and, Bool.false_eq_true, if_false, if_neg hpoison]
  case hx => exact fun _ => Touch.matrix_fits
  case hrel => exact fun _ _ hr => absurd hr List.not_mem_nil
  case heff => exact fun bu v w t h => Kept.signRound m zi dec a tile col ck ru h

end Mma

/-- Settles O38: each instruction by its body; CSET at the end of the clock by the register it sets. -/
theorem matrixIssues : Obligations.MatrixIssues := by
  unfold Obligations.MatrixIssues
  refine ⟨completes_cset, ?applied, completes_mma, completes_accrd, completes_accwrReg, completes_accwrTile⟩
  intro s n t mask hn hband hlen
  obtain ⟨y, hy⟩ := Option.isSome_iff_exists.mp hband
  refine ⟨State.applyCset_of_signed hn, fun hsigned => ⟨_, State.applyCset_of_unsigned hn hsigned, ?_, ?_, rfl, ?_⟩⟩
  · exact State.conv_setConv_self hy (by rw [hlen y hy]; exact n.c.isLt) _
  · exact fun c hc => State.conv_setConv_ne hy hc _
  · exact map_modIf _ _ _ _ fun _ => rfl

end Sys2Proof.Machine

/-! # Collectives (O41)

A chunk that fails ends for all its participants: the operations of its inputs complete, one after the other, and each thread that is still there is
told. The other cases follow the chunk: its checks and header, its egress, its slot, the reduction and the delivery. -/

namespace Sys2Proof.Machine

/-! ### A failed chunk (R294) -/

/-- A fault record touches memory and its context. -/
theorem State.faultRecord_keeps (s : State) (asid : Nat) (words : List Word) : (s.faultRecord asid words).ops = s.ops ∧
    (s.faultRecord asid words).bands = s.bands ∧ (s.faultRecord asid words).chunks = s.chunks := by
  unfold State.faultRecord State.writeWords State.setHomeBytes
  split
  · exact ⟨rfl, rfl, rfl⟩
  · extract_lets lost
    split
    · exact ⟨rfl, rfl, rfl⟩
    · split
      · exact ⟨rfl, rfl, rfl⟩
      · split
        · exact ⟨rfl, rfl, rfl⟩
        · exact ⟨rfl, rfl, rfl⟩
        · split
          · exact ⟨rfl, rfl, rfl⟩
          · split <;> exact ⟨rfl, rfl, rfl⟩

/-- Before its participants a failed chunk's slot goes; no operation and no thread has changed then. -/
theorem State.exists_failChunk (s : State) (c : ChunkSlot) (kind hop modnum : Nat) : ∃ w : State,
    s.failChunk c kind hop modnum = c.inputs.foldl (fun w i => w.failInput (c.regs kind hop modnum) i.1) w ∧ w.ops = s.ops ∧
      w.bands = s.bands ∧ w.chunks = s.chunks.filter fun x => x.id != c.id := by
  refine ⟨_, rfl, ?_⟩
  have hops words : (s.faultRecord c.asid words).ops = s.ops := (s.faultRecord_keeps c.asid words).1
  have hbands words : (s.faultRecord c.asid words).bands = s.bands := (s.faultRecord_keeps c.asid words).2.1
  have hchunks words : (s.faultRecord c.asid words).chunks = s.chunks := (s.faultRecord_keeps c.asid words).2.2
  split <;> exact ⟨hops _, hbands _, congrArg (List.filter fun x : ChunkSlot => x.id != c.id) (hchunks _)⟩

section Inputs

variable (ck : List Word)

theorem State.failInput_of_none {w : State} {i : Nat} (h : w.op? i = none) : w.failInput ck i = w := by
  unfold State.failInput
  rw [h]

/-- A participant there is completes its operation; bands and slots stay. -/
theorem State.failInput_of_some {w : State} {i : Nat} {o : EngOp} (h : w.op? i = some o) : (w.failInput ck i).ops = (w.completeOp o).ops ∧
    (w.failInput ck i).bands = w.bands ∧ (w.failInput ck i).chunks = w.chunks := by
  unfold State.failInput
  rw [h]
  dsimp only
  split <;> exact ⟨rfl, rfl, rfl⟩

theorem State.failInput_bands (w : State) (i : Nat) : (w.failInput ck i).bands = w.bands := by
  cases h : w.op? i with
  | none => rw [State.failInput_of_none ck h]
  | some o => exact (State.failInput_of_some ck h).2.1

theorem State.failInput_chunks (w : State) (i : Nat) : (w.failInput ck i).chunks = w.chunks := by
  cases h : w.op? i with
  | none => rw [State.failInput_of_none ck h]
  | some o => exact (State.failInput_of_some ck h).2.2

theorem State.failInput_asyncs (w : State) (i : Nat) : ∀ a ∈ w.asyncs, a ∈ (w.failInput ck i).asyncs := by
  unfold State.failInput
  split
  · exact fun _ ha => ha
  · dsimp only
    split
    · exact fun _ ha => ha
    · exact fun _ ha => List.mem_append_left _ ha

theorem State.op?_eq_none {w : State} {i : Nat} (h : w.op? i = none) : ∀ x ∈ w.ops, x.id ≠ i := fun x hx hid =>
  List.find?_eq_none.mp h x hx (beq_iff_eq.mpr hid)

theorem State.id_of_op? {w : State} {i : Nat} {o : EngOp} (h : w.op? i = some o) : o.id = i :=
  beq_iff_eq.mp (List.find?_some (p := fun x : EngOp => x.id == i) h)

theorem State.op?_of_mem {w : State} {o : EngOp} (hnd : (w.ops.map (·.id)).Nodup) (ho : o ∈ w.ops) : w.op? o.id = some o := by
  cases h : w.op? o.id with
  | none => exact absurd rfl (State.op?_eq_none h o ho)
  | some x => rw [List.inj_on_of_nodup_map hnd (List.mem_of_find?_eq_some h) ho (State.id_of_op? h)]

/-- Every operation under a number is complete. -/
def State.AllComplete (i : Nat) (w : State) : Prop := ∀ x ∈ w.ops, x.id = i → x.state = .complete

theorem State.AllComplete.failInput {i : Nat} {w : State} (h : w.AllComplete i) (j : Nat) : (w.failInput ck j).AllComplete i := by
  intro x hx hid
  cases hj : w.op? j with
  | none => exact h x (by rwa [State.failInput_of_none ck hj] at hx) hid
  | some o =>
    rw [(State.failInput_of_some ck hj).1] at hx
    obtain ⟨y, hy, rfl⟩ := State.mem_markedOps.mp (State.mem_markedOps_of_mem_completeOp hx)
    split at hid
    · next he => rw [if_pos he]
    · next he =>
      rw [if_neg he]
      exact h y hy hid

theorem State.allComplete_failInput (w : State) (i : Nat) : (w.failInput ck i).AllComplete i := by
  intro x hx hid
  cases hi : w.op? i with
  | none =>
    rw [State.failInput_of_none ck hi] at hx
    exact absurd hid (State.op?_eq_none hi x hx)
  | some o =>
    rw [(State.failInput_of_some ck hi).1] at hx
    exact State.complete_of_mem_markedOps (State.mem_markedOps_of_mem_completeOp hx) (hid.trans (State.id_of_op? hi).symm)

/-- The thread of an operation has been told of a failure. -/
def State.Told (o : EngOp) (w : State) : Prop :=
  ∃ a ∈ w.asyncs, a.tid = o.tid ∧ a.cause = 0x0F ∧ a.addr = BitVec.ofNat 57 o.work.collOff ∧ a.ck = ck

theorem State.Told.failInput {o : EngOp} {w : State} (h : w.Told ck o) (j : Nat) : (w.failInput ck j).Told ck o := by
  obtain ⟨a, ha, htold⟩ := h
  exact ⟨a, State.failInput_asyncs ck w j a ha, htold⟩

/-- An operation stands in a state: its number names it alone, and its thread has not exited. -/
structure State.Stands (o : EngOp) (w : State) : Prop where
  nodup : (w.ops.map (·.id)).Nodup
  mem : o ∈ w.ops
  live : w.statusOf o.tid ≠ .exited

theorem State.statusOf_of_bands {u w : State} (h : u.bands = w.bands) (t : Tid) : u.statusOf t = w.statusOf t := by
  simp only [State.statusOf, State.thread?, State.troop?, State.band?, h]

theorem State.Stands.told {o : EngOp} {w : State} (h : w.Stands o) : (w.failInput ck o.id).Told ck o := by
  have hlive : ¬(w.completeOp o).statusOf o.tid = .exited := h.live
  unfold State.failInput
  rw [State.op?_of_mem h.nodup h.mem]
  dsimp only
  rw [if_neg hlive]
  exact ⟨_, List.mem_append_right _ (List.mem_singleton.mpr rfl), rfl, rfl, rfl, rfl⟩

/-- What fails another input leaves an incomplete operation. -/
theorem State.Stands.failInput {o : EngOp} {w : State} (h : w.Stands o) (hstate : o.state ≠ .complete) {j : Nat} (hj : j ≠ o.id) :
    (w.failInput ck j).Stands o := by
  cases hx : w.op? j with
  | none => rwa [State.failInput_of_none ck hx]
  | some x =>
    obtain ⟨hops, hbands, -⟩ := State.failInput_of_some ck hx
    have hid : o.id ≠ x.id := fun he => hj (State.id_of_op? hx ▸ he.symm)
    refine ⟨?_, ?_, ?_⟩
    · have hmarked : ((w.markedOps x).map (·.id)).Nodup := by
        rw [State.markedOps, map_modIf _ _ _ _ (by exact fun _ => rfl)]
        exact h.nodup
      rw [hops, State.ops_completeOp]
      exact hmarked.sublist (List.filter_sublist.map _)
    · rw [hops]
      exact State.mem_completeOp_of_incomplete ((State.mem_markedOps_of_ne hid).mpr h.mem) hstate
    · rw [State.statusOf_of_bands hbands]
      exact h.live

/-- Each participant that has not exited is told once its input has failed. -/
theorem State.Stands.told_of_mem {o : EngOp} (hstate : o.state ≠ .complete) {is : List (Nat × Chunk)} (hi : ∃ i ∈ is, o.id = i.1) {w : State}
    (h : w.Stands o) : (is.foldl (fun w i => w.failInput ck i.1) w).Told ck o := by
  induction is generalizing w with
  | nil =>
    obtain ⟨i, hi, -⟩ := hi
    cases hi
  | cons j is ih =>
    rw [List.foldl_cons]
    by_cases hj : j.1 = o.id
    · rw [hj]
      exact foldl_keeps (P := State.Told ck o) (fun w i hw => hw.failInput ck i.1) is (h.told ck)
    · obtain ⟨i, hi, hid⟩ := hi
      obtain rfl | hi := List.mem_cons.mp hi
      · exact absurd hid.symm hj
      · exact ih ⟨i, hi, hid⟩ (h.failInput ck hstate hj)

end Inputs

/-- What a state is in which a chunk has failed: no slot, every participant's operation complete, every live participant told. -/
def State.Failed (s u : State) (c : ChunkSlot) (kind hop : Nat) : Prop :=
  u = s.failChunk c kind hop s.dev.modnum ∧ (∀ x ∈ u.chunks, x.id ≠ c.id) ∧
    ((s.ops.map (·.id)).Nodup → (∀ i ∈ c.inputs, ∀ o ∈ u.ops, o.id = i.1 → o.state = .complete) ∧
      ∀ i ∈ c.inputs, ∀ o ∈ s.ops, o.id = i.1 → o.state ≠ .complete → s.statusOf o.tid ≠ .exited →
        ∃ a ∈ u.asyncs, a.tid = o.tid ∧ a.cause = 0x0F ∧ a.addr = BitVec.ofNat 57 o.work.collOff ∧
          a.ck = [BitVec.ofNat 32 (c.coll + 2 ^ 16 * c.step + 2 ^ 24 * kind), BitVec.ofNat 32 (c.chunk + 2 ^ 24 * hop),
            BitVec.ofNat 32 s.dev.modnum])

theorem State.failed_failChunk (s : State) (c : ChunkSlot) (kind hop : Nat) :
    s.Failed (s.failChunk c kind hop s.dev.modnum) c kind hop := by
  obtain ⟨w, hfail, hops, hbands, hchunks⟩ := s.exists_failChunk c kind hop s.dev.modnum
  refine ⟨rfl, fun x hx => ?gone, fun hnd => ⟨fun i hi o ho hid => ?complete, fun i hi o ho hid hstate hlive => ?told⟩⟩
  case gone =>
    have hkept : (s.failChunk c kind hop s.dev.modnum).chunks = w.chunks := by
      rw [hfail]
      exact foldl_keeps (P := fun u : State => u.chunks = w.chunks) (fun u i hu => (State.failInput_chunks _ u i.1).trans hu) c.inputs rfl
    rw [hkept, hchunks] at hx
    exact bne_iff_ne.mp (List.mem_filter.mp hx).2
  case complete =>
    have hall : (s.failChunk c kind hop s.dev.modnum).AllComplete i.1 := by
      rw [hfail]
      exact foldl_of_mem (P := State.AllComplete i.1) (fun u j hu => hu.failInput _ j.1) hi (fun u => State.allComplete_failInput _ u i.1) w
    exact hall o ho hid
  case told =>
    have hstands : w.Stands o := ⟨by rwa [hops], by rwa [hops], by rwa [State.statusOf_of_bands hbands]⟩
    have htold := hstands.told_of_mem (c.regs kind hop s.dev.modnum) hstate ⟨i, hi, hid⟩
    rw [← hfail] at htold
    exact htold

/-! ### The transport check (R284) -/

/-- The sum as it is formed, reduced at each step, is the sum reduced at the end. -/
theorem foldr_transport (ws : List Nat) :
    ws.foldr (fun w acc => 3 * (w + acc) % transportMod) 0 =
      ((List.range ws.length).map fun i => (ws[i]?).getD 0 * 3 ^ (i + 1)).sum % transportMod := by
  induction ws with
  | nil => rfl
  | cons w ws ih =>
    have hshift : ((List.range ws.length).map fun i => ((w :: ws)[i + 1]?).getD 0 * 3 ^ (i + 1 + 1)) =
        ((List.range ws.length).map fun i => (ws[i]?).getD 0 * 3 ^ (i + 1)).map (3 * ·) := by
      simp only [List.map_map, List.getElem?_cons_succ]
      exact List.map_congr_left fun i _ => by simp only [Function.comp, pow_succ]; ring
    rw [List.foldr_cons, ih, List.length_cons, List.range_succ_eq_map, List.map_cons, List.map_map, List.sum_cons]
    change _ = ((w * 3 ^ 1) + ((List.range ws.length).map fun i => ((w :: ws)[i + 1]?).getD 0 * 3 ^ (i + 1 + 1)).sum) % transportMod
    rw [hshift, List.sum_map_mul_left, List.map_id']
    simp [Nat.mul_mod, Nat.add_mod, mul_add, mul_comm]

theorem transport_eq_sum (bs : List Byte) : transport bs =
    ((List.range (bs.length / 4)).map fun i => leNat ((bs.drop (4 * i)).take 4) * 3 ^ (i + 1)).sum % (2 ^ 61 - 1) := by
  have hwords : ∀ i < bs.length / 4, ((groupsOf 4 bs)[i]?).getD 0 = leNat ((bs.drop (4 * i)).take 4) := fun i hi => by
    simp [groupsOf, hi]
  have hlen : (groupsOf 4 bs).length = bs.length / 4 := by simp [groupsOf]
  rw [transport, foldr_transport, hlen]
  exact congrArg (fun l : List Nat => l.sum % transportMod)
    (List.map_congr_left fun i hi => by rw [hwords i (List.mem_range.mp hi)])

theorem transport_lt (bs : List Byte) : transport bs < transportMod := by
  rw [transport_eq_sum]
  exact Nat.mod_lt _ (by decide)

/-! ### The header (R283) -/

theorem toNat_append_eq {m n : Nat} (x : BitVec m) (y : BitVec n) : (x ++ y).toNat = x.toNat * 2 ^ n + y.toNat := by
  rw [BitVec.toNat_append, Nat.shiftLeft_eq, Nat.mul_comm, Nat.two_pow_add_eq_or_of_lt y.isLt]

/-- The header as a number: its fields at their places. -/
theorem toNat_header (c : Chunk) (ht : c.t < 2 ^ 64) (hopr : c.opr < 4) (hfmt : c.fmt < 32) (hhop : c.hop < 256) (hchunk : c.chunk < 2 ^ 24)
    (hstep : c.step < 256) (hcoll : c.coll < 2 ^ 16) : c.header.toNat =
      (BitVec.ofInt 128 c.w).toNat * 2 ^ 128 + c.t * 2 ^ 64 + c.wsat.toNat * 2 ^ 63 + c.opr * 2 ^ 61 + c.fmt * 2 ^ 56 + c.hop * 2 ^ 48 +
        c.chunk * 2 ^ 24 + c.step * 2 ^ 16 + c.coll := by
  have ofNat_toNat {w n : Nat} (h : n < 2 ^ w) : (BitVec.ofNat w n).toNat = n := by rw [BitVec.toNat_ofNat, Nat.mod_eq_of_lt h]
  unfold Chunk.header
  simp only [toNat_append_eq, BitVec.toNat_ofBool, ofNat_toNat ht, ofNat_toNat (w := 2) hopr, ofNat_toNat (w := 5) hfmt,
    ofNat_toNat (w := 8) hhop, ofNat_toNat hchunk, ofNat_toNat (w := 8) hstep, ofNat_toNat hcoll]
  omega

theorem ofHeader_header (c : Chunk) (ht : c.t < 2 ^ 64) (hlow : -2 ^ 127 ≤ c.w) (hhigh : c.w < 2 ^ 127) (hopr : c.opr < 4) (hfmt : c.fmt < 32)
    (hhop : c.hop < 256) (hchunk : c.chunk < 2 ^ 24) (hstep : c.step < 256) (hcoll : c.coll < 2 ^ 16) :
    Chunk.ofHeader c.header c.data = c := by
  have hn := toNat_header c ht hopr hfmt hhop hchunk hstep hcoll
  have hw := (BitVec.ofInt 128 c.w).isLt
  have hsat := Bool.toNat_lt c.wsat
  have hwit : c.header.extractLsb' 128 128 = BitVec.ofInt 128 c.w := by
    apply BitVec.eq_of_toNat_eq
    rw [extract_toNat, hn]
    omega
  have hflag : (fieldOf c.header.toNat 63 1 == 1) = c.wsat := by
    have : fieldOf c.header.toNat 63 1 = c.wsat.toNat := by
      rw [fieldOf, hn]
      omega
    rw [this]
    cases c.wsat <;> rfl
  have hint : (BitVec.ofInt 128 c.w).toInt = c.w := by
    rw [BitVec.toInt_ofInt]
    exact Int.bmod_eq_of_le (by omega) (by omega)
  have hfields : fieldOf c.header.toNat 64 64 = c.t ∧ fieldOf c.header.toNat 61 2 = c.opr ∧ fieldOf c.header.toNat 56 5 = c.fmt ∧
      fieldOf c.header.toNat 48 8 = c.hop ∧ fieldOf c.header.toNat 24 24 = c.chunk ∧ fieldOf c.header.toNat 16 8 = c.step ∧
      fieldOf c.header.toNat 0 16 = c.coll := by
    simp only [fieldOf, hn]
    omega
  obtain ⟨hT, hOpr, hFmt, hHop, hChunk, hStep, hColl⟩ := hfields
  unfold Chunk.ofHeader
  simp only [hwit, hflag, hint, hT, hOpr, hFmt, hHop, hChunk, hStep, hColl]

/-! ### A chunk with fresh checks (R285, R286) -/

theorem op?_collNum (opr : CollOp) : [CollOp.sum, .min, .max][collNum opr]? = some opr := by
  cases opr <;> rfl

theorem find?_collFmt (m : Fin 4) : (List.finRange 4).find? (fun f => (collFmt f).code == (collFmt m).code) = some m := by
  revert m
  decide

theorem op?_mkChunk (opr : CollOp) (f : Fmt) (hop : Nat) (i : ChunkId) (bs : List Byte) : (mkChunk opr f hop i bs).op? = some opr :=
  op?_collNum opr

theorem fmc?_mkChunk (opr : CollOp) (m : Fin 4) (hop : Nat) (i : ChunkId) (bs : List Byte) :
    (mkChunk opr (collFmt m) hop i bs).fmc? = some m := find?_collFmt m

theorem verifies_mkChunk (opr : CollOp) (m : Fin 4) (hop : Nat) (i : ChunkId) (bs : List Byte) :
    (mkChunk opr (collFmt m) hop i bs).verifies = true := by
  have ht : (mkChunk opr (collFmt m) hop i bs).t < transportMod := transport_lt bs
  have hsame : transport (mkChunk opr (collFmt m) hop i bs).data = (mkChunk opr (collFmt m) hop i bs).t := rfl
  simp only [Chunk.verifies, op?_mkChunk, fmc?_mkChunk, ht, hsame, decide_true, beq_self_eq_true, Option.isSome_some, Bool.and_self]

/-- A chunk that verifies names a reduction and a format. -/
theorem Chunk.exists_of_verifies {x : Chunk} (h : x.verifies = true) : ∃ opr m, x.op? = some opr ∧ x.fmc? = some m := by
  simp only [Chunk.verifies, Bool.and_eq_true] at h
  obtain ⟨⟨_, hop⟩, hfmt⟩ := h
  obtain ⟨opr, hop⟩ := Option.isSome_iff_exists.mp hop
  obtain ⟨m, hfmt⟩ := Option.isSome_iff_exists.mp hfmt
  exact ⟨opr, m, hop, hfmt⟩

/-! ### Egress (R286) -/

section Egress

variable {s : State} {o : EngOp} {src dst off len np coll step chunk : Nat} {cross : Bool} {opr : CollOp} {m : Fin 4}

theorem State.egress_of_read (hw : o.work = .coll src dst off len cross opr m np coll step chunk) (hnew : o.egress = none)
    (hsent : o.sent = false) (hready : s.opReady o = true) {s1 : State} {bs : List Byte}
    (hread : s.engRead o ⟨false, src⟩ len = (s1, .ok bs)) :
    s.egress o = s1.modOp o.id fun y =>
      { y with egress := some (mkChunk opr (collFmt m) (dieOf o.core) ⟨o.asid, coll, step, chunk⟩ bs) } := by
  unfold State.egress
  rw [hw]
  simp only [hnew, hsent, hready, hread, Option.isSome_none, Bool.not_true, Bool.or_self, Bool.false_eq_true, if_false]

end Egress

/-! ### An input arrives (R286, R290, R292) -/

/-- The operations after one's chunk has reached the reducer. -/
def State.sentOps (s : State) (o : EngOp) : List EngOp := modIf (·.id == o.id) (fun y => { y with egress := none, sent := true }) s.ops

section Arrival

variable {s : State} {o : EngOp} {c : ChunkSlot} {x : Chunk} {out : Option (List Byte)}

/-- A chunk slot with one more input. -/
def ChunkSlot.joined (c : ChunkSlot) (o : EngOp) (x : Chunk) : ChunkSlot := { c with inputs := c.inputs ++ [(o.id, x)] }

theorem State.joinSlot_of_sound (hbad : inputBad c o x = none) : s.joinSlot c o x out =
    (let s1 : State := { s with ops := s.sentOps o }
     if c.np ≤ c.inputs.length then s1.failChunk (c.joined o x) 4 8 s1.dev.modnum
     else if (c.joined o x).inputs.length < c.np then s1.setSlot (c.joined o x)
     else s1.gathered (c.joined o x) out) := by
  unfold State.joinSlot
  rw [hbad, Option.map_none, Option.or_none]
  rfl

theorem exec_collInputArrive (ho : s.op? o.id = some o) (hcoll : o.work.isColl = true) :
    exec (.collInputArrive o.id none out) s = .next (s.arriveInput o none out) := by
  change execCollInputArrive o.id none out s = _
  simp only [execCollInputArrive, ho, hcoll, if_true]

/-- An input that its slot waits for (R286, R292). -/
def State.Arrives (s : State) (o : EngOp) (c : ChunkSlot) (x : Chunk) : Prop :=
  s.op? o.id = some o ∧ o.state = .running ∧ o.egress = some x ∧ x.verifies = true ∧
    s.chunks.find? (fun k => k.ident == ⟨o.asid, x.coll, x.step, x.chunk⟩) = some c ∧ s.overdue c = false ∧
    ∃ src dst off fmc cl st ch, o.work = .coll src dst off c.len c.cross c.opr fmc c.np cl st ch ∧ x.data.length = c.len ∧
      x.op? = some c.opr ∧ x.fmc? = some c.fmc

theorem State.Arrives.exec_eq (h : s.Arrives o c x) : exec (.collInputArrive o.id none out) s = .next
    (let s1 : State := { s with ops := s.sentOps o }
     if c.np ≤ c.inputs.length then s1.failChunk (c.joined o x) 4 8 s1.dev.modnum
     else if (c.joined o x).inputs.length < c.np then s1.setSlot (c.joined o x)
     else s1.gathered (c.joined o x) out) := by
  obtain ⟨ho, hrun, hegress, hver, hfind, hdue, src, dst, off, fmc, cl, st, ch, hw, hlen, hop, hfmt⟩ := h
  have hbad : inputBad c o x = none := by
    simp only [inputBad, hw, hver, hlen, hop, hfmt]
    simp
  rw [exec_collInputArrive ho (by rw [hw]; rfl), ← State.joinSlot_of_sound hbad]
  simp only [State.arriveInput, hw, hegress, hrun, Option.map_none, Option.getD_none, hfind, hdue, ne_eq, not_true_eq_false,
    Bool.false_eq_true, if_false]

/-- An input before the last: the slot waits on. -/
theorem State.Arrives.waits (h : s.Arrives o c x) (hn : c.inputs.length + 1 < c.np) :
    exec (.collInputArrive o.id none out) s = .next (({ s with ops := s.sentOps o } : State).setSlot (c.joined o x)) := by
  have hlen : (c.joined o x).inputs.length = c.inputs.length + 1 := List.length_append
  rw [h.exec_eq, if_neg (by omega), if_pos (by omega)]

theorem State.Arrives.gathers (h : s.Arrives o c x) (hn : c.inputs.length + 1 = c.np) :
    exec (.collInputArrive o.id none out) s = .next (({ s with ops := s.sentOps o } : State).gathered (c.joined o x) out) := by
  have hlen : (c.joined o x).inputs.length = c.inputs.length + 1 := List.length_append
  rw [h.exec_eq, if_neg (by omega), if_neg (by omega)]

theorem State.Arrives.tooMany (h : s.Arrives o c x) (hn : c.np ≤ c.inputs.length) :
    exec (.collInputArrive o.id none out) s =
      .next (({ s with ops := s.sentOps o } : State).failChunk (c.joined o x) 4 8 s.dev.modnum) := by
  rw [h.exec_eq, if_pos hn]

/-- The slot that the first input of a chunk takes. -/
def State.firstSlot (s : State) (o : EngOp) (np : Nat) (cross : Bool) (opr : CollOp) (m : Fin 4) (x : Chunk) : ChunkSlot :=
  (s.newSlot o ⟨o.asid, x.coll, x.step, x.chunk⟩ np cross opr m x).joined o x

/-- A new slot, replaced at once. -/
theorem modIf_new_slot {ks : List ChunkSlot} {n : Nat} (h : ∀ k ∈ ks, k.id < n) (c d : ChunkSlot) (hc : c.id = n) :
    modIf (fun k => k.id == n) (fun _ => d) (ks ++ [c]) = ks ++ [d] := by
  have hold : ks.map (fun k => if k.id == n then d else k) = ks := by
    calc ks.map (fun k => if k.id == n then d else k) = ks.map id := List.map_congr_left fun k hk =>
          if_neg fun he => Nat.ne_of_lt (h k hk) (beq_iff_eq.mp he)
      _ = ks := List.map_id ks
  simp only [modIf, List.map_append, hold, List.map_cons, List.map_nil, hc, beq_self_eq_true, if_true]

theorem State.exec_firstInput {src dst off len np coll step chunk : Nat} {cross : Bool} {opr : CollOp} {m : Fin 4}
    (ho : s.op? o.id = some o) (hrun : o.state = .running) (hw : o.work = .coll src dst off len cross opr m np coll step chunk)
    (hegress : o.egress = some x) (hver : x.verifies = true) (hnp : 2 ≤ np)
    (hfind : s.chunks.find? (fun k => k.ident == ⟨o.asid, x.coll, x.step, x.chunk⟩) = none) (hroom : s.chunks.length < 256)
    (hids : ∀ k ∈ s.chunks, k.id < s.fresh) :
    exec (.collInputArrive o.id none none) s = .next { s with
      chunks := s.chunks ++ [s.firstSlot o np cross opr m x], fresh := s.fresh + 1, ops := s.sentOps o } := by
  obtain ⟨opr', m', hop, hfmt⟩ := Chunk.exists_of_verifies hver
  have hbad : inputBad (s.newSlot o ⟨o.asid, x.coll, x.step, x.chunk⟩ np cross opr m x) o x = none := by
    simp only [inputBad, hw, State.newSlot, hver, hop, hfmt]
    simp
  have hfull : ¬256 ≤ s.chunks.length := by omega
  have harrive : s.arriveInput o none none = State.joinSlot { s with
      chunks := s.chunks ++ [s.newSlot o ⟨o.asid, x.coll, x.step, x.chunk⟩ np cross opr m x]
      fresh := s.fresh + 1 } (s.newSlot o ⟨o.asid, x.coll, x.step, x.chunk⟩ np cross opr m x) o x none := by
    simp only [State.arriveInput, hw, hegress, hrun, Option.map_none, Option.getD_none, hfind, if_neg hfull, ne_eq, not_true_eq_false,
      if_false]
  have hnone : ¬np ≤ 0 := by omega
  have hwaits : 1 < np := by omega
  rw [exec_collInputArrive ho (by rw [hw]; rfl), harrive, State.joinSlot_of_sound hbad]
  refine congrArg Host.Outcome.next ((if_neg hnone).trans ((if_pos hwaits).trans ?_))
  exact congrArg (fun ks => { s with chunks := ks, fresh := s.fresh + 1, ops := s.sentOps o })
    (modIf_new_slot hids (s.newSlot o ⟨o.asid, x.coll, x.step, x.chunk⟩ np cross opr m x) (s.firstSlot o np cross opr m x) rfl)

/-! ### The reduction (R286, R290) -/

section Gathered

variable {a y : Chunk} {r : List Chunk}

/-- The inputs of a chunk that has not failed are reduced. -/
theorem State.gathered_eq (hf : c.failed = none) (hi : c.inputs.map (·.2) = a :: r) {ok : Bool}
    (hr : reduceAll c.opr (collFmt c.fmc) out a r = (y, ok)) : s.gathered c out =
      if !ok then s.failChunk c 3 8 s.dev.modnum
      else if c.cross && !s.inGroup c.asid then s.failChunk c 6 (peerHop s.dev.modnum) s.dev.modnum
      else
        let s1 := s.setSlot { c with acc := some y }
        if c.cross then (s1.tellPeers c c.peers (.partialResult y.header y.data)).openMail c.ident else s1 := by
  unfold State.gathered
  split
  · next hfailed =>
    rw [hf] at hfailed
    cases hfailed
  · next hnil =>
    rw [hi] at hnil
    cases hnil
  · next hcons =>
    rw [hi] at hcons
    obtain ⟨rfl, rfl⟩ := List.cons.inj hcons
    rw [hr]

theorem State.gathered_of_check (hf : c.failed = none) (hi : c.inputs.map (·.2) = a :: r)
    (hr : reduceAll c.opr (collFmt c.fmc) out a r = (y, false)) : s.gathered c out = s.failChunk c 3 8 s.dev.modnum := by
  rw [State.gathered_eq hf hi hr]
  rfl

theorem State.gathered_of_local (hf : c.failed = none) (hi : c.inputs.map (·.2) = a :: r)
    (hr : reduceAll c.opr (collFmt c.fmc) out a r = (y, true)) (hc : c.cross = false) :
    s.gathered c out = s.setSlot { c with acc := some y } := by
  have hgroup : ¬(c.cross && !s.inGroup c.asid) = true := by simp [hc]
  rw [State.gathered_eq hf hi hr, if_neg (by decide), if_neg hgroup]
  exact if_neg (ne_true_of_eq_false hc)

/-- Across modules the partial goes to the others; nothing that they said before is waiting. -/
theorem State.gathered_of_cross (hf : c.failed = none) (hi : c.inputs.map (·.2) = a :: r)
    (hr : reduceAll c.opr (collFmt c.fmc) out a r = (y, true)) (hc : c.cross = true) (hg : s.inGroup c.asid = true)
    (hnone : s.mail.filter (fun m => m.chunk == c.ident) = []) (hall : s.mail.filter (fun m => m.chunk != c.ident) = s.mail) :
    s.gathered c out = { s.setSlot { c with acc := some y } with
      outbox := s.outbox ++ c.peers.map fun g => .coll g c.asid (.partialResult y.header y.data) } := by
  have hgroup : ¬(c.cross && !s.inGroup c.asid) = true := by simp [hg]
  have hmail : ((s.setSlot { c with acc := some y }).tellPeers c c.peers (.partialResult y.header y.data)).openMail c.ident =
      { s.setSlot { c with acc := some y } with
        mail := s.mail.filter fun m => m.chunk != c.ident
        outbox := s.outbox ++ c.peers.map fun g => .coll g c.asid (.partialResult y.header y.data) } := by
    unfold State.openMail
    rw [show ((s.setSlot { c with acc := some y }).tellPeers c c.peers (.partialResult y.header y.data)).mail.filter
      (fun m => m.chunk == c.ident) = [] from hnone]
    rfl
  rw [hall] at hmail
  rw [State.gathered_eq hf hi hr, if_neg (by decide), if_neg hgroup]
  exact (if_pos hc).trans hmail

end Gathered

end Arrival

/-! ### A partial of another module (R290) -/

theorem State.hear_partial {s : State} {i : ChunkId} {port : Fin 8} {modnum : Nat} {h : BitVec 256} {bs : List Byte} {out : Option (List Byte)}
    {c : ChunkSlot} {a : Chunk} (hstale : s.stale.contains (i, modnum) = false) (hfind : s.chunks.find? (fun k => k.ident == i) = some c)
    (hacc : c.acc = some a) (hpeer : c.peers.contains modnum = true) :
    s.hear ⟨i, port, modnum, .partialResult h bs, out⟩ = s.takePartial c a (Chunk.ofHeader h bs) port modnum out := by
  unfold State.hear
  dsimp only
  rw [if_neg (ne_true_of_eq_false hstale), hfind]
  dsimp only
  rw [hacc]
  exact if_pos hpeer

/-- What a partial comes to is a case of four (R290, R294). -/
theorem State.takePartial_cases (s : State) (c : ChunkSlot) (a x : Chunk) (port : Fin 8) (modnum : Nat) (out : Option (List Byte)) :
    (x.verifies = false → s.takePartial c a x port modnum out = s.failChunk c 1 (16 + port.val) s.dev.modnum) ∧
    (x.verifies = true →
      (¬(x.op? = some c.opr ∧ x.fmc? = some c.fmc ∧ x.data.length = c.len) →
        s.takePartial c a x port modnum out = s.failChunk c 4 8 s.dev.modnum) ∧
      (x.op? = some c.opr ∧ x.fmc? = some c.fmc ∧ x.data.length = c.len →
        (witnessOk c.opr (collFmt c.fmc) a x (reducePair c.opr (collFmt c.fmc) a x out) = false →
          s.takePartial c a x port modnum out = s.failChunk c 3 8 s.dev.modnum) ∧
        (witnessOk c.opr (collFmt c.fmc) a x (reducePair c.opr (collFmt c.fmc) a x out) = true →
          s.takePartial c a x port modnum out = s.setSlot
            { c with acc := some (reducePair c.opr (collFmt c.fmc) a x out), peers := c.peers.filter (· != modnum) }))) := by
  unfold State.takePartial
  dsimp only
  refine ⟨fun hver => if_pos (by rw [hver]; rfl), fun hver => ?_⟩
  rw [if_neg (by simp [hver])]
  refine ⟨fun hdiffers => if_pos ?_, fun ⟨hop, hfmt, hlen⟩ => ?_⟩
  · simp only [Bool.or_eq_true, decide_eq_true_eq]
    tauto
  · rw [if_neg (by simp [hop, hfmt, hlen])]
    exact ⟨fun hbad => if_pos (by rw [hbad]; rfl), fun hgood => if_neg (by simp [hgood])⟩

/-! ### Delivery (R291) -/

section Delivery

/-- A verified result written for one participant. -/
def State.deliverTo (data : List Byte) (w : State) (i : Nat) : State :=
  match w.op? i with
  | some o => if o.state = .skipped then w.completeOp o
    else match o.work with | .coll _ dst .. => (w.engWrite o ⟨false, dst⟩ data).1.completeOp o | _ => w
  | none => w

/-- A participant whose destination can be written, or whose COLL is skipped. -/
def State.CanDeliver (data : List Byte) (w : State) (i : Nat) : Prop :=
  ∃ o src dst off len cross opr m np coll step chunk, w.op? i = some o ∧ o.work = .coll src dst off len cross opr m np coll step chunk ∧
    (o.state = .skipped ∨ w.opReady o = true ∧ (w.engWrite o ⟨false, dst⟩ data).2 = none)

variable {data : List Byte}

theorem State.deliverInput_of_can {w : State} {i : Nat} (h : w.CanDeliver data i) : w.deliverInput i data = (w.deliverTo data i, none) := by
  obtain ⟨o, src, dst, off, len, cross, opr, m, np, coll, step, chunk, ho, hw, hcan⟩ := h
  have hend : ∀ u : State, u.endOp o = u.completeOp o := fun u => State.endOp_of_not_tcpy (by rw [hw]; rfl)
  simp only [State.deliverInput, State.deliverTo, ho, hw, hend]
  split
  · rfl
  · next hskip =>
    obtain ⟨hready, hwrite⟩ := hcan.resolve_left hskip
    simp only [hready, Bool.not_true, Bool.false_eq_true, if_false]
    split
    · next s1 hs1 => rw [hs1]
    · next s1 h hs1 => simp [hs1] at hwrite

/-- Where each participant in turn can be written, all are. -/
theorem State.deliverAll_of_can {is : List Nat} {w : State}
    (h : ∀ l i r, is = l ++ i :: r → (l.foldl (State.deliverTo data) w).CanDeliver data i) :
    State.deliverAll data is w = (is.foldl (State.deliverTo data) w, none) := by
  induction is generalizing w with
  | nil => rfl
  | cons i is ih =>
    have hfirst := State.deliverInput_of_can (h [] i is rfl)
    simp only [List.foldl_nil] at hfirst
    rw [State.deliverAll, hfirst]
    exact ih fun l j r hl => h (i :: l) j r (by rw [hl]; rfl)

/-- The slot of a chunk of which every copy here is verified. -/
def ChunkSlot.ready (c : ChunkSlot) : ChunkSlot := { c with verified := true }

theorem State.badDie_nil (s : State) (c : ChunkSlot) : s.badDie c [] = none := by
  have hnone : ∀ l : List Nat, l.filter ([] : List Nat).contains = [] := fun l => List.filter_eq_nil_iff.mpr fun _ _ => Bool.false_ne_true
  rw [State.badDie, hnone]
  rfl

section Verified

variable {s : State} {slot : Nat} {c : ChunkSlot} {x : Chunk} (hfind : s.chunks.find? (·.id == slot) = some c) (hacc : c.acc = some x)
  (hpeers : c.peers = []) (hver : c.verified = false)
include hfind hacc hpeers hver

theorem exec_collDeliver (bad : List Nat) : exec (.collDeliver slot bad) s = match s.badDie c bad with
    | some d => .next (s.failChunk c 2 d s.dev.modnum)
    | none =>
      let s1 := s.setSlot c.ready
      let s2 := if c.cross then s1.tellPeers c (s1.otherModules c.asid) (.outcome c.coll c.step c.chunk none) else s1
      .next (s2.tryDeliver c.ready) := by
  have hgone : ¬(c.acc.isNone || !c.peers.isEmpty) = true := by simp [hacc, hpeers]
  change execCollDeliver slot bad s = _
  unfold execCollDeliver
  rw [hfind]
  dsimp only
  rw [if_neg hgone, if_neg (ne_true_of_eq_false hver)]
  rfl

theorem exec_collDeliver_of_bad {bad : List Nat} {d : Nat} (hbad : s.badDie c bad = some d) :
    exec (.collDeliver slot bad) s = .next (s.failChunk c 2 d s.dev.modnum) := by
  rw [exec_collDeliver hfind hacc hpeers hver, hbad]

/-- On one module delivery follows at once. -/
theorem exec_collDeliver_of_local (hc : c.cross = false) (hvotes : c.votes = []) :
    exec (.collDeliver slot []) s = .next ((s.setSlot c.ready).deliver c.ready x.data) := by
  rw [exec_collDeliver hfind hacc hpeers hver, State.badDie_nil]
  simp only [hc, Bool.false_eq_true, if_false]
  have hacc' : c.ready.acc = some x := hacc
  have hall : (c.ready.verified && c.ready.votes.isEmpty) = true := by simp [ChunkSlot.ready, hvotes]
  simp only [State.tryDeliver, hacc', hall, if_true]

/-- Across modules the others are told first; nothing is written while the outcome of one is missing. -/
theorem exec_collDeliver_of_cross (hc : c.cross = true) (hvotes : c.votes ≠ []) :
    exec (.collDeliver slot []) s = .next { s.setSlot c.ready with
      outbox := s.outbox ++ (s.otherModules c.asid).map fun g => .coll g c.asid (.outcome c.coll c.step c.chunk none) } := by
  rw [exec_collDeliver hfind hacc hpeers hver, State.badDie_nil]
  simp only [hc, if_true]
  have hacc' : c.ready.acc = some x := hacc
  have hall : (c.ready.verified && c.ready.votes.isEmpty) = false := by simp [ChunkSlot.ready, hvotes]
  simp only [State.tryDeliver, hacc', hall, Bool.false_eq_true, if_false]
  rfl

end Verified

theorem State.deliver_of_all {s w : State} {c : ChunkSlot} (h : State.deliverAll data (c.inputs.map (·.1)) s = (w, none)) :
    s.deliver c data = { w with chunks := w.chunks.filter fun y => y.id != c.id } := by
  unfold State.deliver
  rw [h]

/-- A destination that cannot be written stops the delivery (log 44). -/
theorem State.deliver_of_halt {s w : State} {c : ChunkSlot} {o : EngOp} {h : Halt}
    (hall : State.deliverAll data (c.inputs.map (·.1)) s = (w, some (o, h))) (hmiss : ∀ va, h ≠ .miss va) : s.deliver c data = s := by
  unfold State.deliver
  rw [hall]
  cases h with
  | miss va => exact absurd rfl (hmiss va)
  | fault => rfl
  | ue => rfl

end Delivery

theorem exec_collTimeout {s : State} {slot : Nat} {c : ChunkSlot} (hfind : s.chunks.find? (·.id == slot) = some c) (hacc : c.acc = none)
    (hdue : c.deadline < s.clock) : exec (.collTimeout slot) s = .next (s.failChunk c 5 8 s.dev.modnum) := by
  have hover : s.overdue c = true := by simp [State.overdue, hacc, hdue]
  change execCollTimeout slot s = _
  simp only [execCollTimeout, hfind, hover, if_true]

/-! ### The obligation -/

/-- Settles O41: the chunk's checks, its egress, its inputs, the partials of other modules, the delivery and the failures, each by its lemma. -/
theorem collectivesReduce : Obligations.CollectivesReduce := by
  unfold Obligations.CollectivesReduce
  refine ⟨transport_eq_sum, ofHeader_header, ?egress, ?first, ?last, fun s o c x out h hn => State.Arrives.waits h hn,
    fun s o c x out h hn => ⟨_, State.Arrives.tooMany h hn, State.failed_failChunk { s with ops := s.sentOps o } _ 4 8⟩,
    ?partials, ?delivery, fun s slot c hfind hacc hdue => ⟨_, exec_collTimeout hfind hacc hdue, s.failed_failChunk c 5 8⟩⟩
  case egress =>
    intro s o src dst off len cross opr m np coll step chunk s1 bs hw hnew hsent hready hread
    exact ⟨State.egress_of_read hw hnew hsent hready hread, verifies_mkChunk .., rfl, rfl, rfl, op?_mkChunk .., fmc?_mkChunk ..⟩
  case first =>
    intro s o src dst off len cross opr m np coll step chunk x ho hrun hw hegress hver hnp hfind hroom hids
    obtain ⟨opr', m', hop, hfmt⟩ := Chunk.exists_of_verifies hver
    refine ⟨_, State.exec_firstInput ho hrun hw hegress hver hnp hfind hroom hids, rfl, rfl, rfl, rfl, ?_, ?_, rfl, rfl, rfl, rfl, rfl,
      rfl, rfl, rfl⟩
    · change x.op? = some (x.op?.getD opr)
      rw [hop]
      rfl
    · change x.fmc? = some (x.fmc?.getD m)
      rw [hfmt]
      rfl
  case last =>
    intro s o c x out a r y h hn hfailed hinputs
    refine ⟨fun hr hc => ?_, fun hr hc hg hnone hall => ?_, fun hr => ⟨_, ?_, State.failed_failChunk _ _ 3 8⟩⟩
    · rw [State.Arrives.gathers h hn]
      exact congrArg _ (State.gathered_of_local hfailed hinputs hr hc)
    · rw [State.Arrives.gathers h hn]
      exact congrArg _ (State.gathered_of_cross hfailed hinputs hr hc hg hnone hall)
    · rw [State.Arrives.gathers h hn]
      exact congrArg _ (State.gathered_of_check hfailed hinputs hr)
  case partials =>
    intro s asid coll step chunk port modnum opr fmt hop bs t w wsat out c a x i hstale hfind hacc hpeer
    have hgo : exec (.collPartialArrive asid coll step chunk port modnum opr fmt (.partialResult hop bs) t w wsat out) s =
        .next (s.takePartial c a x port modnum out) := congrArg Host.Outcome.next (State.hear_partial hstale hfind hacc hpeer)
    obtain ⟨hlink, hrest⟩ := s.takePartial_cases c a x port modnum out
    refine ⟨fun hver => ⟨_, hgo.trans (congrArg _ (hlink hver)), s.failed_failChunk c 1 _⟩, fun hver => ?_⟩
    obtain ⟨hdiffers, hagrees⟩ := hrest hver
    exact ⟨fun hno => ⟨_, hgo.trans (congrArg _ (hdiffers hno)), s.failed_failChunk c 4 8⟩,
      fun hyes hbad => ⟨_, hgo.trans (congrArg _ ((hagrees hyes).1 hbad)), s.failed_failChunk c 3 8⟩,
      fun hyes hgood => hgo.trans (congrArg _ ((hagrees hyes).2 hgood))⟩
  case delivery =>
    intro s slot c x hfind hacc hpeers hver
    refine ⟨fun hc hvotes => ⟨fun hcan => ?_, fun w o h hhalt hmiss => ?_⟩, fun hc hvotes => ?_,
      fun bad d hbad => ⟨_, exec_collDeliver_of_bad hfind hacc hpeers hver hbad, s.failed_failChunk c 2 d⟩⟩
    · rw [exec_collDeliver_of_local hfind hacc hpeers hver hc hvotes]
      exact congrArg _ (State.deliver_of_all (c := c.ready) (State.deliverAll_of_can hcan))
    · rw [exec_collDeliver_of_local hfind hacc hpeers hver hc hvotes]
      exact congrArg _ (State.deliver_of_halt (c := c.ready) hhalt hmiss)
    · exact exec_collDeliver_of_cross hfind hacc hpeers hver hc hvotes

end Sys2Proof.Machine
